-- ==== Sys2Proof/Word.lean ====
section
/-! DEFINITION. The word types of the device and their plainest arithmetic: bytes, stitch words, and numbers
held to a field's width. Every multi-byte value is little-endian (R6). -/

namespace Sys2Proof

/-- One byte as it stands in memory or in a frame. -/
abbrev Byte := BitVec 8

/-- A 32-bit register access word. -/
abbrev DWord := BitVec 32

/-- A 64-bit stitch word (chapter 5: the type is in bits 63:60). -/
abbrev Stitch := BitVec 64

/-- `n` held to `w` bits. -/
def trunc (w n : Nat) : Nat := n % 2 ^ w

/-- Bits `lo` upward of `n`, `w` of them (R5: a field is written high:low). -/
def field (n lo w : Nat) : Nat := n / 2 ^ lo % 2 ^ w

/-- Bit `b` of `n`. -/
def bitOf (n b : Nat) : Bool := n / 2 ^ b % 2 == 1

/-- `n` with its field of `w` bits at `lo` replaced by `v`. -/
def setField (n lo w v : Nat) : Nat := n - field n lo w * 2 ^ lo + trunc w v * 2 ^ lo

/-- 1 for true, 0 for false: a flag as a register field shows it. -/
def flag (b : Bool) : Nat := if b then 1 else 0

/-- The little-endian bytes of `n`, `k` of them (R6). -/
def toBytes : Nat → Nat → List Byte
  | 0, _ => []
  | k + 1, n => BitVec.ofNat 8 n :: toBytes k (n / 256)

/-- The number a little-endian byte string holds (R6). -/
def ofBytes : List Byte → Nat
  | [] => 0
  | b :: bs => b.toNat + 256 * ofBytes bs

/-- A two's-complement number of `w` bits as an integer. -/
def signed (w n : Nat) : Int := if n < 2 ^ (w - 1) then (n : Int) else (n : Int) - (2 ^ w : Nat)

/-- An integer as a two's-complement number of `w` bits. -/
def unsigned (w : Nat) (i : Int) : Nat := (i % ((2 ^ w : Nat) : Int)).toNat

end Sys2Proof
end

