-- ==== Sys2Proof/Syntax.lean ====
section
/-! DEFINITION. The commands the block takes: one constructor for each row of the spec's table of operations and
events, in the table's order, with the row's operands. What the device cannot know by itself (an edge on a probe
channel, what a memory returned, a message from the partner) comes with the command; what its registers decide
does not. -/

namespace Sys2Proof

/-- Which BAR a host write addresses (R35, R36): the register pages, or the mailbox buffers and MSI-X table. -/
inductive Bar where
  | bar0 | bar4
  deriving DecidableEq, Repr

/-- Negotiated link width (R29). -/
inductive Lanes where
  | x1 | x2 | x4 | x8 | x16
  deriving DecidableEq, Repr

/-- What a step of the lock procedure found (R75): the band and tuning word the loop arrived at, how long the whole lock
took so far, in microseconds, and the ticks since the first reference edge after step 4 (R85). -/
structure LockInfo where
  inTolerance : Bool
  bandFound   : Bool
  band        : Fin 16
  word        : BitVec 24
  micros      : DWord
  sinceEdge   : DWord
  deriving DecidableEq, Repr

/-- A wear counter of the LIFE page (R97); the two windows use their index registers. -/
inductive WearCounter where
  | powerOnSeconds
  | thermalCycles
  | brownouts
  | activations
  | hbmMib (s : Fin 4)
  | bandSeconds (b : Fin 8)
  | sectorErases
  | ovrCount
  deriving DecidableEq, Repr

/-- A probe channel or a state-clock input (R126, R137). -/
inductive ProbeInput where
  | channel (skein : Fin 64) (ch : Fin 16)
  | clock (m : Fin 32)
  deriving DecidableEq, Repr

/-- What a calibration found in a skein (R125): whether every channel met specification, its largest residual in 0.1 ps
and the channel that has it. -/
structure CalFinding where
  ok      : Bool
  resid   : Byte
  worstCh : Fin 16
  deriving DecidableEq, Repr

/-- What a calibration of several skeins found in one of them. -/
structure CalResult where
  skein   : Fin 65
  finding : CalFinding
  deriving DecidableEq, Repr

/-- What the hardware's own checkers found at a frame boundary: reducers with a parity error in their frame buffer
(R448), whether the spare's frame differed from its target's (R164), and the QUALITY RAILS bits of which every rail that
was below its warning level rose to it within the frame (R366). -/
structure FrameFindings where
  parity    : List (Fin 65)
  differs   : Bool
  recovered : List (Fin 4)
  deriving DecidableEq, Repr

/-- A counter or a timer of the sequencers' pool (R184). -/
inductive PoolCount where
  | counter (i : Fin 32)
  | timer (i : Fin 32)
  deriving DecidableEq, Repr

/-- What the record writer met in a slot: which of the words it read, counted from the first, had a parity error (R240; a
slot that discards a unit reads all its words), and whether the HBM controller failed the burst (R264, EV_279). -/
structure SlotFindings where
  parity : List (BitVec 12)
  failed : Bool
  deriving DecidableEq, Repr

/-- What an ECC check of a memory read found (R275, R303). -/
inductive EccFinding where
  | clean | corrected | uncorrectable
  deriving DecidableEq, Repr

/-- What a retraining pause found on a pseudo-channel's lanes (R279). -/
inductive LaneFinding where
  | centred
  | beyondRepair
  deriving DecidableEq, Repr

/-- Who accesses a grotto (R295): the acquisition port, for the acquisition path or the pre-history of a replay; the
DMA port, untagged or tagged as a compressor's; the control-processor port; and the host port, for the host or the
swatch test. -/
inductive GrottoPort where
  | acquisition | replay (seq : Fin 8) | dma | compressor | cpu | host | swatch
  deriving DecidableEq, Repr

/-- An access to a grotto word (R294, R302): a read, a write of the enabled bytes, and the two aliases. -/
inductive GrottoOp where
  | read | write | set | clear
  deriving DecidableEq, Repr

/-- How a swatch window's test ended (R455, and the fault's classes of R447): no fault found; abandoned for an access
that no command here shows; a failing column; a double-bit cell; or another fault. -/
inductive SwatchResult where
  | pass
  | abandoned
  | column (c : Fin 576)
  | doubleBit
  | other
  deriving DecidableEq, Repr

/-- A unit that the datapath test tries (R457). -/
inductive TestUnit where
  | channel (n : Fin 64)
  | comp (u : Fin 4)
  | decomp (d : Fin 2)
  | sequencer (n : Fin 8)
  deriving DecidableEq, Repr

/-- How a burst of a DMA channel ended at its target (R322, R324, R336). -/
inductive BurstEnd where
  | accepted
  | targetError
  deriving DecidableEq, Repr

/-- A main rail (R360, R385). -/
inductive Rail where
  | core | fe | hbmVpp | hbmVdd | hbmVddq | io
  deriving DecidableEq, Repr

/-- A unit with a power gate (R375). -/
inductive GatedUnit where
  | skein (n : Fin 65)
  | sequencer (n : Fin 8)
  deriving DecidableEq, Repr

/-- The straps sampled when PORST_N rises (R383). -/
structure Straps where
  refSel   : Bool
  bootMode : Fin 4
  deriving DecidableEq, Repr

/-- Why the service controller rejects a request frame (R416). -/
inductive FrameFlaw where
  | magic | length | crc | zeroField
  deriving DecidableEq, Repr

/-- A Flowstone unit (R342). -/
inductive FlowUnit where
  | comp (u : Fin 4)
  | decomp (d : Fin 2)
  deriving DecidableEq, Repr

/-- The commands of the block. An operand with a value after `:=` may be left out; the command then has that value. -/
inductive Instr where
  | perstN (low : Bool := true)
  | functionLevelReset
  | configurationRequest (write : Bool) (reg : BitVec 12) (value : DWord)
  | pcieLinkChange (up : Bool) (lanes : Lanes) (speed : Fin 6)
  | apertureRead (off : DWord) (len : Fin 4097) (findings : List EccFinding := [])
  | apertureWrite (off : DWord) (data : List Byte) (findings : List EccFinding := [])
  | registerWrite (bar : Bar) (addr : BitVec 24) (data : List (Option Byte))
  | pageUnlock (page : BitVec 12) (value : DWord)
  | eventLatchRead (addr : BitVec 24) (len : Fin 4097) (bar : Bar := .bar0)
  | pairLowHalfRead (addr : BitVec 24) (len : Fin 9)
  | postedWriteLands (page : BitVec 12)
  | evtForce (value : DWord)
  | vectorUnmask (v : Fin 64)
  | msixMessageSend (v : Fin 64)
  | holdoffExpiry (v : Fin 64)
  | snapRequest
  | snapshotTaken
  | divApply
  | dividersApplied
  | lockStepDone (info : LockInfo)
  | lockStepTimeout
  | lockRetry
  | relock (value : DWord)
  | refLoss (age : DWord) (word : BitVec 24)
  | lockLoss (age : DWord) (word : BitVec 24)
  | selfRefreshEntered
  | holdoverLimit
  | refReturn
  | eraAdvance
  | alarmFire (n : Fin 4)
  | calSecond
  | syncArm (value : DWord)
  | syncDisarm (value : DWord)
  | syncInPulse (level : Bool := true)
  | syncOutPulse (value : DWord)
  | calendarWrite (value : DWord)
  | wearCounterWrite (counter : WearCounter) (value : BitVec 64)
  | powerOnSecond
  | hbmWearReport
  | thermalSample
  | journalPeriod
  | journalCommit
  | journalCommitDone (ok : Bool)
  | vbatLow
  | xtalStop
  | probeEdge (skein : Fin 64) (ch : Fin 16) (level : Bool) (time : Nat)
  | overRange (input : ProbeInput)
  | fullCal
  | fullCalDone (results : List CalResult)
  | bgCalPassDone (results : List CalResult)
  | selfCheckStart (skein : Fin 65)
  | selfCheckDone (stuck opened : BitVec 16)
  | frameBoundary (findings : FrameFindings)
  | stateFrameBoundary (skein : Fin 65) (differs : Bool)
  | epochBoundary (counts : List (Fin 73 × DWord))
  | sampleEvaluation
  | timerExpire (i : Fin 32)
  | counterTarget (i : Fin 32)
  | counterSaturation (c : PoolCount)
  | trgArm (n : Fin 8) (value : DWord)
  | trgDisarm (n : Fin 8) (value : DWord)
  | forcePulse (n : Fin 8) (value : DWord)
  | trigInEdge (k : Fin 8) (level : Bool)
  | xtrigEdge (k : Fin 4) (low : Bool)
  | pinPulseEnd (pin : Fin 24) (n : Fin 8)
  | holdLimit (k : Fin 8)
  | holdCeiling (k : Fin 8)
  | holdReleaseNFall
  | holdReleaseNRise
  | holdGapEnd (k : Fin 8)
  | replayUnit (n : Fin 8)
  | sessionCloseDone (n : Fin 8)
  | admReserveWrite (value : DWord)
  | admCreditWrite (value : DWord)
  | budgetRebuild
  | writerSlot (owner : Fin 72) (findings : SlotFindings)
  | releasedWrite (value : BitVec 64)
  | ledgerRecordWrite (n : Fin 8)
  | segCmdRelease
  | hbmBurstAccept (addr : BitVec 37) (data : List Byte) (poisoned : Bool)
  | hbmReadAccept (addr : BitVec 37)
  | hbmIssue (pc : Fin 128) (parityError : Bool)
  | hbmReadData (pc : Fin 128) (finding : EccFinding)
  | refreshWindow (pc : Fin 128)
  | retrainingPause (pc : Fin 128) (margin : Byte) (lanes : LaneFinding)
  | scrubRead (pc : Fin 128) (burst : BitVec 24) (finding : EccFinding)
  | statusPoll (pc : Fin 128) (answered : Bool)
  | readTimeout (pc : Fin 128)
  | stackCatastrophicTrip (k : Fin 4)
  | stackTempRead (k : Fin 4) (temp : Byte)
  | hbmFenceGo (value : DWord)
  | hbmTrainingDone (untrainable : List (Fin 128))
  | hbmIdleSelfRefresh (pc : Fin 128)
  | hbmWakeReady (untrainable : List (Fin 128))
  | grottoHandover (b : Fin 64) (value : DWord)
  | handoverComplete (b : Fin 64)
  | grottoFillDone (b : Fin 64)
  | grottoAccess (port : GrottoPort) (b : Fin 64) (word : BitVec 17) (op : GrottoOp) (enables : Byte)
      (data : BitVec 64) (finding : EccFinding) (stalls : Byte := 0)
  | hostWindowRead (finding : EccFinding)
  | hostWindowWrite (data : BitVec 64)
  | swatchPassStart
  | swatchWindow (result : SwatchResult)
  | swatchPassEnd
  | dmaStart (n : Fin 64) (value : DWord)
  | dmaAbort (n : Fin 64) (value : DWord)
  | dmaAbortAll (value : DWord)
  | dmaKill (n : Fin 64) (value : DWord)
  | dmaEnable (n : Fin 64) (value : DWord)
  | chainKick (n : Fin 64) (value : DWord)
  | dmaGrant
  | descriptorFetch (n : Fin 64) (words : List (BitVec 32)) (findings : List EccFinding := [])
  | dmaBurstComplete (n : Fin 64) (how : BurstEnd) (data : List Byte) (findings : List EccFinding := [])
  | linkReadReturn (n : Fin 64) (word : BitVec 64) (error : Bool := false) (finding : EccFinding := .clean)
  | compressBlock (u : Fin 4)
  | decompressBlock (d : Fin 2)
  | decompressTrailer (d : Fin 2)
  | flowstoneParity (unit : FlowUnit)
  | brownoutStart (rail : Rail) (mv : BitVec 16)
  | brownoutEnd (since : BitVec 48 := 8192000)
  | brownoutBindOff
  | resetCrossing (rail : Rail)
  | aonSupplySwitch
  | aonSupplyReturn
  | parkComplete
  | wakeComplete
  | skeinGateWrite (spare : Bool) (value : BitVec 64)
  | sequencerGateWrite (value : DWord)
  | unitReadyChange (unit : GatedUnit) (cal : CalFinding)
  | dieTempRead (temps : List Byte)
  | dieTrip
  | tripClear
  | porstN (straps : Straps)
  | startUpStepDone (ok : Bool) (failed : BitVec 3 := 7)
  | clearMin (value : DWord)
  | echo (tag : BitVec 16)
  | planAdmit (tag : BitVec 16) (args : List Byte)
  | planRelease (tag : BitVec 16) (args : List Byte)
  | castOn (tag : BitVec 16) (args : List Byte)
  | bindOff (tag : BitVec 16) (args : List Byte)
  | arm (tag : BitVec 16) (args : List Byte)
  | forceTrigger (tag : BitVec 16) (args : List Byte)
  | segmentRelease (tag : BitVec 16) (args : List Byte)
  | quotaSet (tag : BitVec 16) (args : List Byte)
  | park (tag : BitVec 16)
  | wake (tag : BitVec 16)
  | activate (tag : BitVec 16) (args : List Byte)
  | activationDone (ok : Bool) (failed : BitVec 3 := 0)
  | confirm (tag : BitVec 16)
  | attest (tag : BitVec 16) (args : List Byte)
  | lifeRead (tag : BitVec 16)
  | calendarSet (tag : BitVec 16) (args : List Byte)
  | selftestReport (tag : BitVec 16)
  | fenceRead (tag : BitVec 16)
  | twinPair (tag : BitVec 16) (args : List Byte)
  | twinHandover (tag : BitVec 16)
  | replaySetup (tag : BitVec 16) (args : List Byte)
  | unknownCommand (code : Byte) (tag : BitVec 16)
  | cancel
  | heldProceed
  | watchdogRestart
  | watchdogFire
  | lockstepMismatch
  | cpRestartDone (loaded : BitVec 3) (millis : BitVec 16)
  | readFrame (count : BitVec 16 := 4112)
  | readStatus
  | unknownOpcode (op : Byte)
  | kspFrameReject (flaw : FrameFlaw) (code : Option Byte := none)
  | kspId (tag : BitVec 16)
  | kspStatus (tag : BitVec 16)
  | echoLite (tag : BitVec 16)
  | kspReset (tag : BitVec 16) (payload : List Byte) (straps : Straps := ⟨false, 0⟩)
  | resetReplyTimeout
  | holdRelease (tag : BitVec 16)
  | kspLifeRead (tag : BitVec 16)
  | dlBegin (tag : BitVec 16) (payload : List Byte)
  | dlData (tag : BitVec 16) (payload : List Byte)
  | dlEnd (tag : BitVec 16) (payload : List Byte)
  | verify (tag : BitVec 16) (payload : List Byte)
  | select (tag : BitVec 16) (payload : List Byte)
  | kspActivate (tag : BitVec 16) (payload : List Byte)
  | kspConfirm (tag : BitVec 16) (payload : List Byte)
  | kspAttest (tag : BitVec 16) (payload : List Byte)
  | kspUnknownCode (code : Byte) (tag : BitVec 16)
  | forwardAbandonTimeout
  | flashOpComplete (ok : Bool)
  | configRecordAppend
  | rotationVisit
  | refereeDone (spareFaulty : Bool)
  | confirmationEnd
  | datapathTestDone (unit : TestUnit) (passed : Bool)
  | fenceUnit (value : DWord)
  | fenceClear (value : DWord)
  | raiseSvn (value : DWord)
  | fuseBurnDone
  | hello (payload : List Byte)
  | helloSend
  | epoch (payload : List Byte)
  | fault (payload : List Byte)
  | handover (payload : List Byte)
  | command (payload : List Byte)
  | ack (payload : List Byte)
  | twinResend
  | linkSilence
  | epochMessageTimeout
  | laneDrop (lane : Fin 8)
  | vbatRestored
  | aonContentsLost
  | resetCrossingRestart (straps : Straps := ⟨false, 0⟩)
  | twinLinkUp
  | hbmRelockRetrainDone
  | stateClockEdge (m : Fin 32) (rising : Bool) (time : Nat)
  | overRangeClear (input : ProbeInput)
  | aerCorrectableError
  | bar0ReadAccessErr (addr : BitVec 24) (len : Nat)
  | unsupportedRequest
  | clkQualityAboveLimit (rms : Byte) (peak : Byte := 255)
  deriving DecidableEq, Repr

end Sys2Proof
end

