-- ==== Sys2Proof/Config.lean ====
section
/-! DEFINITION. What one device, one image or one implementation fixes and the spec leaves open: constants with no
body, so that no proof can see them, and a claim holds whatever they are. -/

namespace Sys2Proof

/-- The k-th value the spec leaves open (log entry 2). -/
opaque Config.freeValue : Nat → Nat

/-- SYS_SERIAL (R66: per device). -/
opaque Config.serial : BitVec 64

/-- The vendor ID assigned to Wifeter (R31). -/
opaque Config.vendorId : BitVec 16

/-- Where the power management control and status register stands in configuration space (R30; the spec gives no
layout). -/
opaque Config.pmcsrAt : BitVec 12

/-- Where the MSI-X capability's first double word stands in configuration space. -/
opaque Config.msixAt : BitVec 12

/-- Where Device Control stands in configuration space. -/
opaque Config.devControlAt : BitVec 12

/-- FUSE_KEY_DIGEST words 0 to 15 (R476: per device). -/
opaque Config.keyDigest : Nat → BitVec 32

/-- FUSE_SVN as delivered (R476: per device). -/
opaque Config.fuseSvn : BitVec 32

/-- FUSE_MFG.WEEK (R476: per device). -/
opaque Config.mfgWeek : BitVec 16

/-- FUSE_REPAIR words 0 to 7 (R476: per device). -/
opaque Config.fuseRepair : Nat → BitVec 32

/-- GRT_B_REPAIR.FUSED of grotto `b`: its spares in the fuses (R476). -/
def Config.grottoFused (b : Nat) : BitVec 4 := BitVec.ofNat 4 (field (Config.fuseRepair (b / 8)).toNat (4 * (b % 8)) 4)

/-- The die sensor nearest each skein (R378: the spec gives no placing). -/
opaque Config.sensorOf : Nat → Fin 16

/-- The device's identity public key (R444: per device). -/
opaque Config.identityKey : List Byte

/-- Version of the mask ROM (R418). -/
opaque Config.romVersion : BitVec 32

/-- SHAKE256 of a byte string, to the length in bytes asked for (R6; FIPS 202). -/
opaque Config.shake256 : List Byte → Nat → List Byte

/-- Verification of an SLH-DSA signature: public key, message, signature (R434; FIPS 205). -/
opaque Config.slhVerify : List Byte → List Byte → List Byte → Bool

/-- The device's own SLH-DSA signature of an attestation report (R444). -/
opaque Config.attestSign : List Byte → List Byte

end Sys2Proof
end

