-- ==== Sys2Proof/Machine/Store.lean ====
section
/-! DEFINITION. Sparse data by number: a list of (key, value) pairs with keys strictly rising and no entry equal
to what an unlisted key reads as. Registers, memories and tables of units are held so. -/

namespace Sys2Proof.Machine

/-- A table from numbers to values: the listed pairs, keys strictly rising. -/
abbrev Sparse (α : Type) := List (Nat × α)

/-- The value at key `k`, or `d` where `k` is not listed. -/
def sget {α : Type} : Sparse α → Nat → α → α
  | [], _, d => d
  | (k', v) :: t, k, d => if k' = k then v else sget t k d

/-- The table without any entry at `k`. -/
def sdel {α : Type} (k : Nat) : Sparse α → Sparse α
  | [] => []
  | (k', v) :: t => if k' = k then sdel k t else (k', v) :: sdel k t

/-- The table with the pair (k, v) placed before the first larger key. -/
def sins {α : Type} (k : Nat) (v : α) : Sparse α → Sparse α
  | [] => [(k, v)]
  | (k', v') :: t => if k < k' then (k, v) :: (k', v') :: t else (k', v') :: sins k v t

/-- Store `v` at `k`, where an unlisted key reads as `d`: storing `d` itself removes the entry. -/
def sput {α : Type} [DecidableEq α] (m : Sparse α) (k : Nat) (d v : α) : Sparse α :=
  if v = d then sdel k m else sins k v (sdel k m)

/-- Every listed key is above `k`, and the keys rise strictly. -/
def risingFrom {α : Type} : Nat → Sparse α → Bool
  | _, [] => true
  | k, (k', _) :: t => decide (k < k') && risingFrom k' t

/-- The keys of a table rise strictly. -/
def rising {α : Type} : Sparse α → Bool
  | [] => true
  | (k, _) :: t => risingFrom k t

/-- No entry of a table is the value `d` that an unlisted key reads as. -/
def noDefault {α : Type} [DecidableEq α] (d : α) : Sparse α → Bool
  | [] => true
  | (_, v) :: t => decide (v ≠ d) && noDefault d t

/-- The canonical form of a table whose unlisted keys read as `d`. -/
def canonical {α : Type} [DecidableEq α] (d : α) (m : Sparse α) : Bool := rising m && noDefault d m

/-- Update the value at `k`. -/
def smod {α : Type} [DecidableEq α] (m : Sparse α) (k : Nat) (d : α) (f : α → α) : Sparse α :=
  sput m k d (f (sget m k d))

/-- `[0, 1, …, n - 1]`. -/
def upto (n : Nat) : List Nat := List.range n

end Sys2Proof.Machine
end

