-- ==== Sys2Proof/Machine/RegField.lean ====
section
/-! DEFINITION. Register pages, register fields and where each field's value is held: the page index of R44, the
field kinds of R9, the page header of R45 and R46, and the place of each event's latch (R63 and the event tables
of the chapters). -/

namespace Sys2Proof.Machine

/-- The kinds of register page (R44). -/
inductive PageClass where
  | sys | clk | time | life | pwr | evt | mbx | svc | fuse | swt | twn
  | feg | fe | skn | trg | pool | adm | sq | wr | seg | hbm | hbmg | grt | flw | dmag | dma
  deriving DecidableEq, Repr

/-- The field kinds (R9); `ident` is the manual's ID. -/
inductive Kind where
  | cfg | shd | sta | evt | cnt | cmd | key | ident
  deriving DecidableEq, Repr

/-- One field of a register map. `stride` and `count` give a repeated register; `index` is the offset of the
index register of a window, 0 where the register is not seen through one. -/
structure RegField where
  cls    : PageClass
  off    : Nat
  stride : Nat
  count  : Nat
  lo     : Nat
  width  : Nat
  kind   : Kind
  reset  : Nat
  index  : Nat
  deriving DecidableEq, Repr

/-- One register field of one page: a cell of the register store. -/
structure Fld where
  page  : Nat
  off   : Nat
  lo    : Nat
  width : Nat
  reset : Nat
  idx   : Nat
  deriving DecidableEq, Repr

/-- The cell's number in the store: page, offset, lowest bit, window index and width, each in its own digits. -/
def Fld.key (f : Fld) : Nat :=
  (((f.page * 4096 + f.off) * 64 + f.lo) * 16384 + f.idx) * 64 + (f.width - 1)

/-- The width in bits that a cell's number states. -/
def keyWidth (k : Nat) : Nat := k % 64 + 1

/-- The page ID of instance `n` of a class (R44). -/
def PageClass.page : PageClass → Nat → Nat
  | .sys, _ => 0x000
  | .clk, _ => 0x001
  | .time, _ => 0x002
  | .life, _ => 0x003
  | .pwr, _ => 0x004
  | .evt, _ => 0x005
  | .mbx, _ => 0x006
  | .svc, _ => 0x007
  | .fuse, _ => 0x008
  | .swt, _ => 0x009
  | .twn, _ => 0x00A
  | .feg, _ => 0x010
  | .fe, n => 0x020 + n
  | .skn, n => if n = 64 then 0x150 else 0x100 + n
  | .trg, n => 0x140 + n
  | .pool, n => 0x148 + n
  | .adm, _ => 0x160
  | .sq, _ => 0x161
  | .wr, _ => 0x162
  | .seg, _ => 0x163
  | .hbm, n => 0x180 + n
  | .hbmg, _ => 0x188
  | .grt, _ => 0x1A0
  | .flw, _ => 0x1B0
  | .dmag, _ => 0x1C0
  | .dma, n => 0x1C1 + n

/-- The class and instance of a page ID; none where the offset holds no page (R44). -/
def pageOf (p : Nat) : Option (PageClass × Nat) :=
  if p = 0x000 then some (.sys, 0)
  else if p = 0x001 then some (.clk, 0)
  else if p = 0x002 then some (.time, 0)
  else if p = 0x003 then some (.life, 0)
  else if p = 0x004 then some (.pwr, 0)
  else if p = 0x005 then some (.evt, 0)
  else if p = 0x006 then some (.mbx, 0)
  else if p = 0x007 then some (.svc, 0)
  else if p = 0x008 then some (.fuse, 0)
  else if p = 0x009 then some (.swt, 0)
  else if p = 0x00A then some (.twn, 0)
  else if p = 0x010 then some (.feg, 0)
  else if 0x020 ≤ p ∧ p ≤ 0x060 then some (.fe, p - 0x020)
  else if 0x100 ≤ p ∧ p < 0x140 then some (.skn, p - 0x100)
  else if 0x140 ≤ p ∧ p < 0x148 then some (.trg, p - 0x140)
  else if 0x148 ≤ p ∧ p < 0x150 then some (.pool, p - 0x148)
  else if p = 0x150 then some (.skn, 64)
  else if p = 0x160 then some (.adm, 0)
  else if p = 0x161 then some (.sq, 0)
  else if p = 0x162 then some (.wr, 0)
  else if p = 0x163 then some (.seg, 0)
  else if 0x180 ≤ p ∧ p < 0x184 then some (.hbm, p - 0x180)
  else if p = 0x188 then some (.hbmg, 0)
  else if p = 0x1A0 then some (.grt, 0)
  else if p = 0x1B0 then some (.flw, 0)
  else if p = 0x1C0 then some (.dmag, 0)
  else if 0x1C1 ≤ p ∧ p ≤ 0x200 then some (.dma, p - 0x1C1)
  else none

/-- The class code of PAGE_ID.CLASS (R44). -/
def PageClass.code : PageClass → Nat
  | .sys => 0x01 | .clk => 0x02 | .time => 0x03 | .life => 0x04 | .pwr => 0x05 | .evt => 0x06
  | .mbx => 0x07 | .svc => 0x08 | .fuse => 0x09 | .swt => 0x0A | .twn => 0x0B
  | .feg => 0x10 | .fe => 0x11 | .skn => 0x12 | .trg => 0x13 | .pool => 0x14
  | .adm => 0x18 | .sq => 0x19 | .wr => 0x1A | .seg => 0x1B
  | .hbm => 0x20 | .hbmg => 0x21 | .grt => 0x28 | .flw => 0x38 | .dmag => 0x30 | .dma => 0x31

/-- The guarded pages (R44). -/
def PageClass.guarded : PageClass → Bool
  | .clk | .life | .pwr | .fuse | .swt | .twn | .adm | .hbmg => true
  | _ => false

/-- The same by page ID. -/
def guardedPage (p : Nat) : Bool :=
  match pageOf p with
  | some (c, _) => c.guarded
  | none => false

/-- PAGE_CAP.POSTED: some block registers of the page take posted writes (R44). -/
def PageClass.posted : PageClass → Bool
  | .life | .svc | .hbm | .hbmg | .fe | .skn => true
  | _ => false

/-- PAGE_CAP.SHADOWED: the page holds SHD fields (R46; the FE_n and SKN_n maps). -/
def PageClass.shadowed : PageClass → Bool
  | .fe | .skn => true
  | _ => false

/-- PAGE_CAP.EVENT_COUNT: the PAGE_EVENT bits in use (the event tables of the chapters). -/
def PageClass.eventCount : PageClass → Nat
  | .sys => 4 | .clk => 8 | .time => 6 | .life => 6 | .pwr => 8 | .evt => 14 | .mbx => 6 | .svc => 13
  | .fuse => 3 | .swt => 14 | .twn => 10 | .feg => 0 | .fe => 0 | .skn => 1 | .trg => 6 | .pool => 2
  | .adm => 6 | .sq => 32 | .wr => 15 | .seg => 4 | .hbm => 12 | .hbmg => 16 | .grt => 32 | .flw => 12
  | .dmag => 0 | .dma => 1

/-- The single cell of a field on a page of one instance. -/
abbrev RegField.one (f : RegField) : Fld := ⟨f.cls.page 0, f.off, f.lo, f.width, f.reset, 0⟩

/-- The cell on the page of instance `n`. -/
abbrev RegField.of (f : RegField) (n : Nat) : Fld := ⟨f.cls.page n, f.off, f.lo, f.width, f.reset, 0⟩

/-- The cell of element `e` of a repeated register on a page of one instance. -/
abbrev RegField.elt (f : RegField) (e : Nat) : Fld :=
  ⟨f.cls.page 0, f.off + e * f.stride, f.lo, f.width, f.reset, 0⟩

/-- The cell of element `e` of a repeated register on the page of instance `n`. -/
abbrev RegField.ofElt (f : RegField) (n e : Nat) : Fld :=
  ⟨f.cls.page n, f.off + e * f.stride, f.lo, f.width, f.reset, 0⟩

/-- The cell of a pool resource, numbered through the pool pages `count` to a page (R219). -/
abbrev RegField.res (f : RegField) (i : Nat) : Fld :=
  ⟨f.cls.page (i / f.count), f.off + i % f.count * f.stride, f.lo, f.width, f.reset, 0⟩

/-- The cell a window shows at index `i`, on a page of one instance. -/
abbrev RegField.win (f : RegField) (i : Nat) : Fld := ⟨f.cls.page 0, f.off, f.lo, f.width, f.reset, i⟩

/-- The cell a window shows at index `i` for element `e`. -/
abbrev RegField.winElt (f : RegField) (i e : Nat) : Fld :=
  ⟨f.cls.page 0, f.off + e * f.stride, f.lo, f.width, f.reset, i⟩

/-- The cell a window shows at index `i` on the page of instance `n`. -/
abbrev RegField.ofWin (f : RegField) (n i : Nat) : Fld := ⟨f.cls.page n, f.off, f.lo, f.width, f.reset, i⟩

/-! ### The page header (R45, R46) -/

/-- PAGE_STATUS.WRONG_KEY of page `p`. -/
abbrev wrongKeyOf (p : Nat) : Fld := ⟨p, 0x00C, 8, 8, 0, 0⟩
/-- PAGE_STATUS.LOST_WRITE of page `p`. -/
abbrev lostWriteOf (p : Nat) : Fld := ⟨p, 0x00C, 4, 1, 0, 0⟩
/-- PAGE_STATUS.ACCESS_ERR of page `p`. -/
abbrev accessErrOf (p : Nat) : Fld := ⟨p, 0x00C, 3, 1, 0, 0⟩
/-- PAGE_STATUS.FENCED of page `p`. -/
abbrev fencedOf (p : Nat) : Fld := ⟨p, 0x00C, 2, 1, 0, 0⟩
/-- The unlocked state of a guarded page: PAGE_STATUS.LOCKED reads its complement there, 0 elsewhere. -/
abbrev unlockedOf (p : Nat) : Fld := ⟨p, 0x00C, 1, 1, 0, 0⟩
/-- PAGE_STATUS.BUSY of page `p`. -/
abbrev busyOf (p : Nat) : Fld := ⟨p, 0x00C, 0, 1, 0, 0⟩

/-! ### Where an event is latched and enabled -/

/-- The page, latch offset, enable offset and bit of an event. -/
structure EvPlace where
  page  : Nat
  latch : Nat
  en    : Nat
  bit   : Nat
  deriving DecidableEq, Repr

/-- Bit `b` of the PAGE_EVENT of a page. -/
def evBit (page b : Nat) : EvPlace := ⟨page, 0x010, 0x014, b⟩

/-- The place of EV_k (R63 and the event table of each page; R242 for the queues above 31). `none` for the
numbers no page names. -/
def evPlace (k : Nat) : Option EvPlace :=
  if k < 4 then some (evBit 0x000 k)
  else if k < 12 then some (evBit 0x001 (k - 4))
  else if k < 18 then some (evBit 0x002 (k - 12))
  else if k < 26 then some (evBit 0x004 (k - 18))
  else if k < 32 then some (evBit 0x003 (k - 26))
  else if k < 38 then some (evBit 0x006 (k - 32))
  else if k < 51 then some (evBit 0x007 (k - 38))
  else if k < 54 then none
  else if k < 57 then some (evBit 0x008 (k - 54))
  else if k < 64 then none
  else if k < 194 then
    (if k % 2 = 1 then some (evBit (PageClass.skn.page ((k - 64) / 2)) 0)
     else if (k - 64) / 2 < 32 then some (evBit 0x161 ((k - 64) / 2))
     else if (k - 64) / 2 < 64 then some ⟨0x161, 0x080, 0x088, (k - 64) / 2 - 32⟩
     else some ⟨0x161, 0x084, 0x08C, 0⟩)
  else if k < 258 then
    (if (k - 194) % 8 < 6 then some (evBit (0x140 + (k - 194) / 8) ((k - 194) % 8))
     else some (evBit (0x148 + (k - 194) / 8) ((k - 194) % 8 - 6)))
  else if k < 264 then some (evBit 0x160 (k - 258))
  else if k < 266 then none
  else if k < 281 then some (evBit 0x162 (k - 266))
  else if k < 282 then none
  else if k < 286 then some (evBit 0x163 (k - 282))
  else if k < 290 then none
  else if k < 354 then
    (if (k - 290) % 16 < 12 then some (evBit (0x180 + (k - 290) / 16) ((k - 290) % 16))
     else some (evBit 0x188 ((k - 290) / 16 * 4 + ((k - 290) % 16 - 12))))
  else if k < 386 then some (evBit 0x1A0 (k - 354))
  else if k < 450 then some (evBit (0x1C1 + (k - 386)) 0)
  else if k < 462 then some (evBit 0x1B0 (k - 450))
  else if k < 466 then none
  else if k < 480 then some (evBit 0x009 (k - 466))
  else if k < 482 then none
  else if k < 492 then some (evBit 0x00A (k - 482))
  else if k < 498 then none
  else if k < 512 then some (evBit 0x005 (k - 498))
  else none

/-- The latch cell of an event. -/
abbrev EvPlace.latchFld (e : EvPlace) : Fld := ⟨e.page, e.latch, e.bit, 1, 0, 0⟩

/-- The enable cell of an event. -/
abbrev EvPlace.enFld (e : EvPlace) : Fld := ⟨e.page, e.en, e.bit, 1, 0, 0⟩

end Sys2Proof.Machine
end

