-- ==== Sys2Proof/Machine/Fields.lean ====
section
/-! DEFINITION. Every register field of the spec's register maps, one definition a field, named REGISTER_FIELD
as the spec names it (REGISTER alone where the register has one field). A field gives its page class, byte
offset, stride and number of repeats, lowest bit, width, kind (R9), reset value and, for a register seen
through a window, the offset of its index register. A 64-bit pair is one register at its low half's offset.
The page header (R45, R46) is in Machine/RegField.lean. -/

namespace Sys2Proof.Machine

/-! ### Fields of the SYS pages (R66 of spec/02*.md) -/

def SYS_IDENT_FAMILY : RegField := ⟨.sys, 0x040, 0, 1, 16, 16, .ident, 0x545A, 0x0⟩
def SYS_IDENT_PART : RegField := ⟨.sys, 0x040, 0, 1, 0, 16, .ident, 0x1024, 0x0⟩
def SYS_STEPPING_LETTER : RegField := ⟨.sys, 0x044, 0, 1, 4, 4, .ident, 0x2, 0x0⟩
def SYS_STEPPING_NUMBER : RegField := ⟨.sys, 0x044, 0, 1, 0, 4, .ident, 0x1, 0x0⟩
def SYS_SERIAL : RegField := ⟨.sys, 0x048, 0, 1, 0, 64, .ident, 0x0, 0x0⟩
def SYS_FW_VERSION_MAJOR : RegField := ⟨.sys, 0x050, 0, 1, 24, 8, .sta, 0x0, 0x0⟩
def SYS_FW_VERSION_MINOR : RegField := ⟨.sys, 0x050, 0, 1, 16, 8, .sta, 0x0, 0x0⟩
def SYS_FW_VERSION_BUILD : RegField := ⟨.sys, 0x050, 0, 1, 0, 16, .sta, 0x0, 0x0⟩
def SYS_BOOT_RECOVERY : RegField := ⟨.sys, 0x054, 0, 1, 7, 1, .sta, 0x0, 0x0⟩
def SYS_BOOT_TRIAL : RegField := ⟨.sys, 0x054, 0, 1, 6, 1, .sta, 0x0, 0x0⟩
def SYS_BOOT_SLOT : RegField := ⟨.sys, 0x054, 0, 1, 4, 2, .sta, 0x0, 0x0⟩
def SYS_BOOT_REF_SEL : RegField := ⟨.sys, 0x054, 0, 1, 2, 1, .sta, 0x0, 0x0⟩
def SYS_BOOT_BOOT_MODE : RegField := ⟨.sys, 0x054, 0, 1, 0, 2, .sta, 0x0, 0x0⟩
def SYS_LINK_STATUS_DEGRADED : RegField := ⟨.sys, 0x058, 0, 1, 11, 1, .sta, 0x0, 0x0⟩
def SYS_LINK_STATUS_UP : RegField := ⟨.sys, 0x058, 0, 1, 10, 1, .sta, 0x0, 0x0⟩
def SYS_LINK_STATUS_WIDTH : RegField := ⟨.sys, 0x058, 0, 1, 4, 6, .sta, 0x0, 0x0⟩
def SYS_LINK_STATUS_SPEED : RegField := ⟨.sys, 0x058, 0, 1, 0, 4, .sta, 0x0, 0x0⟩
def SYS_SNAP : RegField := ⟨.sys, 0x060, 0, 1, 0, 1, .cmd, 0x0, 0x0⟩
def SYS_SNAP_STATUS_BYPASS : RegField := ⟨.sys, 0x064, 0, 1, 1, 1, .sta, 0x0, 0x0⟩
def SYS_SNAP_STATUS_PENDING : RegField := ⟨.sys, 0x064, 0, 1, 0, 1, .sta, 0x0, 0x0⟩
def SYS_SNAP_FRAME_ERA : RegField := ⟨.sys, 0x068, 0, 1, 46, 16, .sta, 0x0, 0x0⟩
def SYS_SNAP_FRAME_FRAME : RegField := ⟨.sys, 0x068, 0, 1, 0, 46, .sta, 0x0, 0x0⟩
def SYS_APERTURE_BASE : RegField := ⟨.sys, 0x080, 0, 1, 20, 17, .cfg, 0x0, 0x0⟩
def SYS_APERTURE_CTRL : RegField := ⟨.sys, 0x088, 0, 1, 0, 1, .cfg, 0x1, 0x0⟩
def SYS_APERTURE_STATUS_NOT_READY : RegField := ⟨.sys, 0x08C, 0, 1, 3, 1, .evt, 0x0, 0x0⟩
def SYS_APERTURE_STATUS_PARKED_ACCESS : RegField := ⟨.sys, 0x08C, 0, 1, 2, 1, .evt, 0x0, 0x0⟩
def SYS_APERTURE_STATUS_REGION_WRITE : RegField := ⟨.sys, 0x08C, 0, 1, 1, 1, .evt, 0x0, 0x0⟩
def SYS_APERTURE_STATUS_OUT_OF_RANGE : RegField := ⟨.sys, 0x08C, 0, 1, 0, 1, .evt, 0x0, 0x0⟩
def SYS_LAST_ERR_CAUSE : RegField := ⟨.sys, 0x090, 0, 1, 28, 2, .sta, 0x0, 0x0⟩
def SYS_LAST_ERR_OFFSET : RegField := ⟨.sys, 0x090, 0, 1, 16, 12, .sta, 0x0, 0x0⟩
def SYS_LAST_ERR_PAGE : RegField := ⟨.sys, 0x090, 0, 1, 0, 16, .sta, 0x0, 0x0⟩
def SYS_SCRATCH : RegField := ⟨.sys, 0x0A0, 4, 4, 0, 32, .cfg, 0x0, 0x0⟩

/-- The fields of a SYS page, in the order of its map. -/
def sysFields : List RegField :=
  [SYS_IDENT_FAMILY, SYS_IDENT_PART, SYS_STEPPING_LETTER, SYS_STEPPING_NUMBER,
    SYS_SERIAL, SYS_FW_VERSION_MAJOR, SYS_FW_VERSION_MINOR, SYS_FW_VERSION_BUILD,
    SYS_BOOT_RECOVERY, SYS_BOOT_TRIAL, SYS_BOOT_SLOT, SYS_BOOT_REF_SEL] ++
  [SYS_BOOT_BOOT_MODE, SYS_LINK_STATUS_DEGRADED, SYS_LINK_STATUS_UP, SYS_LINK_STATUS_WIDTH,
    SYS_LINK_STATUS_SPEED, SYS_SNAP, SYS_SNAP_STATUS_BYPASS, SYS_SNAP_STATUS_PENDING,
    SYS_SNAP_FRAME_ERA, SYS_SNAP_FRAME_FRAME, SYS_APERTURE_BASE, SYS_APERTURE_CTRL] ++
  [SYS_APERTURE_STATUS_NOT_READY, SYS_APERTURE_STATUS_PARKED_ACCESS, SYS_APERTURE_STATUS_REGION_WRITE, SYS_APERTURE_STATUS_OUT_OF_RANGE,
    SYS_LAST_ERR_CAUSE, SYS_LAST_ERR_OFFSET, SYS_LAST_ERR_PAGE, SYS_SCRATCH]

/-! ### Fields of the EVT pages (R68 of spec/02*.md) -/

def EVT_CTRL : RegField := ⟨.evt, 0x040, 0, 1, 0, 1, .cfg, 0x0, 0x0⟩
def EVT_STATUS_ANY : RegField := ⟨.evt, 0x044, 0, 1, 31, 1, .sta, 0x0, 0x0⟩
def EVT_STATUS_LOWEST : RegField := ⟨.evt, 0x044, 0, 1, 16, 9, .sta, 0x0, 0x0⟩
def EVT_STATUS_EVENT_N : RegField := ⟨.evt, 0x044, 0, 1, 0, 1, .sta, 0x0, 0x0⟩
def EVT_FORCE : RegField := ⟨.evt, 0x048, 0, 1, 0, 14, .cmd, 0x0, 0x0⟩
def EVT_HOLDOFF : RegField := ⟨.evt, 0x04C, 0, 1, 0, 16, .cfg, 0x0, 0x0⟩
def EVT_PENDING : RegField := ⟨.evt, 0x080, 4, 16, 0, 32, .sta, 0x0, 0x0⟩
def EVT_RAW : RegField := ⟨.evt, 0x0C0, 4, 16, 0, 32, .sta, 0x0, 0x0⟩
def EVT_VEC_COUNT : RegField := ⟨.evt, 0x300, 4, 64, 0, 32, .cnt, 0x0, 0x0⟩
def EVT_MAP0_MSIX : RegField := ⟨.evt, 0x100, 4, 128, 7, 1, .cfg, 0x0, 0x0⟩
def EVT_MAP0_EVENT_N : RegField := ⟨.evt, 0x100, 4, 128, 6, 1, .cfg, 0x0, 0x0⟩
def EVT_MAP0_VECTOR : RegField := ⟨.evt, 0x100, 4, 128, 0, 6, .cfg, 0x0, 0x0⟩
def EVT_MAP1_MSIX : RegField := ⟨.evt, 0x100, 4, 128, 15, 1, .cfg, 0x0, 0x0⟩
def EVT_MAP1_EVENT_N : RegField := ⟨.evt, 0x100, 4, 128, 14, 1, .cfg, 0x0, 0x0⟩
def EVT_MAP1_VECTOR : RegField := ⟨.evt, 0x100, 4, 128, 8, 6, .cfg, 0x0, 0x0⟩
def EVT_MAP2_MSIX : RegField := ⟨.evt, 0x100, 4, 128, 23, 1, .cfg, 0x0, 0x0⟩
def EVT_MAP2_EVENT_N : RegField := ⟨.evt, 0x100, 4, 128, 22, 1, .cfg, 0x0, 0x0⟩
def EVT_MAP2_VECTOR : RegField := ⟨.evt, 0x100, 4, 128, 16, 6, .cfg, 0x0, 0x0⟩
def EVT_MAP3_MSIX : RegField := ⟨.evt, 0x100, 4, 128, 31, 1, .cfg, 0x0, 0x0⟩
def EVT_MAP3_EVENT_N : RegField := ⟨.evt, 0x100, 4, 128, 30, 1, .cfg, 0x0, 0x0⟩
def EVT_MAP3_VECTOR : RegField := ⟨.evt, 0x100, 4, 128, 24, 6, .cfg, 0x0, 0x0⟩

/-- The fields of a EVT page, in the order of its map. -/
def evtFields : List RegField :=
  [EVT_CTRL, EVT_STATUS_ANY, EVT_STATUS_LOWEST, EVT_STATUS_EVENT_N,
    EVT_FORCE, EVT_HOLDOFF, EVT_PENDING, EVT_RAW,
    EVT_VEC_COUNT, EVT_MAP0_MSIX, EVT_MAP0_EVENT_N, EVT_MAP0_VECTOR] ++
  [EVT_MAP1_MSIX, EVT_MAP1_EVENT_N, EVT_MAP1_VECTOR, EVT_MAP2_MSIX,
    EVT_MAP2_EVENT_N, EVT_MAP2_VECTOR, EVT_MAP3_MSIX, EVT_MAP3_EVENT_N,
    EVT_MAP3_VECTOR]

/-! ### Fields of the CLK pages (R102 of spec/03*.md) -/

def CLK_CTRL_RETRY_MS : RegField := ⟨.clk, 0x040, 0, 1, 8, 8, .cfg, 0xA, 0x0⟩
def CLK_CTRL_AUTO_RELOCK : RegField := ⟨.clk, 0x040, 0, 1, 4, 1, .cfg, 0x1, 0x0⟩
def CLK_CTRL_BANDWIDTH : RegField := ⟨.clk, 0x040, 0, 1, 2, 2, .cfg, 0x2, 0x0⟩
def CLK_CTRL_RELOCK : RegField := ⟨.clk, 0x040, 0, 1, 0, 1, .cmd, 0x0, 0x0⟩
def CLK_STATUS_STEP : RegField := ⟨.clk, 0x044, 0, 1, 12, 4, .sta, 0x0, 0x0⟩
def CLK_STATUS_BAND : RegField := ⟨.clk, 0x044, 0, 1, 8, 4, .sta, 0x0, 0x0⟩
def CLK_STATUS_SEARCHING : RegField := ⟨.clk, 0x044, 0, 1, 5, 1, .sta, 0x0, 0x0⟩
def CLK_STATUS_FALLBACK : RegField := ⟨.clk, 0x044, 0, 1, 4, 1, .sta, 0x0, 0x0⟩
def CLK_STATUS_REF_OK : RegField := ⟨.clk, 0x044, 0, 1, 3, 1, .sta, 0x0, 0x0⟩
def CLK_STATUS_BYPASS : RegField := ⟨.clk, 0x044, 0, 1, 2, 1, .sta, 0x1, 0x0⟩
def CLK_STATUS_HOLDOVER : RegField := ⟨.clk, 0x044, 0, 1, 1, 1, .sta, 0x0, 0x0⟩
def CLK_STATUS_LOCKED : RegField := ⟨.clk, 0x044, 0, 1, 0, 1, .sta, 0x0, 0x0⟩
def CLK_TUNE : RegField := ⟨.clk, 0x048, 0, 1, 0, 24, .sta, 0x0, 0x0⟩
def CLK_QUALITY_CAL_AGE : RegField := ⟨.clk, 0x04C, 0, 1, 24, 8, .sta, 0xFF, 0x0⟩
def CLK_QUALITY_TDC_RMS : RegField := ⟨.clk, 0x04C, 0, 1, 16, 8, .sta, 0x0, 0x0⟩
def CLK_QUALITY_PHASE_PEAK : RegField := ⟨.clk, 0x04C, 0, 1, 8, 8, .sta, 0x0, 0x0⟩
def CLK_QUALITY_PHASE_RMS : RegField := ⟨.clk, 0x04C, 0, 1, 0, 8, .sta, 0x0, 0x0⟩
def CLK_QUALITY_LIMIT_TDC_RMS_LIMIT : RegField := ⟨.clk, 0x050, 0, 1, 8, 8, .cfg, 0x1E, 0x0⟩
def CLK_QUALITY_LIMIT_PHASE_RMS_LIMIT : RegField := ⟨.clk, 0x050, 0, 1, 0, 8, .cfg, 0x14, 0x0⟩
def CLK_DIV_NEXT_PCLK_DIV : RegField := ⟨.clk, 0x054, 0, 1, 4, 1, .cfg, 0x0, 0x0⟩
def CLK_DIV_NEXT_CCLK_DIV : RegField := ⟨.clk, 0x054, 0, 1, 0, 2, .cfg, 0x0, 0x0⟩
def CLK_DIV_ACTIVE_PCLK_DIV : RegField := ⟨.clk, 0x05C, 0, 1, 4, 1, .sta, 0x0, 0x0⟩
def CLK_DIV_ACTIVE_CCLK_DIV : RegField := ⟨.clk, 0x05C, 0, 1, 0, 2, .sta, 0x0, 0x0⟩
def CLK_DIV_APPLY : RegField := ⟨.clk, 0x058, 0, 1, 0, 1, .cmd, 0x0, 0x0⟩
def CLK_LOSS_COUNT_REF_LOSSES : RegField := ⟨.clk, 0x060, 0, 1, 16, 16, .cnt, 0x0, 0x0⟩
def CLK_LOSS_COUNT_LOCK_LOSSES : RegField := ⟨.clk, 0x060, 0, 1, 0, 16, .cnt, 0x0, 0x0⟩
def CLK_LOCK_TIME : RegField := ⟨.clk, 0x064, 0, 1, 0, 32, .sta, 0x0, 0x0⟩
def CLK_LAST_LOSS : RegField := ⟨.clk, 0x068, 0, 1, 0, 64, .sta, 0x0, 0x0⟩

/-- The fields of a CLK page, in the order of its map. -/
def clkFields : List RegField :=
  [CLK_CTRL_RETRY_MS, CLK_CTRL_AUTO_RELOCK, CLK_CTRL_BANDWIDTH, CLK_CTRL_RELOCK,
    CLK_STATUS_STEP, CLK_STATUS_BAND, CLK_STATUS_SEARCHING, CLK_STATUS_FALLBACK,
    CLK_STATUS_REF_OK, CLK_STATUS_BYPASS, CLK_STATUS_HOLDOVER, CLK_STATUS_LOCKED] ++
  [CLK_TUNE, CLK_QUALITY_CAL_AGE, CLK_QUALITY_TDC_RMS, CLK_QUALITY_PHASE_PEAK,
    CLK_QUALITY_PHASE_RMS, CLK_QUALITY_LIMIT_TDC_RMS_LIMIT, CLK_QUALITY_LIMIT_PHASE_RMS_LIMIT, CLK_DIV_NEXT_PCLK_DIV,
    CLK_DIV_NEXT_CCLK_DIV, CLK_DIV_ACTIVE_PCLK_DIV, CLK_DIV_ACTIVE_CCLK_DIV, CLK_DIV_APPLY] ++
  [CLK_LOSS_COUNT_REF_LOSSES, CLK_LOSS_COUNT_LOCK_LOSSES, CLK_LOCK_TIME, CLK_LAST_LOSS]

/-! ### Fields of the TIME pages (R105 of spec/03*.md) -/

def TIME_NOW : RegField := ⟨.time, 0x040, 0, 1, 0, 64, .sta, 0x0, 0x0⟩
def TIME_ERA : RegField := ⟨.time, 0x048, 0, 1, 0, 16, .sta, 0x0, 0x0⟩
def TIME_STATUS_UNARMED_SYNC : RegField := ⟨.time, 0x04C, 0, 1, 9, 1, .evt, 0x0, 0x0⟩
def TIME_STATUS_ARM_REFUSED : RegField := ⟨.time, 0x04C, 0, 1, 8, 1, .evt, 0x0, 0x0⟩
def TIME_STATUS_ARMED : RegField := ⟨.time, 0x04C, 0, 1, 3, 1, .sta, 0x0, 0x0⟩
def TIME_STATUS_SYNCED : RegField := ⟨.time, 0x04C, 0, 1, 2, 1, .sta, 0x0, 0x0⟩
def TIME_STATUS_ESTIMATED : RegField := ⟨.time, 0x04C, 0, 1, 1, 1, .sta, 0x0, 0x0⟩
def TIME_STATUS_VALID : RegField := ⟨.time, 0x04C, 0, 1, 0, 1, .sta, 0x0, 0x0⟩
def TIME_SYNC_CTRL_DISARM : RegField := ⟨.time, 0x050, 0, 1, 5, 1, .cmd, 0x0, 0x0⟩
def TIME_SYNC_CTRL_IN_EDGE : RegField := ⟨.time, 0x050, 0, 1, 4, 1, .cfg, 0x0, 0x0⟩
def TIME_SYNC_CTRL_OUT_MODE : RegField := ⟨.time, 0x050, 0, 1, 2, 2, .cfg, 0x0, 0x0⟩
def TIME_SYNC_CTRL_OUT_PULSE : RegField := ⟨.time, 0x050, 0, 1, 1, 1, .cmd, 0x0, 0x0⟩
def TIME_SYNC_CTRL_ARM : RegField := ⟨.time, 0x050, 0, 1, 0, 1, .cmd, 0x0, 0x0⟩
def TIME_SYNC_VALUE : RegField := ⟨.time, 0x058, 0, 1, 10, 54, .cfg, 0x0, 0x0⟩
def TIME_SYNC_ERA : RegField := ⟨.time, 0x060, 0, 1, 0, 16, .cfg, 0x0, 0x0⟩
def TIME_SYNC_COUNT : RegField := ⟨.time, 0x064, 0, 1, 0, 32, .cnt, 0x0, 0x0⟩
def TIME_SYNC_STAMP : RegField := ⟨.time, 0x068, 0, 1, 0, 64, .sta, 0x0, 0x0⟩
def TIME_CAL_STAMP : RegField := ⟨.time, 0x070, 0, 1, 0, 64, .sta, 0x0, 0x0⟩
def TIME_CAL_SECONDS : RegField := ⟨.time, 0x078, 0, 1, 0, 32, .sta, 0x0, 0x0⟩
def TIME_ALARM : RegField := ⟨.time, 0x080, 16, 4, 6, 58, .cfg, 0x0, 0x0⟩
def TIME_ALARM_PERIOD : RegField := ⟨.time, 0x088, 16, 4, 0, 32, .cfg, 0x0, 0x0⟩
def TIME_ALARM_CTRL : RegField := ⟨.time, 0x08C, 16, 4, 0, 1, .cfg, 0x0, 0x0⟩

/-- The fields of a TIME page, in the order of its map. -/
def timeFields : List RegField :=
  [TIME_NOW, TIME_ERA, TIME_STATUS_UNARMED_SYNC, TIME_STATUS_ARM_REFUSED,
    TIME_STATUS_ARMED, TIME_STATUS_SYNCED, TIME_STATUS_ESTIMATED, TIME_STATUS_VALID,
    TIME_SYNC_CTRL_DISARM, TIME_SYNC_CTRL_IN_EDGE, TIME_SYNC_CTRL_OUT_MODE, TIME_SYNC_CTRL_OUT_PULSE] ++
  [TIME_SYNC_CTRL_ARM, TIME_SYNC_VALUE, TIME_SYNC_ERA, TIME_SYNC_COUNT,
    TIME_SYNC_STAMP, TIME_CAL_STAMP, TIME_CAL_SECONDS, TIME_ALARM,
    TIME_ALARM_PERIOD, TIME_ALARM_CTRL]

/-! ### Fields of the LIFE pages (R107 of spec/03*.md) -/

def LIFE_CAL_SECONDS : RegField := ⟨.life, 0x040, 0, 1, 0, 32, .cnt, 0x0, 0x0⟩
def LIFE_POWER_ON_SECONDS : RegField := ⟨.life, 0x044, 0, 1, 0, 32, .cnt, 0x0, 0x0⟩
def LIFE_JOURNAL_SEQ : RegField := ⟨.life, 0x050, 0, 1, 0, 32, .sta, 0x0, 0x0⟩
def LIFE_EDITS : RegField := ⟨.life, 0x054, 0, 1, 0, 32, .sta, 0x0, 0x0⟩
def LIFE_THERMAL_CYCLES : RegField := ⟨.life, 0x058, 0, 1, 0, 32, .cnt, 0x0, 0x0⟩
def LIFE_BROWNOUTS : RegField := ⟨.life, 0x05C, 0, 1, 0, 32, .cnt, 0x0, 0x0⟩
def LIFE_ACTIVATIONS : RegField := ⟨.life, 0x060, 0, 1, 0, 32, .cnt, 0x0, 0x0⟩
def LIFE_HBM_MIB : RegField := ⟨.life, 0x068, 8, 4, 0, 64, .cnt, 0x0, 0x0⟩
def LIFE_BAND_SECONDS : RegField := ⟨.life, 0x088, 4, 8, 0, 32, .cnt, 0x0, 0x0⟩
def LIFE_SECTOR_ERASES : RegField := ⟨.life, 0x0AC, 0, 1, 0, 32, .cnt, 0x0, 0xA8⟩
def LIFE_OVR_COUNT : RegField := ⟨.life, 0x0B4, 0, 1, 0, 32, .cnt, 0x0, 0xB0⟩
def LIFE_STATUS_RESTORED : RegField := ⟨.life, 0x048, 0, 1, 4, 1, .sta, 0x0, 0x0⟩
def LIFE_STATUS_JOURNAL_BUSY : RegField := ⟨.life, 0x048, 0, 1, 3, 1, .sta, 0x0, 0x0⟩
def LIFE_STATUS_VBAT_OK : RegField := ⟨.life, 0x048, 0, 1, 2, 1, .sta, 0x1, 0x0⟩
def LIFE_STATUS_XTAL_OK : RegField := ⟨.life, 0x048, 0, 1, 1, 1, .sta, 0x1, 0x0⟩
def LIFE_STATUS_CAL_VALID : RegField := ⟨.life, 0x048, 0, 1, 0, 1, .sta, 0x0, 0x0⟩
def LIFE_JOURNAL_CTRL : RegField := ⟨.life, 0x04C, 0, 1, 0, 1, .cmd, 0x0, 0x0⟩
def LIFE_SECTOR_INDEX : RegField := ⟨.life, 0x0A8, 0, 1, 0, 10, .cfg, 0x0, 0x0⟩
def LIFE_OVR_INDEX : RegField := ⟨.life, 0x0B0, 0, 1, 0, 7, .cfg, 0x0, 0x0⟩
def LIFE_THERMAL_STATE_EXTREME : RegField := ⟨.life, 0x0B8, 0, 1, 8, 8, .sta, 0x0, 0x0⟩
def LIFE_THERMAL_STATE_DIRECTION : RegField := ⟨.life, 0x0B8, 0, 1, 0, 1, .sta, 0x0, 0x0⟩

/-- The fields of a LIFE page, in the order of its map. -/
def lifeFields : List RegField :=
  [LIFE_CAL_SECONDS, LIFE_POWER_ON_SECONDS, LIFE_JOURNAL_SEQ, LIFE_EDITS,
    LIFE_THERMAL_CYCLES, LIFE_BROWNOUTS, LIFE_ACTIVATIONS, LIFE_HBM_MIB,
    LIFE_BAND_SECONDS, LIFE_SECTOR_ERASES, LIFE_OVR_COUNT, LIFE_STATUS_RESTORED] ++
  [LIFE_STATUS_JOURNAL_BUSY, LIFE_STATUS_VBAT_OK, LIFE_STATUS_XTAL_OK, LIFE_STATUS_CAL_VALID,
    LIFE_JOURNAL_CTRL, LIFE_SECTOR_INDEX, LIFE_OVR_INDEX, LIFE_THERMAL_STATE_EXTREME,
    LIFE_THERMAL_STATE_DIRECTION]

/-! ### Fields of the FEG pages (R140 of spec/04*.md) -/

def FEG_CTRL_BG_INTERVAL : RegField := ⟨.feg, 0x040, 0, 1, 8, 8, .cfg, 0x3C, 0x0⟩
def FEG_CTRL_CHECK_EN : RegField := ⟨.feg, 0x040, 0, 1, 1, 1, .cfg, 0x1, 0x0⟩
def FEG_CTRL_BG_CAL_EN : RegField := ⟨.feg, 0x040, 0, 1, 0, 1, .cfg, 0x1, 0x0⟩
def FEG_CAL_CMD : RegField := ⟨.feg, 0x044, 0, 1, 0, 1, .cmd, 0x0, 0x0⟩
def FEG_STATUS_OVR_ANY : RegField := ⟨.feg, 0x048, 0, 1, 16, 1, .sta, 0x0, 0x0⟩
def FEG_STATUS_CHECK_SKEIN : RegField := ⟨.feg, 0x048, 0, 1, 8, 7, .sta, 0x0, 0x0⟩
def FEG_STATUS_CHECK_BUSY : RegField := ⟨.feg, 0x048, 0, 1, 2, 1, .sta, 0x0, 0x0⟩
def FEG_STATUS_CAL_BUSY : RegField := ⟨.feg, 0x048, 0, 1, 1, 1, .sta, 0x0, 0x0⟩
def FEG_STATUS_CAL_DONE : RegField := ⟨.feg, 0x048, 0, 1, 0, 1, .sta, 0x0, 0x0⟩
def FEG_CAL_COUNT : RegField := ⟨.feg, 0x04C, 0, 1, 0, 32, .cnt, 0x0, 0x0⟩
def FEG_BG_PASSES : RegField := ⟨.feg, 0x050, 0, 1, 0, 32, .cnt, 0x0, 0x0⟩
def FEG_SCK_PRESENT : RegField := ⟨.feg, 0x054, 0, 1, 0, 32, .sta, 0x0, 0x0⟩
def FEG_SCK_OVR : RegField := ⟨.feg, 0x058, 0, 1, 0, 32, .sta, 0x0, 0x0⟩
def FEG_SCK_FREQ_INDEX : RegField := ⟨.feg, 0x05C, 0, 1, 0, 5, .cfg, 0x0, 0x0⟩
def FEG_SCK_FREQ : RegField := ⟨.feg, 0x060, 0, 1, 0, 32, .sta, 0x0, 0x5C⟩
def FEG_SCK_THRESH_TERM_EN : RegField := ⟨.feg, 0x080, 4, 32, 31, 1, .cfg, 0x1, 0x0⟩
def FEG_SCK_THRESH_HYST : RegField := ⟨.feg, 0x080, 4, 32, 16, 6, .cfg, 0xA, 0x0⟩
def FEG_SCK_THRESH_THRESH : RegField := ⟨.feg, 0x080, 4, 32, 0, 11, .cfg, 0x0, 0x0⟩
def FEG_SCK_DESKEW : RegField := ⟨.feg, 0x100, 4, 32, 0, 14, .cfg, 0x0, 0x0⟩

/-- The fields of a FEG page, in the order of its map. -/
def fegFields : List RegField :=
  [FEG_CTRL_BG_INTERVAL, FEG_CTRL_CHECK_EN, FEG_CTRL_BG_CAL_EN, FEG_CAL_CMD,
    FEG_STATUS_OVR_ANY, FEG_STATUS_CHECK_SKEIN, FEG_STATUS_CHECK_BUSY, FEG_STATUS_CAL_BUSY,
    FEG_STATUS_CAL_DONE, FEG_CAL_COUNT, FEG_BG_PASSES, FEG_SCK_PRESENT] ++
  [FEG_SCK_OVR, FEG_SCK_FREQ_INDEX, FEG_SCK_FREQ, FEG_SCK_THRESH_TERM_EN,
    FEG_SCK_THRESH_HYST, FEG_SCK_THRESH_THRESH, FEG_SCK_DESKEW]

/-! ### Fields of the FE pages (R141 of spec/04*.md) -/

def FE_THRESH_HYST : RegField := ⟨.fe, 0x040, 4, 16, 16, 6, .shd, 0xA, 0x0⟩
def FE_THRESH_THRESH : RegField := ⟨.fe, 0x040, 4, 16, 0, 11, .shd, 0x0, 0x0⟩
def FE_DESKEW : RegField := ⟨.fe, 0x080, 4, 16, 0, 14, .shd, 0x0, 0x0⟩
def FE_TERM : RegField := ⟨.fe, 0x0C0, 0, 1, 0, 16, .shd, 0xFFFF, 0x0⟩
def FE_STATE_DELAY : RegField := ⟨.fe, 0x0C4, 0, 1, 16, 14, .cfg, 0x0, 0x0⟩
def FE_STATE_EDGE : RegField := ⟨.fe, 0x0C4, 0, 1, 8, 2, .cfg, 0x0, 0x0⟩
def FE_STATE_SCK_SEL : RegField := ⟨.fe, 0x0C4, 0, 1, 0, 5, .cfg, 0x0, 0x0⟩
def FE_SOURCE : RegField := ⟨.fe, 0x0C8, 0, 1, 0, 7, .shd, 0x7F, 0x0⟩
def FE_LEVEL : RegField := ⟨.fe, 0x0D0, 0, 1, 0, 16, .sta, 0x0, 0x0⟩
def FE_STATUS_OVR_ANY : RegField := ⟨.fe, 0x0D4, 0, 1, 4, 1, .sta, 0x0, 0x0⟩
def FE_STATUS_SPARE_SETTLED : RegField := ⟨.fe, 0x0D4, 0, 1, 3, 1, .sta, 0x0, 0x0⟩
def FE_STATUS_TAPPED : RegField := ⟨.fe, 0x0D4, 0, 1, 2, 1, .sta, 0x0, 0x0⟩
def FE_STATUS_CHECKING : RegField := ⟨.fe, 0x0D4, 0, 1, 1, 1, .sta, 0x0, 0x0⟩
def FE_STATUS_CAL_OK : RegField := ⟨.fe, 0x0D4, 0, 1, 0, 1, .sta, 0x0, 0x0⟩
def FE_OVR_NOW : RegField := ⟨.fe, 0x0D8, 0, 1, 0, 16, .sta, 0x0, 0x0⟩
def FE_OVR_SEEN : RegField := ⟨.fe, 0x0DC, 0, 1, 0, 16, .evt, 0x0, 0x0⟩
def FE_OVR_COUNT : RegField := ⟨.fe, 0x0E0, 0, 1, 0, 32, .cnt, 0x0, 0x0⟩
def FE_CHECK_RESULT_STUCK : RegField := ⟨.fe, 0x0E4, 0, 1, 16, 16, .sta, 0x0, 0x0⟩
def FE_CHECK_RESULT_OPEN : RegField := ⟨.fe, 0x0E4, 0, 1, 0, 16, .sta, 0x0, 0x0⟩
def FE_CHECK_PASSES : RegField := ⟨.fe, 0x0E8, 0, 1, 0, 32, .cnt, 0x0, 0x0⟩
def FE_IDLE_SECONDS : RegField := ⟨.fe, 0x0EC, 0, 1, 0, 6, .sta, 0x0, 0x0⟩
def FE_CAL_STATUS_TEMP_DELTA : RegField := ⟨.fe, 0x0F0, 0, 1, 24, 8, .sta, 0x0, 0x0⟩
def FE_CAL_STATUS_WORST_CH : RegField := ⟨.fe, 0x0F0, 0, 1, 8, 4, .sta, 0x0, 0x0⟩
def FE_CAL_STATUS_RESID : RegField := ⟨.fe, 0x0F0, 0, 1, 0, 8, .sta, 0x0, 0x0⟩
def FE_CAUSE_SCK_OVR : RegField := ⟨.fe, 0x0F4, 0, 1, 4, 1, .evt, 0x0, 0x0⟩
def FE_CAUSE_CAL_FAIL : RegField := ⟨.fe, 0x0F4, 0, 1, 3, 1, .evt, 0x0, 0x0⟩
def FE_CAUSE_OVR : RegField := ⟨.fe, 0x0F4, 0, 1, 2, 1, .evt, 0x0, 0x0⟩
def FE_CAUSE_OPEN : RegField := ⟨.fe, 0x0F4, 0, 1, 1, 1, .evt, 0x0, 0x0⟩
def FE_CAUSE_STUCK : RegField := ⟨.fe, 0x0F4, 0, 1, 0, 1, .evt, 0x0, 0x0⟩
def FE_CAUSE_EN : RegField := ⟨.fe, 0x0F8, 0, 1, 0, 5, .cfg, 0xB, 0x0⟩

/-- The fields of a FE page, in the order of its map. -/
def feFields : List RegField :=
  [FE_THRESH_HYST, FE_THRESH_THRESH, FE_DESKEW, FE_TERM,
    FE_STATE_DELAY, FE_STATE_EDGE, FE_STATE_SCK_SEL, FE_SOURCE,
    FE_LEVEL, FE_STATUS_OVR_ANY, FE_STATUS_SPARE_SETTLED, FE_STATUS_TAPPED] ++
  [FE_STATUS_CHECKING, FE_STATUS_CAL_OK, FE_OVR_NOW, FE_OVR_SEEN,
    FE_OVR_COUNT, FE_CHECK_RESULT_STUCK, FE_CHECK_RESULT_OPEN, FE_CHECK_PASSES,
    FE_IDLE_SECONDS, FE_CAL_STATUS_TEMP_DELTA, FE_CAL_STATUS_WORST_CH, FE_CAL_STATUS_RESID] ++
  [FE_CAUSE_SCK_OVR, FE_CAUSE_CAL_FAIL, FE_CAUSE_OVR, FE_CAUSE_OPEN,
    FE_CAUSE_STUCK, FE_CAUSE_EN]

/-! ### Fields of the SKN pages (R180 of spec/05*.md) -/

def SKN_CTRL_DENS_K : RegField := ⟨.skn, 0x040, 0, 1, 16, 6, .shd, 0xC, 0x0⟩
def SKN_CTRL_GAUGE : RegField := ⟨.skn, 0x040, 0, 1, 8, 5, .shd, 0x0, 0x0⟩
def SKN_CTRL_SUMMARY : RegField := ⟨.skn, 0x040, 0, 1, 4, 1, .shd, 0x0, 0x0⟩
def SKN_CTRL_ENC : RegField := ⟨.skn, 0x040, 0, 1, 0, 2, .shd, 0x1, 0x0⟩
def SKN_MASK : RegField := ⟨.skn, 0x044, 0, 1, 0, 16, .shd, 0xFFFF, 0x0⟩
def SKN_FLOOR : RegField := ⟨.skn, 0x048, 0, 1, 0, 24, .shd, 0x1000, 0x0⟩
def SKN_STATE_CTRL_TRACE : RegField := ⟨.skn, 0x04C, 0, 1, 31, 1, .cfg, 0x0, 0x0⟩
def SKN_STATE_CTRL_MAX_MTS : RegField := ⟨.skn, 0x04C, 0, 1, 0, 12, .cfg, 0x0, 0x0⟩
def SKN_COMMIT : RegField := ⟨.skn, 0x050, 0, 1, 0, 1, .cmd, 0x0, 0x0⟩
def SKN_COMMIT_ERR_REFUSE_CAUSE : RegField := ⟨.skn, 0x054, 0, 1, 4, 4, .sta, 0x0, 0x0⟩
def SKN_COMMIT_ERR_REFUSED : RegField := ⟨.skn, 0x054, 0, 1, 1, 1, .evt, 0x0, 0x0⟩
def SKN_COMMIT_ERR_BUSY_WRITE : RegField := ⟨.skn, 0x054, 0, 1, 0, 1, .evt, 0x0, 0x0⟩
def SKN_COMMIT_STATUS_PENDING : RegField := ⟨.skn, 0x058, 0, 1, 63, 1, .sta, 0x0, 0x0⟩
def SKN_COMMIT_STATUS_STATE : RegField := ⟨.skn, 0x058, 0, 1, 62, 1, .sta, 0x0, 0x0⟩
def SKN_COMMIT_STATUS_ERA : RegField := ⟨.skn, 0x058, 0, 1, 46, 16, .sta, 0x0, 0x0⟩
def SKN_COMMIT_STATUS_FRAME : RegField := ⟨.skn, 0x058, 0, 1, 0, 46, .sta, 0x0, 0x0⟩
def SKN_STATUS_SHADOWED : RegField := ⟨.skn, 0x060, 0, 1, 9, 1, .sta, 0x0, 0x0⟩
def SKN_STATUS_REPLACED : RegField := ⟨.skn, 0x060, 0, 1, 8, 1, .sta, 0x0, 0x0⟩
def SKN_STATUS_IN_SESSION : RegField := ⟨.skn, 0x060, 0, 1, 7, 1, .sta, 0x0, 0x0⟩
def SKN_STATUS_SESSION : RegField := ⟨.skn, 0x060, 0, 1, 4, 3, .sta, 0x0, 0x0⟩
def SKN_STATUS_STATE : RegField := ⟨.skn, 0x060, 0, 1, 0, 3, .sta, 0x0, 0x0⟩
def SKN_CAUSE_COMMIT_REFUSED : RegField := ⟨.skn, 0x064, 0, 1, 4, 1, .evt, 0x0, 0x0⟩
def SKN_CAUSE_SCK_FAST : RegField := ⟨.skn, 0x064, 0, 1, 3, 1, .evt, 0x0, 0x0⟩
def SKN_CAUSE_PARITY : RegField := ⟨.skn, 0x064, 0, 1, 2, 1, .evt, 0x0, 0x0⟩
def SKN_CAUSE_SPARE_MISMATCH : RegField := ⟨.skn, 0x064, 0, 1, 1, 1, .evt, 0x0, 0x0⟩
def SKN_CAUSE_FE : RegField := ⟨.skn, 0x064, 0, 1, 0, 1, .evt, 0x0, 0x0⟩
def SKN_CAUSE_EN_EN : RegField := ⟨.skn, 0x068, 0, 1, 1, 4, .cfg, 0x7, 0x0⟩
def SKN_CAUSE_EN_FE_EN : RegField := ⟨.skn, 0x068, 0, 1, 0, 1, .ident, 0x1, 0x0⟩
def SKN_FRAMES : RegField := ⟨.skn, 0x080, 0, 1, 0, 64, .sta, 0x0, 0x0⟩
def SKN_EDGES : RegField := ⟨.skn, 0x088, 0, 1, 0, 64, .sta, 0x0, 0x0⟩
def SKN_MERGED : RegField := ⟨.skn, 0x090, 0, 1, 0, 64, .sta, 0x0, 0x0⟩
def SKN_WORDS : RegField := ⟨.skn, 0x098, 0, 1, 0, 64, .sta, 0x0, 0x0⟩
def SKN_RAW_FRAMES : RegField := ⟨.skn, 0x0A0, 0, 1, 0, 64, .sta, 0x0, 0x0⟩
def SKN_QUALITY : RegField := ⟨.skn, 0x0A8, 0, 1, 0, 32, .sta, 0x0, 0x0⟩
def SKN_SPARE_TARGET : RegField := ⟨.skn, 0x0C0, 0, 1, 8, 6, .shd, 0x0, 0x0⟩
def SKN_SPARE_MODE : RegField := ⟨.skn, 0x0C0, 0, 1, 0, 2, .shd, 0x0, 0x0⟩
def SKN_CMP_FRAMES : RegField := ⟨.skn, 0x0C4, 0, 1, 0, 32, .sta, 0x0, 0x0⟩
def SKN_MISMATCHES : RegField := ⟨.skn, 0x0C8, 0, 1, 0, 32, .sta, 0x0, 0x0⟩
def SKN_FIRST_MISMATCH_ERA : RegField := ⟨.skn, 0x0D0, 0, 1, 46, 16, .sta, 0x0, 0x0⟩
def SKN_FIRST_MISMATCH_FRAME : RegField := ⟨.skn, 0x0D0, 0, 1, 0, 46, .sta, 0x0, 0x0⟩

/-- The fields of a SKN page, in the order of its map. -/
def sknFields : List RegField :=
  [SKN_CTRL_DENS_K, SKN_CTRL_GAUGE, SKN_CTRL_SUMMARY, SKN_CTRL_ENC,
    SKN_MASK, SKN_FLOOR, SKN_STATE_CTRL_TRACE, SKN_STATE_CTRL_MAX_MTS,
    SKN_COMMIT, SKN_COMMIT_ERR_REFUSE_CAUSE, SKN_COMMIT_ERR_REFUSED, SKN_COMMIT_ERR_BUSY_WRITE] ++
  [SKN_COMMIT_STATUS_PENDING, SKN_COMMIT_STATUS_STATE, SKN_COMMIT_STATUS_ERA, SKN_COMMIT_STATUS_FRAME,
    SKN_STATUS_SHADOWED, SKN_STATUS_REPLACED, SKN_STATUS_IN_SESSION, SKN_STATUS_SESSION,
    SKN_STATUS_STATE, SKN_CAUSE_COMMIT_REFUSED, SKN_CAUSE_SCK_FAST, SKN_CAUSE_PARITY] ++
  [SKN_CAUSE_SPARE_MISMATCH, SKN_CAUSE_FE, SKN_CAUSE_EN_EN, SKN_CAUSE_EN_FE_EN,
    SKN_FRAMES, SKN_EDGES, SKN_MERGED, SKN_WORDS,
    SKN_RAW_FRAMES, SKN_QUALITY, SKN_SPARE_TARGET, SKN_SPARE_MODE] ++
  [SKN_CMP_FRAMES, SKN_MISMATCHES, SKN_FIRST_MISMATCH_ERA, SKN_FIRST_MISMATCH_FRAME]

/-! ### Fields of the TRG pages (R218 of spec/06*.md) -/

def TRG_CTRL_START_LEVEL : RegField := ⟨.trg, 0x040, 0, 1, 20, 4, .cfg, 0x0, 0x0⟩
def TRG_CTRL_GATE_CLOSES : RegField := ⟨.trg, 0x040, 0, 1, 7, 1, .cfg, 0x1, 0x0⟩
def TRG_CTRL_GATE_INIT : RegField := ⟨.trg, 0x040, 0, 1, 6, 1, .cfg, 0x1, 0x0⟩
def TRG_CTRL_DETACH : RegField := ⟨.trg, 0x040, 0, 1, 5, 1, .cfg, 0x0, 0x0⟩
def TRG_CTRL_DISARM : RegField := ⟨.trg, 0x040, 0, 1, 1, 1, .cmd, 0x0, 0x0⟩
def TRG_CTRL_ARM : RegField := ⟨.trg, 0x040, 0, 1, 0, 1, .cmd, 0x0, 0x0⟩
def TRG_STATUS_SESSION : RegField := ⟨.trg, 0x044, 0, 1, 16, 3, .sta, 0x0, 0x0⟩
def TRG_STATUS_SEG_OPEN : RegField := ⟨.trg, 0x044, 0, 1, 15, 1, .sta, 0x0, 0x0⟩
def TRG_STATUS_GATE : RegField := ⟨.trg, 0x044, 0, 1, 14, 1, .sta, 0x0, 0x0⟩
def TRG_STATUS_LEVEL : RegField := ⟨.trg, 0x044, 0, 1, 8, 4, .sta, 0x0, 0x0⟩
def TRG_STATUS_STATE : RegField := ⟨.trg, 0x044, 0, 1, 0, 3, .sta, 0x0, 0x0⟩
def TRG_FORCE_HOLD : RegField := ⟨.trg, 0x048, 0, 1, 1, 1, .cfg, 0x0, 0x0⟩
def TRG_FORCE_PULSE : RegField := ⟨.trg, 0x048, 0, 1, 0, 1, .cmd, 0x0, 0x0⟩
def TRG_ARM_ERR_CAUSE : RegField := ⟨.trg, 0x04C, 0, 1, 4, 4, .sta, 0x0, 0x0⟩
def TRG_ARM_ERR_REFUSED : RegField := ⟨.trg, 0x04C, 0, 1, 0, 1, .evt, 0x0, 0x0⟩
def TRG_GATE_SKEINS : RegField := ⟨.trg, 0x050, 0, 1, 0, 64, .cfg, 0x0, 0x0⟩
def TRG_SEG_OPEN : RegField := ⟨.trg, 0x058, 0, 1, 31, 1, .sta, 0x0, 0x0⟩
def TRG_SEG_INDEX : RegField := ⟨.trg, 0x058, 0, 1, 0, 14, .sta, 0x0, 0x0⟩
def TRG_LAST_TRIG : RegField := ⟨.trg, 0x060, 0, 1, 0, 64, .sta, 0x0, 0x0⟩
def TRG_LAST_TRIG_INFO_LEVEL : RegField := ⟨.trg, 0x068, 0, 1, 4, 4, .sta, 0x0, 0x0⟩
def TRG_LAST_TRIG_INFO_BRANCH : RegField := ⟨.trg, 0x068, 0, 1, 2, 2, .sta, 0x0, 0x0⟩
def TRG_LAST_TRIG_INFO_FV : RegField := ⟨.trg, 0x068, 0, 1, 0, 1, .sta, 0x0, 0x0⟩
def TRG_TRIGGERS : RegField := ⟨.trg, 0x070, 0, 1, 0, 32, .cnt, 0x0, 0x0⟩
def TRG_MARKS : RegField := ⟨.trg, 0x074, 0, 1, 0, 32, .cnt, 0x0, 0x0⟩
def TRG_STITCHES_LOST : RegField := ⟨.trg, 0x078, 0, 1, 0, 32, .cnt, 0x0, 0x0⟩
def TRG_PIN_OPS : RegField := ⟨.trg, 0x07C, 0, 1, 0, 32, .cnt, 0x0, 0x0⟩
def TRG_REPLAY_CTRL_GROTTO : RegField := ⟨.trg, 0x080, 0, 1, 16, 6, .cfg, 0x0, 0x0⟩
def TRG_REPLAY_CTRL_POST_FRAMES : RegField := ⟨.trg, 0x080, 0, 1, 8, 8, .cfg, 0x0, 0x0⟩
def TRG_REPLAY_CTRL_PRE_FRAMES : RegField := ⟨.trg, 0x080, 0, 1, 0, 8, .cfg, 0x0, 0x0⟩
def TRG_REPLAY_STATUS_CRC_ERR : RegField := ⟨.trg, 0x084, 0, 1, 2, 1, .sta, 0x0, 0x0⟩
def TRG_REPLAY_STATUS_GAP_SEEN : RegField := ⟨.trg, 0x084, 0, 1, 1, 1, .sta, 0x0, 0x0⟩
def TRG_REPLAY_STATUS_DONE : RegField := ⟨.trg, 0x084, 0, 1, 0, 1, .sta, 0x0, 0x0⟩
def TRG_REPLAY_POS : RegField := ⟨.trg, 0x088, 0, 1, 0, 64, .sta, 0x0, 0x0⟩
def TRG_REPLAY_MERGED : RegField := ⟨.trg, 0x090, 0, 1, 0, 64, .sta, 0x0, 0x0⟩
def TRG_REPLAY_PRE_DROPS : RegField := ⟨.trg, 0x098, 0, 1, 0, 32, .sta, 0x0, 0x0⟩
def TRG_COND : RegField := ⟨.trg, 0x800, 16, 64, 0, 64, .cfg, 0x0, 0x0⟩
def TRG_ACT : RegField := ⟨.trg, 0x808, 16, 64, 0, 64, .cfg, 0x0, 0x0⟩

/-- The fields of a TRG page, in the order of its map. -/
def trgFields : List RegField :=
  [TRG_CTRL_START_LEVEL, TRG_CTRL_GATE_CLOSES, TRG_CTRL_GATE_INIT, TRG_CTRL_DETACH,
    TRG_CTRL_DISARM, TRG_CTRL_ARM, TRG_STATUS_SESSION, TRG_STATUS_SEG_OPEN,
    TRG_STATUS_GATE, TRG_STATUS_LEVEL, TRG_STATUS_STATE, TRG_FORCE_HOLD] ++
  [TRG_FORCE_PULSE, TRG_ARM_ERR_CAUSE, TRG_ARM_ERR_REFUSED, TRG_GATE_SKEINS,
    TRG_SEG_OPEN, TRG_SEG_INDEX, TRG_LAST_TRIG, TRG_LAST_TRIG_INFO_LEVEL,
    TRG_LAST_TRIG_INFO_BRANCH, TRG_LAST_TRIG_INFO_FV, TRG_TRIGGERS, TRG_MARKS] ++
  [TRG_STITCHES_LOST, TRG_PIN_OPS, TRG_REPLAY_CTRL_GROTTO, TRG_REPLAY_CTRL_POST_FRAMES,
    TRG_REPLAY_CTRL_PRE_FRAMES, TRG_REPLAY_STATUS_CRC_ERR, TRG_REPLAY_STATUS_GAP_SEEN, TRG_REPLAY_STATUS_DONE,
    TRG_REPLAY_POS, TRG_REPLAY_MERGED, TRG_REPLAY_PRE_DROPS, TRG_COND] ++
  [TRG_ACT]

/-! ### Fields of the POOL pages (R219 of spec/06*.md) -/

def TRIG_OUT_CTRL_PULSE : RegField := ⟨.pool, 0x040, 0, 1, 8, 12, .cfg, 0x8, 0x0⟩
def TRIG_OUT_CTRL_PASS_EN : RegField := ⟨.pool, 0x040, 0, 1, 4, 1, .cfg, 0x0, 0x0⟩
def TRIG_OUT_CTRL_PASS_SRC : RegField := ⟨.pool, 0x040, 0, 1, 1, 3, .cfg, 0x0, 0x0⟩
def TRIG_OUT_CTRL_INVERT : RegField := ⟨.pool, 0x040, 0, 1, 0, 1, .cfg, 0x0, 0x0⟩
def DUT_HOLD_CTRL_GAP_US : RegField := ⟨.pool, 0x044, 0, 1, 20, 10, .cfg, 0x1, 0x0⟩
def DUT_HOLD_CTRL_MAX_US : RegField := ⟨.pool, 0x044, 0, 1, 10, 10, .cfg, 0xA, 0x0⟩
def DUT_HOLD_CTRL_INVERT : RegField := ⟨.pool, 0x044, 0, 1, 1, 1, .cfg, 0x0, 0x0⟩
def DUT_HOLD_CTRL_ENABLE : RegField := ⟨.pool, 0x044, 0, 1, 0, 1, .cfg, 0x0, 0x0⟩
def XTRIG_CTRL_PULSE : RegField := ⟨.pool, 0x048, 0, 1, 8, 12, .cfg, 0x8, 0x0⟩
def XTRIG_CTRL_DRIVE_EN : RegField := ⟨.pool, 0x048, 0, 1, 0, 1, .cfg, 0x0, 0x0⟩
def TRIG_IN_CTRL : RegField := ⟨.pool, 0x04C, 0, 1, 0, 1, .cfg, 0x0, 0x0⟩
def PIN_STATUS_HOLDERS : RegField := ⟨.pool, 0x050, 0, 1, 24, 8, .sta, 0x0, 0x0⟩
def PIN_STATUS_DRIVERS : RegField := ⟨.pool, 0x050, 0, 1, 16, 8, .sta, 0x0, 0x0⟩
def PIN_STATUS_XTRIG_LOW : RegField := ⟨.pool, 0x050, 0, 1, 5, 1, .sta, 0x0, 0x0⟩
def PIN_STATUS_XTRIG_DRIVEN : RegField := ⟨.pool, 0x050, 0, 1, 4, 1, .sta, 0x0, 0x0⟩
def PIN_STATUS_TRIG_IN : RegField := ⟨.pool, 0x050, 0, 1, 3, 1, .sta, 0x0, 0x0⟩
def PIN_STATUS_LOCKOUT : RegField := ⟨.pool, 0x050, 0, 1, 2, 1, .sta, 0x0, 0x0⟩
def PIN_STATUS_HOLD : RegField := ⟨.pool, 0x050, 0, 1, 1, 1, .sta, 0x0, 0x0⟩
def PIN_STATUS_TRIG_OUT : RegField := ⟨.pool, 0x050, 0, 1, 0, 1, .sta, 0x0, 0x0⟩
def DUT_HOLD_ASSERTS : RegField := ⟨.pool, 0x054, 0, 1, 0, 32, .cnt, 0x0, 0x0⟩
def DUT_HOLD_LIMITS : RegField := ⟨.pool, 0x058, 0, 1, 0, 32, .cnt, 0x0, 0x0⟩
def DUT_HOLD_REFUSED : RegField := ⟨.pool, 0x05C, 0, 1, 0, 32, .cnt, 0x0, 0x0⟩
def TRG_WC_SEL_SKEIN3 : RegField := ⟨.pool, 0x100, 32, 8, 24, 7, .cfg, 0x7F, 0x0⟩
def TRG_WC_SEL_SKEIN2 : RegField := ⟨.pool, 0x100, 32, 8, 16, 7, .cfg, 0x7F, 0x0⟩
def TRG_WC_SEL_SKEIN1 : RegField := ⟨.pool, 0x100, 32, 8, 8, 7, .cfg, 0x7F, 0x0⟩
def TRG_WC_SEL_SKEIN0 : RegField := ⟨.pool, 0x100, 32, 8, 0, 7, .cfg, 0x7F, 0x0⟩
def TRG_WC_CTRL_SCK : RegField := ⟨.pool, 0x104, 32, 8, 8, 5, .cfg, 0x0, 0x0⟩
def TRG_WC_CTRL_STATE_QUAL : RegField := ⟨.pool, 0x104, 32, 8, 7, 1, .cfg, 0x0, 0x0⟩
def TRG_WC_CTRL_OWNER : RegField := ⟨.pool, 0x104, 32, 8, 4, 3, .cfg, 0x0, 0x0⟩
def TRG_WC_CTRL_NE : RegField := ⟨.pool, 0x104, 32, 8, 1, 1, .cfg, 0x0, 0x0⟩
def TRG_WC_CTRL_ENABLE : RegField := ⟨.pool, 0x104, 32, 8, 0, 1, .cfg, 0x0, 0x0⟩
def TRG_WC_MASK : RegField := ⟨.pool, 0x108, 32, 8, 0, 64, .cfg, 0x0, 0x0⟩
def TRG_WC_VALUE : RegField := ⟨.pool, 0x110, 32, 8, 0, 64, .cfg, 0x0, 0x0⟩
def TRG_RC_SEL_SKEINB : RegField := ⟨.pool, 0x200, 32, 2, 24, 7, .cfg, 0x7F, 0x0⟩
def TRG_RC_SEL_SKEINA : RegField := ⟨.pool, 0x200, 32, 2, 16, 7, .cfg, 0x7F, 0x0⟩
def TRG_RC_SEL_WIDTH : RegField := ⟨.pool, 0x200, 32, 2, 8, 6, .cfg, 0x1, 0x0⟩
def TRG_RC_SEL_LSB : RegField := ⟨.pool, 0x200, 32, 2, 0, 5, .cfg, 0x0, 0x0⟩
def TRG_ED_CTRL_SKEIN : RegField := ⟨.pool, 0x280, 8, 8, 24, 7, .cfg, 0x7F, 0x0⟩
def TRG_ED_CTRL_CH : RegField := ⟨.pool, 0x280, 8, 8, 16, 4, .cfg, 0x0, 0x0⟩
def TRG_ED_CTRL_KIND : RegField := ⟨.pool, 0x280, 8, 8, 8, 3, .cfg, 0x0, 0x0⟩
def TRG_ED_CTRL_OWNER : RegField := ⟨.pool, 0x280, 8, 8, 4, 3, .cfg, 0x0, 0x0⟩
def TRG_ED_CTRL_ENABLE : RegField := ⟨.pool, 0x280, 8, 8, 0, 1, .cfg, 0x0, 0x0⟩
def TRG_ED_WIDTH : RegField := ⟨.pool, 0x284, 8, 8, 0, 20, .cfg, 0xF0, 0x0⟩
def TRG_CT_CTRL_CLR_SRC : RegField := ⟨.pool, 0x300, 32, 4, 23, 9, .cfg, 0x1FF, 0x0⟩
def TRG_CT_CTRL_INC_SRC : RegField := ⟨.pool, 0x300, 32, 4, 14, 9, .cfg, 0x1FF, 0x0⟩
def TRG_CT_CTRL_EDGE : RegField := ⟨.pool, 0x300, 32, 4, 7, 1, .cfg, 0x0, 0x0⟩
def TRG_CT_CTRL_OWNER : RegField := ⟨.pool, 0x300, 32, 4, 4, 3, .cfg, 0x0, 0x0⟩
def TRG_CT_CTRL_FREE : RegField := ⟨.pool, 0x300, 32, 4, 1, 1, .cfg, 0x0, 0x0⟩
def TRG_CT_CTRL_ENABLE : RegField := ⟨.pool, 0x300, 32, 4, 0, 1, .cfg, 0x0, 0x0⟩
def TRG_CT_TARGET : RegField := ⟨.pool, 0x308, 32, 4, 0, 48, .cfg, 0x0, 0x0⟩
def TRG_CT_VALUE : RegField := ⟨.pool, 0x310, 32, 4, 0, 48, .cnt, 0x0, 0x0⟩
def TRG_CT_STATUS_SATURATED : RegField := ⟨.pool, 0x318, 32, 4, 2, 1, .sta, 0x0, 0x0⟩
def TRG_CT_STATUS_REACHED : RegField := ⟨.pool, 0x318, 32, 4, 1, 1, .sta, 0x0, 0x0⟩
def TRG_CT_STATUS_RUNNING : RegField := ⟨.pool, 0x318, 32, 4, 0, 1, .sta, 0x0, 0x0⟩
def TRG_RC_CTRL_SCK : RegField := ⟨.pool, 0x204, 32, 2, 8, 5, .cfg, 0x0, 0x0⟩
def TRG_RC_CTRL_STATE_QUAL : RegField := ⟨.pool, 0x204, 32, 2, 7, 1, .cfg, 0x0, 0x0⟩
def TRG_RC_CTRL_OWNER : RegField := ⟨.pool, 0x204, 32, 2, 4, 3, .cfg, 0x0, 0x0⟩
def TRG_RC_CTRL_OUTSIDE : RegField := ⟨.pool, 0x204, 32, 2, 1, 1, .cfg, 0x0, 0x0⟩
def TRG_RC_CTRL_ENABLE : RegField := ⟨.pool, 0x204, 32, 2, 0, 1, .cfg, 0x0, 0x0⟩
def TRG_RC_LOW : RegField := ⟨.pool, 0x208, 32, 2, 0, 32, .cfg, 0x0, 0x0⟩
def TRG_RC_HIGH : RegField := ⟨.pool, 0x20C, 32, 2, 0, 32, .cfg, 0x0, 0x0⟩
def TRG_TM_CTRL_START_SRC : RegField := ⟨.pool, 0x380, 32, 4, 23, 9, .cfg, 0x1FF, 0x0⟩
def TRG_TM_CTRL_OWNER : RegField := ⟨.pool, 0x380, 32, 4, 4, 3, .cfg, 0x0, 0x0⟩
def TRG_TM_CTRL_FREE : RegField := ⟨.pool, 0x380, 32, 4, 1, 1, .cfg, 0x0, 0x0⟩
def TRG_TM_CTRL_ENABLE : RegField := ⟨.pool, 0x380, 32, 4, 0, 1, .cfg, 0x0, 0x0⟩
def TRG_TM_LIMIT : RegField := ⟨.pool, 0x388, 32, 4, 0, 48, .cfg, 0x0, 0x0⟩
def TRG_TM_VALUE : RegField := ⟨.pool, 0x390, 32, 4, 0, 48, .cnt, 0x0, 0x0⟩
def TRG_TM_STATUS_SATURATED : RegField := ⟨.pool, 0x398, 32, 4, 2, 1, .sta, 0x0, 0x0⟩
def TRG_TM_STATUS_EXPIRED : RegField := ⟨.pool, 0x398, 32, 4, 1, 1, .sta, 0x0, 0x0⟩
def TRG_TM_STATUS_RUNNING : RegField := ⟨.pool, 0x398, 32, 4, 0, 1, .sta, 0x0, 0x0⟩

/-- The fields of a POOL page, in the order of its map. -/
def poolFields : List RegField :=
  [TRIG_OUT_CTRL_PULSE, TRIG_OUT_CTRL_PASS_EN, TRIG_OUT_CTRL_PASS_SRC, TRIG_OUT_CTRL_INVERT,
    DUT_HOLD_CTRL_GAP_US, DUT_HOLD_CTRL_MAX_US, DUT_HOLD_CTRL_INVERT, DUT_HOLD_CTRL_ENABLE,
    XTRIG_CTRL_PULSE, XTRIG_CTRL_DRIVE_EN, TRIG_IN_CTRL, PIN_STATUS_HOLDERS] ++
  [PIN_STATUS_DRIVERS, PIN_STATUS_XTRIG_LOW, PIN_STATUS_XTRIG_DRIVEN, PIN_STATUS_TRIG_IN,
    PIN_STATUS_LOCKOUT, PIN_STATUS_HOLD, PIN_STATUS_TRIG_OUT, DUT_HOLD_ASSERTS,
    DUT_HOLD_LIMITS, DUT_HOLD_REFUSED, TRG_WC_SEL_SKEIN3, TRG_WC_SEL_SKEIN2] ++
  [TRG_WC_SEL_SKEIN1, TRG_WC_SEL_SKEIN0, TRG_WC_CTRL_SCK, TRG_WC_CTRL_STATE_QUAL,
    TRG_WC_CTRL_OWNER, TRG_WC_CTRL_NE, TRG_WC_CTRL_ENABLE, TRG_WC_MASK,
    TRG_WC_VALUE, TRG_RC_SEL_SKEINB, TRG_RC_SEL_SKEINA, TRG_RC_SEL_WIDTH] ++
  [TRG_RC_SEL_LSB, TRG_ED_CTRL_SKEIN, TRG_ED_CTRL_CH, TRG_ED_CTRL_KIND,
    TRG_ED_CTRL_OWNER, TRG_ED_CTRL_ENABLE, TRG_ED_WIDTH, TRG_CT_CTRL_CLR_SRC,
    TRG_CT_CTRL_INC_SRC, TRG_CT_CTRL_EDGE, TRG_CT_CTRL_OWNER, TRG_CT_CTRL_FREE] ++
  [TRG_CT_CTRL_ENABLE, TRG_CT_TARGET, TRG_CT_VALUE, TRG_CT_STATUS_SATURATED,
    TRG_CT_STATUS_REACHED, TRG_CT_STATUS_RUNNING, TRG_RC_CTRL_SCK, TRG_RC_CTRL_STATE_QUAL,
    TRG_RC_CTRL_OWNER, TRG_RC_CTRL_OUTSIDE, TRG_RC_CTRL_ENABLE, TRG_RC_LOW] ++
  [TRG_RC_HIGH, TRG_TM_CTRL_START_SRC, TRG_TM_CTRL_OWNER, TRG_TM_CTRL_FREE,
    TRG_TM_CTRL_ENABLE, TRG_TM_LIMIT, TRG_TM_VALUE, TRG_TM_STATUS_SATURATED,
    TRG_TM_STATUS_EXPIRED, TRG_TM_STATUS_RUNNING]

/-! ### Fields of the ADM pages (R258 of spec/07*.md) -/

def ADM_RESERVE : RegField := ⟨.adm, 0x040, 0, 1, 0, 15, .cfg, 0x960, 0x0⟩
def ADM_SLOTS_WRITE : RegField := ⟨.adm, 0x044, 0, 1, 16, 16, .sta, 0x2EE0, 0x0⟩
def ADM_SLOTS_TOTAL : RegField := ⟨.adm, 0x044, 0, 1, 0, 16, .sta, 0x3840, 0x0⟩
def ADM_CREDITS_USED : RegField := ⟨.adm, 0x048, 0, 1, 0, 16, .sta, 0x0, 0x0⟩
def ADM_OFFLOAD : RegField := ⟨.adm, 0x04C, 0, 1, 0, 32, .cfg, 0xD2F0, 0x0⟩
def ADM_LOG_RATE : RegField := ⟨.adm, 0x050, 0, 1, 0, 32, .sta, 0x0, 0x0⟩
def ADM_CREDIT_INDEX : RegField := ⟨.adm, 0x05C, 0, 1, 0, 7, .cfg, 0x0, 0x0⟩
def ADM_CREDIT_MIN : RegField := ⟨.adm, 0x060, 0, 1, 16, 16, .sta, 0x0, 0x5C⟩
def ADM_CREDIT_CREDITS : RegField := ⟨.adm, 0x060, 0, 1, 0, 16, .cfg, 0x0, 0x5C⟩
def ADM_EPOCHS_CHECKED : RegField := ⟨.adm, 0x064, 0, 1, 0, 32, .sta, 0x0, 0x0⟩
def ADM_CHECK_FAIL_EPOCH : RegField := ⟨.adm, 0x068, 0, 1, 0, 64, .sta, 0x0, 0x0⟩
def ADM_SESSION_CREDITS : RegField := ⟨.adm, 0x080, 8, 8, 0, 16, .sta, 0x0, 0x0⟩
def ADM_SESSION_RATE : RegField := ⟨.adm, 0x084, 8, 8, 0, 32, .sta, 0x0, 0x0⟩
def ADM_STATUS_BUSY : RegField := ⟨.adm, 0x054, 0, 1, 4, 1, .sta, 0x0, 0x0⟩
def ADM_STATUS_REBUILDING : RegField := ⟨.adm, 0x054, 0, 1, 3, 1, .sta, 0x0, 0x0⟩
def ADM_STATUS_CHECK_FAIL : RegField := ⟨.adm, 0x054, 0, 1, 2, 1, .evt, 0x0, 0x0⟩
def ADM_STATUS_RESERVE_REFUSED : RegField := ⟨.adm, 0x054, 0, 1, 1, 1, .evt, 0x0, 0x0⟩
def ADM_STATUS_CREDIT_REFUSED : RegField := ⟨.adm, 0x054, 0, 1, 0, 1, .evt, 0x0, 0x0⟩
def ADM_LAST_REFUSAL_CAUSE : RegField := ⟨.adm, 0x058, 0, 1, 24, 3, .sta, 0x0, 0x0⟩
def ADM_LAST_REFUSAL_SESSION : RegField := ⟨.adm, 0x058, 0, 1, 16, 3, .sta, 0x0, 0x0⟩
def ADM_LAST_REFUSAL_ITEM : RegField := ⟨.adm, 0x058, 0, 1, 0, 16, .sta, 0x0, 0x0⟩

/-- The fields of a ADM page, in the order of its map. -/
def admFields : List RegField :=
  [ADM_RESERVE, ADM_SLOTS_WRITE, ADM_SLOTS_TOTAL, ADM_CREDITS_USED,
    ADM_OFFLOAD, ADM_LOG_RATE, ADM_CREDIT_INDEX, ADM_CREDIT_MIN,
    ADM_CREDIT_CREDITS, ADM_EPOCHS_CHECKED, ADM_CHECK_FAIL_EPOCH, ADM_SESSION_CREDITS] ++
  [ADM_SESSION_RATE, ADM_STATUS_BUSY, ADM_STATUS_REBUILDING, ADM_STATUS_CHECK_FAIL,
    ADM_STATUS_RESERVE_REFUSED, ADM_STATUS_CREDIT_REFUSED, ADM_LAST_REFUSAL_CAUSE, ADM_LAST_REFUSAL_SESSION,
    ADM_LAST_REFUSAL_ITEM]

/-! ### Fields of the SQ pages (R260 of spec/07*.md) -/

def SQ_WM_HIGH : RegField := ⟨.sq, 0x040, 0, 1, 16, 12, .cfg, 0x600, 0x0⟩
def SQ_WM_LOW : RegField := ⟨.sq, 0x040, 0, 1, 0, 12, .cfg, 0x200, 0x0⟩
def SQ_CTRL_WARN_SPARE : RegField := ⟨.sq, 0x044, 0, 1, 1, 1, .cfg, 0x0, 0x0⟩
def SQ_CTRL_WARN_EN : RegField := ⟨.sq, 0x044, 0, 1, 0, 1, .cfg, 0x1, 0x0⟩
def SQ_STATUS_ACQ_WARN : RegField := ⟨.sq, 0x050, 0, 1, 1, 1, .sta, 0x0, 0x0⟩
def SQ_STATUS_ABOVE_64 : RegField := ⟨.sq, 0x050, 0, 1, 0, 1, .sta, 0x0, 0x0⟩
def SQ_ABOVE : RegField := ⟨.sq, 0x048, 0, 1, 0, 64, .sta, 0x0, 0x0⟩
def SQ_INDEX : RegField := ⟨.sq, 0x054, 0, 1, 0, 7, .cfg, 0x0, 0x0⟩
def SQ_LEVEL : RegField := ⟨.sq, 0x058, 0, 1, 0, 13, .sta, 0x0, 0x54⟩
def SQ_PEAK : RegField := ⟨.sq, 0x05C, 0, 1, 0, 13, .cnt, 0x0, 0x54⟩
def SQ_UNITS_IN : RegField := ⟨.sq, 0x060, 0, 1, 0, 32, .sta, 0x0, 0x54⟩
def SQ_UNITS_OUT : RegField := ⟨.sq, 0x064, 0, 1, 0, 32, .sta, 0x0, 0x54⟩
def SQ_OVR_UNITS : RegField := ⟨.sq, 0x068, 0, 1, 0, 32, .sta, 0x0, 0x54⟩
def SQ_OVR_WORDS : RegField := ⟨.sq, 0x06C, 0, 1, 0, 32, .sta, 0x0, 0x54⟩
def SQ_PARITY : RegField := ⟨.sq, 0x070, 0, 1, 0, 32, .sta, 0x0, 0x54⟩

/-- The fields of a SQ page, in the order of its map. -/
def sqFields : List RegField :=
  [SQ_WM_HIGH, SQ_WM_LOW, SQ_CTRL_WARN_SPARE, SQ_CTRL_WARN_EN,
    SQ_STATUS_ACQ_WARN, SQ_STATUS_ABOVE_64, SQ_ABOVE, SQ_INDEX,
    SQ_LEVEL, SQ_PEAK, SQ_UNITS_IN, SQ_UNITS_OUT] ++
  [SQ_OVR_UNITS, SQ_OVR_WORDS, SQ_PARITY]

/-! ### Fields of the WR pages (R261 of spec/07*.md) -/

def WR_SESSION_STATUS_OVER_QUOTA : RegField := ⟨.wr, 0x100, 64, 8, 31, 1, .sta, 0x0, 0x0⟩
def WR_SESSION_STATUS_FULL : RegField := ⟨.wr, 0x100, 64, 8, 30, 1, .sta, 0x0, 0x0⟩
def WR_SESSION_STATUS_REFUSING : RegField := ⟨.wr, 0x100, 64, 8, 29, 1, .sta, 0x0, 0x0⟩
def WR_SESSION_STATUS_POLICY : RegField := ⟨.wr, 0x100, 64, 8, 16, 2, .sta, 0x0, 0x0⟩
def WR_SESSION_STATUS_CLOSE_CAUSE : RegField := ⟨.wr, 0x100, 64, 8, 8, 4, .sta, 0x0, 0x0⟩
def WR_SESSION_STATUS_STATE : RegField := ⟨.wr, 0x100, 64, 8, 0, 3, .sta, 0x0, 0x0⟩
def WR_SESSION_CTRL : RegField := ⟨.wr, 0x104, 64, 8, 0, 1, .cfg, 0x1, 0x0⟩
def WR_ACTIVE : RegField := ⟨.wr, 0x040, 0, 1, 0, 8, .sta, 0x0, 0x0⟩
def WR_PAD_WORDS : RegField := ⟨.wr, 0x048, 0, 1, 0, 64, .sta, 0x0, 0x0⟩
def WR_INSERTED : RegField := ⟨.wr, 0x050, 0, 1, 0, 64, .sta, 0x0, 0x0⟩
def WR_SESSION_REGION_BASE : RegField := ⟨.wr, 0x108, 64, 8, 0, 64, .sta, 0x0, 0x0⟩
def WR_SESSION_REGION_SIZE : RegField := ⟨.wr, 0x110, 64, 8, 0, 64, .sta, 0x0, 0x0⟩
def WR_SESSION_QUOTA : RegField := ⟨.wr, 0x118, 64, 8, 0, 64, .sta, 0x0, 0x0⟩
def WR_SESSION_HELD : RegField := ⟨.wr, 0x120, 64, 8, 0, 64, .sta, 0x0, 0x0⟩
def WR_SESSION_CAST_FRAME : RegField := ⟨.wr, 0x128, 64, 8, 0, 62, .sta, 0x0, 0x0⟩
def WR_SESSION_SKEINS : RegField := ⟨.wr, 0x130, 64, 8, 0, 64, .sta, 0x0, 0x0⟩
def WR_SESSION_LEDGER_SEQ : RegField := ⟨.wr, 0x138, 64, 8, 0, 32, .sta, 0x0, 0x0⟩
def WR_LANE_INDEX : RegField := ⟨.wr, 0x300, 0, 1, 0, 7, .cfg, 0x0, 0x0⟩
def WR_LANE_BASE : RegField := ⟨.wr, 0x308, 0, 1, 0, 64, .sta, 0x0, 0x300⟩
def WR_LANE_SIZE : RegField := ⟨.wr, 0x310, 0, 1, 0, 64, .sta, 0x0, 0x300⟩
def WR_LANE_WRITTEN : RegField := ⟨.wr, 0x318, 0, 1, 0, 64, .sta, 0x0, 0x300⟩
def WR_LANE_RELEASED : RegField := ⟨.wr, 0x320, 0, 1, 0, 64, .cnt, 0x0, 0x300⟩
def WR_LANE_OLDEST : RegField := ⟨.wr, 0x328, 0, 1, 0, 62, .sta, 0x0, 0x300⟩
def WR_LEDGER_INDEX : RegField := ⟨.wr, 0x340, 0, 1, 0, 3, .cfg, 0x0, 0x0⟩
def WR_LEDGER : RegField := ⟨.wr, 0x348, 8, 16, 0, 64, .sta, 0x0, 0x340⟩

/-- The fields of a WR page, in the order of its map. -/
def wrFields : List RegField :=
  [WR_SESSION_STATUS_OVER_QUOTA, WR_SESSION_STATUS_FULL, WR_SESSION_STATUS_REFUSING, WR_SESSION_STATUS_POLICY,
    WR_SESSION_STATUS_CLOSE_CAUSE, WR_SESSION_STATUS_STATE, WR_SESSION_CTRL, WR_ACTIVE,
    WR_PAD_WORDS, WR_INSERTED, WR_SESSION_REGION_BASE, WR_SESSION_REGION_SIZE] ++
  [WR_SESSION_QUOTA, WR_SESSION_HELD, WR_SESSION_CAST_FRAME, WR_SESSION_SKEINS,
    WR_SESSION_LEDGER_SEQ, WR_LANE_INDEX, WR_LANE_BASE, WR_LANE_SIZE,
    WR_LANE_WRITTEN, WR_LANE_RELEASED, WR_LANE_OLDEST, WR_LEDGER_INDEX] ++
  [WR_LEDGER]

/-! ### Fields of the SEG pages (R262 of spec/07*.md) -/

def SEG_ENTRY_INFO_FV : RegField := ⟨.seg, 0x050, 0, 1, 14, 1, .sta, 0x0, 0x44⟩
def SEG_ENTRY_INFO_CUT : RegField := ⟨.seg, 0x050, 0, 1, 13, 1, .sta, 0x0, 0x44⟩
def SEG_ENTRY_INFO_SEQ : RegField := ⟨.seg, 0x050, 0, 1, 8, 3, .sta, 0x0, 0x44⟩
def SEG_ENTRY_INFO_SESSION : RegField := ⟨.seg, 0x050, 0, 1, 4, 3, .sta, 0x0, 0x44⟩
def SEG_ENTRY_INFO_STATE : RegField := ⟨.seg, 0x050, 0, 1, 0, 3, .sta, 0x0, 0x44⟩
def SEG_FREE : RegField := ⟨.seg, 0x040, 0, 1, 0, 15, .sta, 0x4000, 0x0⟩
def SEG_INDEX : RegField := ⟨.seg, 0x044, 0, 1, 0, 14, .cfg, 0x0, 0x0⟩
def SEG_CMD : RegField := ⟨.seg, 0x048, 0, 1, 0, 1, .cmd, 0x0, 0x0⟩
def SEG_STATUS : RegField := ⟨.seg, 0x04C, 0, 1, 0, 1, .evt, 0x0, 0x0⟩
def SEG_ENTRY_OPEN : RegField := ⟨.seg, 0x058, 0, 1, 0, 64, .sta, 0x0, 0x44⟩
def SEG_ENTRY_CLOSE : RegField := ⟨.seg, 0x060, 0, 1, 0, 64, .sta, 0x0, 0x44⟩
def SEG_ENTRY_REC : RegField := ⟨.seg, 0x068, 0, 1, 0, 64, .sta, 0x0, 0x44⟩
def SEG_ENTRY_ERA_CLOSE_ERA : RegField := ⟨.seg, 0x070, 0, 1, 16, 16, .sta, 0x0, 0x44⟩
def SEG_ENTRY_ERA_OPEN_ERA : RegField := ⟨.seg, 0x070, 0, 1, 0, 16, .sta, 0x0, 0x44⟩
def SEG_SESSION_COUNT : RegField := ⟨.seg, 0x080, 4, 8, 16, 15, .sta, 0x0, 0x0⟩
def SEG_SESSION_BASE : RegField := ⟨.seg, 0x080, 4, 8, 0, 14, .sta, 0x0, 0x0⟩
def SEG_SESSION_USED : RegField := ⟨.seg, 0x0A0, 4, 8, 0, 15, .sta, 0x0, 0x0⟩

/-- The fields of a SEG page, in the order of its map. -/
def segFields : List RegField :=
  [SEG_ENTRY_INFO_FV, SEG_ENTRY_INFO_CUT, SEG_ENTRY_INFO_SEQ, SEG_ENTRY_INFO_SESSION,
    SEG_ENTRY_INFO_STATE, SEG_FREE, SEG_INDEX, SEG_CMD,
    SEG_STATUS, SEG_ENTRY_OPEN, SEG_ENTRY_CLOSE, SEG_ENTRY_REC] ++
  [SEG_ENTRY_ERA_CLOSE_ERA, SEG_ENTRY_ERA_OPEN_ERA, SEG_SESSION_COUNT, SEG_SESSION_BASE,
    SEG_SESSION_USED]

/-! ### Fields of the HBM pages (R289 of spec/08*.md) -/

def HBM_STATUS_TEMP : RegField := ⟨.hbm, 0x040, 0, 1, 24, 8, .sta, 0x0, 0x0⟩
def HBM_STATUS_IN_SERVICE : RegField := ⟨.hbm, 0x040, 0, 1, 16, 8, .sta, 0x0, 0x0⟩
def HBM_STATUS_HOT : RegField := ⟨.hbm, 0x040, 0, 1, 9, 1, .sta, 0x0, 0x0⟩
def HBM_STATUS_STATE : RegField := ⟨.hbm, 0x040, 0, 1, 0, 4, .sta, 0x0, 0x0⟩
def HBM_PC_STATE_MARGIN : RegField := ⟨.hbm, 0x048, 0, 1, 24, 8, .sta, 0x0, 0x44⟩
def HBM_PC_STATE_REPAIRED : RegField := ⟨.hbm, 0x048, 0, 1, 16, 8, .sta, 0x0, 0x44⟩
def HBM_PC_STATE_IN_ORDER : RegField := ⟨.hbm, 0x048, 0, 1, 8, 1, .sta, 0x0, 0x44⟩
def HBM_PC_STATE_STATE : RegField := ⟨.hbm, 0x048, 0, 1, 0, 3, .sta, 0x4, 0x44⟩
def HBM_PC_INDEX : RegField := ⟨.hbm, 0x044, 0, 1, 0, 5, .cfg, 0x0, 0x0⟩
def HBM_PC_CE : RegField := ⟨.hbm, 0x04C, 0, 1, 0, 32, .cnt, 0x0, 0x44⟩
def HBM_PC_UE : RegField := ⟨.hbm, 0x050, 0, 1, 0, 32, .cnt, 0x0, 0x44⟩
def HBM_PC_POISON : RegField := ⟨.hbm, 0x054, 0, 1, 0, 32, .cnt, 0x0, 0x44⟩
def HBM_PC_IN_ORDER : RegField := ⟨.hbm, 0x058, 0, 1, 0, 32, .cnt, 0x0, 0x44⟩
def HBM_PC_DROPPED : RegField := ⟨.hbm, 0x05C, 0, 1, 0, 32, .cnt, 0x0, 0x44⟩
def HBM_PC_QUEUE_PEAK : RegField := ⟨.hbm, 0x060, 0, 1, 0, 10, .cnt, 0x0, 0x44⟩
def HBM_LAST_UE : RegField := ⟨.hbm, 0x068, 0, 1, 0, 64, .sta, 0x0, 0x0⟩
def HBM_WRITTEN : RegField := ⟨.hbm, 0x070, 0, 1, 0, 64, .sta, 0x0, 0x0⟩
def HBM_FENCED : RegField := ⟨.hbm, 0x078, 0, 1, 0, 32, .sta, 0x0, 0x0⟩
def HBM_RETAIN : RegField := ⟨.hbm, 0x07C, 0, 1, 0, 32, .cfg, 0xFFFFFFFF, 0x0⟩
def HBM_CE_TOTAL : RegField := ⟨.hbm, 0x080, 0, 1, 0, 32, .cnt, 0x0, 0x0⟩
def HBM_UE_TOTAL : RegField := ⟨.hbm, 0x084, 0, 1, 0, 32, .cnt, 0x0, 0x0⟩

/-- The fields of a HBM page, in the order of its map. -/
def hbmFields : List RegField :=
  [HBM_STATUS_TEMP, HBM_STATUS_IN_SERVICE, HBM_STATUS_HOT, HBM_STATUS_STATE,
    HBM_PC_STATE_MARGIN, HBM_PC_STATE_REPAIRED, HBM_PC_STATE_IN_ORDER, HBM_PC_STATE_STATE,
    HBM_PC_INDEX, HBM_PC_CE, HBM_PC_UE, HBM_PC_POISON] ++
  [HBM_PC_IN_ORDER, HBM_PC_DROPPED, HBM_PC_QUEUE_PEAK, HBM_LAST_UE,
    HBM_WRITTEN, HBM_FENCED, HBM_RETAIN, HBM_CE_TOTAL,
    HBM_UE_TOTAL]

/-! ### Fields of the HBMG pages (R290 of spec/08*.md) -/

def HBM_G_CTRL_OLD_MAP_READ : RegField := ⟨.hbmg, 0x040, 0, 1, 8, 1, .cfg, 0x0, 0x0⟩
def HBM_G_CTRL_SCRUB_EN : RegField := ⟨.hbmg, 0x040, 0, 1, 4, 1, .cfg, 0x1, 0x0⟩
def HBM_G_CTRL_GRAIN : RegField := ⟨.hbmg, 0x040, 0, 1, 0, 4, .cfg, 0x0, 0x0⟩
def HBM_G_STATUS_PCS : RegField := ⟨.hbmg, 0x044, 0, 1, 16, 8, .sta, 0x0, 0x0⟩
def HBM_G_STATUS_STOPPED_ACCESS : RegField := ⟨.hbmg, 0x044, 0, 1, 5, 1, .evt, 0x0, 0x0⟩
def HBM_G_STATUS_PREV_VALID : RegField := ⟨.hbmg, 0x044, 0, 1, 4, 1, .sta, 0x0, 0x0⟩
def HBM_G_STATUS_PARKED : RegField := ⟨.hbmg, 0x044, 0, 1, 2, 1, .sta, 0x0, 0x0⟩
def HBM_G_STATUS_STOPPED : RegField := ⟨.hbmg, 0x044, 0, 1, 1, 1, .sta, 0x1, 0x0⟩
def HBM_G_STATUS_READY : RegField := ⟨.hbmg, 0x044, 0, 1, 0, 1, .sta, 0x0, 0x0⟩
def HBM_G_FENCE_GO : RegField := ⟨.hbmg, 0x058, 0, 1, 31, 1, .cmd, 0x0, 0x0⟩
def HBM_G_FENCE_STACK : RegField := ⟨.hbmg, 0x058, 0, 1, 8, 1, .cfg, 0x0, 0x0⟩
def HBM_G_FENCE_TARGET : RegField := ⟨.hbmg, 0x058, 0, 1, 0, 7, .cfg, 0x0, 0x0⟩
def HBM_G_CAPACITY : RegField := ⟨.hbmg, 0x048, 0, 1, 0, 64, .sta, 0x0, 0x0⟩
def HBM_G_SCRUB : RegField := ⟨.hbmg, 0x050, 0, 1, 0, 8, .cfg, 0x8, 0x0⟩
def HBM_G_SCRUB_PASSES : RegField := ⟨.hbmg, 0x054, 0, 1, 0, 32, .cnt, 0x0, 0x0⟩
def HBM_G_PREV_FENCED : RegField := ⟨.hbmg, 0x060, 4, 4, 0, 32, .sta, 0x0, 0x0⟩
def HBM_G_PREV_GRAIN : RegField := ⟨.hbmg, 0x070, 0, 1, 0, 4, .sta, 0x0, 0x0⟩
def HBM_G_REBUILDS : RegField := ⟨.hbmg, 0x074, 0, 1, 0, 32, .cnt, 0x0, 0x0⟩

/-- The fields of a HBMG page, in the order of its map. -/
def hbmgFields : List RegField :=
  [HBM_G_CTRL_OLD_MAP_READ, HBM_G_CTRL_SCRUB_EN, HBM_G_CTRL_GRAIN, HBM_G_STATUS_PCS,
    HBM_G_STATUS_STOPPED_ACCESS, HBM_G_STATUS_PREV_VALID, HBM_G_STATUS_PARKED, HBM_G_STATUS_STOPPED,
    HBM_G_STATUS_READY, HBM_G_FENCE_GO, HBM_G_FENCE_STACK, HBM_G_FENCE_TARGET] ++
  [HBM_G_CAPACITY, HBM_G_SCRUB, HBM_G_SCRUB_PASSES, HBM_G_PREV_FENCED,
    HBM_G_PREV_GRAIN, HBM_G_REBUILDS]

/-! ### Fields of the GRT pages (R311 of spec/09*.md) -/

def GRT_STATUS_HOST_UE : RegField := ⟨.grt, 0x040, 0, 1, 6, 1, .evt, 0x0, 0x0⟩
def GRT_STATUS_HOST_DENIED : RegField := ⟨.grt, 0x040, 0, 1, 5, 1, .evt, 0x0, 0x0⟩
def GRT_STATUS_OWNER_REFUSED : RegField := ⟨.grt, 0x040, 0, 1, 4, 1, .evt, 0x0, 0x0⟩
def GRT_STATUS_CLEARING : RegField := ⟨.grt, 0x040, 0, 1, 1, 1, .sta, 0x1, 0x0⟩
def GRT_STATUS_READY : RegField := ⟨.grt, 0x040, 0, 1, 0, 1, .sta, 0x0, 0x0⟩
def GRT_HOST_ADDR_AUTO_INC : RegField := ⟨.grt, 0x048, 0, 1, 31, 1, .cfg, 0x0, 0x0⟩
def GRT_HOST_ADDR_OP : RegField := ⟨.grt, 0x048, 0, 1, 28, 2, .cfg, 0x0, 0x0⟩
def GRT_HOST_ADDR_ADDR : RegField := ⟨.grt, 0x048, 0, 1, 3, 23, .cfg, 0x0, 0x0⟩
def GRT_HOST_DATA : RegField := ⟨.grt, 0x050, 0, 1, 0, 64, .cfg, 0x0, 0x0⟩
def GRT_FENCED : RegField := ⟨.grt, 0x060, 0, 1, 0, 64, .sta, 0x0, 0x0⟩
def GRT_BORROWED : RegField := ⟨.grt, 0x068, 0, 1, 0, 64, .sta, 0x0, 0x0⟩
def GRT_INDEX : RegField := ⟨.grt, 0x070, 0, 1, 0, 6, .cfg, 0x0, 0x0⟩
def GRT_B_CE : RegField := ⟨.grt, 0x074, 0, 1, 0, 32, .cnt, 0x0, 0x70⟩
def GRT_B_UE : RegField := ⟨.grt, 0x078, 0, 1, 0, 32, .cnt, 0x0, 0x70⟩
def GRT_B_DENIED : RegField := ⟨.grt, 0x07C, 0, 1, 0, 32, .cnt, 0x0, 0x70⟩
def GRT_B_STALLS : RegField := ⟨.grt, 0x080, 0, 1, 0, 32, .cnt, 0x0, 0x70⟩
def GRT_B_ABANDONS : RegField := ⟨.grt, 0x084, 0, 1, 0, 32, .cnt, 0x0, 0x70⟩
def GRT_B_LAST_UE : RegField := ⟨.grt, 0x094, 0, 1, 3, 23, .sta, 0x0, 0x70⟩
def GRT_B_REPAIR_WAITING : RegField := ⟨.grt, 0x088, 0, 1, 8, 4, .sta, 0x0, 0x70⟩
def GRT_B_REPAIR_SOFT : RegField := ⟨.grt, 0x088, 0, 1, 4, 4, .sta, 0x0, 0x70⟩
def GRT_B_REPAIR_FUSED : RegField := ⟨.grt, 0x088, 0, 1, 0, 4, .sta, 0x0, 0x70⟩
def GRT_B_CAUSE_REFUSED : RegField := ⟨.grt, 0x08C, 0, 1, 5, 1, .evt, 0x0, 0x70⟩
def GRT_B_CAUSE_FENCED : RegField := ⟨.grt, 0x08C, 0, 1, 4, 1, .evt, 0x0, 0x70⟩
def GRT_B_CAUSE_SWATCH_FAIL : RegField := ⟨.grt, 0x08C, 0, 1, 3, 1, .evt, 0x0, 0x70⟩
def GRT_B_CAUSE_DENIED : RegField := ⟨.grt, 0x08C, 0, 1, 2, 1, .evt, 0x0, 0x70⟩
def GRT_B_CAUSE_UE : RegField := ⟨.grt, 0x08C, 0, 1, 1, 1, .evt, 0x0, 0x70⟩
def GRT_B_CAUSE_CE : RegField := ⟨.grt, 0x08C, 0, 1, 0, 1, .evt, 0x0, 0x70⟩
def GRT_B_CAUSE_EN : RegField := ⟨.grt, 0x090, 0, 1, 0, 6, .cfg, 0x3A, 0x70⟩
def GRT_OWNER_PENDING : RegField := ⟨.grt, 0x100, 4, 64, 31, 1, .sta, 0x0, 0x0⟩
def GRT_OWNER_BORROWED : RegField := ⟨.grt, 0x100, 4, 64, 30, 1, .sta, 0x0, 0x0⟩
def GRT_OWNER_FENCED : RegField := ⟨.grt, 0x100, 4, 64, 29, 1, .sta, 0x0, 0x0⟩
def GRT_OWNER_CLEAR : RegField := ⟨.grt, 0x100, 4, 64, 19, 1, .cmd, 0x0, 0x0⟩
def GRT_OWNER_NO_BORROW : RegField := ⟨.grt, 0x100, 4, 64, 18, 1, .cfg, 0x0, 0x0⟩
def GRT_OWNER_GUEST : RegField := ⟨.grt, 0x100, 4, 64, 8, 6, .cfg, 0x0, 0x0⟩
def GRT_OWNER_OWNER : RegField := ⟨.grt, 0x100, 4, 64, 0, 3, .cfg, 0x1, 0x0⟩

/-- The fields of a GRT page, in the order of its map. -/
def grtFields : List RegField :=
  [GRT_STATUS_HOST_UE, GRT_STATUS_HOST_DENIED, GRT_STATUS_OWNER_REFUSED, GRT_STATUS_CLEARING,
    GRT_STATUS_READY, GRT_HOST_ADDR_AUTO_INC, GRT_HOST_ADDR_OP, GRT_HOST_ADDR_ADDR,
    GRT_HOST_DATA, GRT_FENCED, GRT_BORROWED, GRT_INDEX] ++
  [GRT_B_CE, GRT_B_UE, GRT_B_DENIED, GRT_B_STALLS,
    GRT_B_ABANDONS, GRT_B_LAST_UE, GRT_B_REPAIR_WAITING, GRT_B_REPAIR_SOFT,
    GRT_B_REPAIR_FUSED, GRT_B_CAUSE_REFUSED, GRT_B_CAUSE_FENCED, GRT_B_CAUSE_SWATCH_FAIL] ++
  [GRT_B_CAUSE_DENIED, GRT_B_CAUSE_UE, GRT_B_CAUSE_CE, GRT_B_CAUSE_EN,
    GRT_OWNER_PENDING, GRT_OWNER_BORROWED, GRT_OWNER_FENCED, GRT_OWNER_CLEAR,
    GRT_OWNER_NO_BORROW, GRT_OWNER_GUEST, GRT_OWNER_OWNER]

/-! ### Fields of the DMAG pages (R337 of spec/10*.md) -/

def DMA_G_CTRL_HOST_READS : RegField := ⟨.dmag, 0x040, 0, 1, 8, 8, .cfg, 0x80, 0x0⟩
def DMA_G_CTRL_ABORT_ALL : RegField := ⟨.dmag, 0x040, 0, 1, 1, 1, .cmd, 0x0, 0x0⟩
def DMA_G_CTRL_EP_EN : RegField := ⟨.dmag, 0x040, 0, 1, 0, 1, .cfg, 0x1, 0x0⟩
def DMA_G_STATUS_UNIT_WAIT : RegField := ⟨.dmag, 0x044, 0, 1, 2, 1, .sta, 0x0, 0x0⟩
def DMA_G_STATUS_HBM_WAIT : RegField := ⟨.dmag, 0x044, 0, 1, 1, 1, .sta, 0x0, 0x0⟩
def DMA_G_STATUS_HOST_WAIT : RegField := ⟨.dmag, 0x044, 0, 1, 0, 1, .sta, 0x0, 0x0⟩
def DMA_G_RUNNING : RegField := ⟨.dmag, 0x048, 0, 1, 0, 64, .sta, 0x0, 0x0⟩
def DMA_G_FENCED : RegField := ⟨.dmag, 0x050, 0, 1, 0, 64, .sta, 0x0, 0x0⟩
def DMA_G_BURSTS : RegField := ⟨.dmag, 0x058, 0, 1, 0, 64, .cnt, 0x0, 0x0⟩
def DMA_G_LEVEL_GRANTS : RegField := ⟨.dmag, 0x060, 4, 8, 0, 32, .cnt, 0x0, 0x0⟩

/-- The fields of a DMAG page, in the order of its map. -/
def dmagFields : List RegField :=
  [DMA_G_CTRL_HOST_READS, DMA_G_CTRL_ABORT_ALL, DMA_G_CTRL_EP_EN, DMA_G_STATUS_UNIT_WAIT,
    DMA_G_STATUS_HBM_WAIT, DMA_G_STATUS_HOST_WAIT, DMA_G_RUNNING, DMA_G_FENCED,
    DMA_G_BURSTS, DMA_G_LEVEL_GRANTS]

/-! ### Fields of the DMA pages (R338 of spec/10*.md) -/

def DMA_CTRL_ENABLE : RegField := ⟨.dma, 0x040, 0, 1, 31, 1, .cfg, 0x1, 0x0⟩
def DMA_CTRL_PRIO : RegField := ⟨.dma, 0x040, 0, 1, 24, 3, .cfg, 0x7, 0x0⟩
def DMA_CTRL_ABORT : RegField := ⟨.dma, 0x040, 0, 1, 1, 1, .cmd, 0x0, 0x0⟩
def DMA_CTRL_START : RegField := ⟨.dma, 0x040, 0, 1, 0, 1, .cmd, 0x0, 0x0⟩
def DMA_CHAIN_KICK : RegField := ⟨.dma, 0x044, 0, 1, 0, 32, .cmd, 0x0, 0x0⟩
def DMA_HEAD_ADDR : RegField := ⟨.dma, 0x048, 0, 1, 7, 57, .cfg, 0x0, 0x0⟩
def DMA_HEAD_HOST : RegField := ⟨.dma, 0x048, 0, 1, 1, 1, .cfg, 0x0, 0x0⟩
def DMA_CUR : RegField := ⟨.dma, 0x058, 0, 1, 0, 64, .sta, 0x0, 0x0⟩
def DMA_POS0 : RegField := ⟨.dma, 0x060, 0, 1, 0, 24, .sta, 0x0, 0x0⟩
def DMA_POS1 : RegField := ⟨.dma, 0x064, 0, 1, 0, 24, .sta, 0x0, 0x0⟩
def DMA_POS2 : RegField := ⟨.dma, 0x068, 0, 1, 0, 24, .sta, 0x0, 0x0⟩
def DMA_ELEM_OFF : RegField := ⟨.dma, 0x06C, 0, 1, 0, 30, .sta, 0x0, 0x0⟩
def DMA_IN_BYTES : RegField := ⟨.dma, 0x070, 0, 1, 0, 48, .sta, 0x0, 0x0⟩
def DMA_OUT_BYTES : RegField := ⟨.dma, 0x078, 0, 1, 0, 48, .sta, 0x0, 0x0⟩
def DMA_TOTAL_BYTES : RegField := ⟨.dma, 0x080, 0, 1, 0, 64, .sta, 0x0, 0x0⟩
def DMA_DESCS : RegField := ⟨.dma, 0x088, 0, 1, 0, 32, .sta, 0x0, 0x0⟩
def DMA_KICKS : RegField := ⟨.dma, 0x08C, 0, 1, 0, 32, .cnt, 0x0, 0x0⟩
def DMA_UE : RegField := ⟨.dma, 0x090, 0, 1, 0, 32, .cnt, 0x0, 0x0⟩
def DMA_LAST_UE : RegField := ⟨.dma, 0x098, 0, 1, 0, 64, .sta, 0x0, 0x0⟩
def DMA_STATUS_UNIT_WAIT : RegField := ⟨.dma, 0x050, 0, 1, 26, 1, .sta, 0x0, 0x0⟩
def DMA_STATUS_TARGET_WAIT : RegField := ⟨.dma, 0x050, 0, 1, 25, 1, .sta, 0x0, 0x0⟩
def DMA_STATUS_KICK_PENDING : RegField := ⟨.dma, 0x050, 0, 1, 24, 1, .sta, 0x0, 0x0⟩
def DMA_STATUS_ERR_CAUSE : RegField := ⟨.dma, 0x050, 0, 1, 16, 4, .sta, 0x0, 0x0⟩
def DMA_STATUS_RESULT : RegField := ⟨.dma, 0x050, 0, 1, 8, 3, .sta, 0x0, 0x0⟩
def DMA_STATUS_STATE : RegField := ⟨.dma, 0x050, 0, 1, 0, 3, .sta, 0x0, 0x0⟩
def DMA_CAUSE_UE : RegField := ⟨.dma, 0x0A0, 0, 1, 5, 1, .evt, 0x0, 0x0⟩
def DMA_CAUSE_DESC_IRQ : RegField := ⟨.dma, 0x0A0, 0, 1, 4, 1, .evt, 0x0, 0x0⟩
def DMA_CAUSE_ERROR : RegField := ⟨.dma, 0x0A0, 0, 1, 3, 1, .evt, 0x0, 0x0⟩
def DMA_CAUSE_KILLED : RegField := ⟨.dma, 0x0A0, 0, 1, 2, 1, .evt, 0x0, 0x0⟩
def DMA_CAUSE_ABORTED : RegField := ⟨.dma, 0x0A0, 0, 1, 1, 1, .evt, 0x0, 0x0⟩
def DMA_CAUSE_DONE : RegField := ⟨.dma, 0x0A0, 0, 1, 0, 1, .evt, 0x0, 0x0⟩
def DMA_CAUSE_EN : RegField := ⟨.dma, 0x0A4, 0, 1, 0, 6, .cfg, 0x3F, 0x0⟩

/-- The fields of a DMA page, in the order of its map. -/
def dmaFields : List RegField :=
  [DMA_CTRL_ENABLE, DMA_CTRL_PRIO, DMA_CTRL_ABORT, DMA_CTRL_START,
    DMA_CHAIN_KICK, DMA_HEAD_ADDR, DMA_HEAD_HOST, DMA_CUR,
    DMA_POS0, DMA_POS1, DMA_POS2, DMA_ELEM_OFF] ++
  [DMA_IN_BYTES, DMA_OUT_BYTES, DMA_TOTAL_BYTES, DMA_DESCS,
    DMA_KICKS, DMA_UE, DMA_LAST_UE, DMA_STATUS_UNIT_WAIT,
    DMA_STATUS_TARGET_WAIT, DMA_STATUS_KICK_PENDING, DMA_STATUS_ERR_CAUSE, DMA_STATUS_RESULT] ++
  [DMA_STATUS_STATE, DMA_CAUSE_UE, DMA_CAUSE_DESC_IRQ, DMA_CAUSE_ERROR,
    DMA_CAUSE_KILLED, DMA_CAUSE_ABORTED, DMA_CAUSE_DONE, DMA_CAUSE_EN]

/-! ### Fields of the FLW pages (R357 of spec/11*.md) -/

def FLW_STATUS_DEC_FENCED : RegField := ⟨.flw, 0x040, 0, 1, 12, 2, .sta, 0x0, 0x0⟩
def FLW_STATUS_COMP_FENCED : RegField := ⟨.flw, 0x040, 0, 1, 8, 4, .sta, 0x0, 0x0⟩
def FLW_STATUS_DEC_HELD : RegField := ⟨.flw, 0x040, 0, 1, 4, 2, .sta, 0x0, 0x0⟩
def FLW_STATUS_COMP_HELD : RegField := ⟨.flw, 0x040, 0, 1, 0, 4, .sta, 0x0, 0x0⟩
def FLW_PARITY : RegField := ⟨.flw, 0x044, 0, 1, 0, 32, .cnt, 0x0, 0x0⟩
def FLW_COMP_CTRL : RegField := ⟨.flw, 0x080, 32, 4, 0, 4, .cfg, 0x3, 0x0⟩
def FLW_COMP_STATUS_CHANNEL : RegField := ⟨.flw, 0x084, 32, 4, 16, 6, .sta, 0x0, 0x0⟩
def FLW_COMP_STATUS_HELD : RegField := ⟨.flw, 0x084, 32, 4, 8, 1, .sta, 0x0, 0x0⟩
def FLW_COMP_STATUS_LEVEL : RegField := ⟨.flw, 0x084, 32, 4, 0, 4, .sta, 0x0, 0x0⟩
def FLW_COMP_IN_BYTES : RegField := ⟨.flw, 0x088, 32, 4, 0, 64, .cnt, 0x0, 0x0⟩
def FLW_COMP_OUT_BYTES : RegField := ⟨.flw, 0x090, 32, 4, 0, 64, .cnt, 0x0, 0x0⟩
def FLW_COMP_STREAMS : RegField := ⟨.flw, 0x098, 32, 4, 0, 32, .cnt, 0x0, 0x0⟩
def FLW_COMP_CUT : RegField := ⟨.flw, 0x09C, 32, 4, 0, 32, .cnt, 0x0, 0x0⟩
def FLW_DEC_ERR_INFO_CHANNEL : RegField := ⟨.flw, 0x10C, 64, 2, 16, 6, .sta, 0x0, 0x0⟩
def FLW_DEC_ERR_INFO_CAUSE : RegField := ⟨.flw, 0x10C, 64, 2, 0, 4, .sta, 0x0, 0x0⟩
def FLW_DEC_STREAMS : RegField := ⟨.flw, 0x104, 64, 2, 0, 32, .cnt, 0x0, 0x0⟩
def FLW_DEC_REJECTS : RegField := ⟨.flw, 0x108, 64, 2, 0, 32, .cnt, 0x0, 0x0⟩
def FLW_DEC_ERR_POS : RegField := ⟨.flw, 0x110, 64, 2, 0, 64, .sta, 0x0, 0x0⟩
def FLW_DEC_ERR_ORIG : RegField := ⟨.flw, 0x118, 64, 2, 0, 64, .sta, 0x0, 0x0⟩
def FLW_DEC_IN_BYTES : RegField := ⟨.flw, 0x120, 64, 2, 0, 64, .cnt, 0x0, 0x0⟩
def FLW_DEC_OUT_BYTES : RegField := ⟨.flw, 0x128, 64, 2, 0, 64, .cnt, 0x0, 0x0⟩
def FLW_DEC_STATUS_CHANNEL : RegField := ⟨.flw, 0x100, 64, 2, 16, 6, .sta, 0x0, 0x0⟩
def FLW_DEC_STATUS_HELD : RegField := ⟨.flw, 0x100, 64, 2, 8, 1, .sta, 0x0, 0x0⟩

/-- The fields of a FLW page, in the order of its map. -/
def flwFields : List RegField :=
  [FLW_STATUS_DEC_FENCED, FLW_STATUS_COMP_FENCED, FLW_STATUS_DEC_HELD, FLW_STATUS_COMP_HELD,
    FLW_PARITY, FLW_COMP_CTRL, FLW_COMP_STATUS_CHANNEL, FLW_COMP_STATUS_HELD,
    FLW_COMP_STATUS_LEVEL, FLW_COMP_IN_BYTES, FLW_COMP_OUT_BYTES, FLW_COMP_STREAMS] ++
  [FLW_COMP_CUT, FLW_DEC_ERR_INFO_CHANNEL, FLW_DEC_ERR_INFO_CAUSE, FLW_DEC_STREAMS,
    FLW_DEC_REJECTS, FLW_DEC_ERR_POS, FLW_DEC_ERR_ORIG, FLW_DEC_IN_BYTES,
    FLW_DEC_OUT_BYTES, FLW_DEC_STATUS_CHANNEL, FLW_DEC_STATUS_HELD]

/-! ### Fields of the PWR pages (R385 of spec/12*.md) -/

def PWR_STATUS_DEFERRED : RegField := ⟨.pwr, 0x040, 0, 1, 18, 1, .sta, 0x0, 0x0⟩
def PWR_STATUS_AON_SUPPLY : RegField := ⟨.pwr, 0x040, 0, 1, 17, 1, .sta, 0x0, 0x0⟩
def PWR_STATUS_TRIPPED : RegField := ⟨.pwr, 0x040, 0, 1, 16, 1, .sta, 0x0, 0x0⟩
def PWR_STATUS_RAILS_LOW : RegField := ⟨.pwr, 0x040, 0, 1, 12, 4, .sta, 0x0, 0x0⟩
def PWR_STATUS_BO_WARN : RegField := ⟨.pwr, 0x040, 0, 1, 8, 1, .sta, 0x0, 0x0⟩
def PWR_STATUS_STATE : RegField := ⟨.pwr, 0x040, 0, 1, 0, 3, .sta, 0x1, 0x0⟩
def PWR_RAIL_INDEX : RegField := ⟨.pwr, 0x044, 0, 1, 0, 3, .cfg, 0x0, 0x0⟩
def PWR_RAIL_MV : RegField := ⟨.pwr, 0x048, 0, 1, 0, 16, .sta, 0x0, 0x44⟩
def PWR_RAIL_MIN : RegField := ⟨.pwr, 0x04C, 0, 1, 0, 16, .sta, 0xFFFF, 0x44⟩
def PWR_BO_COUNT : RegField := ⟨.pwr, 0x054, 0, 1, 0, 32, .cnt, 0x0, 0x0⟩
def PWR_BO_LAST_START : RegField := ⟨.pwr, 0x058, 0, 1, 0, 64, .sta, 0x0, 0x0⟩
def PWR_BO_LAST_END : RegField := ⟨.pwr, 0x060, 0, 1, 0, 64, .sta, 0x0, 0x0⟩
def PWR_RESET_CAL : RegField := ⟨.pwr, 0x0B4, 0, 1, 0, 32, .sta, 0x0, 0x0⟩
def PWR_START_TIME : RegField := ⟨.pwr, 0x0B8, 0, 1, 0, 32, .sta, 0x0, 0x0⟩
def PWR_BO_CTRL : RegField := ⟨.pwr, 0x050, 0, 1, 0, 16, .cfg, 0x0, 0x0⟩
def PWR_BO_LAST_BOUND_OFF : RegField := ⟨.pwr, 0x068, 0, 1, 20, 1, .sta, 0x0, 0x0⟩
def PWR_BO_LAST_RAILS : RegField := ⟨.pwr, 0x068, 0, 1, 16, 4, .sta, 0x0, 0x0⟩
def PWR_BO_LAST_EPISODE : RegField := ⟨.pwr, 0x068, 0, 1, 0, 16, .sta, 0x0, 0x0⟩
def PWR_SKN_GATE : RegField := ⟨.pwr, 0x070, 0, 1, 0, 64, .cfg, 0x0, 0x0⟩
def PWR_SKN_GATE_64 : RegField := ⟨.pwr, 0x078, 0, 1, 0, 1, .cfg, 0x0, 0x0⟩
def PWR_SKN_READY : RegField := ⟨.pwr, 0x080, 0, 1, 0, 64, .sta, 0x0, 0x0⟩
def PWR_SKN_READY_64 : RegField := ⟨.pwr, 0x088, 0, 1, 0, 1, .sta, 0x0, 0x0⟩
def PWR_TRG_GATE_READY : RegField := ⟨.pwr, 0x08C, 0, 1, 8, 8, .sta, 0x0, 0x0⟩
def PWR_TRG_GATE_GATE : RegField := ⟨.pwr, 0x08C, 0, 1, 0, 8, .cfg, 0x0, 0x0⟩
def PWR_GATE_ERR_UNIT : RegField := ⟨.pwr, 0x090, 0, 1, 8, 7, .sta, 0x0, 0x0⟩
def PWR_GATE_ERR_CAUSE : RegField := ⟨.pwr, 0x090, 0, 1, 4, 4, .sta, 0x0, 0x0⟩
def PWR_GATE_ERR_REFUSED : RegField := ⟨.pwr, 0x090, 0, 1, 0, 1, .evt, 0x0, 0x0⟩
def PWR_TEMP_MAX_PEAK : RegField := ⟨.pwr, 0x0A0, 0, 1, 16, 8, .sta, 0x80, 0x0⟩
def PWR_TEMP_MAX_SENSOR : RegField := ⟨.pwr, 0x0A0, 0, 1, 8, 4, .sta, 0x0, 0x0⟩
def PWR_TEMP_MAX_TEMP : RegField := ⟨.pwr, 0x0A0, 0, 1, 0, 8, .sta, 0x0, 0x0⟩
def PWR_TEMP_INDEX : RegField := ⟨.pwr, 0x0A4, 0, 1, 0, 4, .cfg, 0x0, 0x0⟩
def PWR_TEMP_VALUE : RegField := ⟨.pwr, 0x0A8, 0, 1, 0, 8, .sta, 0x0, 0xA4⟩
def PWR_TEMP_LIMIT_COLD : RegField := ⟨.pwr, 0x0AC, 0, 1, 8, 8, .cfg, 0x0, 0x0⟩
def PWR_TEMP_LIMIT_HOT : RegField := ⟨.pwr, 0x0AC, 0, 1, 0, 8, .cfg, 0x64, 0x0⟩
def PWR_RESET_CAUSE_RAIL : RegField := ⟨.pwr, 0x0B0, 0, 1, 4, 4, .sta, 0x0, 0x0⟩
def PWR_RESET_CAUSE_CAUSE : RegField := ⟨.pwr, 0x0B0, 0, 1, 0, 4, .sta, 0x1, 0x0⟩
def PWR_CTRL : RegField := ⟨.pwr, 0x0BC, 0, 1, 0, 1, .cmd, 0x0, 0x0⟩

/-- The fields of a PWR page, in the order of its map. -/
def pwrFields : List RegField :=
  [PWR_STATUS_DEFERRED, PWR_STATUS_AON_SUPPLY, PWR_STATUS_TRIPPED, PWR_STATUS_RAILS_LOW,
    PWR_STATUS_BO_WARN, PWR_STATUS_STATE, PWR_RAIL_INDEX, PWR_RAIL_MV,
    PWR_RAIL_MIN, PWR_BO_COUNT, PWR_BO_LAST_START, PWR_BO_LAST_END] ++
  [PWR_RESET_CAL, PWR_START_TIME, PWR_BO_CTRL, PWR_BO_LAST_BOUND_OFF,
    PWR_BO_LAST_RAILS, PWR_BO_LAST_EPISODE, PWR_SKN_GATE, PWR_SKN_GATE_64,
    PWR_SKN_READY, PWR_SKN_READY_64, PWR_TRG_GATE_READY, PWR_TRG_GATE_GATE] ++
  [PWR_GATE_ERR_UNIT, PWR_GATE_ERR_CAUSE, PWR_GATE_ERR_REFUSED, PWR_TEMP_MAX_PEAK,
    PWR_TEMP_MAX_SENSOR, PWR_TEMP_MAX_TEMP, PWR_TEMP_INDEX, PWR_TEMP_VALUE,
    PWR_TEMP_LIMIT_COLD, PWR_TEMP_LIMIT_HOT, PWR_RESET_CAUSE_RAIL, PWR_RESET_CAUSE_CAUSE] ++
  [PWR_CTRL]

/-! ### Fields of the MBX pages (R407 of spec/13*.md) -/

def MBX_CMD_TAG : RegField := ⟨.mbx, 0x040, 0, 1, 16, 16, .cfg, 0x0, 0x0⟩
def MBX_CMD_CODE : RegField := ⟨.mbx, 0x040, 0, 1, 0, 8, .cfg, 0x0, 0x0⟩
def MBX_ARG_LEN : RegField := ⟨.mbx, 0x044, 0, 1, 0, 13, .cfg, 0x0, 0x0⟩
def MBX_DOORBELL : RegField := ⟨.mbx, 0x048, 0, 1, 0, 32, .cmd, 0x0, 0x0⟩
def MBX_CTRL : RegField := ⟨.mbx, 0x04C, 0, 1, 0, 1, .cmd, 0x0, 0x0⟩
def MBX_STATUS_TAG : RegField := ⟨.mbx, 0x050, 0, 1, 16, 16, .sta, 0x0, 0x0⟩
def MBX_STATUS_RESULT : RegField := ⟨.mbx, 0x050, 0, 1, 8, 8, .sta, 0x0, 0x0⟩
def MBX_STATUS_STATE : RegField := ⟨.mbx, 0x050, 0, 1, 0, 3, .sta, 0x0, 0x0⟩
def MBX_REPLY_CODE : RegField := ⟨.mbx, 0x054, 0, 1, 16, 8, .sta, 0x0, 0x0⟩
def MBX_REPLY_BULK : RegField := ⟨.mbx, 0x054, 0, 1, 15, 1, .sta, 0x0, 0x0⟩
def MBX_REPLY_LEN : RegField := ⟨.mbx, 0x054, 0, 1, 0, 15, .sta, 0x0, 0x0⟩
def MBX_ERR_BAD_WRITE : RegField := ⟨.mbx, 0x05C, 0, 1, 1, 1, .evt, 0x0, 0x0⟩
def MBX_ERR_DOORBELL_BUSY : RegField := ⟨.mbx, 0x05C, 0, 1, 0, 1, .evt, 0x0, 0x0⟩
def MBX_LAST_APPLIED_TAG : RegField := ⟨.mbx, 0x060, 0, 1, 16, 16, .sta, 0x0, 0x0⟩
def MBX_LAST_APPLIED_CODE : RegField := ⟨.mbx, 0x060, 0, 1, 0, 8, .sta, 0x0, 0x0⟩
def MBX_CPU_STATUS_RESTARTING : RegField := ⟨.mbx, 0x068, 0, 1, 8, 1, .sta, 0x0, 0x0⟩
def MBX_CPU_STATUS_ME_LOADED : RegField := ⟨.mbx, 0x068, 0, 1, 4, 3, .sta, 0x0, 0x0⟩
def MBX_CPU_STATUS_LOCKSTEP : RegField := ⟨.mbx, 0x068, 0, 1, 1, 1, .sta, 0x0, 0x0⟩
def MBX_CPU_STATUS_RUNNING : RegField := ⟨.mbx, 0x068, 0, 1, 0, 1, .sta, 0x0, 0x0⟩
def MBX_CPU_RESETS_LOCKSTEP : RegField := ⟨.mbx, 0x06C, 0, 1, 16, 16, .cnt, 0x0, 0x0⟩
def MBX_CPU_RESETS_WATCHDOG : RegField := ⟨.mbx, 0x06C, 0, 1, 0, 16, .cnt, 0x0, 0x0⟩
def MBX_CPU_CAUSE : RegField := ⟨.mbx, 0x070, 0, 1, 0, 4, .sta, 0x0, 0x0⟩
def MBX_COMPLETED : RegField := ⟨.mbx, 0x058, 0, 1, 0, 32, .sta, 0x0, 0x0⟩
def MBX_WDOG : RegField := ⟨.mbx, 0x064, 0, 1, 0, 16, .sta, 0x0, 0x0⟩
def MBX_CPU_RESTART_MS : RegField := ⟨.mbx, 0x074, 0, 1, 0, 16, .sta, 0x0, 0x0⟩
def MBX_ECHO_SEQ : RegField := ⟨.mbx, 0x078, 0, 1, 0, 32, .sta, 0x0, 0x0⟩

/-- The fields of a MBX page, in the order of its map. -/
def mbxFields : List RegField :=
  [MBX_CMD_TAG, MBX_CMD_CODE, MBX_ARG_LEN, MBX_DOORBELL,
    MBX_CTRL, MBX_STATUS_TAG, MBX_STATUS_RESULT, MBX_STATUS_STATE,
    MBX_REPLY_CODE, MBX_REPLY_BULK, MBX_REPLY_LEN, MBX_ERR_BAD_WRITE] ++
  [MBX_ERR_DOORBELL_BUSY, MBX_LAST_APPLIED_TAG, MBX_LAST_APPLIED_CODE, MBX_CPU_STATUS_RESTARTING,
    MBX_CPU_STATUS_ME_LOADED, MBX_CPU_STATUS_LOCKSTEP, MBX_CPU_STATUS_RUNNING, MBX_CPU_RESETS_LOCKSTEP,
    MBX_CPU_RESETS_WATCHDOG, MBX_CPU_CAUSE, MBX_COMPLETED, MBX_WDOG] ++
  [MBX_CPU_RESTART_MS, MBX_ECHO_SEQ]

/-! ### Fields of the SVC pages (R445 of spec/14*.md) -/

def SVC_CTRL_ALERT_EN : RegField := ⟨.svc, 0x040, 0, 1, 1, 1, .cfg, 0x1, 0x0⟩
def SVC_CTRL_DL_LOCK : RegField := ⟨.svc, 0x040, 0, 1, 0, 1, .cfg, 0x0, 0x0⟩
def SVC_STATUS_CFG_HELD : RegField := ⟨.svc, 0x044, 0, 1, 8, 1, .sta, 0x0, 0x0⟩
def SVC_STATUS_CFG_RETIRING : RegField := ⟨.svc, 0x044, 0, 1, 7, 1, .sta, 0x0, 0x0⟩
def SVC_STATUS_ACT_PAUSE : RegField := ⟨.svc, 0x044, 0, 1, 6, 1, .sta, 0x0, 0x0⟩
def SVC_STATUS_SUSPENDED : RegField := ⟨.svc, 0x044, 0, 1, 5, 1, .sta, 0x0, 0x0⟩
def SVC_STATUS_FLASH_BUSY : RegField := ⟨.svc, 0x044, 0, 1, 4, 1, .sta, 0x0, 0x0⟩
def SVC_STATUS_RECOVERY : RegField := ⟨.svc, 0x044, 0, 1, 3, 1, .sta, 0x0, 0x0⟩
def SVC_STATUS_ROM_ONLY : RegField := ⟨.svc, 0x044, 0, 1, 2, 1, .sta, 0x0, 0x0⟩
def SVC_STATUS_REPLY_READY : RegField := ⟨.svc, 0x044, 0, 1, 1, 1, .sta, 0x0, 0x0⟩
def SVC_STATUS_PORT_BUSY : RegField := ⟨.svc, 0x044, 0, 1, 0, 1, .sta, 0x0, 0x0⟩
def SVC_SLOT_A_CFG_FORMAT : RegField := ⟨.svc, 0x048, 0, 1, 16, 16, .sta, 0x0, 0x0⟩
def SVC_SLOT_A_SVN : RegField := ⟨.svc, 0x048, 0, 1, 8, 8, .sta, 0x0, 0x0⟩
def SVC_SLOT_A_STATE : RegField := ⟨.svc, 0x048, 0, 1, 0, 4, .sta, 0x0, 0x0⟩
def SVC_SLOT_B_CFG_FORMAT : RegField := ⟨.svc, 0x04C, 0, 1, 16, 16, .sta, 0x0, 0x0⟩
def SVC_SLOT_B_SVN : RegField := ⟨.svc, 0x04C, 0, 1, 8, 8, .sta, 0x0, 0x0⟩
def SVC_SLOT_B_STATE : RegField := ⟨.svc, 0x04C, 0, 1, 0, 4, .sta, 0x0, 0x0⟩
def SVC_SELECTOR_SEQ : RegField := ⟨.svc, 0x058, 0, 1, 16, 16, .sta, 0x0, 0x0⟩
def SVC_SELECTOR_TRIAL_LEFT : RegField := ⟨.svc, 0x058, 0, 1, 12, 2, .sta, 0x0, 0x0⟩
def SVC_SELECTOR_PREV : RegField := ⟨.svc, 0x058, 0, 1, 8, 3, .sta, 0x7, 0x0⟩
def SVC_SELECTOR_MODE : RegField := ⟨.svc, 0x058, 0, 1, 4, 1, .sta, 0x0, 0x0⟩
def SVC_SELECTOR_ACTIVE : RegField := ⟨.svc, 0x058, 0, 1, 0, 1, .sta, 0x0, 0x0⟩
def SVC_VERIFY_TIME_MS : RegField := ⟨.svc, 0x064, 0, 1, 16, 16, .sta, 0x0, 0x0⟩
def SVC_VERIFY_REASON : RegField := ⟨.svc, 0x064, 0, 1, 8, 4, .sta, 0x0, 0x0⟩
def SVC_VERIFY_SLOT : RegField := ⟨.svc, 0x064, 0, 1, 4, 1, .sta, 0x0, 0x0⟩
def SVC_VERIFY_RESULT : RegField := ⟨.svc, 0x064, 0, 1, 0, 2, .sta, 0x0, 0x0⟩
def SVC_LAST_ERR_CODE : RegField := ⟨.svc, 0x074, 0, 1, 8, 8, .sta, 0x0, 0x0⟩
def SVC_LAST_ERR_CAUSE : RegField := ⟨.svc, 0x074, 0, 1, 0, 4, .sta, 0x0, 0x0⟩
def SVC_CFG_LIVE_FORMAT : RegField := ⟨.svc, 0x078, 0, 1, 16, 16, .sta, 0x0, 0x0⟩
def SVC_CFG_OTHER_USED : RegField := ⟨.svc, 0x078, 0, 1, 8, 1, .sta, 0x0, 0x0⟩
def SVC_CFG_LIVE_AREA : RegField := ⟨.svc, 0x078, 0, 1, 0, 1, .sta, 0x0, 0x0⟩
def SVC_SLOT_A_VERSION : RegField := ⟨.svc, 0x050, 0, 1, 0, 32, .sta, 0x0, 0x0⟩
def SVC_SLOT_B_VERSION : RegField := ⟨.svc, 0x054, 0, 1, 0, 32, .sta, 0x0, 0x0⟩
def SVC_DL_ACTIVE : RegField := ⟨.svc, 0x05C, 0, 1, 31, 1, .sta, 0x0, 0x0⟩
def SVC_DL_BYTES : RegField := ⟨.svc, 0x060, 0, 1, 0, 32, .sta, 0x0, 0x0⟩
def SVC_FRAMES_IN : RegField := ⟨.svc, 0x068, 0, 1, 0, 32, .cnt, 0x0, 0x0⟩
def SVC_FRAMES_BAD : RegField := ⟨.svc, 0x06C, 0, 1, 0, 32, .cnt, 0x0, 0x0⟩
def SVC_FRAMES_OUT : RegField := ⟨.svc, 0x070, 0, 1, 0, 32, .cnt, 0x0, 0x0⟩
def SVC_JOURNAL : RegField := ⟨.svc, 0x07C, 0, 1, 0, 10, .sta, 0x0, 0x0⟩
def SVC_FLASH_ERRS : RegField := ⟨.svc, 0x080, 0, 1, 0, 32, .cnt, 0x0, 0x0⟩
def SVC_DL_SLOT : RegField := ⟨.svc, 0x05C, 0, 1, 0, 1, .sta, 0x0, 0x0⟩

/-- The fields of a SVC page, in the order of its map. -/
def svcFields : List RegField :=
  [SVC_CTRL_ALERT_EN, SVC_CTRL_DL_LOCK, SVC_STATUS_CFG_HELD, SVC_STATUS_CFG_RETIRING,
    SVC_STATUS_ACT_PAUSE, SVC_STATUS_SUSPENDED, SVC_STATUS_FLASH_BUSY, SVC_STATUS_RECOVERY,
    SVC_STATUS_ROM_ONLY, SVC_STATUS_REPLY_READY, SVC_STATUS_PORT_BUSY, SVC_SLOT_A_CFG_FORMAT] ++
  [SVC_SLOT_A_SVN, SVC_SLOT_A_STATE, SVC_SLOT_B_CFG_FORMAT, SVC_SLOT_B_SVN,
    SVC_SLOT_B_STATE, SVC_SELECTOR_SEQ, SVC_SELECTOR_TRIAL_LEFT, SVC_SELECTOR_PREV,
    SVC_SELECTOR_MODE, SVC_SELECTOR_ACTIVE, SVC_VERIFY_TIME_MS, SVC_VERIFY_REASON] ++
  [SVC_VERIFY_SLOT, SVC_VERIFY_RESULT, SVC_LAST_ERR_CODE, SVC_LAST_ERR_CAUSE,
    SVC_CFG_LIVE_FORMAT, SVC_CFG_OTHER_USED, SVC_CFG_LIVE_AREA, SVC_SLOT_A_VERSION,
    SVC_SLOT_B_VERSION, SVC_DL_ACTIVE, SVC_DL_BYTES, SVC_FRAMES_IN] ++
  [SVC_FRAMES_BAD, SVC_FRAMES_OUT, SVC_JOURNAL, SVC_FLASH_ERRS,
    SVC_DL_SLOT]

/-! ### Fields of the SWT pages (R475 of spec/15*.md) -/

def SWT_CTRL_DP_EN : RegField := ⟨.swt, 0x040, 0, 1, 3, 1, .cfg, 0x1, 0x0⟩
def SWT_CTRL_SWATCH_EN : RegField := ⟨.swt, 0x040, 0, 1, 2, 1, .cfg, 0x1, 0x0⟩
def SWT_CTRL_AUTO_REPLACE : RegField := ⟨.swt, 0x040, 0, 1, 1, 1, .cfg, 0x1, 0x0⟩
def SWT_CTRL_ROT_EN : RegField := ⟨.swt, 0x040, 0, 1, 0, 1, .cfg, 0x1, 0x0⟩
def SWT_STATUS_RECORD_PENDING : RegField := ⟨.swt, 0x044, 0, 1, 18, 1, .sta, 0x0, 0x0⟩
def SWT_STATUS_SWATCH_RUNNING : RegField := ⟨.swt, 0x044, 0, 1, 17, 1, .sta, 0x0, 0x0⟩
def SWT_STATUS_ROT_HELD : RegField := ⟨.swt, 0x044, 0, 1, 16, 1, .sta, 0x0, 0x0⟩
def SWT_STATUS_TARGET : RegField := ⟨.swt, 0x044, 0, 1, 8, 7, .sta, 0x7F, 0x0⟩
def SWT_STATUS_SPARE_STATE : RegField := ⟨.swt, 0x044, 0, 1, 0, 3, .sta, 0x0, 0x0⟩
def SWT_FENCE_CTRL_GO : RegField := ⟨.swt, 0x064, 0, 1, 31, 1, .cmd, 0x0, 0x0⟩
def SWT_FENCE_CTRL_OP : RegField := ⟨.swt, 0x064, 0, 1, 24, 1, .cfg, 0x0, 0x0⟩
def SWT_FENCE_CTRL_CLASS : RegField := ⟨.swt, 0x064, 0, 1, 16, 3, .cfg, 0x0, 0x0⟩
def SWT_FENCE_CTRL_INDEX : RegField := ⟨.swt, 0x064, 0, 1, 0, 7, .cfg, 0x0, 0x0⟩
def SWT_FENCE_STATUS_PENDING : RegField := ⟨.swt, 0x068, 0, 1, 6, 1, .sta, 0x0, 0x0⟩
def SWT_FENCE_STATUS_FLASH_FAIL : RegField := ⟨.swt, 0x068, 0, 1, 5, 1, .evt, 0x0, 0x0⟩
def SWT_FENCE_STATUS_REFUSED : RegField := ⟨.swt, 0x068, 0, 1, 4, 1, .evt, 0x0, 0x0⟩
def SWT_FENCE_STATUS_REFUSE_CAUSE : RegField := ⟨.swt, 0x068, 0, 1, 0, 4, .sta, 0x0, 0x0⟩
def SWT_ROT_FRAMES : RegField := ⟨.swt, 0x048, 0, 1, 0, 22, .sta, 0x0, 0x0⟩
def SWT_ROT_PASSES : RegField := ⟨.swt, 0x04C, 0, 1, 0, 32, .cnt, 0x0, 0x0⟩
def SWT_SWATCH_POS_RETRY : RegField := ⟨.swt, 0x050, 0, 1, 31, 1, .sta, 0x0, 0x0⟩
def SWT_SWATCH_POS_WINDOW : RegField := ⟨.swt, 0x050, 0, 1, 8, 11, .sta, 0x0, 0x0⟩
def SWT_SWATCH_POS_GROTTO : RegField := ⟨.swt, 0x050, 0, 1, 0, 6, .sta, 0x0, 0x0⟩
def SWT_SWATCH_PASSES : RegField := ⟨.swt, 0x054, 0, 1, 0, 32, .cnt, 0x0, 0x0⟩
def SWT_UNTESTED : RegField := ⟨.swt, 0x058, 0, 1, 0, 64, .sta, 0x0, 0x0⟩
def SWT_DP_PASSES : RegField := ⟨.swt, 0x060, 0, 1, 0, 32, .cnt, 0x0, 0x0⟩
def SWT_FAULTS : RegField := ⟨.swt, 0x06C, 0, 1, 0, 32, .sta, 0x0, 0x0⟩
def SWT_LOG_INDEX : RegField := ⟨.swt, 0x070, 0, 1, 0, 6, .cfg, 0x0, 0x0⟩
def SWT_LOG_STAMP : RegField := ⟨.swt, 0x078, 0, 1, 0, 64, .sta, 0x0, 0x70⟩
def SWT_LOG_INFO_ERA : RegField := ⟨.swt, 0x080, 0, 1, 16, 16, .sta, 0x0, 0x70⟩
def SWT_LOG_INFO_EVENT : RegField := ⟨.swt, 0x080, 0, 1, 0, 9, .sta, 0x0, 0x70⟩
def SWT_LOG_UNIT_PAGE : RegField := ⟨.swt, 0x084, 0, 1, 16, 16, .sta, 0x0, 0x70⟩
def SWT_LOG_UNIT_OUTCOME : RegField := ⟨.swt, 0x084, 0, 1, 0, 2, .sta, 0x0, 0x70⟩
def SWT_LOG_DETAIL : RegField := ⟨.swt, 0x088, 0, 1, 0, 32, .sta, 0x0, 0x70⟩
def SWT_REPAIRS : RegField := ⟨.swt, 0x08C, 0, 1, 0, 5, .sta, 0x0, 0x0⟩

/-- The fields of a SWT page, in the order of its map. -/
def swtFields : List RegField :=
  [SWT_CTRL_DP_EN, SWT_CTRL_SWATCH_EN, SWT_CTRL_AUTO_REPLACE, SWT_CTRL_ROT_EN,
    SWT_STATUS_RECORD_PENDING, SWT_STATUS_SWATCH_RUNNING, SWT_STATUS_ROT_HELD, SWT_STATUS_TARGET,
    SWT_STATUS_SPARE_STATE, SWT_FENCE_CTRL_GO, SWT_FENCE_CTRL_OP, SWT_FENCE_CTRL_CLASS] ++
  [SWT_FENCE_CTRL_INDEX, SWT_FENCE_STATUS_PENDING, SWT_FENCE_STATUS_FLASH_FAIL, SWT_FENCE_STATUS_REFUSED,
    SWT_FENCE_STATUS_REFUSE_CAUSE, SWT_ROT_FRAMES, SWT_ROT_PASSES, SWT_SWATCH_POS_RETRY,
    SWT_SWATCH_POS_WINDOW, SWT_SWATCH_POS_GROTTO, SWT_SWATCH_PASSES, SWT_UNTESTED] ++
  [SWT_DP_PASSES, SWT_FAULTS, SWT_LOG_INDEX, SWT_LOG_STAMP,
    SWT_LOG_INFO_ERA, SWT_LOG_INFO_EVENT, SWT_LOG_UNIT_PAGE, SWT_LOG_UNIT_OUTCOME,
    SWT_LOG_DETAIL, SWT_REPAIRS]

/-! ### Fields of the FUSE pages (R476 of spec/15*.md) -/

def FUSE_STATUS_REFUSED : RegField := ⟨.fuse, 0x040, 0, 1, 3, 1, .evt, 0x0, 0x0⟩
def FUSE_STATUS_BURNING : RegField := ⟨.fuse, 0x040, 0, 1, 2, 1, .sta, 0x0, 0x0⟩
def FUSE_STATUS_CORRECTED : RegField := ⟨.fuse, 0x040, 0, 1, 1, 1, .sta, 0x0, 0x0⟩
def FUSE_STATUS_LOADED : RegField := ⟨.fuse, 0x040, 0, 1, 0, 1, .sta, 0x0, 0x0⟩
def FUSE_CMD : RegField := ⟨.fuse, 0x044, 0, 1, 0, 1, .cmd, 0x0, 0x0⟩
def FUSE_KEY_DIGEST : RegField := ⟨.fuse, 0x080, 4, 16, 0, 32, .ident, 0x0, 0x0⟩
def FUSE_SVN : RegField := ⟨.fuse, 0x0C0, 0, 1, 0, 32, .ident, 0x0, 0x0⟩
def FUSE_SERIAL_LO : RegField := ⟨.fuse, 0x0C4, 0, 1, 0, 32, .ident, 0x0, 0x0⟩
def FUSE_SERIAL_HI : RegField := ⟨.fuse, 0x0C8, 0, 1, 0, 32, .ident, 0x0, 0x0⟩
def FUSE_MFG_WEEK : RegField := ⟨.fuse, 0x0CC, 0, 1, 16, 16, .ident, 0x0, 0x0⟩
def FUSE_MFG_STEPPING : RegField := ⟨.fuse, 0x0CC, 0, 1, 0, 8, .ident, 0x21, 0x0⟩
def FUSE_REPAIR : RegField := ⟨.fuse, 0x0D0, 4, 8, 0, 32, .ident, 0x0, 0x0⟩

/-- The fields of a FUSE page, in the order of its map. -/
def fuseFields : List RegField :=
  [FUSE_STATUS_REFUSED, FUSE_STATUS_BURNING, FUSE_STATUS_CORRECTED, FUSE_STATUS_LOADED,
    FUSE_CMD, FUSE_KEY_DIGEST, FUSE_SVN, FUSE_SERIAL_LO,
    FUSE_SERIAL_HI, FUSE_MFG_WEEK, FUSE_MFG_STEPPING, FUSE_REPAIR]

/-! ### Fields of the TWN pages (R478 of spec/15*.md) -/

def TWN_CTRL_FOLLOWER_PINS : RegField := ⟨.twn, 0x040, 0, 1, 1, 1, .cfg, 0x1, 0x0⟩
def TWN_CTRL_TAKE_ON_SILENCE : RegField := ⟨.twn, 0x040, 0, 1, 0, 1, .cfg, 0x1, 0x0⟩
def TWN_STATUS_STATE : RegField := ⟨.twn, 0x044, 0, 1, 24, 3, .sta, 0x0, 0x0⟩
def TWN_STATUS_LANES : RegField := ⟨.twn, 0x044, 0, 1, 16, 4, .sta, 0x0, 0x0⟩
def TWN_STATUS_LINK_UP : RegField := ⟨.twn, 0x044, 0, 1, 8, 1, .sta, 0x0, 0x0⟩
def TWN_STATUS_ROLE : RegField := ⟨.twn, 0x044, 0, 1, 0, 2, .sta, 0x0, 0x0⟩
def TWN_DISAGREE_INFO_DIGEST : RegField := ⟨.twn, 0x064, 0, 1, 31, 1, .sta, 0x0, 0x0⟩
def TWN_DISAGREE_INFO_SKEIN : RegField := ⟨.twn, 0x064, 0, 1, 16, 7, .sta, 0x0, 0x0⟩
def TWN_DISAGREE_INFO_SESSION : RegField := ⟨.twn, 0x064, 0, 1, 8, 3, .sta, 0x0, 0x0⟩
def TWN_DISAGREE_INFO_COUNTER : RegField := ⟨.twn, 0x064, 0, 1, 0, 5, .sta, 0x0, 0x0⟩
def TWN_PARTNER_SERIAL : RegField := ⟨.twn, 0x048, 0, 1, 0, 64, .sta, 0x0, 0x0⟩
def TWN_AGREED_EPOCH : RegField := ⟨.twn, 0x050, 0, 1, 0, 34, .sta, 0x0, 0x0⟩
def TWN_HANDOVER_EPOCH : RegField := ⟨.twn, 0x058, 0, 1, 0, 34, .sta, 0x0, 0x0⟩
def TWN_DISAGREE : RegField := ⟨.twn, 0x060, 0, 1, 0, 32, .cnt, 0x0, 0x0⟩
def TWN_HANDOVERS : RegField := ⟨.twn, 0x068, 0, 1, 0, 32, .cnt, 0x0, 0x0⟩
def TWN_RETRIES : RegField := ⟨.twn, 0x06C, 0, 1, 0, 32, .cnt, 0x0, 0x0⟩
def TWN_PAIR_INDEX : RegField := ⟨.twn, 0x070, 0, 1, 0, 3, .cfg, 0x0, 0x0⟩
def TWN_PAIR : RegField := ⟨.twn, 0x080, 8, 16, 0, 64, .sta, 0x0, 0x70⟩

/-- The fields of a TWN page, in the order of its map. -/
def twnFields : List RegField :=
  [TWN_CTRL_FOLLOWER_PINS, TWN_CTRL_TAKE_ON_SILENCE, TWN_STATUS_STATE, TWN_STATUS_LANES,
    TWN_STATUS_LINK_UP, TWN_STATUS_ROLE, TWN_DISAGREE_INFO_DIGEST, TWN_DISAGREE_INFO_SKEIN,
    TWN_DISAGREE_INFO_SESSION, TWN_DISAGREE_INFO_COUNTER, TWN_PARTNER_SERIAL, TWN_AGREED_EPOCH] ++
  [TWN_HANDOVER_EPOCH, TWN_DISAGREE, TWN_HANDOVERS, TWN_RETRIES,
    TWN_PAIR_INDEX, TWN_PAIR]

/-- The field table of a page class. -/
def fieldsOf : PageClass → List RegField
  | .sys => sysFields
  | .evt => evtFields
  | .clk => clkFields
  | .time => timeFields
  | .life => lifeFields
  | .feg => fegFields
  | .fe => feFields
  | .skn => sknFields
  | .trg => trgFields
  | .pool => poolFields
  | .adm => admFields
  | .sq => sqFields
  | .wr => wrFields
  | .seg => segFields
  | .hbm => hbmFields
  | .hbmg => hbmgFields
  | .grt => grtFields
  | .dmag => dmagFields
  | .dma => dmaFields
  | .flw => flwFields
  | .pwr => pwrFields
  | .mbx => mbxFields
  | .svc => svcFields
  | .swt => swtFields
  | .fuse => fuseFields
  | .twn => twnFields

end Sys2Proof.Machine
end

