-- ==== Sys2Proof/Machine/State.lean ====
section
/-! DEFINITION. The state of the Thizar TZ1024 as plain data, the reasons a step can stop, and the state after
reset. Every register field of the spec's maps lives in `regs` (Machine/Fields.lean names each one and gives its
reset value, which is what an unlisted cell reads as); the structures below hold what the spec gives the machine
beside its registers. Times are counted in ticks since era 0 (R7, R87): `era * 2^64 + timestamp`. -/

namespace Sys2Proof.Machine

/-- Why the machine stops with a fault. -/
inductive Fault where
  /-- A command whose operands `Instr.wellFormed` refuses: no agent of the spec can send it. Raised by the meanings of
  the commands that predicate names. Safe: no claim can be proved of what the hardware would do. -/
  | illFormed
  deriving DecidableEq, Repr

/-- Why a command has no meaning. -/
inductive Refusal where
  /-- The command is not modelled: raised by its arm of `exec` alone. Safe: nothing is claimed of it. -/
  | notModelled (mnemonic : String)
  deriving DecidableEq, Repr

/-! ### Host link (chapter 2) -/

/-- Power state of the PCI Express function (R30, R33). -/
inductive DState where
  | d0 | d3hot
  deriving DecidableEq, Repr

/-- The outcome of the last request the endpoint completed. -/
inductive Completion where
  | none            -- no completion yet
  | success         -- data in `readData`
  | poisoned        -- an aperture read of an uncorrectable burst (R275)
  | retryStatus     -- Configuration Request Retry Status (R34)
  | unsupported     -- Unsupported Request (R30)
  deriving DecidableEq, Repr

/-- A write the device has sent to host memory: bus address, data, the poisoned (EP) bit, and the Relaxed Ordering and
No Snoop attributes (R30). -/
structure HostWrite where
  addr     : Nat
  data     : List Byte
  poisoned : Bool
  relaxed  : Bool
  noSnoop  : Bool
  deriving DecidableEq, Repr

/-- The PCI Express endpoint, its MSI-X structures and BAR4 (R29 to R36, R43, R61). Vectors are keyed 0 to 63. -/
structure Link where
  ready      : Bool          -- the endpoint no longer answers with retry status (R34)
  inReset    : Bool          -- PERST_N is asserted: the endpoint is held in reset (R32, R61)
  bars       : Sparse Nat    -- the six BAR registers' address bits (R32, R35)
  dstate     : DState
  busMaster  : Bool
  msixEnable : Bool
  funcMask   : Bool
  devControl : Nat           -- Device Control: payload and read request sizes, Relaxed Ordering, No Snoop
  aerCount   : Nat           -- correctable errors logged under Advanced Error Reporting
  masked     : Sparse Nat    -- 1 while the vector is masked; every vector is masked at reset
  tableAddr  : Sparse Nat    -- message address of each vector
  tableData  : Sparse Nat    -- message data of each vector
  pba        : Sparse Nat    -- pending-bit array
  waiting    : Sparse Nat    -- messages handed to the endpoint and not yet sent
  holding    : Sparse Nat    -- 1 while EVT_HOLDOFF's interval after a message runs
  merged     : Sparse Nat    -- 1 while requests wait merged for the end of the interval
  bar4       : Sparse Nat    -- bytes of BAR4 up to 0xDFFF, by offset
  completion : Completion
  readData   : List Byte     -- data of the last read completion
  lastSent   : Option Nat    -- vector of the last message sent
  hostOut    : List HostWrite  -- writes sent to host memory, oldest first
  deriving DecidableEq, Repr

/-- A posted write on its way to a slow page (R56): the offset, byte enables and data of each half. -/
structure Posted where
  page : Nat
  off  : Nat
  be   : Nat
  data : Nat
  deriving DecidableEq, Repr

/-! ### Clocks and timebase (chapter 3) -/

/-- Why the busy domains are closing for a switch to bypass (R78, R81). -/
inductive CloseWhy where
  | lockLoss | refLoss | relock
  deriving DecidableEq, Repr

/-- The next firing instant of a timebase alarm, if it has one (R89). -/
structure Alarm where
  next  : Option Nat
  pulse : Bool               -- its term is true in the next sample
  fired : Bool               -- it has fired for this enable
  deriving DecidableEq, Repr

/-- What the front end measures of a state clock (R135, R137): its last edge plus one, 0 for none; the millisecond
in which edges are being counted, the rising edges in it and in the one before. -/
structure SckMeter where
  last   : Nat
  window : Nat
  count  : Nat
  before : Nat
  deriving DecidableEq, Repr

/-- Who asks for a snapshot (R16, R18); `nobody`: a command that no longer waits for it. -/
inductive SnapAsker where
  | host | mailbox | port | nobody
  deriving DecidableEq, Repr

/-- A snapshot asked for and not yet taken: by whom, and the first instant at which it is due, as a tick of a frame
boundary or, on bypass, as a number of bypass FCLK cycles (R16, R65). -/
structure SnapAsk where
  who : SnapAsker
  due : Nat
  deriving DecidableEq, Repr

/-- Clock state beside the CLK and TIME registers. -/
structure Clocks where
  refPresent   : Bool          -- REF_CLK edges arrive at the ball
  refSeen      : Bool          -- REF_CLK has passed step 1 of a lock since PORST_N (R79)
  closing      : Option CloseWhy
  lastGood     : Nat           -- the last loop update known good (R81)
  firstLock    : Bool          -- the first lock after PORST_N has ended (R85)
  loopBand     : Nat           -- bandwidth in force (R78)
  origin       : Nat           -- a tick at which a reference edge fell (R77, R93)
  syncPulse    : Option (Nat × Nat)   -- when SYNC_OUT is high: from, until (R94)
  alarms       : Sparse Alarm
  frameAt      : Nat           -- the last frame boundary whose work is done
  sampleAt     : Nat           -- the next sample instant to evaluate (R183)
  epochAt      : Nat           -- the last epoch boundary whose work is done
  snaps        : List SnapAsk  -- the snapshots asked for, oldest first (R16, R18)
  bypassCycles : Nat           -- bypass FCLK cycles since the switch to bypass or PORST_N (R65)
  syncIn       : Bool          -- SYNC_IN as sampled at the last reference edge (R92)
  sck          : Sparse SckMeter   -- the state clocks' measurements
  calSeconds   : Nat           -- seconds since the last TDC calibration, within the minute (R102)
  deriving DecidableEq, Repr

/-! ### Probe channels, skeins and queues (chapters 4, 5 and 7) -/

/-- One edge of a channel as the TDC reports it: its time at the channel's reference plane (R118). -/
structure Edge where
  ch    : Nat
  level : Bool
  fv    : Bool
  t     : Nat
  raw   : Nat              -- arrival before it was placed at a sample
  deriving DecidableEq, Repr

/-- One state sample (R154): the levels of the sixteen channels, the clock edge's time, its fine-valid. -/
structure StateSample where
  levels : Nat
  t      : Nat
  inst   : Nat             -- the sampling instant of R136
  fv     : Bool
  deriving DecidableEq, Repr

/-- What becomes of a unit's words (R256). -/
inductive Fate where
  | undecided | stored | gated | refused | lost | closed
  deriving DecidableEq, Repr

/-- A reduction unit or a CLOSE stitch in a skein queue (R236): the words not yet read and what the writer has
made of it. -/
structure QUnit where
  words   : List Stitch
  total   : Nat            -- words it held when written
  skein   : Nat            -- SKEIN and SPARE of its stitches, as a QUALITY stitch repeats them (R177)
  spare   : Bool
  isClose : Bool
  gateOn  : Bool           -- the gate was on in some sample of its span, or does not govern the skein (R205)
  opener  : Nat            -- era and frame of its opener, as WR_LANE_OLDEST gives them
  fate    : Fate
  poison  : Nat            -- poisoned words read so far (R240)
  poison1 : Nat            -- index of the first of them
  deriving DecidableEq, Repr

/-- The settings of a skein that fix its encoding and its worst case (R157, R230, R231). -/
structure Gear where
  enc     : Nat            -- 0 sample, 1 edge, 2 density, 3 state
  gauge   : Nat
  summary : Bool
  mask    : Nat
  floor   : Nat
  densK   : Nat
  trace   : Bool
  maxMts  : Nat
  deriving DecidableEq, Repr

/-- A skein reducer with its front end (chapters 4 and 5) and its queue (chapter 7). -/
structure Skein where
  base      : Nat          -- levels of the sixteen channels at the start of the present frame
  edges     : List Edge    -- edges at or after the frame start, in order of time, then channel
  prev      : Sparse (Option Edge)   -- each channel's last edge before the frame start
  arrived   : Sparse Nat   -- each channel's last arrival at the TDC plus one; 0 for none yet (R118)
  holdTo    : Sparse Nat   -- a channel reports no edge before this instant after a deskew increase (R117)
  reducing  : Bool
  spanAt    : Nat          -- start of the span the next unit covers (R499)
  carried   : Nat          -- edges observed that no unit has covered yet (R499)
  counts    : Sparse Nat   -- edges of each channel that the next unit covers (R469)
  high      : Sparse Nat   -- ticks high per channel in the density interval so far (R152)
  coarse    : Nat          -- channels with an edge of fine-valid 0 in the interval (R173)
  whole     : Bool         -- the interval began on a multiple of 2^K frames (R153)
  covered   : Nat          -- last state sampling instant whose edges are counted in `carried` (R499)
  samples   : List StateSample   -- the state samples of the present state frame, oldest first
  lastState : List StateSample   -- state samples that evaluation has not passed (R188)
  lastCount : Nat          -- state samples of the last state frame emitted since cast-on (R178)
  sckCount  : Nat          -- selected state-clock edges of the present timing frame (R500)
  sckAhead  : Nat          -- those already placed in the next timing frame
  suspect   : Nat          -- rails whose brown-out overlapped a frame not yet marked (R177)
  isNew     : Bool         -- the next opener carries NEW (R158)
  deskewed  : Nat          -- channels whose deskew changed at the frame's commit (R117, R177)
  gateSeen  : Bool         -- the gate was on in some sample of the present span (R205)
  gateMid   : Bool         -- it was on since the last state clock edge of the present state frame
  commitDue : Nat          -- the first boundary at which the pending commit may take effect (R158)
  edgeDue   : Bool         -- a commit took effect before the first clock edge of its state frame (R161)
  exclude   : Nat          -- instant from which the spare's units are compared (R133)
  admitted  : Option Gear  -- the settings whose worst case is the admitted one (R160, R230)
  overLow   : Sparse Nat   -- when each channel came back in range, plus one (R126); 0 before the first time
  settle    : Nat          -- FE_n_STATUS.SPARE_SETTLED returns at the frame end after this (R133)
  calTemp   : Nat          -- reading of its sensor at its last calibration (R124, R378)
  idleSaved : Nat          -- FE_n_IDLE_SECONDS before the pass in progress (R131)
  queue     : List QUnit
  deriving DecidableEq, Repr

/-! ### Sequencers and pins (chapter 6) -/

/-- A replayed unit whose copy is not yet decided (R217): its span, its words, and whether the gate was on in it. -/
structure PlayUnit where
  skein : Nat
  t0    : Nat
  t1    : Nat
  words : List Stitch
  gate  : Bool
  deriving DecidableEq, Repr

/-- A sequencer's state beside its page. -/
structure Seq where
  stitches  : List Stitch  -- the stitch queue of 64 entries (R204)
  triggered : Bool         -- it took a trigger action in the previous sample (R186)
  force     : Bool         -- host force pulse for the next sample (R194)
  forceAt   : List Nat     -- instants from which force pulses act (R194, R466)
  armDue    : Nat          -- the first boundary at which the staged arm may take effect (R199)
  playIn    : List Stitch  -- replay input not yet parsed (R214)
  playTail  : List Byte    -- bytes of its last word that have not all arrived
  playUnits : List Edge    -- replayed edges that evaluation has not passed (R215), channels as skein * 16 + channel
  playStates : List (Nat × StateSample)  -- replayed state samples that evaluation has not passed, with their skeins
  playHeld  : List PlayUnit  -- units whose spans evaluation has not passed
  playBase  : Sparse Nat   -- replayed levels of each skein
  playPrev  : Sparse (Option Edge)  -- last replayed edge that evaluation has passed, by skein * 16 + channel
  playAt    : Nat          -- the next stream sample to evaluate
  playBegun : Bool         -- a unit has been presented
  playFrom  : Nat          -- start of the stream's first unit
  playEnd   : Sparse Nat   -- stream time plus one at which each skein's last unit ended; 0 for none yet
  playGap   : Bool         -- the replay-gap term is true in the next sample
  playStop  : Nat          -- why no more input comes: 0 it may; 1 stream end; 2 rejected stream; 3 stopped; 4 output full
  preUnits  : List (Nat × List Stitch)   -- pre-history held in the grotto: frame and words (R217)
  postTo    : Nat          -- frames below this are still copied after a gate-off
  outAddr   : Nat
  outSize   : Nat
  outSpace  : Nat
  outUsed   : Nat
  outBuf    : List Byte    -- output not yet written
  channel   : Nat          -- DMA channel plus one that feeds the replay; 0 for none
  lender    : Option (Nat × Nat × Nat)  -- the pre-history grotto, its OWNER and GUEST before the replay
  playSkeins : Nat         -- skeins that the replay stream may carry, as a mask
  playTraced : Nat         -- those in state mode with trace
  playBlank  : Nat         -- those whose units present nothing: density, or state without trace (R215)
  deriving DecidableEq, Repr

/-- One sequencer's contribution to a pin (R208): nothing, asserted, or pulsing until a tick. -/
inductive Contrib where
  | clear
  | asserted
  | pulse (until_ : Nat)
  deriving DecidableEq, Repr

/-- A change of an external input: the sample instant from which evaluation sees it, the pin (0 to 7 TRIG_IN, 8 to
11 XTRIG), and its level (for XTRIG, that the line is low). -/
structure PinChange where
  at_   : Nat
  pin   : Nat
  level : Bool
  deriving DecidableEq, Repr

/-- The DUT-facing pins. Contributions are keyed pin * 8 + sequencer with pins numbered as PINA_SEL does. -/
structure Pins where
  contrib     : Sparse Contrib
  trigIn      : Nat        -- levels of TRIG_IN_0 to 7 at the balls
  xtrigLow    : Nat        -- XTRIG lines that are low at the balls
  inputs      : List PinChange   -- changes on their way to evaluation, oldest first (R194)
  trigTerm    : Nat        -- TRIG_IN levels as evaluation sees them
  xtrigTerm   : Nat        -- XTRIG lines that evaluation sees low
  holdFrom    : Sparse Nat -- when each active DUT_HOLD became active
  lockout     : Sparse Nat -- 1 + the tick at which the gap of a DUT_HOLD ends; 0 for none (R213)
  releaseLow  : Bool       -- HOLD_RELEASE_N is low
  ctPrev      : Sparse Nat -- INC_SRC of each counter in the previous sample (R191)
  deriving DecidableEq, Repr

/-! ### Sessions and the record path (chapter 7) -/

/-- One skein entry of a capture plan (R400). -/
structure PlanSkein where
  skein  : Nat
  gear   : Gear
  sckSel : Nat
  edge   : Nat
  delay  : Nat
  deriving DecidableEq, Repr

/-- A capture plan (R223, R400). -/
structure Plan where
  session   : Nat
  policy    : Nat
  armAtCast : Bool
  base      : Nat
  size      : Nat
  quota     : Nat
  segments  : Nat
  trgCtrl   : Nat
  gateSkeins : Nat
  skeins    : List PlanSkein
  program   : List (Nat × Nat)       -- (COND, ACT), level by level, branch by branch
  resources : List (Nat × List Byte) -- term source and register image
  deriving DecidableEq, Repr

/-- Why a session closes and what it becomes (R226, R257). -/
structure CloseReq where
  cause : Nat              -- CLOSE cause (R178)
  clean : Bool             -- a bind-off: BOUND_OFF after its final record; otherwise INTERRUPTED
  due   : Nat              -- the first boundary at which it takes effect
  deriving DecidableEq, Repr

/-- A unit or CLOSE stitch held in a lane (R245, R246): the WRITTEN count at which it stands, its words, and its
opener's era and frame where it has one. -/
structure LaneUnit where
  start  : Nat
  words  : Nat
  opener : Option Nat
  deriving DecidableEq, Repr

/-- The record path beside its registers. -/
structure Record where
  plans      : Sparse (Option Plan)      -- by session
  castDue    : Sparse Nat                -- cast-on boundary requested, plus one; 0 for none (R162)
  closeReq   : Sparse (Option CloseReq)  -- the close waiting for its boundary
  ending     : Sparse (Option CloseReq)  -- the close whose queues the writer is draining
  recordQ    : Sparse (List Stitch)      -- record-lane stitches waiting to be stored (R249)
  ledgerDue  : Sparse (List (List Stitch)) -- LEDGER records taken at epoch boundaries and not yet written (R254)
  stopped    : Sparse Nat                -- 1 while a skein's units are refused (R246, R248)
  held       : Sparse (List LaneUnit)    -- by lane, oldest first: what the lane still holds
  served     : Sparse Nat                -- slots served to each owner in this epoch (R250)
  creditNext : Sparse (Option (Nat × Nat))  -- ADM_CREDIT value waiting: (due boundary, value)
  dropDue    : Sparse Nat                -- 1 for a skein whose stream closes at the next boundary (R459)
  releaseDue : Sparse Nat                -- 1 for a session whose plan is released once it has closed (R459)
  rebuildAsk : Bool                      -- a fence has asked for the budget check (R234)
  images     : Sparse (List (Nat × List Byte))  -- digest images of each skein's units with their epochs (R469)
  deriving DecidableEq, Repr

/-! ### HBM (chapter 8) -/

/-- A burst waiting in a pseudo-channel's write queue (R269). -/
structure HbmWrite where
  x        : Nat           -- byte within the pseudo-channel
  data     : List Byte
  mark     : Nat           -- 0 clean, 1 to be read as uncorrectable (R328), 2 poisoned (R276)
  lane     : Nat           -- the record lane or skein lane it belongs to, plus one; 0 for another writer
  start    : Nat           -- the lane's WRITTEN count at which it stands
  seq      : Nat           -- order of acceptance
  deriving DecidableEq, Repr

/-- A read waiting in a pseudo-channel's read queue (R269, R271). -/
structure HbmRead where
  x   : Nat
  seq : Nat
  deriving DecidableEq, Repr

/-- A read at the stack whose data has not returned: the burst and its mark as they stood when it was issued. -/
structure HbmIssued where
  x    : Nat
  data : List Byte
  mark : Nat
  deriving DecidableEq, Repr

/-- The HBM stacks and their controller. Memory is kept at the stacks, by `pseudo-channel * 768 MiB + byte`; an
unlisted byte reads as zero, which is what training fills in (R278). -/
structure Hbm where
  mem       : List Host.Cell
  marks     : Sparse Nat              -- by burst: 1 uncorrectable, 2 stored as poisoned (R275, R276)
  writeQ    : Sparse (List HbmWrite)  -- by pseudo-channel, oldest first
  readQ     : Sparse (List HbmRead)
  issued    : Sparse (List HbmIssued)   -- reads at the stack whose data has not returned
  accepted  : Nat                     -- requests accepted so far
  parityRun : Sparse Nat              -- consecutive command or address parity errors (R279)
  failures  : Sparse (List Nat)       -- when pseudo-channels of each stack failed (R279)
  weak      : Sparse Nat              -- 1 for a pseudo-channel with a lane to move to a spare (R280)
  scrubDone : Sparse Nat              -- 1 for a pseudo-channel whose scrub pass has ended (R277)
  reported  : Sparse Nat              -- bytes of each stack already reported as MiB (R97)
  delivered : List Byte               -- data of the last read returned
  fault     : Nat                     -- finding of that read: 0 clean, 1 uncorrectable
  deriving DecidableEq, Repr

/-! ### Grottos (chapter 9) -/

/-- An access to a grotto: who, which word, what, the enabled bytes, the data written, what its ECC check finds, OWNER and
GUEST under which it was accepted (R297), and for a read of the host window the bytes of GRT_HOST_DATA that its request
asks for, as offset and length (R309). -/
structure GrottoAcc where
  port    : GrottoPort
  b       : Nat
  word    : Nat
  op      : GrottoOp
  enables : Byte
  data    : BitVec 64
  finding : EccFinding
  rights  : Nat × Nat
  reply   : Option (Nat × Nat)
  deriving DecidableEq, Repr

/-- The grottos beside the GRT page. Words are numbered through the 64 grottos, 131,072 to each; an unlisted word
reads as zero, as the fill of R305 leaves it. -/
structure Grottos where
  mem       : Sparse Nat
  bad       : Sparse Nat            -- 1 for a word with an uncorrectable error
  oldRights : Sparse (Option (Nat × Nat))  -- OWNER and GUEST in force while PENDING reads 1 (R297)
  filling   : Sparse Nat            -- a hand-over's fill runs: 1; with a further one asked for: 2 (R299)
  waiting   : List GrottoAcc        -- accesses that wait for a fill, in order of arrival (R299, R305)
  lastUse   : Sparse Nat            -- when a port last accessed each grotto, plus one; 0 for never (R307)
  window    : Option (Nat × Nat × Nat)  -- window last borrowed: grotto, window, since when (R307)
  delivered : Nat                   -- what the last read served delivered
  marked    : Bool                  -- it carries the uncorrectable mark (R304)
  denied    : Bool                  -- the last access served was denied, or its grotto is fenced
  deriving DecidableEq, Repr

/-! ### Offload DMA and Flowstone (chapters 10 and 11) -/

/-- What a channel waits for in RUN (R322, R329). -/
inductive DmaPhase where
  | none | fetch | move | link
  deriving DecidableEq, Repr

/-- What a burst does: element to element, source to pipe, or pipe to destination (R320, R321). -/
inductive BurstKind where
  | move | feed | drain
  deriving DecidableEq, Repr

/-- A granted burst: addresses in the descriptor's spaces, bytes, and for a drain the pipe's output. -/
structure DmaBurst where
  kind : BurstKind
  src  : Nat
  dst  : Nat
  len  : Nat
  data : List Byte
  deriving DecidableEq, Repr

/-- A DMA channel beside its page. -/
structure DmaCh where
  phase    : DmaPhase
  desc     : List Nat       -- words 0x00 to 0x38 of the descriptor in progress
  granted  : Nat            -- its source bytes granted
  moved    : Nat            -- its source bytes consumed
  outGrant : Nat            -- its destination bytes granted, padding included
  inflight : List DmaBurst  -- granted and not completed, oldest first
  aborting : Bool           -- an ABORT waits for the bursts in flight (R333)
  pipe     : Option Nat     -- the unit held: compressors 0 to 3, decompressors 4 and 5 (R324)
  deriving DecidableEq, Repr

/-- Where a Flowstone stream stands: before its header, among its blocks, before its trailer, or at its end. -/
inductive FlowStage where
  | header | blocks | trailer | done
  deriving DecidableEq, Repr

/-- The stream of a Flowstone unit (chapter 11). -/
structure FlowStream where
  stage : FlowStage
  inBuf : List Byte         -- input taken and not yet encoded or decoded
  out   : List Byte         -- output not yet granted to a destination
  hist  : List Byte         -- the original bytes so far, at most the last 65,536, newest first
  orig  : Nat               -- original bytes so far
  crc   : BitVec 32         -- CRC register over them, before the final exclusive-or
  level : Nat
  wlog  : Nat
  pos   : Nat               -- stream bytes decoded
  ended : Bool              -- the source holds no more bytes
  bad   : Bool              -- a decompressor has rejected the stream (R354)
  deriving DecidableEq, Repr

/-! ### Supplies and power (chapter 12) -/

/-- Power and start-up state beside the PWR page. -/
structure Power where
  frameRails : Nat         -- rails with a brown-out in some part of the present frame (R177)
  boRails    : Nat         -- rails below their warning level in the episode (R365)
  aonFresh   : Bool        -- no thermal reading since the always-on domain was cleared (R98)
  aonLost    : Bool        -- the always-on domain has lost its contents; the next start-up restores them (R100)
  cold       : Bool        -- no start since the always-on domain was cleared: the next is a first power-up (R385)
  step       : Nat         -- step of the start-up sequence in progress (R382); 0 for none
  slot       : Nat         -- slot that step 4 verifies
  locked5    : Bool        -- a lock existed at the end of step 5 (R384)
  waitRails  : Bool        -- a reset crossing waits for every main rail (R368)
  hotHit     : Bool        -- the reading has crossed HOT and not come 3 K inside again (R379)
  coldHit    : Bool        -- the same for COLD
  deriving DecidableEq, Repr

/-! ### Faults and fences (chapter 15) -/

/-- An entry of the fault log (R449). -/
structure LogEntry where
  stamp   : Nat
  era     : Nat
  event   : Nat
  page    : Nat
  outcome : Nat            -- 0 masked, 1 detected, 2 fenced, 3 replaced
  detail  : Nat
  deriving DecidableEq, Repr

/-- The fences and replacement of a fence entry (R458). -/
structure Fences where
  skeins     : Nat
  spare      : Bool
  replaced   : Option Nat
  sequencers : Nat
  flw        : Nat
  pcs        : Nat
  grottos    : Nat
  dma        : Nat
  lastEvent  : Nat
  deriving DecidableEq, Repr

/-- A visit of the spare rotation as SELFTEST_REPORT gives it (R462). -/
structure Visit where
  first   : Nat            -- bits 31:0 of its first frame
  differs : Nat            -- frames that differed
  result  : Nat            -- 0 never visited, 1 agreed, 2 transient, 3 target faulty, 4 spare faulty
  deriving DecidableEq, Repr

/-- The fault manager beside the SWT page. -/
structure FaultMgr where
  log       : List LogEntry   -- at most 64, newest first
  maskedAt  : Sparse Nat      -- when a masked fault of each unit was last logged, plus one
  fences    : Fences          -- in effect
  wanted    : Fences          -- of the newest entry: clears take effect at the next start
  entryDue  : Bool            -- a fence entry waits to be written
  repairs   : List Nat        -- soft repairs held, as R461 lays them out
  repairDue : Bool
  visits    : Sparse Visit    -- last completed visit of each skein; 64: the spare's last referee (R462)
  visit     : Visit           -- the visit in progress
  visitIdle : Bool            -- its target runs in no session (R451)
  rotNext   : Nat             -- the skein from which the rotation looks for its next target (R450)
  takeOver  : Option (Nat × Nat)  -- skein whose fault is confirmed, and the boundary of the take-over (R453)
  walk      : Nat             -- windows that the grotto pass's scheduled walk has taken (R454)
  retry     : List (Nat × Nat)  -- windows for the retry round: grotto and window
  tested    : Sparse Nat      -- by grotto: a mask of the windows tested in this pass
  found     : Nat             -- grottos found faulty in this pass
  lastFull  : Nat             -- grottos tested in full in the last pass (R462)
  lastFound : Nat             -- grottos found faulty in the last pass
  dpTested  : Nat             -- datapath units tested since the start, by their numbers (R457, R462)
  dpFound   : Nat             -- those that failed their last test
  deriving DecidableEq, Repr

/-! ### Boot flash and service controller (chapter 14) -/

/-- A selector entry (R426). -/
structure SelectorEntry where
  seq         : Nat
  active      : Nat
  trial       : Bool
  left        : Nat
  prev        : Nat          -- 0xFF for none
  version     : Nat
  prevVersion : Nat
  deriving DecidableEq, Repr

/-- A configuration record (R430): (page, offset, value) entries. -/
structure CfgRecord where
  seq     : Nat
  format  : Nat
  entries : List (Nat × Nat × Nat)
  deriving DecidableEq, Repr

/-- Where a log of 64-byte entries writes next (R425): the copy next in turn and the places used in each. -/
structure LogCopies where
  turn  : Nat
  used0 : Nat
  used1 : Nat
  deriving DecidableEq, Repr

/-- A journal record (R441): its SEQ and the LIFE page's cells. -/
structure JournalRec where
  seq   : Nat
  cells : Sparse Nat
  deriving DecidableEq, Repr

/-- A background boot-flash operation (R424, R425, R431, R437, R441, R458, R461). -/
inductive FlashOp where
  | fenceEntry
  | repairEntry
  | eraseCopy (sector : Nat)
  | eraseJournal (sector : Nat)
  | eraseArea (area : Nat) (retire : Bool)
  | cfgRecord
  deriving DecidableEq, Repr

/-- The boot flash (R423): slot bytes by `slot * 12 MiB + offset`, an erased one reading 0xFF, and the records. -/
structure Flash where
  slots     : Sparse Nat
  selector  : List SelectorEntry     -- newest first
  selLog    : LogCopies
  fences    : Option Fences          -- fence entry in force
  fenceSeq  : Nat
  fenceLog  : LogCopies
  repairs   : List Nat               -- soft-repair entry in force
  repairSeq : Nat
  repairLog : LogCopies
  cfg       : Sparse (List CfgRecord)   -- configuration areas 0 and 1, oldest first
  journal   : Sparse (Option JournalRec)  -- by place of the ring
  deriving DecidableEq, Repr

/-- A KSP request in service (R414, R419). -/
structure KspCmd where
  code    : Nat
  tag     : Nat
  payload : List Byte
  deriving DecidableEq, Repr

/-- The service controller beside the SVC page. -/
structure Service where
  flash      : Flash
  ops        : List FlashOp          -- waiting and in progress, oldest first
  begun      : List FlashOp          -- those whose first command the flash has had
  commit     : Option JournalRec     -- the journal record whose commit is in progress
  commitNext : Bool                  -- another commit follows at once (R99)
  replies    : List (List Byte)      -- reply frames waiting to be read
  out        : List Byte             -- bytes the last transaction returned
  err        : Bool                  -- status bit ERR
  port       : Option KspCmd         -- the request in service
  header     : List Byte             -- header bytes of the download, held in memory (R432)
  dlLength   : Nat
  digests    : Sparse (List Byte)    -- image digest that VERIFY recorded, by slot
  activating : Option Nat            -- slot of the activation in progress
  fromPort   : Bool                  -- the mailbox serves a forwarded command (R419)
  resetDue   : Option Straps         -- a RESET waits for its reply to be read: the straps at its release (R421, R485)
  resetDone  : Bool                  -- EV_050 is due at host-ready (R421)
  svn        : Option Nat            -- FUSE_SVN where it has been raised since manufacture (R476)
  deriving DecidableEq, Repr

/-! ### Mailbox and twin (chapters 13 and 15) -/

/-- The mailbox command being served: code, tag and argument block up to ARG_LEN (R395). -/
structure MbxCmd where
  code : Nat
  tag  : Nat
  args : List Byte
  deriving DecidableEq, Repr

/-- The mailbox beside the MBX page and BAR4. -/
structure Mailbox where
  cur       : Option MbxCmd   -- the command that is BUSY or HELD
  abandoned : Option MbxCmd   -- the command a control-processor reset abandoned (R394)
  kickAt    : Int             -- when the watchdog was last restarted (R392), in the present count of the timestamp
  cpuEvent  : Nat             -- EV_035 or EV_036, latched when the mailbox leaves NOT_READY; 0 for none (R409)
  plans     : Sparse (List Byte)  -- the bytes of each admitted plan, for the pair's digest (R466)
  deriving DecidableEq, Repr

/-- A message on the twin link that waits for its ACK (R464). -/
structure TwinMsg where
  seq     : Nat
  bytes   : List Byte
  resends : Nat
  deriving DecidableEq, Repr

/-- The twin beside its page. Payloads are keyed by epoch number. -/
structure Twin where
  asked     : Nat                 -- role asked for by TWIN_PAIR plus one; 0 for none
  seq       : Nat                 -- SEQ of the next message
  lastSent  : List Byte           -- the last message put on the link
  unacked   : List TwinMsg
  mine      : Sparse (List Byte)  -- own EPOCH payloads not yet agreed
  theirs    : Sparse (List Byte)  -- the partner's EPOCH payloads not yet agreed
  agreedMine   : List Byte        -- own payload of the last agreed epoch
  agreedTheirs : List Byte        -- the partner's
  handAt    : Option Nat          -- epoch at which a deliberate handover changes the roles (R474)
  recordDue : Option Nat          -- H, while the handover record of H - 1 cannot be written yet (R472)
  oldLead   : List Byte           -- old lead's payload at H - 1, after a takeover (R473)
  newLead   : List Byte           -- the new lead's own
  mirror    : Bool                -- the lead's mailbox command waits for the follower's check (R467)
  heard     : Nat                 -- SEQ plus one of the newest message acted on since pairing; 0 for none
  took      : Bool                -- this device took over as lead since pairing (R472)
  dropped   : Nat                 -- lanes dropped since the link trained (R464)
  deriving DecidableEq, Repr

/-! ### The whole device -/

/-- The state of the device. -/
structure State where
  /-- The commands waiting, first in, first out. -/
  pending  : List Instr
  /-- Register fields: the live value, and for an SHD field the value in force. -/
  regs     : Sparse Nat
  /-- Shadow copies of the SHD fields (R9). -/
  shadow   : Sparse Nat
  /-- Pending stages of the SHD fields (R158). -/
  staged   : Sparse Nat
  /-- The snapshot registers (R16). -/
  snap     : Sparse Nat
  /-- The sequence number every PAGE_SNAP_SEQ shows (R17). -/
  snapSeq  : Nat
  /-- The block registers of each fenced page as they stood at its fencing (R52). -/
  frozen   : Sparse (Sparse Nat)
  /-- The low halves of 64-bit pairs that wait for their high halves, plus one; 0 for none (R48). -/
  heldLow  : Sparse Nat
  /-- The high halves snapshot by reads of low halves, plus one; 0 for none (R48). -/
  hiSnap   : Sparse Nat
  /-- Posted writes in flight, oldest first (R56). -/
  posted   : List Posted
  /-- Present time in ticks since era 0 (R86, R87). -/
  now      : Nat
  /-- How many free values have been drawn (the model's own field). -/
  drawn    : Nat
  link     : Link
  clk      : Clocks
  skeins   : Sparse Skein
  seqs     : Sparse Seq
  pins     : Pins
  rcd      : Record
  hbm      : Hbm
  grt      : Grottos
  dma      : Sparse DmaCh
  /-- The channel last granted at each priority level, plus one (R315). -/
  dmaLast  : Sparse Nat
  flw      : Sparse FlowStream
  pwr      : Power
  flt      : FaultMgr
  mbx      : Mailbox
  twn      : Twin
  svc      : Service
  deriving DecidableEq, Repr

/-! ### The state after reset -/

/-- The endpoint after reset: not ready, every vector masked (R32, R34). PRESUMED, log entry 10. -/
def Link.reset : Link where
  ready := false
  inReset := false
  bars := []
  dstate := .d0
  busMaster := false
  msixEnable := false
  funcMask := false
  devControl := 0x2810
  aerCount := 0
  masked := []
  tableAddr := []
  tableData := []
  pba := []
  waiting := []
  holding := []
  merged := []
  bar4 := []
  completion := .none
  readData := []
  lastSent := none
  hostOut := []

/-- A state clock without edges. -/
def SckMeter.idle : SckMeter where
  last := 0
  window := 0
  count := 0
  before := 0

/-- An alarm that is not set. -/
def Alarm.idle : Alarm where
  next := none
  pulse := false
  fired := false

/-- Clocks after PORST_N: on bypass, no lock yet (R70, R85). -/
def Clocks.reset : Clocks where
  refPresent := false
  refSeen := false
  closing := none
  lastGood := 0
  firstLock := false
  loopBand := 2
  origin := 0
  syncPulse := none
  alarms := []
  frameAt := 0
  sampleAt := 0
  epochAt := 0
  snaps := []
  bypassCycles := 0
  syncIn := false
  sck := []
  calSeconds := 0

/-- A skein that is idle. -/
def Skein.idle : Skein where
  base := 0
  edges := []
  prev := []
  arrived := []
  holdTo := []
  reducing := false
  spanAt := 0
  carried := 0
  counts := []
  high := []
  coarse := 0
  whole := false
  covered := 0
  samples := []
  lastState := []
  lastCount := 0
  sckCount := 0
  sckAhead := 0
  suspect := 0
  isNew := false
  deskewed := 0
  gateSeen := false
  gateMid := false
  commitDue := 0
  edgeDue := false
  exclude := 0
  admitted := none
  overLow := []
  settle := 0
  calTemp := 0
  idleSaved := 0
  queue := []

/-- A sequencer with nothing in its queue and no replay. -/
def Seq.idle : Seq where
  stitches := []
  triggered := false
  force := false
  forceAt := []
  armDue := 0
  playIn := []
  playTail := []
  playUnits := []
  playStates := []
  playHeld := []
  playBase := []
  playPrev := []
  playAt := 0
  playBegun := false
  playFrom := 0
  playEnd := []
  playGap := false
  playStop := 0
  preUnits := []
  postTo := 0
  outAddr := 0
  outSize := 0
  outSpace := 0
  outUsed := 0
  outBuf := []
  channel := 0
  lender := none
  playSkeins := 0
  playTraced := 0
  playBlank := 0

/-- Pins with no contribution. -/
def Pins.reset : Pins where
  contrib := []
  trigIn := 0
  xtrigLow := 0
  inputs := []
  trigTerm := 0
  xtrigTerm := 0
  holdFrom := []
  lockout := []
  releaseLow := false
  ctPrev := []

/-- The record path with no session. -/
def Record.reset : Record where
  plans := []
  castDue := []
  closeReq := []
  ending := []
  recordQ := []
  ledgerDue := []
  stopped := []
  held := []
  served := []
  creditNext := []
  dropDue := []
  releaseDue := []
  rebuildAsk := false
  images := []

/-- The HBM before training: nothing listed. -/
def Hbm.reset : Hbm where
  mem := []
  marks := []
  writeQ := []
  readQ := []
  issued := []
  accepted := 0
  parityRun := []
  failures := []
  weak := []
  scrubDone := []
  reported := []
  delivered := []
  fault := 0

/-- The grottos before their fill. -/
def Grottos.reset : Grottos where
  mem := []
  bad := []
  oldRights := []
  filling := []
  waiting := []
  lastUse := []
  window := none
  delivered := 0
  marked := false
  denied := false

/-- A channel with nothing to do. -/
def DmaCh.idle : DmaCh where
  phase := .none
  desc := []
  granted := 0
  moved := 0
  outGrant := 0
  inflight := []
  aborting := false
  pipe := none

/-- A Flowstone unit without a stream. -/
def FlowStream.idle : FlowStream where
  stage := .header
  inBuf := []
  out := []
  hist := []
  orig := 0
  crc := 0xFFFFFFFF
  level := 0
  wlog := 16
  pos := 0
  ended := false
  bad := false

/-- No unit fenced. -/
def Fences.empty : Fences where
  skeins := 0
  spare := false
  replaced := none
  sequencers := 0
  flw := 0
  pcs := 0
  grottos := 0
  dma := 0
  lastEvent := 0

/-- No visit yet. -/
def Visit.none : Visit := ⟨0, 0, 0⟩

/-- The fault manager with nothing found. -/
def FaultMgr.reset : FaultMgr where
  log := []
  maskedAt := []
  fences := Fences.empty
  wanted := Fences.empty
  entryDue := false
  repairs := []
  repairDue := false
  visits := []
  visit := Visit.none
  visitIdle := false
  rotNext := 0
  takeOver := none
  walk := 0
  retry := []
  tested := []
  found := 0
  lastFull := 0
  lastFound := 0
  dpTested := 0
  dpFound := 0

/-- Power state after PORST_N. -/
def Power.reset : Power where
  frameRails := 0
  boRails := 0
  aonFresh := true
  aonLost := false
  cold := true
  step := 0
  slot := 0
  locked5 := false
  waitRails := false
  hotHit := false
  coldHit := false

/-- A log with nothing written. -/
def LogCopies.empty : LogCopies where
  turn := 0
  used0 := 0
  used1 := 0

/-- An erased boot flash: the spec gives no contents for a device as delivered (log entry 3). -/
def Flash.erased : Flash where
  slots := []
  selector := []
  selLog := LogCopies.empty
  fences := none
  fenceSeq := 0
  fenceLog := LogCopies.empty
  repairs := []
  repairSeq := 0
  repairLog := LogCopies.empty
  cfg := []
  journal := []

/-- The service controller with nothing in service. -/
def Service.reset : Service where
  flash := Flash.erased
  ops := []
  begun := []
  commit := none
  commitNext := false
  replies := []
  out := []
  err := false
  port := none
  header := []
  dlLength := 0
  digests := []
  activating := none
  fromPort := false
  resetDue := none
  resetDone := false
  svn := none

/-- The mailbox before the control processor runs. -/
def Mailbox.reset : Mailbox where
  cur := none
  abandoned := none
  kickAt := 0
  cpuEvent := 0
  plans := []

/-- The twin before any pairing. -/
def Twin.reset : Twin where
  asked := 0
  seq := 0
  lastSent := []
  unacked := []
  mine := []
  theirs := []
  agreedMine := []
  agreedTheirs := []
  handAt := none
  recordDue := none
  oldLead := []
  newLead := []
  mirror := false
  heard := 0
  took := false
  dropped := 0

/-- GRT_OWNER_0 and GRT_OWNER_1 reset to OWNER 0, where the others reset to 1 (R311). -/
def resetOwners (m : Sparse Nat) : Sparse Nat :=
  sins (GRT_OWNER_OWNER.elt 1).key 0 (sins (GRT_OWNER_OWNER.elt 0).key 0 m)

/-- The device right after reset: every register at the value the spec's maps give for reset, which is what an
unlisted cell reads as. -/
def State.reset : State where
  pending := []
  regs := resetOwners []
  shadow := []
  staged := []
  snap := []
  snapSeq := 0
  frozen := []
  heldLow := []
  hiSnap := []
  posted := []
  now := 0
  drawn := 0
  link := Link.reset
  clk := Clocks.reset
  skeins := []
  seqs := []
  pins := Pins.reset
  rcd := Record.reset
  hbm := Hbm.reset
  grt := Grottos.reset
  dma := []
  dmaLast := []
  flw := []
  pwr := Power.reset
  flt := FaultMgr.reset
  mbx := Mailbox.reset
  twn := Twin.reset
  svc := Service.reset

end Sys2Proof.Machine
end

