-- ==== Sys2Proof/Machine/Ops.lean ====
section
/-! DEFINITION. The named operations every meaning is built from: reading and writing register fields, free
values, events and their messages (R58 to R62), time (R7, R8, R86), access errors (R50 to R56, R67), and the gate
a host write to a register page passes. -/

namespace Sys2Proof.Machine

/-! ### Registers -/

/-- The value of a register field: what hardware acts on. -/
def State.get (s : State) (f : Fld) : Nat := sget s.regs f.key f.reset

/-- Put a value into a register field, held to its width. -/
def State.set (s : State) (f : Fld) (v : Nat) : State :=
  { s with regs := sput s.regs f.key f.reset (v % 2 ^ f.width) }

/-- A field read as a flag. -/
def State.is (s : State) (f : Fld) : Bool := s.get f == 1

/-- Add to a counter that wraps at its width. -/
def State.add (s : State) (f : Fld) (n : Nat) : State := s.set f (s.get f + n)

/-- Add to a counter that stops at its largest value. -/
def State.addSat (s : State) (f : Fld) (n : Nat) : State :=
  s.set f (min (s.get f + n) (2 ^ f.width - 1))

/-- The shadow copy of an SHD field (R9). -/
def State.getShadow (s : State) (f : Fld) : Nat := sget s.shadow f.key f.reset

/-- Write the shadow copy of an SHD field. -/
def State.setShadow (s : State) (f : Fld) (v : Nat) : State :=
  { s with shadow := sput s.shadow f.key f.reset (v % 2 ^ f.width) }

/-- The pending stage of an SHD field (R158). -/
def State.getStaged (s : State) (f : Fld) : Nat := sget s.staged f.key f.reset

/-- Fill the pending stage of an SHD field. -/
def State.setStaged (s : State) (f : Fld) (v : Nat) : State :=
  { s with staged := sput s.staged f.key f.reset (v % 2 ^ f.width) }

/-- Set bit `b` of a field to `v`. -/
def State.setBit (s : State) (f : Fld) (b : Nat) (v : Bool) : State :=
  s.set f (setField (s.get f) b 1 (flag v))

/-- Apply an update for each element of a list, in order. -/
def forEach {α : Type} (l : List α) (s : State) (f : α → State → State) : State :=
  l.foldl (fun s a => f a s) s

/-- Apply an update where a condition holds. -/
def State.when (s : State) (c : Bool) (f : State → State) : State := if c then f s else s

/-- Draw a fresh value the spec leaves open (log entry 2). -/
def State.free (s : State) : Nat := Config.freeValue s.drawn

/-- Count the value just drawn. DESIGN CHOICE, log entry 2. -/
def State.drew (s : State) : State := { s with drawn := s.drawn + 1 }

/-! ### Cells -/

/-- The field is part of a 64-bit pair: it reaches above bit 31. -/
def RegField.pair (f : RegField) : Bool := decide (32 < f.lo + f.width)

/-- The element of a field's register at offset `off`, and whether it is the high half of a pair. -/
def RegField.place (f : RegField) (off : Nat) : Option (Nat × Bool) :=
  if off < f.off then none
  else
    let d := off - f.off
    let e := if f.count ≤ 1 ∨ f.stride = 0 then 0 else min (f.count - 1) (d / f.stride)
    let r := d - e * f.stride
    if r = 0 then some (e, false) else if r = 4 && f.pair then some (e, true) else none

/-- The page of a cell number. -/
def keyPage (k : Nat) : Nat := k / (4096 * 64 * 64 * 16384)

/-- A cell belongs to an SHD field. -/
def shadowKey (k : Nat) : Bool :=
  match pageOf (keyPage k) with
  | some (c, _) => (fieldsOf c).any (fun f => f.kind == .shd && (f.place (k / (64 * 64 * 16384) % 4096)).isSome &&
      decide (f.lo = k / (64 * 16384) % 64))
  | none => false

/-! ### Parts of the state -/

/-- The endpoint with one update. -/
def State.onLink (s : State) (f : Link → Link) : State := { s with link := f s.link }

/-- The clocks with one update. -/
def State.onClk (s : State) (f : Clocks → Clocks) : State := { s with clk := f s.clk }

/-- The pins with one update. -/
def State.onPins (s : State) (f : Pins → Pins) : State := { s with pins := f s.pins }

/-- The record path with one update. -/
def State.onRcd (s : State) (f : Record → Record) : State := { s with rcd := f s.rcd }

/-- The HBM with one update. -/
def State.onHbm (s : State) (f : Hbm → Hbm) : State := { s with hbm := f s.hbm }

/-- The grottos with one update. -/
def State.onGrt (s : State) (f : Grottos → Grottos) : State := { s with grt := f s.grt }

/-- The power state with one update. -/
def State.onPwr (s : State) (f : Power → Power) : State := { s with pwr := f s.pwr }

/-- The fault manager with one update. -/
def State.onFlt (s : State) (f : FaultMgr → FaultMgr) : State := { s with flt := f s.flt }

/-- The mailbox with one update. -/
def State.onMbx (s : State) (f : Mailbox → Mailbox) : State := { s with mbx := f s.mbx }

/-- The timestamp is loaded with `new`; the watchdog, which runs on ACLK (R392), keeps the time since its restart. -/
def State.timeLoaded (s : State) (new : Nat) : State :=
  { s with now := new }.onMbx (fun m => { m with kickAt := m.kickAt + (new : Int) - (s.now : Int) })

/-- The service controller with one update. -/
def State.onSvc (s : State) (f : Service → Service) : State := { s with svc := f s.svc }

/-- The boot flash with one update. -/
def State.onFlash (s : State) (f : Flash → Flash) : State := s.onSvc (fun v => { v with flash := f v.flash })

/-- The twin with one update. -/
def State.onTwn (s : State) (f : Twin → Twin) : State := { s with twn := f s.twn }

/-- Skein `n` (64: the spare). -/
def State.skein (s : State) (n : Nat) : Skein := sget s.skeins n Skein.idle

/-- Put skein `n`. -/
def State.putSkein (s : State) (n : Nat) (k : Skein) : State :=
  { s with skeins := sput s.skeins n Skein.idle k }

/-- Update skein `n`. -/
def State.onSkein (s : State) (n : Nat) (f : Skein → Skein) : State := s.putSkein n (f (s.skein n))

/-- Sequencer `n`. -/
def State.seq (s : State) (n : Nat) : Seq := sget s.seqs n Seq.idle

/-- Put sequencer `n`. -/
def State.putSeq (s : State) (n : Nat) (q : Seq) : State := { s with seqs := sput s.seqs n Seq.idle q }

/-- Update sequencer `n`. -/
def State.onSeq (s : State) (n : Nat) (f : Seq → Seq) : State := s.putSeq n (f (s.seq n))

/-! ### Time (R7, R8, R86, R87) -/

/-- Ticks in a timing frame. -/
def frameTicks : Nat := 2 ^ 18
/-- Ticks in a ledger epoch. -/
def epochTicks : Nat := 2 ^ 30
/-- Ticks in an FCLK cycle. -/
def fclkTicks : Nat := 1024
/-- Ticks in 100 ns. -/
def ticks100ns : Nat := 81920
/-- Ticks in 1 µs. -/
def ticksUs : Nat := 819200

/-- The smallest multiple of `m` that is at least `n`. -/
def ceilTo (n m : Nat) : Nat := (n + m - 1) / m * m

/-- The 64-bit timestamp. -/
def State.stamp (s : State) : Nat := s.now % 2 ^ 64

/-- The era, 16 bits (R87). -/
def eraOf (t : Nat) : Nat := t / 2 ^ 64 % 2 ^ 16

/-- Era in bits 61:46 and frame number in bits 45:0 of the frame a time lies in, as SYS_SNAP_FRAME lays it out. -/
def eraFrame (t : Nat) : Nat := t / 2 ^ 18 % 2 ^ 62

/-- The epoch number of a time: timestamp bits 63:30 (R8). -/
def epochOf (t : Nat) : Nat := t % 2 ^ 64 / 2 ^ 30

/-- FCLK edges stand whole multiples of this many ticks from the origin (R7, R86). -/
def State.fclk (s : State) : Nat := if s.is CLK_STATUS_BYPASS.one then 8 * fclkTicks else fclkTicks

/-- The first frame boundary at least 2 FCLK cycles away (R16, R158, R199). -/
def State.nextBoundary (s : State) : Nat := ceilTo (s.now + 2 * fclkTicks) frameTicks

/-- The clocks are locked. -/
def State.locked (s : State) : Bool := s.is CLK_STATUS_LOCKED.one
/-- The clocks run on bypass. -/
def State.onBypass (s : State) : Bool := s.is CLK_STATUS_BYPASS.one
/-- The NTO is in holdover. -/
def State.inHoldover (s : State) : Bool := s.is CLK_STATUS_HOLDOVER.one

/-! ### Sessions, as every chapter asks about them (R224, R78) -/

/-- WR_SESSION_n_STATUS.STATE. -/
def State.sessState (s : State) (n : Nat) : Nat := s.get (WR_SESSION_STATUS_STATE.elt n)

/-- Session `n` is CASTING, RUNNING or CLOSING. DESIGN CHOICE, log entry 93. -/
def State.sessRuns (s : State) (n : Nat) : Bool :=
  s.sessState n == 2 || s.sessState n == 3 || s.sessState n == 4

/-- Some session is CASTING, RUNNING or CLOSING (R78). -/
def State.anyRuns (s : State) : Bool := (upto 8).any s.sessRuns

/-- Some detached sequencer replays (R369). -/
def State.anyReplay (s : State) : Bool := (upto 8).any (fun n => s.get (TRG_STATUS_STATE.of n) == 4)

/-! ### Events and messages -/

/-- The latch of EV_k. -/
def State.latched (s : State) (k : Nat) : Bool :=
  match evPlace k with
  | some e => s.is e.latchFld
  | none => false

/-- EV_k is pending (R59). -/
def State.eventPending (s : State) (k : Nat) : Bool :=
  match evPlace k with
  | some e => s.is e.latchFld && s.is e.enFld
  | none => false

/-- The MSIX bit of an event's EVT_MAP entry (R68). -/
def evtMapMsix (k : Nat) : Fld :=
  match k % 4 with
  | 0 => EVT_MAP0_MSIX.elt (k / 4)
  | 1 => EVT_MAP1_MSIX.elt (k / 4)
  | 2 => EVT_MAP2_MSIX.elt (k / 4)
  | _ => EVT_MAP3_MSIX.elt (k / 4)

/-- The EVENT_N bit of an event's EVT_MAP entry. -/
def evtMapEventN (k : Nat) : Fld :=
  match k % 4 with
  | 0 => EVT_MAP0_EVENT_N.elt (k / 4)
  | 1 => EVT_MAP1_EVENT_N.elt (k / 4)
  | 2 => EVT_MAP2_EVENT_N.elt (k / 4)
  | _ => EVT_MAP3_EVENT_N.elt (k / 4)

/-- The vector of an event's EVT_MAP entry. -/
def evtMapVector (k : Nat) : Fld :=
  match k % 4 with
  | 0 => EVT_MAP0_VECTOR.elt (k / 4)
  | 1 => EVT_MAP1_VECTOR.elt (k / 4)
  | 2 => EVT_MAP2_VECTOR.elt (k / 4)
  | _ => EVT_MAP3_VECTOR.elt (k / 4)

/-- A vector's mask bit; every vector is masked at reset (R32). -/
def Link.isMasked (l : Link) (v : Nat) : Bool := l.funcMask || sget l.masked v 1 == 1

/-- Hand a message on vector `v` to the endpoint, or leave it in the pending-bit array while the vector is masked; held in
reset, the endpoint discards it (R61). -/
def Link.deliver (l : Link) (v : Nat) : Link :=
  if l.inReset then l
  else if l.isMasked v then { l with pba := sput l.pba v 0 1 }
  else { l with waiting := smod l.waiting v 0 (· + 1) }

/-- One request for a message on vector `v` (R61): merged while a holdoff runs, discarded while the endpoint is held in
reset. DESIGN CHOICE, log entry 9. -/
def Link.request (l : Link) (v : Nat) : Link :=
  if l.inReset then l
  else if sget l.holding v 0 = 1 then { l with merged := sput l.merged v 0 1 }
  else l.deliver v

/-- EV_k has become newly pending: one message request where its map entry asks for one (R61). -/
def State.notify (s : State) (k : Nat) : State :=
  if s.is (evtMapMsix k) then s.onLink (·.request (s.get (evtMapVector k))) else s

/-- A source sets the latch of EV_k (R58 to R61). A latch that is already set and pending stays pending and asks
for no second message. -/
def State.raise (s : State) (k : Nat) : State :=
  match evPlace k with
  | none => s
  | some e =>
    if s.is e.latchFld then s
    else
      let s1 := s.set e.latchFld 1
      if s1.is e.enFld then s1.notify k else s1

/-- Raise EV_k where a condition holds. -/
def State.raiseIf (s : State) (c : Bool) (k : Nat) : State := if c then s.raise k else s

/-- The skein fault event of skein `n`, when bit `i` of SKN_n_CAUSE is set and its enable reads 1 (R182). Bit 0 is
always enabled. -/
def State.skeinCause (s : State) (n i : Nat) : State :=
  let f := match i with
    | 0 => SKN_CAUSE_FE.of n
    | 1 => SKN_CAUSE_SPARE_MISMATCH.of n
    | 2 => SKN_CAUSE_PARITY.of n
    | 3 => SKN_CAUSE_SCK_FAST.of n
    | _ => SKN_CAUSE_COMMIT_REFUSED.of n
  let s1 := s.set f 1
  if i = 0 || bitOf (s1.get (SKN_CAUSE_EN_EN.of n)) (i - 1) then s1.raise (65 + 2 * n) else s1

/-- Set bit `i` of FE_n_CAUSE; with its enable it sets SKN_n_CAUSE.FE (R138). -/
def State.feCause (s : State) (n i : Nat) : State :=
  let f := match i with
    | 0 => FE_CAUSE_STUCK.of n
    | 1 => FE_CAUSE_OPEN.of n
    | 2 => FE_CAUSE_OVR.of n
    | 3 => FE_CAUSE_CAL_FAIL.of n
    | _ => FE_CAUSE_SCK_OVR.of n
  let s1 := s.set f 1
  if bitOf (s1.get (FE_CAUSE_EN.of n)) i then s1.skeinCause n 0 else s1

/-- PWR_STATUS.STATE takes a value: each change raises EV_020 (R369). -/
def State.putPower (s : State) (v : Nat) : State :=
  if s.get PWR_STATUS_STATE.one = v then s else (s.set PWR_STATUS_STATE.one v).raise 20

/-- RUN and IDLE follow the sessions and the replays (R369); the park states stay. -/
def State.powerFollow (s : State) : State :=
  if 2 ≤ s.get PWR_STATUS_STATE.one then s else s.putPower (if s.anyRuns || s.anyReplay then 0 else 1)

/-! ### Access errors (R50 to R56, R67) -/

/-- Note a header error of a page in SYS_LAST_ERR and raise EV_001 (R66, R67). -/
def State.headerErr (s : State) (page off cause : Nat) : State :=
  (((s.set SYS_LAST_ERR_CAUSE.one cause).set SYS_LAST_ERR_OFFSET.one off).set SYS_LAST_ERR_PAGE.one page).raise 1

/-- An access broke an access rule: PAGE_STATUS.ACCESS_ERR of the page. -/
def State.accessErr (s : State) (page off : Nat) : State := (s.set (accessErrOf page) 1).headerErr page off 1

/-- A write was dropped while BUSY was 1 (R56). -/
def State.lostWrite (s : State) (page off : Nat) : State := (s.set (lostWriteOf page) 1).headerErr page off 2

/-- A write was refused because its page is locked (R53). -/
def State.lockedWrite (s : State) (page off : Nat) : State := (s.set (accessErrOf page) 1).headerErr page off 3

/-- The function decodes its BARs: start-up has made it ready, it is not held in reset, and it is in D0 (R32 to R34).
DESIGN CHOICE, log entries 11, 12. -/
def State.hostOpen (s : State) : Bool := s.link.ready && !s.link.inReset && s.link.dstate == .d0

/-- Firmware activation is in its pause: reads of block registers return zero and writes are dropped (R57). -/
def State.paused (s : State) : Bool := s.is SVC_STATUS_ACT_PAUSE.one

/-- A guarded page is locked (R46: LOCKED reads 0 on an unguarded page). -/
def State.pageLocked (s : State) (page : Nat) : Bool := guardedPage page && !s.is (unlockedOf page)

/-- The outcome of the gate a host write to a block register passes. -/
inductive Gate where
  | admitted (s : State)
  | turnedAway (s : State)

/-- The gate: BARs decoded, no activation pause, the page guard (which one write consumes), the fence, BUSY
(R33, R52 to R57). DEDUCED, log entry 16. -/
def State.gate (s : State) (page off : Nat) : Gate :=
  if !s.hostOpen || s.paused then .turnedAway s
  else if s.pageLocked page then .turnedAway (s.lockedWrite page off)
  else
    let s1 := s.set (unlockedOf page) 0
    if s1.is (fencedOf page) then .turnedAway (s1.accessErr page off)
    else if s1.is (busyOf page) then .turnedAway (s1.lostWrite page off)
    else .admitted s1

/-- One full 32-bit host write to a block register whose effect is `f`. DEDUCED, log entry 18. -/
def State.gated (s : State) (page off : Nat) (f : State → State) : State :=
  match s.gate page off with
  | .admitted s1 => f s1
  | .turnedAway s1 => s1

end Sys2Proof.Machine
end

