-- ==== Sys2Proof/Machine/Mail.lean ====
section
/-! DEFINITION. What every chapter asks of the mailbox and of the twin link: a command's end (R395, R398), the BAR4
areas (R43), messages on the link (R464) and the loss of the link (R471). -/

namespace Sys2Proof.Machine

/-! ### BAR4 -/

/-- Byte `x` of BAR4 up to 0xDFFF (R43). -/
def State.bar4 (s : State) (x : Nat) : Byte := BitVec.ofNat 8 (sget s.link.bar4 x 0)

/-- Bytes from `x` of BAR4. -/
def State.bar4Bytes (s : State) (x n : Nat) : List Byte := (upto n).map (fun i => s.bar4 (x + i))

/-- Put bytes into BAR4 from `x` on. -/
def State.putBar4 (s : State) (x : Nat) (bytes : List Byte) : State :=
  s.onLink (fun l => { l with bar4 :=
    (bytes.foldl (fun (a : Sparse Nat × Nat) b => (sput a.1 a.2 0 b.toNat, a.2 + 1)) (l.bar4, x)).1 })

/-! ### CRC-32C (R343: RFC 3720's Castagnoli CRC) -/

/-- Eight shifts of the reflected register. -/
def crcShift : Nat → BitVec 32 → BitVec 32
  | 0, c => c
  | k + 1, c => crcShift k (if c.getLsbD 0 then (c >>> 1) ^^^ 0x82F63B78#32 else c >>> 1)

/-- The register after a byte. -/
def crcByte (c : BitVec 32) (b : Byte) : BitVec 32 := crcShift 8 (c ^^^ b.setWidth 32)

/-- CRC-32C of a byte string. -/
def crc32c (bytes : List Byte) : Nat := ((bytes.foldl crcByte 0xFFFFFFFF#32) ^^^ 0xFFFFFFFF#32).toNat

/-! ### KSP replies (R415, R417) -/

/-- A reply frame; FLAGS has REPLY, and MORE where a further frame follows. -/
def replyFrame (code tag result : Nat) (more : Bool) (payload : List Byte) : List Byte :=
  let body := toBytes 1 0x4B ++ toBytes 1 0x53 ++ toBytes 1 code ++ toBytes 1 (1 + flag more * 2) ++ toBytes 2 tag ++ toBytes 1 result ++
    toBytes 1 0 ++ toBytes 2 payload.length ++ toBytes 2 0 ++ payload
  body ++ toBytes 4 (crc32c body)

/-- The frames of a reply: up to 4,096 bytes each, `k` more than one at most. -/
def replyFrames : Nat → Nat → Nat → Nat → List Byte → List (List Byte)
  | 0, code, tag, result, p => [replyFrame code tag result false p]
  | k + 1, code, tag, result, p =>
    if p.length ≤ 4096 then [replyFrame code tag result false p]
    else replyFrame code tag result true (p.take 4096) :: replyFrames k code tag result (p.drop 4096)

/-- The request in service ends with a reply. -/
def State.portReply (s : State) (code tag result : Nat) (payload : List Byte) : State :=
  s.onSvc (fun v => { v with port := none, replies := replyFrames (payload.length / 4096) code tag result payload })

/-! ### The end of a mailbox command (R395, R398, R419) -/

/-- A forwarded command ends: its reply goes to the service port. DEDUCED, log entry 43. -/
def State.forwardEnd (s : State) (c : MbxCmd) (result : Nat) (reply : List Byte) : State :=
  let s1 := ((s.set MBX_STATUS_TAG.one c.tag).set MBX_STATUS_RESULT.one result).set MBX_STATUS_STATE.one 1
  let s2 := ((s1.add MBX_COMPLETED.one 1).onMbx (fun m => { m with cur := none })).onSvc (fun v => { v with fromPort := false })
  if s.svc.port.any (fun k => k.code == c.code && k.tag == c.tag) then s2.portReply c.code c.tag result reply else s2

/-- The command in progress ends with RESULT `result`: its reply stands at BAR4 offset 0x5000, or in the bulk buffer
where it is longer than 4 KiB or `bulk` asks for it (R397). DEDUCED, log entry 43. -/
def State.mbxEndWith (s : State) (result : Nat) (reply : List Byte) (bulk : Bool) : State :=
  match s.mbx.cur with
  | none => s
  | some c =>
    if s.svc.fromPort then s.forwardEnd c result reply
    else
      let long := bulk || decide (4096 < reply.length)
      let s1 := s.putBar4 (if long then 0x6000 else 0x5000) reply
      let s2 := ((s1.set MBX_REPLY_CODE.one c.code).set MBX_REPLY_BULK.one (flag long)).set MBX_REPLY_LEN.one reply.length
      let s3 := ((s2.set MBX_STATUS_TAG.one c.tag).set MBX_STATUS_RESULT.one result).set MBX_STATUS_STATE.one 1
      ((s3.add MBX_COMPLETED.one 1).onMbx (fun m => { m with cur := none })).raise 32

/-- The command in progress ends with a reply in the reply block. -/
def State.mbxEnd (s : State) (result : Nat) (reply : List Byte) : State := s.mbxEndWith result reply false

/-- The command in progress has taken effect (R394). DEDUCED, log entry 39. -/
def State.mbxApplied (s : State) : State :=
  match s.mbx.cur with
  | none => s
  | some c => (s.set MBX_LAST_APPLIED_CODE.one c.code).set MBX_LAST_APPLIED_TAG.one c.tag

/-- The command in progress takes effect and ends with RESULT OK. -/
def State.mbxOk (s : State) (reply : List Byte) : State := s.mbxApplied.mbxEnd 0 reply

/-! ### The twin link (R464, R471) -/

/-- TWN_STATUS.STATE reads paired. -/
def State.paired (s : State) : Bool := s.get TWN_STATUS_STATE.one == 2

/-- This device is the lead. -/
def State.isLead (s : State) : Bool := s.get TWN_STATUS_ROLE.one == 1

/-- This device is the follower. -/
def State.isFollower (s : State) : Bool := s.get TWN_STATUS_ROLE.one == 2

/-- The sender ROLE byte of a message: the role of the pair, or the one asked for while pairing. -/
def State.roleByte (s : State) : Nat :=
  if s.get TWN_STATUS_ROLE.one ≠ 0 then s.get TWN_STATUS_ROLE.one else s.twn.asked

/-- A message in the layout of R464, of an epoch, with the CRC-32C of its header and payload. DEDUCED, log entry 51. -/
def State.twinMessage (s : State) (type seq epoch : Nat) (payload : List Byte) : List Byte :=
  let b := toBytes 1 0x54 ++ toBytes 1 0x57 ++ toBytes 1 type ++ toBytes 1 s.roleByte ++ toBytes 4 seq ++
    toBytes 4 epoch ++ toBytes 2 payload.length ++ toBytes 2 0 ++ payload
  b ++ toBytes 4 (crc32c b)

/-- Put a message of an epoch on the link, where it is up. Every message other than ACK (6) and HELLO (1) waits for its
ACK. -/
def State.twinSendAt (s : State) (type epoch : Nat) (payload : List Byte) : State :=
  if s.is TWN_STATUS_LINK_UP.one then
    let bytes := s.twinMessage type s.twn.seq epoch payload
    s.onTwn (fun t => { t with
      seq := (t.seq + 1) % 2 ^ 32
      lastSent := bytes
      unacked := if type = 1 ∨ type = 6 then t.unacked else t.unacked ++ [⟨t.seq, bytes, 0⟩] })
  else s

/-- Put a message of the present epoch on the link. -/
def State.twinSend (s : State) (type : Nat) (payload : List Byte) : State := s.twinSendAt type (epochOf s.now) payload

/-- A FAULT message already waits for its ACK. -/
def State.faultSent (s : State) : Bool := s.twn.unacked.any (fun m => m.bytes.getD 2 0 == 3)

/-- The FAULT message of a paired device (R464); one that still waits for its ACK serves. -/
def State.twinFault (s : State) : State := if s.paired && !s.faultSent then s.twinSend 3 [] else s

/-- A follower's DUT-facing pins are held inactive while FOLLOWER_PINS is 0 (R478). -/
def State.pinsHeld (s : State) : Bool := s.isFollower && !s.is TWN_CTRL_FOLLOWER_PINS.one

/-- The pair takes a role: EV_484 where it changes (R480). -/
def State.putRole (s : State) (r : Nat) : State :=
  if s.get TWN_STATUS_ROLE.one = r then s else (s.set TWN_STATUS_ROLE.one r).raise 484

/-- The partner is lost and the pair is SOLO (R467, R480). -/
def State.goSolo (s : State) : State := if s.paired then (s.set TWN_STATUS_STATE.one 3).raise 488 else s

/-- A mirrored command whose first exchange the link's loss cut short ends (R467); which RESULT it carries the spec
leaves open. DESIGN CHOICE, log entry 45. -/
def State.mirrorLost (s : State) : State :=
  if s.twn.mirror then ((s.mbxEnd (s.free % 256) []).drew).onTwn (fun t => { t with mirror := false }) else s

/-- The link goes down (R464, R471): EV_483; a paired device is SOLO, and a lead with TAKE_ON_SILENCE isolates
itself. -/
def State.twinStops (s : State) : State :=
  if s.is TWN_STATUS_LINK_UP.one then
    let s1 := ((s.set TWN_STATUS_LINK_UP.one 0).set TWN_STATUS_LANES.one 0).raise 483
    let s2 := (s1.onTwn (fun t => { t with unacked := [] })).mirrorLost
    let s3 := if s.paired && s.isLead && s.is TWN_CTRL_TAKE_ON_SILENCE.one then s2.putRole 3 else s2
    s3.goSolo
  else s

end Sys2Proof.Machine
end

