-- ==== Sys2Proof/Machine/Pins.lean ====
section
/-! DEFINITION. The DUT-facing pins (R207 to R213): contributions, DUT_HOLD limits, lockouts, and the external
inputs on their way to evaluation (R194). -/

namespace Sys2Proof.Machine

/-- The ticks from a sample to its pin operation at the ball, 8.75 ns (R207). -/
def pinLatency : Nat := 7168

/-- The contribution of sequencer `n` to a pin. -/
def State.contrib (s : State) (pin n : Nat) : Contrib := sget s.pins.contrib (pin * 8 + n) .clear

/-- Put the contribution of sequencer `n` to a pin. -/
def State.putContrib (s : State) (pin n : Nat) (c : Contrib) : State :=
  s.onPins (fun p => { p with contrib := sput p.contrib (pin * 8 + n) .clear c })

/-- Some sequencer's contribution to the pin is active (R208). -/
def State.pinAsked (s : State) (pin : Nat) : Bool := (upto 8).any (fun n => s.contrib pin n != .clear)

/-- DUT_HOLD_k is active (R208, R211). -/
def State.holdActive (s : State) (k : Nat) : Bool :=
  !s.pinsHeld && s.is (DUT_HOLD_CTRL_ENABLE.of k) && s.pinAsked (16 + k)

/-- TRIG_OUT_n is active: a contribution, or its pass-through input (R208, R209). -/
def State.trigOutActive (s : State) (n : Nat) : Bool :=
  !s.pinsHeld &&
    (s.pinAsked n || (s.is (TRIG_OUT_CTRL_PASS_EN.of n) && bitOf s.pins.trigIn (s.get (TRIG_OUT_CTRL_PASS_SRC.of n))))

/-- This device pulls XTRIG_k low (R210). -/
def State.xtrigDriven (s : State) (k : Nat) : Bool :=
  !s.pinsHeld && s.is (XTRIG_CTRL_DRIVE_EN.of k) && s.pinAsked (8 + k)

/-- DUT_HOLD_k refuses assertion at `t` (R213): HOLD_RELEASE_N is low, or its gap runs. -/
def State.holdLocked (s : State) (k t : Nat) : Bool :=
  s.pins.releaseLow || decide (t + 1 < sget s.pins.lockout k 0)

/-- The hold limit of DUT_HOLD_k in ticks (R211). -/
def State.holdLimitTicks (s : State) (k : Nat) : Nat :=
  max 1 (min 1000 (s.get (DUT_HOLD_CTRL_MAX_US.of k))) * ticksUs

/-- Note the start or end of each DUT_HOLD activation between `s0` and `s` (R211): its count and its start, the
change reaching the ball `pinLatency` after `t`. -/
def State.holdEdges (s0 s : State) (t : Nat) : State :=
  forEach (upto 8) s (fun k s =>
    if !s0.holdActive k && s.holdActive k then
      (s.add (DUT_HOLD_ASSERTS.of k) 1).onPins (fun p => { p with holdFrom := sput p.holdFrom k 0 (t + pinLatency) })
    else if s0.holdActive k && !s.holdActive k then
      s.onPins (fun p => { p with holdFrom := sput p.holdFrom k 0 0 })
    else s)

/-- An XTRIG line that this device begins to pull low between `s0` and `s` falls: the change reaches the ball `pinLatency`
after `t`, and evaluation through its reference plane (R194, R210). -/
def State.xtrigFalls (s0 s : State) (t : Nat) : State :=
  forEach (upto 4) s (fun k s =>
    if !s0.xtrigDriven k && s.xtrigDriven k && !bitOf s.pins.xtrigLow k then
      s.onPins (fun p => { p with
        xtrigLow := setField p.xtrigLow k 1 1
        inputs := p.inputs ++ [⟨ceilTo (t + pinLatency + 2048) 64, 8 + k, true⟩] })
    else s)

/-- What the pins' change from `s0` to `s` in the sample at `t` brings about. -/
def State.pinEdges (s0 s : State) (t : Nat) : State := s0.xtrigFalls (s0.holdEdges s t) t

/-- Impose the gap of DUT_HOLD_k from the instant `t` (R213). -/
def State.imposeGap (s : State) (k t : Nat) : State :=
  s.onPins (fun p => { p with
    lockout := sput p.lockout k 0 (t + s.get (DUT_HOLD_CTRL_GAP_US.of k) * ticksUs + 1) })

/-- A pin operation of sequencer `n` in the sample at `t` (R208, R213): 1 assert, 2 release, 3 pulse. -/
def State.pinOp (s : State) (n op pin t : Nat) : State :=
  if op = 0 then s
  else if 16 ≤ pin && op ≠ 2 && s.holdLocked (pin - 16) t then
    (s.add (DUT_HOLD_REFUSED.of (pin - 16)) 1).raise (201 + 8 * (pin - 16))
  else
    let width := if pin < 8 then s.get (TRIG_OUT_CTRL_PULSE.of pin)
      else if pin < 16 then s.get (XTRIG_CTRL_PULSE.of (pin - 8))
      else s.get (TRIG_OUT_CTRL_PULSE.of (pin - 16))
    let c := if op = 1 then Contrib.asserted
      else if op = 2 then Contrib.clear
      else Contrib.pulse (t + max 2 width * fclkTicks)
    s.pinEdges (s.putContrib pin n c) t

/-- Every contribution of sequencer `n` is released at `t`; where `gap` holds, each DUT_HOLD that thereby becomes
inactive takes its gap (R201, R213). -/
def State.releasePins (s : State) (n t : Nat) (gap : Bool) : State :=
  let s1 := s.pinEdges (forEach (upto 24) s (fun p s => s.putContrib p n .clear)) t
  if gap then
    forEach (upto 8) s1 (fun k s1 => if s.holdActive k && !s1.holdActive k then s1.imposeGap k t else s1)
  else s1

/-- Every contribution to DUT_HOLD_k is cleared (R211, R212). -/
def State.clearHold (s : State) (k t : Nat) : State :=
  s.pinEdges (forEach (upto 8) s (fun n s => s.putContrib (16 + k) n .clear)) t

/-- Every active DUT_HOLD is released at `t` with its gap, as by a cause of R212 other than a disarm. -/
def State.releaseHolds (s : State) (t : Nat) : State :=
  forEach (upto 8) s (fun k s => if s.holdActive k then (s.clearHold k t).imposeGap k t else s.clearHold k t)

/-- A level change at an external input's ball, `delay` ticks ahead of its reference plane (R194). -/
def State.inputChange (s : State) (pin : Nat) (level : Bool) (delay : Nat) : State :=
  s.onPins (fun p => { p with inputs := p.inputs ++ [⟨ceilTo (s.now + delay) 64, pin, level⟩] })

/-- Evaluation at the sample instant `t` sees the changes whose instant has come (R194). -/
def State.takeInputs (s : State) (t : Nat) : State :=
  let due := s.pins.inputs.filter (fun c => decide (c.at_ ≤ t))
  s.onPins (fun p => { p with
    inputs := p.inputs.filter (fun c => decide (t < c.at_))
    trigTerm := due.foldl (fun v c => if c.pin < 8 then setField v c.pin 1 (flag c.level) else v) p.trigTerm
    xtrigTerm := due.foldl (fun v c => if c.pin < 8 then v else setField v (c.pin - 8) 1 (flag c.level)) p.xtrigTerm })

/-! ### The pins' own commands -/

/-- TRIG_IN_EDGE: a level change on TRIG_IN_k, whose reference plane is the ball plus 1.25 ns (R194). The direct
path to TRIG_OUT follows the ball (R209). -/
def execTrigInEdge (k : Fin 8) (level : Bool) (s : State) : Host.Outcome State Fault Refusal :=
  let s1 := s.onPins (fun p => { p with trigIn := setField p.trigIn k.val 1 (flag level) })
  .next (if bitOf s.pins.trigIn k.val = level then s else s1.inputChange k.val level 1024)

/-- XTRIG_EDGE: a filtered level change on the line, whose reference plane is the ball plus 2.50 ns (R194). The line stays low
while this device pulls it (R210). -/
def execXtrigEdge (k : Fin 4) (low : Bool) (s : State) : Host.Outcome State Fault Refusal :=
  let s1 := s.onPins (fun p => { p with xtrigLow := setField p.xtrigLow k.val 1 (flag low) })
  .next (if bitOf s.pins.xtrigLow k.val = low || (s.xtrigDriven k.val && !low) then s else s1.inputChange (8 + k.val) low 2048)

/-- The instant that the device has reached: its timestamp, or the samples it has evaluated. -/
def State.instant (s : State) : Nat := max s.now s.clk.sampleAt

/-- The pulses that have lasted their width by the instant `t` end (R208). -/
def State.pulsesEnd (s : State) (t : Nat) : State :=
  forEach s.pins.contrib s (fun c s =>
    match c.2 with
    | .pulse e => if e ≤ t then s.pinEdges (s.putContrib (c.1 / 8) (c.1 % 8) .clear) e else s
    | _ => s)

/-- PIN_PULSE_END: a pulsing contribution that has lasted its width ends (R208); one restarted meanwhile, and an asserted
one, stay. -/
def execPinPulseEnd (pin : Fin 24) (n : Fin 8) (s : State) : Host.Outcome State Fault Refusal :=
  match s.contrib pin.val n.val with
  | .pulse e => .next (if e ≤ s.instant then s.pinEdges (s.putContrib pin.val n.val .clear) e else s)
  | _ => .next s

/-- DUT_HOLD_k has been active for `ticks` without a break, as closely as the release is placed: within 10 ns (R211). -/
def State.holdLasted (s : State) (k ticks : Nat) : Bool :=
  s.holdActive k && decide (sget s.pins.holdFrom k 0 + ticks ≤ s.instant + 10 * ticksUs / 1000)

/-- DUT_HOLD_k is released by its limit: every contribution clears, the limit is counted, the gap starts and the pin event
is raised (R211, R213). -/
def State.limitRelease (s : State) (k : Nat) : State :=
  (((s.clearHold k s.instant).add (DUT_HOLD_LIMITS.of k) 1).imposeGap k s.instant).raise (201 + 8 * k)

/-- HOLD_LIMIT: DUT_HOLD_k has been active for MAX_US and is released (R211); before that it stays. -/
def execHoldLimit (k : Fin 8) (s : State) : Host.Outcome State Fault Refusal :=
  .next (if s.holdLasted k.val (s.holdLimitTicks k.val) then s.limitRelease k.val else s)

/-- HOLD_CEILING: the always-on domain releases a DUT_HOLD active beyond 1.05 ms (R212); the gap starts. -/
def execHoldCeiling (k : Fin 8) (s : State) : Host.Outcome State Fault Refusal :=
  .next (if s.holdLasted k.val (1050 * ticksUs) then (s.clearHold k.val s.instant).imposeGap k.val s.instant else s)

/-- HOLD_RELEASE_N falls: every DUT_HOLD becomes inactive and stays so while the pin is low (R212); the pins that
were active raise their event (R222). -/
def execHoldReleaseNFall (s : State) : Host.Outcome State Fault Refusal :=
  let s1 := forEach (upto 8) s (fun k s1 => (s1.clearHold k s.now).raiseIf (s.holdActive k) (201 + 8 * k))
  .next (s1.onPins (fun p => { p with releaseLow := true }))

/-- HOLD_RELEASE_N rises: the gap of every DUT_HOLD counts from the rising edge (R213). -/
def execHoldReleaseNRise (s : State) : Host.Outcome State Fault Refusal :=
  if s.pins.releaseLow then
    .next (forEach (upto 8) (s.onPins (fun p => { p with releaseLow := false })) (fun k s1 => s1.imposeGap k s.now))
  else .next s

/-- HOLD_GAP_END: the lockout of DUT_HOLD_k ends and the pin accepts assertions again (R213). -/
def execHoldGapEnd (k : Fin 8) (s : State) : Host.Outcome State Fault Refusal :=
  .next (s.onPins (fun p => { p with lockout := sput p.lockout k.val 0 0 }))

end Sys2Proof.Machine
end

