-- ==== Sys2Proof/Machine/Stitch.lean ====
section
/-! DEFINITION. The stitch formats of chapter 5 (R165 to R178) as words, and the arithmetic of a skein's settings:
its reduction unit's largest size (R157), its worst-case rate (R230) and its credits (R231). -/

namespace Sys2Proof.Machine

/-- `a / b` rounded up. -/
def ceilDiv (a b : Nat) : Nat := (a + b - 1) / b

/-- The number of bits of `n` below bit `w` that are 1. -/
def popcount (w n : Nat) : Nat := (upto w).countP (fun i => bitOf n i)

/-- The positions of the bits of `n` below bit `w` that are 1, ascending. -/
def bitsOf (w n : Nat) : List Nat := (upto w).filter (fun i => bitOf n i)

/-- The number whose bit `i` is `f i`, for the bits below `w`. -/
def maskOf (w : Nat) (f : Nat → Bool) : Nat := (upto w).foldl (fun a i => a + flag (f i) * 2 ^ i) 0

/-- A stitch of type `t` with the rest of its bits in `rest`. -/
def stitchOf (t rest : Nat) : Stitch := BitVec.ofNat 64 (t * 2 ^ 60 + rest % 2 ^ 60)

/-- PAD, the all-zero word (R168). -/
def padWord : Stitch := 0

/-- The three openers (R169): FRAME 0x1, RAW header 0x4, STATE header 0x7. `bits36` is the gauge, or FINE for a
STATE header. -/
def openerWord (typ enc : Nat) (new spare : Bool) (skein : Nat) (flg : Bool) (len bits36 mask era : Nat) : Stitch :=
  stitchOf typ (enc % 4 * 2 ^ 58 + flag new * 2 ^ 57 + flag spare * 2 ^ 56 + skein % 64 * 2 ^ 50 + flag flg * 2 ^ 49
    + len % 4096 * 2 ^ 37 + bits36 % 32 * 2 ^ 32 + mask % 65536 * 2 ^ 16 + era % 65536)

/-- A TIME stitch for the time `t` (R170). -/
def timeWord (t : Nat) : Stitch := stitchOf 2 (t % 2 ^ 64 / 16)

/-- An edge entry (R171), its time counted from the frame boundary `b`. -/
def edgeEntry (b : Nat) (e : Edge) : Nat :=
  e.ch % 16 * 2 ^ 20 + flag e.level * 2 ^ 19 + flag e.fv * 2 ^ 18 + (e.t - b) % 2 ^ 18

/-- An EDGE stitch of one entry, or of two (R171). -/
def edgeWord (b : Nat) (e0 : Edge) (e1 : Option Edge) : Stitch :=
  match e1 with
  | none => stitchOf 3 (edgeEntry b e0)
  | some e => stitchOf 3 (2 ^ 49 + edgeEntry b e * 2 ^ 24 + edgeEntry b e0)

/-- A BURST stitch (R172) for a run from `first` to `last` of `count` edges. -/
def burstWord (b : Nat) (first last : Edge) (count : Nat) : Stitch :=
  stitchOf 5 (first.ch % 16 * 2 ^ 56 + flag last.level * 2 ^ 55 + flag first.fv * 2 ^ 54 + flag last.fv * 2 ^ 53
    + count % 2 ^ 14 * 2 ^ 36 + (first.t - b) % 2 ^ 18 * 2 ^ 18 + (last.t - b) % 2 ^ 18)

/-- A DENSITY stitch (R173). -/
def densityWord (ch : Nat) (level part coarse : Bool) (high : Nat) : Stitch :=
  stitchOf 6 (ch % 16 * 2 ^ 56 + flag level * 2 ^ 55 + flag part * 2 ^ 54 + flag coarse * 2 ^ 53 + high % 2 ^ 51)

/-- A TRIGGER stitch (R174). -/
def triggerWord (seq level branch : Nat) (fv opens closes : Bool) (segment t : Nat) : Stitch :=
  stitchOf 8 (seq % 8 * 2 ^ 57 + level % 16 * 2 ^ 53 + branch % 4 * 2 ^ 51 + flag fv * 2 ^ 50 + flag opens * 2 ^ 49
    + flag closes * 2 ^ 48 + segment % 2 ^ 14 * 2 ^ 34 + t % 2 ^ 34)

/-- A MARK stitch of the sample at `t` (R175). -/
def markWord (seq level branch tag t : Nat) : Stitch :=
  stitchOf 9 (seq % 8 * 2 ^ 57 + level % 16 * 2 ^ 53 + branch % 4 * 2 ^ 51 + tag % 65536 * 2 ^ 35
    + t / 64 % 2 ^ 35)

/-- The header of a LEDGER record of sixteen words (R176). -/
def ledgerWord (kind session epoch : Nat) : Stitch :=
  stitchOf 10 (kind % 16 * 2 ^ 56 + session % 8 * 2 ^ 53 + 16 * 2 ^ 37 + epoch % 2 ^ 34)

/-- A QUALITY stitch (R177). -/
def qualityWord (cause skein : Nat) (spare : Bool) (detail : Nat) : Stitch :=
  stitchOf 11 (cause % 16 * 2 ^ 56 + skein % 64 * 2 ^ 50 + flag spare * 2 ^ 49 + detail % 2 ^ 49)

/-- A CLOSE stitch (R178); `b` is the boundary at which reduction stopped. -/
def closeWord (cause skein : Nat) (spare : Bool) (count b : Nat) : Stitch :=
  stitchOf 12 (cause % 16 * 2 ^ 56 + skein % 64 * 2 ^ 50 + flag spare * 2 ^ 49 + count % 2 ^ 13 * 2 ^ 36
    + (b - frameTicks) / frameTicks % 2 ^ 36)

/-- The words of a bit stream held as a number (R146): stream bit b is bit b mod 64 of word b / 64. -/
def streamWords (bits stream : Nat) : List Stitch :=
  (upto (ceilDiv bits 64)).map (fun i => BitVec.ofNat 64 (stream / 2 ^ (64 * i)))

/-! ### Settings -/

/-- The number of enabled channels, k (R144). -/
def Gear.k (g : Gear) : Nat := popcount 16 g.mask

/-- The payload length of sample encoding at gauge 12 or below, P (R146, R147). -/
def Gear.rawWords (g : Gear) : Nat := ceilDiv (4096 * g.k) (2 ^ (g.gauge + 6))

/-- The largest reduction unit in words, W (R157). -/
def Gear.words (g : Gear) : Nat :=
  match g.enc with
  | 0 => if g.gauge ≤ 12 then 2 + g.rawWords else 3
  | 1 => if g.summary then 2 + g.k * ceilDiv frameTicks g.floor else 2 + g.rawWords
  | 2 => 2 + g.k
  | _ => 2 + 64 * g.k + (if g.trace then 1024 else 0)

/-- W and the allowance of four trailer words, U (R231). -/
def Gear.unit (g : Gear) : Nat := g.words + 4

/-- Units per timing frame at most, f, as numerator and denominator (R231). -/
def Gear.perFrame (g : Gear) : Nat × Nat :=
  match g.enc with
  | 0 => if g.gauge ≤ 12 then (1, 1) else (1, 2 ^ (g.gauge - 12))
  | 3 => (g.maxMts * 32, 409600)
  | _ => (1, 1)

/-- The skein's credits, C (R231). -/
def Gear.credits (g : Gear) : Nat := ceilDiv (ceilDiv g.unit 8 * g.perFrame.1) g.perFrame.2

/-- The worst-case rate (R230) in units of 2^-32 byte a second: timing frames come 3,125,000 a second. -/
def Gear.rate (g : Gear) : Nat :=
  match g.enc with
  | 0 => if g.gauge ≤ 12 then g.words * 25000000 * 2 ^ 32 else g.words * 25000000 * 2 ^ 32 / 2 ^ (g.gauge - 12)
  | 1 => g.words * 25000000 * 2 ^ 32
  | 2 => g.words * 25000000 * 2 ^ 32 / 2 ^ g.densK
  | _ => g.words * 8 * g.maxMts * 1000000 * 2 ^ 20

/-- A rate in MB/s, rounded up. -/
def mbs (rate : Nat) : Nat := ceilDiv rate (1000000 * 2 ^ 32)

/-- The mode of the encoding: true for state mode. -/
def Gear.stateMode (g : Gear) : Bool := g.enc == 3

/-- The gauge rule of R148: RAW fallback takes gauges 0 to 12 only. -/
def Gear.gaugeOk (g : Gear) : Bool := !(g.enc == 1 && !g.summary && decide (12 < g.gauge))

/-- The settings of skein `n` that a reading of its fields gives, with the values that act as others (R151, R180). -/
def gearFrom (get : Fld → Nat) (n : Nat) : Gear where
  enc := get (SKN_CTRL_ENC.of n)
  gauge := min 24 (get (SKN_CTRL_GAUGE.of n))
  summary := get (SKN_CTRL_SUMMARY.of n) == 1
  mask := get (SKN_MASK.of n)
  floor := max 2048 (get (SKN_FLOOR.of n))
  densK := min 32 (get (SKN_CTRL_DENS_K.of n))
  trace := get (SKN_STATE_CTRL_TRACE.of n) == 1
  maxMts := get (SKN_STATE_CTRL_MAX_MTS.of n)

/-- The settings of skein `n` in force. -/
def State.gear (s : State) (n : Nat) : Gear := gearFrom s.get n

/-- The settings of skein `n` in its pending stage; the state-clock fields are no SHD fields and stand as they
are (R161, R180). -/
def State.stagedGear (s : State) (n : Nat) : Gear :=
  { gearFrom s.getStaged n with
    trace := s.is (SKN_STATE_CTRL_TRACE.of n), maxMts := s.get (SKN_STATE_CTRL_MAX_MTS.of n) }

end Sys2Proof.Machine
end

