-- ==== Sys2Proof/Machine/Segment.lean ====
section
/-! DEFINITION. The segment table (R206, R251 to R253): opening, closing and releasing contexts. -/

namespace Sys2Proof.Machine

/-- The first FREE context of session `i`'s range (R251). -/
def State.freeContext (s : State) (i : Nat) : Option Nat :=
  ((upto (s.get (SEG_SESSION_COUNT.elt i))).map (· + s.get (SEG_SESSION_BASE.elt i))).find?
    (fun x => s.get (SEG_ENTRY_INFO_STATE.win x) == 0)

/-- Open context `x` for session `i` at the trigger time `t` (R251). Its record count is fixed when its TRIGGER
stitch is stored. -/
def State.segFill (s : State) (i x t : Nat) (fv : Bool) : State :=
  let s1 := ((s.set (SEG_ENTRY_INFO_STATE.win x) 1).set (SEG_ENTRY_INFO_SESSION.win x) i).set (SEG_ENTRY_INFO_SEQ.win x) i
  let s2 := ((s1.set (SEG_ENTRY_INFO_FV.win x) (flag fv)).set (SEG_ENTRY_INFO_CUT.win x) 0).set (SEG_ENTRY_OPEN.win x) t
  let s3 := ((s2.set (SEG_ENTRY_ERA_OPEN_ERA.win x) (eraOf t)).set (SEG_ENTRY_CLOSE.win x) 0).set
    (SEG_ENTRY_ERA_CLOSE_ERA.win x) 0
  let s4 := s3.set (SEG_ENTRY_REC.win x) (s.get (WR_LANE_WRITTEN.win (64 + i)))
  let s5 := (s4.set SEG_FREE.one (s4.get SEG_FREE.one - 1)).add (SEG_SESSION_USED.elt i) 1
  ((s5.set (TRG_SEG_OPEN.of i) 1).set (TRG_SEG_INDEX.of i) x).set (TRG_STATUS_SEG_OPEN.of i) 1

/-- The skeins of session `i`'s plan. -/
def State.planSkeins (s : State) (i : Nat) : List Nat := bitsOf 64 (s.get (WR_SESSION_SKEINS.elt i))

/-- The oldest opener still held in lane `l`. -/
def State.oldest (s : State) (l : Nat) : Option Nat := ((sget s.rcd.held l []).find? (fun u => u.opener.isSome)).bind (·.opener)

/-- Segments of WRAP session `i` whose data the writer has overwritten (R252). -/
def State.segmentsAge (s : State) (i : Nat) : State :=
  if s.get (WR_SESSION_STATUS_POLICY.elt i) ≠ 0 then s else
  match (s.planSkeins i).filterMap s.oldest with
  | [] => s
  | o :: os =>
    let t := os.foldl min o * frameTicks
    forEach (upto (s.get (SEG_SESSION_COUNT.elt i))) s (fun j s =>
      let x := j + s.get (SEG_SESSION_BASE.elt i)
      let st := s.get (SEG_ENTRY_INFO_STATE.win x)
      let opened := s.get (SEG_ENTRY_ERA_OPEN_ERA.win x) * 2 ^ 64 + s.get (SEG_ENTRY_OPEN.win x)
      let closed := s.get (SEG_ENTRY_ERA_CLOSE_ERA.win x) * 2 ^ 64 + s.get (SEG_ENTRY_CLOSE.win x)
      if (st = 2 ∨ st = 3) ∧ closed < t then (s.set (SEG_ENTRY_INFO_STATE.win x) 4).raise 284
      else if st = 2 ∧ opened < t then (s.set (SEG_ENTRY_INFO_STATE.win x) 3).raise 284
      else s)

/-- Close the open segment of sequencer `i` at `t`; `cut` marks a close by the session's close (R206, R251). Data of it
that the writer has overwritten by then shows at once (R252). -/
def State.segClose (s : State) (i t : Nat) (cut : Bool) : State :=
  if s.is (TRG_SEG_OPEN.of i) then
    let x := s.get (TRG_SEG_INDEX.of i)
    let s1 := (s.set (SEG_ENTRY_INFO_STATE.win x) 2).set (SEG_ENTRY_CLOSE.win x) t
    let s2 := (s1.set (SEG_ENTRY_ERA_CLOSE_ERA.win x) (eraOf t)).set (SEG_ENTRY_INFO_CUT.win x) (flag cut)
    (((s2.set (TRG_SEG_OPEN.of i) 0).set (TRG_STATUS_SEG_OPEN.of i) 0).raise 283).segmentsAge i
  else s

/-- Return context `x` to FREE. -/
def State.segFree (s : State) (x : Nat) : State :=
  let i := s.get (SEG_ENTRY_INFO_SESSION.win x)
  let s1 := forEach [SEG_ENTRY_INFO_STATE, SEG_ENTRY_INFO_SESSION, SEG_ENTRY_INFO_SEQ, SEG_ENTRY_INFO_FV,
    SEG_ENTRY_INFO_CUT, SEG_ENTRY_OPEN, SEG_ENTRY_CLOSE, SEG_ENTRY_REC, SEG_ENTRY_ERA_OPEN_ERA,
    SEG_ENTRY_ERA_CLOSE_ERA] s (fun f s => s.set (f.win x) 0)
  (s1.add SEG_FREE.one 1).set (SEG_SESSION_USED.elt i) (s1.get (SEG_SESSION_USED.elt i) - 1)

/-- Release context `x`: an OPEN or FREE one is refused (R253). Answers whether it was released. -/
def State.segRelease (s : State) (x : Nat) : State × Bool :=
  if s.get (SEG_ENTRY_INFO_STATE.win x) ≤ 1 then ((s.set SEG_STATUS.one 1).raise 285, false) else (s.segFree x, true)

/-- Every context of session `i`'s range that is not FREE returns to FREE (R227). -/
def State.segFreeAll (s : State) (i : Nat) : State :=
  forEach (upto (s.get (SEG_SESSION_COUNT.elt i))) s (fun j s =>
    let x := j + s.get (SEG_SESSION_BASE.elt i)
    if s.get (SEG_ENTRY_INFO_STATE.win x) = 0 then s else s.segFree x)

/-- SEG_CMD.RELEASE: a write of 1 releases the context named in SEG_INDEX (R253). -/
def State.segCommand (s : State) : State := (s.segRelease (s.get SEG_INDEX.one)).1

/-- SEG_CMD_RELEASE: the host's write of 1 to SEG_CMD.RELEASE (R253). -/
def execSegCmdRelease (s : State) : Host.Outcome State Fault Refusal :=
  .next (s.gated (PageClass.page .seg 0) 0x048 State.segCommand)

end Sys2Proof.Machine
end

