-- ==== Sys2Proof/Machine/Skein.lean ====
section
/-! DEFINITION. The skein reducer (chapters 4 and 5): levels and edges of a frame, the encodings R145 to R156, the
units they give, their entry into the skein queue (R236 to R241) and their ledger counts (R254, R499), commits
(R158 to R162) and the spare (R163, R164). -/

namespace Sys2Proof.Machine

/-! ### The spare (R163) -/

/-- SKN_64_SPARE.MODE in force; the reserved value acts as off. -/
def State.spareMode (s : State) : Nat := if s.get (SKN_SPARE_MODE.of 64) = 3 then 0 else s.get (SKN_SPARE_MODE.of 64)

/-- SKN_64_SPARE.TARGET in force. -/
def State.spareTarget (s : State) : Nat := s.get (SKN_SPARE_TARGET.of 64)

/-- The spare stands in for skein `n`. -/
def State.replaced (s : State) (n : Nat) : Bool := s.spareMode == 2 && s.spareTarget == n && n != 64

/-- The skein whose settings and stream number reducer `n` works under: the spare's are its target's.
DEDUCED, log entry 81. -/
def State.streamOf (s : State) (n : Nat) : Nat := if n = 64 && s.spareMode != 0 then s.spareTarget else n

/-- The reducer's stitches go to the comparator only. -/
def State.shadowing (s : State) (n : Nat) : Bool := n == 64 && s.spareMode == 1

/-- The reducer that produces the stream of skein `d`. -/
def State.reducerOf (s : State) (d : Nat) : Nat := if s.replaced d then 64 else d

/-! ### Levels and edges -/

/-- Levels with channel `c` at `v`. -/
def setLevel (l c : Nat) (v : Bool) : Nat := setField l c 1 (flag v)

/-- The levels at instant `t` (R119): after the last edges at or before it. -/
def levelsAt (base : Nat) (edges : List Edge) (t : Nat) : Nat :=
  edges.foldl (fun l e => if e.t ≤ t then setLevel l e.ch e.level else l) base

/-- The levels after every edge. -/
def Skein.present (k : Skein) : Nat := k.edges.foldl (fun l e => setLevel l e.ch e.level) k.base

/-- An edge put in its place: ascending time, then ascending channel (R149). -/
def insertEdge (e : Edge) : List Edge → List Edge
  | [] => [e]
  | x :: xs => if e.t < x.t || (e.t == x.t && decide (e.ch < x.ch)) then e :: x :: xs else x :: insertEdge e xs

/-- The last edge listed on channel `c`. -/
def lastOf (c : Nat) (edges : List Edge) : Option Edge := (edges.filter (fun e => e.ch == c)).getLast?

/-- A level of channel `c` that reaches its reference plane at `t` (R118, R120). The TDC times an edge 180 ps,
148 ticks, after the one before; a sooner one, and one that comes before `earliest`, stands at the first sample
that shows it with fine-valid 0, and two such at one sample leave no edge. `miss` says whether a pulse of at most
100 ps goes unseen, which the spec leaves open. DEDUCED, log entry 88. -/
def Skein.receive (k : Skein) (c : Nat) (level : Bool) (t earliest : Nat) (miss : Bool) : Skein :=
  if bitOf k.present c = level then k
  else
    let before := sget k.arrived c 0
    let timed := decide (earliest ≤ t) && (before == 0 || decide (before - 1 + 148 ≤ t))
    let place := if timed then t else ceilTo (max t earliest) 64
    let k1 := { k with arrived := sput k.arrived c 0 (t + 1) }
    let add := { k1 with edges := insertEdge ⟨c, level, timed, place, max t earliest⟩ k1.edges }
    if timed then add
    else match lastOf c k1.edges with
      | some p =>
        if (p.t == place && !p.fv) || (miss && p.fv && decide (earliest ≤ p.t) && decide (t < p.t + 82)) then
          { k1 with edges := k1.edges.filter (fun e => !(e.ch == c && e.t == p.t && e.fv == p.fv)) }
        else add
      | none => add

/-- The front end and the samplers run: the clocks are off bypass and the timestamp runs (R70). -/
def State.sampling (s : State) : Bool := s.is TIME_STATUS_VALID.one && !s.onBypass

/-- Skein `n` and its front end are powered (R376, R377). -/
def State.skeinReady (s : State) (n : Nat) : Bool :=
  if n = 64 then s.is PWR_SKN_READY_64.one else bitOf (s.get PWR_SKN_READY.one) n

/-- A level change of channel `c` at its ball, taken to skein `n` through its deskew (R113, R114).
DEDUCED, log entry 88. -/
def State.edgeTo (s : State) (n c : Nat) (level : Bool) (time : Nat) : State :=
  if s.sampling && s.skeinReady n then
    let d := if n = 64 && s.spareMode == 2 then s.spareTarget else n
    let t := ((time : Int) + signed 14 (s.get (FE_DESKEW.ofElt d c))).toNat
    let earliest := max s.clk.frameAt (max (s.clk.sampleAt - 63) (sget (s.skein n).holdTo c 0))
    (s.onSkein n (·.receive c level t earliest (s.free % 2 == 0))).drew
  else s.onSkein n (fun k => { k with base := setLevel k.base c level })

/-- Edges before `b` leave the list and the levels before it become the base. -/
def Skein.advance (k : Skein) (b : Nat) : Skein :=
  let gone := k.edges.filter (fun e => decide (e.t < b))
  { k with
    base := gone.foldl (fun l e => setLevel l e.ch e.level) k.base
    prev := gone.foldl (fun p e => sput p e.ch none (some e)) k.prev
    edges := k.edges.filter (fun e => decide (b ≤ e.t)) }

/-- An edge delayed by `d` more: one without a fine time stands at the first sample that shows it again (R118, R171). -/
def Edge.shifted (e : Edge) (d : Int) : Edge :=
  let r := ((e.raw : Int) + d).toNat
  { e with t := if e.fv then r else ceilTo r 64, raw := r }

/-- Edges put in their places; two of a channel without a fine time at one sample leave no edge (R118). -/
def placeEdges (edges : List Edge) : List Edge :=
  edges.foldl (fun l e =>
    let twin : Edge → Bool := fun x => !e.fv && !x.fv && x.ch == e.ch && x.t == e.t
    if l.any twin then l.filter (fun x => !twin x) else insertEdge e l) []

/-- The deskew of channel `c` changes by `d` at the boundary `b` (R117); the TDC's last arrival moves with it (R118). -/
def Skein.reskew (k0 : Skein) (c : Nat) (d : Int) (b : Nat) : Skein :=
  let k := { k0 with arrived := smod k0.arrived c 0 (fun a => if a = 0 then 0 else (max 1 ((a : Int) + d)).toNat) }
  let moved := k.edges.map (fun e => if e.ch = c ∧ b ≤ e.t then e.shifted d else e)
  if 0 ≤ d then { k with holdTo := sput k.holdTo c 0 (b + d.toNat), edges := placeEdges moved }
  else
    let old := bitOf (levelsAt k.base (k.edges.filter (fun e => decide (e.t < b))) b) c
    let lost := moved.filter (fun e => e.ch == c && decide (e.t < b) && !k.edges.contains e)
    let after := match lost.getLast? with
      | some e => e.level
      | none => old
    let kept := moved.filter (fun e => !lost.contains e)
    { k with edges := placeEdges (if after = old then kept else ⟨c, after, false, b, b⟩ :: kept) }

/-! ### Units -/

/-- A reduction unit as the reducer forms it: opener, TIME and body, and what the ledger counts of it. -/
structure Made where
  words    : List Stitch
  samples  : Nat
  edges    : Nat
  entries  : Nat
  merged   : Nat
  unlisted : Nat
  raw      : Bool
  start    : Nat
  levels   : Nat            -- levels at the unit's end
  payload  : List Stitch    -- payload words of a state unit, without the trace
  deriving DecidableEq, Repr

/-- The enabled channels' levels of one sample in ascending channel order (R146). -/
def squeeze (mask levels : Nat) : Nat :=
  ((bitsOf 16 mask).foldl (fun (a : Nat × Nat) c => (a.1 + flag (bitOf levels c) * 2 ^ a.2, a.2 + 1)) (0, 0)).1

/-- The bit stream of a list of samples (R146). -/
def sampleStream (mask : Nat) (levels : List Nat) : Nat :=
  (levels.foldl (fun (a : Nat × Nat) l => (a.1 + squeeze mask l * 2 ^ a.2, a.2 + popcount 16 mask)) (0, 0)).1

/-- Edge entries packed two to an EDGE stitch (R149). -/
def packEdges (b : Nat) : List Edge → List Stitch
  | [] => []
  | [e] => [edgeWord b e none]
  | e0 :: e1 :: es => edgeWord b e0 (some e1) :: packEdges b es

/-- A run of R150: first edge, last edge, number of edges. -/
abbrev Run := Edge × Edge × Nat

/-- The runs of one channel's edges under the floor `f` (R150), last run first. -/
def runsOf (f : Nat) (edges : List Edge) : List Run :=
  edges.foldl (fun runs e =>
    match runs with
    | [] => [(e, e, 1)]
    | (a, z, n) :: rest => if e.t - z.t < f then (a, e, n + 1) :: rest else (e, e, 1) :: runs) []

/-- A run put in its place: ascending time of its first edge, then ascending channel (R150). -/
def insertRun (r : Run) : List Run → List Run
  | [] => [r]
  | x :: xs =>
    if r.1.t < x.1.t || (r.1.t == x.1.t && decide (r.1.ch < x.1.ch)) then r :: x :: xs else x :: insertRun r xs

/-- The items of a SUMMARY frame as stitches (R150). -/
def packRuns (b : Nat) : List Run → List Stitch
  | [] => []
  | [r] => if r.2.2 = 1 then [edgeWord b r.1 none] else [burstWord b r.1 r.2.1 r.2.2]
  | r :: q :: rs =>
    if r.2.2 = 1 then
      if q.2.2 = 1 then edgeWord b r.1 (some q.1) :: packRuns b rs
      else edgeWord b r.1 none :: packRuns b (q :: rs)
    else burstWord b r.1 r.2.1 r.2.2 :: packRuns b (q :: rs)

/-- The samples in the frame that starts at `b`, S (R143). -/
def Gear.samplesIn (g : Gear) (b : Nat) : Nat :=
  if g.gauge ≤ 12 then 4096 / 2 ^ g.gauge
  else if b / frameTicks % 2 ^ (g.gauge - 12) = 0 then 1 else 0

/-- Edges of enabled channels from `a` up to, but not including, `b`. -/
def Skein.observed (k : Skein) (mask a b : Nat) : List Edge :=
  k.edges.filter (fun e => decide (a ≤ e.t) && decide (e.t < b) && bitOf mask e.ch)

/-- An opener of reducer `n` under settings `g`. -/
def State.opener (s : State) (n typ : Nat) (g : Gear) (flg : Bool) (len bits36 start : Nat) : Stitch :=
  openerWord typ g.enc (s.skein n).isNew (n == 64 && s.spareMode == 2) (s.streamOf n) flg len bits36 g.mask
    (eraOf start)

/-- A raw frame (R145, R146). -/
def State.rawUnit (s : State) (n : Nat) (g : Gear) (b0 b1 : Nat) : Made :=
  let k := s.skein n
  let count := g.samplesIn b0
  let levels := (upto count).map (fun m => levelsAt k.base k.edges (b0 + m * 64 * 2 ^ g.gauge))
  let body := streamWords (count * g.k) (sampleStream g.mask levels)
  let e := (k.observed g.mask b0 b1).length + k.carried
  { words := [s.opener n 4 g false body.length g.gauge b0, timeWord b0] ++ body
    samples := g.k * count, edges := e, entries := 0, merged := 0, unlisted := e, raw := g.enc == 1, start := b0
    levels := levelsAt k.base k.edges (b1 - 1), payload := [] }

/-- An edge frame with RAW fallback's edge list (R147, R149). -/
def State.edgeUnit (s : State) (n : Nat) (g : Gear) (b0 b1 : Nat) : Made :=
  let k := s.skein n
  let es := k.observed g.mask b0 b1
  let body := packEdges b0 es
  { words := [s.opener n 1 g false body.length g.gauge b0, timeWord b0] ++ body
    samples := g.k * g.samplesIn b0, edges := es.length + k.carried, entries := es.length, merged := 0
    unlisted := k.carried, raw := false, start := b0, levels := levelsAt k.base k.edges (b1 - 1), payload := [] }

/-- An edge frame under SUMMARY fallback (R150). -/
def State.summaryUnit (s : State) (n : Nat) (g : Gear) (b0 b1 : Nat) : Made :=
  let k := s.skein n
  let es := k.observed g.mask b0 b1
  let runs := (bitsOf 16 g.mask).foldl (fun l c =>
    (runsOf g.floor (es.filter (fun e => e.ch == c))).foldl (fun l r => insertRun r l) l) []
  let body := packRuns b0 runs
  let singles := runs.countP (fun r => r.2.2 == 1)
  { words := [s.opener n 1 g true body.length g.gauge b0, timeWord b0] ++ body
    samples := g.k * g.samplesIn b0, edges := es.length + k.carried, entries := singles
    merged := es.length - singles, unlisted := k.carried, raw := false, start := b0
    levels := levelsAt k.base k.edges (b1 - 1), payload := [] }

/-- The unit of the timing frame from `b0` to `b1` in sample or edge encoding; none where the gauge gives the
frame no sample (R145, R147, R150). -/
def State.timingUnit (s : State) (n : Nat) (g : Gear) (b0 b1 : Nat) : Option Made :=
  if g.enc = 1 then
    if g.summary then some (s.summaryUnit n g b0 b1)
    else if ceilDiv ((s.skein n).observed g.mask b0 b1).length 2 ≤ g.rawWords then some (s.edgeUnit n g b0 b1)
    else some (s.rawUnit n g b0 b1)
  else if g.samplesIn b0 = 0 then none else some (s.rawUnit n g b0 b1)

/-- Ticks spent high from `a` to `b` by a channel at `level` that makes the listed edges in between (R152). -/
def highTime (level : Bool) (a b : Nat) : List Edge → Nat
  | [] => if level then b - a else 0
  | e :: es => (if level then e.t - a else 0) + highTime e.level e.t b es

/-- A density skein takes the frame from `b0` to `b1` into its interval. -/
def Skein.accumulate (k : Skein) (mask b0 b1 : Nat) : Skein :=
  let es := k.observed mask b0 b1
  { k with
    high := (bitsOf 16 mask).foldl (fun h c =>
      sput h c 0 (sget h c 0 + highTime (bitOf k.base c) b0 b1 (es.filter (fun e => e.ch == c)))) k.high
    coarse := maskOf 16 (fun c => bitOf k.coarse c || es.any (fun e => e.ch == c && !e.fv))
    carried := k.carried + es.length }

/-- The unit of a density interval that ends at `b1`, its last frame already taken in (R152, R153, R173). -/
def State.densityUnit (s : State) (n : Nat) (g : Gear) (b1 : Nat) : Made :=
  let k := s.skein n
  let complete := k.whole && b1 % 2 ^ (g.densK + 18) == 0
  let levels := levelsAt k.base k.edges (b1 - 1)
  let body := (bitsOf 16 g.mask).map (fun c =>
    densityWord c (bitOf levels c) (!complete) (bitOf k.coarse c) (sget k.high c 0))
  { words := [s.opener n 1 g false body.length g.gauge k.spanAt, timeWord k.spanAt] ++ body
    samples := g.k * 4096 * ((b1 - k.spanAt) / frameTicks), edges := k.carried, entries := 0, merged := 0
    unlisted := k.carried, raw := false, start := k.spanAt, levels := levels, payload := [] }

/-- The unit of a state frame (R154 to R156). -/
def State.stateUnit (s : State) (n : Nat) (g : Gear) : Made :=
  let k := s.skein n
  let t0 := match k.samples with
    | x :: _ => x.t
    | [] => k.spanAt
  let cnt := k.samples.length
  let payload := streamWords (cnt * g.k) (sampleStream g.mask (k.samples.map (·.levels)))
  let tracing := s.is (SKN_STATE_CTRL_TRACE.of (s.streamOf n))
  let entries := (k.samples.foldl (fun (a : Nat × Nat) x => (a.1 + x.t % 65536 * 2 ^ a.2, a.2 + 16)) (0, 0)).1
  let body := payload ++ (if tracing then streamWords (cnt * 16) entries else [])
  { words := [s.opener n 7 g tracing body.length (t0 % 16) t0, timeWord t0] ++ body
    samples := g.k * cnt, edges := k.carried, entries := 0, merged := 0, unlisted := k.carried, raw := false
    start := t0, levels := (k.samples.getLast?.map (·.levels)).getD 0, payload := payload }

/-! ### The skein queue (R236 to R241) -/

/-- Words in the queue of skein `n`. -/
def State.occupancy (s : State) (n : Nat) : Nat := ((s.skein n).queue.map (fun q => q.words.length)).sum

/-- ACQ_WARN_N as SQ_CTRL and the watermarks give it (R241). -/
def State.acqWarn (s : State) : State :=
  s.set SQ_STATUS_ACQ_WARN.one
    (flag (s.is SQ_CTRL_WARN_EN.one &&
      (s.get SQ_ABOVE.one != 0 || (s.is SQ_CTRL_WARN_SPARE.one && s.is SQ_STATUS_ABOVE_64.one))))

/-- SQ_n_ABOVE. -/
def State.sqAbove (s : State) (n : Nat) : Bool :=
  if n = 64 then s.is SQ_STATUS_ABOVE_64.one else bitOf (s.get SQ_ABOVE.one) n

/-- Put SQ_n_ABOVE. -/
def State.putAbove (s : State) (n : Nat) (v : Bool) : State :=
  if n = 64 then s.set SQ_STATUS_ABOVE_64.one (flag v) else s.setBit SQ_ABOVE.one n v

/-- Compare the queue's occupancy with the watermarks (R241). -/
def State.sqMark (s : State) (n : Nat) : State :=
  let w := s.occupancy n
  if s.get SQ_WM_HIGH.one ≤ w && !s.sqAbove n then ((s.putAbove n true).raise (64 + 2 * n)).acqWarn
  else if w ≤ s.get SQ_WM_LOW.one && s.sqAbove n then (s.putAbove n false).acqWarn
  else s.acqWarn

/-- Counter `w` of session `i`'s ledger, counted from 1 (R254). -/
abbrev ledgerFld (i w : Nat) : Fld := WR_LEDGER.winElt i (w - 1)

/-- Add to counter `w` of session `i`'s ledger. -/
def State.ledger (s : State) (i w n : Nat) : State := s.add (ledgerFld i w) n

/-- Put a packet at the back of the queue of skein `d`, whole or not at all (R239). -/
def State.enqueue (s : State) (d : Nat) (q : QUnit) : State :=
  let free := 4096 - s.occupancy d
  if q.isClose || decide (q.words.length + 1 ≤ free) then
    let s1 := s.onSkein d (fun k => { k with queue := k.queue ++ [q] })
    let s2 := (s1.add (SQ_UNITS_IN.win d) 1).add (SKN_WORDS.of d) q.words.length
    let s3 := if s2.get (SQ_PEAK.win d) < s2.occupancy d then s2.set (SQ_PEAK.win d) (s2.occupancy d) else s2
    s3.sqMark d
  else
    let s1 := (s.add (SQ_OVR_UNITS.win d) 1).add (SQ_OVR_WORDS.win d) q.words.length
    (if d = 64 then s1 else s1.ledger (s1.get (SKN_STATUS_SESSION.of d)) 11 q.words.length).raise 277

/-- The comparator has read what SQ_64 held since the boundary before (R236). DEDUCED, log entry 105. -/
def State.comparatorReads (s : State) : State :=
  if (s.skein 64).queue.isEmpty then s
  else
    ((s.add (SQ_UNITS_OUT.win 64) (s.skein 64).queue.length).onSkein 64 (fun k => { k with queue := [] })).sqMark 64

/-- The storage gate governs skein `d` of session `i` (R205). -/
def State.gateGoverns (s : State) (i d : Nat) : Bool := bitOf (s.get (TRG_GATE_SKEINS.of i)) d

/-- The digest image of a unit (R469). -/
def State.unitImage (s : State) (n : Nat) (m : Made) : List Byte :=
  let d := s.streamOf n
  let g := s.gear d
  toBytes 8 (m.start % 2 ^ 64) ++ toBytes 2 (d % 64 + g.enc % 4 * 256) ++ toBytes 2 g.mask ++ toBytes 4 0 ++
  (bitsOf 16 g.mask).flatMap (fun c => toBytes 4 (sget (s.skein n).counts c 0 % 2 ^ 31 + flag (bitOf m.levels c) * 2 ^ 31)) ++
  m.payload.flatMap (fun w => toBytes 8 w.toNat)

/-- In a pair, a unit's image joins those of its skein (R468, R469): for the epoch it starts in, or, where that epoch's
message has been sent before the unit ends, for the epoch in progress. DEDUCED, log entry 106. -/
def State.noteImage (s : State) (n : Nat) (m : Made) : State :=
  if s.get TWN_STATUS_STATE.one = 2 then
    let image := s.unitImage n m
    let key := if s.shadowing n then 64 else s.streamOf n
    s.onRcd (fun r => { r with images := smod r.images key [] (· ++ [(max (epochOf m.start) (epochOf s.clk.epochAt), image)]) })
  else s

/-- Edges the next unit covers, by channel. -/
def Skein.tally (k : Skein) (es : List Edge) : Skein :=
  { k with counts := es.foldl (fun m e => smod m e.ch 0 (· + 1)) k.counts }

/-- The gate was on in the samples from `t0` to `t1`: for the state frame in progress where they lie between its first and
its last clock edge, and where they come after the last edge so far, should another follow (R205). -/
def Skein.gateOver (k : Skein) (t0 t1 : Nat) : Skein :=
  match k.samples, k.samples.getLast? with
  | first :: _, some last =>
    if first.t / 64 * 64 ≤ t1 then
      { k with gateSeen := k.gateSeen || decide (t0 ≤ last.t), gateMid := k.gateMid || decide (last.t < t1) }
    else k
  | _, _ => k

/-- Reducer `n` produces a unit with its trailers: the SKN counters, the ledger and the queue (R142, R239, R254).
DEDUCED, log entry 78. -/
def State.produce (s0 : State) (n : Nat) (m : Made) (trailers : List Stitch) : State :=
  let s := s0.noteImage n m
  let d := s.streamOf n
  let words := m.words ++ trailers
  if s.shadowing n then
    let s1 := ((s.add (SKN_FRAMES.of 64) 1).add (SKN_MERGED.of 64) m.merged).add (SKN_RAW_FRAMES.of 64) (flag m.raw)
    (s1.add (SKN_QUALITY.of 64) trailers.length).enqueue 64
      { words := words, total := words.length, skein := d, spare := true, isClose := false, gateOn := true
        opener := eraFrame m.start, fate := .undecided, poison := 0, poison1 := 0 }
  else
    let i := s.get (SKN_STATUS_SESSION.of d)
    let k := s.skein n
    let s1 := ((s.add (SKN_FRAMES.of d) 1).add (SKN_MERGED.of d) m.merged).add (SKN_RAW_FRAMES.of d) (flag m.raw)
    let s2 := s1.add (SKN_QUALITY.of d) trailers.length
    let s3 := ((s2.ledger i 1 m.samples).ledger i 2 m.edges).ledger i 3 m.entries
    let s4 := ((s3.ledger i 4 m.merged).ledger i 5 m.unlisted).ledger i 6 1
    let s5 := s4.ledger i 7 words.length
    s5.enqueue d
      { words := words, total := words.length, skein := d, spare := n == 64, isClose := false
        gateOn := !s.gateGoverns i d || k.gateSeen, opener := eraFrame m.start, fate := .undecided
        poison := 0, poison1 := 0 }

/-- Start a new span of reducer `n` at `b` after a unit. -/
def State.newSpan (s : State) (n : Nat) (g : Gear) (b : Nat) : State :=
  s.onSkein n (fun k => { k with
    spanAt := b, carried := 0, counts := [], high := [], coarse := 0
    whole := b % 2 ^ (g.densK + 18) == 0, isNew := false
    deskewed := 0, suspect := 0, gateSeen := false })

/-- The QUALITY trailers of the next unit of reducer `n`: supply, holdover, deskew change (R177). -/
def State.trailers (s : State) (n : Nat) (holdover : List Nat) : List Stitch :=
  let k := s.skein n
  let d := s.streamOf n
  let sp := n == 64 && s.spareMode == 2
  (if k.suspect = 0 then []
    else [qualityWord 1 d sp (k.suspect * 2 ^ 41 + s.get LIFE_BROWNOUTS.one % 65536)]) ++
  holdover.map (fun good => qualityWord 2 d sp good) ++
  (if k.deskewed = 0 then [] else [qualityWord 4 d sp k.deskewed])

/-- The CLOSE stitch of reducer `n` at boundary `b` and what the close covers (R178, R499). `extra` are QUALITY
stitches that no unit could carry. -/
def State.writeClose (s : State) (n cause b : Nat) (extra : List Stitch) : State :=
  let d := s.streamOf n
  let i := s.get (SKN_STATUS_SESSION.of d)
  let k := s.skein n
  let g := s.gear d
  let rest := if g.stateMode then (k.edges.filter (fun e => decide (k.covered < e.t) && decide (e.t < b) && bitOf g.mask e.ch)).length
    else 0
  let count := if g.stateMode then k.lastCount else 0
  let left := k.carried + rest
  let fits := decide (s.occupancy d + extra.length + 1 ≤ 4096)
  let words := (if fits then extra else []) ++ [closeWord cause d (n == 64) count b]
  let s1 := ((s.add (SKN_EDGES.of d) rest).ledger i 2 left).ledger i 5 left
  let s2 := ((s1.add (SKN_QUALITY.of d) extra.length).ledger i 7 (extra.length + 1)).ledger i 11
    (if fits then 0 else extra.length)
  let s3 := s2.enqueue d
    { words := words, total := words.length, skein := d, spare := n == 64, isClose := true, gateOn := true
      opener := eraFrame (b - frameTicks), fate := .undecided, poison := 0, poison1 := 0 }
  (s3.onSkein n (fun k => { k with reducing := false, carried := 0, counts := [], samples := [] })).set (SKN_STATUS_STATE.of d) 2

/-- Reducer `n` at the boundary that ends the frame from `b0` to `b1` (R142 to R153): its unit where one falls
due, and its last unit and CLOSE stitch where its stream closes with a cause. `commit` says that a commit takes
effect on it here; `good` is the holdover QUALITY's time where one is due. -/
def State.skeinBoundary (s : State) (n b0 b1 : Nat) (commit : Bool) (closing : Option Nat) (good : List Nat) : State :=
  let d := s.streamOf n
  let g := s.gear d
  if !(s.skein n).reducing || s.replaced n then s.onSkein n (·.advance b1)
  else
    let r := if s.shadowing n then 64 else d
    let obs := (s.skein n).observed g.mask b0 b1
    let s1 := s.onSkein n (fun k => { (if g.stateMode then k else k.tally obs) with
      suspect := maskOf 8 (fun i => bitOf k.suspect i || bitOf s.pwr.frameRails i) })
    let s2 := if g.stateMode then s1 else s1.add (SKN_EDGES.of r) obs.length
    let s3 := if g.enc = 2 then s2.onSkein n (·.accumulate g.mask b0 b1) else s2
    let made : Option Made :=
      match g.enc with
      | 3 => if closing.isSome && !(s3.skein n).samples.isEmpty then some (s3.stateUnit n g) else none
      | 2 => if closing.isSome || commit || b1 % 2 ^ (g.densK + 18) == 0 then some (s3.densityUnit n g b1) else none
      | _ => s3.timingUnit n g b0 b1
    let s4 := match made with
      | some u => ((s3.produce n u (s3.trailers n good)).newSpan n g b1)
      | none => if g.enc = 0 then s3.onSkein n (fun k => { k with carried := k.carried + obs.length }) else s3
    let s5 := if g.stateMode && made.isSome then
        (s4.add (SKN_EDGES.of r) (s3.skein n).carried).onSkein n (fun k => { k with lastCount := (s3.skein n).samples.length })
      else s4
    let s6 := match closing with
      | some c => s5.writeClose n c b1 (if made.isSome then [] else s5.trailers n good)
      | none => s5
    if g.stateMode && closing.isNone then s6 else s6.onSkein n (·.advance b1)

/-! ### State mode (R154 to R156, R161, R500) -/

/-- Selected edges of clock edge kind `rising` under FE_n_STATE.EDGE (R136). -/
def State.edgeSelected (s : State) (d : Nat) (rising : Bool) : Bool :=
  match s.get (FE_STATE_EDGE.of d) with
  | 1 => !rising
  | 2 => true
  | _ => rising

/-- Reducer `n` takes a state sample (R136, R154): the levels at the sampling instant, the edges it covers.
DEDUCED, log entry 87. -/
def State.takeSample (s : State) (n t inst : Nat) (fv : Bool) : State :=
  let g := s.gear (s.streamOf n)
  s.onSkein n (fun k =>
    let levels := levelsAt k.base k.edges inst
    let news := k.edges.filter (fun e => decide (k.covered < e.t) && decide (e.t ≤ inst) && bitOf g.mask e.ch)
    { k.tally news with
      samples := k.samples ++ [⟨levels, t, inst, fv⟩]
      carried := k.carried + news.length
      covered := max k.covered inst
      sckCount := if t < s.clk.frameAt + frameTicks then k.sckCount + 1 else k.sckCount
      sckAhead := if t < s.clk.frameAt + frameTicks then k.sckAhead else k.sckAhead + 1
      gateSeen := k.gateSeen || (!k.samples.isEmpty && k.gateMid)
      gateMid := false })

/-- A frame compared by the spare's comparator (R164). -/
def State.compareFrame (s : State) (b : Nat) (differs : Bool) : State :=
  let s1 := s.add (SKN_CMP_FRAMES.of 64) 1
  if differs then
    let s2 := if s1.get (SKN_MISMATCHES.of 64) = 0 then
        (s1.set (SKN_FIRST_MISMATCH_ERA.of 64) (eraOf b)).set (SKN_FIRST_MISMATCH_FRAME.of 64) (eraFrame b % 2 ^ 46)
      else s1
    ((s2.add (SKN_MISMATCHES.of 64) 1).skeinCause 64 1).skeinCause s2.spareTarget 1
  else s1

/-! ### Worst cases as ADM shows them (R160, R233) -/

/-- Skein `d` belongs to session `i`'s plan (R261). -/
def State.inPlan (s : State) (i d : Nat) : Bool := bitOf (s.get (WR_SESSION_SKEINS.elt i)) d

/-- The worst-case rate of session `i`'s plan. -/
def State.sessRate (s : State) (i : Nat) : Nat :=
  ((s.planSkeins i).map (fun d => match (s.skein d).admitted with
    | some g => g.rate
    | none => 0)).sum

/-- The sum of the LOG sessions' worst-case rates. -/
def State.logRate (s : State) : Nat :=
  ((upto 8).map (fun i => if s.sessState i ≠ 0 ∧ s.get (WR_SESSION_STATUS_POLICY.elt i) = 2 then s.sessRate i else 0)).sum

/-- ADM_SESSION_n_RATE, ADM_LOG_RATE and ADM_CREDIT.MIN from the admitted settings. -/
def State.admRefresh (s : State) : State :=
  let s1 := forEach (upto 8) s (fun i s => s.set (ADM_SESSION_RATE.elt i) (mbs (s.sessRate i)))
  let s2 := s1.set ADM_LOG_RATE.one (mbs s1.logRate)
  let s3 := forEach (upto 64) s2 (fun d s => s.set (ADM_CREDIT_MIN.win d)
    (match (s.skein d).admitted with
      | some g => g.credits
      | none => 0))
  forEach (upto 8) s3 (fun i s => s.set (ADM_CREDIT_MIN.win (64 + i)) (if s.sessState i = 0 then 0 else 2))

/-! ### Commits (R158 to R163) -/

/-- The SHD fields of skein `n`: one shadow set (R158). -/
def shdCells (n : Nat) : List Fld :=
  (upto 16).flatMap (fun c => [FE_THRESH_HYST.ofElt n c, FE_THRESH_THRESH.ofElt n c, FE_DESKEW.ofElt n c]) ++
  [FE_TERM.of n, SKN_CTRL_ENC.of n, SKN_CTRL_SUMMARY.of n, SKN_CTRL_GAUGE.of n, SKN_CTRL_DENS_K.of n,
    SKN_MASK.of n, SKN_FLOOR.of n] ++
  (if n = 64 then [FE_SOURCE.of 64, SKN_SPARE_TARGET.of 64, SKN_SPARE_MODE.of 64] else [])

/-- Copy the shadow set of skein `n` into its pending stage (R158). -/
def State.stage (s : State) (n : Nat) : State := forEach (shdCells n) s (fun f s => s.setStaged f (s.getShadow f))

/-- The set in the pending stage of skein `n` comes into force. -/
def State.enforce (s : State) (n : Nat) : State := forEach (shdCells n) s (fun f s => s.set f (s.getStaged f))

/-- Why the pending commit of skein `n` is refused: the lowest cause that applies, 0 for none (R160, R180). -/
def State.commitRefusal (s : State) (n : Nat) : Nat :=
  let g := s.stagedGear n
  let runs := s.is (SKN_STATUS_IN_SESSION.of n)
  let i := s.get (SKN_STATUS_SESSION.of n)
  let mode := s.getStaged (SKN_SPARE_MODE.of 64)
  let old := match (s.skein n).admitted with
    | some o => o.rate
    | none => 0
  if runs && decide (s.get (ADM_CREDIT_CREDITS.win n) < g.credits) then 1
  else if runs && g.stateMode != (s.gear n).stateMode then 2
  else if !g.gaugeOk then 3
  else if n == 64 && (mode == 1 || mode == 2)
      && s.getStaged (FE_SOURCE.of 64) != s.getStaged (SKN_SPARE_TARGET.of 64) then 4
  else if g.mask = 0 then 5
  else if runs && s.get (WR_SESSION_STATUS_POLICY.elt i) == 2 && decide (old < g.rate)
      && decide (s.get ADM_OFFLOAD.one * (1000000 * 2 ^ 32) < s.logRate - old + g.rate) then 6
  else 0

/-- SKN_n_COMMIT_STATUS for a commit that took effect at the boundary `b`. -/
def State.commitStatus (s : State) (n b : Nat) (stateBoundary : Bool) : State :=
  let s1 := (s.set (SKN_COMMIT_STATUS_PENDING.of n) 0).set (SKN_COMMIT_STATUS_STATE.of n) (flag stateBoundary)
  let s2 := (s1.set (SKN_COMMIT_STATUS_ERA.of n) (eraOf b)).set (SKN_COMMIT_STATUS_FRAME.of n) (eraFrame b % 2 ^ 46)
  (s2.set (SKN_COMMIT_ERR_REFUSE_CAUSE.of n) 0).set (SKN_COMMIT.of n) 0

/-! ### Over-range (R126) -/

/-- FE_STATUS.OVR_ANY of the FE global page and of each FE_n page. -/
def State.ovrMarks (s : State) : State :=
  let s1 := forEach (upto 65) s (fun n s => s.set (FE_STATUS_OVR_ANY.of n) (flag (s.get (FE_OVR_NOW.of n) != 0)))
  s1.set FEG_STATUS_OVR_ANY.one
    (flag ((upto 65).any (fun n => s1.get (FE_OVR_NOW.of n) != 0) || s1.get FEG_SCK_OVR.one != 0))

/-- A channel becomes over range: an event is counted after 1 µs in range or for the first time (R126).
DEDUCED, log entry 81. -/
def State.channelOver (s : State) (n c : Nat) : State :=
  let low := sget (s.skein n).overLow c 0
  let s1 := s.setBit (FE_OVR_NOW.of n) c true
  if low = 0 ∨ low - 1 + ticksUs ≤ s.now then
    let s2 := ((s1.add (FE_OVR_COUNT.of n) 1).add (LIFE_OVR_COUNT.win n) 1).setBit (FE_OVR_SEEN.of n) c true
    s2.feCause n 2
  else s1

/-- A channel is back in range. -/
def State.channelBack (s : State) (n c : Nat) : State :=
  (s.setBit (FE_OVR_NOW.of n) c false).onSkein n (fun k => { k with overLow := sput k.overLow c 0 (s.now + 1) })

/-- The spare's channels are in range or not as those of the skein whose pads it taps (R126, R132). -/
def State.ovrFollows (s : State) (source : Nat) : State :=
  let out := if source < 64 then s.get (FE_OVR_NOW.of source) else 0
  (forEach (upto 16) s (fun c s =>
    if bitOf (s.get (FE_OVR_NOW.of 64)) c = bitOf out c then s
    else if bitOf out c then s.channelOver 64 c else s.channelBack 64 c)).ovrMarks

/-! ### The spare's role and commits that take effect -/

/-- What a changed role of the spare sets (R132, R133, R163, R164, R260): the status of the skeins concerned, the
comparator's counters, and the frame left out after a switch of source. -/
def State.spareRole (s : State) (oldMode oldTarget oldSource b : Nat) : State :=
  let mode := s.spareMode
  let target := s.spareTarget
  let source := s.get (FE_SOURCE.of 64)
  let s1 := if oldMode ≠ mode ∨ oldTarget ≠ target then
      let z := ((s.set (SKN_CMP_FRAMES.of 64) 0).set (SKN_MISMATCHES.of 64) 0).set (SKN_STATUS_SHADOWED.of oldTarget) 0
      let z1 := forEach [SQ_PEAK, SQ_UNITS_IN, SQ_UNITS_OUT, SQ_OVR_UNITS, SQ_OVR_WORDS, SQ_PARITY] z
        (fun f s => s.set (f.win 64) 0)
      let z2 := z1.set (SKN_STATUS_REPLACED.of oldTarget) 0
      let z3 := (z2.set (SKN_STATUS_SHADOWED.of target) (flag (mode == 1))).set (SKN_STATUS_REPLACED.of target)
        (flag (mode == 2))
      let z4 := z3.set (SKN_STATUS_STATE.of 64) (if mode = 1 then 3 else if mode = 2 then 4 else 0)
      let from_ := s.skein target
      let keep := mode == 2 && (s.gear target).stateMode
      let z5 := (z4.onSkein 64 (fun k => { k with
        reducing := mode == 1 || (mode == 2 && from_.reducing)
        spanAt := if keep then from_.spanAt else b
        carried := if mode = 2 then from_.carried else 0
        counts := if mode = 2 then from_.counts else []
        high := [], coarse := 0, whole := b % 2 ^ ((s.gear target).densK + 18) == 0
        samples := if keep then from_.samples else []
        covered := if keep then from_.covered else b - 1
        lastCount := from_.lastCount, deskewed := 0, queue := [] })).sqMark 64
      let spare := s.skein 64
      if oldMode = 2 then z5.onSkein oldTarget (fun k => { k with
          reducing := spare.reducing && k.reducing, spanAt := spare.spanAt, carried := spare.carried, counts := spare.counts
          high := [], coarse := 0
          whole := b % 2 ^ ((s.gear oldTarget).densK + 18) == 0, samples := spare.samples, covered := spare.covered
          lastCount := spare.lastCount, isNew := true })
      else z5
    else s
  if oldSource ≠ source then
    let a := (s1.set (FE_STATUS_TAPPED.of oldSource) 0).set (FE_STATUS_TAPPED.of source) (flag (decide (source < 64)))
    ((a.ovrFollows source).set (FE_STATUS_SPARE_SETTLED.of 64) 0).onSkein 64 (fun k => { k with
      base := if source < 64 then (s.skein source).present else 0
      edges := [], prev := [], exclude := b + frameTicks, settle := b + frameTicks })
  else s1

/-- The spare follows a commit of the skein `n` that it shadows or replaces, on the same boundary (R450, R453):
FE_64 takes the target's thresholds, hysteresis and deskew. -/
def State.followTarget (s : State) (n : Nat) (delta : List Int) (b : Nat) : State :=
  let s1 := forEach (upto 16) s (fun c s =>
    let copy : RegField → State → State := fun f s => (s.set (f.ofElt 64 c) (s.get (f.ofElt n c))).setShadow (f.ofElt 64 c)
      (s.get (f.ofElt n c))
    copy FE_DESKEW (copy FE_THRESH_THRESH (copy FE_THRESH_HYST s)))
  s1.onSkein 64 (fun k =>
    let k1 := (upto 16).foldl (fun k c => if delta.getD c 0 = 0 then k else k.reskew c (delta.getD c 0) b) k
    { k1 with
      isNew := true
      deskewed := maskOf 16 (fun c => bitOf k.deskewed c || delta.getD c 0 != 0)
      spanAt := if (s1.gear n).stateMode then k.spanAt else b
      high := [], coarse := 0
      whole := b % 2 ^ ((s1.gear n).densK + 18) == 0 })

/-- The settings in the pending stage of skein `n` come into force at the boundary `b` (R115, R117, R158). -/
def State.takeEffect (s : State) (n b : Nat) : State :=
  let old := (upto 16).map (fun c => signed 14 (s.get (FE_DESKEW.ofElt n c)))
  let oldMode := s.spareMode
  let oldTarget := s.spareTarget
  let oldSource := s.get (FE_SOURCE.of 64)
  let s1 := s.enforce n
  let delta := (upto 16).map (fun c => signed 14 (s1.get (FE_DESKEW.ofElt n c)) - old.getD c 0)
  let s2 := s1.onSkein n (fun k =>
    let k1 := (upto 16).foldl (fun k c => if delta.getD c 0 = 0 then k else k.reskew c (delta.getD c 0) b) k
    { k1 with
      isNew := true
      deskewed := maskOf 16 (fun c => (k.reducing && bitOf k.deskewed c) || delta.getD c 0 != 0)
      spanAt := if (s1.gear n).stateMode then k.spanAt else b
      high := [], coarse := 0
      whole := b % 2 ^ ((s1.gear n).densK + 18) == 0 })
  let s2a := if n ≠ 64 && s2.spareMode != 0 && s2.spareTarget == n then s2.followTarget n delta b else s2
  let s3 := if s2a.is (SKN_STATUS_IN_SESSION.of n) then
      (s2a.onSkein n (fun k => { k with admitted := some (s2a.gear n) })).admRefresh
    else s2a
  if n = 64 then s3.spareRole oldMode oldTarget oldSource b else s3

/-- The pending commit of skein `n` at the boundary `b`, judged to have the refusal cause `c`: taken where that is 0, or
refused (R158, R160). -/
def State.settleCommit (s : State) (n b c : Nat) (stateBoundary : Bool) : State :=
  if c = 0 then (s.takeEffect n b).commitStatus n b stateBoundary
  else
    let s1 := (s.set (SKN_COMMIT.of n) 0).set (SKN_COMMIT_STATUS_PENDING.of n) 0
    ((s1.set (SKN_COMMIT_ERR_REFUSED.of n) 1).set (SKN_COMMIT_ERR_REFUSE_CAUSE.of n) c).skeinCause n 4

/-- A cast-on request has staged skein `n`'s set, and its boundary is still to come (R162). -/
def State.castStaged (s : State) (n : Nat) : Bool :=
  (upto 8).any (fun i => sget s.rcd.castDue i 0 != 0 && s.inPlan i n)

/-- A commit of skein `n` waits for a frame boundary at or before `b` (R158, R161); that of a cast-on request comes with
the cast-on (R162). -/
def State.commitWaits (s : State) (n b : Nat) : Bool :=
  s.is (SKN_COMMIT.of n) && decide ((s.skein n).commitDue ≤ b)
    && !(n != 64 && (s.gear n).stateMode && (s.skein n).reducing) && !s.castStaged n

/-- The verdict on every commit that waits for the boundary `b` (R160): skein and refusal cause, each judged with the
worst cases that the ones before it leave. -/
def State.commitVerdicts (s : State) (b : Nat) : List (Nat × Nat) :=
  ((upto 65).foldl (fun (a : State × List (Nat × Nat)) n =>
    if a.1.commitWaits n b then
      let c := a.1.commitRefusal n
      (if c = 0 ∧ a.1.is (SKN_STATUS_IN_SESSION.of n) then
          a.1.onSkein n (fun k => { k with admitted := some (a.1.stagedGear n) })
        else a.1, a.2 ++ [(n, c)])
    else a) (s, [])).2

/-- The shadow set of skein `n` goes into its pending stage for a commit at the boundary `b` at the earliest. -/
def State.commitStage (s : State) (n b : Nat) : State :=
  (((s.stage n).set (SKN_COMMIT.of n) 1).set (SKN_COMMIT_STATUS_PENDING.of n) 1).onSkein n
    (fun k => { k with commitDue := b })

/-- A self-check pass on skein `n` is abandoned (R131): its result and idle time stay as before the pass. -/
def State.abandonCheck (s : State) (n : Nat) : State :=
  if s.is FEG_STATUS_CHECK_BUSY.one && s.get FEG_STATUS_CHECK_SKEIN.one == n then
    ((s.set FEG_STATUS_CHECK_BUSY.one 0).set (FE_STATUS_CHECKING.of n) 0).set (FE_IDLE_SECONDS.of n) (s.skein n).idleSaved
  else s

/-- A write of 1 to SKN_n_COMMIT.REQUEST (R158, R159). One that gives the spare a target ends the passes on both (R131). -/
def State.commitRequest (s : State) (n : Nat) : State :=
  if s.is (SKN_COMMIT.of n) then s.set (SKN_COMMIT_ERR_BUSY_WRITE.of n) 1
  else
    let role := s.getShadow (SKN_SPARE_MODE.of 64)
    let s1 := if n = 64 ∧ (role = 1 ∨ role = 2) then
        (s.abandonCheck 64).abandonCheck (s.getShadow (SKN_SPARE_TARGET.of 64))
      else s
    s1.commitStage n s.nextBoundary

/-- SCK_FAST over the frame that ends (R500). -/
def State.sckJudge (s : State) (n : Nat) : State :=
  let d := s.streamOf n
  let mts := s.get (SKN_STATE_CTRL_MAX_MTS.of d)
  let k := s.skein n
  let s1 := if (s.gear d).stateMode && k.reducing && mts != 0 && decide (ceilDiv (mts * 32) 100 < k.sckCount) then
      s.skeinCause d 3
    else s
  s1.onSkein n (fun k => { k with sckCount := k.sckAhead, sckAhead := 0 })

/-! ### Start of a stream (R162, R180, R260) -/

/-- Skein `d` of session `i` starts reducing at the cast-on boundary `b`: its staged set comes into force, its
counters go to zero, and its reducer, or the spare that stands in for it, starts. DEDUCED, log entry 81. -/
def State.castSkein (s : State) (i d b : Nat) : State :=
  let s1 := (s.takeEffect d b).commitStatus d b false
  let s2 := forEach [SKN_FRAMES, SKN_EDGES, SKN_MERGED, SKN_WORDS, SKN_RAW_FRAMES, SKN_QUALITY] s1
    (fun f s => s.set (f.of d) 0)
  let s3 := forEach [SQ_PEAK, SQ_UNITS_IN, SQ_UNITS_OUT, SQ_OVR_UNITS, SQ_OVR_WORDS, SQ_PARITY] s2
    (fun f s => s.set (f.win d) 0)
  let start : Nat → State → State := fun n s => s.onSkein n (fun k =>
    { (k.advance b) with
      reducing := true, spanAt := b, carried := 0, counts := [], high := [], coarse := 0
      whole := b % 2 ^ ((s.gear d).densK + 18) == 0, covered := b - 1, samples := [], lastCount := 0
      sckCount := 0, sckAhead := 0, suspect := 0, isNew := true, gateSeen := false, gateMid := false, edgeDue := false })
  let s4 := start d s3
  let s5 := if s4.spareMode != 0 && s4.spareTarget == d then start 64 s4 else s4
  ((s5.set (SKN_STATUS_STATE.of d) 1).set (SKN_STATUS_IN_SESSION.of d) 1).set (SKN_STATUS_SESSION.of d) i

end Sys2Proof.Machine
end

