-- ==== Sys2Proof/Machine/Trigger.lean ====
section
/-! DEFINITION. The trigger sequencers (chapter 6): resources, terms and branches, the actions of a sample in the
order of R183, arming and its checks (R199, R200), disarm and freeze (R201). -/

namespace Sys2Proof.Machine

/-! ### What the resources see -/

/-- Sequencer `j` is detached (R214). -/
def State.detached (s : State) (j : Nat) : Bool := s.is (TRG_CTRL_DETACH.of j)

/-- Sequencer `j` is fenced. -/
def State.seqFenced (s : State) (j : Nat) : Bool := s.is (fencedOf (PageClass.page .trg j))

/-- Skein `n` is fenced. -/
def State.skeinFenced (s : State) (n : Nat) : Bool := s.is (fencedOf (PageClass.page .skn n))

/-- Sequencer `j` is armed: it evaluates live samples, or it replays (R199). -/
def State.seqArmed (s : State) (j : Nat) : Bool :=
  s.get (TRG_STATUS_STATE.of j) == 2 || s.get (TRG_STATUS_STATE.of j) == 4

/-- Edges of the replayed skein `n` as sequencer `j` holds them, by channel of the skein. -/
def Seq.playEdges (q : Seq) (n : Nat) : List Edge :=
  (q.playUnits.filter (fun e => e.ch / 16 == n)).map (fun e => { e with ch := e.ch % 16 })

/-- Levels of skein `n` at `t` as the resources of owner `j` see them (R185, R187): the live front end, the
spare's where it replaces the skein, low where the skein is fenced; the replay stream for a detached owner. -/
def State.viewLevels (s : State) (j n t : Nat) : Nat :=
  if s.detached j then levelsAt (sget (s.seq j).playBase n 0) ((s.seq j).playEdges n) t
  else if s.skeinFenced n && !s.replaced n then 0
  else levelsAt (s.skein (s.reducerOf n)).base (s.skein (s.reducerOf n)).edges t

/-- The edges of channel `c` of skein `n` that owner `j` sees, the last one before the list first. -/
def State.viewEdges (s : State) (j n c : Nat) : List Edge :=
  if s.detached j then
    (sget (s.seq j).playPrev (n * 16 + c) none).toList ++ ((s.seq j).playEdges n).filter (fun e => e.ch == c)
  else if s.skeinFenced n && !s.replaced n then []
  else
    let k := s.skein (s.reducerOf n)
    (sget k.prev c none).toList ++ k.edges.filter (fun e => e.ch == c)

/-- Live owner `j` sees skein `n` as low: it is fenced, and the spare does not stand in for it (R187). -/
def State.laneLost (s : State) (j n : Nat) : Bool := !s.detached j && s.skeinFenced n && !s.replaced n

/-- The state sample of skein `n` whose sampling instant lies in the period of the sample at `t` (R188). -/
def State.viewState (s : State) (j n t : Nat) : Option StateSample :=
  if s.detached j then
    (((s.seq j).playStates.filter (fun p => p.1 == n)).map (fun p => p.2)).find? (fun x => decide (t < x.inst + 64) && decide (x.inst ≤ t))
  else if s.skeinFenced n && !s.replaced n then none
  else (s.skein (s.reducerOf n)).lastState.find? (fun x => decide (t < x.inst + 64) && decide (x.inst ≤ t))

/-- The time lies in the period of the sample at `t` (R183). -/
def inPeriod (t x : Nat) : Bool := decide (t < x + 64) && decide (x ≤ t)

/-- The present skeins among those a selection names (R187). -/
def presentSkeins (l : List Nat) : List Nat := l.filter (fun n => decide (n < 64))

/-- The skeins of word comparator `i`, lanes 0 to 63. -/
def State.wcSkeins (s : State) (i : Nat) : List Nat :=
  [s.get (TRG_WC_SEL_SKEIN0.res i), s.get (TRG_WC_SEL_SKEIN1.res i), s.get (TRG_WC_SEL_SKEIN2.res i),
    s.get (TRG_WC_SEL_SKEIN3.res i)]

/-- The skeins of range comparator `i`. -/
def State.rcSkeins (s : State) (i : Nat) : List Nat := [s.get (TRG_RC_SEL_SKEINA.res i), s.get (TRG_RC_SEL_SKEINB.res i)]

/-- The levels a comparator of owner `j` compares for skein `n` in the sample at `t`: none where a state-qualified
comparator has no state sample there; an absent skein and a fenced one are low (R187, R188). -/
def State.laneLevels (s : State) (j n t : Nat) (qualified : Bool) : Option Nat :=
  if 64 ≤ n ∨ s.laneLost j n then some 0
  else if qualified then (s.viewState j n t).map (·.levels)
  else some (s.viewLevels j n t)

/-- The lanes of the listed skeins as one number, the first skein lowest; none where one has no state sample. -/
def State.lanes (s : State) (j t : Nat) (qualified : Bool) : List Nat → Option Nat
  | [] => some 0
  | n :: ns =>
    match s.laneLevels j n t qualified, s.lanes j t qualified ns with
    | some l, some rest => some (l + 65536 * rest)
    | _, _ => none

/-- What a comparator of owner `j` compares in the sample at `t`: a state-qualified one only in the first sample at or after
a sampling instant of the skeins it names (R187 to R189). -/
def State.compared (s : State) (j t : Nat) (qualified : Bool) (ns : List Nat) : Option Nat :=
  if qualified && !(presentSkeins ns).any (fun n => (s.viewState j n t).isSome) then none else s.lanes j t qualified ns

/-- The lanes that are present, as a mask. -/
def presentMask : List Nat → Nat
  | [] => 0
  | n :: ns => (if n < 64 then 65535 else 0) + 65536 * presentMask ns

/-- Word comparator `i` in the sample at `t` (R187, R188). -/
def State.wordComp (s : State) (i t : Nat) : Bool :=
  let j := s.get (TRG_WC_CTRL_OWNER.res i)
  let present := presentMask (s.wcSkeins i)
  let lanes := (bitsOf 64 (s.get (TRG_WC_MASK.res i))).filter (fun q => bitOf present q)
  if lanes.isEmpty then false
  else match s.compared j t (s.is (TRG_WC_CTRL_STATE_QUAL.res i)) (s.wcSkeins i) with
    | none => false
    | some v =>
      let same := lanes.all (fun q => bitOf v q == bitOf (s.get (TRG_WC_VALUE.res i)) q)
      if s.is (TRG_WC_CTRL_NE.res i) then !same else same

/-- Range comparator `i` in the sample at `t` (R189). -/
def State.rangeComp (s : State) (i t : Nat) : Bool :=
  let j := s.get (TRG_RC_CTRL_OWNER.res i)
  match s.compared j t (s.is (TRG_RC_CTRL_STATE_QUAL.res i)) (s.rcSkeins i) with
  | none => false
  | some v =>
    let w := field v (s.get (TRG_RC_SEL_LSB.res i)) (s.get (TRG_RC_SEL_WIDTH.res i))
    let inside := decide (s.get (TRG_RC_LOW.res i) ≤ w) && decide (w ≤ s.get (TRG_RC_HIGH.res i))
    if s.is (TRG_RC_CTRL_OUTSIDE.res i) then !inside else inside

/-- The pulse that `p` opens and `e` closes, in ticks (R190): a closing edge with fine-valid 0 makes it 147. -/
def pulseWidth (p e : Edge) : Nat := if e.fv then e.t - p.t else 147

/-- An edge list fires a detector of the given kind and width in the sample at `t` (R190); `p` is the edge before
the list. DEDUCED, log entry 25. -/
def detectFrom (kind width t : Nat) (p : Option Edge) : List Edge → Bool
  | [] =>
    match p with
    | some o => (kind == 6 && o.level || kind == 7 && !o.level) && inPeriod t (o.t + width)
    | none => false
  | e :: es =>
    let here := inPeriod t e.t
    let narrow := match p with
      | some o => decide (pulseWidth o e < width)
      | none => false
    let lasted := match p with
      | some o => decide (width ≤ pulseWidth o e) && inPeriod t (o.t + width)
      | none => false
    let fires :=
      match kind with
      | 0 => here && e.level
      | 1 => here && !e.level
      | 2 => here
      | 3 => here && !e.level && narrow
      | 4 => here && e.level && narrow
      | 5 => here && narrow
      | 6 => !e.level && lasted
      | _ => e.level && lasted
    fires || detectFrom kind width t (some e) es

/-- Edge and glitch detector `i` in the sample at `t` (R190). DEDUCED, log entry 25. -/
def State.detector (s : State) (i t : Nat) : Bool :=
  let j := s.get (TRG_ED_CTRL_OWNER.res i)
  let es := s.viewEdges j (s.get (TRG_ED_CTRL_SKEIN.res i)) (s.get (TRG_ED_CTRL_CH.res i))
  detectFrom (s.get (TRG_ED_CTRL_KIND.res i)) (s.get (TRG_ED_WIDTH.res i)) t none es

/-! ### Terms (R184, R186) -/

/-- The kinds of pool resource a term names. -/
inductive PoolRes where
  | wc (i : Nat) | rc (i : Nat) | ed (i : Nat) | ct (i : Nat) | tm (i : Nat)
  deriving DecidableEq, Repr

/-- The pool resource of a term source (R184). -/
def poolOf (src : Nat) : Option PoolRes :=
  if src < 0x100 then none
  else if src < 0x140 then some (.wc (src - 0x100))
  else if src < 0x150 then some (.rc (src - 0x140))
  else if src < 0x190 then some (.ed (src - 0x150))
  else if src < 0x1B0 then some (.ct (src - 0x190))
  else if src < 0x1D0 then some (.tm (src - 0x1B0))
  else none

/-- The owner of a resource (R185). -/
def State.ownerOf (s : State) : PoolRes → Nat
  | .wc i => s.get (TRG_WC_CTRL_OWNER.res i)
  | .rc i => s.get (TRG_RC_CTRL_OWNER.res i)
  | .ed i => s.get (TRG_ED_CTRL_OWNER.res i)
  | .ct i => s.get (TRG_CT_CTRL_OWNER.res i)
  | .tm i => s.get (TRG_TM_CTRL_OWNER.res i)

/-- A resource's output in the sample at `t`: false while it is disabled or its owner fenced (R185). -/
def State.resource (s : State) (t : Nat) (r : PoolRes) : Bool :=
  !s.seqFenced (s.ownerOf r) &&
  match r with
  | .wc i => s.is (TRG_WC_CTRL_ENABLE.res i) && s.wordComp i t
  | .rc i => s.is (TRG_RC_CTRL_ENABLE.res i) && s.rangeComp i t
  | .ed i => s.is (TRG_ED_CTRL_ENABLE.res i) && s.detector i t
  | .ct i => s.is (TRG_CT_CTRL_ENABLE.res i) && decide (s.get (TRG_CT_TARGET.res i) ≤ s.get (TRG_CT_VALUE.res i))
  | .tm i => s.is (TRG_TM_CTRL_ENABLE.res i) && decide (s.get (TRG_TM_LIMIT.res i) ≤ s.get (TRG_TM_VALUE.res i))

/-- Sequencer `j`, or a resource it owns, may read sequencer `k` and what it owns: both live, or a detached one itself
(R185, R214). -/
def State.mayRead (s : State) (j k : Nat) : Bool := s.detached j == s.detached k && (!s.detached j || j == k)

/-- Alarm `n`'s pulse is true in the next sample. -/
def State.alarmPulse (s : State) (n : Nat) : Bool := (sget s.clk.alarms n Alarm.idle).pulse

/-- The source `src` as sequencer `j`, or a resource it owns, sees it in the sample at `t` (R186, R214). What it may not
read, and for a detached one the pins, reads false (DEDUCED, log entry 108). -/
def State.source (s : State) (t j src : Nat) : Bool :=
  if src = 0 then true
  else if src = 1 then s.is (TRG_FORCE_HOLD.of j) || (s.seq j).force
  else if 0x008 ≤ src && src < 0x010 then
    !s.detached j && (bitOf s.pins.trigTerm (src - 8) != s.is (TRIG_IN_CTRL.of (src - 8)))
  else if 0x010 ≤ src && src < 0x014 then !s.detached j && bitOf s.pins.xtrigTerm (src - 0x10)
  else if 0x014 ≤ src && src < 0x018 then !s.detached j && s.alarmPulse (src - 0x14)
  else if src = 0x018 then s.detached j && (s.seq j).playGap
  else if 0x020 ≤ src && src < 0x028 then s.mayRead j (src - 0x20) && (s.seq (src - 0x20)).triggered
  else if 0x028 ≤ src && src < 0x030 then s.mayRead j (src - 0x28) && s.is (TRG_STATUS_GATE.of (src - 0x28))
  else if 0x030 ≤ src && src < 0x038 then !s.detached j && s.holdActive (src - 0x30)
  else if 0x080 ≤ src && src < 0x100 then
    s.mayRead j ((src - 0x80) / 16) && s.get (TRG_STATUS_LEVEL.of ((src - 0x80) / 16)) == (src - 0x80) % 16
  else match poolOf src with
    | some r => s.mayRead j (s.ownerOf r) && s.resource t r
    | none => false

/-- Term `i` of a condition word: its ten bits (R195). -/
def termOf (cond i : Nat) : Nat := field cond (10 * i) 10

/-- The used terms of a condition word. -/
def usedTerms (cond : Nat) : List Nat := ((upto 4).map (termOf cond)).filter (fun x => x % 512 != 0x1FF)

/-- A term's value (R195). -/
def State.term (s : State) (t j x : Nat) : Bool := s.source t j (x % 512) != bitOf x 9

/-- Branch `b` of level `l` of sequencer `j`: its condition word. -/
def State.condWord (s : State) (j l b : Nat) : Nat := s.get (TRG_COND.ofElt j (l * 4 + b))

/-- Branch `b` of level `l` of sequencer `j`: its action word. -/
def State.actWord (s : State) (j l b : Nat) : Nat := s.get (TRG_ACT.ofElt j (l * 4 + b))

/-- A condition word is true in the sample at `t` (R195). -/
def State.condTrue (s : State) (t j cond : Nat) : Bool :=
  let used := usedTerms cond
  bitOf cond 40 && !used.isEmpty &&
    (if bitOf cond 41 then used.any (s.term t j) else used.all (s.term t j))

/-- The branch an armed sequencer takes in the sample at `t`: the lowest true one (R197). -/
def State.taken (s : State) (t j : Nat) : Option Nat :=
  if s.seqArmed j then (upto 4).find? (fun b => s.condTrue t j (s.condWord j (s.get (TRG_STATUS_LEVEL.of j)) b)) else none

/-! ### The trigger time (R202) -/

/-- The timed edges that a true term contributes in the sample at `t`: those of its channels, or the sampling
instant of a state-qualified comparator. -/
def State.termEdges (s : State) (t x : Nat) : List Nat :=
  let timed : Nat → Nat → Nat → List Nat := fun j n c =>
    ((s.viewEdges j n c).filter (fun e => e.fv && inPeriod t e.t)).map (·.t)
  let instants : Nat → List Nat → List Nat := fun j ns =>
    (presentSkeins ns).flatMap (fun n => match s.viewState j n t with
      | some y => if y.fv then [y.inst] else []
      | none => [])
  match poolOf (x % 512) with
  | some (.wc i) =>
    let j := s.get (TRG_WC_CTRL_OWNER.res i)
    let ns := s.wcSkeins i
    if s.is (TRG_WC_CTRL_STATE_QUAL.res i) then instants j ns
    else (bitsOf 64 (s.get (TRG_WC_MASK.res i))).flatMap (fun q =>
      if ns.getD (q / 16) 127 < 64 then timed j (ns.getD (q / 16) 127) (q % 16) else [])
  | some (.rc i) =>
    let j := s.get (TRG_RC_CTRL_OWNER.res i)
    let ns := s.rcSkeins i
    if s.is (TRG_RC_CTRL_STATE_QUAL.res i) then instants j ns
    else ((upto (s.get (TRG_RC_SEL_WIDTH.res i))).map (· + s.get (TRG_RC_SEL_LSB.res i))).flatMap (fun q =>
      if ns.getD (q / 16) 127 < 64 then timed j (ns.getD (q / 16) 127) (q % 16) else [])
  | some (.ed i) => timed (s.get (TRG_ED_CTRL_OWNER.res i)) (s.get (TRG_ED_CTRL_SKEIN.res i)) (s.get (TRG_ED_CTRL_CH.res i))
  | _ => []

/-- The action word of the branch sequencer `j` takes, with its branch. -/
def State.takenAct (s : State) (t j : Nat) : Option (Nat × Nat) :=
  (s.taken t j).map (fun b => (b, s.actWord j (s.get (TRG_STATUS_LEVEL.of j)) b))

/-- TRIG of an action word (R196). -/
def actTrig (a : Nat) : Nat := field a 58 2

/-- The trigger time of the sample at `t` for the sequencers of one stream, and whether an edge refined it. -/
def State.triggerTime (s : State) (t : Nat) (seqs : List Nat) : Nat × Bool :=
  let edges := seqs.flatMap (fun j =>
    match s.takenAct t j with
    | some (b, a) =>
      if actTrig a = 0 then []
      else ((usedTerms (s.condWord j (s.get (TRG_STATUS_LEVEL.of j)) b)).filter (s.term t j)).flatMap (s.termEdges t)
    | none => [])
  if edges.isEmpty then (t, false) else (edges.foldl max 0, true)

/-! ### Actions (R196, R198) -/

/-- A sequencer's stitch enters its queue of 64 entries, or is lost (R204). -/
def State.seqStitch (s : State) (j : Nat) (w : Stitch) : State :=
  if (s.seq j).stitches.length < 64 then s.onSeq j (fun q => { q with stitches := q.stitches ++ [w] })
  else
    let s1 := s.add (TRG_STITCHES_LOST.of j) 1
    (if s.detached j then s1 else s1.ledger j 15 1).raise (196 + 8 * j)

/-- The trigger action of sequencer `j` in the sample at `t` (R202, R206): the record of the trigger, the segment
it opens or closes, and its TRIGGER stitch. -/
def State.trigAction (s : State) (j b a : Nat) (time : Nat × Bool) : State :=
  let l := s.get (TRG_STATUS_LEVEL.of j)
  let s1 := ((s.add (TRG_TRIGGERS.of j) 1).set (TRG_LAST_TRIG.of j) time.1).set (TRG_LAST_TRIG_INFO_LEVEL.of j) l
  let s2 := ((s1.set (TRG_LAST_TRIG_INFO_BRANCH.of j) b).set (TRG_LAST_TRIG_INFO_FV.of j) (flag time.2)).raise (194 + 8 * j)
  let wasOpen := s2.is (TRG_SEG_OPEN.of j)
  let oldIndex := s2.get (TRG_SEG_INDEX.of j)
  if actTrig a = 1 then s2.seqStitch j (triggerWord j l b time.2 false false 0 time.1)
  else if actTrig a = 3 then
    (s2.segClose j time.1 false).seqStitch j
      (triggerWord j l b time.2 false wasOpen (if wasOpen then oldIndex else 0) time.1)
  else
    let s3 := s2.segClose j time.1 false
    match (if s3.detached j then none else s3.freeContext j) with
    | some x => (s3.segFill j x time.1 time.2).seqStitch j (triggerWord j l b time.2 true wasOpen x time.1)
    | none => ((s3.raise 282).raise (196 + 8 * j)).seqStitch j (triggerWord j l b time.2 false wasOpen 0 time.1)

/-- The gate action (R205, R206): on, off, or none; a gate-off closes the segment open at the start of the sample
unless the same branch opened one. -/
def State.gateAction (s : State) (j a t : Nat) (openBefore : Bool) : State :=
  match field a 56 2 with
  | 1 => s.set (TRG_STATUS_GATE.of j) 1
  | 2 =>
    let s1 := s.set (TRG_STATUS_GATE.of j) 0
    if s.is (TRG_CTRL_GATE_CLOSES.of j) && openBefore && actTrig a != 2 then s1.segClose j t false else s1
  | _ => s

/-- A pin operation: moves no pin for a detached sequencer (R214). -/
def State.seqPin (s : State) (j op pin t : Nat) : State :=
  if op = 0 then s else if s.detached j then s.add (TRG_PIN_OPS.of j) 1 else s.pinOp j op pin t

/-- Everything sequencer `j`'s taken branch does beside its MARK stitch, its counters and its timers. -/
def State.branchActions (s : State) (j t b a : Nat) (time : Nat × Bool) : State :=
  let openBefore := s.is (TRG_SEG_OPEN.of j)
  let s1 := if actTrig a = 0 then s else s.trigAction j b a time
  let s2 := s1.gateAction j a t openBefore
  let s3 := s2.raiseIf (bitOf a 55) (195 + 8 * j)
  let s4 := (s3.seqPin j (field a 18 2) (field a 13 5) t).seqPin j (field a 11 2) (field a 6 5) t
  s4.set (TRG_STATUS_LEVEL.of j) (field a 60 4)

/-- The MARK stitch of sequencer `j`'s taken branch (R175). -/
def State.markAction (s : State) (j t l b a : Nat) : State :=
  if bitOf a 54 then (s.add (TRG_MARKS.of j) 1).seqStitch j (markWord j l b (field a 38 16) t) else s

/-- The operation a taken branch applies to counter or timer `sel` (R196); 0 for none. -/
def opOn (a sel : Nat) : Nat :=
  if field a 29 6 = sel && field a 35 3 ≠ 0 then field a 35 3
  else if field a 20 6 = sel then field a 26 3 else 0

/-- Put a counter's value and its status; reaching saturation raises the page's event (R191). -/
def State.putCounter (s : State) (i value : Nat) (running : Bool) : State :=
  let v := min value (2 ^ 48 - 1)
  let s1 := (s.set (TRG_CT_VALUE.res i) v).set (TRG_CT_STATUS_RUNNING.res i) (flag running)
  let s2 := s1.set (TRG_CT_STATUS_REACHED.res i) (flag (decide (s.get (TRG_CT_TARGET.res i) ≤ v)))
  let full := v == 2 ^ 48 - 1
  (s2.set (TRG_CT_STATUS_SATURATED.res i) (flag full)).raiseIf
    (full && !s.is (TRG_CT_STATUS_SATURATED.res i)) (200 + 8 * (i / 4))

/-- Put a timer's value and its status (R192). -/
def State.putTimer (s : State) (i value : Nat) (running : Bool) : State :=
  let v := min value (2 ^ 48 - 1)
  let s1 := (s.set (TRG_TM_VALUE.res i) v).set (TRG_TM_STATUS_RUNNING.res i) (flag running)
  let s2 := s1.set (TRG_TM_STATUS_EXPIRED.res i) (flag (decide (s.get (TRG_TM_LIMIT.res i) ≤ v)))
  let full := v == 2 ^ 48 - 1
  (s2.set (TRG_TM_STATUS_SATURATED.res i) (flag full)).raiseIf
    (full && !s.is (TRG_TM_STATUS_SATURATED.res i)) (200 + 8 * (i / 4))

/-- Counter `i` in the sample at `t`, whose terms are read from `s0` (R191, R193). -/
def State.stepCounter (s0 : State) (t : Nat) (i : Nat) (s : State) : State :=
  let j := s0.get (TRG_CT_CTRL_OWNER.res i)
  if s0.is (TRG_CT_CTRL_ENABLE.res i) && s0.seqArmed j then
    let op := match s0.takenAct t j with
      | some (_, a) => opOn a i
      | none => 0
    let free := s0.is (TRG_CT_CTRL_FREE.res i)
    let inc := s0.source t j (s0.get (TRG_CT_CTRL_INC_SRC.res i))
    let reset := op == 3 || op == 4 || (free && s0.source t j (s0.get (TRG_CT_CTRL_CLR_SRC.res i)))
    let running := if free then true
      else if op = 1 || op = 4 then true
      else if op = 2 then false
      else s0.is (TRG_CT_STATUS_RUNNING.res i)
    let counts := inc && !(s0.is (TRG_CT_CTRL_EDGE.res i) && sget s0.pins.ctPrev i 0 == 1)
    let base := if reset then 0 else s0.get (TRG_CT_VALUE.res i)
    let s1 := s.putCounter i (base + flag (op == 5) + flag (running && counts)) running
    s1.onPins (fun p => { p with ctPrev := sput p.ctPrev i 0 (flag inc) })
  else s

/-- Timer `i` in the sample at `t`, whose terms are read from `s0` (R192, R193). -/
def State.stepTimer (s0 : State) (t : Nat) (i : Nat) (s : State) : State :=
  let j := s0.get (TRG_TM_CTRL_OWNER.res i)
  if s0.is (TRG_TM_CTRL_ENABLE.res i) && s0.seqArmed j then
    let op := match s0.takenAct t j with
      | some (_, a) => opOn a (32 + i)
      | none => 0
    let free := s0.is (TRG_TM_CTRL_FREE.res i)
    let fires := free && s0.source t j (s0.get (TRG_TM_CTRL_START_SRC.res i))
    let start := fires || (!free && (op == 1 || op == 4))
    let base := if fires || op == 3 || op == 4 then 0 else s0.get (TRG_TM_VALUE.res i)
    let wants := if start then true else if !free && op = 2 then false else s0.is (TRG_TM_STATUS_RUNNING.res i)
    let limit := s0.get (TRG_TM_LIMIT.res i)
    let runs := wants && decide (base < limit)
    let v := base + flag runs
    s.putTimer i v (runs && decide (v < limit))
  else s

/-- The gate of sequencer `j` in the samples from `t0` to `t1`: where it is on, the units of the skeins it governs note it
(R205). -/
def State.markGate (s : State) (j t0 t1 : Nat) : State :=
  if s.is (TRG_STATUS_GATE.of j) && s.sessRuns j then
    forEach ((s.planSkeins j).filter (s.gateGoverns j)) s (fun d s =>
      s.onSkein (s.reducerOf d) (fun k =>
        if (s.gear d).stateMode then k.gateOver t0 t1 else { k with gateSeen := true }))
  else s

/-- One sample of one stream at `t` (R183): `seqs` are its sequencers. -/
def State.sampleStep (s : State) (t : Nat) (seqs : List Nat) : State :=
  let time := s.triggerTime t seqs
  let s1 := forEach seqs s (fun j s1 =>
    match s.takenAct t j with
    | some (b, a) => s1.branchActions j t b a time
    | none => s1)
  let s2 := forEach seqs s1 (fun j s2 =>
    match s.takenAct t j with
    | some (b, a) => s2.markAction j t (s.get (TRG_STATUS_LEVEL.of j)) b a
    | none => s2)
  let mine : Nat → Bool := fun j => seqs.contains j
  let s3 := forEach ((upto 32).filter (fun i => mine (s.get (TRG_CT_CTRL_OWNER.res i)))) s2 (fun i s3 => s.stepCounter t i s3)
  let s4 := forEach ((upto 32).filter (fun i => mine (s.get (TRG_TM_CTRL_OWNER.res i)))) s3 (fun i s4 => s.stepTimer t i s4)
  forEach seqs s4 (fun j s5 =>
    s5.onSeq j (fun q => { q with
      force := false, playGap := false
      triggered := match s.takenAct t j with
        | some (_, a) => actTrig a != 0
        | none => false }))

/-! ### Live samples -/

/-- The live sequencers. -/
def State.liveSeqs (s : State) : List Nat := (upto 8).filter (fun j => !s.detached j)

/-- The alarms with their pulses over. -/
def clearPulses (m : Sparse Alarm) : Sparse Alarm :=
  (upto 4).foldl (fun m n => smod m n Alarm.idle (fun a => { a with pulse := false })) m

/-- Force pulses whose instant lies at or before `t` act in the sample at `t` (R194, R466). -/
def State.takeForces (s : State) (t : Nat) : State :=
  forEach (upto 8) s (fun j s =>
    if (s.seq j).forceAt.any (fun x => decide (x ≤ t)) then s.onSeq j (fun q => { q with
      force := true, forceAt := q.forceAt.filter (fun x => decide (t < x)) })
    else s)

/-- The host forces sequencer `j` for one sample: the first at or after the present FCLK edge, or the next one of a replay
(R194). -/
def State.forcePulse (s : State) (j : Nat) : State :=
  s.onSeq j (fun q => if s.detached j then { q with force := true } else { q with forceAt := q.forceAt ++ [ceilTo s.now fclkTicks] })

/-- Evaluate the next live sample (R183). -/
def State.liveSample (s : State) : State :=
  let t := s.clk.sampleAt
  let s1 := forEach (upto 8) ((s.takeInputs t).takeForces t) (fun j s => s.markGate j t t)
  let s2 := s1.sampleStep t s1.liveSeqs
  (({ s2 with now := max s2.now t }).onClk (fun c => { c with
    sampleAt := t + 64
    alarms := clearPulses c.alarms })).pulsesEnd t

/-- Evaluate live samples until the sample instant reaches `b`, at most `fuel` of them. -/
def State.liveSamples : Nat → Nat → State → State
  | 0, _, s => s
  | fuel + 1, b, s => if s.clk.sampleAt < b then State.liveSamples fuel b s.liveSample else s

/-- Bring live evaluation up to the boundary `b`: every sample where some live sequencer is armed; otherwise
nothing can act, and only inputs, gates and pulses move on. -/
def State.evaluateTo (s : State) (b : Nat) : State :=
  if b ≤ s.clk.sampleAt then s
  else if s.liveSeqs.any s.seqArmed then State.liveSamples 4096 b s
  else
    let s1 := forEach (upto 8) ((s.takeInputs (b - 64)).takeForces (b - 64)) (fun j s => s.markGate j s.clk.sampleAt (b - 64))
    let s2 := forEach s1.liveSeqs s1 (fun j s => s.onSeq j (fun q => { q with force := false, triggered := false }))
    (s2.onClk (fun c => { c with
      sampleAt := max c.sampleAt b
      alarms := clearPulses c.alarms })).pulsesEnd (b - 64)

/-! ### Arming (R199, R200) -/

/-- A source index that R186 names. -/
def sourceNamed (src : Nat) : Bool :=
  src ≤ 1 || (0x008 ≤ src && src ≤ 0x018) || (0x020 ≤ src && src < 0x038) || (0x080 ≤ src && src < 0x1D0)

/-- The sequencer whose state a source names, if any. -/
def sourceSeq (src : Nat) : Option Nat :=
  if 0x020 ≤ src && src < 0x028 then some (src - 0x20)
  else if 0x028 ≤ src && src < 0x030 then some (src - 0x28)
  else if 0x080 ≤ src && src < 0x100 then some ((src - 0x80) / 16)
  else none

/-- The cause a term gives against an arm of sequencer `n`, 0 for none (causes 3 and 2). -/
def State.termFault (s : State) (n x : Nat) : Nat :=
  let src := x % 512
  if src = 0x1FF then 0
  else if !sourceNamed src then 3
  else
    let other := match poolOf src with
      | some r => some (s.ownerOf r)
      | none => sourceSeq src
    match other with
    | some j => if s.mayRead n j then 0 else 2
    | none => 0

/-- The cause a counter or timer operation gives against an arm, 0 for none (causes 3 and 1). -/
def State.opFault (s : State) (n op sel : Nat) : Nat :=
  if op = 0 then 0
  else if 6 ≤ op || (op = 5 && 32 ≤ sel) then 3
  else if s.ownerOf (if sel < 32 then .ct sel else .tm (sel - 32)) = n then 0 else 1

/-- A pin a branch may name (R196). -/
def pinNamed (pin : Nat) : Bool := pin < 12 || (16 ≤ pin && pin < 24)

/-- The first cause in a list, 0 for none. -/
def firstCause (l : List Nat) : Nat := (l.find? (· != 0)).getD 0

/-- The cause one branch gives against an arm, 0 for none: terms first, then actions (R200). -/
def State.branchFault (s : State) (n cond act : Nat) : Nat :=
  if !bitOf cond 40 then 0
  else
    let opA := field act 35 3
    let opB := field act 26 3
    let pinA := field act 18 2
    let pinB := field act 11 2
    firstCause ((upto 4).map (fun i => s.termFault n (termOf cond i)) ++
      [s.opFault n opA (field act 29 6), s.opFault n opB (field act 20 6),
        if opA ≠ 0 ∧ opB ≠ 0 ∧ field act 29 6 = field act 20 6 then 4 else 0,
        if pinA ≠ 0 ∧ !pinNamed (field act 13 5) then 3 else 0,
        if pinB ≠ 0 ∧ !pinNamed (field act 6 5) then 3 else 0,
        if pinA ≠ 0 ∧ pinB ≠ 0 ∧ field act 13 5 = field act 6 5 then 4 else 0])

/-- Skein `d` cannot serve a resource of sequencer `n` (cause 5): fenced, power-gated, outside 0 to 63, or absent
from the replay stream. -/
def State.skeinUnfit (s : State) (n d : Nat) : Bool :=
  decide (64 ≤ d) || (if s.detached n then !bitOf (s.seq n).playSkeins d
    else (s.skeinFenced d && !s.replaced d) || !s.skeinReady d)

/-- State qualification of the present skeins on clock `sck` is unmet (cause 6, R188). -/
def State.qualUnmet (s : State) (n sck : Nat) (ds : List Nat) : Bool :=
  if s.detached n then ds.any (fun d => !bitOf (s.seq n).playTraced d)
  else
    ds.any (fun d => !(s.gear d).stateMode || s.get (FE_STATE_SCK_SEL.of d) != sck) ||
    match ds with
    | [] => false
    | d0 :: _ => ds.any (fun d => s.get (FE_STATE_EDGE.of d) != s.get (FE_STATE_EDGE.of d0)
        || s.get (FE_STATE_DELAY.of d) != s.get (FE_STATE_DELAY.of d0))

/-- A replayed skein whose units present nothing (R215: density, or state without trace), for an unqualified
resource: only state units present no levels. -/
def State.replayBlank (s : State) (n : Nat) (ds : List Nat) : Bool :=
  s.detached n && ds.any (fun d => bitOf (s.seq n).playBlank d)

/-- The cause a comparator's or detector's skeins give against an arm (causes 5 and 6). -/
def State.skeinsFault (s : State) (n : Nat) (ds : List Nat) (qualified : Bool) (sck : Nat) : Nat :=
  if ds.any (s.skeinUnfit n) then 5
  else if s.replayBlank n ds then 6
  else if qualified && s.qualUnmet n sck ds then 6
  else 0

/-- The cause a resource that the terms name gives against an arm of sequencer `n` (causes 5, 6 and 9): its skeins, and for
a counter or a timer the sources it names, judged as terms are (causes 3 and 2; DEDUCED, log entry 108). -/
def State.resourceFault (s : State) (n : Nat) : PoolRes → Nat
  | .wc i => s.skeinsFault n ((s.wcSkeins i).filter (· != 0x7F)) (s.is (TRG_WC_CTRL_STATE_QUAL.res i)) (s.get (TRG_WC_CTRL_SCK.res i))
  | .rc i =>
    let f := s.skeinsFault n ((s.rcSkeins i).filter (· != 0x7F)) (s.is (TRG_RC_CTRL_STATE_QUAL.res i)) (s.get (TRG_RC_CTRL_SCK.res i))
    let w := s.get (TRG_RC_SEL_WIDTH.res i)
    if f ≠ 0 then f else if w = 0 || 32 < s.get (TRG_RC_SEL_LSB.res i) + w then 9 else 0
  | .ed i => s.skeinsFault n [s.get (TRG_ED_CTRL_SKEIN.res i)] false 0
  | .ct i => firstCause [s.termFault n (s.get (TRG_CT_CTRL_INC_SRC.res i)), s.termFault n (s.get (TRG_CT_CTRL_CLR_SRC.res i))]
  | .tm i => s.termFault n (s.get (TRG_TM_CTRL_START_SRC.res i))

/-- The branches of sequencer `n`'s program in order: condition and action words. -/
def State.program (s : State) (n : Nat) : List (Nat × Nat) :=
  (upto 64).map (fun e => (s.get (TRG_COND.ofElt n e), s.get (TRG_ACT.ofElt n e)))

/-- Why an arm of sequencer `n` is refused, by the order of R200; 0 for none. `inSession` says that its session
runs or is being cast on. -/
def State.armRefusal (s : State) (n : Nat) (inSession : Bool) : Nat :=
  let prog := s.program n
  let named : List Nat := (prog.filter (fun (p : Nat × Nat) => bitOf p.1 40)).flatMap
    (fun (p : Nat × Nat) => (usedTerms p.1).map (fun x => x % 512))
  if s.seqFenced n || !bitOf (s.get PWR_TRG_GATE_READY.one) n then 8
  else if (if s.detached n then (s.seq n).channel == 0 else !inSession) then 7
  else
    let c := firstCause (prog.map (fun p => s.branchFault n p.1 p.2))
    if c ≠ 0 then c
    else firstCause (((upto 0xD0).map (fun x => x + 0x100)).map (fun src =>
      if named.contains src then (match poolOf src with
        | some r => s.resourceFault n r
        | none => 0) else 0))

/-- A refused arm (R200). -/
def State.armRefused (s : State) (n cause : Nat) : State :=
  ((s.set (TRG_ARM_ERR_REFUSED.of n) 1).set (TRG_ARM_ERR_CAUSE.of n) cause).raise (197 + 8 * n)

/-- The session of sequencer `n` runs (R199). -/
def State.sessionLive (s : State) (n : Nat) : Bool := s.sessState n == 3

/-- An arm of a sequencer: checked, then staged for the next eligible boundary (R199). An armed sequencer, or one
whose arm is pending, is left as it is. Answers the refusal's cause. -/
def State.armRequest (s : State) (n : Nat) : State × Nat :=
  if s.seqArmed n || s.get (TRG_STATUS_STATE.of n) == 1 then (s, 0)
  else
    let c := s.armRefusal n (s.sessionLive n)
    if c ≠ 0 then (s.armRefused n c, c)
    else
      let s1 := ((s.set (TRG_STATUS_STATE.of n) 1).set (TRG_CTRL_ARM.of n) 1).set (TRG_ARM_ERR_CAUSE.of n) 0
      (s1.onSeq n (fun q => { q with armDue := s.nextBoundary }), 0)

/-- A staged arm takes effect (R199): level and gate take their start values, non-free counters and timers stop. -/
def State.armTake (s : State) (n : Nat) : State :=
  let s1 := (s.set (TRG_STATUS_STATE.of n) (if s.detached n then 4 else 2)).set (TRG_CTRL_ARM.of n) 0
  let s2 := (s1.set (TRG_STATUS_LEVEL.of n) (s.get (TRG_CTRL_START_LEVEL.of n))).set (TRG_STATUS_GATE.of n)
    (s.get (TRG_CTRL_GATE_INIT.of n))
  let s3 := ((s2.set (TRG_STATUS_SESSION.of n) n).set (TRG_ARM_ERR_CAUSE.of n) 0).onSeq n (fun q => { q with triggered := false })
  let s4 := forEach (upto 32) s3 (fun i s =>
    if s.get (TRG_CT_CTRL_OWNER.res i) = n && !s.is (TRG_CT_CTRL_FREE.res i) then s.set (TRG_CT_STATUS_RUNNING.res i) 0 else s)
  (forEach (upto 32) s4 (fun i s =>
    if s.get (TRG_TM_CTRL_OWNER.res i) = n && !s.is (TRG_TM_CTRL_FREE.res i) then s.set (TRG_TM_STATUS_RUNNING.res i) 0
    else s)).powerFollow

/-- Arms that fall due at the boundary `b` take effect. -/
def State.armsAt (s : State) (b : Nat) : State :=
  forEach (upto 8) s (fun n s =>
    if s.get (TRG_STATUS_STATE.of n) = 1 && decide ((s.seq n).armDue ≤ b) then s.armTake n else s)

/-- Sequencer `n` is disarmed at `t` (R201): contributions are released without a gap, its open segment closes; the gate
keeps its state. -/
def State.disarmed (s : State) (n t : Nat) (cut : Bool) : State :=
  let s1 := (s.set (TRG_STATUS_STATE.of n) 0).set (TRG_CTRL_ARM.of n) 0
  ((s1.releasePins n t false).segClose n t cut).powerFollow

/-- Disarm sequencer `n` at `t`, if it is armed or its arm is pending. -/
def State.disarm (s : State) (n t : Nat) (cut : Bool) : State :=
  if s.seqArmed n || s.get (TRG_STATUS_STATE.of n) == 1 then s.disarmed n t cut else s

/-- A write of DISARM (R201): a live sequencer evaluates the samples before the FCLK edge at which the write arrives, and is
disarmed at the first sample at or after it. -/
def State.disarmNow (s : State) (n : Nat) : State :=
  if s.seqArmed n && !s.detached n && s.sampling then
    let t := max (ceilTo s.now fclkTicks) s.clk.sampleAt
    (s.evaluateTo t).disarmed n t false
  else s.disarm n s.now false

/-- Freeze sequencer `n` at the boundary `b` (R201): level, counters and timers stay, contributions are released
with their gap, and EV_(198 + 8n) is raised. -/
def State.freeze (s : State) (n b : Nat) : State :=
  if s.get (TRG_STATUS_STATE.of n) = 1 then (s.set (TRG_STATUS_STATE.of n) 0).set (TRG_CTRL_ARM.of n) 0
  else if s.seqArmed n then
    (((s.set (TRG_STATUS_STATE.of n) 3).releasePins n b true).raise (198 + 8 * n)).powerFollow
  else s

/-! ### Pool settlement and the sequencers' own commands -/

/-- A timer whose value has reached LIMIT has stopped and reads expired (R192). -/
def State.settleTimer (s : State) (i : Nat) : State :=
  if s.is (TRG_TM_CTRL_ENABLE.res i) && decide (s.get (TRG_TM_LIMIT.res i) ≤ s.get (TRG_TM_VALUE.res i)) then
    (s.set (TRG_TM_STATUS_RUNNING.res i) 0).set (TRG_TM_STATUS_EXPIRED.res i) 1
  else s

/-- A counter whose value is at least TARGET has reached it (R191). -/
def State.settleCounter (s : State) (i : Nat) : State :=
  if decide (s.get (TRG_CT_TARGET.res i) ≤ s.get (TRG_CT_VALUE.res i)) then s.set (TRG_CT_STATUS_REACHED.res i) 1 else s

/-- SAMPLE_EVALUATION: the next sample of the present frame is evaluated (R183); on bypass sampling stands still
(R70), and a frame's samples end at its boundary. -/
def execSampleEvaluation (s : State) : Host.Outcome State Fault Refusal :=
  if s.sampling && decide (s.clk.sampleAt < s.clk.frameAt + frameTicks) then .next s.liveSample else .next s

/-- TIMER_EXPIRE: a timer at LIMIT stops and reads expired (R192). -/
def execTimerExpire (i : Fin 32) (s : State) : Host.Outcome State Fault Refusal := .next (s.settleTimer i.val)

/-- COUNTER_TARGET: a counter at TARGET reads reached (R191). -/
def execCounterTarget (i : Fin 32) (s : State) : Host.Outcome State Fault Refusal := .next (s.settleCounter i.val)

/-- COUNTER_SATURATION: a counter or timer at 2^48 - 1 stays there and raises its pool page's event (R191). -/
def execCounterSaturation (c : PoolCount) (s : State) : Host.Outcome State Fault Refusal :=
  match c with
  | .counter i =>
    if s.get (TRG_CT_VALUE.res i.val) = 2 ^ 48 - 1 then
      .next (s.putCounter i.val (2 ^ 48 - 1) (s.is (TRG_CT_STATUS_RUNNING.res i.val)))
    else .next s
  | .timer i =>
    if s.get (TRG_TM_VALUE.res i.val) = 2 ^ 48 - 1 then
      .next (s.putTimer i.val (2 ^ 48 - 1) (s.is (TRG_TM_STATUS_RUNNING.res i.val)))
    else .next s

/-- The CFG fields of TRG_n_CTRL from a written value: (cell, value). -/
def trgCtrlFields (n value : Nat) : List (Fld × Nat) :=
  [(TRG_CTRL_START_LEVEL.of n, field value 20 4), (TRG_CTRL_GATE_CLOSES.of n, field value 7 1),
    (TRG_CTRL_GATE_INIT.of n, field value 6 1), (TRG_CTRL_DETACH.of n, field value 5 1)]

/-- A write of `value` to TRG_n_CTRL (R199, R201, R218): an armed sequencer ignores the CFG fields, with
ACCESS_ERR where one would have changed, and carries out DISARM. -/
def State.trgCtrlWrite (s : State) (n value : Nat) : State :=
  let s1 := if s.seqArmed n then
      (if (trgCtrlFields n value).any (fun p => s.get p.1 != p.2) then s.accessErr (PageClass.page .trg n) 0x040 else s)
    else forEach (trgCtrlFields n value) s (fun p s => s.set p.1 p.2)
  let s2 := if bitOf value 1 then s1.disarmNow n else s1
  if bitOf value 0 && !bitOf value 1 then (s2.armRequest n).1 else s2

/-- A write of `value` to TRG_n_FORCE (R194, R218). -/
def State.trgForceWrite (s : State) (n value : Nat) : State :=
  let s1 := s.set (TRG_FORCE_HOLD.of n) (field value 1 1)
  if bitOf value 0 then s1.forcePulse n else s1

/-- TRG_ARM: a host write to TRG_n_CTRL with ARM at 1 (R199, R200). -/
def execTrgArm (n : Fin 8) (value : DWord) (s : State) : Host.Outcome State Fault Refusal :=
  .next (s.gated (PageClass.page .trg n.val) 0x040 (·.trgCtrlWrite n.val (setField value.toNat 0 1 1)))

/-- TRG_DISARM: a host write to TRG_n_CTRL with DISARM at 1 (R201). -/
def execTrgDisarm (n : Fin 8) (value : DWord) (s : State) : Host.Outcome State Fault Refusal :=
  .next (s.gated (PageClass.page .trg n.val) 0x040 (·.trgCtrlWrite n.val (setField value.toNat 1 1 1)))

/-- FORCE_PULSE: a host write to TRG_n_FORCE with PULSE at 1 (R194). -/
def execForcePulse (n : Fin 8) (value : DWord) (s : State) : Host.Outcome State Fault Refusal :=
  .next (s.gated (PageClass.page .trg n.val) 0x048 (·.trgForceWrite n.val (setField value.toNat 0 1 1)))

end Sys2Proof.Machine
end

