-- ==== Sys2Proof/Machine/Session.lean ====
section
/-! DEFINITION. Sessions as every cause of a close touches them (R224, R226, R234, R257): changes of state, closes
waiting for their boundary, units closed out, plans released; the fault log and the marking of fenced units
(R449, R458, R459). -/

namespace Sys2Proof.Machine

/-! ### Session states -/

/-- Session `n` takes a state: every change raises its event (R224), and RUN and IDLE follow (R369). -/
def State.putSess (s : State) (n v : Nat) : State :=
  if s.sessState n = v then s
  else
    (((s.set (WR_SESSION_STATUS_STATE.elt n) v).setBit WR_ACTIVE.one n (v == 3 || v == 4)).raise (266 + n)).powerFollow

/-- A close waits for session `n`'s boundary. -/
def State.closeReq (s : State) (n : Nat) : Option CloseReq := sget s.rcd.closeReq n none

/-- The close of session `n` whose queues the writer drains. -/
def State.ending (s : State) (n : Nat) : Option CloseReq := sget s.rcd.ending n none

/-- The ledger's words of a packet that the writer has already stored: the last unit of the lane that is not yet
whole. DEDUCED, log entry 79. -/
def State.partStored (s : State) (d : Nat) (q : QUnit) : Nat :=
  if q.words.length = q.total then 0
  else match (sget s.rcd.held d []).getLast? with
    | some u => if q.fate = .stored then u.words else 0
    | none => 0

/-- Close out every unit of skein `d`'s queue (R256, R257); its CLOSE stitch stays. Their end marks are never read (R236). A unit read in part moves
whole to CLOSED. DEDUCED, log entry 79. -/
def State.closeOut (s : State) (d : Nat) : State :=
  let i := s.get (SKN_STATUS_SESSION.of d)
  let units := (s.skein d).queue.filter (fun q => !q.isClose)
  let part := (units.map (s.partStored d)).sum
  let words := (units.map (fun q => q.words.length)).sum
  let s1 := (s.set (ledgerFld i 8) (s.get (ledgerFld i 8) - part)).ledger i 12 (words + part)
  let s2 := s1.onRcd (fun r => { r with held := if part = 0 then r.held else smod r.held d [] (fun l =>
    match l.reverse with
    | u :: us => ({ u with words := 0 } :: us).reverse
    | [] => []) })
  (s2.onSkein d (fun k => { k with queue := k.queue.filter (·.isClose) })).sqMark d

/-- Close out everything in skein `d`'s queue, its CLOSE stitch too (R82). -/
def State.closeOutAll (s : State) (d : Nat) : State :=
  let s1 := s.closeOut d
  let i := s1.get (SKN_STATUS_SESSION.of d)
  let left := s1.occupancy d
  ((s1.ledger i 12 left).onSkein d (fun k => { k with queue := [] })).sqMark d

/-- A fault closes session `n` with CLOSE cause `cause` (R224, R257): a session cast or running closes at the next
boundary as INTERRUPTED, and a paired device sends FAULT (R464); one already closing keeps its boundary, and what it has not stored is closed out where
the fault is one of the path the whole session uses. -/
def State.interrupt (s : State) (n cause : Nat) : State :=
  let st := s.sessState n
  if st = 2 ∨ st = 3 then
    ((s.putSess n 4).onRcd (fun r => { r with
      castDue := sput r.castDue n 0 0
      closeReq := sput r.closeReq n none (some ⟨cause, false, 0⟩) })).twinFault
  else if st = 4 then
    match s.ending n with
    | some e =>
      if cause = 4 then
        (forEach (s.planSkeins n) s (fun d s => s.closeOut d)).onRcd (fun r => { r with
          ending := sput r.ending n none (some { e with clean := false, cause := cause }) })
      else s
    | none => s.onRcd (fun r => { r with closeReq := sput r.closeReq n none (some ⟨cause, false, 0⟩) })
  else s

/-- Every session that runs is interrupted. -/
def State.interruptAll (s : State) (cause : Nat) : State := forEach (upto 8) s (fun n s => s.interrupt n cause)

/-- The bind-off boundary of session `n`: the first boundary at least 2 FCLK cycles away and at least `at_`, never earlier
than the frame after the cast-on boundary (R226). -/
def State.bindOffDue (s : State) (n at_ : Nat) : Nat :=
  max (max s.nextBoundary at_) ((s.get (WR_SESSION_CAST_FRAME.elt n) % 2 ^ 62 + 1) * frameTicks)

/-- A bind-off of running session `n` is accepted for the boundary `due` (R226). `cause` is 0x0, or 0x5 after a supply
episode. -/
def State.bindOffAt (s : State) (n cause due : Nat) : State :=
  (s.putSess n 4).onRcd (fun r => { r with closeReq := sput r.closeReq n none (some ⟨cause, true, due⟩) })

/-- A bind-off of running session `n` at its first boundary. -/
def State.bindOffAccept (s : State) (n cause : Nat) : State := s.bindOffAt n cause (s.bindOffDue n 0)

/-! ### Plans and credits -/

/-- The credits of every admitted plan (R232). -/
def State.creditsUsed (s : State) : Nat :=
  ((upto 8).map (fun i => if s.sessState i = 0 then 0 else
    ((s.planSkeins i).map (fun d => s.get (ADM_CREDIT_CREDITS.win d))).sum + s.get (ADM_CREDIT_CREDITS.win (64 + i)))).sum

/-- ADM_CREDITS_USED and ADM_SESSION_n_CREDITS from the credits held. -/
def State.creditRefresh (s : State) : State :=
  let s1 := forEach (upto 8) s (fun i s => s.set (ADM_SESSION_CREDITS.elt i) (if s.sessState i = 0 then 0 else
    ((s.planSkeins i).map (fun d => s.get (ADM_CREDIT_CREDITS.win d))).sum + s.get (ADM_CREDIT_CREDITS.win (64 + i))))
  (s1.set ADM_CREDITS_USED.one s1.creditsUsed).admRefresh

/-- The plan of session `n` is released (R227): its credits, skeins, segments and region return to the pool. -/
def State.releasePlan (s : State) (n : Nat) : State :=
  let ds := s.planSkeins n
  let s1 := (forEach ds s (fun d s =>
    let a := forEach [WR_LANE_BASE, WR_LANE_SIZE, WR_LANE_WRITTEN, WR_LANE_RELEASED, WR_LANE_OLDEST] s (fun f s => s.set (f.win d) 0)
    (a.set (ADM_CREDIT_CREDITS.win d) 0).onSkein d (fun k => { k with admitted := none }))).segFreeAll n
  let s2 := forEach [WR_LANE_BASE, WR_LANE_SIZE, WR_LANE_WRITTEN, WR_LANE_RELEASED, WR_LANE_OLDEST] s1 (fun f s => s.set (f.win (64 + n)) 0)
  let s3 := s2.set (ADM_CREDIT_CREDITS.win (64 + n)) 0
  let s4 := forEach [WR_SESSION_SKEINS, WR_SESSION_HELD, WR_SESSION_REGION_BASE, WR_SESSION_REGION_SIZE, WR_SESSION_QUOTA,
    WR_SESSION_LEDGER_SEQ, SEG_SESSION_BASE, SEG_SESSION_COUNT, SEG_SESSION_USED, WR_SESSION_STATUS_OVER_QUOTA,
    WR_SESSION_STATUS_FULL, WR_SESSION_STATUS_REFUSING, WR_SESSION_STATUS_POLICY] s3 (fun f s => s.set (f.elt n) 0)
  let s5 := s4.onRcd (fun r => { r with
    plans := sput r.plans n none none
    recordQ := sput r.recordQ n [] []
    held := ds.foldl (fun h d => sput h d [] []) (sput r.held (64 + n) [] [])
    stopped := ds.foldl (fun h d => sput h d 0 0) r.stopped
    creditNext := ds.foldl (fun h d => sput h d none none) (sput r.creditNext (64 + n) none none) })
  (s5.putSess n 0).creditRefresh

/-! ### The fault log (R448, R449) -/

/-- A fault-log entry, newest first and at most 64 of them (R449). -/
def State.logFault (s : State) (event page outcome detail : Nat) : State :=
  let e : LogEntry := ⟨s.stamp, eraOf s.now, event, page, outcome, detail⟩
  ((s.onFlt (fun f => { f with log := (e :: f.log).take 64 })).add SWT_FAULTS.one 1).raise 479

/-- Ticks in a second. -/
def secondTicks : Nat := 1000000 * ticksUs

/-- A masked fault of unit `unit`: logged at most once a second (R448). -/
def State.logMasked (s : State) (unit event page detail : Nat) : State :=
  let last := sget s.flt.maskedAt unit 0
  if last = 0 ∨ last - 1 + secondTicks ≤ s.now then
    (s.logFault event page 0 detail).onFlt (fun f => { f with maskedAt := sput f.maskedAt unit 0 (s.now + 1) })
  else s

/-! ### Fences (R52, R458, R459) -/

/-- FE_n_LEVEL (R141): the present levels of skein `n`'s channels; zero without power. -/
def State.feLevel (s : State) (n : Nat) : Nat := if s.skeinReady n then levelsAt (s.skein n).base (s.skein n).edges s.now else 0

/-- The page of a fenced unit: its block registers stand as software sees them, the shadows of SHD fields among them
(R52), and PAGE_STATUS.FENCED is set. -/
def State.fencePage (s : State) (page : Nat) : State :=
  let live := s.regs.filter (fun p => decide (keyPage p.1 = page) && !shadowKey p.1)
  let seen := (s.shadow.filter (fun p => decide (keyPage p.1 = page))).foldl (fun (m : Sparse Nat) p => sins p.1 p.2 m) live
  { (s.set (fencedOf page) 1) with frozen := sput s.frozen page [] seen }

/-- A boot-flash operation of the journal, which a brown-out episode does not defer (R441). -/
def FlashOp.ofJournal : FlashOp → Bool
  | .eraseJournal _ => true
  | _ => false

/-- The operation the flash works on: none while a commit suspends it, and in a brown-out episode only the journal's
(R424). -/
def State.flashNow (s : State) : Option FlashOp :=
  if s.svc.commit.isSome then none
  else if s.is PWR_STATUS_BO_WARN.one then s.svc.ops.find? (·.ofJournal) else s.svc.ops.head?

/-- The sectors that an operation erases (R423): the first, and how many. -/
def FlashOp.sectors : FlashOp → Nat × Nat
  | .eraseCopy k => (k, 1)
  | .eraseJournal k => (k, 1)
  | .eraseArea a _ => (400 + 16 * a, 16)
  | .fenceEntry | .repairEntry | .cfgRecord => (0, 0)

/-- An erase of a sector is commanded: its count advances (R97). -/
def State.sectorErased (s : State) (sector : Nat) : State := s.add (LIFE_SECTOR_ERASES.win sector) 1

/-- The erases of an operation are commanded. -/
def State.erasesCount (s : State) (op : FlashOp) : State :=
  forEach (upto op.sectors.2) s (fun i s => s.sectorErased (op.sectors.1 + i))

/-- The operation that the flash works on has begun (R424): its erases count at their commands (R97). -/
def State.flashBegins (s : State) : State :=
  match s.flashNow with
  | some op =>
    if s.svc.begun.contains op then s else (s.erasesCount op).onSvc (fun v => { v with begun := v.begun ++ [op] })
  | none => s

/-- What the flash does begins, and SVC_STATUS.FLASH_BUSY and SUSPENDED show it (R445). -/
def State.flashMarks (s0 : State) : State :=
  let s := s0.flashBegins
  let commits := s.svc.commit.isSome
  (s.set SVC_STATUS_FLASH_BUSY.one (flag (commits || !s.svc.ops.isEmpty))).set SVC_STATUS_SUSPENDED.one
    (flag (commits && !s.svc.ops.isEmpty))

/-- A boot-flash operation joins the queue. -/
def State.flashQueue (s : State) (op : FlashOp) : State := (s.onSvc (fun v => { v with ops := v.ops ++ [op] })).flashMarks

/-- A log entry waits to be written: its operation is queued, unless it waits already. -/
def State.entryQueue (s : State) (op : FlashOp) : State :=
  (if s.svc.ops.contains op then s else s.flashQueue op).set SWT_STATUS_RECORD_PENDING.one 1

/-- The fence record changes for the event `event` (0 for a host command): in effect at once, its entry due in
the boot flash (R458). -/
def State.fenceEntry (s : State) (event : Nat) (f : Fences → Fences) : State :=
  (s.onFlt (fun m => { m with
    fences := { f m.fences with lastEvent := event }
    wanted := { f m.wanted with lastEvent := event }
    entryDue := true })).entryQueue .fenceEntry

/-- Bit `i` set. -/
def withBit (n i : Nat) : Nat := setField n i 1 1

/-- A fence raises EV_470; the fault `event` that led to it is logged, a host command (0) is no fault. -/
def State.fenced (s : State) (event page detail : Nat) : State :=
  if event = 0 then s.raise 470 else (s.raise 470).logFault event page 2 detail

/-- A fault or a fence of a unit that is fenced already changes nothing and is logged (R460). DEDUCED, log entry 26. -/
def State.fencedTwice (s : State) (event page detail : Nat) : State :=
  s.logFault (if event = 0 then 470 else event) page 1 detail

/-- A skein's stream closes at the next boundary with CLOSE cause 0x3 (R257). -/
def State.dropSkein (s : State) (d : Nat) : State :=
  s.onRcd (fun r => { r with dropDue := sput r.dropDue d 0 1 })

/-- Skein `d` is fenced (R459): its stream closes, its unread units are closed out, its pages are fenced. -/
def State.fenceSkein (s : State) (d event detail : Nat) : State :=
  let s1 := if (s.skein (s.reducerOf d)).reducing && s.is (SKN_STATUS_IN_SESSION.of d) then s.dropSkein d else s
  let s2 := s1.fenceEntry event (fun f => { f with skeins := withBit f.skeins d })
  let s3 := s2.set (FE_LEVEL.of d) (s2.feLevel d)
  ((s3.fencePage (PageClass.page .skn d)).fencePage (PageClass.page .fe d)).fenced event (PageClass.page .skn d) detail

/-- Sequencer `n` is fenced (R459): it stops, and its session closes with CLOSE cause 0x4 and loses its plan. -/
def State.fenceSequencer (s : State) (n event detail : Nat) : State :=
  let s1 := if s.sessState n = 0 then s
    else if s.sessRuns n then (s.interrupt n 4).onRcd (fun r => { r with releaseDue := sput r.releaseDue n 0 1 })
    else (s.releasePlan n).raise 263
  let s2 := s1.fenceEntry event (fun f => { f with sequencers := withBit f.sequencers n })
  (s2.fencePage (PageClass.page .trg n)).fenced event (PageClass.page .trg n) detail

end Sys2Proof.Machine
end

