-- ==== Sys2Proof/Machine/Hbm.lean ====
section
/-! DEFINITION. The HBM3 stacks and their controller (chapter 8): the address map, acceptance and ordering, error
correction and scrubbing, failures and fences, training, self-refresh and park. Row activity, bus timing and the
placing of refresh windows are timing and stand outside the model; what a command finds in the stacks comes with
the command. -/

namespace Sys2Proof.Machine

/-! ### The map (R265 to R267, R283) -/

/-- Bytes of a pseudo-channel. -/
def pcBytes : Nat := 768 * 2 ^ 20

/-- The stack of pseudo-channel `pc`. -/
def stackOf (pc : Nat) : Nat := pc / 32

/-- PC_STATE.STATE of pseudo-channel `pc`. -/
def State.pcState (s : State) (pc : Nat) : Nat := s.get (HBM_PC_STATE_STATE.ofWin (stackOf pc) (pc % 32))

/-- Put PC_STATE.STATE of pseudo-channel `pc`. -/
def State.putPcState (s : State) (pc v : Nat) : State := s.set (HBM_PC_STATE_STATE.ofWin (stackOf pc) (pc % 32)) v

/-- Pseudo-channel `pc` is in service: trained and not fenced. -/
def State.inService (s : State) (pc : Nat) : Bool := decide (s.pcState pc < 3)

/-- The pseudo-channels in the order of the key 4q + s (R267). -/
def pcOrder : List Nat := (upto 128).map (fun k => 32 * (k % 4) + k / 4)

/-- The service list (R267). -/
def State.serviceList (s : State) : List Nat := pcOrder.filter s.inService

/-- The service list of the previous map (R283). -/
def State.prevList (s : State) : List Nat :=
  pcOrder.filter (fun pc => !bitOf (s.get (HBM_G_PREV_FENCED.elt (stackOf pc))) (pc % 32) && s.pcState pc != 4)

/-- GRAIN with the values above 8 that act as 8. -/
def State.grain (s : State) : Nat := min 8 (s.get HBM_G_CTRL_GRAIN.one)

/-- The map of R267 for a service list and a grain: pseudo-channel and byte within it. -/
def mapAddr (list : List Nat) (grain a : Nat) : Option (Nat × Nat) :=
  let g := 256 * 2 ^ grain
  let l := list.length
  if l = 0 ∨ l * pcBytes ≤ a then none
  else some (list.getD (a / g % l) 0, a / g / l * g + a % g)

/-- The HBM address of a byte of pseudo-channel `pc` under a list and a grain. -/
def unmapAddr (list : List Nat) (grain pc x : Nat) : Nat :=
  let g := 256 * 2 ^ grain
  (x / g * list.length + list.idxOf pc) * g + x % g

/-- The map in force. -/
def State.translate (s : State) (a : Nat) : Option (Nat × Nat) := mapAddr s.serviceList s.grain a

/-- The map of reads: the previous one while OLD_MAP_READ is 1 (R283). -/
def State.translateRead (s : State) (a : Nat) : Option (Nat × Nat) :=
  if s.is HBM_G_CTRL_OLD_MAP_READ.one && s.is HBM_G_STATUS_PREV_VALID.one then
    mapAddr s.prevList (s.get HBM_G_PREV_GRAIN.one) a
  else s.translate a

/-- L, the present capacity and the stacks' IN_SERVICE from the service list; ADM's slots follow L (R228). -/
def State.remap (s : State) : State :=
  let l := s.serviceList.length
  let s1 := (s.set HBM_G_STATUS_PCS.one l).set HBM_G_CAPACITY.one (l * pcBytes)
  let s2 := forEach (upto 4) s1 (fun k s => s.set (HBM_STATUS_IN_SERVICE.of k) ((upto 32).countP (fun q => s.inService (32 * k + q))))
  let total := 14400 * l / 128
  (s2.set ADM_SLOTS_TOTAL.one total).set ADM_SLOTS_WRITE.one (total - s2.get ADM_RESERVE.one)

/-! ### Memory -/

/-- The number of a byte in the memory: pseudo-channel, then byte. DEDUCED, log entry 75. -/
def memKey (pc x : Nat) : Nat := pc * pcBytes + x

/-- The write queue of a pseudo-channel. -/
def Hbm.writes (h : Hbm) (pc : Nat) : List HbmWrite := sget h.writeQ pc []

/-- The read queue of a pseudo-channel. -/
def Hbm.reads (h : Hbm) (pc : Nat) : List HbmRead := sget h.readQ pc []

/-- The byte that a read of `x` returns: the newest accepted write, else the memory (R271). -/
def Hbm.byteAt (h : Hbm) (pc x : Nat) : Byte :=
  (h.writes pc).foldl (fun b w => if w.x ≤ x ∧ x < w.x + 64 then w.data.getD (x - w.x) 0 else b)
    (sget h.mem (memKey pc x) 0)

/-- The 64 bytes of the burst at `x`. DEDUCED, log entry 70. -/
def Hbm.burstAt (h : Hbm) (pc x : Nat) : List Byte := (upto 64).map (fun i => h.byteAt pc (x + i))

/-- Put a list of bytes from `k` upward. -/
def putBytes (m : List Host.Cell) (k : Nat) : List Byte → List Host.Cell
  | [] => m
  | b :: bs => putBytes (sput m k 0 b) (k + 1) bs

/-- The number of a burst in the marks. -/
def markKey (pc x : Nat) : Nat := pc * (pcBytes / 64) + x / 64

/-- A write is issued to the stack: its bytes and its mark (R276). -/
def Hbm.commit (h : Hbm) (pc : Nat) (w : HbmWrite) : Hbm :=
  { h with
    mem := putBytes h.mem (memKey pc w.x) w.data
    marks := sput h.marks (markKey pc w.x) 0 w.mark }

/-- The mark of the burst at `x`, pending writes included. -/
def Hbm.markAt (h : Hbm) (pc x : Nat) : Nat :=
  (h.writes pc).foldl (fun m w => if w.x / 64 = x / 64 then w.mark else m)
    (sget h.marks (markKey pc x) 0)

/-- Two bytes of a pseudo-channel stand in one row of one bank: SID, row, bank and bank group (R267, R271). -/
def sameRow (x y : Nat) : Bool := x / 2 ^ 10 == y / 2 ^ 10

/-! ### Acceptance (R269 to R272) -/

/-- A request leaves a pseudo-channel's self-refresh behind, unless the HBM is stopped (R285, R287).
DEDUCED, log entry 68. -/
def State.wakePc (s : State) (pc : Nat) : State :=
  if s.pcState pc = 1 && !s.is HBM_G_STATUS_STOPPED.one then s.putPcState pc 0 else s

/-- A write queue has room (R269: 512 bursts). -/
def State.queueRoom (s : State) (pc : Nat) : Bool := decide ((s.hbm.writes pc).length < 512)

/-- The pseudo-channel's in-order mode as its queues give it (R271): it starts with a read that matches a pending
write and ends when no read does. -/
def Hbm.matched (h : Hbm) (pc : Nat) : Bool :=
  (h.reads pc).any (fun r => (h.writes pc).any (fun w => decide (w.seq < r.seq) && sameRow w.x r.x))

/-- Bring PC_STATE.IN_ORDER up to date, counting an entry into the mode. DEDUCED, log entry 70. -/
def State.orderMode (s : State) (pc : Nat) : State :=
  let k := stackOf pc
  let f := HBM_PC_STATE_IN_ORDER.ofWin k (pc % 32)
  if s.hbm.matched pc then (if s.is f then s else (s.set f 1).add (HBM_PC_IN_ORDER.ofWin k (pc % 32)) 1)
  else s.set f 0

/-- A read that completes with zeros, marked uncorrectable (R282). -/
def Hbm.zeroRead (h : Hbm) : Hbm := { h with delivered := toBytes 64 0, fault := 1 }

/-- A read request enters its pseudo-channel's read queue of 32 requests (R269, R271). On a fenced or powered-down unit
it completes at once with zeros, marked uncorrectable (R282, R287). DEDUCED, log entry 68. -/
def State.acceptRead (s : State) (a : Nat) : State :=
  match s.translateRead a with
  | some (pc, x) =>
    if s.pcState pc = 2 ∨ s.pcState pc = 3 then s.onHbm (·.zeroRead)
    else if s.inService pc && decide ((s.hbm.reads pc).length < 32) then
      ((s.wakePc pc).onHbm (fun h => { h with
        readQ := smod h.readQ pc [] (· ++ [⟨x / 64 * 64, h.accepted⟩]), accepted := h.accepted + 1 })).orderMode pc
    else s
  | none => s

/-- What a pseudo-channel issues next (R270 to R272): nothing, its oldest write, or its oldest read. -/
inductive HbmPick where
  | idle | write | read
  deriving DecidableEq, Repr

/-- The pick. In in-order mode the older of the two heads; otherwise reads first while the write queue holds 64
bursts or fewer, writes first above; a write waits for every earlier-accepted read of its row. -/
def State.hbmPick (s : State) (pc : Nat) : HbmPick :=
  match s.hbm.writes pc, s.hbm.reads pc with
  | [], [] => .idle
  | [], _ :: _ => .read
  | _ :: _, [] => .write
  | w :: ws, r :: rs =>
    if s.is (HBM_PC_STATE_IN_ORDER.ofWin (stackOf pc) (pc % 32)) then (if w.seq < r.seq then .write else .read)
    else if (w :: ws).length ≤ 64 then .read
    else if (r :: rs).any (fun q => decide (q.seq < w.seq) && sameRow q.x w.x) then .read
    else .write

/-- The read `r` as the stack answers it: the burst and its mark under the writes accepted before it (R271, R272).
DEDUCED, log entry 67. -/
def Hbm.taken (h : Hbm) (pc : Nat) (r : HbmRead) : HbmIssued :=
  let o := { h with writeQ := smod h.writeQ pc [] (fun ws => ws.filter (fun w => decide (w.seq < r.seq))) }
  ⟨r.x, o.burstAt pc r.x, o.markAt pc r.x⟩

/-- The oldest write of a pseudo-channel goes to the stack. -/
def Hbm.issueWrite (h : Hbm) (pc : Nat) : Hbm :=
  match h.writes pc with
  | w :: ws => { (h.commit pc w) with writeQ := sput h.writeQ pc [] ws }
  | [] => h

/-- The oldest read of a pseudo-channel goes to the stack. -/
def Hbm.issueRead (h : Hbm) (pc : Nat) : Hbm :=
  match h.reads pc with
  | r :: rs => { h with readQ := sput h.readQ pc [] rs, issued := smod h.issued pc [] (· ++ [h.taken pc r]) }
  | [] => h

/-- The oldest request of a pseudo-channel goes to the stack. -/
def Hbm.issueOldest (h : Hbm) (pc : Nat) : Hbm :=
  match h.writes pc, h.reads pc with
  | w :: _, r :: _ => if w.seq < r.seq then h.issueWrite pc else h.issueRead pc
  | _, [] => h.issueWrite pc
  | [], _ => h.issueRead pc

/-- Requests of a pseudo-channel go to the stack in the order they were accepted, at most `fuel` of them, while its queues
meet `more`. -/
def Hbm.issueWhile (more : Hbm → Bool) (pc : Nat) : Nat → Hbm → Hbm
  | 0, h => h
  | fuel + 1, h => if more h then Hbm.issueWhile more pc fuel (h.issueOldest pc) else h

/-- Requests that a pseudo-channel's queues hold. -/
def Hbm.queued (h : Hbm) (pc : Nat) : Nat := (h.writes pc).length + (h.reads pc).length

/-- Requests of a pseudo-channel go to the stack as `f` says: the bursts written count for the stack (R289), and the
in-order mode follows. -/
def State.issuing (s : State) (pc : Nat) (f : Hbm → Hbm) : State :=
  let s1 := s.onHbm f
  (s1.add (HBM_WRITTEN.of (stackOf pc)) (64 * ((s.hbm.writes pc).length - (s1.hbm.writes pc).length))).orderMode pc

/-- Issue the pick to the stack. -/
def State.hbmIssueNext (s : State) (pc : Nat) : State :=
  match s.hbmPick pc with
  | .idle => s
  | .write => s.issuing pc (·.issueWrite pc)
  | .read => s.issuing pc (·.issueRead pc)

/-- Every request of a pseudo-channel's queues is issued, in the order they were accepted, which keeps R272.
DEDUCED, log entry 36. -/
def State.issueAll (s : State) (pc : Nat) : State :=
  s.issuing pc (fun h => Hbm.issueWhile (fun _ => true) pc (h.queued pc) h)

/-- The controller issues requests until the write queue has room, at most `fuel` of them: it refuses no writer's burst
(R270). DEDUCED, log entry 36. -/
def State.makeRoom (pc : Nat) : Nat → State → State
  | 0, s => s
  | fuel + 1, s => if s.queueRoom pc then s else State.makeRoom pc fuel (s.hbmIssueNext pc)

/-- A burst is accepted into its pseudo-channel's write queue (R269), which the controller gives room (R270): its level and
its peak. -/
def State.acceptWrite (s0 : State) (pc : Nat) (w : HbmWrite) : State :=
  let s := State.makeRoom pc ((s0.hbm.reads pc).length + 1) s0
  let k := stackOf pc
  let s1 := (s.wakePc pc).onHbm (fun h => { h with
    writeQ := smod h.writeQ pc [] (· ++ [{ w with seq := h.accepted }]), accepted := h.accepted + 1 })
  let level := (s1.hbm.writes pc).length
  let peak := HBM_PC_QUEUE_PEAK.ofWin k (pc % 32)
  (s1.set peak (max (s1.get peak) level)).raiseIf (decide (448 < level)) (305 + 16 * k)

/-- Hand the burst at HBM address `a` to the controller. None where the address is outside the capacity. A powered-down
pseudo-channel keeps nothing of it (R287). DEDUCED, log entry 68. -/
def State.writeBurst (s : State) (a : Nat) (data : List Byte) (mark lane start : Nat) : Option State :=
  match s.translate a with
  | some (pc, x) =>
    some (if s.pcState pc = 2 then s
      else s.acceptWrite pc { x := x, data := data, mark := mark, lane := lane, start := start, seq := 0 })
  | none => none

/-! ### Errors (R275 to R277) -/

/-- A corrected error on an access or by the scrubber. -/
def State.countCe (s : State) (pc : Nat) : State :=
  let k := stackOf pc
  (((s.add (HBM_PC_CE.ofWin k (pc % 32)) 1).add (HBM_CE_TOTAL.of k) 1).raise (290 + 16 * k)).logMasked pc (290 + 16 * k)
    (PageClass.page .hbm k) pc

/-- The burst at `x` in memory takes the bytes `bytes` and reads as uncorrectable. -/
def Hbm.spoilMem (h : Hbm) (pc x : Nat) (bytes : List Byte) : Hbm :=
  { h with mem := putBytes h.mem (memKey pc (x / 64 * 64)) bytes, marks := sput h.marks (markKey pc x) 0 1 }

/-- The first listed write of the burst at `x` takes the bytes `bytes` and reads as uncorrectable. -/
def spoilWrite (x : Nat) (bytes : List Byte) : List HbmWrite → List HbmWrite
  | [] => []
  | w :: ws => if w.x / 64 = x / 64 then { w with data := bytes, mark := 1 } :: ws else w :: spoilWrite x bytes ws

/-- The burst at `x` as reads see it takes the bytes `bytes` and reads as uncorrectable: its newest pending write, else
memory. -/
def Hbm.spoil (h : Hbm) (pc x : Nat) (bytes : List Byte) : Hbm :=
  if (h.writes pc).any (fun w => w.x / 64 == x / 64) then
    { h with writeQ := smod h.writeQ pc [] (fun ws => (spoilWrite x bytes ws.reverse).reverse) }
  else h.spoilMem pc x bytes

/-- An uncorrectable error of the burst at `x` is counted, its address recorded (R275). -/
def State.noteUe (s : State) (pc x : Nat) (scrub : Bool) : State :=
  let k := stackOf pc
  let ev := (if scrub then 292 else 291) + 16 * k
  let s1 := ((s.add (HBM_PC_UE.ofWin k (pc % 32)) 1).add (HBM_UE_TOTAL.of k) 1).set (HBM_LAST_UE.of k)
    (unmapAddr s.serviceList s.grain pc x)
  (s1.raise ev).logFault ev (PageClass.page .hbm k) 1 pc

/-- An uncorrectable error of the burst at `x`, found on an access or by the scrubber: what its bits have become is
open, and it stays marked. -/
def State.countUe (s : State) (pc x : Nat) (scrub : Bool) : State :=
  let s1 := s.noteUe pc x scrub
  if s.hbm.markAt pc x = 1 then s1 else (s1.onHbm (·.spoil pc x (toBytes 64 s.free))).drew

/-- A poisoned burst has been read (R276). -/
def State.countPoison (s : State) (pc : Nat) : State :=
  let k := stackOf pc
  (s.add (HBM_PC_POISON.ofWin k (pc % 32)) 1).raise (300 + 16 * k)

/-- A write of the row of the byte `x` is pending. -/
def Hbm.rowPending (h : Hbm) (pc x : Nat) : Bool := (h.writes pc).any (fun w => sameRow w.x x)

/-- A read of the byte `x`, returned at once, whose row matches a pending write: the pseudo-channel turns in-order, which
counts one entry into the mode, and issues its requests in the order they were accepted up to that write (R271). -/
def State.orderEntry (s : State) (pc x : Nat) : State :=
  let k := stackOf pc
  let f := HBM_PC_STATE_IN_ORDER.ofWin k (pc % 32)
  if s.hbm.rowPending pc x then
    (if s.is f then s else (s.set f 1).add (HBM_PC_IN_ORDER.ofWin k (pc % 32)) 1).issuing pc (fun h =>
      Hbm.issueWhile (fun o => o.rowPending pc x) pc (h.queued pc) h)
  else s

/-- The ECC outcome of a read of the burst at `x` that is accepted and returned at once. -/
def State.eccRead (s0 : State) (pc x : Nat) (finding : EccFinding) : State :=
  let s := s0.orderEntry pc x
  if s.hbm.markAt pc x = 2 then s.countPoison pc
  else if s.hbm.markAt pc x = 1 then s.countUe pc x false
  else match finding with
    | .clean => s
    | .corrected => s.countCe pc
    | .uncorrectable => s.countUe pc x false

/-- The read `r` as issued finds its burst uncorrectable now. -/
def HbmIssued.lost (r : HbmIssued) (finding : EccFinding) : Bool := r.mark == 0 && finding == .uncorrectable

/-- Memory still holds what the issued read `r` read. DEDUCED, log entry 67. -/
def Hbm.unchanged (h : Hbm) (pc : Nat) (r : HbmIssued) : Bool :=
  let o := { h with writeQ := sput h.writeQ pc [] [] }
  o.burstAt pc r.x == r.data && o.markAt pc r.x == r.mark

/-- The ECC outcome of the issued read `r` as its data returns. DEDUCED, log entry 67. -/
def State.eccIssued (s : State) (pc : Nat) (r : HbmIssued) (finding : EccFinding) : State :=
  if r.mark = 2 then s.countPoison pc
  else if r.mark = 1 then s.noteUe pc r.x false
  else match finding with
    | .clean => s
    | .corrected => s.countCe pc
    | .uncorrectable =>
      ((s.noteUe pc r.x false).onHbm (fun h => if s.hbm.unchanged pc r then h.spoilMem pc r.x (toBytes 64 s.free) else h)).drew

/-! ### Failure and fencing (R279 to R283) -/

/-- A dropped burst of a lane (R282): the unit it belongs to moves from STORED to CLOSED. -/
def State.dropBurst (s : State) (w : HbmWrite) : State :=
  if w.lane = 0 ∨ 64 < w.lane then s
  else
    let d := w.lane - 1
    let i := s.get (SKN_STATUS_SESSION.of d)
    let hit : LaneUnit → Bool := fun u => decide (u.start ≤ w.start) && decide (w.start < u.start + ceilDiv u.words 8 * 64)
    let moved := (((sget s.rcd.held d []).filter hit).map (·.words)).sum
    let s1 := (s.set (ledgerFld i 8) (s.get (ledgerFld i 8) - moved)).ledger i 12 moved
    s1.onRcd (fun r => { r with held := smod r.held d [] (fun l => l.map (fun u => if hit u then { u with words := 0 } else u)) })

/-- A pseudo-channel has accepted a read that has not returned. -/
def Hbm.readsOut (h : Hbm) (pc : Nat) : Bool := !(h.reads pc).isEmpty || !(sget h.issued pc []).isEmpty

/-- The bursts of a failed pseudo-channel's write queue are dropped and reported to the writer, and its accepted reads
complete with zeros, marked uncorrectable (R282). -/
def State.dropQueue (s0 : State) (pc : Nat) : State :=
  let s := if s0.hbm.readsOut pc then s0.onHbm (·.zeroRead) else s0
  let ws := s.hbm.writes pc
  let lanes := ws.filter (fun w => w.lane != 0)
  let s1 := s.add (HBM_PC_DROPPED.ofWin (stackOf pc) (pc % 32)) ws.length
  let s2 := forEach lanes s1 (fun w s => s.dropBurst w)
  let s3 := s2.onHbm (fun h => { h with
    writeQ := sput h.writeQ pc [] [], readQ := sput h.readQ pc [] [], issued := sput h.issued pc [] [] })
  s3.raiseIf (!lanes.isEmpty) 279

/-- Keep the map in force as the previous one (R283); it is the map in force that a rebuild replaces. -/
def State.keepMap (s : State) : State :=
  let s1 := forEach (upto 4) s (fun k s => s.set (HBM_G_PREV_FENCED.elt k) (s.get (HBM_FENCED.of k)))
  ((s1.set HBM_G_PREV_GRAIN.one s.grain).set HBM_G_STATUS_PREV_VALID.one 1).add HBM_G_REBUILDS.one 1

/-- The pseudo-channels of a list leave service (R281, R234): their queues drop, the map is recomputed, every
running session is interrupted and the budget check is asked for. Every rebuild replaces the previous map (R283). -/
def State.removePcs (s : State) (pcs : List Nat) (event : Nat) : State :=
  let s1 := forEach pcs s.keepMap (fun pc s =>
    ((s.dropQueue pc).putPcState pc 3).setBit (HBM_FENCED.of (stackOf pc)) (pc % 32) true)
  let s3 := (s1.remap.interruptAll 4).onRcd (fun r => { r with rebuildAsk := true })
  (s3.set ADM_STATUS_REBUILDING.one 1).fenceEntry event (fun f =>
    { f with pcs := pcs.foldl withBit f.pcs })

/-- Fence a pseudo-channel for the event `event` (0: a host command). One already fenced stays as it is. -/
def State.fencePc (s : State) (pc event : Nat) : State :=
  if s.pcState pc = 3 then s.fencedTwice event (PageClass.page .hbm (stackOf pc)) pc
  else ((s.removePcs [pc] event).raise (293 + 16 * stackOf pc)).fenced event (PageClass.page .hbm (stackOf pc)) pc

/-- Fence a whole stack (R281): its 32 pseudo-channels, those fenced before included, and its page. DEDUCED, log entry
26. -/
def State.fenceStack (s : State) (k event : Nat) : State :=
  let pcs := (upto 32).map (fun q => 32 * k + q)
  let s1 := (s.removePcs pcs event).set (HBM_STATUS_STATE.of k) 5
  ((s1.fencePage (PageClass.page .hbm k)).raise (302 + 16 * k)).fenced event (PageClass.page .hbm k) (32 * k + 2 ^ 8)

/-- Ticks in a millisecond. -/
def ticksMs : Nat := 1000 * ticksUs

/-- Pseudo-channel `pc` is declared failed for the event `event` (R279): four within 1 ms fail the stack, whose
fence is one rebuild. DEDUCED, log entry 26. -/
def State.pcFails (s : State) (pc event : Nat) : State :=
  if s.pcState pc = 3 then s.fencedTwice event (PageClass.page .hbm (stackOf pc)) pc
  else
    let k := stackOf pc
    let recent := (sget s.hbm.failures k []).filter (fun t => decide (s.now < t + ticksMs)) ++ [s.now]
    let s1 := s.onHbm (fun h => { h with failures := sput h.failures k [] recent })
    if 4 ≤ recent.length then ((s1.raise (293 + 16 * k)).fenced event (PageClass.page .hbm k) pc).fenceStack k event
    else s1.fencePc pc event

/-! ### Training, self-refresh and park (R278, R284 to R288) -/

/-- Pseudo-channel `pc` loses its contents and is filled with zeros (R278). -/
def Hbm.zeroFill (h : Hbm) (pc : Nat) : Hbm :=
  { h with
    mem := h.mem.filter (fun c => decide (c.1 / pcBytes ≠ pc))
    marks := h.marks.filter (fun c => decide (c.1 / (pcBytes / 64) ≠ pc)) }

/-- Stack states follow their pseudo-channels: every stack not fenced takes `v`. -/
def State.stackStates (s : State) (v : Nat) : State :=
  forEach (upto 4) s (fun k s => if s.get (HBM_STATUS_STATE.of k) = 5 then s else s.set (HBM_STATUS_STATE.of k) v)

/-- Every pseudo-channel that serves enters self-refresh, its remaining requests issued (R284). -/
def State.enterSelfRefresh (s : State) : State :=
  let s1 := forEach s.serviceList s (fun pc s => if s.pcState pc = 2 then s else (s.issueAll pc).putPcState pc 1)
  let s2 := s1.set HBM_G_STATUS_READY.one 0
  if s.serviceList.isEmpty || s.is HBM_G_STATUS_PARKED.one then s2 else s2.stackStates 3

/-- Every pseudo-channel leaves self-refresh (R284, R288). -/
def State.leaveSelfRefresh (s : State) : State :=
  forEach s.serviceList s (fun pc s => if s.pcState pc = 1 then s.putPcState pc 0 else s)

/-- Pseudo-channels that fail their training are fenced with the stack's training event (R278). -/
def State.failTraining (s : State) (pcs : List Nat) : State :=
  forEach pcs s (fun pc s => (s.raise (303 + 16 * stackOf pc)).pcFails pc (303 + 16 * stackOf pc))

/-! ### The commands -/

/-- The first byte of a 64-byte burst. -/
def burstAligned (a : Nat) : Bool := a % 64 == 0

/-- HBM_BURST_ACCEPT: a burst of another writer enters its pseudo-channel's write queue and counts as accepted
(R269). Outside the capacity, or with the HBM not serving, none is accepted. -/
def execHbmBurstAccept (addr : BitVec 37) (data : List Byte) (poisoned : Bool) (s : State) :
    Host.Outcome State Fault Refusal :=
  if data.length = 64 && burstAligned addr.toNat then
    (if s.is HBM_G_STATUS_STOPPED.one then .next s
      else .next ((s.writeBurst addr.toNat data (2 * flag poisoned) 0 0).getD s))
  else .fault .illFormed

/-- HBM_READ_ACCEPT: a read request enters its pseudo-channel's read queue (R269), which turns in-order where the
read matches a pending write (R271). -/
def execHbmReadAccept (addr : BitVec 37) (s : State) : Host.Outcome State Fault Refusal :=
  .next (if s.is HBM_G_STATUS_STOPPED.one then s else s.acceptRead addr.toNat)

/-- HBM_ISSUE: the controller issues the next request of a pseudo-channel under R270 to R272. A command or address
parity error is reported, and four in a row are a failure (R279); the command is then issued again. -/
def execHbmIssue (pc : Fin 128) (parityError : Bool) (s : State) : Host.Outcome State Fault Refusal :=
  if s.pcState pc.val = 0 then
    (if parityError then
      let s1 := (s.onHbm (fun h => { h with parityRun := smod h.parityRun pc.val 0 (· + 1) })).raise (298 + 16 * stackOf pc.val)
      if 4 ≤ sget s1.hbm.parityRun pc.val 0 then .next (s1.pcFails pc.val (293 + 16 * stackOf pc.val)) else .next s1
    else .next ((s.onHbm (fun h => { h with parityRun := sput h.parityRun pc.val 0 0 })).hbmIssueNext pc.val))
  else .next s

/-- HBM_READ_DATA: the oldest issued read of a pseudo-channel returns its data, ECC-checked (R275, R276). -/
def execHbmReadData (pc : Fin 128) (finding : EccFinding) (s : State) : Host.Outcome State Fault Refusal :=
  match sget s.hbm.issued pc.val [] with
  | [] => .next s
  | r :: rs =>
    .next ((s.eccIssued pc.val r finding).onHbm (fun h => { h with
      issued := sput h.issued pc.val [] rs
      delivered := if r.lost finding then toBytes 64 s.free else r.data
      fault := flag (r.mark == 1 || r.lost finding) }))

/-- REFRESH_WINDOW: the pseudo-channel's per-bank refreshes are issued (R273); contents, queues and registers are
what they were. -/
def execRefreshWindow (_pc : Fin 128) (s : State) : Host.Outcome State Fault Refusal := .next s

/-- RETRAINING_PAUSE: the data eyes are re-centred (R274), and a lane that an earlier pause found below 8/64 UI moves to a
spare, which counts and is reported (R280). A margin below 8/64 UI is reported and leaves a lane to move at the next pause;
a lane beyond repair fails the pseudo-channel (R279). Without the training microengine the pause does nothing (R390). -/
def execRetrainingPause (pc : Fin 128) (margin : Byte) (lanes : LaneFinding) (s : State) :
    Host.Outcome State Fault Refusal :=
  let k := stackOf pc.val
  if s.pcState pc.val = 0 ∧ bitOf (s.get MBX_CPU_STATUS_ME_LOADED.one) 0 then
    let low := decide (margin.toNat < 8)
    let s1 := (s.set (HBM_PC_STATE_MARGIN.ofWin k (pc.val % 32)) margin.toNat).raiseIf low (295 + 16 * k)
    let s2 := s1.onHbm (fun h => { h with weak := sput h.weak pc.val 0 (flag low) })
    match lanes with
    | .centred => .next (if sget s.hbm.weak pc.val 0 = 0 then s2
        else (s2.add (HBM_PC_STATE_REPAIRED.ofWin k (pc.val % 32)) 1).raise (294 + 16 * k))
    | .beyondRepair => .next (s2.pcFails pc.val (293 + 16 * k))
  else .next s

/-- The scrubber's pass moves on from the last burst of pseudo-channel `pc` (R277). -/
def State.scrubEnd (s : State) (pc : Nat) : State :=
  let k := stackOf pc
  let s1 := s.onHbm (fun h => { h with scrubDone := sput h.scrubDone pc 0 1 })
  let done : Nat → Bool := fun p => sget s1.hbm.scrubDone p 0 == 1
  let mine := s1.serviceList.filter (fun p => stackOf p == k)
  let s2 := s1.raiseIf (mine.all done) (301 + 16 * k)
  if s1.serviceList.all done then (s2.onHbm (fun h => { h with scrubDone := [] })).add HBM_G_SCRUB_PASSES.one 1 else s2

/-- SCRUB_READ: the scrubber reads a burst (R277): a corrected error is counted and written back, an uncorrectable
one is counted and left. It skips pseudo-channels that do not serve, and halts as PARK is accepted (R287). -/
def execScrubRead (pc : Fin 128) (burst : BitVec 24) (finding : EccFinding) (s : State) :
    Host.Outcome State Fault Refusal :=
  if pcBytes / 64 ≤ burst.toNat then .fault .illFormed
  else if s.is HBM_G_CTRL_SCRUB_EN.one && s.pcState pc.val == 0 && !s.is HBM_G_STATUS_PARKED.one && s.get PWR_STATUS_STATE.one != 2 then
    let s1 := match finding with
      | .clean => s
      | .corrected => s.countCe pc.val
      | .uncorrectable => s.countUe pc.val (burst.toNat * 64) true
    .next (if burst.toNat = pcBytes / 64 - 1 then s1.scrubEnd pc.val else s1)
  else .next s

/-- STATUS_POLL: the periodic status read of a pseudo-channel (R279): one left unanswered is a read that timed
out, and a failure. -/
def execStatusPoll (pc : Fin 128) (answered : Bool) (s : State) : Host.Outcome State Fault Refusal :=
  if answered || !s.inService pc.val then .next s
  else .next ((s.raise (299 + 16 * stackOf pc.val)).pcFails pc.val (299 + 16 * stackOf pc.val))

/-- READ_TIMEOUT: a read has returned no data within 1 µs (R279). -/
def execReadTimeout (pc : Fin 128) (s : State) : Host.Outcome State Fault Refusal :=
  if s.inService pc.val then
    .next ((s.raise (299 + 16 * stackOf pc.val)).pcFails pc.val (299 + 16 * stackOf pc.val))
  else .next s

/-- STACK_CATASTROPHIC_TRIP: the stack has failed (R279) and is fenced. -/
def execStackCatastrophicTrip (k : Fin 4) (s : State) : Host.Outcome State Fault Refusal :=
  if s.get (HBM_STATUS_STATE.of k.val) = 5 then
    .next (s.fencedTwice (297 + 16 * k.val) (PageClass.page .hbm k.val) (32 * k.val + 2 ^ 8))
  else .next ((s.raise (297 + 16 * k.val)).fenceStack k.val (297 + 16 * k.val))

/-- STACK_TEMP_READ: the 1 ms temperature reading (R266): TEMP and HOT, and EV_(296 + 16s) on reaching 85 °C. -/
def execStackTempRead (k : Fin 4) (temp : Byte) (s : State) : Host.Outcome State Fault Refusal :=
  let hot := decide (85 ≤ signed 8 temp.toNat)
  let s1 := (s.set (HBM_STATUS_TEMP.of k.val) temp.toNat).set (HBM_STATUS_HOT.of k.val) (flag hot)
  .next (s1.raiseIf (hot && !s.is (HBM_STATUS_HOT.of k.val)) (296 + 16 * k.val))

/-- A write of `value` to HBM_G_FENCE that lands (R281). -/
def State.hbmFenceWrite (s : State) (value : Nat) : State :=
  let target := field value 0 7
  let s1 := (s.set HBM_G_FENCE_TARGET.one target).set HBM_G_FENCE_STACK.one (field value 8 1)
  if bitOf value 31 then
    (if bitOf value 8 then (if s1.get (HBM_STATUS_STATE.of (stackOf target)) = 5 then
          s1.fencedTwice 0 (PageClass.page .hbm (stackOf target)) (32 * stackOf target + 2 ^ 8)
        else s1.fenceStack (stackOf target) 0)
      else s1.fencePc target 0)
  else s1

/-- HBM_FENCE_GO: a host write to HBM_G_FENCE with GO at 1, posted and landed (R281, R56). -/
def execHbmFenceGo (value : DWord) (s : State) : Host.Outcome State Fault Refusal :=
  .next (s.gated (PageClass.page .hbmg 0) 0x058 (·.hbmFenceWrite (setField value.toNat 31 1 1)))

/-- HBM_TRAINING_DONE: start-up training ends (R278): every pseudo-channel not fenced serves, filled with zeros;
those that cannot be trained are fenced before READY becomes 1. Recovery mode trains none (R442). DEDUCED, log entry 69. -/
def execHbmTrainingDone (untrainable : List (Fin 128)) (s : State) : Host.Outcome State Fault Refusal :=
  if s.locked && !s.is SVC_STATUS_RECOVERY.one && (upto 128).any (fun pc => s.pcState pc == 4) then
    let s1 := forEach (upto 128) s (fun pc s =>
      if s.pcState pc = 4 then (s.putPcState pc 0).onHbm (·.zeroFill pc) else s)
    let s2 := (s1.stackStates 2).remap
    .next ((s2.failTraining (untrainable.map (·.val))).set HBM_G_STATUS_READY.one 1)
  else .next s

/-- HBM_IDLE_SELF_REFRESH: in PARK, a pseudo-channel in service without a request for 10 µs enters self-refresh
(R286). -/
def execHbmIdleSelfRefresh (pc : Fin 128) (s : State) : Host.Outcome State Fault Refusal :=
  if s.is HBM_G_STATUS_PARKED.one && s.get PWR_STATUS_STATE.one != 4 && s.pcState pc.val == 0 then
    .next ((s.issueAll pc.val).putPcState pc.val 1)
  else .next s

/-- The accepted reads of a pseudo-channel complete, with no finding beyond the marks they met. DEDUCED, log entry 61. -/
def State.readsComplete (s : State) (pc : Nat) : State :=
  (forEach (sget s.hbm.issued pc []) s (fun r s => (s.eccIssued pc r .clean).onHbm (fun h => { h with
    delivered := r.data, fault := flag (r.mark == 1) }))).onHbm (fun h => { h with issued := sput h.issued pc [] [] })

/-- PARK's four steps on the memory (R287): requests already accepted complete, retained pseudo-channels enter self-refresh,
the others power down and lose their contents. DEDUCED, log entry 61. -/
def State.hbmPark (s : State) : State :=
  let s1 := forEach s.serviceList s (fun pc s =>
    let a := (s.issueAll pc).readsComplete pc
    if bitOf (s.get (HBM_RETAIN.of (stackOf pc))) (pc % 32) then a.putPcState pc 1
    else (a.putPcState pc 2).onHbm (·.zeroFill pc))
  let s2 := ((s1.stackStates 4).set HBM_G_STATUS_PARKED.one 1).set HBM_G_STATUS_READY.one 0
  forEach (upto 4) s2 (fun k s => s.raise (304 + 16 * k))

/-- HBM_WAKE_READY: the last pseudo-channel is ready after WAKE (R288): READY returns to 1, and each stack's park
event is raised again. -/
def execHbmWakeReady (untrainable : List (Fin 128)) (s : State) : Host.Outcome State Fault Refusal :=
  if s.is HBM_G_STATUS_PARKED.one then
    let s1 := forEach (upto 128) s (fun pc s =>
      if s.pcState pc = 2 then (s.putPcState pc 0).onHbm (·.zeroFill pc)
      else if s.pcState pc = 1 then s.putPcState pc 0 else s)
    let s2 := (s1.stackStates 2).failTraining (untrainable.map (·.val))
    let s3 := (s2.set HBM_G_STATUS_PARKED.one 0).set HBM_G_STATUS_READY.one 1
    .next (forEach (upto 4) s3 (fun k s => s.raise (304 + 16 * k)))
  else .next s

/-- HBM_RELOCK_RETRAIN_DONE: after a relock every pseudo-channel has left self-refresh and had its retraining pause,
and READY returns to 1 (R284, R286). DEDUCED, log entry 69. -/
def execHbmRelockRetrainDone (s : State) : Host.Outcome State Fault Refusal :=
  if s.locked && !s.is HBM_G_STATUS_READY.one && !s.is HBM_G_STATUS_PARKED.one && !s.serviceList.isEmpty then
    .next ((s.leaveSelfRefresh.stackStates 2).set HBM_G_STATUS_READY.one 1)
  else .next s

end Sys2Proof.Machine
end

