-- ==== Sys2Proof/Machine/Record.lean ====
section
/-! DEFINITION. The record writer (R243 to R249), segments under WRAP (R252), the ledger's records (R254 to R257),
the end of a close (R226), and the checks on the write budget (R233, R234). -/

namespace Sys2Proof.Machine

/-! ### Lanes (R244 to R248) -/

/-- The session whose admitted plan holds skein `d` (R223). -/
def State.planOf (s : State) (d : Nat) : Option Nat := (upto 8).find? (fun i => s.sessState i != 0 && s.inPlan i d)

/-- The session a lane belongs to: lanes 0 to 63 are skeins', 64 to 71 the record lanes. -/
def State.laneOwner (s : State) (l : Nat) : Option Nat := if l < 64 then s.planOf l else some (l - 64)

/-- Region policy of session `i`: 0 WRAP, 1 HOLD, 2 LOG. -/
def State.policy (s : State) (i : Nat) : Nat := s.get (WR_SESSION_STATUS_POLICY.elt i)

/-- Free bytes of lane `l` under session `i`'s policy; none under WRAP (R246). -/
def State.laneRoom (s : State) (i l : Nat) : Option Nat :=
  match s.policy i with
  | 0 => none
  | 1 => some (s.get (WR_LANE_SIZE.win l) - s.get (WR_LANE_WRITTEN.win l))
  | _ => some (s.get (WR_LANE_SIZE.win l) - (s.get (WR_LANE_WRITTEN.win l) - s.get (WR_LANE_RELEASED.win l)))

/-- Words of skein `d`'s largest unit with its trailers, U of R231, in the admitted settings. -/
def State.unitWords (s : State) (d : Nat) : Nat :=
  match (s.skein d).admitted with
  | some g => g.unit
  | none => (s.gear d).unit

/-- The lane of skein `d` is full (R246). -/
def State.laneFull (s : State) (i d : Nat) : Bool :=
  match s.laneRoom i d with
  | none => false
  | some r => decide (r < 2 * ceilDiv (s.unitWords d) 8 * 64)

/-- Held bytes of session `i` (R248). -/
def State.heldBytes (s : State) (i : Nat) : Nat :=
  ((s.planSkeins i).map (fun d =>
    match s.policy i with
    | 0 => min (s.get (WR_LANE_WRITTEN.win d)) (s.get (WR_LANE_SIZE.win d))
    | 1 => s.get (WR_LANE_WRITTEN.win d)
    | _ => s.get (WR_LANE_WRITTEN.win d) - s.get (WR_LANE_RELEASED.win d))).sum

/-- WR_SESSION_n_HELD, and OVER_QUOTA as HELD passes the quota (R248). OVER_QUOTA clears at a boundary. -/
def State.quotaRefresh (s : State) (i : Nat) : State :=
  let held := s.heldBytes i
  let s1 := s.set (WR_SESSION_HELD.elt i) held
  if decide (s.get (WR_SESSION_QUOTA.elt i) < held) && !s.is (WR_SESSION_STATUS_OVER_QUOTA.elt i) then
    (s1.set (WR_SESSION_STATUS_OVER_QUOTA.elt i) 1).raise 274
  else s1

/-- WR_LANE_OLDEST of lane `l`. -/
def State.oldestRefresh (s : State) (l : Nat) : State := s.set (WR_LANE_OLDEST.win l) ((s.oldest l).getD 0)

/-- The burst that the last write of a WRAP lane replaced (R246): its words count as overwritten. -/
def State.overwrite (s : State) (i l : Nat) : State :=
  let size := s.get (WR_LANE_SIZE.win l)
  let written := s.get (WR_LANE_WRITTEN.win l)
  if s.policy i = 0 ∧ size < written then
    let x := written - 64 - size
    let s1 := s.raiseIf (written == size + 64) 280
    match sget s1.rcd.held l [] with
    | [] => s1
    | u :: us =>
      let last := match us with
        | v :: _ => v.start == x + 64
        | [] => false
      let s2 := s1.ledger i 16 (min 8 (u.words - 8 * ((x - u.start) / 64)))
      let s3 := s2.onRcd (fun r => { r with
        held := sput r.held l [] (if last then us else { u with opener := none } :: us) })
      (s3.oldestRefresh l).segmentsAge i
  else s

/-- One burst of at most eight words to lane `l` of session `i`, filled with PAD (R243, R245). None where the HBM
controller does not accept it. -/
def State.laneBurst (s : State) (i l : Nat) (words : List Stitch) (poisoned : Bool) : Option State :=
  let size := s.get (WR_LANE_SIZE.win l)
  let written := s.get (WR_LANE_WRITTEN.win l)
  if size = 0 then none
  else
    let data := (words ++ List.replicate (8 - words.length) padWord).flatMap (fun w => toBytes 8 w.toNat)
    match s.writeBurst (s.get (WR_LANE_BASE.win l) + written % size) data (2 * flag poisoned) (l + 1) written with
    | none => none
    | some s1 => some (((s1.add WR_PAD_WORDS.one (8 - words.length)).set (WR_LANE_WRITTEN.win l) (written + 64)).overwrite i l)

/-! ### A skein's slot (R240, R243, R246, R256) -/

/-- What becomes of a unit at its first read, in the order of R256. -/
def State.fateOf (s : State) (d : Nat) (q : QUnit) (bad : List Nat) : Fate :=
  if !q.isClose && (bad.contains 0 || bad.contains 1) then .lost
  else if !q.gateOn then .gated
  else if sget s.rcd.stopped d 0 = 1 then .refused
  else .stored

/-- The unit at the head of skein `d`'s queue leaves it (R236). -/
def State.popUnit (s : State) (d : Nat) : State :=
  ((s.onSkein d (fun k => { k with queue := k.queue.drop 1 })).add (SQ_UNITS_OUT.win d) 1).sqMark d

/-- Parity errors among the words just read are counted and logged (R240, R448). DEDUCED, log entry 78. -/
def State.poisonFound (s : State) (d n : Nat) : State :=
  if n = 0 then s else (s.add (SQ_PARITY.win d) n).logFault 276 (PageClass.page .wr 0) 1 d

/-- The whole unit is read and discarded: its words move to the ledger counter of its fate, and EV_276 reports one discarded
under R240 (R264). DEDUCED, log entry 78. -/
def State.discardUnit (s : State) (i d : Nat) (q : QUnit) (counter poison : Nat) : State :=
  let s1 := (s.poisonFound d poison).ledger i counter q.words.length
  ((s1.ledger i 14 (if counter = 11 then poison else 0)).raiseIf (counter == 11) 276).popUnit d

/-- A burst that the HBM controller failed (R25, R264): EV_279, an entry of the fault log, and the session's close. -/
def State.burstFails (s : State) (i lane : Nat) : State :=
  ((s.raise 279).logFault 279 (PageClass.page .wr 0) 1 lane).interrupt i 4

/-- Note a burst of `n` words of unit `q` in lane `d`'s list of held units. -/
def State.holdBurst (s : State) (d : Nat) (q : QUnit) (first : Bool) (start n : Nat) : State :=
  (s.onRcd (fun r => { r with held := smod r.held d [] (fun l =>
    if first then l ++ [⟨start, n, if q.isClose then none else some q.opener⟩]
    else match l.reverse with
      | u :: us => ({ u with words := u.words + n } :: us).reverse
      | [] => []) })).oldestRefresh d

/-- The burst of a stored unit: its next eight words, its QUALITY stitch at the end where a body word was poisoned,
and PAD (R240, R243). A burst the controller does not accept leaves everything as it was; one that fails closes
the session (R264). -/
def State.storeBurst (s : State) (i d : Nat) (q : QUnit) (places : List Nat) (failed : Bool) : State :=
  let chunk := q.words.take 8
  let left := q.words.drop 8
  let bad := places.filter (fun b => decide (b < chunk.length))
  let poison := q.poison + bad.length
  let first := match bad with
    | b :: _ => if q.poison = 0 then q.total - q.words.length + b else q.poison1
    | [] => q.poison1
  let quality := qualityWord 3 q.skein q.spare (min 4095 poison * 2 ^ 37 + first % 4096 * 2 ^ 25)
  let adds := left.isEmpty && decide (0 < poison) && decide (chunk.length < 8)
  let ends := left.isEmpty && (adds || poison == 0)
  let start := s.get (WR_LANE_WRITTEN.win d)
  if failed then s.burstFails i d
  else match s.laneBurst i d (chunk ++ (if adds then [quality] else [])) (!bad.isEmpty) with
    | none => s
    | some s1 =>
      let s2 := (((s1.poisonFound d bad.length).raiseIf (!bad.isEmpty) 276).ledger i 8 chunk.length).ledger i 14 bad.length
      let s3 := (s2.add WR_INSERTED.one (flag adds)).holdBurst d q (q.fate == .undecided) start chunk.length
      if ends then s3.popUnit d
      else (s3.onSkein d (fun k => { k with queue :=
        { q with words := left, fate := .stored, poison := poison, poison1 := first } :: k.queue.drop 1 })).sqMark d

/-- The places the writer names among the first `n` words it read, ascending. -/
def parityPlaces (n : Nat) (l : List (BitVec 12)) : List Nat :=
  if l.isEmpty then [] else (upto n).filter (fun b => l.any (fun x => x.toNat == b))

/-- The slot of skein `d`, with the words of its unit that have a parity error. -/
def State.skeinSlot (s : State) (d : Nat) (parity : List (BitVec 12)) (failed : Bool) : State :=
  match (s.skein d).queue with
  | [] => s
  | q :: _ =>
    let i := s.get (SKN_STATUS_SESSION.of d)
    let bad := parityPlaces q.words.length parity
    let fate := if q.fate = .undecided then s.fateOf d q bad else q.fate
    match fate with
    | .lost => s.discardUnit i d q 11 bad.length
    | .gated => s.discardUnit i d q 9 bad.length
    | .refused => s.discardUnit i d q 10 bad.length
    | _ =>
      let full := s.laneFull i d
      let s1 := s.storeBurst i d q bad failed
      let s2 := if s1.laneFull i d then
          (s1.raiseIf (!full) 275).set (WR_SESSION_STATUS_FULL.elt i) (flag (s1.policy i == 1))
        else s1
      s2.quotaRefresh i

/-! ### The record lane (R204, R249, R254) -/

/-- The record count of the segment that a stored TRIGGER stitch with OPENS opened (R251). -/
def State.noteOpen (s : State) (i at_ : Nat) (w : Stitch) : State :=
  let n := w.toNat
  if n / 2 ^ 60 = 8 ∧ bitOf n 49 then
    let x := field n 34 14
    if s.get (SEG_ENTRY_INFO_STATE.win x) ≠ 0 ∧ s.get (SEG_ENTRY_INFO_SESSION.win x) = i then s.set (SEG_ENTRY_REC.win x) at_
    else s
  else s

/-- The stitches of session `i`'s sequencer that wait for the record lane; a detached sequencer's do not (R217). -/
def State.seqWaiting (s : State) (i : Nat) : List Stitch := if s.detached i then [] else (s.seq i).stitches

/-- The record lane has no room for `bytes` more (R249). -/
def State.recordFull (s : State) (i bytes : Nat) : Bool :=
  match s.laneRoom i (64 + i) with
  | none => false
  | some r => decide (r < bytes)

/-- Session `i`'s record lane has gone from `s0` to `s` without room for another burst: EV_275 (R264). DEDUCED, log entry
107. -/
def State.recordFills (s0 : State) (i : Nat) (s : State) : State := s.raiseIf (!s0.recordFull i 64 && s.recordFull i 64) 275

/-- The record lane's slot: up to eight waiting stitches, TIME stitches first. -/
def State.recordSlot (s : State) (i : Nat) (failed : Bool) : State :=
  let times := (sget s.rcd.recordQ i []).take 8
  let seqs := (s.seqWaiting i).take (8 - times.length)
  let words := times ++ seqs
  let start := s.get (WR_LANE_WRITTEN.win (64 + i))
  let taken := (s.onRcd (fun r => { r with recordQ := smod r.recordQ i [] (·.drop times.length) })).onSeq i
    (fun q => { q with stitches := q.stitches.drop seqs.length })
  if words.isEmpty then s
  else if failed then s.burstFails i (64 + i)
  else if s.recordFull i 64 then taken.ledger i 15 seqs.length
  else match taken.laneBurst i (64 + i) words false with
    | none => s
    | some s1 =>
      let s2 := (s1.ledger i 15 (seqs.length * 2 ^ 32)).add WR_INSERTED.one words.length
      s.recordFills i (words.foldl (fun (a : State × Nat) w => (a.1.noteOpen i (start + 8 * a.2) w, a.2 + 1)) (s2, 0)).1

/-- Words of session `i` in its skein queues (R254, IN_QUEUE). -/
def State.inQueue (s : State) (i : Nat) : Nat := ((s.planSkeins i).map s.occupancy).sum

/-- Counter `w` of session `i`'s ledger as a record shows it. -/
def State.counter (s : State) (i w : Nat) : Nat := if w = 13 then s.inQueue i else s.get (ledgerFld i w)

/-- A LEDGER record of session `i` (R176, R254). -/
def State.ledgerRecord (s : State) (kind i epoch : Nat) : List Stitch :=
  ledgerWord kind i epoch :: (upto 16).map (fun w => BitVec.ofNat 64 (s.counter i (w + 1)))

/-- Write a LEDGER record, three bursts, to session `i`'s record lane; EV_278 where it finds no room (R249). -/
def State.storeRecord (s : State) (i : Nat) (record : List Stitch) : State :=
  if s.recordFull i 192 then s.raise 278
  else
    let burst : Option State → List Stitch → Option State := fun o ws => o.bind (fun s => s.laneBurst i (64 + i) ws false)
    match burst (burst (burst (some s) (record.take 8)) ((record.drop 8).take 8)) (record.drop 16) with
    | none => s.raise 278
    | some s1 => s.recordFills i ((s1.add WR_INSERTED.one record.length).add (WR_SESSION_LEDGER_SEQ.elt i) 1)

/-- Slots of the record lane until nothing waits, at most `fuel` of them. -/
def State.drainRecord : Nat → Nat → State → State
  | 0, _, s => s
  | fuel + 1, i, s =>
    if (sget s.rcd.recordQ i []).isEmpty && (s.seqWaiting i).isEmpty then s
    else State.drainRecord fuel i (s.recordSlot i false)

/-- The oldest LEDGER record of session `i` that is due is written; the TIME stitch it may follow goes first. -/
def State.ledgerDue (s : State) (i : Nat) : State :=
  match sget s.rcd.ledgerDue i [] with
  | [] => s
  | r :: rs =>
    let s1 := if (sget s.rcd.recordQ i []).isEmpty then s else State.drainRecord 10 i s
    (s1.storeRecord i r).onRcd (fun q => { q with ledgerDue := sput q.ledgerDue i [] rs })

/-! ### The writer's commands -/

/-- WRITER_SLOT: the writer serves the slot's owner, a skein or a record lane, or passes the slot to the read side
(R243). -/
def execWriterSlot (owner : Fin 72) (findings : SlotFindings) (s : State) : Host.Outcome State Fault Refusal :=
  let s1 := s.onRcd (fun r => { r with served := smod r.served owner.val 0 (· + 1) })
  .next (if s.get (WR_LANE_SIZE.win owner.val) = 0 then s
    else if owner.val < 64 then s1.skeinSlot owner.val findings.parity findings.failed
    else s1.recordSlot (owner.val - 64) findings.failed)

/-- LEDGER_RECORD_WRITE: session `n`'s LEDGER record that fell due at an epoch boundary is written (R249). -/
def execLedgerRecordWrite (n : Fin 8) (s : State) : Host.Outcome State Fault Refusal := .next (s.ledgerDue n.val)

/-- RELEASED of lane `l` of LOG session `i` advances to `v` (R247): openers before it are held no longer (R245, R248). -/
def State.releaseTo (s : State) (i l v : Nat) : State :=
  (((s.set (WR_LANE_RELEASED.win l) v).onRcd (fun r => { r with
    held := smod r.held l [] (fun us => us.map (fun u => if u.start < v then { u with opener := none } else u)) })).oldestRefresh
    l).quotaRefresh i

/-- A write of `value` to RELEASED of lane `l` (R247): from its present value up to WRITTEN under LOG; ignored under
WRAP and HOLD. -/
def State.releasedLoad (s : State) (l value : Nat) : State :=
  match s.laneOwner l with
  | none => s.accessErr (PageClass.page .wr 0) 0x320
  | some i =>
    if s.policy i ≠ 2 then s
    else if value < s.get (WR_LANE_RELEASED.win l) ∨ s.get (WR_LANE_WRITTEN.win l) < value then
      s.accessErr (PageClass.page .wr 0) 0x320
    else s.releaseTo i l value

/-- A write to the RELEASED count of the lane in WR_LANE_INDEX. -/
def State.releasedWrite (s : State) (value : Nat) : State := s.releasedLoad (s.get WR_LANE_INDEX.one) value

/-- RELEASED_WRITE: a host write to WR_LANE_RELEASED (R247). -/
def execReleasedWrite (value : BitVec 64) (s : State) : Host.Outcome State Fault Refusal :=
  .next (s.gated (PageClass.page .wr 0) 0x320 (·.releasedWrite value.toNat))

/-- Slots of skein `d` until its queue is empty, at most `fuel` of them. -/
def State.drainSkein : Nat → Nat → State → State
  | 0, _, s => s
  | fuel + 1, d, s => if (s.skein d).queue.isEmpty then s else State.drainSkein fuel d (s.skeinSlot d [] false)

/-- Slots that empty skein `d`'s queue. -/
def State.slotsFor (s : State) (d : Nat) : Nat := s.occupancy d / 8 + 2 * (s.skein d).queue.length

/-- The skeins of session `i` leave it. -/
def State.leaveSession (s : State) (i : Nat) : State :=
  (forEach (s.planSkeins i) s (fun d s => (s.set (SKN_STATUS_STATE.of d) 0).set (SKN_STATUS_IN_SESSION.of d) 0)).onRcd
    (fun r => { r with
      stopped := (s.planSkeins i).foldl (fun m d => sput m d 0 0) r.stopped
      ending := sput r.ending i none none })

/-- The final LEDGER record is written and the session ends (R226): BOUND_OFF after a bind-off, else INTERRUPTED. -/
def State.finishClose (s : State) (i : Nat) (e : CloseReq) : State :=
  let s1 := (s.storeRecord i (s.ledgerRecord 1 i (epochOf (e.due - 1)))).leaveSession i
  let s2 := (s1.set (WR_SESSION_STATUS_REFUSING.elt i) 0).putSess i (if e.clean then 5 else 6)
  if sget s2.rcd.releaseDue i 0 = 1 then
    ((s2.releasePlan i).raise 263).onRcd (fun r => { r with releaseDue := sput r.releaseDue i 0 0 })
  else s2

/-- What the writer still has of a closing session is stored, record-lane stitches last. -/
def State.drainSession (s : State) (i : Nat) : State :=
  let s1 := forEach (s.planSkeins i) s (fun d s => State.drainSkein (s.slotsFor d) d s)
  let s2 := State.drainRecord 24 i s1
  forEach (sget s2.rcd.ledgerDue i []) s2 (fun _ s => s.ledgerDue i)

/-- SESSION_CLOSE_DONE: the writer has drained the closing session's queues, writes the final LEDGER record, and the
session becomes BOUND_OFF or INTERRUPTED (R226). Queues that the HBM does not take from leave the close undone. -/
def execSessionCloseDone (n : Fin 8) (s : State) : Host.Outcome State Fault Refusal :=
  match s.ending n.val with
  | none => .next s
  | some e =>
    let s1 := s.drainSession n.val
    if (s1.planSkeins n.val).all (fun d => (s1.skein d).queue.isEmpty) then .next (s1.finishClose n.val e) else .next s1

/-! ### The write budget (R228, R233, R234) -/

/-- A write of `value` to ADM_RESERVE (R233). -/
def State.reserveWrite (s : State) (value : Nat) : State :=
  let q := field value 0 15
  if q < 500 ∨ s.get ADM_SLOTS_TOTAL.one < q + s.creditsUsed then (s.set ADM_STATUS_RESERVE_REFUSED.one 1).raise 260
  else (s.set ADM_RESERVE.one q).set ADM_SLOTS_WRITE.one (s.get ADM_SLOTS_TOTAL.one - q)

/-- ADM_RESERVE_WRITE: a host write to ADM_RESERVE, taken or refused (R233). -/
def execAdmReserveWrite (value : DWord) (s : State) : Host.Outcome State Fault Refusal :=
  .next (s.gated (PageClass.page .adm 0) 0x040 (·.reserveWrite value.toNat))

/-- The credits an owner holds or will hold at the boundary its accepted write waits for. -/
def State.creditsOf (s : State) (o : Nat) : Nat :=
  match sget s.rcd.creditNext o none with
  | some (_, v) => v
  | none => s.get (ADM_CREDIT_CREDITS.win o)

/-- The owners whose credits count: the skeins and record lanes of every admitted plan. -/
def State.creditOwners (s : State) : List Nat :=
  (upto 8).flatMap (fun i => if s.sessState i = 0 then [] else s.planSkeins i ++ [64 + i])

/-- A write of `value` to ADM_CREDIT for the owner in ADM_CREDIT_INDEX (R233). -/
def State.creditWrite (s : State) (value : Nat) : State :=
  let o := s.get ADM_CREDIT_INDEX.one
  let v := field value 0 16
  let sum := (s.creditOwners.map s.creditsOf).sum
  let live := match s.laneOwner o with
    | some i => s.sessRuns i
    | none => false
  let old := s.creditsOf o
  if !s.creditOwners.contains o || (live && decide (v < s.get (ADM_CREDIT_MIN.win o)))
      || (decide (old < v) && decide (s.get ADM_SLOTS_WRITE.one < sum - old + v)) then
    (s.set ADM_STATUS_CREDIT_REFUSED.one 1).raise 260
  else s.onRcd (fun r => { r with creditNext := sput r.creditNext o none (some (s.nextBoundary, v)) })

/-- ADM_CREDIT_WRITE: a host write to ADM_CREDIT, taken at the next boundary or refused (R233). -/
def execAdmCreditWrite (value : DWord) (s : State) : Host.Outcome State Fault Refusal :=
  .next (s.gated (PageClass.page .adm 0) 0x060 (·.creditWrite value.toNat))

/-- Credit writes that fall due at the boundary `b` take effect (R233). -/
def State.creditsAt (s : State) (b : Nat) : State :=
  let due := (upto 72).filter (fun o => match sget s.rcd.creditNext o none with
    | some (t, _) => decide (t ≤ b)
    | none => false)
  if due.isEmpty then s
  else
    (forEach due s (fun o s => (s.set (ADM_CREDIT_CREDITS.win o) (s.creditsOf o)).onRcd (fun r => { r with
      creditNext := sput r.creditNext o none none }))).creditRefresh

/-- A refused plan (R232). -/
def State.planRefused (s : State) (i cause item : Nat) : State :=
  (((s.set ADM_LAST_REFUSAL_CAUSE.one cause).set ADM_LAST_REFUSAL_SESSION.one i).set ADM_LAST_REFUSAL_ITEM.one
    (min item 65535)).raise 259

/-- Session `i`'s plan against the rebuilt budget (R234): the cause against it and its item, with `used` credits
admitted before it. -/
def State.recheck (s : State) (i used : Nat) : Nat × Nat :=
  let c := s.get (ADM_SESSION_CREDITS.elt i)
  let room := s.get ADM_SLOTS_WRITE.one
  if room < used + c then (4, used + c - room)
  else if s.get HBM_G_CAPACITY.one < s.get (WR_SESSION_REGION_BASE.elt i) + s.get (WR_SESSION_REGION_SIZE.elt i) then (6, 0)
  else (0, 0)

/-- Every admitted plan is checked in ascending session number, and one that no longer fits is released. -/
def State.recheckPlans (s : State) : State :=
  ((upto 8).foldl (fun (a : State × Nat) i =>
    if a.1.sessState i = 0 then a
    else
      let r := a.1.recheck i a.2
      if r.1 = 0 then (a.1, a.2 + a.1.get (ADM_SESSION_CREDITS.elt i))
      else (((a.1.planRefused i r.1 r.2).releasePlan i).raise 263, a.2)) (s, 0)).1

/-- BUDGET_REBUILD: once no session runs or closes, the budget check after a fence is carried out (R234). -/
def execBudgetRebuild (s : State) : Host.Outcome State Fault Refusal :=
  if s.rcd.rebuildAsk && !s.anyRuns then
    .next (((s.remap.recheckPlans.set ADM_STATUS_REBUILDING.one 0).onRcd (fun r => { r with rebuildAsk := false })).raise 262)
  else .next s

end Sys2Proof.Machine
end

