-- ==== Sys2Proof/Machine/Verdict.lean ====
section
/-! DEFINITION. The spare rotation, verdicts and take-over (R450 to R453): visits, the referee and the confirmation,
and what a confirmed skein fault leads to. -/

namespace Sys2Proof.Machine

/-- The rotation stops, raising EV_478 where it ran (R450, R480). -/
def State.holdRotation (s : State) : State :=
  if s.is SWT_STATUS_ROT_HELD.one then s else (s.set SWT_STATUS_ROT_HELD.one 1).raise 478

/-- The rotation runs again (EV_478). -/
def State.resumeRotation (s : State) : State :=
  if s.is SWT_STATUS_ROT_HELD.one then (s.set SWT_STATUS_ROT_HELD.one 0).raise 478 else s

/-- The spare is fenced. -/
def State.spareFenced (s : State) : Bool := s.is (fencedOf (PageClass.page .skn 64))

/-- The role MODE with TARGET and FE_64_SOURCE at skein `n`, and `n`'s thresholds, hysteresis and deskew, written to
the spare's shadow set (R450, R453). -/
def State.prepareSpare (s : State) (mode n : Nat) : State :=
  let s1 := forEach (upto 16) s (fun c s =>
    forEach [FE_THRESH_HYST, FE_THRESH_THRESH, FE_DESKEW] s (fun f s => s.setShadow (f.ofElt 64 c) (s.get (f.ofElt n c))))
  ((s1.setShadow (SKN_SPARE_MODE.of 64) mode).setShadow (SKN_SPARE_TARGET.of 64) n).setShadow (FE_SOURCE.of 64) n

/-- The spare's role ends at once. -/
def State.spareOff (s : State) : State :=
  let oldMode := s.spareMode
  let oldTarget := s.spareTarget
  let s1 := (s.set (SKN_SPARE_MODE.of 64) 0).setShadow (SKN_SPARE_MODE.of 64) 0
  s1.spareRole oldMode oldTarget (s1.get (FE_SOURCE.of 64)) s1.clk.frameAt

/-- The spare is fenced for `event` (R459): the rotation stops. A skein it stands in for has no reducer left and is
fenced with it. -/
def State.fenceSpare (s : State) (event detail : Nat) : State :=
  if s.spareFenced then s.fencedTwice event (PageClass.page .skn 64) detail
  else
    let s1 := if s.spareMode = 2 then s.fenceSkein s.spareTarget event detail
      else if s.spareMode = 1 then s.spareOff else s
    let s2 := (s1.fenceEntry event (fun f => { f with spare := true, replaced := none })).set SWT_STATUS_SPARE_STATE.one 5
    let s3 := (((s2.set SWT_STATUS_TARGET.one 0x7F).set (FE_LEVEL.of 64) (s2.feLevel 64)).fencePage (PageClass.page .skn 64)).fencePage (PageClass.page .fe 64)
    s3.holdRotation.fenced event (PageClass.page .skn 64) detail

/-- A confirmed fault of skein `n` (R453): the spare takes over at the first eligible boundary where it may, else
the skein is fenced. -/
def State.confirmFault (s : State) (n event detail : Nat) : State :=
  if n = 64 then s.fenceSpare event detail
  else if s.is (fencedOf (PageClass.page .skn n)) || s.replaced n then s.fencedTwice event (PageClass.page .skn n) detail
  else if s.is SWT_CTRL_AUTO_REPLACE.one && !s.spareFenced && s.skeinReady 64 && s.spareMode != 2
      && s.flt.takeOver.isNone then
    (s.onFlt (fun f => { f with takeOver := some (n, s.nextBoundary) })).logFault event (PageClass.page .skn n) 3 detail
  else s.fenceSkein n event detail

/-- The take-over of skein `n` falls due at the boundary `b`. -/
def State.takeOverDue (s : State) (n b : Nat) : Bool :=
  match s.flt.takeOver with
  | some (m, t) => m == n && decide (t ≤ b)
  | none => false

/-- The spare takes over at the boundary `b` (R453): mode 0b10, no CLOSE stitch, the replacement kept in the fence
record, the rotation stopped. -/
def State.takeOverAt (s : State) (b : Nat) : State :=
  match s.flt.takeOver with
  | none => s
  | some (n, t) =>
    if t ≤ b then
      let s1 := ((((s.abandonCheck 64).abandonCheck n).prepareSpare 2 n).stage 64).takeEffect 64 b
      let s2 := (s1.commitStatus 64 b false).fenceEntry 469 (fun f => { f with replaced := some n })
      let s3 := (s2.set SWT_STATUS_SPARE_STATE.one 4).set SWT_STATUS_TARGET.one n
      ((s3.onFlt (fun f => { f with takeOver := none, visitIdle := false })).raise 469).holdRotation
    else s

/-! ### The rotation (R450, R451) -/

/-- Skein `n` may be visited: neither fenced nor replaced, and powered. -/
def State.visitable (s : State) (n : Nat) : Bool :=
  !s.is (fencedOf (PageClass.page .skn n)) && !s.replaced n && s.skeinReady n

/-- The skeins in the order the rotation looks at them. -/
def State.rotationOrder (s : State) : List Nat := (upto 64).map (fun k => (s.flt.rotNext + k) % 64)

/-- The visit in progress ends and its result is kept. -/
def State.endVisit (s : State) (result : Nat) : State :=
  let t := s.get SWT_STATUS_TARGET.one
  if t < 64 then s.onFlt (fun f => { f with visits := sput f.visits t Visit.none { f.visit with result := result } }) else s

/-- The rotation moves on to its next skein: the spare's commit to shadow it is requested (R450). -/
def State.nextVisit (s : State) : State :=
  match s.rotationOrder.find? s.visitable with
  | none => s.holdRotation
  | some n =>
    let s1 := if n < s.flt.rotNext % 64 ∨ s.flt.rotNext = 64 then s.add SWT_ROT_PASSES.one 1 else s
    let s2 := ((s1.abandonCheck n).abandonCheck 64).prepareSpare 1 n
    let s4 := s2.commitStage 64 s.nextBoundary
    let s5 := ((s4.set SWT_STATUS_SPARE_STATE.one 1).set SWT_STATUS_TARGET.one n).set SWT_ROT_FRAMES.one 3125000
    let s6 := s5.onFlt (fun f => { f with
      visit := ⟨s.nextBoundary / frameTicks % 2 ^ 32, 0, 0⟩
      visitIdle := !s.is (SKN_STATUS_IN_SESSION.of n)
      rotNext := n + 1 })
    s6.resumeRotation

/-- The visit of an idle skein starts with the spare's commit: target and spare take edge encoding with RAW fallback
at gauge 0 and mask 0xFFFF (R451). -/
def State.visitSettings (s : State) : State :=
  if s.flt.visitIdle && s.spareMode == 1 then
    let n := s.spareTarget
    (((s.set (SKN_CTRL_ENC.of n) 1).set (SKN_CTRL_SUMMARY.of n) 0).set (SKN_CTRL_GAUGE.of n) 0).set (SKN_MASK.of n) 0xFFFF
  else s

/-- The visit in progress has frames left, and its skein may still be visited (R450). DEDUCED, log entry 7. -/
def State.visiting (s : State) : Bool :=
  s.get SWT_ROT_FRAMES.one != 0 && decide (s.get SWT_STATUS_TARGET.one < 64) && s.visitable (s.get SWT_STATUS_TARGET.one)

/-- ROTATION_VISIT: the spare rotation moves to its next skein once a visit's frames are over (R450); it rests while it is
disabled, while the spare replaces a skein or is fenced, and while a verdict runs. -/
def execRotationVisit (s : State) : Host.Outcome State Fault Refusal :=
  if !s.is SWT_CTRL_ROT_EN.one || s.spareMode == 2 || s.spareFenced then .next s.holdRotation
  else if s.get SWT_STATUS_SPARE_STATE.one = 2 ∨ s.get SWT_STATUS_SPARE_STATE.one = 3 then .next s
  else if s.visiting then .next s.resumeRotation
  else .next (s.endVisit 1).nextVisit

/-! ### The verdict (R452) -/

/-- A compared frame differed: EV_466 and a verdict, or, during the confirmation, the confirmed fault. -/
def State.mismatch (s : State) : State :=
  let t := s.spareTarget
  let s1 := (s.onFlt (fun f => { f with visit := { f.visit with differs := min 65535 (f.visit.differs + 1) } })).raise 466
  if s1.get SWT_STATUS_SPARE_STATE.one = 3 then
    ((s1.endVisit 3).raise 467).confirmFault t 467 (t + 2 ^ 8)
  else s1.set SWT_STATUS_SPARE_STATE.one 2

/-- REFEREE_DONE: the calibration pattern has judged the spare (R452): a faulty spare is fenced, a good one starts
the confirmation. -/
def execRefereeDone (spareFaulty : Bool) (s : State) : Host.Outcome State Fault Refusal :=
  if s.get SWT_STATUS_SPARE_STATE.one = 2 then
    let s1 := s.onFlt (fun f => { f with
      visits := sput f.visits 64 Visit.none ⟨f.visit.first, 0, if spareFaulty then 4 else 1⟩ })
    if spareFaulty then .next ((s1.endVisit 4).raise 468 |>.fenceSpare 468 (64 + 2 ^ 8))
    else .next (((s1.set SWT_STATUS_SPARE_STATE.one 3).set SWT_ROT_FRAMES.one 3125000).onSkein 64
      (fun k => { k with exclude := s.clk.frameAt + frameTicks }))
  else .next s

/-- CONFIRMATION_END: no second frame differed in the frames of the confirmation; the fault is logged as transient and the
rotation continues (R452). -/
def execConfirmationEnd (s : State) : Host.Outcome State Fault Refusal :=
  if s.get SWT_STATUS_SPARE_STATE.one = 3 ∧ s.get SWT_ROT_FRAMES.one = 0 then
    let t := s.spareTarget
    .next (((s.endVisit 2).logFault 466 (PageClass.page .skn t) 1 (t + 2 ^ 8)).set SWT_STATUS_SPARE_STATE.one 1
      |>.set SWT_ROT_FRAMES.one 0)
  else .next s

end Sys2Proof.Machine
end

