-- ==== Sys2Proof/Machine/Frame.lean ====
section
/-! DEFINITION. The timing-frame boundary (R8) in the order of its effects, and the state-frame boundary (R154). -/

namespace Sys2Proof.Machine

/-! ### Closes at a boundary -/

/-- The CLOSE cause with which session `i` closes at the boundary `b`, if it does (R226, R257). -/
def State.closingSession (s : State) (i b : Nat) : Option Nat :=
  match s.closeReq i with
  | some r => if r.due ≤ b then some r.cause else none
  | none => none

/-- The CLOSE cause with which skein `d`'s stream closes at the boundary `b`, if it does: its own fault, or its
session's close (R178). -/
def State.closingSkein (s : State) (d b : Nat) : Option Nat :=
  if !(s.skein (s.reducerOf d)).reducing || !s.is (SKN_STATUS_IN_SESSION.of d) then none
  else if sget s.rcd.dropDue d 0 = 1 then some 3
  else s.closingSession (s.get (SKN_STATUS_SESSION.of d)) b

/-- A commit of skein `d`, or a change of the reducer behind it, takes effect at the boundary `b`; a density interval
then ends (R153). -/
def State.commitsAt (s : State) (verdicts : List (Nat × Nat)) (d b : Nat) : Bool :=
  let spare := verdicts.contains (64, 0) &&
    (s.replaced d || (s.getStaged (SKN_SPARE_MODE.of 64) == 2 && s.getStaged (SKN_SPARE_TARGET.of 64) == d))
  verdicts.contains (d, 0) || s.takeOverDue d b || spare

/-- Every reducer at the boundary `b1` (R142): units, and last units and CLOSE stitches of streams that close; the state
clocks of the frame are judged first (R500). -/
def State.reduceAll (s0 : State) (verdicts : List (Nat × Nat)) (b0 b1 : Nat) (s : State) : State :=
  forEach (upto 65) s (fun n s =>
    let d := s0.streamOf n
    let closing := if s0.shadowing n then none else if d < 64 && s0.reducerOf d == n then s0.closingSkein d b1 else none
    let good := if closing = some 1 then [s0.clk.lastGood] else []
    let s1 := (s.sckJudge n).skeinBoundary n b0 b1 (s0.commitsAt verdicts d b1) closing good
    if closing.isSome && n == 64 then s1.onSkein d (fun k => { k with reducing := false, samples := [] }) else s1)

/-- After the CLOSE stitches: what a faulty skein, or a session that a fault closed, still had in its queues is
closed out (R257). -/
def State.closeOutFaults (s0 : State) (b : Nat) (s : State) : State :=
  (forEach (upto 64) s (fun d s => match s0.closingSkein d b with
    | some c => if c = 3 ∨ c = 4 then s.closeOut d else s
    | none => s)).onRcd (fun r => { r with dropDue := [] })

/-- Session `i` at its bind-off or fault boundary (R226, R201): its sequencer disarms or freezes, its segment is cut,
and the writer drains it. -/
def State.closeSession (s : State) (i b : Nat) : State :=
  match s.closeReq i with
  | none => s
  | some r =>
    if b < r.due then s
    else
      let s1 := if s.detached i then s
        else if r.clean then (if s.seqArmed i then (s.disarm i b true).raise (198 + 8 * i) else s.disarm i b true)
        else (s.freeze i b).segClose i b true
      let s2 := s1.set (WR_SESSION_STATUS_CLOSE_CAUSE.elt i) r.cause
      s2.onRcd (fun q => { q with
        closeReq := sput q.closeReq i none none
        ending := sput q.ending i none (some { r with due := b }) })

/-! ### Commits, cast-ons, storage -/

/-- The pending commit of skein `n` at the boundary `b`, judged to have the refusal cause `c`; a lane that its new
settings make full is reported (R246). -/
def State.commitAt (s : State) (n b c : Nat) (stateBoundary : Bool) : State :=
  let i := s.get (SKN_STATUS_SESSION.of n)
  let live := n < 64 && s.is (SKN_STATUS_IN_SESSION.of n)
  let s1 := s.settleCommit n b c stateBoundary
  s1.raiseIf (live && !s.laneFull i n && s1.laneFull i n) 275

/-- A payload of R468 with the counters of session `i` at zero. -/
def zeroSession (i : Nat) (p : List Byte) : List Byte := (upto p.length).map (fun k => if (k - 4) / 128 = i ∧ 4 ≤ k then 0 else p.getD k 0)

/-- Session `i` at its cast-on boundary `b` (R225): its skeins start, its ledger counts from zero, its TIME stitch
enters the record lane, and a pair's account of it starts anew (R26, R473). A visit of one of them as an idle skein ends
(R451). -/
def State.castAt (s : State) (i b : Nat) : State :=
  let due := sget s.rcd.castDue i 0
  if due = 0 ∨ b < due - 1 then s
  else
    let ds := (s.planSkeins i).filter (fun d => !s.is (fencedOf (PageClass.page .skn d)) || s.replaced d)
    let s1 := if s.flt.visitIdle && ds.contains (s.get SWT_STATUS_TARGET.one) then
        (((s.endVisit 1).spareOff.set SWT_STATUS_TARGET.one 0x7F).set SWT_ROT_FRAMES.one 0).onFlt
          (fun f => { f with visitIdle := false }) |>.nextVisit
      else s
    let s2 := (forEach (upto 16) s1 (fun w s => s.set (ledgerFld i (w + 1)) 0)).onTwn (fun t => { t with
      oldLead := zeroSession i t.oldLead, newLead := zeroSession i t.newLead })
    let s3 := forEach ds s2 (fun d s => s.castSkein i d b)
    let s4 := (s3.set (WR_SESSION_CAST_FRAME.elt i) (eraFrame b)).onRcd (fun r => { r with
      castDue := sput r.castDue i 0 0
      recordQ := smod r.recordQ i [] (· ++ [timeWord b]) })
    (s4.putSess i 3).admRefresh

/-- The storage decisions of session `i` for the frame that starts (R246, R248): those on its skeins while it runs or
closes, OVER_QUOTA as long as its plan is admitted. -/
def State.storageAt (s : State) (i : Nat) : State :=
  if s.sessState i = 0 then s
  else
    let ds := s.planSkeins i
    let held := s.heldBytes i
    let above := decide (s.get (WR_SESSION_QUOTA.elt i) < held)
    let full := s.policy i == 1 && ds.any (s.laneFull i)
    let s1 := ((s.set (WR_SESSION_HELD.elt i) held).raiseIf (above && !s.is (WR_SESSION_STATUS_OVER_QUOTA.elt i)) 274).set
      (WR_SESSION_STATUS_OVER_QUOTA.elt i) (flag above)
    if s.sessState i ≠ 3 ∧ s.sessState i ≠ 4 then s1 else
    let s2 := s1.set (WR_SESSION_STATUS_FULL.elt i) (flag full)
    let stop : Nat → Bool := fun d => above || full || (s.policy i == 2 && s.laneFull i d)
    (s2.set (WR_SESSION_STATUS_REFUSING.elt i) (flag (ds.any stop))).onRcd (fun r => { r with
      stopped := ds.foldl (fun m d => sput m d 0 (flag (stop d))) r.stopped })

/-! ### The spare at a boundary -/

/-- The comparator judges the spare's units that start at `t` (R133, R164): in shadow mode, past the first frame after a
switch, while both skeins produce, and not during a verdict's referee (R452). -/
def State.compares (s : State) (t : Nat) : Bool :=
  s.spareMode == 1 && decide ((s.skein 64).exclude ≤ t) && s.get SWT_STATUS_SPARE_STATE.one != 2
    && (s.flt.visitIdle || (s.skein s.spareTarget).reducing)

/-- The comparator takes the unit that the spare has produced at the boundary, if any (R164, R452): that of the timing
frame from `b`, or of the density interval that ends with it. -/
def State.compareAt (s0 : State) (b : Nat) (differs : Bool) (s : State) : State :=
  let g := s0.gear s0.spareTarget
  let start := if g.enc = 2 then (s0.skein 64).spanAt else b
  if s0.compares start && !g.stateMode && s.get (SKN_FRAMES.of 64) != s0.get (SKN_FRAMES.of 64) then
    (if differs then (s.compareFrame start true).mismatch else s.compareFrame start false)
  else s

/-- The visit's frames run down (R450), and the spare's receivers have settled (R133). -/
def State.spareTick (s : State) (b : Nat) : State :=
  let s2 := s.set SWT_ROT_FRAMES.one (s.get SWT_ROT_FRAMES.one - 1)
  if (s2.skein 64).settle ≠ 0 ∧ (s2.skein 64).settle ≤ b then
    (s2.set (FE_STATUS_SPARE_SETTLED.of 64) 1).onSkein 64 (fun k => { k with settle := 0 })
  else s2

/-- A parity error in a reducer's frame buffer is a confirmed fault of its skein (R448, R452). -/
def State.parityFault (s : State) (n : Nat) : State := (s.skeinCause n 2).confirmFault n (65 + 2 * n) (n + 2 * 2 ^ 8)

/-! ### The boundary -/

/-- The counters of a sequencer whose arm is staged take INC_SRC of the sample at `t`, the last before the boundary
(R191, EDGE); a replay has no sample before its first. -/
def State.notePrev (s : State) (t : Nat) : State :=
  forEach (upto 32) s (fun i s =>
    let j := s.get (TRG_CT_CTRL_OWNER.res i)
    if s.get (TRG_STATUS_STATE.of j) = 1 then
      let inc := !s.detached j && s.source t j (s.get (TRG_CT_CTRL_INC_SRC.res i))
      s.onPins (fun p => { p with ctPrev := sput p.ctPrev i 0 (flag inc) })
    else s)

/-- The timestamp reaches the boundary `b`; EV_013 where it passes 2^64 - 1 on the way (R87). -/
def State.reach (s : State) (b : Nat) : State :=
  ({ s with now := max s.now b }).raiseIf (decide (s.now / 2 ^ 64 < b / 2 ^ 64)) 13

/-- The frame boundary at `b1`: samples before it are evaluated; frames are reduced and streams close; credits,
commits, the take-over, cast-ons and arms take effect; storage is decided; the comparison and the findings of the frame
are judged. DEDUCED, log entry 8. -/
def State.boundary (s : State) (findings : FrameFindings) : State :=
  let b0 := s.clk.frameAt
  let b1 := b0 + frameTicks
  let s0 := (((s.evaluateTo b1).notePrev (b1 - 64)).reach b1).comparatorReads.creditsAt b1
  let verdicts := s0.commitVerdicts b1
  let s1 := s0.closeOutFaults b1 (s0.reduceAll verdicts b0 b1 s0)
  let s2 := forEach (upto 8) s1 (fun i s => s.closeSession i b1)
  let s3 := s0.compareAt b0 findings.differs s2
  let s4 := (forEach verdicts s3 (fun v s => s.commitAt v.1 b1 v.2 false)).visitSettings
  let s5 := forEach (upto 8) (s4.takeOverAt b1) (fun i s => s.castAt i b1)
  let s6 := forEach (upto 8) (s5.armsAt b1) (fun i s => s.storageAt i)
  let s7 := forEach (upto 65) s6 (fun n s => if findings.parity.any (fun x => x.val == n) then s.parityFault n else s)
  let s8 := forEach findings.recovered s7 (fun i s => s.setBit PWR_STATUS_RAILS_LOW.one i.val false)
  ((s8.spareTick b1).onPwr (fun p => { p with frameRails := s8.get PWR_STATUS_RAILS_LOW.one })).onClk
    (fun c => { c with frameAt := b1 })

/-- FRAME_BOUNDARY: the timing frame in progress ends (R8). On bypass there are no frame boundaries (R159).
DEDUCED, log entry 8. -/
def execFrameBoundary (findings : FrameFindings) (s : State) : Host.Outcome State Fault Refusal :=
  if s.sampling then .next (s.boundary findings) else .next s

/-! ### State frames (R154 to R156, R161) -/

/-- The commit of the stream that reducer `n` produces, at a state-frame boundary at `t` (R161): the spare that stands in
for a skein takes that skein's. -/
def State.stateCommit (s : State) (n t : Nat) : State :=
  let d := s.streamOf n
  if !s.shadowing n && d < 64 && s.is (SKN_COMMIT.of d) && !s.castStaged d then
    (s.commitAt d t (s.commitRefusal d) true).onSkein n (fun k => { k with edgeDue := s.commitRefusal d == 0 })
  else s

/-- A state frame of reducer `n` ends with its 4,096 samples (R154): the sequencers see its span first (R205), its unit
is produced and compared where the spare shadows (R164), and a pending commit takes effect (R161). -/
def State.stateFrameEnd (s0 : State) (n : Nat) (differs : Bool) : State :=
  let last := ((s0.skein n).samples.getLast?.map (·.t)).getD 0
  let s := (s0.evaluateTo (last / 64 * 64 + 64)).onSkein n (fun k => { k with
    suspect := maskOf 8 (fun i => bitOf k.suspect i || bitOf s0.pwr.frameRails i) })
  let d := s.streamOf n
  let g := s.gear d
  let k := s.skein n
  let u := s.stateUnit n g
  let s1 := (s.produce n u (s.trailers n [])).add (SKN_EDGES.of (if s.shadowing n then 64 else d)) k.carried
  let s2 := (s1.newSpan n g k.spanAt).onSkein n (fun k =>
    { (k.advance (k.covered + 1)) with samples := [], lastCount := k.samples.length, gateMid := false })
  let s3 := if s.shadowing n && s.compares u.start then
      (if differs then (s2.compareFrame u.start true).mismatch else s2.compareFrame u.start false)
    else s2
  s3.stateCommit n s3.now

/-- The selected edge of a state clock at `t` reaches reducer `n` (R136, R154, R161). DEDUCED, log entry 87. -/
def State.stateEdge (s : State) (n t : Nat) (fv : Bool) : State :=
  let d := s.streamOf n
  let inst := ((t : Int) + signed 14 (s.get (FE_STATE_DELAY.of d))).toNat
  let levels := levelsAt (s.skein n).base (s.skein n).edges inst
  let s0 := s.onSkein n (fun k => { k with
    lastState := k.lastState.filter (fun x => decide (s.clk.sampleAt < x.inst + 64)) ++ [⟨levels, t, inst, fv⟩] })
  if (s0.skein n).reducing && !s0.replaced n && decide ((s0.skein n).spanAt ≤ t) then
    let s1 := if 4096 ≤ (s0.skein n).samples.length then s0.stateFrameEnd n false else s0
    let fresh := (s1.skein n).samples.isEmpty
    let s2 := if fresh then s1.stateCommit n t else s1
    let s3 := if (s2.skein n).edgeDue then
        ((s2.set (SKN_COMMIT_STATUS_ERA.of d) (eraOf t)).set (SKN_COMMIT_STATUS_FRAME.of d) (eraFrame t % 2 ^ 46)).onSkein n
          (fun k => { k with edgeDue := false })
      else s2
    s3.takeSample n t inst fv
  else s0

/-- STATE_FRAME_BOUNDARY: a state frame of reducer `skein` is complete with 4,096 samples (R154): its unit is
emitted and a pending commit takes effect (R161). The spare's frame is compared with its target's (R164). -/
def execStateFrameBoundary (skein : Fin 65) (differs : Bool) (s : State) : Host.Outcome State Fault Refusal :=
  let n := skein.val
  if (s.skein n).reducing && !s.replaced n && (s.gear (s.streamOf n)).stateMode && decide ((s.skein n).samples.length = 4096) then
    .next (s.stateFrameEnd n differs)
  else .next s

end Sys2Proof.Machine
end

