-- ==== Sys2Proof/Machine/Clock.lean ====
section
/-! DEFINITION. The clock tree (R70 to R84): lock attempts, losses and the orderly close, the switch to bypass,
dividers and the quality report. -/

namespace Sys2Proof.Machine

/-! ### Lock attempts (R75 to R78) -/

/-- The reference runs at 100 MHz (REF_SEL high). -/
def State.ref100 (s : State) : Bool := s.is SYS_BOOT_REF_SEL.one

/-- Ticks in a reference period (R77). -/
def State.refPeriod (s : State) : Nat := if s.ref100 then 8192 else 81920

/-- The bandwidth at which the loop runs at the next lock (R78): the first lock uses the reset value, and 1 MHz and
3 MHz need the 100 MHz reference. -/
def State.nextBand (s : State) : Nat :=
  let b := if s.clk.firstLock then s.get CLK_CTRL_BANDWIDTH.one else 2
  if s.ref100 then b else min b 1

/-- A lock attempt starts at step 1 (R75); CAL_DONE is 0 from here on (R122). -/
def State.lockStart (s : State) : State :=
  let s1 := ((s.set CLK_STATUS_STEP.one 1).set CLK_STATUS_SEARCHING.one 1).set FEG_STATUS_CAL_DONE.one 0
  s1.onClk (fun c => { c with loopBand := s.nextBand })

/-- A lock attempt fails (R76). -/
def State.lockFail (s : State) : State := ((s.set CLK_STATUS_SEARCHING.one 0).set CLK_STATUS_STEP.one 7).raise 7

/-- Bypass runs on the fallback oscillator where REF_CLK is absent; the timestamp is then an estimate (R70, R86). -/
def State.bypassSource (s : State) (ref : Bool) : State :=
  let s1 := s.set CLK_STATUS_FALLBACK.one (flag (!ref))
  if !ref && s.is TIME_STATUS_VALID.one then s1.set TIME_STATUS_ESTIMATED.one 1 else s1

/-- A full calibration begins (R122). -/
def State.calStart (s : State) : State := (s.set FEG_STATUS_CAL_BUSY.one 1).set FEG_CAL_CMD.one 0

/-- The staged divider ratios take effect (R73); 0b11 acts as 0b00. -/
def State.dividers (s : State) : State :=
  if s.is CLK_DIV_APPLY.one then
    let s1 := (s.set CLK_DIV_ACTIVE_PCLK_DIV.one (s.get CLK_DIV_NEXT_PCLK_DIV.one)).set CLK_DIV_ACTIVE_CCLK_DIV.one
      (s.get CLK_DIV_NEXT_CCLK_DIV.one % 3)
    (s1.set CLK_DIV_APPLY.one 0).raise 10
  else s

/-- The next firing instant of a periodic alarm's series at or after `t` (R89). -/
def seriesNext (start step t : Nat) : Nat := if t ≤ start then start else start + ceilDiv (t - start) step * step

/-- Alarm instants that passed on bypass are not made up (R89). -/
def State.alarmsCatchUp (s : State) : State :=
  forEach (upto 4) s (fun n s => s.onClk (fun c => { c with alarms := smod c.alarms n Alarm.idle (fun a =>
    match a.next with
    | some t =>
      if s.now ≤ t then a
      else if s.get (TIME_ALARM_PERIOD.elt n) = 0 then { a with next := none }
      else { a with next := some (seriesNext t (s.get (TIME_ALARM_PERIOD.elt n) * frameTicks) s.now) }
    | none => a) }))

/-- Evaluation and frames restart at the present time after a lock or a sync edge. -/
def State.reframe (s : State) : State :=
  s.onClk (fun c => { c with
    frameAt := s.now / frameTicks * frameTicks
    sampleAt := ceilTo s.now 64
    epochAt := s.now / epochTicks * epochTicks })

/-- The HBM is stopped no longer (R286): it leaves self-refresh for its retraining pause, or trains at a first lock (R284,
R384); parked, it stays as it is until a WAKE (R288). DEDUCED, log entry 69. -/
def State.hbmRestarts (s : State) : State :=
  let s0 := s.set HBM_G_STATUS_STOPPED.one 0
  let s1 := if s.is HBM_G_STATUS_PARKED.one && s.get PWR_STATUS_STATE.one != 4 then s0 else s0.leaveSelfRefresh
  if s.serviceList.isEmpty then s1.stackStates 1 else s1

/-- When a snapshot asked for now is due: at the first frame boundary at least 2 FCLK cycles away, or on bypass at the
first multiple of 256 bypass FCLK cycles that is so (R16, R65). -/
def State.snapTime (s : State) : Nat := if s.onBypass then ceilTo (s.clk.bypassCycles + 2) 256 else s.nextBoundary

/-- The clocks have switched: what is asked for becomes due at the first eligible instant under them (R65). -/
def State.snapsAnew (s : State) : State :=
  s.onClk (fun c => { c with snaps := c.snaps.map (fun a => { a with due := s.snapTime }) })

/-- Step 6 ends (R75): the clocks move to the PLL. The first lock after PORST_N sets the timebase origin at the first
reference edge after step 4, which lies `sinceEdge` ticks back (R85); calibration starts, and staged dividers take
effect. -/
def State.lockDone (s : State) (micros sinceEdge : Nat) : State :=
  let s1 := (((s.hbmRestarts.set CLK_STATUS_STEP.one 0).set CLK_STATUS_SEARCHING.one 0).set CLK_STATUS_LOCKED.one 1).set
    CLK_STATUS_BYPASS.one 0
  let s2 := (((s1.set CLK_STATUS_FALLBACK.one 0).set CLK_STATUS_HOLDOVER.one 0).set CLK_LOCK_TIME.one micros).raise 6
  let s3 := if s2.is TIME_STATUS_VALID.one then s2 else
    ((s2.set TIME_STATUS_VALID.one 1).timeLoaded sinceEdge).onClk (fun c => { c with origin := 0 })
  let s4 := (s3.onClk (fun c => { c with firstLock := true })).reframe
  s4.snapsAnew.alarmsCatchUp.dividers.calStart

/-- LOCK_STEP_DONE: the step in progress ends and the next begins (R75); a reference out of tolerance or a search
without a band fails the lock (R76). BAND shows the band found even where the attempt fails later (DESIGN CHOICE, log
entry 96). DEDUCED, log entry 72. -/
def execLockStepDone (info : LockInfo) (s : State) : Host.Outcome State Fault Refusal :=
  let next : Nat → State → State := fun k s => s.set CLK_STATUS_STEP.one k
  match s.get CLK_STATUS_STEP.one with
  | 1 =>
    if info.inTolerance then
      .next (next 2 ((s.set CLK_STATUS_REF_OK.one 1).onClk (fun c => { c with refPresent := true, refSeen := true }) |>.bypassSource true))
    else .next ((s.set CLK_STATUS_REF_OK.one 0).bypassSource s.clk.refPresent).lockFail
  | 2 => if info.bandFound then .next (next 3 (s.set CLK_STATUS_BAND.one info.band.val)) else .next s.lockFail
  | 3 => .next (next 4 (s.set CLK_TUNE.one info.word.toNat))
  | 4 => .next (next 5 (s.set CLK_TUNE.one info.word.toNat))
  | 5 => .next (next 6 (s.set CLK_TUNE.one info.word.toNat))
  | 6 => .next (s.lockDone info.micros.toNat info.sinceEdge.toNat)
  | _ => .next s

/-- LOCK_STEP_TIMEOUT: a step exceeds its bound, or the phase error leaves the window while settling (R76). -/
def execLockStepTimeout (s : State) : Host.Outcome State Fault Refusal :=
  if s.is CLK_STATUS_SEARCHING.one then .next s.lockFail else .next s

/-- LOCK_RETRY: RETRY_MS after a failure a new attempt starts, with AUTO_RELOCK at 1 and RETRY_MS not 0 (R76). -/
def execLockRetry (s : State) : Host.Outcome State Fault Refusal :=
  if s.get CLK_STATUS_STEP.one = 7 ∧ s.is CLK_CTRL_AUTO_RELOCK.one ∧ s.get CLK_CTRL_RETRY_MS.one ≠ 0 then .next s.lockStart
  else .next s

/-! ### Losses and the orderly close (R79 to R84) -/

/-- The busy domains begin to close for a switch to bypass: the HBM stops serving, sessions close with CLOSE cause
0x1 (R81, R286). A RELOCK closes so too: LOCKED and ARMED read 0 at once, HOLDOVER stays 0, and the 10 µs of R82 do not
bound it (DESIGN CHOICE, log entry 95). -/
def State.closeStart (s : State) (why : CloseWhy) : State :=
  let s1 := ((s.set CLK_STATUS_LOCKED.one 0).set TIME_STATUS_ARMED.one 0).set HBM_G_STATUS_STOPPED.one 1
  (s1.onClk (fun c => { c with closing := some why })).interruptAll 1

/-- Holdover begins (R80): the held word, the last update known good, the closes. -/
def State.holdover (s : State) (why : CloseWhy) (age word : Nat) : State :=
  let s1 := ((s.set CLK_STATUS_HOLDOVER.one 1).set CLK_TUNE.one word).onClk (fun c => { c with
    lastGood := s.now - max age ticksUs })
  s1.closeStart why

/-- LOCK_LOSS: loss of lock is detected (R79): counted, logged and reported; holdover and the close begin. -/
def execLockLoss (age : DWord) (word : BitVec 24) (s : State) : Host.Outcome State Fault Refusal :=
  if s.locked then
    let s1 := ((s.addSat CLK_LOSS_COUNT_LOCK_LOSSES.one 1).set CLK_LAST_LOSS.one s.stamp).raise 4
    .next ((s1.logFault 4 (PageClass.page .clk 0) 1 0).holdover .lockLoss age.toNat word.toNat).twinFault
  else .next s

/-- A detected loss of reference is counted, logged and reported; SYNCED and ARMED clear, and a SYNC_OUT pulse of
mode 0b01 ends low (R79, R86, R91, R94). DEDUCED, log entry 72. -/
def State.refLost (s : State) : State :=
  let s1 := ((s.addSat CLK_LOSS_COUNT_REF_LOSSES.one 1).set CLK_LAST_LOSS.one s.stamp).raise 5
  let s2 := ((s1.set TIME_STATUS_SYNCED.one 0).set TIME_STATUS_ARMED.one 0).logFault 5 (PageClass.page .clk 0) 1 1
  s2.onClk (fun c => { c with
    syncPulse := if s.get TIME_SYNC_CTRL_OUT_MODE.one = 1 then none else c.syncPulse })

/-- REF_LOSS: REF_CLK edges are missing (R79). Once the reference has been qualified the loss is counted and
reported; holdover follows while locked, an attempt that has passed step 1 fails (R76), and bypass moves to the
fallback oscillator. In the close of a RELOCK a lock still follows (R78). -/
def execRefLoss (age : DWord) (word : BitVec 24) (s : State) : Host.Outcome State Fault Refusal :=
  if !s.clk.refPresent then .next s
  else
    let s1 := (s.set CLK_STATUS_REF_OK.one 0).onClk (fun c => { c with refPresent := false })
    let s2 := if s.clk.refSeen then s1.refLost else s1
    if s.locked then .next (s2.holdover .refLoss age.toNat word.toNat).twinFault
    else if s.clk.closing.isSome then
      .next (s2.onClk (fun c => { c with closing := c.closing.map (fun w => if w = .relock then .relock else .refLoss) }))
    else if s.is CLK_STATUS_SEARCHING.one && s.get CLK_STATUS_STEP.one != 1 then .next (s2.bypassSource false).lockFail
    else .next (s2.bypassSource false)

/-- REF_RETURN: REF_CLK is back (R84): bypass runs from it again, and after a loss of reference, which R79 counts only once
step 1 has qualified REF_CLK, a lock starts with AUTO_RELOCK at 1; a reference absent since start-up waits for its retry
(R76; DEDUCED, log entry 72). REF_OK reads 1 from here on, before step 1 judges the tolerance (DESIGN CHOICE, log entry 96). -/
def execRefReturn (s : State) : Host.Outcome State Fault Refusal :=
  if s.clk.refPresent then .next s
  else
    let s1 := (s.set CLK_STATUS_REF_OK.one 1).onClk (fun c => { c with
      refPresent := true
      closing := c.closing.map (fun w => if w = .refLoss then .lockLoss else w) })
    if s.onBypass then
      let s2 := s1.bypassSource true
      if s.clk.refSeen && s.is CLK_CTRL_AUTO_RELOCK.one && !s.is CLK_STATUS_SEARCHING.one then .next s2.lockStart else .next s2
    else .next s1

/-- The probe front end stops (R70): every channel's level stays, its pending edges are dropped. -/
def State.frontStops (s : State) : State :=
  forEach (upto 65) s (fun n s => s.onSkein n (fun k =>
    { k with base := k.present, edges := [], prev := [], arrived := [], holdTo := [], samples := [], lastState := [] }))

/-- The clocks switch to bypass (R83): EV_008; the twin link, the front end and
a calibration stop (R122); the next lock follows the
cause of the close (R78, R84). -/
def State.toBypass (s : State) : State :=
  let s1 := (((s.set CLK_STATUS_BYPASS.one 1).set CLK_STATUS_HOLDOVER.one 0).set CLK_STATUS_LOCKED.one 0).raise 8
  let s2 := ((s1.bypassSource s.clk.refPresent).frontStops.twinStops).set FEG_STATUS_CAL_BUSY.one 0
  let s3 := (s2.onClk (fun c => { c with closing := none, bypassCycles := 0 })).snapsAnew
  match s.clk.closing with
  | some .relock => s3.lockStart
  | some .lockLoss => if s.is CLK_CTRL_AUTO_RELOCK.one && s.clk.refPresent then s3.lockStart else s3
  | _ => s3

/-- SELF_REFRESH_ENTERED: with the writer drained and the sessions closed, every pseudo-channel has issued its writes
and entered self-refresh; the close is complete and the clocks switch to bypass (R81, R284). -/
def execSelfRefreshEntered (s : State) : Host.Outcome State Fault Refusal :=
  if s.clk.closing.isSome && !s.anyRuns then .next s.enterSelfRefresh.toBypass else .next s

/-- Every closing session ends now: what the writer has not stored is closed out (R82). -/
def State.closeNow (s : State) : State :=
  let s1 := if (upto 8).any (fun i => (s.closeReq i).isSome) then s.boundary ⟨[], false, []⟩ else s
  forEach (upto 8) s1 (fun i s => match s.ending i with
    | some e =>
      let a := forEach (s.planSkeins i) s (fun d s => s.closeOutAll d)
      (State.drainRecord 24 i a).finishClose i e
    | none => s)

/-- HOLDOVER_LIMIT: holdover has lasted 10 µs (R82): EV_009, the sessions end with exact ledgers, and the clocks switch
to bypass anyway. -/
def execHoldoverLimit (s : State) : Host.Outcome State Fault Refusal :=
  if s.inHoldover then .next ((s.raise 9).closeNow.enterSelfRefresh.toBypass) else .next s

/-! ### Host commands of the CLK page -/

/-- A write of 1 to CLK_CTRL.RELOCK (R78). -/
def State.relock (s : State) : State :=
  if s.anyRuns || s.inHoldover then s.accessErr (PageClass.page .clk 0) 0x040
  else if s.is CLK_STATUS_SEARCHING.one then s.lockStart
  else if s.locked then s.closeStart .relock
  else if s.onBypass then s.lockStart
  else s

/-- A write of `value` to CLK_CTRL (R102). -/
def State.clkCtrlWrite (s : State) (value : Nat) : State :=
  let s1 := ((s.set CLK_CTRL_RETRY_MS.one (field value 8 8)).set CLK_CTRL_AUTO_RELOCK.one (field value 4 1)).set
    CLK_CTRL_BANDWIDTH.one (field value 2 2)
  if bitOf value 0 then s1.relock else s1

/-- RELOCK: a host write to CLK_CTRL with RELOCK at 1 (R78). -/
def execRelock (value : DWord) (s : State) : Host.Outcome State Fault Refusal :=
  .next (s.gated (PageClass.page .clk 0) 0x040 (·.clkCtrlWrite (setField value.toNat 0 1 1)))

/-- DIV_APPLY: a host write of 1 to CLK_DIV_APPLY.APPLY (R73). -/
def execDivApply (s : State) : Host.Outcome State Fault Refusal :=
  .next (s.gated (PageClass.page .clk 0) 0x058 (·.set CLK_DIV_APPLY.one 1))

/-- DIVIDERS_APPLIED: the eligible reference edge comes and the staged ratios take effect (R73); on bypass they
wait for the PLL outputs. -/
def execDividersApplied (s : State) : Host.Outcome State Fault Refusal :=
  if s.onBypass then .next s else .next s.dividers

/-- CLK_QUALITY_ABOVE_LIMIT: the loop phase error over the last 1 ms (R102, R104): its RMS, its peak, which is no less,
and EV_011 above the limit. -/
def execClkQualityAboveLimit (rms : Byte) (s : State) (peak : Byte := 255) : Host.Outcome State Fault Refusal :=
  if peak.toNat < rms.toNat then .fault .illFormed
  else
    let s1 := (s.set CLK_QUALITY_PHASE_RMS.one rms.toNat).set CLK_QUALITY_PHASE_PEAK.one peak.toNat
    .next (s1.raiseIf (decide (s.get CLK_QUALITY_LIMIT_PHASE_RMS_LIMIT.one < rms.toNat)) 11)

end Sys2Proof.Machine
end

