-- ==== Sys2Proof/Machine/Time.lean ====
section
/-! DEFINITION. The timebase (R85 to R94): era, alarms, the calendar pair, SYNC_IN and SYNC_OUT. -/

namespace Sys2Proof.Machine

/-! ### Alarms (R89) -/

/-- Alarm `n`'s period in ticks. -/
def State.alarmStep (s : State) (n : Nat) : Nat := s.get (TIME_ALARM_PERIOD.elt n) * frameTicks

/-- A fresh enable of alarm `n`: a compare value that lies behind the timestamp fires a one-shot alarm at the next
sample and a periodic one at the next instant of its series. DEDUCED, log entry 19. -/
def State.alarmBuild (s : State) (n : Nat) : State :=
  let start := s.now / 2 ^ 64 * 2 ^ 64 + s.get (TIME_ALARM.elt n) * 64
  let soon := max s.clk.sampleAt (ceilTo s.now 64)
  let next := if s.alarmStep n = 0 then max start soon else seriesNext start (s.alarmStep n) soon
  let a : Alarm := ⟨if s.is (TIME_ALARM_CTRL.elt n) then some next else none, false, false⟩
  s.onClk (fun c => { c with alarms := sput c.alarms n Alarm.idle a })

/-- The alarms after a sync edge: a one-shot alarm that has fired for its enable stays so. -/
def State.alarmsRebuild (s : State) : State :=
  forEach (upto 4) s (fun n s =>
    if s.alarmStep n ≠ 0 ∨ !(sget s.clk.alarms n Alarm.idle).fired then s.alarmBuild n else s)

/-- ALARM_FIRE: alarm `n` fires at its instant in the present frame: evaluation reaches that sample, the pulse stands
at it, and EV_(14 + n) is raised; a series goes on. It does not fire on bypass, and an instant of a later frame has
not come. -/
def execAlarmFire (n : Fin 4) (s : State) : Host.Outcome State Fault Refusal :=
  match (sget s.clk.alarms n.val Alarm.idle).next with
  | none => .next s
  | some t =>
    if s.sampling && s.is (TIME_ALARM_CTRL.elt n.val) && decide (t < s.clk.frameAt + frameTicks) then
      let s1 := s.evaluateTo t
      let a : Alarm := ⟨if s.alarmStep n.val = 0 then none else some (t + s.alarmStep n.val), true, true⟩
      let s2 := ({ s1 with now := max s1.now t }).onClk (fun c => { c with alarms := sput c.alarms n.val Alarm.idle a })
      .next (s2.raise (14 + n.val))
    else .next s

/-! ### Era and calendar (R87, R90) -/

/-- ERA_ADVANCE: the timestamp passes 2^64 - 1 (R87). Frames that reducers still have to end come first. -/
def execEraAdvance (s : State) : Host.Outcome State Fault Refusal :=
  let wrap := (s.now / 2 ^ 64 + 1) * 2 ^ 64
  let last := s.clk.frameAt + frameTicks == wrap
  if s.is TIME_STATUS_VALID.one && (last || !(upto 65).any (fun n => (s.skein n).reducing)) then
    let s1 := s.onClk (fun c => { c with
      frameAt := wrap - frameTicks
      sampleAt := max c.sampleAt (wrap - frameTicks) })
    .next (s1.reach wrap)
  else .next s

/-- CAL_SECOND: the calendar advances, and TIME_CAL_SECONDS and TIME_CAL_STAMP take the new pair, the stamp at the
nearest FCLK edge (R90, R96). -/
def execCalSecond (s : State) : Host.Outcome State Fault Refusal :=
  let s1 := s.add LIFE_CAL_SECONDS.one 1
  .next ((s1.set TIME_CAL_SECONDS.one (s1.get LIFE_CAL_SECONDS.one)).set TIME_CAL_STAMP.one
    ((s.now + s.fclk / 2) / s.fclk * s.fclk))

/-! ### SYNC (R91 to R94) -/

/-- The first reference edge at or after `t`: edges stand whole periods from the origin (R77). -/
def State.refEdge (s : State) (t : Nat) : Nat := s.clk.origin + ceilTo (t - s.clk.origin) s.refPeriod

/-- SYNC_OUT is high. -/
def State.syncOut (s : State) : Bool :=
  match s.clk.syncPulse with
  | some (a, b) => decide (a ≤ s.now) && decide (s.now < b)
  | none => false

/-- A write of `value` to TIME_SYNC_CTRL (R91, R94). A second OUT_PULSE takes the place of one in progress, which ends
(DESIGN CHOICE, log entry 97). -/
def State.syncCtrlWrite (s : State) (value : Nat) : State :=
  let mode := field value 2 2
  let s1 := (s.set TIME_SYNC_CTRL_IN_EDGE.one (field value 4 1)).set TIME_SYNC_CTRL_OUT_MODE.one mode
  let s2 := if mode = s.get TIME_SYNC_CTRL_OUT_MODE.one then s1 else s1.onClk (fun c => { c with syncPulse := none })
  let from_ := s.refEdge (s.now + ticks100ns)
  let s3 := if bitOf value 1 && mode == 1 && s.is CLK_STATUS_REF_OK.one then
      s2.onClk (fun c => { c with syncPulse := some (from_, from_ + 4 * s.refPeriod) })
    else s2
  if bitOf value 5 then s3.set TIME_STATUS_ARMED.one 0
  else if bitOf value 0 then
    (if s.anyRuns || !s.locked then s3.set TIME_STATUS_ARM_REFUSED.one 1 else s3.set TIME_STATUS_ARMED.one 1)
  else s3

/-- SYNC_ARM: a host write to TIME_SYNC_CTRL with ARM at 1 (R91). -/
def execSyncArm (value : DWord) (s : State) : Host.Outcome State Fault Refusal :=
  .next (s.gated (PageClass.page .time 0) 0x050 (·.syncCtrlWrite (setField value.toNat 0 1 1)))

/-- SYNC_DISARM: a host write to TIME_SYNC_CTRL with DISARM at 1 (R91). -/
def execSyncDisarm (value : DWord) (s : State) : Host.Outcome State Fault Refusal :=
  .next (s.gated (PageClass.page .time 0) 0x050 (·.syncCtrlWrite (setField value.toNat 5 1 1)))

/-- SYNC_OUT_PULSE: a host write to TIME_SYNC_CTRL with OUT_PULSE at 1 (R94). -/
def execSyncOutPulse (value : DWord) (s : State) : Host.Outcome State Fault Refusal :=
  .next (s.gated (PageClass.page .time 0) 0x050 (·.syncCtrlWrite (setField value.toNat 1 1 1)))

/-- A time held by the machine follows the timestamp when a sync edge moves it from `old` to `new`. -/
def moved (old new t : Nat) : Nat := ((t : Int) - old + new).toNat

/-- Every time the machine holds follows the load: what was due stays as far ahead, boundaries are found anew, and
channels start from their present levels. -/
def State.retime (s : State) (old new : Nat) : State :=
  let mv := moved old new
  let move1 : Sparse Nat → Sparse Nat := fun m => m.foldl (fun a p => sput a p.1 0 (mv (p.2 - 1) + 1)) []
  let b := s.nextBoundary
  let s1 := forEach (upto 65) s.frontStops (fun n s => s.onSkein n (fun k => { k with
    commitDue := b, spanAt := new, covered := new, overLow := move1 k.overLow
    settle := if k.settle = 0 then 0 else b }))
  let s2 := forEach (upto 8) s1 (fun n s => s.onSeq n (fun q => { q with armDue := b, forceAt := q.forceAt.map mv }))
  let s3 := s2.onPins (fun p => { p with
    inputs := p.inputs.map (fun c => { c with at_ := ceilTo (mv c.at_) 64 })
    holdFrom := p.holdFrom.foldl (fun a q => sput a q.1 0 (mv q.2)) []
    lockout := move1 p.lockout
    contrib := p.contrib.foldl (fun a q => sput a q.1 .clear (match q.2 with
      | .pulse t => .pulse (mv t)
      | c => c)) [] })
  let s4 := s3.onRcd (fun r => { r with creditNext := r.creditNext.foldl (fun a q => sput a q.1 none (q.2.map (fun c => (b, c.2)))) [] })
  let s5 := s4.onFlt (fun f => { f with takeOver := f.takeOver.map (fun c => (c.1, b)), maskedAt := move1 f.maskedAt })
  s5.onClk (fun c => { c with
    snaps := c.snaps.map (fun a => { a with due := b }), sck := [], origin := new
    syncPulse := c.syncPulse.map (fun p => (mv p.1, mv p.2)) })

/-- A sync edge: armed, that reference edge becomes the timebase origin (R93); unarmed, it sets UNARMED_SYNC alone
(R91). -/
def State.syncEdge (s : State) : State :=
  if s.is TIME_STATUS_ARMED.one then
    let t := s.refEdge s.now
    let new := s.get TIME_SYNC_ERA.one * 2 ^ 64 + s.get TIME_SYNC_VALUE.one * 1024
    let s1 := ((s.set TIME_SYNC_STAMP.one t).add TIME_SYNC_COUNT.one 1).set TIME_STATUS_ARMED.one 0
    let s2 := ((s1.set TIME_STATUS_SYNCED.one 1).set TIME_STATUS_ESTIMATED.one 0).raise 12
    ((s2.timeLoaded new).reframe.retime t new).alarmsRebuild
  else s.set TIME_STATUS_UNARMED_SYNC.one 1

/-- SYNC_IN_PULSE: SYNC_IN samples at `level` at the next reference edge; active after inactive, as IN_EDGE chooses, is
the sync edge (R92). Without REF_CLK nothing is sampled. -/
def execSyncInPulse (s : State) (level : Bool := true) : Host.Outcome State Fault Refusal :=
  let active : Bool → Bool := fun v => v != s.is TIME_SYNC_CTRL_IN_EDGE.one
  if !s.clk.refPresent then .next s
  else
    let s1 := s.onClk (fun c => { c with syncIn := level })
    .next (if active level && !active s.clk.syncIn then s1.syncEdge else s1)

end Sys2Proof.Machine
end

