-- ==== Sys2Proof/Machine/Life.lean ====
section
/-! DEFINITION. The lifetime domain (R95 to R101): calendar, wear counters, thermal cycles, the journal (R441), and
what the boot flash's erases and failures count (R97, R424). -/

namespace Sys2Proof.Machine

/-! ### Calendar and wear counters (R96, R97) -/

/-- The calendar is loaded (R96). -/
def State.calendarLoad (s : State) (value : Nat) : State :=
  (s.set LIFE_CAL_SECONDS.one value).set LIFE_STATUS_CAL_VALID.one 1

/-- A host write to a counter of the LIFE page counts in LIFE_EDITS (R97). -/
def State.lifeEdit (s : State) : State := s.add LIFE_EDITS.one 1

/-- CALENDAR_WRITE: a host write to LIFE_CAL_SECONDS, posted and landed (R96). -/
def execCalendarWrite (value : DWord) (s : State) : Host.Outcome State Fault Refusal :=
  .next (s.gated (PageClass.page .life 0) 0x040 (fun s => (s.calendarLoad value.toNat).lifeEdit))

/-- The cell of a wear counter; none for an over-range index above 64 (R107). -/
def State.wearCell (s : State) : WearCounter → Option Fld
  | .powerOnSeconds => some LIFE_POWER_ON_SECONDS.one
  | .thermalCycles => some LIFE_THERMAL_CYCLES.one
  | .brownouts => some LIFE_BROWNOUTS.one
  | .activations => some LIFE_ACTIVATIONS.one
  | .hbmMib k => some (LIFE_HBM_MIB.elt k.val)
  | .bandSeconds b => some (LIFE_BAND_SECONDS.elt b.val)
  | .sectorErases => some (LIFE_SECTOR_ERASES.win (s.get LIFE_SECTOR_INDEX.one))
  | .ovrCount => if 64 < s.get LIFE_OVR_INDEX.one then none else some (LIFE_OVR_COUNT.win (s.get LIFE_OVR_INDEX.one))

/-- The offset of a wear counter's register. -/
def wearOffset : WearCounter → Nat
  | .powerOnSeconds => 0x044
  | .thermalCycles => 0x058
  | .brownouts => 0x05C
  | .activations => 0x060
  | .hbmMib k => 0x068 + 8 * k.val
  | .bandSeconds b => 0x088 + 4 * b.val
  | .sectorErases => 0x0AC
  | .ovrCount => 0x0B4

/-- WEAR_COUNTER_WRITE: a host write to a wear counter, posted and landed (R97). -/
def execWearCounterWrite (counter : WearCounter) (value : BitVec 64) (s : State) : Host.Outcome State Fault Refusal :=
  .next (s.gated (PageClass.page .life 0) (wearOffset counter) (fun s => match s.wearCell counter with
    | some f => (s.set f value.toNat).lifeEdit
    | none => s))

/-- The hottest die sensor in °C (R387). -/
def State.hottest (s : State) : Int := signed 8 (s.get PWR_TEMP_MAX_TEMP.one)

/-- The temperature band of R97. -/
def bandOf (t : Int) : Nat := ([25, 45, 65, 80, 90, 100, 105] : List Int).countP (fun e => decide (e ≤ t))

/-- A minute of CLK_QUALITY.CAL_AGE (R102). -/
def State.ageSecond (s : State) : State :=
  if s.clk.calSeconds + 1 < 60 then s.onClk (fun c => { c with calSeconds := c.calSeconds + 1 })
  else (s.addSat CLK_QUALITY_CAL_AGE.one 1).onClk (fun c => { c with calSeconds := 0 })

/-- Skein `n` is idle (R128): in no running session, not shadowed, not fenced, its front end powered. -/
def State.skeinIdle (s : State) (n : Nat) : Bool :=
  !s.is (SKN_STATUS_IN_SESSION.of n) && !s.castStaged n && !s.is (SKN_STATUS_SHADOWED.of n) && !s.skeinFenced n && s.skeinReady n

/-- POWER_ON_SECOND: a second with VDD_CORE in range (R97): power-on seconds, the temperature band, the calibration's
age, and the idle time of each idle skein (R128). -/
def execPowerOnSecond (s : State) : Host.Outcome State Fault Refusal :=
  let s1 := (s.add LIFE_POWER_ON_SECONDS.one 1).add (LIFE_BAND_SECONDS.elt (bandOf s.hottest)) 1
  .next (forEach (upto 65) s1.ageSecond (fun n s =>
    if s.skeinIdle n then s.addSat (FE_IDLE_SECONDS.of n) 1 else s))

/-- HBM_WEAR_REPORT: the HBM controller reports the MiB written to each stack; a part MiB carries over (R97). -/
def execHbmWearReport (s : State) : Host.Outcome State Fault Refusal :=
  .next (forEach (upto 4) s (fun k s =>
    let fresh := (s.get (HBM_WRITTEN.of k) + 2 ^ 64 - sget s.hbm.reported k 0) % 2 ^ 64 / 2 ^ 20
    (s.add (LIFE_HBM_MIB.elt k) fresh).onHbm (fun h => { h with
      reported := smod h.reported k 0 (fun v => (v + fresh * 2 ^ 20) % 2 ^ 64) })))

/-- Put the thermal state of R98. -/
def State.putThermal (s : State) (ext : Int) (dir : Nat) : State :=
  (s.set LIFE_THERMAL_STATE_EXTREME.one (unsigned 8 ext)).set LIFE_THERMAL_STATE_DIRECTION.one dir

/-- THERMAL_SAMPLE: the hottest die sensor is tracked (R98); a cycle is counted and raises EV_031. -/
def execThermalSample (s : State) : Host.Outcome State Fault Refusal :=
  let t := s.hottest
  let ext := signed 8 (s.get LIFE_THERMAL_STATE_EXTREME.one)
  if s.pwr.aonFresh then .next ((s.putThermal t 0).onPwr (fun p => { p with aonFresh := false }))
  else if s.get LIFE_THERMAL_STATE_DIRECTION.one = 0 then
    (if ext < t then .next (s.putThermal t 0)
    else if 40 < ext - t then .next (s.putThermal t 1)
    else .next s)
  else if t < ext then .next (s.putThermal t 1)
  else if 40 < t - ext then .next (((s.putThermal t 0).add LIFE_THERMAL_CYCLES.one 1).raise 31)
  else .next s

/-! ### Boot-flash operations (R97, R424) -/

/-- An operation has failed twice (R424). -/
def State.flashFailed (s : State) : State := (s.add SVC_FLASH_ERRS.one 1).raise 48

/-! ### The journal (R99, R441) -/

/-- A cell counts the erases of a sector (R97). -/
def sectorCell (k : Nat) : Bool := (upto 1024).any (fun i => (LIFE_SECTOR_ERASES.win i).key == k)

/-- A commit begins: the record takes the values as they stand, the erase counts held to 24 bits (R441). -/
def State.commitStart (s : State) : State :=
  let cells := s.regs.filter (fun p => decide (keyPage p.1 = PageClass.page .life 0))
  let r : JournalRec := ⟨(s.get LIFE_JOURNAL_SEQ.one + 1) % 2 ^ 32,
    cells.foldr (fun p m => (p.1, if sectorCell p.1 then min p.2 16777215 else p.2) :: m) []⟩
  ((s.set LIFE_STATUS_JOURNAL_BUSY.one 1).onSvc (fun v => { v with commit := some r })).flashMarks

/-- A commit is requested: one in progress is followed at once by the next. -/
def State.commitRequested (s : State) : State :=
  if s.svc.commit.isSome then s.onSvc (fun v => { v with commitNext := true }) else s.commitStart

/-- JOURNAL_PERIOD: 600 power-on seconds have passed since the last (R99). -/
def execJournalPeriod (s : State) : Host.Outcome State Fault Refusal := .next s.commitRequested

/-- JOURNAL_COMMIT: a host write of 1 to LIFE_JOURNAL_CTRL.COMMIT, posted and landed (R99). -/
def execJournalCommit (s : State) : Host.Outcome State Fault Refusal :=
  .next (s.gated (PageClass.page .life 0) 0x04C State.commitRequested)

/-- A complete commit: the record stands in its place, SEQ advances, EV_026; after a sector's first record the sector
ahead is to be erased (R441). -/
def State.commitStored (s : State) (r : JournalRec) : State :=
  let place := s.get SVC_JOURNAL.one
  let s1 := (s.onFlash (fun f => { f with journal := sput f.journal place none (some r) })).set SVC_JOURNAL.one (place + 1)
  let s2 := (s1.set LIFE_JOURNAL_SEQ.one r.seq).raise 26
  if place % 16 = 0 then s2.flashQueue (.eraseJournal (432 + (place / 16 + 1) % 64)) else s2

/-- JOURNAL_COMMIT_DONE: the commit in progress ends, complete or failed (R99). -/
def execJournalCommitDone (ok : Bool) (s : State) : Host.Outcome State Fault Refusal :=
  match s.svc.commit with
  | none => .next s
  | some r =>
    let s1 := (s.set LIFE_STATUS_JOURNAL_BUSY.one 0).onSvc (fun v => { v with commit := none, commitNext := false })
    let s2 := (if ok then s1.commitStored r else s1.flashFailed.raise 27).flashMarks
    .next (if s.svc.commitNext then s2.commitStart else s2)

/-! ### The always-on domain (R100, R101, R361) -/

/-- CAL_VALID clears; EV_028 where it was 1. -/
def State.calendarInvalid (s : State) : State :=
  (s.set LIFE_STATUS_CAL_VALID.one 0).raiseIf (s.is LIFE_STATUS_CAL_VALID.one) 28

/-- VBAT_LOW: VBAT_AON falls below 1.9 V (R101). -/
def execVbatLow (s : State) : Host.Outcome State Fault Refusal :=
  if s.is LIFE_STATUS_VBAT_OK.one then .next ((s.set LIFE_STATUS_VBAT_OK.one 0).raise 29) else .next s

/-- VBAT_RESTORED: VBAT_AON is back at 1.9 V or above (R101). -/
def execVbatRestored (s : State) : Host.Outcome State Fault Refusal := .next (s.set LIFE_STATUS_VBAT_OK.one 1)

/-- XTAL_STOP: the crystal has stopped; the calendar runs on an internal oscillator and is no longer valid (R101). -/
def execXtalStop (s : State) : Host.Outcome State Fault Refusal :=
  if s.is LIFE_STATUS_XTAL_OK.one then .next ((s.set LIFE_STATUS_XTAL_OK.one 0).raise 30).calendarInvalid else .next s

end Sys2Proof.Machine
end

