-- ==== Sys2Proof/Machine/Front.lean ====
section
/-! DEFINITION. The probe front end's own commands (chapter 4): edges at the balls, over-range (R126, R137),
calibration (R122 to R125), the self-check (R128 to R131), and the state clocks (R135 to R137). -/

namespace Sys2Proof.Machine

/-! ### Edges -/

/-- PROBE_EDGE: a level change of a probe channel at its ball at `time`: its skein receives it, and the spare where it
taps that skein (R113, R118, R132). -/
def execProbeEdge (skein : Fin 64) (ch : Fin 16) (level : Bool) (time : Nat) (s : State) :
    Host.Outcome State Fault Refusal :=
  let s1 := s.edgeTo skein.val ch.val level time
  .next (if s1.get (FE_SOURCE.of 64) = skein.val then s1.edgeTo 64 ch.val level time else s1)

/-- An edge of a state clock at `t` in its measurement: edges since the last, rising edges per millisecond. -/
def SckMeter.take (k : SckMeter) (t : Nat) (rising : Bool) : SckMeter :=
  let w := t / ticksMs
  if w = k.window then { k with last := t + 1, count := k.count + flag rising }
  else ⟨t + 1, w, flag rising, if w = k.window + 1 then k.count else 0⟩

/-- STATE_CLOCK_EDGE: an edge of state clock `m` at its ball, delayed by its deskew (R135): every reducer in state mode
on that clock samples at the edges it selects (R136). An edge within 180 ps of the one before is placed at the next
sample (R118). -/
def execStateClockEdge (m : Fin 32) (rising : Bool) (time : Nat) (s : State) : Host.Outcome State Fault Refusal :=
  if s.sampling then
    let t := ((time : Int) + signed 14 (s.get (FEG_SCK_DESKEW.elt m.val))).toNat
    let meter := sget s.clk.sck m.val SckMeter.idle
    let fv := meter.last == 0 || decide (meter.last - 1 + 148 ≤ t)
    let at_ := if fv then t else ceilTo t 64
    let s1 := s.onClk (fun c => { c with sck := sput c.sck m.val SckMeter.idle (meter.take t rising) })
    .next (forEach (upto 65) s1 (fun n s =>
      let d := s.streamOf n
      if d < 64 && (s.gear d).stateMode && s.get (FE_STATE_SCK_SEL.of d) == m.val && s.edgeSelected d rising
          && s.skeinReady n then s.stateEdge n at_ fv
      else s))
  else .next s

/-! ### Over-range (R126, R137) -/

/-- The skeins that use state clock `m`. -/
def State.sckUsers (s : State) (m : Nat) : List Nat :=
  (upto 64).filter (fun n => (s.gear n).stateMode && s.get (FE_STATE_SCK_SEL.of n) == m)

/-- The skeins whose receivers lie at the pads of skein `n`: its own, and the spare where it taps them (R132). -/
def State.receiversOf (s : State) (n : Nat) : List Nat := if s.get (FE_SOURCE.of 64) = n then [n, 64] else [n]

/-- OVER_RANGE: a probe channel or a state clock leaves the window of R126; the spare's channel at the same pad goes with
it (R132). -/
def execOverRange (input : ProbeInput) (s : State) : Host.Outcome State Fault Refusal :=
  match input with
  | .channel n c =>
    .next (forEach ((s.receiversOf n.val).filter (fun r => !bitOf (s.get (FE_OVR_NOW.of r)) c.val)) s
      (fun r s => s.channelOver r c.val)).ovrMarks
  | .clock m =>
    .next (forEach (s.sckUsers m.val) (s.setBit FEG_SCK_OVR.one m.val true) (fun n s => s.feCause n 4)).ovrMarks

/-- OVER_RANGE_CLEAR: the input is back in range. -/
def execOverRangeClear (input : ProbeInput) (s : State) : Host.Outcome State Fault Refusal :=
  match input with
  | .channel n c =>
    .next (forEach ((s.receiversOf n.val).filter (fun r => bitOf (s.get (FE_OVR_NOW.of r)) c.val)) s
      (fun r s => s.channelBack r c.val)).ovrMarks
  | .clock m => .next (s.setBit FEG_SCK_OVR.one m.val false).ovrMarks

/-! ### Calibration (R122 to R125) -/

/-- A write of 1 to FE_CAL_CMD.FULL (R122). In holdover, which R122 does not name, the calibration after the next lock meets
it too (DESIGN CHOICE, log entry 100). -/
def State.fullCal (s : State) : State :=
  if s.locked && !s.is FEG_STATUS_CAL_BUSY.one then s.calStart else s.set FEG_CAL_CMD.one 1

/-- FULL_CAL: a host write of 1 to FE_CAL_CMD.FULL (R122). -/
def execFullCal (s : State) : Host.Outcome State Fault Refusal :=
  .next (s.gated (PageClass.page .feg 0) 0x044 State.fullCal)

/-- Every skein that is not power-gated is powered and calibrated; EV_021 where a READY bit changes (R377). -/
def State.skeinsReady (s : State) : State :=
  let r := maskOf 64 (fun m => !bitOf (s.get PWR_SKN_GATE.one) m)
  let r64 := 1 - s.get PWR_SKN_GATE_64.one
  let changed := s.get PWR_SKN_READY.one != r || s.get PWR_SKN_READY_64.one != r64
  ((s.set PWR_SKN_READY.one r).set PWR_SKN_READY_64.one r64).raiseIf changed 21

/-- The reading of the die sensor nearest skein `n` (R378). -/
def State.skeinTemp (s : State) (n : Nat) : Nat := s.get (PWR_TEMP_VALUE.win (Config.sensorOf n).val)

/-- What a calibration found in skein `n` (R125). -/
def State.calFound (s : State) (n : Nat) (f : CalFinding) : State :=
  let s1 := ((s.set (FE_STATUS_CAL_OK.of n) (flag f.ok)).set (FE_CAL_STATUS_RESID.of n) f.resid.toNat).set
    (FE_CAL_STATUS_WORST_CH.of n) f.worstCh.val
  let s2 := (s1.set (FE_CAL_STATUS_TEMP_DELTA.of n) 0).onSkein n (fun k => { k with calTemp := s.skeinTemp n })
  if f.ok then s2 else s2.feCause n 3

/-- TDC_RMS is the worst residual of the device; EV_011 where a calibration leaves it above its limit (R102, R125). -/
def State.worstResidual (s : State) : State :=
  let worst := ((upto 65).map (fun n => s.get (FE_CAL_STATUS_RESID.of n))).foldl max 0
  (s.set CLK_QUALITY_TDC_RMS.one worst).raiseIf (decide (s.get CLK_QUALITY_LIMIT_TDC_RMS_LIMIT.one < worst)) 11

/-- Skein `n`'s gate. -/
def State.skeinGate (s : State) (n : Nat) : Bool :=
  if n = 64 then s.is PWR_SKN_GATE_64.one else bitOf (s.get PWR_SKN_GATE.one) n

/-- The results of a calibration of every channel; a gated skein is not calibrated (R377); the calibration's age starts
again (R102, R104). -/
def State.calResults (s : State) (results : List CalResult) : State :=
  let s1 := (forEach (results.filter (fun r => !s.skeinGate r.skein.val)) s
    (fun r s => s.calFound r.skein.val r.finding)).worstResidual
  (s1.set CLK_QUALITY_CAL_AGE.one 0).onClk (fun c => { c with calSeconds := 0 })

/-- FULL_CAL_DONE: the full calibration in progress ends: CAL_DONE reads 1, the
ungated skeins are ready, and one that waits starts (R122, R377). -/
def execFullCalDone (results : List CalResult) (s : State) : Host.Outcome State Fault Refusal :=
  if s.is FEG_STATUS_CAL_BUSY.one then
    let s1 := ((s.set FEG_STATUS_CAL_BUSY.one 0).set FEG_STATUS_CAL_DONE.one 1).add FEG_CAL_COUNT.one 1
    let s2 := s1.calResults results
    let s3 := if s.pwr.step = 0 && s.get PWR_STATUS_STATE.one < 2 then s2.skeinsReady else s2
    .next (if s.is FEG_CAL_CMD.one then s3.calStart else s3)
  else .next s

/-- The calibration microengine is loaded (R390). -/
def State.calEngine (s : State) : Bool := bitOf (s.get MBX_CPU_STATUS_ME_LOADED.one) 1

/-- BG_CAL_PASS_DONE: a background pass over every channel ends (R123); without its microengine background
calibration pauses (R390), and none runs on bypass (R122). -/
def execBgCalPassDone (results : List CalResult) (s : State) : Host.Outcome State Fault Refusal :=
  if s.is FEG_CTRL_BG_CAL_EN.one && s.locked && s.calEngine then
    .next ((s.add FEG_BG_PASSES.one 1).calResults results)
  else .next s

/-! ### The self-check (R128 to R131) -/

/-- A commit that waits assigns the spare to skein `n`, or is the spare's own (R131). -/
def State.spareAssigned (s : State) (n : Nat) : Bool :=
  s.is (SKN_COMMIT.of 64) && (n == 64 || s.getStaged (SKN_SPARE_TARGET.of 64) == n)

/-- SELF_CHECK_START: a pass starts on a skein whose idle time has reached 50 s, one at a time (R128). -/
def execSelfCheckStart (skein : Fin 65) (s : State) : Host.Outcome State Fault Refusal :=
  let n := skein.val
  if s.is FEG_CTRL_CHECK_EN.one && !s.is FEG_STATUS_CHECK_BUSY.one && s.skeinIdle n && !s.spareAssigned n
      && decide (50 ≤ s.get (FE_IDLE_SECONDS.of n)) then
    let s1 := ((s.set FEG_STATUS_CHECK_BUSY.one 1).set FEG_STATUS_CHECK_SKEIN.one n).set (FE_STATUS_CHECKING.of n) 1
    .next (s1.onSkein n (fun k => { k with idleSaved := s.get (FE_IDLE_SECONDS.of n) }))
  else .next s

/-- SELF_CHECK_DONE: the pass in progress ends with its verdicts (R130). A newly found stuck channel is a fault of the
skein; a newly found open one is reported. The spare's passes find no open input (R129). -/
def execSelfCheckDone (stuck opened : BitVec 16) (s : State) : Host.Outcome State Fault Refusal :=
  if s.is FEG_STATUS_CHECK_BUSY.one then
    let n := s.get FEG_STATUS_CHECK_SKEIN.one
    let open_ := if n = 64 then 0 else opened.toNat
    let fresh : Nat → Nat → Nat := fun old new => maskOf 16 (fun c => bitOf new c && !bitOf old c)
    let newStuck := fresh (s.get (FE_CHECK_RESULT_STUCK.of n)) stuck.toNat
    let newOpen := fresh (s.get (FE_CHECK_RESULT_OPEN.of n)) open_
    let s1 := ((s.set FEG_STATUS_CHECK_BUSY.one 0).set (FE_STATUS_CHECKING.of n) 0).set (FE_IDLE_SECONDS.of n) 0
    let s2 := ((s1.set (FE_CHECK_RESULT_STUCK.of n) stuck.toNat).set (FE_CHECK_RESULT_OPEN.of n) open_).add
      (FE_CHECK_PASSES.of n) 1
    let s3 := if newOpen = 0 then s2 else
      (s2.feCause n 1).logFault (65 + 2 * n) (PageClass.page .fe n) 1 (n + 4 * 2 ^ 8 + newOpen * 2 ^ 16)
    .next (if newStuck = 0 then s3 else
      (s3.feCause n 0).confirmFault n (65 + 2 * n) (n + 3 * 2 ^ 8 + newStuck * 2 ^ 16))
  else .next s

end Sys2Proof.Machine
end

