-- ==== Sys2Proof/Machine/Operands.lean ====
section
/-! DEFINITION. Registers as the words software and the internal path see (R5, R46, R48): which fields a 32-bit
location of a page holds, and its value as those fields give it. -/

namespace Sys2Proof.Machine

/-- The part of a field that one 32-bit location shows: its cell, the lowest bit in the location, its width there, and
the bits of the field below it. -/
structure Part where
  field : RegField
  fld   : Fld
  lo    : Nat
  width : Nat
  shift : Nat

/-- The value of the index register of a window on page `p`; rail 7 acts as rail 0 (R385). DEDUCED, log entry 86. -/
def State.windowIndex (s : State) (cls : PageClass) (p : Nat) (off : Nat) : Nat :=
  match (fieldsOf cls).find? (fun f => f.off == off) with
  | some f =>
    let v := s.get ⟨p, f.off, f.lo, f.width, f.reset, 0⟩
    if cls = .pwr ∧ off = 0x044 ∧ v = 7 then 0 else v
  | none => 0

/-- The part of field `f` that the location at `off` of page `p` shows, if any. -/
def State.partOf (s : State) (cls : PageClass) (p off : Nat) (f : RegField) : Option Part :=
  match f.place off with
  | none => none
  | some (e, hi) =>
    let idx := if f.index = 0 then 0 else s.windowIndex cls p f.index
    let fld : Fld := ⟨p, f.off + e * f.stride, f.lo, f.width, f.reset, idx⟩
    if hi then some ⟨f, fld, max f.lo 32 - 32, f.lo + f.width - max f.lo 32, max f.lo 32 - f.lo⟩
    else if f.lo < 32 then some ⟨f, fld, f.lo, min (f.lo + f.width) 32 - f.lo, 0⟩
    else none

/-- The parts that the location at `off` of page `p` shows. -/
def State.partsAt (s : State) (p off : Nat) : List Part :=
  match pageOf p with
  | none => []
  | some (cls, _) => (fieldsOf cls).filterMap (s.partOf cls p off)

/-- The location's value where `view` gives each field's. -/
def composed (parts : List Part) (view : Part → Nat) : Nat :=
  (parts.map (fun q => view q / 2 ^ q.shift % 2 ^ q.width * 2 ^ q.lo)).sum

/-- The value of the location as the fields hold it. DEDUCED, log entry 85. -/
def State.regValue (s : State) (p off : Nat) : Nat := composed (s.partsAt p off) (fun q => s.get q.fld)

/-- Put a location's value into its CFG, CNT and SHD fields in force: the internal path (R49). -/
def State.regPoke (s : State) (p off value : Nat) : State :=
  forEach (s.partsAt p off) s (fun q s =>
    match q.field.kind with
    | .cfg | .cnt | .shd => s.set q.fld (setField (s.get q.fld) q.shift q.width (field value q.lo q.width))
    | _ => s)

end Sys2Proof.Machine
end

