-- ==== Sys2Proof/Machine/Image.lean ====
section
/-! DEFINITION. Firmware images, the boot selector and the configuration store in the boot flash (R425 to R431,
R436, R438). -/

namespace Sys2Proof.Machine

/-! ### Slots (R427 to R429) -/

/-- Bytes of a slot. -/
def slotSize : Nat := 12 * 2 ^ 20

/-- Byte `off` of a slot; an erased byte reads 0xFF. -/
def State.slotByte (s : State) (slot off : Nat) : Byte := BitVec.ofNat 8 (sget s.svc.flash.slots (slot * slotSize + off) 0xFF)

/-- Bytes of a slot from `off` on. -/
def State.slotBytes (s : State) (slot off n : Nat) : List Byte := (upto n).map (fun i => s.slotByte slot (off + i))

/-- A little-endian number in a slot. -/
def State.slotNum (s : State) (slot off n : Nat) : Nat := ofBytes (s.slotBytes slot off n)

/-- The slot has a valid header: MAGIC "TZFW" and HCRC (R427, R429). -/
def State.headerValid (s : State) (slot : Nat) : Bool :=
  s.slotNum slot 0 4 == 0x57465A54 && s.slotNum slot 0xFC 4 == crc32c (s.slotBytes slot 0 0xFC)

/-- FUSE_SVN. -/
def State.fuseSvn (s : State) : Nat := s.svc.svn.getD Config.fuseSvn.toNat

/-- The minimum SVN: the ones of FUSE_SVN (R476). -/
def State.minSvn (s : State) : Nat := popcount 32 s.fuseSvn

/-- The message that an image's signature covers (R428). -/
def State.signedMessage (s : State) (slot : Nat) : List Byte :=
  s.slotBytes slot 0 0x200 ++ s.slotBytes slot 0x8000 (s.slotNum slot 0x0C 4)

/-- The image digest (R428). -/
def State.imageDigest (s : State) (slot : Nat) : List Byte := Config.shake256 (s.signedMessage slot) 64

/-- Every section lies within the slot. -/
def State.sectionsFit (s : State) (slot : Nat) : Bool :=
  decide (0x8000 + s.slotNum slot 0x0C 4 ≤ slotSize) &&
    (upto 4).all (fun i => decide (0x8000 + s.slotNum slot (0x18 + 16 * i) 4 + s.slotNum slot (0x1C + 16 * i) 4 ≤ slotSize))

/-- The REASON of R428 for the image in a slot; 0: it passes verification. -/
def State.imageReason (s : State) (slot : Nat) : Nat :=
  let key := s.slotBytes slot 0x100 64
  if !(s.headerValid slot && s.slotNum slot 4 2 == 1) then 1
  else if !(s.slotNum slot 0x10 2 == 0x1024 && s.slotNum slot 0x12 1 == 0x21) then 2
  else if !s.sectionsFit slot then 3
  else if Config.shake256 key 64 ≠ (upto 16).flatMap (fun i => toBytes 4 (Config.keyDigest i).toNat) then 4
  else if s.slotNum slot 0x13 1 < s.minSvn then 5
  else if !Config.slhVerify key (s.signedMessage slot) (s.slotBytes slot 0x200 29792) then 6
  else 0

/-- SVC_SLOT_A or SVC_SLOT_B .STATE. -/
abbrev slotState (slot : Nat) : Fld := if slot = 0 then SVC_SLOT_A_STATE.one else SVC_SLOT_B_STATE.one
/-- Their CFG_FORMAT. -/
abbrev slotFormat (slot : Nat) : Fld := if slot = 0 then SVC_SLOT_A_CFG_FORMAT.one else SVC_SLOT_B_CFG_FORMAT.one
/-- Their SVN. -/
abbrev slotSvn (slot : Nat) : Fld := if slot = 0 then SVC_SLOT_A_SVN.one else SVC_SLOT_B_SVN.one
/-- Their FW_VERSION. -/
abbrev slotVersion (slot : Nat) : Fld := if slot = 0 then SVC_SLOT_A_VERSION.one else SVC_SLOT_B_VERSION.one

/-- What the header of a slot gives its registers; zero without a valid header. -/
def State.slotHeader (s : State) (slot : Nat) : State :=
  let v : Nat → Nat → Nat := fun off n => if s.headerValid slot then s.slotNum slot off n else 0
  ((s.set (slotFormat slot) (v 6 2)).set (slotSvn slot) (v 0x13 1)).set (slotVersion slot) (v 8 4)

/-! ### The selector (R425, R426) -/

/-- A new entry of a log whose copies are the sectors `first` and `first + 1`: the log, and the copy to be erased. -/
def LogCopies.write (l : LogCopies) (first : Nat) : LogCopies × Option Nat :=
  if l.turn = 0 then (⟨1, l.used0 + 1, l.used1⟩, if 1024 ≤ l.used1 then some (first + 1) else none)
  else (⟨0, l.used0, l.used1 + 1⟩, if 1024 ≤ l.used0 then some first else none)

/-- A copy of a log has been erased. -/
def LogCopies.erased (l : LogCopies) (copy : Nat) : LogCopies := if copy = 0 then { l with used0 := 0 } else { l with used1 := 0 }

/-- The copy of a log that is next in turn and holds no unwritten place, if it is so. -/
def LogCopies.full (l : LogCopies) : Option Nat :=
  if l.turn = 0 then (if 1024 ≤ l.used0 then some 0 else none) else if 1024 ≤ l.used1 then some 1 else none

/-- A background erase where a log asks for one. -/
def State.eraseAsked (s : State) (o : Option Nat) : State :=
  match o with
  | some sector => s.flashQueue (.eraseCopy sector)
  | none => s

/-- The selector entry in force. -/
def State.selector (s : State) : Option SelectorEntry := s.svc.flash.selector.head?

/-- MODE of the entry in force is TRIAL. -/
def State.inTrial (s : State) : Bool := (s.selector.map (·.trial)).getD false

/-- SVC_SELECTOR from the entry in force (R445). DESIGN CHOICE, log entry 50. -/
def State.selectorMarks (s : State) : State :=
  match s.selector with
  | none => s
  | some e =>
    let s1 := ((s.set SVC_SELECTOR_SEQ.one e.seq).set SVC_SELECTOR_TRIAL_LEFT.one e.left).set SVC_SELECTOR_PREV.one
      (if e.prev = 0xFF then 7 else e.prev)
    (s1.set SVC_SELECTOR_MODE.one (flag e.trial)).set SVC_SELECTOR_ACTIVE.one e.active

/-- The states of the slots that the selector names: ACTIVE or TRIAL, and PREVIOUS in a trial; the other reads what its
header and its verification give (R429). -/
def State.slotMarks (s : State) : State :=
  forEach (upto 2) s (fun k s =>
    let s1 := s.slotHeader k
    match s.selector with
    | some e =>
      if e.active = k then s1.set (slotState k) (if e.trial then 6 else 5)
      else if e.trial && e.prev == k then s1.set (slotState k) 7
      else if s.get (slotState k) = 0 ∨ 5 ≤ s.get (slotState k) then s1.set (slotState k) (if s.headerValid k then 2 else 0)
      else s1
    | none => if s.get (slotState k) = 0 then s1.set (slotState k) (if s.headerValid k then 2 else 0) else s1)

/-- A selector entry that falls due while its copy is erased waits for the erase, which ends first (R425). -/
def State.selectorRoom (s : State) : State :=
  match s.svc.flash.selLog.full with
  | none => s
  | some k =>
    let op := FlashOp.eraseCopy k
    let s1 := if s.svc.begun.contains op then s else s.erasesCount op
    ((s1.onSvc (fun v => { v with ops := v.ops.erase op, begun := v.begun.erase op })).onFlash (fun f => { f with
      selLog := f.selLog.erased k })).flashMarks

/-- A selector entry is written: the newest, numbered one above the last (R425). -/
def State.selectorWrite (s0 : State) (active : Nat) (trial : Bool) (left prev : Nat) : State :=
  let s := s0.selectorRoom
  let seq := match s.selector with
    | some e => e.seq + 1
    | none => 1
  let e : SelectorEntry := ⟨seq, active, trial, left, prev, s.slotNum active 8 4, if prev = 0xFF then 0 else s.slotNum prev 8 4⟩
  let w := s.svc.flash.selLog.write 0
  let s1 := s.onFlash (fun f => { f with selector := e :: f.selector.take 1, selLog := w.1 })
  ((s1.eraseAsked w.2).selectorMarks).slotMarks

/-! ### The configuration store (R430, R431) -/

/-- The settings kept, by page and offset, in the order of R430. -/
def keptSettings : List (Nat × Nat) :=
  [(0x004, 0x070), (0x004, 0x074), (0x004, 0x078), (0x004, 0x08C), (0x004, 0x050), (0x004, 0x0AC), (0x001, 0x040),
    (0x010, 0x040), (0x160, 0x040), (0x160, 0x04C), (0x188, 0x040), (0x188, 0x050), (0x161, 0x040), (0x161, 0x044),
    (0x007, 0x040)]

/-- The present values of the kept settings: the value of their CFG fields. -/
def State.settings (s : State) : List (Nat × Nat × Nat) :=
  keptSettings.map (fun p => (p.1, p.2, composed ((s.partsAt p.1 p.2).filter (fun q => q.field.kind == .cfg)) (fun q => s.get q.fld)))

/-- The configuration format of the active image. -/
def State.activeFormat (s : State) : Nat := s.slotNum s.pwr.slot 6 2

/-- Records of configuration area `a`. -/
def State.area (s : State) (a : Nat) : List CfgRecord := sget s.svc.flash.cfg a []

/-- The format of an area's newest record. -/
def State.areaFormat (s : State) (a : Nat) : Option Nat := (s.area a).getLast?.map (·.format)

/-- The live area: the one whose newest record has the active image's format (R431); area 0 where neither has. -/
def State.liveArea (s : State) : Nat := if s.areaFormat 0 ≠ some s.activeFormat ∧ s.areaFormat 1 = some s.activeFormat then 1 else 0

/-- SVC_CFG (R445). -/
def State.cfgMarks (s : State) : State :=
  let l := s.liveArea
  ((s.set SVC_CFG_LIVE_AREA.one l).set SVC_CFG_LIVE_FORMAT.one ((s.areaFormat l).getD 0)).set SVC_CFG_OTHER_USED.one
    (flag !(s.area (1 - l)).isEmpty)

/-- Bytes of a record (R430). -/
def CfgRecord.bytes (r : CfgRecord) : Nat := 16 + 8 * r.entries.length

/-- Bytes of a configuration area: sixteen sectors. -/
def areaBytes : Nat := 2 ^ 20

/-- The next record's sequence number. -/
def State.cfgSeq (s : State) : Nat := ((s.area 0 ++ s.area 1).map (·.seq)).foldl max 0 + 1

/-- A record of the present settings is appended to the live area, or, where that is full, to the other one, if it is
erased; the full area is then erased (R431). -/
def State.cfgAppend (s : State) : State :=
  let l := s.liveArea
  let r : CfgRecord := ⟨s.cfgSeq, s.activeFormat, s.settings⟩
  let fits := decide (((s.area l).map (·.bytes)).sum + r.bytes ≤ areaBytes)
  let put : Nat → State := fun a => s.onFlash (fun f => { f with cfg := smod f.cfg a [] (· ++ [r]) })
  if fits then (put l).cfgMarks
  else if (s.area (1 - l)).isEmpty then ((put (1 - l)).flashQueue (.eraseArea l false)).cfgMarks
  else s

/-- The settings that the configuration store gives the active image: those of the live area's newest record in its format,
else the reset values. DEDUCED, log entry 58. -/
def State.cfgStored (s : State) : List (Nat × Nat × Nat) :=
  match (s.area s.liveArea).getLast? with
  | some r => if r.format = s.activeFormat then r.entries else State.reset.settings
  | none => State.reset.settings

/-- The settings differ from those stored, so that they have changed (R430). -/
def State.cfgChanged (s : State) : Bool := s.cfgStored != s.settings

/-- A changed setting is recorded (R430); in a trial the change is held in memory until the confirmation (R431).
DEDUCED, log entry 58. -/
def State.cfgRecord (s : State) : State :=
  if !s.cfgChanged then s else if s.inTrial then s.set SVC_STATUS_CFG_HELD.one 1 else s.cfgAppend

/-- CONFIG_RECORD_APPEND: the firmware records a changed setting; a brown-out episode defers the write (R365).
DEDUCED, log entry 58. -/
def execConfigRecordAppend (s : State) : Host.Outcome State Fault Refusal :=
  if !s.is MBX_CPU_STATUS_RUNNING.one || !s.cfgChanged then .next s
  else if s.is PWR_STATUS_BO_WARN.one && !s.inTrial then
    .next (if s.svc.ops.contains .cfgRecord then s else s.flashQueue .cfgRecord)
  else .next s.cfgRecord

end Sys2Proof.Machine
end

