-- ==== Sys2Proof/Machine/Flow.lean ====
section
/-! DEFINITION. The Flowstone stream format (chapter 11): the compressor's encoding of a block, and the decoding of
each part of a stream with the checks of R354. Units and channels are in Machine/Dma.lean. -/

namespace Sys2Proof.Machine

/-- Bytes of a full block. -/
def blockBytes : Nat := 65536

/-- CRC register after a byte string. -/
def crcRun (c : BitVec 32) (bytes : List Byte) : BitVec 32 := bytes.foldl crcByte c

/-- The four bytes of a CRC-32C value from its register (R343). -/
def crcValue (c : BitVec 32) : Nat := (c ^^^ 0xFFFFFFFF#32).toNat

/-! ### Encoding (R342, R344 to R346, R348, R350, R351) -/

/-- A varint of 7 bits a byte, least significant group first (R345). -/
def varint : Nat → Nat → List Byte
  | 0, _ => []
  | k + 1, n => if n < 128 then [BitVec.ofNat 8 n] else BitVec.ofNat 8 (n % 128 + 128) :: varint k (n / 128)

/-- A sequence: its literals, and its match as length and distance, where it has one (R345, R346). -/
def sequence (lits : List Byte) (m : Option (Nat × Nat)) : List Byte :=
  let n := lits.length
  let lf := min n 7
  let mf := match m with
    | some (len, _) => min (len - 3) 31
    | none => 0
  [BitVec.ofNat 8 (lf * 32 + mf)] ++ (if 7 ≤ n then varint 3 (n - 7) else []) ++ lits ++
    (match m with
    | some (len, dist) => toBytes 2 (dist - 1) ++ (if 34 ≤ len then varint 3 (len - 34) else [])
    | none => [])

/-- The hash of the three bytes that a position starts with (R350). -/
def hash3 : List Byte → Option Nat
  | a :: b :: c :: _ => some ((a.toNat + b.toNat * 2 ^ 8 + c.toNat * 2 ^ 16) * 0x9E3779B1 % 2 ^ 32 / 2 ^ 17)
  | _ => none

/-- Length of the common prefix of two byte strings. -/
def commonPrefix : List Byte → List Byte → Nat
  | a :: as, b :: bs => if a = b then commonPrefix as bs + 1 else 0
  | _, _ => 0

/-- Candidates searched at a level (R351). -/
def searchDepth (level : Nat) : Nat := if level = 0 then 0 else 2 ^ (level + 1)

/-- The longest match for a position (R350): `tails` are the earlier positions, most recent first, each with the data
from there to the end of the block; ties go to the smallest distance. -/
def bestMatch (depth : Nat) (tails : List (Nat × List Byte)) (rest : List Byte) (pos : Nat) : Option (Nat × Nat) :=
  match hash3 rest with
  | none => none
  | some h =>
    let near := ((tails.take blockBytes).filter (fun p => hash3 p.2 == some h)).take depth
    let best := near.foldl (fun (m : Nat × Nat) p =>
      let len := commonPrefix p.2 rest
      if m.1 < len then (len, pos - p.1) else m) (0, 0)
    if best.1 < 3 then none else some best

/-- Positions inserted, one after the other. -/
def insertTails : Nat → Nat → List Byte → List (Nat × List Byte) → List (Nat × List Byte)
  | 0, _, _, tails => tails
  | k + 1, pos, rest, tails => insertTails k (pos + 1) (rest.drop 1) ((pos, rest) :: tails)

/-- The block's sequences from position `pos` on (R350). -/
def encodeFrom (depth : Nat) (lazy : Bool) :
    Nat → Nat → List Byte → List (Nat × List Byte) → List Byte → List Byte → List Byte
  | 0, _, _, _, _, body => body
  | fuel + 1, pos, rest, tails, lits, body =>
    match rest with
    | [] => if lits.isEmpty then body else body ++ sequence lits none
    | b :: rest' =>
      let m := bestMatch depth tails rest pos
      let better := match m, bestMatch depth tails rest' (pos + 1) with
        | some x, some y => decide (x.1 < y.1)
        | _, _ => false
      match (if lazy && better then none else m) with
      | some (len, dist) =>
        encodeFrom depth lazy fuel (pos + len) (rest.drop len) (insertTails len pos rest tails) []
          (body ++ sequence lits (some (len, dist)))
      | none => encodeFrom depth lazy fuel (pos + 1) rest' ((pos, rest) :: tails) (lits ++ [b]) body

/-- The body of a compressed block of `block` after the history `hist`, newest byte first. -/
def compressBody (level : Nat) (hist block : List Byte) : List Byte :=
  let old := hist.reverse
  encodeFrom (searchDepth level) (decide (7 ≤ level)) (block.length + 1) old.length block
    (insertTails old.length 0 (old ++ block) []) [] []

/-- A block header (R344). -/
def blockHeader (kind bodyLen origLen bcrc : Nat) : List Byte :=
  toBytes 4 (kind * 2 ^ 30 + bodyLen) ++ toBytes 4 origLen ++ toBytes 4 bcrc

/-- A data block: compressed, or stored where compression would not shorten it (R350). -/
def encodeBlock (level : Nat) (hist block : List Byte) : List Byte :=
  let body := compressBody level hist block
  if body.length < block.length then blockHeader 0 body.length block.length (crc32c block) ++ body
  else blockHeader 1 block.length block.length (crc32c block) ++ block

/-- The stream header (R342): the device's compressors write WLOG 16. -/
def streamHeader (level : Nat) : List Byte := toBytes 4 0x31574C46 ++ toBytes 1 level ++ toBytes 1 16 ++ toBytes 2 0

/-- The end block and the trailer (R344, R348). -/
def streamEnd (orig : Nat) (crc : BitVec 32) : List Byte := blockHeader 2 0 0 0 ++ toBytes 8 orig ++ toBytes 4 (crcValue crc)

/-- A compressor's stream after `block`, the next of its input. -/
def FlowStream.encode (f : FlowStream) (block : List Byte) : FlowStream :=
  { f with
    stage := .blocks
    inBuf := f.inBuf.drop block.length
    out := f.out ++ (if f.stage = .header then streamHeader f.level else []) ++ encodeBlock f.level f.hist block
    hist := (block.reverse ++ f.hist).take blockBytes
    orig := f.orig + block.length
    crc := crcRun f.crc block }

/-- A compressor's stream with its end block and trailer. -/
def FlowStream.finish (f : FlowStream) : FlowStream := { f with stage := .done, out := f.out ++ streamEnd f.orig f.crc }

/-! ### Decoding (R345 to R347, R353, R354) -/

/-- A varint at the front of a byte string: its value and the rest; none where a fourth byte would follow or the bytes
run out. -/
def readVarint : Nat → List Byte → Option (Nat × List Byte)
  | 0, _ => none
  | _ + 1, [] => none
  | k + 1, b :: bs =>
    if b.toNat < 128 then some (b.toNat, bs)
    else (readVarint k bs).map (fun p => (b.toNat - 128 + 128 * p.1, p.2))

/-- A varint of at most `k` bytes is cut off by the end of the bytes. -/
def varintCut (k : Nat) (bytes : List Byte) : Bool := decide (bytes.length < k) && bytes.all (fun b => decide (128 ≤ b.toNat))

/-- A match copied one byte at a time (R346) onto the output, newest byte first. -/
def copyMatch : Nat → Nat → List Byte → List Byte
  | 0, _, out => out
  | k + 1, dist, out => copyMatch k dist (out.getD (dist - 1) 0 :: out)

/-- A decoded body: the output and history, newest byte first; or the offset in the body of the token at which a check
fails, or at which the bytes run out. -/
inductive Decoded where
  | ok (out : List Byte)
  | fail (at_ : Nat)
  | short (at_ : Nat)
  deriving DecidableEq, Repr

/-- The sequences of a body from offset `off` on. `made` bytes of the block are done, `limit` is its ORIG_LEN, `reach`
the largest distance that the window allows; the stream held `before` bytes at the block's start. -/
def decodeFrom (limit before reach : Nat) : Nat → Nat → List Byte → Nat → List Byte → Decoded
  | 0, off, _, _, _ => .short off
  | fuel + 1, off, bytes, made, out =>
    match bytes with
    | [] => if made = limit then .ok out else .short off
    | tok :: rest =>
      let lf := tok.toNat / 32
      let mf := tok.toNat % 32
      match (if lf = 7 then (readVarint 3 rest).map (fun p => (p.1 + 7, p.2)) else some (lf, rest)) with
      | none => if varintCut 3 rest then .short off else .fail off
      | some (n, afterLits) =>
        if limit < made + n then .fail off
        else if afterLits.length < n then .short off
        else
          let out1 := (afterLits.take n).reverse ++ out
          match afterLits.drop n with
          | [] => if mf = 0 ∧ made + n = limit then .ok out1 else .short off
          | [_] => .short off
          | d0 :: d1 :: afterDist =>
            let dist := d0.toNat + 256 * d1.toNat + 1
            if reach < dist ∨ before + made + n < dist then .fail off
            else match (if mf = 31 then (readVarint 3 afterDist).map (fun p => (p.1 + 34, p.2)) else some (mf + 3, afterDist)) with
            | none => if varintCut 3 afterDist then .short off else .fail off
            | some (len, next) =>
              if limit < made + n + len then .fail off
              else decodeFrom limit before reach fuel (off + bytes.length - next.length) next (made + n + len)
                (copyMatch len dist out1)

/-- A rejection (R354): its cause, and the offset in the stream of the item that failed. -/
abbrev Reject := Nat × Nat

/-- The header's checks: the first field that fails. -/
def headerReject (h : List Byte) : Option Reject :=
  let byte : Nat → Nat := fun i => (h.getD i 0).toNat
  if ofBytes (h.take 4) ≠ 0x31574C46 then some (1, 0)
  else if 9 < byte 4 then some (2, 4)
  else if byte 5 < 10 ∨ 16 < byte 5 then some (2, 5)
  else if byte 6 ≠ 0 ∨ byte 7 ≠ 0 then some (2, 6)
  else none

/-- KIND, BODY_LEN, ORIG_LEN and BCRC of a block header; none where it fails its checks (cause 3). -/
def readBlockHeader (h : List Byte) : Option (Nat × Nat × Nat × Nat) :=
  let w0 := ofBytes (h.take 4)
  let w1 := ofBytes ((h.drop 4).take 4)
  let bcrc := ofBytes ((h.drop 8).take 4)
  let kind := w0 / 2 ^ 30
  let body := w0 % 2 ^ 24
  let orig := w1 % 2 ^ 24
  if kind = 3 ∨ field w0 24 6 ≠ 0 ∨ field w1 24 8 ≠ 0 ∨ blockBytes < body ∨ blockBytes < orig then none
  else if kind = 2 then (if body = 0 ∧ orig = 0 ∧ bcrc = 0 then some (kind, body, orig, bcrc) else none)
  else if orig = 0 ∨ (kind = 1 ∧ body ≠ orig) ∨ (kind = 0 ∧ orig ≤ body) then none
  else some (kind, body, orig, bcrc)

/-- What a decompressor makes of the input it holds: it waits for more, goes on, or rejects the stream. -/
inductive FlowStep where
  | waits
  | goes (f : FlowStream)
  | rejects (r : Reject)
  deriving DecidableEq, Repr

/-- `k` bytes of the stream have been decoded. -/
def FlowStream.eat (f : FlowStream) (k : Nat) : FlowStream := { f with inBuf := f.inBuf.drop k, pos := f.pos + k }

/-- The stream's bytes do not suffice: cause 8 where the source holds no more (R354). DEDUCED, log entry 35. -/
def FlowStream.lacks (f : FlowStream) : FlowStep := if f.ended then .rejects (8, f.pos) else .waits

/-- The stream's header is read and checked. -/
def FlowStream.readHeader (f : FlowStream) : FlowStep :=
  if f.inBuf.length < 8 then f.lacks
  else match headerReject f.inBuf with
    | some r => .rejects r
    | none => .goes { f.eat 8 with stage := .blocks, level := (f.inBuf.getD 4 0).toNat, wlog := (f.inBuf.getD 5 0).toNat }

/-- A compressed block whose body the source has cut off: a sequence of the bytes present that breaks a check comes first,
then cause 8 (R354). DEDUCED, log entry 35. -/
def FlowStream.cutBlock (f : FlowStream) (orig : Nat) : FlowStep :=
  let bytes := f.inBuf.drop 12
  match decodeFrom orig f.orig (2 ^ f.wlog) (bytes.length + 1) 0 bytes 0 f.hist with
  | .fail at_ => .rejects (4, f.pos + 12 + at_)
  | _ => .rejects (8, f.pos)

/-- The next block is decoded and, once its BCRC has been checked, passed on (R353). -/
def FlowStream.readBlock (f : FlowStream) : FlowStep :=
  if f.inBuf.length < 12 then f.lacks
  else match readBlockHeader f.inBuf with
    | none => .rejects (3, f.pos)
    | some (kind, body, orig, bcrc) =>
      if kind = 2 then .goes { f.eat 12 with stage := .trailer }
      else if f.inBuf.length < 12 + body then (if f.ended && kind == 0 then f.cutBlock orig else f.lacks)
      else
        let bytes := (f.inBuf.drop 12).take body
        let made := if kind = 1 then Decoded.ok (bytes.reverse ++ f.hist)
          else decodeFrom orig f.orig (2 ^ f.wlog) (body + 1) 0 bytes 0 f.hist
        match made with
        | .fail at_ | .short at_ => .rejects (4, f.pos + 12 + at_)
        | .ok out =>
          let data := (out.take orig).reverse
          if crc32c data ≠ bcrc then .rejects (5, f.pos)
          else .goes { f.eat (12 + body) with
            out := f.out ++ data, hist := out.take blockBytes, orig := f.orig + orig, crc := crcRun f.crc data }

/-- The trailer is compared with the whole stream (R353). -/
def FlowStream.readTrailer (f : FlowStream) : FlowStep :=
  if f.inBuf.length < 12 then f.lacks
  else if ofBytes (f.inBuf.take 8) ≠ f.orig then .rejects (6, f.pos)
  else if ofBytes ((f.inBuf.drop 8).take 4) ≠ crcValue f.crc then .rejects (7, f.pos)
  else .goes { f.eat 12 with stage := .done }

/-- Bytes of input that the decompressor needs for its next item. DEDUCED, log entry 35. -/
def FlowStream.need (f : FlowStream) : Nat :=
  match f.stage with
  | .header => 8
  | .blocks =>
    if f.inBuf.length < 12 then 12
    else match readBlockHeader f.inBuf with
      | some (_, body, _, _) => 12 + body
      | none => 12
  | .trailer => 12
  | .done => 0

end Sys2Proof.Machine
end

