-- ==== Sys2Proof/Machine/Grotto.lean ====
section
/-! DEFINITION. The grottos (chapter 9): ownership and hand-overs, accesses and their ECC, fills, the swatch test's
borrowed window and the host window. Commands are the order of service, so R300's arbitration among ports that
contend in one cycle has happened before them; an access that must wait for a fill waits here. -/

namespace Sys2Proof.Machine

/-- The page of the grottos. -/
abbrev grtPage : Nat := PageClass.page .grt 0

/-- Words of a grotto (R294). -/
def grottoWords : Nat := 2 ^ 17

/-- The number of a word. -/
def wordKey (b word : Nat) : Nat := b * grottoWords + word

/-- A word of a grotto. -/
def State.grottoWord (s : State) (b word : Nat) : Nat := sget s.grt.mem (wordKey b word) 0

/-- The word has an uncorrectable error. -/
def State.wordBad (s : State) (b word : Nat) : Bool := sget s.grt.bad (wordKey b word) 0 == 1

/-- Put a word with valid check bits, or with those of an uncorrectable word. -/
def State.putWord (s : State) (b word value : Nat) (bad : Bool) : State :=
  s.onGrt (fun g => { g with
    mem := sput g.mem (wordKey b word) 0 (value % 2 ^ 64)
    bad := sput g.bad (wordKey b word) 0 (flag bad) })

/-- Grotto `b` is fenced (R310). -/
def State.grottoFenced (s : State) (b : Nat) : Bool := bitOf (s.get GRT_FENCED.one) b

/-- Bit `i` of GRT_B_CAUSE of grotto `b`; with its enable it raises the pair's event (R313). -/
def State.grottoCause (s : State) (b i : Nat) : State :=
  let f := match i with
    | 0 => GRT_B_CAUSE_CE.win b
    | 1 => GRT_B_CAUSE_UE.win b
    | 2 => GRT_B_CAUSE_DENIED.win b
    | 3 => GRT_B_CAUSE_SWATCH_FAIL.win b
    | 4 => GRT_B_CAUSE_FENCED.win b
    | _ => GRT_B_CAUSE_REFUSED.win b
  let s1 := s.set f 1
  if bitOf (s1.get (GRT_B_CAUSE_EN.win b)) i then s1.raise (354 + b / 2) else s1

/-! ### Rights (R295, R296) -/

/-- OWNER and GUEST in force: those before a hand-over while it is pending (R297). DEDUCED, log entry 28. -/
def State.rights (s : State) (b : Nat) : Nat × Nat :=
  (sget s.grt.oldRights b none).getD (s.get (GRT_OWNER_OWNER.elt b), s.get (GRT_OWNER_GUEST.elt b))

/-- The OWNER code under which a requester reaches its own grottos. -/
def ownerCode : GrottoPort → Nat
  | .cpu => 0
  | .host => 1
  | .dma => 2
  | .acquisition => 3
  | .replay _ => 3
  | .compressor => 4
  | .swatch => 5

/-- The bit in GUEST of a requester's read right; its write right is one above. -/
def guestBit : GrottoPort → Option Nat
  | .dma => some 0
  | .compressor => some 0
  | .cpu => some 2
  | .host => some 4
  | _ => none

/-- The requester may access a grotto with the given OWNER and GUEST (R296). -/
def allowed (rights : Nat × Nat) (port : GrottoPort) (write : Bool) : Bool :=
  ownerCode port == rights.1 ||
    (match guestBit port with
    | some g => if write then rights.1 != 3 && bitOf rights.2 (g + 1) else bitOf rights.2 g
    | none => false)

/-! ### The borrowed window (R307, R308) -/

/-- Ticks for which a window test holds its grotto at most (R455). -/
def windowTicks : Nat := 200 * fclkTicks

/-- The swatch test holds a window of grotto `b`. -/
def State.borrowed (s : State) (b : Nat) : Bool :=
  match s.grt.window with
  | some (b', _, t) => b' == b && decide (s.now < t + windowTicks)
  | none => false

/-- The test abandons its window of grotto `b`, if it holds one: the saved lines are written back and the window is
tested again later. DEDUCED, log entry 28. -/
def State.abandonWindow (s : State) (b : Nat) : State :=
  if s.borrowed b then
    match s.grt.window with
    | some (b', w, _) => ((s.onGrt (fun g => { g with window := none })).onFlt (fun f => { f with
        retry := f.retry ++ [(b', w)], tested := sput f.tested b' 0 (setField (sget f.tested b' 0) w 1 0) })).add (GRT_B_ABANDONS.win b) 1
    | none => s
  else s

/-! ### Accesses (R294, R296, R302 to R304, R310) -/

/-- The frame of pre-history that holds a word of the grotto is not copied (R304). The frames stand from word 0 on,
oldest first; a word beyond them lies in no frame. -/
def dropFrameAt : Nat → List (Nat × List Stitch) → List (Nat × List Stitch)
  | _, [] => []
  | w, p :: ps => if w < p.2.length then ps else p :: dropFrameAt (w - p.2.length) ps

/-- An error found on an access to a word. -/
def State.grottoError (s : State) (a : GrottoAcc) (finding : EccFinding) : State :=
  let event := 354 + a.b / 2
  let detail := a.b + a.word * 2 ^ 6
  match finding with
  | .clean => s
  | .corrected => ((s.add (GRT_B_CE.win a.b) 1).grottoCause a.b 0).logMasked (128 + a.b) event grtPage detail
  | .uncorrectable =>
    let s1 := if s.wordBad a.b a.word then s else (s.putWord a.b a.word s.free true).drew
    let s2 := (((s1.add (GRT_B_UE.win a.b) 1).set (GRT_B_LAST_UE.win a.b) (wordKey a.b a.word)).grottoCause a.b 1).logFault
      event grtPage 1 detail
    match a.port with
    | .replay n =>
      let left := dropFrameAt a.word (s2.seq n.val).preUnits
      if left.length < (s2.seq n.val).preUnits.length then
        (s2.add (TRG_REPLAY_PRE_DROPS.of n.val) 1).onSeq n.val (fun q => { q with preUnits := left })
      else s2
    | .host => s2.set GRT_STATUS_HOST_UE.one 1
    | _ => s2

/-- The bits of a word that the byte enables cover. -/
def enabledBits (enables : Byte) : Nat := maskOf 64 (fun i => enables.getLsbD (i / 8))

/-- A word after an access to its enabled bytes. -/
def GrottoAcc.result (a : GrottoAcc) (old : Nat) : Nat :=
  let m := enabledBits a.enables
  let d := a.data.toNat
  match a.op with
  | .read => old
  | .write => maskOf 64 (fun i => if bitOf m i then bitOf d i else bitOf old i)
  | .set => maskOf 64 (fun i => bitOf old i || (bitOf m i && bitOf d i))
  | .clear => maskOf 64 (fun i => bitOf old i && !(bitOf m i && bitOf d i))

/-- The access replaces the word and its check bits without reading them. -/
def GrottoAcc.whole (a : GrottoAcc) : Bool := a.op == .write && a.enables == 0xFF

/-- What is noted of the last access served. -/
def State.noteAccess (s : State) (delivered : Nat) (marked denied : Bool) : State :=
  s.onGrt (fun g => { g with delivered := delivered, marked := marked, denied := denied })

/-- An access with the right to it is carried out at the memory. -/
def State.grottoCarry (s : State) (a : GrottoAcc) : State :=
  if a.whole then (s.putWord a.b a.word a.data.toNat false).noteAccess 0 false false
  else
    let finding := if s.wordBad a.b a.word then .uncorrectable else a.finding
    let s1 := s.grottoError a finding
    let bad := finding == .uncorrectable
    if a.op = .read then s1.noteAccess (s1.grottoWord a.b a.word) bad false
    else if bad then s1.noteAccess 0 true false
    else (s1.putWord a.b a.word (a.result (s1.grottoWord a.b a.word)) false).noteAccess 0 false false

/-- An access is served under the rights by which it was accepted (R297): a fenced grotto answers nobody, a borrowed one
is first given back, and an access without the right to it is denied. -/
def State.grottoServe (s : State) (a : GrottoAcc) : State :=
  if s.grottoFenced a.b then s.noteAccess 0 false true
  else
    let s1 := (s.abandonWindow a.b).onGrt (fun g => { g with lastUse := sput g.lastUse a.b 0 (s.now + 1) })
    if allowed a.rights a.port (a.op != .read) then s1.grottoCarry a
    else
      let s2 := ((s1.add (GRT_B_DENIED.win a.b) 1).grottoCause a.b 2).noteAccess 0 false true
      if a.port = .host then s2.set GRT_STATUS_HOST_DENIED.one 1 else s2

/-- Accesses to grotto `b` wait: the start-up fill has not ended, or a hand-over's fill runs (R299, R305). -/
def State.grottoWaits (s : State) (b : Nat) : Bool :=
  !s.is GRT_STATUS_READY.one || (sget s.grt.filling b 0 != 0 && !s.grottoFenced b)

/-- The key of a 64-bit pair's held and snapshot halves. -/
def pairKey (page off : Nat) : Nat := page * 4096 + off

/-- A read that touches GRT_HOST_DATA_LO returns `len` bytes of the word from `at_` on (R309, R48, R50). -/
def State.windowReturns (s : State) (at_ len : Nat) : State :=
  let v := s.grt.delivered
  { (s.set GRT_HOST_DATA.one v).onLink (fun l =>
      { l with readData := ((toBytes 8 v).drop at_).take len, completion := .success }) with
    hiSnap := sput s.hiSnap (pairKey grtPage 0x050) 0 (v / 2 ^ 32 + 1) }

/-- An access is served, and a read of the host window then returns. -/
def State.grottoAnswer (s : State) (a : GrottoAcc) : State :=
  match a.reply with
  | some (at_, len) => (s.grottoServe a).windowReturns at_ len
  | none => s.grottoServe a

/-- An access is accepted: it is served, or waits for the fill. DEDUCED, log entry 28. -/
def State.grottoArrive (s : State) (a : GrottoAcc) : State :=
  if s.grottoWaits a.b then s.onGrt (fun g => { g with waiting := g.waiting ++ [a] }) else s.grottoAnswer a

/-- The priority of a requester's port (R295); the swatch test comes below the host. -/
def portRank : GrottoPort → Nat
  | .acquisition => 0
  | .replay _ => 0
  | .dma => 1
  | .compressor => 1
  | .cpu => 2
  | .host => 3
  | .swatch => 4

/-- The accesses that contend: the oldest of each port. -/
def contenders (waiting : List GrottoAcc) : List GrottoAcc :=
  (upto 5).filterMap (fun r => waiting.find? (fun a => portRank a.port == r))

/-- The access served next (R300, R301): the highest port's, but a write of the same word goes before a read. -/
def nextAccess (waiting : List GrottoAcc) : Option GrottoAcc :=
  match contenders waiting with
  | [] => none
  | a :: rest =>
    if a.op = .read then some ((rest.find? (fun c => c.op != .read && c.word == a.word)).getD a) else some a

/-- The accesses that waited for one grotto are served, one after the other; while one is served and others wait, their
ports stall (R300, R302, R311). DEDUCED, log entry 28. -/
def State.serveInTurn : Nat → List GrottoAcc → State → State
  | 0, _, s => s
  | n + 1, waiting, s =>
    match nextAccess waiting with
    | none => s
    | some a =>
      let rest := waiting.erase a
      let cycles := if a.op = .read || a.whole then 1 else 2
      let s1 := if rest.isEmpty then s else s.add (GRT_B_STALLS.win a.b) cycles
      State.serveInTurn n rest (s1.grottoAnswer a)

/-- The accesses that waited for grotto `b` are served. -/
def State.serveWaiting (s : State) (b : Nat) : State :=
  let mine := s.grt.waiting.filter (fun a => a.b == b)
  State.serveInTurn mine.length mine (s.onGrt (fun g => { g with waiting := g.waiting.filter (fun a => a.b != b) }))

/-- Every word of grotto `b` is zero with valid check bits. -/
def State.zeroGrotto (s : State) (b : Nat) : State :=
  s.onGrt (fun g => { g with
    mem := g.mem.filter (fun p => p.1 / grottoWords != b)
    bad := g.bad.filter (fun p => p.1 / grottoWords != b) })

/-- The start-up fill ends (R305). -/
def State.grottosFilled (s : State) : State :=
  let s1 := forEach (upto 64) s (fun b s => if s.grottoFenced b then s else s.zeroGrotto b)
  forEach (upto 64) ((s1.set GRT_STATUS_READY.one 1).set GRT_STATUS_CLEARING.one 0) (fun b s => s.serveWaiting b)

/-- GROTTO_ACCESS: a port's access to a word (R296, R300 to R304, R310), and the cycles of stalls on conflicts that it
adds to GRT_B_STALLS (R311). -/
def execGrottoAccess (port : GrottoPort) (b : Fin 64) (word : BitVec 17) (op : GrottoOp) (enables : Byte)
    (data : BitVec 64) (finding : EccFinding) (s : State) (stalls : Byte := 0) : Host.Outcome State Fault Refusal :=
  let s1 := s.add (GRT_B_STALLS.win b.val) stalls.toNat
  .next (s1.grottoArrive ⟨port, b.val, word.toNat, op, enables, data, finding, s.rights b.val, none⟩)

/-! ### Hand-overs (R297 to R299) -/

/-- GRT_OWNER_b takes new rights; not those of a fenced grotto, whoever asks (R298). Guest write rights on acquisition's
grotto read zero (R296). A fill that runs goes on, and one asked for now follows the hand-over (R299). -/
def State.handOver (s : State) (b owner guest : Nat) (clear noBorrow : Bool) : State :=
  let guest := if owner = 3 then maskOf 6 (fun i => i % 2 == 0 && bitOf guest i) else guest
  let old := (s.get (GRT_OWNER_OWNER.elt b), s.get (GRT_OWNER_GUEST.elt b))
  let s1 := s.set (GRT_OWNER_NO_BORROW.elt b) (flag noBorrow)
  if old = (owner, guest) then s1
  else if s.grottoFenced b then s
  else
    let s2 := ((s1.abandonWindow b).set (GRT_OWNER_OWNER.elt b) owner).set (GRT_OWNER_GUEST.elt b) guest
    ((s2.set (GRT_OWNER_PENDING.elt b) 1).set (GRT_OWNER_CLEAR.elt b) (flag (clear || s.is (GRT_OWNER_CLEAR.elt b)))).onGrt (fun g =>
      { g with
        oldRights := sput g.oldRights b none (some (s.rights b))
        filling := smod g.filling b 0 (fun f => if f = 1 ∧ clear then 2 else f) })

/-- A write of `value` to GRT_OWNER_b by the host, refused in the cases of R298. -/
def State.ownerWrite (s : State) (b value : Nat) : State :=
  let owner := field value 0 3
  let now := s.get (GRT_OWNER_OWNER.elt b)
  let guest := field value 8 6
  let isHandOver := owner != now || (if now = 3 then maskOf 6 (fun i => i % 2 == 0 && bitOf guest i) else guest) != s.get (GRT_OWNER_GUEST.elt b)
  if isHandOver && (b < 2 || now == 3 || now == 4 || owner == 3 || owner == 4 || s.grottoFenced b || s.is (GRT_OWNER_PENDING.elt b)) then
    ((s.set GRT_STATUS_OWNER_REFUSED.one 1).grottoCause b 5).accessErr grtPage (0x100 + 4 * b)
  else s.handOver b owner guest (bitOf value 19) (bitOf value 18)

/-- GROTTO_HANDOVER: a host write to GRT_OWNER_b (R297, R298). -/
def execGrottoHandover (b : Fin 64) (value : DWord) (s : State) : Host.Outcome State Fault Refusal :=
  .next (s.gated grtPage (0x100 + 4 * b.val) (·.ownerWrite b.val value.toNat))

/-- HANDOVER_COMPLETE: the accesses under the old rights have completed (R297): PENDING clears, the new rights apply, and
a fill asked for begins (R299). While an access still waits, the hand-over is not complete. -/
def execHandoverComplete (b : Fin 64) (s : State) : Host.Outcome State Fault Refusal :=
  if s.grt.waiting.any (fun a => a.b == b.val) then .next s
  else .next ((s.set (GRT_OWNER_PENDING.elt b.val) 0).onGrt (fun g =>
    { g with
      oldRights := sput g.oldRights b.val none none
      filling := sput g.filling b.val 0 (s.get (GRT_OWNER_CLEAR.elt b.val)) }))

/-- GROTTO_FILL_DONE: the fill of a hand-over ends (R299): the grotto reads zero, CLEAR reads 0 unless a further fill has
been asked for, and the accesses that waited are served. -/
def execGrottoFillDone (b : Fin 64) (s : State) : Host.Outcome State Fault Refusal :=
  let f := sget s.grt.filling b.val 0
  if f = 0 then .next s
  else
    let s1 := (s.zeroGrotto b.val).onGrt (fun g => { g with filling := sput g.filling b.val 0 0 })
    .next ((s1.set (GRT_OWNER_CLEAR.elt b.val) (f - 1)).serveWaiting b.val)

/-! ### The host window (R309) -/

/-- The host window's access at ADDR; with AUTO_INC at 1 ADDR then advances by 8. -/
def State.windowAccess (s : State) (op : GrottoOp) (data : BitVec 64) (finding : EccFinding) (reply : Option (Nat × Nat)) :
    State :=
  let a := s.get GRT_HOST_ADDR_ADDR.one
  let s1 := s.grottoArrive ⟨.host, a / grottoWords, a % grottoWords, op, 0xFF, data, finding, s.rights (a / grottoWords), reply⟩
  if s.is GRT_HOST_ADDR_AUTO_INC.one then s1.set GRT_HOST_ADDR_ADDR.one (a + 1) else s1

/-- A host read of `len` bytes of GRT_HOST_DATA from byte `at_`, of which some lie in the low half (R309). Its completion
waits for the grotto. In a pause it returns zero (R57). -/
def State.windowRead (s : State) (finding : EccFinding) (at_ len : Nat) : State :=
  if !s.hostOpen then s
  else if s.paused then s.onLink (fun l => { l with readData := List.replicate len 0, completion := .success })
  else (s.onLink (fun l => { l with completion := .none })).windowAccess .read 0 finding (some (at_, len))

/-- HOST_WINDOW_READ: a 32-bit host read of GRT_HOST_DATA_LO. -/
def execHostWindowRead (finding : EccFinding) (s : State) : Host.Outcome State Fault Refusal := .next (s.windowRead finding 0 4)

/-- A completed write of the pair GRT_HOST_DATA: the operation that OP names. -/
def State.windowWrite (s : State) (data : BitVec 64) : State :=
  let op : GrottoOp := match s.get GRT_HOST_ADDR_OP.one with
    | 1 => .set
    | 2 => .clear
    | _ => .write
  (s.set GRT_HOST_DATA.one data.toNat).windowAccess op data .clean none

/-- HOST_WINDOW_WRITE: host writes of GRT_HOST_DATA_LO and then GRT_HOST_DATA_HI (R309, R48). -/
def execHostWindowWrite (data : BitVec 64) (s : State) : Host.Outcome State Fault Refusal :=
  .next (s.gated grtPage 0x054 (·.windowWrite data))

end Sys2Proof.Machine
end

