-- ==== Sys2Proof/Machine/Dma.lean ====
section
/-! DEFINITION. The offload DMA engine (chapter 10) and the pipes of its channels: descriptors and their loops, where
a burst may go, what waits, how a burst moves its bytes, and how a channel starts and stops. -/

namespace Sys2Proof.Machine

/-! ### Parts of the state -/

/-- Channel `n`. -/
def State.chan (s : State) (n : Nat) : DmaCh := sget s.dma n DmaCh.idle

/-- Update channel `n`. -/
def State.onChan (s : State) (n : Nat) (f : DmaCh → DmaCh) : State := { s with dma := smod s.dma n DmaCh.idle f }

/-- The stream of Flowstone unit `u`: compressors 0 to 3, decompressors 4 and 5. -/
def State.flow (s : State) (u : Nat) : FlowStream := sget s.flw u FlowStream.idle

/-- Update the stream of unit `u`. -/
def State.onFlow (s : State) (u : Nat) (f : FlowStream → FlowStream) : State := { s with flw := smod s.flw u FlowStream.idle f }

/-- A write to host memory as TLPs (R323): each of at most `size` bytes, none across a 4 KiB boundary of the address. -/
def tlpsOf (size : Nat) : Nat → Nat → List Byte → List (Nat × List Byte)
  | 0, _, _ => []
  | fuel + 1, addr, data =>
    if data.isEmpty then []
    else
      let k := min size (4096 - addr % 4096)
      (addr, data.take k) :: tlpsOf size fuel ((addr + k) % 2 ^ 64) (data.drop k)

/-- The Max Payload Size that Device Control sets (R30): 128, 256 or 512 bytes. -/
def Link.maxPayload (l : Link) : Nat := 128 * 2 ^ min 2 (field l.devControl 5 3)

/-- A write of the engine to host memory, in TLPs; `relaxed` and `noSnoop` ask for Relaxed Ordering and No Snoop, which
Device Control permits in its bits 4 and 11 (R30, R317). PRESUMED, log entry 102. -/
def State.hostWrite (s : State) (addr : Nat) (data : List Byte) (poisoned relaxed noSnoop : Bool) : State :=
  s.onLink (fun l => { l with hostOut := l.hostOut ++ (tlpsOf l.maxPayload data.length addr data).map (fun p =>
    ⟨p.1, p.2, poisoned, relaxed && bitOf l.devControl 4, noSnoop && bitOf l.devControl 11⟩) })

/-- DMA_CH_n_STATUS.STATE (R332). -/
def State.dmaState (s : State) (n : Nat) : Nat := s.get (DMA_STATUS_STATE.of n)

/-- Bit `i` of DMA_CH_n_CAUSE; with its enable it raises the channel's event (R340). -/
def State.dmaCause (s : State) (n i : Nat) : State :=
  let f := match i with
    | 0 => DMA_CAUSE_DONE.of n
    | 1 => DMA_CAUSE_ABORTED.of n
    | 2 => DMA_CAUSE_KILLED.of n
    | 3 => DMA_CAUSE_ERROR.of n
    | 4 => DMA_CAUSE_DESC_IRQ.of n
    | _ => DMA_CAUSE_UE.of n
  let s1 := s.set f 1
  if bitOf (s1.get (DMA_CAUSE_EN.of n)) i then s1.raise (386 + n) else s1

/-! ### Descriptors (R317 to R320) -/

/-- Word `i` of a descriptor. -/
def descWord (d : List Nat) (i : Nat) : Nat := d.getD i 0

/-- Its counts of loops 0, 1 and 2. -/
def descCount (d : List Nat) (i : Nat) : Nat :=
  match i with
  | 0 => field (descWord d 5) 0 24
  | 1 => field (descWord d 5) 24 24
  | _ => field (descWord d 6) 0 24

/-- Bytes of an element. -/
def elemBytes (d : List Nat) : Nat := field (descWord d 6) 24 24 * 64
/-- Space of the source. -/
def srcSpace (d : List Nat) : Nat := field (descWord d 6) 48 3
/-- Space of the destination. -/
def dstSpace (d : List Nat) : Nat := field (descWord d 6) 51 3
/-- PIPE: 0 none, 1 compressor, 2 decompressor. -/
def pipeOf (d : List Nat) : Nat := field (descWord d 6) 54 2
/-- The pipe's unit: compressors 0 to 3, decompressors 4 and 5 (a decompressor's UNIT has one bit in use). -/
def pipeUnit (d : List Nat) : Option Nat :=
  match pipeOf d with
  | 1 => some (field (descWord d 6) 56 2)
  | 2 => some (4 + field (descWord d 6) 56 2 % 2)
  | _ => none

/-- Elements of a descriptor. -/
def elements (d : List Nat) : Nat := descCount d 0 * descCount d 1 * descCount d 2

/-- The signed step of loop `i`, of the source or of the destination. -/
def stepOf (d : List Nat) (i : Nat) (dst : Bool) : Int := signed 32 (field (descWord d (2 + i)) (if dst then 32 else 0) 32)

/-- The index of loop `i` at element `e`, loop 0 innermost (R320). -/
def loopIndex (d : List Nat) (i e : Nat) : Nat :=
  match i with
  | 0 => e % descCount d 0
  | 1 => e / descCount d 0 % descCount d 1
  | _ => e / descCount d 0 / descCount d 1

/-- The address of element `e` in 64 bits. -/
def elemAddr (d : List Nat) (e : Nat) (dst : Bool) : Nat :=
  let base : Int := descWord d (if dst then 1 else 0)
  unsigned 64 (base + (upto 3).foldl (fun a i => a + (loopIndex d i e : Int) * stepOf d i dst) 0)

/-- The descriptor is invalid (R319). DEDUCED, log entry 33. -/
def descInvalid (d : List Nat) : Bool :=
  let sp := srcSpace d
  let dp := dstSpace d
  let odd : Bool → Bool := fun dst => (upto 3).any (fun i => stepOf d i dst % 64 != 0)
  descWord d 0 % 64 != 0 || odd false ||
    (dp != 3 && (descWord d 1 % 64 != 0 || odd true)) || (dp == 3 && descWord d 1 / 8 != 0) ||
    (upto 3).any (fun i => descCount d i == 0) || elemBytes d == 0 ||
    decide (3 < sp) || decide (3 < dp) || pipeOf d == 3 || sp == 3 ||
    field (descWord d 5) 48 16 != 0 || bitOf (descWord d 6) 63 || field (descWord d 7) 2 5 != 0 ||
    (pipeOf d == 2 && decide (1 < field (descWord d 6) 56 2))

/-! ### Targets (R316, R318, R327) -/

/-- Grotto and word of a grotto address, and the operation that its window gives a write (R294). -/
def grottoTarget (a : Nat) : Option (Nat × Nat × GrottoOp) :=
  let x := a % 2 ^ 26
  match a / 2 ^ 26 with
  | 0 => some (x / 2 ^ 20, x / 8 % grottoWords, .write)
  | 1 => some (x / 2 ^ 20, x / 8 % grottoWords, .set)
  | 2 => some (x / 2 ^ 20, x / 8 % grottoWords, .clear)
  | _ => none

/-- The grotto of an address in any of the windows. -/
def grottoOf (a : Nat) : Nat := ((grottoTarget a).map (fun p => p.1)).getD 64

/-- Host requests wait (R316). -/
def State.hostWaits (s : State) : Bool :=
  !s.link.ready || s.link.dstate != .d0 || !s.link.busMaster

/-- HBM requests wait (R286, R316): while the HBM is stopped, on bypass, in PARKING, and while READY is 0 but in PARK. -/
def State.hbmWaits (s : State) : Bool :=
  s.onBypass || s.is HBM_G_STATUS_STOPPED.one || s.get PWR_STATUS_STATE.one == 2 ||
    (!s.is HBM_G_STATUS_READY.one && s.get PWR_STATUS_STATE.one != 3)

/-- The HBM addresses from `a`, `len` bytes, touch the region of a running session: one that is CASTING, RUNNING or CLOSING
(R39, R327; DESIGN CHOICE, log entry 93). -/
def State.inRunningRegion (s : State) (a len : Nat) : Bool :=
  (upto 8).any (fun i => s.sessRuns i &&
    decide (a < s.get (WR_SESSION_REGION_BASE.elt i) + s.get (WR_SESSION_REGION_SIZE.elt i)) &&
    decide (s.get (WR_SESSION_REGION_BASE.elt i) < a + len))

/-- The requester of a channel's grotto accesses: the compressor's tag while a pipe runs (R318). -/
def dmaPort (d : List Nat) : GrottoPort := if pipeOf d = 0 then .dma else .compressor

/-- The ERR_CAUSE with which a burst is turned away before it is issued (R327, R336); 0: it may go. -/
def State.burstFault (s : State) (d : List Nat) (b : DmaBurst) : Nat :=
  let gone : Option (Nat × Nat) → Bool := fun p => match p with
    | none => true
    | some (pc, _) => s.pcState pc == 3
  let pieces := upto (ceilDiv b.len 64)
  let hbmRead := fun (a : Nat) => if pieces.any (fun i => gone (s.translateRead (a + 64 * i))) then 2 else 0
  let hbmWrite := fun (a : Nat) => if pieces.any (fun i => gone (s.translate (a + 64 * i))) then 2
    else if s.inRunningRegion a b.len then 3 else 0
  let src := if b.kind = .drain then 0 else if srcSpace d = 0 then hbmRead b.src else 0
  let dst := if b.kind = .feed then 0 else if dstSpace d = 0 then hbmWrite b.dst else 0
  if src ≠ 0 then src else dst

/-- A space makes its requests wait. -/
def State.spaceWaits (s : State) (space : Nat) : Bool :=
  match space with
  | 0 => s.hbmWaits
  | 2 => s.hostWaits
  | _ => false

/-- Read requests of a burst from host memory: two where it crosses a 4 KiB boundary (R323). -/
def readRequests (b : DmaBurst) : Nat := if b.kind = .drain then 0 else if 4096 < b.src % 4096 + b.len then 2 else 1

/-- Host read requests in flight, engine-wide. -/
def State.hostReads (s : State) : Nat :=
  ((upto 64).map (fun n => let c := s.chan n
    if srcSpace c.desc = 2 then (c.inflight.map readRequests).sum else 0)).sum

/-- The replay input of sequencer `q` accepts bursts: it replays, or its arm is staged, and 64 KiB do not wait.
DESIGN CHOICE, log entry 37. -/
def State.replayRoom (s : State) (q : Nat) : Bool :=
  (s.get (TRG_STATUS_STATE.of q) == 4 || s.get (TRG_STATUS_STATE.of q) == 1) && decide ((s.seq q).playIn.length < 8192)

/-! ### The next burst (R314, R320, R321) -/

/-- A pipe's unit can take more input: a compressor until it holds a block, a decompressor until it holds its next
item, bursts in flight included. -/
def State.pipeHungry (s : State) (c : DmaCh) (u : Nat) : Bool :=
  let f := s.flow u
  let coming := ((c.inflight.filter (fun b => b.kind == .feed)).map (·.len)).sum
  decide (f.inBuf.length + coming < (if u < 4 then blockBytes else f.need))

/-- The destination element and the offset in it at which a pipe's output stands. -/
def outPlace (d : List Nat) (at_ : Nat) : Nat × Nat := (at_ / elemBytes d, at_ % elemBytes d)

/-- Bytes of the pipe's output that the next drain takes: a burst, or what is left of a finished stream. -/
def State.drainSize (s : State) (c : DmaCh) (u : Nat) : Nat :=
  let f := s.flow u
  let full := if dstSpace c.desc = 3 then 256 else min 256 (elemBytes c.desc - (outPlace c.desc c.outGrant).2)
  if full ≤ f.out.length then full else if f.stage = .done then f.out.length else 0

/-- The output has no element left to go to (R321). -/
def State.outFull (s : State) (c : DmaCh) (u : Nat) : Bool :=
  dstSpace c.desc != 3 && decide (0 < s.drainSize c u) && decide (elements c.desc ≤ (outPlace c.desc c.outGrant).1)

/-- The next burst of channel `n`, if it has one. -/
def State.nextBurst (s : State) (n : Nat) : Option DmaBurst :=
  let c := s.chan n
  let d := c.desc
  let e := c.granted / elemBytes d
  let off := c.granted % elemBytes d
  let len := min 256 (elemBytes d - off)
  let source := (elemAddr d e false + off) % 2 ^ 64
  match pipeUnit d with
  | none =>
    if e < elements d then
      some ⟨.move, source, if dstSpace d = 3 then descWord d 1 else (elemAddr d e true + off) % 2 ^ 64, len, []⟩
    else none
  | some u =>
    let k := s.drainSize c u
    if 0 < k then
      let p := outPlace d c.outGrant
      some ⟨.drain, 0, if dstSpace d = 3 then descWord d 1 else (elemAddr d p.1 true + p.2) % 2 ^ 64, k, (s.flow u).out.take k⟩
    else if e < elements d && (s.flow u).stage != .done && s.pipeHungry c u then some ⟨.feed, source, 0, len, []⟩
    else none

/-- A channel other than `n` holds unit `u`. -/
def State.heldByOther (s : State) (n u : Nat) : Bool := (upto 64).any (fun m => m != n && (s.chan m).pipe == some u)

/-- A channel of a higher claim waits for unit `u` (R324): a lower priority level, or a lower number on the same. -/
def State.outranked (s : State) (n u : Nat) : Bool :=
  let claim : Nat → Nat := fun m => s.get (DMA_CTRL_PRIO.of m) * 64 + m
  (upto 64).any (fun m => m != n && s.dmaState m == 1 && (s.chan m).phase == .move && (s.chan m).pipe.isNone &&
    pipeUnit (s.chan m).desc == some u && decide (claim m < claim n))

/-- The unit of a descriptor's pipe is fenced (R324). DEDUCED, log entry 104. -/
def State.unitFenced (s : State) (d : List Nat) : Bool :=
  match pipeUnit d with
  | some u => if u < 4 then bitOf (s.get FLW_STATUS_COMP_FENCED.one) u else bitOf (s.get FLW_STATUS_DEC_FENCED.one) (u - 4)
  | none => false

/-- The pipe of channel `n` has rejected its stream (R325). -/
def State.pipeBad (s : State) (n : Nat) : Bool :=
  match (s.chan n).pipe with
  | some u => (s.flow u).bad
  | none => false

/-- Channel `n` waits for its pipe unit (R324). -/
def State.unitWaits (s : State) (n : Nat) : Bool :=
  s.dmaState n == 1 && (s.chan n).phase == .move &&
    (match pipeUnit (s.chan n).desc with
    | some u => (s.chan n).pipe.isNone && (s.heldByOther n u || s.outranked n u)
    | none => false)

/-- The source or destination of channel `n`'s next burst waits (R316). -/
def State.targetWaits (s : State) (n : Nat) : Bool :=
  let d := (s.chan n).desc
  s.dmaState n == 1 && (s.chan n).phase == .move &&
    (match s.nextBurst n with
    | some b => (b.kind != .drain && s.spaceWaits (srcSpace d)) || (b.kind != .feed && s.spaceWaits (dstSpace d))
    | none => false)

/-- The ERR_CAUSE with which the next burst `b` of channel `n` is turned away before it is issued (R321, R327); 0: none.
DEDUCED, log entry 32. -/
def State.grantFault (s : State) (n : Nat) (b : DmaBurst) : Nat :=
  match pipeUnit (s.chan n).desc with
  | some u => if b.kind = .drain ∧ s.outFull (s.chan n) u then 7 else s.burstFault (s.chan n).desc b
  | none => s.burstFault (s.chan n).desc b

/-- Channel `n` is ready for a grant (R315); a burst that must be turned away comes to its turn once those before it have
completed (R322, R336). -/
def State.dmaReady (s : State) (n : Nat) : Bool :=
  let c := s.chan n
  let d := c.desc
  s.dmaState n == 1 && c.phase == .move && !c.aborting && !s.pipeBad n && !s.unitFenced d && decide (c.inflight.length < 32) &&
    (match s.nextBurst n with
    | none => false
    | some b =>
      !s.targetWaits n && (c.inflight.isEmpty || s.grantFault n b == 0) &&
      (b.kind == .drain || srcSpace d != 2 || decide (s.hostReads < max 1 (s.get DMA_G_CTRL_HOST_READS.one))) &&
      (b.kind == .feed || dstSpace d != 3 || s.replayRoom (descWord d 1)) &&
      (match pipeUnit d with
      | none => true
      | some u => c.pipe == some u || (!s.heldByOther n u && !s.outranked n u)))

/-! ### Pipe units (R324, R355) -/

/-- HELD, CHANNEL and the STATUS bit of a unit. -/
def State.holdMarks (s : State) (u n : Nat) (held : Bool) : State :=
  if u < 4 then
    ((s.set (FLW_COMP_STATUS_HELD.elt u) (flag held)).set (FLW_COMP_STATUS_CHANNEL.elt u) n).setBit FLW_STATUS_COMP_HELD.one u held
  else
    ((s.set (FLW_DEC_STATUS_HELD.elt (u - 4)) (flag held)).set (FLW_DEC_STATUS_CHANNEL.elt (u - 4)) n).setBit
      FLW_STATUS_DEC_HELD.one (u - 4) held

/-- Channel `n` takes unit `u`: a compressor's stream has the level now set (R351). -/
def State.takeUnit (s : State) (n u : Nat) : State :=
  let level := if u < 4 then min 9 (s.get (FLW_COMP_CTRL.elt u)) else 0
  let s1 := (s.onChan n (fun c => { c with pipe := some u })).holdMarks u n true
  let s2 := s1.onFlow u (fun _ => { FlowStream.idle with level := level })
  if u < 4 then s2.set (FLW_COMP_STATUS_LEVEL.elt u) level else s2

/-- Channel `n` lets go of its unit: a compressor counts its stream, completed with its trailer where it is `whole`, cut
otherwise (R355, R357). -/
def State.freeUnit (s : State) (n : Nat) (whole : Bool) : State :=
  match (s.chan n).pipe with
  | none => s
  | some u =>
    let s1 := ((s.onChan n (fun c => { c with pipe := none })).holdMarks u n false).onFlow u (fun _ => FlowStream.idle)
    if 4 ≤ u then s1
    else if whole then s1.add (FLW_COMP_STREAMS.elt u) 1
    else (s1.add (FLW_COMP_CUT.elt u) 1).raise (450 + u)

/-! ### Positions and the end of a run (R332, R333, R336) -/

/-- POS0 to POS2 and ELEM_OFF name the first source byte not consumed. -/
def State.dmaPosition (s : State) (n : Nat) : State :=
  let c := s.chan n
  let e := c.moved / elemBytes c.desc
  (((s.set (DMA_POS0.of n) (loopIndex c.desc 0 e)).set (DMA_POS1.of n) (loopIndex c.desc 1 e)).set (DMA_POS2.of n)
    (loopIndex c.desc 2 e)).set (DMA_ELEM_OFF.of n) (c.moved % elemBytes c.desc)

/-- Source bytes have been consumed. -/
def State.consumed (s : State) (n k : Nat) : State :=
  (((s.onChan n (fun c => { c with moved := c.moved + k })).add (DMA_IN_BYTES.of n) k).add (DMA_TOTAL_BYTES.of n) k).dmaPosition n

/-- A replay that channel `n` feeds gets no more input, for the reason `why`. -/
def State.feedEnds (s : State) (n why : Nat) : State :=
  forEach (upto 8) s (fun q s =>
    if (s.seq q).channel = n + 1 && (s.seq q).playStop == 0 then s.onSeq q (fun x => { x with playStop := why }) else s)

/-- The channel leaves RUN: its STATE, RESULT and cause, its unit freed, its replay told. -/
def State.dmaStop (s : State) (n state result errCause : Nat) : State :=
  let s1 := (((s.freeUnit n false).set (DMA_STATUS_STATE.of n) state).set (DMA_STATUS_RESULT.of n) result).set
    (DMA_STATUS_ERR_CAUSE.of n) errCause
  let s2 := s1.onChan n (fun c => { c with inflight := [], aborting := false, phase := if state = 2 then c.phase else .none })
  let s3 := s2.dmaCause n (match result with
    | 1 => 0
    | 2 => 1
    | 3 => 2
    | _ => 3)
  s3.feedEnds n (match result with
    | 1 => 1
    | 4 => if errCause = 8 then 2 else 3
    | _ => 3)

/-- An ERROR (R336): bursts in flight behind the failing one are dropped, so that the counts are exact.
DEDUCED, log entry 32. -/
def State.dmaError (s : State) (n cause : Nat) : State := s.dmaStop n 3 4 cause

/-- An ABORT (R333, R334): it reaches the status stage once no burst is in flight. -/
def State.dmaAbort (s : State) (n : Nat) : State :=
  if s.dmaState n ≠ 1 then s
  else if (s.chan n).inflight.isEmpty then s.dmaStop n 3 2 0
  else s.onChan n (fun c => { c with aborting := true })

/-- The bytes from `a` of the HBM have become open: pending writes are issued first. -/
def State.scrambleHbm (s : State) (a : Nat) : State :=
  match s.translate a with
  | some (pc, x) => ((s.issueAll pc).onHbm (fun h => { h with mem := putBytes h.mem (memKey pc x) (toBytes 64 s.free) })).drew
  | none => s

/-- The 64 bytes at `a` of a space have become open. -/
def State.scramble64 (s : State) (d : List Nat) (a : Nat) : State :=
  match dstSpace d with
  | 0 => if s.inRunningRegion a 64 then s else s.scrambleHbm a
  | 1 => match grottoTarget a with
    | some (b, w, _) =>
      if s.grottoFenced b || !allowed (s.rights b) (dmaPort d) true then s
      else forEach (upto 8) s (fun i s => (s.putWord b (w + i) s.free false).drew)
    | none => s
  | _ => s

/-- Every destination byte of channel `n`'s current descriptor has become open (R335). DESIGN CHOICE, log entry 34. -/
def State.scrambleDst (s : State) (n : Nat) : State :=
  let d := (s.chan n).desc
  forEach (upto (elements d)) s (fun e s =>
    forEach (upto (elemBytes d / 64)) s (fun k s => s.scramble64 d ((elemAddr d e true + 64 * k) % 2 ^ 64)))

/-- A count or position register takes an open value. -/
def State.openReg (s : State) (f : Fld) : State := (s.set f s.free).drew

/-- A kill (R335): the destination bytes of the current descriptor and every count and position are open.
DESIGN CHOICE, log entry 34. -/
def State.dmaKill (s : State) (n : Nat) : State :=
  if s.dmaState n = 4 then s
  else
    let s2 := forEach [DMA_CUR, DMA_POS0, DMA_POS1, DMA_POS2, DMA_ELEM_OFF, DMA_IN_BYTES, DMA_OUT_BYTES, DMA_TOTAL_BYTES,
      DMA_DESCS, DMA_KICKS, DMA_UE, DMA_LAST_UE] (s.scrambleDst n) (fun f s => s.openReg (f.of n))
    ((s2.set (DMA_STATUS_KICK_PENDING.of n) 0).dmaStop n 4 3 0).onChan n (fun _ => DmaCh.idle)

/-- CUR names the descriptor to be fetched next. -/
def State.fetchFrom (s : State) (n cur : Nat) : State :=
  (s.set (DMA_CUR.of n) cur).onChan n (fun c => { c with phase := .fetch, desc := [], granted := 0, moved := 0, outGrant := 0 })

/-- A START (R332). DEDUCED, log entry 32. -/
def State.dmaStart (s : State) (n : Nat) : State :=
  match s.dmaState n with
  | 1 => s.accessErr (PageClass.page .dma n) 0x040
  | 4 => s
  | _ =>
    let s1 := forEach [DMA_POS0, DMA_POS1, DMA_POS2, DMA_ELEM_OFF, DMA_IN_BYTES, DMA_OUT_BYTES, DMA_TOTAL_BYTES, DMA_DESCS,
      DMA_KICKS, DMA_UE, DMA_LAST_UE, DMA_STATUS_KICK_PENDING, DMA_STATUS_RESULT, DMA_STATUS_ERR_CAUSE] s (fun f s => s.set (f.of n) 0)
    ((s1.set (DMA_STATUS_STATE.of n) 1).onChan n (fun _ => DmaCh.idle)).fetchFrom n
      (s.get (DMA_HEAD_ADDR.of n) * 2 ^ 7 + s.get (DMA_HEAD_HOST.of n) * 2)

/-- A write of `value` to DMA_CH_n_CTRL (R332, R333, R335). -/
def State.dmaCtrlWrite (s : State) (n value : Nat) : State :=
  let s1 := (s.set (DMA_CTRL_PRIO.of n) (field value 24 3)).set (DMA_CTRL_ENABLE.of n) (field value 31 1)
  if !bitOf value 31 then s1.dmaKill n
  else if s.dmaState n = 4 then s1.set (DMA_STATUS_STATE.of n) 0
  else
    let s2 := if bitOf value 1 then s1.dmaAbort n else s1
    if bitOf value 0 then s2.dmaStart n else s2

/-- A ring (R330). DEDUCED, log entry 32. -/
def State.chainKick (s : State) (n : Nat) : State :=
  let s1 := s.add (DMA_KICKS.of n) 1
  if !s.is (DMA_CTRL_ENABLE.of n) then s1
  else match s.dmaState n with
    | 1 => s1.set (DMA_STATUS_KICK_PENDING.of n) 1
    | 2 => ((s1.set (DMA_STATUS_STATE.of n) 1).set (DMA_STATUS_RESULT.of n) 0).onChan n (fun c => { c with phase := .link })
    | _ => s1

/-! ### Moving bytes -/

/-- A pseudo-channel's 64 bytes as a DMA read gets them: a unit fenced since the previous map answers zeros marked
uncorrectable, and so does a powered-down one (R282, R287). -/
def State.dmaHbmRead (s : State) (a : Nat) (finding : EccFinding) : State × List Byte × Bool :=
  match s.translateRead a with
  | none => (s, toBytes 64 0, true)
  | some (pc, x) =>
    if s.pcState pc = 3 ∨ s.pcState pc = 2 then (s, toBytes 64 0, true)
    else
      let s1 := (s.wakePc pc).eccRead pc x finding
      (s1, s1.hbm.burstAt pc x, s1.hbm.markAt pc x == 1)

/-- AUTO_RELEASE: a DMA read completes on the burst at RELEASED of a LOG lane (R247). -/
def State.readReleases (s : State) (a : Nat) : State :=
  forEach (upto 72) s (fun l s =>
    match s.laneOwner l with
    | none => s
    | some i =>
      let r := s.get (WR_LANE_RELEASED.win l)
      let size := s.get (WR_LANE_SIZE.win l)
      if s.policy i = 2 && s.is (WR_SESSION_CTRL.elt i) && decide (0 < size) &&
          decide (r < s.get (WR_LANE_WRITTEN.win l)) && s.get (WR_LANE_BASE.win l) + r % size == a then
        s.releaseTo i l (r + 64)
      else s)

/-- The eight words at a grotto address are read: the data, whether a word carries the uncorrectable mark, and whether
the access was denied. Above the windows a read returns zero (R294). -/
def State.dmaGrottoRead (s : State) (port : GrottoPort) (a : Nat) (findings : List EccFinding) : State × List Byte × Bool × Bool :=
  match grottoTarget a with
  | none => (s, toBytes 64 0, false, false)
  | some (b, w, _) =>
    (upto 8).foldl (fun (r : State × List Byte × Bool × Bool) i =>
      let s1 := r.1.grottoServe ⟨port, b, w + i, .read, 0xFF, 0, findings.getD i .clean, r.1.rights b, none⟩
      (s1, r.2.1 ++ toBytes 8 s1.grt.delivered, r.2.2.1 || s1.grt.marked, r.2.2.2 || s1.grt.denied)) (s, [], false, false)

/-- 64 bytes of a source: the data, the uncorrectable mark, and a denial. `findings` are those of the burst's one access to
the HBM, or of the eight to a grotto. -/
def State.dmaRead64 (s : State) (d : List Nat) (a : Nat) (findings : List EccFinding) : State × List Byte × Bool × Bool :=
  match srcSpace d with
  | 0 => let r := s.dmaHbmRead a (findings.getD 0 .clean)
         (r.1, r.2.1, r.2.2, false)
  | _ => s.dmaGrottoRead (dmaPort d) a findings

/-- `k` runs of 64 bytes of a source from `a` on, with the findings of each access. -/
def State.dmaReadRun (d : List Nat) : Nat → Nat → List EccFinding → State → State × List Byte × Bool × Bool
  | 0, _, _, s => (s, [], false, false)
  | k + 1, a, findings, s =>
    let per := if srcSpace d = 0 then 1 else 8
    let r := s.dmaRead64 d a (findings.take per)
    let q := State.dmaReadRun d k (a + 64) (findings.drop per) r.1
    (q.1, r.2.1 ++ q.2.1, r.2.2.1 || q.2.2.1, r.2.2.2 || q.2.2.2)

/-- Words written from a grotto address on, with the check bits of uncorrectable words where the data is marked;
whether one was denied. Above the windows a write is ignored. -/
def State.dmaGrottoWrite (s : State) (port : GrottoPort) (a : Nat) (data : List Byte) (marked : Bool) : State × Bool :=
  (upto (ceilDiv data.length 8)).foldl (fun (r : State × Bool) i =>
    match grottoTarget (a + 8 * i) with
    | none => r
    | some (b, w, op) =>
      let word := BitVec.ofNat 64 (ofBytes ((data.drop (8 * i)).take 8))
      let s1 := r.1.grottoServe ⟨port, b, w, op, 0xFF, word, .clean, r.1.rights b, none⟩
      let s2 := if marked && !s1.grt.denied && op == .write then s1.putWord b w word.toNat true else s1
      (s2, r.2 || s1.grt.denied)) (s, false)

/-- Bursts of 64 bytes written to the HBM from `a` on. -/
def State.dmaHbmWrite (s : State) (a : Nat) (data : List Byte) (mark : Nat) : State :=
  forEach (upto (data.length / 64)) s (fun i s =>
    (s.writeBurst (a + 64 * i) ((data.drop (64 * i)).take 64) mark 0 0).getD s)

/-- Words of a byte string, and the bytes of an unfinished one. -/
def wordsOf : Nat → List Byte → List Stitch × List Byte
  | 0, bytes => ([], bytes)
  | k + 1, bytes =>
    if bytes.length < 8 then ([], bytes)
    else
      let r := wordsOf k (bytes.drop 8)
      (BitVec.ofNat 64 (ofBytes (bytes.take 8)) :: r.1, r.2)

/-- Bytes arrive at the replay input of sequencer `q`. -/
def State.replayInput (s : State) (q : Nat) (data : List Byte) : State :=
  s.onSeq q (fun x =>
    let r := wordsOf data.length (x.playTail ++ data)
    { x with playIn := x.playIn ++ r.1, playTail := r.2 })

/-- Zero bytes up to the next 64-byte boundary (R321). -/
def padded (data : List Byte) : List Byte := data ++ List.replicate (ceilTo data.length 64 - data.length) 0

/-- Bytes go to the destination of a burst: the state, and whether the access was denied. -/
def State.dmaWrite (s : State) (d : List Nat) (a : Nat) (data : List Byte) (marked : Bool) : State × Bool :=
  match dstSpace d with
  | 0 => (s.dmaHbmWrite a (padded data) (flag marked), false)
  | 1 => s.dmaGrottoWrite (dmaPort d) a (padded data) marked
  | 2 => (s.hostWrite a data (marked && s.is DMA_G_CTRL_EP_EN.one) (bitOf (descWord d 6) 61) (bitOf (descWord d 6) 62), false)
  | _ => (s.replayInput a data, false)

/-! ### Descriptors and links in memory -/

/-- A 64-bit word of a chain in the grotto address space, with what its check bits find (R303); none where it is denied,
fenced or uncorrectable. DEDUCED, log entry 32. -/
def State.chainWord (s : State) (a : Nat) (finding : EccFinding) : State × Option Nat :=
  match grottoTarget a with
  | none => (s, some 0)
  | some (b, w, _) =>
    let s1 := s.grottoServe ⟨.dma, b, w, .read, 0xFF, 0, finding, s.rights b, none⟩
    (s1, if s1.grt.denied || s1.grt.marked then none else some s1.grt.delivered)

/-- Words 0x00 to 0x38 of the descriptor at a grotto address. -/
def State.chainDesc (s : State) (a : Nat) (findings : List EccFinding) : State × Option (List Nat) :=
  (upto 8).foldl (fun (r : State × Option (List Nat)) i =>
    let q := r.1.chainWord (a + 8 * i) (findings.getD i .clean)
    (q.1, match r.2, q.2 with
      | some l, some v => some (l ++ [v])
      | _, _ => none)) (s, some [])

/-- The chain of a descriptor address lies in host memory: bit 1 of CUR (R338). -/
def inHost (cur : Nat) : Bool := bitOf cur 1

/-- The byte address of a descriptor. -/
def descAddr (cur : Nat) : Nat := cur / 128 * 128

/-- The completion words 0x40 and 0x48 (R317, R322). -/
def State.writeBack (s : State) (n : Nat) : State × Bool :=
  let cur := s.get (DMA_CUR.of n)
  let data := toBytes 8 (2 ^ 63 + s.get (DMA_OUT_BYTES.of n)) ++ toBytes 8 (s.get (DMA_IN_BYTES.of n))
  let w := descWord (s.chan n).desc 6
  if inHost cur then (s.hostWrite (descAddr cur + 0x40) data false (bitOf w 61) (bitOf w 62), false)
  else s.dmaGrottoWrite .dma (descAddr cur + 0x40) data false

/-- The memory that holds channel `n`'s chain does not answer now: host memory (R32, R33), or a grotto being filled
(R299). -/
def State.chainWaits (s : State) (n : Nat) : Bool :=
  let cur := s.get (DMA_CUR.of n)
  if inHost cur then s.hostWaits else s.grottoWaits (grottoOf cur)

/-- The descriptor of channel `n` completes (R322): its unit freed, completion words, IRQ, and its LINK to be read. -/
def State.descDone (s : State) (n : Nat) : State :=
  let d := (s.chan n).desc
  let s0 := s.freeUnit n true
  let r := if bitOf (descWord d 6) 59 then s0.writeBack n else (s0, false)
  if r.2 then r.1.dmaError n 4
  else
    let s1 := r.1.add (DMA_DESCS.of n) 1
    let s2 := if bitOf (descWord d 6) 58 then s1.dmaCause n 4 else s1
    s2.onChan n (fun c => { c with phase := .link })

/-- Everything of the descriptor has moved. -/
def State.descComplete (s : State) (n : Nat) : Bool :=
  let c := s.chan n
  c.phase == .move && c.inflight.isEmpty && !s.unitFenced c.desc &&
    (match c.pipe with
    | some u => (s.flow u).stage == .done && (s.flow u).out.isEmpty
    | none => (pipeUnit c.desc).isNone && decide (elements c.desc * elemBytes c.desc ≤ c.moved))

/-- After a burst: an abort, a rejection or the fence of its unit that waited takes the channel once nothing is in flight
(R325, R333, R355), and a descriptor all of whose bytes have moved completes, once its completion words can be written. -/
def State.dmaSettle (s : State) (n : Nat) : State :=
  if s.dmaState n ≠ 1 then s
  else if (s.chan n).aborting && (s.chan n).inflight.isEmpty then s.dmaStop n 3 2 0
  else if s.pipeBad n && (s.chan n).inflight.isEmpty then s.dmaError n 8
  else if (s.chan n).phase == .move && s.unitFenced (s.chan n).desc && (s.chan n).inflight.isEmpty then s.dmaError n 6
  else if s.descComplete n && !(bitOf (descWord (s.chan n).desc 6) 59 && s.chainWaits n) then s.descDone n
  else s

/-- A LINK word is acted upon (R329). -/
def State.linkRead (s : State) (n word : Nat) : State :=
  if !bitOf word 0 then s.fetchFrom n (word / 128 * 128 + flag (bitOf word 1) * 2)
  else if s.is (DMA_STATUS_KICK_PENDING.of n) then s.set (DMA_STATUS_KICK_PENDING.of n) 0
  else s.dmaStop n 2 1 0

end Sys2Proof.Machine
end

