-- ==== Sys2Proof/Machine/Replay.lean ====
section
/-! DEFINITION. Replay (R214 to R217): the units of a stored stream rebuilt into levels, edges and state samples, their
evaluation in stream time by a detached sequencer, and the copy of the units its gate lets through. -/

namespace Sys2Proof.Machine

/-! ### The stream (R165, R166, R169 to R173) -/

/-- What stands at the front of a stream: a unit, a QUALITY stitch, anything else, or too little to tell. -/
inductive StreamItem where
  | unit (words rest : List Stitch)
  | quality (word : Stitch) (rest : List Stitch)
  | other (rest : List Stitch)
  | short
  deriving DecidableEq, Repr

/-- The first item of a stream (R166). -/
def firstItem : List Stitch → StreamItem
  | [] => .short
  | w :: rest =>
    let x := w.toNat
    let t := field x 60 4
    let len := field x 37 12
    if t = 1 ∨ t = 4 ∨ t = 7 then
      (if rest.length < 1 + len then .short else .unit (w :: rest.take (1 + len)) (rest.drop (1 + len)))
    else if t = 0xA ∨ 0xD ≤ t then (if rest.length < len then .short else .other (rest.drop len))
    else if t = 0xB then .quality w rest
    else .other rest

/-- An opener's fields. -/
structure Opener where
  typ   : Nat
  enc   : Nat
  skein : Nat
  flg   : Bool
  gauge : Nat
  mask  : Nat
  start : Nat
  deriving DecidableEq, Repr

/-- The opener and the start time of a unit (R169, R170). -/
def openerOf (words : List Stitch) : Opener :=
  let x := (words.getD 0 0).toNat
  let typ := field x 60 4
  let stamp := field (words.getD 1 0).toNat 0 60 * 16 + (if typ = 7 then field x 32 4 else 0)
  { typ := typ, enc := field x 58 2, skein := field x 50 6, flg := bitOf x 49, gauge := field x 32 5
    mask := field x 16 16, start := field x 0 16 * 2 ^ 64 + stamp }

/-- The bits of a payload as one number (R146). -/
def payloadBits (body : List Stitch) : Nat := body.foldr (fun w a => w.toNat + 2 ^ 64 * a) 0

/-- Levels of all sixteen channels from a sample's bits, disabled ones low (R146). -/
def unsqueeze (mask bits : Nat) : Nat :=
  ((bitsOf 16 mask).foldl (fun (a : Nat × Nat) c => (setLevel a.1 c (bitOf bits a.2), a.2 + 1)) (0, 0)).1

/-- Sample `m` of a payload. -/
def payloadSample (mask stream m : Nat) : Nat := unsqueeze mask (stream / 2 ^ (m * popcount 16 mask))

/-- Edges at the changes of level from sample to sample, fine-valid 0 (R215). -/
def changesOf (mask stream start step : Nat) : Nat → Nat → Nat → List Edge
  | 0, _, _ => []
  | fuel + 1, m, levels =>
    let now := payloadSample mask stream m
    ((bitsOf 16 mask).filter (fun c => bitOf now c != bitOf levels c)).map (fun c =>
      (⟨c, bitOf now c, false, start + m * step, start + m * step⟩ : Edge)) ++ changesOf mask stream start step fuel (m + 1) now

/-- An edge entry (R171) of a frame that starts at `b`. -/
def entryEdge (b e : Nat) : Edge := ⟨field e 20 4, bitOf e 19, bitOf e 18, b + field e 0 18, b + field e 0 18⟩

/-- The edges that one stitch of an edge frame presents (R215), and the edges of its run that it does not. -/
def stitchEdges (b : Nat) (w : Stitch) : List Edge × Nat :=
  let x := w.toNat
  if field x 60 4 = 3 then
    ([entryEdge b (field x 0 24)] ++ (if bitOf x 49 then [entryEdge b (field x 24 24)] else []), 0)
  else if field x 60 4 = 5 then
    let ch := field x 56 4
    let last := bitOf x 55
    let count := field x 36 14
    let even := count % 2 == 0
    let at_ : Bool → Bool → Nat → Edge := fun level fv off => ⟨ch, level, fv, b + off, b + off⟩
    let first := at_ (if even then !last else last) (bitOf x 54) (field x 18 18)
    if even then ([first, at_ last (bitOf x 53) (field x 0 18)], count - 2) else ([first], count - 1)
  else ([], 0)

/-- A replayed unit: what it presents to the resources (R215). -/
structure Shown where
  t1     : Nat
  edges  : List Edge
  states : List StateSample
  merged : Nat
  firsts : Nat              -- first levels of its channels
  blank  : Bool             -- it presents nothing

/-- The level that a channel has before its first edge in a list, its present level where it has none. -/
def levelBefore (edges : List Edge) (levels c : Nat) : Bool :=
  match edges.find? (fun e => e.ch == c) with
  | some e => !e.level
  | none => bitOf levels c

/-- Trace entries of a state frame as times (R155): each the next time whose low 16 bits it gives. -/
def traceTimes : Nat → List Nat → List Nat
  | _, [] => []
  | t, e :: es =>
    let t' := t + (e + 65536 - t % 65536) % 65536
    t' :: traceTimes t' es

/-- What a stream holds next of skein `d`: a unit, or its CLOSE stitch with the COUNT there (R178); none: neither yet. -/
def nextOfSkein (d : Nat) : Nat → List Stitch → Option (Option Nat)
  | 0, _ => none
  | fuel + 1, l =>
    match l with
    | [] => none
    | w :: _ =>
      if field w.toNat 60 4 = 0xC ∧ field w.toNat 50 6 = d then some (some (field w.toNat 36 13))
      else match firstItem l with
        | .unit words rest => if (openerOf words).skein = d then some none else nextOfSkein d fuel rest
        | .quality _ rest => nextOfSkein d fuel rest
        | .other rest => nextOfSkein d fuel rest
        | .short => none

/-- A state frame with a trace. -/
def Opener.traced (o : Opener) : Bool := o.typ == 7 && o.flg

/-- State samples of a traced frame of `k` channels whose payload and trace have `len` words, at most `limit` of them. -/
def tracedCount (k len limit : Nat) : Nat :=
  ((upto (min limit 4096 + 1)).filter (fun n => ceilDiv (n * k) 64 + ceilDiv n 4 == len)).getLast?.getD 0

/-- What a unit presents after the levels `levels` (R215); `limit` bounds the samples of a state frame. -/
def shownOf (words : List Stitch) (levels limit : Nat) : Shown :=
  let o := openerOf words
  let body := words.drop 2
  let k := popcount 16 o.mask
  let nothing : Shown := ⟨o.start + frameTicks, [], [], 0, levels, true⟩
  if o.typ = 4 then
    let stream := payloadBits body
    let count := if o.gauge ≤ 12 then 4096 / 2 ^ o.gauge else 1
    let step := 64 * 2 ^ o.gauge
    ⟨o.start + max frameTicks step, changesOf o.mask stream o.start step count 0 levels, [], 0, payloadSample o.mask stream 0, false⟩
  else if o.typ = 1 ∧ o.enc = 1 then
    let parts := body.map (stitchEdges o.start)
    let edges := parts.foldl (fun l p => p.1.foldl (fun l e => insertEdge e l) l) []
    ⟨o.start + frameTicks, edges, [], (parts.map (fun p => p.2)).sum, maskOf 16 (levelBefore edges levels), false⟩
  else if o.traced then
    let count := tracedCount k body.length limit
    let payload := body.take (ceilDiv (count * k) 64)
    let trace := payloadBits (body.drop payload.length)
    let times := traceTimes o.start ((upto count).map (fun j => field trace (16 * j) 16))
    let stream := payloadBits payload
    let states := times.zipIdx.map (fun p => (⟨payloadSample o.mask stream p.2, p.1, p.1, true⟩ : StateSample))
    ⟨times.getLast?.getD o.start + 1, [], states, 0, levels, false⟩
  else nothing

/-! ### Output (R217, R402) -/

/-- Replay output that may be written now: whole 64-byte pieces, or everything at the end. -/
def Seq.flushable (q : Seq) (last : Bool) : List Byte :=
  if last then q.outBuf else q.outBuf.take (q.outBuf.length / 64 * 64)

/-- The memory that takes the replay output of sequencer `n` does not answer now (R299, R316). -/
def State.outWaits (s : State) (n : Nat) : Bool :=
  let q := s.seq n
  s.spaceWaits q.outSpace || (q.outSpace == 1 && s.grottoWaits (grottoOf (q.outAddr + q.outUsed - q.outBuf.length)))

/-- Write out what stands in the output buffer of sequencer `n`. -/
def State.outFlush (s : State) (n : Nat) (last : Bool) : State :=
  let q := s.seq n
  let data := q.flushable last
  if data.isEmpty || s.outWaits n then s
  else
    let a := q.outAddr + q.outUsed - q.outBuf.length
    let s1 := match q.outSpace with
      | 0 => s.dmaHbmWrite a (padded data) 0
      | 1 => (s.dmaGrottoWrite .dma a (padded data) false).1
      | _ => s.hostWrite a data false false false
    s1.onSeq n (fun q => { q with outBuf := q.outBuf.drop data.length })

/-- Words go to the replay output of sequencer `n`; where they would pass OUT_SIZE they do not fit. -/
def State.outPut (s : State) (n : Nat) (words : List Stitch) : Option State :=
  let q := s.seq n
  let bytes := words.flatMap (fun w => toBytes 8 w.toNat)
  if q.outSize < q.outUsed + bytes.length then none
  else some ((s.onSeq n (fun q => { q with outBuf := q.outBuf ++ bytes, outUsed := q.outUsed + bytes.length })).outFlush n false)

/-- The output is full (R402): the replay stops after the last unit that fits, and its channel is aborted.
DESIGN CHOICE, log entry 37. -/
def State.outputStops (s : State) (n : Nat) : State :=
  let s1 := s.onSeq n (fun q => { q with playStop := 4, playIn := [], playHeld := [] })
  s1.dmaAbort ((s.seq n).channel - 1)

/-- Words to the output, or the stop that they cause. -/
def State.outOrStop (s : State) (n : Nat) (words : List Stitch) : State :=
  if (s.seq n).playStop = 4 then s
  else match s.outPut n words with
    | some s1 => s1
    | none => s.outputStops n

/-- The sequencer's TRIGGER and MARK stitches go to the output, before the units. -/
def State.outStitches (s : State) (n : Nat) : State :=
  forEach (s.seq n).stitches (s.onSeq n (fun q => { q with stitches := [] })) (fun w s => s.outOrStop n [w])

/-! ### Pre-history and copies (R217) -/

/-- Words of pre-history. -/
def preWords (l : List (Nat × List Stitch)) : Nat := (l.map (fun p => p.2.length)).sum

/-- A frame joins the pre-history: PRE_FRAMES of them are kept, and one that does not fit in the grotto pushes the
oldest out, which is counted. -/
def State.preKeep (s : State) (n frame : Nat) (words : List Stitch) : State :=
  let pre := s.get (TRG_REPLAY_CTRL_PRE_FRAMES.of n)
  let kept := ((s.seq n).preUnits ++ [(frame, words)]).filter (fun p => decide (frame < p.1 + pre))
  let fit := (upto (kept.length + 1)).find? (fun k => decide (preWords (kept.drop k) ≤ grottoWords))
  let k := fit.getD kept.length
  (s.onSeq n (fun q => { q with preUnits := kept.drop k })).add (TRG_REPLAY_PRE_DROPS.of n) k

/-- A unit that evaluation has passed is copied, or kept as pre-history (R217). -/
def State.settleUnit (s : State) (n : Nat) (u : PlayUnit) : State :=
  let frame := u.t0 / frameTicks
  if !bitOf (s.get (TRG_GATE_SKEINS.of n)) u.skein then s
  else if u.gate then
    let pre := s.get (TRG_REPLAY_CTRL_PRE_FRAMES.of n)
    let before := (s.seq n).preUnits.filter (fun p => decide (frame ≤ p.1 + pre))
    let s1 := s.onSeq n (fun q => { q with preUnits := [], postTo := frame + 1 + s.get (TRG_REPLAY_CTRL_POST_FRAMES.of n) })
    (forEach before s1 (fun p s => s.outOrStop n p.2)).outOrStop n u.words
  else if frame < (s.seq n).postTo then s.outOrStop n u.words
  else s.preKeep n frame u.words

/-- Units whose spans evaluation has passed are settled; their stitches have gone before them. -/
def State.settlePast (s : State) (n : Nat) (all : Bool) : State :=
  let q := s.seq n
  let gone : PlayUnit → Bool := fun u => all || decide (u.t1 ≤ q.playAt)
  let past := q.playHeld.filter gone
  let s1 := s.onSeq n (fun q => { q with playHeld := q.playHeld.filter (fun u => !gone u) })
  forEach past s1 (fun u s => s.settleUnit n u)

/-! ### Evaluation in stream time (R214, R216) -/

/-- The gate's state in the sample at `t` is noted in the units whose spans hold it. -/
def Seq.noteGate (q : Seq) (t : Nat) : Seq :=
  { q with playHeld := q.playHeld.map (fun u => if u.t0 ≤ t ∧ t < u.t1 then { u with gate := true } else u) }

/-- Stream samples are evaluated up to `b`, at most `fuel` of them. -/
def State.replaySamples (n : Nat) : Nat → Nat → State → State
  | 0, _, s => s
  | fuel + 1, b, s =>
    let t := (s.seq n).playAt
    if t < b then
      let s1 := if s.is (TRG_STATUS_GATE.of n) then s.onSeq n (·.noteGate t) else s
      State.replaySamples n fuel b (((s1.sampleStep t [n]).onSeq n (fun q => { q with playAt := t + 64 })).outStitches n)
    else s

/-- Edges that no later sample's period holds become levels and last edges. -/
def Seq.foldPast (q : Seq) : Seq :=
  let past := q.playUnits.filter (fun e => decide (e.t + 64 ≤ q.playAt))
  { q with
    playUnits := q.playUnits.filter (fun e => !decide (e.t + 64 ≤ q.playAt))
    playStates := q.playStates.filter (fun p => !decide (p.2.inst + 64 ≤ q.playAt))
    playBase := past.foldl (fun m e => smod m (e.ch / 16) 0 (fun l => setLevel l (e.ch % 16) e.level)) q.playBase
    playPrev := past.foldl (fun m e => sput m e.ch none (some { e with ch := e.ch % 16 })) q.playPrev }

/-- Evaluation is brought up to the stream time `b`, and what it has passed is settled. -/
def State.replayTo (s : State) (n b : Nat) : State :=
  let s1 := State.replaySamples n ((b - (s.seq n).playAt + 63) / 64) b s
  let s2 := (s1.onSeq n Seq.foldPast).settlePast n false
  s2.set (TRG_REPLAY_POS.of n) (s2.seq n).playAt

/-- The skeins that the resources of sequencer `n`'s program name, with whether state qualification is asked. -/
def State.namedSkeins (s : State) (n : Nat) : List (Nat × Bool) :=
  let prog := (s.program n).filter (fun p => bitOf p.1 40)
  (prog.flatMap (fun p => usedTerms p.1)).flatMap (fun x => match poolOf (x % 512) with
    | some (.wc i) => (presentSkeins (s.wcSkeins i)).map (fun d => (d, s.is (TRG_WC_CTRL_STATE_QUAL.res i)))
    | some (.rc i) => (presentSkeins (s.rcSkeins i)).map (fun d => (d, s.is (TRG_RC_CTRL_STATE_QUAL.res i)))
    | some (.ed i) => [(s.get (TRG_ED_CTRL_SKEIN.res i), false)]
    | _ => [])

/-! ### The end of a replay (R216, R402) -/

/-- The grotto that held pre-history goes back to its lender. -/
def State.grottoBack (s : State) (n : Nat) : State :=
  match (s.seq n).lender with
  | some (b, owner, guest) => (s.handOver b owner guest true (s.is (GRT_OWNER_NO_BORROW.elt b))).onSeq n (fun q => { q with lender := none })
  | none => s

/-- The replay of sequencer `n` ends or stops: the rest is evaluated and settled, REPLAY_STATUS says how it ended, and
the replay event is raised. STATE reads replay done where the stream has ended, and a named skein that had no unit in it is
refused with cause 5 (R200). DEDUCED, log entry 38. -/
def State.replayEnd (s : State) (n : Nat) : State :=
  let why := (s.seq n).playStop
  let last := ((s.seq n).playHeld.map (·.t1)).foldl max (s.seq n).playAt
  let s1 := ((s.replayTo n last).settlePast n true).outFlush n true
  let s2 := (s1.set (TRG_REPLAY_STATUS_DONE.of n) (flag (why == 1))).set (TRG_REPLAY_STATUS_CRC_ERR.of n) (flag (why == 2))
  let absent := why == 1 && (s2.namedSkeins n).any (fun p => sget (s2.seq n).playEnd p.1 0 == 0)
  let s2a := if absent then s2.armRefused n 5 else s2
  let s3 := (s2a.set (TRG_STATUS_STATE.of n) (if why = 1 then 5 else 0)).grottoBack n
  ((s3.onSeq n (fun q => { q with
    channel := 0, playIn := [], playTail := [], playHeld := [], preUnits := [], playStates := [] })).raise (199 + 8 * n)).powerFollow

/-- No whole unit is left in the input of sequencer `n`. -/
def noUnit : Nat → List Stitch → Bool
  | 0, _ => true
  | fuel + 1, l =>
    match firstItem l with
    | .unit _ _ => false
    | .quality _ rest => noUnit fuel rest
    | .other rest => noUnit fuel rest
    | .short => true

/-- A replay whose input has ended, and all of whose units have been presented, ends. DEDUCED, log entry 38. -/
def State.replayCheck (s : State) (n : Nat) : State :=
  let q := s.seq n
  if s.get (TRG_STATUS_STATE.of n) = 4 && q.playStop != 0 && noUnit (q.playIn.length + 1) q.playIn
      && (q.outBuf.isEmpty || !s.outWaits n) then s.replayEnd n
  else s

/-- The same for every sequencer. -/
def State.replayChecks (s : State) : State := forEach (upto 8) s (fun n s => s.replayCheck n)

/-! ### A unit is presented (R215) -/

/-- A unit of a skein that presents nothing to a resource that names it, or not what a state-qualified one needs: the
arm is refused with cause 6, and the replay stops. DEDUCED, log entry 38. -/
def State.replayRefuse (s : State) (n : Nat) : State :=
  let s1 := (s.armRefused n 6).onSeq n (fun q => { q with playStop := 3, playIn := [], playHeld := [] })
  (s1.dmaAbort ((s.seq n).channel - 1)).replayEnd n

/-- A unit is presented to the resources of sequencer `n`; `limit` bounds the samples of a state frame. A named skein has a
gap before its unit where the stream has none for frames before it, from the stream's first frame on. -/
def State.present (s : State) (n : Nat) (words : List Stitch) (limit : Nat) : State :=
  let o := openerOf words
  let start := ceilTo o.start 64
  let s1 := if (s.seq n).playBegun then s.replayTo n start
    else s.onSeq n (fun q => { q with playAt := start, playBegun := true, playFrom := o.start })
  let q := s1.seq n
  let levels := levelsAt (sget q.playBase o.skein 0) (q.playEdges o.skein) o.start
  let u := shownOf words levels limit
  let ended := sget q.playEnd o.skein 0
  let names := (s1.namedSkeins n).filter (fun p => p.1 == o.skein)
  let wrong := names.any (fun p => u.blank || (p.2 && o.typ != 7))
  if wrong then s1.replayRefuse n
  else
    let before := if ended = 0 then q.playFrom else ended - 1
    let gap := o.typ != 7 && decide (before < o.start) && !names.isEmpty
    let fresh := (gap || ended == 0) && o.typ != 7
    -- a channel without a unit before takes the unit's first level, without an edge
    let base := if fresh then maskOf 16 (fun c => if bitOf o.mask c then bitOf u.firsts c else bitOf levels c) else levels
    let u1 := if fresh then shownOf words base limit else u
    let s2 := s1.onSeq n (fun q => { q with
      playBase := if fresh then sput q.playBase o.skein 0 base else q.playBase
      playUnits := (if fresh then q.playUnits.filter (fun e => e.ch / 16 != o.skein) else q.playUnits) ++
        u1.edges.map (fun e => { e with ch := o.skein * 16 + e.ch })
      playStates := q.playStates ++ u1.states.map (fun x => (o.skein, x))
      playHeld := q.playHeld ++ [⟨o.skein, o.start, u1.t1, words, false⟩]
      playEnd := sput q.playEnd o.skein 0 (u1.t1 + 1)
      playGap := q.playGap || gap })
    let s3 := if gap then s2.set (TRG_REPLAY_STATUS_GAP_SEEN.of n) 1 else s2
    s3.add (TRG_REPLAY_MERGED.of n) u1.merged

/-- A QUALITY stitch follows its unit. -/
def Seq.addTrailer (q : Seq) (w : Stitch) : Seq :=
  match q.playHeld.reverse with
  | u :: us => { q with playHeld := ({ u with words := u.words ++ [w] } :: us).reverse }
  | [] => q

/-- The bound on the samples of the state frame at the front of the input: what the skein's CLOSE stitch gives where that
comes next, 4,096 where another unit does or no more input comes before it must be taken (R156). None: neither has come
yet. DEDUCED, log entry 38. -/
def Seq.sampleLimit (q : Seq) (words rest : List Stitch) : Option Nat :=
  let o := openerOf words
  if !o.traced then some 4096
  else match nextOfSkein o.skein (rest.length + 1) rest with
    | some (some count) => some count
    | some none => some 4096
    | none => if q.playStop != 0 || decide (8192 ≤ q.playIn.length) then some 4096 else none

/-- The next unit of the input of sequencer `n` is presented, what stands before it skipped. -/
def State.nextUnit (n : Nat) : Nat → State → State
  | 0, s => s
  | fuel + 1, s =>
    match firstItem (s.seq n).playIn with
    | .short => s
    | .other rest => State.nextUnit n fuel (s.onSeq n (fun q => { q with playIn := rest }))
    | .quality w rest => State.nextUnit n fuel (s.onSeq n (fun q => { q.addTrailer w with playIn := rest }))
    | .unit words rest =>
      match (s.seq n).sampleLimit words rest with
      | some limit => (s.onSeq n (fun q => { q with playIn := rest })).present n words limit
      | none => s

/-- REPLAY_UNIT: a detached sequencer that replays is presented the next unit of its input (R215), or its replay ends
(R216). -/
def execReplayUnit (n : Fin 8) (s : State) : Host.Outcome State Fault Refusal :=
  if s.get (TRG_STATUS_STATE.of n.val) = 4 then
    .next ((State.nextUnit n.val ((s.seq n.val).playIn.length + 1) s).replayCheck n.val)
  else .next s

end Sys2Proof.Machine
end

