-- ==== Sys2Proof/Machine/Offload.lean ====
section
/-! DEFINITION. The commands of the offload DMA engine (chapter 10) and of the Flowstone units (chapter 11). A channel's
bursts complete in the order of their grants. -/

namespace Sys2Proof.Machine

/-- The CTRL offset of a channel's page, and a full host write to it. -/
def State.dmaCtrlHost (s : State) (n value : Nat) : State :=
  s.gated (PageClass.page .dma n) 0x040 (fun s => (s.dmaCtrlWrite n value).replayChecks)

/-- DMA_START: a host write to DMA_CH_n_CTRL with START at 1 (R332). -/
def execDmaStart (n : Fin 64) (value : DWord) (s : State) : Host.Outcome State Fault Refusal :=
  .next (s.dmaCtrlHost n.val (setField value.toNat 0 1 1))

/-- DMA_ABORT: a host write to DMA_CH_n_CTRL with ABORT at 1 (R333). -/
def execDmaAbort (n : Fin 64) (value : DWord) (s : State) : Host.Outcome State Fault Refusal :=
  .next (s.dmaCtrlHost n.val (setField value.toNat 1 1 1))

/-- DMA_KILL: a host write to DMA_CH_n_CTRL with ENABLE at 0 (R335). -/
def execDmaKill (n : Fin 64) (value : DWord) (s : State) : Host.Outcome State Fault Refusal :=
  .next (s.dmaCtrlHost n.val (setField value.toNat 31 1 0))

/-- DMA_ENABLE: a host write to DMA_CH_n_CTRL with ENABLE at 1 (R332: from KILLED to IDLE). -/
def execDmaEnable (n : Fin 64) (value : DWord) (s : State) : Host.Outcome State Fault Refusal :=
  .next (s.dmaCtrlHost n.val (setField value.toNat 31 1 1))

/-- A write of `value` to DMA_G_CTRL (R337). -/
def State.dmaGlobalWrite (s : State) (value : Nat) : State :=
  let s1 := (s.set DMA_G_CTRL_HOST_READS.one (field value 8 8)).set DMA_G_CTRL_EP_EN.one (field value 0 1)
  if bitOf value 1 then (forEach (upto 64) s1 (fun n s => s.dmaAbort n)).replayChecks else s1

/-- DMA_ABORT_ALL: a host write to DMA_G_CTRL with ABORT_ALL at 1 (R337). -/
def execDmaAbortAll (value : DWord) (s : State) : Host.Outcome State Fault Refusal :=
  .next (s.gated (PageClass.page .dmag 0) 0x040 (·.dmaGlobalWrite (setField value.toNat 1 1 1)))

/-- CHAIN_KICK: a host write to DMA_CH_n_CHAIN_KICK, whatever its value (R330). -/
def execChainKick (n : Fin 64) (_value : DWord) (s : State) : Host.Outcome State Fault Refusal :=
  .next (s.gated (PageClass.page .dma n.val) 0x044 (·.chainKick n.val))

/-! ### The arbiter (R314, R315) -/

/-- The channel that the arbiter grants, with its level. -/
def State.arbiterPick (s : State) : Option (Nat × Nat) :=
  (upto 8).findSome? (fun l =>
    (((upto 64).map (fun k => (sget s.dmaLast l 0 + k) % 64)).find? (fun n =>
      s.get (DMA_CTRL_PRIO.of n) == l && s.dmaReady n)).map (fun n => (n, l)))

/-- Channel `n` is granted the burst `b` at level `l`. -/
def State.grantBurst (s : State) (n l : Nat) (b : DmaBurst) : State :=
  let d := (s.chan n).desc
  let s1 := match pipeUnit d with
    | some u => if (s.chan n).pipe == some u then s else s.takeUnit n u
    | none => s
  let s2 := s1.onChan n (fun c => { c with
    inflight := c.inflight ++ [b]
    granted := if b.kind = .drain then c.granted else c.granted + b.len
    outGrant := if b.kind = .drain then c.outGrant + ceilTo b.len 64 else c.outGrant })
  let s3 := match pipeUnit d with
    | some u => if b.kind = BurstKind.drain then s2.onFlow u (fun f => { f with out := f.out.drop b.len }) else s2
    | none => s2
  ({ s3 with dmaLast := sput s3.dmaLast l 0 (n + 1) }.add DMA_G_BURSTS.one 1).add (DMA_G_LEVEL_GRANTS.elt l) 1

/-- DMA_GRANT: completion words that waited are written, and the arbiter grants one burst (R315). A burst that may not go
stops its channel before it is issued (R321, R327). DEDUCED, log entry 32. -/
def execDmaGrant (s0 : State) : Host.Outcome State Fault Refusal :=
  let s := (forEach (upto 64) s0 (fun n s => s.dmaSettle n)).replayChecks
  match s.arbiterPick with
  | none => .next s
  | some (n, l) =>
    match s.nextBurst n with
    | none => .next s
    | some b =>
      let fault := s.grantFault n b
      .next (if fault = 0 then s.grantBurst n l b else (s.dmaError n fault).replayChecks)

/-! ### Descriptors and links (R317, R319, R329) -/

/-- A descriptor has been read, or could not be (cause 10). DEDUCED, log entry 33. -/
def State.descArrives (s : State) (n : Nat) (desc : Option (List Nat)) : State :=
  match desc with
  | none => s.dmaError n 10
  | some d =>
    if descInvalid d then s.dmaError n 1
    else if s.unitFenced d then s.dmaError n 6
    else (((s.set (DMA_IN_BYTES.of n) 0).set (DMA_OUT_BYTES.of n) 0).onChan n (fun c => { c with
      phase := .move, desc := d, granted := 0, moved := 0, outGrant := 0 })).dmaPosition n

/-- 64-bit words from 32-bit ones. -/
def pairWords : List (BitVec 32) → List Nat
  | lo :: hi :: rest => (lo.toNat + 2 ^ 32 * hi.toNat) :: pairWords rest
  | _ => []

/-- DESCRIPTOR_FETCH: the descriptor at CUR arrives and is validated (R317, R319). The host's memory answers with its
first sixteen 32-bit words; fewer are a completion error. `findings` are those of a grotto's eight words (R303). -/
def execDescriptorFetch (n : Fin 64) (words : List (BitVec 32)) (s : State) (findings : List EccFinding := []) :
    Host.Outcome State Fault Refusal :=
  let cur := s.get (DMA_CUR.of n.val)
  if s.dmaState n.val = 1 ∧ (s.chan n.val).phase = .fetch ∧ !s.chainWaits n.val then
    if inHost cur then
      .next ((s.descArrives n.val (if words.length = 16 then some (pairWords words) else none)).replayChecks)
    else
      let r := s.chainDesc (descAddr cur) findings
      .next ((r.1.descArrives n.val r.2).replayChecks)
  else .next s

/-- LINK_READ_RETURN: a LINK word read again returns (R329): from the host's memory, or with a completion error or
poisoned (cause 10), or from a grotto. -/
def execLinkReadReturn (n : Fin 64) (word : BitVec 64) (s : State) (error : Bool := false) (finding : EccFinding := .clean) :
    Host.Outcome State Fault Refusal :=
  let cur := s.get (DMA_CUR.of n.val)
  if s.dmaState n.val = 1 ∧ (s.chan n.val).phase = .link ∧ !s.chainWaits n.val then
    if inHost cur then .next (if error then s.dmaError n.val 10 else s.linkRead n.val word.toNat).replayChecks
    else
      let r := s.chainWord (descAddr cur + 0x38) finding
      .next (match r.2 with
        | some w => (r.1.linkRead n.val w).replayChecks
        | none => (r.1.dmaError n.val 10).replayChecks)
  else .next s

/-! ### Bursts (R320 to R323, R327, R328) -/

/-- A burst waits for a grotto's fill. -/
def State.burstWaits (s : State) (d : List Nat) (b : DmaBurst) : Bool :=
  (b.kind != .drain && srcSpace d == 1 && s.grottoWaits (grottoOf b.src)) ||
    (b.kind != .feed && dstSpace d == 1 && s.grottoWaits (grottoOf b.dst))

/-- A burst goes over the host link. -/
def hostBurst (d : List Nat) (b : DmaBurst) : Bool :=
  (b.kind != .drain && srcSpace d == 2) || (b.kind != .feed && dstSpace d == 2)

/-- Uncorrectable data was read (R328). -/
def State.dmaMarked (s : State) (n : Nat) (b : DmaBurst) : State :=
  ((s.add (DMA_UE.of n) 1).set (DMA_LAST_UE.of n) b.src).dmaCause n 5

/-- The 64 bytes at `a` of a space, as its windows alias them. -/
def plainAddr (space a : Nat) : Nat := if space = 1 then a % 2 ^ 26 else a

/-- The 64 source bytes at `a` of element `e` are destination bytes of an earlier element of the descriptor (R319). -/
def overwritten (d : List Nat) (e a : Nat) : Bool :=
  srcSpace d == dstSpace d && srcSpace d != 2 && (upto (min e (elements d))).any (fun i =>
    let t := plainAddr (dstSpace d) (elemAddr d i true)
    decide (t ≤ plainAddr (srcSpace d) a) && decide (plainAddr (srcSpace d) a < t + elemBytes d))

/-- The data of a burst of channel `n` as it moves: where a source byte is a destination byte of an earlier element it is
undefined, a free value (R319). DEDUCED, log entry 103. -/
def State.moved (s : State) (n : Nat) (b : DmaBurst) (data : List Byte) : State × List Byte :=
  let d := (s.chan n).desc
  let e := (s.chan n).moved / elemBytes d
  (upto (b.len / 64)).foldl (fun (r : State × List Byte) i =>
    if overwritten d e (b.src + 64 * i) then (r.1.drew, r.2 ++ toBytes 64 r.1.free)
    else (r.1, r.2 ++ (data.drop (64 * i)).take 64)) (s, [])

/-- What the source of a burst delivers: the data, the mark, and whether the access was denied. -/
def State.burstRead (s : State) (n : Nat) (b : DmaBurst) (findings : List EccFinding) (data : List Byte) :
    State × List Byte × Bool × Bool :=
  let d := (s.chan n).desc
  if srcSpace d = 2 then (s, (upto b.len).map (fun i => data.getD i 0), false, false)
  else
    let r := State.dmaReadRun d (b.len / 64) b.src findings s
    let m := r.1.moved n b r.2.1
    (m.1, m.2, r.2.2)

/-- The 64-byte bursts that a read of the HBM covered are reported to the record writer (R327, R247). -/
def State.reportRead (s : State) (d : List Nat) (b : DmaBurst) : State :=
  if srcSpace d = 0 then forEach (upto (b.len / 64)) s (fun i s => s.readReleases (b.src + 64 * i)) else s

/-- A burst from element to element. DEDUCED, log entry 103. -/
def State.moveBurst (s : State) (n : Nat) (b : DmaBurst) (findings : List EccFinding) (data : List Byte) : State :=
  let d := (s.chan n).desc
  let r := s.burstRead n b findings data
  if r.2.2.2 then r.1.dmaError n 4
  else
    let w := r.1.dmaWrite d b.dst r.2.1 r.2.2.1
    if w.2 then w.1.dmaError n 4
    else
      let s1 := ((w.1.reportRead d b).consumed n b.len).add (DMA_OUT_BYTES.of n) b.len
      if r.2.2.1 then
        let s2 := s1.dmaMarked n b
        if bitOf (descWord d 6) 60 then s2.dmaError n 9 else s2
      else s1

/-- A burst from the source into the pipe; a unit that a fence has stopped takes nothing in (R355). -/
def State.feedBurst (s : State) (n u : Nat) (b : DmaBurst) (findings : List EccFinding) (data : List Byte) : State :=
  let d := (s.chan n).desc
  let r := s.burstRead n b findings data
  if r.2.2.2 then r.1.dmaError n 4
  else if s.unitFenced d then r.1.consumed n b.len
  else if r.2.2.1 && u < 4 then (r.1.dmaMarked n b).dmaError n 9
  else
    let s1 := (r.1.reportRead d b).consumed n b.len
    let spent := decide (elements d * elemBytes d ≤ (s1.chan n).moved)
    let s2 := s1.onFlow u (fun f => { f with inBuf := f.inBuf ++ r.2.1, ended := spent })
    let s3 := if u < 4 then s2.add (FLW_COMP_IN_BYTES.elt u) b.len else s2
    if r.2.2.1 then
      let s4 := s3.dmaMarked n b
      if bitOf (descWord d 6) 60 then s4.dmaError n 9 else s4
    else s3

/-- A burst of the pipe's output to the destination. -/
def State.drainBurst (s : State) (n u : Nat) (b : DmaBurst) : State :=
  let d := (s.chan n).desc
  let w := s.dmaWrite d b.dst b.data false
  if w.2 then w.1.dmaError n 4
  else
    let s1 := w.1.add (DMA_OUT_BYTES.of n) b.data.length
    if u < 4 && !s.unitFenced d then s1.add (FLW_COMP_OUT_BYTES.elt u) b.data.length else s1

/-- DMA_BURST_COMPLETE: the oldest burst in flight of channel `n` completes at its target (R322). `how` says what its
target reports, `findings` what the ECC of each access to its source finds, `data` what host memory returned.
DEDUCED, log entry 32. -/
def execDmaBurstComplete (n : Fin 64) (how : BurstEnd) (data : List Byte) (s : State) (findings : List EccFinding := []) :
    Host.Outcome State Fault Refusal :=
  let c := s.chan n.val
  match c.inflight with
  | [] => .next s
  | b :: rest =>
    if s.burstWaits c.desc b then .next s
    else if how = .targetError ∧ hostBurst c.desc b then .next ((s.dmaError n.val 5).replayChecks)
    else
      let s1 := s.onChan n.val (fun c => { c with inflight := rest })
      let s2 := match b.kind, pipeUnit c.desc with
        | .feed, some u => s1.feedBurst n.val u b findings data
        | .drain, some u => s1.drainBurst n.val u b
        | _, _ => s1.moveBurst n.val b findings data
      .next ((s2.dmaSettle n.val).replayChecks)

/-! ### Flowstone units (chapter 11) -/

/-- The channel that holds unit `u`. -/
def State.holderOf (s : State) (u : Nat) : Option Nat := (upto 64).find? (fun n => (s.chan n).pipe == some u)

/-- COMPRESS_BLOCK: a compressor that holds a whole block, or the rest of its input, encodes it (R350); after the last
one come the end block and the trailer. -/
def execCompressBlock (u : Fin 4) (s : State) : Host.Outcome State Fault Refusal :=
  let f := s.flow u.val
  match s.holderOf u.val with
  | none => .next s
  | some n =>
    if f.stage ≠ .done ∧ 0 < f.inBuf.length ∧ (blockBytes ≤ f.inBuf.length ∨ f.ended) then
      let g := f.encode (f.inBuf.take blockBytes)
      .next ((s.onFlow u.val (fun _ => if g.ended && g.inBuf.isEmpty then g.finish else g)).dmaSettle n)
    else .next s

/-- A decompressor rejects its stream (R354): nothing more is passed on, and the channel stops after the burst in progress
(R325). DEDUCED, log entry 35. -/
def State.rejectStream (s : State) (n d : Nat) (r : Reject) : State :=
  let f := s.flow (4 + d)
  let s1 := ((s.set (FLW_DEC_ERR_INFO_CAUSE.elt d) r.1).set (FLW_DEC_ERR_INFO_CHANNEL.elt d) n).set (FLW_DEC_ERR_POS.elt d) r.2
  let s2 := ((s1.set (FLW_DEC_ERR_ORIG.elt d) f.orig).add (FLW_DEC_REJECTS.elt d) 1).raise (458 + d)
  ((s2.onFlow (4 + d) (fun f => { f with stage := .done, bad := true })).dmaSettle n).replayChecks

/-- What a decoding step gives is taken: the stream, its counts, or its rejection. DEDUCED, log entry 35. -/
def State.flowStep (s : State) (n d : Nat) (x : FlowStep) : State :=
  let f := s.flow (4 + d)
  match x with
  | .waits => s
  | .rejects r => s.rejectStream n d r
  | .goes g =>
    let s1 := s.onFlow (4 + d) (fun _ => g)
    (s1.add (FLW_DEC_IN_BYTES.elt d) (g.pos - f.pos)).add (FLW_DEC_OUT_BYTES.elt d) (g.orig - f.orig)

/-- DECOMPRESS_BLOCK: a decompressor reads the stream's header, or decodes its next block and passes it on once its
BCRC has been verified (R353). -/
def execDecompressBlock (d : Fin 2) (s : State) : Host.Outcome State Fault Refusal :=
  match s.holderOf (4 + d.val) with
  | none => .next s
  | some n =>
    let f := s.flow (4 + d.val)
    match f.stage with
    | .header => .next (s.flowStep n d.val f.readHeader)
    | .blocks => .next (s.flowStep n d.val f.readBlock)
    | _ => .next s

/-- DECOMPRESS_TRAILER: at the trailer, LENGTH and CRC are compared with the whole stream; only then does the
descriptor complete (R353). -/
def execDecompressTrailer (d : Fin 2) (s : State) : Host.Outcome State Fault Refusal :=
  match s.holderOf (4 + d.val) with
  | none => .next s
  | some n =>
    let f := s.flow (4 + d.val)
    if f.stage = .trailer then
      let s1 := s.flowStep n d.val f.readTrailer
      .next (match f.readTrailer with
        | .goes _ => ((s1.add (FLW_DEC_STREAMS.elt d.val) 1).dmaSettle n).replayChecks
        | _ => s1)
    else .next s

/-- A Flowstone unit's number: compressors 0 to 3, decompressors 4 and 5. -/
def flowNumber : FlowUnit → Nat
  | .comp u => u.val
  | .decomp d => 4 + d.val

/-- Unit `u` is fenced already. -/
def State.flowFenced (s : State) (u : Nat) : Bool :=
  if u < 4 then bitOf (s.get FLW_STATUS_COMP_FENCED.one) u else bitOf (s.get FLW_STATUS_DEC_FENCED.one) (u - 4)

/-- Unit `u` is fenced (R356, R459): it stops at once, its holder's stream cut, and a channel whose descriptor names it,
holding it or waiting for it, stops with ERROR, cause 6, after the bursts in progress (R324, R355). DEDUCED, log entry
104. -/
def State.fenceFlow (s : State) (u event : Nat) : State :=
  let named : Nat → Bool := fun n => s.dmaState n == 1 && (s.chan n).phase == .move && pipeUnit (s.chan n).desc == some u
  let s0 := forEach ((upto 64).filter (fun n => (s.chan n).pipe == some u)) s (fun n s => s.freeUnit n false)
  let s1 := if u < 4 then s0.setBit FLW_STATUS_COMP_FENCED.one u true else s0.setBit FLW_STATUS_DEC_FENCED.one (u - 4) true
  let s2 := (forEach ((upto 64).filter named) s1 (fun n s => s.dmaSettle n)).replayChecks
  let detail := if u < 4 then u + 6 * 2 ^ 8 else u - 4 + 7 * 2 ^ 8
  (s2.fenceEntry event (fun f => { f with flw := withBit f.flw u })).fenced event (PageClass.page .flw 0) detail

/-- FLOWSTONE_PARITY: a parity error in a unit's memories stops it and fences it (R355). -/
def execFlowstoneParity (unit : FlowUnit) (s : State) : Host.Outcome State Fault Refusal :=
  let u := flowNumber unit
  let event := if u < 4 then 454 + u else 460 + (u - 4)
  if s.flowFenced u then .next (s.fencedTwice event (PageClass.page .flw 0) (if u < 4 then u + 6 * 2 ^ 8 else u - 4 + 7 * 2 ^ 8))
  else .next (((s.add FLW_PARITY.one 1).raise event).fenceFlow u event)

/-- DMA channel `n` is fenced (R459): killed, its page fenced. -/
def State.fenceDma (s : State) (n event detail : Nat) : State :=
  let s1 := ((s.dmaKill n).replayChecks.setBit DMA_G_FENCED.one n true).fenceEntry event (fun f => { f with dma := withBit f.dma n })
  (s1.fencePage (PageClass.page .dma n)).fenced event (PageClass.page .dma n) detail

end Sys2Proof.Machine
end

