-- ==== Sys2Proof/Machine/Plan.lean ====
section
/-! DEFINITION. Capture plans: their layout (R400), the checks of admission (R232), and the admission itself (R223,
R244). -/

namespace Sys2Proof.Machine

/-- The little-endian number of `n` bytes at `off` of a byte string. -/
def leAt (bytes : List Byte) (off n : Nat) : Nat := ofBytes ((bytes.drop off).take n)

/-- The first field that breaks its rule in a list of (offset, rule holds). DEDUCED, log entry 39. -/
def badField (l : List (Nat × Bool)) : Option Nat := (l.find? (fun p => !p.2)).map (·.1)

/-! ### Layout (R400) -/

/-- A pool resource's first register: page and offset (R219). -/
def PoolRes.place : PoolRes → Nat × Nat
  | .wc i => ((TRG_WC_CTRL_OWNER.res i).page, 0x100 + 0x20 * (i % 8))
  | .rc i => ((TRG_RC_CTRL_OWNER.res i).page, 0x200 + 0x20 * (i % 2))
  | .ed i => ((TRG_ED_CTRL_OWNER.res i).page, 0x280 + 0x08 * (i % 8))
  | .ct i => ((TRG_CT_CTRL_OWNER.res i).page, 0x300 + 0x20 * (i % 4))
  | .tm i => ((TRG_TM_CTRL_OWNER.res i).page, 0x380 + 0x20 * (i % 4))

/-- The bytes of its block that registers occupy. -/
def PoolRes.blockBytes : PoolRes → List Nat
  | .wc _ => upto 24
  | .rc _ => upto 16
  | .ed _ => upto 8
  | _ => upto 4 ++ (upto 16).map (· + 8)

/-- Where the block's OWNER field stands in its image: the byte. -/
def PoolRes.ownerByte : PoolRes → Nat
  | .wc _ => 4
  | .rc _ => 4
  | _ => 0

/-- The rules of a plan's header. `len` is the LENGTH argument. -/
def headerRules (p : List Byte) (len : Nat) : List (Nat × Bool) :=
  [(0x00, leAt p 0 4 == len && len == 64 + 32 * leAt p 7 1 + 1024 + 32 * leAt p 0x22 2), (0x04, decide (leAt p 4 1 ≤ 7)),
    (0x05, decide (leAt p 5 1 ≤ 2)), (0x06, decide (leAt p 6 1 ≤ 1)), (0x07, 1 ≤ leAt p 7 1 && leAt p 7 1 ≤ 64),
    (0x20, decide (leAt p 0x20 2 ≤ 16384)), (0x22, decide (leAt p 0x22 2 ≤ 208)),
    (0x24, leAt p 0x24 4 == field (leAt p 0x24 4) 20 4 * 2 ^ 20 + field (leAt p 0x24 4) 6 2 * 2 ^ 6)] ++
    (upto 16).map (fun i => (0x30 + i, leAt p (0x30 + i) 1 == 0))

/-- A DELAY of the plan is a deskew-range number (R136). -/
def delayOk (v : Nat) : Bool := decide (-4096 ≤ signed 32 v) && decide (signed 32 v ≤ 4096)

/-- The rules of skein entry `i`; `before` are the skeins of the entries before it. -/
def skeinRules (p : List Byte) (i : Nat) (before : List Nat) : List (Nat × Bool) :=
  let o := 64 + 32 * i
  [(o, decide (leAt p o 1 ≤ 63) && !before.contains (leAt p o 1)), (o + 1, decide (leAt p (o + 1) 1 ≤ 3)),
    (o + 2, decide (leAt p (o + 2) 1 ≤ 31)), (o + 3, decide (leAt p (o + 3) 1 ≤ 3)),
    (o + 6, decide (leAt p (o + 6) 2 < 2 ^ 12)), (o + 8, decide (leAt p (o + 8) 4 < 2 ^ 24)),
    (o + 0xC, decide (leAt p (o + 0xC) 1 ≤ 63)), (o + 0xD, decide (leAt p (o + 0xD) 1 ≤ 31)),
    (o + 0xE, decide (leAt p (o + 0xE) 1 ≤ 3)), (o + 0xF, leAt p (o + 0xF) 1 == 0), (o + 0x10, delayOk (leAt p (o + 0x10) 4))] ++
    (upto 12).map (fun k => (o + 0x14 + k, leAt p (o + 0x14 + k) 1 == 0))

/-- The rules of the resource record at `o`, for session `n`. -/
def resourceRules (p : List Byte) (o n : Nat) : List (Nat × Bool) :=
  let src := leAt p o 2
  (o, (poolOf src).isSome) :: (upto 6).map (fun k => (o + 2 + k, leAt p (o + 2 + k) 1 == 0)) ++
    (match poolOf src with
      | some r => (upto 24).map (fun k => (o + 8 + k,
          (r.blockBytes.contains k || leAt p (o + 8 + k) 1 == 0) &&
            (k != r.ownerByte || field (leAt p (o + 8 + k) 1) 4 3 == n)))
      | none => [])

/-- The skeins that the plan's entries name, in order. -/
def planSkeinList (p : List Byte) : List Nat := (upto (leAt p 7 1)).map (fun i => leAt p (64 + 32 * i) 1)

/-- The first field of a plan that makes it malformed, by its offset in the plan; none: it is well formed (R398,
R400). -/
def planBad (p : List Byte) (len : Nat) : Option Nat :=
  match badField (headerRules p len) with
  | some o => some o
  | none =>
    let k := leAt p 7 1
    let r0 := 64 + 32 * k + 1024
    badField ((upto k).flatMap (fun i => skeinRules p i ((planSkeinList p).take i)) ++
      (upto (leAt p 0x22 2)).flatMap (fun i => resourceRules p (r0 + 32 * i) (leAt p 4 1)))

/-- Skein entry `i` of a plan. -/
def readSkein (p : List Byte) (i : Nat) : PlanSkein :=
  let o := 64 + 32 * i
  let flags := leAt p (o + 3) 1
  { skein := leAt p o 1
    gear := { enc := leAt p (o + 1) 1, gauge := min 24 (leAt p (o + 2) 1), summary := bitOf flags 0
              mask := leAt p (o + 4) 2, floor := max 2048 (leAt p (o + 8) 4), densK := min 32 (leAt p (o + 0xC) 1)
              trace := bitOf flags 1, maxMts := leAt p (o + 6) 2 }
    sckSel := leAt p (o + 0xD) 1
    edge := leAt p (o + 0xE) 1
    delay := unsigned 14 (signed 32 (leAt p (o + 0x10) 4)) }

/-- A well-formed plan read from its bytes. -/
def readPlan (p : List Byte) : Plan :=
  let k := leAt p 7 1
  let q := 64 + 32 * k
  { session := leAt p 4 1
    policy := leAt p 5 1
    armAtCast := leAt p 6 1 == 1
    base := leAt p 8 8
    size := leAt p 0x10 8
    quota := leAt p 0x18 8
    segments := leAt p 0x20 2
    trgCtrl := leAt p 0x24 4
    gateSkeins := leAt p 0x28 8
    skeins := (upto k).map (readSkein p)
    program := (upto 64).map (fun e => (leAt p (q + 16 * e) 8, leAt p (q + 16 * e + 8) 8))
    resources := (upto (leAt p 0x22 2)).map (fun i =>
      (leAt p (q + 1024 + 32 * i) 2, (p.drop (q + 1024 + 32 * i + 8)).take 24)) }

/-! ### The checks of admission (R232) -/

/-- The credits that a plan asks for, record lane included (R231). -/
def Plan.credits (p : Plan) : Nat := (p.skeins.map (fun k => k.gear.credits)).sum + 2

/-- The plan's worst-case rate (R230). -/
def Plan.rate (p : Plan) : Nat := (p.skeins.map (fun k => k.gear.rate)).sum

/-- The settings of a skein are allowed (cause 3). -/
def Gear.allowed (g : Gear) : Bool := g.mask != 0 && g.gaugeOk && (!g.stateMode || (1 ≤ g.maxMts && g.maxMts ≤ 3200))

/-- 1 MiB. -/
def mib : Nat := 2 ^ 20

/-- The lane of an owner with `c` of `total` credits in a region of `size` bytes (R244). -/
def laneSize (size c total : Nat) : Nat := size * c / total / 65536 * 65536

/-- The region of another admitted plan overlaps `base` to `base + size`. -/
def State.overlaps (s : State) (base size : Nat) : Bool :=
  (upto 8).any (fun i => s.sessState i != 0 &&
    decide (base < s.get (WR_SESSION_REGION_BASE.elt i) + s.get (WR_SESSION_REGION_SIZE.elt i)) &&
    decide (s.get (WR_SESSION_REGION_BASE.elt i) < base + size))

/-- The region is in order (cause 6); while the grain is coarser than 256 B none is (R268). DEDUCED, log entry 71. -/
def State.regionOk (s : State) (p : Plan) : Bool :=
  s.get HBM_G_CTRL_GRAIN.one == 0 && p.base % mib == 0 && p.size % mib == 0 && decide (p.base + p.size ≤ s.get HBM_G_CAPACITY.one) &&
    !s.overlaps p.base p.size && p.skeins.all (fun k => decide (65536 ≤ laneSize p.size k.gear.credits p.credits)) &&
    decide (65536 ≤ laneSize p.size 2 p.credits)

/-- The segment ranges in use: base and count, by session. -/
def State.segRanges (s : State) : List (Nat × Nat) :=
  ((upto 8).filter (fun i => s.sessState i != 0)).map (fun i => (s.get (SEG_SESSION_BASE.elt i), s.get (SEG_SESSION_COUNT.elt i)))

/-- The free segment contexts from `x` on, up to the next range in use. -/
def State.segRoom (s : State) (x : Nat) : Nat :=
  if s.segRanges.any (fun r => decide (r.1 ≤ x) && decide (x < r.1 + r.2)) then 0
  else (s.segRanges.filter (fun r => decide (x < r.1))).foldl (fun m r => min m (r.1 - x)) (16384 - x)

/-- Where a free range can begin: at 0, or at the end of a range in use. -/
def State.segStarts (s : State) : List Nat := 0 :: s.segRanges.map (fun r => r.1 + r.2)

/-- The first free range of `n` contexts, lowest first (the choice among several is the model's).
DESIGN CHOICE, log entry 80. -/
def State.segFind (s : State) (n : Nat) : Option Nat :=
  if n = 0 then some 0
  else match s.segStarts.filter (fun x => decide (n ≤ s.segRoom x)) with
    | [] => none
    | x :: xs => some (xs.foldl min x)

/-- The largest free range. -/
def State.segLargest (s : State) : Nat := (s.segStarts.map s.segRoom).foldl max 0

/-- Skein `d` may not enter a plan (cause 1). -/
def State.skeinTaken (s : State) (d : Nat) : Bool := (s.planOf d).isSome || s.skeinFenced d || !s.skeinReady d

/-- The cause that refuses a plan, with its item; 0: the plan is admitted (R232). -/
def State.admission (s : State) (p : Plan) : Nat × Nat :=
  match p.skeins.find? (fun k => s.skeinTaken k.skein) with
  | some k => (1, k.skein)
  | none =>
    if s.sessState p.session ≠ 0 ∨ s.seqFenced p.session then (2, p.session)
    else match p.skeins.find? (fun k => !k.gear.allowed) with
      | some k => (3, k.skein)
      | none =>
        let slots := s.creditsUsed + p.credits
        let logs := s.logRate + p.rate
        let limit := s.get ADM_OFFLOAD.one * (1000000 * 2 ^ 32)
        if s.get ADM_SLOTS_WRITE.one < slots then (4, slots - s.get ADM_SLOTS_WRITE.one)
        else if p.policy = 2 ∧ limit < logs then (5, ceilDiv (logs - limit) (1000000000 * 2 ^ 32))
        else if !s.regionOk p then (6, 0)
        else if (s.segFind p.segments).isNone then (7, s.segLargest)
        else (0, 0)

/-! ### Admission (R224, R231, R244) -/

/-- One lane of an admitted plan: the owner's credits and its part of the region. -/
def State.layLane (s : State) (p : Plan) (owner c base : Nat) : State :=
  let s1 := (s.set (ADM_CREDIT_CREDITS.win owner) c).set (WR_LANE_BASE.win owner) base
  let s2 := (s1.set (WR_LANE_SIZE.win owner) (laneSize p.size c p.credits)).set (WR_LANE_WRITTEN.win owner) 0
  ((s2.set (WR_LANE_RELEASED.win owner) 0).set (WR_LANE_OLDEST.win owner) 0).onRcd (fun r => { r with
    held := sput r.held owner [] [] })

/-- The lanes in ascending skein order, then the record lane. -/
def State.layLanes (s : State) (p : Plan) : State :=
  let ks := (upto 64).filterMap (fun d => p.skeins.find? (fun k => k.skein == d))
  let a := ks.foldl (fun (a : State × Nat) k =>
    ((a.1.layLane p k.skein k.gear.credits a.2).onSkein k.skein (fun x => { x with admitted := some k.gear }),
      a.2 + laneSize p.size k.gear.credits p.credits)) (s, p.base)
  a.1.layLane p (64 + p.session) 2 a.2

/-- The plan is admitted: EV_258, and the session becomes ADMITTED. `bytes` are its bytes, for a pair's digest
(R466). -/
def State.planTaken (s : State) (p : Plan) (bytes : List Byte) : State :=
  let i := p.session
  let s1 := (s.set (WR_SESSION_SKEINS.elt i) (maskOf 64 (fun d => p.skeins.any (fun k => k.skein == d)))).set
    (WR_SESSION_REGION_BASE.elt i) p.base
  let s2 := ((s1.set (WR_SESSION_REGION_SIZE.elt i) p.size).set (WR_SESSION_QUOTA.elt i) p.quota).set
    (WR_SESSION_STATUS_POLICY.elt i) p.policy
  let s3 := ((s2.set (SEG_SESSION_BASE.elt i) ((s.segFind p.segments).getD 0)).set (SEG_SESSION_COUNT.elt i) p.segments).set
    (SEG_SESSION_USED.elt i) 0
  let s4 := forEach [WR_SESSION_HELD, WR_SESSION_LEDGER_SEQ, WR_SESSION_STATUS_OVER_QUOTA, WR_SESSION_STATUS_FULL,
    WR_SESSION_STATUS_REFUSING] s3 (fun f s => s.set (f.elt i) 0)
  let s5 := ((s4.layLanes p).onRcd (fun r => { r with plans := sput r.plans i none (some p) })).onMbx (fun m => { m with
    plans := sput m.plans i [] bytes })
  ((s5.putSess i 1).creditRefresh).raise 258

/-- The PLAN_ADMIT reply (R401). -/
def Plan.reply (p : Plan) (cause item : Nat) : List Byte :=
  toBytes 1 cause ++ toBytes 1 p.session ++ toBytes 2 (min item 65535) ++ toBytes 2 p.credits ++ toBytes 2 0 ++
    toBytes 4 (mbs p.rate) ++ toBytes 4 0 ++
    p.skeins.flatMap (fun k => toBytes 1 k.skein ++ toBytes 1 0 ++ toBytes 2 k.gear.credits ++ toBytes 4 (mbs k.gear.rate))

/-- The bytes of the bulk buffer. -/
def bulkBytes : Nat := 0x8000

/-- The rules of PLAN_ADMIT's arguments: OFFSET, a multiple of 8 in the bulk buffer, and LENGTH. -/
def admitArgs (args : List Byte) : List (Nat × Bool) :=
  let off := leAt args 0 4
  [(0, decide (4 ≤ args.length) && off % 8 == 0 && decide (off < bulkBytes)),
    (4, decide (8 ≤ args.length) && decide (64 ≤ leAt args 4 4) && decide (off + leAt args 4 4 ≤ bulkBytes))]

/-- PLAN_ADMIT: the plan in the bulk buffer is read, checked, and admitted or refused (R232, R399 to R401). -/
def State.servePlanAdmit (s : State) (args : List Byte) : State :=
  match badField (admitArgs args) with
  | some o => s.mbxEnd 2 (toBytes 4 o)
  | none =>
    let off := leAt args 0 4
    let bytes := s.bar4Bytes (0x6000 + off) (leAt args 4 4)
    match planBad bytes (leAt args 4 4) with
    | some o => s.mbxEnd 2 (toBytes 4 (off + o))
    | none =>
      let p := readPlan bytes
      let r := s.admission p
      if r.1 = 0 then (s.planTaken p bytes).mbxOk (p.reply 0 0) else (s.planRefused p.session r.1 r.2).mbxEnd 4 (p.reply r.1 r.2)

end Sys2Proof.Machine
end

