-- ==== Sys2Proof/Machine/Power.lean ====
section
/-! DEFINITION. Supplies, power states, resets and start-up (chapter 12). -/

namespace Sys2Proof.Machine

/-! ### Rails and brown-out episodes (R360 to R368) -/

/-- A rail's number in PWR_RAIL_INDEX (R385). -/
def railIndex : Rail → Nat
  | .core => 0 | .fe => 1 | .hbmVpp => 2 | .hbmVdd => 3 | .hbmVddq => 4 | .io => 5

/-- A rail's QUALITY RAILS bit (R360). -/
def railBit : Rail → Nat
  | .core => 0 | .fe => 1 | .hbmVpp => 2 | .hbmVdd => 2 | .hbmVddq => 2 | .io => 3

/-- A rail is counted below its warning level: its monitor's readings and RAILS_LOW, for the frame in progress and the
episode too. DEDUCED, log entry 60. -/
def State.railLow (s : State) (rail : Rail) (mv : Nat) : State :=
  let i := railIndex rail
  let s1 := (s.set (PWR_RAIL_MV.win i) mv).set (PWR_RAIL_MIN.win i) (min (s.get (PWR_RAIL_MIN.win i)) mv)
  (s1.setBit PWR_STATUS_RAILS_LOW.one (railBit rail) true).onPwr (fun p => { p with
    frameRails := setField p.frameRails (railBit rail) 1 1, boRails := setField p.boRails (railBit rail) 1 1 })

/-- The filter of a rail's warning level in ticks: 50 ns (R360). DEDUCED, log entry 60. -/
def railFilter : Nat := 40960

/-- BROWNOUT_START: a main rail is counted below its warning level. An episode begins with it, or takes it in (R364,
R365): BO_WARN, EV_018, the counts, the episode's record with the time of the crossing, and a journal commit. DEDUCED, log
entry 60. -/
def execBrownoutStart (rail : Rail) (mv : BitVec 16) (s : State) : Host.Outcome State Fault Refusal :=
  if s.is PWR_STATUS_BO_WARN.one then .next (s.railLow rail mv.toNat)
  else
    let s1 := (s.onPwr (fun p => { p with boRails := 0 })).railLow rail mv.toNat
    let s2 := (((s1.set PWR_STATUS_BO_WARN.one 1).raise 18).add PWR_BO_COUNT.one 1).add LIFE_BROWNOUTS.one 1
    let s3 := ((s2.set PWR_BO_LAST_EPISODE.one (s2.get LIFE_BROWNOUTS.one)).set PWR_BO_LAST_START.one
      ((s.now - railFilter) % 2 ^ 64)).set PWR_BO_LAST_END.one 0
    .next ((s3.set PWR_BO_LAST_BOUND_OFF.one 0).commitRequested).flashMarks

/-- The episode ends (R364, R365): BO_WARN clears, the end time, `since` ticks ago and at least 10 µs, and the rails
involved are recorded, EV_019; deferred writes resume. DEDUCED, log entry 60. -/
def State.episodeEnds (s : State) (since : Nat) : State :=
  let s1 := ((s.set PWR_STATUS_BO_WARN.one 0).set PWR_STATUS_RAILS_LOW.one 0).set PWR_BO_LAST_END.one
    ((s.now - max (10 * ticksUs) since) % 2 ^ 64)
  ((s1.set PWR_BO_LAST_RAILS.one s.pwr.boRails).raise 19).flashMarks

/-- The frame in progress reaches BIND_OFF_US after the episode's start; 1 to 199 act as 200 (R367). -/
def State.boundOffDue (s : State) : Bool :=
  let d := s.get PWR_BO_CTRL.one
  d != 0 && decide (s.get PWR_BO_LAST_START.one + max 200 d * ticksUs ≤ s.instant % 2 ^ 64 + frameTicks)

/-- BROWNOUT_BIND_OFF: BO_WARN is still 1 at BIND_OFF_US after the episode's start: every running session is bound off
with CLOSE cause 0x5 (R367); before that nothing is. -/
def execBrownoutBindOff (s : State) : Host.Outcome State Fault Refusal :=
  if s.is PWR_STATUS_BO_WARN.one && s.boundOffDue then
    .next ((forEach ((upto 8).filter (fun i => s.sessState i == 3)) s (fun i s => s.bindOffAccept i 5)).set
      PWR_BO_LAST_BOUND_OFF.one 1)
  else .next s

/-- AON_SUPPLY_SWITCH: VDD_IO leaves its range; the always-on domain draws from VBAT_AON (R361). -/
def execAonSupplySwitch (s : State) : Host.Outcome State Fault Refusal := .next (s.set PWR_STATUS_AON_SUPPLY.one 1)

/-- AON_SUPPLY_RETURN: VDD_IO has been in range for 1 ms (R361). -/
def execAonSupplyReturn (s : State) : Host.Outcome State Fault Refusal := .next (s.set PWR_STATUS_AON_SUPPLY.one 0)

/-- A cell of the always-on domain: the LIFE page's block registers, PWR_RESET_CAUSE and PWR_RESET_CAL (R107, R385).
DEDUCED, log entry 63. -/
def aonCell (k : Nat) : Bool :=
  let off := k / (64 * 64 * 16384) % 4096
  (keyPage k == PageClass.page .life 0 && decide (0x040 ≤ off)) ||
    (keyPage k == PageClass.page .pwr 0 && (off == 0x0B0 || off == 0x0B4))

/-- AON_CONTENTS_LOST: with VDD_IO removed and VBAT_AON absent, the always-on domain loses its contents (R361), a journal
commit in progress with them. -/
def execAonContentsLost (s : State) : Host.Outcome State Fault Refusal :=
  .next (({ s with regs := s.regs.filter (fun p => !aonCell p.1) }.onPwr (fun p => { p with
    aonFresh := true, aonLost := true, cold := true })).onSvc (fun v => { v with commit := none, commitNext := false }))

/-! ### Resets (R368, R381) -/

/-- Everything outside the always-on domain is reset (R381): its contents, with the halves that reads of its pairs have
snapshot (R48), the boot flash, the fuses, the levels that the rig drives, and what the outside world has queued stay. A
journal commit in progress runs on, in the always-on domain (R363). DEDUCED, log entry 63. -/
def State.mainReset (s : State) : State :=
  { State.reset with
    pending := s.pending
    drawn := s.drawn
    regs := resetOwners (s.regs.filter (fun p => aonCell p.1))
    hiSnap := s.hiSnap.filter (fun p => decide (p.1 / 4096 = PageClass.page .life 0))
    link := { Link.reset with inReset := s.link.inReset }
    clk := { Clocks.reset with refPresent := s.clk.refPresent }
    pins := { Pins.reset with
      trigIn := s.pins.trigIn, xtrigLow := s.pins.xtrigLow, releaseLow := s.pins.releaseLow
      trigTerm := s.pins.trigIn, xtrigTerm := s.pins.xtrigLow }
    pwr := { Power.reset with aonFresh := s.pwr.aonFresh, aonLost := s.pwr.aonLost, cold := s.pwr.cold }
    svc := { Service.reset with
      flash := s.svc.flash, svn := s.svc.svn, commit := s.svc.commit, commitNext := s.svc.commitNext } }

/-- The straps as sampled. -/
def State.putStraps (s : State) (straps : Straps) : State :=
  (s.set SYS_BOOT_REF_SEL.one (flag straps.refSel)).set SYS_BOOT_BOOT_MODE.one straps.bootMode.val

/-- The reset's cause and the calendar at it are recorded (R381). -/
def State.putCause (s : State) (cause rail : Nat) : State :=
  ((s.set PWR_RESET_CAUSE_CAUSE.one cause).set PWR_RESET_CAUSE_RAIL.one rail).set PWR_RESET_CAL.one (s.get LIFE_CAL_SECONDS.one)

/-- The start-up sequence begins at step 1; only the service controller's ROM runs (R382, R412). -/
def State.startUp (s : State) : State :=
  (s.set SVC_STATUS_ROM_ONLY.one 1).onPwr (fun p => { p with step := 1, cold := false })

/-- PORST_N: the reset, the straps sampled at its rise, and the start-up sequence begins (R381 to R383).
DEDUCED, log entry 63. -/
def execPorstN (straps : Straps) (s : State) : Host.Outcome State Fault Refusal :=
  let s1 := s.mainReset.putStraps straps
  .next (if s.pwr.cold then s1.putCause 1 0 else s1.putCause 2 0).startUp

/-- A reset by the service port's RESET (R421): as PORST_N, with the straps sampled at its release (R485).
DEDUCED, log entry 64. -/
def State.portReset (s : State) (straps : Straps) : State :=
  (((s.mainReset.putStraps straps).putCause 5 0).startUp).onSvc (fun v => { v with resetDone := true })

/-- RESET_CROSSING: a main rail is counted below its reset level (R368). The device then waits for its rails, and SYS_BOOT
shows the straps last sampled. DEDUCED, log entry 64. -/
def execResetCrossing (rail : Rail) (s : State) : Host.Outcome State Fault Refusal :=
  let straps : Straps := ⟨s.is SYS_BOOT_REF_SEL.one, Fin.ofNat 4 (s.get SYS_BOOT_BOOT_MODE.one)⟩
  .next (((s.mainReset.putStraps straps).putCause 3 (railIndex rail)).onPwr (fun p => { p with waitRails := true }))

/-- RESET_CROSSING_RESTART: every main rail has been in range for 1 ms; the device samples its straps and starts again
(R368, R485). DEDUCED, log entry 64. -/
def execResetCrossingRestart (s : State) (straps : Straps := ⟨false, 0⟩) : Host.Outcome State Fault Refusal :=
  if s.pwr.waitRails then .next ((s.putStraps straps).startUp.onPwr (fun p => { p with waitRails := false })) else .next s

/-! ### Gating (R375 to R377) -/

/-- A gating write is refused for a unit (R376). -/
def State.gateRefused (s : State) (unit cause : Nat) : State :=
  (((s.set PWR_GATE_ERR_REFUSED.one 1).set PWR_GATE_ERR_CAUSE.one cause).set PWR_GATE_ERR_UNIT.one unit).raise 22

/-- Why skein `n` may not be gated (R376); 0: it may. -/
def State.skeinGateCause (s : State) (n : Nat) : Nat :=
  if n = 64 then (if s.spareMode = 0 then 0 else 2)
  else if (s.planOf n).isSome then 1
  else if s.spareMode != 0 && s.spareTarget == n then 2
  else 0

/-- One bit of a skein gating write. -/
def State.gateSkein (s : State) (n : Nat) (v : Bool) : State :=
  let put : State → State := fun s => if n = 64 then s.set PWR_SKN_GATE_64.one (flag v) else s.setBit PWR_SKN_GATE.one n v
  if s.skeinGate n = v then s
  else if v then (let c := s.skeinGateCause n; if c = 0 then put (s.abandonCheck n) else s.gateRefused n c)
  else (put s).set (FE_STATUS_CAL_OK.of n) 0

/-- A write to PWR_SKN_GATE, or with `spare` to PWR_SKN_GATE_64. -/
def State.skeinGateWrite (s : State) (spare : Bool) (value : Nat) : State :=
  if spare then s.gateSkein 64 (bitOf value 0) else forEach (upto 64) s (fun n s => s.gateSkein n (bitOf value n))

/-- SKEIN_GATE_WRITE: a host write to PWR_SKN_GATE or PWR_SKN_GATE_64 (R375, R376). -/
def execSkeinGateWrite (spare : Bool) (value : BitVec 64) (s : State) : Host.Outcome State Fault Refusal :=
  .next (s.gated (PageClass.page .pwr 0) (if spare then 0x078 else 0x070) (·.skeinGateWrite spare value.toNat))

/-- A write to PWR_TRG_GATE (R375, R376); an arm that waits for its boundary counts as armed (DEDUCED, log entry 109). -/
def State.seqGateWrite (s : State) (value : Nat) : State :=
  forEach (upto 8) s (fun n s =>
    let v := bitOf value n
    if bitOf (s.get PWR_TRG_GATE_GATE.one) n = v then s
    else if v && (s.sessState n != 0 || s.seqArmed n || s.get (TRG_STATUS_STATE.of n) == 1) then s.gateRefused (0x40 + n) 3
    else s.setBit PWR_TRG_GATE_GATE.one n v)

/-- SEQUENCER_GATE_WRITE: a host write to PWR_TRG_GATE (R375, R376). -/
def execSequencerGateWrite (value : DWord) (s : State) : Host.Outcome State Fault Refusal :=
  .next (s.gated (PageClass.page .pwr 0) 0x08C (·.seqGateWrite value.toNat))

/-- READY bits that stay low in PARK, PARKING's end and WAKING (R371, R372). -/
def State.powersUp (s : State) : Bool := s.get PWR_STATUS_STATE.one < 3

/-- Skein `n`'s READY bit takes a value: EV_021 where it changes; a skein that loses its power stops its front end. -/
def State.putSkeinReady (s : State) (n : Nat) (v : Bool) : State :=
  if s.skeinReady n = v then s
  else
    let s1 := if n = 64 then s.set PWR_SKN_READY_64.one (flag v) else s.setBit PWR_SKN_READY.one n v
    (s1.onSkein n (fun k => { k with base := k.present, edges := [], prev := [] })).raise 21

/-- Sequencer `n`'s READY bit takes a value. -/
def State.putSeqReady (s : State) (n : Nat) (v : Bool) : State :=
  if bitOf (s.get PWR_TRG_GATE_READY.one) n = v then s else (s.setBit PWR_TRG_GATE_READY.one n v).raise 21

/-- UNIT_READY_CHANGE: a unit's READY bit follows its gate (R377); an ungated skein has been calibrated, with the given
finding (R125). -/
def execUnitReadyChange (unit : GatedUnit) (cal : CalFinding) (s : State) : Host.Outcome State Fault Refusal :=
  match unit with
  | .skein n =>
    let v := !s.skeinGate n.val && s.powersUp
    if s.skeinReady n.val = v then .next s
    else .next ((if v then (s.calFound n.val cal).worstResidual else s).putSkeinReady n.val v)
  | .sequencer n => .next (s.putSeqReady n.val (!bitOf (s.get PWR_TRG_GATE_GATE.one) n.val && s.powersUp))

/-- Every unit takes the READY bit that its gate gives, or none does. -/
def State.allReady (s : State) (on : Bool) : State :=
  let s1 := forEach (upto 65) s (fun n s => s.putSkeinReady n (on && !s.skeinGate n))
  forEach (upto 8) s1 (fun n s => s.putSeqReady n (on && !bitOf (s.get PWR_TRG_GATE_GATE.one) n))

/-! ### Park and wake (R371 to R373) -/

/-- A WAKE starts: a full calibration and the HBM's wake follow. DEDUCED, log entry 61. -/
def State.wakeStart (s : State) : State :=
  let s1 := (s.putPower 4).fullCal
  if s.is HBM_G_STATUS_STOPPED.one then s1 else s1.leaveSelfRefresh

/-- The mailbox command with code `code` is in progress. -/
def State.mbxServes (s : State) (code : Nat) : Bool := (s.mbx.cur.map (fun c => c.code == code)).getD false

/-- PARK_COMPLETE: the park sequence completes (R371): the HBM is parked, every unit power-gated, STATE reads 3. A PARK
that waited ends, and a WAKE that came meanwhile takes effect, or is refused after a trip (R380). DEDUCED, log entry 61. -/
def execParkComplete (s : State) : Host.Outcome State Fault Refusal :=
  if s.get PWR_STATUS_STATE.one = 2 ∧ !s.anyRuns then
    let s1 := (s.hbmPark.allReady false).putPower 3
    .next (if s.mbxServes 0x20 then s1.mbxOk []
      else if !s.mbxServes 0x21 then s1
      else if s.is PWR_STATUS_TRIPPED.one then s1.mbxEnd 3 [] else s1.wakeStart)
  else .next s

/-- WAKE_COMPLETE: calibration and HBM are done and the state becomes IDLE (R372). -/
def execWakeComplete (s : State) : Host.Outcome State Fault Refusal :=
  if s.get PWR_STATUS_STATE.one = 4 ∧ !s.is HBM_G_STATUS_PARKED.one ∧ !s.is FEG_STATUS_CAL_BUSY.one then
    let s1 := (s.putPower 1).allReady true
    .next (if s.mbxServes 0x21 then s1.mbxOk [] else s1)
  else .next s

/-! ### Die temperature (R378 to R380) -/

/-- The hottest of sixteen readings, the first where several are: its value and its sensor. -/
def hottestOf (temps : List Byte) : Int × Nat :=
  ((upto 16).foldl (fun (a : Int × Nat) i =>
    let t := signed 8 (temps.getD i 0).toNat
    if i = 0 ∨ a.1 < t then (t, i) else a) (0, 0))

/-- EV_023 on crossing HOT or COLD, again only after a return of 3 K (R379). -/
def State.limitMarks (s : State) (t : Int) : State :=
  let hot := signed 8 (s.get PWR_TEMP_LIMIT_HOT.one)
  let cold := signed 8 (s.get PWR_TEMP_LIMIT_COLD.one)
  let s1 := s.raiseIf ((decide (hot < t) && !s.pwr.hotHit) || (decide (t < cold) && !s.pwr.coldHit)) 23
  s1.onPwr (fun p => { p with
    hotHit := decide (hot < t) || (p.hotHit && decide (hot - 3 < t))
    coldHit := decide (t < cold) || (p.coldHit && decide (t < cold + 3)) })

/-- DIE_TEMP_READ: the 1 ms reading of the sixteen sensors (R378): the window, the hottest, the peak, the limits, and
each skein's change since its calibration (R124). -/
def execDieTempRead (temps : List Byte) (s : State) : Host.Outcome State Fault Refusal :=
  if temps.length = 16 then
    let h := hottestOf temps
    let s1 := forEach (upto 16) s (fun i s => s.set (PWR_TEMP_VALUE.win i) (temps.getD i 0).toNat)
    let s2 := (s1.set PWR_TEMP_MAX_TEMP.one (unsigned 8 h.1)).set PWR_TEMP_MAX_SENSOR.one h.2
    let s3 := s2.set PWR_TEMP_MAX_PEAK.one (unsigned 8 (max (signed 8 (s.get PWR_TEMP_MAX_PEAK.one)) h.1))
    .next (forEach (upto 65) (s3.limitMarks h.1) (fun n s =>
      let d := (signed 8 (s.skeinTemp n) - signed 8 (s.skein n).calTemp).natAbs
      s.set (FE_CAL_STATUS_TEMP_DELTA.of n) (min 255 (max d (s.get (FE_CAL_STATUS_TEMP_DELTA.of n))))))
  else .fault .illFormed

/-- DIE_TRIP: the hottest reading has stayed at or above 112 °C (R380): holds are released, running sessions close with
CLOSE cause 0x4, TRIPPED and EV_024, and the device goes into PARK. DEDUCED, log entry 61. -/
def execDieTrip (s : State) : Host.Outcome State Fault Refusal :=
  if 112 ≤ s.hottest ∧ !s.is PWR_STATUS_TRIPPED.one then
    let s1 := (((s.releaseHolds s.now).interruptAll 4).set PWR_STATUS_TRIPPED.one 1).raise 24
    .next (if s.get PWR_STATUS_STATE.one = 3 then s1 else s1.putPower 2)
  else .next s

/-- TRIP_CLEAR: the hottest reading has stayed below 95 °C for 1 s (R380). -/
def execTripClear (s : State) : Host.Outcome State Fault Refusal :=
  if s.hottest < 95 then .next (s.set PWR_STATUS_TRIPPED.one 0) else .next s

/-- PWR_CTRL.CLEAR_MIN: rail minima and the peak start again (R385). -/
def State.clearMin (s : State) : State :=
  (forEach (upto 7) s (fun i s => s.set (PWR_RAIL_MIN.win i) 0xFFFF)).set PWR_TEMP_MAX_PEAK.one 0x80

/-- CLEAR_MIN: a host write to PWR_CTRL with CLEAR_MIN at 1 (R385). -/
def execClearMin (_value : DWord) (s : State) : Host.Outcome State Fault Refusal :=
  .next (s.gated (PageClass.page .pwr 0) 0x0BC State.clearMin)

/-! ### The start-up sequence (R382 to R384) -/

/-- The fence record is applied (R458, R459): pages, pseudo-channels, grottos and the spare's replacement. -/
def State.applyFences (s : State) : State :=
  let f := s.svc.flash.fences.getD Fences.empty
  let page : PageClass → Nat → State → State := fun c n s => s.fencePage (c.page n)
  let s1 := forEach (bitsOf 64 f.skeins) s (fun n s => page .fe n (page .skn n s))
  let s2 := if f.spare then (page .fe 64 (page .skn 64 s1)).set SWT_STATUS_SPARE_STATE.one 5 else s1
  let s3 := forEach (bitsOf 8 f.sequencers) s2 (fun n s => page .trg n s)
  let s4 := forEach (bitsOf 64 f.dma) s3 (fun n s => (page .dma n s).setBit DMA_G_FENCED.one n true)
  let s5 := (s4.set FLW_STATUS_COMP_FENCED.one (f.flw % 16)).set FLW_STATUS_DEC_FENCED.one (f.flw / 16)
  let s6 := forEach (bitsOf 64 f.grottos) s5 (fun b s => (s.setBit GRT_FENCED.one b true).set (GRT_OWNER_FENCED.elt b) 1)
  let s7 := (forEach (bitsOf 128 f.pcs) s6 (fun pc s => (s.putPcState pc 3).setBit (HBM_FENCED.of (stackOf pc)) (pc % 32) true))
  let whole : Nat → Bool := fun k => f.pcs / 2 ^ (32 * k) % 2 ^ 32 == 2 ^ 32 - 1
  let s8 := forEach ((upto 4).filter whole) (if f.pcs = 0 then s7 else s7.remap) (fun k s => page .hbm k (s.set (HBM_STATUS_STATE.of k) 5))
  let s9 := match f.replaced with
    | some n => (((s8.prepareSpare 2 n).stage 64).takeEffect 64 s8.now).set SWT_STATUS_SPARE_STATE.one 4 |>.set SWT_STATUS_TARGET.one n
    | none => s8
  s9.onFlt (fun m => { m with fences := f, wanted := f })

/-- The soft-repair record takes effect (R306): each column repaired uses one more spare of its grotto. -/
def State.applyRepairs (s : State) : State :=
  let l := s.svc.flash.repairs
  let s1 := forEach (upto 64) s (fun b s =>
    (s.set (GRT_B_REPAIR_SOFT.win b) (l.countP (fun r => r / 1024 == b))).set (GRT_B_REPAIR_WAITING.win b) 0)
  (s1.set SWT_REPAIRS.one l.length).onFlt (fun m => { m with repairs := l })

/-- In a trial the newest record of the area that the old image used goes into the other area in the new image's format,
unless an area has that format already: step 4 of an activation (R435), made again by the next start where it was cut off
(R439). DEDUCED, log entry 58. -/
def State.convertConfig (s : State) : State :=
  match s.selector with
  | some e =>
    let old := fun (a : Nat) => e.trial && e.prev != 0xFF && s.areaFormat a == some (s.slotNum e.prev 6 2)
    if (upto 2).any (fun a => s.areaFormat a == some s.activeFormat) then s
    else match (upto 2).find? old with
      | none => s
      | some a => match (s.area a).getLast? with
        | some r => s.onFlash (fun f => { f with cfg := sput f.cfg (1 - a) [] [⟨s.cfgSeq, s.activeFormat, r.entries⟩] })
        | none => s
  | none => s

/-- The configuration store is applied (R382, R438), converted first in a trial: an area of another format is erased in
CONFIRMED mode. -/
def State.applyConfig (s0 : State) : State :=
  let s := s0.convertConfig
  let entries := match (s.area s.liveArea).getLast? with
    | some r => if r.format = s.activeFormat then r.entries else []
    | none => []
  let s1 := forEach entries s (fun e s => s.regPoke e.1 e.2.1 e.2.2)
  let s2 := s1.set ADM_SLOTS_WRITE.one (s1.get ADM_SLOTS_TOTAL.one - s1.get ADM_RESERVE.one)
  let stale : Nat → Bool := fun a => !s.inTrial && (s.areaFormat a).isSome && s.areaFormat a != some s.activeFormat
  (forEach ((upto 2).filter stale) s2 (fun a s => s.flashQueue (.eraseArea a false))).cfgMarks

/-- A cell of the LIFE page that a journal record restores (R100): the counters, LIFE_EDITS among them, and the calendar. -/
def journalled (k : Nat) : Bool :=
  lifeFields.any (fun f => (f.kind == .cnt || f == LIFE_EDITS) && (f.place (k / (64 * 64 * 16384) % 4096)).isSome)

/-- The always-on counters after a loss of VBAT_AON: restored from the newest journal record, a sector's erases as the
record's 24 bits hold them (R100, R441). -/
def State.journalRestore (s : State) : State :=
  let records := s.svc.flash.journal.filterMap (fun p => p.2)
  let newest := records.foldl (fun (a : Option JournalRec) r => match a with
    | some b => if b.seq < r.seq then some r else a
    | none => some r) none
  let s1 := match s.svc.flash.journal.reverse.find? (fun p => p.2 == newest) with
    | some p => s.set SVC_JOURNAL.one (p.1 + 1)
    | none => s
  if s.pwr.aonLost then
    let s2 := match newest with
      | some r =>
        let cells : Sparse Nat := r.cells.filter (fun p => journalled p.1)
        let kept : State := { s1 with regs := cells.foldl (fun (m : Sparse Nat) (p : Nat × Nat) => sins p.1 p.2 (sdel p.1 m)) s1.regs }
        (kept.set LIFE_JOURNAL_SEQ.one r.seq).set LIFE_STATUS_RESTORED.one 1
      | none => s1
    ((s2.set LIFE_STATUS_CAL_VALID.one 0).raise 28).onPwr (fun p => { p with aonLost := false })
  else s1.set LIFE_STATUS_RESTORED.one 0

/-- The service controller's checks at each start (R425, R441): a copy or a journal sector whose erase was cut off is
erased. DESIGN CHOICE, log entry 65. -/
def State.flashChecks (s : State) : State :=
  let f := s.svc.flash
  let s1 := ((s.eraseAsked f.selLog.full).eraseAsked (f.fenceLog.full.map (· + 2))).eraseAsked (f.repairLog.full.map (· + 4))
  let sector := ((s.get SVC_JOURNAL.one + 1023) % 1024 / 16 + 1) % 64
  if (upto 16).any (fun i => (sget f.journal (16 * sector + i) none).isSome) then s1.flashQueue (.eraseJournal (432 + sector)) else s1

/-- A start of the control processor in TRIAL (R436): one trial start fewer and EV_045, or the fall-back and EV_046. Which
slot it falls back to where PREV names none the spec leaves open. DESIGN CHOICE, log entry 65. -/
def State.trialStart (s : State) : State :=
  match s.selector with
  | some e =>
    if !e.trial then s.onPwr (fun p => { p with slot := e.active })
    else if 0 < e.left then
      ((s.selectorWrite e.active true (e.left - 1) e.prev).raise 45).onPwr (fun p => { p with slot := e.active })
    else
      let prev := if e.prev = 0xFF then s.free % 2 else e.prev
      (((s.selectorWrite prev false 0 0xFF).raise 46).onPwr (fun p => { p with slot := prev })).drew
  | none => s

/-- Recovery mode (R442): no firmware runs, and SYS_FW_VERSION reads zero (R1, R66). -/
def State.recoveryMode (s : State) : State :=
  let s1 := ((s.set SYS_BOOT_RECOVERY.one 1).set SVC_STATUS_RECOVERY.one 1).set SVC_STATUS_ROM_ONLY.one 1
  ((s1.set SYS_FW_VERSION_MAJOR.one 0).set SYS_FW_VERSION_MINOR.one 0).set SYS_FW_VERSION_BUILD.one 0

/-- A start ends in recovery mode. -/
def State.enterRecovery (s : State) : State :=
  let s1 := s.recoveryMode
  let s2 := (s1.raiseIf (s.get PWR_RESET_CAUSE_CAUSE.one != 1) 25).raiseIf s.svc.resetDone 50
  ((s2.onLink (fun l => { l with ready := true })).onPwr (fun p => { p with step := 0 })).onSvc (fun v => { v with resetDone := false })

/-- The control processor runs the image of the slot chosen (R390): SYS_BOOT and SYS_FW_VERSION name it, the engines
that loaded run, and EV_037 tells of one that did not. -/
def State.cpStart (s : State) (loaded : Nat) : State :=
  let v := s.slotNum s.pwr.slot 8 4
  let s1 := ((s.set SYS_FW_VERSION_MAJOR.one (field v 24 8)).set SYS_FW_VERSION_MINOR.one (field v 16 8)).set
    SYS_FW_VERSION_BUILD.one (field v 0 16)
  let s2 := ((s1.set SYS_BOOT_SLOT.one s.pwr.slot).set SYS_BOOT_TRIAL.one (flag s.inTrial)).set SVC_STATUS_ROM_ONLY.one 0
  let s3 := (((s2.set MBX_CPU_STATUS_RUNNING.one 1).set MBX_CPU_STATUS_LOCKSTEP.one 1).set MBX_CPU_STATUS_RESTARTING.one 0).set
    MBX_CPU_STATUS_ME_LOADED.one loaded
  (s3.onMbx (fun m => { m with kickAt := s.now })).raiseIf (loaded != 7) 37

/-- Host-ready (R382): the endpoint answers, STATE becomes IDLE, the mailbox reads IDLE; how long the start took is
open. DESIGN CHOICE, log entry 62. -/
def State.hostReady (s : State) : State :=
  let s1 := ((s.set PWR_START_TIME.one s.free).drew.putPower 1).set MBX_STATUS_STATE.one 1
  let s2 := if s.is FEG_STATUS_CAL_DONE.one then s1.skeinsReady else s1
  let s3 := forEach (upto 8) s2 (fun n s => s.putSeqReady n (!bitOf (s.get PWR_TRG_GATE_GATE.one) n))
  let s4 := (s3.raiseIf (s.get PWR_RESET_CAUSE_CAUSE.one != 1) 25).raiseIf s.svc.resetDone 50
  ((s4.onLink (fun l => { l with ready := true })).onPwr (fun p => { p with step := 0 })).onSvc (fun v => { v with resetDone := false })

/-- The slot of step 4 verifies, or the other one does and is chosen (R438); none: recovery mode.
DESIGN CHOICE, log entry 65. -/
def State.chooseImage (s : State) : State :=
  let k := s.pwr.slot
  if s.imageReason k = 0 then s.onPwr (fun p => { p with step := 5 })
  else if s.imageReason (1 - k) = 0 then
    ((s.selectorWrite (1 - k) false 0 0xFF).raise 46).onPwr (fun p => { p with step := 5, slot := 1 - k })
  else s.enterRecovery

/-- START_UP_STEP_DONE: the step in progress completes and the next begins (R382). `ok`: at step 1 the fuses loaded
without a corrected error, at step 5 every microengine loaded, else not those of `failed` (R390). Step 2 waits for the lock attempt, step 6 for training
and calibration where a lock exists (R384). DEDUCED, log entry 66. -/
def execStartUpStepDone (ok : Bool) (s : State) (failed : BitVec 3 := 7) : Host.Outcome State Fault Refusal :=
  let next : Nat → State → State := fun k s => s.onPwr (fun p => { p with step := k })
  match s.pwr.step with
  | 1 =>
    let s1 := (s.set FUSE_STATUS_LOADED.one 1).set FUSE_STATUS_CORRECTED.one (flag !ok)
    .next (next 2 (s1.raiseIf (!ok) 56).lockStart)
  | 2 => if s.is CLK_STATUS_SEARCHING.one then .next s else .next (next 3 s.applyRepairs.grottosFilled)
  | 3 =>
    let s1 := s.journalRestore.flashChecks.slotMarks.selectorMarks
    if s.get SYS_BOOT_BOOT_MODE.one = 1 then .next s1.enterRecovery else .next (next 4 s1.trialStart)
  | 4 => .next s.chooseImage
  | 5 => .next (next 6 (s.cpStart (if ok then 7 else 7 - failed.toNat)) |>.onPwr (fun p => { p with locked5 := s.locked }))
  | 6 =>
    if s.pwr.locked5 && !(s.is HBM_G_STATUS_READY.one && s.is FEG_STATUS_CAL_DONE.one) then .next s else .next (next 7 s)
  | 7 => .next s.applyFences.applyConfig.hostReady
  | _ => .next s

end Sys2Proof.Machine
end

