-- ==== Sys2Proof/Machine/Command.lean ====
section
/-! DEFINITION. The mailbox commands on sessions and sequencers (R225 to R227, R248, R253, R399, R400, R402), with the
checks that a lead and its follower each make (R466, R467). -/

namespace Sys2Proof.Machine

/-- What the checks of a command say: it may act, it must wait (R397), or it ends with a RESULT and a reply. -/
inductive Check where
  | pass
  | wait
  | fail (result : Nat) (reply : List Byte)
  deriving DecidableEq, Repr

/-- RESULT BAD_ARGS at a field of the argument block (R398). -/
def badArgs (off : Nat) : Check := .fail 2 (toBytes 4 off)

/-- RESULT STATE with an empty reply. -/
def wrongState : Check := .fail 3 []

/-- RESULT FENCED for the unit of a page. -/
def fencedUnit (page : Nat) : Check := .fail 5 (toBytes 2 page)

/-- The rule of a session or sequencer number at offset 0. -/
def indexArg (args : List Byte) : Nat × Bool := (0, decide (1 ≤ args.length) && decide (leAt args 0 1 ≤ 7))

/-! ### Checks -/

/-- The skein of session `n`'s plan that is fenced, if any. DEDUCED, log entry 41. -/
def State.fencedInPlan (s : State) (n : Nat) : Option Nat := (s.planSkeins n).find? (fun d => s.skeinFenced d && !s.replaced d)

/-- The first resource image of session `n`'s plan whose resource an armed sequencer owns (R400). -/
def State.heldResource (s : State) (n : Nat) : Option Nat :=
  match sget s.rcd.plans n none with
  | some p => (p.resources.find? (fun r => match poolOf r.1 with
      | some x => s.seqArmed (s.ownerOf x)
      | none => false)).map (·.1)
  | none => none

/-- The checks of CAST_ON (R225, R122, R283, R284, R372, R400). DEDUCED, log entry 41. -/
def State.checkCastOn (s : State) (n : Nat) : Check :=
  let st := s.sessState n
  if !(st == 1 || st == 5 || st == 6) || !s.locked || s.is TIME_STATUS_ARMED.one || s.is HBM_G_CTRL_OLD_MAP_READ.one
      || 2 ≤ s.get PWR_STATUS_STATE.one then wrongState
  else if !s.is FEG_STATUS_CAL_DONE.one || !s.is HBM_G_STATUS_READY.one then .wait
  else match s.fencedInPlan n with
    | some d => fencedUnit (PageClass.page .skn d)
    | none => match s.heldResource n with
      | some src => .fail 3 (toBytes 2 src)
      | none => .pass

/-- The checks of ARM (R199, R200). -/
def State.checkArm (s : State) (n : Nat) : Check :=
  if s.seqFenced n then fencedUnit (PageClass.page .trg n)
  else if s.sessState n ≠ 3 ∨ s.seqArmed n ∨ s.get (TRG_STATUS_STATE.of n) = 1 then wrongState
  else
    let c := s.armRefusal n true
    if c = 0 then .pass else .fail 4 (toBytes 1 c)

/-- The rules of QUOTA_SET's arguments. -/
def quotaArgs (args : List Byte) : List (Nat × Bool) :=
  indexArg args :: (upto 7).map (fun k => (k + 1, decide (k + 2 ≤ args.length) && leAt args (k + 1) 1 == 0)) ++
    [(8, decide (16 ≤ args.length))]

/-- The checks of a command that a lead mirrors: CAST_ON, BIND_OFF, ARM, FORCE_TRIGGER, SEGMENT_RELEASE, QUOTA_SET and
PLAN_RELEASE (R399, R466). -/
def State.checkCommand (s : State) (code : Nat) (args : List Byte) : Check :=
  let n := leAt args 0 1
  let rules := match code with
    | 0x16 => [(0, decide (2 ≤ args.length) && decide (leAt args 0 2 < 16384))]
    | 0x17 => quotaArgs args
    | _ => [indexArg args]
  match badField rules with
  | some o => badArgs o
  | none =>
    match code with
    | 0x11 => if s.sessState n = 0 ∨ s.sessRuns n then wrongState else .pass
    | 0x12 => s.checkCastOn n
    | 0x13 => if s.sessState n = 3 then .pass else wrongState
    | 0x14 => s.checkArm n
    | 0x15 =>
      if s.seqFenced n then fencedUnit (PageClass.page .trg n) else if s.seqArmed n then .pass else wrongState
    | 0x16 => if 2 ≤ s.get (SEG_ENTRY_INFO_STATE.win (leAt args 0 2)) then .pass else .fail 4 []
    | _ => if s.sessState n = 0 then wrongState else .pass

/-- What a failed check leaves behind on the device whose host gave the command: a refused arm (R200) and a refused
release (R253) are reported. -/
def State.checkFailed (s : State) (code : Nat) (args : List Byte) (result : Nat) : State :=
  if result ≠ 4 then s
  else if code = 0x14 then s.armRefused (leAt args 0 1) (s.armRefusal (leAt args 0 1) true)
  else if code = 0x16 then (s.segRelease (leAt args 0 2)).1
  else s

/-! ### Effects -/

/-- What the host has posted to the state-clock fields of skein `d` lands: the cast-on's own writes to the same fields wait
for it and take their place (R136). -/
def State.clocksLanded (s : State) (d : Nat) : State :=
  let mine : Nat → Bool := fun p => p == PageClass.page .fe d || p == PageClass.page .skn d
  (({ s with posted := s.posted.filter (fun w => !mine w.page) }).set (busyOf (PageClass.page .fe d)) 0).set
    (busyOf (PageClass.page .skn d)) 0

/-- The settings of a skein entry, written to the registers they name (R400). -/
def State.putPlanSkein (s : State) (k : PlanSkein) : State :=
  let d := k.skein
  let g := k.gear
  let s1 := (((s.setShadow (SKN_CTRL_ENC.of d) g.enc).setShadow (SKN_CTRL_SUMMARY.of d) (flag g.summary)).setShadow
    (SKN_CTRL_GAUGE.of d) g.gauge).setShadow (SKN_CTRL_DENS_K.of d) g.densK
  let s2 := (s1.setShadow (SKN_MASK.of d) g.mask).setShadow (SKN_FLOOR.of d) g.floor
  let s3 := (s2.set (SKN_STATE_CTRL_TRACE.of d) (flag g.trace)).set (SKN_STATE_CTRL_MAX_MTS.of d) g.maxMts
  ((s3.set (FE_STATE_SCK_SEL.of d) k.sckSel).set (FE_STATE_EDGE.of d) k.edge).set (FE_STATE_DELAY.of d) k.delay

/-- A resource image, written to its register block by the internal path; a counter or timer takes its value. -/
def State.putResource (s : State) (src : Nat) (image : List Byte) : State :=
  match poolOf src with
  | none => s
  | some r =>
    let at_ := r.place
    let s1 := forEach (upto 6) s (fun k s => s.regPoke at_.1 (at_.2 + 4 * k) (leAt image (4 * k) 4))
    match r with
    | .ct i => s1.putCounter i (s1.get (TRG_CT_VALUE.res i)) (s1.is (TRG_CT_STATUS_RUNNING.res i))
    | .tm i => s1.putTimer i (s1.get (TRG_TM_VALUE.res i)) (s1.is (TRG_TM_STATUS_RUNNING.res i))
    | _ => s1

/-- The program and the control fields of session `n`'s sequencer, unless it is armed (R218, R400). -/
def State.putProgram (s : State) (n : Nat) (p : Plan) : State :=
  if s.seqArmed n then s
  else
    let s1 := forEach (upto 64) s (fun e s =>
      let w := p.program.getD e (0, 0)
      (s.set (TRG_COND.ofElt n e) w.1).set (TRG_ACT.ofElt n e) w.2)
    let s2 := ((s1.set (TRG_CTRL_START_LEVEL.of n) (field p.trgCtrl 20 4)).set (TRG_CTRL_GATE_CLOSES.of n)
      (field p.trgCtrl 7 1)).set (TRG_CTRL_GATE_INIT.of n) (field p.trgCtrl 6 1)
    s2.set (TRG_GATE_SKEINS.of n) p.gateSkeins

/-- The arm that goes with a cast-on at the boundary `b`, checked in the settings that come into force with it (R162,
R199, R200). A refused arm leaves the sequencer idle. -/
def State.castArm (s : State) (n b : Nat) (p : Plan) : State :=
  if !p.armAtCast || s.seqArmed n then s
  else
    let c := (forEach p.skeins s (fun k s => s.enforce k.skein)).armRefusal n true
    if c ≠ 0 then s.armRefused n c
    else (((s.set (TRG_STATUS_STATE.of n) 1).set (TRG_CTRL_ARM.of n) 1).set (TRG_ARM_ERR_CAUSE.of n) 0).onSeq n
      (fun q => { q with armDue := b })

/-- CAST_ON takes effect for the cast-on boundary `b` (R131, R162, R225, R400). Its commits occupy the pending stages until
then, so REQUEST and PENDING read 1 and a host request meets BUSY_WRITE (DEDUCED, log entry 101). -/
def State.castOn (s : State) (n b : Nat) : State :=
  match sget s.rcd.plans n none with
  | none => s
  | some p =>
    let s1 := forEach p.skeins s (fun k s => ((s.abandonCheck k.skein).clocksLanded k.skein).putPlanSkein k)
    let s2 := forEach p.resources (s1.putProgram n p) (fun r s => s.putResource r.1 r.2)
    let s3 := (forEach p.skeins s2 (fun k s => s.commitStage k.skein b)).castArm n b p
    (s3.onRcd (fun r => { r with castDue := sput r.castDue n 0 (b + 1) })).putSess n 2

/-- The instant a command acts at: the boundary of CAST_ON, BIND_OFF and ARM that is the first at or after `at_`. -/
def State.actBoundary (s : State) (code n at_ : Nat) : Nat :=
  if code = 0x13 then s.bindOffDue n (ceilTo at_ frameTicks) else max s.nextBoundary (ceilTo at_ frameTicks)

/-- A command that has passed its checks acts, not before the instant `at_` (0: at its first boundary). Answers its
reply. -/
def State.actCommand (s : State) (code : Nat) (args : List Byte) (at_ : Nat) : State × List Byte :=
  let n := leAt args 0 1
  let b := s.actBoundary code n at_
  match code with
  | 0x11 => (s.releasePlan n, [])
  | 0x12 => (s.castOn n b, toBytes 8 (eraFrame b))
  | 0x13 => (s.bindOffAt n 0 b, toBytes 8 (eraFrame b))
  | 0x14 => (((s.armRequest n).1).onSeq n (fun q => { q with armDue := b }), [])
  | 0x15 =>
    (if at_ = 0 then s.forcePulse n else s.onSeq n (fun q => { q with forceAt := q.forceAt ++ [at_] }), [])
  | 0x16 => ((s.segRelease (leAt args 0 2)).1, [])
  | _ =>
    let s1 := (s.set (WR_SESSION_QUOTA.elt n) (leAt args 8 8)).quotaRefresh n
    (s1, toBytes 8 (s1.get (WR_SESSION_HELD.elt n)))

/-- The lead's instant for a mirrored command: 64 frames and 2 FCLK cycles ahead (R466). -/
def State.pairInstant (s : State) : Nat := s.nextBoundary + 64 * frameTicks

/-! ### A mirrored command at the mailbox (R397, R466, R467) -/

/-- The command in progress waits: HELD and EV_034 (R397). -/
def State.mbxHold (s : State) : State :=
  if s.get MBX_STATUS_STATE.one = 3 then s else (s.set MBX_STATUS_STATE.one 3).raise 34

/-- The payload of a COMMAND message: code, tag, instant (0 in the first exchange) and arguments (R464).
DESIGN CHOICE, log entry 56. -/
def commandPayload (code tag instant : Nat) (args : List Byte) : List Byte :=
  toBytes 1 code ++ toBytes 1 0 ++ toBytes 2 tag ++ toBytes 8 instant ++ args

/-- The command in progress acts on this device alone. -/
def State.actAlone (s : State) (code : Nat) (args : List Byte) : State :=
  let r := s.actCommand code args 0
  r.1.mbxOk r.2

/-- A CAST_ON puts a SOLO pair together again (R472): the link is up and no session runs. DEDUCED, log entry 57. -/
def State.rejoin (s : State) (code : Nat) : State :=
  if code = 0x12 ∧ s.get TWN_STATUS_STATE.one = 3 ∧ s.is TWN_STATUS_LINK_UP.one ∧ !s.anyRuns then
    (s.set TWN_STATUS_STATE.one 2).onTwn (fun t => { t with agreedMine := [], agreedTheirs := [], mine := [], theirs := [] })
  else s

/-- A command that a pair mirrors is checked and acts; a lead asks its follower first, and a follower refuses it from
its own host. -/
def State.serveMirrored (s : State) (code : Nat) (args : List Byte) : State :=
  if s.paired && s.isFollower then s.mbxEnd 3 []
  else match s.checkCommand code args with
    | .fail r reply => (s.checkFailed code args r).mbxEnd r reply
    | .wait => s.mbxHold
    | .pass =>
      let s1 := if s.isLead then s.rejoin code else s
      if s1.paired && s1.isLead then
        (s1.twinSend 5 (commandPayload code ((s.mbx.cur.map (·.tag)).getD 0) 0 args)).onTwn (fun t => { t with mirror := true })
      else s.actAlone code args

/-! ### PARK and WAKE (R371, R372) -/

/-- PARK: refused, done already, waiting for the park in progress, or accepted. DEDUCED, log entry 61. -/
def State.servePark (s : State) : State :=
  let st := s.get PWR_STATUS_STATE.one
  if s.anyRuns || s.anyReplay || st == 4 then s.mbxEnd 3 []
  else if st = 3 then s.mbxOk []
  else if st = 2 then s.mbxHold
  else (s.set MBX_STATUS_STATE.one 2).putPower 2

/-- WAKE: accepted in PARK, and in PARKING, where it takes effect as PARKING ends; not while TRIPPED (R380). -/
def State.serveWake (s : State) : State :=
  let st := s.get PWR_STATUS_STATE.one
  if s.is PWR_STATUS_TRIPPED.one then s.mbxEnd 3 []
  else if st = 3 then s.wakeStart
  else if st = 2 then s
  else s.mbxEnd 3 []

/-! ### REPLAY_SETUP (R402) -/

/-- The rules of REPLAY_SETUP's arguments. -/
def replayArgs (args : List Byte) : List (Nat × Bool) :=
  [(0, decide (1 ≤ args.length) && decide (leAt args 0 1 ≤ 7)), (1, decide (2 ≤ args.length) && decide (leAt args 1 1 ≤ 1)),
    (2, decide (3 ≤ args.length) && decide (leAt args 2 1 ≤ 63)), (3, decide (4 ≤ args.length) && leAt args 3 1 == 0),
    (8, decide (16 ≤ args.length)), (0x10, decide (0x18 ≤ args.length)), (0x18, decide (0x20 ≤ args.length)),
    (0x20, decide (0x21 ≤ args.length) && decide (leAt args 0x20 1 ≤ 2))]

/-- The checks of REPLAY_SETUP before the arm. -/
def State.checkReplay (s : State) (n d ch : Nat) : Check :=
  if s.sessState n ≠ 0 ∨ !s.detached n ∨ s.seqArmed n ∨ s.get (TRG_STATUS_STATE.of n) = 1 ∨ s.dmaState ch = 1 ∨ s.dmaState ch = 4 ∨ s.heldByOther ch (4 + d) then wrongState
  else if s.flowFenced (4 + d) then fencedUnit (PageClass.page .flw 0)
  else if s.is (fencedOf (PageClass.page .dma ch)) then fencedUnit (PageClass.page .dma ch)
  else if s.seqFenced n then fencedUnit (PageClass.page .trg n)
  else .pass

/-- The sequencer is set up for a replay through channel `ch`: its stream state starts empty, and every skein may come
in it (R214, R217). DEDUCED, log entry 38. -/
def State.replayPrepare (s : State) (n ch : Nat) (args : List Byte) : State :=
  let all := 2 ^ 64 - 1
  let s1 := s.onSeq n (fun q => { Seq.idle with
    stitches := q.stitches
    outAddr := leAt args 0x10 8, outSize := leAt args 0x18 8, outSpace := leAt args 0x20 1
    channel := ch + 1, playSkeins := all, playTraced := all })
  forEach [TRG_REPLAY_STATUS_CRC_ERR, TRG_REPLAY_STATUS_GAP_SEEN, TRG_REPLAY_STATUS_DONE, TRG_REPLAY_MERGED,
    TRG_REPLAY_PRE_DROPS, TRG_REPLAY_POS] s1 (fun f s => s.set (f.of n) 0)

/-- The grotto for pre-history is lent to the acquisition port, where the sequencer keeps any (R217, R298). -/
def State.grottoLent (s : State) (n : Nat) : State :=
  if s.get (TRG_REPLAY_CTRL_PRE_FRAMES.of n) = 0 then s
  else
    let b := s.get (TRG_REPLAY_CTRL_GROTTO.of n)
    let was := (b, s.get (GRT_OWNER_OWNER.elt b), s.get (GRT_OWNER_GUEST.elt b))
    (s.handOver b 3 0 false (s.is (GRT_OWNER_NO_BORROW.elt b))).onSeq n (fun q => { q with lender := some was })

/-- REPLAY_SETUP: the detached sequencer is armed under R199, and its channel's HEAD is set and started. -/
def State.serveReplaySetup (s : State) (args : List Byte) : State :=
  match badField (replayArgs args) with
  | some o => s.mbxEnd 2 (toBytes 4 o)
  | none =>
    let n := leAt args 0 1
    let ch := leAt args 2 1
    match s.checkReplay n (leAt args 1 1) ch with
    | .fail r reply => s.mbxEnd r reply
    | _ =>
      let r := (s.replayPrepare n ch args).armRequest n
      if r.2 ≠ 0 then (r.1.onSeq n (fun q => { q with channel := 0 })).mbxEnd 4 (toBytes 1 r.2)
      else
        let head := leAt args 8 8
        let s1 := (r.1.grottoLent n).set (DMA_HEAD_ADDR.of ch) (head / 2 ^ 7)
        ((s1.set (DMA_HEAD_HOST.of ch) (field head 1 1)).dmaStart ch).mbxOk []

/-! ### The commands of this chapter at the mailbox -/

/-- CALENDAR_SET (R96, R399). -/
def State.serveCalendarSet (s : State) (args : List Byte) : State :=
  if args.length < 4 then s.mbxEnd 2 (toBytes 4 0) else (s.calendarLoad (leAt args 0 4)).mbxOk []

end Sys2Proof.Machine
end

