-- ==== Sys2Proof/Machine/Access.lean ====
section
/-! DEFINITION. What a read of a register page returns (R35, R44 to R52, R57 to R60, R88, R90, R498): the page header,
fields that follow their cause, snapshot copies, the frozen registers of a fenced page, and what a read clears or
snapshots. -/

namespace Sys2Proof.Machine

/-! ### Fields that follow their cause (R58) -/

/-- The word `j` of a table of 512 event bits. -/
def eventWord (f : Nat → Bool) (j : Nat) : Nat := maskOf 32 (fun b => f (32 * j + b))

/-- The lowest pending event, if any. -/
def State.lowestPending (s : State) : Option Nat := (upto 512).find? s.eventPending

/-- EVENT_N is driven low (R62). -/
def State.eventN (s : State) : Bool :=
  s.is EVT_CTRL.one && (upto 512).any (fun k => s.eventPending k && s.is (evtMapEventN k))

/-- Live fields of the EVT page (R59, R62, R68). -/
def State.liveEvt (s : State) (f : RegField) (e : Nat) : Option Nat :=
  if f = EVT_STATUS_ANY then some (flag s.lowestPending.isSome)
  else if f = EVT_STATUS_LOWEST then some (s.lowestPending.getD 0)
  else if f = EVT_STATUS_EVENT_N then some (flag s.eventN)
  else if f = EVT_PENDING then some (eventWord s.eventPending e)
  else if f = EVT_RAW then some (eventWord s.latched e)
  else none

/-- TIME_NOW (R88). -/
def State.timeNow (s : State) : Nat := let g := if s.onBypass then 2 ^ 13 else 2 ^ 10; s.stamp / g * g

/-- Live fields of the TIME page (R87, R88). -/
def State.liveTime (s : State) (f : RegField) : Option Nat :=
  if f = TIME_NOW then some s.timeNow else if f = TIME_ERA then some (eraOf s.now) else none

/-- The fuse words (R476). -/
def State.liveFuse (s : State) (f : RegField) (e : Nat) : Option Nat :=
  if f = FUSE_KEY_DIGEST then some (Config.keyDigest e).toNat
  else if f = FUSE_SVN then some s.fuseSvn
  else if f = FUSE_SERIAL_LO then some (Config.serial.toNat % 2 ^ 32)
  else if f = FUSE_SERIAL_HI then some (Config.serial.toNat / 2 ^ 32)
  else if f = FUSE_MFG_WEEK then some Config.mfgWeek.toNat
  else if f = FUSE_REPAIR then some (Config.fuseRepair e).toNat
  else none

/-- The sequencers that contribute to a pin. -/
def State.pinMask (s : State) (pin : Nat) : Nat := maskOf 8 (fun j => s.contrib pin j != .clear)

/-- Live fields of the status of counter or timer `i` (R191, R192, R219): a free-running counter runs while its owner is
armed, a timer only below its LIMIT; what has reached its target follows the target. -/
def State.livePool (s : State) (f : RegField) (i : Nat) : Option Nat :=
  let reached := decide (s.get (TRG_CT_TARGET.res i) ≤ s.get (TRG_CT_VALUE.res i))
  let expired := decide (s.get (TRG_TM_LIMIT.res i) ≤ s.get (TRG_TM_VALUE.res i))
  if f = TRG_CT_STATUS_REACHED then some (flag reached)
  else if f = TRG_TM_STATUS_EXPIRED then some (flag expired)
  else if f = TRG_TM_STATUS_RUNNING then some (flag (s.is (TRG_TM_STATUS_RUNNING.res i) && !expired))
  else if f = TRG_CT_STATUS_RUNNING then
    some (flag (if s.is (TRG_CT_CTRL_FREE.res i) then
        s.is (TRG_CT_CTRL_ENABLE.res i) && s.seqArmed (s.get (TRG_CT_CTRL_OWNER.res i))
      else s.is (TRG_CT_STATUS_RUNNING.res i)))
  else none

/-- Live fields of PIN_n_STATUS (R219). -/
def State.livePin (s : State) (f : RegField) (n : Nat) : Option Nat :=
  if f = PIN_STATUS_HOLDERS then some (s.pinMask (16 + n))
  else if f = PIN_STATUS_DRIVERS then some (s.pinMask n)
  else if f = PIN_STATUS_XTRIG_LOW then some (flag (bitOf s.pins.xtrigLow n || (decide (n < 4) && s.xtrigDriven n)))
  else if f = PIN_STATUS_XTRIG_DRIVEN then some (flag (decide (n < 4) && s.xtrigDriven n))
  else if f = PIN_STATUS_TRIG_IN then some (flag (bitOf s.pins.trigIn n))
  else if f = PIN_STATUS_LOCKOUT then some (flag (s.holdLocked n s.now))
  else if f = PIN_STATUS_HOLD then some (flag (s.holdActive n))
  else if f = PIN_STATUS_TRIG_OUT then some (flag (s.trigOutActive n))
  else none

/-- State clock `m` has had an edge in the last microsecond (R135). -/
def State.sckPresent (s : State) (m : Nat) : Bool :=
  let k := sget s.clk.sck m SckMeter.idle
  k.last != 0 && decide (s.now + 1 ≤ k.last + ticksUs)

/-- The frequency of state clock `m` in kHz: its rising edges in the last whole millisecond (R137). -/
def State.sckKhz (s : State) (m : Nat) : Nat :=
  let k := sget s.clk.sck m SckMeter.idle
  let w := s.now / ticksMs
  if w = k.window then k.before else if w = k.window + 1 then k.count else 0

/-- Live fields of the FE global page. -/
def State.liveFeg (s : State) (f : RegField) : Option Nat :=
  if f = FEG_SCK_PRESENT then some (maskOf 32 s.sckPresent)
  else if f = FEG_SCK_FREQ then some (s.sckKhz (s.get FEG_SCK_FREQ_INDEX.one))
  else none

/-- Live fields of the GRT page (R304, R307). -/
def State.liveGrt (s : State) (f : RegField) (e idx : Nat) : Option Nat :=
  if f = GRT_OWNER_BORROWED then some (flag (s.borrowed e))
  else if f = GRT_BORROWED then some (maskOf 64 s.borrowed)
  else if f = GRT_B_REPAIR_FUSED then some (Config.grottoFused idx).toNat
  else none

/-- Live fields of the DMA pages (R316, R324, R337, R338). -/
def State.liveDma (s : State) (f : RegField) (n : Nat) : Option Nat :=
  if f = DMA_STATUS_UNIT_WAIT then some (flag (s.unitWaits n))
  else if f = DMA_STATUS_TARGET_WAIT then some (flag (s.targetWaits n))
  else if f = DMA_G_STATUS_UNIT_WAIT then some (flag ((upto 64).any s.unitWaits))
  else if f = DMA_G_STATUS_HBM_WAIT then some (flag s.hbmWaits)
  else if f = DMA_G_STATUS_HOST_WAIT then some (flag s.hostWaits)
  else if f = DMA_G_RUNNING then some (maskOf 64 (fun n => s.dmaState n == 1))
  else none

/-- Live fields of the SWT log window (R449, R475). -/
def State.liveLog (s : State) (f : RegField) (idx : Nat) : Option Nat :=
  let of : (LogEntry → Nat) → Option Nat := fun g => some ((s.flt.log[idx]?.map g).getD 0)
  if f = SWT_LOG_STAMP then of (·.stamp)
  else if f = SWT_LOG_INFO_ERA then of (·.era)
  else if f = SWT_LOG_INFO_EVENT then of (·.event)
  else if f = SWT_LOG_UNIT_PAGE then of (·.page)
  else if f = SWT_LOG_UNIT_OUTCOME then of (·.outcome)
  else if f = SWT_LOG_DETAIL then of (·.detail)
  else none

/-- Counter `w` (1 to 16) of session `i` in an EPOCH payload (R468); 0 where there is none. -/
def payloadCounter (p : List Byte) (i w : Nat) : Nat := leAt p (4 + 8 * (16 * i + (w - 1))) 8

/-- The device's newest EPOCH payload. -/
def Twin.newest (t : Twin) : List Byte :=
  match t.mine.getLast? with
  | some p => p.2
  | none => t.agreedMine

/-- The pair's counter `w` of session `i` at the end of the last epoch (R473); zero but on the lead. -/
def State.pairCounter (s : State) (i w : Nat) : Nat :=
  if s.isLead then
    (payloadCounter s.twn.oldLead i w + payloadCounter s.twn.newest i w + 2 ^ 64 - payloadCounter s.twn.newLead i w) % 2 ^ 64
  else 0

/-- Live fields of SVC_STATUS (R412, R445). -/
def State.liveSvc (s : State) (f : RegField) : Option Nat :=
  if f = SVC_STATUS_REPLY_READY then some (flag !s.svc.replies.isEmpty)
  else if f = SVC_STATUS_PORT_BUSY then some (flag s.svc.port.isSome)
  else none

/-- Milliseconds since the last restart of the watchdog (R392). -/
def State.sinceKick (s : State) : Nat := min 65535 (((s.now : Int) - s.mbx.kickAt).toNat / ticksMs)

/-- A brown-out episode holds a boot-flash write back (R365): an operation, a request of the service port, or an ACTIVATE or
CONFIRM of the mailbox. -/
def State.writesDeferred (s : State) : Bool :=
  s.is PWR_STATUS_BO_WARN.one && (s.svc.ops.any (fun o => !o.ofJournal) ||
    s.svc.port.any (fun c => [0x85, 0x86, 0x87, 0x89].contains c.code) ||
    s.mbx.cur.any (fun c => [0x30, 0x31].contains c.code && s.get MBX_STATUS_STATE.one == 3))

/-- The value of a field that follows its cause: field `f` of the cell `d`. -/
def State.live (s : State) (f : RegField) (d : Fld) : Option Nat :=
  let n := ((pageOf d.page).map (·.2)).getD 0
  let e := if f.stride = 0 then 0 else (d.off - f.off) / f.stride
  match f.cls with
  | .sys => if f = SYS_SERIAL then some Config.serial.toNat else none
  | .evt => s.liveEvt f e
  | .time => s.liveTime f
  | .fuse => s.liveFuse f e
  | .pool => if f.off < 0x060 then s.livePin f n else s.livePool f (4 * n + e)
  | .fe => if f = FE_LEVEL then some (s.feLevel n) else none
  | .feg => s.liveFeg f
  | .mbx => if f = MBX_WDOG then some s.sinceKick else none
  | .svc => s.liveSvc f
  | .pwr => if f = PWR_STATUS_DEFERRED then some (flag s.writesDeferred) else none
  | .adm => if f = ADM_STATUS_BUSY then some (flag (s.mbx.cur.any (fun c => c.code == 0x10 || c.code == 0x11))) else none
  | .sq => if f = SQ_LEVEL then some (s.occupancy d.idx) else none
  | .wr => if f = WR_LEDGER ∧ e = 12 then some (s.inQueue d.idx) else none
  | .grt => s.liveGrt f e d.idx
  | .dma | .dmag => s.liveDma f n
  | .swt => s.liveLog f d.idx
  | .twn => if f = TWN_PAIR then some (s.pairCounter d.idx (e + 1)) else none
  | _ => none

/-- A register that the page of instance `n` does not have (R141, R180, R219): the spare's own registers, and XTRIG_n
above 3. DEDUCED, log entry 86. -/
def RegField.absent (f : RegField) (n : Nat) : Bool :=
  match f.cls with
  | .fe => f == FE_SOURCE && n != 64
  | .skn => decide (0x0C0 ≤ f.off) && n != 64
  | .pool => decide (f.off = 0x048) && decide (4 ≤ n)
  | _ => false

/-- LIFE_OVR_COUNT reads zero for an index above 64 (R107). -/
def unseen (q : Part) : Bool := q.field == LIFE_OVR_COUNT && decide (64 < q.fld.idx)

/-- The parts of a location that the page has. -/
def State.shownAt (s : State) (p off : Nat) : List Part :=
  let n := ((pageOf p).map (·.2)).getD 0
  (s.partsAt p off).filter (fun q => !q.field.absent n && !unseen q)

/-- What a read of a field returns: the shadow of an SHD field (R9), the present cause of a live one, else its cell. -/
def State.seen (s : State) (q : Part) : Nat :=
  if q.field.kind = .shd then s.getShadow q.fld else (s.live q.field q.fld).getD (s.get q.fld)

/-! ### The page header (R45 to R47) -/

/-- The unit of the page can be fenced (R46, R459). DEDUCED, log entry 74. -/
def PageClass.fenceable : PageClass → Bool
  | .fe | .skn | .trg | .hbm | .dma => true
  | _ => false

/-- PAGE_CAP of a class. -/
def PageClass.cap (c : PageClass) : Nat :=
  c.eventCount * 2 ^ 8 + flag c.shadowed * 2 ^ 4 + flag c.fenceable * 2 ^ 3 + 2 ^ 2 + flag c.posted * 2 + flag c.guarded

/-- PAGE_STATUS; BUSY reads 1 in an activation's pause (R57). -/
def State.pageStatus (s : State) (p : Nat) : Nat :=
  s.get (wrongKeyOf p) * 2 ^ 8 + s.get (lostWriteOf p) * 2 ^ 4 + s.get (accessErrOf p) * 2 ^ 3 + s.get (fencedOf p) * 2 ^ 2 +
    flag (s.pageLocked p) * 2 + flag (s.is (busyOf p) || s.paused)

/-- How many event bits a location holds: the latches and enables of PAGE_EVENT, and of SQ_EVENT_1 and _2 (R47,
R242). -/
def eventBits (c : PageClass) (off : Nat) : Nat :=
  if off = 0x010 ∨ off = 0x014 then c.eventCount
  else if c = .sq ∧ (off = 0x080 ∨ off = 0x088) then 32
  else if c = .sq ∧ (off = 0x084 ∨ off = 0x08C) then 1
  else 0

/-- A location of event bits holds latches, which a read clears; else it holds enables. -/
def latchOff (off : Nat) : Bool := off == 0x010 || off == 0x080 || off == 0x084

/-- The cell of bit `b` of a location of event bits. -/
def eventCell (p off b : Nat) : Fld := ⟨p, off, b, 1, 0, 0⟩

/-- A location of event bits as a word, where `view` gives each cell. -/
def eventValue (view : Fld → Nat) (c : PageClass) (p off : Nat) : Nat :=
  maskOf (eventBits c off) (fun b => view (eventCell p off b) == 1)

/-- A location of the header of page `p`. -/
def State.headerValue (s : State) (c : PageClass) (n p off : Nat) : Nat :=
  match off with
  | 0x000 => c.code * 2 ^ 24 + n * 2 ^ 16 + p
  | 0x004 => 0x0200
  | 0x008 => c.cap
  | 0x00C => s.pageStatus p
  | 0x010 => eventValue s.get c p off
  | 0x014 => eventValue s.get c p off
  | 0x01C => s.snapSeq
  | _ => 0

/-! ### Block registers, snapshot copies and fenced pages -/

/-- The register at block offset `off` has a snapshot copy (R498, R220, R312, R339, R408). -/
def copied (c : PageClass) (off : Nat) : Bool :=
  decide (0x040 ≤ off) && decide (off < 0x400) &&
    !(c == .grt && (off == 0x050 || off == 0x054)) && !(c == .dma && off == 0x044) &&
    !(c == .mbx && (off == 0x048 || off == 0x04C))

/-- The value in force of a block register of a page in service. -/
def State.blockValue (s : State) (c : PageClass) (p off : Nat) : Nat :=
  composed (s.shownAt p off) s.seen + eventValue s.get c p off

/-- A block register of a fenced page, as software saw it at the fencing (R52). -/
def State.frozenValue (s : State) (c : PageClass) (p off : Nat) : Nat :=
  let f := { s with regs := sget s.frozen p [] }
  composed (f.shownAt p off) (fun q => f.get q.fld) + eventValue f.get c p off

/-- The snapshot copy of the block register at `off`, windows at the index in force at the snapshot (R498). -/
def State.snapValue (s : State) (c : PageClass) (p off : Nat) : Nat :=
  let f := { s with regs := s.snap }
  composed (f.shownAt p off) (fun q => f.get q.fld) + eventValue f.get c p off

/-- Software sees the location as a snapshot copy. -/
def copyOff (c : PageClass) (off : Nat) : Bool := decide (0x440 ≤ off) && copied c (off - 0x400)

/-- The value of a 32-bit location before a read has any effect, the high half of a pair aside. The snapshot copies of a
fenced page go on following the snapshots (DESIGN CHOICE, log entry 94). -/
def State.locValue (s : State) (p off : Nat) : Nat :=
  match pageOf p with
  | none => 0
  | some (c, n) =>
    if off < 0x040 then s.headerValue c n p off
    else if s.paused then 0
    else if copyOff c off then s.snapValue c p (off - 0x400)
    else if 0x400 ≤ off ∧ off < 0x800 then 0
    else if s.is (fencedOf p) then s.frozenValue c p off
    else s.blockValue c p off

/-! ### What a read does (R9, R48, R50, R90) -/

/-- The location at `off` is the low half, or with `hi` the high half, of a 64-bit pair. -/
def pairHalf (p off : Nat) (hi : Bool) : Bool :=
  match pageOf p with
  | none => false
  | some (c, n) =>
    let x := if copyOff c off then off - 0x400 else off
    (fieldsOf c).any (fun f => f.pair && !f.absent n && (match f.place x with
      | some (_, h) => h == hi
      | none => false))

/-- The byte mask of a location as a mask of its bits. -/
def byteBits (mask : Nat) : Nat := ((upto 4).map (fun i => flag (bitOf mask i) * (0xFF * 2 ^ (8 * i)))).sum

/-- `v` with the bits of `m` cleared, over 64 bits. -/
def clearBits (v m : Nat) : Nat := maskOf 64 (fun b => bitOf v b && !bitOf m b)

/-- A read clears the EVT fields in the bytes it reads (R9, R50). -/
def State.readClears (s : State) (p off mask : Nat) : State :=
  match pageOf p with
  | none => s
  | some (c, _) =>
    let bits := byteBits mask
    let s1 := if off = 0x00C ∧ bitOf mask 0 then (s.set (accessErrOf p) 0).set (lostWriteOf p) 0 else s
    let block := decide (0x040 ≤ off)
    if block && (s.paused || s.is (fencedOf p)) then s1
    else
      let s2 := if latchOff off then forEach (upto (eventBits c off)) s1 (fun b s =>
        if bitOf bits b then s.set (eventCell p off b) 0 else s) else s1
      if block then forEach (s.shownAt p off) s2 (fun q s =>
        if q.field.kind = .evt then s.set q.fld (clearBits (s.get q.fld) (field bits q.lo q.width * 2 ^ q.shift)) else s)
      else s2

/-- The place where the high half snapshot by a read of a pair is held. -/
def State.holdHigh (s : State) (p off v : Nat) : State := { s with hiSnap := sput s.hiSnap (pairKey p off) 0 (v + 1) }

/-- The offset of TIME_CAL_SECONDS and the low half whose read snapshots it (R90). -/
def calSecondsOff : Nat := 0x078

/-- A read of a low half snapshots the high half (R48); TIME_CAL_STAMP_LO also TIME_CAL_SECONDS (R90). -/
def State.readSnaps (s : State) (p off : Nat) : State :=
  if s.paused then s
  else
    let s1 := if pairHalf p off false then s.holdHigh p off (s.locValue p (off + 4)) else s
    if p = PageClass.page .time 0 ∧ off = 0x070 then s1.holdHigh p calSecondsOff (s.locValue p calSecondsOff) else s1

/-- The value a read of a location returns: a high half and TIME_CAL_SECONDS as last snapshot (R48, R90). -/
def State.readValue (s : State) (p off : Nat) : Nat :=
  let key := if pairHalf p off true then pairKey p (off - 4)
    else if p = PageClass.page .time 0 ∧ off = calSecondsOff then pairKey p off else 0
  if s.paused ∧ 0x040 ≤ off then 0
  else if key = 0 then s.locValue p off
  else match sget s.hiSnap key 0 with
    | 0 => s.locValue p off
    | v + 1 => v

/-- A read of the bytes `mask` of the location at `off` of page `p`: the state, and the location's value. -/
def State.readLoc (s : State) (p off mask : Nat) : State × Nat :=
  if mask = 0 then (s, 0) else ((s.readSnaps p off).readClears p off mask, s.readValue p off)

/-! ### BAR0 reads (R35, R50) -/

/-- A read returns `data`. -/
def State.readDone (s : State) (data : List Byte) : State :=
  s.onLink (fun l => { l with readData := data, completion := .success })

/-- A BAR0 request of `len` bytes at `addr` breaks R35. -/
def badSpan (addr len : Nat) : Bool := decide (8 < addr % 8 + len)

/-- A BAR0 request broke an access rule: ACCESS_ERR of the page that holds its first byte (R35, R50). -/
def State.spanErr (s : State) (addr : Nat) : State :=
  if (pageOf (addr / 4096)).isSome then s.accessErr (addr / 4096) (addr % 4096) else s

/-- The byte mask of `len` bytes from `at_` in the location that starts at `base`. -/
def spanMask (base at_ len : Nat) : Nat := maskOf 4 (fun i => decide (at_ ≤ base + i) && decide (base + i < at_ + len))

/-- A host read of `len` bytes of BAR0 at `addr`. The bytes of one pair may be 3, 5, 6 or 7 too, which R35 neither lists
nor rejects (DESIGN CHOICE, log entry 91). A read that touches GRT_HOST_DATA_LO reads the grotto (R309). -/
def State.bar0Read (s : State) (addr len : Nat) : State :=
  if !s.hostOpen then s
  else if badSpan addr len then (s.spanErr addr).readDone (List.replicate len 0)
  else
    let p := addr / 4096
    let base := addr % 4096 / 8 * 8
    let at_ := addr % 4096
    let lo := spanMask base at_ len
    let hi := spanMask (base + 4) at_ len
    if p = grtPage ∧ base = 0x050 ∧ lo ≠ 0 then s.windowRead .clean (addr % 8) len
    else
      let a := s.readLoc p base lo
      let b := a.1.readLoc p (base + 4) hi
      b.1.readDone (((toBytes 8 (a.2 + 2 ^ 32 * b.2)).drop (addr % 8)).take len)

/-- Byte `x` of BAR4 as the host reads it (R43): the mailbox areas, the MSI-X table, the pending-bit array, and zero in
the reserved areas. DESIGN CHOICE, log entry 24. -/
def Link.bar4Shown (l : Link) (x : Nat) : Byte :=
  let v := (x - 0xE000) / 16
  if x < 0xE000 then BitVec.ofNat 8 (sget l.bar4 x 0)
  else if x < 0xE400 then BitVec.ofNat 8 (
    if x % 16 < 8 then sget l.tableAddr v 0 / 2 ^ (8 * (x % 8))
    else if x % 16 < 12 then sget l.tableData v 0 / 2 ^ (8 * (x % 4))
    else if x % 16 = 12 then sget l.masked v 1
    else 0)
  else if 0xF000 ≤ x ∧ x < 0xF008 then BitVec.ofNat 8 (maskOf 8 (fun i => sget l.pba (8 * (x - 0xF000) + i) 0 == 1))
  else 0

/-- A host read of `len` bytes of BAR4 at `x`, of any length (R36); zero in an activation's pause (R57). -/
def State.bar4Read (s : State) (x len : Nat) : State :=
  if !s.hostOpen then s
  else s.readDone ((upto len).map (fun i => if s.paused then 0 else s.link.bar4Shown (x + i)))

/-- EVENT_LATCH_READ: a host read of BAR0, which clears the EVT fields it returns (R9, R59), or of BAR4, which holds none
(DESIGN CHOICE, log entry 24). -/
def execEventLatchRead (addr : BitVec 24) (len : Fin 4097) (s : State) (bar : Bar := .bar0) :
    Host.Outcome State Fault Refusal :=
  match bar with
  | .bar0 => .next (s.bar0Read addr.toNat len.val)
  | .bar4 => if 0x10000 < addr.toNat + len.val then .fault .illFormed else .next (s.bar4Read addr.toNat len.val)

/-- PAIR_LOW_HALF_READ: a host read, which snapshots the high half of a pair whose low half it returns (R48). -/
def execPairLowHalfRead (addr : BitVec 24) (len : Fin 9) (s : State) : Host.Outcome State Fault Refusal :=
  .next (s.bar0Read addr.toNat len.val)

/-- BAR0_READ_ACCESS_ERR: a BAR0 read longer than 8 bytes, across an aligned 8-byte boundary, or with byte enables that
are not contiguous returns zero and sets ACCESS_ERR (R35, R50). -/
def execBar0ReadAccessErr (addr : BitVec 24) (len : Nat) (s : State) : Host.Outcome State Fault Refusal :=
  if 4096 < len then .fault .illFormed
  else if s.hostOpen then .next ((s.spanErr addr.toNat).readDone (List.replicate len 0))
  else .next s

end Sys2Proof.Machine
end

