-- ==== Sys2Proof/Machine/Summary.lean ====
section
/-! DEFINITION. Coherent snapshots (R16 to R18, R64, R65) and the ECHO summary (R403 to R405), the LIFE_READ data
(R399), and the reports SELFTEST_REPORT and FENCE_READ (R458, R461, R462). -/

namespace Sys2Proof.Machine

/-! ### Snapshots (R16, R64, R65) -/

/-- A snapshot is asked for. Those due at one instant will share it (R18). -/
def State.snapAsked (s : State) (who : SnapAsker) : State :=
  (s.set SYS_SNAP_STATUS_PENDING.one 1).onClk (fun c => { c with
    snaps := c.snaps.map (fun a => if a.who = who then { a with who := .nobody } else a) ++ [⟨who, s.snapTime⟩] })

/-- A write of 1 to SYS_SNAP.REQUEST; while it reads 1 the write adds nothing (R64). -/
def State.snapRequest (s : State) : State := if s.is SYS_SNAP.one then s else (s.set SYS_SNAP.one 1).snapAsked .host

/-- SNAP_REQUEST: a host write of 1 to SYS_SNAP.REQUEST. -/
def execSnapRequest (s : State) : Host.Outcome State Fault Refusal :=
  .next (s.gated (PageClass.page .sys 0) 0x060 State.snapRequest)

/-- The instances of a page class (R44). -/
def PageClass.instances : PageClass → Nat
  | .fe | .skn => 65
  | .trg | .pool => 8
  | .hbm => 4
  | .dma => 64
  | _ => 1

/-- The fields that follow their cause. -/
def liveFields : List RegField :=
  [SYS_SERIAL, EVT_STATUS_ANY, EVT_STATUS_LOWEST, EVT_STATUS_EVENT_N, EVT_PENDING, EVT_RAW, TIME_NOW, TIME_ERA,
    FUSE_KEY_DIGEST, FUSE_SVN, FUSE_SERIAL_LO, FUSE_SERIAL_HI, FUSE_MFG_WEEK, FUSE_REPAIR] ++
  [PIN_STATUS_HOLDERS, PIN_STATUS_DRIVERS, PIN_STATUS_XTRIG_LOW, PIN_STATUS_XTRIG_DRIVEN, PIN_STATUS_TRIG_IN,
    PIN_STATUS_LOCKOUT, PIN_STATUS_HOLD, PIN_STATUS_TRIG_OUT, FE_LEVEL, FEG_SCK_PRESENT, FEG_SCK_FREQ, MBX_WDOG,
    SQ_LEVEL, WR_LEDGER] ++
  [GRT_OWNER_BORROWED, GRT_BORROWED, GRT_B_REPAIR_FUSED, DMA_STATUS_UNIT_WAIT, DMA_STATUS_TARGET_WAIT,
    DMA_G_STATUS_UNIT_WAIT, DMA_G_STATUS_HBM_WAIT, DMA_G_STATUS_HOST_WAIT, DMA_G_RUNNING, SWT_LOG_STAMP,
    SWT_LOG_INFO_ERA, SWT_LOG_INFO_EVENT, SWT_LOG_UNIT_PAGE, SWT_LOG_UNIT_OUTCOME, SWT_LOG_DETAIL, TWN_PAIR, SVC_STATUS_REPLY_READY,
    SVC_STATUS_PORT_BUSY, TRG_CT_STATUS_REACHED, TRG_CT_STATUS_RUNNING, TRG_TM_STATUS_EXPIRED, TRG_TM_STATUS_RUNNING,
    ADM_STATUS_BUSY]

/-- The cells of a field over every page and element, a window's at the index in force. -/
def State.cellsOf (s : State) (f : RegField) : List Fld :=
  (upto f.cls.instances).flatMap (fun n =>
    let p := f.cls.page n
    (upto (max 1 f.count)).map (fun e =>
      ⟨p, f.off + e * f.stride, f.lo, f.width, f.reset, if f.index = 0 then 0 else s.windowIndex f.cls p f.index⟩))

/-- What the snapshot registers take: every cell, the shadow of an SHD field, and the present value of a field that
follows its cause. DESIGN CHOICE, log entry 94. -/
def State.captured (s : State) : Sparse Nat :=
  let base := s.regs.filter (fun p => !shadowKey p.1)
  let full := s.shadow.foldl (fun (m : Sparse Nat) p => sins p.1 p.2 m) base
  liveFields.foldl (fun (m : Sparse Nat) f => (s.cellsOf f).foldl (fun (m : Sparse Nat) d => match s.live f d with
    | some v => sput m d.key d.reset (v % 2 ^ d.width)
    | none => m) m) full

/-- The earliest instant at which a snapshot is due. -/
def Clocks.firstSnap (c : Clocks) : Option Nat := (c.snaps.map (·.due)).min?

/-- A snapshot is due now: its frame boundary, or its multiple of 256 bypass FCLK cycles, has come.
DEDUCED, log entry 7. -/
def State.snapReady (s : State) : Bool :=
  match s.clk.firstSnap with
  | some t => decide (t ≤ if s.onBypass then s.clk.bypassCycles else s.clk.frameAt)
  | none => false

/-- The asks that the snapshot due first serves. -/
def Clocks.snapsNow (c : Clocks) : List SnapAsk := c.snaps.filter (fun a => some a.due == c.firstSnap)

/-- `who` waits for the snapshot that is due first. -/
def State.snapFor (s : State) (who : SnapAsker) : Bool := s.clk.snapsNow.any (fun a => a.who == who)

/-- The snapshot due first is taken: the copies, the sequence number, SYS_SNAP_FRAME, and EV_000 (R16, R17, R64, R65). -/
def State.takeSnapshot (s : State) : State :=
  let t := if s.onBypass then s.now else s.clk.frameAt
  let rest := s.clk.snaps.filter (fun a => some a.due != s.clk.firstSnap)
  let s1 := ((s.set SYS_SNAP_FRAME_ERA.one (eraOf t)).set SYS_SNAP_FRAME_FRAME.one (eraFrame t % 2 ^ 46)).set
    SYS_SNAP_STATUS_BYPASS.one (flag s.onBypass)
  let s2 := ((s1.set SYS_SNAP_STATUS_PENDING.one (flag !rest.isEmpty)).set SYS_SNAP.one
    (flag (rest.any (fun a => a.who == .host)))).onClk (fun c => { c with snaps := rest })
  ({ s2 with snap := s.captured, snapSeq := (s.snapSeq + 1) % 2 ^ 32 }).raise 0

/-! ### The ECHO summary (R403, R404) -/

/-- The 32-bit location at `off` of page `p` with the settings in force. -/
def State.copy32 (s : State) (p off : Nat) : Nat :=
  composed (s.shownAt p off) (fun q => (s.live q.field q.fld).getD (s.get q.fld))

/-- The four bytes of the register that holds field `f`, on the page of instance `n`. -/
def State.copyReg (s : State) (f : RegField) (n : Nat) : List Byte := toBytes 4 (s.copy32 (f.cls.page n) f.off)

/-- The same of element `e` of a repeated register. -/
def State.copyElt (s : State) (f : RegField) (n e : Nat) : List Byte :=
  toBytes 4 (s.copy32 (f.cls.page n) (f.off + e * f.stride))

/-- The eight bytes of a pair. -/
def State.copyPair (s : State) (f : RegField) (n e : Nat) : List Byte :=
  s.copyElt f n e ++ toBytes 4 (s.copy32 (f.cls.page n) (f.off + e * f.stride + 4))

/-- Several registers of single pages. -/
def State.copyRegs (s : State) (l : List RegField) : List Byte := l.flatMap (fun f => s.copyReg f 0)

/-- `bytes` in a field of `n` bytes. -/
def fitTo (n : Nat) (bytes : List Byte) : List Byte := (bytes ++ List.replicate (n - bytes.length) 0).take n

/-- Section 1. -/
def State.echoIdentity (s : State) : List Byte :=
  s.copyRegs [SYS_IDENT_PART, SYS_STEPPING_NUMBER] ++ s.copyPair SYS_SERIAL 0 0 ++
    s.copyRegs [SYS_FW_VERSION_BUILD, SYS_BOOT_BOOT_MODE, SYS_LINK_STATUS_SPEED]

/-- Section 2. -/
def State.echoFirmware (s : State) : List Byte :=
  let trial := match s.selector with
    | some e => toBytes 4 e.seq ++ toBytes 4 (e.left % 4 + flag e.trial * 2 ^ 8 + e.active * 2 ^ 16)
    | none => toBytes 8 0
  s.copyRegs [SVC_SLOT_A_VERSION, SVC_SLOT_A_STATE, SVC_SLOT_B_VERSION, SVC_SLOT_B_STATE] ++ trial ++
    s.copyRegs [MBX_LAST_APPLIED_CODE, MBX_CPU_RESETS_WATCHDOG, MBX_CPU_CAUSE, MBX_STATUS_STATE, MBX_CPU_STATUS_RUNNING]

/-- Section 3. -/
def State.echoPower (s : State) : List Byte :=
  s.copyRegs [PWR_STATUS_STATE, PWR_TEMP_MAX_TEMP, PWR_BO_COUNT, PWR_RESET_CAUSE_CAUSE, CLK_STATUS_LOCKED,
    CLK_QUALITY_PHASE_RMS, CLK_LOSS_COUNT_LOCK_LOSSES, TIME_STATUS_VALID, TIME_ERA, HBM_G_STATUS_READY, GRT_STATUS_READY,
    FEG_STATUS_CAL_DONE, LIFE_STATUS_CAL_VALID, SQ_STATUS_ABOVE_64, ADM_STATUS_CREDIT_REFUSED, ADM_SLOTS_TOTAL]

/-- A skein entry of section 4. -/
def State.echoSkein (s : State) (n : Nat) : List Byte :=
  let marks := flag (s.is (fencedOf (PageClass.page .skn n))) + flag (s.skeinGate n) * 2 + flag (s.skeinReady n) * 4
  let above := if n = 64 then s.is SQ_STATUS_ABOVE_64.one else bitOf (s.get SQ_ABOVE.one) n
  s.copyReg SKN_CTRL_ENC n ++ s.copyReg SKN_MASK n ++ s.copyReg SKN_FLOOR n ++ s.copyReg SKN_STATUS_STATE n ++
    s.copyReg FE_STATUS_CAL_OK n ++ toBytes 4 marks ++ toBytes 4 (s.get (SKN_COMMIT_STATUS_FRAME.of n)) ++
    toBytes 4 (s.occupancy n % 2 ^ 13 + flag above * 2 ^ 16)

/-- A session entry of section 5. -/
def State.echoSession (s : State) (i : Nat) : List Byte :=
  s.copyElt WR_SESSION_STATUS_STATE 0 i ++ s.copyElt ADM_SESSION_CREDITS 0 i ++ s.copyElt ADM_SESSION_RATE 0 i ++
    s.copyReg TRG_STATUS_STATE i ++
  ([WR_SESSION_REGION_BASE, WR_SESSION_REGION_SIZE, WR_SESSION_QUOTA, WR_SESSION_HELD, WR_SESSION_CAST_FRAME,
    WR_SESSION_SKEINS].flatMap (fun f => s.copyPair f 0 i)) ++
  s.copyElt WR_SESSION_LEDGER_SEQ 0 i ++ s.copyElt SEG_SESSION_BASE 0 i ++ s.copyElt SEG_SESSION_USED 0 i ++
    s.copyReg TRG_SEG_INDEX i ++ s.copyPair TRG_LAST_TRIG i 0 ++ s.copyReg TRG_TRIGGERS i ++ s.copyReg TRG_STITCHES_LOST i

/-- Section 6. -/
def State.echoLedgers (s : State) : List Byte :=
  (upto 8).flatMap (fun i => (upto 16).flatMap (fun w => toBytes 8 (s.counter i (w + 1))))

/-- Sections 7 to 10, to their places from 0x1120 to 0x16DF. -/
def State.echoUnits (s : State) : List Byte :=
  fitTo 128 ((upto 4).flatMap (fun k => fitTo 32 (s.copyReg HBM_STATUS_STATE k ++ s.copyReg HBM_FENCED k ++
    s.copyReg HBM_CE_TOTAL k ++ s.copyReg HBM_UE_TOTAL k ++ s.copyPair HBM_WRITTEN k 0 ++ s.copyReg HBM_RETAIN k))) ++
  (upto 64).flatMap (fun b => s.copyElt GRT_OWNER_OWNER 0 b) ++
  (upto 64).flatMap (fun n => s.copyReg DMA_STATUS_STATE n ++ s.copyReg DMA_DESCS n ++ s.copyPair DMA_TOTAL_BYTES n 0) ++
  fitTo 64 (s.copyReg FLW_STATUS_COMP_HELD 0 ++ (upto 4).flatMap (fun u => s.copyElt FLW_COMP_STATUS_LEVEL 0 u) ++
    (upto 2).flatMap (fun d => s.copyElt FLW_DEC_STATUS_HELD 0 d) ++ (upto 2).flatMap (fun d => s.copyElt FLW_DEC_ERR_INFO_CAUSE 0 d))

/-- The fence summary of section 11. -/
def State.echoFences (s : State) : List Byte :=
  let f := s.flt.fences
  toBytes 8 f.skeins ++ toBytes 4 (flag f.spare) ++ toBytes 4 f.sequencers ++ toBytes 16 f.pcs ++ toBytes 8 f.grottos ++
    toBytes 8 f.dma ++ toBytes 4 f.flw ++ toBytes 4 (s.get SWT_FAULTS.one)

/-- A fault-log entry. -/
def LogEntry.bytes (e : LogEntry) : List Byte :=
  toBytes 8 e.stamp ++ toBytes 2 e.era ++ toBytes 2 e.event ++ toBytes 2 e.page ++ toBytes 1 e.outcome ++ toBytes 1 0 ++
    toBytes 4 e.detail

/-- The fault log of section 11. -/
def State.echoLog (s : State) : List Byte := fitTo 2048 (s.flt.log.flatMap (fun e => fitTo 32 e.bytes))

/-- Section 12. -/
def State.echoEvents (s : State) : List Byte :=
  (upto 16).flatMap (fun j => toBytes 4 (eventWord s.latched j)) ++ (upto 16).flatMap (fun j => toBytes 4 (eventWord s.eventPending j))

/-- Section 13. -/
def State.echoTwin (s : State) : List Byte :=
  toBytes 4 (s.get TWN_STATUS_ROLE.one + s.get TWN_STATUS_LINK_UP.one * 2 ^ 8) ++ toBytes 4 0 ++
    toBytes 8 (s.get TWN_AGREED_EPOCH.one) ++ toBytes 8 (s.get TWN_HANDOVER_EPOCH.one) ++
    toBytes 4 (s.get TWN_DISAGREE.one) ++ toBytes 4 (s.get TWN_DISAGREE_INFO_COUNTER.one)

/-- The summary, from a state at the moment of its snapshot, or with `isLive` of the present registers. The reduced one
leaves sections 6 to 10 and the fault log zero. -/
def State.summary (s : State) (lite isLive : Bool) : List Byte :=
  let t := if s.onBypass then s.now else s.clk.frameAt
  let header := toBytes 4 16384 ++ toBytes 2 0x0200 ++ toBytes 2 (if lite then 0x303F else 0x3FFF) ++
    toBytes 4 (if isLive then 0 else s.snapSeq) ++ toBytes 4 (flag isLive + flag lite * 2 + flag s.onBypass * 4) ++
    toBytes 8 (eraFrame t) ++ toBytes 4 (s.get LIFE_CAL_SECONDS.one) ++ toBytes 4 (s.get TIME_CAL_SECONDS.one)
  let large : List Byte → List Byte := fun b => if lite then [] else b
  let body := fitTo 0x40 header ++ fitTo 0x40 s.echoIdentity ++ fitTo 0x40 s.echoFirmware ++ fitTo 0x40 s.echoPower ++
    fitTo 0x820 ((upto 65).flatMap (fun n => fitTo 32 (s.echoSkein n))) ++
    fitTo 0x400 ((upto 8).flatMap (fun i => fitTo 128 (s.echoSession i))) ++ fitTo 0x400 (large s.echoLedgers) ++
    fitTo 0x5C0 (large s.echoUnits) ++ fitTo 0x40 s.echoFences ++ fitTo 0x800 (large s.echoLog) ++
    fitTo 0x80 s.echoEvents ++ s.echoTwin
  let whole := fitTo 16380 body
  whole ++ toBytes 4 (crc32c whole)

/-! ### LIFE_READ (R399) -/

/-- The LIFE_READ data: the block registers, the sector erase counts and the over-range counts. -/
def State.lifeData (s : State) : List Byte :=
  fitTo 0x80 ((upto 31).flatMap (fun i => toBytes 4 (s.copy32 (PageClass.page .life 0) (0x040 + 4 * i)))) ++
    (upto 1024).flatMap (fun i => toBytes 4 (s.get (LIFE_SECTOR_ERASES.win i))) ++
    (upto 65).flatMap (fun i => toBytes 4 (s.get (LIFE_OVR_COUNT.win i)))

/-! ### SELFTEST_REPORT and FENCE_READ (R458, R461, R462) -/

/-- A fence entry (R458). -/
def fenceEntryBytes (seq : Nat) (f : Fences) : List Byte :=
  let b := toBytes 4 0x4E465A54 ++ toBytes 4 seq ++ toBytes 8 f.skeins ++ toBytes 1 (flag f.spare + flag f.replaced.isSome * 2) ++
    toBytes 1 (f.replaced.getD 0x7F) ++ toBytes 1 f.sequencers ++ toBytes 1 f.flw ++ toBytes 4 0 ++ toBytes 16 f.pcs ++
    toBytes 8 f.grottos ++ toBytes 8 f.dma ++ toBytes 2 f.lastEvent ++ toBytes 2 0
  b ++ toBytes 4 (crc32c b)

/-- A soft-repair entry (R461). -/
def repairEntryBytes (seq : Nat) (l : List Nat) : List Byte :=
  let b := toBytes 4 0x50525A54 ++ toBytes 4 seq ++ toBytes 2 l.length ++ toBytes 2 0 ++ fitTo 48 (l.flatMap (toBytes 2))
  b ++ toBytes 4 (crc32c b)

/-- A selector entry (R426). -/
def SelectorEntry.toFlash (e : SelectorEntry) : List Byte :=
  let b := toBytes 4 0x4C535A54 ++ toBytes 4 e.seq ++ toBytes 1 e.active ++ toBytes 1 (flag e.trial) ++ toBytes 1 e.left ++
    toBytes 1 e.prev ++ toBytes 4 e.version ++ toBytes 4 e.prevVersion ++ List.replicate 40 0
  b ++ toBytes 4 (crc32c b)

/-- A configuration record (R430). -/
def CfgRecord.toFlash (r : CfgRecord) : List Byte :=
  let b := toBytes 4 0x46435A54 ++ toBytes 4 r.seq ++ toBytes 2 r.format ++ toBytes 2 r.entries.length ++
    r.entries.flatMap (fun x => toBytes 2 x.1 ++ toBytes 2 x.2.1 ++ toBytes 4 x.2.2)
  b ++ toBytes 4 (crc32c b)

/-- A journal record in its place of the ring (R441): the LIFE page's registers and its two tables, from the cells that it
holds. -/
def State.journalToFlash (s : State) (r : JournalRec) : List Byte :=
  let t := { s with regs := r.cells }
  let b := fitTo 0x10 (toBytes 4 0x524A5A54 ++ toBytes 4 r.seq) ++
    fitTo 0x80 ((upto 31).flatMap (fun i => toBytes 4 (t.copy32 (PageClass.page .life 0) (0x040 + 4 * i)))) ++
    fitTo 0x170 ((upto 65).flatMap (fun i => toBytes 4 (t.get (LIFE_OVR_COUNT.win i)))) ++
    (upto 1024).flatMap (fun i => toBytes 3 (min 16777215 (t.get (LIFE_SECTOR_ERASES.win i)))) ++ List.replicate 0x1FC 0
  b ++ toBytes 4 (crc32c b)

/-- The fence entry in force, 64 bytes; zero where none has been written. -/
def State.fenceBytes (s : State) : List Byte :=
  match s.svc.flash.fences with
  | some f => fenceEntryBytes s.svc.flash.fenceSeq f
  | none => List.replicate 64 0

/-- The soft-repair entry in force. -/
def State.repairBytes (s : State) : List Byte :=
  if s.svc.flash.repairSeq = 0 then List.replicate 64 0 else repairEntryBytes s.svc.flash.repairSeq s.svc.flash.repairs

/-- Two fence records name the same units. -/
def Fences.same (a b : Fences) : Bool := decide ({ a with lastEvent := 0 } = { b with lastEvent := 0 })

/-- The FENCE_READ reply. -/
def State.fenceReport (s : State) : List Byte :=
  let flags := flag s.flt.entryDue + flag s.flt.repairDue * 2 +
    flag (!(s.svc.flash.fences.getD Fences.empty).same s.flt.fences) * 4
  s.fenceBytes ++ s.repairBytes ++ toBytes 4 flags ++ toBytes 4 0

/-- Places of the datapath test's units in its masks: 64 channels, four compressors and two decompressors in the bits
of a fence entry, eight sequencers (R457, R462). -/
def testNumber : TestUnit → Nat
  | .channel n => n.val
  | .comp u => 64 + u.val
  | .decomp d => 68 + d.val
  | .sequencer n => 72 + n.val

/-- The SELFTEST_REPORT reply. -/
def State.selftestReport (s : State) : List Byte :=
  let v : Nat → List Byte := fun m =>
    let x := sget s.flt.visits m Visit.none
    toBytes 4 x.first ++ toBytes 2 x.differs ++ toBytes 1 x.result ++ toBytes 1 0
  let passed := clearBits s.flt.dpTested s.flt.dpFound
  let high := clearBits (s.flt.dpTested / 2 ^ 64) (s.flt.dpFound / 2 ^ 64)
  toBytes 4 (s.get SWT_ROT_PASSES.one) ++ toBytes 4 (s.get SWT_SWATCH_PASSES.one) ++ toBytes 4 (s.get SWT_DP_PASSES.one) ++ toBytes 4 0 ++
    (upto 65).flatMap v ++ toBytes 8 s.flt.lastFull ++ toBytes 8 (s.get SWT_UNTESTED.one) ++ toBytes 8 s.flt.lastFound ++
    toBytes 8 passed ++ toBytes 1 (high % 64) ++ toBytes 1 (high / 2 ^ 8 % 2 ^ 8) ++ toBytes 2 0 ++ toBytes 4 0

end Sys2Proof.Machine
end

