-- ==== Sys2Proof/Machine/Firmware.lean ====
section
/-! DEFINITION. Firmware commands of the mailbox (R434 to R437, R440, R444): activation, confirmation and attestation;
and the end of a boot-flash operation (R424, R425, R437, R441, R458, R461). -/

namespace Sys2Proof.Machine

/-! ### Activation (R435, R440) -/

/-- ACTIVATE is accepted: its slot reads VERIFIED, and nothing runs (R399, R435). -/
def State.mayActivate (s : State) (slot : Nat) : Bool := !s.anyRuns && !s.anyReplay && s.get (slotState slot) == 3

/-- The control processor stops: any borrowed window of a grotto is written back (R391). -/
def State.cpStops (s : State) : State :=
  let s1 := match s.grt.window with
    | some (b, _, _) => s.abandonWindow b
    | none => s
  ((s1.set MBX_CPU_STATUS_RUNNING.one 0).set MBX_CPU_STATUS_LOCKSTEP.one 0).set SVC_STATUS_ROM_ONLY.one 1

/-- ACTIVATE is accepted, which counts (R97), and the pause of an activation begins (R435, step 1): plans are released, the
control processor stops, and the TRIAL entry is written. -/
def State.activate (s : State) (slot : Nat) : State :=
  let s1 := forEach ((upto 8).filter (fun i => s.sessState i != 0)) s (fun i s => s.releasePlan i)
  let s2 := ((s1.cpStops.set SVC_STATUS_ACT_PAUSE.one 1).set MBX_STATUS_STATE.one 2).selectorWrite slot true 2 s.pwr.slot
  (s2.add LIFE_ACTIVATIONS.one 1).onSvc (fun v => { v with activating := some slot })

/-- ACTIVATE at the mailbox. -/
def State.serveActivate (s : State) (args : List Byte) : State :=
  let slot := leAt args 0 1
  if args.length < 1 ∨ 1 < slot then s.mbxEnd 2 (toBytes 4 0)
  else if !s.mayActivate slot then s.mbxEnd 3 []
  else if s.is PWR_STATUS_BO_WARN.one then s.mbxHold
  else s.activate slot

/-- The pause ends. -/
def State.pauseEnds (s : State) : State :=
  (s.set SVC_STATUS_ACT_PAUSE.one 0).onSvc (fun v => { v with activating := none })

/-- Steps 3 to 5 of an activation: the new image runs, the configuration is converted and applied, and the pause ends;
EV_044 and the reply. -/
def State.activated (s : State) (slot loaded : Nat) : State :=
  let s2 := ((s.onPwr (fun p => { p with slot := slot })).cpStart loaded).applyConfig.pauseEnds
  (s2.mbxOk (toBytes 4 (s2.slotNum slot 8 4))).raise 44

/-- The digest differs: the old image is selected again and runs, its settings as they stand, and ACTIVATE ends with AUTH. -/
def State.activationFails (s : State) (slot loaded : Nat) : State :=
  let s1 := (s.selectorWrite s.pwr.slot false 0 0xFF).set (slotState slot) 4
  ((s1.cpStart loaded).pauseEnds).mbxEnd 8 []

/-- ACTIVATION_DONE: the new image has been read; `ok`: every byte read back as VERIFY found it, so that the digest equals
the one recorded (R435). `failed`: the microengines that did not load at the start that follows (R390).
DEDUCED, log entry 66. -/
def execActivationDone (ok : Bool) (s : State) (failed : BitVec 3 := 0) : Host.Outcome State Fault Refusal :=
  match s.svc.activating with
  | none => .next s
  | some slot =>
    let loaded := 7 - failed.toNat
    .next (if ok && s.imageDigest slot == sget s.svc.digests slot [] then s.activated slot loaded else s.activationFails slot loaded)

/-! ### Confirmation (R437) -/

/-- The configuration area of the other format is retired. DEDUCED, log entry 58. -/
def State.retire (s : State) : State :=
  let other := 1 - s.liveArea
  if (s.area other).isEmpty then s else (s.set SVC_STATUS_CFG_RETIRING.one 1).flashQueue (.eraseArea other true)

/-- CONFIRM at the mailbox: the CONFIRMED entry, the reply and EV_047, any held configuration, then the retirement. -/
def State.serveConfirm (s : State) : State :=
  if !s.is SYS_BOOT_TRIAL.one then s.mbxEnd 3 []
  else if s.is PWR_STATUS_BO_WARN.one then s.mbxHold
  else
    let s1 := (s.selectorWrite s.pwr.slot false 0 0xFF).set SYS_BOOT_TRIAL.one 0
    let s2 := (s1.mbxOk []).raise 47
    let s3 := if s.is SVC_STATUS_CFG_HELD.one then (s2.set SVC_STATUS_CFG_HELD.one 0).cfgAppend else s2
    s3.retire

/-! ### Attestation (R444) -/

/-- A 64-byte digest. -/
def digest64 (bytes : List Byte) : List Byte := fitTo 64 (Config.shake256 bytes 64)

/-- The fuse words, in offset order (R476). -/
def State.fuseBytes (s : State) : List Byte := (upto 28).flatMap (fun i => toBytes 4 (s.copy32 (PageClass.page .fuse 0) (0x080 + 4 * i)))

/-- The attestation report for a nonce. -/
def State.attestation (s : State) (nonce : List Byte) : List Byte :=
  let slot := s.pwr.slot
  let image := digest64 (s.signedMessage slot)
  let fuses := digest64 s.fuseBytes
  let fences := digest64 s.fenceBytes
  let head := toBytes 4 30184 ++ toBytes 2 0x0100 ++ toBytes 2 0 ++ nonce ++ toBytes 8 Config.serial.toNat ++
    toBytes 4 (s.slotNum slot 8 4) ++ toBytes 1 slot ++ toBytes 1 (flag s.inTrial) ++ toBytes 1 (s.slotNum slot 0x13 1) ++ toBytes 1 0 ++
    toBytes 8 s.stamp ++ toBytes 2 (eraOf s.now) ++ toBytes 2 0 ++ toBytes 4 (s.get LIFE_CAL_SECONDS.one) ++ image ++ fuses ++
    fences ++ digest64 (image ++ fuses ++ fences ++ nonce) ++ fitTo 64 Config.identityKey
  head ++ fitTo 29792 (Config.attestSign head)

/-- ATTEST at the mailbox. -/
def State.serveAttest (s : State) (args : List Byte) : State :=
  if args.length < 32 then s.mbxEnd 2 (toBytes 4 0) else s.mbxApplied.mbxEndWith 0 (s.attestation (args.take 32)) true

/-! ### The end of a boot-flash operation (R424) -/

/-- A fence or repair entry no longer waits. -/
def State.entryWritten (s : State) : State := s.set SWT_STATUS_RECORD_PENDING.one (flag (s.flt.entryDue || s.flt.repairDue))

/-- The fence entry is complete (R458). -/
def State.fencesWritten (s : State) : State :=
  let w := s.svc.flash.fenceLog.write 2
  let s1 := s.onFlash (fun f => { f with fences := some s.flt.wanted, fenceSeq := f.fenceSeq + 1, fenceLog := w.1 })
  ((s1.eraseAsked w.2).onFlt (fun m => { m with entryDue := false })).entryWritten

/-- The soft-repair entry is complete (R461). -/
def State.repairsWritten (s : State) : State :=
  let w := s.svc.flash.repairLog.write 4
  let s1 := s.onFlash (fun f => { f with repairs := s.flt.repairs, repairSeq := f.repairSeq + 1, repairLog := w.1 })
  ((s1.eraseAsked w.2).onFlt (fun m => { m with repairDue := false })).entryWritten

/-- An operation completes. -/
def State.flashDone (s : State) : FlashOp → State
  | .cfgRecord => s.cfgRecord
  | .fenceEntry => s.fencesWritten
  | .repairEntry => s.repairsWritten
  | .eraseCopy k =>
    s.onFlash (fun f => match k / 2 with
      | 0 => { f with selLog := f.selLog.erased (k % 2) }
      | 1 => { f with fenceLog := f.fenceLog.erased (k % 2) }
      | _ => { f with repairLog := f.repairLog.erased (k % 2) })
  | .eraseJournal k =>
    forEach (upto 16) s (fun i s => s.onFlash (fun f => { f with
      journal := sput f.journal ((k - 432) * 16 + i) none none }))
  | .eraseArea a retired =>
    let s1 := (s.onFlash (fun f => { f with cfg := sput f.cfg a [] [] })).cfgMarks
    if retired then (s1.set SVC_STATUS_CFG_RETIRING.one 0).raise 49 else s1

/-- An operation has failed, its retry too: what asked for it fails (R424, R458). The retry commanded its erases again
(R97). -/
def State.flashGivesUp (s : State) (op : FlashOp) : State :=
  let lost : State → State := fun s => ((s.set SWT_FENCE_STATUS_FLASH_FAIL.one 1).raise 472).entryWritten
  let s1 := (s.erasesCount op).flashFailed
  match op with
  | .fenceEntry => lost (s1.onFlt (fun m => { m with entryDue := false }))
  | .repairEntry => lost (s1.onFlt (fun m => { m with repairDue := false }))
  | .eraseArea _ true => s1.set SVC_STATUS_CFG_RETIRING.one 0
  | _ => s1

/-- FLASH_OP_COMPLETE: the operation in progress completes, or has failed after its retry. -/
def execFlashOpComplete (ok : Bool) (s : State) : Host.Outcome State Fault Refusal :=
  match s.flashNow with
  | none => .next s
  | some op =>
    let s1 := s.onSvc (fun v => { v with ops := v.ops.erase op, begun := v.begun.erase op })
    .next (if ok then s1.flashDone op else s1.flashGivesUp op).flashMarks

end Sys2Proof.Machine
end

