-- ==== Sys2Proof/Machine/Swatch.lean ====
section
/-! DEFINITION. The swatch test of grottos and datapath units (R306 to R308, R454 to R457), fence commands of the host
(R458 to R460), and the fuses (R476). -/

namespace Sys2Proof.Machine

/-! ### Fencing a grotto (R310, R459) -/

/-- The replay of sequencer `n` is stopped from outside: its channel is aborted and it ends with its event. -/
def State.replayHalt (s : State) (n : Nat) : State :=
  let s1 := s.onSeq n (fun q => { q with playStop := 3, playIn := [], playHeld := [] })
  (s1.dmaAbort ((s.seq n).channel - 1)).replayEnd n

/-- Sequencer `n` replays with its pre-history in grotto `b`. -/
def State.keepsPre (s : State) (n b : Nat) : Bool :=
  s.get (TRG_STATUS_STATE.of n) == 4 && (match (s.seq n).lender with
    | some (g, _, _) => g == b
    | none => false)

/-- Grotto `b` is fenced; a window of it is given up, which is no abandonment of R308. -/
def State.fenceGrotto (s : State) (b event detail : Nat) : State :=
  if s.grottoFenced b then s.fencedTwice event grtPage detail
  else
    let s0 := s.onGrt (fun g => { g with window := g.window.filter (fun w => w.1 != b) })
    let s1 := (s0.setBit GRT_FENCED.one b true).set (GRT_OWNER_FENCED.elt b) 1
    let s2 := forEach ((upto 8).filter (fun n => s.keepsPre n b)) s1 (fun n s => s.replayHalt n)
    ((s2.grottoCause b 4).fenceEntry event (fun f => { f with grottos := withBit f.grottos b })).fenced event grtPage detail

/-! ### The grotto pass (R454) -/

/-- Windows of a grotto, and of a pass. -/
def windowsPer : Nat := 2048

/-- Words of a window. -/
def windowWords : Nat := 64

/-- SWATCH_PASS_START: a grotto pass begins (R454). -/
def execSwatchPassStart (s : State) : Host.Outcome State Fault Refusal :=
  if s.is SWT_CTRL_SWATCH_EN.one && !s.is SWT_STATUS_SWATCH_RUNNING.one then
    let s1 := ((s.set SWT_STATUS_SWATCH_RUNNING.one 1).set SWT_SWATCH_POS_RETRY.one 0).set SWT_SWATCH_POS_WINDOW.one 0
    .next ((s1.set SWT_SWATCH_POS_GROTTO.one 0).onFlt (fun f => { f with
      walk := 0, retry := [], tested := [], found := 0 }))
  else .next s

/-- The window next in turn: its grotto, the window, and whether the retry round gives it. -/
def FaultMgr.nextWindow (f : FaultMgr) : Option (Nat × Nat × Bool) :=
  if f.walk < 64 * windowsPer then some (f.walk / windowsPer, f.walk % windowsPer, false)
  else f.retry.head?.map (fun p => (p.1, p.2, true))

/-- The walk or the retry round moves past it. -/
def FaultMgr.pastWindow (f : FaultMgr) : FaultMgr :=
  if f.walk < 64 * windowsPer then { f with walk := f.walk + 1 } else { f with retry := f.retry.drop 1 }

/-- The control processor runs, with the swatch test's microengine (R390). -/
def State.swatchLoaded (s : State) : Bool := s.is MBX_CPU_STATUS_RUNNING.one && bitOf (s.get MBX_CPU_STATUS_ME_LOADED.one) 2

/-- The swatch engine may test grotto `b` now (R307, R390): the engine is loaded, the grotto is filled and not fenced, and
it is lent by its owner, untouched for 1 ms, or is the swatch test's own. -/
def State.testable (s : State) (b : Nat) : Bool :=
  let owner := (s.rights b).1
  s.swatchLoaded && !s.grottoWaits b && !s.grottoFenced b &&
    (owner == 5 || (decide (owner ≤ 1) && !s.is (GRT_OWNER_NO_BORROW.elt b) &&
      (sget s.grt.lastUse b 0 == 0 || decide (sget s.grt.lastUse b 0 - 1 + ticksMs ≤ s.now))))

/-- The test of a grotto of its own leaves its patterns in the window, which the spec leaves open.
DESIGN CHOICE, log entry 29. -/
def State.patterned (s : State) (b w : Nat) : State :=
  forEach (upto windowWords) s (fun i s => (s.putWord b (w * windowWords + i) (s.free % 2 ^ 64) false).drew)

/-- The test of window `w` of grotto `b` ran to its end. -/
def State.windowTested (s : State) (b w : Nat) : State :=
  let s1 := s.onFlt (fun f => { f with tested := sput f.tested b 0 (withBit (sget f.tested b 0) w) })
  if (s.rights b).1 = 5 then s1.patterned b w else s1.onGrt (fun g => { g with window := some (b, w, s.now) })

/-- The window goes to the retry round. -/
def State.windowLater (s : State) (b w : Nat) : State := s.onFlt (fun f => { f with retry := f.retry ++ [(b, w)] })

/-- A spare column of grotto `b` is left (R306). DEDUCED, log entry 30. -/
def State.spareLeft (s : State) (b : Nat) : Bool :=
  decide ((Config.grottoFused b).toNat + s.get (GRT_B_REPAIR_SOFT.win b) + s.get (GRT_B_REPAIR_WAITING.win b) < 8)

/-- A failing column (R306, R455, R461): a soft repair is recorded, or, where none can be, the grotto is fenced. A column
held already keeps its repair. DEDUCED, log entry 30. -/
def State.columnFails (s : State) (b c detail : Nat) : State :=
  let r := b * 1024 + c
  if s.flt.repairs.contains r then s.logFault 473 grtPage 1 detail
  else if s.flt.repairs.length < 24 ∧ s.spareLeft b then
    let s1 := s.onFlt (fun f => { f with repairs := f.repairs ++ [r], repairDue := true })
    let s2 := (s1.add (GRT_B_REPAIR_WAITING.win b) 1).set SWT_REPAIRS.one s1.flt.repairs.length
    ((s2.raise 474).logFault 473 grtPage 1 detail).entryQueue .repairEntry
  else s.fenceGrotto b 473 detail

/-- A window's test found a fault in grotto `b`: EV_473 and what follows. -/
def State.windowFault (s : State) (b : Nat) (result : SwatchResult) : State :=
  let s1 := ((s.grottoCause b 3).raise 473).onFlt (fun f => { f with found := withBit f.found b })
  match result with
  | .column c => s1.columnFails b c.val (b + c.val * 2 ^ 6)
  | .doubleBit => s1.fenceGrotto b 473 (b + 2 ^ 16)
  | _ => s1.fenceGrotto b 473 (b + 2 * 2 ^ 16)

/-- SWATCH_WINDOW: the window next in turn is tested, or goes to the retry round (R307, R308, R454, R455). -/
def execSwatchWindow (result : SwatchResult) (s : State) : Host.Outcome State Fault Refusal :=
  if !s.is SWT_STATUS_SWATCH_RUNNING.one then .next s
  else
    match s.flt.nextWindow with
    | none => .next s
    | some (b, w, again) =>
      let s1 := ((s.set SWT_SWATCH_POS_RETRY.one (flag again)).set SWT_SWATCH_POS_WINDOW.one w).set SWT_SWATCH_POS_GROTTO.one b
      let s2 := s1.onFlt FaultMgr.pastWindow
      if !s.testable b then .next (s2.windowLater b w)
      else match result with
        | .pass => .next (s2.windowTested b w)
        | .abandoned => .next ((s2.windowLater b w).add (GRT_B_ABANDONS.win b) 1)
        | r => .next ((s2.windowTested b w).windowFault b r)

/-- Grottos of which some window is untested in this pass. DEDUCED, log entry 31. -/
def State.untested (s : State) : Nat := maskOf 64 (fun b => sget s.flt.tested b 0 != 2 ^ windowsPer - 1)

/-- SWATCH_PASS_END: 900 s after its start the pass ends (R454). -/
def execSwatchPassEnd (s : State) : Host.Outcome State Fault Refusal :=
  if s.is SWT_STATUS_SWATCH_RUNNING.one then
    let u := s.untested
    let s1 := (((s.set SWT_STATUS_SWATCH_RUNNING.one 0).set SWT_UNTESTED.one u).raiseIf (u != 0) 476).raise 475
    let s2 := (s1.add SWT_SWATCH_PASSES.one 1).onFlt (fun f => { f with lastFull := 2 ^ 64 - 1 - u, lastFound := f.found })
    .next (if s.is SWT_CTRL_DP_EN.one then s2.add SWT_DP_PASSES.one 1 else s2)
  else .next s

/-! ### Datapath tests (R457) -/

/-- The unit may be tested: it is idle, powered and not fenced. -/
def State.unitIdle (s : State) : TestUnit → Bool
  | .channel n => (s.dmaState n.val == 0 || s.dmaState n.val == 3) && !s.is (fencedOf (PageClass.page .dma n.val))
  | .comp u => (s.holderOf u.val).isNone && !s.flowFenced u.val
  | .decomp d => (s.holderOf (4 + d.val)).isNone && !s.flowFenced (4 + d.val)
  | .sequencer n =>
    (s.get (TRG_STATUS_STATE.of n.val) == 0 || s.get (TRG_STATUS_STATE.of n.val) == 5) && bitOf (s.get PWR_TRG_GATE_READY.one) n.val && !s.seqFenced n.val

/-- Sequencer `n` is fenced with no session of its own: a replay, or the arm of one, ends first (R459; DEDUCED, log entry
109). -/
def State.fenceSeq (s : State) (n event detail : Nat) : State :=
  let st := s.get (TRG_STATUS_STATE.of n)
  let s1 := if st = 4 then s.replayHalt n else if st = 1 ∧ s.sessState n = 0 then s.disarm n s.now false else s
  s1.fenceSequencer n event detail

/-- A unit that failed its test is fenced. -/
def State.fenceTested (s : State) : TestUnit → State
  | .channel n => s.fenceDma n.val 477 (n.val + 5 * 2 ^ 8)
  | .comp u => s.fenceFlow u.val 477
  | .decomp d => s.fenceFlow (4 + d.val) 477
  | .sequencer n => s.fenceSeq n.val 477 (n.val + 2 ^ 8)

/-- DATAPATH_TEST_DONE: a unit's test in the present pass ends; a failure raises EV_477 and fences it (R457). The swatch
engine's microengine is loaded (R390). -/
def execDatapathTestDone (unit : TestUnit) (passed : Bool) (s : State) : Host.Outcome State Fault Refusal :=
  if s.is SWT_CTRL_DP_EN.one && s.is SWT_STATUS_SWATCH_RUNNING.one && s.swatchLoaded && s.unitIdle unit then
    let k := testNumber unit
    let s1 := s.onFlt (fun f => { f with dpTested := withBit f.dpTested k, dpFound := setField f.dpFound k 1 (flag !passed) })
    .next (if passed then s1 else (s1.raise 477).fenceTested unit)
  else .next s

/-! ### Fence commands of the host (R460) -/

/-- How many units SWT_FENCE_CTRL.CLASS numbers; class 0 takes in the spare as 64. -/
def classUnits : Nat → Nat
  | 0 => 65
  | 1 => 8
  | 2 => 128
  | 3 => 4
  | 4 => 64
  | 5 => 64
  | 6 => 4
  | _ => 2

/-- The unit is fenced. -/
def State.classFenced (s : State) (cls i : Nat) : Bool :=
  match cls with
  | 0 => s.is (fencedOf (PageClass.page .skn i))
  | 1 => s.seqFenced i
  | 2 => s.pcState i == 3
  | 3 => s.get (HBM_FENCED.of i) == 2 ^ 32 - 1
  | 4 => s.grottoFenced i
  | 5 => s.is (fencedOf (PageClass.page .dma i))
  | 6 => s.flowFenced i
  | _ => s.flowFenced (4 + i)

/-- REFUSE_CAUSE of a fence command; 0: it is carried out. -/
def State.fenceRefusal (s : State) (clear : Bool) (cls i : Nat) : Nat :=
  if cls = 4 ∧ i < 2 then 1
  else if classUnits cls ≤ i then 3
  else if clear then (if s.classFenced cls i || (cls == 0 && i < 64 && s.replaced i) then 0 else 2)
  else if s.classFenced cls i then 2
  else if cls = 0 ∧ i = 64 ∧ s.spareMode = 2 then 4
  else 0

/-- The unit is fenced now, with LAST_EVENT 0. DEDUCED, log entry 73. -/
def State.fenceNow (s : State) (cls i : Nat) : State :=
  match cls with
  | 0 => if i = 64 then s.fenceSpare 0 0 else s.fenceSkein i 0 0
  | 1 => s.fenceSeq i 0 0
  | 2 => s.fencePc i 0
  | 3 => s.fenceStack i 0
  | 4 => s.fenceGrotto i 0 0
  | 5 => s.fenceDma i 0 0
  | 6 => s.fenceFlow i 0
  | _ => s.fenceFlow (4 + i) 0

/-- Bit `i` of a mask of a fence record cleared. -/
def withoutBit (n i : Nat) : Nat := setField n i 1 0

/-- A fence record without the unit. -/
def Fences.without (f : Fences) (cls i : Nat) : Fences :=
  match cls with
  | 0 =>
    if i = 64 then { f with spare := false }
    else { f with skeins := withoutBit f.skeins i, replaced := if f.replaced = some i then none else f.replaced }
  | 1 => { f with sequencers := withoutBit f.sequencers i }
  | 2 => { f with pcs := withoutBit f.pcs i }
  | 3 => { f with pcs := (upto 32).foldl (fun m q => withoutBit m (32 * i + q)) f.pcs }
  | 4 => { f with grottos := withoutBit f.grottos i }
  | 5 => { f with dma := withoutBit f.dma i }
  | 6 => { f with flw := withoutBit f.flw i }
  | _ => { f with flw := withoutBit f.flw (4 + i) }

/-- A fence or a replacement is cleared from the next start on: an entry without the unit, and EV_471. -/
def State.fenceCleared (s : State) (cls i : Nat) : State :=
  let s1 := s.onFlt (fun m => { m with wanted := { m.wanted.without cls i with lastEvent := 0 }, entryDue := true })
  (s1.entryQueue .fenceEntry).raise 471

/-- A write of `value` to SWT_FENCE_CTRL (R460). -/
def State.fenceCtrlWrite (s : State) (value : Nat) : State :=
  let clear := bitOf value 24
  let cls := field value 16 3
  let i := field value 0 7
  let s1 := ((s.set SWT_FENCE_CTRL_OP.one (flag clear)).set SWT_FENCE_CTRL_CLASS.one cls).set SWT_FENCE_CTRL_INDEX.one i
  if !bitOf value 31 then s1
  else
    let c := s1.fenceRefusal clear cls i
    if c ≠ 0 then (s1.set SWT_FENCE_STATUS_REFUSED.one 1).set SWT_FENCE_STATUS_REFUSE_CAUSE.one c
    else if clear then s1.fenceCleared cls i
    else s1.fenceNow cls i

/-- FENCE_UNIT: a host write to SWT_FENCE_CTRL with GO at 1 and OP at 0. -/
def execFenceUnit (value : DWord) (s : State) : Host.Outcome State Fault Refusal :=
  .next (s.gated (PageClass.page .swt 0) 0x064 (·.fenceCtrlWrite (setField (setField value.toNat 31 1 1) 24 1 0)))

/-- FENCE_CLEAR: a host write to SWT_FENCE_CTRL with GO at 1 and OP at 1. -/
def execFenceClear (value : DWord) (s : State) : Host.Outcome State Fault Refusal :=
  .next (s.gated (PageClass.page .swt 0) 0x064 (·.fenceCtrlWrite (setField (setField value.toNat 31 1 1) 24 1 1)))

/-! ### Fuses (R476) -/

/-- SVN of the image that runs. -/
def State.activeSvn (s : State) : Nat := s.slotNum s.pwr.slot 0x13 1

/-- A write of 1 to FUSE_CMD.RAISE_SVN: programming begins, or EV_055. Where no image runs there is nothing to raise
it to. DEDUCED, log entry 59. -/
def State.raiseSvn (s : State) : State :=
  if s.is FUSE_STATUS_BURNING.one then s
  else if s.is SYS_BOOT_TRIAL.one || s.is SVC_STATUS_RECOVERY.one || decide (s.activeSvn ≤ s.minSvn) then
    (s.set FUSE_STATUS_REFUSED.one 1).raise 55
  else s.set FUSE_STATUS_BURNING.one 1

/-- RAISE_SVN: a host write to FUSE_CMD with RAISE_SVN at 1. -/
def execRaiseSvn (_value : DWord) (s : State) : Host.Outcome State Fault Refusal :=
  .next (s.gated (PageClass.page .fuse 0) 0x044 State.raiseSvn)

/-- FUSE_BURN_DONE: FUSE_SVN holds as many ones as the active image's SVN, from bit 0 upward, and EV_054 is raised.
DEDUCED, log entry 59. -/
def execFuseBurnDone (s : State) : Host.Outcome State Fault Refusal :=
  if s.is FUSE_STATUS_BURNING.one then
    .next (((s.set FUSE_STATUS_BURNING.one 0).onSvc (fun v => { v with svn := some (2 ^ min 32 s.activeSvn - 1) })).raise 54)
  else .next s

end Sys2Proof.Machine
end

