-- ==== Sys2Proof/Machine/Twin.lean ====
section
/-! DEFINITION. The twin pair (R463 to R474): pairing, messages and their ACKs, mirrored commands, the epoch exchange,
the handover; and the ledger-epoch boundary (R8, R250, R254). -/

namespace Sys2Proof.Machine

/-! ### Messages (R464) -/

/-- A message as received: its SEQ, bits 31:0 of its epoch, and its body. -/
structure TwinIn where
  seq   : Nat
  epoch : Nat
  body  : List Byte
  deriving DecidableEq, Repr

/-- Bytes of an EPOCH payload (R468). -/
def epochBytes : Nat := 4 + 1024 + 2080 + 4

/-- A body of `n` bytes is one of its type. -/
def bodyFits (type n : Nat) : Bool :=
  match type with
  | 1 => n == 24
  | 2 => n == epochBytes
  | 3 => n == 0
  | 4 => n == 8
  | 5 => decide (12 ≤ n) && decide (n ≤ 76)
  | _ => n == 4

/-- A message of a type: header and body, as the link delivers them after its CRC check. DEDUCED, log entry 51. -/
def twinParse (type : Nat) (m : List Byte) : Option TwinIn :=
  if 16 ≤ m.length ∧ leAt m 0 2 = 0x5754 ∧ leAt m 2 1 = type ∧ leAt m 3 1 ≤ 3 ∧ leAt m 0x0C 2 + 16 = m.length ∧
      leAt m 0x0E 2 = 0 ∧ bodyFits type (m.length - 16) then
    some ⟨leAt m 4 4, leAt m 8 4, m.drop 16⟩
  else none

/-- The epoch nearest to `cur` whose number has `low` in bits 31:0. -/
def epochNear (cur low : Nat) : Nat :=
  let d := (low + 2 ^ 32 - cur % 2 ^ 32) % 2 ^ 32
  if d < 2 ^ 31 then (cur + d) % 2 ^ 34 else (cur + 2 ^ 34 + d - 2 ^ 32) % 2 ^ 34

/-- The message has not been acted on before: it is no resend of one that has. DEDUCED, log entry 51. -/
def Twin.isNew (t : Twin) (seq : Nat) : Bool := t.heard == 0 || decide ((seq + 2 ^ 32 - t.heard % 2 ^ 32) % 2 ^ 32 < 2 ^ 31)

/-- A message arrives on a link that is up: it is acknowledged, and acted on once. DEDUCED, log entry 51. -/
def State.receive (s : State) (type : Nat) (m : List Byte) (act : TwinIn → State → State) : Host.Outcome State Fault Refusal :=
  match twinParse type m with
  | none => .fault .illFormed
  | some x =>
    if !s.is TWN_STATUS_LINK_UP.one then .next s
    else
      let s1 := s.twinSend 6 (toBytes 4 x.seq)
      .next (if s.twn.isNew x.seq then act x (s1.onTwn (fun t => { t with heard := x.seq + 1 })) else s1)

/-- ACK: the partner acknowledges a message (R464). -/
def execAck (payload : List Byte) (s : State) : Host.Outcome State Fault Refusal :=
  match twinParse 6 payload with
  | none => .fault .illFormed
  | some x =>
    if s.is TWN_STATUS_LINK_UP.one then
      .next (s.onTwn (fun t => { t with unacked := t.unacked.filter (fun m => m.seq != leAt x.body 0 4) }))
    else .next s

/-- TWIN_RESEND: the oldest message left without its ACK is sent again, or, after eight resends, the link is down
(R464). -/
def execTwinResend (s : State) : Host.Outcome State Fault Refusal :=
  match s.twn.unacked with
  | [] => .next s
  | m :: ms =>
    if m.resends < 8 then
      .next ((s.onTwn (fun t => { t with unacked := { m with resends := m.resends + 1 } :: ms, lastSent := m.bytes })).add
        TWN_RETRIES.one 1)
    else .next s.twinStops

/-- TWIN_LINK_UP: the link has trained on its eight lanes (R464); it trains at pairing. -/
def execTwinLinkUp (s : State) : Host.Outcome State Fault Refusal :=
  if s.get TWN_STATUS_STATE.one ≠ 0 ∧ !s.is TWN_STATUS_LINK_UP.one ∧ !s.onBypass then
    .next ((((s.set TWN_STATUS_LINK_UP.one 1).set TWN_STATUS_LANES.one 8).raise 482).onTwn (fun t => { t with dropped := 0 }))
  else .next s

/-- LANE_DROP: an active lane's error rate is too high and it is dropped (R464). Without a lane the link is down. -/
def execLaneDrop (lane : Fin 8) (s : State) : Host.Outcome State Fault Refusal :=
  if s.is TWN_STATUS_LINK_UP.one && !bitOf s.twn.dropped lane.val then
    let s1 := ((s.set TWN_STATUS_LANES.one (s.get TWN_STATUS_LANES.one - 1)).raise 490).onTwn (fun t => { t with
      dropped := withBit t.dropped lane.val })
    .next (if s1.get TWN_STATUS_LANES.one = 0 then s1.twinStops else s1)
  else .next s

/-! ### Pairing (R465) -/

/-- The device takes a role, and its pins follow (R478). -/
def State.takeRole (s : State) (r : Nat) : State := s.pinEdges (s.putRole r) s.now

/-- The device gives up its role in a pair and everything it knows of the partner. DEDUCED, log entry 57. -/
def State.unpaired (s : State) : State :=
  ((s.takeRole 0).onTwn (fun t => { Twin.reset with seq := t.seq, lastSent := t.lastSent, dropped := t.dropped })).onRcd (fun r => { r with images := [] })

/-- TWIN_PAIR at the mailbox: ROLE 0 lead, 1 follower, 2 unpair. DEDUCED, log entry 57. -/
def State.serveTwinPair (s : State) (args : List Byte) : State :=
  let role := leAt args 0 1
  if args.length < 1 ∨ 2 < role then s.mbxEnd 2 (toBytes 4 0)
  else if (upto 8).any (fun i => s.sessState i == 3) then s.mbxEnd 3 []
  else
    let s1 := if role = 2 then s.unpaired.set TWN_STATUS_STATE.one 0
      else (s.unpaired.onTwn (fun t => { t with asked := role + 1 })).set TWN_STATUS_STATE.one 1
    s1.mbxOk (toBytes 4 (s1.get TWN_STATUS_STATE.one))

/-- The body of a HELLO: serial, role, epoch and TIME_SYNC_COUNT. -/
def State.helloBody (s : State) : List Byte :=
  toBytes 8 Config.serial.toNat ++ toBytes 4 s.roleByte ++ toBytes 8 (epochOf s.now) ++ toBytes 4 (s.get TIME_SYNC_COUNT.one)

/-- HELLO_SEND: every 16 frames (R464). -/
def execHelloSend (s : State) : Host.Outcome State Fault Refusal :=
  if s.get TWN_STATUS_STATE.one = 0 then .next s else .next (s.twinSend 1 s.helloBody)

/-- The pair forms: EV_484. DEDUCED, log entry 52. -/
def State.pairForms (s : State) (serial : Nat) : State :=
  ((s.set TWN_STATUS_STATE.one 2).set TWN_PARTNER_SERIAL.one serial).takeRole s.twn.asked

/-- A HELLO's role complements the one asked for, both devices are synchronized, and their epochs agree (R465).
DEDUCED, log entry 52. -/
def State.complements (s : State) (body : List Byte) : Bool :=
  s.twn.asked + leAt body 8 4 == 3 && s.is TIME_STATUS_SYNCED.one && leAt body 20 4 != 0 && leAt body 12 8 == epochOf s.now

/-- A device that was lead hears that its partner leads now: it returns as the follower (R472).
DEDUCED, log entry 53. -/
def State.superseded (s : State) (role : Nat) : Bool :=
  role == 1 && !s.twn.took && (s.isLead || s.get TWN_STATUS_ROLE.one == 3)

/-- HELLO: the partner's HELLO arrives; it may complete pairing, or be refused with EV_491 (R465). -/
def execHello (payload : List Byte) (s : State) : Host.Outcome State Fault Refusal :=
  match twinParse 1 payload with
  | none => .fault .illFormed
  | some x =>
    if !s.is TWN_STATUS_LINK_UP.one then .next s
    else if s.get TWN_STATUS_STATE.one = 1 then
      .next (if s.complements x.body then s.pairForms (leAt x.body 0 8) else s.raise 491)
    else if s.superseded (leAt x.body 8 4) then .next (s.goSolo.takeRole 2)
    else .next s

/-! ### EPOCH payloads (R468, R469) -/

/-- The digest of skein `d` for epoch `e`. -/
def State.skeinDigest (s : State) (d e : Nat) : List Byte :=
  let image := ((sget s.rcd.images d []).filter (fun p => p.1 == e)).flatMap (·.2)
  fitTo 32 (Config.shake256 image 32)

/-- The payload of an EPOCH message for epoch `e`; `passed`: the slot-table check. -/
def State.epochPayload (s : State) (e : Nat) (passed : Bool) : List Byte :=
  toBytes 4 (s.get WR_ACTIVE.one) ++ (upto 8).flatMap (fun i => (upto 16).flatMap (fun w => toBytes 8 (s.counter i (w + 1)))) ++
    (upto 65).flatMap (fun d => s.skeinDigest d e) ++ toBytes 4 (flag passed)

/-- Session `i` runs in a payload. -/
def payloadRuns (p : List Byte) (i : Nat) : Bool := bitOf (leAt p 0 4) i

/-- The change of counter `w` of session `i` over the epoch of payload `p`, `p0` being that of the epoch before; STORED
goes with IN_QUEUE (R470). -/
def payloadChange (p0 p : List Byte) (i w : Nat) : Nat :=
  let value : List Byte → Nat := fun q => payloadCounter q i w + (if w = 8 then payloadCounter q i 13 else 0)
  (value p + (2 ^ 64 - (if payloadRuns p0 i then value p0 else 0) % 2 ^ 64)) % 2 ^ 64

/-- The first counter of session `i` whose changes differ between two devices. -/
def counterDiffers (mine0 mine theirs0 theirs : List Byte) (i : Nat) : Option Nat :=
  ((upto 16).map (· + 1)).find? (fun w => w != 13 && payloadChange mine0 mine i w != payloadChange theirs0 theirs i w)

/-- The lowest session running on both whose ledgers disagree, with its first differing counter.
DEDUCED, log entry 55. -/
def ledgersDiffer (mine0 mine theirs0 theirs : List Byte) : Option (Nat × Nat) :=
  ((upto 8).filter (fun i => payloadRuns mine i && payloadRuns theirs i)).findSome? (fun i =>
    (counterDiffers mine0 mine theirs0 theirs i).map (fun w => (i, w)))

/-- The lowest skein whose digests differ. DEDUCED, log entry 55. -/
def digestsDiffer (mine theirs : List Byte) : Option Nat :=
  (upto 65).find? (fun d => leAt mine (1028 + 32 * d) 32 != leAt theirs (1028 + 32 * d) 32)

/-- A disagreement is counted and named (R470). DEDUCED, log entry 55. -/
def State.disagree (s : State) (ledger : Option (Nat × Nat)) (digest : Option Nat) : State :=
  if ledger.isNone && digest.isNone then s
  else
    let s1 := ((s.raiseIf ledger.isSome 485).raiseIf digest.isSome 486).add TWN_DISAGREE.one 1
    let s2 := (s1.set TWN_DISAGREE_INFO_DIGEST.one (flag digest.isSome)).set TWN_DISAGREE_INFO_SKEIN.one (digest.getD 0)
    (s2.set TWN_DISAGREE_INFO_SESSION.one ((ledger.map (·.1)).getD 0)).set TWN_DISAGREE_INFO_COUNTER.one ((ledger.map (·.2)).getD 0)

/-- The handover record of each running session falls due (R472): a LEDGER stitch of KIND 0x2 naming epoch H - 1 and the
old lead's counters. -/
def State.handoverRecords (s : State) (h : Nat) : State :=
  forEach ((upto 8).filter (fun i => bitOf (s.get WR_ACTIVE.one) i)) s (fun i s => s.onRcd (fun r => { r with
    ledgerDue := smod r.ledgerDue i [] (· ++ [ledgerWord 2 i (h + 2 ^ 34 - 1) ::
      (upto 16).map (fun w => BitVec.ofNat 64 (payloadCounter s.twn.oldLead i (w + 1)))]) }))

/-- The payloads at epoch H - 1 from which the pair's values go on (R473). DEDUCED, log entry 55. -/
def State.lastLedgers (s : State) : State :=
  s.onTwn (fun t => { t with oldLead := t.agreedTheirs, newLead := t.agreedMine, recordDue := none })

/-- Epoch `e` has been agreed already. -/
def State.agreedUpTo (s : State) (e : Nat) : Bool := !s.twn.agreedMine.isEmpty && decide (e ≤ s.get TWN_AGREED_EPOCH.one)

/-- Epoch `e` is agreed once both devices' payloads for it are there (R468); they are compared (R470). No session ran before
the first epoch that a pair agrees on, so that its counters have come from zero. DEDUCED, log entry 55. -/
def State.agree (s : State) (e : Nat) : State :=
  let mine := sget s.twn.mine e []
  let theirs := sget s.twn.theirs e []
  if mine.isEmpty || theirs.isEmpty then s
  else
    let before := s.twn.agreedMine.isEmpty || s.get TWN_AGREED_EPOCH.one + 1 == e
    let ledger := if before then ledgersDiffer s.twn.agreedMine mine s.twn.agreedTheirs theirs else none
    let s1 := (s.set TWN_AGREED_EPOCH.one e).disagree ledger (digestsDiffer mine theirs)
    let s2 := s1.onTwn (fun t => { t with
      agreedMine := mine, agreedTheirs := theirs
      mine := t.mine.filter (fun p => decide (e < p.1)), theirs := t.theirs.filter (fun p => decide (e < p.1)) })
    if s.twn.recordDue = some (e + 1) then s2.lastLedgers.handoverRecords (e + 1) else s2

/-! ### Failover (R471 to R474) -/

/-- The follower becomes lead at epoch `h`. -/
def State.newLeadAt (s : State) (h : Nat) : State :=
  (((s.takeRole 1).set TWN_HANDOVER_EPOCH.one h).add TWN_HANDOVERS.one 1).raise 487

/-- The first epoch after the last agreed one; the present epoch where none has been agreed. DEDUCED, log entry 54. -/
def State.firstOpen (s : State) : Nat :=
  if s.twn.agreedMine.isEmpty then epochOf s.now else (s.get TWN_AGREED_EPOCH.one + 1) % 2 ^ 34

/-- The follower takes over from a lead that has failed (R471, R472). `why` is the log entry's DETAIL. -/
def State.takeLead (s : State) (why : Nat) : State :=
  let h := s.firstOpen
  let s1 := ((s.newLeadAt h).goSolo.lastLedgers).onTwn (fun t => { t with took := true, handAt := none })
  (s1.handoverRecords h).logFault 487 (PageClass.page .twn 0) 1 why

/-- This device follows in a pair, together or SOLO. -/
def State.follows (s : State) : Bool := s.isFollower && decide (2 ≤ s.get TWN_STATUS_STATE.one)

/-- FAULT: the partner reports a fault (R471): EV_489; a follower takes over. -/
def execFault (payload : List Byte) (s : State) : Host.Outcome State Fault Refusal :=
  s.receive 3 payload (fun _ s =>
    if s.get TWN_STATUS_STATE.one < 2 then s else if s.follows then (s.raise 489).takeLead 0 else s.raise 489)

/-- HANDOVER: the lead names the epoch at which the roles change (R474). -/
def execHandover (payload : List Byte) (s : State) : Host.Outcome State Fault Refusal :=
  s.receive 4 payload (fun x s =>
    if s.paired && s.isFollower then s.onTwn (fun t => { t with handAt := some (leAt x.body 0 8 % 2 ^ 34) }) else s)

/-- TWIN_HANDOVER at the mailbox: the first epoch boundary at least 128 frames ahead is H. -/
def State.serveTwinHandover (s : State) : State :=
  if s.paired && s.isLead then
    let h := epochOf (ceilTo (s.now + 128 * frameTicks) epochTicks)
    ((s.twinSend 4 (toBytes 8 h)).onTwn (fun t => { t with handAt := some h })).mbxOk (toBytes 8 h)
  else s.mbxEnd 3 []

/-- A deliberate handover at the boundary where epoch `e` begins: the roles change, and the handover record waits for
the agreement of the epoch before (R472, R474). -/
def State.handOverNow (s : State) (e : Nat) : State :=
  if s.twn.handAt ≠ some e then s
  else
    let s1 := s.onTwn (fun t => { t with handAt := none })
    if !s.paired then s1
    else if s.isLead then s1.takeRole 2
    else if s.isFollower then
      let s2 := (s1.newLeadAt e).onTwn (fun t => { t with recordDue := some e, took := true })
      s2.logFault 487 (PageClass.page .twn 0) 1 2
    else s1

/-- EPOCH: the partner's EPOCH message arrives (R468, R470, R471). A device that is SOLO discards it; a lead's report of a
failed slot-table check hands over. -/
def execEpoch (payload : List Byte) (s : State) : Host.Outcome State Fault Refusal :=
  s.receive 2 payload (fun x s =>
    let e := epochNear (epochOf s.now) x.epoch
    if !s.paired || s.agreedUpTo e then s
    else
      let s1 := s.onTwn (fun t => { t with theirs := sput t.theirs e [] x.body })
      if s.isFollower && leAt x.body 3108 4 == 0 then s1.takeLead 0 else s1.agree e)

/-- EPOCH_MESSAGE_TIMEOUT: the lead's EPOCH message for the last epoch has not come by 128 frames after its end (R471). -/
def execEpochMessageTimeout (s : State) : Host.Outcome State Fault Refusal :=
  let e := epochOf s.now - 1
  if s.paired && s.isFollower && decide (128 * frameTicks ≤ s.now % epochTicks) && !(sget s.twn.mine e []).isEmpty &&
      (sget s.twn.theirs e []).isEmpty && !s.agreedUpTo e then .next (s.takeLead 1)
  else .next s

/-- LINK_SILENCE: 128 frames without a valid block (R464, R471): a follower with TAKE_ON_SILENCE takes over, and the
link is down. -/
def execLinkSilence (s : State) : Host.Outcome State Fault Refusal :=
  if s.follows && s.is TWN_CTRL_TAKE_ON_SILENCE.one then .next (s.takeLead 1).twinStops else .next s.twinStops

/-! ### Mirrored commands on the link (R466, R467) -/

/-- The digest of the plan bytes admitted for session `n`. -/
def State.planDigest (s : State) (n : Nat) : List Byte := fitTo 32 (Config.shake256 (sget s.mbx.plans n []) 32)

/-- A check's outcome as the follower's reply carries it: RESULT, 0xFF while the check waits, and its reply. -/
def Check.answer : Check → Nat × List Byte
  | .pass => (0, [])
  | .wait => (0xFF, [])
  | .fail r reply => (r, reply)

/-- The follower checks the lead's command without acting, and answers. -/
def State.answerCommand (s : State) (code tag : Nat) (args : List Byte) : State :=
  let a := (s.checkCommand code args).answer
  s.twinSend 5 (toBytes 1 code ++ toBytes 1 a.1 ++ toBytes 2 tag ++ fitTo 7 a.2 ++ toBytes 1 0 ++
    (if code = 0x12 then s.planDigest (leAt args 0 1) else []))

/-- The instant of the second exchange: the boundary as era and frame, or the FCLK edge of FORCE_TRIGGER.
DESIGN CHOICE, log entry 56. -/
def mirrorInstant (code at_ : Nat) : Nat := if code = 0x15 then at_ / fclkTicks % 2 ^ 64 else eraFrame at_

/-- The instant in ticks. -/
def instantTicks (code x : Nat) : Nat := if code = 0x15 then x * fclkTicks else x * frameTicks

/-- The follower receives a command of the lead: it answers the first exchange and acts on the second.
DESIGN CHOICE, log entry 56. -/
def State.followCommand (s : State) (body : List Byte) : State :=
  let code := leAt body 0 1
  let args := body.drop 12
  let s1 := s.rejoin code
  if !s1.paired then s
  else if leAt body 4 8 = 0 then s1.answerCommand code (leAt body 2 2) args
  else if s1.checkCommand code args = .pass then (s1.actCommand code args (instantTicks code (leAt body 4 8))).1
  else s1

/-- The mirrored command no longer waits for the follower. -/
def State.unmirror (s : State) : State := s.onTwn (fun t => { t with mirror := false })

/-- Both checks have passed: the lead names the instant, and both devices act (R467). -/
def State.secondExchange (s : State) (c : MbxCmd) : State :=
  let n := leAt c.args 0 1
  let at_ := if c.code = 0x13 then s.bindOffDue n s.pairInstant else s.pairInstant
  let s1 := s.twinSend 5 (commandPayload c.code c.tag (mirrorInstant c.code at_) c.args)
  let r := s1.actCommand c.code c.args at_
  r.1.mbxOk r.2

/-- The follower's answer to the command in progress (R466, R467). -/
def State.leadAnswered (s : State) (c : MbxCmd) (body : List Byte) : State :=
  let result := leAt body 1 1
  let s1 := s.unmirror
  if result = 0xFF then s1.mbxHold
  else if result ≠ 0 then
    (if c.code = 0x12 ∨ c.code = 0x14 then (s1.mbxEnd 4 (toBytes 1 result ++ (body.drop 4).take 7)).raise 491
    else (s1.actAlone c.code c.args).goSolo)
  else if c.code = 0x12 ∧ (body.drop 12).take 32 ≠ s.planDigest (leAt c.args 0 1) then (s1.mbxEnd 4 []).raise 491
  else match s.checkCommand c.code c.args with
    | .fail r reply => (s1.checkFailed c.code c.args r).mbxEnd r reply
    | .wait => s1.mbxHold
    | .pass => s1.secondExchange c

/-- The lead receives the follower's answer. DESIGN CHOICE, log entry 56. -/
def State.leadCommand (s : State) (body : List Byte) : State :=
  match s.mbx.cur with
  | none => s
  | some c => if s.twn.mirror && c.code == leAt body 0 1 && c.tag == leAt body 2 2 then s.leadAnswered c body else s

/-- COMMAND: a COMMAND message arrives: from the lead at its follower, or the follower's answer at the lead. -/
def execCommand (payload : List Byte) (s : State) : Host.Outcome State Fault Refusal :=
  s.receive 5 payload (fun x s =>
    if s.isFollower then s.followCommand x.body else if s.isLead then s.leadCommand x.body else s)

/-! ### The ledger-epoch boundary -/

/-- The slot table's check failed: the record writer is at fault (R250). -/
def State.checkFails (s : State) (e : Nat) : State :=
  let s1 := ((s.set ADM_STATUS_CHECK_FAIL.one 1).set ADM_CHECK_FAIL_EPOCH.one e).raise 261
  (s1.logFault 261 (PageClass.page .adm 0) 1 0).interruptAll 4

/-- A LEDGER record of each running session falls due for epoch `e` (R249, R254). -/
def State.recordsDue (s : State) (e : Nat) : State :=
  forEach ((upto 8).filter (fun i => bitOf (s.get WR_ACTIVE.one) i)) s (fun i s => s.onRcd (fun r => { r with
    ledgerDue := smod r.ledgerDue i [] (· ++ [s.ledgerRecord 0 i e]) }))

/-- The device's own payload for epoch `e` is kept, and a paired device sends it (R468). -/
def State.epochSent (s : State) (e : Nat) (passed : Bool) : State :=
  let p := s.epochPayload e passed
  if s.paired then ((s.twinSendAt 2 e p).onTwn (fun t => { t with mine := sput t.mine e [] p })).agree e
  else if s.get TWN_STATUS_ROLE.one = 0 then s
  else s.onTwn (fun t => { t with mine := [(e, p)] })

/-- SYNC_OUT's pulse of mode 0b10 after the epoch boundary `b` (R94). -/
def State.epochPulse (s : State) (b : Nat) : State :=
  if s.get TIME_SYNC_CTRL_OUT_MODE.one = 2 then s.onClk (fun c => { c with syncPulse := some (b + 4096, b + 12288) }) else s

/-- The digest images of epochs up to `e` are no longer needed. -/
def State.dropImages (s : State) (e : Nat) : State :=
  s.onRcd (fun r => { r with images := (upto 65).foldl (fun m d => smod m d [] (·.filter (fun p => decide (e < p.1)))) r.images })

/-- The slots counted in the epoch for owner `o`, 72 being the read side (R250): the count in `counts`; else what the table
gives it, or what the writer has served it, whichever is more. DEDUCED, log entry 7. -/
def State.slotCount (s : State) (counts : List (Fin 73 × DWord)) (o : Nat) : Nat :=
  match counts.find? (fun p => p.1.val == o) with
  | some p => p.2.toNat
  | none =>
    if o = 72 then 4096 * (s.get ADM_SLOTS_TOTAL.one - ((upto 72).map (fun o => s.get (ADM_CREDIT_CREDITS.win o))).sum)
    else max (sget s.rcd.served o 0) (4096 * s.get (ADM_CREDIT_CREDITS.win o))

/-- The check of the slot table (R250): every owner's count against its credits in force, and all of them against TOTAL. -/
def State.slotsMatch (s : State) (counts : List (Fin 73 × DWord)) : Bool :=
  (upto 72).all (fun o => s.slotCount counts o == 4096 * s.get (ADM_CREDIT_CREDITS.win o)) &&
    ((upto 73).map (s.slotCount counts)).sum == 4096 * s.get ADM_SLOTS_TOTAL.one

/-- The epoch boundary at `b`, which ends epoch `e` (R8). -/
def State.epochEnds (s : State) (b e : Nat) (counts : List (Fin 73 × DWord)) : State :=
  let passed := s.slotsMatch counts
  let s1 := (s.recordsDue e).add ADM_EPOCHS_CHECKED.one 1
  let s2 := (s1.epochSent e passed).dropImages e
  let s3 := if passed then s2 else s2.checkFails e
  ((s3.handOverNow (epochOf b)).epochPulse b).onRcd (fun r => { r with served := [] }) |>.onClk (fun c => { c with epochAt := b })

/-- EPOCH_BOUNDARY: the timing frame boundary last reached is an epoch boundary, and its work is done (R8, R250, R254,
R468). `counts`: slots counted for an owner, the read side being 72, where they are not those the table gives.
DEDUCED, log entry 7. -/
def execEpochBoundary (counts : List (Fin 73 × DWord)) (s : State) : Host.Outcome State Fault Refusal :=
  let b := s.clk.frameAt
  if s.sampling && b % epochTicks == 0 && decide (s.clk.epochAt < b) then .next (s.epochEnds b (epochOf (b - 1)) counts)
  else .next s

end Sys2Proof.Machine
end

