-- ==== Sys2Proof/Machine/Mailbox.lean ====
section
/-! DEFINITION. The mailbox (R395 to R399): the doorbell, the service of each command, CANCEL and a held command's
proceeding; and the control processor's watchdog, lockstep and restart (R389, R392 to R394). -/

namespace Sys2Proof.Machine

/-! ### Service -/

/-- The codes of R399. -/
def commandCodes : List Nat :=
  [0x01, 0x10, 0x11, 0x12, 0x13, 0x14, 0x15, 0x16, 0x17, 0x20, 0x21, 0x30, 0x31, 0x32, 0x40, 0x41, 0x50, 0x51, 0x60, 0x61, 0x70]

/-- A reply in the bulk buffer. -/
def State.mbxBulk (s : State) (reply : List Byte) : State := s.mbxApplied.mbxEndWith 0 reply true

/-- A command is served. ECHO and LIFE_READ end with the snapshot they ask for (R399, R403). -/
def State.serve (s : State) (c : MbxCmd) : State :=
  match c.code with
  | 0x01 => s.snapAsked .mailbox
  | 0x10 => s.servePlanAdmit c.args
  | 0x20 => s.servePark
  | 0x21 => s.serveWake
  | 0x30 => s.serveActivate c.args
  | 0x31 => s.serveConfirm
  | 0x32 => s.serveAttest c.args
  | 0x40 => s.snapAsked .mailbox
  | 0x41 => s.serveCalendarSet c.args
  | 0x50 => s.mbxBulk s.selftestReport
  | 0x51 => s.mbxBulk s.fenceReport
  | 0x60 => s.serveTwinPair c.args
  | 0x61 => s.serveTwinHandover
  | 0x70 => s.serveReplaySetup c.args
  | n => if 0x11 ≤ n ∧ n ≤ 0x17 then s.serveMirrored n c.args else s.mbxEnd 1 []

/-- The mailbox takes a command. -/
def State.mbxTake (s : State) (c : MbxCmd) : State :=
  ((s.set MBX_STATUS_STATE.one 2).onMbx (fun m => { m with cur := some c })).serve c

/-- A doorbell is rung while STATE is not IDLE (R396). DEDUCED, log entry 40. -/
def State.doorbellBusy (s : State) : State := (s.set MBX_ERR_DOORBELL_BUSY.one 1).raise 33

/-- The doorbell: the command that MBX_CMD, MBX_ARG_LEN and the argument block give. -/
def State.doorbell (s : State) : State :=
  if s.get MBX_STATUS_STATE.one ≠ 1 then s.doorbellBusy
  else s.mbxTake ⟨s.get MBX_CMD_CODE.one, s.get MBX_CMD_TAG.one, s.bar4Bytes 0x4000 (min 4096 (s.get MBX_ARG_LEN.one))⟩

/-- A command as software issues it (R395): the arguments, MBX_ARG_LEN and MBX_CMD, then the doorbell. -/
def State.issued (s : State) (code : Nat) (tag : BitVec 16) (args : List Byte) : State :=
  if s.get MBX_STATUS_STATE.one ≠ 1 then s.doorbellBusy
  else
    ((((s.putBar4 0x4000 args).set MBX_ARG_LEN.one args.length).set MBX_CMD_TAG.one tag.toNat).set MBX_CMD_CODE.one code).mbxTake
      ⟨code, tag.toNat, args⟩

/-- The doorbell of a command with `args`, at most the argument block's 4,096 bytes. -/
def State.ring (s : State) (code : Nat) (tag : BitVec 16) (args : List Byte) : Host.Outcome State Fault Refusal :=
  if 4096 < args.length then .fault .illFormed
  else .next (s.gated (PageClass.page .mbx 0) 0x048 (·.issued code tag args))

/-! ### The commands' rows -/

/-- ECHO: a snapshot is asked for; the summary follows it (R403). -/
def execEcho (tag : BitVec 16) (s : State) : Host.Outcome State Fault Refusal := s.ring 0x01 tag []

/-- PLAN_ADMIT: the plan in the bulk buffer is admitted or refused (R232, R399). -/
def execPlanAdmit (tag : BitVec 16) (args : List Byte) (s : State) : Host.Outcome State Fault Refusal := s.ring 0x10 tag args

/-- PLAN_RELEASE: an admitted plan that does not run is released (R227). -/
def execPlanRelease (tag : BitVec 16) (args : List Byte) (s : State) : Host.Outcome State Fault Refusal := s.ring 0x11 tag args

/-- CAST_ON: a session is cast on (R225). -/
def execCastOn (tag : BitVec 16) (args : List Byte) (s : State) : Host.Outcome State Fault Refusal := s.ring 0x12 tag args

/-- BIND_OFF: a running session is bound off (R226). -/
def execBindOff (tag : BitVec 16) (args : List Byte) (s : State) : Host.Outcome State Fault Refusal := s.ring 0x13 tag args

/-- ARM: the sequencer of a running session is armed (R199). -/
def execArm (tag : BitVec 16) (args : List Byte) (s : State) : Host.Outcome State Fault Refusal := s.ring 0x14 tag args

/-- FORCE_TRIGGER: the force pulse of an armed sequencer (R194). -/
def execForceTrigger (tag : BitVec 16) (args : List Byte) (s : State) : Host.Outcome State Fault Refusal := s.ring 0x15 tag args

/-- SEGMENT_RELEASE: a closed segment context returns to FREE (R253). -/
def execSegmentRelease (tag : BitVec 16) (args : List Byte) (s : State) : Host.Outcome State Fault Refusal := s.ring 0x16 tag args

/-- QUOTA_SET: a session's quota changes (R248). -/
def execQuotaSet (tag : BitVec 16) (args : List Byte) (s : State) : Host.Outcome State Fault Refusal := s.ring 0x17 tag args

/-- PARK: the device goes into PARK (R371). -/
def execPark (tag : BitVec 16) (s : State) : Host.Outcome State Fault Refusal := s.ring 0x20 tag []

/-- WAKE: it leaves PARK (R372). -/
def execWake (tag : BitVec 16) (s : State) : Host.Outcome State Fault Refusal := s.ring 0x21 tag []

/-- ACTIVATE: a verified image is activated (R435). -/
def execActivate (tag : BitVec 16) (args : List Byte) (s : State) : Host.Outcome State Fault Refusal := s.ring 0x30 tag args

/-- CONFIRM: the image in trial is confirmed (R437). -/
def execConfirm (tag : BitVec 16) (s : State) : Host.Outcome State Fault Refusal := s.ring 0x31 tag []

/-- ATTEST: the attestation report for a nonce (R444). -/
def execAttest (tag : BitVec 16) (args : List Byte) (s : State) : Host.Outcome State Fault Refusal := s.ring 0x32 tag args

/-- LIFE_READ: the lifetime counters at one snapshot (R399). -/
def execLifeRead (tag : BitVec 16) (s : State) : Host.Outcome State Fault Refusal := s.ring 0x40 tag []

/-- CALENDAR_SET: the calendar is loaded (R96). -/
def execCalendarSet (tag : BitVec 16) (args : List Byte) (s : State) : Host.Outcome State Fault Refusal := s.ring 0x41 tag args

/-- SELFTEST_REPORT (R462). -/
def execSelftestReport (tag : BitVec 16) (s : State) : Host.Outcome State Fault Refusal := s.ring 0x50 tag []

/-- FENCE_READ (R462). -/
def execFenceRead (tag : BitVec 16) (s : State) : Host.Outcome State Fault Refusal := s.ring 0x51 tag []

/-- TWIN_PAIR: pairing is asked for, or the pair is left (R465). -/
def execTwinPair (tag : BitVec 16) (args : List Byte) (s : State) : Host.Outcome State Fault Refusal := s.ring 0x60 tag args

/-- TWIN_HANDOVER: the lead hands over at a named epoch (R474). -/
def execTwinHandover (tag : BitVec 16) (s : State) : Host.Outcome State Fault Refusal := s.ring 0x61 tag []

/-- REPLAY_SETUP: a detached sequencer is set up for a replay (R402). -/
def execReplaySetup (tag : BitVec 16) (args : List Byte) (s : State) : Host.Outcome State Fault Refusal := s.ring 0x70 tag args

/-- UNKNOWN_COMMAND: a code that R399 does not list (R398). -/
def execUnknownCommand (code : Byte) (tag : BitVec 16) (s : State) : Host.Outcome State Fault Refusal :=
  if commandCodes.contains code.toNat then .fault .illFormed else s.ring code.toNat tag []

/-! ### CANCEL and HELD (R397) -/

/-- A write of 1 to MBX_CTRL.CANCEL. -/
def State.cancelWrite (s : State) : State :=
  if s.get MBX_STATUS_STATE.one = 3 then s.unmirror.mbxEnd 6 [] else s

/-- CANCEL: a held command ends with RESULT 0x06. -/
def execCancel (s : State) : Host.Outcome State Fault Refusal := .next (s.gated (PageClass.page .mbx 0) 0x04C State.cancelWrite)

/-- HELD_PROCEED: the condition that a held command waits for has come, and it is served; where it must still wait, or
waits for the follower, it stays HELD. -/
def execHeldProceed (s : State) : Host.Outcome State Fault Refusal :=
  match s.mbx.cur with
  | none => .next s
  | some c => if s.get MBX_STATUS_STATE.one = 3 ∧ !s.twn.mirror then .next (s.serve c) else .next s

/-! ### The control processor (R389 to R394) -/

/-- WATCHDOG_RESTART: the firmware restarts the watchdog (R392). -/
def execWatchdogRestart (s : State) : Host.Outcome State Fault Refusal :=
  .next (if s.is MBX_CPU_STATUS_RUNNING.one then s.onMbx (fun m => { m with kickAt := s.now }) else s)

/-- The mailbox registers that a control-processor reset returns to reset (R393). -/
def resetFields : List RegField :=
  [MBX_CMD_TAG, MBX_CMD_CODE, MBX_ARG_LEN, MBX_STATUS_TAG, MBX_STATUS_RESULT, MBX_STATUS_STATE, MBX_REPLY_CODE, MBX_REPLY_BULK,
    MBX_REPLY_LEN]

/-- A control-processor reset (R393, R394): 1 by the watchdog, 2 after a lockstep mismatch. DEDUCED, log entry 44. -/
def State.controlReset (s : State) (cause : Nat) : State :=
  let event := 34 + cause
  let s1 := (((s.releaseHolds s.now).interruptAll 2).twinFault).logFault event (PageClass.page .mbx 0) 1 0
  let s2 := (forEach resetFields (s1.cpStops) (fun f s => s.set f.one 0)).unmirror
  let s3 := ((s2.set MBX_CPU_STATUS_RESTARTING.one 1).set MBX_CPU_STATUS_ME_LOADED.one 0).set MBX_CPU_CAUSE.one cause
  (s3.add (if cause = 1 then MBX_CPU_RESETS_WATCHDOG.one else MBX_CPU_RESETS_LOCKSTEP.one) 1).onMbx (fun m => { m with
    abandoned := s.mbx.cur, cur := none, cpuEvent := event })

/-- 500 ms, to within a period of ACLK, have passed since the watchdog's last restart (R392). DEDUCED, log entry 7. -/
def State.watchdogDue (s : State) : Bool := 
  decide (s.mbx.kickAt + ((500 * ticksMs - 1000 * ticksMs / 32768 : Nat) : Int) ≤ (s.now : Int))

/-- WATCHDOG_FIRE: 500 ms have passed without a restart (R392, R393); before that nothing happens. The device's reset cause
is recorded (R381). DEDUCED, log entry 44. -/
def execWatchdogFire (s : State) : Host.Outcome State Fault Refusal :=
  .next (if s.is MBX_CPU_STATUS_RUNNING.one && s.watchdogDue then (s.controlReset 1).putCause 4 0 else s)

/-- LOCKSTEP_MISMATCH: the cores' outputs differ (R389). -/
def execLockstepMismatch (s : State) : Host.Outcome State Fault Refusal :=
  .next (if s.is MBX_CPU_STATUS_RUNNING.one then s.controlReset 2 else s)

/-- The restarted processor takes its image: the slot that the selector gives, where it verifies, or the other (R436,
R438). None verifies: recovery mode. DEDUCED, log entry 44. -/
def State.restartImage (s : State) : State × Bool :=
  let s1 := s.trialStart
  let k := s1.pwr.slot
  if s1.imageReason k = 0 then (s1, true)
  else if s1.imageReason (1 - k) = 0 then
    (((s1.selectorWrite (1 - k) false 0 0xFF).raise 46).onPwr (fun p => { p with slot := 1 - k }), true)
  else (s1.recoveryMode.set MBX_CPU_STATUS_RESTARTING.one 0, false)

/-- The abandoned command ends with RESULT 0x07 (R394, R420). -/
def State.abandonEnds (s : State) : State :=
  match s.mbx.abandoned with
  | none => s
  | some c => ((s.onMbx (fun m => { m with cur := some c, abandoned := none })).mbxEnd 7 [])

/-- An image started in place of another one runs with its own configuration area; changes held are lost (R431, R436).
DEDUCED, log entry 44. -/
def State.fellBack (s : State) (slot : Nat) : State :=
  if s.pwr.slot = slot then s else (s.set SVC_STATUS_CFG_HELD.one 0).applyConfig

/-- CP_RESTART_DONE: the control processor runs again and the mailbox reads IDLE (R393, R394, R409), which ends a watchdog's
reset with EV_025 (R381; DEDUCED, log entry 109). `loaded`: the
microengines that loaded; `millis`: how long the restart took. DEDUCED, log entry 44. -/
def execCpRestartDone (loaded : BitVec 3) (millis : BitVec 16) (s : State) : Host.Outcome State Fault Refusal :=
  if !s.is MBX_CPU_STATUS_RESTARTING.one then .next s
  else
    let r := s.restartImage
    if !r.2 then .next r.1
    else
      let s1 := (((r.1.cpStart loaded.toNat).fellBack s.pwr.slot).set MBX_CPU_RESTART_MS.one millis.toNat).set MBX_STATUS_STATE.one 1
      .next (((s1.raise s.mbx.cpuEvent).raiseIf (s.mbx.cpuEvent == 35) 25).onMbx (fun m => { m with cpuEvent := 0 })).abandonEnds

end Sys2Proof.Machine
end

