-- ==== Sys2Proof/Machine/Service.lean ====
section
/-! DEFINITION. The service port and KSP (R411 to R421), downloads and their verification (R432 to R434, R443), and the
snapshot with the commands that wait for it (R16, R399, R403, R405). -/

namespace Sys2Proof.Machine

/-! ### The port (R411 to R416) -/

/-- The status byte (R412). -/
def State.statusByte (s : State) : Byte :=
  BitVec.ofNat 8 (flag (!s.svc.replies.isEmpty) + flag s.svc.port.isSome * 2 + s.get SVC_STATUS_ROM_ONLY.one * 2 ^ 3 +
    flag s.svc.err * 2 ^ 4 + s.get SVC_STATUS_RECOVERY.one * 2 ^ 5)

/-- SVC_ALERT_N is pulled low (R413). -/
def State.svcAlert (s : State) : Bool := !s.svc.replies.isEmpty && s.is SVC_CTRL_ALERT_EN.one

/-- The transaction returns bytes. -/
def State.portOut (s : State) (bytes : List Byte) : State := s.onSvc (fun v => { v with out := bytes })

/-- READ_STATUS: the status byte; it clears ERR. -/
def execReadStatus (s : State) : Host.Outcome State Fault Refusal :=
  .next ((s.portOut [s.statusByte]).onSvc (fun v => { v with err := false }))

/-- SVC_LAST_ERR. -/
def State.portErr (s : State) (code cause : Nat) : State := (s.set SVC_LAST_ERR_CODE.one code).set SVC_LAST_ERR_CAUSE.one cause

/-- The opcodes of R411. -/
def portOpcodes : List Nat := [0x38, 0xEB, 0x05]

/-- UNKNOWN_OPCODE: the rest of the transaction is ignored (R411). -/
def execUnknownOpcode (op : Byte) (s : State) : Host.Outcome State Fault Refusal :=
  if portOpcodes.contains op.toNat then .fault .illFormed else .next (s.portErr op.toNat 5)

/-- A RESET that is due takes place. -/
def State.resetTaken (s : State) : State :=
  match s.svc.resetDue with
  | some straps => s.portReset straps
  | none => s

/-- READ_FRAME, `count` bytes clocked: the pending reply frame, which stays pending until it has been read to its last byte
(R414, R421); with none pending bytes of zero and CAUSE 6. A RESET takes place once its reply has been read. DEDUCED, log
entry 47. -/
def execReadFrame (s : State) (count : BitVec 16 := 4112) : Host.Outcome State Fault Refusal :=
  match s.svc.replies with
  | [] => .next ((s.set SVC_LAST_ERR_CAUSE.one 6).portOut (List.replicate count.toNat 0))
  | r :: rs =>
    if count.toNat < r.length then .next (s.portOut (r.take count.toNat))
    else
      let s1 := ((s.portOut r).onSvc (fun v => { v with replies := rs })).add SVC_FRAMES_OUT.one 1
      .next s1.resetTaken

/-- A frame is rejected (R416). DEDUCED, log entry 46. -/
def State.frameRejected (s : State) (code cause : Nat) : State :=
  (((s.portErr code cause).add SVC_FRAMES_BAD.one 1).onSvc (fun v => { v with err := true })).raise 39

/-- The port takes no request now (R414). -/
def State.portTaken (s : State) : Bool := s.svc.port.isSome || !s.svc.replies.isEmpty

/-- SVC_LAST_ERR.CAUSE of a flaw. -/
def flawCause : FrameFlaw → Nat
  | .magic => 1
  | .length => 2
  | .crc => 3
  | .zeroField => 7

/-- KSP_FRAME_REJECT: a frame with a flaw, whose CODE is open where it did not come so far. DEDUCED, log entry 46. -/
def execKspFrameReject (flaw : FrameFlaw) (s : State) (code : Option Byte := none) : Host.Outcome State Fault Refusal :=
  let cause := if s.portTaken then 4 else flawCause flaw
  .next (match code with
    | some c => s.frameRejected c.toNat cause
    | none => (s.frameRejected s.free cause).drew)

/-- A request frame arrives: it is taken into service, or rejected while the port is busy (R414). -/
def State.request (s : State) (code : Nat) (tag : BitVec 16) (payload : List Byte) (serve : State → State) :
    Host.Outcome State Fault Refusal :=
  if 4096 < payload.length then .fault .illFormed
  else if s.portTaken then .next (s.frameRejected code 4)
  else
    let s1 := ((s.add SVC_FRAMES_IN.one 1).raise 38).onSvc (fun v => { v with port := some ⟨code, tag.toNat, payload⟩ })
    .next (serve s1)

/-- The request in service ends. -/
def State.portEnd (s : State) (result : Nat) (reply : List Byte) : State :=
  match s.svc.port with
  | some c => s.portReply c.code c.tag result reply
  | none => s

/-- RESULT BAD_ARGS at the payload's field `off`. -/
def State.portBad (s : State) (off : Nat) : State := s.portEnd 2 (toBytes 4 off)

/-! ### ROM commands without the flash (R405, R418, R421) -/

/-- The ID reply. DESIGN CHOICE, log entry 50. -/
def State.idReply (s : State) : List Byte :=
  s.copyRegs [SYS_IDENT_PART, SYS_STEPPING_NUMBER] ++ s.copyPair SYS_SERIAL 0 0 ++ toBytes 4 Config.romVersion.toNat ++
    s.copyReg SYS_FW_VERSION_MAJOR 0

/-- KSP ID. -/
def execKspId (tag : BitVec 16) (s : State) : Host.Outcome State Fault Refusal := s.request 0x80 tag [] (fun s => s.portEnd 0 s.idReply)

/-- CP_STATE: 0 stopped, 1 starting, 2 running, 3 recovery, 4 activation pause. DESIGN CHOICE, log entry 50. -/
def State.cpState (s : State) : Nat :=
  if s.is SVC_STATUS_RECOVERY.one then 3
  else if s.paused then 4
  else if s.is MBX_CPU_STATUS_RUNNING.one then 2
  else if s.is MBX_CPU_STATUS_RESTARTING.one || s.pwr.step != 0 then 1
  else 0

/-- The STATUS reply. DESIGN CHOICE, log entry 50. -/
def State.statusReply (s : State) : List Byte :=
  toBytes 1 s.cpState ++ toBytes 1 (s.get PWR_STATUS_STATE.one) ++ toBytes 2 0 ++
    s.copyRegs [SYS_BOOT_SLOT, PWR_STATUS_STATE, PWR_RESET_CAUSE_CAUSE, CLK_STATUS_LOCKED, LIFE_STATUS_CAL_VALID, SVC_SELECTOR_SEQ,
      SVC_SLOT_A_STATE, SVC_SLOT_B_STATE, LIFE_CAL_SECONDS]

/-- KSP STATUS. -/
def execKspStatus (tag : BitVec 16) (s : State) : Host.Outcome State Fault Refusal :=
  s.request 0x81 tag [] (fun s => s.portEnd 0 s.statusReply)

/-- ECHO_LITE: the reduced summary at a snapshot, or, with the main rails down, of the live registers (R405).
DEDUCED, log entry 27. -/
def execEchoLite (tag : BitVec 16) (s : State) : Host.Outcome State Fault Refusal :=
  s.request 0x82 tag [] (fun s => if s.pwr.waitRails then s.portEnd 0 (s.summary true true) else s.snapAsked .port)

/-- KSP RESET: a reset that follows its reply; any other value than CONFIRM's is refused (R418, R421). `straps`: what the
straps hold at the reset's release (R485). -/
def execKspReset (tag : BitVec 16) (payload : List Byte) (s : State) (straps : Straps := ⟨false, 0⟩) :
    Host.Outcome State Fault Refusal :=
  s.request 0x83 tag payload (fun s =>
    if 4 ≤ payload.length ∧ leAt payload 0 4 = 0x00834B1D then (s.portEnd 0 []).onSvc (fun v => { v with resetDue := some straps })
    else s.portBad 0)

/-- RESET_REPLY_TIMEOUT: 1 ms after REPLY_READY the reset takes place, read or not (R421). -/
def execResetReplyTimeout (s : State) : Host.Outcome State Fault Refusal := .next s.resetTaken

/-- HOLD_RELEASE: every DUT_HOLD is released as by HOLD_RELEASE_N; pins that were active raise their event (R222, R421). -/
def execHoldRelease (tag : BitVec 16) (s : State) : Host.Outcome State Fault Refusal :=
  s.request 0x84 tag [] (fun s =>
    let s1 := forEach (upto 8) (s.releaseHolds s.now) (fun k s1 => s1.raiseIf (s.holdActive k) (201 + 8 * k))
    (s1.raise 50).portEnd 0 [])

/-- KSP LIFE_READ. -/
def execKspLifeRead (tag : BitVec 16) (s : State) : Host.Outcome State Fault Refusal := s.request 0x40 tag [] (fun s => s.portEnd 0 s.lifeData)

/-- The codes of R418. -/
def kspCodes : List Nat := [0x80, 0x81, 0x82, 0x83, 0x84, 0x40, 0x85, 0x86, 0x87, 0x88, 0x89, 0x30, 0x31, 0x32]

/-- KSP_UNKNOWN_CODE: a code that R418 does not list. -/
def execKspUnknownCode (code : Byte) (tag : BitVec 16) (s : State) : Host.Outcome State Fault Refusal :=
  if kspCodes.contains code.toNat then .fault .illFormed else s.request code.toNat tag [] (fun s => s.portEnd 1 [])

/-! ### Downloads (R432, R433, R440) -/

/-- VDD_IO is in range, so that the flash can be reached (R418). DEDUCED, log entry 49. -/
def State.flashReachable (s : State) : Bool := !s.is PWR_STATUS_AON_SUPPLY.one

/-- The first sector of a slot (R423). -/
def slotSector (slot : Nat) : Nat := 16 + 192 * slot

/-- Bytes of a sector. -/
def sectorBytes : Nat := 65536

/-- Sector `k` of a slot is erased. -/
def State.eraseSlotSector (s : State) (slot k : Nat) : State :=
  let first := slot * slotSize + k * sectorBytes
  (s.onFlash (fun f => { f with slots := f.slots.filter (fun p => !(decide (first ≤ p.1) && decide (p.1 < first + sectorBytes))) })).sectorErased
    (slotSector slot + k)

/-- Program a byte of a slot. -/
def State.programByte (s : State) (slot i : Nat) (b : Byte) : State :=
  s.onFlash (fun f => { f with slots := sput f.slots (slot * slotSize + i) 0xFF b.toNat })

/-- Why DL_BEGIN of a slot is refused with STATE. -/
def State.slotKept (s : State) (slot : Nat) : Bool :=
  (match s.selector with
    | some e => (e.active == slot && !s.is SVC_STATUS_RECOVERY.one) || (e.trial && e.prev == slot && !s.is SVC_STATUS_RECOVERY.one)
    | none => s.is MBX_CPU_STATUS_RUNNING.one && s.pwr.slot == slot) ||
  s.svc.activating == some slot || s.mbx.cur.any (fun c => c.code == 0x30 && leAt c.args 0 1 == slot) ||
  (s.is SVC_CTRL_DL_LOCK.one && !s.is SVC_STATUS_RECOVERY.one)

/-- The rules of DL_BEGIN's payload. -/
def beginArgs (p : List Byte) : List (Nat × Bool) :=
  [(0, decide (1 ≤ p.length) && decide (leAt p 0 1 ≤ 1)), (1, decide (2 ≤ p.length) && leAt p 1 1 == 0),
    (2, decide (3 ≤ p.length) && leAt p 2 1 == 0), (3, decide (4 ≤ p.length) && leAt p 3 1 == 0),
    (4, decide (8 ≤ p.length) && decide (0x8000 ≤ leAt p 4 4) && decide (leAt p 4 4 ≤ slotSize))]

/-- A download that another one replaces leaves its slot EMPTY. -/
def State.dropDownload (s : State) : State :=
  if s.is SVC_DL_ACTIVE.one then (s.set (slotState (s.get SVC_DL_SLOT.one)) 0).set SVC_DL_ACTIVE.one 0 else s

/-- DL_BEGIN in service: the slot's first sector is erased and the slot reads DOWNLOADING. -/
def State.serveDlBegin (s : State) (p : List Byte) : State :=
  match badField (beginArgs p) with
  | some o => s.portBad o
  | none =>
    let slot := leAt p 0 1
    if s.slotKept slot then s.portEnd 3 []
    else
      let s1 := ((s.dropDownload.eraseSlotSector slot 0).slotHeader slot).set (slotState slot) 1
      let s2 := ((s1.set SVC_DL_ACTIVE.one 1).set SVC_DL_SLOT.one slot).set SVC_DL_BYTES.one 0
      let s3 := s2.onSvc (fun v => { v with header := [], dlLength := leAt p 4 4, digests := sput v.digests slot [] [] })
      (s3.raise 40).portEnd 0 []

/-- The byte at place `i` of the download as the device holds it. -/
def State.heldByte (s : State) (slot i : Nat) : Byte := if i < 0x100 then s.svc.header.getD i 0 else s.slotByte slot i

/-- The byte at place `i` of the download arrives: its sector is erased first where it is the sector's first. -/
def State.takeByte (s : State) (slot i : Nat) (b : Byte) : State :=
  let s1 := if i ≠ 0 ∧ i % sectorBytes = 0 then s.eraseSlotSector slot (i / sectorBytes) else s
  if i < 0x100 then s1.onSvc (fun v => { v with header := v.header ++ [b] }) else s1.programByte slot i b

/-- The rules of DL_DATA's payload, `have_` bytes being received and `len` being LENGTH. DEDUCED, log entry 49. -/
def dataArgs (p : List Byte) (have_ len : Nat) : List (Nat × Bool) :=
  [(0, decide (4 ≤ p.length) && decide (leAt p 0 4 ≤ have_)), (4, decide (8 ≤ p.length) && leAt p 4 4 == 0),
    (8, decide (9 ≤ p.length) && decide (leAt p 0 4 + (p.length - 8) ≤ len))]

/-- DL_DATA in service: bytes that repeat must match; the rest is new. -/
def State.serveDlData (s : State) (p : List Byte) : State :=
  if !s.is SVC_DL_ACTIVE.one then s.portEnd 3 []
  else
    let slot := s.get SVC_DL_SLOT.one
    let have_ := s.get SVC_DL_BYTES.one
    match badField (dataArgs p have_ s.svc.dlLength) with
    | some o => s.portBad o
    | none =>
      let off := leAt p 0 4
      let data := p.drop 8
      let old := min data.length (have_ - off)
      if (upto old).any (fun i => data.getD i 0 != s.heldByte slot (off + i)) then s.portBad 8
      else
        let fresh := (upto (data.length - old)).map (fun i => (off + old + i, data.getD (old + i) 0))
        let s1 := (forEach fresh s (fun q s => s.takeByte slot q.1 q.2)).set SVC_DL_BYTES.one (have_ + fresh.length)
        s1.portEnd 0 (toBytes 4 (s1.get SVC_DL_BYTES.one))

/-- DL_END in service: the header page is programmed last, and the slot reads WRITTEN. DEDUCED, log entry 49. -/
def State.serveDlEnd (s : State) : State :=
  if !s.is SVC_DL_ACTIVE.one || s.get SVC_DL_BYTES.one != s.svc.dlLength then s.portEnd 3 []
  else
    let slot := s.get SVC_DL_SLOT.one
    let s1 := forEach (upto 0x100) s (fun i s => s.programByte slot i (s.svc.header.getD i 0))
    let s2 := (((s1.slotHeader slot).set (slotState slot) 2).set SVC_DL_ACTIVE.one 0).onSvc (fun v => { v with header := [] })
    (s2.raise 41).portEnd 0 []

/-- SELECT in service (R443). -/
def State.serveSelect (s : State) (p : List Byte) : State :=
  let slot := leAt p 0 1
  if !s.is SVC_STATUS_RECOVERY.one then s.portEnd 3 []
  else if p.length < 1 ∨ 1 < slot then s.portBad 0
  else if s.get (slotState slot) ≠ 3 then s.portEnd 3 []
  else (s.selectorWrite slot true 3 (if s.imageReason (1 - slot) = 0 then 1 - slot else 0xFF)).portEnd 0 []

/-- A command that writes the boot flash is served; during a brown-out episode it waits in service (R424, R440).
DEDUCED, log entry 49. -/
def State.serveWriter (s : State) (code : Nat) (p : List Byte) : State :=
  if !s.flashReachable then s.portEnd 3 []
  else if s.is PWR_STATUS_BO_WARN.one then s
  else match code with
    | 0x85 => s.serveDlBegin p
    | 0x86 => s.serveDlData p
    | 0x87 => s.serveDlEnd
    | _ => s.serveSelect p

/-- DL_BEGIN. -/
def execDlBegin (tag : BitVec 16) (payload : List Byte) (s : State) : Host.Outcome State Fault Refusal :=
  s.request 0x85 tag payload (·.serveWriter 0x85 payload)

/-- DL_DATA. -/
def execDlData (tag : BitVec 16) (payload : List Byte) (s : State) : Host.Outcome State Fault Refusal :=
  s.request 0x86 tag payload (·.serveWriter 0x86 payload)

/-- DL_END. -/
def execDlEnd (tag : BitVec 16) (payload : List Byte) (s : State) : Host.Outcome State Fault Refusal :=
  s.request 0x87 tag payload (·.serveWriter 0x87 payload)

/-- SELECT. -/
def execSelect (tag : BitVec 16) (payload : List Byte) (s : State) : Host.Outcome State Fault Refusal :=
  s.request 0x89 tag payload (·.serveWriter 0x89 payload)

/-- The request in service resumes after a brown-out episode. -/
def State.portResumes (s : State) : State :=
  match s.svc.port with
  | some c => if [0x85, 0x86, 0x87, 0x89].contains c.code then s.serveWriter c.code c.payload else s
  | none => s

/-- BROWNOUT_END: the episode ends, `since` ticks after a rail was last below its warning level (R364, R365), and what
waited for the boot flash goes on. -/
def execBrownoutEnd (s : State) (since : BitVec 48 := 8192000) : Host.Outcome State Fault Refusal :=
  .next (if s.is PWR_STATUS_BO_WARN.one then (s.episodeEnds since.toNat).portResumes else s)

/-- VERIFY in service (R434): the slot reads VERIFIED or FAILED; how long it took is open. DEDUCED, log entry 48. -/
def State.serveVerify (s : State) (p : List Byte) : State :=
  let slot := leAt p 0 1
  if !s.flashReachable then s.portEnd 3 []
  else if p.length < 1 ∨ 1 < slot then s.portBad 0
  else
    let reason := s.imageReason slot
    let digest := fitTo 64 (s.imageDigest slot)
    let s1 := (((s.set (slotState slot) (if reason = 0 then 3 else 4)).set SVC_VERIFY_REASON.one reason).set SVC_VERIFY_SLOT.one slot).set
      SVC_VERIFY_RESULT.one (if reason = 0 then 1 else 2)
    let s2 := ((s1.set SVC_VERIFY_TIME_MS.one s.free).drew).onSvc (fun v => { v with digests := sput v.digests slot [] (s.imageDigest slot) })
    (s2.raise (if reason = 0 then 42 else 43)).portEnd 0 (toBytes 1 reason ++ toBytes 3 0 ++ digest)

/-- VERIFY. -/
def execVerify (tag : BitVec 16) (payload : List Byte) (s : State) : Host.Outcome State Fault Refusal :=
  s.request 0x88 tag payload (·.serveVerify payload)

/-! ### Forwarded commands (R418 to R420) -/

/-- A forwarded command is carried out by the control processor, where it runs and the mailbox is IDLE. -/
def State.forward (s : State) (code : Nat) (tag : BitVec 16) (args : List Byte) : State :=
  if s.cpState ≠ 2 ∨ s.get MBX_STATUS_STATE.one ≠ 1 then s.portEnd 3 []
  else (s.onSvc (fun v => { v with fromPort := true })).mbxTake ⟨code, tag.toNat, args⟩

/-- KSP ACTIVATE. -/
def execKspActivate (tag : BitVec 16) (payload : List Byte) (s : State) : Host.Outcome State Fault Refusal :=
  s.request 0x30 tag payload (·.forward 0x30 tag payload)

/-- KSP CONFIRM. -/
def execKspConfirm (tag : BitVec 16) (payload : List Byte) (s : State) : Host.Outcome State Fault Refusal :=
  s.request 0x31 tag payload (·.forward 0x31 tag payload)

/-- KSP ATTEST. -/
def execKspAttest (tag : BitVec 16) (payload : List Byte) (s : State) : Host.Outcome State Fault Refusal :=
  s.request 0x32 tag payload (·.forward 0x32 tag payload)

/-- FORWARD_ABANDON_TIMEOUT: 500 ms after a control-processor reset the mailbox is not IDLE, and the abandoned request is
answered (R420). -/
def execForwardAbandonTimeout (s : State) : Host.Outcome State Fault Refusal :=
  .next (if s.svc.fromPort && s.mbx.abandoned.isSome then s.portEnd 7 [] else s)

/-! ### The snapshot (R16, R399, R403, R405) -/

/-- The mailbox command that waited for the snapshot ends. DEDUCED, log entry 27. -/
def State.snapServes (s : State) : State :=
  if s.mbxServes 0x01 then
    ((s.putBar4 0 (s.summary false false)).set MBX_ECHO_SEQ.one s.snapSeq).mbxOk (toBytes 4 s.snapSeq)
  else if s.mbxServes 0x40 then s.mbxBulk s.lifeData
  else s

/-- ECHO_LITE in service ends. DEDUCED, log entry 27. -/
def State.liteServes (s : State) : State :=
  if s.svc.port.any (fun c => c.code == 0x82) then s.portEnd 0 (s.summary true false) else s

/-- SNAPSHOT_TAKEN: the snapshot that is due first is taken, and the ECHO, LIFE_READ and ECHO_LITE that wait for it end
with it (R16 to R18). -/
def execSnapshotTaken (s : State) : Host.Outcome State Fault Refusal :=
  if s.snapReady then
    let s1 := if s.snapFor .mailbox then s.takeSnapshot.snapServes else s.takeSnapshot
    .next (if s.snapFor .port then s1.liteServes else s1)
  else .next s

end Sys2Proof.Machine
end

