-- ==== Sys2Proof/Machine/Endpoint.lean ====
section
/-! DEFINITION. The PCI Express endpoint (R29 to R36): its resets, configuration space, link and error reports; MSI-X
messages (R61); and the HBM aperture of BAR2 (R37 to R42, R283, R286). -/

namespace Sys2Proof.Machine

/-! ### Resets and configuration space (R30 to R34) -/

/-- The endpoint after PERST_N or a Function Level Reset (R32, R61): the configuration space, the BAR assignments and the
pending-bit array are reset, every vector is masked, and messages that the endpoint holds are discarded.
DESIGN CHOICE, log entry 9. -/
def Link.endpointReset (l : Link) : Link :=
  { l with
    dstate := .d0, busMaster := false, msixEnable := false, funcMask := false, devControl := 0x2810, bars := []
    masked := [], pba := [], waiting := [], completion := .none, readData := [] }

/-- PERST_N: with `low` the pin is asserted, which resets the endpoint alone and holds it in reset; else it is released
(R32, R61). DESIGN CHOICE, log entry 9. -/
def execPerstN (s : State) (low : Bool := true) : Host.Outcome State Fault Refusal :=
  .next (s.onLink (fun l => if low then { l.endpointReset with inReset := true } else { l with inReset := false }))

/-- FUNCTION_LEVEL_RESET: the endpoint alone is reset (R32). -/
def execFunctionLevelReset (s : State) : Host.Outcome State Fault Refusal := .next (s.onLink (·.endpointReset))

/-- The address bits of BAR register `i` (R35): 16 MiB of BAR0, 4 GiB of BAR2, 64 KiB of BAR4; the odd ones hold upper
halves. PRESUMED, log entry 10. -/
def barMask : Nat → Nat
  | 0 => 0xFF000000
  | 2 => 0
  | 4 => 0xFFFF0000
  | _ => 0xFFFFFFFF

/-- The type bits of BAR register `i` (R35): 64-bit, and prefetchable for BAR2. PRESUMED, log entry 10. -/
def barType : Nat → Nat
  | 0 => 0x4
  | 2 => 0xC
  | 4 => 0x4
  | _ => 0

/-- A vector leaves its mask: the message that its pending bit holds is requested (R61). -/
def Link.release (l : Link) (v : Nat) : Link :=
  if sget l.pba v 0 = 1 ∧ !l.isMasked v then ({ l with pba := sput l.pba v 0 0 }).request v else l

/-- The enables of MSI-X take new values. -/
def Link.msixControl (l : Link) (enable mask : Bool) : Link :=
  (upto 64).foldl Link.release { l with msixEnable := enable, funcMask := mask }

/-- A configuration write to the double word at `reg` (R30, R32, R33): bus mastering, the BARs, the power state, MSI-X, and
Device Control with its reset bit. PRESUMED, log entry 10. -/
def Link.configWrite (l : Link) (reg value : Nat) : Link :=
  if reg = 0x004 then { l with busMaster := bitOf value 2 }
  else if 0x010 ≤ reg ∧ reg < 0x028 then
    let i := (reg - 0x010) / 4
    { l with bars := sput l.bars i 0 (value &&& barMask i) }
  else if reg = Config.pmcsrAt.toNat then
    { l with dstate := if field value 0 2 = 0 then .d0 else if field value 0 2 = 3 then .d3hot else l.dstate }
  else if reg = Config.msixAt.toNat then l.msixControl (bitOf value 31) (bitOf value 30)
  else if reg = Config.devControlAt.toNat then
    (if bitOf value 15 then l.endpointReset else { l with devControl := field value 0 15 })
  else l

/-- What a configuration read of the double word at `reg` returns (R31); what the spec does not give is `free`.
PRESUMED, log entry 10. -/
def Link.configRead (l : Link) (reg free : Nat) : Nat :=
  if reg = 0x000 then 0x1024 * 2 ^ 16 + Config.vendorId.toNat
  else if reg = 0x008 then 0x118000 * 2 ^ 8 + 0x21
  else if reg = 0x004 then setField free 2 1 (flag l.busMaster)
  else if 0x010 ≤ reg ∧ reg < 0x028 then sget l.bars ((reg - 0x010) / 4) 0 + barType ((reg - 0x010) / 4)
  else if reg = Config.pmcsrAt.toNat then setField free 0 2 (if l.dstate == .d0 then 0 else 3)
  else if reg = Config.msixAt.toNat then setField (setField free 31 1 (flag l.msixEnable)) 30 1 (flag l.funcMask)
  else if reg = Config.devControlAt.toNat then setField free 0 16 l.devControl
  else free

/-- CONFIGURATION_REQUEST: retry status until start-up has made the endpoint ready (R34), then a read or a write of the
configuration space. Held in reset, the endpoint answers nothing (R32). -/
def execConfigurationRequest (write : Bool) (reg : BitVec 12) (value : DWord) (s : State) :
    Host.Outcome State Fault Refusal :=
  let r := reg.toNat / 4 * 4
  if s.link.inReset then .next s
  else if !s.link.ready then .next (s.onLink (fun l => { l with completion := .retryStatus, readData := [] }))
  else if write then .next (s.onLink (fun l => { (l.configWrite r value.toNat) with completion := .success, readData := [] }))
  else .next ((s.readDone (toBytes 4 (s.link.configRead r (s.free % 2 ^ 32)))).drew)

/-- UNSUPPORTED_REQUEST: a request that needs a feature the endpoint does not have (R30). -/
def execUnsupportedRequest (s : State) : Host.Outcome State Fault Refusal :=
  .next (s.onLink (fun l => { l with completion := .unsupported, readData := [] }))

/-- AER_CORRECTABLE_ERROR: a correctable error is logged, and EV_003 raised (R67). -/
def execAerCorrectableError (s : State) : Host.Outcome State Fault Refusal :=
  .next ((s.onLink (fun l => { l with aerCount := l.aerCount + 1 })).raise 3)

/-- The lanes of a link width. -/
def laneCount : Lanes → Nat
  | .x1 => 1
  | .x2 => 2
  | .x4 => 4
  | .x8 => 8
  | .x16 => 16

/-- SYS_LINK_STATUS of a link: zero while it is down. -/
def linkStatus (up : Bool) (lanes : Lanes) (speed : Nat) : List (Fld × Nat) :=
  [(SYS_LINK_STATUS_DEGRADED.one, flag (up && (lanes != .x16 || speed != 5))), (SYS_LINK_STATUS_UP.one, flag up),
    (SYS_LINK_STATUS_WIDTH.one, if up then laneCount lanes else 0), (SYS_LINK_STATUS_SPEED.one, if up then speed else 0)]

/-- PCIE_LINK_CHANGE: the link trains or changes state (R29): SYS_LINK_STATUS, and EV_003 where it changes (R67).
DEDUCED, log entry 14. -/
def execPcieLinkChange (up : Bool) (lanes : Lanes) (speed : Fin 6) (s : State) : Host.Outcome State Fault Refusal :=
  if up ∧ speed.val = 0 then .fault .illFormed
  else
    let l := linkStatus up lanes speed.val
    .next ((forEach l s (fun p s => s.set p.1 p.2)).raiseIf (l.any (fun p => s.get p.1 != p.2)) 3)

/-! ### MSI-X messages (R61) -/

/-- The endpoint may send a message: link up, mastering and MSI-X enabled, D0, no activation pause.
DEDUCED, log entry 13. -/
def State.maySend (s : State) : Bool :=
  s.hostOpen && s.is SYS_LINK_STATUS_UP.one && s.link.busMaster && s.link.msixEnable && !s.paused

/-- The message on vector `v` is sent: the write to host memory, and with a holdoff its interval begins, what else
waits being merged. -/
def Link.sendMessage (l : Link) (v : Nat) (holdoff : Bool) : Link :=
  let left := sget l.waiting v 0 - 1
  let out : HostWrite := ⟨sget l.tableAddr v 0, toBytes 4 (sget l.tableData v 0), false, false, false⟩
  let l1 := { l with waiting := sput l.waiting v 0 left, lastSent := some v, hostOut := l.hostOut ++ [out] }
  if holdoff then
    { l1 with
      holding := sput l.holding v 0 1
      waiting := sput l1.waiting v 0 0
      merged := if left = 0 then l.merged else sput l.merged v 0 1 }
  else l1

/-- MSIX_MESSAGE_SEND: a waiting message goes to the host and counts in EVT_VEC_COUNT (R61, R68); one whose vector has
been masked meanwhile goes to the pending-bit array. -/
def execMsixMessageSend (v : Fin 64) (s : State) : Host.Outcome State Fault Refusal :=
  if sget s.link.waiting v.val 0 = 0 ∨ !s.maySend then .next s
  else if s.link.isMasked v.val then
    .next (s.onLink (fun l => { l with waiting := sput l.waiting v.val 0 0, pba := sput l.pba v.val 0 1 }))
  else .next ((s.onLink (·.sendMessage v.val (s.get EVT_HOLDOFF.one != 0))).add (EVT_VEC_COUNT.elt v.val) 1)

/-- HOLDOFF_EXPIRY: the interval on a vector ends, and what merged in it is one message (R61). -/
def execHoldoffExpiry (v : Fin 64) (s : State) : Host.Outcome State Fault Refusal :=
  let l := s.link
  if sget l.holding v.val 0 = 0 then .next s
  else
    let l1 := { l with holding := sput l.holding v.val 0 0, merged := sput l.merged v.val 0 0 }
    .next (s.onLink (fun _ => if sget l.merged v.val 0 = 1 then l1.deliver v.val else l1))

/-- A vector's mask bit in the MSI-X table takes a value. -/
def Link.maskVector (l : Link) (v : Nat) (m : Bool) : Link := ({ l with masked := sput l.masked v 1 (flag m) }).release v

/-- VECTOR_UNMASK: the host clears a vector's mask bit in the MSI-X table (R61). -/
def execVectorUnmask (v : Fin 64) (s : State) : Host.Outcome State Fault Refusal :=
  .next (if s.hostOpen && !s.paused then s.onLink (·.maskVector v.val false) else s)

/-! ### Writes to BAR4 (R43, R36) -/

/-- One byte of an MSI-X table entry; byte 12 holds the mask bit. -/
def Link.tableByte (l : Link) (v k : Nat) (b : Byte) : Link :=
  if k < 8 then { l with tableAddr := smod l.tableAddr v 0 (fun n => setField n (8 * k) 8 b.toNat) }
  else if k < 12 then { l with tableData := smod l.tableData v 0 (fun n => setField n (8 * (k - 8)) 8 b.toNat) }
  else if k = 12 then l.maskVector v (bitOf b.toNat 0)
  else l

/-- One byte written to BAR4 by the host: the argument block, the bulk buffer and the MSI-X table take it. -/
def Link.bar4Byte (l : Link) (x : Nat) (b : Byte) : Link :=
  if (0x4000 ≤ x ∧ x < 0x5000) ∨ (0x6000 ≤ x ∧ x < 0xE000) then { l with bar4 := sput l.bar4 x 0 b.toNat }
  else if 0xE000 ≤ x ∧ x < 0xE400 then l.tableByte ((x - 0xE000) / 16) (x % 16) b
  else l

/-- Bytes with their enables from `x` on. -/
def Link.bar4Write : Link → Nat → List (Option Byte) → Link
  | l, _, [] => l
  | l, x, none :: t => l.bar4Write (x + 1) t
  | l, x, some b :: t => (l.bar4Byte x b).bar4Write (x + 1) t

/-! ### The HBM aperture -/

/-- A bit of SYS_APERTURE_STATUS is set: EV_002 (R67). -/
def State.apertureNote (s : State) (f : RegField) : State := (s.set f.one 1).raise 2

/-- Where an aperture access of a burst ends. -/
inductive Reach where
  | beyond                    -- at or beyond the present capacity (R38)
  | parked                    -- a powered-down pseudo-channel in PARK (R40)
  | training                  -- a pseudo-channel under training (R41)
  | fenced                    -- a unit fenced since the previous map (R282)
  | at_ (pc x : Nat)

/-- The map of aperture writes: pseudo-channels under training keep their places (R41). -/
def State.apertureMap (s : State) (a : Nat) : Option (Nat × Nat) :=
  mapAddr (pcOrder.filter (fun pc => s.pcState pc != 3)) s.grain a

/-- The map of aperture reads (R283). -/
def State.apertureReadMap (s : State) (a : Nat) : Option (Nat × Nat) :=
  if s.is HBM_G_CTRL_OLD_MAP_READ.one && s.is HBM_G_STATUS_PREV_VALID.one then s.translateRead a else s.apertureMap a

/-- What a mapped address reaches. DEDUCED, log entry 23. -/
def State.reached (s : State) : Option (Nat × Nat) → Reach
  | none => .beyond
  | some (pc, x) => match s.pcState pc with
    | 2 => if s.get PWR_STATUS_STATE.one = 4 then .training else .parked
    | 3 => .fenced
    | 4 => .training
    | _ => .at_ pc x

/-- Note an access that is not served. -/
def State.apertureMiss (s : State) : Reach → State
  | .beyond => s.apertureNote SYS_APERTURE_STATUS_OUT_OF_RANGE
  | .parked => s.apertureNote SYS_APERTURE_STATUS_PARKED_ACCESS
  | .training => s.apertureNote SYS_APERTURE_STATUS_NOT_READY
  | _ => s

/-- An aperture read of the burst at HBM address `a`: its bytes, and whether they are marked uncorrectable.
DEDUCED, log entry 23. -/
def State.apertureBurst (s : State) (a : Nat) (finding : EccFinding) : State × List Byte × Bool :=
  match s.reached (s.apertureReadMap a) with
  | .at_ pc x =>
    let s1 := (s.wakePc pc).eccRead pc x finding
    (s1, s1.hbm.burstAt pc x, s1.hbm.markAt pc x == 1)
  | .fenced => (s, toBytes 64 0, true)
  | r => (s.apertureMiss r, toBytes 64 0, false)

/-- `k` bursts from `a` on, with what the ECC check of each finds (R275). -/
def State.apertureFetch : Nat → Nat → List EccFinding → State → State × List Byte × Bool
  | 0, _, _, s => (s, [], false)
  | k + 1, a, findings, s =>
    let r := s.apertureBurst a (findings.headD .clean)
    let q := State.apertureFetch k (a + 64) findings.tail r.1
    (q.1, r.2.1 ++ q.2.1, r.2.2 || q.2.2)

/-- The aperture answers nothing: closed (R42) or in an activation's pause (R57). -/
def State.apertureShut (s : State) : Bool := s.paused || !s.is SYS_APERTURE_CTRL.one

/-- The HBM address of BAR2 offset `off` (R37). -/
def State.apertureAddr (s : State) (off : Nat) : Nat := s.get SYS_APERTURE_BASE.one * 2 ^ 20 + off

/-- The bursts that `len` bytes from `a` on touch. -/
def burstsOf (a len : Nat) : Nat := if len = 0 then 0 else (a + len - 1) / 64 - a / 64 + 1

/-- APERTURE_READ: a host read of BAR2 (R37 to R42, R275, R282, R283, R286). While the HBM is stopped it is judged by R286
alone (DESIGN CHOICE, log entry 92). -/
def execApertureRead (off : DWord) (len : Fin 4097) (s : State) (findings : List EccFinding := []) :
    Host.Outcome State Fault Refusal :=
  let zeros := List.replicate len.val 0
  if !s.hostOpen then .next s
  else if s.apertureShut then .next (s.readDone zeros)
  else if s.is HBM_G_STATUS_STOPPED.one then .next ((s.set HBM_G_STATUS_STOPPED_ACCESS.one 1).readDone zeros)
  else
    let a := s.apertureAddr off.toNat
    let r := State.apertureFetch (burstsOf a len.val) (a / 64 * 64) findings s
    let s1 := r.1.readDone ((r.2.1.drop (a % 64)).take len.val)
    .next (if r.2.2 then s1.onLink (fun l => { l with completion := .poisoned }) else s1)

/-- An aperture write of the bytes `data`, at HBM address `a`, to the burst at `b` (R38 to R41). A write of less than the
burst reads the rest, with that access's finding, and its mark stays. DEDUCED, log entry 23. -/
def State.aperturePut (s : State) (a : Nat) (data : List Byte) (b : Nat) (finding : EccFinding) : State :=
  let lo := max a b
  let hi := min (a + data.length) (b + 64)
  match s.reached (s.apertureMap b) with
  | .at_ pc x =>
    if s.inRunningRegion lo (hi - lo) then s.apertureNote SYS_APERTURE_STATUS_REGION_WRITE
    else
      let whole := hi - lo == 64
      let s1 := if whole then s else (s.wakePc pc).eccRead pc x finding
      let bytes := (upto 64).map (fun i => if lo ≤ b + i ∧ b + i < hi then data.getD (b + i - a) 0 else s1.hbm.byteAt pc (x + i))
      s1.acceptWrite pc { x := x, data := bytes, mark := if whole then 0 else s1.hbm.markAt pc x, lane := 0, start := 0, seq := 0 }
  | r => s.apertureMiss r

/-- APERTURE_WRITE: a host write of BAR2 (R37 to R42, R283, R286). While the HBM is stopped, and while OLD_MAP_READ is 1,
the write is judged by R286 and R283 alone, wherever it goes (DESIGN CHOICE, log entry 92). -/
def execApertureWrite (off : DWord) (data : List Byte) (s : State) (findings : List EccFinding := []) :
    Host.Outcome State Fault Refusal :=
  if 4096 < data.length then .fault .illFormed
  else if !s.hostOpen || s.apertureShut then .next s
  else if s.is HBM_G_STATUS_STOPPED.one then .next (s.set HBM_G_STATUS_STOPPED_ACCESS.one 1)
  else if s.is HBM_G_CTRL_OLD_MAP_READ.one then .next s
  else
    let a := s.apertureAddr off.toNat
    .next (forEach (upto (burstsOf a data.length)) s (fun i s =>
      s.aperturePut a data (a / 64 * 64 + 64 * i) (findings.getD i .clean)))

end Sys2Proof.Machine
end

