-- ==== Sys2Proof/Machine/Host.lean ====
section
/-! DEFINITION. Host writes to the register pages (R9, R35, R45 to R57): width, guard, fence and BUSY rules, the 64-bit
pairs, posted writes, and what a write does on each page. -/

namespace Sys2Proof.Machine

/-! ### Values -/

/-- `old` with the bytes of `mask` taken from `new`. -/
def mergeBytes (old new mask : Nat) : Nat :=
  maskOf 32 (fun b => if bitOf mask (b / 8) then bitOf new b else bitOf old b)

/-- A field as a write merges with it: the shadow of an SHD field, else its cell. -/
def State.written (s : State) (q : Part) : Nat := if q.field.kind = .shd then s.getShadow q.fld else s.get q.fld

/-- A location as a narrow write merges with it. -/
def State.mergeBase (s : State) (p off : Nat) : Nat := composed (s.shownAt p off) s.written

/-- A location's value goes into its CFG fields, its shadows and its counters (R9). DEDUCED, log entry 85. -/
def State.assign (s : State) (p off value : Nat) : State :=
  forEach (s.shownAt p off) s (fun q s =>
    let v := setField (s.written q) q.shift q.width (field value q.lo q.width)
    match q.field.kind with
    | .cfg | .cnt => s.set q.fld v
    | .shd => s.setShadow q.fld v
    | _ => s)

/-- The same for both halves of a pair. -/
def State.assignPair (s : State) (p off value : Nat) : State :=
  (s.assign p off (value % 2 ^ 32)).assign p (off + 4) (value / 2 ^ 32)

/-- The location holds a counter. -/
def State.holdsCnt (s : State) (p off : Nat) : Bool := (s.shownAt p off).any (fun q => q.field.kind == .cnt)

/-! ### The header (R46, R47, R55, R62) -/

/-- The event whose enable is bit `b` of the location at `off` of page `p`. -/
def eventAt (p off b : Nat) : Option Nat := (upto 512).find? (fun k => match evPlace k with
  | some e => decide (e.page = p ∧ e.en = off ∧ e.bit = b)
  | none => false)

/-- One enable bit takes a value; set over a set latch it makes the event newly pending (R62). -/
def State.enableBit (s : State) (p off b : Nat) (v : Bool) : State :=
  let f := eventCell p off b
  let s1 := s.set f (flag v)
  match eventAt p off b with
  | some k => if v && !s.is f && s.latched k then s1.notify k else s1
  | none => s1

/-- A write to a location of event enables. -/
def State.enableWrite (s : State) (c : PageClass) (p off value mask : Nat) : State :=
  forEach (upto (eventBits c off)) s (fun b s => if bitOf mask (b / 8) then s.enableBit p off b (bitOf value b) else s)

/-- A write to the header but PAGE_UNLOCK: the event enables and, at full width, WRONG_KEY. -/
def State.headerWrite (s : State) (c : PageClass) (p off value mask : Nat) : State :=
  if off = 0x014 then s.enableWrite c p off value mask
  else if off = 0x00C ∧ mask = 0xF then s.set (wrongKeyOf p) (field value 8 8)
  else s

/-- A full write to PAGE_UNLOCK (R54, R55). -/
def State.unlockWrite (s : State) (p value : Nat) : State :=
  if !guardedPage p then s
  else if value = p * 2 ^ 16 + 0x4B1D then s.set (unlockedOf p) 1
  else ((s.set (unlockedOf p) 0).addSat (wrongKeyOf p) 1).headerErr p 0x018 3

/-- A write of the bytes `mask` to PAGE_UNLOCK; a narrow one is ignored (R50). -/
def State.unlockBytes (s : State) (p value mask : Nat) : State :=
  if mask = 0xF then s.unlockWrite p value else (s.set (unlockedOf p) 0).accessErr p 0x018

/-! ### Writes that a register refuses with ACCESS_ERR -/

/-- A value of a 14-bit deskew field is outside its range (R113). DEDUCED, log entry 22. -/
def deskewBad (value : Nat) : Bool :=
  decide (signed 14 (field value 0 14) < -4096) || decide (4096 < signed 14 (field value 0 14))

/-- A running session uses state clock `m` (R135): a skein of its plan in state mode selects it (DESIGN CHOICE, log entry
99). -/
def State.clockUsed (s : State) (m : Nat) : Bool :=
  (upto 8).any (fun i => s.sessRuns i &&
    (s.planSkeins i).any (fun d => (s.gear d).stateMode && s.get (FE_STATE_SCK_SEL.of d) == m))

/-- Skein `n` belongs to a running session (R136). -/
def State.skeinRuns (s : State) (n : Nat) : Bool := (upto 8).any (fun i => s.sessRuns i && (s.planSkeins i).contains n)

/-- The owner field of the pool resource whose register stands at `off` of pool page `n` (R184, R219), and whether that
register holds it. -/
def poolOwner (n off : Nat) : Option (Fld × Bool) :=
  if 0x100 ≤ off ∧ off < 0x200 then some (TRG_WC_CTRL_OWNER.ofElt n ((off - 0x100) / 32), off % 32 == 4)
  else if 0x200 ≤ off ∧ off < 0x240 then some (TRG_RC_CTRL_OWNER.ofElt n ((off - 0x200) / 32), off % 32 == 4)
  else if 0x280 ≤ off ∧ off < 0x2C0 then some (TRG_ED_CTRL_OWNER.ofElt n ((off - 0x280) / 8), off % 8 == 0)
  else if 0x300 ≤ off ∧ off < 0x380 then some (TRG_CT_CTRL_OWNER.ofElt n ((off - 0x300) / 32), off % 32 == 0)
  else if 0x380 ≤ off ∧ off < 0x400 then some (TRG_TM_CTRL_OWNER.ofElt n ((off - 0x380) / 32), off % 32 == 0)
  else none

/-- A write to a pool resource while its owner, or the owner it would name, is armed (R185). DEDUCED, log entry 21. -/
def State.poolRefuses (s : State) (n off value : Nat) : Bool :=
  match poolOwner n off with
  | some (f, ctrl) => s.seqArmed (s.get f) || (ctrl && s.seqArmed (field value 4 3))
  | none => false

/-- A write of `value` to the location at `off` of instance `n` is refused with ACCESS_ERR. R136 names no refusal of a
FE_n_STATE.DELAY beyond ±4,096, and none is made (DESIGN CHOICE, log entry 98). -/
def State.refuses (s : State) (c : PageClass) (n off value : Nat) : Bool :=
  match c with
  | .fe => (decide (0x080 ≤ off) && decide (off < 0x0C0) && deskewBad value) || (off == 0x0C4 && s.skeinRuns n)
  | .feg =>
    if 0x080 ≤ off ∧ off < 0x100 then s.clockUsed ((off - 0x080) / 4)
    else if 0x100 ≤ off ∧ off < 0x180 then deskewBad value || s.clockUsed ((off - 0x100) / 4)
    else false
  | .skn => off == 0x04C && s.skeinRuns n
  | .trg => s.seqArmed n && (off == 0x050 || off == 0x054 || off == 0x080 || decide (0x800 ≤ off))
  | .pool => s.poolRefuses n off value
  | .dma => (off == 0x048 || off == 0x04C) && s.dmaState n == 1
  | _ => false

/-! ### What a write does on each page -/

/-- Generic writes to the pins' controls: outputs follow at once, and a DUT_HOLD whose new limit lies behind is released by
it (R208, R211). -/
def State.pinWrite (s : State) (p off value : Nat) : State :=
  forEach (upto 8) (State.pinEdges s (s.assign p off value) s.now) (fun k s =>
    if s.holdLasted k (s.holdLimitTicks k) then s.limitRelease k else s)

/-- A write to a field of alarm `n`: a change while enabled is a fresh enable (R89). DEDUCED, log entry 19. -/
def State.alarmWrite (s : State) (n : Nat) (put : State → State) : State :=
  let s1 := put s
  let cells : List Fld := [TIME_ALARM.elt n, TIME_ALARM_PERIOD.elt n, TIME_ALARM_CTRL.elt n]
  if cells.any (fun f => s.get f != s1.get f) then s1.alarmBuild n else s1

/-- A write to HBM_G_CTRL (R268): while a plan is admitted a write that covers GRAIN, whatever its value, leaves GRAIN as it
is and sets ACCESS_ERR; the other fields take it. DEDUCED, log entry 20. -/
def State.hbmCtrlWrite (s : State) (value mask : Nat) : State :=
  let p := PageClass.page .hbmg 0
  let held := bitOf mask 0 && (upto 8).any (fun i => s.sessState i != 0)
  if held then (s.assign p 0x040 (setField value 0 4 (s.get HBM_G_CTRL_GRAIN.one))).accessErr p 0x040 else s.assign p 0x040 value

/-- A write to MBX_CMD or MBX_ARG_LEN (R396). -/
def State.mbxFieldWrite (s : State) (off value : Nat) : State :=
  if s.get MBX_STATUS_STATE.one = 2 ∨ s.get MBX_STATUS_STATE.one = 3 then (s.set MBX_ERR_BAD_WRITE.one 1).raise 33
  else s.assign (PageClass.page .mbx 0) off value

/-- A write to the queue watermarks or the warning's control: the marks are judged anew (R242). -/
def State.watermarkWrite (s : State) (off value : Nat) : State :=
  forEach (upto 65) (s.assign (PageClass.page .sq 0) off value) (fun n s => s.sqMark n)

/-- EVT_FORCE: each 1 sets a test event's latch (R68, R69). -/
def State.evtForce (s : State) (value : Nat) : State := forEach (upto 14) s (fun b s => s.raiseIf (bitOf value b) (498 + b))

/-- A write of a 32-bit register of a block. The registers of a fenced compressor keep their values (R356). -/
def State.blockWrite (s : State) (c : PageClass) (n p off value : Nat) : State :=
  let one := bitOf value 0
  let plain := s.assign p off value
  match c with
  | .sys => if off = 0x060 then (if one then s.snapRequest else s) else plain
  | .evt => if off = 0x048 then s.evtForce value else plain
  | .clk => if off = 0x040 then s.clkCtrlWrite value else if off = 0x058 then (if one then s.set CLK_DIV_APPLY.one 1 else s) else plain
  | .time =>
    if off = 0x050 then s.syncCtrlWrite value
    else if 0x080 ≤ off ∧ off < 0x0C0 then s.alarmWrite ((off - 0x080) / 16) (·.assign p off value)
    else plain
  | .life =>
    if off = 0x040 then (s.calendarLoad value).lifeEdit
    else if off = 0x04C then (if one then s.commitRequested else s)
    else if s.holdsCnt p off then plain.lifeEdit
    else plain
  | .pwr =>
    if off = 0x078 then s.skeinGateWrite true value
    else if off = 0x08C then s.seqGateWrite value
    else if off = 0x0BC then (if one then s.clearMin else s)
    else plain
  | .mbx =>
    if off = 0x040 ∨ off = 0x044 then s.mbxFieldWrite off value
    else if off = 0x048 then s.doorbell
    else if off = 0x04C then (if one then s.cancelWrite else s)
    else plain
  | .fuse => if off = 0x044 then (if one then s.raiseSvn else s) else plain
  | .swt => if off = 0x064 then s.fenceCtrlWrite value else plain
  | .twn => if off = 0x040 then s.pinWrite p off value else plain
  | .feg => if off = 0x044 then (if one then s.fullCal else s) else plain
  | .skn => if off = 0x050 then (if one then s.commitRequest n else s) else plain
  | .trg => if off = 0x040 then s.trgCtrlWrite n value else if off = 0x048 then s.trgForceWrite n value else plain
  | .pool => if off < 0x050 then s.pinWrite p off value else plain
  | .adm => if off = 0x040 then s.reserveWrite value else if off = 0x060 then s.creditWrite value else plain
  | .sq => if off = 0x040 ∨ off = 0x044 then s.watermarkWrite off value else plain
  | .seg => if off = 0x048 then (if one then s.segCommand else s) else plain
  | .hbmg => if off = 0x058 then s.hbmFenceWrite value else plain
  | .grt => if 0x100 ≤ off ∧ off < 0x200 then s.ownerWrite ((off - 0x100) / 4) value else plain
  | .dmag => if off = 0x040 then s.dmaGlobalWrite value else plain
  | .dma => if off = 0x040 then (s.dmaCtrlWrite n value).replayChecks else if off = 0x044 then s.chainKick n else plain
  | .flw => if s.flowFenced ((off - 0x080) / 0x20) && decide (0x080 ≤ off) && decide (off < 0x100) then s else plain
  | .svc | .fe | .wr | .hbm => plain

/-- A counter or a timer of pool page `n` is loaded through the pair at `off`; none elsewhere (R191, R192).
DEDUCED, log entry 21. -/
def State.poolLoad (s : State) (n off value : Nat) : Option State :=
  if 0x300 ≤ off ∧ off < 0x400 ∧ off % 32 = 0x10 then
    let i := 4 * n + (off - 0x300) / 32 % 4
    if off < 0x380 then some (s.putCounter i (value % 2 ^ 48) (s.is (TRG_CT_STATUS_RUNNING.res i)))
    else some (s.putTimer i (value % 2 ^ 48) (s.is (TRG_TM_STATUS_RUNNING.res i)))
  else none

/-- A completed write of the 64-bit pair whose low half stands at `off` (R48). -/
def State.pairWrite (s : State) (c : PageClass) (n p off value : Nat) : State :=
  let plain := s.assignPair p off value
  match c with
  | .time => if 0x080 ≤ off ∧ off < 0x0C0 then s.alarmWrite ((off - 0x080) / 16) (·.assignPair p off value) else plain
  | .life => if s.holdsCnt p off then plain.lifeEdit else plain
  | .pwr => if off = 0x070 then s.skeinGateWrite false value else plain
  | .wr => if off = 0x320 then s.releasedWrite value else plain
  | .grt => if off = 0x050 then s.windowWrite (BitVec.ofNat 64 value) else plain
  | .pool => (s.poolLoad n off value).getD plain
  | _ => plain

/-- The low half of a pair as a write of the high half finds it: held (R48), else as it stands. -/
def State.lowHalf (s : State) (p off : Nat) : Nat :=
  match sget s.heldLow (pairKey p off) 0 with
  | 0 => s.mergeBase p off
  | v + 1 => v

/-- Hold the low half of a pair. -/
def State.holdLow (s : State) (p off v : Nat) : State := { s with heldLow := sput s.heldLow (pairKey p off) 0 v }

/-- A write of the bytes `mask` to the block location at `off`, as its kinds and width give it (R9, R48, R50). -/
def State.regWrite (s : State) (c : PageClass) (n p off value mask : Nat) : State :=
  let parts := s.shownAt p off
  let narrow := mask != 0xF
  if (parts.any (fun q => q.field.kind == .cmd || q.field.kind == .key)) && narrow then s.accessErr p off
  else if pairHalf p off false then
    (if s.holdsCnt p off && narrow then s
      else if parts.any (fun q => q.field.kind == .cfg || q.field.kind == .shd || q.field.kind == .cnt) then
        s.holdLow p off (mergeBytes (s.lowHalf p off) value mask + 1)
      else s)
  else if pairHalf p off true then
    (if s.holdsCnt p off && narrow then s
      else
        let v := s.lowHalf p (off - 4) + 2 ^ 32 * mergeBytes (s.mergeBase p off) value mask
        (s.holdLow p (off - 4) 0).pairWrite c n p (off - 4) v)
  else if s.holdsCnt p off && narrow then s
  else
    let v := mergeBytes (s.mergeBase p off) value mask
    if c == .hbmg && off == 0x040 then s.hbmCtrlWrite v mask else s.blockWrite c n p off v

/-- A register stands at the block location, its own or a snapshot copy (R51, R498). -/
def State.registerAt (s : State) (c : PageClass) (p off : Nat) : Bool :=
  let x := if copyOff c off then off - 0x400 else off
  decide (0x040 ≤ off) && (eventBits c x != 0 || !(s.shownAt p x).isEmpty)

/-- A write to a location of the page reaches it. DEDUCED, log entry 16. -/
def State.landWrite (s : State) (p off value mask : Nat) : State :=
  match pageOf p with
  | none => s
  | some (c, n) =>
    if off < 0x040 then s.headerWrite c p off value mask
    else if copyOff c off then s
    else if eventBits c off ≠ 0 then (if latchOff off then s else s.enableWrite c p off value mask)
    else if (s.shownAt p off).isEmpty then s
    else s.regWrite c n p off value mask

/-! ### Posted writes (R56) -/

/-- The block location takes posted writes. -/
def postedAt (c : PageClass) (off : Nat) : Bool :=
  match c with
  | .life | .svc | .hbm | .hbmg => true
  | .fe => off == 0x0C4
  | .skn => off == 0x04C
  | _ => false

/-- A narrow write to a register with a CMD field is refused on arrival (R50). -/
def State.tooNarrow (s : State) (p off mask : Nat) : Bool :=
  mask != 0xF && (s.shownAt p off).any (fun q => q.field.kind == .cmd)

/-- A write of the bytes `mask` to one location, past the page's rules; where no register stands it is ignored without
error (R51). DEDUCED, log entry 16. -/
def State.arriveWrite (s : State) (p off value mask : Nat) : State :=
  match pageOf p with
  | none => s
  | some (c, n) =>
    if mask = 0 then s
    else if off < 0x040 then s.headerWrite c p off value mask
    else if !s.registerAt c p off then s
    else if s.refuses c n off (mergeBytes (s.mergeBase p off) value mask) || s.tooNarrow p off mask then s.accessErr p off
    else if postedAt c off && !copyOff c off && !(s.shownAt p off).isEmpty then
      { (s.set (busyOf p) 1) with posted := s.posted ++ [⟨p, off, mask, value⟩] }
    else s.landWrite p off value mask

/-- POSTED_WRITE_LANDS: what has been posted to a page reaches its destination, and BUSY clears (R56). -/
def execPostedWriteLands (page : BitVec 12) (s : State) : Host.Outcome State Fault Refusal :=
  let p := page.toNat
  let mine := s.posted.filter (fun w => w.page == p)
  let s1 := forEach mine { s with posted := s.posted.filter (fun w => w.page != p) } (fun w s => s.landWrite w.page w.off w.data w.be)
  .next (s1.set (busyOf p) 0)

/-! ### Requests -/

/-- The enabled bytes of a request are contiguous: where they begin and what they are; none otherwise.
DESIGN CHOICE, log entry 17. -/
def enabledRun : List (Option Byte) → Option (Nat × List Byte)
  | [] => some (0, [])
  | none :: t => (enabledRun t).map (fun r => (r.1 + 1, r.2))
  | some b :: t =>
    let r := t.takeWhile (·.isSome)
    if (t.drop r.length).any (·.isSome) then none else some (0, b :: r.filterMap id)

/-- A write request to the locations at `base` and `base + 4` of page `p`, past the page lock: dropped where it writes a
block register of a fenced or a busy page (R51, R52, R56). DEDUCED, log entry 15. -/
def State.wordsWrite (s : State) (p base value lo hi : Nat) : State :=
  let stands : Nat → Nat → Bool := fun off mask => mask != 0 && (match pageOf p with
    | some (c, _) => s.registerAt c p off
    | none => false)
  let at_ := if stands base lo then base else base + 4
  let any := stands base lo || stands (base + 4) hi
  if any && s.is (fencedOf p) then s.accessErr p at_
  else if any && s.is (busyOf p) then s.lostWrite p at_
  else (s.arriveWrite p base (value % 2 ^ 32) lo).arriveWrite p (base + 4) (value / 2 ^ 32) hi

/-- A write request reaches page `p`: `shape` says that R35 or R50 rejects it. The page lock comes first (R53 to R55). -/
def State.pageWrite (s : State) (p at_ value lo hi : Nat) (shape : Bool) : State :=
  let base := at_ / 8 * 8
  let key := base == 0x018 && lo != 0
  let relocked := s.set (unlockedOf p) 0
  if (pageOf p).isNone then s
  else if s.pageLocked p && !key then s.lockedWrite p at_
  else if shape then relocked.accessErr p at_
  else if key then
    let s1 := s.unlockBytes p (value % 2 ^ 32) lo
    if s.pageLocked p && hi != 0 then s1.lockedWrite p 0x01C else s1
  else relocked.wordsWrite p base value lo hi

/-- A host write of BAR0 at `addr`: the bytes with their enables (R35, R50). DEDUCED, log entry 15. -/
def State.bar0Write (s : State) (addr : Nat) (data : List (Option Byte)) : State :=
  match enabledRun data with
  | some (k, bytes) =>
    let a := (addr + k) % 4096
    if bytes.isEmpty then s
    else
      let base := a / 8 * 8
      s.pageWrite (addr / 4096) a (ofBytes bytes * 2 ^ (8 * (a % 8))) (spanMask base a bytes.length)
        (spanMask (base + 4) a bytes.length) (badSpan addr data.length)
  | none => s.pageWrite (addr / 4096) (addr % 4096) 0 0xF 0 true

/-- REGISTER_WRITE: a host write of BAR0 or BAR4 (R9, R35, R36, R45 to R57). DESIGN CHOICE, log entry 17. -/
def execRegisterWrite (bar : Bar) (addr : BitVec 24) (data : List (Option Byte)) (s : State) :
    Host.Outcome State Fault Refusal :=
  if 4096 < data.length ∨ (bar = .bar4 ∧ 0x10000 < addr.toNat + data.length) then .fault .illFormed
  else if !s.hostOpen || s.paused then .next s
  else match bar with
    | .bar0 => .next (s.bar0Write addr.toNat data)
    | .bar4 => .next (s.onLink (·.bar4Write addr.toNat data))

/-- PAGE_UNLOCK: a 32-bit host write to PAGE_UNLOCK of a page (R54, R55). -/
def execPageUnlock (page : BitVec 12) (value : DWord) (s : State) : Host.Outcome State Fault Refusal :=
  .next (if s.hostOpen && !s.paused && (pageOf page.toNat).isSome then s.unlockWrite page.toNat value.toNat else s)

/-- EVT_FORCE: a host write to EVT_FORCE (R69). -/
def execEvtForce (value : DWord) (s : State) : Host.Outcome State Fault Refusal :=
  .next (s.gated (PageClass.page .evt 0) 0x048 (·.evtForce value.toNat))

/-! ### Idle time (R7, R70, R83) -/

/-- One FCLK cycle passes with no command waiting: time moves on, never past the end of a frame whose boundary is still
to come. Before the timebase is valid its time stays at its origin. On bypass the cycle is counted (R65), and the era
advances where the timestamp wraps (R87). DESIGN CHOICE, log entry 5. -/
def State.idle (s : State) : State :=
  if s.onBypass then
    let s1 := s.onClk (fun c => { c with bypassCycles := c.bypassCycles + 1 })
    if s.is TIME_STATUS_VALID.one then s1.reach (s.now + 8 * fclkTicks) else s1
  else if !s.is TIME_STATUS_VALID.one then s
  else { s with now := min (s.now + fclkTicks) (max s.now (s.clk.frameAt + frameTicks - fclkTicks)) }

end Sys2Proof.Machine
end

