-- ==== Sys2Proof/Machine/Dispatch.lean ====
section
/-! DEFINITION. Dispatch: one arm per command, each a direct call of its meaning. -/

namespace Sys2Proof.Machine

/-- The effect of a command on everything but the queue. -/
def exec (i : Instr) (s : State) : Host.Outcome State Fault Refusal :=
  match i with
  | .perstN low => Sys2Proof.Machine.execPerstN s low
  | .functionLevelReset => Sys2Proof.Machine.execFunctionLevelReset s
  | .configurationRequest write reg value => Sys2Proof.Machine.execConfigurationRequest write reg value s
  | .pcieLinkChange up lanes speed => Sys2Proof.Machine.execPcieLinkChange up lanes speed s
  | .apertureRead off len findings => Sys2Proof.Machine.execApertureRead off len s findings
  | .apertureWrite off data findings => Sys2Proof.Machine.execApertureWrite off data s findings
  | .registerWrite bar addr data => Sys2Proof.Machine.execRegisterWrite bar addr data s
  | .pageUnlock page value => Sys2Proof.Machine.execPageUnlock page value s
  | .eventLatchRead addr len bar => Sys2Proof.Machine.execEventLatchRead addr len s bar
  | .pairLowHalfRead addr len => Sys2Proof.Machine.execPairLowHalfRead addr len s
  | .postedWriteLands page => Sys2Proof.Machine.execPostedWriteLands page s
  | .evtForce value => Sys2Proof.Machine.execEvtForce value s
  | .vectorUnmask v => Sys2Proof.Machine.execVectorUnmask v s
  | .msixMessageSend v => Sys2Proof.Machine.execMsixMessageSend v s
  | .holdoffExpiry v => Sys2Proof.Machine.execHoldoffExpiry v s
  | .snapRequest => Sys2Proof.Machine.execSnapRequest s
  | .snapshotTaken => Sys2Proof.Machine.execSnapshotTaken s
  | .divApply => Sys2Proof.Machine.execDivApply s
  | .dividersApplied => Sys2Proof.Machine.execDividersApplied s
  | .lockStepDone info => Sys2Proof.Machine.execLockStepDone info s
  | .lockStepTimeout => Sys2Proof.Machine.execLockStepTimeout s
  | .lockRetry => Sys2Proof.Machine.execLockRetry s
  | .relock value => Sys2Proof.Machine.execRelock value s
  | .refLoss age word => Sys2Proof.Machine.execRefLoss age word s
  | .lockLoss age word => Sys2Proof.Machine.execLockLoss age word s
  | .selfRefreshEntered => Sys2Proof.Machine.execSelfRefreshEntered s
  | .holdoverLimit => Sys2Proof.Machine.execHoldoverLimit s
  | .refReturn => Sys2Proof.Machine.execRefReturn s
  | .eraAdvance => Sys2Proof.Machine.execEraAdvance s
  | .alarmFire n => Sys2Proof.Machine.execAlarmFire n s
  | .calSecond => Sys2Proof.Machine.execCalSecond s
  | .syncArm value => Sys2Proof.Machine.execSyncArm value s
  | .syncDisarm value => Sys2Proof.Machine.execSyncDisarm value s
  | .syncInPulse level => Sys2Proof.Machine.execSyncInPulse s level
  | .syncOutPulse value => Sys2Proof.Machine.execSyncOutPulse value s
  | .calendarWrite value => Sys2Proof.Machine.execCalendarWrite value s
  | .wearCounterWrite counter value => Sys2Proof.Machine.execWearCounterWrite counter value s
  | .powerOnSecond => Sys2Proof.Machine.execPowerOnSecond s
  | .hbmWearReport => Sys2Proof.Machine.execHbmWearReport s
  | .thermalSample => Sys2Proof.Machine.execThermalSample s
  | .journalPeriod => Sys2Proof.Machine.execJournalPeriod s
  | .journalCommit => Sys2Proof.Machine.execJournalCommit s
  | .journalCommitDone ok => Sys2Proof.Machine.execJournalCommitDone ok s
  | .vbatLow => Sys2Proof.Machine.execVbatLow s
  | .xtalStop => Sys2Proof.Machine.execXtalStop s
  | .probeEdge skein ch level time => Sys2Proof.Machine.execProbeEdge skein ch level time s
  | .overRange input => Sys2Proof.Machine.execOverRange input s
  | .fullCal => Sys2Proof.Machine.execFullCal s
  | .fullCalDone results => Sys2Proof.Machine.execFullCalDone results s
  | .bgCalPassDone results => Sys2Proof.Machine.execBgCalPassDone results s
  | .selfCheckStart skein => Sys2Proof.Machine.execSelfCheckStart skein s
  | .selfCheckDone stuck opened => Sys2Proof.Machine.execSelfCheckDone stuck opened s
  | .frameBoundary findings => Sys2Proof.Machine.execFrameBoundary findings s
  | .stateFrameBoundary skein differs => Sys2Proof.Machine.execStateFrameBoundary skein differs s
  | .epochBoundary counts => Sys2Proof.Machine.execEpochBoundary counts s
  | .sampleEvaluation => Sys2Proof.Machine.execSampleEvaluation s
  | .timerExpire k => Sys2Proof.Machine.execTimerExpire k s
  | .counterTarget k => Sys2Proof.Machine.execCounterTarget k s
  | .counterSaturation c => Sys2Proof.Machine.execCounterSaturation c s
  | .trgArm n value => Sys2Proof.Machine.execTrgArm n value s
  | .trgDisarm n value => Sys2Proof.Machine.execTrgDisarm n value s
  | .forcePulse n value => Sys2Proof.Machine.execForcePulse n value s
  | .trigInEdge k level => Sys2Proof.Machine.execTrigInEdge k level s
  | .xtrigEdge k low => Sys2Proof.Machine.execXtrigEdge k low s
  | .pinPulseEnd pin n => Sys2Proof.Machine.execPinPulseEnd pin n s
  | .holdLimit k => Sys2Proof.Machine.execHoldLimit k s
  | .holdCeiling k => Sys2Proof.Machine.execHoldCeiling k s
  | .holdReleaseNFall => Sys2Proof.Machine.execHoldReleaseNFall s
  | .holdReleaseNRise => Sys2Proof.Machine.execHoldReleaseNRise s
  | .holdGapEnd k => Sys2Proof.Machine.execHoldGapEnd k s
  | .replayUnit n => Sys2Proof.Machine.execReplayUnit n s
  | .sessionCloseDone n => Sys2Proof.Machine.execSessionCloseDone n s
  | .admReserveWrite value => Sys2Proof.Machine.execAdmReserveWrite value s
  | .admCreditWrite value => Sys2Proof.Machine.execAdmCreditWrite value s
  | .budgetRebuild => Sys2Proof.Machine.execBudgetRebuild s
  | .writerSlot owner findings => Sys2Proof.Machine.execWriterSlot owner findings s
  | .releasedWrite value => Sys2Proof.Machine.execReleasedWrite value s
  | .ledgerRecordWrite n => Sys2Proof.Machine.execLedgerRecordWrite n s
  | .segCmdRelease => Sys2Proof.Machine.execSegCmdRelease s
  | .hbmBurstAccept addr data poisoned => Sys2Proof.Machine.execHbmBurstAccept addr data poisoned s
  | .hbmReadAccept addr => Sys2Proof.Machine.execHbmReadAccept addr s
  | .hbmIssue pc parityError => Sys2Proof.Machine.execHbmIssue pc parityError s
  | .hbmReadData pc finding => Sys2Proof.Machine.execHbmReadData pc finding s
  | .refreshWindow pc => Sys2Proof.Machine.execRefreshWindow pc s
  | .retrainingPause pc margin lanes => Sys2Proof.Machine.execRetrainingPause pc margin lanes s
  | .scrubRead pc burst finding => Sys2Proof.Machine.execScrubRead pc burst finding s
  | .statusPoll pc answered => Sys2Proof.Machine.execStatusPoll pc answered s
  | .readTimeout pc => Sys2Proof.Machine.execReadTimeout pc s
  | .stackCatastrophicTrip k => Sys2Proof.Machine.execStackCatastrophicTrip k s
  | .stackTempRead k temp => Sys2Proof.Machine.execStackTempRead k temp s
  | .hbmFenceGo value => Sys2Proof.Machine.execHbmFenceGo value s
  | .hbmTrainingDone untrainable => Sys2Proof.Machine.execHbmTrainingDone untrainable s
  | .hbmIdleSelfRefresh pc => Sys2Proof.Machine.execHbmIdleSelfRefresh pc s
  | .hbmWakeReady untrainable => Sys2Proof.Machine.execHbmWakeReady untrainable s
  | .grottoHandover b value => Sys2Proof.Machine.execGrottoHandover b value s
  | .handoverComplete b => Sys2Proof.Machine.execHandoverComplete b s
  | .grottoFillDone b => Sys2Proof.Machine.execGrottoFillDone b s
  | .grottoAccess port b word op enables data finding stalls => Sys2Proof.Machine.execGrottoAccess port b word op enables data finding s stalls
  | .hostWindowRead finding => Sys2Proof.Machine.execHostWindowRead finding s
  | .hostWindowWrite data => Sys2Proof.Machine.execHostWindowWrite data s
  | .swatchPassStart => Sys2Proof.Machine.execSwatchPassStart s
  | .swatchWindow result => Sys2Proof.Machine.execSwatchWindow result s
  | .swatchPassEnd => Sys2Proof.Machine.execSwatchPassEnd s
  | .dmaStart n value => Sys2Proof.Machine.execDmaStart n value s
  | .dmaAbort n value => Sys2Proof.Machine.execDmaAbort n value s
  | .dmaAbortAll value => Sys2Proof.Machine.execDmaAbortAll value s
  | .dmaKill n value => Sys2Proof.Machine.execDmaKill n value s
  | .dmaEnable n value => Sys2Proof.Machine.execDmaEnable n value s
  | .chainKick n value => Sys2Proof.Machine.execChainKick n value s
  | .dmaGrant => Sys2Proof.Machine.execDmaGrant s
  | .descriptorFetch n words findings => Sys2Proof.Machine.execDescriptorFetch n words s findings
  | .dmaBurstComplete n how data findings => Sys2Proof.Machine.execDmaBurstComplete n how data s findings
  | .linkReadReturn n word error finding => Sys2Proof.Machine.execLinkReadReturn n word s error finding
  | .compressBlock u => Sys2Proof.Machine.execCompressBlock u s
  | .decompressBlock d => Sys2Proof.Machine.execDecompressBlock d s
  | .decompressTrailer d => Sys2Proof.Machine.execDecompressTrailer d s
  | .flowstoneParity unit => Sys2Proof.Machine.execFlowstoneParity unit s
  | .brownoutStart rail mv => Sys2Proof.Machine.execBrownoutStart rail mv s
  | .brownoutEnd since => Sys2Proof.Machine.execBrownoutEnd s since
  | .brownoutBindOff => Sys2Proof.Machine.execBrownoutBindOff s
  | .resetCrossing rail => Sys2Proof.Machine.execResetCrossing rail s
  | .aonSupplySwitch => Sys2Proof.Machine.execAonSupplySwitch s
  | .aonSupplyReturn => Sys2Proof.Machine.execAonSupplyReturn s
  | .parkComplete => Sys2Proof.Machine.execParkComplete s
  | .wakeComplete => Sys2Proof.Machine.execWakeComplete s
  | .skeinGateWrite spare value => Sys2Proof.Machine.execSkeinGateWrite spare value s
  | .sequencerGateWrite value => Sys2Proof.Machine.execSequencerGateWrite value s
  | .unitReadyChange unit cal => Sys2Proof.Machine.execUnitReadyChange unit cal s
  | .dieTempRead temps => Sys2Proof.Machine.execDieTempRead temps s
  | .dieTrip => Sys2Proof.Machine.execDieTrip s
  | .tripClear => Sys2Proof.Machine.execTripClear s
  | .porstN straps => Sys2Proof.Machine.execPorstN straps s
  | .startUpStepDone ok failed => Sys2Proof.Machine.execStartUpStepDone ok s failed
  | .clearMin value => Sys2Proof.Machine.execClearMin value s
  | .echo tag => Sys2Proof.Machine.execEcho tag s
  | .planAdmit tag args => Sys2Proof.Machine.execPlanAdmit tag args s
  | .planRelease tag args => Sys2Proof.Machine.execPlanRelease tag args s
  | .castOn tag args => Sys2Proof.Machine.execCastOn tag args s
  | .bindOff tag args => Sys2Proof.Machine.execBindOff tag args s
  | .arm tag args => Sys2Proof.Machine.execArm tag args s
  | .forceTrigger tag args => Sys2Proof.Machine.execForceTrigger tag args s
  | .segmentRelease tag args => Sys2Proof.Machine.execSegmentRelease tag args s
  | .quotaSet tag args => Sys2Proof.Machine.execQuotaSet tag args s
  | .park tag => Sys2Proof.Machine.execPark tag s
  | .wake tag => Sys2Proof.Machine.execWake tag s
  | .activate tag args => Sys2Proof.Machine.execActivate tag args s
  | .activationDone ok failed => Sys2Proof.Machine.execActivationDone ok s failed
  | .confirm tag => Sys2Proof.Machine.execConfirm tag s
  | .attest tag args => Sys2Proof.Machine.execAttest tag args s
  | .lifeRead tag => Sys2Proof.Machine.execLifeRead tag s
  | .calendarSet tag args => Sys2Proof.Machine.execCalendarSet tag args s
  | .selftestReport tag => Sys2Proof.Machine.execSelftestReport tag s
  | .fenceRead tag => Sys2Proof.Machine.execFenceRead tag s
  | .twinPair tag args => Sys2Proof.Machine.execTwinPair tag args s
  | .twinHandover tag => Sys2Proof.Machine.execTwinHandover tag s
  | .replaySetup tag args => Sys2Proof.Machine.execReplaySetup tag args s
  | .unknownCommand code tag => Sys2Proof.Machine.execUnknownCommand code tag s
  | .cancel => Sys2Proof.Machine.execCancel s
  | .heldProceed => Sys2Proof.Machine.execHeldProceed s
  | .watchdogRestart => Sys2Proof.Machine.execWatchdogRestart s
  | .watchdogFire => Sys2Proof.Machine.execWatchdogFire s
  | .lockstepMismatch => Sys2Proof.Machine.execLockstepMismatch s
  | .cpRestartDone loaded millis => Sys2Proof.Machine.execCpRestartDone loaded millis s
  | .readFrame count => Sys2Proof.Machine.execReadFrame s count
  | .readStatus => Sys2Proof.Machine.execReadStatus s
  | .unknownOpcode op => Sys2Proof.Machine.execUnknownOpcode op s
  | .kspFrameReject flaw code => Sys2Proof.Machine.execKspFrameReject flaw s code
  | .kspId tag => Sys2Proof.Machine.execKspId tag s
  | .kspStatus tag => Sys2Proof.Machine.execKspStatus tag s
  | .echoLite tag => Sys2Proof.Machine.execEchoLite tag s
  | .kspReset tag payload straps => Sys2Proof.Machine.execKspReset tag payload s straps
  | .resetReplyTimeout => Sys2Proof.Machine.execResetReplyTimeout s
  | .holdRelease tag => Sys2Proof.Machine.execHoldRelease tag s
  | .kspLifeRead tag => Sys2Proof.Machine.execKspLifeRead tag s
  | .dlBegin tag payload => Sys2Proof.Machine.execDlBegin tag payload s
  | .dlData tag payload => Sys2Proof.Machine.execDlData tag payload s
  | .dlEnd tag payload => Sys2Proof.Machine.execDlEnd tag payload s
  | .verify tag payload => Sys2Proof.Machine.execVerify tag payload s
  | .select tag payload => Sys2Proof.Machine.execSelect tag payload s
  | .kspActivate tag payload => Sys2Proof.Machine.execKspActivate tag payload s
  | .kspConfirm tag payload => Sys2Proof.Machine.execKspConfirm tag payload s
  | .kspAttest tag payload => Sys2Proof.Machine.execKspAttest tag payload s
  | .kspUnknownCode code tag => Sys2Proof.Machine.execKspUnknownCode code tag s
  | .forwardAbandonTimeout => Sys2Proof.Machine.execForwardAbandonTimeout s
  | .flashOpComplete ok => Sys2Proof.Machine.execFlashOpComplete ok s
  | .configRecordAppend => Sys2Proof.Machine.execConfigRecordAppend s
  | .rotationVisit => Sys2Proof.Machine.execRotationVisit s
  | .refereeDone spareFaulty => Sys2Proof.Machine.execRefereeDone spareFaulty s
  | .confirmationEnd => Sys2Proof.Machine.execConfirmationEnd s
  | .datapathTestDone unit passed => Sys2Proof.Machine.execDatapathTestDone unit passed s
  | .fenceUnit value => Sys2Proof.Machine.execFenceUnit value s
  | .fenceClear value => Sys2Proof.Machine.execFenceClear value s
  | .raiseSvn value => Sys2Proof.Machine.execRaiseSvn value s
  | .fuseBurnDone => Sys2Proof.Machine.execFuseBurnDone s
  | .hello payload => Sys2Proof.Machine.execHello payload s
  | .helloSend => Sys2Proof.Machine.execHelloSend s
  | .epoch payload => Sys2Proof.Machine.execEpoch payload s
  | .fault payload => Sys2Proof.Machine.execFault payload s
  | .handover payload => Sys2Proof.Machine.execHandover payload s
  | .command payload => Sys2Proof.Machine.execCommand payload s
  | .ack payload => Sys2Proof.Machine.execAck payload s
  | .twinResend => Sys2Proof.Machine.execTwinResend s
  | .linkSilence => Sys2Proof.Machine.execLinkSilence s
  | .epochMessageTimeout => Sys2Proof.Machine.execEpochMessageTimeout s
  | .laneDrop lane => Sys2Proof.Machine.execLaneDrop lane s
  | .vbatRestored => Sys2Proof.Machine.execVbatRestored s
  | .aonContentsLost => Sys2Proof.Machine.execAonContentsLost s
  | .resetCrossingRestart straps => Sys2Proof.Machine.execResetCrossingRestart s straps
  | .twinLinkUp => Sys2Proof.Machine.execTwinLinkUp s
  | .hbmRelockRetrainDone => Sys2Proof.Machine.execHbmRelockRetrainDone s
  | .stateClockEdge m rising time => Sys2Proof.Machine.execStateClockEdge m rising time s
  | .overRangeClear input => Sys2Proof.Machine.execOverRangeClear input s
  | .aerCorrectableError => Sys2Proof.Machine.execAerCorrectableError s
  | .bar0ReadAccessErr addr len => Sys2Proof.Machine.execBar0ReadAccessErr addr len s
  | .unsupportedRequest => Sys2Proof.Machine.execUnsupportedRequest s
  | .clkQualityAboveLimit rms peak => Sys2Proof.Machine.execClkQualityAboveLimit rms s peak

end Sys2Proof.Machine
end

