-- ==== Sys2Proof/Safety.lean ====
section
/-! DEFINITION. What a sound state is: every table in its canonical form, every register field within its width, every
bounded queue within its bound; and what the statements' frames compare. -/

namespace Sys2Proof.Machine

/-- A register store is well kept: its keys rise strictly and every cell holds a value of its width. -/
def wellKept (m : Sparse Nat) : Bool := rising m && m.all (fun p => decide (p.2 < 2 ^ keyWidth p.1))

/-- A byte or word memory is in canonical form: keys strictly rising, no entry equal to what an unlisted key reads as. -/
abbrev Memory.wf {α : Type} [DecidableEq α] (unlisted : α) (m : Sparse α) : Bool := canonical unlisted m

/-- Every journal record holds a well-kept part of the register store. -/
def Service.journalKept (v : Service) : Prop :=
  (∀ p ∈ v.flash.journal, ∀ r, p.2 = some r → wellKept r.cells = true) ∧
    ∀ r, v.commit = some r → wellKept r.cells = true

/-- A sound state. -/
structure State.Sound (s : State) : Prop where
  /-- Register fields stay within their widths (R9). -/
  regs    : wellKept s.regs = true
  shadow  : wellKept s.shadow = true
  staged  : wellKept s.staged = true
  /-- The HBM's bytes and burst marks, the grottos' words, BAR4 and the flash slots in canonical form. -/
  hbmMem  : Memory.wf 0 s.hbm.mem = true
  marks   : Memory.wf 0 s.hbm.marks = true
  grtMem  : Memory.wf 0 s.grt.mem = true
  bar4    : Memory.wf 0 s.link.bar4 = true
  slots   : Memory.wf 0xFF s.svc.flash.slots = true
  /-- No sequencer's queue holds more than 64 stitches (R204). -/
  queues  : ∀ n, (s.seq n).stitches.length ≤ 64
  journal : s.svc.journalKept

/-- The units that the state names by number exist. -/
structure State.Numbered (s : State) : Prop where
  /-- The skeins of an admitted plan are numbered 0 to 63 (R400). -/
  plans   : ∀ n p, sget s.rcd.plans n none = some p → ∀ k ∈ p.skeins, k.skein < 64
  /-- The window under test and those that wait for the retry round lie in grottos 0 to 63 (R454). -/
  window  : ∀ p, s.grt.window = some p → p.1 < 64
  retry   : ∀ p ∈ s.flt.retry, p.1 < 64
  /-- A replay's pre-history lies in grottos 0 to 63, and its channel, plus one, is at most 64 (R217, R402). -/
  lender  : ∀ n p, (s.seq n).lender = some p → p.1 < 64
  channel : ∀ n, (s.seq n).channel ≤ 64

/-! ### Frames -/

/-- Every register cell but those numbered in `ks` reads in `t` as in `s`. -/
def State.sameRegs (s : State) (ks : List Nat) (t : State) : Prop := ∀ f : Fld, f.key ∉ ks → t.get f = s.get f

/-- The cells that hold the latches of events. -/
def latches (ks : List Nat) : List Nat := ks.filterMap (fun k => (evPlace k).map (fun e => e.latchFld.key))

/-- Every byte and word of the HBM, the grottos, BAR4 and the flash slots reads in `t` as in `s`. -/
def State.sameMemory (s t : State) : Prop :=
  (∀ a, sget t.hbm.mem a 0 = sget s.hbm.mem a 0) ∧ (∀ a, sget t.grt.mem a 0 = sget s.grt.mem a 0) ∧
    (∀ a, sget t.link.bar4 a 0 = sget s.link.bar4 a 0) ∧ (∀ a, sget t.svc.flash.slots a 0xFF = sget s.svc.flash.slots a 0xFF)

/-- The host may write the block register at `off` of page `page`, and the write takes effect (R33, R52 to R57). -/
def State.admits (s : State) (page : Nat) : Bool :=
  s.hostOpen && !s.paused && !s.pageLocked page && !s.is (fencedOf page) && !s.is (busyOf page)

/-- The endpoint but for the messages waiting, pending or merged. -/
def Link.sameButMessages (l m : Link) : Prop := m = { l with pba := m.pba, waiting := m.waiting, merged := m.merged }

/-- The state but for its registers and the endpoint's messages. -/
def State.sameButRegs (s t : State) : Prop := t = { s with regs := t.regs, link := t.link } ∧ s.link.sameButMessages t.link

/-! ### Plain registers -/

/-- Configuration fields, of single registers, whose write has no further effect. -/
def plainFields : List RegField :=
  [SYS_APERTURE_CTRL, EVT_CTRL, EVT_HOLDOFF, CLK_QUALITY_LIMIT_TDC_RMS_LIMIT,
    CLK_QUALITY_LIMIT_PHASE_RMS_LIMIT, CLK_DIV_NEXT_PCLK_DIV, CLK_DIV_NEXT_CCLK_DIV, TIME_SYNC_ERA, FEG_CTRL_BG_INTERVAL,
    FEG_CTRL_CHECK_EN, FEG_CTRL_BG_CAL_EN, SQ_INDEX, WR_LANE_INDEX, SEG_INDEX, GRT_INDEX, PWR_BO_CTRL, PWR_TEMP_INDEX,
    PWR_TEMP_LIMIT_COLD, PWR_TEMP_LIMIT_HOT, SWT_CTRL_DP_EN, SWT_CTRL_SWATCH_EN, SWT_CTRL_AUTO_REPLACE, SWT_CTRL_ROT_EN,
    TWN_PAIR_INDEX]

/-- Configuration fields of single registers that take posted writes without further effect, with their pages' instances. -/
def plainPosted : List (RegField × Nat) :=
  [(LIFE_SECTOR_INDEX, 0), (LIFE_OVR_INDEX, 0), (SVC_CTRL_ALERT_EN, 0), (SVC_CTRL_DL_LOCK, 0), (HBM_G_SCRUB, 0),
    (HBM_RETAIN, 0), (HBM_RETAIN, 1), (HBM_RETAIN, 2), (HBM_RETAIN, 3)]

/-! ### Commands of the mailbox and of the service port -/

/-- The mailbox takes a command: the host may ring the doorbell and STATE is IDLE (R395, R396). -/
def State.takes (s : State) : Bool := s.admits (PageClass.page .mbx 0) && s.get MBX_STATUS_STATE.one == 1

/-- The command `code`, `tag` has ended with RESULT `result` and a reply, in the bulk buffer or in the reply block; a
command that the service port forwarded replies there (R395, R398, R419). -/
def State.ended (s t : State) (code : Nat) (tag : BitVec 16) (result : Nat) (bulk : Bool) (reply : List Byte) : Prop :=
  t.get MBX_STATUS_TAG.one = tag.toNat ∧ t.get MBX_STATUS_RESULT.one = result ∧ t.get MBX_STATUS_STATE.one = 1 ∧
    t.get MBX_COMPLETED.one = (s.get MBX_COMPLETED.one + 1) % 2 ^ 32 ∧ t.mbx.cur = none ∧
    (result = 0 → t.get MBX_LAST_APPLIED_CODE.one = code ∧ t.get MBX_LAST_APPLIED_TAG.one = tag.toNat) ∧
    (s.svc.fromPort = false → t.latched 32 = true ∧ t.get MBX_REPLY_CODE.one = code ∧ t.is MBX_REPLY_BULK.one = bulk ∧
      t.get MBX_REPLY_LEN.one = reply.length ∧
      t.bar4Bytes (if bulk then 0x6000 else 0x5000) reply.length = reply)

/-- The command `code`, `tag` is in progress with STATE `state`. -/
def State.serves (t : State) (code : Nat) (tag : BitVec 16) (args : List Byte) (state : Nat) : Prop :=
  t.mbx.cur = some ⟨code, tag.toNat, args⟩ ∧ t.get MBX_STATUS_STATE.one = state

/-- The service port takes a request (R414). -/
def State.portFree (s : State) : Bool := !s.portTaken

/-- The request `code`, `tag` has been answered with RESULT `result` and a payload (R415, R417). -/
def State.answered (t : State) (code : Nat) (tag : BitVec 16) (result : Nat) (payload : List Byte) : Prop :=
  t.svc.port = none ∧ t.svc.replies = replyFrames (payload.length / 4096) code tag.toNat result payload

end Sys2Proof.Machine
end

