-- ==== Sys2Proof/WellFormed.lean ====
section
/-! DEFINITION. Well-formed commands: the bounds on operands that the types of `Syntax` do not state. A command that
breaks one is no command the spec lets an agent send; its meaning stops with the fault `illFormed`. -/

namespace Sys2Proof

open Sys2Proof.Machine

/-- The operands of a command are ones an agent can send: a BAR request, a KSP payload and a command's arguments hold at
most 4,096 bytes (R36, R395, R413), a message of the twin link has its type's layout (R464), an HBM burst is 64 aligned
bytes (R269), and a row for unknown codes carries none of the codes the spec lists (R398, R411, R417).
DESIGN CHOICE and DEDUCED, log entries 24, 42. -/
def Instr.wellFormed : Instr → Bool
  | .pcieLinkChange up _ speed => !up || speed.val != 0
  | .apertureWrite _ data _ => decide (data.length ≤ 4096)
  | .registerWrite bar addr data => decide (data.length ≤ 4096) && (bar != .bar4 || decide (addr.toNat + data.length ≤ 0x10000))
  | .hbmBurstAccept addr data _ => data.length == 64 && addr.toNat % 64 == 0
  | .scrubRead _ burst _ => decide (burst.toNat < pcBytes / 64)
  | .dieTempRead temps => temps.length == 16
  | .planAdmit _ args => decide (args.length ≤ 4096)
  | .planRelease _ args => decide (args.length ≤ 4096)
  | .castOn _ args => decide (args.length ≤ 4096)
  | .bindOff _ args => decide (args.length ≤ 4096)
  | .arm _ args => decide (args.length ≤ 4096)
  | .forceTrigger _ args => decide (args.length ≤ 4096)
  | .segmentRelease _ args => decide (args.length ≤ 4096)
  | .quotaSet _ args => decide (args.length ≤ 4096)
  | .activate _ args => decide (args.length ≤ 4096)
  | .attest _ args => decide (args.length ≤ 4096)
  | .calendarSet _ args => decide (args.length ≤ 4096)
  | .twinPair _ args => decide (args.length ≤ 4096)
  | .replaySetup _ args => decide (args.length ≤ 4096)
  | .unknownCommand code _ => !commandCodes.contains code.toNat
  | .unknownOpcode op => !portOpcodes.contains op.toNat
  | .kspReset _ payload _ => decide (payload.length ≤ 4096)
  | .dlBegin _ payload => decide (payload.length ≤ 4096)
  | .dlData _ payload => decide (payload.length ≤ 4096)
  | .dlEnd _ payload => decide (payload.length ≤ 4096)
  | .verify _ payload => decide (payload.length ≤ 4096)
  | .select _ payload => decide (payload.length ≤ 4096)
  | .kspActivate _ payload => decide (payload.length ≤ 4096)
  | .kspConfirm _ payload => decide (payload.length ≤ 4096)
  | .kspAttest _ payload => decide (payload.length ≤ 4096)
  | .kspUnknownCode code _ => !kspCodes.contains code.toNat
  | .hello m => (twinParse 1 m).isSome
  | .epoch m => (twinParse 2 m).isSome
  | .fault m => (twinParse 3 m).isSome
  | .handover m => (twinParse 4 m).isSome
  | .command m => (twinParse 5 m).isSome
  | .ack m => (twinParse 6 m).isSome
  | .bar0ReadAccessErr _ len => decide (len ≤ 4096)
  | .eventLatchRead addr len bar => bar != .bar4 || decide (addr.toNat + len.val ≤ 0x10000)
  | .clkQualityAboveLimit rms peak => decide (rms.toNat ≤ peak.toNat)
  | .perstN _ | .functionLevelReset | .configurationRequest _ _ _ | .apertureRead _ _ _ | .pageUnlock _ _
  | .pairLowHalfRead _ _ | .postedWriteLands _ | .evtForce _ | .vectorUnmask _
  | .msixMessageSend _ | .holdoffExpiry _ | .snapRequest | .snapshotTaken | .divApply | .dividersApplied
  | .lockStepDone _ | .lockStepTimeout | .lockRetry | .relock _ | .refLoss _ _ | .lockLoss _ _ | .selfRefreshEntered
  | .holdoverLimit | .refReturn | .eraAdvance | .alarmFire _ | .calSecond | .syncArm _ | .syncDisarm _ | .syncInPulse _
  | .syncOutPulse _ | .calendarWrite _ | .wearCounterWrite _ _ | .powerOnSecond | .hbmWearReport | .thermalSample
  | .journalPeriod | .journalCommit | .journalCommitDone _ | .vbatLow | .xtalStop | .probeEdge _ _ _ _ | .overRange _
  | .fullCal | .fullCalDone _ | .bgCalPassDone _ | .selfCheckStart _ | .selfCheckDone _ _ | .frameBoundary _
  | .stateFrameBoundary _ _ | .epochBoundary _ | .sampleEvaluation | .timerExpire _ | .counterTarget _
  | .counterSaturation _ | .trgArm _ _ | .trgDisarm _ _ | .forcePulse _ _ | .trigInEdge _ _ | .xtrigEdge _ _
  | .pinPulseEnd _ _ | .holdLimit _ | .holdCeiling _ | .holdReleaseNFall | .holdReleaseNRise | .holdGapEnd _
  | .replayUnit _ | .sessionCloseDone _ | .admReserveWrite _ | .admCreditWrite _ | .budgetRebuild | .writerSlot _ _
  | .releasedWrite _ | .ledgerRecordWrite _ | .segCmdRelease | .hbmReadAccept _ | .hbmIssue _ _ | .hbmReadData _ _
  | .refreshWindow _ | .retrainingPause _ _ _ | .statusPoll _ _ | .readTimeout _ | .stackCatastrophicTrip _
  | .stackTempRead _ _ | .hbmFenceGo _ | .hbmTrainingDone _ | .hbmIdleSelfRefresh _ | .hbmWakeReady _
  | .grottoHandover _ _ | .handoverComplete _ | .grottoFillDone _ | .grottoAccess _ _ _ _ _ _ _ _ | .hostWindowRead _
  | .hostWindowWrite _ | .swatchPassStart | .swatchWindow _ | .swatchPassEnd | .dmaStart _ _ | .dmaAbort _ _
  | .dmaAbortAll _ | .dmaKill _ _ | .dmaEnable _ _ | .chainKick _ _ | .dmaGrant | .descriptorFetch _ _ _
  | .dmaBurstComplete _ _ _ _ | .linkReadReturn _ _ _ _ | .compressBlock _ | .decompressBlock _ | .decompressTrailer _
  | .flowstoneParity _ | .brownoutStart _ _ | .brownoutEnd _ | .brownoutBindOff | .resetCrossing _ | .aonSupplySwitch
  | .aonSupplyReturn | .parkComplete | .wakeComplete | .skeinGateWrite _ _ | .sequencerGateWrite _
  | .unitReadyChange _ _ | .dieTrip | .tripClear | .porstN _ | .startUpStepDone _ _ | .clearMin _ | .echo _ | .park _
  | .wake _ | .activationDone _ _ | .confirm _ | .lifeRead _ | .selftestReport _ | .fenceRead _ | .twinHandover _
  | .cancel | .heldProceed | .watchdogRestart | .watchdogFire | .lockstepMismatch | .cpRestartDone _ _ | .readFrame _
  | .readStatus | .kspFrameReject _ _ | .kspId _ | .kspStatus _ | .echoLite _ | .resetReplyTimeout | .holdRelease _
  | .kspLifeRead _ | .forwardAbandonTimeout | .flashOpComplete _ | .configRecordAppend | .rotationVisit
  | .refereeDone _ | .confirmationEnd | .datapathTestDone _ _ | .fenceUnit _ | .fenceClear _ | .raiseSvn _
  | .fuseBurnDone | .helloSend | .twinResend | .linkSilence | .epochMessageTimeout | .laneDrop _ | .vbatRestored
  | .aonContentsLost | .resetCrossingRestart _ | .twinLinkUp | .hbmRelockRetrainDone | .stateClockEdge _ _ _
  | .overRangeClear _ | .aerCorrectableError | .unsupportedRequest => true

end Sys2Proof
end

