-- ==== Sys2Proof/Certificates/Slice0/Obligations.lean ====
section
/-! DEFINITION. The statements for the provers: what the spec's rules say each command does, what it leaves as it was, and
what every step keeps. -/

open Sys2Proof Sys2Proof.Machine

/-- A step is the command at the front of the queue, run on the state with the queue's rest; an empty queue lets time pass
(the model's choice, log entry 5). -/
def Obligations.StepRunsFrontCommand : Prop :=
  (∀ (c : Instr) (rest : List Instr) (s : State),
    step { s with pending := c :: rest } = exec c { s with pending := rest }) ∧
  ∀ s : State, s.pending = [] → ∃ t, step s = .next t ∧ s.now ≤ t.now ∧
    (s.onBypass = false → t = { s with now := t.now }) ∧
    (s.onBypass = true → t.clk = { s.clk with bypassCycles := s.clk.bypassCycles + 1 } ∧ s.sameRegs (latches [13]) t ∧
      ({ s with now := t.now, clk := t.clk } : State).sameButRegs t)

/-- R32: both resets mask every vector, clear the pending-bit array, reset the configuration space, and touch nothing but the
endpoint. -/
def Obligations.EndpointResetsTouchOnlyTheEndpoint : Prop :=
  (∀ s : State, ∀ c ∈ [Instr.perstN true, Instr.functionLevelReset], ∃ t, exec c s = .next t ∧
    t = { s with link := t.link } ∧
    (∀ v, t.link.isMasked v = true ∧ sget t.link.pba v 0 = 0 ∧ sget t.link.waiting v 0 = 0) ∧
    (∀ i, sget t.link.bars i 0 = 0) ∧ t.link.busMaster = false ∧ t.link.msixEnable = false ∧ t.link.dstate = .d0 ∧
    t.link.ready = s.link.ready ∧ t.link.bar4 = s.link.bar4 ∧
    t.link.tableAddr = s.link.tableAddr ∧ t.link.tableData = s.link.tableData ∧
    (c = .perstN true → t.link.inReset = true)) ∧
  ∀ s : State, exec (.perstN false) s = .next { s with link := { s.link with inReset := false } }

/-- R34, R31, R30, R67, R29: retry status until the endpoint is ready, then reads and writes; an unsupported request at
any time; SYS_LINK_STATUS follows the link. -/
def Obligations.ConfigurationRequestsAndLinkReports : Prop :=
  (∀ (s : State) (write : Bool) (reg : BitVec 12) (value : DWord), s.link.inReset = false → s.link.ready = false →
    exec (.configurationRequest write reg value) s =
      .next { s with link := { s.link with completion := .retryStatus, readData := [] } }) ∧
  (∀ (s : State) (reg : BitVec 12) (value : DWord), s.link.inReset = false → s.link.ready = true →
    ∃ t, exec (.configurationRequest false reg value) s = .next t ∧
      t = { s with drawn := s.drawn + 1, link := { s.link with completion := .success, readData := t.link.readData } } ∧
      t.link.readData.length = 4 ∧
      (reg.toNat / 4 = 0 → t.link.readData = toBytes 4 (0x1024 * 2 ^ 16 + Config.vendorId.toNat))) ∧
  (∀ (s : State) (reg : BitVec 12) (value : DWord), s.link.inReset = false → s.link.ready = true →
    ∃ t, exec (.configurationRequest true reg value) s = .next t ∧ t = { s with link := t.link } ∧
      t.link.completion = .success ∧ t.link.readData = [] ∧ t.link.bar4 = s.link.bar4 ∧
      t.link.tableAddr = s.link.tableAddr ∧ t.link.tableData = s.link.tableData ∧
      (reg.toNat / 4 = 1 → t.link = { s.link with completion := .success, readData := [], busMaster := bitOf value.toNat 2 })) ∧
  (∀ s : State, exec .unsupportedRequest s =
    .next { s with link := { s.link with completion := .unsupported, readData := [] } }) ∧
  (∀ s : State, ∃ t, exec .aerCorrectableError s = .next t ∧ t.link.aerCount = s.link.aerCount + 1 ∧ t.latched 3 = true ∧
    s.sameRegs (latches [3]) t ∧ ({ s with link := { s.link with aerCount := s.link.aerCount + 1 } } : State).sameButRegs t) ∧
  ∀ (s : State) (up : Bool) (lanes : Lanes) (speed : Fin 6), (up = true → speed.val ≠ 0) →
    ∃ t, exec (.pcieLinkChange up lanes speed) s = .next t ∧
      t.get SYS_LINK_STATUS_UP.one = flag up ∧
      t.get SYS_LINK_STATUS_WIDTH.one = (if up then laneCount lanes else 0) ∧
      t.get SYS_LINK_STATUS_SPEED.one = (if up then speed.val else 0) ∧
      t.get SYS_LINK_STATUS_DEGRADED.one = flag (up && (lanes != .x16 || speed.val != 5)) ∧
      ((t.get SYS_LINK_STATUS_UP.one ≠ s.get SYS_LINK_STATUS_UP.one ∨
        t.get SYS_LINK_STATUS_WIDTH.one ≠ s.get SYS_LINK_STATUS_WIDTH.one ∨
        t.get SYS_LINK_STATUS_SPEED.one ≠ s.get SYS_LINK_STATUS_SPEED.one ∨
        t.get SYS_LINK_STATUS_DEGRADED.one ≠ s.get SYS_LINK_STATUS_DEGRADED.one) → t.latched 3 = true) ∧
      s.sameRegs ([SYS_LINK_STATUS_UP.one, SYS_LINK_STATUS_WIDTH.one, SYS_LINK_STATUS_SPEED.one,
        SYS_LINK_STATUS_DEGRADED.one].map Fld.key ++ latches [3]) t ∧ s.sameButRegs t

/-- R61: the life of a message request. -/
def Obligations.MsixMessagesArePendedSentAndMerged : Prop :=
  (∀ (l : Link) (v : Nat), l.inReset = false → l.isMasked v = true → sget l.holding v 0 = 0 → l.request v = { l with pba := sput l.pba v 0 1 }) ∧
  (∀ (s : State) (v : Fin 64), s.hostOpen = true → s.paused = false →
    ∃ t, exec (.vectorUnmask v) s = .next t ∧ sget t.link.masked v.val 1 = 0 ∧ t = { s with link := t.link }) ∧
  (∀ (s : State) (v : Fin 64), s.hostOpen = true → s.paused = false → s.link.funcMask = false →
    sget s.link.pba v.val 0 = 1 → sget s.link.holding v.val 0 = 0 →
    ∃ t, exec (.vectorUnmask v) s = .next t ∧ t.link.isMasked v.val = false ∧ sget t.link.pba v.val 0 = 0 ∧
      sget t.link.waiting v.val 0 = sget s.link.waiting v.val 0 + 1 ∧ (∀ j, j ≠ v.val →
        sget t.link.masked j 1 = sget s.link.masked j 1 ∧ sget t.link.pba j 0 = sget s.link.pba j 0 ∧
        sget t.link.waiting j 0 = sget s.link.waiting j 0) ∧ t = { s with link := t.link } ∧
      t.link = { s.link with masked := t.link.masked, pba := t.link.pba, waiting := t.link.waiting }) ∧
  (∀ (s : State) (v : Fin 64), s.maySend = true → s.link.isMasked v.val = false → 0 < sget s.link.waiting v.val 0 →
    ∃ t, exec (.msixMessageSend v) s = .next t ∧ t.link.lastSent = some v.val ∧
      sget t.link.waiting v.val 0 = (if s.get EVT_HOLDOFF.one = 0 then sget s.link.waiting v.val 0 - 1 else 0) ∧
      t.link.hostOut = s.link.hostOut ++
        [⟨sget s.link.tableAddr v.val 0, toBytes 4 (sget s.link.tableData v.val 0), false, false, false⟩] ∧
      (s.get EVT_HOLDOFF.one ≠ 0 → sget t.link.holding v.val 0 = 1) ∧
      t.get (EVT_VEC_COUNT.elt v.val) = (s.get (EVT_VEC_COUNT.elt v.val) + 1) % 2 ^ 32 ∧
      s.sameRegs [(EVT_VEC_COUNT.elt v.val).key] t ∧ t = { s with regs := t.regs, link := t.link } ∧
      t.link.bar4 = s.link.bar4) ∧
  (∀ (s : State) (v : Fin 64), sget s.link.holding v.val 0 = 1 → ∃ t, exec (.holdoffExpiry v) s = .next t ∧
    sget t.link.holding v.val 0 = 0 ∧ sget t.link.merged v.val 0 = 0 ∧ t = { s with link := t.link } ∧
    (sget s.link.merged v.val 0 = 0 → sget t.link.waiting v.val 0 = sget s.link.waiting v.val 0)) ∧
  ∀ (s : State) (v : Fin 64), s.link.inReset = false → sget s.link.holding v.val 0 = 1 →
    sget s.link.merged v.val 0 = 1 → s.link.isMasked v.val = false →
    ∃ t, exec (.holdoffExpiry v) s = .next t ∧ sget t.link.holding v.val 0 = 0 ∧ sget t.link.merged v.val 0 = 0 ∧
      sget t.link.waiting v.val 0 = sget s.link.waiting v.val 0 + 1 ∧ t = { s with link := t.link } ∧
      t.link = { s.link with holding := t.link.holding, merged := t.link.merged, waiting := t.link.waiting }

/-- R54, R55, R69: the page guard's key, and the test events. -/
def Obligations.UnlockKeysAndForcedEvents : Prop :=
  (∀ (s : State) (page : BitVec 12) (value : DWord), s.hostOpen = true → s.paused = false → guardedPage page.toNat = true →
    value.toNat = page.toNat * 2 ^ 16 + 0x4B1D →
    ∃ t, exec (.pageUnlock page value) s = .next t ∧ t.pageLocked page.toNat = false ∧
      s.sameRegs [(unlockedOf page.toNat).key] t ∧ t = { s with regs := t.regs }) ∧
  (∀ (s : State) (page : BitVec 12) (value : DWord), s.hostOpen = true → s.paused = false → guardedPage page.toNat = true →
    value.toNat ≠ page.toNat * 2 ^ 16 + 0x4B1D →
    ∃ t, exec (.pageUnlock page value) s = .next t ∧ t.pageLocked page.toNat = true ∧
      t.get (wrongKeyOf page.toNat) = min (s.get (wrongKeyOf page.toNat) + 1) 255 ∧ t.latched 1 = true ∧
      s.sameRegs ([unlockedOf page.toNat, wrongKeyOf page.toNat, SYS_LAST_ERR_CAUSE.one, SYS_LAST_ERR_OFFSET.one,
        SYS_LAST_ERR_PAGE.one].map Fld.key ++ latches [1]) t ∧ s.sameButRegs t) ∧
  (∀ (s : State) (page : BitVec 12) (value : DWord), guardedPage page.toNat = false →
    exec (.pageUnlock page value) s = .next s) ∧
  ∀ (s : State) (value : DWord), s.admits (PageClass.page .evt 0) = true →
    ∃ t, exec (.evtForce value) s = .next t ∧ (∀ b < 14, bitOf value.toNat b = true → t.latched (498 + b) = true) ∧
      s.sameRegs ((unlockedOf (PageClass.page .evt 0)).key :: latches ((upto 14).map (498 + ·))) t ∧ s.sameButRegs t

/-- R9, R53, R43, R56: what a host write to a register does. -/
def Obligations.RegisterWritesReachTheirFields : Prop :=
  (∀ (s : State) (addr : BitVec 24) (data : List (Option Byte)), s.hostOpen = true → s.paused = false →
    data.length ≤ 4096 → exec (.registerWrite .bar0 addr data) s = .next (s.bar0Write addr.toNat data)) ∧
  (∀ (s : State) (f : RegField) (v : DWord), f ∈ plainFields → s.admits (f.cls.page 0) = true →
    ∃ t, exec (.registerWrite .bar0 (BitVec.ofNat 24 (f.cls.page 0 * 4096 + f.off)) ((toBytes 4 v.toNat).map some)) s = .next t ∧
      t.get f.one = field v.toNat f.lo f.width ∧ t.pageLocked (f.cls.page 0) = guardedPage (f.cls.page 0) ∧
      s.sameRegs ((unlockedOf (f.cls.page 0)).key :: (plainFields.filter (fun g => g.cls == f.cls && g.off == f.off)).map
        (fun g => g.one.key)) t ∧ t = { s with regs := t.regs }) ∧
  (∀ (s : State) (addr : BitVec 24) (data : List Byte), s.hostOpen = true → s.paused = false →
    s.pageLocked (addr.toNat / 4096) = true → data ≠ [] → addr.toNat % 8 + data.length ≤ 8 →
    addr.toNat % 4096 / 8 ≠ 0x018 / 8 →
    ∃ t, exec (.registerWrite .bar0 addr (data.map some)) s = .next t ∧
      t.get (accessErrOf (addr.toNat / 4096)) = 1 ∧ t.get SYS_LAST_ERR_CAUSE.one = 3 ∧
      t.get SYS_LAST_ERR_PAGE.one = addr.toNat / 4096 ∧ t.get SYS_LAST_ERR_OFFSET.one = addr.toNat % 4096 ∧
      t.latched 1 = true ∧ s.sameRegs ([accessErrOf (addr.toNat / 4096), SYS_LAST_ERR_CAUSE.one, SYS_LAST_ERR_PAGE.one,
        SYS_LAST_ERR_OFFSET.one].map Fld.key ++ latches [1]) t ∧ s.sameButRegs t) ∧
  (∀ (s : State) (x : BitVec 24) (data : List Byte), s.hostOpen = true → s.paused = false →
    (0x4000 ≤ x.toNat ∧ x.toNat + data.length ≤ 0x5000 ∨ 0x6000 ≤ x.toNat ∧ x.toNat + data.length ≤ 0xE000) →
    data.length ≤ 4096 →
    ∃ t, exec (.registerWrite .bar4 x (data.map some)) s = .next t ∧
      t = { s with link := { s.link with bar4 := t.link.bar4 } } ∧ t.bar4Bytes x.toNat data.length = data ∧
      (∀ y, y < x.toNat ∨ x.toNat + data.length ≤ y → t.bar4 y = s.bar4 y)) ∧
  (∀ (s : State) (page : BitVec 12), ∃ t, exec (.postedWriteLands page) s = .next t ∧ t.get (busyOf page.toNat) = 0) ∧
  ∀ (s : State) (f : RegField) (k : Nat) (v : DWord), (f, k) ∈ plainPosted →
    s.posted.filter (fun w => w.page == f.cls.page k) = [⟨f.cls.page k, f.off, 0xF, v.toNat⟩] →
    ∃ t, exec (.postedWriteLands (BitVec.ofNat 12 (f.cls.page k))) s = .next t ∧
      t.get (f.of k) = field v.toNat f.lo f.width ∧ t.posted = s.posted.filter (fun w => w.page != f.cls.page k) ∧
      s.sameRegs ((busyOf (f.cls.page k)).key :: (plainPosted.filter (fun g => g.1.cls == f.cls && g.1.off == f.off)).map
        (fun g => (g.1.of k).key)) t ∧ t = { s with regs := t.regs, posted := t.posted }

/-- R59, R48, R35, R36: what a host read does. -/
def Obligations.ReadsClearLatchesAndHoldHighHalves : Prop :=
  (∀ (s : State) (addr : BitVec 24) (len : Fin 4097), s.hostOpen = true → addr.toNat % 8 + len.val ≤ 8 →
    addr.toNat / 8 ≠ (grtPage * 4096 + 0x050) / 8 →
    ∃ t, exec (.eventLatchRead addr len) s = .next t ∧ t.link.completion = .success ∧
      t.link.readData.length = len.val ∧ t = { s with regs := t.regs, hiSnap := t.hiSnap, link := t.link } ∧
      t.link = { s.link with completion := t.link.completion, readData := t.link.readData }) ∧
  (∀ (s : State) (p : BitVec 12) (c : PageClass) (n : Nat), s.hostOpen = true → s.paused = false →
    pageOf p.toNat = some (c, n) →
    ∃ t, exec (.eventLatchRead (BitVec.ofNat 24 (p.toNat * 4096 + 0x010)) 4) s = .next t ∧
      t.link.completion = .success ∧ t.link.readData = toBytes 4 (eventValue s.get c p.toNat 0x010) ∧
      (∀ b < c.eventCount, t.get (eventCell p.toNat 0x010 b) = 0) ∧
      s.sameRegs ((upto c.eventCount).map (fun b => (eventCell p.toNat 0x010 b).key)) t ∧
      t = { s with regs := t.regs, link := { s.link with completion := .success, readData := t.link.readData } }) ∧
  (∀ (s : State) (x : BitVec 24) (len : Fin 4097), s.hostOpen = true → s.paused = false → x.toNat + len.val ≤ 0x10000 →
    exec (.eventLatchRead x len .bar4) s = .next { s with
      link := { s.link with completion := .success, readData := (upto len.val).map (fun i => s.link.bar4Shown (x.toNat + i)) } }) ∧
  (∀ (s : State) (addr : BitVec 24) (len : Fin 9), s.hostOpen = true → addr.toNat % 8 + len.val ≤ 8 →
    addr.toNat / 8 ≠ (grtPage * 4096 + 0x050) / 8 →
    ∃ t, exec (.pairLowHalfRead addr len) s = .next t ∧ t.link.completion = .success ∧
      t.link.readData.length = len.val ∧ t = { s with regs := t.regs, hiSnap := t.hiSnap, link := t.link } ∧
      t.link = { s.link with completion := t.link.completion, readData := t.link.readData }) ∧
  (∀ (s : State) (addr : BitVec 24), s.hostOpen = true → s.paused = false → addr.toNat % 8 = 0 →
    addr.toNat / 8 ≠ (grtPage * 4096 + 0x050) / 8 → pairHalf (addr.toNat / 4096) (addr.toNat % 4096) false = true →
    pairHalf (addr.toNat / 4096) (addr.toNat % 4096 + 4) true = true → 0x040 ≤ addr.toNat % 4096 →
    ∃ t, exec (.pairLowHalfRead addr 4) s = .next t ∧
      t.link.readData = toBytes 4 (s.readValue (addr.toNat / 4096) (addr.toNat % 4096)) ∧
      ∀ u : State, u.paused = false → u.hiSnap = t.hiSnap → u.readValue (addr.toNat / 4096) (addr.toNat % 4096 + 4) =
        s.locValue (addr.toNat / 4096) (addr.toNat % 4096 + 4)) ∧
  (∀ s : State, s.hostOpen = true → s.paused = false → s.is (fencedOf (PageClass.page .time 0)) = false →
    ∃ t, exec (.pairLowHalfRead 0x002040 4) s = .next t ∧ t.link.completion = .success ∧
      t.link.readData = toBytes 4 (s.timeNow % 2 ^ 32) ∧
      (∀ n, ({ t with now := n } : State).readValue (PageClass.page .time 0) 0x044 = s.timeNow / 2 ^ 32) ∧
      t = { s with hiSnap := t.hiSnap, link := { s.link with completion := .success, readData := t.link.readData } }) ∧
  ∀ (s : State) (addr : BitVec 24) (len : Nat), s.hostOpen = true → len ≤ 4096 →
    (pageOf (addr.toNat / 4096)).isSome = true →
    ∃ t, exec (.bar0ReadAccessErr addr len) s = .next t ∧ t.link.completion = .success ∧
      t.link.readData = List.replicate len 0 ∧ t.get (accessErrOf (addr.toNat / 4096)) = 1 ∧ t.latched 1 = true ∧
      s.sameRegs ([accessErrOf (addr.toNat / 4096), SYS_LAST_ERR_CAUSE.one, SYS_LAST_ERR_PAGE.one,
        SYS_LAST_ERR_OFFSET.one].map Fld.key ++ latches [1]) t ∧ s.sameMemory t

/-- R16 to R18, R64, R65: the two halves of a snapshot. -/
def Obligations.SnapshotsAreRequestedAndTaken : Prop :=
  (∀ s : State, s.admits (PageClass.page .sys 0) = true → s.is SYS_SNAP.one = false →
    ∃ t, exec .snapRequest s = .next t ∧ t.is SYS_SNAP.one = true ∧ t.is SYS_SNAP_STATUS_PENDING.one = true ∧
      (⟨.host, s.snapTime⟩ : SnapAsk) ∈ t.clk.snaps ∧ t.clk.snaps.length = s.clk.snaps.length + 1 ∧
      t.clk = { s.clk with snaps := t.clk.snaps } ∧
      s.sameRegs ([SYS_SNAP.one, SYS_SNAP_STATUS_PENDING.one, unlockedOf (PageClass.page .sys 0)].map Fld.key) t ∧
      t = { s with regs := t.regs, clk := t.clk }) ∧
  (∀ s : State, s.admits (PageClass.page .sys 0) = true → s.is SYS_SNAP.one = true →
    exec .snapRequest s = .next (s.set (unlockedOf (PageClass.page .sys 0)) 0)) ∧
  (∀ s : State, s.snapReady = true → ∃ t, exec .snapshotTaken s = .next t ∧ t.snap = s.captured ∧
    t.snapSeq = (s.snapSeq + 1) % 2 ^ 32 ∧ t.latched 0 = true) ∧
  ∀ s : State, s.snapReady = true → s.snapFor .mailbox = false → s.snapFor .port = false →
    ∃ t, exec .snapshotTaken s = .next t ∧ t.clk.snaps = s.clk.snaps.filter (fun a => some a.due != s.clk.firstSnap) ∧
      t.is SYS_SNAP.one = t.clk.snaps.any (fun a => a.who == .host) ∧
      t.is SYS_SNAP_STATUS_PENDING.one = !t.clk.snaps.isEmpty ∧
      t.get SYS_SNAP_FRAME_FRAME.one = eraFrame (if s.onBypass then s.now else s.clk.frameAt) % 2 ^ 46 ∧
      t.get SYS_SNAP_FRAME_ERA.one = eraOf (if s.onBypass then s.now else s.clk.frameAt) ∧
      s.sameRegs ([SYS_SNAP.one, SYS_SNAP_STATUS_PENDING.one, SYS_SNAP_FRAME_FRAME.one, SYS_SNAP_FRAME_ERA.one,
        SYS_SNAP_STATUS_BYPASS.one].map Fld.key ++ latches [0]) t ∧
      ({ s with snap := t.snap, snapSeq := t.snapSeq, clk := { s.clk with snaps := t.clk.snaps } } : State).sameButRegs t

/-- R42: the closed aperture. -/
def Obligations.ClosedApertureReadsZero : Prop :=
  ∀ (s : State) (findings : List EccFinding), s.hostOpen = true → s.is SYS_APERTURE_CTRL.one = false →
    (∀ (off : DWord) (len : Fin 4097), exec (.apertureRead off len findings) s =
      .next { s with link := { s.link with readData := List.replicate len.val 0, completion := .success } }) ∧
    ∀ (off : DWord) (data : List Byte), data.length ≤ 4096 → exec (.apertureWrite off data findings) s = .next s

/-- R37, R267, R271: bytes written through the aperture are what is read back. -/
def Obligations.ApertureWritesAndReadsBursts : Prop :=
  (∀ (s : State) (off : DWord) (len : Fin 4097) (findings : List EccFinding), s.hostOpen = true → s.apertureShut = false →
    s.is HBM_G_STATUS_STOPPED.one = false →
    ∃ t, exec (.apertureRead off len findings) s = .next t ∧ t.link.readData.length = len.val ∧
      (t.link.completion = .success ∨ t.link.completion = .poisoned)) ∧
  (∀ (s : State) (off : DWord) (len : Fin 4097) (findings : List EccFinding) (pc x : Nat), s.hostOpen = true →
    s.apertureShut = false → s.is HBM_G_STATUS_STOPPED.one = false → 0 < len.val →
    s.apertureAddr off.toNat % 64 + len.val ≤ 64 → findings.headD .clean = .clean →
    s.apertureReadMap (s.apertureAddr off.toNat / 64 * 64) = some (pc, x) → s.pcState pc = 0 →
    s.hbm.markAt pc x = 0 → s.hbm.rowPending pc x = false →
    exec (.apertureRead off len findings) s = .next { s with link := { s.link with
      readData := ((s.hbm.burstAt pc x).drop (s.apertureAddr off.toNat % 64)).take len.val, completion := .success } }) ∧
  ∀ (s : State) (off : DWord) (data : List Byte) (findings : List EccFinding) (pc x : Nat), s.hostOpen = true →
    s.apertureShut = false → s.is HBM_G_STATUS_STOPPED.one = false → s.is HBM_G_CTRL_OLD_MAP_READ.one = false →
    data ≠ [] → s.apertureAddr off.toNat % 64 + data.length ≤ 64 → findings.headD .clean = .clean →
    s.apertureMap (s.apertureAddr off.toNat / 64 * 64) = some (pc, x) → s.pcState pc < 2 → s.hbm.markAt pc x = 0 →
    s.inRunningRegion (s.apertureAddr off.toNat) data.length = false → (∀ w ∈ s.hbm.writes pc, w.data.length = 64 ∧ w.x + 64 ≤ pcBytes) →
    ∃ t, exec (.apertureWrite off data findings) s = .next t ∧
      (∀ i < data.length, t.hbm.byteAt pc (x + s.apertureAddr off.toNat % 64 + i) = data.getD i 0) ∧
      (∀ y < pcBytes, (y < x + s.apertureAddr off.toNat % 64 ∨ x + s.apertureAddr off.toNat % 64 + data.length ≤ y) →
        t.hbm.byteAt pc y = s.hbm.byteAt pc y) ∧
      (∀ q, q ≠ pc → ∀ y < pcBytes, t.hbm.byteAt q y = s.hbm.byteAt q y) ∧
      s.sameRegs ([HBM_WRITTEN.of (stackOf pc), HBM_PC_QUEUE_PEAK.ofWin (stackOf pc) (pc % 32),
        HBM_PC_STATE_STATE.ofWin (stackOf pc) (pc % 32), HBM_PC_STATE_IN_ORDER.ofWin (stackOf pc) (pc % 32),
        HBM_PC_IN_ORDER.ofWin (stackOf pc) (pc % 32)].map Fld.key ++ latches [305 + 16 * stackOf pc]) t ∧
      ({ s with hbm := t.hbm } : State).sameButRegs t

/-- R75, R76, R85: each step of a lock, its failure, its retry, and the lock. -/
def Obligations.LockProcedureMovesStepByStep : Prop :=
  (∀ (s : State) (info : LockInfo), 1 ≤ s.get CLK_STATUS_STEP.one → s.get CLK_STATUS_STEP.one ≤ 5 →
    (s.get CLK_STATUS_STEP.one = 1 → info.inTolerance = true) → (s.get CLK_STATUS_STEP.one = 2 → info.bandFound = true) →
    ∃ t, exec (.lockStepDone info) s = .next t ∧ t.get CLK_STATUS_STEP.one = s.get CLK_STATUS_STEP.one + 1 ∧
      t.is CLK_STATUS_LOCKED.one = s.is CLK_STATUS_LOCKED.one ∧
      (s.get CLK_STATUS_STEP.one = 1 → t.is CLK_STATUS_REF_OK.one = true ∧ t.clk.refPresent = true ∧ t.clk.refSeen = true) ∧
      (s.get CLK_STATUS_STEP.one = 2 → t.get CLK_STATUS_BAND.one = info.band.val) ∧
      (3 ≤ s.get CLK_STATUS_STEP.one → t.get CLK_TUNE.one = info.word.toNat) ∧
      t = { s with regs := t.regs, clk := t.clk }) ∧
  (∀ (s : State) (info : LockInfo), s.get CLK_STATUS_STEP.one = 0 ∨ 7 ≤ s.get CLK_STATUS_STEP.one →
    exec (.lockStepDone info) s = .next s) ∧
  (∀ (s : State) (info : LockInfo), s.get CLK_STATUS_STEP.one = 6 →
    ∃ t, exec (.lockStepDone info) s = .next t ∧ t.locked = true ∧ t.onBypass = false ∧ t.get CLK_STATUS_STEP.one = 0 ∧
      t.is CLK_STATUS_SEARCHING.one = false ∧ t.latched 6 = true ∧ t.is FEG_STATUS_CAL_BUSY.one = true ∧
      t.get CLK_LOCK_TIME.one = info.micros.toNat ∧ t.is TIME_STATUS_VALID.one = true ∧
      (s.is TIME_STATUS_VALID.one = false → t.now = info.sinceEdge.toNat ∧ t.clk.origin = 0) ∧ (s.is TIME_STATUS_VALID.one = true → t.now = s.now) ∧
      ({ s with now := t.now, clk := t.clk, mbx := { s.mbx with kickAt := s.mbx.kickAt + (t.now : Int) - (s.now : Int) } } : State).sameButRegs t) ∧
  (∀ (s : State) (info : LockInfo), (s.get CLK_STATUS_STEP.one = 1 ∧ info.inTolerance = false ∨
      s.get CLK_STATUS_STEP.one = 2 ∧ info.bandFound = false) →
    ∃ t, exec (.lockStepDone info) s = .next t ∧ t.get CLK_STATUS_STEP.one = 7 ∧ t.is CLK_STATUS_SEARCHING.one = false ∧
      t.latched 7 = true ∧ s.sameButRegs t) ∧
  (∀ s : State, s.is CLK_STATUS_SEARCHING.one = true →
    ∃ t, exec .lockStepTimeout s = .next t ∧ t.get CLK_STATUS_STEP.one = 7 ∧ t.is CLK_STATUS_SEARCHING.one = false ∧
      t.latched 7 = true ∧
      s.sameRegs ([CLK_STATUS_STEP.one, CLK_STATUS_SEARCHING.one].map Fld.key ++ latches [7]) t ∧ s.sameButRegs t) ∧
  (∀ s : State, s.is CLK_STATUS_SEARCHING.one = false → exec .lockStepTimeout s = .next s) ∧
  (∀ s : State, (s.get CLK_STATUS_STEP.one ≠ 7 ∨ s.is CLK_CTRL_AUTO_RELOCK.one = false ∨ s.get CLK_CTRL_RETRY_MS.one = 0) →
    exec .lockRetry s = .next s) ∧
  ∀ s : State, s.get CLK_STATUS_STEP.one = 7 → s.is CLK_CTRL_AUTO_RELOCK.one = true → s.get CLK_CTRL_RETRY_MS.one ≠ 0 →
    ∃ t, exec .lockRetry s = .next t ∧ t.get CLK_STATUS_STEP.one = 1 ∧ t.is CLK_STATUS_SEARCHING.one = true ∧
      t.is FEG_STATUS_CAL_DONE.one = false ∧
      s.sameRegs ([CLK_STATUS_STEP.one, CLK_STATUS_SEARCHING.one, FEG_STATUS_CAL_DONE.one].map Fld.key) t ∧
      t = { s with regs := t.regs, clk := t.clk }

/-- R79 to R81, R84, R102. -/
def Obligations.ClockLossesStartHoldover : Prop :=
  (∀ (s : State) (age : DWord) (word : BitVec 24), s.locked = true →
    ∃ t, exec (.lockLoss age word) s = .next t ∧ t.inHoldover = true ∧ t.locked = false ∧
      t.get CLK_TUNE.one = word.toNat ∧ t.get CLK_LAST_LOSS.one = s.stamp ∧
      t.get CLK_LOSS_COUNT_LOCK_LOSSES.one = min (s.get CLK_LOSS_COUNT_LOCK_LOSSES.one + 1) 65535 ∧
      t.is TIME_STATUS_ARMED.one = false ∧ t.is HBM_G_STATUS_STOPPED.one = true ∧ t.clk.closing = some .lockLoss ∧
      t.now = s.now ∧ s.sameMemory t) ∧
  (∀ (s : State) (age : DWord) (word : BitVec 24), s.locked = true → s.clk.refPresent = true → s.clk.refSeen = true →
    ∃ t, exec (.refLoss age word) s = .next t ∧ t.inHoldover = true ∧ t.locked = false ∧ t.is CLK_STATUS_REF_OK.one = false ∧
      t.get CLK_TUNE.one = word.toNat ∧ t.get CLK_LAST_LOSS.one = s.stamp ∧
      t.get CLK_LOSS_COUNT_REF_LOSSES.one = min (s.get CLK_LOSS_COUNT_REF_LOSSES.one + 1) 65535 ∧
      t.is TIME_STATUS_SYNCED.one = false ∧ t.is TIME_STATUS_ARMED.one = false ∧ t.is HBM_G_STATUS_STOPPED.one = true ∧
      t.clk.closing = some .refLoss ∧ t.clk.refPresent = false ∧ t.now = s.now ∧ s.sameMemory t) ∧
  (∀ (s : State) (age : DWord) (word : BitVec 24), s.locked = false → exec (.lockLoss age word) s = .next s) ∧
  (∀ (s : State) (age : DWord) (word : BitVec 24), s.clk.refPresent = false → exec (.refLoss age word) s = .next s) ∧
  (∀ (s : State) (age : DWord) (word : BitVec 24), s.locked = false → s.clk.refPresent = true →
    ∃ t, exec (.refLoss age word) s = .next t ∧ t.clk.refPresent = false ∧ t.is CLK_STATUS_REF_OK.one = false ∧
      t.locked = false ∧ t.now = s.now ∧ s.sameMemory t) ∧
  (∀ s : State, s.clk.refPresent = true → exec .refReturn s = .next s) ∧
  (∀ s : State, s.clk.refPresent = false →
    ∃ t, exec .refReturn s = .next t ∧ t.clk.refPresent = true ∧ t.is CLK_STATUS_REF_OK.one = true ∧
      (s.clk.refSeen = true → s.onBypass = true → s.is CLK_CTRL_AUTO_RELOCK.one = true → s.is CLK_STATUS_SEARCHING.one = false →
        t.get CLK_STATUS_STEP.one = 1 ∧ t.is CLK_STATUS_SEARCHING.one = true) ∧
      (s.clk.refSeen = false → t.get CLK_STATUS_STEP.one = s.get CLK_STATUS_STEP.one) ∧
      t = { s with regs := t.regs, clk := t.clk }) ∧
  ∀ (s : State) (rms peak : Byte), rms.toNat ≤ peak.toNat → ∃ t, exec (.clkQualityAboveLimit rms peak) s = .next t ∧
    t.get CLK_QUALITY_PHASE_RMS.one = rms.toNat ∧ t.get CLK_QUALITY_PHASE_PEAK.one = peak.toNat ∧
    (s.get CLK_QUALITY_LIMIT_PHASE_RMS_LIMIT.one < rms.toNat → t.latched 11 = true) ∧
    s.sameRegs ([CLK_QUALITY_PHASE_RMS.one, CLK_QUALITY_PHASE_PEAK.one].map Fld.key ++ latches [11]) t ∧
    s.sameButRegs t

/-- R73, R78, R81 to R83. -/
def Obligations.ClocksSwitchAndRelock : Prop :=
  (∀ s : State, s.clk.closing.isSome = true → s.anyRuns = false →
    ∃ t, exec .selfRefreshEntered s = .next t ∧ t.onBypass = true ∧ t.locked = false ∧ t.inHoldover = false ∧
      t.latched 8 = true ∧ t.is FEG_STATUS_CAL_BUSY.one = false ∧ t.clk.closing = none ∧ t.now = s.now) ∧
  (∀ s : State, (s.clk.closing = none ∨ s.anyRuns = true) → exec .selfRefreshEntered s = .next s) ∧
  (∀ s : State, s.inHoldover = false → exec .holdoverLimit s = .next s) ∧
  (∀ s : State, s.inHoldover = true →
    ∃ t, exec .holdoverLimit s = .next t ∧ t.onBypass = true ∧ t.locked = false ∧ t.inHoldover = false ∧
      t.latched 8 = true ∧ t.is FEG_STATUS_CAL_BUSY.one = false ∧ t.clk.closing = none) ∧
  (∀ (s : State) (v : DWord), s.admits (PageClass.page .clk 0) = true → s.anyRuns = false → s.inHoldover = false →
    s.is CLK_STATUS_SEARCHING.one = false → s.locked = true →
    ∃ t, exec (.relock v) s = .next t ∧ t.locked = false ∧ t.is HBM_G_STATUS_STOPPED.one = true ∧
      t.clk.closing = some .relock ∧ t.is TIME_STATUS_ARMED.one = false ∧
      t.get CLK_CTRL_RETRY_MS.one = field v.toNat 8 8 ∧ t.get CLK_CTRL_AUTO_RELOCK.one = field v.toNat 4 1 ∧
      t.get CLK_CTRL_BANDWIDTH.one = field v.toNat 2 2 ∧ t.pageLocked (PageClass.page .clk 0) = true ∧ s.sameMemory t) ∧
  (∀ (s : State) (v : DWord), s.admits (PageClass.page .clk 0) = true →
    ∃ t, exec (.relock v) s = .next t ∧ t.get CLK_CTRL_RETRY_MS.one = field v.toNat 8 8 ∧
      t.get CLK_CTRL_AUTO_RELOCK.one = field v.toNat 4 1 ∧ t.get CLK_CTRL_BANDWIDTH.one = field v.toNat 2 2 ∧
      ((s.anyRuns = true ∨ s.inHoldover = true) → t.get (accessErrOf (PageClass.page .clk 0)) = 1 ∧
        t.locked = s.locked ∧ t.clk = s.clk) ∧
      (s.anyRuns = false → s.inHoldover = false → s.is CLK_STATUS_SEARCHING.one = true →
        t.get CLK_STATUS_STEP.one = 1 ∧ t.is CLK_STATUS_SEARCHING.one = true)) ∧
  (∀ s : State, s.onBypass = true ∨ s.is CLK_DIV_APPLY.one = false → exec .dividersApplied s = .next s) ∧
  (∀ s : State, s.admits (PageClass.page .clk 0) = true →
    ∃ t, exec .divApply s = .next t ∧ t.is CLK_DIV_APPLY.one = true ∧
      s.sameRegs ([CLK_DIV_APPLY.one, unlockedOf (PageClass.page .clk 0)].map Fld.key) t ∧ t = { s with regs := t.regs }) ∧
  ∀ s : State, s.onBypass = false → s.is CLK_DIV_APPLY.one = true →
    ∃ t, exec .dividersApplied s = .next t ∧
      t.get CLK_DIV_ACTIVE_PCLK_DIV.one = s.get CLK_DIV_NEXT_PCLK_DIV.one % 2 ∧
      t.get CLK_DIV_ACTIVE_CCLK_DIV.one = s.get CLK_DIV_NEXT_CCLK_DIV.one % 3 ∧ t.is CLK_DIV_APPLY.one = false ∧
      t.latched 10 = true ∧ s.sameRegs ([CLK_DIV_ACTIVE_PCLK_DIV.one, CLK_DIV_ACTIVE_CCLK_DIV.one, CLK_DIV_APPLY.one].map
        Fld.key ++ latches [10]) t ∧ s.sameButRegs t

/-- R87, R89, R90. -/
def Obligations.EraAlarmsAndCalendarAdvance : Prop :=
  (∀ s : State, s.is TIME_STATUS_VALID.one = true →
    (s.clk.frameAt + frameTicks = (s.now / 2 ^ 64 + 1) * 2 ^ 64 ∨ ∀ n < 65, (s.skein n).reducing = false) →
    ∃ t, exec .eraAdvance s = .next t ∧ t.now = (s.now / 2 ^ 64 + 1) * 2 ^ 64 ∧ eraOf t.now = (eraOf s.now + 1) % 2 ^ 16 ∧
      t.latched 13 = true ∧ s.sameRegs (latches [13]) t ∧ ({ s with now := t.now, clk := t.clk } : State).sameButRegs t) ∧
  (∀ (s : State) (n : Fin 4), (sget s.clk.alarms n.val Alarm.idle).next = none → exec (.alarmFire n) s = .next s) ∧
  (∀ (s : State) (n : Fin 4) (at_ : Nat), (sget s.clk.alarms n.val Alarm.idle).next = some at_ → (s.sampling = false ∨
    s.is (TIME_ALARM_CTRL.elt n.val) = false ∨ s.clk.frameAt + frameTicks ≤ at_) → exec (.alarmFire n) s = .next s) ∧
  (∀ (s : State) (n : Fin 4) (at_ : Nat), (sget s.clk.alarms n.val Alarm.idle).next = some at_ → s.sampling = true →
    s.is (TIME_ALARM_CTRL.elt n.val) = true → at_ < s.clk.frameAt + frameTicks →
    ∃ t, exec (.alarmFire n) s = .next t ∧ t.latched (14 + n.val) = true ∧ at_ ≤ t.now ∧
      sget t.clk.alarms n.val Alarm.idle = ⟨if s.get (TIME_ALARM_PERIOD.elt n.val) * frameTicks = 0 then none
        else some (at_ + s.get (TIME_ALARM_PERIOD.elt n.val) * frameTicks), true, true⟩) ∧
  ∀ s : State, ∃ t, exec .calSecond s = .next t ∧
    t.get LIFE_CAL_SECONDS.one = (s.get LIFE_CAL_SECONDS.one + 1) % 2 ^ 32 ∧
    t.get TIME_CAL_SECONDS.one = (s.get LIFE_CAL_SECONDS.one + 1) % 2 ^ 32 ∧
    t.get TIME_CAL_STAMP.one = (s.now + s.fclk / 2) / s.fclk * s.fclk % 2 ^ 64 ∧
    s.sameRegs ([LIFE_CAL_SECONDS.one, TIME_CAL_SECONDS.one, TIME_CAL_STAMP.one].map Fld.key) t ∧ t = { s with regs := t.regs }

/-- R91 to R94. -/
def Obligations.SyncArmsAndSetsTheTimebase : Prop :=
  (∀ (s : State) (v : DWord), s.admits (PageClass.page .time 0) = true → bitOf v.toNat 5 = false →
    ∃ t, exec (.syncArm v) s = .next t ∧
      (s.locked = true → s.anyRuns = false → t.is TIME_STATUS_ARMED.one = true) ∧
      ((s.locked = false ∨ s.anyRuns = true) → t.is TIME_STATUS_ARM_REFUSED.one = true ∧
        t.is TIME_STATUS_ARMED.one = s.is TIME_STATUS_ARMED.one) ∧
      s.sameRegs ([TIME_STATUS_ARMED.one, TIME_STATUS_ARM_REFUSED.one, TIME_SYNC_CTRL_IN_EDGE.one, TIME_SYNC_CTRL_OUT_MODE.one,
        unlockedOf (PageClass.page .time 0)].map Fld.key) t ∧ t = { s with regs := t.regs, clk := t.clk }) ∧
  (∀ (s : State) (v : DWord), s.admits (PageClass.page .time 0) = true →
    ∃ t, exec (.syncDisarm v) s = .next t ∧ t.is TIME_STATUS_ARMED.one = false ∧
      s.sameRegs ([TIME_STATUS_ARMED.one, TIME_SYNC_CTRL_IN_EDGE.one, TIME_SYNC_CTRL_OUT_MODE.one,
        unlockedOf (PageClass.page .time 0)].map Fld.key) t ∧ t = { s with regs := t.regs, clk := t.clk }) ∧
  (∀ (s : State) (v : DWord), s.admits (PageClass.page .time 0) = true → field v.toNat 2 2 = 1 →
    s.is CLK_STATUS_REF_OK.one = true →
    ∃ t, exec (.syncOutPulse v) s = .next t ∧
      t.clk.syncPulse = some (s.refEdge (s.now + ticks100ns), s.refEdge (s.now + ticks100ns) + 4 * s.refPeriod) ∧
      t = { s with regs := t.regs, clk := t.clk }) ∧
  (∀ (s : State) (level : Bool), s.clk.refPresent = true → s.is TIME_STATUS_ARMED.one = true →
    s.clk.syncIn = s.is TIME_SYNC_CTRL_IN_EDGE.one → level = !s.is TIME_SYNC_CTRL_IN_EDGE.one →
    ∃ t, exec (.syncInPulse level) s = .next t ∧ t.now = s.get TIME_SYNC_ERA.one * 2 ^ 64 + s.get TIME_SYNC_VALUE.one * 1024 ∧
      t.clk.syncIn = level ∧ t.get TIME_SYNC_COUNT.one = (s.get TIME_SYNC_COUNT.one + 1) % 2 ^ 32 ∧
      t.get TIME_SYNC_STAMP.one = s.refEdge s.now % 2 ^ 64 ∧ t.is TIME_STATUS_SYNCED.one = true ∧
      t.is TIME_STATUS_ARMED.one = false ∧ t.is TIME_STATUS_ESTIMATED.one = false ∧ t.latched 12 = true ∧
      s.sameRegs ([TIME_SYNC_COUNT.one, TIME_SYNC_STAMP.one, TIME_STATUS_SYNCED.one, TIME_STATUS_ARMED.one,
        TIME_STATUS_ESTIMATED.one].map Fld.key ++ latches [12]) t ∧ s.sameMemory t) ∧
  (∀ (s : State) (level : Bool), s.clk.refPresent = true → s.is TIME_STATUS_ARMED.one = false →
    s.clk.syncIn = s.is TIME_SYNC_CTRL_IN_EDGE.one → level = !s.is TIME_SYNC_CTRL_IN_EDGE.one →
    ∃ t, exec (.syncInPulse level) s = .next t ∧ t.is TIME_STATUS_UNARMED_SYNC.one = true ∧
      s.sameRegs [TIME_STATUS_UNARMED_SYNC.one.key] t ∧
      t = { s with regs := t.regs, clk := { s.clk with syncIn := level } }) ∧
  (∀ (s : State) (level : Bool), s.clk.refPresent = true →
    (s.clk.syncIn ≠ s.is TIME_SYNC_CTRL_IN_EDGE.one ∨ level = s.is TIME_SYNC_CTRL_IN_EDGE.one) →
    exec (.syncInPulse level) s = .next { s with clk := { s.clk with syncIn := level } }) ∧
  ∀ (s : State) (level : Bool), s.clk.refPresent = false → exec (.syncInPulse level) s = .next s

/-- R96, R97, R98. -/
def Obligations.LifetimeCountersCount : Prop :=
  (∀ (s : State) (v : DWord), s.admits (PageClass.page .life 0) = true →
    ∃ t, exec (.calendarWrite v) s = .next t ∧ t.get LIFE_CAL_SECONDS.one = v.toNat ∧ t.is LIFE_STATUS_CAL_VALID.one = true ∧
      t.get LIFE_EDITS.one = (s.get LIFE_EDITS.one + 1) % 2 ^ 32 ∧ t.pageLocked (PageClass.page .life 0) = true ∧
      s.sameRegs ([LIFE_CAL_SECONDS.one, LIFE_STATUS_CAL_VALID.one, LIFE_EDITS.one, unlockedOf (PageClass.page .life 0)].map
        Fld.key) t ∧ t = { s with regs := t.regs }) ∧
  (∀ (s : State) (c : WearCounter) (v : BitVec 64) (f : Fld), s.Sound → s.admits (PageClass.page .life 0) = true →
    s.wearCell c = some f →
    ∃ t, exec (.wearCounterWrite c v) s = .next t ∧ t.get f = v.toNat % 2 ^ f.width ∧
      t.get LIFE_EDITS.one = (s.get LIFE_EDITS.one + 1) % 2 ^ 32 ∧ t.pageLocked (PageClass.page .life 0) = true ∧
      s.sameRegs ([f, LIFE_EDITS.one, unlockedOf (PageClass.page .life 0)].map Fld.key) t ∧ t = { s with regs := t.regs }) ∧
  (∀ s : State, ∃ t, exec .powerOnSecond s = .next t ∧
    t.get LIFE_POWER_ON_SECONDS.one = (s.get LIFE_POWER_ON_SECONDS.one + 1) % 2 ^ 32 ∧
    t.get (LIFE_BAND_SECONDS.elt (bandOf s.hottest)) = (s.get (LIFE_BAND_SECONDS.elt (bandOf s.hottest)) + 1) % 2 ^ 32 ∧
    t = { s with regs := t.regs, clk := t.clk }) ∧
  (∀ s : State, ∃ t, exec .hbmWearReport s = .next t ∧
    (∀ k < 4, t.get (LIFE_HBM_MIB.elt k) = (s.get (LIFE_HBM_MIB.elt k) +
      (s.get (HBM_WRITTEN.of k) + 2 ^ 64 - sget s.hbm.reported k 0) % 2 ^ 64 / 2 ^ 20) % 2 ^ 64) ∧
    s.sameRegs ((upto 4).map (fun k => (LIFE_HBM_MIB.elt k).key)) t ∧
    t = { s with regs := t.regs, hbm := { s.hbm with reported := t.hbm.reported } }) ∧
  (∀ s : State, s.pwr.aonFresh = true →
    ∃ t, exec .thermalSample s = .next t ∧ t.get LIFE_THERMAL_STATE_EXTREME.one = unsigned 8 s.hottest ∧
      t.get LIFE_THERMAL_STATE_DIRECTION.one = 0 ∧ t = { s with regs := t.regs, pwr := { s.pwr with aonFresh := false } } ∧
      s.sameRegs ([LIFE_THERMAL_STATE_EXTREME.one, LIFE_THERMAL_STATE_DIRECTION.one].map Fld.key) t) ∧
  (∀ s : State, s.pwr.aonFresh = false →
    (s.get LIFE_THERMAL_STATE_DIRECTION.one = 0 → (signed 8 (s.get LIFE_THERMAL_STATE_EXTREME.one) < s.hottest →
        exec .thermalSample s = .next (s.putThermal s.hottest 0)) ∧
      (40 < signed 8 (s.get LIFE_THERMAL_STATE_EXTREME.one) - s.hottest →
        exec .thermalSample s = .next (s.putThermal s.hottest 1))) ∧
    (s.get LIFE_THERMAL_STATE_DIRECTION.one = 1 → s.hottest < signed 8 (s.get LIFE_THERMAL_STATE_EXTREME.one) →
      exec .thermalSample s = .next (s.putThermal s.hottest 1)) ∧
    (s.get LIFE_THERMAL_STATE_DIRECTION.one = 0 → s.hottest ≤ signed 8 (s.get LIFE_THERMAL_STATE_EXTREME.one) →
      signed 8 (s.get LIFE_THERMAL_STATE_EXTREME.one) - s.hottest ≤ 40 → exec .thermalSample s = .next s) ∧
    (s.get LIFE_THERMAL_STATE_DIRECTION.one = 1 → signed 8 (s.get LIFE_THERMAL_STATE_EXTREME.one) ≤ s.hottest →
      s.hottest - signed 8 (s.get LIFE_THERMAL_STATE_EXTREME.one) ≤ 40 → exec .thermalSample s = .next s)) ∧
  ∀ s : State, s.pwr.aonFresh = false → s.get LIFE_THERMAL_STATE_DIRECTION.one = 1 →
    40 < s.hottest - signed 8 (s.get LIFE_THERMAL_STATE_EXTREME.one) →
    ∃ t, exec .thermalSample s = .next t ∧
      t.get LIFE_THERMAL_CYCLES.one = (s.get LIFE_THERMAL_CYCLES.one + 1) % 2 ^ 32 ∧ t.latched 31 = true ∧
      t.get LIFE_THERMAL_STATE_DIRECTION.one = 0 ∧ s.sameRegs ([LIFE_THERMAL_STATE_EXTREME.one,
        LIFE_THERMAL_STATE_DIRECTION.one, LIFE_THERMAL_CYCLES.one].map Fld.key ++ latches [31]) t ∧ s.sameButRegs t

/-- R99, R101, R441. -/
def Obligations.JournalCommitsAndAlwaysOnWatch : Prop :=
  (∀ s : State, s.svc.commit = none → ∃ t r, exec .journalPeriod s = .next t ∧ t.is LIFE_STATUS_JOURNAL_BUSY.one = true ∧
    t.svc.commit = some r ∧ r.seq = (s.get LIFE_JOURNAL_SEQ.one + 1) % 2 ^ 32 ∧
    (∀ k v, (k, v) ∈ r.cells ↔ ∃ w, (k, w) ∈ s.regs ∧ keyPage k = PageClass.page .life 0 ∧
      v = if sectorCell k then min w 16777215 else w) ∧
    t = { s with regs := t.regs, svc := { s.svc with commit := t.svc.commit } }) ∧
  (∀ s : State, s.svc.commit.isSome = true →
    exec .journalPeriod s = .next { s with svc := { s.svc with commitNext := true } }) ∧
  (∀ s : State, s.admits (PageClass.page .life 0) = true → s.svc.commit = none →
    ∃ t r, exec .journalCommit s = .next t ∧ t.is LIFE_STATUS_JOURNAL_BUSY.one = true ∧ t.svc.commit = some r ∧
      r.seq = (s.get LIFE_JOURNAL_SEQ.one + 1) % 2 ^ 32 ∧
      t = { s with regs := t.regs, svc := { s.svc with commit := t.svc.commit } }) ∧
  (∀ s : State, s.admits (PageClass.page .life 0) = true → s.svc.commit.isSome = true →
    ∃ t, exec .journalCommit s = .next t ∧ t.svc = { s.svc with commitNext := true } ∧
      s.sameRegs [(unlockedOf (PageClass.page .life 0)).key] t ∧ t = { s with regs := t.regs, svc := t.svc }) ∧
  (∀ (s : State) (ok : Bool), s.svc.commit = none → exec (.journalCommitDone ok) s = .next s) ∧
  (∀ (s : State) (ok : Bool), s.svc.commit.isSome = true → s.svc.commitNext = true →
    ∃ t, exec (.journalCommitDone ok) s = .next t ∧ t.svc.commit.isSome = true ∧ t.svc.commitNext = false ∧
      t.is LIFE_STATUS_JOURNAL_BUSY.one = true ∧ t.latched (if ok then 26 else 27) = true ∧ s.sameMemory t) ∧
  (∀ (s : State) (r : JournalRec), s.svc.commit = some r → s.svc.commitNext = false →
    ∃ t, exec (.journalCommitDone true) s = .next t ∧ t.svc.commit = none ∧
      sget t.svc.flash.journal (s.get SVC_JOURNAL.one) none = some r ∧
      (∀ p, p ≠ s.get SVC_JOURNAL.one → sget t.svc.flash.journal p none = sget s.svc.flash.journal p none) ∧
      t.get SVC_JOURNAL.one = (s.get SVC_JOURNAL.one + 1) % 1024 ∧ t.get LIFE_JOURNAL_SEQ.one = r.seq % 2 ^ 32 ∧
      t.is LIFE_STATUS_JOURNAL_BUSY.one = false ∧ t.latched 26 = true ∧ s.sameMemory t) ∧
  (∀ (s : State) (r : JournalRec), s.svc.commit = some r → s.svc.commitNext = false →
    ∃ t, exec (.journalCommitDone false) s = .next t ∧ t.svc.commit = none ∧ t.svc.flash = s.svc.flash ∧
      t.is LIFE_STATUS_JOURNAL_BUSY.one = false ∧ t.latched 27 = true ∧ t.latched 48 = true ∧ s.sameMemory t) ∧
  (∀ s : State, s.is LIFE_STATUS_VBAT_OK.one = true → ∃ t, exec .vbatLow s = .next t ∧
    t.is LIFE_STATUS_VBAT_OK.one = false ∧ t.latched 29 = true ∧
    s.sameRegs (LIFE_STATUS_VBAT_OK.one.key :: latches [29]) t ∧ s.sameButRegs t) ∧
  (∀ s : State, s.is LIFE_STATUS_VBAT_OK.one = false → exec .vbatLow s = .next s) ∧
  (∀ s : State, s.is LIFE_STATUS_XTAL_OK.one = false → exec .xtalStop s = .next s) ∧
  (∀ s : State, ∃ t, exec .vbatRestored s = .next t ∧ t.is LIFE_STATUS_VBAT_OK.one = true ∧
    s.sameRegs [LIFE_STATUS_VBAT_OK.one.key] t ∧ t = { s with regs := t.regs }) ∧
  ∀ s : State, s.is LIFE_STATUS_XTAL_OK.one = true → ∃ t, exec .xtalStop s = .next t ∧
    t.is LIFE_STATUS_XTAL_OK.one = false ∧ t.is LIFE_STATUS_CAL_VALID.one = false ∧ t.latched 30 = true ∧
    (s.is LIFE_STATUS_CAL_VALID.one = true → t.latched 28 = true) ∧
    s.sameRegs ([LIFE_STATUS_XTAL_OK.one, LIFE_STATUS_CAL_VALID.one].map Fld.key ++ latches [28, 30]) t ∧ s.sameButRegs t

/-- R113, R118, R119, R135, R136: edges and state samples. -/
def Obligations.EdgesAndStateSamplesReachReducers : Prop :=
  (∀ (s : State) (n : Fin 64) (c : Fin 16) (level : Bool) (time : Nat), ∃ t, exec (.probeEdge n c level time) s = .next t ∧
    (∀ m, m ≠ n.val → (m = 64 → s.get (FE_SOURCE.of 64) ≠ n.val) → t.skein m = s.skein m) ∧
    t = { s with skeins := t.skeins, drawn := t.drawn }) ∧
  (∀ (s : State) (n : Fin 64) (c : Fin 16) (level : Bool) (time T : Nat), s.sampling = true → s.skeinReady n.val = true →
    s.get (FE_SOURCE.of 64) ≠ n.val → T = ((time : Int) + signed 14 (s.get (FE_DESKEW.ofElt n.val c.val))).toNat →
    s.clk.frameAt ≤ T → s.clk.sampleAt - 63 ≤ T → sget (s.skein n.val).holdTo c.val 0 ≤ T →
    ∃ t, exec (.probeEdge n c level time) s = .next t ∧ (t.skein n.val).base = (s.skein n.val).base ∧
      (bitOf (s.skein n.val).present c.val = level → t.skein n.val = s.skein n.val) ∧
      (bitOf (s.skein n.val).present c.val ≠ level →
        (sget (s.skein n.val).arrived c.val 0 = 0 ∨ sget (s.skein n.val).arrived c.val 0 + 147 ≤ T) →
        (t.skein n.val).edges = insertEdge ⟨c.val, level, true, T, T⟩ (s.skein n.val).edges) ∧
      (bitOf (s.skein n.val).present c.val ≠ level → sget (s.skein n.val).arrived c.val 0 ≠ 0 →
        T < sget (s.skein n.val).arrived c.val 0 + 147 → (∀ e ∈ (s.skein n.val).edges, e.ch ≠ c.val) →
        (t.skein n.val).edges = insertEdge ⟨c.val, level, false, ceilTo T 64, T⟩ (s.skein n.val).edges)) ∧
  (∀ (s : State) (n : Fin 64) (c : Fin 16) (level : Bool) (time : Nat), (s.sampling = false ∨ s.skeinReady n.val = false) →
    s.get (FE_SOURCE.of 64) ≠ n.val →
    ∃ t, exec (.probeEdge n c level time) s = .next t ∧
      t.skein n.val = { s.skein n.val with base := setLevel (s.skein n.val).base c.val level } ∧
      (∀ m, m ≠ n.val → t.skein m = s.skein m) ∧ t = { s with skeins := t.skeins }) ∧
  (∀ (s : State) (m : Fin 32) (rising : Bool) (time T : Nat), s.sampling = true →
    (∀ n < 65, (s.skein n).samples.length < 4096 ∧ (s.skein n).edgeDue = false ∧ s.is (SKN_COMMIT.of n) = false) →
    T = ((time : Int) + signed 14 (s.get (FEG_SCK_DESKEW.elt m.val))).toNat → (sget s.clk.sck m.val SckMeter.idle).last = 0 →
    ∃ t, exec (.stateClockEdge m rising time) s = .next t ∧ (sget t.clk.sck m.val SckMeter.idle).last = T + 1 ∧
      (∀ n < 64, (s.gear n).stateMode = true → s.get (FE_STATE_SCK_SEL.of n) = m.val → s.edgeSelected n rising = true →
        s.skeinReady n = true → (s.skein n).reducing = true → s.replaced n = false → (s.skein n).spanAt ≤ T →
        (t.skein n).samples = (s.skein n).samples ++
          [⟨levelsAt (s.skein n).base (s.skein n).edges ((T : Int) + signed 14 (s.get (FE_STATE_DELAY.of n))).toNat, T,
            ((T : Int) + signed 14 (s.get (FE_STATE_DELAY.of n))).toNat, true⟩])) ∧
  (∀ (s : State) (m : Fin 32) (rising : Bool) (time : Nat), s.sampling = false →
    exec (.stateClockEdge m rising time) s = .next s) ∧
  ∀ (s : State) (m : Fin 32) (rising : Bool) (time T : Nat), s.sampling = true →
    (∀ n < 65, (s.skein n).reducing = false) →
    T = ((time : Int) + signed 14 (s.get (FEG_SCK_DESKEW.elt m.val))).toNat → (sget s.clk.sck m.val SckMeter.idle).last = 0 →
    ∃ t, exec (.stateClockEdge m rising time) s = .next t ∧ (sget t.clk.sck m.val SckMeter.idle).last = T + 1 ∧
      (∀ n < 64, (s.gear n).stateMode = true → s.get (FE_STATE_SCK_SEL.of n) = m.val → s.edgeSelected n rising = true →
        s.skeinReady n = true →
        (⟨levelsAt (s.skein n).base (s.skein n).edges ((T : Int) + signed 14 (s.get (FE_STATE_DELAY.of n))).toNat, T,
          ((T : Int) + signed 14 (s.get (FE_STATE_DELAY.of n))).toNat, true⟩ : StateSample) ∈ (t.skein n).lastState) ∧
      t = { s with skeins := t.skeins, clk := { s.clk with sck := t.clk.sck } }

/-- R126, R137. -/
def Obligations.OverRangeIsMarkedAndCounted : Prop :=
  (∀ (s : State) (n : Fin 64) (c : Fin 16), ∃ t, exec (.overRange (.channel n c)) s = .next t ∧
    bitOf (t.get (FE_OVR_NOW.of n.val)) c.val = true ∧ t.is FEG_STATUS_OVR_ANY.one = true ∧ s.sameButRegs t ∧
    (bitOf (s.get (FE_OVR_NOW.of n.val)) c.val = true → t.get (FE_OVR_COUNT.of n.val) = s.get (FE_OVR_COUNT.of n.val)) ∧
    (bitOf (s.get (FE_OVR_NOW.of n.val)) c.val = false →
      (sget (s.skein n.val).overLow c.val 0 = 0 ∨ sget (s.skein n.val).overLow c.val 0 - 1 + ticksUs ≤ s.now) →
      t.get (FE_OVR_COUNT.of n.val) = (s.get (FE_OVR_COUNT.of n.val) + 1) % 2 ^ 32 ∧
      t.get (LIFE_OVR_COUNT.win n.val) = (s.get (LIFE_OVR_COUNT.win n.val) + 1) % 2 ^ 32 ∧
      bitOf (t.get (FE_OVR_SEEN.of n.val)) c.val = true ∧ t.is (FE_CAUSE_OVR.of n.val) = true)) ∧
  (∀ (s : State) (m : Fin 32), ∃ t, exec (.overRange (.clock m)) s = .next t ∧
    bitOf (t.get FEG_SCK_OVR.one) m.val = true ∧ t.is FEG_STATUS_OVR_ANY.one = true ∧ s.sameButRegs t) ∧
  (∀ (s : State) (n : Fin 64) (c : Fin 16), ∃ t, exec (.overRangeClear (.channel n c)) s = .next t ∧
    bitOf (t.get (FE_OVR_NOW.of n.val)) c.val = false ∧ t = { s with regs := t.regs, skeins := t.skeins } ∧
    (bitOf (s.get (FE_OVR_NOW.of n.val)) c.val = true → sget (t.skein n.val).overLow c.val 0 = s.now + 1)) ∧
  ∀ (s : State) (m : Fin 32), ∃ t, exec (.overRangeClear (.clock m)) s = .next t ∧
    bitOf (t.get FEG_SCK_OVR.one) m.val = false ∧ t = { s with regs := t.regs }

/-- R122, R123, R125, R128 to R130. -/
def Obligations.CalibrationAndSelfCheckReport : Prop :=
  (∀ s : State, s.admits (PageClass.page .feg 0) = true → ∃ t, exec .fullCal s = .next t ∧
    (s.locked = true → s.is FEG_STATUS_CAL_BUSY.one = false → t.is FEG_STATUS_CAL_BUSY.one = true ∧ t.is FEG_CAL_CMD.one = false) ∧
    ((s.locked = false ∨ s.is FEG_STATUS_CAL_BUSY.one = true) → t.is FEG_CAL_CMD.one = true ∧
      t.is FEG_STATUS_CAL_BUSY.one = s.is FEG_STATUS_CAL_BUSY.one) ∧
    s.sameRegs ([FEG_STATUS_CAL_BUSY.one, FEG_CAL_CMD.one, unlockedOf (PageClass.page .feg 0)].map Fld.key) t ∧
    t = { s with regs := t.regs }) ∧
  (∀ (s : State) (results : List CalResult), s.is FEG_STATUS_CAL_BUSY.one = true →
    ∃ t, exec (.fullCalDone results) s = .next t ∧ t.is FEG_STATUS_CAL_BUSY.one = s.is FEG_CAL_CMD.one ∧
      t.is FEG_STATUS_CAL_DONE.one = true ∧
      t.get FEG_CAL_COUNT.one = (s.get FEG_CAL_COUNT.one + 1) % 2 ^ 32 ∧ t.get CLK_QUALITY_CAL_AGE.one = 0 ∧
      t.get CLK_QUALITY_TDC_RMS.one = ((upto 65).map (fun n => t.get (FE_CAL_STATUS_RESID.of n))).foldl max 0 ∧
      (s.get CLK_QUALITY_LIMIT_TDC_RMS_LIMIT.one < t.get CLK_QUALITY_TDC_RMS.one → t.latched 11 = true) ∧
      ((results.map (fun r => r.skein)).Nodup → ∀ r ∈ results, s.skeinGate r.skein.val = false →
        t.get (FE_CAL_STATUS_RESID.of r.skein.val) = r.finding.resid.toNat ∧
        t.is (FE_STATUS_CAL_OK.of r.skein.val) = r.finding.ok) ∧
      ({ s with skeins := t.skeins, clk := t.clk } : State).sameButRegs t) ∧
  (∀ (s : State) (results : List CalResult), s.is FEG_STATUS_CAL_BUSY.one = false →
    exec (.fullCalDone results) s = .next s) ∧
  (∀ (s : State) (results : List CalResult), s.is FEG_CTRL_BG_CAL_EN.one = true → s.locked = true → s.calEngine = true →
    ∃ t, exec (.bgCalPassDone results) s = .next t ∧
      t.get FEG_BG_PASSES.one = (s.get FEG_BG_PASSES.one + 1) % 2 ^ 32 ∧ t.get CLK_QUALITY_CAL_AGE.one = 0 ∧
      t.get CLK_QUALITY_TDC_RMS.one = ((upto 65).map (fun n => t.get (FE_CAL_STATUS_RESID.of n))).foldl max 0 ∧
      ((results.map (fun r => r.skein)).Nodup → ∀ r ∈ results, s.skeinGate r.skein.val = false →
        t.get (FE_CAL_STATUS_RESID.of r.skein.val) = r.finding.resid.toNat ∧
        t.is (FE_STATUS_CAL_OK.of r.skein.val) = r.finding.ok) ∧
      ({ s with skeins := t.skeins, clk := t.clk } : State).sameButRegs t) ∧
  (∀ (s : State) (results : List CalResult), (s.is FEG_CTRL_BG_CAL_EN.one = false ∨ s.locked = false ∨ s.calEngine = false) →
    exec (.bgCalPassDone results) s = .next s) ∧
  (∀ (s : State) (n : Fin 65), (s.is FEG_CTRL_CHECK_EN.one = false ∨ s.is FEG_STATUS_CHECK_BUSY.one = true ∨
    s.skeinIdle n.val = false ∨ s.spareAssigned n.val = true ∨ s.get (FE_IDLE_SECONDS.of n.val) < 50) →
    exec (.selfCheckStart n) s = .next s) ∧
  (∀ (s : State) (n : Fin 65), s.is FEG_CTRL_CHECK_EN.one = true → s.is FEG_STATUS_CHECK_BUSY.one = false →
    s.skeinIdle n.val = true → s.spareAssigned n.val = false → 50 ≤ s.get (FE_IDLE_SECONDS.of n.val) →
    ∃ t, exec (.selfCheckStart n) s = .next t ∧ t.is FEG_STATUS_CHECK_BUSY.one = true ∧
      t.get FEG_STATUS_CHECK_SKEIN.one = n.val ∧ t.is (FE_STATUS_CHECKING.of n.val) = true ∧
      s.sameRegs ([FEG_STATUS_CHECK_BUSY.one, FEG_STATUS_CHECK_SKEIN.one, FE_STATUS_CHECKING.of n.val].map Fld.key) t ∧
      t = { s with regs := t.regs, skeins := t.skeins }) ∧
  (∀ (s : State) (stuck opened : BitVec 16), s.is FEG_STATUS_CHECK_BUSY.one = false →
    exec (.selfCheckDone stuck opened) s = .next s) ∧
  ∀ (s : State) (n : Nat) (stuck opened : BitVec 16), s.is FEG_STATUS_CHECK_BUSY.one = true →
    s.get FEG_STATUS_CHECK_SKEIN.one = n → n ≤ 64 →
    ∃ t, exec (.selfCheckDone stuck opened) s = .next t ∧ t.is FEG_STATUS_CHECK_BUSY.one = false ∧
      t.is (FE_STATUS_CHECKING.of n) = false ∧ t.get (FE_IDLE_SECONDS.of n) = 0 ∧
      t.get (FE_CHECK_RESULT_STUCK.of n) = stuck.toNat ∧
      t.get (FE_CHECK_RESULT_OPEN.of n) = (if n = 64 then 0 else opened.toNat) ∧
      t.get (FE_CHECK_PASSES.of n) = (s.get (FE_CHECK_PASSES.of n) + 1) % 2 ^ 32 ∧ s.sameMemory t

/-- R8, R154, R183, R197, R250: what ends, and what is evaluated. -/
def Obligations.FramesAndSamplesComeInOrder : Prop :=
  (∀ (s : State) (f : FrameFindings), s.sampling = true →
    ∃ t, exec (.frameBoundary f) s = .next t ∧ t.clk.frameAt = s.clk.frameAt + frameTicks ∧
      t.clk.frameAt ≤ t.now ∧ t.clk.epochAt = s.clk.epochAt ∧ s.sameMemory t) ∧
  (∀ (s : State) (f : FrameFindings), s.sampling = false → exec (.frameBoundary f) s = .next s) ∧
  (∀ s : State, s.Sound → s.sampling = true → s.clk.sampleAt < s.clk.frameAt + frameTicks →
    ∃ t, exec .sampleEvaluation s = .next t ∧ t.clk.sampleAt = s.clk.sampleAt + 64 ∧ t.now = max s.now s.clk.sampleAt ∧
      t.clk.frameAt = s.clk.frameAt ∧ s.sameMemory t ∧
      ∀ u : State, u = forEach (upto 8) ((s.takeInputs s.clk.sampleAt).takeForces s.clk.sampleAt)
          (fun j s' => s'.markGate j s.clk.sampleAt s.clk.sampleAt) →
        ∀ j < 8, s.detached j = false →
          t.get (TRG_STATUS_LEVEL.of j) = match u.takenAct s.clk.sampleAt j with
            | some (_, a) => field a 60 4
            | none => s.get (TRG_STATUS_LEVEL.of j)) ∧
  (∀ s : State, (s.sampling = false ∨ s.clk.frameAt + frameTicks ≤ s.clk.sampleAt) → exec .sampleEvaluation s = .next s) ∧
  (∀ (s : State) (counts : List (Fin 73 × DWord)), s.sampling = true → s.clk.frameAt % epochTicks = 0 →
    s.clk.epochAt < s.clk.frameAt →
    ∃ t, exec (.epochBoundary counts) s = .next t ∧ t.clk.epochAt = s.clk.frameAt ∧ t.clk.frameAt = s.clk.frameAt ∧
      t.get ADM_EPOCHS_CHECKED.one = (s.get ADM_EPOCHS_CHECKED.one + 1) % 2 ^ 32 ∧
      (s.slotsMatch counts = false → t.is ADM_STATUS_CHECK_FAIL.one = true ∧ t.latched 261 = true) ∧ s.sameMemory t) ∧
  (∀ (s : State) (counts : List (Fin 73 × DWord)), (s.sampling = false ∨ s.clk.frameAt % epochTicks ≠ 0 ∨
    s.clk.frameAt ≤ s.clk.epochAt) → exec (.epochBoundary counts) s = .next s) ∧
  (∀ (s : State) (n : Fin 65) (differs : Bool), (n.val < 64 ∨ differs = false) → (s.skein n.val).reducing = true →
    s.replaced n.val = false → (s.gear (s.streamOf n.val)).stateMode = true → (s.skein n.val).samples.length = 4096 →
    ∃ t, exec (.stateFrameBoundary n differs) s = .next t ∧ (t.skein n.val).samples = [] ∧
      (t.skein n.val).lastCount = 4096 ∧
      (n.val < 64 → s.is (SKN_COMMIT.of n.val) = false →
        (∀ x ∈ (s.skein n.val).samples.getLast?, x.t / 64 * 64 + 64 ≤ s.clk.sampleAt) →
        (∀ m, m ≠ n.val → t.skein m = s.skein m) ∧
        t = { s with regs := t.regs, link := t.link, skeins := t.skeins, rcd := t.rcd } ∧ s.link.sameButMessages t.link)) ∧
  ∀ (s : State) (n : Fin 65) (differs : Bool), ((s.skein n.val).reducing = false ∨ s.replaced n.val = true ∨
    (s.gear (s.streamOf n.val)).stateMode = false ∨ (s.skein n.val).samples.length ≠ 4096) →
    exec (.stateFrameBoundary n differs) s = .next s

/-- R199 to R201, R194: the sequencers' own commands on an admitting TRG page. -/
def Obligations.SequencersArmAndDisarm : Prop :=
  (∀ (s u : State) (n : Fin 8) (v : DWord), s.admits (PageClass.page .trg n.val) = true → bitOf v.toNat 1 = false →
    s.seqArmed n.val = false → s.get (TRG_STATUS_STATE.of n.val) ≠ 1 →
    u = forEach (trgCtrlFields n.val (setField v.toNat 0 1 1)) (s.set (unlockedOf (PageClass.page .trg n.val)) 0)
      (fun p s => s.set p.1 p.2) →
    ∃ t, exec (.trgArm n v) s = .next t ∧
      (u.armRefusal n.val (u.sessionLive n.val) = 0 → t.get (TRG_STATUS_STATE.of n.val) = 1 ∧
        t.is (TRG_CTRL_ARM.of n.val) = true ∧ t.get (TRG_ARM_ERR_CAUSE.of n.val) = 0 ∧
        t.seq n.val = { s.seq n.val with armDue := s.nextBoundary }) ∧
      (u.armRefusal n.val (u.sessionLive n.val) ≠ 0 → t.get (TRG_STATUS_STATE.of n.val) = s.get (TRG_STATUS_STATE.of n.val) ∧
        t.is (TRG_ARM_ERR_REFUSED.of n.val) = true ∧
        t.get (TRG_ARM_ERR_CAUSE.of n.val) = u.armRefusal n.val (u.sessionLive n.val) ∧
        t.latched (197 + 8 * n.val) = true ∧ t.seq n.val = s.seq n.val) ∧
      t.get (TRG_CTRL_START_LEVEL.of n.val) = field v.toNat 20 4 ∧ (∀ m, m ≠ n.val → t.seq m = s.seq m) ∧
      s.sameRegs ([TRG_STATUS_STATE.of n.val, TRG_CTRL_ARM.of n.val, TRG_ARM_ERR_CAUSE.of n.val, TRG_ARM_ERR_REFUSED.of n.val,
        TRG_CTRL_START_LEVEL.of n.val, TRG_CTRL_GATE_CLOSES.of n.val, TRG_CTRL_GATE_INIT.of n.val, TRG_CTRL_DETACH.of n.val,
        unlockedOf (PageClass.page .trg n.val)].map Fld.key ++ latches [197 + 8 * n.val]) t ∧
      ({ s with seqs := t.seqs } : State).sameButRegs t) ∧
  (∀ (s : State) (n : Fin 8) (v : DWord), s.admits (PageClass.page .trg n.val) = true → bitOf v.toNat 1 = false →
    (s.seqArmed n.val = true ∨ s.get (TRG_STATUS_STATE.of n.val) = 1) →
    ∃ t, exec (.trgArm n v) s = .next t ∧ t.get (TRG_STATUS_STATE.of n.val) = s.get (TRG_STATUS_STATE.of n.val) ∧
      t.is (TRG_CTRL_ARM.of n.val) = s.is (TRG_CTRL_ARM.of n.val) ∧ s.sameButRegs t) ∧
  (∀ (s : State) (n : Fin 8) (v : DWord), bitOf v.toNat 1 = true → exec (.trgArm n v) s = exec (.trgDisarm n v) s) ∧
  (∀ (s : State) (n : Fin 8) (v : DWord), s.admits (PageClass.page .trg n.val) = true →
    (s.seqArmed n.val = true ∨ s.get (TRG_STATUS_STATE.of n.val) = 1) →
    ∃ t, exec (.trgDisarm n v) s = .next t ∧ t.get (TRG_STATUS_STATE.of n.val) = 0 ∧ t.is (TRG_CTRL_ARM.of n.val) = false ∧
      (∀ p < 24, t.contrib p n.val = .clear) ∧ t.is (TRG_SEG_OPEN.of n.val) = false ∧
      ((ceilTo s.now fclkTicks ≤ s.clk.sampleAt ∨ s.sampling = false) →
        (∀ p m, m < 8 → m ≠ n.val → t.contrib p m = s.contrib p m) ∧ ({ s with pins := t.pins } : State).sameButRegs t)) ∧
  (∀ (s : State) (n : Fin 8) (v : DWord), s.admits (PageClass.page .trg n.val) = true →
    s.seqArmed n.val = false → s.get (TRG_STATUS_STATE.of n.val) ≠ 1 →
    exec (.trgDisarm n v) s = .next (forEach (trgCtrlFields n.val v.toNat) (s.set (unlockedOf (PageClass.page .trg n.val)) 0)
      (fun p s => s.set p.1 p.2))) ∧
  ∀ (s : State) (n : Fin 8) (v : DWord), s.admits (PageClass.page .trg n.val) = true →
    ∃ t, exec (.forcePulse n v) s = .next t ∧ t.get (TRG_FORCE_HOLD.of n.val) = field v.toNat 1 1 ∧
      (s.detached n.val = true → t.seq n.val = { s.seq n.val with force := true }) ∧
      (s.detached n.val = false →
        t.seq n.val = { s.seq n.val with forceAt := (s.seq n.val).forceAt ++ [ceilTo s.now fclkTicks] }) ∧
      (∀ m, m ≠ n.val → t.seq m = s.seq m) ∧
      s.sameRegs ([TRG_FORCE_HOLD.of n.val, unlockedOf (PageClass.page .trg n.val)].map Fld.key) t ∧
      t = { s with regs := t.regs, seqs := t.seqs }

/-- R191, R192: the pool's counters and timers at their ends. -/
def Obligations.TimersAndCountersEnd : Prop :=
  (∀ (s : State) (i : Fin 32), s.is (TRG_TM_CTRL_ENABLE.res i.val) = true →
    s.get (TRG_TM_LIMIT.res i.val) ≤ s.get (TRG_TM_VALUE.res i.val) →
    ∃ t, exec (.timerExpire i) s = .next t ∧ t.is (TRG_TM_STATUS_RUNNING.res i.val) = false ∧
      t.is (TRG_TM_STATUS_EXPIRED.res i.val) = true ∧
      s.sameRegs ([TRG_TM_STATUS_RUNNING.res i.val, TRG_TM_STATUS_EXPIRED.res i.val].map Fld.key) t ∧
      t = { s with regs := t.regs }) ∧
  (∀ (s : State) (i : Fin 32), (s.is (TRG_TM_CTRL_ENABLE.res i.val) = false ∨
    s.get (TRG_TM_VALUE.res i.val) < s.get (TRG_TM_LIMIT.res i.val)) → exec (.timerExpire i) s = .next s) ∧
  (∀ (s : State) (i : Fin 32), s.get (TRG_CT_TARGET.res i.val) ≤ s.get (TRG_CT_VALUE.res i.val) →
    ∃ t, exec (.counterTarget i) s = .next t ∧ t.is (TRG_CT_STATUS_REACHED.res i.val) = true ∧
      s.sameRegs [(TRG_CT_STATUS_REACHED.res i.val).key] t ∧ t = { s with regs := t.regs }) ∧
  (∀ (s : State) (i : Fin 32), s.get (TRG_CT_VALUE.res i.val) < s.get (TRG_CT_TARGET.res i.val) →
    exec (.counterTarget i) s = .next s) ∧
  (∀ (s : State) (i : Fin 32), s.get (TRG_CT_VALUE.res i.val) = 2 ^ 48 - 1 →
    ∃ t, exec (.counterSaturation (.counter i)) s = .next t ∧ t.get (TRG_CT_VALUE.res i.val) = 2 ^ 48 - 1 ∧
      t.is (TRG_CT_STATUS_SATURATED.res i.val) = true ∧
      t.is (TRG_CT_STATUS_RUNNING.res i.val) = s.is (TRG_CT_STATUS_RUNNING.res i.val) ∧
      (s.is (TRG_CT_STATUS_SATURATED.res i.val) = false → t.latched (200 + 8 * (i.val / 4)) = true) ∧
      s.sameRegs ([TRG_CT_VALUE.res i.val, TRG_CT_STATUS_SATURATED.res i.val, TRG_CT_STATUS_RUNNING.res i.val,
        TRG_CT_STATUS_REACHED.res i.val].map Fld.key ++ latches [200 + 8 * (i.val / 4)]) t ∧ s.sameButRegs t) ∧
  (∀ (s : State) (i : Fin 32), s.get (TRG_CT_VALUE.res i.val) ≠ 2 ^ 48 - 1 →
    exec (.counterSaturation (.counter i)) s = .next s) ∧
  (∀ (s : State) (i : Fin 32), s.get (TRG_TM_VALUE.res i.val) ≠ 2 ^ 48 - 1 →
    exec (.counterSaturation (.timer i)) s = .next s) ∧
  ∀ (s : State) (i : Fin 32), s.get (TRG_TM_VALUE.res i.val) = 2 ^ 48 - 1 →
    ∃ t, exec (.counterSaturation (.timer i)) s = .next t ∧ t.get (TRG_TM_VALUE.res i.val) = 2 ^ 48 - 1 ∧
      t.is (TRG_TM_STATUS_SATURATED.res i.val) = true ∧
      t.is (TRG_TM_STATUS_RUNNING.res i.val) = s.is (TRG_TM_STATUS_RUNNING.res i.val) ∧
      (s.is (TRG_TM_STATUS_SATURATED.res i.val) = false → t.latched (200 + 8 * (i.val / 4)) = true) ∧
      s.sameRegs ([TRG_TM_VALUE.res i.val, TRG_TM_STATUS_SATURATED.res i.val, TRG_TM_STATUS_RUNNING.res i.val,
        TRG_TM_STATUS_EXPIRED.res i.val].map Fld.key ++ latches [200 + 8 * (i.val / 4)]) t ∧ s.sameButRegs t

/-- R194, R208 to R210. -/
def Obligations.InputsTravelAndPulsesEnd : Prop :=
  (∀ (s : State) (k : Fin 8) (level : Bool), bitOf s.pins.trigIn k.val = !level →
    ∃ t, exec (.trigInEdge k level) s = .next t ∧ bitOf t.pins.trigIn k.val = level ∧
      t = { s with pins := { s.pins with trigIn := t.pins.trigIn, inputs := s.pins.inputs ++
        [⟨ceilTo (s.now + 1024) 64, k.val, level⟩] } }) ∧
  (∀ (s : State) (k : Fin 4) (low : Bool), bitOf s.pins.xtrigLow k.val = !low → (low = true ∨ s.xtrigDriven k.val = false) →
    ∃ t, exec (.xtrigEdge k low) s = .next t ∧ bitOf t.pins.xtrigLow k.val = low ∧
      t = { s with pins := { s.pins with xtrigLow := t.pins.xtrigLow, inputs := s.pins.inputs ++
        [⟨ceilTo (s.now + 2048) 64, 8 + k.val, low⟩] } }) ∧
  (∀ (s : State) (k : Fin 8), exec (.trigInEdge k (bitOf s.pins.trigIn k.val)) s = .next s) ∧
  (∀ (s : State) (k : Fin 4) (low : Bool), (bitOf s.pins.xtrigLow k.val = low ∨ (low = false ∧ s.xtrigDriven k.val = true)) →
    exec (.xtrigEdge k low) s = .next s) ∧
  (∀ (s : State) (pin : Fin 24) (n : Fin 8) (u : Nat), s.contrib pin.val n.val = .pulse u → u ≤ s.instant →
    ∃ t, exec (.pinPulseEnd pin n) s = .next t ∧ t.contrib pin.val n.val = .clear ∧
      (∀ p m, m < 8 → (p ≠ pin.val ∨ m ≠ n.val) → t.contrib p m = s.contrib p m) ∧
      t = { s with pins := { s.pins with contrib := t.pins.contrib, holdFrom := t.pins.holdFrom } }) ∧
  (∀ (s : State) (pin : Fin 24) (n : Fin 8) (u : Nat), s.contrib pin.val n.val = .pulse u → s.instant < u →
    exec (.pinPulseEnd pin n) s = .next s) ∧
  ∀ (s : State) (pin : Fin 24) (n : Fin 8), (s.contrib pin.val n.val = .asserted ∨ s.contrib pin.val n.val = .clear) →
    exec (.pinPulseEnd pin n) s = .next s

/-- R211 to R213, R222. -/
def Obligations.HoldsAreLimitedAndReleased : Prop :=
  (∀ (s : State) (k : Fin 8), s.holdLasted k.val (s.holdLimitTicks k.val) = true →
    ∃ t, exec (.holdLimit k) s = .next t ∧ t.holdActive k.val = false ∧ (∀ n < 8, t.contrib (16 + k.val) n = .clear) ∧
      sget t.pins.lockout k.val 0 = s.instant + s.get (DUT_HOLD_CTRL_GAP_US.of k.val) * ticksUs + 1 ∧
      t.get (DUT_HOLD_LIMITS.of k.val) = (s.get (DUT_HOLD_LIMITS.of k.val) + 1) % 2 ^ (DUT_HOLD_LIMITS.of k.val).width ∧
      t.latched (201 + 8 * k.val) = true ∧
      s.sameRegs ((DUT_HOLD_LIMITS.of k.val).key :: latches [201 + 8 * k.val]) t ∧
      ({ s with pins := t.pins } : State).sameButRegs t) ∧
  (∀ (s : State) (k : Fin 8), s.holdLasted k.val (s.holdLimitTicks k.val) = false → exec (.holdLimit k) s = .next s) ∧
  (∀ (s : State) (k : Fin 8), s.holdLasted k.val (1050 * ticksUs) = true →
    ∃ t, exec (.holdCeiling k) s = .next t ∧ t.holdActive k.val = false ∧ (∀ n < 8, t.contrib (16 + k.val) n = .clear) ∧
      sget t.pins.lockout k.val 0 = s.instant + s.get (DUT_HOLD_CTRL_GAP_US.of k.val) * ticksUs + 1 ∧
      t = { s with pins := t.pins }) ∧
  (∀ (s : State) (k : Fin 8), s.holdLasted k.val (1050 * ticksUs) = false → exec (.holdCeiling k) s = .next s) ∧
  (∀ s : State, ∃ t, exec .holdReleaseNFall s = .next t ∧ t.pins.releaseLow = true ∧
    (∀ k < 8, t.holdActive k = false ∧ (∀ x, t.holdLocked k x = true) ∧
      (s.holdActive k = true → t.latched (201 + 8 * k) = true)) ∧
    s.sameRegs (latches ((upto 8).map (fun k => 201 + 8 * k))) t ∧ ({ s with pins := t.pins } : State).sameButRegs t) ∧
  (∀ s : State, s.pins.releaseLow = true →
    ∃ t, exec .holdReleaseNRise s = .next t ∧ t.pins.releaseLow = false ∧
      (∀ k < 8, sget t.pins.lockout k 0 = s.now + s.get (DUT_HOLD_CTRL_GAP_US.of k) * ticksUs + 1) ∧
      t = { s with pins := { s.pins with releaseLow := false, lockout := t.pins.lockout } }) ∧
  (∀ s : State, s.pins.releaseLow = false → exec .holdReleaseNRise s = .next s) ∧
  ∀ (s : State) (k : Fin 8), ∃ t, exec (.holdGapEnd k) s = .next t ∧ sget t.pins.lockout k.val 0 = 0 ∧
    (∀ m, m ≠ k.val → sget t.pins.lockout m 0 = sget s.pins.lockout m 0) ∧
    t = { s with pins := { s.pins with lockout := t.pins.lockout } }

/-- R200, R214 to R216. -/
def Obligations.ReplaysTakeUnitsAndEnd : Prop :=
  (∀ (s : State) (n : Fin 8) (words rest : List Stitch) (limit : Nat), s.get (TRG_STATUS_STATE.of n.val) = 4 →
    firstItem (s.seq n.val).playIn = .unit words rest → (s.seq n.val).playBegun = false → (s.seq n.val).playStop = 0 →
    (s.seq n.val).sampleLimit words rest = some limit →
    (s.namedSkeins n.val).filter (fun p => p.1 == (openerOf words).skein) = [] →
    ∃ t, exec (.replayUnit n) s = .next t ∧ (t.seq n.val).playIn = rest ∧ (t.seq n.val).playBegun = true ∧
      (t.seq n.val).playAt = ceilTo (openerOf words).start 64 ∧
      (∃ u, (t.seq n.val).playHeld = (s.seq n.val).playHeld ++ [u] ∧ u.words = words ∧ u.t0 = (openerOf words).start ∧
        u.skein = (openerOf words).skein) ∧
      (∀ m, m ≠ n.val → t.seq m = s.seq m) ∧ s.sameRegs [(TRG_REPLAY_MERGED.of n.val).key] t ∧
      t = { s with regs := t.regs, seqs := t.seqs }) ∧
  (∀ (s : State) (n : Fin 8), (s.get (TRG_STATUS_STATE.of n.val) ≠ 4 ∨
    (firstItem (s.seq n.val).playIn = .short ∧ ((s.seq n.val).playStop = 0 ∨
      ((s.seq n.val).outBuf ≠ [] ∧ s.outWaits n.val = true)))) → exec (.replayUnit n) s = .next s) ∧
  ∀ (s : State) (n : Fin 8), s.get (TRG_STATUS_STATE.of n.val) = 4 → (s.seq n.val).playIn = [] → (s.seq n.val).playStop ≠ 0 →
    ((s.seq n.val).outBuf = [] ∨ s.outWaits n.val = false) →
    ∃ t, exec (.replayUnit n) s = .next t ∧
      t.get (TRG_STATUS_STATE.of n.val) = (if (s.seq n.val).playStop = 1 then 5 else 0) ∧
      t.is (TRG_REPLAY_STATUS_DONE.of n.val) = ((s.seq n.val).playStop == 1) ∧
      t.is (TRG_REPLAY_STATUS_CRC_ERR.of n.val) = ((s.seq n.val).playStop == 2) ∧
      ((s.seq n.val).playStop = 1 → (s.seq n.val).playHeld = [] →
        (s.namedSkeins n.val).any (fun p => sget (s.seq n.val).playEnd p.1 0 == 0) = true →
        t.get (TRG_ARM_ERR_CAUSE.of n.val) = 5 ∧ t.latched (197 + 8 * n.val) = true) ∧
      t.latched (199 + 8 * n.val) = true ∧ (t.seq n.val).playHeld = [] ∧ t.clk = s.clk ∧ t.now = s.now

/-- R228, R233, R234. -/
def Obligations.BudgetWritesAndRebuild : Prop :=
  (∀ (s : State) (v : DWord), s.admits (PageClass.page .adm 0) = true →
    ∃ t, exec (.admReserveWrite v) s = .next t ∧
      (500 ≤ field v.toNat 0 15 → field v.toNat 0 15 + s.creditsUsed ≤ s.get ADM_SLOTS_TOTAL.one →
        t.get ADM_RESERVE.one = field v.toNat 0 15 ∧
        t.get ADM_SLOTS_WRITE.one = (s.get ADM_SLOTS_TOTAL.one - field v.toNat 0 15) % 2 ^ 16 ∧
        s.sameRegs ([ADM_RESERVE.one, ADM_SLOTS_WRITE.one, unlockedOf (PageClass.page .adm 0)].map Fld.key) t) ∧
      (field v.toNat 0 15 < 500 ∨ s.get ADM_SLOTS_TOTAL.one < field v.toNat 0 15 + s.creditsUsed →
        t.is ADM_STATUS_RESERVE_REFUSED.one = true ∧ t.latched 260 = true ∧
        s.sameRegs ([ADM_STATUS_RESERVE_REFUSED.one, unlockedOf (PageClass.page .adm 0)].map Fld.key ++ latches [260]) t) ∧
      t.pageLocked (PageClass.page .adm 0) = true ∧ s.sameButRegs t) ∧
  (∀ (s : State) (v : DWord) (o : Nat), s.admits (PageClass.page .adm 0) = true → o = s.get ADM_CREDIT_INDEX.one →
    s.creditOwners.contains o = true →
    (∀ i, s.laneOwner o = some i → s.sessRuns i = true → s.get (ADM_CREDIT_MIN.win o) ≤ field v.toNat 0 16) →
    (field v.toNat 0 16 ≤ s.creditsOf o ∨
      (s.creditOwners.map s.creditsOf).sum - s.creditsOf o + field v.toNat 0 16 ≤ s.get ADM_SLOTS_WRITE.one) →
    ∃ t, exec (.admCreditWrite v) s = .next t ∧ sget t.rcd.creditNext o none = some (s.nextBoundary, field v.toNat 0 16) ∧
      (∀ p, p ≠ o → sget t.rcd.creditNext p none = sget s.rcd.creditNext p none) ∧
      s.sameRegs [(unlockedOf (PageClass.page .adm 0)).key] t ∧
      t = { s with regs := t.regs, rcd := { s.rcd with creditNext := t.rcd.creditNext } }) ∧
  (∀ (s : State) (v : DWord) (o : Nat), s.admits (PageClass.page .adm 0) = true → o = s.get ADM_CREDIT_INDEX.one →
    (s.creditOwners.contains o = false ∨
      (∃ i, s.laneOwner o = some i ∧ s.sessRuns i = true ∧ field v.toNat 0 16 < s.get (ADM_CREDIT_MIN.win o)) ∨
      (s.creditsOf o < field v.toNat 0 16 ∧
        s.get ADM_SLOTS_WRITE.one < (s.creditOwners.map s.creditsOf).sum - s.creditsOf o + field v.toNat 0 16)) →
    ∃ t, exec (.admCreditWrite v) s = .next t ∧ t.is ADM_STATUS_CREDIT_REFUSED.one = true ∧ t.latched 260 = true ∧
      s.sameRegs ([ADM_STATUS_CREDIT_REFUSED.one, unlockedOf (PageClass.page .adm 0)].map Fld.key ++ latches [260]) t ∧
      s.sameButRegs t) ∧
  (∀ s : State, (s.rcd.rebuildAsk = false ∨ s.anyRuns = true) → exec .budgetRebuild s = .next s) ∧
  ∀ s : State, s.rcd.rebuildAsk = true → s.anyRuns = false →
    ∃ t, exec .budgetRebuild s = .next t ∧ t.is ADM_STATUS_REBUILDING.one = false ∧ t.rcd.rebuildAsk = false ∧
      t.latched 262 = true ∧ s.sameMemory t

/-- R236, R240, R243, R246, R256, R264. -/
def Obligations.WriterSlotsServeTheirOwners : Prop :=
  (∀ (s : State) (o : Fin 72) (f : SlotFindings), s.get (WR_LANE_SIZE.win o.val) = 0 → exec (.writerSlot o f) s = .next s) ∧
  (∀ (s : State) (o : Fin 72) (f : SlotFindings), s.get (WR_LANE_SIZE.win o.val) ≠ 0 →
    (o.val < 64 → (s.skein o.val).queue = []) →
    (64 ≤ o.val → sget s.rcd.recordQ (o.val - 64) [] = [] ∧ s.seqWaiting (o.val - 64) = []) →
    exec (.writerSlot o f) s = .next { s with rcd := { s.rcd with served := smod s.rcd.served o.val 0 (· + 1) } }) ∧
  (∀ (s : State) (d : Fin 72) (q : QUnit) (rest : List QUnit), s.Sound → d.val < 64 → s.get (WR_LANE_SIZE.win d.val) ≠ 0 →
    (s.skein d.val).queue = q :: rest → q.fate = .undecided → (q.gateOn = false ∨ sget s.rcd.stopped d.val 0 = 1) →
    ∃ t, exec (.writerSlot d ⟨[], false⟩) s = .next t ∧ (t.skein d.val).queue = rest ∧
      (q.gateOn = false → t.get (ledgerFld (s.get (SKN_STATUS_SESSION.of d.val)) 9) =
        (s.get (ledgerFld (s.get (SKN_STATUS_SESSION.of d.val)) 9) + q.words.length) % 2 ^ 64) ∧
      (q.gateOn = true → t.get (ledgerFld (s.get (SKN_STATUS_SESSION.of d.val)) 10) =
        (s.get (ledgerFld (s.get (SKN_STATUS_SESSION.of d.val)) 10) + q.words.length) % 2 ^ 64) ∧
      t.get (WR_LANE_WRITTEN.win d.val) = s.get (WR_LANE_WRITTEN.win d.val) ∧ (∀ m, m ≠ d.val → t.skein m = s.skein m) ∧
      t.hbm = s.hbm ∧ s.sameMemory t) ∧
  (∀ (s u : State) (d : Fin 72) (q : QUnit) (rest : List QUnit), s.Sound → d.val < 64 → s.get (WR_LANE_SIZE.win d.val) ≠ 0 →
    (s.skein d.val).queue = q :: rest →
    (q.fate = .stored ∨ q.fate = .undecided ∧ q.gateOn = true ∧ sget s.rcd.stopped d.val 0 ≠ 1) → q.poison = 0 → u = s.onRcd (fun r => { r with served := smod r.served d.val 0 (· + 1) }) →
    (u.laneBurst (s.get (SKN_STATUS_SESSION.of d.val)) d.val (q.words.take 8) false).isSome = true →
    ∃ t, exec (.writerSlot d ⟨[], false⟩) s = .next t ∧
      t.get (WR_LANE_WRITTEN.win d.val) = (s.get (WR_LANE_WRITTEN.win d.val) + 64) % 2 ^ 64 ∧
      t.get (ledgerFld (s.get (SKN_STATUS_SESSION.of d.val)) 8) =
        (s.get (ledgerFld (s.get (SKN_STATUS_SESSION.of d.val)) 8) + (q.words.take 8).length) % 2 ^ 64 ∧
      ((q.words.drop 8).isEmpty = true → (t.skein d.val).queue = rest) ∧ (∀ m, m ≠ d.val → t.skein m = s.skein m) ∧
      t.now = s.now ∧ t.grt = s.grt ∧ t.svc = s.svc) ∧
  (∀ (s : State) (d : Fin 72) (q : QUnit) (rest : List QUnit), s.Sound → d.val < 64 → s.get (WR_LANE_SIZE.win d.val) ≠ 0 →
    (s.skein d.val).queue = q :: rest →
    (q.fate = .stored ∨ q.fate = .undecided ∧ q.gateOn = true ∧ sget s.rcd.stopped d.val 0 ≠ 1) →
    ∃ t, exec (.writerSlot d ⟨[], true⟩) s = .next t ∧ t.latched 279 = true ∧ t.latched 479 = true ∧
      t.flt.log.head?.map (fun e => e.event) = some 279 ∧
      t.get (WR_LANE_WRITTEN.win d.val) = s.get (WR_LANE_WRITTEN.win d.val) ∧ s.sameMemory t) ∧
  (∀ (s : State) (o : Fin 72), 64 ≤ o.val → s.get (WR_LANE_SIZE.win o.val) ≠ 0 →
    (sget s.rcd.recordQ (o.val - 64) [] ≠ [] ∨ s.seqWaiting (o.val - 64) ≠ []) →
    ∃ t, exec (.writerSlot o ⟨[], true⟩) s = .next t ∧ t.latched 279 = true ∧
      t.flt.log.head?.map (fun e => e.event) = some 279 ∧
      t.get (WR_LANE_WRITTEN.win o.val) = s.get (WR_LANE_WRITTEN.win o.val) ∧ s.sameMemory t) ∧
  (∀ (s : State) (o : Fin 72), 64 ≤ o.val → s.get (WR_LANE_SIZE.win o.val) ≠ 0 → s.recordFull (o.val - 64) 64 = true →
    sget s.rcd.recordQ (o.val - 64) [] = [] → s.seqWaiting (o.val - 64) ≠ [] →
    ∃ t, exec (.writerSlot o ⟨[], false⟩) s = .next t ∧ t.hbm = s.hbm ∧
      t.get (ledgerFld (o.val - 64) 15) = (s.get (ledgerFld (o.val - 64) 15) +
        ((s.seqWaiting (o.val - 64)).take 8).length) % 2 ^ 64 ∧
      (t.seq (o.val - 64)).stitches = (s.seqWaiting (o.val - 64)).drop 8 ∧ t.skeins = s.skeins) ∧
  ∀ (s u : State) (o : Fin 72), 64 ≤ o.val → s.get (WR_LANE_SIZE.win o.val) ≠ 0 → s.recordFull (o.val - 64) 64 = false →
    sget s.rcd.recordQ (o.val - 64) [] = [] → s.seqWaiting (o.val - 64) ≠ [] →
    u = (s.onRcd (fun r => { r with served := smod r.served o.val 0 (· + 1), recordQ := smod r.recordQ (o.val - 64) [] (·.drop 0) })).onSeq
      (o.val - 64) (fun q => { q with stitches := q.stitches.drop ((s.seqWaiting (o.val - 64)).take 8).length }) →
    (u.laneBurst (o.val - 64) o.val ((s.seqWaiting (o.val - 64)).take 8) false).isSome = true →
    ∃ t, exec (.writerSlot o ⟨[], false⟩) s = .next t ∧
      t.get (WR_LANE_WRITTEN.win o.val) = (s.get (WR_LANE_WRITTEN.win o.val) + 64) % 2 ^ 64 ∧
      (t.seq (o.val - 64)).stitches = (s.seqWaiting (o.val - 64)).drop 8 ∧ t.skeins = s.skeins ∧ t.now = s.now ∧
      t.grt = s.grt ∧ t.svc = s.svc

/-- R226, R247, R249, R251, R253, R254. -/
def Obligations.RecordsReleasesAndCloses : Prop :=
  (∀ (s : State) (n : Fin 8), sget s.rcd.ledgerDue n.val [] = [] → exec (.ledgerRecordWrite n) s = .next s) ∧
  (∀ (s : State) (n : Fin 8) (r : List Stitch) (rs : List (List Stitch)), sget s.rcd.ledgerDue n.val [] = r :: rs →
    ∃ t, exec (.ledgerRecordWrite n) s = .next t ∧ sget t.rcd.ledgerDue n.val [] = rs ∧ t.skeins = s.skeins ∧ t.now = s.now) ∧
  (∀ (s a b c : State) (n : Fin 8) (r : List Stitch) (rs : List (List Stitch)),
    sget s.rcd.ledgerDue n.val [] = r :: rs → sget s.rcd.recordQ n.val [] = [] → s.recordFull n.val 192 = false →
    s.laneBurst n.val (64 + n.val) (r.take 8) false = some a →
    a.laneBurst n.val (64 + n.val) ((r.drop 8).take 8) false = some b →
    b.laneBurst n.val (64 + n.val) (r.drop 16) false = some c →
    ∃ t, exec (.ledgerRecordWrite n) s = .next t ∧
      t.get (WR_LANE_WRITTEN.win (64 + n.val)) = (s.get (WR_LANE_WRITTEN.win (64 + n.val)) + 192) % 2 ^ 64 ∧
      t.get (WR_SESSION_LEDGER_SEQ.elt n.val) = (s.get (WR_SESSION_LEDGER_SEQ.elt n.val) + 1) % 2 ^ 32 ∧
      sget t.rcd.ledgerDue n.val [] = rs ∧ t.skeins = s.skeins ∧ t.now = s.now ∧ t.grt = s.grt ∧ t.svc = s.svc) ∧
  (∀ (s : State) (n : Fin 8) (r : List Stitch) (rs : List (List Stitch)),
    sget s.rcd.ledgerDue n.val [] = r :: rs → sget s.rcd.recordQ n.val [] = [] → s.recordFull n.val 192 = true →
    ∃ t, exec (.ledgerRecordWrite n) s = .next t ∧ t.latched 278 = true ∧ sget t.rcd.ledgerDue n.val [] = rs ∧
      s.sameRegs (latches [278]) t ∧ ({ s with rcd := { s.rcd with ledgerDue := t.rcd.ledgerDue } } : State).sameButRegs t) ∧
  (∀ (s : State) (v : BitVec 64) (i l : Nat), s.Sound → s.admits (PageClass.page .wr 0) = true → l = s.get WR_LANE_INDEX.one →
    s.laneOwner l = some i → s.policy i = 2 →
    ∃ t, exec (.releasedWrite v) s = .next t ∧
      (s.get (WR_LANE_RELEASED.win l) ≤ v.toNat → v.toNat ≤ s.get (WR_LANE_WRITTEN.win l) →
        t.get (WR_LANE_RELEASED.win l) = v.toNat ∧
        s.sameRegs ([WR_LANE_RELEASED.win l, WR_SESSION_HELD.elt i, WR_SESSION_STATUS_OVER_QUOTA.elt i,
          WR_LANE_OLDEST.win l, unlockedOf (PageClass.page .wr 0)].map Fld.key ++ latches [274]) t ∧
        (∀ u ∈ sget t.rcd.held l [], u.start < v.toNat → u.opener = none)) ∧
      (v.toNat < s.get (WR_LANE_RELEASED.win l) ∨ s.get (WR_LANE_WRITTEN.win l) < v.toNat →
        t.get (WR_LANE_RELEASED.win l) = s.get (WR_LANE_RELEASED.win l) ∧
        t.is (accessErrOf (PageClass.page .wr 0)) = true) ∧
      ({ s with rcd := { s.rcd with held := t.rcd.held } } : State).sameButRegs t) ∧
  (∀ (s : State) (v : BitVec 64) (i : Nat), s.admits (PageClass.page .wr 0) = true →
    s.laneOwner (s.get WR_LANE_INDEX.one) = some i → s.policy i ≠ 2 →
    exec (.releasedWrite v) s = .next (s.set (unlockedOf (PageClass.page .wr 0)) 0)) ∧
  (∀ (s : State) (v : BitVec 64), s.admits (PageClass.page .wr 0) = true → s.laneOwner (s.get WR_LANE_INDEX.one) = none →
    ∃ t, exec (.releasedWrite v) s = .next t ∧ t.is (accessErrOf (PageClass.page .wr 0)) = true ∧ s.sameButRegs t) ∧
  (∀ (s : State) (x : Nat), s.Sound → s.admits (PageClass.page .seg 0) = true → x = s.get SEG_INDEX.one →
    ∃ t, exec .segCmdRelease s = .next t ∧
      (2 ≤ s.get (SEG_ENTRY_INFO_STATE.win x) → t.get (SEG_ENTRY_INFO_STATE.win x) = 0 ∧
        t.get (SEG_ENTRY_OPEN.win x) = 0 ∧ t.get (SEG_ENTRY_CLOSE.win x) = 0 ∧
        t.get SEG_FREE.one = (s.get SEG_FREE.one + 1) % 2 ^ 15 ∧
        t.get (SEG_SESSION_USED.elt (s.get (SEG_ENTRY_INFO_SESSION.win x))) =
          s.get (SEG_SESSION_USED.elt (s.get (SEG_ENTRY_INFO_SESSION.win x))) - 1) ∧
      (s.get (SEG_ENTRY_INFO_STATE.win x) ≤ 1 → t.is SEG_STATUS.one = true ∧ t.latched 285 = true ∧
        s.sameRegs ([SEG_STATUS.one, unlockedOf (PageClass.page .seg 0)].map Fld.key ++ latches [285]) t) ∧
      s.sameButRegs t) ∧
  (∀ (s : State) (n : Fin 8), s.ending n.val = none → exec (.sessionCloseDone n) s = .next s) ∧
  (∀ (s : State) (n : Fin 8) (e : CloseReq), s.ending n.val = some e →
    ∃ t, exec (.sessionCloseDone n) s = .next t ∧
      (t.ending n.val = none ∨ ∃ d ∈ t.planSkeins n.val, (t.skein d).queue ≠ [])) ∧
  ∀ (s : State) (n : Fin 8) (e : CloseReq), s.ending n.val = some e → s.sessState n.val = 4 →
    (∀ d ∈ s.planSkeins n.val, (s.skein d).queue = []) → sget s.rcd.recordQ n.val [] = [] → s.seqWaiting n.val = [] →
    sget s.rcd.ledgerDue n.val [] = [] →
    ∃ t, exec (.sessionCloseDone n) s = .next t ∧ t.ending n.val = none ∧ t.latched (266 + n.val) = true ∧
      (sget s.rcd.releaseDue n.val 0 ≠ 1 → t.sessState n.val = (if e.clean then 5 else 6) ∧
        ∀ d ∈ s.planSkeins n.val, t.is (SKN_STATUS_IN_SESSION.of d) = false) ∧
      (sget s.rcd.releaseDue n.val 0 = 1 → t.sessState n.val = 0 ∧ t.latched 263 = true) ∧
      t.now = s.now ∧ t.grt = s.grt ∧ t.svc = s.svc

/-- R267, R269 to R272, R282, R287, R289. -/
def Obligations.HbmAcceptsAndIssues : Prop :=
  (∀ (s : State) (a : BitVec 37) (data : List Byte) (bad : Bool) (pc x : Nat), data.length = 64 → a.toNat % 64 = 0 →
    s.is HBM_G_STATUS_STOPPED.one = false → s.translate a.toNat = some (pc, x) → s.pcState pc < 2 →
    ∃ t, exec (.hbmBurstAccept a data bad) s = .next t ∧ t.hbm.burstAt pc x = data ∧
      t.hbm.markAt pc x = 2 * flag bad ∧ t.pcState pc = 0 ∧ ({ s with hbm := t.hbm } : State).sameButRegs t ∧
      (s.queueRoom pc = true → t.hbm.mem = s.hbm.mem ∧ (t.hbm.writes pc).length = (s.hbm.writes pc).length + 1)) ∧
  (∀ (s : State) (a : BitVec 37) (data : List Byte) (bad : Bool), data.length = 64 → a.toNat % 64 = 0 →
    (s.is HBM_G_STATUS_STOPPED.one = true ∨ s.translate a.toNat = none ∨
      ∃ pc x, s.translate a.toNat = some (pc, x) ∧ s.pcState pc = 2) →
    exec (.hbmBurstAccept a data bad) s = .next s) ∧
  (∀ (s : State) (a : BitVec 37) (pc x : Nat), s.is HBM_G_STATUS_STOPPED.one = false →
    s.translateRead a.toNat = some (pc, x) → s.pcState pc < 2 → (s.hbm.reads pc).length < 32 →
    ∃ t, exec (.hbmReadAccept a) s = .next t ∧ t.hbm.reads pc = s.hbm.reads pc ++ [⟨x / 64 * 64, s.hbm.accepted⟩] ∧
      t.hbm.mem = s.hbm.mem ∧ t.hbm.writeQ = s.hbm.writeQ ∧ t = { s with regs := t.regs, hbm := t.hbm }) ∧
  (∀ (s : State) (a : BitVec 37) (pc x : Nat), s.is HBM_G_STATUS_STOPPED.one = false →
    s.translateRead a.toNat = some (pc, x) → (s.pcState pc = 2 ∨ s.pcState pc = 3) →
    exec (.hbmReadAccept a) s = .next { s with hbm := { s.hbm with delivered := List.replicate 64 0, fault := 1 } }) ∧
  (∀ (s : State) (a : BitVec 37), (s.is HBM_G_STATUS_STOPPED.one = true ∨ s.translateRead a.toNat = none ∨
    ∃ pc x, s.translateRead a.toNat = some (pc, x) ∧ s.pcState pc < 2 ∧ 32 ≤ (s.hbm.reads pc).length) →
    exec (.hbmReadAccept a) s = .next s) ∧
  (∀ (s : State) (pc : Fin 128) (w : HbmWrite) (ws : List HbmWrite), s.pcState pc.val = 0 → s.hbmPick pc.val = .write →
    s.hbm.writes pc.val = w :: ws → w.data.length = 64 →
    ∃ t, exec (.hbmIssue pc false) s = .next t ∧ t.hbm.writes pc.val = ws ∧
      (∀ i < 64, sget t.hbm.mem (memKey pc.val (w.x + i)) 0 = w.data.getD i 0) ∧
      (∀ a, (a < memKey pc.val w.x ∨ memKey pc.val w.x + 64 ≤ a) → sget t.hbm.mem a 0 = sget s.hbm.mem a 0) ∧
      t.get (HBM_WRITTEN.of (stackOf pc.val)) = (s.get (HBM_WRITTEN.of (stackOf pc.val)) + 64) % 2 ^ 64 ∧
      t = { s with regs := t.regs, hbm := t.hbm }) ∧
  (∀ (s : State) (pc : Fin 128) (r : HbmRead) (rs : List HbmRead), s.pcState pc.val = 0 → s.hbmPick pc.val = .read →
    s.hbm.reads pc.val = r :: rs →
    ∃ t, exec (.hbmIssue pc false) s = .next t ∧ t.hbm.reads pc.val = rs ∧
      sget t.hbm.issued pc.val [] = sget s.hbm.issued pc.val [] ++ [s.hbm.taken pc.val r] ∧ t.hbm.mem = s.hbm.mem ∧
      t = { s with regs := t.regs, hbm := t.hbm }) ∧
  (∀ (s : State) (pc : Fin 128), s.pcState pc.val = 0 → s.hbmPick pc.val = .idle →
    exec (.hbmIssue pc false) s = .next { s with hbm := { s.hbm with parityRun := sput s.hbm.parityRun pc.val 0 0 } }) ∧
  ∀ (s : State) (pc : Fin 128) (bad : Bool), s.pcState pc.val ≠ 0 → exec (.hbmIssue pc bad) s = .next s

/-- R266, R273 to R277, R280, R287, R390. -/
def Obligations.HbmChecksItsData : Prop :=
  (∀ (s : State) (pc : Fin 128) (f : EccFinding), sget s.hbm.issued pc.val [] = [] → exec (.hbmReadData pc f) s = .next s) ∧
  (∀ (s : State) (pc : Fin 128) (r : HbmIssued) (rs : List HbmIssued), sget s.hbm.issued pc.val [] = r :: rs →
    r.mark = 0 →
    ∃ t, exec (.hbmReadData pc .clean) s = .next t ∧ t.hbm.delivered = r.data ∧ t.hbm.fault = 0 ∧
      sget t.hbm.issued pc.val [] = rs ∧
      t = { s with hbm := { s.hbm with issued := t.hbm.issued, delivered := t.hbm.delivered, fault := t.hbm.fault } }) ∧
  (∀ (s : State) (pc : Fin 128) (r : HbmIssued) (rs : List HbmIssued), sget s.hbm.issued pc.val [] = r :: rs →
    r.mark = 0 →
    ∃ t, exec (.hbmReadData pc .corrected) s = .next t ∧ t.hbm.delivered = r.data ∧ t.hbm.fault = 0 ∧
      t.get (HBM_PC_CE.ofWin (stackOf pc.val) (pc.val % 32)) =
        (s.get (HBM_PC_CE.ofWin (stackOf pc.val) (pc.val % 32)) + 1) % 2 ^ 32 ∧
      t.latched (290 + 16 * stackOf pc.val) = true ∧ t.hbm.mem = s.hbm.mem) ∧
  (∀ (s : State) (pc : Fin 128) (f : EccFinding) (r : HbmIssued) (rs : List HbmIssued), sget s.hbm.issued pc.val [] = r :: rs →
    (r.mark = 1 ∨ r.mark = 0 ∧ f = .uncorrectable) →
    ∃ t, exec (.hbmReadData pc f) s = .next t ∧ t.hbm.fault = 1 ∧ (r.mark = 1 → t.hbm.delivered = r.data) ∧
      t.get (HBM_PC_UE.ofWin (stackOf pc.val) (pc.val % 32)) =
        (s.get (HBM_PC_UE.ofWin (stackOf pc.val) (pc.val % 32)) + 1) % 2 ^ 32 ∧
      t.get (HBM_LAST_UE.of (stackOf pc.val)) =
        unmapAddr s.serviceList s.grain pc.val r.x % 2 ^ (HBM_LAST_UE.of (stackOf pc.val)).width ∧
      t.latched (291 + 16 * stackOf pc.val) = true) ∧
  (∀ (s : State) (pc : Fin 128) (f : EccFinding) (r : HbmIssued) (rs : List HbmIssued), sget s.hbm.issued pc.val [] = r :: rs →
    r.mark = 2 →
    ∃ t, exec (.hbmReadData pc f) s = .next t ∧ t.hbm.delivered = r.data ∧ t.hbm.fault = 0 ∧
      t.get (HBM_PC_POISON.ofWin (stackOf pc.val) (pc.val % 32)) =
        (s.get (HBM_PC_POISON.ofWin (stackOf pc.val) (pc.val % 32)) + 1) % 2 ^ 32 ∧
      t.latched (300 + 16 * stackOf pc.val) = true ∧ t.hbm.mem = s.hbm.mem) ∧
  (∀ (s : State) (pc : Fin 128) (b : BitVec 24), b.toNat < pcBytes / 64 - 1 → s.is HBM_G_CTRL_SCRUB_EN.one = true →
    s.pcState pc.val = 0 → s.is HBM_G_STATUS_PARKED.one = false → s.get PWR_STATUS_STATE.one ≠ 2 →
    exec (.scrubRead pc b .clean) s = .next s ∧
    ∃ t u, exec (.scrubRead pc b .corrected) s = .next t ∧ t.latched (290 + 16 * stackOf pc.val) = true ∧
      t.get (HBM_PC_CE.ofWin (stackOf pc.val) (pc.val % 32)) =
        (s.get (HBM_PC_CE.ofWin (stackOf pc.val) (pc.val % 32)) + 1) % 2 ^ 32 ∧ s.sameMemory t ∧
      exec (.scrubRead pc b .uncorrectable) s = .next u ∧ u.latched (292 + 16 * stackOf pc.val) = true ∧
      u.get (HBM_PC_UE.ofWin (stackOf pc.val) (pc.val % 32)) =
        (s.get (HBM_PC_UE.ofWin (stackOf pc.val) (pc.val % 32)) + 1) % 2 ^ 32 ∧ u.hbm.markAt pc.val (b.toNat * 64) ≠ 0) ∧
  (∀ (s : State) (pc : Fin 128) (b : BitVec 24), b.toNat = pcBytes / 64 - 1 → s.is HBM_G_CTRL_SCRUB_EN.one = true →
    s.pcState pc.val = 0 → s.is HBM_G_STATUS_PARKED.one = false → s.get PWR_STATUS_STATE.one ≠ 2 →
    ∃ t, exec (.scrubRead pc b .clean) s = .next t ∧ s.sameMemory t ∧
      ((∀ p ∈ s.serviceList, p ≠ pc.val → sget s.hbm.scrubDone p 0 = 1) →
        t.get HBM_G_SCRUB_PASSES.one = (s.get HBM_G_SCRUB_PASSES.one + 1) % 2 ^ 32 ∧ t.hbm.scrubDone = [] ∧
          t.latched (301 + 16 * stackOf pc.val) = true)) ∧
  (∀ (s : State) (pc : Fin 128) (b : BitVec 24) (f : EccFinding), b.toNat < pcBytes / 64 →
    (s.is HBM_G_CTRL_SCRUB_EN.one = false ∨ s.pcState pc.val ≠ 0 ∨ s.is HBM_G_STATUS_PARKED.one = true ∨
      s.get PWR_STATUS_STATE.one = 2) → exec (.scrubRead pc b f) s = .next s) ∧
  (∀ (s : State) (pc : Fin 128), exec (.refreshWindow pc) s = .next s) ∧
  (∀ (s : State) (pc : Fin 128) (m : Byte), s.pcState pc.val = 0 → bitOf (s.get MBX_CPU_STATUS_ME_LOADED.one) 0 = true →
    ∃ t, exec (.retrainingPause pc m .centred) s = .next t ∧
      t.get (HBM_PC_STATE_MARGIN.ofWin (stackOf pc.val) (pc.val % 32)) =
        m.toNat % 2 ^ (HBM_PC_STATE_MARGIN.ofWin 0 0).width ∧
      (m.toNat < 8 → t.latched (295 + 16 * stackOf pc.val) = true) ∧ sget t.hbm.weak pc.val 0 = flag (decide (m.toNat < 8)) ∧
      (sget s.hbm.weak pc.val 0 = 0 → s.sameRegs ((HBM_PC_STATE_MARGIN.ofWin (stackOf pc.val) (pc.val % 32)).key ::
        latches [295 + 16 * stackOf pc.val]) t) ∧
      (sget s.hbm.weak pc.val 0 ≠ 0 → t.latched (294 + 16 * stackOf pc.val) = true ∧
        t.get (HBM_PC_STATE_REPAIRED.ofWin (stackOf pc.val) (pc.val % 32)) =
          (s.get (HBM_PC_STATE_REPAIRED.ofWin (stackOf pc.val) (pc.val % 32)) + 1) %
            2 ^ (HBM_PC_STATE_REPAIRED.ofWin 0 0).width) ∧
      ({ s with hbm := { s.hbm with weak := t.hbm.weak } } : State).sameButRegs t) ∧
  (∀ (s : State) (pc : Fin 128) (m : Byte) (l : LaneFinding),
    (s.pcState pc.val ≠ 0 ∨ bitOf (s.get MBX_CPU_STATUS_ME_LOADED.one) 0 = false) →
    exec (.retrainingPause pc m l) s = .next s) ∧
  ∀ (s : State) (k : Fin 4) (temp : Byte),
    ∃ t, exec (.stackTempRead k temp) s = .next t ∧ t.get (HBM_STATUS_TEMP.of k.val) = temp.toNat ∧
      t.is (HBM_STATUS_HOT.of k.val) = decide (85 ≤ signed 8 temp.toNat) ∧
      (85 ≤ signed 8 temp.toNat → s.is (HBM_STATUS_HOT.of k.val) = false → t.latched (296 + 16 * k.val) = true) ∧
      s.sameRegs ([HBM_STATUS_TEMP.of k.val, HBM_STATUS_HOT.of k.val].map Fld.key ++ latches [296 + 16 * k.val]) t ∧
      s.sameButRegs t

/-- R279 to R282, R460. -/
def Obligations.HbmFailuresLeaveService : Prop :=
  (∀ (s : State) (pc : Fin 128) (c : Instr) (e : Nat), s.Sound → s.inService pc.val = true →
    (c = .readTimeout pc ∧ e = 299 ∨ c = .statusPoll pc false ∧ e = 299 ∨
      c = .hbmIssue pc true ∧ e = 298 ∧ s.pcState pc.val = 0 ∧ 3 ≤ sget s.hbm.parityRun pc.val 0 ∨
      (∃ m, c = .retrainingPause pc m .beyondRepair) ∧ e = 293 ∧ s.pcState pc.val = 0 ∧
        bitOf (s.get MBX_CPU_STATUS_ME_LOADED.one) 0 = true) →
    ∃ t, exec c s = .next t ∧ t.pcState pc.val = 3 ∧ bitOf (t.get (HBM_FENCED.of (stackOf pc.val))) (pc.val % 32) = true ∧
      t.latched (e + 16 * stackOf pc.val) = true ∧ t.latched (293 + 16 * stackOf pc.val) = true ∧ t.hbm.writes pc.val = [] ∧
      t.hbm.mem = s.hbm.mem ∧ t.rcd.rebuildAsk = true ∧ t.is ADM_STATUS_REBUILDING.one = true ∧
      (∀ i < 8, s.sessState i = 3 → t.sessState i = 4) ∧
      (3 ≤ ((sget s.hbm.failures (stackOf pc.val) []).filter (fun t => decide (s.now < t + ticksMs))).length →
        t.get (HBM_STATUS_STATE.of (stackOf pc.val)) = 5 ∧ t.latched (302 + 16 * stackOf pc.val) = true ∧
        ∀ q < 32, t.pcState (32 * stackOf pc.val + q) = 3) ∧
      (((sget s.hbm.failures (stackOf pc.val) []).filter (fun t => decide (s.now < t + ticksMs))).length < 3 →
        ∀ p < 128, p ≠ pc.val → t.pcState p = s.pcState p)) ∧
  (∀ (s : State) (pc : Fin 128), s.inService pc.val = false →
    exec (.readTimeout pc) s = .next s ∧ exec (.statusPoll pc false) s = .next s) ∧
  (∀ (s : State) (pc : Fin 128), exec (.statusPoll pc true) s = .next s) ∧
  (∀ (s : State) (v : DWord), s.Sound → s.admits (PageClass.page .hbmg 0) = true → bitOf v.toNat 8 = false →
    s.pcState (field v.toNat 0 7) ≠ 3 →
    ∃ t, exec (.hbmFenceGo v) s = .next t ∧ t.pcState (field v.toNat 0 7) = 3 ∧
      t.latched (293 + 16 * stackOf (field v.toNat 0 7)) = true ∧ t.latched 470 = true ∧
      t.hbm.writes (field v.toNat 0 7) = [] ∧ t.hbm.mem = s.hbm.mem ∧ (∀ i < 8, s.sessState i = 3 → t.sessState i = 4)) ∧
  (∀ (s : State) (v : DWord) (k : Nat), s.admits (PageClass.page .hbmg 0) = true → k = stackOf (field v.toNat 0 7) →
    (bitOf v.toNat 8 = false ∧ s.pcState (field v.toNat 0 7) = 3 ∨
      bitOf v.toNat 8 = true ∧ s.get (HBM_STATUS_STATE.of k) = 5) →
    ∃ t, exec (.hbmFenceGo v) s = .next t ∧ (∀ p, t.pcState p = s.pcState p) ∧
      t.flt.log.head?.map (fun e => (e.event, e.outcome)) = some (470, 1) ∧ t.hbm = s.hbm) ∧
  (∀ (s : State) (pc : Fin 128), s.pcState pc.val = 0 → sget s.hbm.parityRun pc.val 0 < 3 →
    ∃ t, exec (.hbmIssue pc true) s = .next t ∧ t.latched (298 + 16 * stackOf pc.val) = true ∧
      sget t.hbm.parityRun pc.val 0 = sget s.hbm.parityRun pc.val 0 + 1 ∧ s.sameRegs (latches [298 + 16 * stackOf pc.val]) t ∧
      ({ s with hbm := { s.hbm with parityRun := t.hbm.parityRun } } : State).sameButRegs t) ∧
  (∀ (s : State) (k : Fin 4), s.get (HBM_STATUS_STATE.of k.val) = 5 →
    ∃ t, exec (.stackCatastrophicTrip k) s = .next t ∧ (∀ p, t.pcState p = s.pcState p) ∧
      t.flt.log.head?.map (fun e => (e.event, e.outcome)) = some (297 + 16 * k.val, 1) ∧ t.hbm = s.hbm) ∧
  ∀ (s : State) (k : Fin 4) (c : Instr), s.Sound → s.get (HBM_STATUS_STATE.of k.val) ≠ 5 →
    (c = .stackCatastrophicTrip k ∨ ∃ v, c = .hbmFenceGo v ∧ s.admits (PageClass.page .hbmg 0) = true ∧
      bitOf v.toNat 8 = true ∧ stackOf (field v.toNat 0 7) = k.val) →
    ∃ t, exec c s = .next t ∧ t.get (HBM_STATUS_STATE.of k.val) = 5 ∧
      (∀ q < 32, t.pcState (32 * k.val + q) = 3 ∧ t.hbm.writes (32 * k.val + q) = []) ∧
      t.is (fencedOf (PageClass.page .hbm k.val)) = true ∧ (c = .stackCatastrophicTrip k → t.latched (297 + 16 * k.val) = true) ∧
      t.latched (302 + 16 * k.val) = true ∧ t.hbm.mem = s.hbm.mem

/-- R278, R284 to R286, R288, R442. -/
def Obligations.HbmTrainsSleepsAndWakes : Prop :=
  (∀ s : State, s.locked = true → s.is SVC_STATUS_RECOVERY.one = false → (∃ pc < 128, s.pcState pc = 4) →
    (∃ t, exec (.hbmTrainingDone []) s = .next t ∧ t.is HBM_G_STATUS_READY.one = true ∧
      (∀ pc < 128, s.pcState pc = 4 → t.pcState pc = 0 ∧ ∀ x < pcBytes, sget t.hbm.mem (memKey pc x) 0 = 0) ∧
      (∀ pc < 128, s.pcState pc ≠ 4 → t.pcState pc = s.pcState pc ∧
        ∀ x < pcBytes, sget t.hbm.mem (memKey pc x) 0 = sget s.hbm.mem (memKey pc x) 0) ∧
      t = { s with regs := t.regs, hbm := { s.hbm with mem := t.hbm.mem, marks := t.hbm.marks } }) ∧
    ∀ bad : List (Fin 128), ∃ t, exec (.hbmTrainingDone bad) s = .next t ∧ t.is HBM_G_STATUS_READY.one = true ∧
      (∀ pc ∈ bad, t.pcState pc.val = 3) ∧ ∀ pc < 128, s.pcState pc = 4 → t.pcState pc = 0 ∨ t.pcState pc = 3) ∧
  (∀ (s : State) (bad : List (Fin 128)), (s.locked = false ∨ s.is SVC_STATUS_RECOVERY.one = true ∨
    ∀ pc < 128, s.pcState pc ≠ 4) → exec (.hbmTrainingDone bad) s = .next s) ∧
  (∀ (s : State) (pc : Fin 128), s.is HBM_G_STATUS_PARKED.one = true → s.get PWR_STATUS_STATE.one ≠ 4 →
    s.pcState pc.val = 0 → (∀ w ∈ s.hbm.writes pc.val, w.data.length = 64) →
    ∃ t, exec (.hbmIdleSelfRefresh pc) s = .next t ∧ t.pcState pc.val = 1 ∧ t.hbm.writes pc.val = [] ∧
      (∀ x, t.hbm.byteAt pc.val x = s.hbm.byteAt pc.val x) ∧ (∀ p, p ≠ pc.val → t.hbm.writes p = s.hbm.writes p) ∧
      t = { s with regs := t.regs, hbm := t.hbm }) ∧
  (∀ (s : State) (pc : Fin 128), (s.is HBM_G_STATUS_PARKED.one = false ∨ s.get PWR_STATUS_STATE.one = 4 ∨
    s.pcState pc.val ≠ 0) → exec (.hbmIdleSelfRefresh pc) s = .next s) ∧
  (∀ s : State, s.is HBM_G_STATUS_PARKED.one = true →
    (∃ t, exec (.hbmWakeReady []) s = .next t ∧ t.is HBM_G_STATUS_READY.one = true ∧ t.is HBM_G_STATUS_PARKED.one = false ∧
      (∀ pc < 128, s.pcState pc = 1 → t.pcState pc = 0 ∧
        ∀ x < pcBytes, sget t.hbm.mem (memKey pc x) 0 = sget s.hbm.mem (memKey pc x) 0) ∧
      (∀ pc < 128, s.pcState pc = 2 → t.pcState pc = 0 ∧ ∀ x < pcBytes, sget t.hbm.mem (memKey pc x) 0 = 0) ∧
      (∀ k < 4, t.latched (304 + 16 * k) = true) ∧
      ({ s with hbm := { s.hbm with mem := t.hbm.mem, marks := t.hbm.marks } } : State).sameButRegs t) ∧
    ∀ bad : List (Fin 128), ∃ t, exec (.hbmWakeReady bad) s = .next t ∧ t.is HBM_G_STATUS_READY.one = true ∧
      t.is HBM_G_STATUS_PARKED.one = false ∧ ∀ pc ∈ bad, t.pcState pc.val = 3) ∧
  (∀ (s : State) (bad : List (Fin 128)), s.is HBM_G_STATUS_PARKED.one = false → exec (.hbmWakeReady bad) s = .next s) ∧
  (∀ s : State, (s.locked = false ∨ s.is HBM_G_STATUS_READY.one = true ∨ s.is HBM_G_STATUS_PARKED.one = true ∨
    s.serviceList = []) → exec .hbmRelockRetrainDone s = .next s) ∧
  ∀ s : State, s.locked = true → s.is HBM_G_STATUS_READY.one = false → s.is HBM_G_STATUS_PARKED.one = false →
    s.serviceList ≠ [] →
    ∃ t, exec .hbmRelockRetrainDone s = .next t ∧ t.is HBM_G_STATUS_READY.one = true ∧
      (∀ pc < 128, s.pcState pc = 1 → t.pcState pc = 0) ∧ t = { s with regs := t.regs }

/-- R294, R296, R300 to R304, R309 to R311. -/
def Obligations.GrottoAccessesAreServed : Prop :=
  (∀ (s : State) (p : GrottoPort) (b : Fin 64) (w : BitVec 17) (op : GrottoOp) (en st : Byte) (d : BitVec 64) (f : EccFinding),
    s.grottoWaits b.val = false → s.grottoFenced b.val = false → allowed (s.rights b.val) p (op != .read) = true →
    ∃ t, exec (.grottoAccess p b w op en d f st) s = .next t ∧ t.grt.denied = false ∧
      t.get (GRT_B_STALLS.win b.val) = (s.get (GRT_B_STALLS.win b.val) + st.toNat) % 2 ^ 32 ∧
      (∀ k, k ≠ wordKey b.val w.toNat → sget t.grt.mem k 0 = sget s.grt.mem k 0) ∧
      (op = .write → en = 0xFF → t.grottoWord b.val w.toNat = d.toNat ∧ t.wordBad b.val w.toNat = false) ∧
      (op = .write → en = 0x0F → f = .clean → s.wordBad b.val w.toNat = false → s.grottoWord b.val w.toNat < 2 ^ 64 →
        t.grottoWord b.val w.toNat = s.grottoWord b.val w.toNat / 2 ^ 32 * 2 ^ 32 + d.toNat % 2 ^ 32) ∧
      (op ≠ .read → f = .clean → s.wordBad b.val w.toNat = false →
        t.grottoWord b.val w.toNat = (GrottoAcc.mk p b.val w.toNat op en d f (s.rights b.val) none).result (s.grottoWord b.val w.toNat) ∧
        t.grt.marked = false) ∧
      (op = .read → f ≠ .uncorrectable → s.wordBad b.val w.toNat = false → t.grt.delivered = s.grottoWord b.val w.toNat ∧
        t.grt.marked = false ∧ t.grt.mem = s.grt.mem) ∧
      (op = .read → f = .corrected → s.wordBad b.val w.toNat = false →
        t.get (GRT_B_CE.win b.val) = (s.get (GRT_B_CE.win b.val) + 1) % 2 ^ 32) ∧
      (op = .read → s.wordBad b.val w.toNat = true → t.grt.delivered = s.grottoWord b.val w.toNat ∧ t.grt.marked = true ∧
        t.get (GRT_B_UE.win b.val) = (s.get (GRT_B_UE.win b.val) + 1) % 2 ^ 32 ∧
        t.get (GRT_B_LAST_UE.win b.val) = wordKey b.val w.toNat)) ∧
  (∀ (s : State) (p : GrottoPort) (b : Fin 64) (w : BitVec 17) (op : GrottoOp) (en st : Byte) (d : BitVec 64) (f : EccFinding),
    s.grottoWaits b.val = false → s.grottoFenced b.val = false → allowed (s.rights b.val) p (op != .read) = false →
    ∃ t, exec (.grottoAccess p b w op en d f st) s = .next t ∧ t.grt.denied = true ∧ t.grt.mem = s.grt.mem ∧
      t.is (GRT_B_CAUSE_DENIED.win b.val) = true ∧ (p = .host → t.is GRT_STATUS_HOST_DENIED.one = true) ∧
      t.get (GRT_B_DENIED.win b.val) = (s.get (GRT_B_DENIED.win b.val) + 1) % 2 ^ 32 ∧ s.sameMemory t) ∧
  (∀ (s : State) (p : GrottoPort) (b : Fin 64) (w : BitVec 17) (op : GrottoOp) (en st : Byte) (d : BitVec 64) (f : EccFinding),
    s.grottoWaits b.val = false → s.grottoFenced b.val = true →
    exec (.grottoAccess p b w op en d f st) s = .next ((s.add (GRT_B_STALLS.win b.val) st.toNat).noteAccess 0 false true)) ∧
  ∀ (s : State) (p : GrottoPort) (b : Fin 64) (w : BitVec 17) (op : GrottoOp) (en st : Byte) (d : BitVec 64) (f : EccFinding),
    s.grottoWaits b.val = true →
    ∃ t, exec (.grottoAccess p b w op en d f st) s = .next t ∧
      t.grt = { s.grt with waiting := s.grt.waiting ++ [⟨p, b.val, w.toNat, op, en, d, f, s.rights b.val, none⟩] } ∧
      s.sameRegs [(GRT_B_STALLS.win b.val).key] t ∧ t = { s with regs := t.regs, grt := t.grt }

/-- R296 to R299, R309, R57. -/
def Obligations.HandOversFillsAndTheHostWindow : Prop :=
  (∀ (s : State) (b : Fin 64) (v : DWord), s.admits grtPage = true → 2 ≤ b.val → s.grottoFenced b.val = false →
    s.is (GRT_OWNER_PENDING.elt b.val) = false → s.get (GRT_OWNER_OWNER.elt b.val) ∉ [3, 4] →
    field v.toNat 0 3 ∉ [3, 4] → field v.toNat 0 3 ≠ s.get (GRT_OWNER_OWNER.elt b.val) →
    ∃ t, exec (.grottoHandover b v) s = .next t ∧ t.get (GRT_OWNER_OWNER.elt b.val) = field v.toNat 0 3 ∧
      t.get (GRT_OWNER_GUEST.elt b.val) = field v.toNat 8 6 ∧ t.is (GRT_OWNER_PENDING.elt b.val) = true ∧
      t.rights b.val = s.rights b.val ∧ s.sameMemory t) ∧
  (∀ (s : State) (b : Fin 64) (v : DWord), s.admits grtPage = true →
    (b.val < 2 ∨ s.grottoFenced b.val = true ∨ s.is (GRT_OWNER_PENDING.elt b.val) = true ∨
      s.get (GRT_OWNER_OWNER.elt b.val) ∈ [3, 4] ∨ field v.toNat 0 3 ∈ [3, 4]) →
    field v.toNat 0 3 ≠ s.get (GRT_OWNER_OWNER.elt b.val) →
    ∃ t, exec (.grottoHandover b v) s = .next t ∧ t.is GRT_STATUS_OWNER_REFUSED.one = true ∧
      t.is (GRT_B_CAUSE_REFUSED.win b.val) = true ∧ t.is (accessErrOf grtPage) = true ∧
      t.get (GRT_OWNER_OWNER.elt b.val) = s.get (GRT_OWNER_OWNER.elt b.val) ∧ s.sameButRegs t) ∧
  (∀ (s : State) (b : Fin 64) (v : DWord), s.admits grtPage = true →
    field v.toNat 0 3 = s.get (GRT_OWNER_OWNER.elt b.val) → field v.toNat 0 3 ≠ 3 →
    field v.toNat 8 6 = s.get (GRT_OWNER_GUEST.elt b.val) →
    exec (.grottoHandover b v) s =
      .next ((s.set (unlockedOf grtPage) 0).set (GRT_OWNER_NO_BORROW.elt b.val) (flag (bitOf v.toNat 18)))) ∧
  (∀ (s : State) (b : Fin 64), (∀ a ∈ s.grt.waiting, a.b ≠ b.val) →
    ∃ t, exec (.handoverComplete b) s = .next t ∧ t.is (GRT_OWNER_PENDING.elt b.val) = false ∧
      t.rights b.val = (s.get (GRT_OWNER_OWNER.elt b.val), s.get (GRT_OWNER_GUEST.elt b.val)) ∧
      sget t.grt.filling b.val 0 = s.get (GRT_OWNER_CLEAR.elt b.val) ∧
      s.sameRegs [(GRT_OWNER_PENDING.elt b.val).key] t ∧
      t = { s with regs := t.regs, grt := { s.grt with oldRights := t.grt.oldRights, filling := t.grt.filling } }) ∧
  (∀ (s : State) (b : Fin 64), (∃ a ∈ s.grt.waiting, a.b = b.val) → exec (.handoverComplete b) s = .next s) ∧
  (∀ (s : State) (b : Fin 64), sget s.grt.filling b.val 0 = 0 → exec (.grottoFillDone b) s = .next s) ∧
  (∀ (s : State) (b : Fin 64), sget s.grt.filling b.val 0 ≠ 0 →
    ∃ t, exec (.grottoFillDone b) s = .next t ∧ (∀ a ∈ t.grt.waiting, a.b ≠ b.val) ∧ sget t.grt.filling b.val 0 = 0 ∧
      ((∀ a ∈ s.grt.waiting, a.b ≠ b.val) →
        t.get (GRT_OWNER_CLEAR.elt b.val) = (sget s.grt.filling b.val 0 - 1) % 2 ∧
        (∀ w < grottoWords, t.grottoWord b.val w = 0 ∧ t.wordBad b.val w = false) ∧
        (∀ k, k / grottoWords ≠ b.val → sget t.grt.mem k 0 = sget s.grt.mem k 0) ∧
        s.sameRegs [(GRT_OWNER_CLEAR.elt b.val).key] t ∧
        t = { s with regs := t.regs, grt := { s.grt with mem := t.grt.mem, bad := t.grt.bad, filling := t.grt.filling } })) ∧
  (∀ (s : State) (a : Nat), s.hostOpen = true → s.paused = false →
    a = s.get GRT_HOST_ADDR_ADDR.one → s.grottoWaits (a / grottoWords) = false → s.grottoFenced (a / grottoWords) = false →
    allowed (s.rights (a / grottoWords)) .host false = true → s.wordBad (a / grottoWords) (a % grottoWords) = false →
    ∃ t, exec (.hostWindowRead .clean) s = .next t ∧ t.link.completion = .success ∧
      t.link.readData = toBytes 4 (s.grottoWord (a / grottoWords) (a % grottoWords)) ∧
      t.get GRT_HOST_DATA.one = s.grottoWord (a / grottoWords) (a % grottoWords) % 2 ^ 64 ∧
      t.get GRT_HOST_ADDR_ADDR.one = (if s.is GRT_HOST_ADDR_AUTO_INC.one then (a + 1) % 2 ^ 23 else a) ∧ s.sameMemory t) ∧
  (∀ (s : State) (a : Nat) (f : EccFinding), s.hostOpen = true → s.paused = false →
    a = s.get GRT_HOST_ADDR_ADDR.one → s.grottoWaits (a / grottoWords) = false →
    (s.grottoFenced (a / grottoWords) = true ∨ allowed (s.rights (a / grottoWords)) .host false = false) →
    ∃ t, exec (.hostWindowRead f) s = .next t ∧ t.link.completion = .success ∧ t.link.readData = toBytes 4 0 ∧
      (s.grottoFenced (a / grottoWords) = false → t.is GRT_STATUS_HOST_DENIED.one = true) ∧ s.sameMemory t) ∧
  (∀ (s : State) (a : Nat) (f : EccFinding), s.hostOpen = true → s.paused = false →
    a = s.get GRT_HOST_ADDR_ADDR.one → s.grottoWaits (a / grottoWords) = true →
    ∃ t, exec (.hostWindowRead f) s = .next t ∧ t.link.completion = .none ∧ s.sameMemory t ∧
      t.grt.waiting = s.grt.waiting ++
        [⟨.host, a / grottoWords, a % grottoWords, .read, 0xFF, 0, f, s.rights (a / grottoWords), some (0, 4)⟩]) ∧
  (∀ (s : State) (f : EccFinding), s.hostOpen = false → exec (.hostWindowRead f) s = .next s) ∧
  (∀ (s : State) (f : EccFinding), s.hostOpen = true → s.paused = true → exec (.hostWindowRead f) s =
    .next { s with link := { s.link with readData := List.replicate 4 0, completion := .success } }) ∧
  (∀ (s : State) (a : Nat) (d : BitVec 64), s.admits grtPage = true → a = s.get GRT_HOST_ADDR_ADDR.one →
    s.grottoWaits (a / grottoWords) = false → s.grottoFenced (a / grottoWords) = false →
    allowed (s.rights (a / grottoWords)) .host true = false →
    ∃ t, exec (.hostWindowWrite d) s = .next t ∧ t.is GRT_STATUS_HOST_DENIED.one = true ∧ s.sameMemory t) ∧
  ∀ (s : State) (a : Nat) (d : BitVec 64), s.admits grtPage = true → a = s.get GRT_HOST_ADDR_ADDR.one →
    s.grottoWaits (a / grottoWords) = false → s.grottoFenced (a / grottoWords) = false →
    allowed (s.rights (a / grottoWords)) .host true = true →
    ∃ t, exec (.hostWindowWrite d) s = .next t ∧
      (s.get GRT_HOST_ADDR_OP.one = 0 → t.grottoWord (a / grottoWords) (a % grottoWords) = d.toNat) ∧
      (s.get GRT_HOST_ADDR_OP.one = 1 → s.wordBad (a / grottoWords) (a % grottoWords) = false →
        t.grottoWord (a / grottoWords) (a % grottoWords) =
          maskOf 64 (fun i => bitOf (s.grottoWord (a / grottoWords) (a % grottoWords)) i || bitOf d.toNat i)) ∧
      (s.get GRT_HOST_ADDR_OP.one = 2 → s.wordBad (a / grottoWords) (a % grottoWords) = false →
        t.grottoWord (a / grottoWords) (a % grottoWords) =
          maskOf 64 (fun i => bitOf (s.grottoWord (a / grottoWords) (a % grottoWords)) i && !bitOf d.toNat i)) ∧
      t.get GRT_HOST_DATA.one = d.toNat ∧
      t.get GRT_HOST_ADDR_ADDR.one = (if s.is GRT_HOST_ADDR_AUTO_INC.one then (a + 1) % 2 ^ 23 else a) ∧
      ∀ k, k ≠ a → sget t.grt.mem k 0 = sget s.grt.mem k 0

/-- R306 to R308, R454, R455, R461. -/
def Obligations.SwatchWalksTestsAndEnds : Prop :=
  (∀ s : State, s.is SWT_CTRL_SWATCH_EN.one = true → s.is SWT_STATUS_SWATCH_RUNNING.one = false →
    ∃ t, exec .swatchPassStart s = .next t ∧ t.is SWT_STATUS_SWATCH_RUNNING.one = true ∧
      t.flt.nextWindow = some (0, 0, false) ∧ t.get SWT_SWATCH_POS_GROTTO.one = 0 ∧ t.get SWT_SWATCH_POS_WINDOW.one = 0 ∧
      (∀ b, sget t.flt.tested b 0 = 0) ∧
      s.sameRegs ([SWT_STATUS_SWATCH_RUNNING.one, SWT_SWATCH_POS_RETRY.one, SWT_SWATCH_POS_WINDOW.one,
        SWT_SWATCH_POS_GROTTO.one].map Fld.key) t ∧ t = { s with regs := t.regs, flt := t.flt }) ∧
  (∀ s : State, (s.is SWT_CTRL_SWATCH_EN.one = false ∨ s.is SWT_STATUS_SWATCH_RUNNING.one = true) →
    exec .swatchPassStart s = .next s) ∧
  (∀ (s : State) (r : SwatchResult), (s.is SWT_STATUS_SWATCH_RUNNING.one = false ∨ s.flt.nextWindow = none) →
    exec (.swatchWindow r) s = .next s) ∧
  (∀ s : State, s.is SWT_STATUS_SWATCH_RUNNING.one = false → exec .swatchPassEnd s = .next s) ∧
  (∀ (s : State) (b w : Nat) (again : Bool), s.is SWT_STATUS_SWATCH_RUNNING.one = true →
    s.flt.nextWindow = some (b, w, again) →
    (s.testable b = true → (s.rights b).1 ≠ 5 →
      ∃ t, exec (.swatchWindow .pass) s = .next t ∧ t.grt.window = some (b, w, s.now) ∧
        bitOf (sget t.flt.tested b 0) w = true ∧ t.get SWT_SWATCH_POS_GROTTO.one = b ∧ t.get SWT_SWATCH_POS_WINDOW.one = w ∧
        t.is SWT_SWATCH_POS_RETRY.one = again ∧ t.flt.walk = s.flt.pastWindow.walk ∧ t.flt.retry = s.flt.pastWindow.retry ∧
        s.sameMemory t) ∧
    (s.testable b = true → (s.rights b).1 = 5 →
      ∃ t, exec (.swatchWindow .pass) s = .next t ∧ bitOf (sget t.flt.tested b 0) w = true ∧ t.drawn = s.drawn + windowWords ∧
        ∀ k, (k < wordKey b (w * windowWords) ∨ wordKey b (w * windowWords) + windowWords ≤ k) →
          sget t.grt.mem k 0 = sget s.grt.mem k 0) ∧
    (∀ c : Fin 576, s.testable b = true → s.flt.repairs.contains (b * 1024 + c.val) = false → s.flt.repairs.length < 24 →
      ∃ t, exec (.swatchWindow (.column c)) s = .next t ∧ t.latched 473 = true ∧
        if s.spareLeft b then t.latched 474 = true ∧ t.flt.repairs = s.flt.repairs ++ [b * 1024 + c.val] ∧
          t.get SWT_REPAIRS.one = (s.flt.repairs.length + 1) % 2 ^ (SWT_REPAIRS.one).width
        else t.grottoFenced b = true ∧ t.flt.repairs = s.flt.repairs) ∧
    (s.testable b = true →
      ∃ t, exec (.swatchWindow .doubleBit) s = .next t ∧ t.latched 473 = true ∧ t.grottoFenced b = true) ∧
    (s.testable b = false → ∀ r,
      ∃ t, exec (.swatchWindow r) s = .next t ∧ t.flt.retry = s.flt.pastWindow.retry ++ [(b, w)] ∧ s.sameMemory t ∧
        t = { s with regs := t.regs, flt := t.flt }) ∧
    (s.testable b = true →
      ∃ t, exec (.swatchWindow .abandoned) s = .next t ∧ t.flt.retry = s.flt.pastWindow.retry ++ [(b, w)] ∧
        t.get (GRT_B_ABANDONS.win b) = (s.get (GRT_B_ABANDONS.win b) + 1) % 2 ^ (GRT_B_ABANDONS.win b).width ∧
        t = { s with regs := t.regs, flt := t.flt })) ∧
  ∀ s : State, s.is SWT_STATUS_SWATCH_RUNNING.one = true →
    ∃ t, exec .swatchPassEnd s = .next t ∧ t.is SWT_STATUS_SWATCH_RUNNING.one = false ∧
      t.get SWT_UNTESTED.one = s.untested ∧ t.latched 475 = true ∧ (s.untested ≠ 0 → t.latched 476 = true) ∧
      t.get SWT_SWATCH_PASSES.one = (s.get SWT_SWATCH_PASSES.one + 1) % 2 ^ (SWT_SWATCH_PASSES.one).width ∧
      s.sameRegs ([SWT_STATUS_SWATCH_RUNNING.one, SWT_UNTESTED.one, SWT_SWATCH_PASSES.one, SWT_DP_PASSES.one].map Fld.key ++
        latches [475, 476]) t ∧
      ({ s with flt := { s.flt with lastFull := t.flt.lastFull, lastFound := t.flt.lastFound } } : State).sameButRegs t

/-- R330, R332 to R335, R337. -/
def Obligations.DmaChannelsStartAndStop : Prop :=
  (∀ (s : State) (n : Fin 64) (v : DWord), s.admits (PageClass.page .dma n.val) = true → bitOf v.toNat 31 = true →
    bitOf v.toNat 1 = false → (∀ q < 8, s.get (TRG_STATUS_STATE.of q) = 4 → (s.seq q).channel ≠ n.val + 1) →
    (s.dmaState n.val ≠ 1 → s.dmaState n.val ≠ 4 →
      ∃ t, exec (.dmaStart n v) s = .next t ∧ t.dmaState n.val = 1 ∧
        t.get (DMA_CUR.of n.val) = (s.get (DMA_HEAD_ADDR.of n.val) * 2 ^ 7 + s.get (DMA_HEAD_HOST.of n.val) * 2) % 2 ^ 64 ∧
        t.chan n.val = { DmaCh.idle with phase := .fetch } ∧ t.get (DMA_DESCS.of n.val) = 0 ∧ t.get (DMA_KICKS.of n.val) = 0 ∧
        t.get (DMA_CTRL_PRIO.of n.val) = field v.toNat 24 3 ∧
        (s.anyReplay = false → (∀ m, m ≠ n.val → t.chan m = s.chan m) ∧ t = { s with regs := t.regs, dma := t.dma })) ∧
    (s.dmaState n.val = 1 →
      ∃ t, exec (.dmaStart n v) s = .next t ∧ t.is (accessErrOf (PageClass.page .dma n.val)) = true ∧ t.dmaState n.val = 1 ∧
        t.chan n.val = s.chan n.val ∧ (s.anyReplay = false → s.sameButRegs t)) ∧
    (s.dmaState n.val = 4 →
      ∃ t, exec (.dmaStart n v) s = .next t ∧ t.dmaState n.val = 0 ∧ t.chan n.val = s.chan n.val)) ∧
  (∀ (s : State) (n : Fin 64) (v : DWord), bitOf v.toNat 31 = false →
    exec (.dmaStart n v) s = exec (.dmaKill n v) s ∧ exec (.dmaAbort n v) s = exec (.dmaKill n v) s) ∧
  (∀ (s : State) (n : Fin 64) (v : DWord), s.admits (PageClass.page .dma n.val) = true → bitOf v.toNat 31 = true →
    bitOf v.toNat 0 = false → s.dmaState n.val ≠ 4 →
    ∃ t, exec (.dmaAbort n v) s = .next t ∧
      (s.dmaState n.val = 1 → (s.chan n.val).inflight = [] → t.dmaState n.val = 3 ∧
        t.get (DMA_STATUS_RESULT.of n.val) = 2 ∧ t.is (DMA_CAUSE_ABORTED.of n.val) = true) ∧
      (s.dmaState n.val = 1 → (s.chan n.val).inflight ≠ [] → t.dmaState n.val = 1 ∧ (t.chan n.val).aborting = true) ∧
      (s.dmaState n.val ≠ 1 → t.dmaState n.val = s.dmaState n.val ∧ t.chan n.val = s.chan n.val) ∧
      (s.anyReplay = false → ∀ m, m ≠ n.val → t.chan m = s.chan m)) ∧
  (∀ (s : State) (n : Fin 64) (v : DWord), s.admits (PageClass.page .dma n.val) = true →
    ∃ t, exec (.dmaKill n v) s = .next t ∧ t.dmaState n.val = 4 ∧ t.is (DMA_CTRL_ENABLE.of n.val) = false ∧
      (s.dmaState n.val ≠ 4 → t.get (DMA_STATUS_RESULT.of n.val) = 3 ∧ t.is (DMA_CAUSE_KILLED.of n.val) = true ∧
        t.chan n.val = DmaCh.idle) ∧
      (s.anyReplay = false → ∀ m, m ≠ n.val → t.chan m = s.chan m)) ∧
  (∀ (s : State) (n : Fin 64) (v : DWord), s.admits (PageClass.page .dma n.val) = true →
    (s.dmaState n.val = 4 ∨ bitOf v.toNat 0 = false ∧ bitOf v.toNat 1 = false) →
    ∃ t, exec (.dmaEnable n v) s = .next t ∧ t.is (DMA_CTRL_ENABLE.of n.val) = true ∧
      t.get (DMA_CTRL_PRIO.of n.val) = field v.toNat 24 3 ∧ (s.dmaState n.val = 4 → t.dmaState n.val = 0) ∧
      (s.anyReplay = false → (s.dmaState n.val ≠ 4 → t.dmaState n.val = s.dmaState n.val) ∧
        s.sameRegs ([DMA_CTRL_PRIO.of n.val, DMA_CTRL_ENABLE.of n.val, DMA_STATUS_STATE.of n.val,
          unlockedOf (PageClass.page .dma n.val)].map Fld.key) t ∧ t = { s with regs := t.regs })) ∧
  (∀ (s : State) (n : Fin 64) (v : DWord), s.admits (PageClass.page .dma n.val) = true →
    ∃ t, exec (.chainKick n v) s = .next t ∧ t.get (DMA_KICKS.of n.val) = (s.get (DMA_KICKS.of n.val) + 1) % 2 ^ 32 ∧
      (s.is (DMA_CTRL_ENABLE.of n.val) = true → s.dmaState n.val = 1 → t.is (DMA_STATUS_KICK_PENDING.of n.val) = true ∧
        t.dma = s.dma) ∧
      (s.is (DMA_CTRL_ENABLE.of n.val) = true → s.dmaState n.val = 2 → t.dmaState n.val = 1 ∧
        t.chan n.val = { s.chan n.val with phase := .link }) ∧
      (s.is (DMA_CTRL_ENABLE.of n.val) = false ∨ s.dmaState n.val ≠ 1 ∧ s.dmaState n.val ≠ 2 →
        t.dma = s.dma ∧ s.sameRegs ([DMA_KICKS.of n.val, unlockedOf (PageClass.page .dma n.val)].map Fld.key) t) ∧
      t = { s with regs := t.regs, dma := t.dma }) ∧
  ∀ (s : State) (v : DWord), s.admits (PageClass.page .dmag 0) = true →
    ∃ t, exec (.dmaAbortAll v) s = .next t ∧ ∀ n < 64,
      (s.dmaState n = 1 → (s.chan n).inflight = [] → t.dmaState n = 3 ∧ t.get (DMA_STATUS_RESULT.of n) = 2) ∧
      (s.dmaState n = 1 → (s.chan n).inflight ≠ [] → t.dmaState n = 1 ∧ (t.chan n).aborting = true) ∧
      (s.dmaState n ≠ 1 → t.dmaState n = s.dmaState n)

/-- R315 to R317, R319, R321 to R324, R327, R329, R336. -/
def Obligations.DmaMovesItsBursts : Prop :=
  (∀ s u : State, u = (forEach (upto 64) s (fun n s => s.dmaSettle n)).replayChecks → u.arbiterPick = none →
    exec .dmaGrant s = .next u) ∧
  (∀ (s u : State) (n l : Nat) (b : DmaBurst) (fault : Nat), u = (forEach (upto 64) s (fun n s => s.dmaSettle n)).replayChecks →
    u.arbiterPick = some (n, l) → u.nextBurst n = some b →
    fault = (match pipeUnit (u.chan n).desc with
      | some x => if b.kind = .drain ∧ u.outFull (u.chan n) x = true then 7 else u.burstFault (u.chan n).desc b
      | none => u.burstFault (u.chan n).desc b) →
    ∃ t, exec .dmaGrant s = .next t ∧
      (fault = 0 → (t.chan n).inflight = (u.chan n).inflight ++ [b] ∧ sget t.dmaLast l 0 = n + 1 ∧
        t.get DMA_G_BURSTS.one = (u.get DMA_G_BURSTS.one + 1) % 2 ^ 64 ∧
        t.get (DMA_G_LEVEL_GRANTS.elt l) = (u.get (DMA_G_LEVEL_GRANTS.elt l) + 1) % 2 ^ 32 ∧
        (∀ x, pipeUnit (u.chan n).desc = some x → (t.chan n).pipe = some x) ∧
        (pipeUnit (u.chan n).desc = none → (t.chan n).granted = (u.chan n).granted + (if b.kind = .drain then 0 else b.len) ∧
          u.sameRegs ([DMA_G_BURSTS.one, DMA_G_LEVEL_GRANTS.elt l].map Fld.key) t ∧
          t = { u with regs := t.regs, dma := t.dma, dmaLast := t.dmaLast })) ∧
      (fault ≠ 0 → t.dmaState n = 3 ∧ t.get (DMA_STATUS_RESULT.of n) = 4 ∧
        t.get (DMA_STATUS_ERR_CAUSE.of n) = fault ∧ (t.chan n).inflight = [])) ∧
  (∀ (s : State) (n : Fin 64) (words : List (BitVec 32)) (f : List EccFinding) (got : Option (List Nat)),
    s.dmaState n.val = 1 → (s.chan n.val).phase = .fetch → s.chainWaits n.val = false →
    got = (if inHost (s.get (DMA_CUR.of n.val)) then (if words.length = 16 then some (pairWords words) else none)
      else (s.chainDesc (descAddr (s.get (DMA_CUR.of n.val))) f).2) →
    ∃ t, exec (.descriptorFetch n words f) s = .next t ∧
      (got = none → t.dmaState n.val = 3 ∧ t.get (DMA_STATUS_ERR_CAUSE.of n.val) = 10) ∧
      ∀ d, got = some d →
        (descInvalid d = true → t.dmaState n.val = 3 ∧ t.get (DMA_STATUS_ERR_CAUSE.of n.val) = 1) ∧
        (descInvalid d = false → s.unitFenced d = true → t.dmaState n.val = 3 ∧ t.get (DMA_STATUS_ERR_CAUSE.of n.val) = 6) ∧
        (descInvalid d = false → s.unitFenced d = false → s.anyReplay = false →
          t.dmaState n.val = 1 ∧ (t.chan n.val).phase = .move ∧ (t.chan n.val).desc = d ∧
          (t.chan n.val).moved = 0 ∧ t.get (DMA_IN_BYTES.of n.val) = 0 ∧
          (inHost (s.get (DMA_CUR.of n.val)) = true → t = { s with regs := t.regs, dma := t.dma }))) ∧
  (∀ (s : State) (n : Fin 64) (words : List (BitVec 32)) (f : List EccFinding),
    (s.dmaState n.val ≠ 1 ∨ (s.chan n.val).phase ≠ .fetch ∨ s.chainWaits n.val = true) → exec (.descriptorFetch n words f) s = .next s) ∧
  (∀ (s : State) (n : Fin 64) (w : BitVec 64) (e : Bool) (f : EccFinding) (got : Option Nat),
    s.dmaState n.val = 1 → (s.chan n.val).phase = .link → s.chainWaits n.val = false →
    got = (if inHost (s.get (DMA_CUR.of n.val)) then (if e then none else some w.toNat)
      else (s.chainWord (descAddr (s.get (DMA_CUR.of n.val)) + 0x38) f).2) →
    ∃ t, exec (.linkReadReturn n w e f) s = .next t ∧
      (got = none → t.dmaState n.val = 3 ∧ t.get (DMA_STATUS_ERR_CAUSE.of n.val) = 10) ∧
      ∀ x, got = some x →
        (bitOf x 0 = true → s.is (DMA_STATUS_KICK_PENDING.of n.val) = false → t.dmaState n.val = 2 ∧
          t.get (DMA_STATUS_RESULT.of n.val) = 1 ∧ t.is (DMA_CAUSE_DONE.of n.val) = true) ∧
        (s.anyReplay = false →
          (bitOf x 0 = false → t.dmaState n.val = 1 ∧ (t.chan n.val).phase = .fetch ∧
            t.get (DMA_CUR.of n.val) = (x / 128 * 128 + 2 * flag (bitOf x 1)) % 2 ^ 64) ∧
          (bitOf x 0 = true → s.is (DMA_STATUS_KICK_PENDING.of n.val) = true →
            t.is (DMA_STATUS_KICK_PENDING.of n.val) = false ∧ (t.chan n.val).phase = .link ∧ t.dmaState n.val = 1))) ∧
  (∀ (s : State) (n : Fin 64) (w : BitVec 64) (e : Bool) (f : EccFinding), (s.dmaState n.val ≠ 1 ∨ (s.chan n.val).phase ≠ .link ∨
    s.chainWaits n.val = true) → exec (.linkReadReturn n w e f) s = .next s) ∧
  (∀ (s : State) (n : Fin 64) (how : BurstEnd) (f : List EccFinding) (data : List Byte),
    ((s.chan n.val).inflight = [] ∨
      ∃ b rest, (s.chan n.val).inflight = b :: rest ∧ s.burstWaits (s.chan n.val).desc b = true) →
    exec (.dmaBurstComplete n how data f) s = .next s) ∧
  (∀ (s : State) (n : Fin 64) (how : BurstEnd) (f : List EccFinding) (data : List Byte) (b : DmaBurst) (rest : List DmaBurst),
    (s.chan n.val).inflight = b :: rest → s.burstWaits (s.chan n.val).desc b = false →
    ∃ t, exec (.dmaBurstComplete n how data f) s = .next t ∧ ((t.chan n.val).inflight = rest ∨ (t.chan n.val).inflight = [])) ∧
  (∀ (s : State) (n : Fin 64) (b : DmaBurst) (rest : List DmaBurst) (f : List EccFinding) (data : List Byte),
    s.dmaState n.val = 1 → (s.chan n.val).inflight = b :: rest → b.kind = .move → (s.chan n.val).pipe = none →
    pipeUnit (s.chan n.val).desc = none → srcSpace (s.chan n.val).desc = 2 → dstSpace (s.chan n.val).desc = 2 →
    (s.chan n.val).aborting = false → s.anyReplay = false →
    (s.chan n.val).moved + b.len < elements (s.chan n.val).desc * elemBytes (s.chan n.val).desc →
    ∃ t, exec (.dmaBurstComplete n .accepted data f) s = .next t ∧
      t.link.hostOut = s.link.hostOut ++
        (tlpsOf s.link.maxPayload b.len b.dst ((upto b.len).map (fun i => data.getD i 0))).map (fun p =>
          ⟨p.1, p.2, false, bitOf (descWord (s.chan n.val).desc 6) 61 && bitOf s.link.devControl 4,
            bitOf (descWord (s.chan n.val).desc 6) 62 && bitOf s.link.devControl 11⟩) ∧
      (t.chan n.val).inflight = rest ∧ (t.chan n.val).moved = (s.chan n.val).moved + b.len ∧
      t.get (DMA_OUT_BYTES.of n.val) = (s.get (DMA_OUT_BYTES.of n.val) + b.len) % 2 ^ 48 ∧
      t.get (DMA_IN_BYTES.of n.val) = (s.get (DMA_IN_BYTES.of n.val) + b.len) % 2 ^ 48 ∧ s.sameMemory t ∧
      t = { s with regs := t.regs, dma := t.dma, link := { s.link with hostOut := t.link.hostOut } }) ∧
  ∀ (s : State) (n : Fin 64) (b : DmaBurst) (rest : List DmaBurst) (f : List EccFinding) (data : List Byte),
    (s.chan n.val).inflight = b :: rest → s.burstWaits (s.chan n.val).desc b = false → hostBurst (s.chan n.val).desc b = true →
    ∃ t, exec (.dmaBurstComplete n .targetError data f) s = .next t ∧ t.dmaState n.val = 3 ∧
      t.get (DMA_STATUS_RESULT.of n.val) = 4 ∧ t.get (DMA_STATUS_ERR_CAUSE.of n.val) = 5 ∧
      t.is (DMA_CAUSE_ERROR.of n.val) = true ∧ (t.chan n.val).inflight = [] ∧ (s.anyReplay = false → s.sameMemory t)

/-- R324, R325, R350, R353 to R356, R460. -/
def Obligations.FlowstoneUnitsWork : Prop :=
  (∀ (s : State) (u : Fin 4) (n : Nat) (g : FlowStream), s.holderOf u.val = some n →
    (s.flow u.val).stage ≠ .done → 0 < (s.flow u.val).inBuf.length →
    (blockBytes ≤ (s.flow u.val).inBuf.length ∨ (s.flow u.val).ended = true) →
    g = (s.flow u.val).encode ((s.flow u.val).inBuf.take blockBytes) →
    ∃ t, exec (.compressBlock u) s = .next t ∧
      ((s.chan n).aborting = false → (s.flow u.val).bad = false → s.unitFenced (s.chan n).desc = false →
        t.flow u.val = (if (g.ended && g.inBuf.isEmpty) = true then g.finish else g) ∧ t = { s with flw := t.flw })) ∧
  (∀ (s : State) (u : Fin 4) (n : Fin 64) (b : DmaBurst) (data : List Byte) (f : List EccFinding), s.anyReplay = false →
    s.dmaState n.val = 1 → (s.chan n.val).phase = .move → (s.chan n.val).inflight = [b] → b.kind = .drain →
    (s.chan n.val).aborting = false → (s.chan n.val).pipe = some u.val → pipeUnit (s.chan n.val).desc = some u.val →
    dstSpace (s.chan n.val).desc = 2 → bitOf (descWord (s.chan n.val).desc 6) 59 = false →
    s.unitFenced (s.chan n.val).desc = false → (s.flow u.val).stage = .done → (s.flow u.val).out = [] →
    (s.flow u.val).bad = false →
    ∃ t, exec (.dmaBurstComplete n .accepted data f) s = .next t ∧ t.flow u.val = FlowStream.idle ∧ (t.chan n.val).pipe = none ∧
      t.get (FLW_COMP_STREAMS.elt u.val) = (s.get (FLW_COMP_STREAMS.elt u.val) + 1) % 2 ^ 32 ∧
      t.get (FLW_COMP_CUT.elt u.val) = s.get (FLW_COMP_CUT.elt u.val)) ∧
  (∀ (s : State) (u : Fin 4), (s.holderOf u.val = none ∨ (s.flow u.val).stage = .done ∨ (s.flow u.val).inBuf = [] ∨
    (s.flow u.val).inBuf.length < blockBytes ∧ (s.flow u.val).ended = false) → exec (.compressBlock u) s = .next s) ∧
  (∀ (s : State) (d : Fin 2) (n : Nat) (g : FlowStream), s.holderOf (4 + d.val) = some n →
    ((s.flow (4 + d.val)).stage = .header ∧ (s.flow (4 + d.val)).readHeader = .goes g ∨
      (s.flow (4 + d.val)).stage = .blocks ∧ (s.flow (4 + d.val)).readBlock = .goes g) →
    ∃ t, exec (.decompressBlock d) s = .next t ∧ t.flow (4 + d.val) = g ∧
      (∀ u, u ≠ 4 + d.val → t.flow u = s.flow u) ∧
      s.sameRegs ([FLW_DEC_IN_BYTES.elt d.val, FLW_DEC_OUT_BYTES.elt d.val].map Fld.key) t ∧
      t = { s with regs := t.regs, flw := t.flw }) ∧
  (∀ (s : State) (d : Fin 2) (n : Nat) (r : Reject) (c : Instr), s.holderOf (4 + d.val) = some n →
    (c = .decompressBlock d ∧ (s.flow (4 + d.val)).stage = .header ∧ (s.flow (4 + d.val)).readHeader = .rejects r ∨
      c = .decompressBlock d ∧ (s.flow (4 + d.val)).stage = .blocks ∧ (s.flow (4 + d.val)).readBlock = .rejects r ∨
      c = .decompressTrailer d ∧ (s.flow (4 + d.val)).stage = .trailer ∧ (s.flow (4 + d.val)).readTrailer = .rejects r) →
    ∃ t, exec c s = .next t ∧ t.get (FLW_DEC_ERR_INFO_CAUSE.elt d.val) = r.1 % 16 ∧
      t.get (FLW_DEC_ERR_POS.elt d.val) = r.2 % 2 ^ 64 ∧ t.latched (458 + d.val) = true ∧
      t.get (FLW_DEC_REJECTS.elt d.val) = (s.get (FLW_DEC_REJECTS.elt d.val) + 1) % 2 ^ 32 ∧
      (s.dmaState n = 1 → (s.chan n).inflight = [] → (s.chan n).aborting = false → t.dmaState n = 3 ∧
        t.get (DMA_STATUS_ERR_CAUSE.of n) = 8)) ∧
  (∀ (s : State) (d : Fin 2) (n : Nat) (g : FlowStream), s.holderOf (4 + d.val) = some n →
    (s.flow (4 + d.val)).stage = .trailer → (s.flow (4 + d.val)).readTrailer = .goes g →
    ∃ t, exec (.decompressTrailer d) s = .next t ∧
      t.get (FLW_DEC_STREAMS.elt d.val) = (s.get (FLW_DEC_STREAMS.elt d.val) + 1) % 2 ^ 32) ∧
  (∀ (s : State) (d : Fin 2), (s.holderOf (4 + d.val) = none ∨ (s.flow (4 + d.val)).stage = .trailer ∨
    (s.flow (4 + d.val)).stage = .done ∨
    (s.flow (4 + d.val)).stage = .header ∧ (s.flow (4 + d.val)).readHeader = .waits ∨
    (s.flow (4 + d.val)).stage = .blocks ∧ (s.flow (4 + d.val)).readBlock = .waits) →
    exec (.decompressBlock d) s = .next s) ∧
  (∀ (s : State) (d : Fin 2), (s.holderOf (4 + d.val) = none ∨ (s.flow (4 + d.val)).stage ≠ .trailer ∨
    (s.flow (4 + d.val)).readTrailer = .waits) → exec (.decompressTrailer d) s = .next s) ∧
  (∀ (s : State) (x : FlowUnit), s.flowFenced (flowNumber x) = false →
    ∃ t, exec (.flowstoneParity x) s = .next t ∧ t.get FLW_PARITY.one = (s.get FLW_PARITY.one + 1) % 2 ^ 32 ∧
      t.flowFenced (flowNumber x) = true ∧ t.latched 470 = true ∧ t.holderOf (flowNumber x) = none ∧
      t.latched (if flowNumber x < 4 then 454 + flowNumber x else 460 + (flowNumber x - 4)) = true ∧
      ∀ n < 64, s.dmaState n = 1 → (s.chan n).phase = .move → pipeUnit (s.chan n).desc = some (flowNumber x) →
        (s.chan n).pipe = some (flowNumber x) → (s.chan n).inflight = [] → (s.chan n).aborting = false →
        t.dmaState n = 3 ∧ t.get (DMA_STATUS_ERR_CAUSE.of n) = 6) ∧
  ∀ (s : State) (x : FlowUnit), s.flowFenced (flowNumber x) = true →
    ∃ t, exec (.flowstoneParity x) s = .next t ∧ t.get FLW_PARITY.one = s.get FLW_PARITY.one ∧ t.dma = s.dma ∧
      t.flt.log.head?.map (fun e => (e.event, e.outcome)) =
        some (if flowNumber x < 4 then 454 + flowNumber x else 460 + (flowNumber x - 4), 1)

/-- R344 to R346, R348, R350, R353: encoding a block and decoding it gives the block back. -/
def Obligations.FlowstoneDecodesWhatItEncodes : Prop :=
  (∀ (f : FlowStream) (level : Nat) (block rest : List Byte), level ≤ 9 → 0 < block.length → block.length ≤ blockBytes →
    f.hist.length ≤ blockBytes → f.hist.length ≤ f.orig → f.wlog = 16 →
    f.inBuf = encodeBlock level f.hist block ++ rest →
    f.readBlock = .goes { f with
      inBuf := rest
      pos := f.pos + (encodeBlock level f.hist block).length
      out := f.out ++ block
      hist := (block.reverse ++ f.hist).take blockBytes
      orig := f.orig + block.length
      crc := crcRun f.crc block }) ∧
  ∀ (f g : FlowStream) (rest : List Byte), f.orig < 2 ^ 64 → f.inBuf = streamEnd f.orig f.crc ++ rest →
    g = { f with inBuf := f.inBuf.drop 12, pos := f.pos + 12, stage := .trailer } →
    f.readBlock = .goes g ∧ g.readTrailer = .goes { g with inBuf := rest, pos := g.pos + 12, stage := .done }

/-- R360, R361, R364, R365, R367. -/
def Obligations.BrownoutsAndTheAlwaysOnSupply : Prop :=
  (∀ (s : State) (r : Rail) (mv : BitVec 16),
    ∃ t, exec (.brownoutStart r mv) s = .next t ∧ t.is PWR_STATUS_BO_WARN.one = true ∧
      t.get (PWR_RAIL_MV.win (railIndex r)) = mv.toNat ∧
      t.get (PWR_RAIL_MIN.win (railIndex r)) = min (s.get (PWR_RAIL_MIN.win (railIndex r))) mv.toNat ∧
      bitOf (t.get PWR_STATUS_RAILS_LOW.one) (railBit r) = true ∧ bitOf t.pwr.boRails (railBit r) = true ∧
      (s.is PWR_STATUS_BO_WARN.one = false → t.latched 18 = true ∧ t.get PWR_BO_LAST_START.one = (s.now - 40960) % 2 ^ 64 ∧ t.pwr.boRails = 2 ^ railBit r ∧
        t.get PWR_BO_COUNT.one = (s.get PWR_BO_COUNT.one + 1) % 2 ^ 32 ∧
        t.get LIFE_BROWNOUTS.one = (s.get LIFE_BROWNOUTS.one + 1) % 2 ^ 32 ∧
        t.get PWR_BO_LAST_EPISODE.one = (s.get LIFE_BROWNOUTS.one + 1) % 2 ^ 16 ∧
        t.is PWR_BO_LAST_BOUND_OFF.one = false) ∧
      (s.is PWR_STATUS_BO_WARN.one = true → t.get PWR_BO_COUNT.one = s.get PWR_BO_COUNT.one) ∧
      t.now = s.now ∧ s.sameMemory t) ∧
  (∀ (s : State) (k : BitVec 48), s.is PWR_STATUS_BO_WARN.one = true →
    ∃ t, exec (.brownoutEnd k) s = .next t ∧ t.is PWR_STATUS_BO_WARN.one = false ∧ t.get PWR_STATUS_RAILS_LOW.one = 0 ∧
      t.get PWR_BO_LAST_END.one = (s.now - max 8192000 k.toNat) % 2 ^ 64 ∧
      t.get PWR_BO_LAST_RAILS.one = s.pwr.boRails % 16 ∧ t.latched 19 = true) ∧
  (∀ (s : State) (k : BitVec 48), s.is PWR_STATUS_BO_WARN.one = false → exec (.brownoutEnd k) s = .next s) ∧
  (∀ s : State, (s.is PWR_STATUS_BO_WARN.one = false ∨ s.boundOffDue = false) → exec .brownoutBindOff s = .next s) ∧
  (∀ s : State, s.is PWR_STATUS_BO_WARN.one = true → s.boundOffDue = true →
    ∃ t, exec .brownoutBindOff s = .next t ∧ t.is PWR_BO_LAST_BOUND_OFF.one = true ∧
      (∀ i < 8, s.sessState i = 3 → t.sessState i = 4 ∧
        ∃ d, t.closeReq i = some ⟨5, true, d⟩ ∧ s.nextBoundary ≤ d) ∧ t.skeins = s.skeins ∧ s.sameMemory t) ∧
  (∀ s : State, ∃ t u, exec .aonSupplySwitch s = .next t ∧ t.is PWR_STATUS_AON_SUPPLY.one = true ∧
    s.sameRegs [PWR_STATUS_AON_SUPPLY.one.key] t ∧ t = { s with regs := t.regs } ∧
    exec .aonSupplyReturn s = .next u ∧ u.is PWR_STATUS_AON_SUPPLY.one = false ∧
    s.sameRegs [PWR_STATUS_AON_SUPPLY.one.key] u ∧ u = { s with regs := u.regs }) ∧
  ∀ s : State, ∃ t, exec .aonContentsLost s = .next t ∧ (∀ f : Fld, aonCell f.key = true → t.get f = f.reset) ∧
    (∀ f : Fld, aonCell f.key = false → t.get f = s.get f) ∧ t.pwr.aonFresh = true ∧ t.pwr.aonLost = true ∧
    t = { s with regs := t.regs, pwr := { s.pwr with aonFresh := true, aonLost := true, cold := true }
                 svc := { s.svc with commit := none, commitNext := false } }

/-- R363, R368, R381 to R383, R485. -/
def Obligations.ResetsKeepAndClear : Prop :=
  (∀ (s : State) (x : Straps), ∃ t, exec (.porstN x) s = .next t ∧
    (∀ f : Fld, aonCell f.key = false →
      f.key ∉ [SYS_BOOT_REF_SEL.one, SYS_BOOT_BOOT_MODE.one, SVC_STATUS_ROM_ONLY.one].map Fld.key → t.get f = State.reset.get f) ∧
    (∀ f : Fld, aonCell f.key = true →
      f.key ∉ [PWR_RESET_CAUSE_CAUSE.one, PWR_RESET_CAUSE_RAIL.one, PWR_RESET_CAL.one].map Fld.key → t.get f = s.get f) ∧
    t.is SYS_BOOT_REF_SEL.one = x.refSel ∧ t.get SYS_BOOT_BOOT_MODE.one = x.bootMode.val ∧
    t.get PWR_RESET_CAUSE_CAUSE.one = (if s.pwr.cold then 1 else 2) ∧ t.get PWR_RESET_CAUSE_RAIL.one = 0 ∧
    t.get PWR_RESET_CAL.one = s.get LIFE_CAL_SECONDS.one % 2 ^ 32 ∧ t.is SVC_STATUS_ROM_ONLY.one = true ∧ t.pwr.step = 1 ∧
    t.skeins = [] ∧ t.seqs = [] ∧ t.hbm = Hbm.reset ∧ t.grt = Grottos.reset ∧ t.dma = [] ∧ t.flt = FaultMgr.reset ∧
    t.mbx = Mailbox.reset ∧ t.twn = Twin.reset ∧ t.link = { Link.reset with inReset := s.link.inReset } ∧ t.now = 0 ∧
    t.svc.flash = s.svc.flash ∧ t.svc.svn = s.svc.svn ∧ t.svc.commit = s.svc.commit ∧ t.pending = s.pending) ∧
  (∀ (s : State) (r : Rail), ∃ t, exec (.resetCrossing r) s = .next t ∧
    t.get PWR_RESET_CAUSE_CAUSE.one = 3 ∧ t.get PWR_RESET_CAUSE_RAIL.one = railIndex r ∧
    t.get PWR_RESET_CAL.one = s.get LIFE_CAL_SECONDS.one % 2 ^ 32 ∧
    t.is SYS_BOOT_REF_SEL.one = s.is SYS_BOOT_REF_SEL.one ∧
    (∀ f : Fld, aonCell f.key = true →
      f.key ∉ [PWR_RESET_CAUSE_CAUSE.one, PWR_RESET_CAUSE_RAIL.one, PWR_RESET_CAL.one].map Fld.key → t.get f = s.get f) ∧
    t.pwr.waitRails = true ∧ t.pwr.step = 0 ∧ t.link = { Link.reset with inReset := s.link.inReset } ∧ t.hbm = Hbm.reset ∧ t.grt = Grottos.reset ∧
    t.svc.flash = s.svc.flash ∧ t.pending = s.pending) ∧
  (∀ (s : State) (x : Straps), s.pwr.waitRails = false → exec (.resetCrossingRestart x) s = .next s) ∧
  ∀ (s : State) (x : Straps), s.pwr.waitRails = true →
    ∃ t, exec (.resetCrossingRestart x) s = .next t ∧ t.is SVC_STATUS_ROM_ONLY.one = true ∧
      t.is SYS_BOOT_REF_SEL.one = x.refSel ∧ t.get SYS_BOOT_BOOT_MODE.one = x.bootMode.val ∧
      s.sameRegs ([SVC_STATUS_ROM_ONLY.one, SYS_BOOT_REF_SEL.one, SYS_BOOT_BOOT_MODE.one].map Fld.key) t ∧
      t = { s with regs := t.regs, pwr := { s.pwr with step := 1, waitRails := false, cold := false } }

/-- R371, R372, R375 to R377, R125, R287. -/
def Obligations.GatesParkAndWake : Prop :=
  (∀ (s : State) (v : BitVec 64), s.admits (PageClass.page .pwr 0) = true →
    ∃ t, exec (.skeinGateWrite true v) s = .next t ∧
      (bitOf v.toNat 0 = false ∨ s.spareMode = 0 → t.is PWR_SKN_GATE_64.one = bitOf v.toNat 0) ∧
      (bitOf v.toNat 0 = true → s.is PWR_SKN_GATE_64.one = false → s.spareMode ≠ 0 →
        t.is PWR_SKN_GATE_64.one = false ∧ t.is PWR_GATE_ERR_REFUSED.one = true ∧ t.get PWR_GATE_ERR_CAUSE.one = 2 ∧
        t.latched 22 = true) ∧ t.pageLocked (PageClass.page .pwr 0) = true) ∧
  (∀ (s : State) (v : BitVec 64), s.admits (PageClass.page .pwr 0) = true →
    ∃ t, exec (.skeinGateWrite false v) s = .next t ∧
      (∀ n < 64, bitOf v.toNat n = false ∨ s.skeinGateCause n = 0 → bitOf (t.get PWR_SKN_GATE.one) n = bitOf v.toNat n) ∧
      (∀ n < 64, bitOf v.toNat n = true → s.skeinGateCause n ≠ 0 →
        bitOf (t.get PWR_SKN_GATE.one) n = bitOf (s.get PWR_SKN_GATE.one) n)) ∧
  (∀ (s : State) (v : DWord), s.admits (PageClass.page .pwr 0) = true →
    ∃ t, exec (.sequencerGateWrite v) s = .next t ∧
      (∀ n < 8, bitOf v.toNat n = false ∨ (s.sessState n = 0 ∧ s.seqArmed n = false ∧ s.get (TRG_STATUS_STATE.of n) ≠ 1) →
        bitOf (t.get PWR_TRG_GATE_GATE.one) n = bitOf v.toNat n) ∧
      (∀ n < 8, bitOf v.toNat n = true → bitOf (s.get PWR_TRG_GATE_GATE.one) n = false →
        (s.sessState n ≠ 0 ∨ s.seqArmed n = true ∨ s.get (TRG_STATUS_STATE.of n) = 1) →
        bitOf (t.get PWR_TRG_GATE_GATE.one) n = false ∧ t.is PWR_GATE_ERR_REFUSED.one = true ∧ t.latched 22 = true) ∧
      s.sameRegs ([PWR_TRG_GATE_GATE.one, PWR_GATE_ERR_REFUSED.one, PWR_GATE_ERR_CAUSE.one, PWR_GATE_ERR_UNIT.one,
        unlockedOf (PageClass.page .pwr 0)].map Fld.key ++ latches [22]) t ∧ s.sameButRegs t) ∧
  (∀ (s : State) (n : Fin 65) (f : CalFinding), s.skeinReady n.val = (s.skeinGate n.val || !s.powersUp) →
    ∃ t, exec (.unitReadyChange (.skein n) f) s = .next t ∧ t.skeinReady n.val = !s.skeinReady n.val ∧
      t.latched 21 = true ∧ (s.skeinReady n.val = false → t.is (FE_STATUS_CAL_OK.of n.val) = f.ok ∧
        t.get (FE_CAL_STATUS_RESID.of n.val) = f.resid.toNat ∧ t.get (FE_CAL_STATUS_TEMP_DELTA.of n.val) = 0) ∧
      ({ s with skeins := t.skeins } : State).sameButRegs t) ∧
  (∀ (s : State) (n : Fin 65) (f : CalFinding), s.skeinReady n.val = (!s.skeinGate n.val && s.powersUp) →
    exec (.unitReadyChange (.skein n) f) s = .next s) ∧
  (∀ (s : State) (n : Fin 8) (f : CalFinding),
    bitOf (s.get PWR_TRG_GATE_READY.one) n.val = (!bitOf (s.get PWR_TRG_GATE_GATE.one) n.val && s.powersUp) →
    exec (.unitReadyChange (.sequencer n) f) s = .next s) ∧
  (∀ (s : State) (n : Fin 8) (f : CalFinding),
    bitOf (s.get PWR_TRG_GATE_READY.one) n.val = (bitOf (s.get PWR_TRG_GATE_GATE.one) n.val || !s.powersUp) →
    ∃ t, exec (.unitReadyChange (.sequencer n) f) s = .next t ∧
      bitOf (t.get PWR_TRG_GATE_READY.one) n.val = !bitOf (s.get PWR_TRG_GATE_READY.one) n.val ∧ t.latched 21 = true ∧
      s.sameRegs (PWR_TRG_GATE_READY.one.key :: latches [21]) t ∧ s.sameButRegs t) ∧
  (∀ s : State, s.get PWR_STATUS_STATE.one = 2 → s.anyRuns = false →
    ∃ t, exec .parkComplete s = .next t ∧ t.is HBM_G_STATUS_PARKED.one = true ∧
      t.is HBM_G_STATUS_READY.one = false ∧ (∀ n < 65, t.skeinReady n = false) ∧
      (∀ n < 8, bitOf (t.get PWR_TRG_GATE_READY.one) n = false) ∧ t.latched 20 = true ∧
      t.get PWR_STATUS_STATE.one = (if s.mbxServes 0x21 && !s.is PWR_STATUS_TRIPPED.one then 4 else 3) ∧
      (s.mbxServes 0x20 = true → t.mbx.cur = none) ∧
      (s.mbxServes 0x21 = true → s.is PWR_STATUS_TRIPPED.one = true → t.mbx.cur = none ∧ t.get MBX_STATUS_RESULT.one = 3) ∧
      ((s.mbxServes 0x21 = false ∨ s.is PWR_STATUS_TRIPPED.one = true) →
        (∀ pc, ∀ w ∈ s.hbm.writes pc, w.data.length = 64 ∧ w.x + 64 ≤ pcBytes) →
        ∀ pc ∈ s.serviceList,
          (bitOf (s.get (HBM_RETAIN.of (stackOf pc))) (pc % 32) = true → t.pcState pc = 1 ∧
            ∀ x < pcBytes, t.hbm.byteAt pc x = s.hbm.byteAt pc x) ∧
          (bitOf (s.get (HBM_RETAIN.of (stackOf pc))) (pc % 32) = false → t.pcState pc = 2 ∧
            ∀ x < pcBytes, t.hbm.byteAt pc x = 0))) ∧
  (∀ s : State, (s.get PWR_STATUS_STATE.one ≠ 2 ∨ s.anyRuns = true) → exec .parkComplete s = .next s) ∧
  (∀ s : State, (s.get PWR_STATUS_STATE.one ≠ 4 ∨ s.is HBM_G_STATUS_PARKED.one = true ∨
    s.is FEG_STATUS_CAL_BUSY.one = true) → exec .wakeComplete s = .next s) ∧
  ∀ s : State, s.get PWR_STATUS_STATE.one = 4 → s.is HBM_G_STATUS_PARKED.one = false → s.is FEG_STATUS_CAL_BUSY.one = false →
    ∃ t, exec .wakeComplete s = .next t ∧ t.get PWR_STATUS_STATE.one = 1 ∧ t.latched 20 = true ∧
      (∀ n < 65, t.skeinReady n = !s.skeinGate n) ∧ (s.mbxServes 0x21 = true → t.mbx.cur = none) ∧
      (∀ n < 8, bitOf (t.get PWR_TRG_GATE_READY.one) n = !bitOf (s.get PWR_TRG_GATE_GATE.one) n) ∧ s.sameMemory t

/-- R378 to R380, R385. -/
def Obligations.DieTemperaturesAndTheTrip : Prop :=
  (∀ (s : State) (temps : List Byte), temps.length = 16 →
    ∃ t, exec (.dieTempRead temps) s = .next t ∧ (∀ i < 16, t.get (PWR_TEMP_VALUE.win i) = (temps.getD i 0).toNat) ∧
      (∀ i < 16, signed 8 (temps.getD i 0).toNat ≤ t.hottest) ∧ (∃ i < 16, t.hottest = signed 8 (temps.getD i 0).toNat) ∧
      (s.pwr.hotHit = false → signed 8 (s.get PWR_TEMP_LIMIT_HOT.one) < t.hottest → t.latched 23 = true) ∧
      ({ s with pwr := { s.pwr with hotHit := t.pwr.hotHit, coldHit := t.pwr.coldHit } } : State).sameButRegs t) ∧
  (∀ s : State, 112 ≤ s.hottest → s.is PWR_STATUS_TRIPPED.one = false →
    ∃ t, exec .dieTrip s = .next t ∧ t.is PWR_STATUS_TRIPPED.one = true ∧ t.latched 24 = true ∧
      (∀ k < 8, t.holdActive k = false) ∧ (∀ i < 8, s.sessState i = 3 → t.sessState i = 4) ∧
      t.get PWR_STATUS_STATE.one = (if s.get PWR_STATUS_STATE.one = 3 then 3 else 2) ∧ s.sameMemory t) ∧
  (∀ s : State, (s.hottest < 112 ∨ s.is PWR_STATUS_TRIPPED.one = true) → exec .dieTrip s = .next s) ∧
  (∀ s : State, 95 ≤ s.hottest → exec .tripClear s = .next s) ∧
  (∀ s : State, s.hottest < 95 →
    ∃ t, exec .tripClear s = .next t ∧ t.is PWR_STATUS_TRIPPED.one = false ∧
      s.sameRegs [PWR_STATUS_TRIPPED.one.key] t ∧ t = { s with regs := t.regs }) ∧
  ∀ (s : State) (v : DWord), s.admits (PageClass.page .pwr 0) = true →
    ∃ t, exec (.clearMin v) s = .next t ∧ (∀ i < 7, t.get (PWR_RAIL_MIN.win i) = 0xFFFF) ∧ t.get PWR_TEMP_MAX_PEAK.one = 0x80 ∧
      s.sameRegs ((unlockedOf (PageClass.page .pwr 0)).key :: PWR_TEMP_MAX_PEAK.one.key ::
        (upto 7).map (fun i => (PWR_RAIL_MIN.win i).key)) t ∧ t = { s with regs := t.regs }

/-- R382, R384, R438, R442. -/
def Obligations.StartUpGoesStepByStep : Prop :=
  (∀ (s : State) (ok : Bool), s.pwr.step = 1 →
    ∃ t, exec (.startUpStepDone ok) s = .next t ∧ t.pwr.step = 2 ∧ t.is FUSE_STATUS_LOADED.one = true ∧
      t.is FUSE_STATUS_CORRECTED.one = !ok ∧ t.get CLK_STATUS_STEP.one = 1 ∧ t.is CLK_STATUS_SEARCHING.one = true ∧
      (ok = false → t.latched 56 = true) ∧
      s.sameRegs ([FUSE_STATUS_LOADED.one, FUSE_STATUS_CORRECTED.one, CLK_STATUS_STEP.one, CLK_STATUS_SEARCHING.one,
        FEG_STATUS_CAL_DONE.one].map Fld.key ++ latches [56]) t ∧
      ({ s with clk := t.clk, pwr := { s.pwr with step := 2 } } : State).sameButRegs t) ∧
  (∀ (s : State) (ok : Bool), s.pwr.step = 2 →
    (s.is CLK_STATUS_SEARCHING.one = true → exec (.startUpStepDone ok) s = .next s) ∧
    (s.is CLK_STATUS_SEARCHING.one = false →
      ∃ t, exec (.startUpStepDone ok) s = .next t ∧ t.pwr.step = 3 ∧ t.is GRT_STATUS_READY.one = true ∧
        t.is GRT_STATUS_CLEARING.one = false ∧ t.flt.repairs = s.svc.flash.repairs ∧
        (s.grt.waiting = [] → ∀ b < 64, s.grottoFenced b = false → ∀ w < grottoWords, t.grottoWord b w = 0))) ∧
  (∀ (s : State) (ok : Bool), s.pwr.step = 3 →
    ∃ t, exec (.startUpStepDone ok) s = .next t ∧
      (s.get SYS_BOOT_BOOT_MODE.one = 1 → t.is SYS_BOOT_RECOVERY.one = true ∧ t.is SVC_STATUS_RECOVERY.one = true ∧
        t.is SVC_STATUS_ROM_ONLY.one = true ∧ t.link.ready = true ∧ t.pwr.step = 0 ∧
        t.get SYS_FW_VERSION_MAJOR.one = 0 ∧ t.get SYS_FW_VERSION_MINOR.one = 0 ∧ t.get SYS_FW_VERSION_BUILD.one = 0) ∧
      (s.get SYS_BOOT_BOOT_MODE.one ≠ 1 → t.pwr.step = 4 ∧ t.link.ready = s.link.ready)) ∧
  (∀ (s : State) (ok : Bool), s.pwr.step = 4 →
    ∃ t, exec (.startUpStepDone ok) s = .next t ∧
      if s.imageReason s.pwr.slot = 0 then t = { s with pwr := { s.pwr with step := 5 } }
      else if s.imageReason (1 - s.pwr.slot) = 0 then t.pwr.step = 5 ∧ t.pwr.slot = 1 - s.pwr.slot ∧ t.latched 46 = true
      else t.is SYS_BOOT_RECOVERY.one = true ∧ t.is SVC_STATUS_ROM_ONLY.one = true ∧ t.link.ready = true ∧ t.pwr.step = 0 ∧
        t.get SYS_FW_VERSION_BUILD.one = 0) ∧
  (∀ (s : State) (ok : Bool), (s.pwr.step = 0 ∨ 7 < s.pwr.step) → exec (.startUpStepDone ok) s = .next s) ∧
  (∀ (s : State) (ok : Bool) (failed : BitVec 3), s.pwr.step = 5 →
    ∃ t, exec (.startUpStepDone ok failed) s = .next t ∧ t.pwr.step = 6 ∧ t.is MBX_CPU_STATUS_RUNNING.one = true ∧
      t.get MBX_CPU_STATUS_ME_LOADED.one = (if ok then 7 else 7 - failed.toNat) ∧
      (ok = false → failed ≠ 0 → t.latched 37 = true) ∧
      t.get SYS_BOOT_SLOT.one = s.pwr.slot % 4 ∧ t.is SVC_STATUS_ROM_ONLY.one = false ∧ t.pwr.locked5 = s.locked) ∧
  (∀ (s : State) (ok : Bool), s.pwr.step = 6 →
    (s.pwr.locked5 = true → (s.is HBM_G_STATUS_READY.one = false ∨ s.is FEG_STATUS_CAL_DONE.one = false) →
      exec (.startUpStepDone ok) s = .next s) ∧
    ((s.pwr.locked5 = false ∨ s.is HBM_G_STATUS_READY.one = true ∧ s.is FEG_STATUS_CAL_DONE.one = true) →
      exec (.startUpStepDone ok) s = .next { s with pwr := { s.pwr with step := 7 } })) ∧
  ∀ (s : State) (ok : Bool), s.pwr.step = 7 →
    ∃ t, exec (.startUpStepDone ok) s = .next t ∧ t.link.ready = true ∧ t.pwr.step = 0 ∧ t.get PWR_STATUS_STATE.one = 1 ∧
      t.get MBX_STATUS_STATE.one = 1 ∧ t.flt.fences = s.svc.flash.fences.getD Fences.empty ∧ t.now = s.now

/-- R394 to R399, R403. -/
def Obligations.MailboxCommandsStartWaitAndEnd : Prop :=
  (∀ (s : State) (tag : BitVec 16) (args : List Byte), s.admits (PageClass.page .mbx 0) = true → s.get MBX_STATUS_STATE.one ≠ 1 →
    args.length ≤ 4096 →
    ∀ c ∈ [Instr.echo tag, .planAdmit tag args, .planRelease tag args, .castOn tag args, .bindOff tag args, .arm tag args,
      .forceTrigger tag args, .segmentRelease tag args, .quotaSet tag args, .park tag, .wake tag, .activate tag args, .confirm tag,
      .attest tag args, .lifeRead tag, .calendarSet tag args, .selftestReport tag, .fenceRead tag, .twinPair tag args,
      .twinHandover tag, .replaySetup tag args],
      ∃ t, exec c s = .next t ∧ t.is MBX_ERR_DOORBELL_BUSY.one = true ∧ t.latched 33 = true ∧
        s.sameRegs ([MBX_ERR_DOORBELL_BUSY.one, unlockedOf (PageClass.page .mbx 0)].map Fld.key ++ latches [33]) t ∧ s.sameButRegs t) ∧
  (∀ (s : State) (tag : BitVec 16), s.takes = true →
    ∃ t u, exec (.echo tag) s = .next t ∧ t.serves 0x01 tag [] 2 ∧ exec (.lifeRead tag) s = .next u ∧ u.serves 0x40 tag [] 2 ∧
      (∀ x ∈ [t, u], x.is SYS_SNAP_STATUS_PENDING.one = true ∧ (⟨.mailbox, s.snapTime⟩ : SnapAsk) ∈ x.clk.snaps ∧
        x.clk.snaps.length = s.clk.snaps.length + 1 ∧
        s.sameRegs ([SYS_SNAP_STATUS_PENDING.one, MBX_STATUS_STATE.one, MBX_CMD_CODE.one, MBX_CMD_TAG.one, MBX_ARG_LEN.one,
          unlockedOf (PageClass.page .mbx 0)].map Fld.key) x ∧
        x = { s with regs := x.regs, mbx := { s.mbx with cur := x.mbx.cur }, clk := { s.clk with snaps := x.clk.snaps } })) ∧
  (∀ (s : State) (tag : BitVec 16), s.snapReady = true → s.snapFor .mailbox = true → s.mbx.cur = some ⟨0x01, tag.toNat, []⟩ →
    ∃ t, exec .snapshotTaken s = .next t ∧ s.ended t 0x01 tag 0 false (toBytes 4 ((s.snapSeq + 1) % 2 ^ 32)) ∧
      t.bar4Bytes 0 0x4000 = s.takeSnapshot.summary false false ∧ t.get MBX_ECHO_SEQ.one = (s.snapSeq + 1) % 2 ^ 32 ∧
      t.is SYS_SNAP_STATUS_PENDING.one = !t.clk.snaps.isEmpty ∧
      t.clk.snaps = s.clk.snaps.filter (fun a => some a.due != s.clk.firstSnap)) ∧
  (∀ (s : State) (tag : BitVec 16), s.snapReady = true → s.snapFor .mailbox = true → s.mbx.cur = some ⟨0x40, tag.toNat, []⟩ →
    ∃ t, exec .snapshotTaken s = .next t ∧ s.ended t 0x40 tag 0 true s.takeSnapshot.lifeData) ∧
  (∀ (s : State) (code : Byte) (tag : BitVec 16), s.takes = true → commandCodes.contains code.toNat = false →
    ∃ t, exec (.unknownCommand code tag) s = .next t ∧ s.ended t code.toNat tag 1 false []) ∧
  (∀ (s : State) (code : Byte) (tag : BitVec 16) (args : List Byte), s.admits (PageClass.page .mbx 0) = true →
    s.serves code.toNat tag args 3 → ∃ t, exec .cancel s = .next t ∧ s.ended t code.toNat tag 6 false [] ∧ t.twn.mirror = false) ∧
  (∀ s : State, s.admits (PageClass.page .mbx 0) = true → s.get MBX_STATUS_STATE.one ≠ 3 →
    ∃ t, exec .cancel s = .next t ∧ s.sameRegs [(unlockedOf (PageClass.page .mbx 0)).key] t ∧ t = { s with regs := t.regs }) ∧
  (∀ (s : State) (tag : BitVec 16), s.serves 0x20 tag [] 3 → s.twn.mirror = false → s.get PWR_STATUS_STATE.one = 3 →
    s.anyRuns = false → s.anyReplay = false →
    ∃ t, exec .heldProceed s = .next t ∧ s.ended t 0x20 tag 0 false []) ∧
  (∀ (s : State) (tag : BitVec 16) (slot : Byte), slot.toNat ≤ 1 → s.serves 0x30 tag [slot] 3 → s.twn.mirror = false →
    s.mayActivate slot.toNat = true → s.is PWR_STATUS_BO_WARN.one = false →
    ∃ t, exec .heldProceed s = .next t ∧ t.svc.activating = some slot.toNat ∧ t.serves 0x30 tag [slot] 2) ∧
  ∀ s : State, s.mbx.cur = none ∨ s.get MBX_STATUS_STATE.one ≠ 3 ∨ s.twn.mirror = true → exec .heldProceed s = .next s

/-- R223, R224, R231, R232, R398 to R401. -/
def Obligations.PlansAreAdmittedOrRefused : Prop :=
  (∀ (s : State) (tag : BitVec 16) (args : List Byte) (o : Nat), s.takes = true → args.length ≤ 4096 →
    badField (admitArgs args) = some o →
    ∃ t, exec (.planAdmit tag args) s = .next t ∧ s.ended t 0x10 tag 2 false (toBytes 4 o) ∧ ∀ i < 8, t.sessState i = s.sessState i) ∧
  (∀ (s : State) (tag : BitVec 16) (args : List Byte) (o : Nat), s.takes = true → args.length ≤ 4096 →
    badField (admitArgs args) = none →
    planBad (s.bar4Bytes (0x6000 + leAt args 0 4) (leAt args 4 4)) (leAt args 4 4) = some o →
    ∃ t, exec (.planAdmit tag args) s = .next t ∧ s.ended t 0x10 tag 2 false (toBytes 4 (leAt args 0 4 + o)) ∧
      ∀ i < 8, t.sessState i = s.sessState i) ∧
  (∀ (s : State) (tag : BitVec 16) (args : List Byte), s.takes = true → args.length ≤ 4096 → badField (admitArgs args) = none →
    let bytes := s.bar4Bytes (0x6000 + leAt args 0 4) (leAt args 4 4)
    let p := readPlan bytes
    planBad bytes (leAt args 4 4) = none → (s.admission p).1 ≠ 0 →
    ∃ t, exec (.planAdmit tag args) s = .next t ∧
      s.ended t 0x10 tag 4 false (p.reply (s.admission p).1 (s.admission p).2) ∧ t.latched 259 = true ∧
      t.get ADM_LAST_REFUSAL_CAUSE.one = (s.admission p).1 ∧ t.get ADM_LAST_REFUSAL_SESSION.one = p.session ∧
      (∀ i < 8, t.sessState i = s.sessState i) ∧ t.rcd = s.rcd ∧ t.skeins = s.skeins) ∧
  ∀ (s : State) (tag : BitVec 16) (args : List Byte), s.takes = true → args.length ≤ 4096 → badField (admitArgs args) = none →
    let bytes := s.bar4Bytes (0x6000 + leAt args 0 4) (leAt args 4 4)
    let p := readPlan bytes
    planBad bytes (leAt args 4 4) = none → (s.admission p).1 = 0 →
    ∃ t, exec (.planAdmit tag args) s = .next t ∧ s.ended t 0x10 tag 0 false (p.reply 0 0) ∧ t.latched 258 = true ∧
      t.sessState p.session = 1 ∧ (∀ i < 8, i ≠ p.session → t.sessState i = s.sessState i) ∧
      t.get (WR_SESSION_REGION_BASE.elt p.session) = p.base ∧ t.get (WR_SESSION_REGION_SIZE.elt p.session) = p.size ∧
      t.get (WR_SESSION_QUOTA.elt p.session) = p.quota ∧ t.get (WR_SESSION_STATUS_POLICY.elt p.session) = p.policy ∧
      t.get (ADM_CREDIT_CREDITS.win (64 + p.session)) = 2 ∧ sget t.rcd.plans p.session none = some p

/-- R225 to R227, R248, R253, R194, R199, R200, R398 to R400. -/
def Obligations.SessionCommandsActAlone : Prop :=
  (∀ (s : State) (tag : BitVec 16) (args : List Byte), s.takes = true → args.length ≤ 4096 → s.paired = true → s.isFollower = true →
    ∀ c ∈ [(Instr.planRelease tag args, 0x11), (.castOn tag args, 0x12), (.bindOff tag args, 0x13), (.arm tag args, 0x14),
      (.forceTrigger tag args, 0x15), (.segmentRelease tag args, 0x16), (.quotaSet tag args, 0x17)],
      ∃ t, exec c.1 s = .next t ∧ s.ended t c.2 tag 3 false [] ∧ ∀ i < 8, t.sessState i = s.sessState i) ∧
  (∀ (s : State) (tag : BitVec 16) (args : List Byte), s.takes = true → args.length ≤ 4096 → s.get TWN_STATUS_ROLE.one = 0 →
    badField [indexArg args] = some 0 →
    ∀ c ∈ [(Instr.planRelease tag args, 0x11), (.castOn tag args, 0x12), (.bindOff tag args, 0x13), (.arm tag args, 0x14),
      (.forceTrigger tag args, 0x15), (.quotaSet tag args, 0x17)],
      ∃ t, exec c.1 s = .next t ∧ s.ended t c.2 tag 2 false (toBytes 4 0) ∧ ∀ i < 8, t.sessState i = s.sessState i) ∧
  (∀ (s : State) (tag : BitVec 16) (args : List Byte), s.Sound → s.takes = true → args.length ≤ 4096 →
    s.get TWN_STATUS_ROLE.one = 0 → badField [indexArg args] = none →
    let n := leAt args 0 1
    (s.sessState n ≠ 0 → s.sessRuns n = false →
      ∃ t, exec (.planRelease tag args) s = .next t ∧ s.ended t 0x11 tag 0 false [] ∧ t.sessState n = 0 ∧
        t.latched (266 + n) = true ∧ sget t.rcd.plans n none = none ∧ t.get (ADM_CREDIT_CREDITS.win (64 + n)) = 0) ∧
    (s.sessState n = 0 ∨ s.sessRuns n = true →
      ∃ t, exec (.planRelease tag args) s = .next t ∧ s.ended t 0x11 tag 3 false [] ∧ ∀ i < 8, t.sessState i = s.sessState i) ∧
    (s.sessState n = 3 →
      ∃ t, exec (.bindOff tag args) s = .next t ∧
        s.ended t 0x13 tag 0 false (toBytes 8 (eraFrame (s.bindOffDue n 0))) ∧ t.sessState n = 4 ∧
        t.closeReq n = some ⟨0, true, s.bindOffDue n 0⟩) ∧
    (s.sessState n ≠ 3 →
      ∃ t, exec (.bindOff tag args) s = .next t ∧ s.ended t 0x13 tag 3 false [] ∧ ∀ i < 8, t.sessState i = s.sessState i) ∧
    (s.seqFenced n = false → s.seqArmed n = true →
      ∃ t, exec (.forceTrigger tag args) s = .next t ∧ s.ended t 0x15 tag 0 false [] ∧
        t.seq n = (if s.detached n then { s.seq n with force := true }
          else { s.seq n with forceAt := (s.seq n).forceAt ++ [ceilTo s.now fclkTicks] })) ∧
    (s.seqFenced n = true → ∀ c ∈ [(Instr.forceTrigger tag args, 0x15), (.arm tag args, 0x14)],
      ∃ t, exec c.1 s = .next t ∧ s.ended t c.2 tag 5 false (toBytes 2 (PageClass.page .trg n)) ∧ t.seqs = s.seqs) ∧
    (s.seqFenced n = false → s.sessState n ≠ 3 ∨ s.seqArmed n = true ∨ s.get (TRG_STATUS_STATE.of n) = 1 →
      ∃ t, exec (.arm tag args) s = .next t ∧ s.ended t 0x14 tag 3 false [] ∧ t.seqs = s.seqs) ∧
    (s.checkCastOn n = .wait →
      ∃ t, exec (.castOn tag args) s = .next t ∧ t.serves 0x12 tag args 3 ∧ t.latched 34 = true ∧
        ∀ i < 8, t.sessState i = s.sessState i) ∧
    (∀ result reply, s.checkCastOn n = .fail result reply →
      ∃ t, exec (.castOn tag args) s = .next t ∧ s.ended t 0x12 tag result false reply ∧ ∀ i < 8, t.sessState i = s.sessState i) ∧
    (s.seqFenced n = false → s.seqArmed n = false →
      ∃ t, exec (.forceTrigger tag args) s = .next t ∧ s.ended t 0x15 tag 3 false [] ∧ t.seqs = s.seqs)) ∧
  (∀ (s : State) (tag : BitVec 16) (args : List Byte), s.takes = true → args.length ≤ 4096 → s.get TWN_STATUS_ROLE.one = 0 →
    badField [indexArg args] = none →
    let n := leAt args 0 1
    s.seqFenced n = false → s.sessState n = 3 → s.seqArmed n = false → s.get (TRG_STATUS_STATE.of n) ≠ 1 →
    (s.armRefusal n true = 0 →
      ∃ t, exec (.arm tag args) s = .next t ∧ s.ended t 0x14 tag 0 false [] ∧ t.get (TRG_STATUS_STATE.of n) = 1 ∧
        t.is (TRG_CTRL_ARM.of n) = true ∧ t.get (TRG_ARM_ERR_CAUSE.of n) = 0 ∧ (t.seq n).armDue = s.nextBoundary) ∧
    (s.armRefusal n true ≠ 0 →
      ∃ t, exec (.arm tag args) s = .next t ∧ s.ended t 0x14 tag 4 false (toBytes 1 (s.armRefusal n true)) ∧
        t.get (TRG_STATUS_STATE.of n) = s.get (TRG_STATUS_STATE.of n) ∧ t.is (TRG_ARM_ERR_REFUSED.of n) = true ∧
        t.latched (197 + 8 * n) = true ∧ t.seqs = s.seqs)) ∧
  (∀ (s : State) (tag : BitVec 16) (args : List Byte), s.Sound → s.Numbered → s.takes = true → args.length ≤ 4096 →
    s.get TWN_STATUS_ROLE.one = 0 → badField [indexArg args] = none →
    let n := leAt args 0 1
    ∀ p : Plan, s.checkCastOn n = .pass → sget s.rcd.plans n none = some p →
    ∃ t, exec (.castOn tag args) s = .next t ∧ s.ended t 0x12 tag 0 false (toBytes 8 (eraFrame s.nextBoundary)) ∧
      t.sessState n = 2 ∧ t.latched (266 + n) = true ∧ sget t.rcd.castDue n 0 = s.nextBoundary + 1 ∧
      (∀ i < 8, i ≠ n → t.sessState i = s.sessState i) ∧
      ∀ k ∈ p.skeins, t.is (SKN_COMMIT.of k.skein) = true ∧ t.is (SKN_COMMIT_STATUS_PENDING.of k.skein) = true) ∧
  (∀ (s : State) (tag : BitVec 16) (args : List Byte), s.takes = true → args.length ≤ 4096 → s.get TWN_STATUS_ROLE.one = 0 →
    args.length < 2 ∨ 16384 ≤ leAt args 0 2 →
    ∃ t, exec (.segmentRelease tag args) s = .next t ∧ s.ended t 0x16 tag 2 false (toBytes 4 0)) ∧
  (∀ (s : State) (tag : BitVec 16) (args : List Byte), s.Sound → s.takes = true → args.length ≤ 4096 →
    s.get TWN_STATUS_ROLE.one = 0 → 2 ≤ args.length → leAt args 0 2 < 16384 →
    let x := leAt args 0 2
    (2 ≤ s.get (SEG_ENTRY_INFO_STATE.win x) →
      ∃ t, exec (.segmentRelease tag args) s = .next t ∧ s.ended t 0x16 tag 0 false [] ∧ t.get (SEG_ENTRY_INFO_STATE.win x) = 0) ∧
    (s.get (SEG_ENTRY_INFO_STATE.win x) ≤ 1 →
      ∃ t, exec (.segmentRelease tag args) s = .next t ∧ s.ended t 0x16 tag 4 false [] ∧ t.latched 285 = true ∧
        t.get (SEG_ENTRY_INFO_STATE.win x) = s.get (SEG_ENTRY_INFO_STATE.win x))) ∧
  (∀ (s : State) (tag : BitVec 16) (args : List Byte), s.takes = true → args.length ≤ 4096 → s.get TWN_STATUS_ROLE.one = 0 →
    (∀ o, badField (quotaArgs args) = some o →
      ∃ t, exec (.quotaSet tag args) s = .next t ∧ s.ended t 0x17 tag 2 false (toBytes 4 o)) ∧
    (badField (quotaArgs args) = none → s.sessState (leAt args 0 1) = 0 →
      ∃ t, exec (.quotaSet tag args) s = .next t ∧ s.ended t 0x17 tag 3 false []) ∧
    (badField (quotaArgs args) = none → s.sessState (leAt args 0 1) ≠ 0 →
      ∃ t, exec (.quotaSet tag args) s = .next t ∧
        s.ended t 0x17 tag 0 false (toBytes 8 (t.get (WR_SESSION_HELD.elt (leAt args 0 1)))) ∧
        t.get (WR_SESSION_QUOTA.elt (leAt args 0 1)) = leAt args 8 8 ∧
        t.get (WR_SESSION_HELD.elt (leAt args 0 1)) = s.heldBytes (leAt args 0 1) % 2 ^ 64)) ∧
  ∀ (s : State) (tag : BitVec 16) (args : List Byte), s.takes = true → args.length ≤ 4096 → s.paired = true → s.isLead = true →
    s.is TWN_STATUS_LINK_UP.one = true →
    ∀ c ∈ [(Instr.planRelease tag args, 0x11), (.castOn tag args, 0x12), (.bindOff tag args, 0x13), (.arm tag args, 0x14),
      (.forceTrigger tag args, 0x15), (.segmentRelease tag args, 0x16), (.quotaSet tag args, 0x17)],
      s.checkCommand c.2 args = .pass →
      ∃ t, exec c.1 s = .next t ∧ t.serves c.2 tag args 2 ∧ t.twn.mirror = true ∧
        t.twn.lastSent = s.twinMessage 5 s.twn.seq (epochOf s.now) (commandPayload c.2 tag.toNat 0 args) ∧
        ∀ i < 8, t.sessState i = s.sessState i

/-- R371, R372, R96, R462, R465, R474, R398, R399, R402. -/
def Obligations.DeviceCommandsAct : Prop :=
  (∀ (s : State) (tag : BitVec 16), s.takes = true → s.anyRuns = false → s.anyReplay = false →
    (s.get PWR_STATUS_STATE.one ≤ 1 →
      ∃ t, exec (.park tag) s = .next t ∧ t.get PWR_STATUS_STATE.one = 2 ∧ t.latched 20 = true ∧ t.serves 0x20 tag [] 2 ∧
        t.skeins = s.skeins ∧ t.hbm = s.hbm ∧ t.grt = s.grt) ∧
    (s.get PWR_STATUS_STATE.one = 2 →
      ∃ t, exec (.park tag) s = .next t ∧ t.serves 0x20 tag [] 3 ∧ t.latched 34 = true ∧ t.get PWR_STATUS_STATE.one = 2) ∧
    (s.get PWR_STATUS_STATE.one = 3 → ∃ t, exec (.park tag) s = .next t ∧ s.ended t 0x20 tag 0 false [] ∧
      t.get PWR_STATUS_STATE.one = 3)) ∧
  (∀ (s : State) (tag : BitVec 16), s.takes = true →
    s.anyRuns = true ∨ s.anyReplay = true ∨ s.get PWR_STATUS_STATE.one = 4 →
    ∃ t, exec (.park tag) s = .next t ∧ s.ended t 0x20 tag 3 false [] ∧ t.get PWR_STATUS_STATE.one = s.get PWR_STATUS_STATE.one) ∧
  (∀ (s : State) (tag : BitVec 16), s.takes = true → s.is PWR_STATUS_TRIPPED.one = false →
    (s.get PWR_STATUS_STATE.one = 3 →
      ∃ t, exec (.wake tag) s = .next t ∧ t.get PWR_STATUS_STATE.one = 4 ∧ t.latched 20 = true ∧ t.serves 0x21 tag [] 2) ∧
    (s.get PWR_STATUS_STATE.one = 2 →
      ∃ t, exec (.wake tag) s = .next t ∧ t.get PWR_STATUS_STATE.one = 2 ∧ t.serves 0x21 tag [] 2) ∧
    (s.get PWR_STATUS_STATE.one ≤ 1 ∨ s.get PWR_STATUS_STATE.one = 4 →
      ∃ t, exec (.wake tag) s = .next t ∧ s.ended t 0x21 tag 3 false [])) ∧
  (∀ (s : State) (tag : BitVec 16), s.takes = true → s.is PWR_STATUS_TRIPPED.one = true →
    ∃ t, exec (.wake tag) s = .next t ∧ s.ended t 0x21 tag 3 false [] ∧ t.get PWR_STATUS_STATE.one = s.get PWR_STATUS_STATE.one) ∧
  (∀ (s : State) (tag : BitVec 16) (args : List Byte), s.takes = true → 4 ≤ args.length → args.length ≤ 4096 →
    ∃ t, exec (.calendarSet tag args) s = .next t ∧ s.ended t 0x41 tag 0 false [] ∧ t.get LIFE_CAL_SECONDS.one = leAt args 0 4 ∧
      t.is LIFE_STATUS_CAL_VALID.one = true ∧ t.get LIFE_EDITS.one = s.get LIFE_EDITS.one) ∧
  (∀ (s : State) (tag : BitVec 16) (args : List Byte), s.takes = true → args.length ≤ 4096 →
    (args.length < 4 → ∃ t, exec (.calendarSet tag args) s = .next t ∧ s.ended t 0x41 tag 2 false (toBytes 4 0) ∧
      t.get LIFE_CAL_SECONDS.one = s.get LIFE_CAL_SECONDS.one) ∧
    (args.length < 1 ∨ 2 < leAt args 0 1 →
      ∃ t, exec (.twinPair tag args) s = .next t ∧ s.ended t 0x60 tag 2 false (toBytes 4 0) ∧ t.twn = s.twn)) ∧
  (∀ (s : State) (tag : BitVec 16), s.takes = true →
    ∃ t u, exec (.selftestReport tag) s = .next t ∧ s.ended t 0x50 tag 0 true s.selftestReport ∧
      exec (.fenceRead tag) s = .next u ∧ s.ended u 0x51 tag 0 true s.fenceReport) ∧
  (∀ (s : State) (tag : BitVec 16) (args : List Byte), s.takes = true → 1 ≤ args.length → args.length ≤ 4096 → leAt args 0 1 ≤ 2 →
    ((∀ i < 8, s.sessState i ≠ 3) → ∃ t, exec (.twinPair tag args) s = .next t ∧
      s.ended t 0x60 tag 0 false (toBytes 4 (if leAt args 0 1 = 2 then 0 else 1)) ∧
      t.get TWN_STATUS_STATE.one = (if leAt args 0 1 = 2 then 0 else 1) ∧ t.get TWN_STATUS_ROLE.one = 0 ∧
      t.twn.asked = (if leAt args 0 1 = 2 then 0 else leAt args 0 1 + 1)) ∧
    ((∃ i < 8, s.sessState i = 3) → ∃ t, exec (.twinPair tag args) s = .next t ∧ s.ended t 0x60 tag 3 false [] ∧ t.twn = s.twn)) ∧
  (∀ (s : State) (tag : BitVec 16), s.takes = true → s.paired = true → s.isLead = true →
    let h := epochOf (ceilTo (s.now + 128 * frameTicks) epochTicks)
    ∃ t, exec (.twinHandover tag) s = .next t ∧ s.ended t 0x61 tag 0 false (toBytes 8 h) ∧ t.twn.handAt = some h ∧
      (s.is TWN_STATUS_LINK_UP.one = true →
        t.twn.lastSent = s.twinMessage 4 s.twn.seq (epochOf s.now) (toBytes 8 h) ∧ t.twn.seq = (s.twn.seq + 1) % 2 ^ 32)) ∧
  (∀ (s : State) (tag : BitVec 16), s.takes = true → s.paired = false ∨ s.isLead = false →
    ∃ t, exec (.twinHandover tag) s = .next t ∧ s.ended t 0x61 tag 3 false [] ∧ t.twn = s.twn) ∧
  (∀ (s : State) (tag : BitVec 16) (args : List Byte) (o : Nat), s.takes = true → args.length ≤ 4096 →
    badField (replayArgs args) = some o →
    ∃ t, exec (.replaySetup tag args) s = .next t ∧ s.ended t 0x70 tag 2 false (toBytes 4 o) ∧ t.seqs = s.seqs) ∧
  (∀ (s : State) (tag : BitVec 16) (args : List Byte), s.takes = true → args.length ≤ 4096 →
    badField (replayArgs args) = none →
    let n := leAt args 0 1
    let ch := leAt args 2 1
    (∀ result reply, s.checkReplay n (leAt args 1 1) ch = .fail result reply →
      ∃ t, exec (.replaySetup tag args) s = .next t ∧ s.ended t 0x70 tag result false reply ∧ t.seqs = s.seqs) ∧
    let cause := (s.replayPrepare n ch args).armRefusal n false
    (s.checkReplay n (leAt args 1 1) ch = .pass → cause ≠ 0 →
      ∃ t, exec (.replaySetup tag args) s = .next t ∧ s.ended t 0x70 tag 4 false (toBytes 1 cause) ∧
        t.is (TRG_ARM_ERR_REFUSED.of n) = true ∧ t.get (TRG_STATUS_STATE.of n) = s.get (TRG_STATUS_STATE.of n) ∧ t.dma = s.dma)) ∧
  ∀ (s : State) (tag : BitVec 16) (args : List Byte), s.Sound → s.takes = true → args.length ≤ 4096 →
    badField (replayArgs args) = none →
    let n := leAt args 0 1
    let ch := leAt args 2 1
    s.checkReplay n (leAt args 1 1) ch = .pass → (s.replayPrepare n ch args).armRefusal n false = 0 →
    ∃ t, exec (.replaySetup tag args) s = .next t ∧ s.ended t 0x70 tag 0 false [] ∧ t.get (TRG_STATUS_STATE.of n) = 1 ∧
      (t.seq n).channel = ch + 1 ∧ (t.seq n).outAddr = leAt args 0x10 8 ∧ (t.seq n).outSize = leAt args 0x18 8 ∧
      (t.seq n).outSpace = leAt args 0x20 1 ∧ (t.seq n).armDue = s.nextBoundary ∧
      t.get (DMA_HEAD_ADDR.of ch) = leAt args 8 8 / 2 ^ 7 ∧ t.is (DMA_HEAD_HOST.of ch) = bitOf (leAt args 8 8) 1

/-- R389, R392 to R394, R435, R437, R444. -/
def Obligations.ControlProcessorAndFirmware : Prop :=
  (∀ s : State, s.is MBX_CPU_STATUS_RUNNING.one = true →
    exec .watchdogRestart s = .next { s with mbx := { s.mbx with kickAt := s.now } }) ∧
  (∀ s : State, s.is MBX_CPU_STATUS_RUNNING.one = false →
    ∀ c ∈ [Instr.watchdogRestart, .watchdogFire, .lockstepMismatch], exec c s = .next s) ∧
  (∀ (s : State) (loaded : BitVec 3) (ms : BitVec 16), s.is MBX_CPU_STATUS_RESTARTING.one = false →
    exec (.cpRestartDone loaded ms) s = .next s) ∧
  (∀ s : State, s.mbx.kickAt + 409575000000 > s.now → exec .watchdogFire s = .next s) ∧
  (∀ (s : State) (c : Instr) (k : Nat), s.Sound → s.Numbered → s.is MBX_CPU_STATUS_RUNNING.one = true →
    (c = .watchdogFire ∧ k = 1 ∧ s.mbx.kickAt + 409575000000 ≤ s.now ∨ c = .lockstepMismatch ∧ k = 2) →
    ∃ x, exec c s = .next x ∧ x.get MBX_CPU_CAUSE.one = k ∧
      (k = 1 → x.get MBX_CPU_RESETS_WATCHDOG.one = (s.get MBX_CPU_RESETS_WATCHDOG.one + 1) % 2 ^ 16 ∧
        x.get PWR_RESET_CAUSE_CAUSE.one = 4) ∧
      (k = 2 → x.get MBX_CPU_RESETS_LOCKSTEP.one = (s.get MBX_CPU_RESETS_LOCKSTEP.one + 1) % 2 ^ 16) ∧
      x.is MBX_CPU_STATUS_RUNNING.one = false ∧ x.is MBX_CPU_STATUS_RESTARTING.one = true ∧
        x.get MBX_STATUS_STATE.one = 0 ∧ x.mbx.abandoned = s.mbx.cur ∧ x.mbx.cur = none ∧
        x.get SWT_FAULTS.one = (s.get SWT_FAULTS.one + 1) % 2 ^ 32 ∧
        ∀ i < 8, s.sessState i = 3 → x.sessState i = 4) ∧
  (∀ (s : State) (loaded : BitVec 3) (ms : BitVec 16), s.is MBX_CPU_STATUS_RESTARTING.one = true →
    ∃ t, exec (.cpRestartDone loaded ms) s = .next t ∧ t.is MBX_CPU_STATUS_RESTARTING.one = false ∧
      (if s.restartImage.2 then
        t.is MBX_CPU_STATUS_RUNNING.one = true ∧ t.get MBX_CPU_STATUS_ME_LOADED.one = loaded.toNat ∧
          t.get MBX_CPU_RESTART_MS.one = ms.toNat ∧ t.get MBX_STATUS_STATE.one = 1 ∧ t.latched s.mbx.cpuEvent = (evPlace s.mbx.cpuEvent).isSome ∧
          (∀ (code : Byte) (tag : BitVec 16) (args : List Byte), s.mbx.abandoned = some ⟨code.toNat, tag.toNat, args⟩ →
            s.ended t code.toNat tag 7 false [])
      else t.is SVC_STATUS_RECOVERY.one = true ∧ t.is SYS_BOOT_RECOVERY.one = true ∧ t.get SYS_FW_VERSION_MAJOR.one = 0 ∧
        t.get SYS_FW_VERSION_MINOR.one = 0 ∧ t.get SYS_FW_VERSION_BUILD.one = 0)) ∧
  (∀ (s : State) (tag : BitVec 16) (slot : Byte), s.Sound → s.Numbered → s.takes = true → slot.toNat ≤ 1 →
    s.mayActivate slot.toNat = true → s.is PWR_STATUS_BO_WARN.one = false →
    ∃ t e, exec (.activate tag [slot]) s = .next t ∧ t.serves 0x30 tag [slot] 2 ∧ t.svc.activating = some slot.toNat ∧
      t.paused = true ∧ t.is MBX_CPU_STATUS_RUNNING.one = false ∧ (∀ i < 8, t.sessState i = 0) ∧
      t.selector = some e ∧ e.active = slot.toNat ∧ e.trial = true ∧ e.left = 2 ∧ e.prev = s.pwr.slot ∧
      t.get LIFE_ACTIVATIONS.one = (s.get LIFE_ACTIVATIONS.one + 1) % 2 ^ 32) ∧
  (∀ (s : State) (tag : BitVec 16) (args : List Byte), s.takes = true → args.length ≤ 4096 →
    args.length < 1 ∨ 1 < leAt args 0 1 →
    ∃ t, exec (.activate tag args) s = .next t ∧ s.ended t 0x30 tag 2 false (toBytes 4 0) ∧ t.svc.flash = s.svc.flash) ∧
  (∀ (s : State) (tag : BitVec 16) (slot : Byte), s.takes = true → slot.toNat ≤ 1 →
    (s.mayActivate slot.toNat = false →
      ∃ t, exec (.activate tag [slot]) s = .next t ∧ s.ended t 0x30 tag 3 false [] ∧ t.svc.flash = s.svc.flash) ∧
    (s.mayActivate slot.toNat = true → s.is PWR_STATUS_BO_WARN.one = true →
      ∃ t, exec (.activate tag [slot]) s = .next t ∧ t.serves 0x30 tag [slot] 3 ∧ t.latched 34 = true)) ∧
  (∀ (s : State) (slot : Nat) (tag : BitVec 16) (args : List Byte) (failed : BitVec 3), s.Sound →
    s.svc.activating = some slot → s.mbx.cur = some ⟨0x30, tag.toNat, args⟩ →
    (sget s.svc.digests slot [] = s.imageDigest slot →
      ∃ t, exec (.activationDone true failed) s = .next t ∧ t.get MBX_CPU_STATUS_ME_LOADED.one = 7 - failed.toNat ∧
        s.ended t 0x30 tag 0 false (toBytes 4 (s.slotNum slot 8 4)) ∧
        t.latched 44 = true ∧ t.is MBX_CPU_STATUS_RUNNING.one = true ∧ t.paused = false ∧ t.svc.activating = none ∧
        t.pwr.slot = slot ∧ t.get SYS_BOOT_SLOT.one = slot % 4) ∧
    ∀ ok : Bool, ok = false ∨ sget s.svc.digests slot [] ≠ s.imageDigest slot →
      ∃ t e, exec (.activationDone ok failed) s = .next t ∧ t.get MBX_CPU_STATUS_ME_LOADED.one = 7 - failed.toNat ∧ s.ended t 0x30 tag 8 false [] ∧ t.is MBX_CPU_STATUS_RUNNING.one = true ∧
      t.paused = false ∧ t.svc.activating = none ∧ t.selector = some e ∧ e.active = s.pwr.slot ∧ e.trial = false ∧
      t.get (slotState slot) = 4) ∧
  (∀ (s : State) (ok : Bool) (failed : BitVec 3), s.svc.activating = none → exec (.activationDone ok failed) s = .next s) ∧
  (∀ (s : State) (tag : BitVec 16), s.takes = true → s.is SYS_BOOT_TRIAL.one = true → s.is PWR_STATUS_BO_WARN.one = true →
    ∃ t, exec (.confirm tag) s = .next t ∧ t.serves 0x31 tag [] 3 ∧ t.latched 34 = true ∧ t.svc.flash = s.svc.flash) ∧
  (∀ (s : State) (tag : BitVec 16), s.takes = true → s.is SYS_BOOT_TRIAL.one = true → s.is PWR_STATUS_BO_WARN.one = false →
    ∃ t e, exec (.confirm tag) s = .next t ∧ s.ended t 0x31 tag 0 false [] ∧ t.latched 47 = true ∧ t.is SYS_BOOT_TRIAL.one = false ∧
      t.selector = some e ∧ e.active = s.pwr.slot ∧ e.trial = false) ∧
  (∀ (s : State) (tag : BitVec 16), s.takes = true → s.is SYS_BOOT_TRIAL.one = false →
    ∃ t, exec (.confirm tag) s = .next t ∧ s.ended t 0x31 tag 3 false [] ∧ t.svc.flash = s.svc.flash) ∧
  (∀ (s : State) (tag : BitVec 16) (args : List Byte), s.takes = true → 32 ≤ args.length → args.length ≤ 4096 →
    ∃ t, exec (.attest tag args) s = .next t ∧ s.ended t 0x32 tag 0 true (s.attestation (args.take 32))) ∧
  ∀ (s : State) (tag : BitVec 16) (args : List Byte), s.takes = true → args.length < 32 →
    ∃ t, exec (.attest tag args) s = .next t ∧ s.ended t 0x32 tag 2 false (toBytes 4 0)

/-- R412: the status byte. -/
def Obligations.ReadStatusReturnsTheStatusByte : Prop :=
  (∀ s : State, s.Sound → ∃ b : Byte, exec .readStatus s = .next { s with svc := { s.svc with out := [b], err := false } } ∧
    b.getLsbD 0 = !s.svc.replies.isEmpty ∧ b.getLsbD 1 = s.svc.port.isSome ∧ b.getLsbD 2 = false ∧
    b.getLsbD 3 = s.is SVC_STATUS_ROM_ONLY.one ∧ b.getLsbD 4 = s.svc.err ∧ b.getLsbD 5 = s.is SVC_STATUS_RECOVERY.one ∧
    b.getLsbD 6 = false ∧ b.getLsbD 7 = false) ∧
  (∀ (s : State) (flaw : FrameFlaw) (c : Option Byte), ∃ t, exec (.kspFrameReject flaw c) s = .next t ∧ t.svc.err = true) ∧
  ∀ (s : State) (tag : BitVec 16), s.portFree = false → ∃ t, exec (.kspStatus tag) s = .next t ∧ t.svc.err = true

/-- R411, R414 to R421, R405, R222. -/
def Obligations.ThePortTakesAnswersAndRejects : Prop :=
  (∀ (s : State) (count : BitVec 16) (r : List Byte) (rs : List (List Byte)), s.svc.replies = r :: rs →
    count.toNat < r.length → exec (.readFrame count) s = .next { s with svc := { s.svc with out := r.take count.toNat } }) ∧
  (∀ (s : State) (count : BitVec 16) (r : List Byte) (rs : List (List Byte)), s.svc.replies = r :: rs →
    r.length ≤ count.toNat → s.svc.resetDue = none →
    ∃ t, exec (.readFrame count) s = .next t ∧ t.get SVC_FRAMES_OUT.one = (s.get SVC_FRAMES_OUT.one + 1) % 2 ^ 32 ∧
      s.sameRegs [SVC_FRAMES_OUT.one.key] t ∧ t = { s with regs := t.regs, svc := { s.svc with out := r, replies := rs } }) ∧
  (∀ (s : State) (count : BitVec 16), s.svc.replies = [] → ∃ t, exec (.readFrame count) s = .next t ∧ t.get SVC_LAST_ERR_CAUSE.one = 6 ∧
    s.sameRegs [SVC_LAST_ERR_CAUSE.one.key] t ∧ t = { s with regs := t.regs, svc := { s.svc with out := List.replicate count.toNat 0 } }) ∧
  (∀ (s : State) (straps : Straps), s.svc.resetDue = some straps →
    ∃ t, exec .resetReplyTimeout s = .next t ∧ t.get PWR_RESET_CAUSE_CAUSE.one = 5 ∧ t.pwr.step = 1 ∧
      t.is SYS_BOOT_REF_SEL.one = straps.refSel ∧ t.get SYS_BOOT_BOOT_MODE.one = straps.bootMode.val ∧
      ∀ (count : BitVec 16) (r : List Byte) (rs : List (List Byte)), s.svc.replies = r :: rs → r.length ≤ count.toNat →
        ∃ u, exec (.readFrame count) s = .next u ∧ u.get PWR_RESET_CAUSE_CAUSE.one = 5 ∧ u.pwr.step = 1) ∧
  (∀ s : State, s.svc.resetDue = none → exec .resetReplyTimeout s = .next s) ∧
  (∀ (s : State) (op : Byte), portOpcodes.contains op.toNat = false →
    ∃ t, exec (.unknownOpcode op) s = .next t ∧ t.get SVC_LAST_ERR_CODE.one = op.toNat ∧ t.get SVC_LAST_ERR_CAUSE.one = 5 ∧
      s.sameRegs ([SVC_LAST_ERR_CODE.one, SVC_LAST_ERR_CAUSE.one].map Fld.key) t ∧ t = { s with regs := t.regs }) ∧
  (∀ (s : State) (flaw : FrameFlaw) (c : Option Byte), ∃ t, exec (.kspFrameReject flaw c) s = .next t ∧
    (∀ b, c = some b → t.get SVC_LAST_ERR_CODE.one = b.toNat) ∧
    t.get SVC_LAST_ERR_CAUSE.one = (if s.portFree then flawCause flaw else 4) ∧
    t.get SVC_FRAMES_BAD.one = (s.get SVC_FRAMES_BAD.one + 1) % 2 ^ 32 ∧ t.latched 39 = true ∧
    s.sameRegs ([SVC_LAST_ERR_CODE.one, SVC_LAST_ERR_CAUSE.one, SVC_FRAMES_BAD.one].map Fld.key ++ latches [39]) t ∧
    t.svc.replies = s.svc.replies ∧ t.svc.port = s.svc.port) ∧
  (∀ (s : State) (tag : BitVec 16) (p : List Byte) (straps : Straps), s.portFree = false → p.length ≤ 4096 →
    ∀ c ∈ [(Instr.kspId tag, 0x80), (.kspStatus tag, 0x81), (.echoLite tag, 0x82), (.kspReset tag p straps, 0x83), (.holdRelease tag, 0x84),
      (.kspLifeRead tag, 0x40), (.dlBegin tag p, 0x85), (.dlData tag p, 0x86), (.dlEnd tag p, 0x87), (.verify tag p, 0x88),
      (.select tag p, 0x89), (.kspActivate tag p, 0x30), (.kspConfirm tag p, 0x31), (.kspAttest tag p, 0x32)],
      ∃ t, exec c.1 s = .next t ∧ t.get SVC_LAST_ERR_CODE.one = c.2 ∧ t.get SVC_LAST_ERR_CAUSE.one = 4 ∧
        t.get SVC_FRAMES_BAD.one = (s.get SVC_FRAMES_BAD.one + 1) % 2 ^ 32 ∧ t.svc.err = true ∧ t.latched 39 = true ∧
        s.sameRegs ([SVC_LAST_ERR_CODE.one, SVC_LAST_ERR_CAUSE.one, SVC_FRAMES_BAD.one].map Fld.key ++ latches [39]) t ∧
        ({ s with svc := { s.svc with err := true } } : State).sameButRegs t) ∧
  (∀ (s : State) (tag : BitVec 16), s.portFree = true →
    ∃ t u v, exec (.kspId tag) s = .next t ∧ t.answered 0x80 tag 0 s.idReply ∧
      exec (.kspStatus tag) s = .next u ∧ u.answered 0x81 tag 0 s.statusReply ∧
      exec (.kspLifeRead tag) s = .next v ∧ v.answered 0x40 tag 0 s.lifeData ∧
      ∀ x ∈ [t, u, v], x.latched 38 = true ∧ x.get SVC_FRAMES_IN.one = (s.get SVC_FRAMES_IN.one + 1) % 2 ^ 32 ∧
        s.sameRegs (SVC_FRAMES_IN.one.key :: latches [38]) x ∧
        ({ s with svc := { s.svc with port := none, replies := x.svc.replies } } : State).sameButRegs x) ∧
  (∀ (s : State) (tag : BitVec 16), s.portFree = true →
    (s.pwr.waitRails = false → ∃ t, exec (.echoLite tag) s = .next t ∧ t.svc.port = some ⟨0x82, tag.toNat, []⟩ ∧
      t.is SYS_SNAP_STATUS_PENDING.one = true ∧ (⟨.port, s.snapTime⟩ : SnapAsk) ∈ t.clk.snaps ∧ t.svc.replies = []) ∧
    (s.pwr.waitRails = true → ∃ t p, exec (.echoLite tag) s = .next t ∧ t.answered 0x82 tag 0 p ∧ p.length = 16384)) ∧
  (∀ (s : State) (tag : BitVec 16) (p : List Byte), s.snapReady = true → s.snapFor .port = true → s.mbx.cur = none → s.svc.port = some ⟨0x82, tag.toNat, p⟩ →
    ∃ t q, exec .snapshotTaken s = .next t ∧ t.answered 0x82 tag 0 q ∧ q.length = 16384) ∧
  (∀ (s : State) (tag : BitVec 16) (p : List Byte) (straps : Straps), s.portFree = true → p.length ≤ 4096 →
    (4 ≤ p.length → leAt p 0 4 = 0x00834B1D → ∃ t, exec (.kspReset tag p straps) s = .next t ∧ t.answered 0x83 tag 0 [] ∧
      t.svc.resetDue = some straps) ∧
    (p.length < 4 ∨ leAt p 0 4 ≠ 0x00834B1D → ∃ t, exec (.kspReset tag p straps) s = .next t ∧ t.answered 0x83 tag 2 (toBytes 4 0) ∧
      t.svc.resetDue = s.svc.resetDue)) ∧
  (∀ (s : State) (tag : BitVec 16), s.portFree = true →
    ∃ t, exec (.holdRelease tag) s = .next t ∧ t.answered 0x84 tag 0 [] ∧ t.latched 50 = true ∧
      ∀ k < 8, t.holdActive k = false ∧ (s.holdActive k = true → t.latched (201 + 8 * k) = true)) ∧
  (∀ (s : State) (code : Byte) (tag : BitVec 16), s.portFree = true → kspCodes.contains code.toNat = false →
    ∃ t, exec (.kspUnknownCode code tag) s = .next t ∧ t.answered code.toNat tag 1 [] ∧
      s.sameRegs (SVC_FRAMES_IN.one.key :: latches [38]) t) ∧
  (∀ (s : State) (tag : BitVec 16) (p : List Byte), s.portFree = true → p.length ≤ 4096 →
    s.cpState ≠ 2 ∨ s.get MBX_STATUS_STATE.one ≠ 1 →
    ∀ c ∈ [(Instr.kspActivate tag p, 0x30), (.kspConfirm tag p, 0x31), (.kspAttest tag p, 0x32)],
      ∃ t, exec c.1 s = .next t ∧ t.answered c.2 tag 3 [] ∧ t.mbx = s.mbx) ∧
  (∀ (s : State) (tag : BitVec 16) (p : List Byte), s.portFree = true → p.length ≤ 4096 → s.cpState = 2 →
    s.get MBX_STATUS_STATE.one = 1 →
    (32 ≤ p.length → ∃ t, exec (.kspAttest tag p) s = .next t ∧ t.answered 0x32 tag 0 (s.attestation (p.take 32)) ∧
      t.get MBX_STATUS_STATE.one = 1 ∧ t.get MBX_LAST_APPLIED_TAG.one = tag.toNat) ∧
    (s.is SYS_BOOT_TRIAL.one = true → s.is PWR_STATUS_BO_WARN.one = false →
      ∃ t, exec (.kspConfirm tag p) s = .next t ∧ t.answered 0x31 tag 0 [] ∧ t.is SYS_BOOT_TRIAL.one = false ∧ t.latched 47 = true) ∧
    (1 ≤ p.length → leAt p 0 1 ≤ 1 → s.mayActivate (leAt p 0 1) = true → s.is PWR_STATUS_BO_WARN.one = false →
      ∃ t, exec (.kspActivate tag p) s = .next t ∧ t.svc.activating = some (leAt p 0 1) ∧ t.serves 0x30 tag p 2 ∧
        t.svc.fromPort = true ∧ t.svc.port = some ⟨0x30, tag.toNat, p⟩)) ∧
  (∀ (s : State) (code : Byte) (tag : BitVec 16) (p : List Byte), s.svc.fromPort = true → s.mbx.abandoned.isSome = true →
    s.svc.port = some ⟨code.toNat, tag.toNat, p⟩ →
    ∃ t, exec .forwardAbandonTimeout s = .next t ∧ t.answered code.toNat tag 7 [] ∧ t.regs = s.regs ∧ t.mbx = s.mbx) ∧
  ∀ s : State, s.svc.fromPort = false ∨ s.mbx.abandoned = none → exec .forwardAbandonTimeout s = .next s

/-- R424, R425, R430 to R434, R437, R443, R458. -/
def Obligations.DownloadsVerifyAndTheBootFlash : Prop :=
  (∀ (s : State) (tag : BitVec 16) (p : List Byte), s.portFree = true → p.length ≤ 4096 → s.flashReachable = true →
    s.is PWR_STATUS_BO_WARN.one = false → badField (beginArgs p) = none →
    let slot := leAt p 0 1
    (s.slotKept slot = false → ∃ t, exec (.dlBegin tag p) s = .next t ∧ t.answered 0x85 tag 0 [] ∧ t.get (slotState slot) = 1 ∧
      t.is SVC_DL_ACTIVE.one = true ∧ t.get SVC_DL_SLOT.one = slot ∧ t.get SVC_DL_BYTES.one = 0 ∧ t.svc.dlLength = leAt p 4 4 ∧
      t.svc.header = [] ∧ t.latched 40 = true ∧ (∀ i < sectorBytes, t.slotByte slot i = 0xFF) ∧
      (∀ a, a < slot * slotSize ∨ slot * slotSize + sectorBytes ≤ a →
        sget t.svc.flash.slots a 0xFF = sget s.svc.flash.slots a 0xFF)) ∧
    (s.slotKept slot = true → ∃ t, exec (.dlBegin tag p) s = .next t ∧ t.answered 0x85 tag 3 [] ∧ t.svc.flash = s.svc.flash)) ∧
  (∀ (s : State) (tag : BitVec 16) (p : List Byte) (o : Nat), s.portFree = true → p.length ≤ 4096 → s.flashReachable = true →
    s.is PWR_STATUS_BO_WARN.one = false →
    (badField (beginArgs p) = some o → ∃ t, exec (.dlBegin tag p) s = .next t ∧ t.answered 0x85 tag 2 (toBytes 4 o) ∧
      t.svc.flash = s.svc.flash) ∧
    (s.is SVC_DL_ACTIVE.one = true → badField (dataArgs p (s.get SVC_DL_BYTES.one) s.svc.dlLength) = some o →
      ∃ t, exec (.dlData tag p) s = .next t ∧ t.answered 0x86 tag 2 (toBytes 4 o) ∧ t.svc.flash = s.svc.flash)) ∧
  (∀ (s : State) (tag : BitVec 16) (p : List Byte), s.portFree = true → p.length ≤ 4096 → s.flashReachable = false →
    ∀ c ∈ [(Instr.dlBegin tag p, 0x85), (.dlData tag p, 0x86), (.dlEnd tag p, 0x87), (.verify tag p, 0x88), (.select tag p, 0x89)],
      ∃ t, exec c.1 s = .next t ∧ t.answered c.2 tag 3 [] ∧ t.svc.flash = s.svc.flash) ∧
  (∀ (s : State) (tag : BitVec 16) (p : List Byte), s.portFree = true → p.length ≤ 4096 → s.flashReachable = true →
    s.is PWR_STATUS_BO_WARN.one = true →
    ∀ c ∈ [(Instr.dlBegin tag p, 0x85), (.dlData tag p, 0x86), (.dlEnd tag p, 0x87), (.select tag p, 0x89)],
      ∃ t, exec c.1 s = .next t ∧ t.svc.port = some ⟨c.2, tag.toNat, p⟩ ∧ t.svc.flash = s.svc.flash) ∧
  (∀ (s : State) (tag : BitVec 16) (p : List Byte), s.portFree = true → p.length ≤ 4096 → s.flashReachable = true →
    s.is PWR_STATUS_BO_WARN.one = false →
    (s.is SVC_DL_ACTIVE.one = true → badField (dataArgs p (s.get SVC_DL_BYTES.one) s.svc.dlLength) = none →
      leAt p 0 4 = s.get SVC_DL_BYTES.one → 0x100 ≤ leAt p 0 4 →
      ∃ t, exec (.dlData tag p) s = .next t ∧ t.answered 0x86 tag 0 (toBytes 4 (t.get SVC_DL_BYTES.one)) ∧
        t.get SVC_DL_BYTES.one = (s.get SVC_DL_BYTES.one + (p.length - 8)) % 2 ^ 32 ∧
        (∀ i < p.length - 8, t.slotByte (s.get SVC_DL_SLOT.one) (leAt p 0 4 + i) = p.getD (8 + i) 0)) ∧
    (s.is SVC_DL_ACTIVE.one = true → s.get SVC_DL_BYTES.one = s.svc.dlLength → s.get SVC_DL_SLOT.one ≤ 1 →
      ∃ t, exec (.dlEnd tag p) s = .next t ∧ t.answered 0x87 tag 0 [] ∧ t.get (slotState (s.get SVC_DL_SLOT.one)) = 2 ∧
        t.is SVC_DL_ACTIVE.one = false ∧ t.latched 41 = true ∧
        (∀ i < 0x100, t.slotByte (s.get SVC_DL_SLOT.one) i = s.svc.header.getD i 0)) ∧
    (s.is SVC_DL_ACTIVE.one = true → s.get SVC_DL_BYTES.one ≠ s.svc.dlLength →
      ∃ t, exec (.dlEnd tag p) s = .next t ∧ t.answered 0x87 tag 3 [] ∧ t.svc.flash = s.svc.flash) ∧
    (s.is SVC_DL_ACTIVE.one = false → ∃ t u, exec (.dlData tag p) s = .next t ∧ t.answered 0x86 tag 3 [] ∧
      exec (.dlEnd tag p) s = .next u ∧ u.answered 0x87 tag 3 [] ∧ t.svc.flash = s.svc.flash ∧ u.svc.flash = s.svc.flash)) ∧
  (∀ (s : State) (tag : BitVec 16) (p : List Byte), s.portFree = true → 1 ≤ p.length → p.length ≤ 4096 → s.flashReachable = true →
    leAt p 0 1 ≤ 1 →
    let slot := leAt p 0 1
    let r := s.imageReason slot
    ∃ t, exec (.verify tag p) s = .next t ∧ t.answered 0x88 tag 0 (toBytes 1 r ++ toBytes 3 0 ++ fitTo 64 (s.imageDigest slot)) ∧
      t.get (slotState slot) = (if r = 0 then 3 else 4) ∧ t.get SVC_VERIFY_REASON.one = r ∧ t.get SVC_VERIFY_SLOT.one = slot ∧
      t.get SVC_VERIFY_RESULT.one = (if r = 0 then 1 else 2) ∧ t.latched (if r = 0 then 42 else 43) = true ∧ t.svc.flash = s.svc.flash) ∧
  (∀ (s : State) (tag : BitVec 16) (p : List Byte), s.portFree = true → 1 ≤ p.length → p.length ≤ 4096 → s.flashReachable = true →
    s.is PWR_STATUS_BO_WARN.one = false → leAt p 0 1 ≤ 1 →
    (s.is SVC_STATUS_RECOVERY.one = true → s.get (slotState (leAt p 0 1)) = 3 →
      ∃ t e, exec (.select tag p) s = .next t ∧ t.answered 0x89 tag 0 [] ∧ t.selector = some e ∧ e.active = leAt p 0 1 ∧
        e.trial = true ∧ e.left = 3) ∧
    (s.is SVC_STATUS_RECOVERY.one = false ∨ s.get (slotState (leAt p 0 1)) ≠ 3 → ∃ t, exec (.select tag p) s = .next t ∧ t.answered 0x89 tag 3 [] ∧
      t.svc.flash = s.svc.flash)) ∧
  (∀ s : State, s.flashNow = some .fenceEntry →
    ∃ t u, exec (.flashOpComplete true) s = .next t ∧ t.svc.flash.fences = some s.flt.wanted ∧
      t.svc.flash.fenceSeq = s.svc.flash.fenceSeq + 1 ∧ t.flt.entryDue = false ∧ t.flt.fences = s.flt.fences ∧
      exec (.flashOpComplete false) s = .next u ∧ u.svc.flash.fences = s.svc.flash.fences ∧ u.is SWT_FENCE_STATUS_FLASH_FAIL.one = true ∧
      u.latched 472 = true ∧ u.latched 48 = true ∧ u.get SVC_FLASH_ERRS.one = (s.get SVC_FLASH_ERRS.one + 1) % 2 ^ 32) ∧
  (∀ (s : State) (a : Nat), s.flashNow = some (.eraseArea a true) →
    ∃ t, exec (.flashOpComplete true) s = .next t ∧ t.area a = [] ∧ t.latched 49 = true ∧ t.is SVC_STATUS_CFG_RETIRING.one = false ∧
      ∀ b, b ≠ a → t.area b = s.area b) ∧
  (∀ s : State, s.flashNow = none → ∀ ok, exec (.flashOpComplete ok) s = .next s) ∧
  (∀ s : State, s.is MBX_CPU_STATUS_RUNNING.one = true → s.cfgChanged = true → s.is PWR_STATUS_BO_WARN.one = false →
    (s.inTrial = true → ∃ t, exec .configRecordAppend s = .next t ∧ t.is SVC_STATUS_CFG_HELD.one = true ∧
      s.sameRegs [SVC_STATUS_CFG_HELD.one.key] t ∧ t = { s with regs := t.regs }) ∧
    (s.inTrial = false → ((s.area s.liveArea).map CfgRecord.bytes).sum + 136 ≤ 2 ^ 20 →
      ∃ t, exec .configRecordAppend s = .next t ∧
        t.area s.liveArea = s.area s.liveArea ++ [⟨s.cfgSeq, s.activeFormat, s.settings⟩] ∧
        ∀ b, b ≠ s.liveArea → t.area b = s.area b)) ∧
  (∀ s : State, s.is MBX_CPU_STATUS_RUNNING.one = true → s.cfgChanged = true → s.is PWR_STATUS_BO_WARN.one = true →
    s.inTrial = false →
    ∃ t, exec .configRecordAppend s = .next t ∧ t.svc.flash = s.svc.flash ∧ FlashOp.cfgRecord ∈ t.svc.ops) ∧
  ∀ s : State, s.cfgChanged = false ∨ s.is MBX_CPU_STATUS_RUNNING.one = false → exec .configRecordAppend s = .next s

/-- R449 to R452, R457, R459. -/
def Obligations.VisitsVerdictsAndDatapathTests : Prop :=
  (∀ s : State, s.is SWT_CTRL_ROT_EN.one = false ∨ s.spareMode = 2 ∨ s.spareFenced = true →
    ∃ t, exec .rotationVisit s = .next t ∧ t.is SWT_STATUS_ROT_HELD.one = true ∧
      (s.is SWT_STATUS_ROT_HELD.one = false → t.latched 478 = true) ∧
      s.sameRegs (SWT_STATUS_ROT_HELD.one.key :: latches [478]) t ∧ s.sameButRegs t) ∧
  (∀ s : State, s.is SWT_CTRL_ROT_EN.one = true → s.spareMode ≠ 2 → s.spareFenced = false →
    (s.get SWT_STATUS_SPARE_STATE.one = 2 ∨ s.get SWT_STATUS_SPARE_STATE.one = 3 → exec .rotationVisit s = .next s) ∧
    (s.get SWT_STATUS_SPARE_STATE.one ≠ 2 → s.get SWT_STATUS_SPARE_STATE.one ≠ 3 → s.visiting = true →
      s.is SWT_STATUS_ROT_HELD.one = false → exec .rotationVisit s = .next s) ∧
    (s.get SWT_STATUS_SPARE_STATE.one ≠ 2 → s.get SWT_STATUS_SPARE_STATE.one ≠ 3 →
      (s.get SWT_ROT_FRAMES.one = 0 ∨ 64 ≤ s.get SWT_STATUS_TARGET.one ∨ s.visitable (s.get SWT_STATUS_TARGET.one) = false) →
      (∀ n, s.rotationOrder.find? s.visitable = some n →
        ∃ t, exec .rotationVisit s = .next t ∧ t.get SWT_STATUS_SPARE_STATE.one = 1 ∧ t.get SWT_STATUS_TARGET.one = n ∧
          t.get SWT_ROT_FRAMES.one = 3125000 ∧ t.is (SKN_COMMIT_STATUS_PENDING.of 64) = true ∧
          t.getShadow (SKN_SPARE_MODE.of 64) = 1 ∧ t.getShadow (SKN_SPARE_TARGET.of 64) = n ∧
          (t.skein 64).commitDue = s.nextBoundary ∧ t.flt.rotNext = n + 1 ∧ t.is SWT_STATUS_ROT_HELD.one = false) ∧
      (s.rotationOrder.find? s.visitable = none →
        ∃ t, exec .rotationVisit s = .next t ∧ t.is SWT_STATUS_ROT_HELD.one = true))) ∧
  (∀ s : State, s.get SWT_STATUS_SPARE_STATE.one = 2 →
    (s.spareFenced = false → ∃ t, exec (.refereeDone true) s = .next t ∧ t.spareFenced = true ∧ t.latched 468 = true ∧
      t.latched 470 = true ∧ t.get SWT_STATUS_SPARE_STATE.one = 5 ∧ t.is SWT_STATUS_ROT_HELD.one = true) ∧
    ∃ t, exec (.refereeDone false) s = .next t ∧ t.get SWT_STATUS_SPARE_STATE.one = 3 ∧ t.get SWT_ROT_FRAMES.one = 3125000 ∧
      (t.skein 64).exclude = s.clk.frameAt + frameTicks ∧
      s.sameRegs ([SWT_STATUS_SPARE_STATE.one, SWT_ROT_FRAMES.one].map Fld.key) t ∧ s.sameMemory t) ∧
  (∀ s : State, s.get SWT_STATUS_SPARE_STATE.one ≠ 2 → ∀ b, exec (.refereeDone b) s = .next s) ∧
  (∀ s : State, s.get SWT_STATUS_SPARE_STATE.one = 3 → s.get SWT_ROT_FRAMES.one = 0 →
    ∃ t e, exec .confirmationEnd s = .next t ∧ t.get SWT_STATUS_SPARE_STATE.one = 1 ∧ t.get SWT_ROT_FRAMES.one = 0 ∧
      t.latched 479 = true ∧ t.get SWT_FAULTS.one = (s.get SWT_FAULTS.one + 1) % 2 ^ 32 ∧
      t.flt.log = (e :: s.flt.log).take 64 ∧ e.event = 466 ∧ e.outcome = 1 ∧ e.stamp = s.stamp) ∧
  (∀ s : State, s.get SWT_STATUS_SPARE_STATE.one ≠ 3 ∨ s.get SWT_ROT_FRAMES.one ≠ 0 → exec .confirmationEnd s = .next s) ∧
  (∀ (s : State) (u : TestUnit), s.Sound → s.Numbered → s.is SWT_CTRL_DP_EN.one = true →
    s.is SWT_STATUS_SWATCH_RUNNING.one = true → s.is MBX_CPU_STATUS_RUNNING.one = true →
    bitOf (s.get MBX_CPU_STATUS_ME_LOADED.one) 2 = true → s.unitIdle u = true →
    exec (.datapathTestDone u true) s = .next { s with flt := { s.flt with
      dpTested := withBit s.flt.dpTested (testNumber u), dpFound := setField s.flt.dpFound (testNumber u) 1 0 } } ∧
    ∃ t, exec (.datapathTestDone u false) s = .next t ∧ t.flt.dpTested = withBit s.flt.dpTested (testNumber u) ∧
      t.flt.dpFound = setField s.flt.dpFound (testNumber u) 1 1 ∧ t.latched 477 = true ∧ t.latched 470 = true ∧
      (match u with
        | .channel n => t.is (fencedOf (PageClass.page .dma n.val)) = true
        | .comp n => t.flowFenced n.val = true
        | .decomp n => t.flowFenced (4 + n.val) = true
        | .sequencer n => t.seqFenced n.val = true)) ∧
  ∀ (s : State) (u : TestUnit) (b : Bool),
    s.is SWT_STATUS_SWATCH_RUNNING.one = false ∨ s.is SWT_CTRL_DP_EN.one = false ∨ s.swatchLoaded = false ∨ s.unitIdle u = false →
    exec (.datapathTestDone u b) s = .next s

/-- R458 to R460, R476, R477. The bound of 32 ones is the width of FUSE_SVN. -/
def Obligations.FenceCommandsAndFuses : Prop :=
  (∀ (s : State) (v : DWord), s.Sound → s.Numbered → s.admits (PageClass.page .swt 0) = true →
    let cls := field v.toNat 16 3
    let i := field v.toNat 0 7
    (s.fenceRefusal false cls i = 0 →
      ∃ t, exec (.fenceUnit v) s = .next t ∧ t.classFenced cls i = true ∧ t.latched 470 = true) ∧
    (s.fenceRefusal false cls i ≠ 0 →
      ∃ t, exec (.fenceUnit v) s = .next t ∧ t.is SWT_FENCE_STATUS_REFUSED.one = true ∧
        t.get SWT_FENCE_STATUS_REFUSE_CAUSE.one = s.fenceRefusal false cls i ∧
        s.sameRegs ([SWT_FENCE_STATUS_REFUSED.one, SWT_FENCE_STATUS_REFUSE_CAUSE.one, SWT_FENCE_CTRL_OP.one,
          SWT_FENCE_CTRL_CLASS.one, SWT_FENCE_CTRL_INDEX.one, unlockedOf (PageClass.page .swt 0)].map Fld.key) t ∧
        t = { s with regs := t.regs }) ∧
    (s.fenceRefusal true cls i = 0 →
      ∃ t, exec (.fenceClear v) s = .next t ∧ t.latched 471 = true ∧ t.flt.fences = s.flt.fences ∧
        t.flt.wanted = { s.flt.wanted.without cls i with lastEvent := 0 } ∧ t.flt.entryDue = true ∧
        .fenceEntry ∈ t.svc.ops ∧ t.classFenced cls i = s.classFenced cls i) ∧
    (s.fenceRefusal true cls i ≠ 0 →
      ∃ t, exec (.fenceClear v) s = .next t ∧ t.is SWT_FENCE_STATUS_REFUSED.one = true ∧
        t.get SWT_FENCE_STATUS_REFUSE_CAUSE.one = s.fenceRefusal true cls i ∧ t = { s with regs := t.regs })) ∧
  (∀ (s : State) (v : DWord), s.admits (PageClass.page .fuse 0) = true → s.is FUSE_STATUS_BURNING.one = false →
    (s.is SYS_BOOT_TRIAL.one = true ∨ s.is SVC_STATUS_RECOVERY.one = true ∨ s.activeSvn ≤ s.minSvn →
      ∃ t, exec (.raiseSvn v) s = .next t ∧ t.is FUSE_STATUS_REFUSED.one = true ∧ t.latched 55 = true ∧
        t.is FUSE_STATUS_BURNING.one = false ∧ t.svc = s.svc ∧
        s.sameRegs ([FUSE_STATUS_REFUSED.one, unlockedOf (PageClass.page .fuse 0)].map Fld.key ++ latches [55]) t) ∧
    (s.is SYS_BOOT_TRIAL.one = false → s.is SVC_STATUS_RECOVERY.one = false → s.minSvn < s.activeSvn →
      ∃ t, exec (.raiseSvn v) s = .next t ∧ t.is FUSE_STATUS_BURNING.one = true ∧
        s.sameRegs ([FUSE_STATUS_BURNING.one, unlockedOf (PageClass.page .fuse 0)].map Fld.key) t ∧ t = { s with regs := t.regs })) ∧
  (∀ (s : State) (v : DWord), s.admits (PageClass.page .fuse 0) = true → s.is FUSE_STATUS_BURNING.one = true →
    exec (.raiseSvn v) s = .next (s.set (unlockedOf (PageClass.page .fuse 0)) 0)) ∧
  (∀ s : State, s.is FUSE_STATUS_BURNING.one = true →
    ∃ t, exec .fuseBurnDone s = .next t ∧ t.is FUSE_STATUS_BURNING.one = false ∧ t.latched 54 = true ∧
      t.fuseSvn = 2 ^ min 32 s.activeSvn - 1 ∧ t.minSvn = min 32 s.activeSvn ∧
      s.sameRegs (FUSE_STATUS_BURNING.one.key :: latches [54]) t ∧
      ({ s with svc := { s.svc with svn := t.svc.svn } } : State).sameButRegs t) ∧
  ∀ s : State, s.is FUSE_STATUS_BURNING.one = false → exec .fuseBurnDone s = .next s

/-- R464 to R467, R471, R472, R474, R480. -/
def Obligations.TheTwinLinkWorks : Prop :=
  (∀ s : State, s.get TWN_STATUS_STATE.one ≠ 0 → s.is TWN_STATUS_LINK_UP.one = false → s.onBypass = false →
    ∃ t, exec .twinLinkUp s = .next t ∧ t.is TWN_STATUS_LINK_UP.one = true ∧ t.get TWN_STATUS_LANES.one = 8 ∧ t.latched 482 = true ∧
      s.sameRegs ([TWN_STATUS_LINK_UP.one, TWN_STATUS_LANES.one].map Fld.key ++ latches [482]) t ∧
      ({ s with twn := { s.twn with dropped := 0 } } : State).sameButRegs t) ∧
  (∀ (s : State) (lane : Fin 8), s.is TWN_STATUS_LINK_UP.one = true → bitOf s.twn.dropped lane.val = false →
    2 ≤ s.get TWN_STATUS_LANES.one → s.get TWN_STATUS_LANES.one ≤ 8 →
    ∃ t, exec (.laneDrop lane) s = .next t ∧ t.get TWN_STATUS_LANES.one = s.get TWN_STATUS_LANES.one - 1 ∧ t.latched 490 = true ∧
      s.sameRegs (TWN_STATUS_LANES.one.key :: latches [490]) t ∧
      ({ s with twn := { s.twn with dropped := withBit s.twn.dropped lane.val } } : State).sameButRegs t) ∧
  (∀ (s : State) (lane : Fin 8), bitOf s.twn.dropped lane.val = true → exec (.laneDrop lane) s = .next s) ∧
  (∀ (s : State) (lane : Fin 8), s.is TWN_STATUS_LINK_UP.one = true → bitOf s.twn.dropped lane.val = false →
    s.get TWN_STATUS_LANES.one = 1 →
    ∃ t, exec (.laneDrop lane) s = .next t ∧ t.get TWN_STATUS_LANES.one = 0 ∧ t.is TWN_STATUS_LINK_UP.one = false ∧
      t.latched 490 = true ∧ t.latched 483 = true) ∧
  (∀ s : State, s.get TWN_STATUS_STATE.one = 0 ∨ s.is TWN_STATUS_LINK_UP.one = true ∨ s.onBypass = true →
    exec .twinLinkUp s = .next s) ∧
  (∀ (s : State) (lane : Fin 8), s.is TWN_STATUS_LINK_UP.one = false →
    exec (.laneDrop lane) s = .next s ∧ exec .helloSend s = .next s ∧
    ∀ m x, ∀ c ∈ [(Instr.hello m, 1), (.epoch m, 2), (.fault m, 3), (.handover m, 4), (.command m, 5), (.ack m, 6)],
      twinParse c.2 m = some x → exec c.1 s = .next s) ∧
  (∀ s : State, s.twn.unacked = [] → exec .twinResend s = .next s) ∧
  (∀ (s : State) (m : TwinMsg) (ms : List TwinMsg), s.twn.unacked = m :: ms →
    (m.resends < 8 → ∃ t, exec .twinResend s = .next t ∧ t.twn.lastSent = m.bytes ∧
      t.twn.unacked = { m with resends := m.resends + 1 } :: ms ∧ t.get TWN_RETRIES.one = (s.get TWN_RETRIES.one + 1) % 2 ^ 32 ∧
      s.sameRegs [TWN_RETRIES.one.key] t ∧ t = { s with regs := t.regs, twn := t.twn }) ∧
    (8 ≤ m.resends → s.is TWN_STATUS_LINK_UP.one = true → ∃ t, exec .twinResend s = .next t ∧
      t.is TWN_STATUS_LINK_UP.one = false ∧ t.latched 483 = true)) ∧
  (∀ s : State, s.is TWN_STATUS_LINK_UP.one = true → s.isFollower = false ∨ s.is TWN_CTRL_TAKE_ON_SILENCE.one = false →
    ∃ t, exec .linkSilence s = .next t ∧ t.is TWN_STATUS_LINK_UP.one = false ∧ t.get TWN_STATUS_LANES.one = 0 ∧ t.latched 483 = true ∧
      t.twn.unacked = [] ∧ (s.paired = true → t.get TWN_STATUS_STATE.one = 3 ∧ t.latched 488 = true) ∧
      (s.paired = true → s.isLead = true → s.is TWN_CTRL_TAKE_ON_SILENCE.one = true → t.get TWN_STATUS_ROLE.one = 3)) ∧
  (∀ s : State, s.is TWN_STATUS_LINK_UP.one = true → s.paired = true → s.isFollower = true → s.is TWN_CTRL_TAKE_ON_SILENCE.one = true →
    ∃ t, exec .linkSilence s = .next t ∧ t.is TWN_STATUS_LINK_UP.one = false ∧ t.isLead = true ∧ t.get TWN_STATUS_STATE.one = 3 ∧
      t.latched 487 = true ∧ t.get TWN_HANDOVER_EPOCH.one = s.firstOpen ∧
      t.get TWN_HANDOVERS.one = (s.get TWN_HANDOVERS.one + 1) % 2 ^ 32) ∧
  (∀ (s : State) (m : List Byte) (x : TwinIn), twinParse 1 m = some x → s.is TWN_STATUS_LINK_UP.one = true →
    s.get TWN_STATUS_STATE.one ≠ 1 →
    (s.superseded (leAt x.body 8 4) = true → ∃ t, exec (.hello m) s = .next t ∧ t.isFollower = true ∧
      (s.paired = true → t.get TWN_STATUS_STATE.one = 3)) ∧
    (s.superseded (leAt x.body 8 4) = false → exec (.hello m) s = .next s)) ∧
  (∀ s : State, s.get TWN_STATUS_STATE.one ≠ 0 → s.is TWN_STATUS_LINK_UP.one = true →
    exec .helloSend s = .next { s with twn := { s.twn with
      seq := (s.twn.seq + 1) % 2 ^ 32, lastSent := s.twinMessage 1 s.twn.seq (epochOf s.now) s.helloBody } }) ∧
  (∀ (s : State) (m : List Byte) (x : TwinIn), twinParse 1 m = some x → s.is TWN_STATUS_LINK_UP.one = true →
    s.get TWN_STATUS_STATE.one = 1 →
    (s.complements x.body = true → ∃ t, exec (.hello m) s = .next t ∧ t.paired = true ∧ t.get TWN_STATUS_ROLE.one = s.twn.asked % 4 ∧
      t.get TWN_PARTNER_SERIAL.one = leAt x.body 0 8 ∧ (s.get TWN_STATUS_ROLE.one ≠ s.twn.asked → t.latched 484 = true)) ∧
    (s.complements x.body = false → ∃ t, exec (.hello m) s = .next t ∧ t.latched 491 = true ∧ s.sameRegs (latches [491]) t ∧
      s.sameButRegs t)) ∧
  (∀ (s : State) (m : List Byte) (x : TwinIn), twinParse 6 m = some x → s.is TWN_STATUS_LINK_UP.one = true →
    exec (.ack m) s = .next { s with twn := { s.twn with unacked := s.twn.unacked.filter (fun q => q.seq != leAt x.body 0 4) } }) ∧
  (∀ (s : State) (m : List Byte) (x : TwinIn), s.is TWN_STATUS_LINK_UP.one = true → s.twn.isNew x.seq = false →
    ∀ c ∈ [(Instr.fault m, 3), (.handover m, 4), (.command m, 5), (.epoch m, 2)], twinParse c.2 m = some x →
      exec c.1 s = .next { s with twn := { s.twn with
        seq := (s.twn.seq + 1) % 2 ^ 32, lastSent := s.twinMessage 6 s.twn.seq (epochOf s.now) (toBytes 4 x.seq) } }) ∧
  (∀ (s : State) (m : List Byte) (x : TwinIn), twinParse 3 m = some x → s.is TWN_STATUS_LINK_UP.one = true →
    s.twn.isNew x.seq = true → s.paired = true →
    ∃ t, exec (.fault m) s = .next t ∧ t.latched 489 = true ∧
      t.twn.lastSent = s.twinMessage 6 s.twn.seq (epochOf s.now) (toBytes 4 x.seq) ∧
      (s.isFollower = true → t.isLead = true ∧ t.latched 487 = true ∧ t.get TWN_STATUS_STATE.one = 3 ∧
        t.get TWN_HANDOVER_EPOCH.one = s.firstOpen) ∧
      (s.isFollower = false → t.get TWN_STATUS_ROLE.one = s.get TWN_STATUS_ROLE.one)) ∧
  (∀ (s : State) (m : List Byte) (x : TwinIn), twinParse 4 m = some x → s.is TWN_STATUS_LINK_UP.one = true →
    s.twn.isNew x.seq = true → s.paired = true → s.isFollower = true →
    ∃ t, exec (.handover m) s = .next t ∧ t.twn.handAt = some (leAt x.body 0 8 % 2 ^ 34) ∧ t.regs = s.regs ∧
      t.twn.lastSent = s.twinMessage 6 s.twn.seq (epochOf s.now) (toBytes 4 x.seq)) ∧
  (∀ (s : State) (m : List Byte) (x : TwinIn), twinParse 5 m = some x → s.is TWN_STATUS_LINK_UP.one = true →
    s.twn.isNew x.seq = true → s.paired = true → s.isFollower = true →
    (leAt x.body 4 8 = 0 → ∃ t, exec (.command m) s = .next t ∧ t.twn.lastSent.getD 2 0 = 5 ∧
      t.twn.unacked.length = s.twn.unacked.length + 1 ∧ t.regs = s.regs) ∧
    (leAt x.body 4 8 ≠ 0 → leAt x.body 0 1 = 0x13 → s.checkCommand 0x13 (x.body.drop 12) = .pass →
      ∃ t d, exec (.command m) s = .next t ∧ t.sessState (leAt (x.body.drop 12) 0 1) = 4 ∧
        t.closeReq (leAt (x.body.drop 12) 0 1) = some ⟨0, true, d⟩ ∧ leAt x.body 4 8 * frameTicks ≤ d)) ∧
  (∀ (s : State) (m : List Byte) (x : TwinIn) (code : Byte) (tag : BitVec 16) (args : List Byte), twinParse 5 m = some x →
    s.is TWN_STATUS_LINK_UP.one = true → s.twn.isNew x.seq = true → s.isLead = true → s.twn.mirror = true →
    s.serves code.toNat tag args 2 → leAt x.body 0 1 = code.toNat → leAt x.body 2 2 = tag.toNat →
    (leAt x.body 1 1 = 0xFF → ∃ t, exec (.command m) s = .next t ∧ t.serves code.toNat tag args 3 ∧ t.latched 34 = true ∧
      t.twn.mirror = false) ∧
    (code = 0x12 ∨ code = 0x14 → leAt x.body 1 1 ≠ 0 → leAt x.body 1 1 ≠ 0xFF →
      ∃ t, exec (.command m) s = .next t ∧ t.latched 491 = true ∧
        s.ended t code.toNat tag 4 false (toBytes 1 (leAt x.body 1 1) ++ (x.body.drop 4).take 7)) ∧
    (code = 0x13 → leAt x.body 1 1 = 0 → s.checkCommand 0x13 args = .pass →
      ∃ t d, exec (.command m) s = .next t ∧ t.sessState (leAt args 0 1) = 4 ∧ t.closeReq (leAt args 0 1) = some ⟨0, true, d⟩ ∧
        s.pairInstant ≤ d ∧ s.ended t 0x13 tag 0 false (toBytes 8 (eraFrame d)) ∧ t.twn.mirror = false ∧
        t.twn.lastSent.getD 2 0 = 5))

/-- R249, R250, R254, R468 to R471, R473. -/
def Obligations.EpochsEndAndAgree : Prop :=
  (∀ (s : State) (counts : List (Fin 73 × DWord)), s.sampling = true → s.clk.frameAt % epochTicks = 0 →
    s.clk.epochAt < s.clk.frameAt →
    (s.slotsMatch counts = true → s.paired = false → ∃ t, exec (.epochBoundary counts) s = .next t ∧
      t.get ADM_EPOCHS_CHECKED.one = (s.get ADM_EPOCHS_CHECKED.one + 1) % 2 ^ 32 ∧ t.clk.epochAt = s.clk.frameAt ∧
      (∀ i < 8, bitOf (s.get WR_ACTIVE.one) i = true →
        (sget t.rcd.ledgerDue i []).length = (sget s.rcd.ledgerDue i []).length + 1) ∧
      t.skeins = s.skeins ∧ t.seqs = s.seqs ∧ s.sameMemory t) ∧
    (s.slotsMatch counts = true → s.paired = true → s.is TWN_STATUS_LINK_UP.one = true → s.twn.handAt = none →
      ∃ t, exec (.epochBoundary counts) s = .next t ∧ t.twn.lastSent.getD 2 0 = 2 ∧
        t.twn.unacked.length = s.twn.unacked.length + 1 ∧ t.clk.epochAt = s.clk.frameAt) ∧
    (s.slotsMatch counts = false → ∃ t, exec (.epochBoundary counts) s = .next t ∧ t.is ADM_STATUS_CHECK_FAIL.one = true ∧
      t.get ADM_CHECK_FAIL_EPOCH.one = epochOf (s.clk.frameAt - 1) ∧ t.latched 261 = true ∧ t.latched 479 = true ∧
      t.get ADM_EPOCHS_CHECKED.one = (s.get ADM_EPOCHS_CHECKED.one + 1) % 2 ^ 32 ∧
      ∀ i < 8, s.sessState i = 3 → t.sessState i = 4)) ∧
  (∀ s : State, s.sampling = false ∨ s.clk.frameAt % epochTicks ≠ 0 ∨ s.clk.frameAt ≤ s.clk.epochAt →
    ∀ counts, exec (.epochBoundary counts) s = .next s) ∧
  (∀ (s : State) (m : List Byte) (x : TwinIn), twinParse 2 m = some x → s.is TWN_STATUS_LINK_UP.one = true →
    s.twn.isNew x.seq = true → s.paired = true →
    let e := epochNear (epochOf s.now) x.epoch
    s.agreedUpTo e = false →
    (s.isFollower = false ∨ leAt x.body 3108 4 ≠ 0 → sget s.twn.mine e [] = [] →
      ∃ t, exec (.epoch m) s = .next t ∧ sget t.twn.theirs e [] = x.body ∧ t.regs = s.regs) ∧
    (s.isFollower = false ∨ leAt x.body 3108 4 ≠ 0 → sget s.twn.mine e [] ≠ [] →
      ∃ t, exec (.epoch m) s = .next t ∧ t.get TWN_AGREED_EPOCH.one = e ∧ t.twn.agreedTheirs = x.body ∧
        t.twn.agreedMine = sget s.twn.mine e [] ∧
        (∀ d, digestsDiffer (sget s.twn.mine e []) x.body = some d → t.latched 486 = true ∧
          t.get TWN_DISAGREE.one = (s.get TWN_DISAGREE.one + 1) % 2 ^ 32 ∧ t.get TWN_DISAGREE_INFO_SKEIN.one = d ∧
          t.is TWN_DISAGREE_INFO_DIGEST.one = true) ∧
        (∀ i w, ledgersDiffer s.twn.agreedMine (sget s.twn.mine e []) s.twn.agreedTheirs x.body = some (i, w) →
          s.twn.agreedMine = [] ∨ s.get TWN_AGREED_EPOCH.one + 1 = e → t.latched 485 = true ∧
          t.get TWN_DISAGREE.one = (s.get TWN_DISAGREE.one + 1) % 2 ^ 32 ∧ t.get TWN_DISAGREE_INFO_SESSION.one = i) ∧
        t.isFollower = s.isFollower) ∧
    (s.isFollower = true → leAt x.body 3108 4 = 0 →
      ∃ t, exec (.epoch m) s = .next t ∧ t.isLead = true ∧ t.latched 487 = true ∧ t.get TWN_HANDOVER_EPOCH.one = s.firstOpen)) ∧
  (∀ s : State, s.paired = true → s.isFollower = true → 128 * frameTicks ≤ s.now % epochTicks →
    sget s.twn.mine (epochOf s.now - 1) [] ≠ [] → sget s.twn.theirs (epochOf s.now - 1) [] = [] →
    s.agreedUpTo (epochOf s.now - 1) = false →
    ∃ t, exec .epochMessageTimeout s = .next t ∧ t.isLead = true ∧ t.latched 487 = true ∧ t.get TWN_STATUS_STATE.one = 3 ∧
      t.get TWN_HANDOVER_EPOCH.one = s.firstOpen ∧ t.get TWN_HANDOVERS.one = (s.get TWN_HANDOVERS.one + 1) % 2 ^ 32) ∧
  ∀ s : State, s.paired = false ∨ s.isFollower = false ∨ s.now % epochTicks < 128 * frameTicks ∨
    sget s.twn.mine (epochOf s.now - 1) [] = [] ∨ sget s.twn.theirs (epochOf s.now - 1) [] ≠ [] ∨
    s.agreedUpTo (epochOf s.now - 1) = true → exec .epochMessageTimeout s = .next s

/-- Reset: what holds at the start of every run (R9, R381, R383; log entries 1 and 3). -/
def Obligations.ResetIsSoundAndEmpty : Prop :=
  State.reset.Sound ∧ State.reset.Numbered ∧ (∀ f : Fld, State.reset.get f = f.reset ∧ State.reset.getShadow f = f.reset) ∧
    (∀ k, State.reset.latched k = false) ∧ State.reset.pending = [] ∧ (∀ n, State.reset.sessState n = 0) ∧
    (∀ n, State.reset.seqArmed n = false) ∧ (∀ n, (State.reset.skein n).reducing = false) ∧
    (∀ a, sget State.reset.hbm.mem a 0 = 0 ∧ sget State.reset.grt.mem a 0 = 0 ∧ sget State.reset.link.bar4 a 0 = 0 ∧
      sget State.reset.svc.flash.slots a 0xFF = 0xFF) ∧ State.reset.now = 0

/-- Soundness is an invariant of the step. -/
def Obligations.EveryStepKeepsSound : Prop :=
  ∀ s t : State, s.Sound → s.Numbered → step s = .next t → t.Sound ∧ t.Numbered

/-- Which commands take effect, and that the queue is the step's alone. -/
def Obligations.WellFormedCommandsTakeEffect : Prop :=
  (∀ (c : Instr) (s : State), c.wellFormed = true → ∃ t, exec c s = .next t) ∧
  (∀ (c : Instr) (s : State), c.wellFormed = false → exec c s = .fault .illFormed) ∧
  (∀ (c : Instr) (s t : State), exec c s = .next t → t.pending = s.pending) ∧
  ∀ s t : State, s.pending = [] → step s = .next t → t.pending = []
end

