-- ==== Sys2Proof/Laws/Store.lean ====
section
/-! SUPPORT. Laws of the sparse tables: a read after a write, and that every operation keeps the canonical form. -/

namespace Sys2Proof.Machine

variable {α : Type}

theorem sget_sdel_same (m : Sparse α) (k : Nat) (d : α) : sget (sdel k m) k d = d := by
  induction m with
  | nil => rfl
  | cons p t ih =>
    obtain ⟨k', v⟩ := p
    unfold sdel
    split
    · exact ih
    · next h => simp only [sget, h, if_false]; exact ih

theorem sget_sdel_ne (m : Sparse α) {k j : Nat} (d : α) (h : j ≠ k) : sget (sdel k m) j d = sget m j d := by
  induction m with
  | nil => rfl
  | cons p t ih =>
    obtain ⟨k', v⟩ := p
    unfold sdel
    split
    · next e => subst e; simp only [sget, if_neg (Ne.symm h)]; exact ih
    · simp only [sget]; rw [ih]

theorem sget_sins_ne (m : Sparse α) {k j : Nat} (v d : α) (h : j ≠ k) : sget (sins k v m) j d = sget m j d := by
  induction m with
  | nil => simp only [sins, sget, if_neg (Ne.symm h)]
  | cons p t ih =>
    obtain ⟨k', w⟩ := p
    unfold sins
    split
    · simp only [sget, if_neg (Ne.symm h)]
    · simp only [sget]; rw [ih]

/-- An inserted value is read back where the key was not listed. -/
theorem sget_sins_same (m : Sparse α) (k : Nat) (v d : α) (h : ∀ p ∈ m, p.1 ≠ k) : sget (sins k v m) k d = v := by
  induction m with
  | nil => simp [sins, sget]
  | cons p t ih =>
    obtain ⟨k', w⟩ := p
    have hk : k' ≠ k := h (k', w) (by simp)
    unfold sins
    split
    · simp [sget]
    · simp only [sget, if_neg hk]
      exact ih (fun q hq => h q (by simp [hq]))

theorem sdel_keys (m : Sparse α) (k : Nat) : ∀ p ∈ sdel k m, p.1 ≠ k := by
  induction m with
  | nil => intro p hp; cases hp
  | cons q t ih =>
    obtain ⟨k', v⟩ := q
    unfold sdel
    split
    · exact ih
    · next h =>
      intro p hp
      rcases List.mem_cons.mp hp with rfl | hp
      · exact h
      · exact ih p hp

theorem sdel_subset (m : Sparse α) (k : Nat) : ∀ p ∈ sdel k m, p ∈ m := by
  induction m with
  | nil => intro p hp; cases hp
  | cons q t ih =>
    obtain ⟨k', v⟩ := q
    unfold sdel
    split
    · intro p hp; exact List.mem_cons_of_mem _ (ih p hp)
    · intro p hp
      rcases List.mem_cons.mp hp with rfl | hp
      · simp
      · exact List.mem_cons_of_mem _ (ih p hp)

theorem mem_sins (m : Sparse α) (k : Nat) (v : α) : ∀ p ∈ sins k v m, p = (k, v) ∨ p ∈ m := by
  induction m with
  | nil => intro p hp; simp [sins] at hp; exact .inl hp
  | cons q t ih =>
    obtain ⟨k', w⟩ := q
    unfold sins
    split
    · intro p hp
      rcases List.mem_cons.mp hp with rfl | hp
      · exact .inl rfl
      · exact .inr hp
    · intro p hp
      rcases List.mem_cons.mp hp with rfl | hp
      · exact .inr (by simp)
      · rcases ih p hp with h | h
        · exact .inl h
        · exact .inr (List.mem_cons_of_mem _ h)

section
variable [DecidableEq α]

/-- A value stored is read back. -/
@[simp] theorem sget_sput_same (m : Sparse α) (k : Nat) (d v : α) : sget (sput m k d v) k d = v := by
  unfold sput
  split
  · next h => rw [sget_sdel_same, h]
  · exact sget_sins_same _ _ _ _ (sdel_keys m k)

/-- A store leaves every other key as it was. -/
theorem sget_sput_ne (m : Sparse α) {k j : Nat} (d e v : α) (h : j ≠ k) : sget (sput m k d v) j e = sget m j e := by
  unfold sput
  split
  · exact sget_sdel_ne m e h
  · rw [sget_sins_ne _ _ _ h, sget_sdel_ne _ _ h]

/-- A store, read at any key. -/
theorem sget_sput (m : Sparse α) (k j : Nat) (d v : α) : sget (sput m k d v) j d = if j = k then v else sget m j d := by
  split
  · next h => subst h; exact sget_sput_same m j d v
  · next h => exact sget_sput_ne m d d v h

theorem mem_sput (m : Sparse α) (k : Nat) (d v : α) : ∀ p ∈ sput m k d v, p = (k, v) ∨ p ∈ m := by
  unfold sput
  split
  · intro p hp; exact .inr (sdel_subset m k p hp)
  · intro p hp
    rcases mem_sins _ _ _ p hp with h | h
    · exact .inl h
    · exact .inr (sdel_subset m k p h)
end

/-! ### The canonical form -/

theorem risingFrom_weaken {k j : Nat} {m : Sparse α} (h : risingFrom k m = true) (hj : j ≤ k) : risingFrom j m = true := by
  cases m with
  | nil => rfl
  | cons p t =>
    obtain ⟨k', v⟩ := p
    simp only [risingFrom, Bool.and_eq_true, decide_eq_true_eq] at h ⊢
    exact ⟨by omega, h.2⟩

theorem rising_of_risingFrom {k : Nat} {m : Sparse α} (h : risingFrom k m = true) : rising m = true := by
  cases m with
  | nil => rfl
  | cons p t =>
    obtain ⟨k', v⟩ := p
    simp only [risingFrom, Bool.and_eq_true] at h
    exact h.2

theorem risingFrom_sdel {j : Nat} {m : Sparse α} (k : Nat) (h : risingFrom j m = true) : risingFrom j (sdel k m) = true := by
  induction m generalizing j with
  | nil => rfl
  | cons p t ih =>
    obtain ⟨k', v⟩ := p
    simp only [risingFrom, Bool.and_eq_true, decide_eq_true_eq] at h
    unfold sdel
    split
    · exact ih (risingFrom_weaken h.2 (by omega))
    · simp only [risingFrom, Bool.and_eq_true, decide_eq_true_eq]
      exact ⟨h.1, ih h.2⟩

theorem rising_sdel {m : Sparse α} (k : Nat) (h : rising m = true) : rising (sdel k m) = true := by
  cases m with
  | nil => rfl
  | cons p t =>
    obtain ⟨k', v⟩ := p
    unfold sdel
    split
    · exact rising_of_risingFrom (risingFrom_sdel k h)
    · exact risingFrom_sdel k h

theorem risingFrom_sins {j k : Nat} {v : α} {m : Sparse α} (h : risingFrom j m = true) (hk : j < k)
    (hn : ∀ p ∈ m, p.1 ≠ k) : risingFrom j (sins k v m) = true := by
  induction m generalizing j with
  | nil => simp [sins, risingFrom, hk]
  | cons p t ih =>
    obtain ⟨k', w⟩ := p
    have hne : k' ≠ k := hn (k', w) (by simp)
    simp only [risingFrom, Bool.and_eq_true, decide_eq_true_eq] at h
    unfold sins
    split
    · next hlt => simp only [risingFrom, Bool.and_eq_true, decide_eq_true_eq]; exact ⟨hk, hlt, h.2⟩
    · simp only [risingFrom, Bool.and_eq_true, decide_eq_true_eq]
      exact ⟨h.1, ih h.2 (by omega) (fun q hq => hn q (by simp [hq]))⟩

theorem rising_sins {k : Nat} {v : α} {m : Sparse α} (h : rising m = true) (hn : ∀ p ∈ m, p.1 ≠ k) :
    rising (sins k v m) = true := by
  cases m with
  | nil => rfl
  | cons p t =>
    obtain ⟨k', w⟩ := p
    have hne : k' ≠ k := hn (k', w) (by simp)
    unfold sins
    split
    · next hlt => simp only [rising, risingFrom, Bool.and_eq_true, decide_eq_true_eq]; exact ⟨hlt, h⟩
    · exact risingFrom_sins h (by omega) (fun q hq => hn q (by simp [hq]))

theorem risingFrom_filter {j : Nat} {m : Sparse α} (f : Nat × α → Bool) (h : risingFrom j m = true) :
    risingFrom j (m.filter f) = true := by
  induction m generalizing j with
  | nil => rfl
  | cons p t ih =>
    obtain ⟨k', w⟩ := p
    simp only [risingFrom, Bool.and_eq_true, decide_eq_true_eq] at h
    rw [List.filter_cons]
    split
    · simp only [risingFrom, Bool.and_eq_true, decide_eq_true_eq]; exact ⟨h.1, ih h.2⟩
    · exact ih (risingFrom_weaken h.2 (by omega))

theorem rising_filter {m : Sparse α} (f : Nat × α → Bool) (h : rising m = true) : rising (m.filter f) = true := by
  cases m with
  | nil => rfl
  | cons p t =>
    rw [List.filter_cons]
    split
    · exact risingFrom_filter f h
    · exact rising_of_risingFrom (risingFrom_filter f h)

section
variable [DecidableEq α]

theorem noDefault_iff (d : α) (m : Sparse α) : noDefault d m = true ↔ ∀ p ∈ m, p.2 ≠ d := by
  induction m with
  | nil => simp [noDefault]
  | cons p t ih =>
    obtain ⟨k, v⟩ := p
    simp [noDefault, ih]

/-- A store keeps the canonical form. -/
theorem canonical_sput {m : Sparse α} {d : α} (k : Nat) (v : α) (h : canonical d m = true) :
    canonical d (sput m k d v) = true := by
  unfold canonical at h ⊢
  rw [Bool.and_eq_true, noDefault_iff] at h ⊢
  refine ⟨?_, ?_⟩
  · unfold sput
    split
    · exact rising_sdel k h.1
    · exact rising_sins (rising_sdel k h.1) (sdel_keys m k)
  · intro p hp
    by_cases hv : v = d
    · unfold sput at hp
      rw [if_pos hv] at hp
      exact h.2 p (sdel_subset m k p hp)
    · rcases mem_sput m k d v p hp with rfl | hp
      · exact hv
      · exact h.2 p hp

/-- Leaving entries out keeps the canonical form. -/
theorem canonical_filter {m : Sparse α} {d : α} (f : Nat × α → Bool) (h : canonical d m = true) :
    canonical d (m.filter f) = true := by
  unfold canonical at h ⊢
  rw [Bool.and_eq_true, noDefault_iff] at h ⊢
  exact ⟨rising_filter f h.1, fun p hp => h.2 p (List.mem_filter.mp hp).1⟩

theorem rising_sput {m : Sparse α} {d : α} (k : Nat) (v : α) (h : rising m = true) : rising (sput m k d v) = true := by
  unfold sput
  split
  · exact rising_sdel k h
  · exact rising_sins (rising_sdel k h) (sdel_keys m k)
end

end Sys2Proof.Machine
end

