-- ==== Sys2Proof/Laws/Sound.lean ====
section
/-! SUPPORT. Soundness of a state under the primitive updates that every operation is built from. -/

namespace Sys2Proof.Machine

theorem wellKept_iff (m : Sparse Nat) : wellKept m = true ↔ rising m = true ∧ ∀ p ∈ m, p.2 < 2 ^ keyWidth p.1 := by
  unfold wellKept
  rw [Bool.and_eq_true, List.all_eq_true]
  simp

/-- The width that a cell's number states is at least the field's own. -/
theorem keyWidth_key (f : Fld) (h : f.width ≤ 64) : f.width ≤ keyWidth f.key := by
  unfold keyWidth Fld.key
  omega

/-- A value held to a field's width fits its cell. -/
theorem fits_key (f : Fld) (h : f.width ≤ 64) (v : Nat) : v % 2 ^ f.width < 2 ^ keyWidth f.key :=
  Nat.lt_of_lt_of_le (Nat.mod_lt _ (Nat.two_pow_pos _)) (Nat.pow_le_pow_right (by decide) (keyWidth_key f h))

theorem wellKept_sput {m : Sparse Nat} (k d v : Nat) (h : wellKept m = true) (hv : v < 2 ^ keyWidth k) :
    wellKept (sput m k d v) = true := by
  rw [wellKept_iff] at h ⊢
  refine ⟨rising_sput k v h.1, fun p hp => ?_⟩
  rcases mem_sput m k d v p hp with rfl | hp
  · exact hv
  · exact h.2 p hp

theorem wellKept_filter {m : Sparse Nat} (f : Nat × Nat → Bool) (h : wellKept m = true) : wellKept (m.filter f) = true := by
  rw [wellKept_iff] at h ⊢
  exact ⟨rising_filter f h.1, fun p hp => h.2 p (List.mem_filter.mp hp).1⟩

/-- Parts of the state that soundness does not speak of may take any value. -/
theorem sound_mk {s : State} (h : s.Sound) {pending snap snapSeq frozen heldLow hiSnap posted now drawn clk skeins pins rcd
    dma dmaLast flw pwr flt mbx twn} :
    (State.mk pending s.regs s.shadow s.staged snap snapSeq frozen heldLow hiSnap posted now drawn s.link clk skeins s.seqs
      pins rcd s.hbm s.grt dma dmaLast flw pwr flt mbx twn s.svc).Sound :=
  ⟨h.regs, h.shadow, h.staged, h.hbmMem, h.marks, h.grtMem, h.bar4, h.slots, h.queues, h.journal⟩

theorem sound_set {s : State} (h : s.Sound) (f : Fld) (v : Nat) (hw : f.width ≤ 64) : (s.set f v).Sound :=
  ⟨wellKept_sput _ _ _ h.regs (fits_key f hw v), h.shadow, h.staged, h.hbmMem, h.marks, h.grtMem, h.bar4, h.slots, h.queues, h.journal⟩

theorem sound_setShadow {s : State} (h : s.Sound) (f : Fld) (v : Nat) (hw : f.width ≤ 64) : (s.setShadow f v).Sound :=
  ⟨h.regs, wellKept_sput _ _ _ h.shadow (fits_key f hw v), h.staged, h.hbmMem, h.marks, h.grtMem, h.bar4, h.slots, h.queues, h.journal⟩

theorem sound_setStaged {s : State} (h : s.Sound) (f : Fld) (v : Nat) (hw : f.width ≤ 64) : (s.setStaged f v).Sound :=
  ⟨h.regs, h.shadow, wellKept_sput _ _ _ h.staged (fits_key f hw v), h.hbmMem, h.marks, h.grtMem, h.bar4, h.slots, h.queues, h.journal⟩

theorem sound_add {s : State} (h : s.Sound) (f : Fld) (n : Nat) (hw : f.width ≤ 64) : (s.add f n).Sound := sound_set h f _ hw

theorem sound_addSat {s : State} (h : s.Sound) (f : Fld) (n : Nat) (hw : f.width ≤ 64) : (s.addSat f n).Sound :=
  sound_set h f _ hw

theorem sound_setBit {s : State} (h : s.Sound) (f : Fld) (b : Nat) (v : Bool) (hw : f.width ≤ 64) : (s.setBit f b v).Sound :=
  sound_set h f _ hw

theorem sound_forEach {α : Type} (l : List α) {s : State} (h : s.Sound) (f : α → State → State)
    (hf : ∀ a t, t.Sound → (f a t).Sound) : (forEach l s f).Sound := by
  unfold forEach
  induction l generalizing s with
  | nil => exact h
  | cons a l ih => exact ih (hf a s h)

theorem sound_when {s : State} (h : s.Sound) (c : Bool) (f : State → State) (hf : ∀ t, t.Sound → (f t).Sound) :
    (s.when c f).Sound := by
  unfold State.when
  split
  · exact hf s h
  · exact h

theorem sound_drew {s : State} (h : s.Sound) : s.drew.Sound := sound_mk h

theorem sound_onLink {s : State} (h : s.Sound) (f : Link → Link)
    (hf : ∀ l, Memory.wf 0 l.bar4 = true → Memory.wf 0 (f l).bar4 = true) : (s.onLink f).Sound :=
  ⟨h.regs, h.shadow, h.staged, h.hbmMem, h.marks, h.grtMem, hf _ h.bar4, h.slots, h.queues, h.journal⟩

theorem sound_onHbm {s : State} (h : s.Sound) (f : Hbm → Hbm)
    (hm : ∀ m, Memory.wf 0 m.mem = true → Memory.wf 0 (f m).mem = true)
    (hk : ∀ m, Memory.wf 0 m.marks = true → Memory.wf 0 (f m).marks = true) : (s.onHbm f).Sound :=
  ⟨h.regs, h.shadow, h.staged, hm _ h.hbmMem, hk _ h.marks, h.grtMem, h.bar4, h.slots, h.queues, h.journal⟩

theorem sound_onGrt {s : State} (h : s.Sound) (f : Grottos → Grottos)
    (hf : ∀ g, Memory.wf 0 g.mem = true → Memory.wf 0 (f g).mem = true) : (s.onGrt f).Sound :=
  ⟨h.regs, h.shadow, h.staged, h.hbmMem, h.marks, hf _ h.grtMem, h.bar4, h.slots, h.queues, h.journal⟩

theorem sound_onSvc {s : State} (h : s.Sound) (f : Service → Service)
    (hf : ∀ v, Memory.wf 0xFF v.flash.slots = true → Memory.wf 0xFF (f v).flash.slots = true)
    (hj : ∀ v, Service.journalKept v → Service.journalKept (f v)) : (s.onSvc f).Sound :=
  ⟨h.regs, h.shadow, h.staged, h.hbmMem, h.marks, h.grtMem, h.bar4, hf _ h.slots, h.queues, hj _ h.journal⟩

theorem sound_onFlash {s : State} (h : s.Sound) (f : Flash → Flash)
    (hf : ∀ v, Memory.wf 0xFF v.slots = true → Memory.wf 0xFF (f v).slots = true)
    (hj : ∀ v, (∀ p ∈ v.journal, ∀ r, p.2 = some r → wellKept r.cells = true) →
      ∀ p ∈ (f v).journal, ∀ r, p.2 = some r → wellKept r.cells = true) : (s.onFlash f).Sound :=
  sound_onSvc h _ (fun v hv => hf v.flash hv) (fun v hv => ⟨hj v.flash hv.1, hv.2⟩)

theorem sound_putSeq {s : State} (h : s.Sound) (n : Nat) (q : Seq) (hq : q.stitches.length ≤ 64) : (s.putSeq n q).Sound :=
  ⟨h.regs, h.shadow, h.staged, h.hbmMem, h.marks, h.grtMem, h.bar4, h.slots,
    fun j => by
      unfold State.putSeq State.seq
      rw [sget_sput]
      split
      · exact hq
      · exact h.queues j,
    h.journal⟩

theorem sound_onSeq {s : State} (h : s.Sound) (n : Nat) (f : Seq → Seq)
    (hf : ∀ q, q.stitches.length ≤ 64 → (f q).stitches.length ≤ 64) : (s.onSeq n f).Sound :=
  sound_putSeq h n _ (hf _ (h.queues n))

end Sys2Proof.Machine
end

