-- ==== Sys2Proof/Laws/State.lean ====
section
/-! SUPPORT. What every named update of the state leaves as it was, field by field, and what a register field, a skein and a
sequencer read as after it. -/

namespace Sys2Proof.Machine

/-! #### `State.set` -/

@[simp] theorem State.set_pending (s : State) (f : Fld) (v : Nat) : (s.set f v).pending = s.pending := rfl
@[simp] theorem State.set_shadow (s : State) (f : Fld) (v : Nat) : (s.set f v).shadow = s.shadow := rfl
@[simp] theorem State.set_staged (s : State) (f : Fld) (v : Nat) : (s.set f v).staged = s.staged := rfl
@[simp] theorem State.set_snap (s : State) (f : Fld) (v : Nat) : (s.set f v).snap = s.snap := rfl
@[simp] theorem State.set_snapSeq (s : State) (f : Fld) (v : Nat) : (s.set f v).snapSeq = s.snapSeq := rfl
@[simp] theorem State.set_frozen (s : State) (f : Fld) (v : Nat) : (s.set f v).frozen = s.frozen := rfl
@[simp] theorem State.set_heldLow (s : State) (f : Fld) (v : Nat) : (s.set f v).heldLow = s.heldLow := rfl
@[simp] theorem State.set_hiSnap (s : State) (f : Fld) (v : Nat) : (s.set f v).hiSnap = s.hiSnap := rfl
@[simp] theorem State.set_posted (s : State) (f : Fld) (v : Nat) : (s.set f v).posted = s.posted := rfl
@[simp] theorem State.set_now (s : State) (f : Fld) (v : Nat) : (s.set f v).now = s.now := rfl
@[simp] theorem State.set_drawn (s : State) (f : Fld) (v : Nat) : (s.set f v).drawn = s.drawn := rfl
@[simp] theorem State.set_link (s : State) (f : Fld) (v : Nat) : (s.set f v).link = s.link := rfl
@[simp] theorem State.set_clk (s : State) (f : Fld) (v : Nat) : (s.set f v).clk = s.clk := rfl
@[simp] theorem State.set_skeins (s : State) (f : Fld) (v : Nat) : (s.set f v).skeins = s.skeins := rfl
@[simp] theorem State.set_seqs (s : State) (f : Fld) (v : Nat) : (s.set f v).seqs = s.seqs := rfl
@[simp] theorem State.set_pins (s : State) (f : Fld) (v : Nat) : (s.set f v).pins = s.pins := rfl
@[simp] theorem State.set_rcd (s : State) (f : Fld) (v : Nat) : (s.set f v).rcd = s.rcd := rfl
@[simp] theorem State.set_hbm (s : State) (f : Fld) (v : Nat) : (s.set f v).hbm = s.hbm := rfl
@[simp] theorem State.set_grt (s : State) (f : Fld) (v : Nat) : (s.set f v).grt = s.grt := rfl
@[simp] theorem State.set_dma (s : State) (f : Fld) (v : Nat) : (s.set f v).dma = s.dma := rfl
@[simp] theorem State.set_dmaLast (s : State) (f : Fld) (v : Nat) : (s.set f v).dmaLast = s.dmaLast := rfl
@[simp] theorem State.set_flw (s : State) (f : Fld) (v : Nat) : (s.set f v).flw = s.flw := rfl
@[simp] theorem State.set_pwr (s : State) (f : Fld) (v : Nat) : (s.set f v).pwr = s.pwr := rfl
@[simp] theorem State.set_flt (s : State) (f : Fld) (v : Nat) : (s.set f v).flt = s.flt := rfl
@[simp] theorem State.set_mbx (s : State) (f : Fld) (v : Nat) : (s.set f v).mbx = s.mbx := rfl
@[simp] theorem State.set_twn (s : State) (f : Fld) (v : Nat) : (s.set f v).twn = s.twn := rfl
@[simp] theorem State.set_svc (s : State) (f : Fld) (v : Nat) : (s.set f v).svc = s.svc := rfl
@[simp] theorem State.set_skein (s : State) (f : Fld) (v : Nat) (i : Nat) : State.skein (s.set f v) i = s.skein i := rfl
@[simp] theorem State.set_seq (s : State) (f : Fld) (v : Nat) (i : Nat) : State.seq (s.set f v) i = s.seq i := rfl

/-! #### `State.setShadow` -/

@[simp] theorem State.setShadow_pending (s : State) (f : Fld) (v : Nat) : (s.setShadow f v).pending = s.pending := rfl
@[simp] theorem State.setShadow_regs (s : State) (f : Fld) (v : Nat) : (s.setShadow f v).regs = s.regs := rfl
@[simp] theorem State.setShadow_staged (s : State) (f : Fld) (v : Nat) : (s.setShadow f v).staged = s.staged := rfl
@[simp] theorem State.setShadow_snap (s : State) (f : Fld) (v : Nat) : (s.setShadow f v).snap = s.snap := rfl
@[simp] theorem State.setShadow_snapSeq (s : State) (f : Fld) (v : Nat) : (s.setShadow f v).snapSeq = s.snapSeq := rfl
@[simp] theorem State.setShadow_frozen (s : State) (f : Fld) (v : Nat) : (s.setShadow f v).frozen = s.frozen := rfl
@[simp] theorem State.setShadow_heldLow (s : State) (f : Fld) (v : Nat) : (s.setShadow f v).heldLow = s.heldLow := rfl
@[simp] theorem State.setShadow_hiSnap (s : State) (f : Fld) (v : Nat) : (s.setShadow f v).hiSnap = s.hiSnap := rfl
@[simp] theorem State.setShadow_posted (s : State) (f : Fld) (v : Nat) : (s.setShadow f v).posted = s.posted := rfl
@[simp] theorem State.setShadow_now (s : State) (f : Fld) (v : Nat) : (s.setShadow f v).now = s.now := rfl
@[simp] theorem State.setShadow_drawn (s : State) (f : Fld) (v : Nat) : (s.setShadow f v).drawn = s.drawn := rfl
@[simp] theorem State.setShadow_link (s : State) (f : Fld) (v : Nat) : (s.setShadow f v).link = s.link := rfl
@[simp] theorem State.setShadow_clk (s : State) (f : Fld) (v : Nat) : (s.setShadow f v).clk = s.clk := rfl
@[simp] theorem State.setShadow_skeins (s : State) (f : Fld) (v : Nat) : (s.setShadow f v).skeins = s.skeins := rfl
@[simp] theorem State.setShadow_seqs (s : State) (f : Fld) (v : Nat) : (s.setShadow f v).seqs = s.seqs := rfl
@[simp] theorem State.setShadow_pins (s : State) (f : Fld) (v : Nat) : (s.setShadow f v).pins = s.pins := rfl
@[simp] theorem State.setShadow_rcd (s : State) (f : Fld) (v : Nat) : (s.setShadow f v).rcd = s.rcd := rfl
@[simp] theorem State.setShadow_hbm (s : State) (f : Fld) (v : Nat) : (s.setShadow f v).hbm = s.hbm := rfl
@[simp] theorem State.setShadow_grt (s : State) (f : Fld) (v : Nat) : (s.setShadow f v).grt = s.grt := rfl
@[simp] theorem State.setShadow_dma (s : State) (f : Fld) (v : Nat) : (s.setShadow f v).dma = s.dma := rfl
@[simp] theorem State.setShadow_dmaLast (s : State) (f : Fld) (v : Nat) : (s.setShadow f v).dmaLast = s.dmaLast := rfl
@[simp] theorem State.setShadow_flw (s : State) (f : Fld) (v : Nat) : (s.setShadow f v).flw = s.flw := rfl
@[simp] theorem State.setShadow_pwr (s : State) (f : Fld) (v : Nat) : (s.setShadow f v).pwr = s.pwr := rfl
@[simp] theorem State.setShadow_flt (s : State) (f : Fld) (v : Nat) : (s.setShadow f v).flt = s.flt := rfl
@[simp] theorem State.setShadow_mbx (s : State) (f : Fld) (v : Nat) : (s.setShadow f v).mbx = s.mbx := rfl
@[simp] theorem State.setShadow_twn (s : State) (f : Fld) (v : Nat) : (s.setShadow f v).twn = s.twn := rfl
@[simp] theorem State.setShadow_svc (s : State) (f : Fld) (v : Nat) : (s.setShadow f v).svc = s.svc := rfl
@[simp] theorem State.setShadow_get (s : State) (f : Fld) (v : Nat) (g : Fld) : State.get (s.setShadow f v) g = s.get g := rfl
@[simp] theorem State.setShadow_is (s : State) (f : Fld) (v : Nat) (g : Fld) : State.is (s.setShadow f v) g = s.is g := rfl
@[simp] theorem State.setShadow_skein (s : State) (f : Fld) (v : Nat) (i : Nat) : State.skein (s.setShadow f v) i = s.skein i := rfl
@[simp] theorem State.setShadow_seq (s : State) (f : Fld) (v : Nat) (i : Nat) : State.seq (s.setShadow f v) i = s.seq i := rfl

/-! #### `State.setStaged` -/

@[simp] theorem State.setStaged_pending (s : State) (f : Fld) (v : Nat) : (s.setStaged f v).pending = s.pending := rfl
@[simp] theorem State.setStaged_regs (s : State) (f : Fld) (v : Nat) : (s.setStaged f v).regs = s.regs := rfl
@[simp] theorem State.setStaged_shadow (s : State) (f : Fld) (v : Nat) : (s.setStaged f v).shadow = s.shadow := rfl
@[simp] theorem State.setStaged_snap (s : State) (f : Fld) (v : Nat) : (s.setStaged f v).snap = s.snap := rfl
@[simp] theorem State.setStaged_snapSeq (s : State) (f : Fld) (v : Nat) : (s.setStaged f v).snapSeq = s.snapSeq := rfl
@[simp] theorem State.setStaged_frozen (s : State) (f : Fld) (v : Nat) : (s.setStaged f v).frozen = s.frozen := rfl
@[simp] theorem State.setStaged_heldLow (s : State) (f : Fld) (v : Nat) : (s.setStaged f v).heldLow = s.heldLow := rfl
@[simp] theorem State.setStaged_hiSnap (s : State) (f : Fld) (v : Nat) : (s.setStaged f v).hiSnap = s.hiSnap := rfl
@[simp] theorem State.setStaged_posted (s : State) (f : Fld) (v : Nat) : (s.setStaged f v).posted = s.posted := rfl
@[simp] theorem State.setStaged_now (s : State) (f : Fld) (v : Nat) : (s.setStaged f v).now = s.now := rfl
@[simp] theorem State.setStaged_drawn (s : State) (f : Fld) (v : Nat) : (s.setStaged f v).drawn = s.drawn := rfl
@[simp] theorem State.setStaged_link (s : State) (f : Fld) (v : Nat) : (s.setStaged f v).link = s.link := rfl
@[simp] theorem State.setStaged_clk (s : State) (f : Fld) (v : Nat) : (s.setStaged f v).clk = s.clk := rfl
@[simp] theorem State.setStaged_skeins (s : State) (f : Fld) (v : Nat) : (s.setStaged f v).skeins = s.skeins := rfl
@[simp] theorem State.setStaged_seqs (s : State) (f : Fld) (v : Nat) : (s.setStaged f v).seqs = s.seqs := rfl
@[simp] theorem State.setStaged_pins (s : State) (f : Fld) (v : Nat) : (s.setStaged f v).pins = s.pins := rfl
@[simp] theorem State.setStaged_rcd (s : State) (f : Fld) (v : Nat) : (s.setStaged f v).rcd = s.rcd := rfl
@[simp] theorem State.setStaged_hbm (s : State) (f : Fld) (v : Nat) : (s.setStaged f v).hbm = s.hbm := rfl
@[simp] theorem State.setStaged_grt (s : State) (f : Fld) (v : Nat) : (s.setStaged f v).grt = s.grt := rfl
@[simp] theorem State.setStaged_dma (s : State) (f : Fld) (v : Nat) : (s.setStaged f v).dma = s.dma := rfl
@[simp] theorem State.setStaged_dmaLast (s : State) (f : Fld) (v : Nat) : (s.setStaged f v).dmaLast = s.dmaLast := rfl
@[simp] theorem State.setStaged_flw (s : State) (f : Fld) (v : Nat) : (s.setStaged f v).flw = s.flw := rfl
@[simp] theorem State.setStaged_pwr (s : State) (f : Fld) (v : Nat) : (s.setStaged f v).pwr = s.pwr := rfl
@[simp] theorem State.setStaged_flt (s : State) (f : Fld) (v : Nat) : (s.setStaged f v).flt = s.flt := rfl
@[simp] theorem State.setStaged_mbx (s : State) (f : Fld) (v : Nat) : (s.setStaged f v).mbx = s.mbx := rfl
@[simp] theorem State.setStaged_twn (s : State) (f : Fld) (v : Nat) : (s.setStaged f v).twn = s.twn := rfl
@[simp] theorem State.setStaged_svc (s : State) (f : Fld) (v : Nat) : (s.setStaged f v).svc = s.svc := rfl
@[simp] theorem State.setStaged_get (s : State) (f : Fld) (v : Nat) (g : Fld) : State.get (s.setStaged f v) g = s.get g := rfl
@[simp] theorem State.setStaged_is (s : State) (f : Fld) (v : Nat) (g : Fld) : State.is (s.setStaged f v) g = s.is g := rfl
@[simp] theorem State.setStaged_skein (s : State) (f : Fld) (v : Nat) (i : Nat) : State.skein (s.setStaged f v) i = s.skein i := rfl
@[simp] theorem State.setStaged_seq (s : State) (f : Fld) (v : Nat) (i : Nat) : State.seq (s.setStaged f v) i = s.seq i := rfl

/-! #### `State.add` -/

@[simp] theorem State.add_pending (s : State) (f : Fld) (v : Nat) : (s.add f v).pending = s.pending := rfl
@[simp] theorem State.add_shadow (s : State) (f : Fld) (v : Nat) : (s.add f v).shadow = s.shadow := rfl
@[simp] theorem State.add_staged (s : State) (f : Fld) (v : Nat) : (s.add f v).staged = s.staged := rfl
@[simp] theorem State.add_snap (s : State) (f : Fld) (v : Nat) : (s.add f v).snap = s.snap := rfl
@[simp] theorem State.add_snapSeq (s : State) (f : Fld) (v : Nat) : (s.add f v).snapSeq = s.snapSeq := rfl
@[simp] theorem State.add_frozen (s : State) (f : Fld) (v : Nat) : (s.add f v).frozen = s.frozen := rfl
@[simp] theorem State.add_heldLow (s : State) (f : Fld) (v : Nat) : (s.add f v).heldLow = s.heldLow := rfl
@[simp] theorem State.add_hiSnap (s : State) (f : Fld) (v : Nat) : (s.add f v).hiSnap = s.hiSnap := rfl
@[simp] theorem State.add_posted (s : State) (f : Fld) (v : Nat) : (s.add f v).posted = s.posted := rfl
@[simp] theorem State.add_now (s : State) (f : Fld) (v : Nat) : (s.add f v).now = s.now := rfl
@[simp] theorem State.add_drawn (s : State) (f : Fld) (v : Nat) : (s.add f v).drawn = s.drawn := rfl
@[simp] theorem State.add_link (s : State) (f : Fld) (v : Nat) : (s.add f v).link = s.link := rfl
@[simp] theorem State.add_clk (s : State) (f : Fld) (v : Nat) : (s.add f v).clk = s.clk := rfl
@[simp] theorem State.add_skeins (s : State) (f : Fld) (v : Nat) : (s.add f v).skeins = s.skeins := rfl
@[simp] theorem State.add_seqs (s : State) (f : Fld) (v : Nat) : (s.add f v).seqs = s.seqs := rfl
@[simp] theorem State.add_pins (s : State) (f : Fld) (v : Nat) : (s.add f v).pins = s.pins := rfl
@[simp] theorem State.add_rcd (s : State) (f : Fld) (v : Nat) : (s.add f v).rcd = s.rcd := rfl
@[simp] theorem State.add_hbm (s : State) (f : Fld) (v : Nat) : (s.add f v).hbm = s.hbm := rfl
@[simp] theorem State.add_grt (s : State) (f : Fld) (v : Nat) : (s.add f v).grt = s.grt := rfl
@[simp] theorem State.add_dma (s : State) (f : Fld) (v : Nat) : (s.add f v).dma = s.dma := rfl
@[simp] theorem State.add_dmaLast (s : State) (f : Fld) (v : Nat) : (s.add f v).dmaLast = s.dmaLast := rfl
@[simp] theorem State.add_flw (s : State) (f : Fld) (v : Nat) : (s.add f v).flw = s.flw := rfl
@[simp] theorem State.add_pwr (s : State) (f : Fld) (v : Nat) : (s.add f v).pwr = s.pwr := rfl
@[simp] theorem State.add_flt (s : State) (f : Fld) (v : Nat) : (s.add f v).flt = s.flt := rfl
@[simp] theorem State.add_mbx (s : State) (f : Fld) (v : Nat) : (s.add f v).mbx = s.mbx := rfl
@[simp] theorem State.add_twn (s : State) (f : Fld) (v : Nat) : (s.add f v).twn = s.twn := rfl
@[simp] theorem State.add_svc (s : State) (f : Fld) (v : Nat) : (s.add f v).svc = s.svc := rfl
@[simp] theorem State.add_skein (s : State) (f : Fld) (v : Nat) (i : Nat) : State.skein (s.add f v) i = s.skein i := rfl
@[simp] theorem State.add_seq (s : State) (f : Fld) (v : Nat) (i : Nat) : State.seq (s.add f v) i = s.seq i := rfl

/-! #### `State.addSat` -/

@[simp] theorem State.addSat_pending (s : State) (f : Fld) (v : Nat) : (s.addSat f v).pending = s.pending := rfl
@[simp] theorem State.addSat_shadow (s : State) (f : Fld) (v : Nat) : (s.addSat f v).shadow = s.shadow := rfl
@[simp] theorem State.addSat_staged (s : State) (f : Fld) (v : Nat) : (s.addSat f v).staged = s.staged := rfl
@[simp] theorem State.addSat_snap (s : State) (f : Fld) (v : Nat) : (s.addSat f v).snap = s.snap := rfl
@[simp] theorem State.addSat_snapSeq (s : State) (f : Fld) (v : Nat) : (s.addSat f v).snapSeq = s.snapSeq := rfl
@[simp] theorem State.addSat_frozen (s : State) (f : Fld) (v : Nat) : (s.addSat f v).frozen = s.frozen := rfl
@[simp] theorem State.addSat_heldLow (s : State) (f : Fld) (v : Nat) : (s.addSat f v).heldLow = s.heldLow := rfl
@[simp] theorem State.addSat_hiSnap (s : State) (f : Fld) (v : Nat) : (s.addSat f v).hiSnap = s.hiSnap := rfl
@[simp] theorem State.addSat_posted (s : State) (f : Fld) (v : Nat) : (s.addSat f v).posted = s.posted := rfl
@[simp] theorem State.addSat_now (s : State) (f : Fld) (v : Nat) : (s.addSat f v).now = s.now := rfl
@[simp] theorem State.addSat_drawn (s : State) (f : Fld) (v : Nat) : (s.addSat f v).drawn = s.drawn := rfl
@[simp] theorem State.addSat_link (s : State) (f : Fld) (v : Nat) : (s.addSat f v).link = s.link := rfl
@[simp] theorem State.addSat_clk (s : State) (f : Fld) (v : Nat) : (s.addSat f v).clk = s.clk := rfl
@[simp] theorem State.addSat_skeins (s : State) (f : Fld) (v : Nat) : (s.addSat f v).skeins = s.skeins := rfl
@[simp] theorem State.addSat_seqs (s : State) (f : Fld) (v : Nat) : (s.addSat f v).seqs = s.seqs := rfl
@[simp] theorem State.addSat_pins (s : State) (f : Fld) (v : Nat) : (s.addSat f v).pins = s.pins := rfl
@[simp] theorem State.addSat_rcd (s : State) (f : Fld) (v : Nat) : (s.addSat f v).rcd = s.rcd := rfl
@[simp] theorem State.addSat_hbm (s : State) (f : Fld) (v : Nat) : (s.addSat f v).hbm = s.hbm := rfl
@[simp] theorem State.addSat_grt (s : State) (f : Fld) (v : Nat) : (s.addSat f v).grt = s.grt := rfl
@[simp] theorem State.addSat_dma (s : State) (f : Fld) (v : Nat) : (s.addSat f v).dma = s.dma := rfl
@[simp] theorem State.addSat_dmaLast (s : State) (f : Fld) (v : Nat) : (s.addSat f v).dmaLast = s.dmaLast := rfl
@[simp] theorem State.addSat_flw (s : State) (f : Fld) (v : Nat) : (s.addSat f v).flw = s.flw := rfl
@[simp] theorem State.addSat_pwr (s : State) (f : Fld) (v : Nat) : (s.addSat f v).pwr = s.pwr := rfl
@[simp] theorem State.addSat_flt (s : State) (f : Fld) (v : Nat) : (s.addSat f v).flt = s.flt := rfl
@[simp] theorem State.addSat_mbx (s : State) (f : Fld) (v : Nat) : (s.addSat f v).mbx = s.mbx := rfl
@[simp] theorem State.addSat_twn (s : State) (f : Fld) (v : Nat) : (s.addSat f v).twn = s.twn := rfl
@[simp] theorem State.addSat_svc (s : State) (f : Fld) (v : Nat) : (s.addSat f v).svc = s.svc := rfl
@[simp] theorem State.addSat_skein (s : State) (f : Fld) (v : Nat) (i : Nat) : State.skein (s.addSat f v) i = s.skein i := rfl
@[simp] theorem State.addSat_seq (s : State) (f : Fld) (v : Nat) (i : Nat) : State.seq (s.addSat f v) i = s.seq i := rfl

/-! #### `State.setBit` -/

@[simp] theorem State.setBit_pending (s : State) (f : Fld) (b : Nat) (v : Bool) : (s.setBit f b v).pending = s.pending := rfl
@[simp] theorem State.setBit_shadow (s : State) (f : Fld) (b : Nat) (v : Bool) : (s.setBit f b v).shadow = s.shadow := rfl
@[simp] theorem State.setBit_staged (s : State) (f : Fld) (b : Nat) (v : Bool) : (s.setBit f b v).staged = s.staged := rfl
@[simp] theorem State.setBit_snap (s : State) (f : Fld) (b : Nat) (v : Bool) : (s.setBit f b v).snap = s.snap := rfl
@[simp] theorem State.setBit_snapSeq (s : State) (f : Fld) (b : Nat) (v : Bool) : (s.setBit f b v).snapSeq = s.snapSeq := rfl
@[simp] theorem State.setBit_frozen (s : State) (f : Fld) (b : Nat) (v : Bool) : (s.setBit f b v).frozen = s.frozen := rfl
@[simp] theorem State.setBit_heldLow (s : State) (f : Fld) (b : Nat) (v : Bool) : (s.setBit f b v).heldLow = s.heldLow := rfl
@[simp] theorem State.setBit_hiSnap (s : State) (f : Fld) (b : Nat) (v : Bool) : (s.setBit f b v).hiSnap = s.hiSnap := rfl
@[simp] theorem State.setBit_posted (s : State) (f : Fld) (b : Nat) (v : Bool) : (s.setBit f b v).posted = s.posted := rfl
@[simp] theorem State.setBit_now (s : State) (f : Fld) (b : Nat) (v : Bool) : (s.setBit f b v).now = s.now := rfl
@[simp] theorem State.setBit_drawn (s : State) (f : Fld) (b : Nat) (v : Bool) : (s.setBit f b v).drawn = s.drawn := rfl
@[simp] theorem State.setBit_link (s : State) (f : Fld) (b : Nat) (v : Bool) : (s.setBit f b v).link = s.link := rfl
@[simp] theorem State.setBit_clk (s : State) (f : Fld) (b : Nat) (v : Bool) : (s.setBit f b v).clk = s.clk := rfl
@[simp] theorem State.setBit_skeins (s : State) (f : Fld) (b : Nat) (v : Bool) : (s.setBit f b v).skeins = s.skeins := rfl
@[simp] theorem State.setBit_seqs (s : State) (f : Fld) (b : Nat) (v : Bool) : (s.setBit f b v).seqs = s.seqs := rfl
@[simp] theorem State.setBit_pins (s : State) (f : Fld) (b : Nat) (v : Bool) : (s.setBit f b v).pins = s.pins := rfl
@[simp] theorem State.setBit_rcd (s : State) (f : Fld) (b : Nat) (v : Bool) : (s.setBit f b v).rcd = s.rcd := rfl
@[simp] theorem State.setBit_hbm (s : State) (f : Fld) (b : Nat) (v : Bool) : (s.setBit f b v).hbm = s.hbm := rfl
@[simp] theorem State.setBit_grt (s : State) (f : Fld) (b : Nat) (v : Bool) : (s.setBit f b v).grt = s.grt := rfl
@[simp] theorem State.setBit_dma (s : State) (f : Fld) (b : Nat) (v : Bool) : (s.setBit f b v).dma = s.dma := rfl
@[simp] theorem State.setBit_dmaLast (s : State) (f : Fld) (b : Nat) (v : Bool) : (s.setBit f b v).dmaLast = s.dmaLast := rfl
@[simp] theorem State.setBit_flw (s : State) (f : Fld) (b : Nat) (v : Bool) : (s.setBit f b v).flw = s.flw := rfl
@[simp] theorem State.setBit_pwr (s : State) (f : Fld) (b : Nat) (v : Bool) : (s.setBit f b v).pwr = s.pwr := rfl
@[simp] theorem State.setBit_flt (s : State) (f : Fld) (b : Nat) (v : Bool) : (s.setBit f b v).flt = s.flt := rfl
@[simp] theorem State.setBit_mbx (s : State) (f : Fld) (b : Nat) (v : Bool) : (s.setBit f b v).mbx = s.mbx := rfl
@[simp] theorem State.setBit_twn (s : State) (f : Fld) (b : Nat) (v : Bool) : (s.setBit f b v).twn = s.twn := rfl
@[simp] theorem State.setBit_svc (s : State) (f : Fld) (b : Nat) (v : Bool) : (s.setBit f b v).svc = s.svc := rfl
@[simp] theorem State.setBit_skein (s : State) (f : Fld) (b : Nat) (v : Bool) (i : Nat) : State.skein (s.setBit f b v) i = s.skein i := rfl
@[simp] theorem State.setBit_seq (s : State) (f : Fld) (b : Nat) (v : Bool) (i : Nat) : State.seq (s.setBit f b v) i = s.seq i := rfl

/-! #### `State.drew` -/

@[simp] theorem State.drew_pending (s : State) : s.drew.pending = s.pending := rfl
@[simp] theorem State.drew_regs (s : State) : s.drew.regs = s.regs := rfl
@[simp] theorem State.drew_shadow (s : State) : s.drew.shadow = s.shadow := rfl
@[simp] theorem State.drew_staged (s : State) : s.drew.staged = s.staged := rfl
@[simp] theorem State.drew_snap (s : State) : s.drew.snap = s.snap := rfl
@[simp] theorem State.drew_snapSeq (s : State) : s.drew.snapSeq = s.snapSeq := rfl
@[simp] theorem State.drew_frozen (s : State) : s.drew.frozen = s.frozen := rfl
@[simp] theorem State.drew_heldLow (s : State) : s.drew.heldLow = s.heldLow := rfl
@[simp] theorem State.drew_hiSnap (s : State) : s.drew.hiSnap = s.hiSnap := rfl
@[simp] theorem State.drew_posted (s : State) : s.drew.posted = s.posted := rfl
@[simp] theorem State.drew_now (s : State) : s.drew.now = s.now := rfl
@[simp] theorem State.drew_drawn (s : State) : s.drew.drawn = s.drawn + 1 := rfl
@[simp] theorem State.drew_link (s : State) : s.drew.link = s.link := rfl
@[simp] theorem State.drew_clk (s : State) : s.drew.clk = s.clk := rfl
@[simp] theorem State.drew_skeins (s : State) : s.drew.skeins = s.skeins := rfl
@[simp] theorem State.drew_seqs (s : State) : s.drew.seqs = s.seqs := rfl
@[simp] theorem State.drew_pins (s : State) : s.drew.pins = s.pins := rfl
@[simp] theorem State.drew_rcd (s : State) : s.drew.rcd = s.rcd := rfl
@[simp] theorem State.drew_hbm (s : State) : s.drew.hbm = s.hbm := rfl
@[simp] theorem State.drew_grt (s : State) : s.drew.grt = s.grt := rfl
@[simp] theorem State.drew_dma (s : State) : s.drew.dma = s.dma := rfl
@[simp] theorem State.drew_dmaLast (s : State) : s.drew.dmaLast = s.dmaLast := rfl
@[simp] theorem State.drew_flw (s : State) : s.drew.flw = s.flw := rfl
@[simp] theorem State.drew_pwr (s : State) : s.drew.pwr = s.pwr := rfl
@[simp] theorem State.drew_flt (s : State) : s.drew.flt = s.flt := rfl
@[simp] theorem State.drew_mbx (s : State) : s.drew.mbx = s.mbx := rfl
@[simp] theorem State.drew_twn (s : State) : s.drew.twn = s.twn := rfl
@[simp] theorem State.drew_svc (s : State) : s.drew.svc = s.svc := rfl
@[simp] theorem State.drew_get (s : State) (g : Fld) : State.get (s.drew) g = s.get g := rfl
@[simp] theorem State.drew_is (s : State) (g : Fld) : State.is (s.drew) g = s.is g := rfl
@[simp] theorem State.drew_skein (s : State) (i : Nat) : State.skein (s.drew) i = s.skein i := rfl
@[simp] theorem State.drew_seq (s : State) (i : Nat) : State.seq (s.drew) i = s.seq i := rfl

/-! #### `State.onLink` -/

@[simp] theorem State.onLink_pending (s : State) (f : Link → Link) : (s.onLink f).pending = s.pending := rfl
@[simp] theorem State.onLink_regs (s : State) (f : Link → Link) : (s.onLink f).regs = s.regs := rfl
@[simp] theorem State.onLink_shadow (s : State) (f : Link → Link) : (s.onLink f).shadow = s.shadow := rfl
@[simp] theorem State.onLink_staged (s : State) (f : Link → Link) : (s.onLink f).staged = s.staged := rfl
@[simp] theorem State.onLink_snap (s : State) (f : Link → Link) : (s.onLink f).snap = s.snap := rfl
@[simp] theorem State.onLink_snapSeq (s : State) (f : Link → Link) : (s.onLink f).snapSeq = s.snapSeq := rfl
@[simp] theorem State.onLink_frozen (s : State) (f : Link → Link) : (s.onLink f).frozen = s.frozen := rfl
@[simp] theorem State.onLink_heldLow (s : State) (f : Link → Link) : (s.onLink f).heldLow = s.heldLow := rfl
@[simp] theorem State.onLink_hiSnap (s : State) (f : Link → Link) : (s.onLink f).hiSnap = s.hiSnap := rfl
@[simp] theorem State.onLink_posted (s : State) (f : Link → Link) : (s.onLink f).posted = s.posted := rfl
@[simp] theorem State.onLink_now (s : State) (f : Link → Link) : (s.onLink f).now = s.now := rfl
@[simp] theorem State.onLink_drawn (s : State) (f : Link → Link) : (s.onLink f).drawn = s.drawn := rfl
@[simp] theorem State.onLink_link (s : State) (f : Link → Link) : (s.onLink f).link = f s.link := rfl
@[simp] theorem State.onLink_clk (s : State) (f : Link → Link) : (s.onLink f).clk = s.clk := rfl
@[simp] theorem State.onLink_skeins (s : State) (f : Link → Link) : (s.onLink f).skeins = s.skeins := rfl
@[simp] theorem State.onLink_seqs (s : State) (f : Link → Link) : (s.onLink f).seqs = s.seqs := rfl
@[simp] theorem State.onLink_pins (s : State) (f : Link → Link) : (s.onLink f).pins = s.pins := rfl
@[simp] theorem State.onLink_rcd (s : State) (f : Link → Link) : (s.onLink f).rcd = s.rcd := rfl
@[simp] theorem State.onLink_hbm (s : State) (f : Link → Link) : (s.onLink f).hbm = s.hbm := rfl
@[simp] theorem State.onLink_grt (s : State) (f : Link → Link) : (s.onLink f).grt = s.grt := rfl
@[simp] theorem State.onLink_dma (s : State) (f : Link → Link) : (s.onLink f).dma = s.dma := rfl
@[simp] theorem State.onLink_dmaLast (s : State) (f : Link → Link) : (s.onLink f).dmaLast = s.dmaLast := rfl
@[simp] theorem State.onLink_flw (s : State) (f : Link → Link) : (s.onLink f).flw = s.flw := rfl
@[simp] theorem State.onLink_pwr (s : State) (f : Link → Link) : (s.onLink f).pwr = s.pwr := rfl
@[simp] theorem State.onLink_flt (s : State) (f : Link → Link) : (s.onLink f).flt = s.flt := rfl
@[simp] theorem State.onLink_mbx (s : State) (f : Link → Link) : (s.onLink f).mbx = s.mbx := rfl
@[simp] theorem State.onLink_twn (s : State) (f : Link → Link) : (s.onLink f).twn = s.twn := rfl
@[simp] theorem State.onLink_svc (s : State) (f : Link → Link) : (s.onLink f).svc = s.svc := rfl
@[simp] theorem State.onLink_get (s : State) (f : Link → Link) (g : Fld) : State.get (s.onLink f) g = s.get g := rfl
@[simp] theorem State.onLink_is (s : State) (f : Link → Link) (g : Fld) : State.is (s.onLink f) g = s.is g := rfl
@[simp] theorem State.onLink_skein (s : State) (f : Link → Link) (i : Nat) : State.skein (s.onLink f) i = s.skein i := rfl
@[simp] theorem State.onLink_seq (s : State) (f : Link → Link) (i : Nat) : State.seq (s.onLink f) i = s.seq i := rfl

/-! #### `State.onClk` -/

@[simp] theorem State.onClk_pending (s : State) (f : Clocks → Clocks) : (s.onClk f).pending = s.pending := rfl
@[simp] theorem State.onClk_regs (s : State) (f : Clocks → Clocks) : (s.onClk f).regs = s.regs := rfl
@[simp] theorem State.onClk_shadow (s : State) (f : Clocks → Clocks) : (s.onClk f).shadow = s.shadow := rfl
@[simp] theorem State.onClk_staged (s : State) (f : Clocks → Clocks) : (s.onClk f).staged = s.staged := rfl
@[simp] theorem State.onClk_snap (s : State) (f : Clocks → Clocks) : (s.onClk f).snap = s.snap := rfl
@[simp] theorem State.onClk_snapSeq (s : State) (f : Clocks → Clocks) : (s.onClk f).snapSeq = s.snapSeq := rfl
@[simp] theorem State.onClk_frozen (s : State) (f : Clocks → Clocks) : (s.onClk f).frozen = s.frozen := rfl
@[simp] theorem State.onClk_heldLow (s : State) (f : Clocks → Clocks) : (s.onClk f).heldLow = s.heldLow := rfl
@[simp] theorem State.onClk_hiSnap (s : State) (f : Clocks → Clocks) : (s.onClk f).hiSnap = s.hiSnap := rfl
@[simp] theorem State.onClk_posted (s : State) (f : Clocks → Clocks) : (s.onClk f).posted = s.posted := rfl
@[simp] theorem State.onClk_now (s : State) (f : Clocks → Clocks) : (s.onClk f).now = s.now := rfl
@[simp] theorem State.onClk_drawn (s : State) (f : Clocks → Clocks) : (s.onClk f).drawn = s.drawn := rfl
@[simp] theorem State.onClk_link (s : State) (f : Clocks → Clocks) : (s.onClk f).link = s.link := rfl
@[simp] theorem State.onClk_clk (s : State) (f : Clocks → Clocks) : (s.onClk f).clk = f s.clk := rfl
@[simp] theorem State.onClk_skeins (s : State) (f : Clocks → Clocks) : (s.onClk f).skeins = s.skeins := rfl
@[simp] theorem State.onClk_seqs (s : State) (f : Clocks → Clocks) : (s.onClk f).seqs = s.seqs := rfl
@[simp] theorem State.onClk_pins (s : State) (f : Clocks → Clocks) : (s.onClk f).pins = s.pins := rfl
@[simp] theorem State.onClk_rcd (s : State) (f : Clocks → Clocks) : (s.onClk f).rcd = s.rcd := rfl
@[simp] theorem State.onClk_hbm (s : State) (f : Clocks → Clocks) : (s.onClk f).hbm = s.hbm := rfl
@[simp] theorem State.onClk_grt (s : State) (f : Clocks → Clocks) : (s.onClk f).grt = s.grt := rfl
@[simp] theorem State.onClk_dma (s : State) (f : Clocks → Clocks) : (s.onClk f).dma = s.dma := rfl
@[simp] theorem State.onClk_dmaLast (s : State) (f : Clocks → Clocks) : (s.onClk f).dmaLast = s.dmaLast := rfl
@[simp] theorem State.onClk_flw (s : State) (f : Clocks → Clocks) : (s.onClk f).flw = s.flw := rfl
@[simp] theorem State.onClk_pwr (s : State) (f : Clocks → Clocks) : (s.onClk f).pwr = s.pwr := rfl
@[simp] theorem State.onClk_flt (s : State) (f : Clocks → Clocks) : (s.onClk f).flt = s.flt := rfl
@[simp] theorem State.onClk_mbx (s : State) (f : Clocks → Clocks) : (s.onClk f).mbx = s.mbx := rfl
@[simp] theorem State.onClk_twn (s : State) (f : Clocks → Clocks) : (s.onClk f).twn = s.twn := rfl
@[simp] theorem State.onClk_svc (s : State) (f : Clocks → Clocks) : (s.onClk f).svc = s.svc := rfl
@[simp] theorem State.onClk_get (s : State) (f : Clocks → Clocks) (g : Fld) : State.get (s.onClk f) g = s.get g := rfl
@[simp] theorem State.onClk_is (s : State) (f : Clocks → Clocks) (g : Fld) : State.is (s.onClk f) g = s.is g := rfl
@[simp] theorem State.onClk_skein (s : State) (f : Clocks → Clocks) (i : Nat) : State.skein (s.onClk f) i = s.skein i := rfl
@[simp] theorem State.onClk_seq (s : State) (f : Clocks → Clocks) (i : Nat) : State.seq (s.onClk f) i = s.seq i := rfl

/-! #### `State.onPins` -/

@[simp] theorem State.onPins_pending (s : State) (f : Pins → Pins) : (s.onPins f).pending = s.pending := rfl
@[simp] theorem State.onPins_regs (s : State) (f : Pins → Pins) : (s.onPins f).regs = s.regs := rfl
@[simp] theorem State.onPins_shadow (s : State) (f : Pins → Pins) : (s.onPins f).shadow = s.shadow := rfl
@[simp] theorem State.onPins_staged (s : State) (f : Pins → Pins) : (s.onPins f).staged = s.staged := rfl
@[simp] theorem State.onPins_snap (s : State) (f : Pins → Pins) : (s.onPins f).snap = s.snap := rfl
@[simp] theorem State.onPins_snapSeq (s : State) (f : Pins → Pins) : (s.onPins f).snapSeq = s.snapSeq := rfl
@[simp] theorem State.onPins_frozen (s : State) (f : Pins → Pins) : (s.onPins f).frozen = s.frozen := rfl
@[simp] theorem State.onPins_heldLow (s : State) (f : Pins → Pins) : (s.onPins f).heldLow = s.heldLow := rfl
@[simp] theorem State.onPins_hiSnap (s : State) (f : Pins → Pins) : (s.onPins f).hiSnap = s.hiSnap := rfl
@[simp] theorem State.onPins_posted (s : State) (f : Pins → Pins) : (s.onPins f).posted = s.posted := rfl
@[simp] theorem State.onPins_now (s : State) (f : Pins → Pins) : (s.onPins f).now = s.now := rfl
@[simp] theorem State.onPins_drawn (s : State) (f : Pins → Pins) : (s.onPins f).drawn = s.drawn := rfl
@[simp] theorem State.onPins_link (s : State) (f : Pins → Pins) : (s.onPins f).link = s.link := rfl
@[simp] theorem State.onPins_clk (s : State) (f : Pins → Pins) : (s.onPins f).clk = s.clk := rfl
@[simp] theorem State.onPins_skeins (s : State) (f : Pins → Pins) : (s.onPins f).skeins = s.skeins := rfl
@[simp] theorem State.onPins_seqs (s : State) (f : Pins → Pins) : (s.onPins f).seqs = s.seqs := rfl
@[simp] theorem State.onPins_pins (s : State) (f : Pins → Pins) : (s.onPins f).pins = f s.pins := rfl
@[simp] theorem State.onPins_rcd (s : State) (f : Pins → Pins) : (s.onPins f).rcd = s.rcd := rfl
@[simp] theorem State.onPins_hbm (s : State) (f : Pins → Pins) : (s.onPins f).hbm = s.hbm := rfl
@[simp] theorem State.onPins_grt (s : State) (f : Pins → Pins) : (s.onPins f).grt = s.grt := rfl
@[simp] theorem State.onPins_dma (s : State) (f : Pins → Pins) : (s.onPins f).dma = s.dma := rfl
@[simp] theorem State.onPins_dmaLast (s : State) (f : Pins → Pins) : (s.onPins f).dmaLast = s.dmaLast := rfl
@[simp] theorem State.onPins_flw (s : State) (f : Pins → Pins) : (s.onPins f).flw = s.flw := rfl
@[simp] theorem State.onPins_pwr (s : State) (f : Pins → Pins) : (s.onPins f).pwr = s.pwr := rfl
@[simp] theorem State.onPins_flt (s : State) (f : Pins → Pins) : (s.onPins f).flt = s.flt := rfl
@[simp] theorem State.onPins_mbx (s : State) (f : Pins → Pins) : (s.onPins f).mbx = s.mbx := rfl
@[simp] theorem State.onPins_twn (s : State) (f : Pins → Pins) : (s.onPins f).twn = s.twn := rfl
@[simp] theorem State.onPins_svc (s : State) (f : Pins → Pins) : (s.onPins f).svc = s.svc := rfl
@[simp] theorem State.onPins_get (s : State) (f : Pins → Pins) (g : Fld) : State.get (s.onPins f) g = s.get g := rfl
@[simp] theorem State.onPins_is (s : State) (f : Pins → Pins) (g : Fld) : State.is (s.onPins f) g = s.is g := rfl
@[simp] theorem State.onPins_skein (s : State) (f : Pins → Pins) (i : Nat) : State.skein (s.onPins f) i = s.skein i := rfl
@[simp] theorem State.onPins_seq (s : State) (f : Pins → Pins) (i : Nat) : State.seq (s.onPins f) i = s.seq i := rfl

/-! #### `State.onRcd` -/

@[simp] theorem State.onRcd_pending (s : State) (f : Record → Record) : (s.onRcd f).pending = s.pending := rfl
@[simp] theorem State.onRcd_regs (s : State) (f : Record → Record) : (s.onRcd f).regs = s.regs := rfl
@[simp] theorem State.onRcd_shadow (s : State) (f : Record → Record) : (s.onRcd f).shadow = s.shadow := rfl
@[simp] theorem State.onRcd_staged (s : State) (f : Record → Record) : (s.onRcd f).staged = s.staged := rfl
@[simp] theorem State.onRcd_snap (s : State) (f : Record → Record) : (s.onRcd f).snap = s.snap := rfl
@[simp] theorem State.onRcd_snapSeq (s : State) (f : Record → Record) : (s.onRcd f).snapSeq = s.snapSeq := rfl
@[simp] theorem State.onRcd_frozen (s : State) (f : Record → Record) : (s.onRcd f).frozen = s.frozen := rfl
@[simp] theorem State.onRcd_heldLow (s : State) (f : Record → Record) : (s.onRcd f).heldLow = s.heldLow := rfl
@[simp] theorem State.onRcd_hiSnap (s : State) (f : Record → Record) : (s.onRcd f).hiSnap = s.hiSnap := rfl
@[simp] theorem State.onRcd_posted (s : State) (f : Record → Record) : (s.onRcd f).posted = s.posted := rfl
@[simp] theorem State.onRcd_now (s : State) (f : Record → Record) : (s.onRcd f).now = s.now := rfl
@[simp] theorem State.onRcd_drawn (s : State) (f : Record → Record) : (s.onRcd f).drawn = s.drawn := rfl
@[simp] theorem State.onRcd_link (s : State) (f : Record → Record) : (s.onRcd f).link = s.link := rfl
@[simp] theorem State.onRcd_clk (s : State) (f : Record → Record) : (s.onRcd f).clk = s.clk := rfl
@[simp] theorem State.onRcd_skeins (s : State) (f : Record → Record) : (s.onRcd f).skeins = s.skeins := rfl
@[simp] theorem State.onRcd_seqs (s : State) (f : Record → Record) : (s.onRcd f).seqs = s.seqs := rfl
@[simp] theorem State.onRcd_pins (s : State) (f : Record → Record) : (s.onRcd f).pins = s.pins := rfl
@[simp] theorem State.onRcd_rcd (s : State) (f : Record → Record) : (s.onRcd f).rcd = f s.rcd := rfl
@[simp] theorem State.onRcd_hbm (s : State) (f : Record → Record) : (s.onRcd f).hbm = s.hbm := rfl
@[simp] theorem State.onRcd_grt (s : State) (f : Record → Record) : (s.onRcd f).grt = s.grt := rfl
@[simp] theorem State.onRcd_dma (s : State) (f : Record → Record) : (s.onRcd f).dma = s.dma := rfl
@[simp] theorem State.onRcd_dmaLast (s : State) (f : Record → Record) : (s.onRcd f).dmaLast = s.dmaLast := rfl
@[simp] theorem State.onRcd_flw (s : State) (f : Record → Record) : (s.onRcd f).flw = s.flw := rfl
@[simp] theorem State.onRcd_pwr (s : State) (f : Record → Record) : (s.onRcd f).pwr = s.pwr := rfl
@[simp] theorem State.onRcd_flt (s : State) (f : Record → Record) : (s.onRcd f).flt = s.flt := rfl
@[simp] theorem State.onRcd_mbx (s : State) (f : Record → Record) : (s.onRcd f).mbx = s.mbx := rfl
@[simp] theorem State.onRcd_twn (s : State) (f : Record → Record) : (s.onRcd f).twn = s.twn := rfl
@[simp] theorem State.onRcd_svc (s : State) (f : Record → Record) : (s.onRcd f).svc = s.svc := rfl
@[simp] theorem State.onRcd_get (s : State) (f : Record → Record) (g : Fld) : State.get (s.onRcd f) g = s.get g := rfl
@[simp] theorem State.onRcd_is (s : State) (f : Record → Record) (g : Fld) : State.is (s.onRcd f) g = s.is g := rfl
@[simp] theorem State.onRcd_skein (s : State) (f : Record → Record) (i : Nat) : State.skein (s.onRcd f) i = s.skein i := rfl
@[simp] theorem State.onRcd_seq (s : State) (f : Record → Record) (i : Nat) : State.seq (s.onRcd f) i = s.seq i := rfl

/-! #### `State.onHbm` -/

@[simp] theorem State.onHbm_pending (s : State) (f : Hbm → Hbm) : (s.onHbm f).pending = s.pending := rfl
@[simp] theorem State.onHbm_regs (s : State) (f : Hbm → Hbm) : (s.onHbm f).regs = s.regs := rfl
@[simp] theorem State.onHbm_shadow (s : State) (f : Hbm → Hbm) : (s.onHbm f).shadow = s.shadow := rfl
@[simp] theorem State.onHbm_staged (s : State) (f : Hbm → Hbm) : (s.onHbm f).staged = s.staged := rfl
@[simp] theorem State.onHbm_snap (s : State) (f : Hbm → Hbm) : (s.onHbm f).snap = s.snap := rfl
@[simp] theorem State.onHbm_snapSeq (s : State) (f : Hbm → Hbm) : (s.onHbm f).snapSeq = s.snapSeq := rfl
@[simp] theorem State.onHbm_frozen (s : State) (f : Hbm → Hbm) : (s.onHbm f).frozen = s.frozen := rfl
@[simp] theorem State.onHbm_heldLow (s : State) (f : Hbm → Hbm) : (s.onHbm f).heldLow = s.heldLow := rfl
@[simp] theorem State.onHbm_hiSnap (s : State) (f : Hbm → Hbm) : (s.onHbm f).hiSnap = s.hiSnap := rfl
@[simp] theorem State.onHbm_posted (s : State) (f : Hbm → Hbm) : (s.onHbm f).posted = s.posted := rfl
@[simp] theorem State.onHbm_now (s : State) (f : Hbm → Hbm) : (s.onHbm f).now = s.now := rfl
@[simp] theorem State.onHbm_drawn (s : State) (f : Hbm → Hbm) : (s.onHbm f).drawn = s.drawn := rfl
@[simp] theorem State.onHbm_link (s : State) (f : Hbm → Hbm) : (s.onHbm f).link = s.link := rfl
@[simp] theorem State.onHbm_clk (s : State) (f : Hbm → Hbm) : (s.onHbm f).clk = s.clk := rfl
@[simp] theorem State.onHbm_skeins (s : State) (f : Hbm → Hbm) : (s.onHbm f).skeins = s.skeins := rfl
@[simp] theorem State.onHbm_seqs (s : State) (f : Hbm → Hbm) : (s.onHbm f).seqs = s.seqs := rfl
@[simp] theorem State.onHbm_pins (s : State) (f : Hbm → Hbm) : (s.onHbm f).pins = s.pins := rfl
@[simp] theorem State.onHbm_rcd (s : State) (f : Hbm → Hbm) : (s.onHbm f).rcd = s.rcd := rfl
@[simp] theorem State.onHbm_hbm (s : State) (f : Hbm → Hbm) : (s.onHbm f).hbm = f s.hbm := rfl
@[simp] theorem State.onHbm_grt (s : State) (f : Hbm → Hbm) : (s.onHbm f).grt = s.grt := rfl
@[simp] theorem State.onHbm_dma (s : State) (f : Hbm → Hbm) : (s.onHbm f).dma = s.dma := rfl
@[simp] theorem State.onHbm_dmaLast (s : State) (f : Hbm → Hbm) : (s.onHbm f).dmaLast = s.dmaLast := rfl
@[simp] theorem State.onHbm_flw (s : State) (f : Hbm → Hbm) : (s.onHbm f).flw = s.flw := rfl
@[simp] theorem State.onHbm_pwr (s : State) (f : Hbm → Hbm) : (s.onHbm f).pwr = s.pwr := rfl
@[simp] theorem State.onHbm_flt (s : State) (f : Hbm → Hbm) : (s.onHbm f).flt = s.flt := rfl
@[simp] theorem State.onHbm_mbx (s : State) (f : Hbm → Hbm) : (s.onHbm f).mbx = s.mbx := rfl
@[simp] theorem State.onHbm_twn (s : State) (f : Hbm → Hbm) : (s.onHbm f).twn = s.twn := rfl
@[simp] theorem State.onHbm_svc (s : State) (f : Hbm → Hbm) : (s.onHbm f).svc = s.svc := rfl
@[simp] theorem State.onHbm_get (s : State) (f : Hbm → Hbm) (g : Fld) : State.get (s.onHbm f) g = s.get g := rfl
@[simp] theorem State.onHbm_is (s : State) (f : Hbm → Hbm) (g : Fld) : State.is (s.onHbm f) g = s.is g := rfl
@[simp] theorem State.onHbm_skein (s : State) (f : Hbm → Hbm) (i : Nat) : State.skein (s.onHbm f) i = s.skein i := rfl
@[simp] theorem State.onHbm_seq (s : State) (f : Hbm → Hbm) (i : Nat) : State.seq (s.onHbm f) i = s.seq i := rfl

/-! #### `State.onGrt` -/

@[simp] theorem State.onGrt_pending (s : State) (f : Grottos → Grottos) : (s.onGrt f).pending = s.pending := rfl
@[simp] theorem State.onGrt_regs (s : State) (f : Grottos → Grottos) : (s.onGrt f).regs = s.regs := rfl
@[simp] theorem State.onGrt_shadow (s : State) (f : Grottos → Grottos) : (s.onGrt f).shadow = s.shadow := rfl
@[simp] theorem State.onGrt_staged (s : State) (f : Grottos → Grottos) : (s.onGrt f).staged = s.staged := rfl
@[simp] theorem State.onGrt_snap (s : State) (f : Grottos → Grottos) : (s.onGrt f).snap = s.snap := rfl
@[simp] theorem State.onGrt_snapSeq (s : State) (f : Grottos → Grottos) : (s.onGrt f).snapSeq = s.snapSeq := rfl
@[simp] theorem State.onGrt_frozen (s : State) (f : Grottos → Grottos) : (s.onGrt f).frozen = s.frozen := rfl
@[simp] theorem State.onGrt_heldLow (s : State) (f : Grottos → Grottos) : (s.onGrt f).heldLow = s.heldLow := rfl
@[simp] theorem State.onGrt_hiSnap (s : State) (f : Grottos → Grottos) : (s.onGrt f).hiSnap = s.hiSnap := rfl
@[simp] theorem State.onGrt_posted (s : State) (f : Grottos → Grottos) : (s.onGrt f).posted = s.posted := rfl
@[simp] theorem State.onGrt_now (s : State) (f : Grottos → Grottos) : (s.onGrt f).now = s.now := rfl
@[simp] theorem State.onGrt_drawn (s : State) (f : Grottos → Grottos) : (s.onGrt f).drawn = s.drawn := rfl
@[simp] theorem State.onGrt_link (s : State) (f : Grottos → Grottos) : (s.onGrt f).link = s.link := rfl
@[simp] theorem State.onGrt_clk (s : State) (f : Grottos → Grottos) : (s.onGrt f).clk = s.clk := rfl
@[simp] theorem State.onGrt_skeins (s : State) (f : Grottos → Grottos) : (s.onGrt f).skeins = s.skeins := rfl
@[simp] theorem State.onGrt_seqs (s : State) (f : Grottos → Grottos) : (s.onGrt f).seqs = s.seqs := rfl
@[simp] theorem State.onGrt_pins (s : State) (f : Grottos → Grottos) : (s.onGrt f).pins = s.pins := rfl
@[simp] theorem State.onGrt_rcd (s : State) (f : Grottos → Grottos) : (s.onGrt f).rcd = s.rcd := rfl
@[simp] theorem State.onGrt_hbm (s : State) (f : Grottos → Grottos) : (s.onGrt f).hbm = s.hbm := rfl
@[simp] theorem State.onGrt_grt (s : State) (f : Grottos → Grottos) : (s.onGrt f).grt = f s.grt := rfl
@[simp] theorem State.onGrt_dma (s : State) (f : Grottos → Grottos) : (s.onGrt f).dma = s.dma := rfl
@[simp] theorem State.onGrt_dmaLast (s : State) (f : Grottos → Grottos) : (s.onGrt f).dmaLast = s.dmaLast := rfl
@[simp] theorem State.onGrt_flw (s : State) (f : Grottos → Grottos) : (s.onGrt f).flw = s.flw := rfl
@[simp] theorem State.onGrt_pwr (s : State) (f : Grottos → Grottos) : (s.onGrt f).pwr = s.pwr := rfl
@[simp] theorem State.onGrt_flt (s : State) (f : Grottos → Grottos) : (s.onGrt f).flt = s.flt := rfl
@[simp] theorem State.onGrt_mbx (s : State) (f : Grottos → Grottos) : (s.onGrt f).mbx = s.mbx := rfl
@[simp] theorem State.onGrt_twn (s : State) (f : Grottos → Grottos) : (s.onGrt f).twn = s.twn := rfl
@[simp] theorem State.onGrt_svc (s : State) (f : Grottos → Grottos) : (s.onGrt f).svc = s.svc := rfl
@[simp] theorem State.onGrt_get (s : State) (f : Grottos → Grottos) (g : Fld) : State.get (s.onGrt f) g = s.get g := rfl
@[simp] theorem State.onGrt_is (s : State) (f : Grottos → Grottos) (g : Fld) : State.is (s.onGrt f) g = s.is g := rfl
@[simp] theorem State.onGrt_skein (s : State) (f : Grottos → Grottos) (i : Nat) : State.skein (s.onGrt f) i = s.skein i := rfl
@[simp] theorem State.onGrt_seq (s : State) (f : Grottos → Grottos) (i : Nat) : State.seq (s.onGrt f) i = s.seq i := rfl

/-! #### `State.onPwr` -/

@[simp] theorem State.onPwr_pending (s : State) (f : Power → Power) : (s.onPwr f).pending = s.pending := rfl
@[simp] theorem State.onPwr_regs (s : State) (f : Power → Power) : (s.onPwr f).regs = s.regs := rfl
@[simp] theorem State.onPwr_shadow (s : State) (f : Power → Power) : (s.onPwr f).shadow = s.shadow := rfl
@[simp] theorem State.onPwr_staged (s : State) (f : Power → Power) : (s.onPwr f).staged = s.staged := rfl
@[simp] theorem State.onPwr_snap (s : State) (f : Power → Power) : (s.onPwr f).snap = s.snap := rfl
@[simp] theorem State.onPwr_snapSeq (s : State) (f : Power → Power) : (s.onPwr f).snapSeq = s.snapSeq := rfl
@[simp] theorem State.onPwr_frozen (s : State) (f : Power → Power) : (s.onPwr f).frozen = s.frozen := rfl
@[simp] theorem State.onPwr_heldLow (s : State) (f : Power → Power) : (s.onPwr f).heldLow = s.heldLow := rfl
@[simp] theorem State.onPwr_hiSnap (s : State) (f : Power → Power) : (s.onPwr f).hiSnap = s.hiSnap := rfl
@[simp] theorem State.onPwr_posted (s : State) (f : Power → Power) : (s.onPwr f).posted = s.posted := rfl
@[simp] theorem State.onPwr_now (s : State) (f : Power → Power) : (s.onPwr f).now = s.now := rfl
@[simp] theorem State.onPwr_drawn (s : State) (f : Power → Power) : (s.onPwr f).drawn = s.drawn := rfl
@[simp] theorem State.onPwr_link (s : State) (f : Power → Power) : (s.onPwr f).link = s.link := rfl
@[simp] theorem State.onPwr_clk (s : State) (f : Power → Power) : (s.onPwr f).clk = s.clk := rfl
@[simp] theorem State.onPwr_skeins (s : State) (f : Power → Power) : (s.onPwr f).skeins = s.skeins := rfl
@[simp] theorem State.onPwr_seqs (s : State) (f : Power → Power) : (s.onPwr f).seqs = s.seqs := rfl
@[simp] theorem State.onPwr_pins (s : State) (f : Power → Power) : (s.onPwr f).pins = s.pins := rfl
@[simp] theorem State.onPwr_rcd (s : State) (f : Power → Power) : (s.onPwr f).rcd = s.rcd := rfl
@[simp] theorem State.onPwr_hbm (s : State) (f : Power → Power) : (s.onPwr f).hbm = s.hbm := rfl
@[simp] theorem State.onPwr_grt (s : State) (f : Power → Power) : (s.onPwr f).grt = s.grt := rfl
@[simp] theorem State.onPwr_dma (s : State) (f : Power → Power) : (s.onPwr f).dma = s.dma := rfl
@[simp] theorem State.onPwr_dmaLast (s : State) (f : Power → Power) : (s.onPwr f).dmaLast = s.dmaLast := rfl
@[simp] theorem State.onPwr_flw (s : State) (f : Power → Power) : (s.onPwr f).flw = s.flw := rfl
@[simp] theorem State.onPwr_pwr (s : State) (f : Power → Power) : (s.onPwr f).pwr = f s.pwr := rfl
@[simp] theorem State.onPwr_flt (s : State) (f : Power → Power) : (s.onPwr f).flt = s.flt := rfl
@[simp] theorem State.onPwr_mbx (s : State) (f : Power → Power) : (s.onPwr f).mbx = s.mbx := rfl
@[simp] theorem State.onPwr_twn (s : State) (f : Power → Power) : (s.onPwr f).twn = s.twn := rfl
@[simp] theorem State.onPwr_svc (s : State) (f : Power → Power) : (s.onPwr f).svc = s.svc := rfl
@[simp] theorem State.onPwr_get (s : State) (f : Power → Power) (g : Fld) : State.get (s.onPwr f) g = s.get g := rfl
@[simp] theorem State.onPwr_is (s : State) (f : Power → Power) (g : Fld) : State.is (s.onPwr f) g = s.is g := rfl
@[simp] theorem State.onPwr_skein (s : State) (f : Power → Power) (i : Nat) : State.skein (s.onPwr f) i = s.skein i := rfl
@[simp] theorem State.onPwr_seq (s : State) (f : Power → Power) (i : Nat) : State.seq (s.onPwr f) i = s.seq i := rfl

/-! #### `State.onFlt` -/

@[simp] theorem State.onFlt_pending (s : State) (f : FaultMgr → FaultMgr) : (s.onFlt f).pending = s.pending := rfl
@[simp] theorem State.onFlt_regs (s : State) (f : FaultMgr → FaultMgr) : (s.onFlt f).regs = s.regs := rfl
@[simp] theorem State.onFlt_shadow (s : State) (f : FaultMgr → FaultMgr) : (s.onFlt f).shadow = s.shadow := rfl
@[simp] theorem State.onFlt_staged (s : State) (f : FaultMgr → FaultMgr) : (s.onFlt f).staged = s.staged := rfl
@[simp] theorem State.onFlt_snap (s : State) (f : FaultMgr → FaultMgr) : (s.onFlt f).snap = s.snap := rfl
@[simp] theorem State.onFlt_snapSeq (s : State) (f : FaultMgr → FaultMgr) : (s.onFlt f).snapSeq = s.snapSeq := rfl
@[simp] theorem State.onFlt_frozen (s : State) (f : FaultMgr → FaultMgr) : (s.onFlt f).frozen = s.frozen := rfl
@[simp] theorem State.onFlt_heldLow (s : State) (f : FaultMgr → FaultMgr) : (s.onFlt f).heldLow = s.heldLow := rfl
@[simp] theorem State.onFlt_hiSnap (s : State) (f : FaultMgr → FaultMgr) : (s.onFlt f).hiSnap = s.hiSnap := rfl
@[simp] theorem State.onFlt_posted (s : State) (f : FaultMgr → FaultMgr) : (s.onFlt f).posted = s.posted := rfl
@[simp] theorem State.onFlt_now (s : State) (f : FaultMgr → FaultMgr) : (s.onFlt f).now = s.now := rfl
@[simp] theorem State.onFlt_drawn (s : State) (f : FaultMgr → FaultMgr) : (s.onFlt f).drawn = s.drawn := rfl
@[simp] theorem State.onFlt_link (s : State) (f : FaultMgr → FaultMgr) : (s.onFlt f).link = s.link := rfl
@[simp] theorem State.onFlt_clk (s : State) (f : FaultMgr → FaultMgr) : (s.onFlt f).clk = s.clk := rfl
@[simp] theorem State.onFlt_skeins (s : State) (f : FaultMgr → FaultMgr) : (s.onFlt f).skeins = s.skeins := rfl
@[simp] theorem State.onFlt_seqs (s : State) (f : FaultMgr → FaultMgr) : (s.onFlt f).seqs = s.seqs := rfl
@[simp] theorem State.onFlt_pins (s : State) (f : FaultMgr → FaultMgr) : (s.onFlt f).pins = s.pins := rfl
@[simp] theorem State.onFlt_rcd (s : State) (f : FaultMgr → FaultMgr) : (s.onFlt f).rcd = s.rcd := rfl
@[simp] theorem State.onFlt_hbm (s : State) (f : FaultMgr → FaultMgr) : (s.onFlt f).hbm = s.hbm := rfl
@[simp] theorem State.onFlt_grt (s : State) (f : FaultMgr → FaultMgr) : (s.onFlt f).grt = s.grt := rfl
@[simp] theorem State.onFlt_dma (s : State) (f : FaultMgr → FaultMgr) : (s.onFlt f).dma = s.dma := rfl
@[simp] theorem State.onFlt_dmaLast (s : State) (f : FaultMgr → FaultMgr) : (s.onFlt f).dmaLast = s.dmaLast := rfl
@[simp] theorem State.onFlt_flw (s : State) (f : FaultMgr → FaultMgr) : (s.onFlt f).flw = s.flw := rfl
@[simp] theorem State.onFlt_pwr (s : State) (f : FaultMgr → FaultMgr) : (s.onFlt f).pwr = s.pwr := rfl
@[simp] theorem State.onFlt_flt (s : State) (f : FaultMgr → FaultMgr) : (s.onFlt f).flt = f s.flt := rfl
@[simp] theorem State.onFlt_mbx (s : State) (f : FaultMgr → FaultMgr) : (s.onFlt f).mbx = s.mbx := rfl
@[simp] theorem State.onFlt_twn (s : State) (f : FaultMgr → FaultMgr) : (s.onFlt f).twn = s.twn := rfl
@[simp] theorem State.onFlt_svc (s : State) (f : FaultMgr → FaultMgr) : (s.onFlt f).svc = s.svc := rfl
@[simp] theorem State.onFlt_get (s : State) (f : FaultMgr → FaultMgr) (g : Fld) : State.get (s.onFlt f) g = s.get g := rfl
@[simp] theorem State.onFlt_is (s : State) (f : FaultMgr → FaultMgr) (g : Fld) : State.is (s.onFlt f) g = s.is g := rfl
@[simp] theorem State.onFlt_skein (s : State) (f : FaultMgr → FaultMgr) (i : Nat) : State.skein (s.onFlt f) i = s.skein i := rfl
@[simp] theorem State.onFlt_seq (s : State) (f : FaultMgr → FaultMgr) (i : Nat) : State.seq (s.onFlt f) i = s.seq i := rfl

/-! #### `State.onMbx` -/

@[simp] theorem State.onMbx_pending (s : State) (f : Mailbox → Mailbox) : (s.onMbx f).pending = s.pending := rfl
@[simp] theorem State.onMbx_regs (s : State) (f : Mailbox → Mailbox) : (s.onMbx f).regs = s.regs := rfl
@[simp] theorem State.onMbx_shadow (s : State) (f : Mailbox → Mailbox) : (s.onMbx f).shadow = s.shadow := rfl
@[simp] theorem State.onMbx_staged (s : State) (f : Mailbox → Mailbox) : (s.onMbx f).staged = s.staged := rfl
@[simp] theorem State.onMbx_snap (s : State) (f : Mailbox → Mailbox) : (s.onMbx f).snap = s.snap := rfl
@[simp] theorem State.onMbx_snapSeq (s : State) (f : Mailbox → Mailbox) : (s.onMbx f).snapSeq = s.snapSeq := rfl
@[simp] theorem State.onMbx_frozen (s : State) (f : Mailbox → Mailbox) : (s.onMbx f).frozen = s.frozen := rfl
@[simp] theorem State.onMbx_heldLow (s : State) (f : Mailbox → Mailbox) : (s.onMbx f).heldLow = s.heldLow := rfl
@[simp] theorem State.onMbx_hiSnap (s : State) (f : Mailbox → Mailbox) : (s.onMbx f).hiSnap = s.hiSnap := rfl
@[simp] theorem State.onMbx_posted (s : State) (f : Mailbox → Mailbox) : (s.onMbx f).posted = s.posted := rfl
@[simp] theorem State.onMbx_now (s : State) (f : Mailbox → Mailbox) : (s.onMbx f).now = s.now := rfl
@[simp] theorem State.onMbx_drawn (s : State) (f : Mailbox → Mailbox) : (s.onMbx f).drawn = s.drawn := rfl
@[simp] theorem State.onMbx_link (s : State) (f : Mailbox → Mailbox) : (s.onMbx f).link = s.link := rfl
@[simp] theorem State.onMbx_clk (s : State) (f : Mailbox → Mailbox) : (s.onMbx f).clk = s.clk := rfl
@[simp] theorem State.onMbx_skeins (s : State) (f : Mailbox → Mailbox) : (s.onMbx f).skeins = s.skeins := rfl
@[simp] theorem State.onMbx_seqs (s : State) (f : Mailbox → Mailbox) : (s.onMbx f).seqs = s.seqs := rfl
@[simp] theorem State.onMbx_pins (s : State) (f : Mailbox → Mailbox) : (s.onMbx f).pins = s.pins := rfl
@[simp] theorem State.onMbx_rcd (s : State) (f : Mailbox → Mailbox) : (s.onMbx f).rcd = s.rcd := rfl
@[simp] theorem State.onMbx_hbm (s : State) (f : Mailbox → Mailbox) : (s.onMbx f).hbm = s.hbm := rfl
@[simp] theorem State.onMbx_grt (s : State) (f : Mailbox → Mailbox) : (s.onMbx f).grt = s.grt := rfl
@[simp] theorem State.onMbx_dma (s : State) (f : Mailbox → Mailbox) : (s.onMbx f).dma = s.dma := rfl
@[simp] theorem State.onMbx_dmaLast (s : State) (f : Mailbox → Mailbox) : (s.onMbx f).dmaLast = s.dmaLast := rfl
@[simp] theorem State.onMbx_flw (s : State) (f : Mailbox → Mailbox) : (s.onMbx f).flw = s.flw := rfl
@[simp] theorem State.onMbx_pwr (s : State) (f : Mailbox → Mailbox) : (s.onMbx f).pwr = s.pwr := rfl
@[simp] theorem State.onMbx_flt (s : State) (f : Mailbox → Mailbox) : (s.onMbx f).flt = s.flt := rfl
@[simp] theorem State.onMbx_mbx (s : State) (f : Mailbox → Mailbox) : (s.onMbx f).mbx = f s.mbx := rfl
@[simp] theorem State.onMbx_twn (s : State) (f : Mailbox → Mailbox) : (s.onMbx f).twn = s.twn := rfl
@[simp] theorem State.onMbx_svc (s : State) (f : Mailbox → Mailbox) : (s.onMbx f).svc = s.svc := rfl
@[simp] theorem State.onMbx_get (s : State) (f : Mailbox → Mailbox) (g : Fld) : State.get (s.onMbx f) g = s.get g := rfl
@[simp] theorem State.onMbx_is (s : State) (f : Mailbox → Mailbox) (g : Fld) : State.is (s.onMbx f) g = s.is g := rfl
@[simp] theorem State.onMbx_skein (s : State) (f : Mailbox → Mailbox) (i : Nat) : State.skein (s.onMbx f) i = s.skein i := rfl
@[simp] theorem State.onMbx_seq (s : State) (f : Mailbox → Mailbox) (i : Nat) : State.seq (s.onMbx f) i = s.seq i := rfl

/-! #### `State.onSvc` -/

@[simp] theorem State.onSvc_pending (s : State) (f : Service → Service) : (s.onSvc f).pending = s.pending := rfl
@[simp] theorem State.onSvc_regs (s : State) (f : Service → Service) : (s.onSvc f).regs = s.regs := rfl
@[simp] theorem State.onSvc_shadow (s : State) (f : Service → Service) : (s.onSvc f).shadow = s.shadow := rfl
@[simp] theorem State.onSvc_staged (s : State) (f : Service → Service) : (s.onSvc f).staged = s.staged := rfl
@[simp] theorem State.onSvc_snap (s : State) (f : Service → Service) : (s.onSvc f).snap = s.snap := rfl
@[simp] theorem State.onSvc_snapSeq (s : State) (f : Service → Service) : (s.onSvc f).snapSeq = s.snapSeq := rfl
@[simp] theorem State.onSvc_frozen (s : State) (f : Service → Service) : (s.onSvc f).frozen = s.frozen := rfl
@[simp] theorem State.onSvc_heldLow (s : State) (f : Service → Service) : (s.onSvc f).heldLow = s.heldLow := rfl
@[simp] theorem State.onSvc_hiSnap (s : State) (f : Service → Service) : (s.onSvc f).hiSnap = s.hiSnap := rfl
@[simp] theorem State.onSvc_posted (s : State) (f : Service → Service) : (s.onSvc f).posted = s.posted := rfl
@[simp] theorem State.onSvc_now (s : State) (f : Service → Service) : (s.onSvc f).now = s.now := rfl
@[simp] theorem State.onSvc_drawn (s : State) (f : Service → Service) : (s.onSvc f).drawn = s.drawn := rfl
@[simp] theorem State.onSvc_link (s : State) (f : Service → Service) : (s.onSvc f).link = s.link := rfl
@[simp] theorem State.onSvc_clk (s : State) (f : Service → Service) : (s.onSvc f).clk = s.clk := rfl
@[simp] theorem State.onSvc_skeins (s : State) (f : Service → Service) : (s.onSvc f).skeins = s.skeins := rfl
@[simp] theorem State.onSvc_seqs (s : State) (f : Service → Service) : (s.onSvc f).seqs = s.seqs := rfl
@[simp] theorem State.onSvc_pins (s : State) (f : Service → Service) : (s.onSvc f).pins = s.pins := rfl
@[simp] theorem State.onSvc_rcd (s : State) (f : Service → Service) : (s.onSvc f).rcd = s.rcd := rfl
@[simp] theorem State.onSvc_hbm (s : State) (f : Service → Service) : (s.onSvc f).hbm = s.hbm := rfl
@[simp] theorem State.onSvc_grt (s : State) (f : Service → Service) : (s.onSvc f).grt = s.grt := rfl
@[simp] theorem State.onSvc_dma (s : State) (f : Service → Service) : (s.onSvc f).dma = s.dma := rfl
@[simp] theorem State.onSvc_dmaLast (s : State) (f : Service → Service) : (s.onSvc f).dmaLast = s.dmaLast := rfl
@[simp] theorem State.onSvc_flw (s : State) (f : Service → Service) : (s.onSvc f).flw = s.flw := rfl
@[simp] theorem State.onSvc_pwr (s : State) (f : Service → Service) : (s.onSvc f).pwr = s.pwr := rfl
@[simp] theorem State.onSvc_flt (s : State) (f : Service → Service) : (s.onSvc f).flt = s.flt := rfl
@[simp] theorem State.onSvc_mbx (s : State) (f : Service → Service) : (s.onSvc f).mbx = s.mbx := rfl
@[simp] theorem State.onSvc_twn (s : State) (f : Service → Service) : (s.onSvc f).twn = s.twn := rfl
@[simp] theorem State.onSvc_svc (s : State) (f : Service → Service) : (s.onSvc f).svc = f s.svc := rfl
@[simp] theorem State.onSvc_get (s : State) (f : Service → Service) (g : Fld) : State.get (s.onSvc f) g = s.get g := rfl
@[simp] theorem State.onSvc_is (s : State) (f : Service → Service) (g : Fld) : State.is (s.onSvc f) g = s.is g := rfl
@[simp] theorem State.onSvc_skein (s : State) (f : Service → Service) (i : Nat) : State.skein (s.onSvc f) i = s.skein i := rfl
@[simp] theorem State.onSvc_seq (s : State) (f : Service → Service) (i : Nat) : State.seq (s.onSvc f) i = s.seq i := rfl

/-! #### `State.onTwn` -/

@[simp] theorem State.onTwn_pending (s : State) (f : Twin → Twin) : (s.onTwn f).pending = s.pending := rfl
@[simp] theorem State.onTwn_regs (s : State) (f : Twin → Twin) : (s.onTwn f).regs = s.regs := rfl
@[simp] theorem State.onTwn_shadow (s : State) (f : Twin → Twin) : (s.onTwn f).shadow = s.shadow := rfl
@[simp] theorem State.onTwn_staged (s : State) (f : Twin → Twin) : (s.onTwn f).staged = s.staged := rfl
@[simp] theorem State.onTwn_snap (s : State) (f : Twin → Twin) : (s.onTwn f).snap = s.snap := rfl
@[simp] theorem State.onTwn_snapSeq (s : State) (f : Twin → Twin) : (s.onTwn f).snapSeq = s.snapSeq := rfl
@[simp] theorem State.onTwn_frozen (s : State) (f : Twin → Twin) : (s.onTwn f).frozen = s.frozen := rfl
@[simp] theorem State.onTwn_heldLow (s : State) (f : Twin → Twin) : (s.onTwn f).heldLow = s.heldLow := rfl
@[simp] theorem State.onTwn_hiSnap (s : State) (f : Twin → Twin) : (s.onTwn f).hiSnap = s.hiSnap := rfl
@[simp] theorem State.onTwn_posted (s : State) (f : Twin → Twin) : (s.onTwn f).posted = s.posted := rfl
@[simp] theorem State.onTwn_now (s : State) (f : Twin → Twin) : (s.onTwn f).now = s.now := rfl
@[simp] theorem State.onTwn_drawn (s : State) (f : Twin → Twin) : (s.onTwn f).drawn = s.drawn := rfl
@[simp] theorem State.onTwn_link (s : State) (f : Twin → Twin) : (s.onTwn f).link = s.link := rfl
@[simp] theorem State.onTwn_clk (s : State) (f : Twin → Twin) : (s.onTwn f).clk = s.clk := rfl
@[simp] theorem State.onTwn_skeins (s : State) (f : Twin → Twin) : (s.onTwn f).skeins = s.skeins := rfl
@[simp] theorem State.onTwn_seqs (s : State) (f : Twin → Twin) : (s.onTwn f).seqs = s.seqs := rfl
@[simp] theorem State.onTwn_pins (s : State) (f : Twin → Twin) : (s.onTwn f).pins = s.pins := rfl
@[simp] theorem State.onTwn_rcd (s : State) (f : Twin → Twin) : (s.onTwn f).rcd = s.rcd := rfl
@[simp] theorem State.onTwn_hbm (s : State) (f : Twin → Twin) : (s.onTwn f).hbm = s.hbm := rfl
@[simp] theorem State.onTwn_grt (s : State) (f : Twin → Twin) : (s.onTwn f).grt = s.grt := rfl
@[simp] theorem State.onTwn_dma (s : State) (f : Twin → Twin) : (s.onTwn f).dma = s.dma := rfl
@[simp] theorem State.onTwn_dmaLast (s : State) (f : Twin → Twin) : (s.onTwn f).dmaLast = s.dmaLast := rfl
@[simp] theorem State.onTwn_flw (s : State) (f : Twin → Twin) : (s.onTwn f).flw = s.flw := rfl
@[simp] theorem State.onTwn_pwr (s : State) (f : Twin → Twin) : (s.onTwn f).pwr = s.pwr := rfl
@[simp] theorem State.onTwn_flt (s : State) (f : Twin → Twin) : (s.onTwn f).flt = s.flt := rfl
@[simp] theorem State.onTwn_mbx (s : State) (f : Twin → Twin) : (s.onTwn f).mbx = s.mbx := rfl
@[simp] theorem State.onTwn_twn (s : State) (f : Twin → Twin) : (s.onTwn f).twn = f s.twn := rfl
@[simp] theorem State.onTwn_svc (s : State) (f : Twin → Twin) : (s.onTwn f).svc = s.svc := rfl
@[simp] theorem State.onTwn_get (s : State) (f : Twin → Twin) (g : Fld) : State.get (s.onTwn f) g = s.get g := rfl
@[simp] theorem State.onTwn_is (s : State) (f : Twin → Twin) (g : Fld) : State.is (s.onTwn f) g = s.is g := rfl
@[simp] theorem State.onTwn_skein (s : State) (f : Twin → Twin) (i : Nat) : State.skein (s.onTwn f) i = s.skein i := rfl
@[simp] theorem State.onTwn_seq (s : State) (f : Twin → Twin) (i : Nat) : State.seq (s.onTwn f) i = s.seq i := rfl

/-! #### `State.onFlash` -/

@[simp] theorem State.onFlash_pending (s : State) (f : Flash → Flash) : (s.onFlash f).pending = s.pending := rfl
@[simp] theorem State.onFlash_regs (s : State) (f : Flash → Flash) : (s.onFlash f).regs = s.regs := rfl
@[simp] theorem State.onFlash_shadow (s : State) (f : Flash → Flash) : (s.onFlash f).shadow = s.shadow := rfl
@[simp] theorem State.onFlash_staged (s : State) (f : Flash → Flash) : (s.onFlash f).staged = s.staged := rfl
@[simp] theorem State.onFlash_snap (s : State) (f : Flash → Flash) : (s.onFlash f).snap = s.snap := rfl
@[simp] theorem State.onFlash_snapSeq (s : State) (f : Flash → Flash) : (s.onFlash f).snapSeq = s.snapSeq := rfl
@[simp] theorem State.onFlash_frozen (s : State) (f : Flash → Flash) : (s.onFlash f).frozen = s.frozen := rfl
@[simp] theorem State.onFlash_heldLow (s : State) (f : Flash → Flash) : (s.onFlash f).heldLow = s.heldLow := rfl
@[simp] theorem State.onFlash_hiSnap (s : State) (f : Flash → Flash) : (s.onFlash f).hiSnap = s.hiSnap := rfl
@[simp] theorem State.onFlash_posted (s : State) (f : Flash → Flash) : (s.onFlash f).posted = s.posted := rfl
@[simp] theorem State.onFlash_now (s : State) (f : Flash → Flash) : (s.onFlash f).now = s.now := rfl
@[simp] theorem State.onFlash_drawn (s : State) (f : Flash → Flash) : (s.onFlash f).drawn = s.drawn := rfl
@[simp] theorem State.onFlash_link (s : State) (f : Flash → Flash) : (s.onFlash f).link = s.link := rfl
@[simp] theorem State.onFlash_clk (s : State) (f : Flash → Flash) : (s.onFlash f).clk = s.clk := rfl
@[simp] theorem State.onFlash_skeins (s : State) (f : Flash → Flash) : (s.onFlash f).skeins = s.skeins := rfl
@[simp] theorem State.onFlash_seqs (s : State) (f : Flash → Flash) : (s.onFlash f).seqs = s.seqs := rfl
@[simp] theorem State.onFlash_pins (s : State) (f : Flash → Flash) : (s.onFlash f).pins = s.pins := rfl
@[simp] theorem State.onFlash_rcd (s : State) (f : Flash → Flash) : (s.onFlash f).rcd = s.rcd := rfl
@[simp] theorem State.onFlash_hbm (s : State) (f : Flash → Flash) : (s.onFlash f).hbm = s.hbm := rfl
@[simp] theorem State.onFlash_grt (s : State) (f : Flash → Flash) : (s.onFlash f).grt = s.grt := rfl
@[simp] theorem State.onFlash_dma (s : State) (f : Flash → Flash) : (s.onFlash f).dma = s.dma := rfl
@[simp] theorem State.onFlash_dmaLast (s : State) (f : Flash → Flash) : (s.onFlash f).dmaLast = s.dmaLast := rfl
@[simp] theorem State.onFlash_flw (s : State) (f : Flash → Flash) : (s.onFlash f).flw = s.flw := rfl
@[simp] theorem State.onFlash_pwr (s : State) (f : Flash → Flash) : (s.onFlash f).pwr = s.pwr := rfl
@[simp] theorem State.onFlash_flt (s : State) (f : Flash → Flash) : (s.onFlash f).flt = s.flt := rfl
@[simp] theorem State.onFlash_mbx (s : State) (f : Flash → Flash) : (s.onFlash f).mbx = s.mbx := rfl
@[simp] theorem State.onFlash_twn (s : State) (f : Flash → Flash) : (s.onFlash f).twn = s.twn := rfl
@[simp] theorem State.onFlash_get (s : State) (f : Flash → Flash) (g : Fld) : State.get (s.onFlash f) g = s.get g := rfl
@[simp] theorem State.onFlash_is (s : State) (f : Flash → Flash) (g : Fld) : State.is (s.onFlash f) g = s.is g := rfl
@[simp] theorem State.onFlash_skein (s : State) (f : Flash → Flash) (i : Nat) : State.skein (s.onFlash f) i = s.skein i := rfl
@[simp] theorem State.onFlash_seq (s : State) (f : Flash → Flash) (i : Nat) : State.seq (s.onFlash f) i = s.seq i := rfl

/-! #### `State.putSkein` -/

@[simp] theorem State.putSkein_pending (s : State) (n : Nat) (k : Skein) : (s.putSkein n k).pending = s.pending := rfl
@[simp] theorem State.putSkein_regs (s : State) (n : Nat) (k : Skein) : (s.putSkein n k).regs = s.regs := rfl
@[simp] theorem State.putSkein_shadow (s : State) (n : Nat) (k : Skein) : (s.putSkein n k).shadow = s.shadow := rfl
@[simp] theorem State.putSkein_staged (s : State) (n : Nat) (k : Skein) : (s.putSkein n k).staged = s.staged := rfl
@[simp] theorem State.putSkein_snap (s : State) (n : Nat) (k : Skein) : (s.putSkein n k).snap = s.snap := rfl
@[simp] theorem State.putSkein_snapSeq (s : State) (n : Nat) (k : Skein) : (s.putSkein n k).snapSeq = s.snapSeq := rfl
@[simp] theorem State.putSkein_frozen (s : State) (n : Nat) (k : Skein) : (s.putSkein n k).frozen = s.frozen := rfl
@[simp] theorem State.putSkein_heldLow (s : State) (n : Nat) (k : Skein) : (s.putSkein n k).heldLow = s.heldLow := rfl
@[simp] theorem State.putSkein_hiSnap (s : State) (n : Nat) (k : Skein) : (s.putSkein n k).hiSnap = s.hiSnap := rfl
@[simp] theorem State.putSkein_posted (s : State) (n : Nat) (k : Skein) : (s.putSkein n k).posted = s.posted := rfl
@[simp] theorem State.putSkein_now (s : State) (n : Nat) (k : Skein) : (s.putSkein n k).now = s.now := rfl
@[simp] theorem State.putSkein_drawn (s : State) (n : Nat) (k : Skein) : (s.putSkein n k).drawn = s.drawn := rfl
@[simp] theorem State.putSkein_link (s : State) (n : Nat) (k : Skein) : (s.putSkein n k).link = s.link := rfl
@[simp] theorem State.putSkein_clk (s : State) (n : Nat) (k : Skein) : (s.putSkein n k).clk = s.clk := rfl
@[simp] theorem State.putSkein_seqs (s : State) (n : Nat) (k : Skein) : (s.putSkein n k).seqs = s.seqs := rfl
@[simp] theorem State.putSkein_pins (s : State) (n : Nat) (k : Skein) : (s.putSkein n k).pins = s.pins := rfl
@[simp] theorem State.putSkein_rcd (s : State) (n : Nat) (k : Skein) : (s.putSkein n k).rcd = s.rcd := rfl
@[simp] theorem State.putSkein_hbm (s : State) (n : Nat) (k : Skein) : (s.putSkein n k).hbm = s.hbm := rfl
@[simp] theorem State.putSkein_grt (s : State) (n : Nat) (k : Skein) : (s.putSkein n k).grt = s.grt := rfl
@[simp] theorem State.putSkein_dma (s : State) (n : Nat) (k : Skein) : (s.putSkein n k).dma = s.dma := rfl
@[simp] theorem State.putSkein_dmaLast (s : State) (n : Nat) (k : Skein) : (s.putSkein n k).dmaLast = s.dmaLast := rfl
@[simp] theorem State.putSkein_flw (s : State) (n : Nat) (k : Skein) : (s.putSkein n k).flw = s.flw := rfl
@[simp] theorem State.putSkein_pwr (s : State) (n : Nat) (k : Skein) : (s.putSkein n k).pwr = s.pwr := rfl
@[simp] theorem State.putSkein_flt (s : State) (n : Nat) (k : Skein) : (s.putSkein n k).flt = s.flt := rfl
@[simp] theorem State.putSkein_mbx (s : State) (n : Nat) (k : Skein) : (s.putSkein n k).mbx = s.mbx := rfl
@[simp] theorem State.putSkein_twn (s : State) (n : Nat) (k : Skein) : (s.putSkein n k).twn = s.twn := rfl
@[simp] theorem State.putSkein_svc (s : State) (n : Nat) (k : Skein) : (s.putSkein n k).svc = s.svc := rfl
@[simp] theorem State.putSkein_get (s : State) (n : Nat) (k : Skein) (g : Fld) : State.get (s.putSkein n k) g = s.get g := rfl
@[simp] theorem State.putSkein_is (s : State) (n : Nat) (k : Skein) (g : Fld) : State.is (s.putSkein n k) g = s.is g := rfl
@[simp] theorem State.putSkein_seq (s : State) (n : Nat) (k : Skein) (i : Nat) : State.seq (s.putSkein n k) i = s.seq i := rfl

/-! #### `State.onSkein` -/

@[simp] theorem State.onSkein_pending (s : State) (n : Nat) (f : Skein → Skein) : (s.onSkein n f).pending = s.pending := rfl
@[simp] theorem State.onSkein_regs (s : State) (n : Nat) (f : Skein → Skein) : (s.onSkein n f).regs = s.regs := rfl
@[simp] theorem State.onSkein_shadow (s : State) (n : Nat) (f : Skein → Skein) : (s.onSkein n f).shadow = s.shadow := rfl
@[simp] theorem State.onSkein_staged (s : State) (n : Nat) (f : Skein → Skein) : (s.onSkein n f).staged = s.staged := rfl
@[simp] theorem State.onSkein_snap (s : State) (n : Nat) (f : Skein → Skein) : (s.onSkein n f).snap = s.snap := rfl
@[simp] theorem State.onSkein_snapSeq (s : State) (n : Nat) (f : Skein → Skein) : (s.onSkein n f).snapSeq = s.snapSeq := rfl
@[simp] theorem State.onSkein_frozen (s : State) (n : Nat) (f : Skein → Skein) : (s.onSkein n f).frozen = s.frozen := rfl
@[simp] theorem State.onSkein_heldLow (s : State) (n : Nat) (f : Skein → Skein) : (s.onSkein n f).heldLow = s.heldLow := rfl
@[simp] theorem State.onSkein_hiSnap (s : State) (n : Nat) (f : Skein → Skein) : (s.onSkein n f).hiSnap = s.hiSnap := rfl
@[simp] theorem State.onSkein_posted (s : State) (n : Nat) (f : Skein → Skein) : (s.onSkein n f).posted = s.posted := rfl
@[simp] theorem State.onSkein_now (s : State) (n : Nat) (f : Skein → Skein) : (s.onSkein n f).now = s.now := rfl
@[simp] theorem State.onSkein_drawn (s : State) (n : Nat) (f : Skein → Skein) : (s.onSkein n f).drawn = s.drawn := rfl
@[simp] theorem State.onSkein_link (s : State) (n : Nat) (f : Skein → Skein) : (s.onSkein n f).link = s.link := rfl
@[simp] theorem State.onSkein_clk (s : State) (n : Nat) (f : Skein → Skein) : (s.onSkein n f).clk = s.clk := rfl
@[simp] theorem State.onSkein_seqs (s : State) (n : Nat) (f : Skein → Skein) : (s.onSkein n f).seqs = s.seqs := rfl
@[simp] theorem State.onSkein_pins (s : State) (n : Nat) (f : Skein → Skein) : (s.onSkein n f).pins = s.pins := rfl
@[simp] theorem State.onSkein_rcd (s : State) (n : Nat) (f : Skein → Skein) : (s.onSkein n f).rcd = s.rcd := rfl
@[simp] theorem State.onSkein_hbm (s : State) (n : Nat) (f : Skein → Skein) : (s.onSkein n f).hbm = s.hbm := rfl
@[simp] theorem State.onSkein_grt (s : State) (n : Nat) (f : Skein → Skein) : (s.onSkein n f).grt = s.grt := rfl
@[simp] theorem State.onSkein_dma (s : State) (n : Nat) (f : Skein → Skein) : (s.onSkein n f).dma = s.dma := rfl
@[simp] theorem State.onSkein_dmaLast (s : State) (n : Nat) (f : Skein → Skein) : (s.onSkein n f).dmaLast = s.dmaLast := rfl
@[simp] theorem State.onSkein_flw (s : State) (n : Nat) (f : Skein → Skein) : (s.onSkein n f).flw = s.flw := rfl
@[simp] theorem State.onSkein_pwr (s : State) (n : Nat) (f : Skein → Skein) : (s.onSkein n f).pwr = s.pwr := rfl
@[simp] theorem State.onSkein_flt (s : State) (n : Nat) (f : Skein → Skein) : (s.onSkein n f).flt = s.flt := rfl
@[simp] theorem State.onSkein_mbx (s : State) (n : Nat) (f : Skein → Skein) : (s.onSkein n f).mbx = s.mbx := rfl
@[simp] theorem State.onSkein_twn (s : State) (n : Nat) (f : Skein → Skein) : (s.onSkein n f).twn = s.twn := rfl
@[simp] theorem State.onSkein_svc (s : State) (n : Nat) (f : Skein → Skein) : (s.onSkein n f).svc = s.svc := rfl
@[simp] theorem State.onSkein_get (s : State) (n : Nat) (f : Skein → Skein) (g : Fld) : State.get (s.onSkein n f) g = s.get g := rfl
@[simp] theorem State.onSkein_is (s : State) (n : Nat) (f : Skein → Skein) (g : Fld) : State.is (s.onSkein n f) g = s.is g := rfl
@[simp] theorem State.onSkein_seq (s : State) (n : Nat) (f : Skein → Skein) (i : Nat) : State.seq (s.onSkein n f) i = s.seq i := rfl

/-! #### `State.putSeq` -/

@[simp] theorem State.putSeq_pending (s : State) (n : Nat) (q : Seq) : (s.putSeq n q).pending = s.pending := rfl
@[simp] theorem State.putSeq_regs (s : State) (n : Nat) (q : Seq) : (s.putSeq n q).regs = s.regs := rfl
@[simp] theorem State.putSeq_shadow (s : State) (n : Nat) (q : Seq) : (s.putSeq n q).shadow = s.shadow := rfl
@[simp] theorem State.putSeq_staged (s : State) (n : Nat) (q : Seq) : (s.putSeq n q).staged = s.staged := rfl
@[simp] theorem State.putSeq_snap (s : State) (n : Nat) (q : Seq) : (s.putSeq n q).snap = s.snap := rfl
@[simp] theorem State.putSeq_snapSeq (s : State) (n : Nat) (q : Seq) : (s.putSeq n q).snapSeq = s.snapSeq := rfl
@[simp] theorem State.putSeq_frozen (s : State) (n : Nat) (q : Seq) : (s.putSeq n q).frozen = s.frozen := rfl
@[simp] theorem State.putSeq_heldLow (s : State) (n : Nat) (q : Seq) : (s.putSeq n q).heldLow = s.heldLow := rfl
@[simp] theorem State.putSeq_hiSnap (s : State) (n : Nat) (q : Seq) : (s.putSeq n q).hiSnap = s.hiSnap := rfl
@[simp] theorem State.putSeq_posted (s : State) (n : Nat) (q : Seq) : (s.putSeq n q).posted = s.posted := rfl
@[simp] theorem State.putSeq_now (s : State) (n : Nat) (q : Seq) : (s.putSeq n q).now = s.now := rfl
@[simp] theorem State.putSeq_drawn (s : State) (n : Nat) (q : Seq) : (s.putSeq n q).drawn = s.drawn := rfl
@[simp] theorem State.putSeq_link (s : State) (n : Nat) (q : Seq) : (s.putSeq n q).link = s.link := rfl
@[simp] theorem State.putSeq_clk (s : State) (n : Nat) (q : Seq) : (s.putSeq n q).clk = s.clk := rfl
@[simp] theorem State.putSeq_skeins (s : State) (n : Nat) (q : Seq) : (s.putSeq n q).skeins = s.skeins := rfl
@[simp] theorem State.putSeq_pins (s : State) (n : Nat) (q : Seq) : (s.putSeq n q).pins = s.pins := rfl
@[simp] theorem State.putSeq_rcd (s : State) (n : Nat) (q : Seq) : (s.putSeq n q).rcd = s.rcd := rfl
@[simp] theorem State.putSeq_hbm (s : State) (n : Nat) (q : Seq) : (s.putSeq n q).hbm = s.hbm := rfl
@[simp] theorem State.putSeq_grt (s : State) (n : Nat) (q : Seq) : (s.putSeq n q).grt = s.grt := rfl
@[simp] theorem State.putSeq_dma (s : State) (n : Nat) (q : Seq) : (s.putSeq n q).dma = s.dma := rfl
@[simp] theorem State.putSeq_dmaLast (s : State) (n : Nat) (q : Seq) : (s.putSeq n q).dmaLast = s.dmaLast := rfl
@[simp] theorem State.putSeq_flw (s : State) (n : Nat) (q : Seq) : (s.putSeq n q).flw = s.flw := rfl
@[simp] theorem State.putSeq_pwr (s : State) (n : Nat) (q : Seq) : (s.putSeq n q).pwr = s.pwr := rfl
@[simp] theorem State.putSeq_flt (s : State) (n : Nat) (q : Seq) : (s.putSeq n q).flt = s.flt := rfl
@[simp] theorem State.putSeq_mbx (s : State) (n : Nat) (q : Seq) : (s.putSeq n q).mbx = s.mbx := rfl
@[simp] theorem State.putSeq_twn (s : State) (n : Nat) (q : Seq) : (s.putSeq n q).twn = s.twn := rfl
@[simp] theorem State.putSeq_svc (s : State) (n : Nat) (q : Seq) : (s.putSeq n q).svc = s.svc := rfl
@[simp] theorem State.putSeq_get (s : State) (n : Nat) (q : Seq) (g : Fld) : State.get (s.putSeq n q) g = s.get g := rfl
@[simp] theorem State.putSeq_is (s : State) (n : Nat) (q : Seq) (g : Fld) : State.is (s.putSeq n q) g = s.is g := rfl
@[simp] theorem State.putSeq_skein (s : State) (n : Nat) (q : Seq) (i : Nat) : State.skein (s.putSeq n q) i = s.skein i := rfl

/-! #### `State.onSeq` -/

@[simp] theorem State.onSeq_pending (s : State) (n : Nat) (f : Seq → Seq) : (s.onSeq n f).pending = s.pending := rfl
@[simp] theorem State.onSeq_regs (s : State) (n : Nat) (f : Seq → Seq) : (s.onSeq n f).regs = s.regs := rfl
@[simp] theorem State.onSeq_shadow (s : State) (n : Nat) (f : Seq → Seq) : (s.onSeq n f).shadow = s.shadow := rfl
@[simp] theorem State.onSeq_staged (s : State) (n : Nat) (f : Seq → Seq) : (s.onSeq n f).staged = s.staged := rfl
@[simp] theorem State.onSeq_snap (s : State) (n : Nat) (f : Seq → Seq) : (s.onSeq n f).snap = s.snap := rfl
@[simp] theorem State.onSeq_snapSeq (s : State) (n : Nat) (f : Seq → Seq) : (s.onSeq n f).snapSeq = s.snapSeq := rfl
@[simp] theorem State.onSeq_frozen (s : State) (n : Nat) (f : Seq → Seq) : (s.onSeq n f).frozen = s.frozen := rfl
@[simp] theorem State.onSeq_heldLow (s : State) (n : Nat) (f : Seq → Seq) : (s.onSeq n f).heldLow = s.heldLow := rfl
@[simp] theorem State.onSeq_hiSnap (s : State) (n : Nat) (f : Seq → Seq) : (s.onSeq n f).hiSnap = s.hiSnap := rfl
@[simp] theorem State.onSeq_posted (s : State) (n : Nat) (f : Seq → Seq) : (s.onSeq n f).posted = s.posted := rfl
@[simp] theorem State.onSeq_now (s : State) (n : Nat) (f : Seq → Seq) : (s.onSeq n f).now = s.now := rfl
@[simp] theorem State.onSeq_drawn (s : State) (n : Nat) (f : Seq → Seq) : (s.onSeq n f).drawn = s.drawn := rfl
@[simp] theorem State.onSeq_link (s : State) (n : Nat) (f : Seq → Seq) : (s.onSeq n f).link = s.link := rfl
@[simp] theorem State.onSeq_clk (s : State) (n : Nat) (f : Seq → Seq) : (s.onSeq n f).clk = s.clk := rfl
@[simp] theorem State.onSeq_skeins (s : State) (n : Nat) (f : Seq → Seq) : (s.onSeq n f).skeins = s.skeins := rfl
@[simp] theorem State.onSeq_pins (s : State) (n : Nat) (f : Seq → Seq) : (s.onSeq n f).pins = s.pins := rfl
@[simp] theorem State.onSeq_rcd (s : State) (n : Nat) (f : Seq → Seq) : (s.onSeq n f).rcd = s.rcd := rfl
@[simp] theorem State.onSeq_hbm (s : State) (n : Nat) (f : Seq → Seq) : (s.onSeq n f).hbm = s.hbm := rfl
@[simp] theorem State.onSeq_grt (s : State) (n : Nat) (f : Seq → Seq) : (s.onSeq n f).grt = s.grt := rfl
@[simp] theorem State.onSeq_dma (s : State) (n : Nat) (f : Seq → Seq) : (s.onSeq n f).dma = s.dma := rfl
@[simp] theorem State.onSeq_dmaLast (s : State) (n : Nat) (f : Seq → Seq) : (s.onSeq n f).dmaLast = s.dmaLast := rfl
@[simp] theorem State.onSeq_flw (s : State) (n : Nat) (f : Seq → Seq) : (s.onSeq n f).flw = s.flw := rfl
@[simp] theorem State.onSeq_pwr (s : State) (n : Nat) (f : Seq → Seq) : (s.onSeq n f).pwr = s.pwr := rfl
@[simp] theorem State.onSeq_flt (s : State) (n : Nat) (f : Seq → Seq) : (s.onSeq n f).flt = s.flt := rfl
@[simp] theorem State.onSeq_mbx (s : State) (n : Nat) (f : Seq → Seq) : (s.onSeq n f).mbx = s.mbx := rfl
@[simp] theorem State.onSeq_twn (s : State) (n : Nat) (f : Seq → Seq) : (s.onSeq n f).twn = s.twn := rfl
@[simp] theorem State.onSeq_svc (s : State) (n : Nat) (f : Seq → Seq) : (s.onSeq n f).svc = s.svc := rfl
@[simp] theorem State.onSeq_get (s : State) (n : Nat) (f : Seq → Seq) (g : Fld) : State.get (s.onSeq n f) g = s.get g := rfl
@[simp] theorem State.onSeq_is (s : State) (n : Nat) (f : Seq → Seq) (g : Fld) : State.is (s.onSeq n f) g = s.is g := rfl
@[simp] theorem State.onSeq_skein (s : State) (n : Nat) (f : Seq → Seq) (i : Nat) : State.skein (s.onSeq n f) i = s.skein i := rfl

/-! ### Register fields -/

/-- A field reads back the value written, held to its width. -/
@[simp] theorem State.get_set_same (s : State) (f : Fld) (v : Nat) : (s.set f v).get f = v % 2 ^ f.width :=
  sget_sput_same _ _ _ _

/-- A write leaves every other cell as it was. -/
theorem State.get_set_ne (s : State) {f g : Fld} (v : Nat) (h : g.key ≠ f.key) : (s.set f v).get g = s.get g :=
  sget_sput_ne _ _ _ _ h

theorem State.get_add_ne (s : State) {f g : Fld} (v : Nat) (h : g.key ≠ f.key) : (s.add f v).get g = s.get g :=
  sget_sput_ne _ _ _ _ h

@[simp] theorem State.get_add_same (s : State) (f : Fld) (v : Nat) : (s.add f v).get f = (s.get f + v) % 2 ^ f.width :=
  sget_sput_same _ _ _ _

theorem State.get_addSat_ne (s : State) {f g : Fld} (v : Nat) (h : g.key ≠ f.key) : (s.addSat f v).get g = s.get g :=
  sget_sput_ne _ _ _ _ h

/-- A saturating counter reads the sum, or its largest value. -/
@[simp] theorem State.get_addSat_same (s : State) (f : Fld) (v : Nat) :
    (s.addSat f v).get f = min (s.get f + v) (2 ^ f.width - 1) := by
  have hp : 0 < 2 ^ f.width := Nat.two_pow_pos _
  rw [State.addSat, State.get_set_same, Nat.mod_eq_of_lt (by omega)]

theorem State.get_setBit_ne (s : State) {f g : Fld} (b : Nat) (v : Bool) (h : g.key ≠ f.key) :
    (s.setBit f b v).get g = s.get g := sget_sput_ne _ _ _ _ h

@[simp] theorem State.getShadow_setShadow_same (s : State) (f : Fld) (v : Nat) :
    (s.setShadow f v).getShadow f = v % 2 ^ f.width := sget_sput_same _ _ _ _

@[simp] theorem State.getStaged_setStaged_same (s : State) (f : Fld) (v : Nat) :
    (s.setStaged f v).getStaged f = v % 2 ^ f.width := sget_sput_same _ _ _ _

/-- Two cells differ where one of the parts of their numbers does. -/
theorem Fld.key_inj {f g : Fld} (hf : f.off < 4096 ∧ f.lo < 64 ∧ f.idx < 16384 ∧ f.width ≤ 64)
    (hg : g.off < 4096 ∧ g.lo < 64 ∧ g.idx < 16384 ∧ g.width ≤ 64) (h : f.key = g.key) :
    f.page = g.page ∧ f.off = g.off ∧ f.lo = g.lo ∧ f.idx = g.idx := by
  unfold Fld.key at h
  omega

/-! ### Skeins and sequencers -/

@[simp] theorem State.skein_putSkein_same (s : State) (n : Nat) (k : Skein) : (s.putSkein n k).skein n = k :=
  sget_sput_same _ _ _ _

theorem State.skein_putSkein_ne (s : State) {n m : Nat} (k : Skein) (h : m ≠ n) : (s.putSkein n k).skein m = s.skein m :=
  sget_sput_ne _ _ _ _ h

@[simp] theorem State.skein_onSkein_same (s : State) (n : Nat) (f : Skein → Skein) :
    (s.onSkein n f).skein n = f (s.skein n) := sget_sput_same _ _ _ _

theorem State.skein_onSkein_ne (s : State) {n m : Nat} (f : Skein → Skein) (h : m ≠ n) :
    (s.onSkein n f).skein m = s.skein m := sget_sput_ne _ _ _ _ h

@[simp] theorem State.seq_putSeq_same (s : State) (n : Nat) (q : Seq) : (s.putSeq n q).seq n = q :=
  sget_sput_same _ _ _ _

theorem State.seq_putSeq_ne (s : State) {n m : Nat} (q : Seq) (h : m ≠ n) : (s.putSeq n q).seq m = s.seq m :=
  sget_sput_ne _ _ _ _ h

@[simp] theorem State.seq_onSeq_same (s : State) (n : Nat) (f : Seq → Seq) : (s.onSeq n f).seq n = f (s.seq n) :=
  sget_sput_same _ _ _ _

theorem State.seq_onSeq_ne (s : State) {n m : Nat} (f : Seq → Seq) (h : m ≠ n) : (s.onSeq n f).seq m = s.seq m :=
  sget_sput_ne _ _ _ _ h

/-! ### Frames -/

theorem State.sameRegs_refl (s : State) (ks : List Nat) : s.sameRegs ks s := fun _ _ => rfl

/-- A write of a cell of the list keeps the frame. -/
theorem State.sameRegs_set {s t : State} {ks : List Nat} {f : Fld} (v : Nat) (h : s.sameRegs ks t) (hf : f.key ∈ ks) :
    s.sameRegs ks (t.set f v) := fun g hg =>
  (t.get_set_ne v (fun e => hg (by rw [e]; exact hf))).trans (h g hg)

/-- So does any update that leaves the registers alone. -/
theorem State.sameRegs_of_regs {s t u : State} {ks : List Nat} (h : s.sameRegs ks t) (e : u.regs = t.regs) :
    s.sameRegs ks u := fun g hg => by
  have := h g hg
  unfold State.get at this ⊢
  rw [e]; exact this

/-! ### Events -/

theorem Link.deliver_eq (l : Link) (v : Nat) :
    l.deliver v = { l with pba := (l.deliver v).pba, waiting := (l.deliver v).waiting } := by
  unfold Link.deliver
  repeat' split
  all_goals rfl

theorem Link.request_eq (l : Link) (v : Nat) :
    l.request v = { l with pba := (l.request v).pba, waiting := (l.request v).waiting, merged := (l.request v).merged } := by
  unfold Link.request Link.deliver
  repeat' split
  all_goals rfl

/-- Setting a latch touches its cell and the endpoint's messages alone. -/
theorem State.raise_eq (s : State) (k : Nat) :
    s.raise k = { s with regs := (s.raise k).regs
                         link := { s.link with pba := (s.raise k).link.pba, waiting := (s.raise k).link.waiting
                                               merged := (s.raise k).link.merged } } := by
  unfold State.raise
  split
  · rfl
  · split
    · rfl
    · dsimp only
      split
      · unfold State.notify
        split
        · simp only [State.onLink]
          rw [Link.request_eq]
          rfl
        · rfl
      · rfl

/-- Setting a latch leaves every other cell as it was. -/
theorem State.raise_get_ne (s : State) (k : Nat) {g : Fld} (hk : g.key ∉ latches [k]) : (s.raise k).get g = s.get g := by
  have h : ∀ e, evPlace k = some e → g.key ≠ e.latchFld.key := fun e he hkey => hk (by simp [latches, he, hkey])
  unfold State.raise
  split
  · rfl
  · next e he =>
    split
    · rfl
    · dsimp only
      have hne := State.get_set_ne s 1 (h e he)
      split
      · unfold State.notify
        split
        · rw [State.onLink_get]; exact hne
        · exact hne
      · exact hne

/-- A raised event is latched. -/
theorem State.raise_latched (s : State) (k : Nat) (h : (evPlace k).isSome) : (s.raise k).latched k = true := by
  obtain ⟨e, he⟩ := Option.isSome_iff_exists.mp h
  unfold State.latched State.raise
  simp only [he]
  split
  · next hs => exact hs
  · have hset : (s.set e.latchFld 1).is e.latchFld = true := by
      unfold State.is
      rw [State.get_set_same]
      rfl
    split
    · unfold State.notify
      split
      · rw [State.onLink_is]; exact hset
      · exact hset
    · exact hset

/-- A raised event stays within a frame that lists its latch. -/
theorem State.sameRegs_raise {s t : State} {ks : List Nat} (k : Nat) (h : s.sameRegs ks t)
    (hk : ∀ x ∈ latches [k], x ∈ ks) : s.sameRegs ks (t.raise k) := fun g hg =>
  (t.raise_get_ne k (fun hx => hg (hk _ hx))).trans (h g hg)

theorem State.sameButRegs_refl (s : State) : s.sameButRegs s := ⟨rfl, rfl⟩

theorem State.sameButRegs_set {s t : State} (f : Fld) (v : Nat) (h : s.sameButRegs t) : s.sameButRegs (t.set f v) := by
  obtain ⟨h1, h2⟩ := h
  refine ⟨?_, h2⟩
  unfold State.set
  rw [h1]

theorem State.sameButRegs_raise {s t : State} (k : Nat) (h : s.sameButRegs t) : s.sameButRegs (t.raise k) := by
  obtain ⟨h1, h2⟩ := h
  rw [State.raise_eq]
  unfold Link.sameButMessages at h2
  refine ⟨?_, ?_⟩
  · dsimp only
    rw [h1, h2]
  · unfold Link.sameButMessages
    dsimp only
    rw [h2]

theorem State.raiseIf_true (s : State) (k : Nat) : s.raiseIf true k = s.raise k := rfl

theorem State.raiseIf_false (s : State) (k : Nat) : s.raiseIf false k = s := rfl

theorem State.sameButRegs_raiseIf {s t : State} (c : Bool) (k : Nat) (h : s.sameButRegs t) :
    s.sameButRegs (t.raiseIf c k) := by
  cases c
  · exact h
  · exact State.sameButRegs_raise k h

theorem State.sameRegs_raiseIf {s t : State} {ks : List Nat} (c : Bool) (k : Nat) (h : s.sameRegs ks t)
    (hk : ∀ x ∈ latches [k], x ∈ ks) : s.sameRegs ks (t.raiseIf c k) := by
  cases c
  · exact h
  · exact State.sameRegs_raise k h hk

theorem State.raiseIf_get_ne (s : State) (c : Bool) (k : Nat) {g : Fld} (h : g.key ∉ latches [k]) :
    (s.raiseIf c k).get g = s.get g := by
  cases c
  · rfl
  · exact s.raise_get_ne k h

/-- A cell's place lies within a page: a test that evaluates whatever the page is. -/
def Fld.placed (f : Fld) : Bool :=
  Nat.blt f.off 4096 && (Nat.blt f.lo 64 && (Nat.blt f.idx 16384 && Nat.ble f.width 64))

theorem Fld.placed_iff (f : Fld) : f.placed = true ↔ f.off < 4096 ∧ f.lo < 64 ∧ f.idx < 16384 ∧ f.width ≤ 64 := by
  simp only [Fld.placed, Bool.and_eq_true, Nat.blt_eq, Nat.ble_eq]

/-- Two cells lie at different places of their pages: a test that evaluates whatever the pages are. -/
def Fld.apart (f g : Fld) : Bool :=
  (f.placed && g.placed) && !(Nat.beq f.off g.off && Nat.beq f.lo g.lo && Nat.beq f.idx g.idx)

theorem Fld.key_ne_of_apart {f g : Fld} (h : f.apart g = true) : f.key ≠ g.key := by
  intro e
  rw [Fld.apart, Bool.and_eq_true, Bool.and_eq_true, Fld.placed_iff, Fld.placed_iff] at h
  have place := Fld.key_inj h.1.1 h.1.2 e
  simp [place.2.1, place.2.2.1, place.2.2.2] at h

/-- A cell at another place than the event's latch. -/
theorem latch_apart {k : Nat} {e : EvPlace} {g : Fld} (h : evPlace k = some e) (hg : g.apart e.latchFld = true) :
    g.key ∉ latches [k] := by
  intro hk
  simp only [latches, List.filterMap_cons, h, Option.map_some, List.filterMap_nil, List.mem_singleton] at hk
  exact Fld.key_ne_of_apart hg hk

end Sys2Proof.Machine
end

