-- ==== Sys2Proof/Machine/Balls.lean ====
section
/-! DEFINITION. What stands at the output balls (R491), from the state: the DUT-facing pins, SYNC_OUT, and the
open-drain lines. No command reads them. -/

namespace Sys2Proof.Machine

/-- The level of an output ball. -/
inductive BallLevel where
  | low | high | released | highImpedance
  deriving DecidableEq, Repr

/-- A driven level. -/
def driven (v : Bool) : BallLevel := if v then .high else .low

/-- An open-drain line. -/
def pulled (v : Bool) : BallLevel := if v then .low else .released

/-- Start-up has not reached step 7 (R382), or waits for PORST_N or the rails. -/
def State.beforeOutputs (s : State) : Bool := s.pwr.waitRails || (s.pwr.step != 0 && decide (s.pwr.step < 7))

/-- VDD_IO is lost: the always-on domain draws from VBAT_AON (R361). DEDUCED, log entry 89. -/
def State.ioLost (s : State) : Bool := s.is PWR_STATUS_AON_SUPPLY.one

/-- DUT_HOLD_k at its ball; an inverted one is active low (R219). -/
def State.dutHoldBall (s : State) (k : Nat) : BallLevel :=
  if s.ioLost then .highImpedance
  else if s.beforeOutputs then .low
  else driven (s.holdActive k != s.is (DUT_HOLD_CTRL_INVERT.of k))

/-- TRIG_OUT_n at its pair, P against N (R490); inactive before step 7. -/
def State.trigOutBall (s : State) (n : Nat) : BallLevel :=
  if s.ioLost then .highImpedance
  else driven ((!s.beforeOutputs && s.trigOutActive n) != s.is (TRIG_OUT_CTRL_INVERT.of n))

/-- XTRIG_k at its ball, as this device drives it (R210). -/
def State.xtrigBall (s : State) (k : Nat) : BallLevel := pulled (!s.ioLost && !s.beforeOutputs && s.xtrigDriven k)

/-- SYNC_OUT at its ball at the present time (R94). -/
def State.syncOutBall (s : State) : BallLevel :=
  if s.ioLost then .highImpedance
  else driven (!s.beforeOutputs && s.syncOut)

/-- EVENT_N at its ball (R62). -/
def State.eventBall (s : State) : BallLevel := pulled (!s.ioLost && !s.beforeOutputs && s.eventN)

/-- ACQ_WARN_N at its ball (R241). -/
def State.acqWarnBall (s : State) : BallLevel := pulled (!s.ioLost && !s.beforeOutputs && s.is SQ_STATUS_ACQ_WARN.one)

/-- SVC_ALERT_N at its ball (R413); the always-on domain keeps it when VDD_IO is lost, but not through PORST_N and
start-up. -/
def State.alertBall (s : State) : BallLevel :=
  pulled (!s.beforeOutputs && s.is SVC_CTRL_ALERT_EN.one && !s.svc.replies.isEmpty)

end Sys2Proof.Machine
end

