-- ==== Sys2Proof/Tests/Slice0.lean ====
section
/-! SUPPORT. The model on states built by hand: for every statement with hypotheses, states and operands that meet them; an ill-formed command for each check of WellFormed; and the worked examples of the spec. -/

set_option Elab.async false
set_option linter.unusedVariables false

open Sys2Proof.Machine

namespace Sys2Proof.Tests

/-- `s` with the fields of the list set. -/
def sets (l : List (Fld × Nat)) (s : State) : State := l.foldl (fun s p => s.set p.1 p.2) s

/-- The host may reach the BARs. -/
def host : State := { State.reset with link := { Link.reset with ready := true } }

/-- A state with the host's BARs open and the fields of the list set. -/
def dev (l : List (Fld × Nat)) : State := sets l host

/-- A state in which page `p` is unlocked, and the fields of the list set. -/
def unl (p : Nat) (l : List (Fld × Nat)) : State := dev ((unlockedOf p, 1) :: l)

/-- Time runs: the first lock has been had. -/
def live (l : List (Fld × Nat)) : State :=
  dev ([(CLK_STATUS_LOCKED.one, 1), (CLK_STATUS_BYPASS.one, 0), (TIME_STATUS_VALID.one, 1)] ++ l)

/-- Sixty-four bytes. -/
def burst : List Byte := (upto 64).map (fun i => BitVec.ofNat 8 (3 * i + 1))

/-- The HBM is in use. -/
def hbmUp (l : List (Fld × Nat)) : State :=
  live ((HBM_G_STATUS_STOPPED.one, 0) :: ([0, 1, 32, 127].map (fun pc => (HBM_PC_STATE_STATE.ofWin (stackOf pc) (pc % 32), 0))) ++ l)

/-- A unit of ten words in a queue. -/
def unitOf (gate : Bool) (fate : Fate) : QUnit where
  words := (upto 10).map (fun i => BitVec.ofNat 64 (i + 1))
  total := 10
  skein := 3
  spare := false
  isClose := false
  gateOn := gate
  opener := 0
  fate := fate
  poison := 0
  poison1 := 0

/-- A record of a session's last state, as long as a ledger record. -/
def recordOf : List Stitch := (upto 24).map (fun i => BitVec.ofNat 64 (i + 1))

/-- Skein 3 runs in session 2 with a lane of a mebibyte; session 2's record lane has one too. -/
def recording (q : List QUnit) (l : List (Fld × Nat)) : State :=
  { hbmUp ([(WR_SESSION_STATUS_STATE.elt 2, 3), (WR_SESSION_STATUS_POLICY.elt 2, 2), (WR_SESSION_SKEINS.elt 2, 8),
      (SKN_STATUS_SESSION.of 3, 2), (SKN_STATUS_IN_SESSION.of 3, 1), (WR_LANE_BASE.win 3, 0), (WR_LANE_SIZE.win 3, 2 ^ 20),
      (WR_LANE_BASE.win 66, 2 ^ 20), (WR_LANE_SIZE.win 66, 2 ^ 20)] ++ l) with
    skeins := [(3, { Skein.idle with queue := q })] }

/-- Skein 63 in state mode with a full state frame. -/
def stateFull : State :=
  { live [(SKN_CTRL_ENC.of 63, 3)] with
    skeins := [(63, { Skein.idle with reducing := true, samples := List.replicate 4096 ⟨1, 0, 0, true⟩ })] }

/-- The grottos are filled and in use. -/
def grottos (l : List (Fld × Nat)) : State :=
  unl grtPage ((GRT_STATUS_READY.one, 1) :: (upto 64).map (fun b => (GRT_OWNER_CLEAR.elt b, 0)) ++ l)

/-- A descriptor of two elements of 64 bytes, from and to host memory. -/
def hostDesc : List Nat := [0x1000, 0x2000, 64 + 64 * 2 ^ 32, 0, 0, 2 + 2 ^ 24, 1 + 2 ^ 24 + 2 * 2 ^ 48 + 2 * 2 ^ 51, 1]

/-- A descriptor of two elements of 64 bytes, from host memory through compressor 3 to host memory. -/
def pipedDesc : List Nat := [0x1000, 0x2000, 64 + 64 * 2 ^ 32, 0, 0, 2 + 2 ^ 24, 1 + 2 ^ 24 + 2 * 2 ^ 48 + 2 * 2 ^ 51 + 2 ^ 54 + 3 * 2 ^ 56, 1]

/-- Its sixteen double words. -/
def hostWords : List (BitVec 32) := hostDesc.flatMap (fun w => [BitVec.ofNat 32 w, BitVec.ofNat 32 (w / 2 ^ 32)])

/-- Channel 63 runs in the state `c`. -/
def moving (c : DmaCh) (l : List (Fld × Nat)) : State :=
  { dev ([(SYS_LINK_STATUS_UP.one, 1), (DMA_STATUS_STATE.of 63, 1), (DMA_CTRL_ENABLE.of 63, 1), (DMA_CTRL_PRIO.of 63, 7),
      (unlockedOf (PageClass.page .dma 63), 1)] ++ l) with
    link := { Link.reset with ready := true, busMaster := true }, dma := [(63, c)] }

/-- Channel 63 holds Flowstone unit `u`, whose stream is `f`. -/
def piping (u : Nat) (f : FlowStream) : State :=
  { moving { DmaCh.idle with phase := .move, pipe := some u } [] with flw := [(u, f)] }

/-- The mailbox is idle and the host may write its page. -/
def box (l : List (Fld × Nat)) : State := unl (PageClass.page .mbx 0) ((MBX_STATUS_STATE.one, 1) :: l)

/-- A plan for session 7 under policy LOG: skein 63 in sample mode with all its channels, a region of 64 MiB. -/
def planBytes : List Byte :=
  toBytes 4 1120 ++ [7, 2, 0, 1] ++ toBytes 8 0 ++ toBytes 8 (2 ^ 26) ++ toBytes 8 (2 ^ 40) ++ toBytes 2 16 ++
    List.replicate 30 0 ++ [63, 0, 10, 0, 0xFF, 0xFF] ++ List.replicate 1050 0

/-- `planBytes` stands in the bulk buffer. -/
def planned (l : List (Fld × Nat)) : State :=
  let s := box ((PWR_SKN_READY.one, 2 ^ 64 - 1) :: l)
  { s with link := { s.link with
      bar4 := ((upto 1120).zip planBytes).filterMap (fun p => if p.2 = 0 then none else some (0x6000 + p.1, p.2.toNat)) } }

/-- Its argument block. -/
def planArgs : List Byte := toBytes 4 0 ++ toBytes 4 1120

/-- A plan with one skein of session 7. -/
def plan7 : Plan := readPlan planBytes

/-- Session 7 is admitted, with skein 63. -/
def admitted (l : List (Fld × Nat)) : State :=
  let s := box ([(WR_SESSION_STATUS_STATE.elt 7, 1), (WR_SESSION_SKEINS.elt 7, 2 ^ 63), (CLK_STATUS_LOCKED.one, 1),
    (FEG_STATUS_CAL_DONE.one, 1), (HBM_G_STATUS_READY.one, 1), (PWR_TRG_GATE_READY.one, 0xFF)] ++ l)
  { s with rcd := { Record.reset with plans := [(7, some plan7)] } }


/-- A message of the twin link: header and body. -/
def message (type seq epoch : Nat) (body : List Byte) : List Byte :=
  toBytes 2 0x5754 ++ toBytes 1 type ++ toBytes 1 0 ++ toBytes 4 seq ++ toBytes 4 epoch ++ toBytes 2 body.length ++
    toBytes 2 0 ++ body

/-- A device of a pair, or one that asks for a pair, with its link up. -/
def twin (t : Twin) (l : List (Fld × Nat)) : State :=
  { box ([(TWN_STATUS_LINK_UP.one, 1), (TWN_STATUS_LANES.one, 8)] ++ l) with twn := t }

/-- The service controller of `v`, with the host's BARs open. -/
def port (v : Service) (l : List (Fld × Nat)) : State := { dev l with svc := v }

/-! ### Witnesses' soundness -/

/-- A state whose tables are in canonical form and whose queues are empty is sound. -/
theorem sound_of (s : State)
    (h : ([s.regs, s.shadow, s.staged].all wellKept = true ∧
      [s.hbm.marks, s.grt.mem, s.link.bar4].all (Memory.wf 0) = true) ∧ Memory.wf 0 s.hbm.mem = true ∧
      Memory.wf 0xFF s.svc.flash.slots = true ∧ s.seqs = [] ∧ s.svc.flash.journal = [] ∧ s.svc.commit = none) : s.Sound := by
  have cells : ∀ m ∈ [s.regs, s.shadow, s.staged], wellKept m = true := List.all_eq_true.1 h.1.1
  have tables : ∀ m ∈ [s.hbm.marks, s.grt.mem, s.link.bar4], Memory.wf 0 m = true := List.all_eq_true.1 h.1.2
  exact {
    regs := cells _ (by simp)
    shadow := cells _ (by simp)
    staged := cells _ (by simp)
    hbmMem := h.2.1
    marks := tables _ (by simp)
    grtMem := tables _ (by simp)
    bar4 := tables _ (by simp)
    slots := h.2.2.1
    queues := fun n => by simp [State.seq, h.2.2.2.1, sget, Seq.idle]
    journal := ⟨by simp [h.2.2.2.2.1], by simp [h.2.2.2.2.2]⟩ }

/-- A state that names only units that exist. -/
theorem numbered_of (s : State)
    (h : (s.rcd.plans.all (fun p => p.2.all (fun q => q.skeins.all (fun k => decide (k.skein < 64)))) &&
      s.grt.window.isNone && s.flt.retry.isEmpty && s.seqs.isEmpty) = true) : s.Numbered := by
  simp only [Bool.and_eq_true, List.isEmpty_iff, Option.isNone_iff_eq_none, List.all_eq_true] at h
  obtain ⟨⟨⟨h1, h2⟩, h3⟩, h4⟩ := h
  have q : ∀ n, s.seq n = Seq.idle := fun n => by simp [State.seq, h4, sget]
  refine ⟨fun n p hp k hk => ?_, by simp [h2], by simp [h3], by simp [q, Seq.idle], by simp [q, Seq.idle]⟩
  have : ∀ m : Sparse (Option Plan), sget m n none = some p → (n, some p) ∈ m := fun m => by
    induction m with
    | nil => simp [sget]
    | cons a t ih =>
      intro e
      rw [sget] at e
      split at e
      · next g => exact List.mem_cons.2 (.inl (Prod.ext g.symm e.symm))
      · exact List.mem_cons_of_mem _ (ih e)
  have := h1 _ (this _ hp)
  simp only [Option.all_some, List.all_eq_true, decide_eq_true_eq] at this
  exact this k hk

/-- No pseudo-channel holds a write. -/
theorem no_writes (s : State) (h : s.hbm.writeQ.isEmpty = true) :
    ∀ pc, ∀ w ∈ s.hbm.writes pc, w.data.length = 64 ∧ w.x + 64 ≤ pcBytes := by
  intro pc w hw
  simp [Hbm.writes, List.isEmpty_iff.1 h, sget] at hw

/-- A value that is there. -/
theorem some_getD {α : Type} (o : Option α) (d : α) (h : o.isSome = true) : o = some (o.getD d) := by
  cases o with
  | none => cases h
  | some _ => rfl

/-! ### Every statement's hypotheses are met -/

/-- The hypotheses of `StepRunsFrontCommand` are met. -/
theorem witness_StepRunsFrontCommand :
    (∃ (s : State), s.pending = []) :=
  ⟨State.reset, by decide +kernel⟩

/-- The hypotheses of `ConfigurationRequestsAndLinkReports` are met. -/
theorem witness_ConfigurationRequestsAndLinkReports :
    (∃ (s : State) (write : Bool) (reg : BitVec 12) (value : DWord), s.link.inReset = false ∧ s.link.ready = false) ∧
    (∃ (s : State) (reg : BitVec 12) (value : DWord), s.link.inReset = false ∧ s.link.ready = true) ∧
    (∃ (s : State) (reg : BitVec 12) (value : DWord), s.link.inReset = false ∧ s.link.ready = true) ∧
    (∃ (s : State) (reg : BitVec 12) (value : DWord), s.link.inReset = false ∧ s.link.ready = true) ∧
    (∃ (s : State) (reg : BitVec 12) (value : DWord), s.link.inReset = false ∧ s.link.ready = true) ∧
    (∃ (s : State) (reg : BitVec 12) (value : DWord), s.link.inReset = false ∧ s.link.ready = true) ∧
    (∃ (s : State) (reg : BitVec 12) (value : DWord), s.link.inReset = false ∧ s.link.ready = true) ∧
    (∃ (s : State) (reg : BitVec 12) (value : DWord), s.link.inReset = false ∧ s.link.ready = true) ∧
    (∃ (s : State) (reg : BitVec 12) (value : DWord), s.link.inReset = false ∧ s.link.ready = true) ∧
    (∃ (s : State) (reg : BitVec 12) (value : DWord), s.link.inReset = false ∧ s.link.ready = true) ∧
    (∃ (s : State) (up : Bool) (lanes : Lanes) (speed : Fin 6), (up = true → speed.val ≠ 0)) ∧
    (∃ (s : State) (up : Bool) (lanes : Lanes) (speed : Fin 6), (up = true → speed.val ≠ 0)) :=
  ⟨⟨State.reset, true, 4, 6, by decide +kernel⟩,
   ⟨host, 2, 0, by decide +kernel⟩,
   ⟨host, 0x10, 0, by decide +kernel⟩,
   ⟨host, 0x24, 0, by decide +kernel⟩,
   ⟨host, 0x100, 0, by decide +kernel⟩,
   ⟨host, 7, 4, by decide +kernel⟩,
   ⟨host, 4, 6, by decide +kernel⟩,
   ⟨host, 0x10, 0xFFFFFFFF, by decide +kernel⟩,
   ⟨host, 0x44, 3, by decide +kernel⟩,
   ⟨host, 0x78, 0x2810, by decide +kernel⟩,
   ⟨dev [(SYS_LINK_STATUS_UP.one, 1)], true, .x8, 1, by decide +kernel⟩,
   ⟨dev [(SYS_LINK_STATUS_UP.one, 1)], false, .x16, 0, by decide +kernel⟩⟩

/-- The hypotheses of `MsixMessagesArePendedSentAndMerged` are met. -/
theorem witness_MsixMessagesArePendedSentAndMerged :
    (∃ (l : Link) (v : Nat), l.inReset = false ∧ l.isMasked v = true ∧ sget l.holding v 0 = 0) ∧
    (∃ (s : State) (v : Fin 64), s.hostOpen = true ∧ s.paused = false) ∧
    (∃ (s : State) (v : Fin 64), s.hostOpen = true ∧ s.paused = false ∧ s.link.funcMask = false ∧ sget s.link.pba v.val 0 = 1 ∧ sget s.link.holding v.val 0 = 0) ∧
    (∃ (s : State) (v : Fin 64), s.maySend = true ∧ s.link.isMasked v.val = false ∧ 0 < sget s.link.waiting v.val 0) ∧
    (∃ (s : State) (v : Fin 64), sget s.link.holding v.val 0 = 1) ∧
    (∃ (s : State) (v : Fin 64), s.link.inReset = false ∧ sget s.link.holding v.val 0 = 1 ∧ sget s.link.merged v.val 0 = 1 ∧ s.link.isMasked v.val = false) ∧
    (∃ (s : State) (v : Fin 64), sget s.link.holding v.val 0 = 1) :=
  ⟨⟨Link.reset, 63, by decide +kernel⟩,
   ⟨{ host with link := { host.link with pba := [(63, 1)] } }, 63, by decide +kernel⟩,
   ⟨{ host with link := { host.link with pba := [(63, 1)] } }, 63, by decide +kernel⟩,
   ⟨{ dev [(SYS_LINK_STATUS_UP.one, 1), (EVT_HOLDOFF.one, 5)] with link := { host.link with busMaster := true, msixEnable := true, masked := [(63, 0)], waiting := [(63, 1)], tableAddr := [(63, 0xFEE00000)] } }, 63, by decide +kernel⟩,
   ⟨{ host with link := { host.link with holding := [(0, 1)], merged := [(0, 1)], masked := [(0, 0)] } }, 0, by decide +kernel⟩,
   ⟨{ host with link := { host.link with holding := [(0, 1)], merged := [(0, 1)], masked := [(0, 0)] } }, 0, by decide +kernel⟩,
   ⟨{ host with link := { host.link with holding := [(63, 1)], masked := [(63, 1)] } }, 63, by decide +kernel⟩⟩

/-- The hypotheses of `UnlockKeysAndForcedEvents` are met. -/
theorem witness_UnlockKeysAndForcedEvents :
    (∃ (s : State) (page : BitVec 12) (value : DWord), s.hostOpen = true ∧ s.paused = false ∧ guardedPage page.toNat = true ∧ value.toNat = page.toNat * 2 ^ 16 + 0x4B1D) ∧
    (∃ (s : State) (page : BitVec 12) (value : DWord), s.hostOpen = true ∧ s.paused = false ∧ guardedPage page.toNat = true ∧ value.toNat ≠ page.toNat * 2 ^ 16 + 0x4B1D) ∧
    (∃ (s : State) (page : BitVec 12) (value : DWord), guardedPage page.toNat = false) ∧
    (∃ (s : State) (value : DWord), s.admits (PageClass.page .evt 0) = true) :=
  ⟨⟨host, 4, 0x00044B1D, by decide +kernel⟩,
   ⟨host, 4, 0x00054B1D, by decide +kernel⟩,
   ⟨host, 6, 0x00064B1D, by decide +kernel⟩,
   ⟨unl (PageClass.page .evt 0) [], 0x2001, by decide +kernel⟩⟩

/-- The hypotheses of `RegisterWritesReachTheirFields` are met. -/
theorem witness_RegisterWritesReachTheirFields :
    (∃ (s : State) (addr : BitVec 24) (data : List (Option Byte)), s.hostOpen = true ∧ s.paused = false ∧ data.length ≤ 4096) ∧
    (∃ (s : State) (f : RegField) (v : DWord), f ∈ plainFields ∧ s.admits (f.cls.page 0) = true) ∧
    (∃ (s : State) (addr : BitVec 24) (data : List Byte), s.hostOpen = true ∧ s.paused = false ∧ s.pageLocked (addr.toNat / 4096) = true ∧ data ≠ [] ∧ addr.toNat % 8 + data.length ≤ 8 ∧ addr.toNat % 4096 / 8 ≠ 0x018 / 8) ∧
    (∃ (s : State) (x : BitVec 24) (data : List Byte), s.hostOpen = true ∧ s.paused = false ∧ (0x4000 ≤ x.toNat ∧ x.toNat + data.length ≤ 0x5000 ∨ 0x6000 ≤ x.toNat ∧ x.toNat + data.length ≤ 0xE000) ∧ data.length ≤ 4096) ∧
    (∃ (s : State) (x : BitVec 24) (data : List Byte), s.hostOpen = true ∧ s.paused = false ∧ (0x4000 ≤ x.toNat ∧ x.toNat + data.length ≤ 0x5000 ∨ 0x6000 ≤ x.toNat ∧ x.toNat + data.length ≤ 0xE000) ∧ data.length ≤ 4096) ∧
    (∃ (s : State) (f : RegField) (k : Nat) (v : DWord), (f, k) ∈ plainPosted ∧ s.posted.filter (fun w => w.page == f.cls.page k) = [⟨f.cls.page k, f.off, 0xF, v.toNat⟩]) :=
  ⟨⟨host, 0x004044, [some 1, none, some 3, some 4], by decide +kernel⟩,
   ⟨unl (PageClass.page .evt 0) [], EVT_HOLDOFF, 0x12345, by decide +kernel⟩,
   ⟨host, 0x004044, [1, 2, 3, 4], by decide +kernel⟩,
   ⟨host, 0x4FFF, [0x5A], by decide +kernel⟩,
   ⟨host, 0xDFF8, [1, 2, 3, 4, 5, 6, 7, 8], by decide +kernel⟩,
   ⟨{ host with posted := [⟨PageClass.page .hbm 3, 0x07C, 0xF, 0x80000001⟩] }, HBM_RETAIN, 3, 0x80000001, by decide +kernel⟩⟩

/-- The hypotheses of `ReadsClearLatchesAndHoldHighHalves` are met. -/
theorem witness_ReadsClearLatchesAndHoldHighHalves :
    (∃ (s : State) (addr : BitVec 24) (len : Fin 4097), s.hostOpen = true ∧ addr.toNat % 8 + len.val ≤ 8 ∧ addr.toNat / 8 ≠ (grtPage * 4096 + 0x050) / 8) ∧
    (∃ (s : State) (addr : BitVec 24) (len : Fin 4097), s.hostOpen = true ∧ addr.toNat % 8 + len.val ≤ 8 ∧ addr.toNat / 8 ≠ (grtPage * 4096 + 0x050) / 8) ∧
    (∃ (s : State) (p : BitVec 12) (c : PageClass) (n : Nat), s.hostOpen = true ∧ s.paused = false ∧ pageOf p.toNat = some (c, n)) ∧
    (∃ (s : State) (x : BitVec 24) (len : Fin 4097), s.hostOpen = true ∧ s.paused = false ∧ x.toNat + len.val ≤ 0x10000) ∧
    (∃ (s : State) (x : BitVec 24) (len : Fin 4097), s.hostOpen = true ∧ s.paused = false ∧ x.toNat + len.val ≤ 0x10000) ∧
    (∃ (s : State) (addr : BitVec 24) (len : Fin 9), s.hostOpen = true ∧ addr.toNat % 8 + len.val ≤ 8 ∧ addr.toNat / 8 ≠ (grtPage * 4096 + 0x050) / 8) ∧
    (∃ (s : State) (addr : BitVec 24), s.hostOpen = true ∧ s.paused = false ∧ addr.toNat % 8 = 0 ∧ addr.toNat / 8 ≠ (grtPage * 4096 + 0x050) / 8 ∧ pairHalf (addr.toNat / 4096) (addr.toNat % 4096) false = true ∧ pairHalf (addr.toNat / 4096) (addr.toNat % 4096 + 4) true = true ∧ 0x040 ≤ addr.toNat % 4096) ∧
    (∃ (s : State), s.hostOpen = true ∧ s.paused = false ∧ s.is (fencedOf (PageClass.page .time 0)) = false) ∧
    (∃ (s : State) (addr : BitVec 24) (len : Nat), s.hostOpen = true ∧ len ≤ 4096 ∧ (pageOf (addr.toNat / 4096)).isSome = true) :=
  ⟨⟨dev [(SYS_SNAP.one, 1)], 0x000020, 8, by decide +kernel⟩,
   ⟨host, 0x000045, 3, by decide +kernel⟩,
   ⟨dev [(eventCell 0 0x010 1, 1)], 0, .sys, 0, by decide +kernel⟩,
   ⟨{ host with link := { host.link with bar4 := [(0x4FFF, 7)] } }, 0x4FFE, 8, by decide +kernel⟩,
   ⟨host, 0xFFFC, 4, by decide +kernel⟩,
   ⟨host, 0x002040, 8, by decide +kernel⟩,
   ⟨{ live [] with now := 2 ^ 40 * 1024 }, 0x002040, by decide +kernel⟩,
   ⟨{ live [] with now := 2 ^ 40 * 1024 }, by decide +kernel⟩,
   ⟨host, 0x00103D, 9, by decide +kernel⟩⟩

/-- The hypotheses of `SnapshotsAreRequestedAndTaken` are met. -/
theorem witness_SnapshotsAreRequestedAndTaken :
    (∃ (s : State), s.admits (PageClass.page .sys 0) = true ∧ s.is SYS_SNAP.one = false) ∧
    (∃ (s : State), s.admits (PageClass.page .sys 0) = true ∧ s.is SYS_SNAP.one = true) ∧
    (∃ (s : State), s.snapReady = true) ∧
    (∃ (s : State), s.snapReady = true ∧ s.snapFor .mailbox = false ∧ s.snapFor .port = false) :=
  ⟨⟨unl (PageClass.page .sys 0) [], by decide +kernel⟩,
   ⟨unl (PageClass.page .sys 0) [(SYS_SNAP.one, 1)], by decide +kernel⟩,
   ⟨{ live [(SYS_SNAP_STATUS_PENDING.one, 1), (SYS_SNAP.one, 1)] with clk := { Clocks.reset with frameAt := 2 ^ 18, snaps := [⟨.host, 2 ^ 18⟩, ⟨.nobody, 2 ^ 19⟩] } }, by decide +kernel⟩,
   ⟨{ live [(SYS_SNAP_STATUS_PENDING.one, 1), (SYS_SNAP.one, 1)] with clk := { Clocks.reset with frameAt := 2 ^ 18, snaps := [⟨.host, 2 ^ 18⟩, ⟨.nobody, 2 ^ 19⟩] } }, by decide +kernel⟩⟩

/-- The hypotheses of `ClosedApertureReadsZero` are met. -/
theorem witness_ClosedApertureReadsZero :
    (∃ (s : State) (findings : List EccFinding), s.hostOpen = true ∧ s.is SYS_APERTURE_CTRL.one = false) :=
  ⟨dev [(SYS_APERTURE_CTRL.one, 0)], [], by decide +kernel⟩

/-- The hypotheses of `ApertureWritesAndReadsBursts` are met. -/
theorem witness_ApertureWritesAndReadsBursts :
    (∃ (s : State) (off : DWord) (len : Fin 4097) (findings : List EccFinding), s.hostOpen = true ∧ s.apertureShut = false ∧ s.is HBM_G_STATUS_STOPPED.one = false) ∧
    (∃ (s : State) (off : DWord) (len : Fin 4097) (findings : List EccFinding) (pc : Nat) (x : Nat), s.hostOpen = true ∧ s.apertureShut = false ∧ s.is HBM_G_STATUS_STOPPED.one = false ∧ 0 < len.val ∧ s.apertureAddr off.toNat % 64 + len.val ≤ 64 ∧ findings.headD .clean = .clean ∧ s.apertureReadMap (s.apertureAddr off.toNat / 64 * 64) = some (pc, x) ∧ s.pcState pc = 0 ∧ s.hbm.markAt pc x = 0 ∧ s.hbm.rowPending pc x = false) ∧
    (∃ (s : State) (off : DWord) (data : List Byte) (findings : List EccFinding) (pc : Nat) (x : Nat), (∀ w ∈ s.hbm.writes pc, w.data.length = 64 ∧ w.x + 64 ≤ pcBytes) ∧ s.hostOpen = true ∧ s.apertureShut = false ∧ s.is HBM_G_STATUS_STOPPED.one = false ∧ s.is HBM_G_CTRL_OLD_MAP_READ.one = false ∧ data ≠ [] ∧ s.apertureAddr off.toNat % 64 + data.length ≤ 64 ∧ findings.headD .clean = .clean ∧ s.apertureMap (s.apertureAddr off.toNat / 64 * 64) = some (pc, x) ∧ s.pcState pc < 2 ∧ s.hbm.markAt pc x = 0 ∧ s.inRunningRegion (s.apertureAddr off.toNat) data.length = false) :=
  ⟨⟨hbmUp [(SYS_APERTURE_CTRL.one, 1)], 0x140, 4096, [], by decide +kernel⟩,
   ⟨hbmUp [(SYS_APERTURE_CTRL.one, 1)], 0x140, 64, [], 32, 64, by decide +kernel⟩,
   ⟨hbmUp [(SYS_APERTURE_CTRL.one, 1)], 0x140, burst, [], 32, 64, no_writes _ (by decide +kernel) 32, by decide +kernel⟩⟩

/-- The hypotheses of `LockProcedureMovesStepByStep` are met. -/
theorem witness_LockProcedureMovesStepByStep :
    (∃ (s : State) (info : LockInfo), 1 ≤ s.get CLK_STATUS_STEP.one ∧ s.get CLK_STATUS_STEP.one ≤ 5 ∧ (s.get CLK_STATUS_STEP.one = 1 → info.inTolerance = true) ∧ (s.get CLK_STATUS_STEP.one = 2 → info.bandFound = true)) ∧
    (∃ (s : State) (info : LockInfo), 1 ≤ s.get CLK_STATUS_STEP.one ∧ s.get CLK_STATUS_STEP.one ≤ 5 ∧ (s.get CLK_STATUS_STEP.one = 1 → info.inTolerance = true) ∧ (s.get CLK_STATUS_STEP.one = 2 → info.bandFound = true)) ∧
    (∃ (s : State) (info : LockInfo), (s.get CLK_STATUS_STEP.one = 0 ∨ 7 ≤ s.get CLK_STATUS_STEP.one)) ∧
    (∃ (s : State) (info : LockInfo), s.get CLK_STATUS_STEP.one = 6) ∧
    (∃ (s : State) (info : LockInfo), (s.get CLK_STATUS_STEP.one = 1 ∧ info.inTolerance = false ∨ s.get CLK_STATUS_STEP.one = 2 ∧ info.bandFound = false)) ∧
    (∃ (s : State) (info : LockInfo), (s.get CLK_STATUS_STEP.one = 1 ∧ info.inTolerance = false ∨ s.get CLK_STATUS_STEP.one = 2 ∧ info.bandFound = false)) ∧
    (∃ (s : State), s.is CLK_STATUS_SEARCHING.one = true) ∧
    (∃ (s : State), s.is CLK_STATUS_SEARCHING.one = false) ∧
    (∃ (s : State), (s.get CLK_STATUS_STEP.one ≠ 7 ∨ s.is CLK_CTRL_AUTO_RELOCK.one = false ∨ s.get CLK_CTRL_RETRY_MS.one = 0)) ∧
    (∃ (s : State), s.get CLK_STATUS_STEP.one = 7 ∧ s.is CLK_CTRL_AUTO_RELOCK.one = true ∧ s.get CLK_CTRL_RETRY_MS.one ≠ 0) :=
  ⟨⟨dev [(CLK_STATUS_STEP.one, 2), (CLK_STATUS_SEARCHING.one, 1)], ⟨true, true, 3, 77, 100, 0⟩, by decide +kernel⟩,
   ⟨dev [(CLK_STATUS_STEP.one, 5), (CLK_STATUS_SEARCHING.one, 1)], ⟨true, true, 3, 77, 100, 0⟩, by decide +kernel⟩,
   ⟨dev [(CLK_STATUS_STEP.one, 7), (CLK_STATUS_SEARCHING.one, 1)], ⟨true, true, 3, 77, 100, 0⟩, by decide +kernel⟩,
   ⟨dev [(CLK_STATUS_STEP.one, 6), (CLK_STATUS_SEARCHING.one, 1)], ⟨true, true, 3, 77, 100, 4096⟩, by decide +kernel⟩,
   ⟨dev [(CLK_STATUS_STEP.one, 1), (CLK_STATUS_SEARCHING.one, 1)], ⟨false, true, 3, 77, 100, 0⟩, by decide +kernel⟩,
   ⟨dev [(CLK_STATUS_STEP.one, 2), (CLK_STATUS_SEARCHING.one, 1)], ⟨true, false, 3, 77, 100, 0⟩, by decide +kernel⟩,
   ⟨dev [(CLK_STATUS_STEP.one, 3), (CLK_STATUS_SEARCHING.one, 1)], by decide +kernel⟩,
   ⟨host, by decide +kernel⟩,
   ⟨host, by decide +kernel⟩,
   ⟨dev [(CLK_STATUS_STEP.one, 7), (CLK_CTRL_RETRY_MS.one, 1), (CLK_CTRL_AUTO_RELOCK.one, 1)], by decide +kernel⟩⟩

/-- The hypotheses of `ClockLossesStartHoldover` are met. -/
theorem witness_ClockLossesStartHoldover :
    (∃ (s : State) (age : DWord) (word : BitVec 24), s.locked = true) ∧
    (∃ (s : State) (age : DWord) (word : BitVec 24), s.locked = true ∧ s.clk.refPresent = true ∧ s.clk.refSeen = true) ∧
    (∃ (s : State) (age : DWord) (word : BitVec 24), s.locked = false) ∧
    (∃ (s : State) (age : DWord) (word : BitVec 24), s.clk.refPresent = false) ∧
    (∃ (s : State) (age : DWord) (word : BitVec 24), s.locked = false ∧ s.clk.refPresent = true) ∧
    (∃ (s : State), s.clk.refPresent = true) ∧
    (∃ (s : State), s.clk.refPresent = false) ∧
    (∃ (s : State) (rms : Byte) (peak : Byte), rms.toNat ≤ peak.toNat) :=
  ⟨⟨live [], 3, 0xFFFFFF, by decide +kernel⟩,
   ⟨{ live [(CLK_STATUS_REF_OK.one, 1)] with clk := { Clocks.reset with refPresent := true, refSeen := true } }, 3, 9, by decide +kernel⟩,
   ⟨host, 3, 9, by decide +kernel⟩,
   ⟨host, 3, 9, by decide +kernel⟩,
   ⟨{ host with clk := { Clocks.reset with refPresent := true, refSeen := true } }, 3, 9, by decide +kernel⟩,
   ⟨{ host with clk := { Clocks.reset with refPresent := true, refSeen := true } }, by decide +kernel⟩,
   ⟨{ dev [(CLK_CTRL_AUTO_RELOCK.one, 1)] with clk := { Clocks.reset with refSeen := true } }, by decide +kernel⟩,
   ⟨host, 254, 255, by decide +kernel⟩⟩

/-- The hypotheses of `ClocksSwitchAndRelock` are met. -/
theorem witness_ClocksSwitchAndRelock :
    (∃ (s : State), s.clk.closing.isSome = true ∧ s.anyRuns = false) ∧
    (∃ (s : State), (s.clk.closing = none ∨ s.anyRuns = true)) ∧
    (∃ (s : State), s.inHoldover = false) ∧
    (∃ (s : State), s.inHoldover = true) ∧
    (∃ (s : State) (v : DWord), s.admits (PageClass.page .clk 0) = true ∧ s.anyRuns = false ∧ s.inHoldover = false ∧ s.is CLK_STATUS_SEARCHING.one = false ∧ s.locked = true) ∧
    (∃ (s : State) (v : DWord), s.admits (PageClass.page .clk 0) = true) ∧
    (∃ (s : State), (s.onBypass = true ∨ s.is CLK_DIV_APPLY.one = false)) ∧
    (∃ (s : State), s.admits (PageClass.page .clk 0) = true) ∧
    (∃ (s : State), s.onBypass = false ∧ s.is CLK_DIV_APPLY.one = true) :=
  ⟨⟨{ live [] with clk := { Clocks.reset with closing := some .relock } }, by decide +kernel⟩,
   ⟨host, by decide +kernel⟩,
   ⟨host, by decide +kernel⟩,
   ⟨live [(CLK_STATUS_LOCKED.one, 0), (CLK_STATUS_HOLDOVER.one, 1)], by decide +kernel⟩,
   ⟨live [(unlockedOf (PageClass.page .clk 0), 1)], 0x1234, by decide +kernel⟩,
   ⟨unl (PageClass.page .clk 0) [], 0x1234, by decide +kernel⟩,
   ⟨host, by decide +kernel⟩,
   ⟨unl (PageClass.page .clk 0) [], by decide +kernel⟩,
   ⟨live [(CLK_DIV_APPLY.one, 1), (CLK_DIV_NEXT_CCLK_DIV.one, 3), (CLK_DIV_NEXT_PCLK_DIV.one, 1)], by decide +kernel⟩⟩

/-- The hypotheses of `EraAlarmsAndCalendarAdvance` are met. -/
theorem witness_EraAlarmsAndCalendarAdvance :
    (∃ (s : State), s.is TIME_STATUS_VALID.one = true ∧ (s.clk.frameAt + frameTicks = (s.now / 2 ^ 64 + 1) * 2 ^ 64 ∨ ∀ n < 65, (s.skein n).reducing = false)) ∧
    (∃ (s : State) (n : Fin 4), (sget s.clk.alarms n.val Alarm.idle).next = none) ∧
    (∃ (s : State) (n : Fin 4) (at_ : Nat), (sget s.clk.alarms n.val Alarm.idle).next = some at_ ∧ (s.sampling = false ∨ s.is (TIME_ALARM_CTRL.elt n.val) = false ∨ s.clk.frameAt + frameTicks ≤ at_)) ∧
    (∃ (s : State) (n : Fin 4) (at_ : Nat), (sget s.clk.alarms n.val Alarm.idle).next = some at_ ∧ s.sampling = true ∧ s.is (TIME_ALARM_CTRL.elt n.val) = true ∧ at_ < s.clk.frameAt + frameTicks) :=
  ⟨⟨live [], by decide +kernel⟩,
   ⟨host, 3, by decide +kernel⟩,
   ⟨{ live [(TIME_ALARM_CTRL.elt 3, 0), (TIME_ALARM_PERIOD.elt 3, 7)] with clk := { Clocks.reset with alarms := [(3, ⟨some 262143, false, false⟩)] } }, 3, 262143, by decide +kernel⟩,
   ⟨{ live [(TIME_ALARM_CTRL.elt 3, 1), (TIME_ALARM_PERIOD.elt 3, 7)] with clk := { Clocks.reset with alarms := [(3, ⟨some 262143, false, false⟩)] } }, 3, 262143, by decide +kernel⟩⟩

/-- The hypotheses of `SyncArmsAndSetsTheTimebase` are met. -/
theorem witness_SyncArmsAndSetsTheTimebase :
    (∃ (s : State) (v : DWord), s.admits (PageClass.page .time 0) = true ∧ bitOf v.toNat 5 = false) ∧
    (∃ (s : State) (v : DWord), s.admits (PageClass.page .time 0) = true ∧ bitOf v.toNat 5 = false) ∧
    (∃ (s : State) (v : DWord), s.admits (PageClass.page .time 0) = true) ∧
    (∃ (s : State) (v : DWord), s.admits (PageClass.page .time 0) = true ∧ field v.toNat 2 2 = 1 ∧ s.is CLK_STATUS_REF_OK.one = true) ∧
    (∃ (s : State) (level : Bool), s.clk.refPresent = true ∧ s.is TIME_STATUS_ARMED.one = true ∧ s.clk.syncIn = s.is TIME_SYNC_CTRL_IN_EDGE.one ∧ level = !s.is TIME_SYNC_CTRL_IN_EDGE.one) ∧
    (∃ (s : State) (level : Bool), s.clk.refPresent = true ∧ s.is TIME_STATUS_ARMED.one = false ∧ s.clk.syncIn = s.is TIME_SYNC_CTRL_IN_EDGE.one ∧ level = !s.is TIME_SYNC_CTRL_IN_EDGE.one) ∧
    (∃ (s : State) (level : Bool), s.clk.refPresent = true ∧ (s.clk.syncIn ≠ s.is TIME_SYNC_CTRL_IN_EDGE.one ∨ level = s.is TIME_SYNC_CTRL_IN_EDGE.one)) ∧
    (∃ (s : State) (level : Bool), s.clk.refPresent = false) :=
  ⟨⟨live [(unlockedOf (PageClass.page .time 0), 1)], 0x11, by decide +kernel⟩,
   ⟨unl (PageClass.page .time 0) [], 0x11, by decide +kernel⟩,
   ⟨live [(unlockedOf (PageClass.page .time 0), 1), (TIME_STATUS_ARMED.one, 1)], 0x20, by decide +kernel⟩,
   ⟨live [(unlockedOf (PageClass.page .time 0), 1), (CLK_STATUS_REF_OK.one, 1)], 4, by decide +kernel⟩,
   ⟨{ live [(TIME_STATUS_ARMED.one, 1), (TIME_SYNC_VALUE.one, 5), (TIME_SYNC_ERA.one, 1)] with clk := { Clocks.reset with refPresent := true, refSeen := true } }, true, by decide +kernel⟩,
   ⟨{ live [] with clk := { Clocks.reset with refPresent := true, refSeen := true } }, true, by decide +kernel⟩,
   ⟨{ live [] with clk := { Clocks.reset with refPresent := true, refSeen := true } }, false, by decide +kernel⟩,
   ⟨live [], true, by decide +kernel⟩⟩

/-- The hypotheses of `LifetimeCountersCount` are met. -/
theorem witness_LifetimeCountersCount :
    (∃ (s : State) (v : DWord), s.admits (PageClass.page .life 0) = true) ∧
    (∃ (s : State) (c : WearCounter) (v : BitVec 64) (f : Fld), s.Sound ∧ s.admits (PageClass.page .life 0) = true ∧ s.wearCell c = some f) ∧
    (∃ (s : State), s.pwr.aonFresh = true) ∧
    (∃ (s : State), s.pwr.aonFresh = false) ∧
    (∃ (s : State), s.pwr.aonFresh = false) ∧
    (∃ (s : State), s.pwr.aonFresh = false ∧ s.get LIFE_THERMAL_STATE_DIRECTION.one = 1 ∧ 40 < s.hottest - signed 8 (s.get LIFE_THERMAL_STATE_EXTREME.one)) :=
  ⟨⟨unl (PageClass.page .life 0) [], 0xFFFFFFFF, by decide +kernel⟩,
   ⟨unl (PageClass.page .life 0) [(LIFE_OVR_INDEX.one, 64)], .ovrCount, 0xFFFFFFFFFF, LIFE_OVR_COUNT.win 64, sound_of _ (by decide +kernel), by decide +kernel⟩,
   ⟨host, by decide +kernel⟩,
   ⟨{ dev [(LIFE_THERMAL_STATE_DIRECTION.one, 0), (LIFE_THERMAL_STATE_EXTREME.one, 0x70)] with pwr := { Power.reset with aonFresh := false } }, by decide +kernel⟩,
   ⟨{ dev [(LIFE_THERMAL_STATE_DIRECTION.one, 1), (LIFE_THERMAL_STATE_EXTREME.one, 0x10)] with pwr := { Power.reset with aonFresh := false } }, by decide +kernel⟩,
   ⟨{ dev [(LIFE_THERMAL_STATE_DIRECTION.one, 1), (LIFE_THERMAL_STATE_EXTREME.one, 0xF6), (PWR_TEMP_MAX_TEMP.one, 31)] with pwr := { Power.reset with aonFresh := false } }, by decide +kernel⟩⟩

/-- The hypotheses of `JournalCommitsAndAlwaysOnWatch` are met. -/
theorem witness_JournalCommitsAndAlwaysOnWatch :
    (∃ (s : State), s.svc.commit = none) ∧
    (∃ (s : State), s.svc.commit.isSome = true) ∧
    (∃ (s : State), s.admits (PageClass.page .life 0) = true ∧ s.svc.commit = none) ∧
    (∃ (s : State), s.admits (PageClass.page .life 0) = true ∧ s.svc.commit.isSome = true) ∧
    (∃ (s : State) (ok : Bool), s.svc.commit = none) ∧
    (∃ (s : State) (ok : Bool), s.svc.commit.isSome = true ∧ s.svc.commitNext = true) ∧
    (∃ (s : State) (r : JournalRec), s.svc.commit = some r ∧ s.svc.commitNext = false) ∧
    (∃ (s : State) (r : JournalRec), s.svc.commit = some r ∧ s.svc.commitNext = false) ∧
    (∃ (s : State), s.is LIFE_STATUS_VBAT_OK.one = true) ∧
    (∃ (s : State), s.is LIFE_STATUS_VBAT_OK.one = false) ∧
    (∃ (s : State), s.is LIFE_STATUS_XTAL_OK.one = false) ∧
    (∃ (s : State), s.is LIFE_STATUS_XTAL_OK.one = true) :=
  ⟨⟨host, by decide +kernel⟩,
   ⟨{ host with svc := { Service.reset with commit := some ⟨5, []⟩ } }, by decide +kernel⟩,
   ⟨unl (PageClass.page .life 0) [], by decide +kernel⟩,
   ⟨{ unl (PageClass.page .life 0) [] with svc := { Service.reset with commit := some ⟨5, []⟩ } }, by decide +kernel⟩,
   ⟨host, true, by decide +kernel⟩,
   ⟨{ host with svc := { Service.reset with commit := some ⟨5, []⟩, commitNext := true } }, false, by decide +kernel⟩,
   ⟨{ host with svc := { Service.reset with commit := some ⟨5, []⟩ } }, ⟨5, []⟩, by decide +kernel⟩,
   ⟨{ host with svc := { Service.reset with commit := some ⟨5, []⟩ } }, ⟨5, []⟩, by decide +kernel⟩,
   ⟨dev [(LIFE_STATUS_VBAT_OK.one, 1)], by decide +kernel⟩,
   ⟨dev [(LIFE_STATUS_VBAT_OK.one, 0)], by decide +kernel⟩,
   ⟨dev [(LIFE_STATUS_XTAL_OK.one, 0)], by decide +kernel⟩,
   ⟨dev [(LIFE_STATUS_XTAL_OK.one, 1), (LIFE_STATUS_CAL_VALID.one, 1)], by decide +kernel⟩⟩

/-- The hypotheses of `EdgesAndStateSamplesReachReducers` are met. -/
theorem witness_EdgesAndStateSamplesReachReducers :
    (∃ (s : State) (n : Fin 64) (c : Fin 16) (level : Bool) (time : Nat) (T : Nat), s.sampling = true ∧ s.skeinReady n.val = true ∧ s.get (FE_SOURCE.of 64) ≠ n.val ∧ T = ((time : Int) + signed 14 (s.get (FE_DESKEW.ofElt n.val c.val))).toNat ∧ s.clk.frameAt ≤ T ∧ s.clk.sampleAt - 63 ≤ T ∧ sget (s.skein n.val).holdTo c.val 0 ≤ T) ∧
    (∃ (s : State) (n : Fin 64) (c : Fin 16) (level : Bool) (time : Nat), (s.sampling = false ∨ s.skeinReady n.val = false) ∧ s.get (FE_SOURCE.of 64) ≠ n.val) ∧
    (∃ (s : State) (m : Fin 32) (rising : Bool) (time : Nat) (T : Nat), s.sampling = true ∧ (∀ n < 65, (s.skein n).samples.length < 4096 ∧ (s.skein n).edgeDue = false ∧ s.is (SKN_COMMIT.of n) = false) ∧ T = ((time : Int) + signed 14 (s.get (FEG_SCK_DESKEW.elt m.val))).toNat ∧ (sget s.clk.sck m.val SckMeter.idle).last = 0) ∧
    (∃ (s : State) (m : Fin 32) (rising : Bool) (time : Nat), s.sampling = false) ∧
    (∃ (s : State) (m : Fin 32) (rising : Bool) (time : Nat) (T : Nat), s.sampling = true ∧ (∀ n < 65, (s.skein n).reducing = false) ∧ T = ((time : Int) + signed 14 (s.get (FEG_SCK_DESKEW.elt m.val))).toNat ∧ (sget s.clk.sck m.val SckMeter.idle).last = 0) :=
  ⟨⟨live [(PWR_SKN_READY.one, 2 ^ 63), (FE_DESKEW.ofElt 63 15, 2 ^ 14 - 16)], 63, 15, true, 1000, 984, by decide +kernel⟩,
   ⟨host, 63, 15, true, 1000, by decide +kernel⟩,
   ⟨live [(FEG_SCK_DESKEW.elt 31, 16)], 31, true, 1000, 1016, by decide +kernel⟩,
   ⟨host, 31, true, 1000, by decide +kernel⟩,
   ⟨live [(FEG_SCK_DESKEW.elt 31, 16)], 31, true, 1000, 1016, by decide +kernel⟩⟩

/-- The hypotheses of `CalibrationAndSelfCheckReport` are met. -/
theorem witness_CalibrationAndSelfCheckReport :
    (∃ (s : State), s.admits (PageClass.page .feg 0) = true) ∧
    (∃ (s : State), s.admits (PageClass.page .feg 0) = true) ∧
    (∃ (s : State) (results : List CalResult), s.is FEG_STATUS_CAL_BUSY.one = true) ∧
    (∃ (s : State) (results : List CalResult), s.is FEG_STATUS_CAL_BUSY.one = false) ∧
    (∃ (s : State) (results : List CalResult), s.is FEG_CTRL_BG_CAL_EN.one = true ∧ s.locked = true ∧ s.calEngine = true) ∧
    (∃ (s : State) (results : List CalResult), (s.is FEG_CTRL_BG_CAL_EN.one = false ∨ s.locked = false ∨ s.calEngine = false)) ∧
    (∃ (s : State) (n : Fin 65), (s.is FEG_CTRL_CHECK_EN.one = false ∨ s.is FEG_STATUS_CHECK_BUSY.one = true ∨ s.skeinIdle n.val = false ∨ s.spareAssigned n.val = true ∨ s.get (FE_IDLE_SECONDS.of n.val) < 50)) ∧
    (∃ (s : State) (n : Fin 65), s.is FEG_CTRL_CHECK_EN.one = true ∧ s.is FEG_STATUS_CHECK_BUSY.one = false ∧ s.skeinIdle n.val = true ∧ s.spareAssigned n.val = false ∧ 50 ≤ s.get (FE_IDLE_SECONDS.of n.val)) ∧
    (∃ (s : State) (stuck : BitVec 16) (opened : BitVec 16), s.is FEG_STATUS_CHECK_BUSY.one = false) ∧
    (∃ (s : State) (n : Nat) (stuck : BitVec 16) (opened : BitVec 16), s.is FEG_STATUS_CHECK_BUSY.one = true ∧ s.get FEG_STATUS_CHECK_SKEIN.one = n ∧ n ≤ 64) ∧
    (∃ (s : State) (n : Nat) (stuck : BitVec 16) (opened : BitVec 16), s.is FEG_STATUS_CHECK_BUSY.one = true ∧ s.get FEG_STATUS_CHECK_SKEIN.one = n ∧ n ≤ 64) :=
  ⟨⟨live [(unlockedOf (PageClass.page .feg 0), 1)], by decide +kernel⟩,
   ⟨unl (PageClass.page .feg 0) [], by decide +kernel⟩,
   ⟨live [(FEG_STATUS_CAL_BUSY.one, 1)], [⟨64, ⟨true, 9, 3⟩⟩, ⟨0, ⟨false, 200, 1⟩⟩], by decide +kernel⟩,
   ⟨host, [⟨64, ⟨true, 9, 3⟩⟩, ⟨0, ⟨false, 200, 1⟩⟩], by decide +kernel⟩,
   ⟨live [(FEG_CTRL_BG_CAL_EN.one, 1), (MBX_CPU_STATUS_ME_LOADED.one, 7)], [⟨64, ⟨true, 9, 3⟩⟩, ⟨0, ⟨false, 200, 1⟩⟩], by decide +kernel⟩,
   ⟨host, [⟨64, ⟨true, 9, 3⟩⟩, ⟨0, ⟨false, 200, 1⟩⟩], by decide +kernel⟩,
   ⟨dev [(FEG_CTRL_CHECK_EN.one, 1), (PWR_SKN_READY_64.one, 1), (FE_IDLE_SECONDS.of 64, 49)], 64, by decide +kernel⟩,
   ⟨dev [(FEG_CTRL_CHECK_EN.one, 1), (PWR_SKN_READY_64.one, 1), (FE_IDLE_SECONDS.of 64, 50)], 64, by decide +kernel⟩,
   ⟨host, 0x8001, 3, by decide +kernel⟩,
   ⟨dev [(FEG_STATUS_CHECK_BUSY.one, 1), (FEG_STATUS_CHECK_SKEIN.one, 64)], 64, 0x8001, 3, by decide +kernel⟩,
   ⟨dev [(FEG_STATUS_CHECK_BUSY.one, 1), (FEG_STATUS_CHECK_SKEIN.one, 63)], 63, 0x8001, 3, by decide +kernel⟩⟩

/-- The hypotheses of `FramesAndSamplesComeInOrder` are met. -/
theorem witness_FramesAndSamplesComeInOrder :
    (∃ (s : State) (f : FrameFindings), s.sampling = true) ∧
    (∃ (s : State) (f : FrameFindings), s.sampling = true) ∧
    (∃ (s : State) (f : FrameFindings), s.sampling = false) ∧
    (∃ (s : State), s.Sound ∧ s.sampling = true ∧ s.clk.sampleAt < s.clk.frameAt + frameTicks) ∧
    (∃ (s : State), (s.sampling = false ∨ s.clk.frameAt + frameTicks ≤ s.clk.sampleAt)) ∧
    (∃ (s : State) (counts : List (Fin 73 × DWord)), s.sampling = true ∧ s.clk.frameAt % epochTicks = 0 ∧ s.clk.epochAt < s.clk.frameAt) ∧
    (∃ (s : State) (counts : List (Fin 73 × DWord)), (s.sampling = false ∨ s.clk.frameAt % epochTicks ≠ 0 ∨ s.clk.frameAt ≤ s.clk.epochAt)) ∧
    (∃ (s : State) (n : Fin 65) (differs : Bool), (n.val < 64 ∨ differs = false) ∧ (s.skein n.val).reducing = true ∧ s.replaced n.val = false ∧ (s.gear (s.streamOf n.val)).stateMode = true ∧ (s.skein n.val).samples.length = 4096) ∧
    (∃ (s : State) (n : Fin 65) (differs : Bool), ((s.skein n.val).reducing = false ∨ s.replaced n.val = true ∨ (s.gear (s.streamOf n.val)).stateMode = false ∨ (s.skein n.val).samples.length ≠ 4096)) :=
  ⟨⟨live [], ⟨[], false, []⟩, by decide +kernel⟩,
   ⟨recording [] [(CLK_STATUS_LOCKED.one, 1)], ⟨[3], false, [2]⟩, by decide +kernel⟩,
   ⟨host, ⟨[3], true, [0, 3]⟩, by decide +kernel⟩,
   ⟨{ live [] with clk := { Clocks.reset with sampleAt := 262080 } }, sound_of _ (by decide +kernel), by decide +kernel⟩,
   ⟨{ live [] with clk := { Clocks.reset with sampleAt := 262144 } }, by decide +kernel⟩,
   ⟨{ live [] with clk := { Clocks.reset with frameAt := epochTicks }, now := epochTicks }, [(0, 1)], by decide +kernel⟩,
   ⟨live [], [], by decide +kernel⟩,
   ⟨stateFull, 63, false, by decide +kernel⟩,
   ⟨live [], 64, true, by decide +kernel⟩⟩

/-- The hypotheses of `SequencersArmAndDisarm` are met. -/
theorem witness_SequencersArmAndDisarm :
    (∃ (s : State) (u : State) (n : Fin 8) (v : DWord), u = forEach (trgCtrlFields n.val (setField v.toNat 0 1 1)) (s.set (unlockedOf (PageClass.page .trg n.val)) 0) (fun p s => s.set p.1 p.2) ∧ s.admits (PageClass.page .trg n.val) = true ∧ bitOf v.toNat 1 = false ∧ s.seqArmed n.val = false ∧ s.get (TRG_STATUS_STATE.of n.val) ≠ 1) ∧
    (∃ (s : State) (u : State) (n : Fin 8) (v : DWord), u = forEach (trgCtrlFields n.val (setField v.toNat 0 1 1)) (s.set (unlockedOf (PageClass.page .trg n.val)) 0) (fun p s => s.set p.1 p.2) ∧ s.admits (PageClass.page .trg n.val) = true ∧ bitOf v.toNat 1 = false ∧ s.seqArmed n.val = false ∧ s.get (TRG_STATUS_STATE.of n.val) ≠ 1) ∧
    (∃ (s : State) (n : Fin 8) (v : DWord), s.admits (PageClass.page .trg n.val) = true ∧ bitOf v.toNat 1 = false ∧ (s.seqArmed n.val = true ∨ s.get (TRG_STATUS_STATE.of n.val) = 1)) ∧
    (∃ (s : State) (n : Fin 8) (v : DWord), bitOf v.toNat 1 = true) ∧
    (∃ (s : State) (n : Fin 8) (v : DWord), s.admits (PageClass.page .trg n.val) = true ∧ (s.seqArmed n.val = true ∨ s.get (TRG_STATUS_STATE.of n.val) = 1)) ∧
    (∃ (s : State) (n : Fin 8) (v : DWord), s.admits (PageClass.page .trg n.val) = true ∧ (s.seqArmed n.val = true ∨ s.get (TRG_STATUS_STATE.of n.val) = 1)) ∧
    (∃ (s : State) (n : Fin 8) (v : DWord), s.admits (PageClass.page .trg n.val) = true ∧ s.seqArmed n.val = false ∧ s.get (TRG_STATUS_STATE.of n.val) ≠ 1) ∧
    (∃ (s : State) (n : Fin 8) (v : DWord), s.admits (PageClass.page .trg n.val) = true) ∧
    (∃ (s : State) (n : Fin 8) (v : DWord), s.admits (PageClass.page .trg n.val) = true) :=
  ⟨⟨unl (PageClass.page .trg 7) [], forEach (trgCtrlFields 7 (setField 0x600001 0 1 1)) ((unl (PageClass.page .trg 7) []).set (unlockedOf (PageClass.page .trg 7)) 0) (fun p s => s.set p.1 p.2), 7, 0x600001, rfl, by decide +kernel⟩,
   ⟨unl (PageClass.page .trg 7) [(WR_SESSION_STATUS_STATE.elt 7, 3), (CLK_STATUS_LOCKED.one, 1), (PWR_TRG_GATE_READY.one, 0xFF)], forEach (trgCtrlFields 7 (setField 1 0 1 1)) ((unl (PageClass.page .trg 7) [(WR_SESSION_STATUS_STATE.elt 7, 3), (CLK_STATUS_LOCKED.one, 1), (PWR_TRG_GATE_READY.one, 0xFF)]).set (unlockedOf (PageClass.page .trg 7)) 0) (fun p s => s.set p.1 p.2), 7, 1, rfl, by decide +kernel⟩,
   ⟨unl (PageClass.page .trg 7) [(TRG_STATUS_STATE.of 7, 2)], 7, 1, by decide +kernel⟩,
   ⟨unl (PageClass.page .trg 7) [], 7, 3, by decide +kernel⟩,
   ⟨{ unl (PageClass.page .trg 7) [(TRG_STATUS_STATE.of 7, 2)] with pins := { Pins.reset with contrib := [(23 * 8 + 7, .asserted)] } }, 7, 2, by decide +kernel⟩,
   ⟨unl (PageClass.page .trg 7) [(TRG_STATUS_STATE.of 7, 1)], 7, 2, by decide +kernel⟩,
   ⟨unl (PageClass.page .trg 7) [(TRG_STATUS_STATE.of 7, 5)], 7, 2, by decide +kernel⟩,
   ⟨unl (PageClass.page .trg 7) [], 7, 3, by decide +kernel⟩,
   ⟨unl (PageClass.page .trg 7) [(TRG_CTRL_DETACH.of 7, 1)], 7, 0, by decide +kernel⟩⟩

/-- The hypotheses of `TimersAndCountersEnd` are met. -/
theorem witness_TimersAndCountersEnd :
    (∃ (s : State) (i : Fin 32), s.is (TRG_TM_CTRL_ENABLE.res i.val) = true ∧ s.get (TRG_TM_LIMIT.res i.val) ≤ s.get (TRG_TM_VALUE.res i.val)) ∧
    (∃ (s : State) (i : Fin 32), (s.is (TRG_TM_CTRL_ENABLE.res i.val) = false ∨ s.get (TRG_TM_VALUE.res i.val) < s.get (TRG_TM_LIMIT.res i.val))) ∧
    (∃ (s : State) (i : Fin 32), s.get (TRG_CT_TARGET.res i.val) ≤ s.get (TRG_CT_VALUE.res i.val)) ∧
    (∃ (s : State) (i : Fin 32), s.get (TRG_CT_VALUE.res i.val) < s.get (TRG_CT_TARGET.res i.val)) ∧
    (∃ (s : State) (i : Fin 32), s.get (TRG_CT_VALUE.res i.val) = 2 ^ 48 - 1) ∧
    (∃ (s : State) (i : Fin 32), s.get (TRG_CT_VALUE.res i.val) ≠ 2 ^ 48 - 1) ∧
    (∃ (s : State) (i : Fin 32), s.get (TRG_TM_VALUE.res i.val) ≠ 2 ^ 48 - 1) ∧
    (∃ (s : State) (i : Fin 32), s.get (TRG_TM_VALUE.res i.val) = 2 ^ 48 - 1) :=
  ⟨⟨dev [(TRG_TM_CTRL_ENABLE.res 31, 1), (TRG_TM_LIMIT.res 31, 9), (TRG_TM_VALUE.res 31, 9), (TRG_TM_STATUS_RUNNING.res 31, 1)], 31, by decide +kernel⟩,
   ⟨dev [(TRG_TM_CTRL_ENABLE.res 31, 1), (TRG_TM_LIMIT.res 31, 9), (TRG_TM_VALUE.res 31, 8)], 31, by decide +kernel⟩,
   ⟨dev [(TRG_CT_TARGET.res 31, 9), (TRG_CT_VALUE.res 31, 9)], 31, by decide +kernel⟩,
   ⟨dev [(TRG_CT_TARGET.res 31, 9), (TRG_CT_VALUE.res 31, 8)], 31, by decide +kernel⟩,
   ⟨dev [(TRG_CT_VALUE.res 31, 2 ^ 48 - 1)], 31, by decide +kernel⟩,
   ⟨host, 31, by decide +kernel⟩,
   ⟨host, 31, by decide +kernel⟩,
   ⟨dev [(TRG_TM_VALUE.res 31, 2 ^ 48 - 1), (TRG_TM_STATUS_RUNNING.res 31, 1)], 31, by decide +kernel⟩⟩

/-- The hypotheses of `InputsTravelAndPulsesEnd` are met. -/
theorem witness_InputsTravelAndPulsesEnd :
    (∃ (s : State) (k : Fin 8) (level : Bool), bitOf s.pins.trigIn k.val = !level) ∧
    (∃ (s : State) (k : Fin 4) (low : Bool), bitOf s.pins.xtrigLow k.val = !low ∧ (low = true ∨ s.xtrigDriven k.val = false)) ∧
    (∃ (s : State) (k : Fin 4) (low : Bool), (bitOf s.pins.xtrigLow k.val = low ∨ (low = false ∧ s.xtrigDriven k.val = true))) ∧
    (∃ (s : State) (pin : Fin 24) (n : Fin 8) (u : Nat), s.contrib pin.val n.val = .pulse u ∧ u ≤ s.instant) ∧
    (∃ (s : State) (pin : Fin 24) (n : Fin 8) (u : Nat), s.contrib pin.val n.val = .pulse u ∧ s.instant < u) ∧
    (∃ (s : State) (pin : Fin 24) (n : Fin 8), (s.contrib pin.val n.val = .asserted ∨ s.contrib pin.val n.val = .clear)) :=
  ⟨⟨host, 7, true, by decide +kernel⟩,
   ⟨host, 3, true, by decide +kernel⟩,
   ⟨host, 3, false, by decide +kernel⟩,
   ⟨{ host with pins := { Pins.reset with contrib := [(23 * 8 + 7, .pulse 500)] }, now := 500 }, 23, 7, 500, by decide +kernel⟩,
   ⟨{ host with pins := { Pins.reset with contrib := [(23 * 8 + 7, .pulse 500)] }, now := 499 }, 23, 7, 500, by decide +kernel⟩,
   ⟨{ host with pins := { Pins.reset with contrib := [(23 * 8 + 7, .asserted)] }, now := 0 }, 23, 7, by decide +kernel⟩⟩

/-- The hypotheses of `HoldsAreLimitedAndReleased` are met. -/
theorem witness_HoldsAreLimitedAndReleased :
    (∃ (s : State) (k : Fin 8), s.holdLasted k.val (s.holdLimitTicks k.val) = true) ∧
    (∃ (s : State) (k : Fin 8), s.holdLasted k.val (s.holdLimitTicks k.val) = false) ∧
    (∃ (s : State) (k : Fin 8), s.holdLasted k.val (1050 * ticksUs) = true) ∧
    (∃ (s : State) (k : Fin 8), s.holdLasted k.val (1050 * ticksUs) = false) ∧
    (∃ (s : State), s.pins.releaseLow = true) ∧
    (∃ (s : State), s.pins.releaseLow = false) :=
  ⟨⟨{ live [(DUT_HOLD_CTRL_ENABLE.of 7, 1), (DUT_HOLD_CTRL_GAP_US.of 7, 3), (DUT_HOLD_CTRL_MAX_US.of 7, 5)] with pins := { Pins.reset with contrib := [(23 * 8 + 7, .asserted)] }, now := 1050 * ticksUs }, 7, by decide +kernel⟩,
   ⟨{ live [(DUT_HOLD_CTRL_ENABLE.of 7, 1), (DUT_HOLD_CTRL_GAP_US.of 7, 3), (DUT_HOLD_CTRL_MAX_US.of 7, 5)] with pins := { Pins.reset with contrib := [(23 * 8 + 7, .asserted)] }, now := 0 }, 7, by decide +kernel⟩,
   ⟨{ live [(DUT_HOLD_CTRL_ENABLE.of 7, 1), (DUT_HOLD_CTRL_GAP_US.of 7, 3), (DUT_HOLD_CTRL_MAX_US.of 7, 5)] with pins := { Pins.reset with contrib := [(23 * 8 + 7, .asserted)] }, now := 1050 * ticksUs }, 7, by decide +kernel⟩,
   ⟨{ live [(DUT_HOLD_CTRL_ENABLE.of 7, 1), (DUT_HOLD_CTRL_GAP_US.of 7, 3), (DUT_HOLD_CTRL_MAX_US.of 7, 5)] with pins := { Pins.reset with contrib := [(23 * 8 + 7, .asserted)] }, now := 5 * ticksUs }, 7, by decide +kernel⟩,
   ⟨{ host with pins := { Pins.reset with releaseLow := true } }, by decide +kernel⟩,
   ⟨host, by decide +kernel⟩⟩

/-- The hypotheses of `ReplaysTakeUnitsAndEnd` are met. -/
theorem witness_ReplaysTakeUnitsAndEnd :
    (∃ (s : State) (n : Fin 8) (words : List Stitch) (rest : List Stitch) (limit : Nat), s.get (TRG_STATUS_STATE.of n.val) = 4 ∧ firstItem (s.seq n.val).playIn = .unit words rest ∧ (s.seq n.val).playBegun = false ∧ (s.seq n.val).playStop = 0 ∧ (s.seq n.val).sampleLimit words rest = some limit ∧ (s.namedSkeins n.val).filter (fun p => p.1 == (openerOf words).skein) = []) ∧
    (∃ (s : State) (n : Fin 8), (s.get (TRG_STATUS_STATE.of n.val) ≠ 4 ∨ (firstItem (s.seq n.val).playIn = .short ∧ ((s.seq n.val).playStop = 0 ∨ ((s.seq n.val).outBuf ≠ [] ∧ s.outWaits n.val = true))))) ∧
    (∃ (s : State) (n : Fin 8), (s.get (TRG_STATUS_STATE.of n.val) ≠ 4 ∨ (firstItem (s.seq n.val).playIn = .short ∧ ((s.seq n.val).playStop = 0 ∨ ((s.seq n.val).outBuf ≠ [] ∧ s.outWaits n.val = true))))) ∧
    (∃ (s : State) (n : Fin 8), s.get (TRG_STATUS_STATE.of n.val) = 4 ∧ (s.seq n.val).playIn = [] ∧ (s.seq n.val).playStop ≠ 0 ∧ ((s.seq n.val).outBuf = [] ∨ s.outWaits n.val = false)) :=
  ⟨⟨{ live [(TRG_STATUS_STATE.of 7, 4)] with seqs := [(7, { Seq.idle with playIn := [0x1000000000000000, 0x0000000000000005, 0xB000000000000000] })] }, 7, [0x1000000000000000, 0x0000000000000005], [0xB000000000000000], 4096, by decide +kernel⟩,
   ⟨{ live [(TRG_STATUS_STATE.of 7, 2)] with seqs := [(7, { Seq.idle with playStop := 2 })] }, 7, by decide +kernel⟩,
   ⟨{ live [(TRG_STATUS_STATE.of 7, 4)] with seqs := [(7, { Seq.idle with playIn := [] })] }, 7, by decide +kernel⟩,
   ⟨{ live [(TRG_STATUS_STATE.of 7, 4)] with seqs := [(7, { Seq.idle with playStop := 2 })] }, 7, by decide +kernel⟩⟩

/-- The hypotheses of `BudgetWritesAndRebuild` are met. -/
theorem witness_BudgetWritesAndRebuild :
    (∃ (s : State) (v : DWord), s.admits (PageClass.page .adm 0) = true) ∧
    (∃ (s : State) (v : DWord), s.admits (PageClass.page .adm 0) = true) ∧
    (∃ (s : State) (v : DWord) (o : Nat), (∀ i, s.laneOwner o = some i → s.sessRuns i = true → s.get (ADM_CREDIT_MIN.win o) ≤ field v.toNat 0 16) ∧ s.admits (PageClass.page .adm 0) = true ∧ o = s.get ADM_CREDIT_INDEX.one ∧ s.creditOwners.contains o = true ∧ (field v.toNat 0 16 ≤ s.creditsOf o ∨ (s.creditOwners.map s.creditsOf).sum - s.creditsOf o + field v.toNat 0 16 ≤ s.get ADM_SLOTS_WRITE.one)) ∧
    (∃ (s : State) (v : DWord) (o : Nat), (∀ i, s.laneOwner o = some i → s.sessRuns i = true → s.get (ADM_CREDIT_MIN.win o) ≤ field v.toNat 0 16) ∧ s.admits (PageClass.page .adm 0) = true ∧ o = s.get ADM_CREDIT_INDEX.one ∧ s.creditOwners.contains o = true ∧ (field v.toNat 0 16 ≤ s.creditsOf o ∨ (s.creditOwners.map s.creditsOf).sum - s.creditsOf o + field v.toNat 0 16 ≤ s.get ADM_SLOTS_WRITE.one)) ∧
    (∃ (s : State) (v : DWord) (o : Nat), (s.creditOwners.contains o = false ∨ (∃ i, s.laneOwner o = some i ∧ s.sessRuns i = true ∧ field v.toNat 0 16 < s.get (ADM_CREDIT_MIN.win o)) ∨ (s.creditsOf o < field v.toNat 0 16 ∧ s.get ADM_SLOTS_WRITE.one < (s.creditOwners.map s.creditsOf).sum - s.creditsOf o + field v.toNat 0 16)) ∧ s.admits (PageClass.page .adm 0) = true ∧ o = s.get ADM_CREDIT_INDEX.one) ∧
    (∃ (s : State) (v : DWord) (o : Nat), (s.creditOwners.contains o = false ∨ (∃ i, s.laneOwner o = some i ∧ s.sessRuns i = true ∧ field v.toNat 0 16 < s.get (ADM_CREDIT_MIN.win o)) ∨ (s.creditsOf o < field v.toNat 0 16 ∧ s.get ADM_SLOTS_WRITE.one < (s.creditOwners.map s.creditsOf).sum - s.creditsOf o + field v.toNat 0 16)) ∧ s.admits (PageClass.page .adm 0) = true ∧ o = s.get ADM_CREDIT_INDEX.one) ∧
    (∃ (s : State), (s.rcd.rebuildAsk = false ∨ s.anyRuns = true)) ∧
    (∃ (s : State), s.rcd.rebuildAsk = true ∧ s.anyRuns = false) :=
  ⟨⟨unl (PageClass.page .adm 0) [(ADM_SLOTS_TOTAL.one, 14400)], 500, by decide +kernel⟩,
   ⟨unl (PageClass.page .adm 0) [(ADM_SLOTS_TOTAL.one, 14400)], 499, by decide +kernel⟩,
   ⟨recording [] [(unlockedOf (PageClass.page .adm 0), 1), (ADM_CREDIT_INDEX.one, 3), (ADM_CREDIT_MIN.win 3, 2), (ADM_CREDIT_CREDITS.win 3, 9), (ADM_CREDIT_CREDITS.win 66, 2)], 2, 3, fun _ _ _ => by decide +kernel, by decide +kernel⟩,
   ⟨recording [] [(unlockedOf (PageClass.page .adm 0), 1), (ADM_CREDIT_INDEX.one, 3), (ADM_CREDIT_MIN.win 3, 2), (ADM_CREDIT_CREDITS.win 3, 9), (ADM_CREDIT_CREDITS.win 66, 2), (ADM_SLOTS_WRITE.one, 14)], 12, 3, fun _ _ _ => by decide +kernel, by decide +kernel⟩,
   ⟨unl (PageClass.page .adm 0) [], 2, 0, .inl (by decide +kernel), by decide +kernel⟩,
   ⟨recording [] [(unlockedOf (PageClass.page .adm 0), 1), (ADM_CREDIT_INDEX.one, 3), (ADM_CREDIT_MIN.win 3, 2), (ADM_CREDIT_CREDITS.win 3, 9), (ADM_CREDIT_CREDITS.win 66, 2), (ADM_SLOTS_WRITE.one, 14)], 13, 3, .inr (.inr (by decide +kernel)), by decide +kernel⟩,
   ⟨host, by decide +kernel⟩,
   ⟨{ host with rcd := { Record.reset with rebuildAsk := true } }, by decide +kernel⟩⟩

/-- The hypotheses of `WriterSlotsServeTheirOwners` are met. -/
theorem witness_WriterSlotsServeTheirOwners :
    (∃ (s : State) (o : Fin 72) (f : SlotFindings), s.get (WR_LANE_SIZE.win o.val) = 0) ∧
    (∃ (s : State) (o : Fin 72) (f : SlotFindings), s.get (WR_LANE_SIZE.win o.val) ≠ 0 ∧ (o.val < 64 → (s.skein o.val).queue = []) ∧ (64 ≤ o.val → sget s.rcd.recordQ (o.val - 64) [] = [] ∧ s.seqWaiting (o.val - 64) = [])) ∧
    (∃ (s : State) (o : Fin 72) (f : SlotFindings), s.get (WR_LANE_SIZE.win o.val) ≠ 0 ∧ (o.val < 64 → (s.skein o.val).queue = []) ∧ (64 ≤ o.val → sget s.rcd.recordQ (o.val - 64) [] = [] ∧ s.seqWaiting (o.val - 64) = [])) ∧
    (∃ (s : State) (d : Fin 72) (q : QUnit) (rest : List QUnit), s.Sound ∧ d.val < 64 ∧ s.get (WR_LANE_SIZE.win d.val) ≠ 0 ∧ (s.skein d.val).queue = q :: rest ∧ q.fate = .undecided ∧ (q.gateOn = false ∨ sget s.rcd.stopped d.val 0 = 1)) ∧
    (∃ (s : State) (d : Fin 72) (q : QUnit) (rest : List QUnit), s.Sound ∧ d.val < 64 ∧ s.get (WR_LANE_SIZE.win d.val) ≠ 0 ∧ (s.skein d.val).queue = q :: rest ∧ q.fate = .undecided ∧ (q.gateOn = false ∨ sget s.rcd.stopped d.val 0 = 1)) ∧
    (∃ (s : State) (u : State) (d : Fin 72) (q : QUnit) (rest : List QUnit), s.Sound ∧ u = s.onRcd (fun r => { r with served := smod r.served d.val 0 (· + 1) }) ∧ d.val < 64 ∧ s.get (WR_LANE_SIZE.win d.val) ≠ 0 ∧ (s.skein d.val).queue = q :: rest ∧ (q.fate = .stored ∨ q.fate = .undecided ∧ q.gateOn = true ∧ sget s.rcd.stopped d.val 0 ≠ 1) ∧ q.poison = 0 ∧ (u.laneBurst (s.get (SKN_STATUS_SESSION.of d.val)) d.val (q.words.take 8) false).isSome = true) ∧
    (∃ (s : State) (d : Fin 72) (q : QUnit) (rest : List QUnit), s.Sound ∧ d.val < 64 ∧ s.get (WR_LANE_SIZE.win d.val) ≠ 0 ∧ (s.skein d.val).queue = q :: rest ∧ (q.fate = .stored ∨ q.fate = .undecided ∧ q.gateOn = true ∧ sget s.rcd.stopped d.val 0 ≠ 1)) ∧
    (∃ (s : State) (u : State) (d : Fin 72) (q : QUnit) (rest : List QUnit), s.Sound ∧ u = s.onRcd (fun r => { r with served := smod r.served d.val 0 (· + 1) }) ∧ d.val < 64 ∧ s.get (WR_LANE_SIZE.win d.val) ≠ 0 ∧ (s.skein d.val).queue = q :: rest ∧ (q.fate = .stored ∨ q.fate = .undecided ∧ q.gateOn = true ∧ sget s.rcd.stopped d.val 0 ≠ 1) ∧ q.poison = 0 ∧ (u.laneBurst (s.get (SKN_STATUS_SESSION.of d.val)) d.val (q.words.take 8) false).isSome = true) ∧
    (∃ (s : State) (d : Fin 72) (q : QUnit) (rest : List QUnit), s.Sound ∧ d.val < 64 ∧ s.get (WR_LANE_SIZE.win d.val) ≠ 0 ∧ (s.skein d.val).queue = q :: rest ∧ (q.fate = .stored ∨ q.fate = .undecided ∧ q.gateOn = true ∧ sget s.rcd.stopped d.val 0 ≠ 1)) ∧
    (∃ (s : State) (o : Fin 72), 64 ≤ o.val ∧ s.get (WR_LANE_SIZE.win o.val) ≠ 0 ∧ (sget s.rcd.recordQ (o.val - 64) [] ≠ [] ∨ s.seqWaiting (o.val - 64) ≠ [])) ∧
    (∃ (s : State) (o : Fin 72), 64 ≤ o.val ∧ s.get (WR_LANE_SIZE.win o.val) ≠ 0 ∧ s.recordFull (o.val - 64) 64 = true ∧ sget s.rcd.recordQ (o.val - 64) [] = [] ∧ s.seqWaiting (o.val - 64) ≠ []) ∧
    (∃ (s : State) (u : State) (o : Fin 72), u = (s.onRcd (fun r => { r with served := smod r.served o.val 0 (· + 1), recordQ := smod r.recordQ (o.val - 64) [] (·.drop 0) })).onSeq (o.val - 64) (fun q => { q with stitches := q.stitches.drop ((s.seqWaiting (o.val - 64)).take 8).length }) ∧ 64 ≤ o.val ∧ s.get (WR_LANE_SIZE.win o.val) ≠ 0 ∧ s.recordFull (o.val - 64) 64 = false ∧ sget s.rcd.recordQ (o.val - 64) [] = [] ∧ s.seqWaiting (o.val - 64) ≠ [] ∧ (u.laneBurst (o.val - 64) o.val ((s.seqWaiting (o.val - 64)).take 8) false).isSome = true) :=
  ⟨⟨host, 71, ⟨[], false⟩, by decide +kernel⟩,
   ⟨recording [] [], 3, ⟨[], true⟩, by decide +kernel⟩,
   ⟨recording [] [], 66, ⟨[], true⟩, by decide +kernel⟩,
   ⟨recording [unitOf false .undecided] [], 3, unitOf false .undecided, [], sound_of _ (by decide +kernel), by decide +kernel⟩,
   ⟨{ recording [unitOf true .undecided] [] with rcd := { Record.reset with stopped := [(3, 1)] } }, 3, unitOf true .undecided, [], sound_of _ (by decide +kernel), by decide +kernel⟩,
   ⟨recording [unitOf true .undecided] [], (recording [unitOf true .undecided] []).onRcd (fun r => { r with served := smod r.served 3 0 (· + 1) }), 3, unitOf true .undecided, [], sound_of _ (by decide +kernel), rfl, by decide +kernel⟩,
   ⟨recording [unitOf true .undecided] [], 3, unitOf true .undecided, [], sound_of _ (by decide +kernel), by decide +kernel⟩,
   ⟨recording [unitOf false .stored] [], (recording [unitOf false .stored] []).onRcd (fun r => { r with served := smod r.served 3 0 (· + 1) }), 3, unitOf false .stored, [], sound_of _ (by decide +kernel), rfl, by decide +kernel⟩,
   ⟨recording [unitOf false .stored] [], 3, unitOf false .stored, [], sound_of _ (by decide +kernel), by decide +kernel⟩,
   ⟨{ recording [] [] with seqs := [(2, { Seq.idle with stitches := [7, 8] })] }, 66, by decide +kernel⟩,
   ⟨{ recording [] [(WR_LANE_WRITTEN.win 66, 2 ^ 20)] with seqs := [(2, { Seq.idle with stitches := [7, 8] })] }, 66, by decide +kernel⟩,
   ⟨{ recording [] [] with seqs := [(2, { Seq.idle with stitches := [7, 8] })] }, (({ recording [] [] with seqs := [(2, { Seq.idle with stitches := [7, 8] })] }).onRcd (fun r => { r with served := smod r.served 66 0 (· + 1), recordQ := smod r.recordQ 2 [] (·.drop 0) })).onSeq 2 (fun q => { q with stitches := q.stitches.drop ((({ recording [] [] with seqs := [(2, { Seq.idle with stitches := [7, 8] })] }).seqWaiting 2).take 8).length }), 66, rfl, by decide +kernel⟩⟩

/-- The hypotheses of `RecordsReleasesAndCloses` are met. -/
theorem witness_RecordsReleasesAndCloses :
    (∃ (s : State) (n : Fin 8), sget s.rcd.ledgerDue n.val [] = []) ∧
    (∃ (s : State) (n : Fin 8) (r : List Stitch) (rs : List (List Stitch)), sget s.rcd.ledgerDue n.val [] = r :: rs) ∧
    (∃ (s : State) (a : State) (b : State) (c : State) (n : Fin 8) (r : List Stitch) (rs : List (List Stitch)), s.laneBurst n.val (64 + n.val) (r.take 8) false = some a ∧ a.laneBurst n.val (64 + n.val) ((r.drop 8).take 8) false = some b ∧ b.laneBurst n.val (64 + n.val) (r.drop 16) false = some c ∧ sget s.rcd.ledgerDue n.val [] = r :: rs ∧ sget s.rcd.recordQ n.val [] = [] ∧ s.recordFull n.val 192 = false) ∧
    (∃ (s : State) (n : Fin 8) (r : List Stitch) (rs : List (List Stitch)), sget s.rcd.ledgerDue n.val [] = r :: rs ∧ sget s.rcd.recordQ n.val [] = [] ∧ s.recordFull n.val 192 = true) ∧
    (∃ (s : State) (v : BitVec 64) (i : Nat) (l : Nat), s.Sound ∧ s.admits (PageClass.page .wr 0) = true ∧ l = s.get WR_LANE_INDEX.one ∧ s.laneOwner l = some i ∧ s.policy i = 2) ∧
    (∃ (s : State) (v : BitVec 64) (i : Nat) (l : Nat), s.Sound ∧ s.admits (PageClass.page .wr 0) = true ∧ l = s.get WR_LANE_INDEX.one ∧ s.laneOwner l = some i ∧ s.policy i = 2) ∧
    (∃ (s : State) (v : BitVec 64) (i : Nat) (l : Nat), s.Sound ∧ s.admits (PageClass.page .wr 0) = true ∧ l = s.get WR_LANE_INDEX.one ∧ s.laneOwner l = some i ∧ s.policy i = 2) ∧
    (∃ (s : State) (v : BitVec 64) (i : Nat), s.admits (PageClass.page .wr 0) = true ∧ s.laneOwner (s.get WR_LANE_INDEX.one) = some i ∧ s.policy i ≠ 2) ∧
    (∃ (s : State) (v : BitVec 64), s.admits (PageClass.page .wr 0) = true ∧ s.laneOwner (s.get WR_LANE_INDEX.one) = none) ∧
    (∃ (s : State) (x : Nat), s.Sound ∧ s.admits (PageClass.page .seg 0) = true ∧ x = s.get SEG_INDEX.one) ∧
    (∃ (s : State) (x : Nat), s.Sound ∧ s.admits (PageClass.page .seg 0) = true ∧ x = s.get SEG_INDEX.one) ∧
    (∃ (s : State) (n : Fin 8), s.ending n.val = none) ∧
    (∃ (s : State) (n : Fin 8) (e : CloseReq), s.ending n.val = some e) ∧
    (∃ (s : State) (n : Fin 8) (e : CloseReq), s.ending n.val = some e ∧ s.sessState n.val = 4 ∧ (∀ d ∈ s.planSkeins n.val, (s.skein d).queue = []) ∧ sget s.rcd.recordQ n.val [] = [] ∧ s.seqWaiting n.val = [] ∧ sget s.rcd.ledgerDue n.val [] = []) ∧
    (∃ (s : State) (n : Fin 8) (e : CloseReq), s.ending n.val = some e) ∧
    (∃ (s : State) (n : Fin 8) (e : CloseReq), s.ending n.val = some e ∧ s.sessState n.val = 4 ∧ (∀ d ∈ s.planSkeins n.val, (s.skein d).queue = []) ∧ sget s.rcd.recordQ n.val [] = [] ∧ s.seqWaiting n.val = [] ∧ sget s.rcd.ledgerDue n.val [] = []) :=
  ⟨⟨recording [] [], 2, by decide +kernel⟩,
   ⟨{ recording [] [] with rcd := { Record.reset with ledgerDue := [(2, [recordOf])] } }, 2, recordOf, [], by decide +kernel⟩,
   ⟨{ recording [] [] with rcd := { Record.reset with ledgerDue := [(2, [recordOf])] } }, (({ recording [] [] with rcd := { Record.reset with ledgerDue := [(2, [recordOf])] } }).laneBurst 2 66 (recordOf.take 8) false).getD State.reset, (((({ recording [] [] with rcd := { Record.reset with ledgerDue := [(2, [recordOf])] } }).laneBurst 2 66 (recordOf.take 8) false).getD State.reset).laneBurst 2 66 ((recordOf.drop 8).take 8) false).getD State.reset, (((((({ recording [] [] with rcd := { Record.reset with ledgerDue := [(2, [recordOf])] } }).laneBurst 2 66 (recordOf.take 8) false).getD State.reset).laneBurst 2 66 ((recordOf.drop 8).take 8) false).getD State.reset).laneBurst 2 66 (recordOf.drop 16) false).getD State.reset, 2, recordOf, [], some_getD _ _ (by decide +kernel), some_getD _ _ (by decide +kernel), some_getD _ _ (by decide +kernel), by decide +kernel⟩,
   ⟨{ recording [] [(WR_LANE_WRITTEN.win 66, 2 ^ 20 - 128)] with rcd := { Record.reset with ledgerDue := [(2, [recordOf])] } }, 2, recordOf, [], by decide +kernel⟩,
   ⟨recording [] [(unlockedOf (PageClass.page .wr 0), 1), (WR_LANE_INDEX.one, 3), (WR_LANE_RELEASED.win 3, 64), (WR_LANE_WRITTEN.win 3, 4096)], 64, 2, 3, sound_of _ (by decide +kernel), by decide +kernel⟩,
   ⟨recording [] [(unlockedOf (PageClass.page .wr 0), 1), (WR_LANE_INDEX.one, 3), (WR_LANE_RELEASED.win 3, 64), (WR_LANE_WRITTEN.win 3, 4096)], 63, 2, 3, sound_of _ (by decide +kernel), by decide +kernel⟩,
   ⟨recording [] [(unlockedOf (PageClass.page .wr 0), 1), (WR_LANE_INDEX.one, 3), (WR_LANE_RELEASED.win 3, 64), (WR_LANE_WRITTEN.win 3, 4096)], 4097, 2, 3, sound_of _ (by decide +kernel), by decide +kernel⟩,
   ⟨recording [] [(unlockedOf (PageClass.page .wr 0), 1), (WR_LANE_INDEX.one, 3), (WR_LANE_RELEASED.win 3, 64), (WR_LANE_WRITTEN.win 3, 4096), (WR_SESSION_STATUS_POLICY.elt 2, 0)], 64, 2, by decide +kernel⟩,
   ⟨unl (PageClass.page .wr 0) [], 64, by decide +kernel⟩,
   ⟨unl (PageClass.page .seg 0) [(SEG_INDEX.one, 16383), (SEG_ENTRY_INFO_STATE.win 16383, 1), (SEG_ENTRY_INFO_SESSION.win 16383, 7), (SEG_SESSION_USED.elt 7, 1)], 16383, sound_of _ (by decide +kernel), by decide +kernel⟩,
   ⟨unl (PageClass.page .seg 0) [(SEG_INDEX.one, 16383), (SEG_ENTRY_INFO_STATE.win 16383, 2), (SEG_ENTRY_INFO_SESSION.win 16383, 7), (SEG_SESSION_USED.elt 7, 1)], 16383, sound_of _ (by decide +kernel), by decide +kernel⟩,
   ⟨host, 2, by decide +kernel⟩,
   ⟨{ recording [] [(WR_SESSION_STATUS_STATE.elt 2, 4)] with rcd := { Record.reset with ending := [(2, some ⟨0, true, 0⟩)], releaseDue := [] } }, 2, ⟨0, true, 0⟩, by decide +kernel⟩,
   ⟨{ recording [] [(WR_SESSION_STATUS_STATE.elt 2, 4)] with rcd := { Record.reset with ending := [(2, some ⟨0, true, 0⟩)], releaseDue := [] } }, 2, ⟨0, true, 0⟩, by decide +kernel⟩,
   ⟨{ recording [] [(WR_SESSION_STATUS_STATE.elt 2, 4)] with rcd := { Record.reset with ending := [(2, some ⟨0, true, 0⟩)], releaseDue := [(2, 1)] } }, 2, ⟨0, true, 0⟩, by decide +kernel⟩,
   ⟨{ recording [] [(WR_SESSION_STATUS_STATE.elt 2, 4)] with rcd := { Record.reset with ending := [(2, some ⟨0, true, 0⟩)], releaseDue := [(2, 1)] } }, 2, ⟨0, true, 0⟩, by decide +kernel⟩⟩

/-- The hypotheses of `HbmAcceptsAndIssues` are met. -/
theorem witness_HbmAcceptsAndIssues :
    (∃ (s : State) (a : BitVec 37) (data : List Byte) (bad : Bool) (pc : Nat) (x : Nat), data.length = 64 ∧ a.toNat % 64 = 0 ∧ s.is HBM_G_STATUS_STOPPED.one = false ∧ s.translate a.toNat = some (pc, x) ∧ s.pcState pc < 2) ∧
    (∃ (s : State) (a : BitVec 37) (data : List Byte) (bad : Bool) (pc : Nat) (x : Nat), data.length = 64 ∧ a.toNat % 64 = 0 ∧ s.is HBM_G_STATUS_STOPPED.one = false ∧ s.translate a.toNat = some (pc, x) ∧ s.pcState pc < 2) ∧
    (∃ (s : State) (a : BitVec 37) (data : List Byte) (bad : Bool), (s.is HBM_G_STATUS_STOPPED.one = true ∨ s.translate a.toNat = none ∨ ∃ pc x, s.translate a.toNat = some (pc, x) ∧ s.pcState pc = 2) ∧ data.length = 64 ∧ a.toNat % 64 = 0) ∧
    (∃ (s : State) (a : BitVec 37) (pc : Nat) (x : Nat), s.is HBM_G_STATUS_STOPPED.one = false ∧ s.translateRead a.toNat = some (pc, x) ∧ s.pcState pc < 2 ∧ (s.hbm.reads pc).length < 32) ∧
    (∃ (s : State) (a : BitVec 37) (pc : Nat) (x : Nat), s.is HBM_G_STATUS_STOPPED.one = false ∧ s.translateRead a.toNat = some (pc, x) ∧ (s.pcState pc = 2 ∨ s.pcState pc = 3)) ∧
    (∃ (s : State) (a : BitVec 37), (s.is HBM_G_STATUS_STOPPED.one = true ∨ s.translateRead a.toNat = none ∨ ∃ pc x, s.translateRead a.toNat = some (pc, x) ∧ s.pcState pc < 2 ∧ 32 ≤ (s.hbm.reads pc).length)) ∧
    (∃ (s : State) (pc : Fin 128) (w : HbmWrite) (ws : List HbmWrite), s.pcState pc.val = 0 ∧ s.hbmPick pc.val = .write ∧ s.hbm.writes pc.val = w :: ws ∧ w.data.length = 64) ∧
    (∃ (s : State) (pc : Fin 128) (r : HbmRead) (rs : List HbmRead), s.pcState pc.val = 0 ∧ s.hbmPick pc.val = .read ∧ s.hbm.reads pc.val = r :: rs) ∧
    (∃ (s : State) (pc : Fin 128), s.pcState pc.val = 0 ∧ s.hbmPick pc.val = .idle) ∧
    (∃ (s : State) (pc : Fin 128) (bad : Bool), s.pcState pc.val ≠ 0) :=
  ⟨⟨hbmUp [], 0x140, burst, true, 32, 64, by decide +kernel⟩,
   ⟨hbmUp [], 3221225408, burst, false, 127, 805306304, by decide +kernel⟩,
   ⟨hbmUp [], 3221225472, burst, false, .inr (.inl (by decide +kernel)), by decide +kernel⟩,
   ⟨hbmUp [], 0x140, 32, 64, by decide +kernel⟩,
   ⟨hbmUp [(HBM_PC_STATE_STATE.ofWin 1 0, 2)], 0x140, 32, 64, by decide +kernel⟩,
   ⟨hbmUp [], 3221225472, .inr (.inl (by decide +kernel))⟩,
   ⟨{ hbmUp [] with hbm := { Hbm.reset with writeQ := [(127, [⟨0, burst, 0, 0, 0, 0⟩])] } }, 127, ⟨0, burst, 0, 0, 0, 0⟩, [], by decide +kernel⟩,
   ⟨{ hbmUp [] with hbm := { Hbm.reset with readQ := [(127, [⟨64, 0⟩])] } }, 127, ⟨64, 0⟩, [], by decide +kernel⟩,
   ⟨hbmUp [], 127, by decide +kernel⟩,
   ⟨hbmUp [(HBM_PC_STATE_STATE.ofWin 3 31, 3)], 127, true, by decide +kernel⟩⟩

/-- The hypotheses of `HbmChecksItsData` are met. -/
theorem witness_HbmChecksItsData :
    (∃ (s : State) (pc : Fin 128) (f : EccFinding), sget s.hbm.issued pc.val [] = []) ∧
    (∃ (s : State) (pc : Fin 128) (r : HbmIssued) (rs : List HbmIssued), sget s.hbm.issued pc.val [] = r :: rs ∧ r.mark = 0) ∧
    (∃ (s : State) (pc : Fin 128) (r : HbmIssued) (rs : List HbmIssued), sget s.hbm.issued pc.val [] = r :: rs ∧ r.mark = 0) ∧
    (∃ (s : State) (pc : Fin 128) (f : EccFinding) (r : HbmIssued) (rs : List HbmIssued), sget s.hbm.issued pc.val [] = r :: rs ∧ (r.mark = 1 ∨ r.mark = 0 ∧ f = .uncorrectable)) ∧
    (∃ (s : State) (pc : Fin 128) (f : EccFinding) (r : HbmIssued) (rs : List HbmIssued), sget s.hbm.issued pc.val [] = r :: rs ∧ r.mark = 2) ∧
    (∃ (s : State) (pc : Fin 128) (b : BitVec 24), b.toNat < pcBytes / 64 - 1 ∧ s.is HBM_G_CTRL_SCRUB_EN.one = true ∧ s.pcState pc.val = 0 ∧ s.is HBM_G_STATUS_PARKED.one = false ∧ s.get PWR_STATUS_STATE.one ≠ 2) ∧
    (∃ (s : State) (pc : Fin 128) (b : BitVec 24), b.toNat = pcBytes / 64 - 1 ∧ s.is HBM_G_CTRL_SCRUB_EN.one = true ∧ s.pcState pc.val = 0 ∧ s.is HBM_G_STATUS_PARKED.one = false ∧ s.get PWR_STATUS_STATE.one ≠ 2) ∧
    (∃ (s : State) (pc : Fin 128) (b : BitVec 24) (f : EccFinding), b.toNat < pcBytes / 64 ∧ (s.is HBM_G_CTRL_SCRUB_EN.one = false ∨ s.pcState pc.val ≠ 0 ∨ s.is HBM_G_STATUS_PARKED.one = true ∨ s.get PWR_STATUS_STATE.one = 2)) ∧
    (∃ (s : State) (pc : Fin 128) (m : Byte), s.pcState pc.val = 0 ∧ bitOf (s.get MBX_CPU_STATUS_ME_LOADED.one) 0 = true) ∧
    (∃ (s : State) (pc : Fin 128) (m : Byte), s.pcState pc.val = 0 ∧ bitOf (s.get MBX_CPU_STATUS_ME_LOADED.one) 0 = true) ∧
    (∃ (s : State) (pc : Fin 128) (m : Byte) (l : LaneFinding), (s.pcState pc.val ≠ 0 ∨ bitOf (s.get MBX_CPU_STATUS_ME_LOADED.one) 0 = false)) :=
  ⟨⟨hbmUp [], 127, .uncorrectable, by decide +kernel⟩,
   ⟨{ hbmUp [] with hbm := { Hbm.reset with issued := [(127, [⟨64, burst, 0⟩])] } }, 127, ⟨64, burst, 0⟩, [], by decide +kernel⟩,
   ⟨{ hbmUp [] with hbm := { Hbm.reset with issued := [(127, [⟨64, burst, 0⟩])] } }, 127, ⟨64, burst, 0⟩, [], by decide +kernel⟩,
   ⟨{ hbmUp [] with hbm := { Hbm.reset with issued := [(127, [⟨64, burst, 0⟩])] } }, 127, .uncorrectable, ⟨64, burst, 0⟩, [], by decide +kernel⟩,
   ⟨{ hbmUp [] with hbm := { Hbm.reset with issued := [(127, [⟨64, burst, 2⟩])] } }, 127, .corrected, ⟨64, burst, 2⟩, [], by decide +kernel⟩,
   ⟨hbmUp [(HBM_G_CTRL_SCRUB_EN.one, 1)], 127, 12582910, by decide +kernel⟩,
   ⟨hbmUp [(HBM_G_CTRL_SCRUB_EN.one, 1)], 127, 12582911, by decide +kernel⟩,
   ⟨hbmUp [(HBM_G_CTRL_SCRUB_EN.one, 1), (HBM_G_STATUS_PARKED.one, 1)], 127, 12582911, .corrected, by decide +kernel⟩,
   ⟨hbmUp [(MBX_CPU_STATUS_ME_LOADED.one, 7)], 127, 7, by decide +kernel⟩,
   ⟨hbmUp [(MBX_CPU_STATUS_ME_LOADED.one, 7)], 127, 8, by decide +kernel⟩,
   ⟨hbmUp [(MBX_CPU_STATUS_ME_LOADED.one, 6)], 127, 7, .beyondRepair, by decide +kernel⟩⟩

/-- The hypotheses of `HbmFailuresLeaveService` are met. -/
theorem witness_HbmFailuresLeaveService :
    (∃ (s : State) (pc : Fin 128) (c : Instr) (e : Nat), s.Sound ∧ (c = .readTimeout pc ∧ e = 299 ∨ c = .statusPoll pc false ∧ e = 299 ∨ c = .hbmIssue pc true ∧ e = 298 ∧ s.pcState pc.val = 0 ∧ 3 ≤ sget s.hbm.parityRun pc.val 0 ∨ (∃ m, c = .retrainingPause pc m .beyondRepair) ∧ e = 293 ∧ s.pcState pc.val = 0 ∧ bitOf (s.get MBX_CPU_STATUS_ME_LOADED.one) 0 = true) ∧ s.inService pc.val = true) ∧
    (∃ (s : State) (pc : Fin 128) (c : Instr) (e : Nat), s.Sound ∧ (c = .readTimeout pc ∧ e = 299 ∨ c = .statusPoll pc false ∧ e = 299 ∨ c = .hbmIssue pc true ∧ e = 298 ∧ s.pcState pc.val = 0 ∧ 3 ≤ sget s.hbm.parityRun pc.val 0 ∨ (∃ m, c = .retrainingPause pc m .beyondRepair) ∧ e = 293 ∧ s.pcState pc.val = 0 ∧ bitOf (s.get MBX_CPU_STATUS_ME_LOADED.one) 0 = true) ∧ s.inService pc.val = true) ∧
    (∃ (s : State) (pc : Fin 128) (c : Instr) (e : Nat), s.Sound ∧ (c = .readTimeout pc ∧ e = 299 ∨ c = .statusPoll pc false ∧ e = 299 ∨ c = .hbmIssue pc true ∧ e = 298 ∧ s.pcState pc.val = 0 ∧ 3 ≤ sget s.hbm.parityRun pc.val 0 ∨ (∃ m, c = .retrainingPause pc m .beyondRepair) ∧ e = 293 ∧ s.pcState pc.val = 0 ∧ bitOf (s.get MBX_CPU_STATUS_ME_LOADED.one) 0 = true) ∧ s.inService pc.val = true) ∧
    (∃ (s : State) (pc : Fin 128) (c : Instr) (e : Nat), s.Sound ∧ (c = .readTimeout pc ∧ e = 299 ∨ c = .statusPoll pc false ∧ e = 299 ∨ c = .hbmIssue pc true ∧ e = 298 ∧ s.pcState pc.val = 0 ∧ 3 ≤ sget s.hbm.parityRun pc.val 0 ∨ (∃ m, c = .retrainingPause pc m .beyondRepair) ∧ e = 293 ∧ s.pcState pc.val = 0 ∧ bitOf (s.get MBX_CPU_STATUS_ME_LOADED.one) 0 = true) ∧ s.inService pc.val = true) ∧
    (∃ (s : State) (pc : Fin 128), s.inService pc.val = false) ∧
    (∃ (s : State) (v : DWord), s.Sound ∧ s.admits (PageClass.page .hbmg 0) = true ∧ bitOf v.toNat 8 = false ∧ s.pcState (field v.toNat 0 7) ≠ 3) ∧
    (∃ (s : State) (v : DWord) (k : Nat), s.admits (PageClass.page .hbmg 0) = true ∧ k = stackOf (field v.toNat 0 7) ∧ (bitOf v.toNat 8 = false ∧ s.pcState (field v.toNat 0 7) = 3 ∨ bitOf v.toNat 8 = true ∧ s.get (HBM_STATUS_STATE.of k) = 5)) ∧
    (∃ (s : State) (v : DWord) (k : Nat), s.admits (PageClass.page .hbmg 0) = true ∧ k = stackOf (field v.toNat 0 7) ∧ (bitOf v.toNat 8 = false ∧ s.pcState (field v.toNat 0 7) = 3 ∨ bitOf v.toNat 8 = true ∧ s.get (HBM_STATUS_STATE.of k) = 5)) ∧
    (∃ (s : State) (pc : Fin 128), s.pcState pc.val = 0 ∧ sget s.hbm.parityRun pc.val 0 < 3) ∧
    (∃ (s : State) (k : Fin 4), s.get (HBM_STATUS_STATE.of k.val) = 5) ∧
    (∃ (s : State) (k : Fin 4) (c : Instr), s.Sound ∧ (c = .stackCatastrophicTrip k ∨ ∃ v, c = .hbmFenceGo v ∧ s.admits (PageClass.page .hbmg 0) = true ∧ bitOf v.toNat 8 = true ∧ stackOf (field v.toNat 0 7) = k.val) ∧ s.get (HBM_STATUS_STATE.of k.val) ≠ 5) ∧
    (∃ (s : State) (k : Fin 4) (c : Instr), s.Sound ∧ (c = .stackCatastrophicTrip k ∨ ∃ v, c = .hbmFenceGo v ∧ s.admits (PageClass.page .hbmg 0) = true ∧ bitOf v.toNat 8 = true ∧ stackOf (field v.toNat 0 7) = k.val) ∧ s.get (HBM_STATUS_STATE.of k.val) ≠ 5) :=
  ⟨⟨{ hbmUp [(WR_SESSION_STATUS_STATE.elt 7, 3), (MBX_CPU_STATUS_ME_LOADED.one, 7)] with hbm := { Hbm.reset with failures := [(3, [0, 0])], parityRun := [(127, 3)] } }, 127, .readTimeout 127, 299, sound_of _ (by decide +kernel), .inl ⟨rfl, rfl⟩, by decide +kernel⟩,
   ⟨{ hbmUp [(WR_SESSION_STATUS_STATE.elt 7, 3), (MBX_CPU_STATUS_ME_LOADED.one, 7)] with hbm := { Hbm.reset with failures := [(3, [0, 0])], parityRun := [(127, 3)] } }, 127, .statusPoll 127 false, 299, sound_of _ (by decide +kernel), .inr (.inl ⟨rfl, rfl⟩), by decide +kernel⟩,
   ⟨{ hbmUp [(WR_SESSION_STATUS_STATE.elt 7, 3), (MBX_CPU_STATUS_ME_LOADED.one, 7)] with hbm := { Hbm.reset with failures := [(3, [0, 0])], parityRun := [(127, 3)] } }, 127, .hbmIssue 127 true, 298, sound_of _ (by decide +kernel), .inr (.inr (.inl ⟨rfl, rfl, by decide +kernel⟩)), by decide +kernel⟩,
   ⟨{ hbmUp [(WR_SESSION_STATUS_STATE.elt 7, 3), (MBX_CPU_STATUS_ME_LOADED.one, 7)] with hbm := { Hbm.reset with failures := [(3, [0, 0])], parityRun := [(127, 3)] } }, 127, .retrainingPause 127 7 .beyondRepair, 293, sound_of _ (by decide +kernel), .inr (.inr (.inr ⟨⟨7, rfl⟩, rfl, by decide +kernel⟩)), by decide +kernel⟩,
   ⟨hbmUp [(HBM_PC_STATE_STATE.ofWin 3 31, 3)], 127, by decide +kernel⟩,
   ⟨hbmUp [(unlockedOf (PageClass.page .hbmg 0), 1), (WR_SESSION_STATUS_STATE.elt 7, 3)], 0x7F, sound_of _ (by decide +kernel), by decide +kernel⟩,
   ⟨hbmUp [(unlockedOf (PageClass.page .hbmg 0), 1), (WR_SESSION_STATUS_STATE.elt 7, 3), (HBM_PC_STATE_STATE.ofWin 3 31, 3)], 0x7F, 3, by decide +kernel⟩,
   ⟨hbmUp [(unlockedOf (PageClass.page .hbmg 0), 1), (WR_SESSION_STATUS_STATE.elt 7, 3), (HBM_STATUS_STATE.of 3, 5)], 0x17F, 3, by decide +kernel⟩,
   ⟨{ hbmUp [] with hbm := { Hbm.reset with parityRun := [(127, 2)] } }, 127, by decide +kernel⟩,
   ⟨hbmUp [(unlockedOf (PageClass.page .hbmg 0), 1), (WR_SESSION_STATUS_STATE.elt 7, 3), (HBM_STATUS_STATE.of 3, 5)], 3, by decide +kernel⟩,
   ⟨hbmUp [(unlockedOf (PageClass.page .hbmg 0), 1), (WR_SESSION_STATUS_STATE.elt 7, 3)], 3, .stackCatastrophicTrip 3, sound_of _ (by decide +kernel), .inl rfl, by decide +kernel⟩,
   ⟨hbmUp [(unlockedOf (PageClass.page .hbmg 0), 1), (WR_SESSION_STATUS_STATE.elt 7, 3)], 3, .hbmFenceGo 0x17F, sound_of _ (by decide +kernel), .inr ⟨0x17F, rfl, by decide +kernel⟩, by decide +kernel⟩⟩

/-- The hypotheses of `HbmTrainsSleepsAndWakes` are met. -/
theorem witness_HbmTrainsSleepsAndWakes :
    (∃ (s : State), s.locked = true ∧ s.is SVC_STATUS_RECOVERY.one = false ∧ (∃ pc < 128, s.pcState pc = 4)) ∧
    (∃ (s : State) (bad : List (Fin 128)), (s.locked = false ∨ s.is SVC_STATUS_RECOVERY.one = true ∨ ∀ pc < 128, s.pcState pc ≠ 4)) ∧
    (∃ (s : State) (pc : Fin 128), s.is HBM_G_STATUS_PARKED.one = true ∧ s.get PWR_STATUS_STATE.one ≠ 4 ∧ s.pcState pc.val = 0 ∧ (∀ w ∈ s.hbm.writes pc.val, w.data.length = 64)) ∧
    (∃ (s : State) (pc : Fin 128), (s.is HBM_G_STATUS_PARKED.one = false ∨ s.get PWR_STATUS_STATE.one = 4 ∨ s.pcState pc.val ≠ 0)) ∧
    (∃ (s : State), s.is HBM_G_STATUS_PARKED.one = true) ∧
    (∃ (s : State) (bad : List (Fin 128)), s.is HBM_G_STATUS_PARKED.one = false) ∧
    (∃ (s : State), (s.locked = false ∨ s.is HBM_G_STATUS_READY.one = true ∨ s.is HBM_G_STATUS_PARKED.one = true ∨ s.serviceList = [])) ∧
    (∃ (s : State), s.locked = true ∧ s.is HBM_G_STATUS_READY.one = false ∧ s.is HBM_G_STATUS_PARKED.one = false ∧ s.serviceList ≠ []) :=
  ⟨⟨hbmUp [(HBM_PC_STATE_STATE.ofWin 3 31, 4)], by decide +kernel⟩,
   ⟨hbmUp [(SVC_STATUS_RECOVERY.one, 1)], [127], by decide +kernel⟩,
   ⟨{ hbmUp [(HBM_G_STATUS_PARKED.one, 1)] with hbm := { Hbm.reset with writeQ := [(127, [⟨0, burst, 0, 0, 0, 0⟩])] } }, 127, by decide +kernel⟩,
   ⟨hbmUp [(HBM_G_STATUS_PARKED.one, 1), (PWR_STATUS_STATE.one, 4)], 127, by decide +kernel⟩,
   ⟨hbmUp [(HBM_G_STATUS_PARKED.one, 1), (HBM_PC_STATE_STATE.ofWin 3 31, 1), (HBM_PC_STATE_STATE.ofWin 3 30, 2)], by decide +kernel⟩,
   ⟨hbmUp [], [127], by decide +kernel⟩,
   ⟨host, by decide +kernel⟩,
   ⟨hbmUp [(HBM_PC_STATE_STATE.ofWin 3 31, 1)], by decide +kernel⟩⟩

/-- The hypotheses of `GrottoAccessesAreServed` are met. -/
theorem witness_GrottoAccessesAreServed :
    (∃ (s : State) (p : GrottoPort) (b : Fin 64) (w : BitVec 17) (op : GrottoOp) (en : Byte) (st : Byte) (d : BitVec 64) (f : EccFinding), s.grottoWaits b.val = false ∧ s.grottoFenced b.val = false ∧ allowed (s.rights b.val) p (op != .read) = true) ∧
    (∃ (s : State) (p : GrottoPort) (b : Fin 64) (w : BitVec 17) (op : GrottoOp) (en : Byte) (st : Byte) (d : BitVec 64) (f : EccFinding), s.grottoWaits b.val = false ∧ s.grottoFenced b.val = false ∧ allowed (s.rights b.val) p (op != .read) = true) ∧
    (∃ (s : State) (p : GrottoPort) (b : Fin 64) (w : BitVec 17) (op : GrottoOp) (en : Byte) (st : Byte) (d : BitVec 64) (f : EccFinding), s.grottoWaits b.val = false ∧ s.grottoFenced b.val = false ∧ allowed (s.rights b.val) p (op != .read) = true) ∧
    (∃ (s : State) (p : GrottoPort) (b : Fin 64) (w : BitVec 17) (op : GrottoOp) (en : Byte) (st : Byte) (d : BitVec 64) (f : EccFinding), s.grottoWaits b.val = false ∧ s.grottoFenced b.val = false ∧ allowed (s.rights b.val) p (op != .read) = true) ∧
    (∃ (s : State) (p : GrottoPort) (b : Fin 64) (w : BitVec 17) (op : GrottoOp) (en : Byte) (st : Byte) (d : BitVec 64) (f : EccFinding), s.grottoWaits b.val = false ∧ s.grottoFenced b.val = false ∧ allowed (s.rights b.val) p (op != .read) = true) ∧
    (∃ (s : State) (p : GrottoPort) (b : Fin 64) (w : BitVec 17) (op : GrottoOp) (en : Byte) (st : Byte) (d : BitVec 64) (f : EccFinding), s.grottoWaits b.val = false ∧ s.grottoFenced b.val = false ∧ allowed (s.rights b.val) p (op != .read) = true) ∧
    (∃ (s : State) (p : GrottoPort) (b : Fin 64) (w : BitVec 17) (op : GrottoOp) (en : Byte) (st : Byte) (d : BitVec 64) (f : EccFinding), s.grottoWaits b.val = false ∧ s.grottoFenced b.val = false ∧ allowed (s.rights b.val) p (op != .read) = false) ∧
    (∃ (s : State) (p : GrottoPort) (b : Fin 64) (w : BitVec 17) (op : GrottoOp) (en : Byte) (st : Byte) (d : BitVec 64) (f : EccFinding), s.grottoWaits b.val = false ∧ s.grottoFenced b.val = true) ∧
    (∃ (s : State) (p : GrottoPort) (b : Fin 64) (w : BitVec 17) (op : GrottoOp) (en : Byte) (st : Byte) (d : BitVec 64) (f : EccFinding), s.grottoWaits b.val = true) :=
  ⟨⟨grottos [], .host, 63, 131071, .write, 0xFF, 3, 0xFEDCBA9876543210, .clean, by decide +kernel⟩,
   ⟨grottos [], .host, 63, 131071, .write, 0x0F, 3, 0xFEDCBA9876543210, .clean, by decide +kernel⟩,
   ⟨grottos [], .host, 63, 131071, .set, 0xFF, 3, 0xFEDCBA9876543210, .clean, by decide +kernel⟩,
   ⟨{ grottos [] with grt := { Grottos.reset with mem := [(63 * grottoWords + 131071, 5)] } }, .host, 63, 131071, .read, 0xFF, 3, 0xFEDCBA9876543210, .corrected, by decide +kernel⟩,
   ⟨grottos [], .host, 63, 131071, .read, 0xFF, 3, 0xFEDCBA9876543210, .uncorrectable, by decide +kernel⟩,
   ⟨{ grottos [] with grt := { Grottos.reset with bad := [(63 * grottoWords + 131071, 1)] } }, .host, 63, 131071, .read, 0xFF, 3, 0xFEDCBA9876543210, .clean, by decide +kernel⟩,
   ⟨grottos [], .dma, 63, 131071, .write, 0xFF, 3, 0xFEDCBA9876543210, .clean, by decide +kernel⟩,
   ⟨grottos [(GRT_FENCED.one, 2 ^ 63)], .host, 63, 131071, .write, 0xFF, 3, 0xFEDCBA9876543210, .clean, by decide +kernel⟩,
   ⟨host, .host, 63, 131071, .write, 0xFF, 3, 0xFEDCBA9876543210, .clean, by decide +kernel⟩⟩

/-- The hypotheses of `HandOversFillsAndTheHostWindow` are met. -/
theorem witness_HandOversFillsAndTheHostWindow :
    (∃ (s : State) (b : Fin 64) (v : DWord), s.admits grtPage = true ∧ 2 ≤ b.val ∧ s.grottoFenced b.val = false ∧ s.is (GRT_OWNER_PENDING.elt b.val) = false ∧ s.get (GRT_OWNER_OWNER.elt b.val) ∉ [3, 4] ∧ field v.toNat 0 3 ∉ [3, 4] ∧ field v.toNat 0 3 ≠ s.get (GRT_OWNER_OWNER.elt b.val)) ∧
    (∃ (s : State) (b : Fin 64) (v : DWord), s.admits grtPage = true ∧ 2 ≤ b.val ∧ s.grottoFenced b.val = false ∧ s.is (GRT_OWNER_PENDING.elt b.val) = false ∧ s.get (GRT_OWNER_OWNER.elt b.val) ∉ [3, 4] ∧ field v.toNat 0 3 ∉ [3, 4] ∧ field v.toNat 0 3 ≠ s.get (GRT_OWNER_OWNER.elt b.val)) ∧
    (∃ (s : State) (b : Fin 64) (v : DWord), s.admits grtPage = true ∧ (b.val < 2 ∨ s.grottoFenced b.val = true ∨ s.is (GRT_OWNER_PENDING.elt b.val) = true ∨ s.get (GRT_OWNER_OWNER.elt b.val) ∈ [3, 4] ∨ field v.toNat 0 3 ∈ [3, 4]) ∧ field v.toNat 0 3 ≠ s.get (GRT_OWNER_OWNER.elt b.val)) ∧
    (∃ (s : State) (b : Fin 64) (v : DWord), s.admits grtPage = true ∧ (b.val < 2 ∨ s.grottoFenced b.val = true ∨ s.is (GRT_OWNER_PENDING.elt b.val) = true ∨ s.get (GRT_OWNER_OWNER.elt b.val) ∈ [3, 4] ∨ field v.toNat 0 3 ∈ [3, 4]) ∧ field v.toNat 0 3 ≠ s.get (GRT_OWNER_OWNER.elt b.val)) ∧
    (∃ (s : State) (b : Fin 64) (v : DWord), s.admits grtPage = true ∧ field v.toNat 0 3 = s.get (GRT_OWNER_OWNER.elt b.val) ∧ field v.toNat 0 3 ≠ 3 ∧ field v.toNat 8 6 = s.get (GRT_OWNER_GUEST.elt b.val)) ∧
    (∃ (s : State) (b : Fin 64), (∀ a ∈ s.grt.waiting, a.b ≠ b.val)) ∧
    (∃ (s : State) (b : Fin 64), (∃ a ∈ s.grt.waiting, a.b = b.val)) ∧
    (∃ (s : State) (b : Fin 64), sget s.grt.filling b.val 0 = 0) ∧
    (∃ (s : State) (b : Fin 64), sget s.grt.filling b.val 0 ≠ 0) ∧
    (∃ (s : State) (a : Nat), s.hostOpen = true ∧ s.paused = false ∧ a = s.get GRT_HOST_ADDR_ADDR.one ∧ s.grottoWaits (a / grottoWords) = false ∧ s.grottoFenced (a / grottoWords) = false ∧ allowed (s.rights (a / grottoWords)) .host false = true ∧ s.wordBad (a / grottoWords) (a % grottoWords) = false) ∧
    (∃ (s : State) (a : Nat) (f : EccFinding), s.hostOpen = true ∧ s.paused = false ∧ a = s.get GRT_HOST_ADDR_ADDR.one ∧ s.grottoWaits (a / grottoWords) = false ∧ (s.grottoFenced (a / grottoWords) = true ∨ allowed (s.rights (a / grottoWords)) .host false = false)) ∧
    (∃ (s : State) (a : Nat) (f : EccFinding), s.hostOpen = true ∧ s.paused = false ∧ a = s.get GRT_HOST_ADDR_ADDR.one ∧ s.grottoWaits (a / grottoWords) = true) ∧
    (∃ (s : State) (f : EccFinding), s.hostOpen = false) ∧
    (∃ (s : State) (f : EccFinding), s.hostOpen = true ∧ s.paused = true) ∧
    (∃ (s : State) (a : Nat) (d : BitVec 64), s.admits grtPage = true ∧ a = s.get GRT_HOST_ADDR_ADDR.one ∧ s.grottoWaits (a / grottoWords) = false ∧ s.grottoFenced (a / grottoWords) = false ∧ allowed (s.rights (a / grottoWords)) .host true = false) ∧
    (∃ (s : State) (a : Nat) (d : BitVec 64), s.admits grtPage = true ∧ a = s.get GRT_HOST_ADDR_ADDR.one ∧ s.grottoWaits (a / grottoWords) = false ∧ s.grottoFenced (a / grottoWords) = false ∧ allowed (s.rights (a / grottoWords)) .host true = true) :=
  ⟨⟨grottos [], 63, 0x0302, by decide +kernel⟩,
   ⟨grottos [], 2, 0x0305, by decide +kernel⟩,
   ⟨grottos [], 1, 1, by decide +kernel⟩,
   ⟨grottos [], 63, 3, by decide +kernel⟩,
   ⟨grottos [(GRT_OWNER_OWNER.elt 63, 0)], 63, 0, by decide +kernel⟩,
   ⟨grottos [(GRT_OWNER_CLEAR.elt 63, 1)], 63, by decide +kernel⟩,
   ⟨{ grottos [] with grt := { Grottos.reset with waiting := [⟨.host, 63, 0, .read, 0xFF, 0, .clean, (1, 0), some (0, 8)⟩], filling := [(63, 1)] } }, 63, by decide +kernel⟩,
   ⟨grottos [], 63, by decide +kernel⟩,
   ⟨{ grottos [] with grt := { Grottos.reset with waiting := [⟨.host, 63, 0, .read, 0xFF, 0, .clean, (1, 0), some (0, 8)⟩], filling := [(63, 1)] } }, 63, by decide +kernel⟩,
   ⟨{ grottos [(GRT_HOST_ADDR_ADDR.one, 2 ^ 23 - 1), (GRT_HOST_ADDR_AUTO_INC.one, 1)] with grt := { Grottos.reset with mem := [(2 ^ 23 - 1, 77)] } }, 8388607, by decide +kernel⟩,
   ⟨grottos [(GRT_HOST_ADDR_ADDR.one, 2 ^ 23 - 1), (GRT_HOST_ADDR_AUTO_INC.one, 1), (GRT_FENCED.one, 2 ^ 63)], 8388607, .clean, by decide +kernel⟩,
   ⟨dev [(GRT_HOST_ADDR_ADDR.one, 2 ^ 23 - 1), (GRT_HOST_ADDR_AUTO_INC.one, 1)], 8388607, .clean, by decide +kernel⟩,
   ⟨State.reset, .clean, by decide +kernel⟩,
   ⟨dev [(SVC_STATUS_ACT_PAUSE.one, 1)], .clean, by decide +kernel⟩,
   ⟨grottos [(GRT_HOST_ADDR_ADDR.one, 2 ^ 23 - 1), (GRT_HOST_ADDR_AUTO_INC.one, 1), (GRT_OWNER_OWNER.elt 63, 2)], 8388607, 5, by decide +kernel⟩,
   ⟨grottos [(GRT_HOST_ADDR_ADDR.one, 2 ^ 23 - 1), (GRT_HOST_ADDR_AUTO_INC.one, 1)], 8388607, 0xFEDCBA9876543210, by decide +kernel⟩⟩

/-- The hypotheses of `SwatchWalksTestsAndEnds` are met. -/
theorem witness_SwatchWalksTestsAndEnds :
    (∃ (s : State), s.is SWT_CTRL_SWATCH_EN.one = true ∧ s.is SWT_STATUS_SWATCH_RUNNING.one = false) ∧
    (∃ (s : State), (s.is SWT_CTRL_SWATCH_EN.one = false ∨ s.is SWT_STATUS_SWATCH_RUNNING.one = true)) ∧
    (∃ (s : State) (r : SwatchResult), (s.is SWT_STATUS_SWATCH_RUNNING.one = false ∨ s.flt.nextWindow = none)) ∧
    (∃ (s : State), s.is SWT_STATUS_SWATCH_RUNNING.one = false) ∧
    (∃ (s : State) (b : Nat) (w : Nat) (again : Bool), s.is SWT_STATUS_SWATCH_RUNNING.one = true ∧ s.flt.nextWindow = some (b, w, again) ∧ s.testable b = true ∧ (s.rights b).1 ≠ 5 ∧ s.flt.repairs.contains (b * 1024 + 575) = false ∧ s.flt.repairs.length < 24) ∧
    (∃ (s : State) (b : Nat) (w : Nat) (again : Bool), s.is SWT_STATUS_SWATCH_RUNNING.one = true ∧ s.flt.nextWindow = some (b, w, again) ∧ s.testable b = true ∧ (s.rights b).1 = 5) ∧
    (∃ (s : State) (b : Nat) (w : Nat) (again : Bool), s.is SWT_STATUS_SWATCH_RUNNING.one = true ∧ s.flt.nextWindow = some (b, w, again) ∧ s.testable b = false) ∧
    (∃ (s : State), s.is SWT_STATUS_SWATCH_RUNNING.one = true) :=
  ⟨⟨dev [(SWT_CTRL_SWATCH_EN.one, 1)], by decide +kernel⟩,
   ⟨dev [(SWT_CTRL_SWATCH_EN.one, 0)], by decide +kernel⟩,
   ⟨host, .pass, by decide +kernel⟩,
   ⟨host, by decide +kernel⟩,
   ⟨{ grottos [(SWT_STATUS_SWATCH_RUNNING.one, 1), (MBX_CPU_STATUS_RUNNING.one, 1), (MBX_CPU_STATUS_ME_LOADED.one, 7), (GRT_OWNER_OWNER.elt 63, 1)] with flt := { FaultMgr.reset with walk := 64 * 2048 - 1 } }, 63, 2047, false, by decide +kernel⟩,
   ⟨{ grottos [(SWT_STATUS_SWATCH_RUNNING.one, 1), (MBX_CPU_STATUS_RUNNING.one, 1), (MBX_CPU_STATUS_ME_LOADED.one, 7), (GRT_OWNER_OWNER.elt 63, 5)] with flt := { FaultMgr.reset with walk := 64 * 2048 - 1 } }, 63, 2047, false, by decide +kernel⟩,
   ⟨{ grottos [(SWT_STATUS_SWATCH_RUNNING.one, 1), (MBX_CPU_STATUS_RUNNING.one, 1), (MBX_CPU_STATUS_ME_LOADED.one, 7), (GRT_OWNER_OWNER.elt 63, 2)] with flt := { FaultMgr.reset with walk := 64 * 2048 - 1 } }, 63, 2047, false, by decide +kernel⟩,
   ⟨dev [(SWT_STATUS_SWATCH_RUNNING.one, 1)], by decide +kernel⟩⟩

/-- The hypotheses of `DmaChannelsStartAndStop` are met. -/
theorem witness_DmaChannelsStartAndStop :
    (∃ (s : State) (n : Fin 64) (v : DWord), s.admits (PageClass.page .dma n.val) = true ∧ bitOf v.toNat 31 = true ∧ bitOf v.toNat 1 = false ∧ (∀ q < 8, s.get (TRG_STATUS_STATE.of q) = 4 → (s.seq q).channel ≠ n.val + 1) ∧ s.dmaState n.val ≠ 1 ∧ s.dmaState n.val ≠ 4) ∧
    (∃ (s : State) (n : Fin 64) (v : DWord), s.admits (PageClass.page .dma n.val) = true ∧ bitOf v.toNat 31 = true ∧ bitOf v.toNat 1 = false ∧ (∀ q < 8, s.get (TRG_STATUS_STATE.of q) = 4 → (s.seq q).channel ≠ n.val + 1) ∧ s.dmaState n.val = 1) ∧
    (∃ (s : State) (n : Fin 64) (v : DWord), bitOf v.toNat 31 = false) ∧
    (∃ (s : State) (n : Fin 64) (v : DWord), s.admits (PageClass.page .dma n.val) = true ∧ bitOf v.toNat 31 = true ∧ bitOf v.toNat 0 = false ∧ s.dmaState n.val ≠ 4 ∧ (s.chan n.val).inflight = []) ∧
    (∃ (s : State) (n : Fin 64) (v : DWord), s.admits (PageClass.page .dma n.val) = true ∧ bitOf v.toNat 31 = true ∧ bitOf v.toNat 0 = false ∧ s.dmaState n.val ≠ 4 ∧ (s.chan n.val).inflight ≠ []) ∧
    (∃ (s : State) (n : Fin 64) (v : DWord), s.admits (PageClass.page .dma n.val) = true) ∧
    (∃ (s : State) (n : Fin 64) (v : DWord), s.admits (PageClass.page .dma n.val) = true ∧ (s.dmaState n.val = 4 ∨ bitOf v.toNat 0 = false ∧ bitOf v.toNat 1 = false)) ∧
    (∃ (s : State) (n : Fin 64) (v : DWord), s.admits (PageClass.page .dma n.val) = true ∧ s.is (DMA_CTRL_ENABLE.of n.val) = true ∧ s.dmaState n.val = 1) ∧
    (∃ (s : State) (n : Fin 64) (v : DWord), s.admits (PageClass.page .dma n.val) = true ∧ s.is (DMA_CTRL_ENABLE.of n.val) = true ∧ s.dmaState n.val = 2) ∧
    (∃ (s : State) (n : Fin 64) (v : DWord), s.admits (PageClass.page .dma n.val) = true ∧ s.is (DMA_CTRL_ENABLE.of n.val) = false) ∧
    (∃ (s : State) (v : DWord), s.admits (PageClass.page .dmag 0) = true ∧ s.dmaState 0 = 1 ∧ (s.chan 0).inflight = [] ∧ s.dmaState 63 = 1 ∧ (s.chan 63).inflight ≠ []) :=
  ⟨⟨unl (PageClass.page .dma 63) [(DMA_HEAD_ADDR.of 63, 5), (DMA_HEAD_HOST.of 63, 1)], 63, 0x87000001, by decide +kernel⟩,
   ⟨unl (PageClass.page .dma 63) [(DMA_HEAD_ADDR.of 63, 5), (DMA_HEAD_HOST.of 63, 1), (DMA_STATUS_STATE.of 63, 1)], 63, 0x87000001, by decide +kernel⟩,
   ⟨host, 63, 0x07000001, by decide +kernel⟩,
   ⟨unl (PageClass.page .dma 63) [(DMA_HEAD_ADDR.of 63, 5), (DMA_HEAD_HOST.of 63, 1), (DMA_STATUS_STATE.of 63, 1)], 63, 0x80000002, by decide +kernel⟩,
   ⟨moving { DmaCh.idle with phase := .move, desc := hostDesc, inflight := [⟨.move, 0x1000, 0x2000, 64, []⟩] } [], 63, 0x80000002, by decide +kernel⟩,
   ⟨moving { DmaCh.idle with phase := .move, desc := hostDesc, inflight := [⟨.move, 0x1000, 0x2000, 64, []⟩] } [], 63, 0x80000000, by decide +kernel⟩,
   ⟨unl (PageClass.page .dma 63) [(DMA_HEAD_ADDR.of 63, 5), (DMA_HEAD_HOST.of 63, 1), (DMA_STATUS_STATE.of 63, 4)], 63, 0x87000000, by decide +kernel⟩,
   ⟨unl (PageClass.page .dma 63) [(DMA_HEAD_ADDR.of 63, 5), (DMA_HEAD_HOST.of 63, 1), (DMA_STATUS_STATE.of 63, 1), (DMA_CTRL_ENABLE.of 63, 1)], 63, 1, by decide +kernel⟩,
   ⟨unl (PageClass.page .dma 63) [(DMA_HEAD_ADDR.of 63, 5), (DMA_HEAD_HOST.of 63, 1), (DMA_STATUS_STATE.of 63, 2), (DMA_CTRL_ENABLE.of 63, 1)], 63, 1, by decide +kernel⟩,
   ⟨unl (PageClass.page .dma 63) [(DMA_HEAD_ADDR.of 63, 5), (DMA_HEAD_HOST.of 63, 1), (DMA_CTRL_ENABLE.of 63, 0)], 63, 1, by decide +kernel⟩,
   ⟨moving { DmaCh.idle with phase := .move, desc := hostDesc, inflight := [⟨.move, 0x1000, 0x2000, 64, []⟩] } [(unlockedOf (PageClass.page .dmag 0), 1), (DMA_STATUS_STATE.of 0, 1)], 1, by decide +kernel⟩⟩

/-- The hypotheses of `DmaMovesItsBursts` are met. -/
theorem witness_DmaMovesItsBursts :
    (∃ (s : State) (u : State), u = (forEach (upto 64) s (fun n s => s.dmaSettle n)).replayChecks ∧ u.arbiterPick = none) ∧
    (∃ (s : State) (u : State) (n : Nat) (l : Nat) (b : DmaBurst) (fault : Nat), u = (forEach (upto 64) s (fun n s => s.dmaSettle n)).replayChecks ∧ fault = (match pipeUnit (u.chan n).desc with | some x => if b.kind = .drain ∧ u.outFull (u.chan n) x = true then 7 else u.burstFault (u.chan n).desc b | none => u.burstFault (u.chan n).desc b) ∧ u.arbiterPick = some (n, l) ∧ u.nextBurst n = some b) ∧
    (∃ (s : State) (u : State) (n : Nat) (l : Nat) (b : DmaBurst) (fault : Nat), u = (forEach (upto 64) s (fun n s => s.dmaSettle n)).replayChecks ∧ fault = (match pipeUnit (u.chan n).desc with | some x => if b.kind = .drain ∧ u.outFull (u.chan n) x = true then 7 else u.burstFault (u.chan n).desc b | none => u.burstFault (u.chan n).desc b) ∧ u.arbiterPick = some (n, l) ∧ u.nextBurst n = some b) ∧
    (∃ (s : State) (n : Fin 64) (words : List (BitVec 32)) (f : List EccFinding) (got : Option (List Nat)), s.dmaState n.val = 1 ∧ (s.chan n.val).phase = .fetch ∧ s.chainWaits n.val = false ∧ got = (if inHost (s.get (DMA_CUR.of n.val)) then (if words.length = 16 then some (pairWords words) else none) else (s.chainDesc (descAddr (s.get (DMA_CUR.of n.val))) f).2) ∧ words.length ≠ 16) ∧
    (∃ (s : State) (n : Fin 64) (words : List (BitVec 32)) (f : List EccFinding) (got : Option (List Nat)), s.dmaState n.val = 1 ∧ (s.chan n.val).phase = .fetch ∧ s.chainWaits n.val = false ∧ got = (if inHost (s.get (DMA_CUR.of n.val)) then (if words.length = 16 then some (pairWords words) else none) else (s.chainDesc (descAddr (s.get (DMA_CUR.of n.val))) f).2) ∧ words.length = 16 ∧ descInvalid (pairWords words) = true) ∧
    (∃ (s : State) (n : Fin 64) (words : List (BitVec 32)) (f : List EccFinding) (got : Option (List Nat)), s.dmaState n.val = 1 ∧ (s.chan n.val).phase = .fetch ∧ s.chainWaits n.val = false ∧ got = (if inHost (s.get (DMA_CUR.of n.val)) then (if words.length = 16 then some (pairWords words) else none) else (s.chainDesc (descAddr (s.get (DMA_CUR.of n.val))) f).2) ∧ words.length = 16 ∧ descInvalid (pairWords words) = false) ∧
    (∃ (s : State) (n : Fin 64) (words : List (BitVec 32)) (f : List EccFinding), (s.dmaState n.val ≠ 1 ∨ (s.chan n.val).phase ≠ .fetch ∨ s.chainWaits n.val = true)) ∧
    (∃ (s : State) (n : Fin 64) (w : BitVec 64) (e : Bool) (f : EccFinding) (got : Option Nat), s.dmaState n.val = 1 ∧ (s.chan n.val).phase = .link ∧ s.chainWaits n.val = false ∧ got = (if inHost (s.get (DMA_CUR.of n.val)) then (if e then none else some w.toNat) else (s.chainWord (descAddr (s.get (DMA_CUR.of n.val)) + 0x38) f).2) ∧ bitOf w.toNat 0 = false) ∧
    (∃ (s : State) (n : Fin 64) (w : BitVec 64) (e : Bool) (f : EccFinding) (got : Option Nat), s.dmaState n.val = 1 ∧ (s.chan n.val).phase = .link ∧ s.chainWaits n.val = false ∧ got = (if inHost (s.get (DMA_CUR.of n.val)) then (if e then none else some w.toNat) else (s.chainWord (descAddr (s.get (DMA_CUR.of n.val)) + 0x38) f).2) ∧ bitOf w.toNat 0 = true ∧ s.is (DMA_STATUS_KICK_PENDING.of n.val) = true) ∧
    (∃ (s : State) (n : Fin 64) (w : BitVec 64) (e : Bool) (f : EccFinding) (got : Option Nat), s.dmaState n.val = 1 ∧ (s.chan n.val).phase = .link ∧ s.chainWaits n.val = false ∧ got = (if inHost (s.get (DMA_CUR.of n.val)) then (if e then none else some w.toNat) else (s.chainWord (descAddr (s.get (DMA_CUR.of n.val)) + 0x38) f).2) ∧ bitOf w.toNat 0 = true ∧ s.is (DMA_STATUS_KICK_PENDING.of n.val) = false) ∧
    (∃ (s : State) (n : Fin 64) (w : BitVec 64) (e : Bool) (f : EccFinding) (got : Option Nat), s.dmaState n.val = 1 ∧ (s.chan n.val).phase = .link ∧ s.chainWaits n.val = false ∧ got = (if inHost (s.get (DMA_CUR.of n.val)) then (if e then none else some w.toNat) else (s.chainWord (descAddr (s.get (DMA_CUR.of n.val)) + 0x38) f).2)) ∧
    (∃ (s : State) (n : Fin 64) (w : BitVec 64) (e : Bool) (f : EccFinding), (s.dmaState n.val ≠ 1 ∨ (s.chan n.val).phase ≠ .link ∨ s.chainWaits n.val = true)) ∧
    (∃ (s : State) (n : Fin 64) (how : BurstEnd) (f : List EccFinding) (data : List Byte), ((s.chan n.val).inflight = [] ∨ ∃ b rest, (s.chan n.val).inflight = b :: rest ∧ s.burstWaits (s.chan n.val).desc b = true)) ∧
    (∃ (s : State) (n : Fin 64) (how : BurstEnd) (f : List EccFinding) (data : List Byte) (b : DmaBurst) (rest : List DmaBurst), (s.chan n.val).inflight = b :: rest ∧ s.burstWaits (s.chan n.val).desc b = false) ∧
    (∃ (s : State) (n : Fin 64) (how : BurstEnd) (f : List EccFinding) (data : List Byte) (b : DmaBurst) (rest : List DmaBurst), (s.chan n.val).inflight = b :: rest ∧ s.burstWaits (s.chan n.val).desc b = false) ∧
    (∃ (s : State) (n : Fin 64) (b : DmaBurst) (rest : List DmaBurst) (f : List EccFinding) (data : List Byte), s.dmaState n.val = 1 ∧ (s.chan n.val).inflight = b :: rest ∧ b.kind = .move ∧ (s.chan n.val).pipe = none ∧ pipeUnit (s.chan n.val).desc = none ∧ srcSpace (s.chan n.val).desc = 2 ∧ dstSpace (s.chan n.val).desc = 2 ∧ (s.chan n.val).aborting = false ∧ s.anyReplay = false ∧ (s.chan n.val).moved + b.len < elements (s.chan n.val).desc * elemBytes (s.chan n.val).desc) ∧
    (∃ (s : State) (n : Fin 64) (b : DmaBurst) (rest : List DmaBurst) (f : List EccFinding) (data : List Byte), (s.chan n.val).inflight = b :: rest ∧ s.burstWaits (s.chan n.val).desc b = false ∧ hostBurst (s.chan n.val).desc b = true) :=
  ⟨⟨host, (forEach (upto 64) (host) (fun n s => s.dmaSettle n)).replayChecks, rfl, by decide +kernel⟩,
   ⟨moving { DmaCh.idle with phase := .move, desc := hostDesc, granted := 64 } [], (forEach (upto 64) (moving { DmaCh.idle with phase := .move, desc := hostDesc, granted := 64 } []) (fun n s => s.dmaSettle n)).replayChecks, 63, 7, ⟨.move, 0x1040, 0x2040, 64, []⟩, 0, rfl, by decide +kernel, by decide +kernel⟩,
   ⟨moving { DmaCh.idle with phase := .move, desc := [2 ^ 40, 0x2000, 64 + 64 * 2 ^ 32, 0, 0, 2 + 2 ^ 24, 1 + 2 ^ 24 + 2 * 2 ^ 51, 1] } [(CLK_STATUS_LOCKED.one, 1), (CLK_STATUS_BYPASS.one, 0), (HBM_G_STATUS_STOPPED.one, 0), (HBM_G_STATUS_READY.one, 1)], (forEach (upto 64) (moving { DmaCh.idle with phase := .move, desc := [2 ^ 40, 0x2000, 64 + 64 * 2 ^ 32, 0, 0, 2 + 2 ^ 24, 1 + 2 ^ 24 + 2 * 2 ^ 51, 1] } [(CLK_STATUS_LOCKED.one, 1), (CLK_STATUS_BYPASS.one, 0), (HBM_G_STATUS_STOPPED.one, 0), (HBM_G_STATUS_READY.one, 1)]) (fun n s => s.dmaSettle n)).replayChecks, 63, 7, ⟨.move, 2 ^ 40, 0x2000, 64, []⟩, 2, rfl, by decide +kernel, by decide +kernel⟩,
   ⟨moving { DmaCh.idle with phase := .fetch } [(DMA_CUR.of 63, 0x1002)], 63, [1], [], none, by decide +kernel⟩,
   ⟨moving { DmaCh.idle with phase := .fetch } [(DMA_CUR.of 63, 0x1002)], 63, List.replicate 16 0, [], some (pairWords (List.replicate 16 0)), by decide +kernel⟩,
   ⟨moving { DmaCh.idle with phase := .fetch } [(DMA_CUR.of 63, 0x1002)], 63, hostWords, [], some (pairWords (hostWords)), by decide +kernel⟩,
   ⟨host, 63, [], [], by decide +kernel⟩,
   ⟨moving { DmaCh.idle with phase := .link } [(DMA_CUR.of 63, 0x1002)], 63, 0x3082, false, .clean, some 0x3082, by decide +kernel⟩,
   ⟨moving { DmaCh.idle with phase := .link } [(DMA_CUR.of 63, 0x1002), (DMA_STATUS_KICK_PENDING.of 63, 1)], 63, 1, false, .clean, some 1, by decide +kernel⟩,
   ⟨moving { DmaCh.idle with phase := .link } [(DMA_CUR.of 63, 0x1002)], 63, 1, false, .clean, some 1, by decide +kernel⟩,
   ⟨moving { DmaCh.idle with phase := .link } [(DMA_CUR.of 63, 0x1002)], 63, 1, true, .clean, none, by decide +kernel⟩,
   ⟨host, 63, 1, true, .uncorrectable, by decide +kernel⟩,
   ⟨host, 63, .accepted, [], [], .inl (by decide +kernel)⟩,
   ⟨moving { DmaCh.idle with phase := .move, desc := hostDesc, granted := 64, inflight := [⟨.move, 0x1000, 0x2000, 64, []⟩] } [], 63, .accepted, [], burst, ⟨.move, 0x1000, 0x2000, 64, []⟩, [], by decide +kernel⟩,
   ⟨moving { DmaCh.idle with phase := .move, desc := hostDesc, granted := 64, inflight := [⟨.move, 0x1000, 0x2000, 64, []⟩] } [], 63, .targetError, [], burst, ⟨.move, 0x1000, 0x2000, 64, []⟩, [], by decide +kernel⟩,
   ⟨moving { DmaCh.idle with phase := .move, desc := hostDesc, granted := 64, inflight := [⟨.move, 0x1000, 0x2000, 64, []⟩] } [], 63, ⟨.move, 0x1000, 0x2000, 64, []⟩, [], [], burst, by decide +kernel⟩,
   ⟨moving { DmaCh.idle with phase := .move, desc := hostDesc, granted := 64, inflight := [⟨.move, 0x1000, 0x2000, 64, []⟩] } [], 63, ⟨.move, 0x1000, 0x2000, 64, []⟩, [], [], burst, by decide +kernel⟩⟩

/-- The hypotheses of `FlowstoneUnitsWork` are met. -/
theorem witness_FlowstoneUnitsWork :
    (∃ (s : State) (u : Fin 4) (n : Nat) (g : FlowStream), s.holderOf u.val = some n ∧ (s.flow u.val).stage ≠ .done ∧ 0 < (s.flow u.val).inBuf.length ∧ (blockBytes ≤ (s.flow u.val).inBuf.length ∨ (s.flow u.val).ended = true) ∧ g = (s.flow u.val).encode ((s.flow u.val).inBuf.take blockBytes) ∧ (g.ended && g.inBuf.isEmpty) = true) ∧
    (∃ (s : State) (u : Fin 4) (n : Nat) (g : FlowStream), s.holderOf u.val = some n ∧ (s.flow u.val).stage ≠ .done ∧ 0 < (s.flow u.val).inBuf.length ∧ (blockBytes ≤ (s.flow u.val).inBuf.length ∨ (s.flow u.val).ended = true) ∧ g = (s.flow u.val).encode ((s.flow u.val).inBuf.take blockBytes) ∧ (g.ended && g.inBuf.isEmpty) = false) ∧
    (∃ (s : State) (u : Fin 4) (n : Fin 64) (b : DmaBurst) (data : List Byte) (f : List EccFinding), s.anyReplay = false ∧ s.dmaState n.val = 1 ∧ (s.chan n.val).phase = .move ∧ (s.chan n.val).inflight = [b] ∧ b.kind = .drain ∧ (s.chan n.val).aborting = false ∧ (s.chan n.val).pipe = some u.val ∧ pipeUnit (s.chan n.val).desc = some u.val ∧ dstSpace (s.chan n.val).desc = 2 ∧ bitOf (descWord (s.chan n.val).desc 6) 59 = false ∧ s.unitFenced (s.chan n.val).desc = false ∧ (s.flow u.val).stage = .done ∧ (s.flow u.val).out = [] ∧ (s.flow u.val).bad = false) ∧
    (∃ (s : State) (u : Fin 4), (s.holderOf u.val = none ∨ (s.flow u.val).stage = .done ∨ (s.flow u.val).inBuf = [] ∨ (s.flow u.val).inBuf.length < blockBytes ∧ (s.flow u.val).ended = false)) ∧
    (∃ (s : State) (d : Fin 2) (n : Nat) (g : FlowStream), ((s.flow (4 + d.val)).stage = .header ∧ (s.flow (4 + d.val)).readHeader = .goes g ∨ (s.flow (4 + d.val)).stage = .blocks ∧ (s.flow (4 + d.val)).readBlock = .goes g) ∧ s.holderOf (4 + d.val) = some n) ∧
    (∃ (s : State) (d : Fin 2) (n : Nat) (g : FlowStream), ((s.flow (4 + d.val)).stage = .header ∧ (s.flow (4 + d.val)).readHeader = .goes g ∨ (s.flow (4 + d.val)).stage = .blocks ∧ (s.flow (4 + d.val)).readBlock = .goes g) ∧ s.holderOf (4 + d.val) = some n) ∧
    (∃ (s : State) (d : Fin 2) (n : Nat) (r : Reject) (c : Instr), (c = .decompressBlock d ∧ (s.flow (4 + d.val)).stage = .header ∧ (s.flow (4 + d.val)).readHeader = .rejects r ∨ c = .decompressBlock d ∧ (s.flow (4 + d.val)).stage = .blocks ∧ (s.flow (4 + d.val)).readBlock = .rejects r ∨ c = .decompressTrailer d ∧ (s.flow (4 + d.val)).stage = .trailer ∧ (s.flow (4 + d.val)).readTrailer = .rejects r) ∧ s.holderOf (4 + d.val) = some n) ∧
    (∃ (s : State) (d : Fin 2) (n : Nat) (r : Reject) (c : Instr), (c = .decompressBlock d ∧ (s.flow (4 + d.val)).stage = .header ∧ (s.flow (4 + d.val)).readHeader = .rejects r ∨ c = .decompressBlock d ∧ (s.flow (4 + d.val)).stage = .blocks ∧ (s.flow (4 + d.val)).readBlock = .rejects r ∨ c = .decompressTrailer d ∧ (s.flow (4 + d.val)).stage = .trailer ∧ (s.flow (4 + d.val)).readTrailer = .rejects r) ∧ s.holderOf (4 + d.val) = some n) ∧
    (∃ (s : State) (d : Fin 2) (n : Nat) (r : Reject) (c : Instr), (c = .decompressBlock d ∧ (s.flow (4 + d.val)).stage = .header ∧ (s.flow (4 + d.val)).readHeader = .rejects r ∨ c = .decompressBlock d ∧ (s.flow (4 + d.val)).stage = .blocks ∧ (s.flow (4 + d.val)).readBlock = .rejects r ∨ c = .decompressTrailer d ∧ (s.flow (4 + d.val)).stage = .trailer ∧ (s.flow (4 + d.val)).readTrailer = .rejects r) ∧ s.holderOf (4 + d.val) = some n) ∧
    (∃ (s : State) (d : Fin 2) (n : Nat) (g : FlowStream), s.holderOf (4 + d.val) = some n ∧ (s.flow (4 + d.val)).stage = .trailer ∧ (s.flow (4 + d.val)).readTrailer = .goes g) ∧
    (∃ (s : State) (d : Fin 2), (s.holderOf (4 + d.val) = none ∨ (s.flow (4 + d.val)).stage = .trailer ∨ (s.flow (4 + d.val)).stage = .done ∨ (s.flow (4 + d.val)).stage = .header ∧ (s.flow (4 + d.val)).readHeader = .waits ∨ (s.flow (4 + d.val)).stage = .blocks ∧ (s.flow (4 + d.val)).readBlock = .waits)) ∧
    (∃ (s : State) (d : Fin 2), (s.holderOf (4 + d.val) = none ∨ (s.flow (4 + d.val)).stage ≠ .trailer ∨ (s.flow (4 + d.val)).readTrailer = .waits)) ∧
    (∃ (s : State) (x : FlowUnit), s.flowFenced (flowNumber x) = false) ∧
    (∃ (s : State) (x : FlowUnit), s.flowFenced (flowNumber x) = true) :=
  ⟨⟨piping 3 { FlowStream.idle with inBuf := [7, 7], ended := true, level := 1, stage := .blocks }, 3, 63, ({ FlowStream.idle with inBuf := [7, 7], ended := true, level := 1, stage := .blocks } : FlowStream).encode [7, 7], by decide +kernel⟩,
   ⟨piping 3 { FlowStream.idle with inBuf := List.replicate 65536 7, level := 0, stage := .blocks }, 3, 63, ({ FlowStream.idle with inBuf := List.replicate 65536 7, level := 0, stage := .blocks } : FlowStream).encode ((({ FlowStream.idle with inBuf := List.replicate 65536 7, level := 0, stage := .blocks } : FlowStream).inBuf).take blockBytes), by simp only [piping]; decide +kernel, by show FlowStage.blocks ≠ .done; decide, by show 0 < (List.replicate 65536 (7 : Byte)).length; rw [List.length_replicate]; omega, .inl (by show 65536 ≤ (List.replicate 65536 (7 : Byte)).length; rw [List.length_replicate]), rfl, rfl⟩,
   ⟨{ moving { DmaCh.idle with phase := .move, desc := pipedDesc, inflight := [⟨.drain, 0, 0x2000, 0, []⟩], pipe := some 3 } [] with flw := [(3, { FlowStream.idle with stage := .done })] }, 3, 63, ⟨.drain, 0, 0x2000, 0, []⟩, [], [], by decide +kernel⟩,
   ⟨host, 3, by decide +kernel⟩,
   ⟨piping 5 { FlowStream.idle with stage := .header, inBuf := streamHeader 5 }, 1, 63, { FlowStream.idle with stage := .blocks, inBuf := [], pos := 8, level := 5, wlog := 16 }, .inl ⟨by decide +kernel, by decide +kernel⟩, by decide +kernel⟩,
   ⟨piping 5 { FlowStream.idle with stage := .blocks, inBuf := encodeBlock 0 [] [1, 2, 3] }, 1, 63, { FlowStream.idle with stage := .blocks, inBuf := [], pos := 15, out := [1, 2, 3], hist := [3, 2, 1], orig := 3, crc := crcRun 0xFFFFFFFF [1, 2, 3] }, .inr ⟨by decide +kernel, by decide +kernel⟩, by decide +kernel⟩,
   ⟨piping 5 { FlowStream.idle with stage := .header, inBuf := List.replicate 8 0 }, 1, 63, (1, 0), .decompressBlock 1, .inl ⟨rfl, rfl, by decide +kernel⟩, by decide +kernel⟩,
   ⟨piping 5 { FlowStream.idle with stage := .blocks, inBuf := List.replicate 12 0xFF }, 1, 63, (3, 0), .decompressBlock 1, .inr (.inl ⟨rfl, rfl, by decide +kernel⟩), by decide +kernel⟩,
   ⟨piping 5 { FlowStream.idle with stage := .trailer, inBuf := List.replicate 12 1 }, 1, 63, (6, 0), .decompressTrailer 1, .inr (.inr ⟨rfl, rfl, by decide +kernel⟩), by decide +kernel⟩,
   ⟨piping 5 { FlowStream.idle with stage := .trailer, inBuf := List.replicate 12 0 }, 1, 63, { FlowStream.idle with stage := .done, inBuf := [], pos := 12 }, by decide +kernel⟩,
   ⟨host, 1, .inl (by decide +kernel)⟩,
   ⟨host, 1, .inl (by decide +kernel)⟩,
   ⟨piping 5 { FlowStream.idle with stage := .blocks, inBuf := [] }, .decomp 1, by decide +kernel⟩,
   ⟨dev [(FLW_STATUS_DEC_FENCED.one, 2)], .decomp 1, by decide +kernel⟩⟩

/-- The hypotheses of `FlowstoneDecodesWhatItEncodes` are met. -/
theorem witness_FlowstoneDecodesWhatItEncodes :
    (∃ (f : FlowStream) (level : Nat) (block : List Byte) (rest : List Byte), level ≤ 9 ∧ 0 < block.length ∧ block.length ≤ blockBytes ∧ f.hist.length ≤ blockBytes ∧ f.hist.length ≤ f.orig ∧ f.wlog = 16 ∧ f.inBuf = encodeBlock level f.hist block ++ rest) ∧
    (∃ (f : FlowStream) (level : Nat) (block : List Byte) (rest : List Byte), level ≤ 9 ∧ 0 < block.length ∧ block.length ≤ blockBytes ∧ f.hist.length ≤ blockBytes ∧ f.hist.length ≤ f.orig ∧ f.wlog = 16 ∧ f.inBuf = encodeBlock level f.hist block ++ rest) ∧
    (∃ (f : FlowStream) (g : FlowStream) (rest : List Byte), f.orig < 2 ^ 64 ∧ f.inBuf = streamEnd f.orig f.crc ++ rest ∧ g = { f with inBuf := f.inBuf.drop 12, pos := f.pos + 12, stage := .trailer }) :=
  ⟨⟨{ FlowStream.idle with inBuf := encodeBlock 9 [] [1, 2, 3, 1, 2, 3, 1, 2, 3, 1, 2, 3] ++ [7] }, 9, [1, 2, 3, 1, 2, 3, 1, 2, 3, 1, 2, 3], [7], by decide +kernel⟩,
   ⟨{ FlowStream.idle with hist := [9, 9], orig := 2, inBuf := encodeBlock 0 [9, 9] [1] }, 0, [1], [], by decide +kernel⟩,
   ⟨{ FlowStream.idle with orig := 2 ^ 64 - 1, inBuf := streamEnd (2 ^ 64 - 1) 0xFFFFFFFF ++ [7] }, { FlowStream.idle with orig := 2 ^ 64 - 1, inBuf := (streamEnd (2 ^ 64 - 1) 0xFFFFFFFF ++ [7]).drop 12, pos := 12, stage := .trailer }, [7], by decide +kernel⟩⟩

/-- The hypotheses of `BrownoutsAndTheAlwaysOnSupply` are met. -/
theorem witness_BrownoutsAndTheAlwaysOnSupply :
    (∃ (s : State) (k : BitVec 48), s.is PWR_STATUS_BO_WARN.one = true) ∧
    (∃ (s : State) (k : BitVec 48), s.is PWR_STATUS_BO_WARN.one = false) ∧
    (∃ (s : State), (s.is PWR_STATUS_BO_WARN.one = false ∨ s.boundOffDue = false)) ∧
    (∃ (s : State), s.is PWR_STATUS_BO_WARN.one = true ∧ s.boundOffDue = true) :=
  ⟨⟨live [(PWR_STATUS_BO_WARN.one, 1)], 9, by decide +kernel⟩,
   ⟨host, 9, by decide +kernel⟩,
   ⟨host, by decide +kernel⟩,
   ⟨{ live [(PWR_STATUS_BO_WARN.one, 1), (PWR_BO_CTRL.one, 200), (WR_SESSION_STATUS_STATE.elt 7, 3)] with now := 200 * ticksUs }, by decide +kernel⟩⟩

/-- The hypotheses of `ResetsKeepAndClear` are met. -/
theorem witness_ResetsKeepAndClear :
    (∃ (s : State) (x : Straps), s.pwr.waitRails = false) ∧
    (∃ (s : State) (x : Straps), s.pwr.waitRails = true) :=
  ⟨⟨host, ⟨true, 2⟩, by decide +kernel⟩,
   ⟨{ host with pwr := { Power.reset with waitRails := true } }, ⟨true, 2⟩, by decide +kernel⟩⟩

/-- The hypotheses of `GatesParkAndWake` are met. -/
theorem witness_GatesParkAndWake :
    (∃ (s : State) (v : BitVec 64), s.admits (PageClass.page .pwr 0) = true) ∧
    (∃ (s : State) (v : BitVec 64), s.admits (PageClass.page .pwr 0) = true) ∧
    (∃ (s : State) (v : BitVec 64), s.admits (PageClass.page .pwr 0) = true) ∧
    (∃ (s : State) (v : DWord), s.admits (PageClass.page .pwr 0) = true) ∧
    (∃ (s : State) (n : Fin 65) (f : CalFinding), s.skeinReady n.val = (s.skeinGate n.val || !s.powersUp)) ∧
    (∃ (s : State) (n : Fin 65) (f : CalFinding), s.skeinReady n.val = (s.skeinGate n.val || !s.powersUp)) ∧
    (∃ (s : State) (n : Fin 65) (f : CalFinding), s.skeinReady n.val = (!s.skeinGate n.val && s.powersUp)) ∧
    (∃ (s : State) (n : Fin 8) (f : CalFinding), bitOf (s.get PWR_TRG_GATE_READY.one) n.val = (!bitOf (s.get PWR_TRG_GATE_GATE.one) n.val && s.powersUp)) ∧
    (∃ (s : State) (n : Fin 8) (f : CalFinding), bitOf (s.get PWR_TRG_GATE_READY.one) n.val = (bitOf (s.get PWR_TRG_GATE_GATE.one) n.val || !s.powersUp)) ∧
    (∃ (s : State), s.get PWR_STATUS_STATE.one = 2 ∧ s.anyRuns = false) ∧
    (∃ (s : State), (s.get PWR_STATUS_STATE.one ≠ 2 ∨ s.anyRuns = true)) ∧
    (∃ (s : State), (s.get PWR_STATUS_STATE.one ≠ 4 ∨ s.is HBM_G_STATUS_PARKED.one = true ∨ s.is FEG_STATUS_CAL_BUSY.one = true)) ∧
    (∃ (s : State), s.get PWR_STATUS_STATE.one = 4 ∧ s.is HBM_G_STATUS_PARKED.one = false ∧ s.is FEG_STATUS_CAL_BUSY.one = false) :=
  ⟨⟨dev [((unlockedOf (PageClass.page .pwr 0)), 1), (SWT_STATUS_SPARE_STATE.one, 1)], 1, by decide +kernel⟩,
   ⟨dev [((unlockedOf (PageClass.page .pwr 0)), 1)], 1, by decide +kernel⟩,
   ⟨recording [] [((unlockedOf (PageClass.page .pwr 0)), 1)], 0x18, by decide +kernel⟩,
   ⟨recording [] [((unlockedOf (PageClass.page .pwr 0)), 1)], 0x0C, by decide +kernel⟩,
   ⟨dev [(PWR_STATUS_STATE.one, 1)], 64, ⟨true, 9, 3⟩, by decide +kernel⟩,
   ⟨dev [(PWR_STATUS_STATE.one, 1), (PWR_SKN_READY.one, 2 ^ 63), (PWR_SKN_GATE.one, 2 ^ 63)], 63, ⟨true, 9, 3⟩, by decide +kernel⟩,
   ⟨dev [(PWR_STATUS_STATE.one, 1), (PWR_SKN_READY.one, 2 ^ 63)], 63, ⟨true, 9, 3⟩, by decide +kernel⟩,
   ⟨dev [(PWR_STATUS_STATE.one, 1), (PWR_TRG_GATE_READY.one, 0x80)], 7, ⟨true, 9, 3⟩, by decide +kernel⟩,
   ⟨dev [(PWR_STATUS_STATE.one, 1)], 7, ⟨true, 9, 3⟩, by decide +kernel⟩,
   ⟨hbmUp [(PWR_STATUS_STATE.one, 2), (HBM_RETAIN.of 3, 2 ^ 31)], by decide +kernel⟩,
   ⟨hbmUp [], by decide +kernel⟩,
   ⟨host, by decide +kernel⟩,
   ⟨dev [(PWR_STATUS_STATE.one, 4)], by decide +kernel⟩⟩

/-- The hypotheses of `DieTemperaturesAndTheTrip` are met. -/
theorem witness_DieTemperaturesAndTheTrip :
    (∃ (s : State) (temps : List Byte), temps.length = 16) ∧
    (∃ (s : State), 112 ≤ s.hottest ∧ s.is PWR_STATUS_TRIPPED.one = false) ∧
    (∃ (s : State), (s.hottest < 112 ∨ s.is PWR_STATUS_TRIPPED.one = true)) ∧
    (∃ (s : State), 95 ≤ s.hottest) ∧
    (∃ (s : State), s.hottest < 95) ∧
    (∃ (s : State) (v : DWord), s.admits (PageClass.page .pwr 0) = true) :=
  ⟨⟨host, (upto 14).map (fun i => BitVec.ofNat 8 i) ++ [127, 0x80], by decide +kernel⟩,
   ⟨dev [(PWR_TEMP_MAX_TEMP.one, 112), (WR_SESSION_STATUS_STATE.elt 7, 3)], by decide +kernel⟩,
   ⟨dev [(PWR_TEMP_MAX_TEMP.one, 111)], by decide +kernel⟩,
   ⟨dev [(PWR_TEMP_MAX_TEMP.one, 95)], by decide +kernel⟩,
   ⟨dev [(PWR_TEMP_MAX_TEMP.one, 94), (PWR_STATUS_TRIPPED.one, 1)], by decide +kernel⟩,
   ⟨dev [((unlockedOf (PageClass.page .pwr 0)), 1)], 1, by decide +kernel⟩⟩

/-- The hypotheses of `StartUpGoesStepByStep` are met. -/
theorem witness_StartUpGoesStepByStep :
    (∃ (s : State) (ok : Bool), s.pwr.step = 1) ∧
    (∃ (s : State) (ok : Bool), s.pwr.step = 2 ∧ s.is CLK_STATUS_SEARCHING.one = true) ∧
    (∃ (s : State) (ok : Bool), s.pwr.step = 2 ∧ s.is CLK_STATUS_SEARCHING.one = false ∧ s.grt.waiting = []) ∧
    (∃ (s : State) (ok : Bool), s.pwr.step = 3 ∧ s.get SYS_BOOT_BOOT_MODE.one = 1) ∧
    (∃ (s : State) (ok : Bool), s.pwr.step = 3 ∧ s.get SYS_BOOT_BOOT_MODE.one ≠ 1) ∧
    (∃ (s : State) (ok : Bool), s.pwr.step = 4) ∧
    (∃ (s : State) (ok : Bool), (s.pwr.step = 0 ∨ 7 < s.pwr.step)) ∧
    (∃ (s : State) (ok : Bool) (failed : BitVec 3), s.pwr.step = 5) ∧
    (∃ (s : State) (ok : Bool), s.pwr.step = 6 ∧ s.pwr.locked5 = true ∧ s.is HBM_G_STATUS_READY.one = false) ∧
    (∃ (s : State) (ok : Bool), s.pwr.step = 6 ∧ s.pwr.locked5 = false) ∧
    (∃ (s : State) (ok : Bool), s.pwr.step = 6 ∧ s.is HBM_G_STATUS_READY.one = true ∧ s.is FEG_STATUS_CAL_DONE.one = true) ∧
    (∃ (s : State) (ok : Bool), s.pwr.step = 7) :=
  ⟨⟨{ dev [] with pwr := { Power.reset with step := 1 } }, false, by decide +kernel⟩,
   ⟨{ dev [(CLK_STATUS_SEARCHING.one, 1)] with pwr := { Power.reset with step := 2 } }, true, by decide +kernel⟩,
   ⟨{ dev [] with pwr := { Power.reset with step := 2 } }, true, by decide +kernel⟩,
   ⟨{ dev [(SYS_BOOT_BOOT_MODE.one, 1)] with pwr := { Power.reset with step := 3 } }, true, by decide +kernel⟩,
   ⟨{ dev [(SYS_BOOT_BOOT_MODE.one, 2)] with pwr := { Power.reset with step := 3 } }, true, by decide +kernel⟩,
   ⟨{ dev [] with pwr := { Power.reset with step := 4 } }, true, by decide +kernel⟩,
   ⟨{ dev [] with pwr := { Power.reset with step := 8 } }, true, by decide +kernel⟩,
   ⟨{ dev [] with pwr := { Power.reset with step := 5, slot := 1 } }, false, 2, by decide +kernel⟩,
   ⟨{ dev [] with pwr := { Power.reset with step := 6, locked5 := true } }, true, by decide +kernel⟩,
   ⟨{ dev [] with pwr := { Power.reset with step := 6 } }, true, by decide +kernel⟩,
   ⟨{ dev [(HBM_G_STATUS_READY.one, 1), (FEG_STATUS_CAL_DONE.one, 1)] with pwr := { Power.reset with step := 6, locked5 := true } }, true, by decide +kernel⟩,
   ⟨{ dev [] with pwr := { Power.reset with step := 7 } }, true, by decide +kernel⟩⟩

/-- The hypotheses of `MailboxCommandsStartWaitAndEnd` are met. -/
theorem witness_MailboxCommandsStartWaitAndEnd :
    (∃ (s : State) (tag : BitVec 16) (args : List Byte), s.admits (PageClass.page .mbx 0) = true ∧ s.get MBX_STATUS_STATE.one ≠ 1 ∧ args.length ≤ 4096) ∧
    (∃ (s : State) (tag : BitVec 16), s.takes = true) ∧
    (∃ (s : State) (tag : BitVec 16), s.snapReady = true ∧ s.snapFor .mailbox = true ∧ s.mbx.cur = some ⟨0x01, tag.toNat, []⟩) ∧
    (∃ (s : State) (tag : BitVec 16), s.snapReady = true ∧ s.snapFor .mailbox = true ∧ s.mbx.cur = some ⟨0x40, tag.toNat, []⟩) ∧
    (∃ (s : State) (code : Byte) (tag : BitVec 16), s.takes = true ∧ commandCodes.contains code.toNat = false) ∧
    (∃ (s : State) (code : Byte) (tag : BitVec 16) (args : List Byte), s.serves code.toNat tag args 3 ∧ s.admits (PageClass.page .mbx 0) = true) ∧
    (∃ (s : State), s.admits (PageClass.page .mbx 0) = true ∧ s.get MBX_STATUS_STATE.one ≠ 3) ∧
    (∃ (s : State) (tag : BitVec 16), s.serves 0x20 tag [] 3 ∧ s.twn.mirror = false ∧ s.get PWR_STATUS_STATE.one = 3 ∧ s.anyRuns = false ∧ s.anyReplay = false) ∧
    (∃ (s : State) (tag : BitVec 16) (slot : Byte), s.serves 0x30 tag [slot] 3 ∧ slot.toNat ≤ 1 ∧ s.twn.mirror = false ∧ s.mayActivate slot.toNat = true ∧ s.is PWR_STATUS_BO_WARN.one = false) ∧
    (∃ (s : State), (s.mbx.cur = none ∨ s.get MBX_STATUS_STATE.one ≠ 3 ∨ s.twn.mirror = true)) :=
  ⟨⟨box [(MBX_STATUS_STATE.one, 2)], 7, [], by decide +kernel⟩,
   ⟨box [], 7, by decide +kernel⟩,
   ⟨{ box [(MBX_STATUS_STATE.one, 2), (SYS_SNAP_STATUS_PENDING.one, 1)] with mbx := { Mailbox.reset with cur := some ⟨0x01, 7, []⟩ }, clk := { Clocks.reset with bypassCycles := 256, snaps := [⟨.mailbox, 256⟩] } }, 7, by decide +kernel⟩,
   ⟨{ box [(MBX_STATUS_STATE.one, 2), (SYS_SNAP_STATUS_PENDING.one, 1)] with mbx := { Mailbox.reset with cur := some ⟨0x40, 7, []⟩ }, clk := { Clocks.reset with bypassCycles := 256, snaps := [⟨.mailbox, 256⟩] } }, 7, by decide +kernel⟩,
   ⟨box [], 0xEE, 7, by decide +kernel⟩,
   ⟨{ box [(MBX_STATUS_STATE.one, 3)] with mbx := { Mailbox.reset with cur := some ⟨0x30, 7, [1]⟩ } }, 0x30, 7, [1], ⟨by decide +kernel, by decide +kernel⟩, by decide +kernel⟩,
   ⟨{ box [(MBX_STATUS_STATE.one, 2)] with mbx := { Mailbox.reset with cur := some ⟨0x30, 7, [1]⟩ } }, by decide +kernel⟩,
   ⟨{ box [(MBX_STATUS_STATE.one, 3), (PWR_STATUS_STATE.one, 3)] with mbx := { Mailbox.reset with cur := some ⟨0x20, 7, []⟩ } }, 7, ⟨by decide +kernel, by decide +kernel⟩, by decide +kernel⟩,
   ⟨{ box [(MBX_STATUS_STATE.one, 3), (slotState 1, 3)] with mbx := { Mailbox.reset with cur := some ⟨0x30, 7, [1]⟩ } }, 7, 1, ⟨by decide +kernel, by decide +kernel⟩, by decide +kernel⟩,
   ⟨host, by decide +kernel⟩⟩

/-- The hypotheses of `PlansAreAdmittedOrRefused` are met. -/
theorem witness_PlansAreAdmittedOrRefused :
    (∃ (s : State) (tag : BitVec 16) (args : List Byte) (o : Nat), s.takes = true ∧ args.length ≤ 4096 ∧ badField (admitArgs args) = some o) ∧
    (∃ (s : State) (tag : BitVec 16) (args : List Byte) (o : Nat), s.takes = true ∧ args.length ≤ 4096 ∧ badField (admitArgs args) = some o) ∧
    (∃ (s : State) (tag : BitVec 16) (args : List Byte) (o : Nat), s.takes = true ∧ args.length ≤ 4096 ∧ badField (admitArgs args) = none ∧ planBad (s.bar4Bytes (0x6000 + leAt args 0 4) (leAt args 4 4)) (leAt args 4 4) = some o) ∧
    (∃ (s : State) (tag : BitVec 16) (args : List Byte), s.takes = true ∧ args.length ≤ 4096 ∧ badField (admitArgs args) = none ∧ planBad (s.bar4Bytes (0x6000 + leAt args 0 4) (leAt args 4 4)) (leAt args 4 4) = none ∧ (s.admission (readPlan (s.bar4Bytes (0x6000 + leAt args 0 4) (leAt args 4 4)))).1 ≠ 0) ∧
    (∃ (s : State) (tag : BitVec 16) (args : List Byte), s.takes = true ∧ args.length ≤ 4096 ∧ badField (admitArgs args) = none ∧ planBad (s.bar4Bytes (0x6000 + leAt args 0 4) (leAt args 4 4)) (leAt args 4 4) = none ∧ (s.admission (readPlan (s.bar4Bytes (0x6000 + leAt args 0 4) (leAt args 4 4)))).1 = 0) :=
  ⟨⟨box [], 7, [], 0, by decide +kernel⟩,
   ⟨box [], 7, toBytes 4 0 ++ toBytes 4 63, 4, by decide +kernel⟩,
   ⟨box [], 7, planArgs, 0, by decide +kernel⟩,
   ⟨planned [], 7, planArgs, by decide +kernel⟩,
   ⟨planned [(ADM_SLOTS_WRITE.one, 14000), (ADM_OFFLOAD.one, 65535), (HBM_G_CAPACITY.one, 2 ^ 36)], 7, planArgs, by decide +kernel⟩⟩

/-- The hypotheses of `SessionCommandsActAlone` are met. -/
theorem witness_SessionCommandsActAlone :
    (∃ (s : State) (tag : BitVec 16) (args : List Byte), s.takes = true ∧ args.length ≤ 4096 ∧ s.paired = true ∧ s.isFollower = true) ∧
    (∃ (s : State) (tag : BitVec 16) (args : List Byte), s.takes = true ∧ args.length ≤ 4096 ∧ s.get TWN_STATUS_ROLE.one = 0 ∧ badField [indexArg args] = some 0) ∧
    (∃ (s : State) (tag : BitVec 16) (args : List Byte), s.Sound ∧ s.takes = true ∧ args.length ≤ 4096 ∧ s.get TWN_STATUS_ROLE.one = 0 ∧ badField [indexArg args] = none) ∧
    (∃ (s : State) (tag : BitVec 16) (args : List Byte), s.Sound ∧ s.takes = true ∧ args.length ≤ 4096 ∧ s.get TWN_STATUS_ROLE.one = 0 ∧ badField [indexArg args] = none) ∧
    (∃ (s : State) (tag : BitVec 16) (args : List Byte), s.Sound ∧ s.takes = true ∧ args.length ≤ 4096 ∧ s.get TWN_STATUS_ROLE.one = 0 ∧ badField [indexArg args] = none) ∧
    (∃ (s : State) (tag : BitVec 16) (args : List Byte), s.Sound ∧ s.takes = true ∧ args.length ≤ 4096 ∧ s.get TWN_STATUS_ROLE.one = 0 ∧ badField [indexArg args] = none) ∧
    (∃ (s : State) (tag : BitVec 16) (args : List Byte), s.Sound ∧ s.takes = true ∧ args.length ≤ 4096 ∧ s.get TWN_STATUS_ROLE.one = 0 ∧ badField [indexArg args] = none) ∧
    (∃ (s : State) (tag : BitVec 16) (args : List Byte), s.Sound ∧ s.takes = true ∧ args.length ≤ 4096 ∧ s.get TWN_STATUS_ROLE.one = 0 ∧ badField [indexArg args] = none) ∧
    (∃ (s : State) (tag : BitVec 16) (args : List Byte), s.takes = true ∧ args.length ≤ 4096 ∧ s.get TWN_STATUS_ROLE.one = 0 ∧ badField [indexArg args] = none ∧ s.seqFenced (leAt args 0 1) = false ∧ s.sessState (leAt args 0 1) = 3 ∧ s.seqArmed (leAt args 0 1) = false ∧ s.get (TRG_STATUS_STATE.of (leAt args 0 1)) ≠ 1 ∧ s.armRefusal (leAt args 0 1) true = 0) ∧
    (∃ (s : State) (tag : BitVec 16) (args : List Byte), s.takes = true ∧ args.length ≤ 4096 ∧ s.get TWN_STATUS_ROLE.one = 0 ∧ badField [indexArg args] = none ∧ s.seqFenced (leAt args 0 1) = false ∧ s.sessState (leAt args 0 1) = 3 ∧ s.seqArmed (leAt args 0 1) = false ∧ s.get (TRG_STATUS_STATE.of (leAt args 0 1)) ≠ 1 ∧ s.armRefusal (leAt args 0 1) true ≠ 0) ∧
    (∃ (s : State) (tag : BitVec 16) (args : List Byte) (p : Plan), s.Sound ∧ s.Numbered ∧ s.takes = true ∧ args.length ≤ 4096 ∧ s.get TWN_STATUS_ROLE.one = 0 ∧ badField [indexArg args] = none ∧ s.checkCastOn (leAt args 0 1) = .pass ∧ sget s.rcd.plans (leAt args 0 1) none = some p) ∧
    (∃ (s : State) (tag : BitVec 16) (args : List Byte), s.takes = true ∧ args.length ≤ 4096 ∧ s.get TWN_STATUS_ROLE.one = 0 ∧ (args.length < 2 ∨ 16384 ≤ leAt args 0 2)) ∧
    (∃ (s : State) (tag : BitVec 16) (args : List Byte), s.takes = true ∧ args.length ≤ 4096 ∧ s.get TWN_STATUS_ROLE.one = 0 ∧ (args.length < 2 ∨ 16384 ≤ leAt args 0 2)) ∧
    (∃ (s : State) (tag : BitVec 16) (args : List Byte), s.Sound ∧ s.takes = true ∧ args.length ≤ 4096 ∧ s.get TWN_STATUS_ROLE.one = 0 ∧ 2 ≤ args.length ∧ leAt args 0 2 < 16384) ∧
    (∃ (s : State) (tag : BitVec 16) (args : List Byte), s.Sound ∧ s.takes = true ∧ args.length ≤ 4096 ∧ s.get TWN_STATUS_ROLE.one = 0 ∧ 2 ≤ args.length ∧ leAt args 0 2 < 16384) ∧
    (∃ (s : State) (tag : BitVec 16) (args : List Byte), s.takes = true ∧ args.length ≤ 4096 ∧ s.get TWN_STATUS_ROLE.one = 0) ∧
    (∃ (s : State) (tag : BitVec 16) (args : List Byte), s.takes = true ∧ args.length ≤ 4096 ∧ s.get TWN_STATUS_ROLE.one = 0) ∧
    (∃ (s : State) (tag : BitVec 16) (args : List Byte), s.takes = true ∧ args.length ≤ 4096 ∧ s.get TWN_STATUS_ROLE.one = 0) ∧
    (∃ (s : State) (tag : BitVec 16) (args : List Byte), s.takes = true ∧ args.length ≤ 4096 ∧ s.paired = true ∧ s.isLead = true ∧ s.is TWN_STATUS_LINK_UP.one = true ∧ s.checkCommand 0x13 args = .pass) :=
  ⟨⟨box [(TWN_STATUS_STATE.one, 2), (TWN_STATUS_ROLE.one, 2)], 7, [7], by decide +kernel⟩,
   ⟨box [], 7, [8], by decide +kernel⟩,
   ⟨admitted [(WR_SESSION_STATUS_STATE.elt 7, 1)], 7, [7], sound_of _ (by decide +kernel), by decide +kernel⟩,
   ⟨admitted [(WR_SESSION_STATUS_STATE.elt 7, 0)], 7, [7], sound_of _ (by decide +kernel), by decide +kernel⟩,
   ⟨admitted [(WR_SESSION_STATUS_STATE.elt 7, 3)], 7, [7], sound_of _ (by decide +kernel), by decide +kernel⟩,
   ⟨admitted [(WR_SESSION_STATUS_STATE.elt 7, 2)], 7, [7], sound_of _ (by decide +kernel), by decide +kernel⟩,
   ⟨admitted [(fencedOf (PageClass.page .trg 7), 1), (FEG_STATUS_CAL_DONE.one, 0)], 7, [7], sound_of _ (by decide +kernel), by decide +kernel⟩,
   ⟨admitted [(TRG_STATUS_STATE.of 7, 2)], 7, [7], sound_of _ (by decide +kernel), by decide +kernel⟩,
   ⟨admitted [(WR_SESSION_STATUS_STATE.elt 7, 3)], 7, [7], by decide +kernel⟩,
   ⟨admitted [(WR_SESSION_STATUS_STATE.elt 7, 3), (PWR_TRG_GATE_READY.one, 0x7F)], 7, [7], by decide +kernel⟩,
   ⟨admitted [], 7, [7], plan7, sound_of _ (by decide +kernel), numbered_of _ (by decide +kernel), by decide +kernel⟩,
   ⟨box [], 7, [0, 0x40], by decide +kernel⟩,
   ⟨box [], 7, [1], by decide +kernel⟩,
   ⟨box [(SEG_ENTRY_INFO_STATE.win (leAt [0xFF, 0x3F] 0 2), 2)], 7, [0xFF, 0x3F], sound_of _ (by decide +kernel), by decide +kernel⟩,
   ⟨box [(SEG_ENTRY_INFO_STATE.win (leAt [5, 0] 0 2), 1)], 7, [5, 0], sound_of _ (by decide +kernel), by decide +kernel⟩,
   ⟨admitted [], 7, toBytes 8 7 ++ toBytes 8 (2 ^ 30), by decide +kernel⟩,
   ⟨admitted [], 7, toBytes 8 6 ++ toBytes 8 (2 ^ 30), by decide +kernel⟩,
   ⟨admitted [], 7, [7, 1], by decide +kernel⟩,
   ⟨{ box [(TWN_STATUS_LINK_UP.one, 1), (TWN_STATUS_LANES.one, 8), (TWN_STATUS_STATE.one, 2), (TWN_STATUS_ROLE.one, 1), (WR_SESSION_STATUS_STATE.elt 7, 3)] with twn := Twin.reset }, 7, [7], by decide +kernel⟩⟩

/-- The hypotheses of `DeviceCommandsAct` are met. -/
theorem witness_DeviceCommandsAct :
    (∃ (s : State) (tag : BitVec 16), s.takes = true ∧ s.anyRuns = false ∧ s.anyReplay = false) ∧
    (∃ (s : State) (tag : BitVec 16), s.takes = true ∧ s.anyRuns = false ∧ s.anyReplay = false) ∧
    (∃ (s : State) (tag : BitVec 16), s.takes = true ∧ s.anyRuns = false ∧ s.anyReplay = false) ∧
    (∃ (s : State) (tag : BitVec 16), s.takes = true ∧ (s.anyRuns = true ∨ s.anyReplay = true ∨ s.get PWR_STATUS_STATE.one = 4)) ∧
    (∃ (s : State) (tag : BitVec 16), s.takes = true ∧ (s.anyRuns = true ∨ s.anyReplay = true ∨ s.get PWR_STATUS_STATE.one = 4)) ∧
    (∃ (s : State) (tag : BitVec 16), s.takes = true ∧ s.is PWR_STATUS_TRIPPED.one = false) ∧
    (∃ (s : State) (tag : BitVec 16), s.takes = true ∧ s.is PWR_STATUS_TRIPPED.one = false) ∧
    (∃ (s : State) (tag : BitVec 16), s.takes = true ∧ s.is PWR_STATUS_TRIPPED.one = false) ∧
    (∃ (s : State) (tag : BitVec 16), s.takes = true ∧ s.is PWR_STATUS_TRIPPED.one = true) ∧
    (∃ (s : State) (tag : BitVec 16) (args : List Byte), s.takes = true ∧ 4 ≤ args.length ∧ args.length ≤ 4096) ∧
    (∃ (s : State) (tag : BitVec 16) (args : List Byte), s.takes = true ∧ args.length ≤ 4096) ∧
    (∃ (s : State) (tag : BitVec 16), s.takes = true) ∧
    (∃ (s : State) (tag : BitVec 16) (args : List Byte), s.takes = true ∧ 1 ≤ args.length ∧ args.length ≤ 4096 ∧ leAt args 0 1 ≤ 2) ∧
    (∃ (s : State) (tag : BitVec 16) (args : List Byte), s.takes = true ∧ 1 ≤ args.length ∧ args.length ≤ 4096 ∧ leAt args 0 1 ≤ 2) ∧
    (∃ (s : State) (tag : BitVec 16) (args : List Byte), s.takes = true ∧ 1 ≤ args.length ∧ args.length ≤ 4096 ∧ leAt args 0 1 ≤ 2) ∧
    (∃ (s : State) (tag : BitVec 16) (args : List Byte), s.takes = true ∧ 1 ≤ args.length ∧ args.length ≤ 4096 ∧ leAt args 0 1 ≤ 2) ∧
    (∃ (s : State) (tag : BitVec 16), s.takes = true ∧ s.paired = true ∧ s.isLead = true) ∧
    (∃ (s : State) (tag : BitVec 16), s.takes = true ∧ (s.paired = false ∨ s.isLead = false)) ∧
    (∃ (s : State) (tag : BitVec 16) (args : List Byte) (o : Nat), s.takes = true ∧ args.length ≤ 4096 ∧ badField (replayArgs args) = some o) ∧
    (∃ (s : State) (tag : BitVec 16) (args : List Byte) (o : Nat), s.takes = true ∧ args.length ≤ 4096 ∧ badField (replayArgs args) = some o) ∧
    (∃ (s : State) (tag : BitVec 16) (args : List Byte), s.takes = true ∧ args.length ≤ 4096 ∧ badField (replayArgs args) = none) ∧
    (∃ (s : State) (tag : BitVec 16) (args : List Byte), s.takes = true ∧ args.length ≤ 4096 ∧ badField (replayArgs args) = none) ∧
    (∃ (s : State) (tag : BitVec 16) (args : List Byte), s.Sound ∧ s.takes = true ∧ args.length ≤ 4096 ∧ badField (replayArgs args) = none ∧ s.checkReplay (leAt args 0 1) (leAt args 1 1) (leAt args 2 1) = .pass ∧ (s.replayPrepare (leAt args 0 1) (leAt args 2 1) args).armRefusal (leAt args 0 1) false = 0) :=
  ⟨⟨box [(PWR_STATUS_STATE.one, 1)], 7, by decide +kernel⟩,
   ⟨box [(PWR_STATUS_STATE.one, 2)], 7, by decide +kernel⟩,
   ⟨box [(PWR_STATUS_STATE.one, 3)], 7, by decide +kernel⟩,
   ⟨box [(WR_SESSION_STATUS_STATE.elt 7, 4)], 7, by decide +kernel⟩,
   ⟨box [(PWR_STATUS_STATE.one, 4)], 7, by decide +kernel⟩,
   ⟨box [(PWR_STATUS_STATE.one, 3)], 7, by decide +kernel⟩,
   ⟨box [(PWR_STATUS_STATE.one, 2)], 7, by decide +kernel⟩,
   ⟨box [(PWR_STATUS_STATE.one, 1)], 7, by decide +kernel⟩,
   ⟨box [(PWR_STATUS_TRIPPED.one, 1)], 7, by decide +kernel⟩,
   ⟨box [], 7, toBytes 4 0xFFFFFFFF, by decide +kernel⟩,
   ⟨box [], 7, [3, 0, 0], by decide +kernel⟩,
   ⟨box [], 7, by decide +kernel⟩,
   ⟨box [], 7, [0], by decide +kernel⟩,
   ⟨box [], 7, [1], by decide +kernel⟩,
   ⟨box [], 7, [2], by decide +kernel⟩,
   ⟨box [(WR_SESSION_STATUS_STATE.elt 7, 3)], 7, [1], by decide +kernel⟩,
   ⟨box [(TWN_STATUS_STATE.one, 2), (TWN_STATUS_ROLE.one, 1)], 7, by decide +kernel⟩,
   ⟨box [], 7, by decide +kernel⟩,
   ⟨box [], 7, [], 0, by decide +kernel⟩,
   ⟨box [], 7, [7, 2], 1, by decide +kernel⟩,
   ⟨box [], 7, [7, 1, 63, 0] ++ List.replicate 28 0 ++ [1], by decide +kernel⟩,
   ⟨box [(TRG_CTRL_DETACH.of 7, 1), (PWR_TRG_GATE_READY.one, 0x7F), (DMA_CTRL_ENABLE.of 63, 1)], 7, [7, 1, 63, 0] ++ List.replicate 28 0 ++ [1], by decide +kernel⟩,
   ⟨box [(TRG_CTRL_DETACH.of 7, 1), (PWR_TRG_GATE_READY.one, 0xFF), (DMA_CTRL_ENABLE.of 63, 1)], 7, [7, 1, 63, 0] ++ List.replicate 28 0 ++ [1], sound_of _ (by decide +kernel), by decide +kernel⟩⟩

/-- The hypotheses of `ControlProcessorAndFirmware` are met. -/
theorem witness_ControlProcessorAndFirmware :
    (∃ (s : State), s.is MBX_CPU_STATUS_RUNNING.one = true) ∧
    (∃ (s : State), s.is MBX_CPU_STATUS_RUNNING.one = false) ∧
    (∃ (s : State) (loaded : BitVec 3) (ms : BitVec 16), s.is MBX_CPU_STATUS_RESTARTING.one = false) ∧
    (∃ (s : State), s.mbx.kickAt + 409575000000 > s.now) ∧
    (∃ (s : State) (c : Instr) (k : Nat), s.Sound ∧ s.Numbered ∧ (c = .watchdogFire ∧ k = 1 ∧ s.mbx.kickAt + 409575000000 ≤ s.now ∨ c = .lockstepMismatch ∧ k = 2) ∧ s.is MBX_CPU_STATUS_RUNNING.one = true) ∧
    (∃ (s : State) (c : Instr) (k : Nat), s.Sound ∧ s.Numbered ∧ (c = .watchdogFire ∧ k = 1 ∧ s.mbx.kickAt + 409575000000 ≤ s.now ∨ c = .lockstepMismatch ∧ k = 2) ∧ s.is MBX_CPU_STATUS_RUNNING.one = true) ∧
    (∃ (s : State) (loaded : BitVec 3) (ms : BitVec 16), s.is MBX_CPU_STATUS_RESTARTING.one = true) ∧
    (∃ (s : State) (tag : BitVec 16) (slot : Byte), s.Sound ∧ s.Numbered ∧ s.takes = true ∧ slot.toNat ≤ 1 ∧ s.mayActivate slot.toNat = true ∧ s.is PWR_STATUS_BO_WARN.one = false) ∧
    (∃ (s : State) (tag : BitVec 16) (args : List Byte), s.takes = true ∧ args.length ≤ 4096 ∧ (args.length < 1 ∨ 1 < leAt args 0 1)) ∧
    (∃ (s : State) (tag : BitVec 16) (slot : Byte), s.takes = true ∧ slot.toNat ≤ 1) ∧
    (∃ (s : State) (tag : BitVec 16) (slot : Byte), s.takes = true ∧ slot.toNat ≤ 1) ∧
    (∃ (s : State) (slot : Nat) (tag : BitVec 16) (args : List Byte) (failed : BitVec 3), s.Sound ∧ s.svc.activating = some slot ∧ s.mbx.cur = some ⟨0x30, tag.toNat, args⟩) ∧
    (∃ (s : State) (ok : Bool) (failed : BitVec 3), s.svc.activating = none) ∧
    (∃ (s : State) (tag : BitVec 16), s.takes = true ∧ s.is SYS_BOOT_TRIAL.one = true ∧ s.is PWR_STATUS_BO_WARN.one = true) ∧
    (∃ (s : State) (tag : BitVec 16), s.takes = true ∧ s.is SYS_BOOT_TRIAL.one = true ∧ s.is PWR_STATUS_BO_WARN.one = false) ∧
    (∃ (s : State) (tag : BitVec 16), s.takes = true ∧ s.is SYS_BOOT_TRIAL.one = false) ∧
    (∃ (s : State) (tag : BitVec 16) (args : List Byte), s.takes = true ∧ 32 ≤ args.length ∧ args.length ≤ 4096) ∧
    (∃ (s : State) (tag : BitVec 16) (args : List Byte), s.takes = true ∧ args.length < 32) :=
  ⟨⟨dev [(MBX_CPU_STATUS_RUNNING.one, 1)], by decide +kernel⟩,
   ⟨host, by decide +kernel⟩,
   ⟨host, 7, 9, by decide +kernel⟩,
   ⟨dev [(MBX_CPU_STATUS_RUNNING.one, 1)], by decide +kernel⟩,
   ⟨{ dev [(MBX_CPU_STATUS_RUNNING.one, 1)] with now := 409575000000 }, .watchdogFire, 1, sound_of _ (by decide +kernel), numbered_of _ (by decide +kernel), .inl ⟨rfl, rfl, by decide +kernel⟩, by decide +kernel⟩,
   ⟨dev [(MBX_CPU_STATUS_RUNNING.one, 1)], .lockstepMismatch, 2, sound_of _ (by decide +kernel), numbered_of _ (by decide +kernel), .inr ⟨rfl, rfl⟩, by decide +kernel⟩,
   ⟨dev [(MBX_CPU_STATUS_RESTARTING.one, 1)], 7, 0xFFFF, by decide +kernel⟩,
   ⟨box [(slotState 1, 3)], 7, 1, sound_of _ (by decide +kernel), numbered_of _ (by decide +kernel), by decide +kernel⟩,
   ⟨box [], 7, [2], by decide +kernel⟩,
   ⟨box [], 7, 1, by decide +kernel⟩,
   ⟨box [(slotState 1, 3), (PWR_STATUS_BO_WARN.one, 1)], 7, 1, by decide +kernel⟩,
   ⟨{ box [(MBX_STATUS_STATE.one, 2)] with mbx := { Mailbox.reset with cur := some ⟨0x30, 7, [1]⟩ }, svc := { Service.reset with activating := some 1 } }, 1, 7, [1], 2, sound_of _ (by decide +kernel), by decide +kernel⟩,
   ⟨host, true, 0, by decide +kernel⟩,
   ⟨box [(SYS_BOOT_TRIAL.one, 1), (PWR_STATUS_BO_WARN.one, 1)], 7, by decide +kernel⟩,
   ⟨box [(SYS_BOOT_TRIAL.one, 1)], 7, by decide +kernel⟩,
   ⟨box [], 7, by decide +kernel⟩,
   ⟨box [], 7, List.replicate 32 9, by decide +kernel⟩,
   ⟨box [], 7, List.replicate 31 9, by decide +kernel⟩⟩

/-- The hypotheses of `ReadStatusReturnsTheStatusByte` are met. -/
theorem witness_ReadStatusReturnsTheStatusByte :
    (∃ (s : State), s.Sound) ∧
    (∃ (s : State) (tag : BitVec 16), s.portFree = false) :=
  ⟨⟨dev [], sound_of _ (by decide +kernel)⟩,
   ⟨port { Service.reset with port := some ⟨0x81, 1, []⟩ } [], 7, by decide +kernel⟩⟩

/-- The hypotheses of `ThePortTakesAnswersAndRejects` are met. -/
theorem witness_ThePortTakesAnswersAndRejects :
    (∃ (s : State) (count : BitVec 16) (r : List Byte) (rs : List (List Byte)), s.svc.replies = r :: rs ∧ count.toNat < r.length) ∧
    (∃ (s : State) (count : BitVec 16) (r : List Byte) (rs : List (List Byte)), s.svc.replies = r :: rs ∧ r.length ≤ count.toNat ∧ s.svc.resetDue = none) ∧
    (∃ (s : State) (count : BitVec 16), s.svc.replies = []) ∧
    (∃ (s : State) (straps : Straps), s.svc.resetDue = some straps) ∧
    (∃ (s : State), s.svc.resetDue = none) ∧
    (∃ (s : State) (op : Byte), portOpcodes.contains op.toNat = false) ∧
    (∃ (s : State) (tag : BitVec 16) (p : List Byte) (straps : Straps), s.portFree = false ∧ p.length ≤ 4096) ∧
    (∃ (s : State) (tag : BitVec 16), s.portFree = true) ∧
    (∃ (s : State) (tag : BitVec 16), s.portFree = true) ∧
    (∃ (s : State) (tag : BitVec 16), s.portFree = true) ∧
    (∃ (s : State) (tag : BitVec 16) (p : List Byte), s.snapReady = true ∧ s.snapFor .port = true ∧ s.mbx.cur = none ∧ s.svc.port = some ⟨0x82, tag.toNat, p⟩) ∧
    (∃ (s : State) (tag : BitVec 16) (p : List Byte) (straps : Straps), s.portFree = true ∧ p.length ≤ 4096) ∧
    (∃ (s : State) (tag : BitVec 16) (p : List Byte) (straps : Straps), s.portFree = true ∧ p.length ≤ 4096) ∧
    (∃ (s : State) (tag : BitVec 16) (p : List Byte) (straps : Straps), s.portFree = true ∧ p.length ≤ 4096) ∧
    (∃ (s : State) (tag : BitVec 16), s.portFree = true) ∧
    (∃ (s : State) (code : Byte) (tag : BitVec 16), s.portFree = true ∧ kspCodes.contains code.toNat = false) ∧
    (∃ (s : State) (tag : BitVec 16) (p : List Byte), s.portFree = true ∧ p.length ≤ 4096 ∧ (s.cpState ≠ 2 ∨ s.get MBX_STATUS_STATE.one ≠ 1)) ∧
    (∃ (s : State) (tag : BitVec 16) (p : List Byte), s.portFree = true ∧ p.length ≤ 4096 ∧ s.cpState = 2 ∧ s.get MBX_STATUS_STATE.one = 1) ∧
    (∃ (s : State) (tag : BitVec 16) (p : List Byte), s.portFree = true ∧ p.length ≤ 4096 ∧ s.cpState = 2 ∧ s.get MBX_STATUS_STATE.one = 1) ∧
    (∃ (s : State) (code : Byte) (tag : BitVec 16) (p : List Byte), s.svc.fromPort = true ∧ s.mbx.abandoned.isSome = true ∧ s.svc.port = some ⟨code.toNat, tag.toNat, p⟩) ∧
    (∃ (s : State), (s.svc.fromPort = false ∨ s.mbx.abandoned = none)) :=
  ⟨⟨port { Service.reset with replies := [[1, 5], [2]] } [], 1, [1, 5], [[2]], by decide +kernel⟩,
   ⟨port { Service.reset with replies := [[1, 5], [2]] } [], 2, [1, 5], [[2]], by decide +kernel⟩,
   ⟨host, 3, by decide +kernel⟩,
   ⟨port { Service.reset with replies := [[1, 5], [2]], resetDue := some ⟨true, 2⟩ } [], ⟨true, 2⟩, by decide +kernel⟩,
   ⟨host, by decide +kernel⟩,
   ⟨host, 0xFF, by decide +kernel⟩,
   ⟨port { Service.reset with port := some ⟨0x81, 1, []⟩ } [], 7, [], ⟨true, 2⟩, by decide +kernel⟩,
   ⟨host, 7, by decide +kernel⟩,
   ⟨host, 7, by decide +kernel⟩,
   ⟨{ host with pwr := { Power.reset with waitRails := true } }, 7, by decide +kernel⟩,
   ⟨{ port { Service.reset with port := some ⟨0x82, 7, []⟩ } [(SYS_SNAP_STATUS_PENDING.one, 1)] with clk := { Clocks.reset with bypassCycles := 256, snaps := [⟨.port, 256⟩] } }, 7, [], by decide +kernel⟩,
   ⟨host, 7, toBytes 4 0x00834B1D, ⟨true, 2⟩, by decide +kernel⟩,
   ⟨host, 7, toBytes 4 0, ⟨true, 2⟩, by decide +kernel⟩,
   ⟨host, 7, [], ⟨true, 2⟩, by decide +kernel⟩,
   ⟨host, 7, by decide +kernel⟩,
   ⟨host, 0xFF, 7, by decide +kernel⟩,
   ⟨host, 7, [1], by decide +kernel⟩,
   ⟨dev [(MBX_CPU_STATUS_RUNNING.one, 1), (MBX_STATUS_STATE.one, 1)], 7, List.replicate 32 9, by decide +kernel⟩,
   ⟨dev [(MBX_CPU_STATUS_RUNNING.one, 1), (MBX_STATUS_STATE.one, 1)], 7, [], by decide +kernel⟩,
   ⟨{ port { Service.reset with fromPort := true, port := some ⟨0x30, 7, [1]⟩ } [] with mbx := { Mailbox.reset with abandoned := some ⟨0x30, 7, [1]⟩ } }, 0x30, 7, [1], by decide +kernel⟩,
   ⟨host, by decide +kernel⟩⟩

/-- The hypotheses of `DownloadsVerifyAndTheBootFlash` are met. -/
theorem witness_DownloadsVerifyAndTheBootFlash :
    (∃ (s : State) (tag : BitVec 16) (p : List Byte), s.portFree = true ∧ p.length ≤ 4096 ∧ s.flashReachable = true ∧ s.is PWR_STATUS_BO_WARN.one = false ∧ badField (beginArgs p) = none ∧ s.slotKept (leAt p 0 1) = false) ∧
    (∃ (s : State) (tag : BitVec 16) (p : List Byte), s.portFree = true ∧ p.length ≤ 4096 ∧ s.flashReachable = true ∧ s.is PWR_STATUS_BO_WARN.one = false ∧ badField (beginArgs p) = none ∧ s.slotKept (leAt p 0 1) = true) ∧
    (∃ (s : State) (tag : BitVec 16) (p : List Byte) (o : Nat), s.portFree = true ∧ p.length ≤ 4096 ∧ s.flashReachable = true ∧ s.is PWR_STATUS_BO_WARN.one = false) ∧
    (∃ (s : State) (tag : BitVec 16) (p : List Byte), s.portFree = true ∧ p.length ≤ 4096 ∧ s.flashReachable = false) ∧
    (∃ (s : State) (tag : BitVec 16) (p : List Byte), s.portFree = true ∧ p.length ≤ 4096 ∧ s.flashReachable = true ∧ s.is PWR_STATUS_BO_WARN.one = true) ∧
    (∃ (s : State) (tag : BitVec 16) (p : List Byte), s.portFree = true ∧ p.length ≤ 4096 ∧ s.flashReachable = true ∧ s.is PWR_STATUS_BO_WARN.one = false ∧ s.is SVC_DL_ACTIVE.one = true ∧ badField (dataArgs p (s.get SVC_DL_BYTES.one) s.svc.dlLength) = none ∧ leAt p 0 4 = s.get SVC_DL_BYTES.one) ∧
    (∃ (s : State) (tag : BitVec 16) (p : List Byte), s.portFree = true ∧ p.length ≤ 4096 ∧ s.flashReachable = true ∧ s.is PWR_STATUS_BO_WARN.one = false ∧ s.is SVC_DL_ACTIVE.one = true ∧ s.get SVC_DL_BYTES.one = s.svc.dlLength) ∧
    (∃ (s : State) (tag : BitVec 16) (p : List Byte), s.portFree = true ∧ p.length ≤ 4096 ∧ s.flashReachable = true ∧ s.is PWR_STATUS_BO_WARN.one = false) ∧
    (∃ (s : State) (tag : BitVec 16) (p : List Byte), s.portFree = true ∧ 1 ≤ p.length ∧ p.length ≤ 4096 ∧ s.flashReachable = true ∧ leAt p 0 1 ≤ 1) ∧
    (∃ (s : State) (tag : BitVec 16) (p : List Byte), s.portFree = true ∧ 1 ≤ p.length ∧ p.length ≤ 4096 ∧ s.flashReachable = true ∧ s.is PWR_STATUS_BO_WARN.one = false ∧ leAt p 0 1 ≤ 1 ∧ s.is SVC_STATUS_RECOVERY.one = true ∧ s.get (slotState (leAt p 0 1)) = 3) ∧
    (∃ (s : State) (tag : BitVec 16) (p : List Byte), s.portFree = true ∧ 1 ≤ p.length ∧ p.length ≤ 4096 ∧ s.flashReachable = true ∧ s.is PWR_STATUS_BO_WARN.one = false ∧ leAt p 0 1 ≤ 1) ∧
    (∃ (s : State), s.flashNow = some .fenceEntry) ∧
    (∃ (s : State) (a : Nat), s.flashNow = some (.eraseArea a true)) ∧
    (∃ (s : State), s.flashNow = none) ∧
    (∃ (s : State), s.is MBX_CPU_STATUS_RUNNING.one = true ∧ s.cfgChanged = true ∧ s.is PWR_STATUS_BO_WARN.one = false ∧ s.inTrial = false) ∧
    (∃ (s : State), s.is MBX_CPU_STATUS_RUNNING.one = true ∧ s.cfgChanged = true ∧ s.is PWR_STATUS_BO_WARN.one = false ∧ s.inTrial = true) ∧
    (∃ (s : State), s.is MBX_CPU_STATUS_RUNNING.one = true ∧ s.cfgChanged = true ∧ s.is PWR_STATUS_BO_WARN.one = true ∧ s.inTrial = false) ∧
    (∃ (s : State), (s.cfgChanged = false ∨ s.is MBX_CPU_STATUS_RUNNING.one = false)) :=
  ⟨⟨host, 7, [1, 0, 0, 0] ++ toBytes 4 0x8000, by decide +kernel⟩,
   ⟨dev [(SVC_CTRL_DL_LOCK.one, 1)], 7, [1, 0, 0, 0] ++ toBytes 4 slotSize, by decide +kernel⟩,
   ⟨dev [(SVC_DL_ACTIVE.one, 1)], 7, [2], 0, by decide +kernel⟩,
   ⟨dev [(PWR_STATUS_AON_SUPPLY.one, 1)], 7, [1], by decide +kernel⟩,
   ⟨dev [(PWR_STATUS_BO_WARN.one, 1)], 7, [1], by decide +kernel⟩,
   ⟨port { Service.reset with dlLength := 0x8000 } [(SVC_DL_ACTIVE.one, 1), (SVC_DL_BYTES.one, 0x7FFE)], 7, toBytes 4 0x7FFE ++ toBytes 4 0 ++ [1, 2], by decide +kernel⟩,
   ⟨port { Service.reset with dlLength := 0x8000 } [(SVC_DL_ACTIVE.one, 1), (SVC_DL_BYTES.one, 0x8000)], 7, [], by decide +kernel⟩,
   ⟨host, 7, [], by decide +kernel⟩,
   ⟨host, 7, [1], by decide +kernel⟩,
   ⟨dev [(SVC_STATUS_RECOVERY.one, 1), (slotState 1, 3)], 7, [1], by decide +kernel⟩,
   ⟨host, 7, [1], by decide +kernel⟩,
   ⟨port { Service.reset with ops := [.fenceEntry] } [], by decide +kernel⟩,
   ⟨port { Service.reset with ops := [.eraseArea 1 true] } [], 1, by decide +kernel⟩,
   ⟨host, by decide +kernel⟩,
   ⟨dev [(MBX_CPU_STATUS_RUNNING.one, 1), (PWR_BO_CTRL.one, 200)], by decide +kernel⟩,
   ⟨{ dev [(MBX_CPU_STATUS_RUNNING.one, 1), (PWR_BO_CTRL.one, 200)] with svc := { Service.reset with flash := { Service.reset.flash with selector := [⟨1, 0, true, 3, 0xFF, 0, 0⟩] } } }, by decide +kernel⟩,
   ⟨dev [(MBX_CPU_STATUS_RUNNING.one, 1), (PWR_BO_CTRL.one, 200), (PWR_STATUS_BO_WARN.one, 1)], by decide +kernel⟩,
   ⟨host, by decide +kernel⟩⟩

/-- The hypotheses of `VisitsVerdictsAndDatapathTests` are met. -/
theorem witness_VisitsVerdictsAndDatapathTests :
    (∃ (s : State), (s.is SWT_CTRL_ROT_EN.one = false ∨ s.spareMode = 2 ∨ s.spareFenced = true)) ∧
    (∃ (s : State), s.is SWT_CTRL_ROT_EN.one = true ∧ s.spareMode ≠ 2 ∧ s.spareFenced = false) ∧
    (∃ (s : State), s.is SWT_CTRL_ROT_EN.one = true ∧ s.spareMode ≠ 2 ∧ s.spareFenced = false) ∧
    (∃ (s : State), s.is SWT_CTRL_ROT_EN.one = true ∧ s.spareMode ≠ 2 ∧ s.spareFenced = false) ∧
    (∃ (s : State), s.get SWT_STATUS_SPARE_STATE.one = 2) ∧
    (∃ (s : State), s.get SWT_STATUS_SPARE_STATE.one ≠ 2) ∧
    (∃ (s : State), s.get SWT_STATUS_SPARE_STATE.one = 3 ∧ s.get SWT_ROT_FRAMES.one = 0) ∧
    (∃ (s : State), (s.get SWT_STATUS_SPARE_STATE.one ≠ 3 ∨ s.get SWT_ROT_FRAMES.one ≠ 0)) ∧
    (∃ (s : State), (s.get SWT_STATUS_SPARE_STATE.one ≠ 3 ∨ s.get SWT_ROT_FRAMES.one ≠ 0)) ∧
    (∃ (s : State), s.is SWT_CTRL_ROT_EN.one = true ∧ s.spareMode ≠ 2 ∧ s.spareFenced = false ∧ s.visiting = true) ∧
    (∃ (s : State) (u : TestUnit), s.Sound ∧ s.Numbered ∧ s.is SWT_CTRL_DP_EN.one = true ∧ s.is SWT_STATUS_SWATCH_RUNNING.one = true ∧ s.is MBX_CPU_STATUS_RUNNING.one = true ∧ bitOf (s.get MBX_CPU_STATUS_ME_LOADED.one) 2 = true ∧ s.unitIdle u = true) ∧
    (∃ (s : State) (u : TestUnit), s.Sound ∧ s.Numbered ∧ s.is SWT_CTRL_DP_EN.one = true ∧ s.is SWT_STATUS_SWATCH_RUNNING.one = true ∧ s.is MBX_CPU_STATUS_RUNNING.one = true ∧ bitOf (s.get MBX_CPU_STATUS_ME_LOADED.one) 2 = true ∧ s.unitIdle u = true) ∧
    (∃ (s : State) (u : TestUnit), s.Sound ∧ s.Numbered ∧ s.is SWT_CTRL_DP_EN.one = true ∧ s.is SWT_STATUS_SWATCH_RUNNING.one = true ∧ s.is MBX_CPU_STATUS_RUNNING.one = true ∧ bitOf (s.get MBX_CPU_STATUS_ME_LOADED.one) 2 = true ∧ s.unitIdle u = true) ∧
    (∃ (s : State) (u : TestUnit), s.Sound ∧ s.Numbered ∧ s.is SWT_CTRL_DP_EN.one = true ∧ s.is SWT_STATUS_SWATCH_RUNNING.one = true ∧ s.is MBX_CPU_STATUS_RUNNING.one = true ∧ bitOf (s.get MBX_CPU_STATUS_ME_LOADED.one) 2 = true ∧ s.unitIdle u = true) ∧
    (∃ (s : State) (u : TestUnit) (b : Bool), (s.is SWT_STATUS_SWATCH_RUNNING.one = false ∨ s.is SWT_CTRL_DP_EN.one = false ∨ s.swatchLoaded = false ∨ s.unitIdle u = false)) :=
  ⟨⟨dev [(SWT_CTRL_ROT_EN.one, 0)], by decide +kernel⟩,
   ⟨dev [(SWT_CTRL_ROT_EN.one, 1), (PWR_SKN_READY.one, 2 ^ 63)], by decide +kernel⟩,
   ⟨dev [(SWT_CTRL_ROT_EN.one, 1)], by decide +kernel⟩,
   ⟨dev [(SWT_CTRL_ROT_EN.one, 1), (SWT_STATUS_SPARE_STATE.one, 2)], by decide +kernel⟩,
   ⟨dev [(SWT_STATUS_SPARE_STATE.one, 2)], by decide +kernel⟩,
   ⟨host, by decide +kernel⟩,
   ⟨dev [(SWT_STATUS_SPARE_STATE.one, 3)], by decide +kernel⟩,
   ⟨host, by decide +kernel⟩,
   ⟨dev [(SWT_STATUS_SPARE_STATE.one, 3), (SWT_ROT_FRAMES.one, 1)], by decide +kernel⟩,
   ⟨dev [(SWT_CTRL_ROT_EN.one, 1), (PWR_SKN_READY.one, 2 ^ 63), (SWT_ROT_FRAMES.one, 9), (SWT_STATUS_TARGET.one, 63)], by decide +kernel⟩,
   ⟨dev [(SWT_CTRL_DP_EN.one, 1), (SWT_STATUS_SWATCH_RUNNING.one, 1), (PWR_TRG_GATE_READY.one, 0xFF), (MBX_CPU_STATUS_RUNNING.one, 1), (MBX_CPU_STATUS_ME_LOADED.one, 4)], .channel 63, sound_of _ (by decide +kernel), numbered_of _ (by decide +kernel), by decide +kernel⟩,
   ⟨dev [(SWT_CTRL_DP_EN.one, 1), (SWT_STATUS_SWATCH_RUNNING.one, 1), (PWR_TRG_GATE_READY.one, 0xFF), (MBX_CPU_STATUS_RUNNING.one, 1), (MBX_CPU_STATUS_ME_LOADED.one, 4)], .comp 3, sound_of _ (by decide +kernel), numbered_of _ (by decide +kernel), by decide +kernel⟩,
   ⟨dev [(SWT_CTRL_DP_EN.one, 1), (SWT_STATUS_SWATCH_RUNNING.one, 1), (PWR_TRG_GATE_READY.one, 0xFF), (MBX_CPU_STATUS_RUNNING.one, 1), (MBX_CPU_STATUS_ME_LOADED.one, 4)], .decomp 1, sound_of _ (by decide +kernel), numbered_of _ (by decide +kernel), by decide +kernel⟩,
   ⟨dev [(SWT_CTRL_DP_EN.one, 1), (SWT_STATUS_SWATCH_RUNNING.one, 1), (PWR_TRG_GATE_READY.one, 0xFF), (MBX_CPU_STATUS_RUNNING.one, 1), (MBX_CPU_STATUS_ME_LOADED.one, 4)], .sequencer 7, sound_of _ (by decide +kernel), numbered_of _ (by decide +kernel), by decide +kernel⟩,
   ⟨host, .sequencer 7, false, by decide +kernel⟩⟩

/-- The hypotheses of `FenceCommandsAndFuses` are met. -/
theorem witness_FenceCommandsAndFuses :
    (∃ (s : State) (v : DWord), s.Sound ∧ s.Numbered ∧ s.admits (PageClass.page .swt 0) = true) ∧
    (∃ (s : State) (v : DWord), s.Sound ∧ s.Numbered ∧ s.admits (PageClass.page .swt 0) = true) ∧
    (∃ (s : State) (v : DWord), s.Sound ∧ s.Numbered ∧ s.admits (PageClass.page .swt 0) = true) ∧
    (∃ (s : State) (v : DWord), s.Sound ∧ s.Numbered ∧ s.admits (PageClass.page .swt 0) = true) ∧
    (∃ (s : State) (v : DWord), s.Sound ∧ s.Numbered ∧ s.admits (PageClass.page .swt 0) = true) ∧
    (∃ (s : State) (v : DWord), s.Sound ∧ s.Numbered ∧ s.admits (PageClass.page .swt 0) = true) ∧
    (∃ (s : State) (v : DWord), s.Sound ∧ s.Numbered ∧ s.admits (PageClass.page .swt 0) = true) ∧
    (∃ (s : State) (v : DWord), s.Sound ∧ s.Numbered ∧ s.admits (PageClass.page .swt 0) = true) ∧
    (∃ (s : State) (v : DWord), s.Sound ∧ s.Numbered ∧ s.admits (PageClass.page .swt 0) = true) ∧
    (∃ (s : State) (v : DWord), s.Sound ∧ s.Numbered ∧ s.admits (PageClass.page .swt 0) = true) ∧
    (∃ (s : State) (v : DWord), s.Sound ∧ s.Numbered ∧ s.admits (PageClass.page .swt 0) = true) ∧
    (∃ (s : State) (v : DWord), s.admits (PageClass.page .fuse 0) = true ∧ s.is FUSE_STATUS_BURNING.one = false) ∧
    (∃ (s : State) (v : DWord), s.admits (PageClass.page .fuse 0) = true ∧ s.is FUSE_STATUS_BURNING.one = true) ∧
    (∃ (s : State), s.is FUSE_STATUS_BURNING.one = true) ∧
    (∃ (s : State), s.is FUSE_STATUS_BURNING.one = false) :=
  ⟨⟨dev [(unlockedOf (PageClass.page .swt 0), 1)], 0x3F, sound_of _ (by decide +kernel), numbered_of _ (by decide +kernel), by decide +kernel⟩,
   ⟨dev [(unlockedOf (PageClass.page .swt 0), 1)], 0x40, sound_of _ (by decide +kernel), numbered_of _ (by decide +kernel), by decide +kernel⟩,
   ⟨dev [(unlockedOf (PageClass.page .swt 0), 1)], 0x10001, sound_of _ (by decide +kernel), numbered_of _ (by decide +kernel), by decide +kernel⟩,
   ⟨dev [(unlockedOf (PageClass.page .swt 0), 1)], 0x2007F, sound_of _ (by decide +kernel), numbered_of _ (by decide +kernel), by decide +kernel⟩,
   ⟨dev [(unlockedOf (PageClass.page .swt 0), 1)], 0x30003, sound_of _ (by decide +kernel), numbered_of _ (by decide +kernel), by decide +kernel⟩,
   ⟨dev [(unlockedOf (PageClass.page .swt 0), 1)], 0x40000, sound_of _ (by decide +kernel), numbered_of _ (by decide +kernel), by decide +kernel⟩,
   ⟨dev [(unlockedOf (PageClass.page .swt 0), 1)], 0x4003F, sound_of _ (by decide +kernel), numbered_of _ (by decide +kernel), by decide +kernel⟩,
   ⟨dev [(unlockedOf (PageClass.page .swt 0), 1)], 0x5003F, sound_of _ (by decide +kernel), numbered_of _ (by decide +kernel), by decide +kernel⟩,
   ⟨dev [(unlockedOf (PageClass.page .swt 0), 1)], 0x60003, sound_of _ (by decide +kernel), numbered_of _ (by decide +kernel), by decide +kernel⟩,
   ⟨dev [(unlockedOf (PageClass.page .swt 0), 1)], 0x70001, sound_of _ (by decide +kernel), numbered_of _ (by decide +kernel), by decide +kernel⟩,
   ⟨dev [(unlockedOf (PageClass.page .swt 0), 1)], 0x70002, sound_of _ (by decide +kernel), numbered_of _ (by decide +kernel), by decide +kernel⟩,
   ⟨unl (PageClass.page .fuse 0) [], 1, by decide +kernel⟩,
   ⟨unl (PageClass.page .fuse 0) [(FUSE_STATUS_BURNING.one, 1)], 1, by decide +kernel⟩,
   ⟨dev [(FUSE_STATUS_BURNING.one, 1)], by decide +kernel⟩,
   ⟨host, by decide +kernel⟩⟩

/-- The hypotheses of `TheTwinLinkWorks` are met. -/
theorem witness_TheTwinLinkWorks :
    (∃ (s : State), s.get TWN_STATUS_STATE.one ≠ 0 ∧ s.is TWN_STATUS_LINK_UP.one = false ∧ s.onBypass = false) ∧
    (∃ (s : State) (lane : Fin 8), s.is TWN_STATUS_LINK_UP.one = true ∧ bitOf s.twn.dropped lane.val = false ∧ 2 ≤ s.get TWN_STATUS_LANES.one ∧ s.get TWN_STATUS_LANES.one ≤ 8) ∧
    (∃ (s : State) (lane : Fin 8), bitOf s.twn.dropped lane.val = true) ∧
    (∃ (s : State) (lane : Fin 8), s.is TWN_STATUS_LINK_UP.one = true ∧ bitOf s.twn.dropped lane.val = false ∧ s.get TWN_STATUS_LANES.one = 1) ∧
    (∃ (s : State), (s.get TWN_STATUS_STATE.one = 0 ∨ s.is TWN_STATUS_LINK_UP.one = true ∨ s.onBypass = true)) ∧
    (∃ (s : State) (lane : Fin 8), s.is TWN_STATUS_LINK_UP.one = false) ∧
    (∃ (s : State), s.twn.unacked = []) ∧
    (∃ (s : State) (m : TwinMsg) (ms : List TwinMsg), s.twn.unacked = m :: ms) ∧
    (∃ (s : State) (m : TwinMsg) (ms : List TwinMsg), s.twn.unacked = m :: ms) ∧
    (∃ (s : State), s.is TWN_STATUS_LINK_UP.one = true ∧ (s.isFollower = false ∨ s.is TWN_CTRL_TAKE_ON_SILENCE.one = false)) ∧
    (∃ (s : State), s.is TWN_STATUS_LINK_UP.one = true ∧ s.paired = true ∧ s.isFollower = true ∧ s.is TWN_CTRL_TAKE_ON_SILENCE.one = true) ∧
    (∃ (s : State) (m : List Byte) (x : TwinIn), twinParse 1 m = some x ∧ s.is TWN_STATUS_LINK_UP.one = true ∧ s.get TWN_STATUS_STATE.one ≠ 1) ∧
    (∃ (s : State) (m : List Byte) (x : TwinIn), twinParse 1 m = some x ∧ s.is TWN_STATUS_LINK_UP.one = true ∧ s.get TWN_STATUS_STATE.one ≠ 1) ∧
    (∃ (s : State), s.get TWN_STATUS_STATE.one ≠ 0 ∧ s.is TWN_STATUS_LINK_UP.one = true) ∧
    (∃ (s : State) (m : List Byte) (x : TwinIn), twinParse 1 m = some x ∧ s.is TWN_STATUS_LINK_UP.one = true ∧ s.get TWN_STATUS_STATE.one = 1) ∧
    (∃ (s : State) (m : List Byte) (x : TwinIn), twinParse 1 m = some x ∧ s.is TWN_STATUS_LINK_UP.one = true ∧ s.get TWN_STATUS_STATE.one = 1) ∧
    (∃ (s : State) (m : List Byte) (x : TwinIn), twinParse 6 m = some x ∧ s.is TWN_STATUS_LINK_UP.one = true) ∧
    (∃ (s : State) (m : List Byte) (x : TwinIn), s.is TWN_STATUS_LINK_UP.one = true ∧ s.twn.isNew x.seq = false ∧ twinParse 4 m = some x) ∧
    (∃ (s : State) (m : List Byte) (x : TwinIn), twinParse 3 m = some x ∧ s.is TWN_STATUS_LINK_UP.one = true ∧ s.twn.isNew x.seq = true ∧ s.paired = true) ∧
    (∃ (s : State) (m : List Byte) (x : TwinIn), twinParse 3 m = some x ∧ s.is TWN_STATUS_LINK_UP.one = true ∧ s.twn.isNew x.seq = true ∧ s.paired = true) ∧
    (∃ (s : State) (m : List Byte) (x : TwinIn), twinParse 4 m = some x ∧ s.is TWN_STATUS_LINK_UP.one = true ∧ s.twn.isNew x.seq = true ∧ s.paired = true ∧ s.isFollower = true) ∧
    (∃ (s : State) (m : List Byte) (x : TwinIn), twinParse 5 m = some x ∧ s.is TWN_STATUS_LINK_UP.one = true ∧ s.twn.isNew x.seq = true ∧ s.paired = true ∧ s.isFollower = true) ∧
    (∃ (s : State) (m : List Byte) (x : TwinIn), twinParse 5 m = some x ∧ s.is TWN_STATUS_LINK_UP.one = true ∧ s.twn.isNew x.seq = true ∧ s.paired = true ∧ s.isFollower = true) ∧
    (∃ (s : State) (m : List Byte) (x : TwinIn) (code : Byte) (tag : BitVec 16) (args : List Byte), s.serves code.toNat tag args 2 ∧ twinParse 5 m = some x ∧ s.is TWN_STATUS_LINK_UP.one = true ∧ s.twn.isNew x.seq = true ∧ s.isLead = true ∧ s.twn.mirror = true ∧ leAt x.body 0 1 = code.toNat ∧ leAt x.body 2 2 = tag.toNat) ∧
    (∃ (s : State) (m : List Byte) (x : TwinIn) (code : Byte) (tag : BitVec 16) (args : List Byte), s.serves code.toNat tag args 2 ∧ twinParse 5 m = some x ∧ s.is TWN_STATUS_LINK_UP.one = true ∧ s.twn.isNew x.seq = true ∧ s.isLead = true ∧ s.twn.mirror = true ∧ leAt x.body 0 1 = code.toNat ∧ leAt x.body 2 2 = tag.toNat) ∧
    (∃ (s : State) (m : List Byte) (x : TwinIn) (code : Byte) (tag : BitVec 16) (args : List Byte), s.serves code.toNat tag args 2 ∧ twinParse 5 m = some x ∧ s.is TWN_STATUS_LINK_UP.one = true ∧ s.twn.isNew x.seq = true ∧ s.isLead = true ∧ s.twn.mirror = true ∧ leAt x.body 0 1 = code.toNat ∧ leAt x.body 2 2 = tag.toNat) :=
  ⟨⟨live [(TWN_STATUS_STATE.one, 1)], by decide +kernel⟩,
   ⟨twin Twin.reset [], 7, by decide +kernel⟩,
   ⟨twin { Twin.reset with dropped := 128 } [], 7, by decide +kernel⟩,
   ⟨dev [(TWN_STATUS_LINK_UP.one, 1), (TWN_STATUS_LANES.one, 1)], 7, by decide +kernel⟩,
   ⟨host, by decide +kernel⟩,
   ⟨host, 7, by decide +kernel⟩,
   ⟨twin Twin.reset [], by decide +kernel⟩,
   ⟨twin { Twin.reset with unacked := [⟨5, [1], 7⟩] } [], ⟨5, [1], 7⟩, [], by decide +kernel⟩,
   ⟨twin { Twin.reset with unacked := [⟨5, [1], 8⟩] } [], ⟨5, [1], 8⟩, [], by decide +kernel⟩,
   ⟨twin Twin.reset [(TWN_STATUS_STATE.one, 2), (TWN_STATUS_ROLE.one, 1)], by decide +kernel⟩,
   ⟨twin Twin.reset [(TWN_STATUS_STATE.one, 2), (TWN_STATUS_ROLE.one, 2), (TWN_CTRL_TAKE_ON_SILENCE.one, 1)], by decide +kernel⟩,
   ⟨twin Twin.reset [(TWN_STATUS_STATE.one, 2), (TWN_STATUS_ROLE.one, 1)], message 1 3 0 (toBytes 8 9 ++ toBytes 4 1 ++ toBytes 8 0 ++ toBytes 4 1), ⟨3, 0, (toBytes 8 9 ++ toBytes 4 1 ++ toBytes 8 0 ++ toBytes 4 1)⟩, by decide +kernel⟩,
   ⟨twin Twin.reset [(TWN_STATUS_STATE.one, 2), (TWN_STATUS_ROLE.one, 2)], message 1 3 0 (toBytes 8 9 ++ toBytes 4 1 ++ toBytes 8 0 ++ toBytes 4 1), ⟨3, 0, (toBytes 8 9 ++ toBytes 4 1 ++ toBytes 8 0 ++ toBytes 4 1)⟩, by decide +kernel⟩,
   ⟨twin Twin.reset [(TWN_STATUS_STATE.one, 1)], by decide +kernel⟩,
   ⟨twin { Twin.reset with asked := 1 } [(TWN_STATUS_STATE.one, 1), (TIME_STATUS_SYNCED.one, 1)], message 1 3 0 (toBytes 8 9 ++ toBytes 4 2 ++ toBytes 8 0 ++ toBytes 4 1), ⟨3, 0, (toBytes 8 9 ++ toBytes 4 2 ++ toBytes 8 0 ++ toBytes 4 1)⟩, by decide +kernel⟩,
   ⟨twin { Twin.reset with asked := 1 } [(TWN_STATUS_STATE.one, 1), (TIME_STATUS_SYNCED.one, 1)], message 1 3 0 (toBytes 8 9 ++ toBytes 4 1 ++ toBytes 8 0 ++ toBytes 4 1), ⟨3, 0, (toBytes 8 9 ++ toBytes 4 1 ++ toBytes 8 0 ++ toBytes 4 1)⟩, by decide +kernel⟩,
   ⟨twin { Twin.reset with unacked := [⟨5, [1], 0⟩] } [], message 6 3 0 (toBytes 4 5), ⟨3, 0, toBytes 4 5⟩, by decide +kernel⟩,
   ⟨twin { Twin.reset with heard := 5 } [], message 4 4 0 (toBytes 8 9), ⟨4, 0, toBytes 8 9⟩, by decide +kernel⟩,
   ⟨twin Twin.reset [(TWN_STATUS_STATE.one, 2), (TWN_STATUS_ROLE.one, 2)], message 3 4 0 [], ⟨4, 0, []⟩, by decide +kernel⟩,
   ⟨twin Twin.reset [(TWN_STATUS_STATE.one, 2), (TWN_STATUS_ROLE.one, 1)], message 3 4 0 [], ⟨4, 0, []⟩, by decide +kernel⟩,
   ⟨twin Twin.reset [(TWN_STATUS_STATE.one, 2), (TWN_STATUS_ROLE.one, 2)], message 4 4 0 (toBytes 8 9), ⟨4, 0, toBytes 8 9⟩, by decide +kernel⟩,
   ⟨twin Twin.reset [(TWN_STATUS_STATE.one, 2), (TWN_STATUS_ROLE.one, 2), (WR_SESSION_STATUS_STATE.elt 7, 3)], message 5 4 0 (commandPayload 0x13 7 0 [7]), ⟨4, 0, (commandPayload 0x13 7 0 [7])⟩, by decide +kernel⟩,
   ⟨twin Twin.reset [(TWN_STATUS_STATE.one, 2), (TWN_STATUS_ROLE.one, 2), (WR_SESSION_STATUS_STATE.elt 7, 3)], message 5 4 0 (commandPayload 0x13 7 1000 [7]), ⟨4, 0, (commandPayload 0x13 7 1000 [7])⟩, by decide +kernel⟩,
   ⟨{ twin { Twin.reset with mirror := true } [(TWN_STATUS_STATE.one, 2), (TWN_STATUS_ROLE.one, 1), (WR_SESSION_STATUS_STATE.elt 7, 3), (MBX_STATUS_STATE.one, 2)] with mbx := { Mailbox.reset with cur := some ⟨0x12, 7, [7]⟩ } }, message 5 4 0 (toBytes 1 0x12 ++ toBytes 1 255 ++ toBytes 2 7 ++ toBytes 8 0 ++ [7]), ⟨4, 0, (toBytes 1 0x12 ++ toBytes 1 255 ++ toBytes 2 7 ++ toBytes 8 0 ++ [7])⟩, 0x12, 7, [7], ⟨by decide +kernel, by decide +kernel⟩, by decide +kernel⟩,
   ⟨{ twin { Twin.reset with mirror := true } [(TWN_STATUS_STATE.one, 2), (TWN_STATUS_ROLE.one, 1), (WR_SESSION_STATUS_STATE.elt 7, 3), (MBX_STATUS_STATE.one, 2)] with mbx := { Mailbox.reset with cur := some ⟨0x12, 7, [7]⟩ } }, message 5 4 0 (toBytes 1 0x12 ++ toBytes 1 3 ++ toBytes 2 7 ++ toBytes 8 0 ++ [7]), ⟨4, 0, (toBytes 1 0x12 ++ toBytes 1 3 ++ toBytes 2 7 ++ toBytes 8 0 ++ [7])⟩, 0x12, 7, [7], ⟨by decide +kernel, by decide +kernel⟩, by decide +kernel⟩,
   ⟨{ twin { Twin.reset with mirror := true } [(TWN_STATUS_STATE.one, 2), (TWN_STATUS_ROLE.one, 1), (WR_SESSION_STATUS_STATE.elt 7, 3), (MBX_STATUS_STATE.one, 2)] with mbx := { Mailbox.reset with cur := some ⟨0x13, 7, [7]⟩ } }, message 5 4 0 (commandPayload 0x13 7 0 [7]), ⟨4, 0, (commandPayload 0x13 7 0 [7])⟩, 0x13, 7, [7], ⟨by decide +kernel, by decide +kernel⟩, by decide +kernel⟩⟩

/-- The hypotheses of `EpochsEndAndAgree` are met. -/
theorem witness_EpochsEndAndAgree :
    (∃ (s : State) (counts : List (Fin 73 × DWord)), s.sampling = true ∧ s.clk.frameAt % epochTicks = 0 ∧ s.clk.epochAt < s.clk.frameAt ∧ s.slotsMatch counts = true) ∧
    (∃ (s : State) (counts : List (Fin 73 × DWord)), s.sampling = true ∧ s.clk.frameAt % epochTicks = 0 ∧ s.clk.epochAt < s.clk.frameAt ∧ s.slotsMatch counts = false) ∧
    (∃ (s : State) (counts : List (Fin 73 × DWord)), s.sampling = true ∧ s.clk.frameAt % epochTicks = 0 ∧ s.clk.epochAt < s.clk.frameAt) ∧
    (∃ (s : State), (s.sampling = false ∨ s.clk.frameAt % epochTicks ≠ 0 ∨ s.clk.frameAt ≤ s.clk.epochAt)) ∧
    (∃ (s : State) (m : List Byte) (x : TwinIn), twinParse 2 m = some x ∧ s.is TWN_STATUS_LINK_UP.one = true ∧ s.twn.isNew x.seq = true ∧ s.paired = true ∧ s.agreedUpTo (epochNear (epochOf s.now) x.epoch) = false) ∧
    (∃ (s : State) (m : List Byte) (x : TwinIn), twinParse 2 m = some x ∧ s.is TWN_STATUS_LINK_UP.one = true ∧ s.twn.isNew x.seq = true ∧ s.paired = true ∧ s.agreedUpTo (epochNear (epochOf s.now) x.epoch) = false) ∧
    (∃ (s : State) (m : List Byte) (x : TwinIn), twinParse 2 m = some x ∧ s.is TWN_STATUS_LINK_UP.one = true ∧ s.twn.isNew x.seq = true ∧ s.paired = true ∧ s.agreedUpTo (epochNear (epochOf s.now) x.epoch) = false) ∧
    (∃ (s : State), s.paired = true ∧ s.isFollower = true ∧ 128 * frameTicks ≤ s.now % epochTicks ∧ sget s.twn.mine (epochOf s.now - 1) [] ≠ [] ∧ sget s.twn.theirs (epochOf s.now - 1) [] = [] ∧ s.agreedUpTo (epochOf s.now - 1) = false) ∧
    (∃ (s : State), (s.paired = false ∨ s.isFollower = false ∨ s.now % epochTicks < 128 * frameTicks ∨ sget s.twn.mine (epochOf s.now - 1) [] = [] ∨ sget s.twn.theirs (epochOf s.now - 1) [] ≠ [] ∨ s.agreedUpTo (epochOf s.now - 1) = true)) :=
  ⟨⟨{ live [(WR_ACTIVE.one, 0x80), (WR_SESSION_STATUS_STATE.elt 7, 3)] with clk := { Clocks.reset with frameAt := epochTicks }, now := epochTicks }, [], by decide +kernel⟩,
   ⟨{ live [(WR_ACTIVE.one, 0x80), (WR_SESSION_STATUS_STATE.elt 7, 3)] with clk := { Clocks.reset with frameAt := epochTicks }, now := epochTicks }, [(71, 1)], by decide +kernel⟩,
   ⟨{ live [(TWN_STATUS_STATE.one, 2), (TWN_STATUS_ROLE.one, 1), (TWN_STATUS_LINK_UP.one, 1), (TWN_STATUS_LANES.one, 8)] with clk := { Clocks.reset with frameAt := epochTicks }, now := epochTicks }, [], by decide +kernel⟩,
   ⟨host, by decide +kernel⟩,
   ⟨twin Twin.reset [(TWN_STATUS_STATE.one, 2), (TWN_STATUS_ROLE.one, 1)], message 2 4 0 (List.replicate 3112 0), ⟨4, 0, (List.replicate 3112 0)⟩, by decide +kernel⟩,
   ⟨twin { Twin.reset with mine := [(0, (List.replicate 3112 0))] } [(TWN_STATUS_STATE.one, 2), (TWN_STATUS_ROLE.one, 1)], message 2 4 0 (List.replicate 3112 0), ⟨4, 0, (List.replicate 3112 0)⟩, by decide +kernel⟩,
   ⟨twin Twin.reset [(TWN_STATUS_STATE.one, 2), (TWN_STATUS_ROLE.one, 2)], message 2 4 0 (List.replicate 3112 0), ⟨4, 0, (List.replicate 3112 0)⟩, by decide +kernel⟩,
   ⟨{ twin { Twin.reset with mine := [(0, [1])] } [(TWN_STATUS_STATE.one, 2), (TWN_STATUS_ROLE.one, 2)] with now := epochTicks + 128 * frameTicks }, by decide +kernel⟩,
   ⟨host, by decide +kernel⟩⟩

/-- The hypotheses of `EveryStepKeepsSound` are met. -/
theorem witness_EveryStepKeepsSound :
    (∃ (s : State) (t : State), s.Sound ∧ s.Numbered ∧ step s = .next t) :=
  ⟨dev [], (dev []).idle, sound_of _ (by decide +kernel), numbered_of _ (by decide +kernel), by rfl⟩

/-- The hypotheses of `WellFormedCommandsTakeEffect` are met. -/
theorem witness_WellFormedCommandsTakeEffect :
    (∃ (c : Instr) (s : State), c.wellFormed = true) ∧
    (∃ (c : Instr) (s : State), c.wellFormed = false) ∧
    (∃ (c : Instr) (s : State) (t : State), exec c s = .next t) ∧
    (∃ (s : State) (t : State), step s = .next t ∧ s.pending = []) :=
  ⟨⟨.functionLevelReset, host, by decide +kernel⟩,
   ⟨.unknownOpcode 0x38, host, by decide +kernel⟩,
   ⟨.resetReplyTimeout, host, State.resetTaken host, rfl⟩,
   ⟨host, State.idle host, rfl, by decide +kernel⟩⟩

/-! ### Ill-formed operands, one for each check -/

/-- The straps of a single device. -/
def straps : Straps := ⟨true, 2⟩

/-- More bytes than a request holds. -/
def tooMany : List Byte := List.replicate 4097 0

theorem test_link_up_needs_a_speed : (Instr.pcieLinkChange true .x16 0).wellFormed = false := by decide
theorem test_aperture_write_length : (Instr.apertureWrite 0 tooMany []).wellFormed = false := by decide +kernel
theorem test_register_write_length : (Instr.registerWrite .bar0 0 (List.replicate 4097 none)).wellFormed = false := by
  decide +kernel
theorem test_register_write_past_bar4 : (Instr.registerWrite .bar4 0xFFFD (List.replicate 4 none)).wellFormed = false := by
  decide
theorem test_burst_length : (Instr.hbmBurstAccept 0 (List.replicate 63 0) false).wellFormed = false := by decide
theorem test_burst_alignment : (Instr.hbmBurstAccept 32 burst false).wellFormed = false := by decide +kernel
theorem test_scrub_past_the_channel : (Instr.scrubRead 0 12582912 .clean).wellFormed = false := by decide
theorem test_fifteen_temperatures : (Instr.dieTempRead (List.replicate 15 25)).wellFormed = false := by decide
theorem test_arguments_length : [Instr.planAdmit 0 tooMany, .planRelease 0 tooMany, .castOn 0 tooMany, .bindOff 0 tooMany,
    .arm 0 tooMany, .forceTrigger 0 tooMany, .segmentRelease 0 tooMany, .quotaSet 0 tooMany, .activate 0 tooMany,
    .attest 0 tooMany, .calendarSet 0 tooMany, .twinPair 0 tooMany, .replaySetup 0 tooMany].all (!·.wellFormed) = true := by
  decide +kernel
theorem test_payload_length : [Instr.kspReset 0 tooMany straps, .dlBegin 0 tooMany, .dlData 0 tooMany, .dlEnd 0 tooMany,
    .verify 0 tooMany, .select 0 tooMany, .kspActivate 0 tooMany, .kspConfirm 0 tooMany,
    .kspAttest 0 tooMany].all (!·.wellFormed) = true := by decide +kernel
theorem test_known_command_code : (Instr.unknownCommand 0x12 0).wellFormed = false := by decide
theorem test_known_opcode : (Instr.unknownOpcode 0xEB).wellFormed = false := by decide
theorem test_known_request_code : (Instr.kspUnknownCode 0x80 0).wellFormed = false := by decide
theorem test_message_of_another_type : [Instr.hello (message 6 1 0 (toBytes 4 0)), .epoch (message 6 1 0 (toBytes 4 0)),
    .fault (message 6 1 0 (toBytes 4 0)), .handover (message 6 1 0 (toBytes 4 0)), .command (message 6 1 0 (toBytes 4 0)),
    .ack (message 3 1 0 [])].all (!·.wellFormed) = true := by decide +kernel
theorem test_read_length : (Instr.bar0ReadAccessErr 0 4097).wellFormed = false := by decide
/-- A command stops where its operands are ill-formed. -/
theorem test_ill_formed_stops : exec (.unknownOpcode 0x38) host = .fault .illFormed := rfl

/-! ### The spec's worked examples -/

/-- Chapter 11: the CRC of the nine ASCII bytes 123456789. -/
theorem test_crc : crc32c [0x31, 0x32, 0x33, 0x34, 0x35, 0x36, 0x37, 0x38, 0x39] = 0xE3069283 := by decide +kernel

/-- Chapter 11, Worked encoding: 32 zero bytes at level 3. -/
theorem test_worked_encoding :
    streamHeader 3 ++ encodeBlock 3 [] (List.replicate 32 0) ++ streamEnd 32 (crcRun 0xFFFFFFFF (List.replicate 32 0)) =
      [0x46, 0x4C, 0x57, 0x31, 0x03, 0x10, 0, 0, 4, 0, 0, 0, 0x20, 0, 0, 0, 0xAA, 0x36, 0x91, 0x8A, 0x3C, 0, 0, 0,
        0, 0, 0, 0x80, 0, 0, 0, 0, 0, 0, 0, 0, 0x20, 0, 0, 0, 0, 0, 0, 0, 0xAA, 0x36, 0x91, 0x8A] := by decide +kernel

/-- Chapter 11, Worked encoding: the same stream with the last trailer byte 0x8B is rejected with cause 7 at 0x24. -/
theorem test_worked_rejection :
    FlowStream.readTrailer { FlowStream.idle with
      stage := .trailer, pos := 0x24, orig := 32, crc := crcRun 0xFFFFFFFF (List.replicate 32 0)
      inBuf := [0x20, 0, 0, 0, 0, 0, 0, 0, 0xAA, 0x36, 0x91, 0x8B] } = .rejects (7, 0x24) := by decide +kernel

/-- The pseudo-channels of the map of R268 in order, less those of stack `k`. -/
def stacksBut (k : Nat) : List Nat :=
  (upto 32).flatMap (fun q => ((upto 4).filter (fun n => n != k)).map (fun n => 32 * n + q))

/-- R268, both columns of its table for address 0x0000_0008_0012_3456. -/
theorem test_map_all_in_service : mapAddr (stacksBut 4) 0 0x800123456 = some (13, 268444758) := by decide +kernel
theorem test_map_one_stack_fenced : mapAddr (stacksBut 2) 0 0x800123456 = some (28, 357926230) := by decide +kernel

/-- Settings of the skeins of chapter 7's worked admission. -/
def gearOf (enc gauge mask floor maxMts : Nat) (summary : Bool) : Gear :=
  ⟨enc, gauge, summary, mask, floor, 0, false, maxMts⟩

/-- Chapter 7, Worked admission: credits of its four kinds of skein. -/
theorem test_worked_credits : [gearOf 1 0 0xFFFF 1 0 false, gearOf 1 0 0xFFFF 262144 0 true, gearOf 0 6 0x00FF 1 0 false,
    gearOf 3 0 0xFFFF 1 400 false].map (fun g => (g.words, g.unit, g.credits)) =
      [(1026, 1030, 129), (18, 22, 3), (10, 14, 2), (1026, 1030, 5)] := by decide +kernel

/-- Chapter 7, Worked admission: the lane of skein 24. -/
theorem test_worked_lane : laneSize (16 * 2 ^ 30) 129 2337 = 948305920 := by decide +kernel

/-- Chapter 5, Worked decode of an edge frame: the five words of frame 0x5000 of skein 9. -/
theorem test_worked_edge_frame :
    (State.edgeUnit { State.reset with skeins := [(9, { Skein.idle with edges :=
      [⟨2, true, true, 0x140000000 + 8000, 0x140000000 + 8000⟩, ⟨3, true, true, 0x140000000 + 10768, 0x140000000 + 10768⟩, ⟨2, false, true, 0x140000000 + 65540, 0x140000000 + 65540⟩,
        ⟨11, false, false, 0x140000000 + 143360, 0x140000000 + 143360⟩, ⟨3, false, true, 0x140000000 + 262081, 0x140000000 + 262081⟩] })] }
      9 (gearOf 1 0 0xFFFF 1 0 false) 0x140000000 0x140040000).words =
    [0x14240060FFFF0000, 0x2000000014000000, 0x30023C2A102C1F40, 0x3002B23000250004, 0x300000000037FFC1] := by
  decide +kernel

/-- R62, R182, R222, R340: EV_157 is skein 46's fault, EV_193 the spare's, EV_218 sequencer 3's first event, EV_225 hold
3's, EV_426 channel 40's. -/
theorem test_event_places : [157, 193, 218, 225, 426].map (fun k => (evPlace k).map (fun e => (e.page, e.bit))) =
    [some (0x12E, 0), some (0x150, 0), some (PageClass.page .trg 3, 0), some (PageClass.page .pool 3, 1),
      some (PageClass.page .dma 40, 0)] := by decide +kernel

/-- R8: the example's timestamp lies in epoch 5. -/
theorem test_epoch_of_a_timestamp : epochOf 0x140032A10 = 5 := by decide +kernel

/-- R491: before step 7 the outputs are inactive; an open-drain line is released while nothing pulls it. -/
theorem test_balls_before_step_seven :
    let s : State := { dev [(DUT_HOLD_CTRL_ENABLE.of 3, 1), (DUT_HOLD_CTRL_INVERT.of 3, 1)] with
      pwr := { Power.reset with step := 6 }, pins := { Pins.reset with contrib := [(19 * 8, .asserted)] } }
    s.dutHoldBall 3 = .low ∧ ({ s with pwr := Power.reset } : State).dutHoldBall 3 = .low ∧ s.eventBall = .released ∧
      ({ s with pwr := Power.reset } : State).holdActive 3 = true := by decide +kernel

end Sys2Proof.Tests
end

