-- ==== Sys2Proof/Proofs/ResetState.lean ====
section
/-! PROOFS. The reset state. -/

namespace Sys2Proof.Machine

/-- Refutes O58: GRT_OWNER_OWNER of grotto 0 has the reset value 1, yet reads 0 at reset, where grottos 0 and 1 are
handed to the Echo core (`resetOwners`). -/
theorem not_resetIsSoundAndEmpty : ¬ Obligations.ResetIsSoundAndEmpty := by
  unfold Obligations.ResetIsSoundAndEmpty
  rintro ⟨-, -, hget, -⟩
  have howner : State.reset.get (GRT_OWNER_OWNER.elt 0) = (GRT_OWNER_OWNER.elt 0).reset := (hget (GRT_OWNER_OWNER.elt 0)).1
  exact absurd howner (by decide)

end Sys2Proof.Machine
end

