-- ==== Sys2Proof/Proofs/Evolves.lean ====
section
/-! PROOFS. The relation that every operation of the model is shown to keep: how a state may evolve out of another.

The proofs are elaborated one after the other (`Elab.async false`, here and in the files that follow): the default proof
of a hypothesis, as the width of `Evolves.set`, waits until all that stands before it is checked, and a thread would be
kept for every proof that waits. -/

namespace Sys2Proof.Machine

set_option Elab.async false

/-! ### A good state -/

/-- A sound state whose numbers of units are in range. -/
def State.Good (s : State) : Prop := s.Sound ∧ s.Numbered

/-- The part of `Sound` and `Numbered` that speaks of one sequencer (R204, R217, R402). -/
def Seq.InRange (q : Seq) : Prop :=
  q.stitches.length ≤ 64 ∧ (∀ p, q.lender = some p → p.1 < 64) ∧ q.channel ≤ 64

/-- The part of `Sound` that speaks of the boot flash (R441). -/
def Flash.Kept (f : Flash) : Prop :=
  Memory.wf 0xFF f.slots = true ∧ ∀ p ∈ f.journal, ∀ r, p.2 = some r → wellKept r.cells = true

/-- The part of `Sound` that speaks of the service controller. -/
def Service.Kept (v : Service) : Prop := v.flash.Kept ∧ ∀ r, v.commit = some r → wellKept r.cells = true

/-- The part of `Sound` that speaks of the HBM. -/
def Hbm.Kept (h : Hbm) : Prop := Memory.wf 0 h.mem = true ∧ Memory.wf 0 h.marks = true

/-- The part of `Sound` and `Numbered` that speaks of the grottos (R454). -/
def Grottos.Kept (g : Grottos) : Prop := Memory.wf 0 g.mem = true ∧ ∀ p, g.window = some p → p.1 < 64

/-- The skeins of every plan exist (R400). -/
def Record.Kept (r : Record) : Prop := ∀ n p, sget r.plans n none = some p → ∀ k ∈ p.skeins, k.skein < 64

/-- The windows of the retry round lie in grottos that exist (R454). -/
def FaultMgr.Kept (f : FaultMgr) : Prop := ∀ p ∈ f.retry, p.1 < 64

/-- Every register store is well kept. -/
def State.StoresKept (s : State) : Prop := wellKept s.regs = true ∧ wellKept s.shadow = true ∧ wellKept s.staged = true

/-- A good state is one each of whose parts is kept. -/
theorem State.good_iff (s : State) : s.Good ↔
    s.StoresKept ∧ s.hbm.Kept ∧ s.grt.Kept ∧ Memory.wf 0 s.link.bar4 = true ∧ s.svc.Kept ∧ (∀ n, (s.seq n).InRange) ∧
      s.rcd.Kept ∧ s.flt.Kept := by
  constructor
  · rintro ⟨⟨regs, shadow, staged, mem, marks, grt, bar4, slots, queues, journal, commit⟩, ⟨plans, window, retry, lender, channel⟩⟩
    exact ⟨⟨regs, shadow, staged⟩, ⟨mem, marks⟩, ⟨grt, window⟩, bar4, ⟨⟨slots, journal⟩, commit⟩,
      fun n => ⟨queues n, lender n, channel n⟩, plans, retry⟩
  · rintro ⟨⟨regs, shadow, staged⟩, ⟨mem, marks⟩, ⟨grt, window⟩, bar4, ⟨⟨slots, journal⟩, commit⟩, seqs, plans, retry⟩
    exact ⟨⟨regs, shadow, staged, mem, marks, grt, bar4, slots, fun n => (seqs n).1, journal, commit⟩,
      ⟨plans, window, retry, fun n => (seqs n).2.1, fun n => (seqs n).2.2⟩⟩

/-! ### The relation -/

/-- The memories: the HBM, the grottos, BAR4 and the flash slots. -/
def State.memories (s : State) : List Host.Cell × Sparse Nat × Sparse Nat × Sparse Nat :=
  (s.hbm.mem, s.grt.mem, s.link.bar4, s.svc.flash.slots)

/-- `t` comes of `s` by operations of the model: it is good where `s` is, the queue of commands is the same, the time and
the clocks have not moved unless `τ`, and no memory has been written unless `μ`. -/
structure Evolves (τ μ : Bool) (s t : State) : Prop where
  good : s.Good → t.Good
  pending : t.pending = s.pending
  time : τ = false → t.now = s.now ∧ t.clk = s.clk
  memory : μ = false → t.memories = s.memories

theorem Evolves.refl (τ μ : Bool) (s : State) : Evolves τ μ s s := ⟨id, rfl, fun _ => ⟨rfl, rfl⟩, fun _ => rfl⟩

section
variable {τ μ : Bool} {s₀ s t : State}

theorem Evolves.trans (h : Evolves τ μ s₀ s) (k : Evolves τ μ s t) : Evolves τ μ s₀ t where
  good := k.good ∘ h.good
  pending := k.pending.trans h.pending
  time hτ := ⟨(k.time hτ).1.trans (h.time hτ).1, (k.time hτ).2.trans (h.time hτ).2⟩
  memory hμ := (k.memory hμ).trans (h.memory hμ)

/-- One more operation, whose effect on goodness may use what held at the start. -/
theorem Evolves.extend (h : Evolves τ μ s₀ s) (good : s₀.Good → s.Good → t.Good) (pending : t.pending = s.pending)
    (time : τ = false → t.now = s.now ∧ t.clk = s.clk) (memory : μ = false → t.memories = s.memories) :
    Evolves τ μ s₀ t where
  good g₀ := good g₀ (h.good g₀)
  pending := pending.trans h.pending
  time hτ := ⟨(time hτ).1.trans (h.time hτ).1, (time hτ).2.trans (h.time hτ).2⟩
  memory hμ := (memory hμ).trans (h.memory hμ)

/-- What moves neither time nor memory is also an evolution that may. -/
theorem Evolves.weaken {τ' μ' : Bool} (h : Evolves τ μ s₀ s) (hτ : τ' = false → τ = false := by exact fun h => h)
    (hμ : μ' = false → μ = false := by exact fun h => h) : Evolves τ' μ' s₀ s :=
  ⟨h.good, h.pending, h.time ∘ hτ, h.memory ∘ hμ⟩

theorem Evolves.sameMemory (h : Evolves τ false s₀ s) : s₀.sameMemory s := by
  obtain ⟨hmem, hgrt, hbar4, hslots⟩ : s.hbm.mem = s₀.hbm.mem ∧ s.grt.mem = s₀.grt.mem ∧ s.link.bar4 = s₀.link.bar4 ∧
      s.svc.flash.slots = s₀.svc.flash.slots := by simpa [State.memories] using h.memory rfl
  simp [State.sameMemory, hmem, hgrt, hbar4, hslots]

/-! ### Branches and loops -/

theorem Evolves.ite {c : Prop} [Decidable c] (hs : Evolves τ μ s₀ s) (ht : Evolves τ μ s₀ t) :
    Evolves τ μ s₀ (if c then s else t) := by
  split
  · exact hs
  · exact ht

/-- A state answered with something beside it. -/
def Evolves.With {β : Type} (τ μ : Bool) (s₀ : State) (p : State × β) : Prop := Evolves τ μ s₀ p.1

theorem Evolves.With.mk {β : Type} {x : β} (h : Evolves τ μ s₀ s) : With τ μ s₀ (s, x) := h

theorem Evolves.With.fst {β : Type} {p : State × β} (h : With τ μ s₀ p) : Evolves τ μ s₀ p.1 := h

theorem Evolves.With.ite {β : Type} {c : Prop} [Decidable c] {p q : State × β} (hp : With τ μ s₀ p) (hq : With τ μ s₀ q) :
    With τ μ s₀ (if c then p else q) := by
  split
  · exact hp
  · exact hq

theorem Evolves.forEach {α : Type} {l : List α} {f : α → State → State} (h : Evolves τ μ s₀ s)
    (hf : ∀ a s, Evolves τ μ s₀ s → Evolves τ μ s₀ (f a s)) : Evolves τ μ s₀ (Machine.forEach l s f) := by
  unfold Machine.forEach
  induction l generalizing s with
  | nil => exact h
  | cons a l ih => exact ih (hf a s h)

/-- A loop whose body is known to keep the relation only for the elements of the list. -/
theorem Evolves.forEach_mem {α : Type} {l : List α} {f : α → State → State} (h : Evolves τ μ s₀ s)
    (hf : ∀ a ∈ l, ∀ s, Evolves τ μ s₀ s → Evolves τ μ s₀ (f a s)) : Evolves τ μ s₀ (Machine.forEach l s f) := by
  unfold Machine.forEach
  induction l generalizing s with
  | nil => exact h
  | cons a l ih => exact ih (hf a (by simp) s h) (fun x hx => hf x (by simp [hx]))

/-- A fold over a list whose accumulator carries a state. -/
theorem Evolves.foldl {α β : Type} {l : List α} {f : State × β → α → State × β} {x : β} (h : Evolves τ μ s₀ s)
    (hf : ∀ p a, With τ μ s₀ p → With τ μ s₀ (f p a)) : Evolves τ μ s₀ (l.foldl f (s, x)).1 := by
  suffices ∀ p : State × β, With τ μ s₀ p → With τ μ s₀ (l.foldl f p) from this _ h
  induction l with
  | nil => exact fun _ h => h
  | cons a l ih => exact fun p hp => ih _ (hf p a hp)

/-- The state that a function may answer, if it does, evolves out of `s₀`. -/
def Evolves.IfAny (τ μ : Bool) (s₀ : State) (o : Option State) : Prop := ∀ t ∈ o, Evolves τ μ s₀ t

theorem Evolves.IfAny.none : IfAny τ μ s₀ none := by
  rintro _ ⟨⟩

theorem Evolves.IfAny.some (h : Evolves τ μ s₀ s) : IfAny τ μ s₀ (some s) := by
  rintro _ ⟨⟩
  exact h

theorem Evolves.IfAny.ite {c : Prop} [Decidable c] {o p : Option State} (ho : IfAny τ μ s₀ o) (hp : IfAny τ μ s₀ p) :
    IfAny τ μ s₀ (if c then o else p) := by
  split
  · exact ho
  · exact hp

theorem Evolves.IfAny.bind {o : Option State} {f : State → Option State} (ho : IfAny τ μ s₀ o)
    (hf : ∀ s, Evolves τ μ s₀ s → IfAny τ μ s₀ (f s)) : IfAny τ μ s₀ (o.bind f) := by
  intro t ht
  obtain ⟨s, hs, ht⟩ := Option.bind_eq_some_iff.mp ht
  exact hf s (ho s hs) t ht

/-- What such a function leaves behind: its answer, or the state as it was. -/
theorem Evolves.IfAny.getD {o : Option State} (ho : IfAny τ μ s₀ o) (h : Evolves τ μ s₀ s) :
    Evolves τ μ s₀ (o.getD s) := by
  cases o with
  | none => exact h
  | some t => exact ho t rfl

theorem Evolves.when {c : Bool} {f : State → State} (h : Evolves τ μ s₀ s)
    (hf : ∀ s, Evolves τ μ s₀ s → Evolves τ μ s₀ (f s)) : Evolves τ μ s₀ (s.when c f) := .ite (hf s h) h

/-! ### Parts that no clause speaks of -/

/-- The parts of the state that neither goodness nor time nor memory speaks of may take any value. -/
theorem Evolves.rest {snap snapSeq frozen heldLow hiSnap posted drawn skeins pins dma dmaLast flw pwr mbx twn}
    (h : Evolves τ μ s₀ s) :
    Evolves τ μ s₀ (State.mk s.pending s.regs s.shadow s.staged snap snapSeq frozen heldLow hiSnap posted s.now drawn s.link
      s.clk skeins s.seqs pins s.rcd s.hbm s.grt dma dmaLast flw pwr s.flt mbx twn s.svc) :=
  h.trans ⟨fun g => (State.good_iff _).mpr ((State.good_iff s).mp g), rfl, fun _ => ⟨rfl, rfl⟩, fun _ => rfl⟩

theorem Evolves.drew (h : Evolves τ μ s₀ s) : Evolves τ μ s₀ s.drew := h.rest
theorem Evolves.onPins {f : Pins → Pins} (h : Evolves τ μ s₀ s) : Evolves τ μ s₀ (s.onPins f) := h.rest
theorem Evolves.onPwr {f : Power → Power} (h : Evolves τ μ s₀ s) : Evolves τ μ s₀ (s.onPwr f) := h.rest
theorem Evolves.onMbx {f : Mailbox → Mailbox} (h : Evolves τ μ s₀ s) : Evolves τ μ s₀ (s.onMbx f) := h.rest
theorem Evolves.onTwn {f : Twin → Twin} (h : Evolves τ μ s₀ s) : Evolves τ μ s₀ (s.onTwn f) := h.rest
theorem Evolves.putSkein {n : Nat} {k : Skein} (h : Evolves τ μ s₀ s) : Evolves τ μ s₀ (s.putSkein n k) := h.rest
theorem Evolves.onSkein {n : Nat} {f : Skein → Skein} (h : Evolves τ μ s₀ s) : Evolves τ μ s₀ (s.onSkein n f) := h.rest

/-! ### Register stores -/

/-- New register stores, well kept where the old ones are. -/
theorem Evolves.stores {regs shadow staged} (h : Evolves τ μ s₀ s)
    (hk : s.StoresKept → wellKept regs = true ∧ wellKept shadow = true ∧ wellKept staged = true) :
    Evolves τ μ s₀ { s with regs := regs, shadow := shadow, staged := staged } :=
  h.trans ⟨fun g => by
    obtain ⟨stores, others⟩ := (State.good_iff s).mp g
    exact (State.good_iff _).mpr ⟨hk stores, others⟩, rfl, fun _ => ⟨rfl, rfl⟩, fun _ => rfl⟩

theorem Evolves.set {f : Fld} {v : Nat} (h : Evolves τ μ s₀ s) (hw : f.width ≤ 64 := by exact Nat.le_of_ble_eq_true rfl) :
    Evolves τ μ s₀ (s.set f v) :=
  h.stores (fun ⟨regs, shadow, staged⟩ => ⟨wellKept_sput _ _ _ regs (fits_key f hw v), shadow, staged⟩)

theorem Evolves.setShadow {f : Fld} {v : Nat} (h : Evolves τ μ s₀ s)
    (hw : f.width ≤ 64 := by exact Nat.le_of_ble_eq_true rfl) : Evolves τ μ s₀ (s.setShadow f v) :=
  h.stores (fun ⟨regs, shadow, staged⟩ => ⟨regs, wellKept_sput _ _ _ shadow (fits_key f hw v), staged⟩)

theorem Evolves.setStaged {f : Fld} {v : Nat} (h : Evolves τ μ s₀ s)
    (hw : f.width ≤ 64 := by exact Nat.le_of_ble_eq_true rfl) : Evolves τ μ s₀ (s.setStaged f v) :=
  h.stores (fun ⟨regs, shadow, staged⟩ => ⟨regs, shadow, wellKept_sput _ _ _ staged (fits_key f hw v)⟩)

theorem Evolves.add {f : Fld} {n : Nat} (h : Evolves τ μ s₀ s) (hw : f.width ≤ 64 := by exact Nat.le_of_ble_eq_true rfl) :
    Evolves τ μ s₀ (s.add f n) := h.set hw

theorem Evolves.addSat {f : Fld} {n : Nat} (h : Evolves τ μ s₀ s)
    (hw : f.width ≤ 64 := by exact Nat.le_of_ble_eq_true rfl) : Evolves τ μ s₀ (s.addSat f n) := h.set hw

theorem Evolves.setBit {f : Fld} {n : Nat} {v : Bool} (h : Evolves τ μ s₀ s)
    (hw : f.width ≤ 64 := by exact Nat.le_of_ble_eq_true rfl) : Evolves τ μ s₀ (s.setBit f n v) := h.set hw

/-- A value put into each of a list of fields. -/
theorem Evolves.setEach {l : List RegField} {g : RegField → Fld} {v : RegField → Nat} (h : Evolves τ μ s₀ s)
    (hl : ∀ f ∈ l, f.width ≤ 64 := by decide) (hg : ∀ f, (g f).width = f.width := by exact fun _ => rfl) :
    Evolves τ μ s₀ (Machine.forEach l s (fun f s => s.set (g f) (v f))) :=
  h.forEach_mem (fun f hf _ h => h.set ((hg f).trans_le (hl f hf)))

/-- A register field of a good state is held to its width. -/
theorem State.Good.get_lt (g : s.Good) (f : Fld) (hw : 1 ≤ f.width ∧ f.width ≤ 64 ∧ f.reset < 2 ^ f.width) :
    s.get f < 2 ^ f.width := by
  obtain ⟨hpos, hle, hreset⟩ := hw
  have hkey : keyWidth f.key = f.width := by unfold keyWidth Fld.key; omega
  have hcells := ((wellKept_iff _).mp g.1.regs).2
  unfold State.get
  generalize s.regs = m at hcells ⊢
  induction m with
  | nil => exact hreset
  | cons p m ih =>
    obtain ⟨k, v⟩ := p
    unfold sget
    split
    · next hk => simpa [hk, hkey] using hcells (k, v) (by simp)
    · exact ih (fun q hq => hcells q (by simp [hq]))

/-! ### Parts with a clause of their own -/

/-- An update of the endpoint that leaves BAR4 as it is. -/
theorem Evolves.onLink {f : Link → Link} (h : Evolves τ μ s₀ s) (hf : ∀ l, (f l).bar4 = l.bar4 := by exact fun _ => rfl) :
    Evolves τ μ s₀ (s.onLink f) :=
  h.trans ⟨fun g => by
    obtain ⟨stores, hbm, grt, bar4, others⟩ := (State.good_iff s).mp g
    exact (State.good_iff _).mpr ⟨stores, hbm, grt, by rw [← hf] at bar4; exact bar4, others⟩,
    rfl, fun _ => ⟨rfl, rfl⟩, fun _ => by simp [State.memories, State.onLink, hf]⟩

/-- An update of the endpoint that may write BAR4. -/
theorem Evolves.putLink {l : Link} (h : Evolves τ true s₀ s) (hl : Memory.wf 0 s.link.bar4 = true → Memory.wf 0 l.bar4 = true) :
    Evolves τ true s₀ { s with link := l } :=
  h.trans ⟨fun g => by
    obtain ⟨stores, hbm, grt, bar4, others⟩ := (State.good_iff s).mp g
    exact (State.good_iff _).mpr ⟨stores, hbm, grt, hl bar4, others⟩, rfl, fun _ => ⟨rfl, rfl⟩, fun hμ => by cases hμ⟩

/-- An update of the record path that keeps the plans' skeins in range. -/
theorem Evolves.onRcd_of {f : Record → Record} (h : Evolves τ μ s₀ s) (hf : s₀.Good → s.rcd.Kept → (f s.rcd).Kept) :
    Evolves τ μ s₀ (s.onRcd f) :=
  h.extend (fun g₀ g => by
    obtain ⟨stores, hbm, grt, bar4, svc, seqs, rcd, flt⟩ := (State.good_iff s).mp g
    exact (State.good_iff _).mpr ⟨stores, hbm, grt, bar4, svc, seqs, hf g₀ rcd, flt⟩) rfl (fun _ => ⟨rfl, rfl⟩) (fun _ => rfl)

/-- An update of the record path that leaves the plans as they are. -/
theorem Evolves.onRcd {f : Record → Record} (h : Evolves τ μ s₀ s) (hp : ∀ r, (f r).plans = r.plans := by exact fun _ => rfl) :
    Evolves τ μ s₀ (s.onRcd f) := h.onRcd_of (fun _ k => by unfold Record.Kept; rw [hp]; exact k)

/-- An update of the HBM that leaves its bytes and marks as they are. -/
theorem Evolves.onHbm {f : Hbm → Hbm} (h : Evolves τ μ s₀ s) (hm : ∀ m, (f m).mem = m.mem := by exact fun _ => rfl)
    (hk : ∀ m, (f m).marks = m.marks := by exact fun _ => rfl) : Evolves τ μ s₀ (s.onHbm f) :=
  h.trans ⟨fun g => by
    obtain ⟨stores, hbm, others⟩ := (State.good_iff s).mp g
    exact (State.good_iff _).mpr ⟨stores, by unfold Hbm.Kept at hbm ⊢; rw [← hm, ← hk] at hbm; exact hbm, others⟩,
    rfl, fun _ => ⟨rfl, rfl⟩, fun _ => by simp [State.memories, State.onHbm, hm]⟩

/-- An update of the HBM that may write it. -/
theorem Evolves.writeHbm {f : Hbm → Hbm} (h : Evolves τ true s₀ s) (hf : s.hbm.Kept → (f s.hbm).Kept) :
    Evolves τ true s₀ (s.onHbm f) :=
  h.trans ⟨fun g => by
    obtain ⟨stores, hbm, others⟩ := (State.good_iff s).mp g
    exact (State.good_iff _).mpr ⟨stores, hf hbm, others⟩, rfl, fun _ => ⟨rfl, rfl⟩, fun hμ => by cases hμ⟩

/-- An update of the grottos that leaves their words as they are, and keeps the window under test in range. -/
theorem Evolves.onGrt_of {f : Grottos → Grottos} (h : Evolves τ μ s₀ s) (hm : (f s.grt).mem = s.grt.mem)
    (hw : s₀.Good → s.Good → ∀ p, (f s.grt).window = some p → p.1 < 64) : Evolves τ μ s₀ (s.onGrt f) :=
  h.extend (fun g₀ g => by
    obtain ⟨stores, hbm, grt, others⟩ := (State.good_iff s).mp g
    exact (State.good_iff _).mpr ⟨stores, hbm, ⟨hm ▸ grt.1, hw g₀ g⟩, others⟩) rfl (fun _ => ⟨rfl, rfl⟩) (fun _ => by simp [State.memories, State.onGrt, hm])

/-- An update of the grottos that leaves their words and the window under test as they are. -/
theorem Evolves.onGrt {f : Grottos → Grottos} (h : Evolves τ μ s₀ s) (hm : ∀ g, (f g).mem = g.mem := by exact fun _ => rfl)
    (hw : ∀ g, (f g).window = g.window := by exact fun _ => rfl) : Evolves τ μ s₀ (s.onGrt f) :=
  h.onGrt_of (hm _) (fun _ g => by rw [hw]; exact g.2.window)

/-- An update of the grottos that may write them. -/
theorem Evolves.writeGrt {f : Grottos → Grottos} (h : Evolves τ true s₀ s) (hf : s.grt.Kept → (f s.grt).Kept) :
    Evolves τ true s₀ (s.onGrt f) :=
  h.trans ⟨fun g => by
    obtain ⟨stores, hbm, grt, others⟩ := (State.good_iff s).mp g
    exact (State.good_iff _).mpr ⟨stores, hbm, hf grt, others⟩, rfl, fun _ => ⟨rfl, rfl⟩, fun hμ => by cases hμ⟩

/-- An update of the fault manager that keeps the retry round in range. -/
theorem Evolves.onFlt_of {f : FaultMgr → FaultMgr} (h : Evolves τ μ s₀ s) (hf : s₀.Good → s.Good → (f s.flt).Kept) :
    Evolves τ μ s₀ (s.onFlt f) :=
  h.extend (fun g₀ g => by
    obtain ⟨stores, hbm, grt, bar4, svc, seqs, rcd, flt⟩ := (State.good_iff s).mp g
    exact (State.good_iff _).mpr ⟨stores, hbm, grt, bar4, svc, seqs, rcd, hf g₀ g⟩) rfl (fun _ => ⟨rfl, rfl⟩) (fun _ => rfl)

/-- An update of the fault manager that leaves the retry round as it is. -/
theorem Evolves.onFlt {f : FaultMgr → FaultMgr} (h : Evolves τ μ s₀ s) (hr : ∀ m, (f m).retry = m.retry := by exact fun _ => rfl) :
    Evolves τ μ s₀ (s.onFlt f) := h.onFlt_of (fun _ g => by unfold FaultMgr.Kept; rw [hr]; exact g.2.retry)

/-- An update of the service controller that leaves the flash slots as they are, and keeps the journal's records. -/
theorem Evolves.onSvc_of {f : Service → Service} (h : Evolves τ μ s₀ s)
    (hs : (f s.svc).flash.slots = s.svc.flash.slots) (hf : s₀.Good → s.svc.Kept → (f s.svc).Kept) : Evolves τ μ s₀ (s.onSvc f) :=
  h.extend (fun g₀ g => by
    obtain ⟨stores, hbm, grt, bar4, svc, others⟩ := (State.good_iff s).mp g
    exact (State.good_iff _).mpr ⟨stores, hbm, grt, bar4, hf g₀ svc, others⟩) rfl (fun _ => ⟨rfl, rfl⟩) (fun _ => by simp [State.memories, State.onSvc, hs])

/-- An update of the service controller that leaves the boot flash and the commit in progress as they are. -/
theorem Evolves.onSvc {f : Service → Service} (h : Evolves τ μ s₀ s) (hs : ∀ v, (f v).flash = v.flash := by exact fun _ => rfl)
    (hc : ∀ v, (f v).commit = v.commit := by exact fun _ => rfl) : Evolves τ μ s₀ (s.onSvc f) :=
  h.onSvc_of (by rw [hs]) (fun _ k => by unfold Service.Kept; rw [hs, hc]; exact k)

/-- An update of the boot flash that leaves its slots as they are, and keeps the journal's records. -/
theorem Evolves.onFlash_of {f : Flash → Flash} (h : Evolves τ μ s₀ s) (hs : (f s.svc.flash).slots = s.svc.flash.slots)
    (hf : s₀.Good → s.svc.flash.Kept → (f s.svc.flash).Kept) : Evolves τ μ s₀ (s.onFlash f) :=
  h.onSvc_of hs (fun g k => ⟨hf g k.1, k.2⟩)

/-- An update of the boot flash that leaves its slots and its journal as they are. -/
theorem Evolves.onFlash {f : Flash → Flash} (h : Evolves τ μ s₀ s) (hs : ∀ v, (f v).slots = v.slots := by exact fun _ => rfl)
    (hj : ∀ v, (f v).journal = v.journal := by exact fun _ => rfl) : Evolves τ μ s₀ (s.onFlash f) :=
  h.onFlash_of (hs _) (fun _ k => by unfold Flash.Kept; rw [hs, hj]; exact k)

/-- An update of the boot flash that may write its slots. -/
theorem Evolves.writeFlash {f : Flash → Flash} (h : Evolves τ true s₀ s) (hf : s.svc.flash.Kept → (f s.svc.flash).Kept) :
    Evolves τ true s₀ (s.onFlash f) :=
  h.trans ⟨fun g => by
    obtain ⟨stores, hbm, grt, bar4, svc, others⟩ := (State.good_iff s).mp g
    exact (State.good_iff _).mpr ⟨stores, hbm, grt, bar4, ⟨hf svc.1, svc.2⟩, others⟩,
    rfl, fun _ => ⟨rfl, rfl⟩, fun hμ => by cases hμ⟩

/-- A sequencer put in range. -/
theorem Evolves.putSeq {n : Nat} {q : Seq} (h : Evolves τ μ s₀ s) (hq : s₀.Good → s.Good → q.InRange) :
    Evolves τ μ s₀ (s.putSeq n q) :=
  h.extend (fun g₀ g => by
    obtain ⟨stores, hbm, grt, bar4, svc, seqs, others⟩ := (State.good_iff s).mp g
    refine (State.good_iff _).mpr ⟨stores, hbm, grt, bar4, svc, fun j => ?_, others⟩
    unfold State.putSeq State.seq
    rw [sget_sput]
    split
    · exact hq g₀ g
    · exact seqs j) rfl (fun _ => ⟨rfl, rfl⟩) (fun _ => rfl)

theorem State.Good.seq_inRange (g : s.Good) (n : Nat) : (s.seq n).InRange := ⟨g.1.queues n, g.2.lender n, g.2.channel n⟩

/-- An update of a sequencer that keeps it in range. -/
theorem Evolves.onSeq_of {n : Nat} {f : Seq → Seq} (h : Evolves τ μ s₀ s)
    (hf : s₀.Good → s.Good → (s.seq n).InRange → (f (s.seq n)).InRange) : Evolves τ μ s₀ (s.onSeq n f) :=
  h.putSeq (fun g₀ g => hf g₀ g (g.seq_inRange n))

/-- An update of a sequencer that leaves its stitch queue, the grotto it has borrowed and its channel as they are. -/
theorem Evolves.onSeq {n : Nat} {f : Seq → Seq} (h : Evolves τ μ s₀ s)
    (hs : ∀ q, (f q).stitches = q.stitches := by exact fun _ => rfl) (hl : ∀ q, (f q).lender = q.lender := by exact fun _ => rfl)
    (hc : ∀ q, (f q).channel = q.channel := by exact fun _ => rfl) : Evolves τ μ s₀ (s.onSeq n f) :=
  h.onSeq_of (fun _ _ k => by unfold Seq.InRange; rw [hs, hl, hc]; exact k)

/-- An update of the clocks. -/
theorem Evolves.onClk {f : Clocks → Clocks} (h : Evolves true μ s₀ s) : Evolves true μ s₀ (s.onClk f) :=
  h.trans ⟨fun g => (State.good_iff _).mpr ((State.good_iff s).mp g), rfl, fun hτ => (by cases hτ), fun _ => rfl⟩

/-- The time moves. -/
theorem Evolves.atTime {now : Nat} (h : Evolves true μ s₀ s) : Evolves true μ s₀ { s with now := now } :=
  h.trans ⟨fun g => (State.good_iff _).mpr ((State.good_iff s).mp g), rfl, fun hτ => (by cases hτ), fun _ => rfl⟩

/-! ### Outcomes -/

/-- The next state that a command answers, if any, evolves out of `s₀`. -/
def Evolves.Answers (τ μ : Bool) (s₀ : State) : Host.Outcome State Fault Refusal → Prop
  | .next t => Evolves τ μ s₀ t
  | .fault _ => True
  | .refused _ => True

theorem Evolves.Answers.ite {c : Prop} [Decidable c] {x y : Host.Outcome State Fault Refusal} (hx : Answers τ μ s₀ x)
    (hy : Answers τ μ s₀ y) : Answers τ μ s₀ (if c then x else y) := by
  split
  · exact hx
  · exact hy

theorem Evolves.Answers.next {x : Host.Outcome State Fault Refusal} (h : Answers τ μ s₀ x) (hx : x = .next t) :
    Evolves τ μ s₀ t := by
  subst hx
  exact h

end

end Sys2Proof.Machine
end

