-- ==== Sys2Proof/Proofs/EvolvesPins.lean ====
section
/-! PROOFS. Registers, messages and pins keep the relation of Evolves. -/

namespace Sys2Proof.Machine

set_option Elab.async false

section
variable {τ μ : Bool} {s₀ s : State}

theorem Evolves.timeLoaded {new : Nat} (h : Evolves true μ s₀ s) : Evolves true μ s₀ (s.timeLoaded new) :=
  h.atTime.onMbx

@[simp] theorem Link.deliver_bar4 (l : Link) (v : Nat) : (l.deliver v).bar4 = l.bar4 := by
  unfold Link.deliver
  split
  · rfl
  · split <;> rfl

@[simp] theorem Link.request_bar4 (l : Link) (v : Nat) : (l.request v).bar4 = l.bar4 := by
  unfold Link.request
  split
  · rfl
  · split
    · rfl
    · exact l.deliver_bar4 v

theorem Evolves.notify {k : Nat} (h : Evolves τ μ s₀ s) : Evolves τ μ s₀ (s.notify k) :=
  .ite (h.onLink (fun l => l.request_bar4 _)) h

theorem Evolves.raise {k : Nat} (h : Evolves τ μ s₀ s) : Evolves τ μ s₀ (s.raise k) := by
  unfold State.raise
  split
  · exact h
  · extract_lets s1
    have h1 : Evolves τ μ s₀ s1 := h.set
    exact .ite h (.ite h1.notify h1)

theorem Evolves.raiseIf {c : Bool} {k : Nat} (h : Evolves τ μ s₀ s) : Evolves τ μ s₀ (s.raiseIf c k) := .ite h.raise h

theorem Evolves.skeinCause {n i : Nat} (h : Evolves τ μ s₀ s) : Evolves τ μ s₀ (s.skeinCause n i) := by
  unfold State.skeinCause
  extract_lets f s1
  have hf : f.width ≤ 64 := by
    unfold f
    split <;> exact Nat.le_of_ble_eq_true rfl
  have h1 : Evolves _ _ s₀ s1 := h.set hf
  exact .ite h1.raise h1

theorem Evolves.feCause {n i : Nat} (h : Evolves τ μ s₀ s) : Evolves τ μ s₀ (s.feCause n i) := by
  unfold State.feCause
  extract_lets f s1
  have hf : f.width ≤ 64 := by
    unfold f
    split <;> exact Nat.le_of_ble_eq_true rfl
  have h1 : Evolves _ _ s₀ s1 := h.set hf
  exact .ite h1.skeinCause h1

theorem Evolves.putPower {v : Nat} (h : Evolves τ μ s₀ s) : Evolves τ μ s₀ (s.putPower v) := .ite h h.set.raise

theorem Evolves.powerFollow (h : Evolves τ μ s₀ s) : Evolves τ μ s₀ s.powerFollow := .ite h h.putPower

theorem Evolves.headerErr {page off cause : Nat} (h : Evolves τ μ s₀ s) :
    Evolves τ μ s₀ (s.headerErr page off cause) := h.set.set.set.raise

theorem Evolves.accessErr {page off : Nat} (h : Evolves τ μ s₀ s) : Evolves τ μ s₀ (s.accessErr page off) :=
  h.set.headerErr

theorem Evolves.lostWrite {page off : Nat} (h : Evolves τ μ s₀ s) : Evolves τ μ s₀ (s.lostWrite page off) :=
  h.set.headerErr

theorem Evolves.lockedWrite {page off : Nat} (h : Evolves τ μ s₀ s) : Evolves τ μ s₀ (s.lockedWrite page off) :=
  h.set.headerErr

/-- The state that the gate hands on, to the write's effect or past it, evolves out of `s₀`. -/
def Evolves.Passes (τ μ : Bool) (s₀ : State) : Gate → Prop
  | .admitted t => Evolves τ μ s₀ t
  | .turnedAway t => Evolves τ μ s₀ t

theorem Evolves.Passes.ite {c : Prop} [Decidable c] {x y : Gate} (hx : Passes τ μ s₀ x) (hy : Passes τ μ s₀ y) :
    Passes τ μ s₀ (if c then x else y) := by
  split
  · exact hx
  · exact hy

theorem Evolves.gate {page off : Nat} (h : Evolves τ μ s₀ s) : Passes τ μ s₀ (s.gate page off) := by
  have h1 : Evolves τ μ s₀ (s.set (unlockedOf page) 0) := h.set
  exact Passes.ite h (Passes.ite h.lockedWrite (Passes.ite h1.accessErr (Passes.ite h1.lostWrite h1)))

theorem Evolves.gated {page off : Nat} {f : State → State} (h : Evolves τ μ s₀ s)
    (hf : ∀ s, Evolves τ μ s₀ s → Evolves τ μ s₀ (f s)) : Evolves τ μ s₀ (s.gated page off f) := by
  have hg := h.gate (page := page) (off := off)
  unfold State.gated
  split
  · next s1 e =>
    rw [e] at hg
    exact hf s1 hg
  · next s1 e =>
    rw [e] at hg
    exact hg

/-- Bytes put into a memory one after the other keep its canonical form. -/
theorem canonical_putRun {d : Nat} (bytes : List Byte) (m : Sparse Nat) (x : Nat) (h : canonical d m = true) :
    canonical d (bytes.foldl (fun (a : Sparse Nat × Nat) b => (sput a.1 a.2 d b.toNat, a.2 + 1)) (m, x)).1 = true := by
  induction bytes generalizing m x with
  | nil => exact h
  | cons b bytes ih => exact ih _ _ (canonical_sput x b.toNat h)

theorem Evolves.putBar4 {x : Nat} {bytes : List Byte} (h : Evolves τ true s₀ s) : Evolves τ true s₀ (s.putBar4 x bytes) :=
  h.putLink (canonical_putRun bytes _ x)

theorem Evolves.portReply {code tag result : Nat} {payload : List Byte} (h : Evolves τ μ s₀ s) :
    Evolves τ μ s₀ (s.portReply code tag result payload) := h.onSvc

theorem Evolves.forwardEnd {c : MbxCmd} {result : Nat} {reply : List Byte} (h : Evolves τ μ s₀ s) :
    Evolves τ μ s₀ (s.forwardEnd c result reply) := by
  unfold State.forwardEnd
  extract_lets s1 s2
  have h1 : Evolves τ μ s₀ s1 := h.set.set.set
  have h2 : Evolves τ μ s₀ s2 := h1.add.onMbx.onSvc
  exact .ite h2.portReply h2

theorem Evolves.mbxEndWith {result : Nat} {reply : List Byte} {bulk : Bool} (h : Evolves τ true s₀ s) :
    Evolves τ true s₀ (s.mbxEndWith result reply bulk) := by
  unfold State.mbxEndWith
  split
  · exact h
  · extract_lets long s1 s2 s3
    have h1 : Evolves τ true s₀ s1 := h.putBar4
    have h2 : Evolves τ true s₀ s2 := h1.set.set.set
    have h3 : Evolves τ true s₀ s3 := h2.set.set.set
    exact .ite h.forwardEnd h3.add.onMbx.raise

theorem Evolves.mbxEnd {result : Nat} {reply : List Byte} (h : Evolves τ true s₀ s) :
    Evolves τ true s₀ (s.mbxEnd result reply) := h.mbxEndWith

theorem Evolves.mbxApplied (h : Evolves τ μ s₀ s) : Evolves τ μ s₀ s.mbxApplied := by
  unfold State.mbxApplied
  split
  · exact h
  · exact h.set.set

theorem Evolves.mbxOk {reply : List Byte} (h : Evolves τ true s₀ s) : Evolves τ true s₀ (s.mbxOk reply) :=
  h.mbxApplied.mbxEnd

theorem Evolves.twinSendAt {type epoch : Nat} {payload : List Byte} (h : Evolves τ μ s₀ s) :
    Evolves τ μ s₀ (s.twinSendAt type epoch payload) := by
  unfold State.twinSendAt
  exact .ite h.onTwn h

theorem Evolves.twinSend {type : Nat} {payload : List Byte} (h : Evolves τ μ s₀ s) :
    Evolves τ μ s₀ (s.twinSend type payload) := h.twinSendAt

theorem Evolves.twinFault (h : Evolves τ μ s₀ s) : Evolves τ μ s₀ s.twinFault := .ite h.twinSend h

theorem Evolves.putRole {r : Nat} (h : Evolves τ μ s₀ s) : Evolves τ μ s₀ (s.putRole r) := .ite h h.set.raise

theorem Evolves.goSolo (h : Evolves τ μ s₀ s) : Evolves τ μ s₀ s.goSolo := .ite h.set.raise h

theorem Evolves.mirrorLost (h : Evolves τ true s₀ s) : Evolves τ true s₀ s.mirrorLost := .ite h.mbxEnd.drew.onTwn h

theorem Evolves.twinStops (h : Evolves τ true s₀ s) : Evolves τ true s₀ s.twinStops := by
  unfold State.twinStops
  extract_lets s1 s2 s3
  have h1 : Evolves τ true s₀ s1 := h.set.set.raise
  have h2 : Evolves τ true s₀ s2 := h1.onTwn.mirrorLost
  have h3 : Evolves τ true s₀ s3 := .ite h2.putRole h2
  exact .ite h3.goSolo h

theorem Evolves.putContrib {pin n : Nat} {c : Contrib} (h : Evolves τ μ s₀ s) :
    Evolves τ μ s₀ (s.putContrib pin n c) := h.onPins

theorem Evolves.holdEdges {s0 : State} {t : Nat} (h : Evolves τ μ s₀ s) : Evolves τ μ s₀ (State.holdEdges s0 s t) :=
  h.forEach (fun _ _ h => .ite h.add.onPins (.ite h.onPins h))

theorem Evolves.xtrigFalls {s0 : State} {t : Nat} (h : Evolves τ μ s₀ s) : Evolves τ μ s₀ (State.xtrigFalls s0 s t) :=
  h.forEach (fun _ _ h => .ite h.onPins h)

theorem Evolves.pinEdges {s0 : State} {t : Nat} (h : Evolves τ μ s₀ s) : Evolves τ μ s₀ (State.pinEdges s0 s t) :=
  h.holdEdges.xtrigFalls

theorem Evolves.imposeGap {k t : Nat} (h : Evolves τ μ s₀ s) : Evolves τ μ s₀ (s.imposeGap k t) := h.onPins

theorem Evolves.pinOp {n op pin t : Nat} (h : Evolves τ μ s₀ s) : Evolves τ μ s₀ (s.pinOp n op pin t) := by
  unfold State.pinOp
  exact .ite h (.ite h.add.raise h.putContrib.pinEdges)

theorem Evolves.releasePins {n t : Nat} {gap : Bool} (h : Evolves τ μ s₀ s) : Evolves τ μ s₀ (s.releasePins n t gap) := by
  unfold State.releasePins
  extract_lets s1
  have h1 : Evolves τ μ s₀ s1 := (h.forEach (fun _ _ h => h.putContrib)).pinEdges
  exact .ite (h1.forEach (fun _ _ h => .ite h.imposeGap h)) h1

theorem Evolves.clearHold {k t : Nat} (h : Evolves τ μ s₀ s) : Evolves τ μ s₀ (s.clearHold k t) :=
  (h.forEach (fun _ _ h => h.putContrib)).pinEdges

theorem Evolves.releaseHolds {t : Nat} (h : Evolves τ μ s₀ s) : Evolves τ μ s₀ (s.releaseHolds t) :=
  h.forEach (fun _ _ h => .ite h.clearHold.imposeGap h.clearHold)

theorem Evolves.inputChange {pin : Nat} {level : Bool} {delay : Nat} (h : Evolves τ μ s₀ s) :
    Evolves τ μ s₀ (s.inputChange pin level delay) := h.onPins

theorem Evolves.takeInputs {t : Nat} (h : Evolves τ μ s₀ s) : Evolves τ μ s₀ (s.takeInputs t) := by
  unfold State.takeInputs
  exact h.onPins

theorem Evolves.execTrigInEdge {k : Fin 8} {level : Bool} (h : Evolves τ μ s₀ s) :
    Answers τ μ s₀ (execTrigInEdge k level s) := by
  unfold Machine.execTrigInEdge
  extract_lets s1
  have h1 : Evolves τ μ s₀ s1 := h.onPins
  exact Evolves.ite h h1.inputChange

theorem Evolves.execXtrigEdge {k : Fin 4} {low : Bool} (h : Evolves τ μ s₀ s) :
    Answers τ μ s₀ (execXtrigEdge k low s) := by
  unfold Machine.execXtrigEdge
  extract_lets s1
  have h1 : Evolves τ μ s₀ s1 := h.onPins
  exact Evolves.ite h h1.inputChange

theorem Evolves.pulsesEnd {t : Nat} (h : Evolves τ μ s₀ s) : Evolves τ μ s₀ (s.pulsesEnd t) := by
  refine h.forEach (fun _ _ h => ?_)
  split
  · exact .ite h.putContrib.pinEdges h
  · exact h

theorem Evolves.execPinPulseEnd {pin : Fin 24} {n : Fin 8} (h : Evolves τ μ s₀ s) :
    Answers τ μ s₀ (execPinPulseEnd pin n s) := by
  unfold Machine.execPinPulseEnd
  split
  · exact Evolves.ite h.putContrib.pinEdges h
  · exact h

theorem Evolves.limitRelease {k : Nat} (h : Evolves τ μ s₀ s) : Evolves τ μ s₀ (s.limitRelease k) :=
  h.clearHold.add.imposeGap.raise

theorem Evolves.execHoldLimit {k : Fin 8} (h : Evolves τ μ s₀ s) : Answers τ μ s₀ (execHoldLimit k s) :=
  Evolves.ite h.limitRelease h

theorem Evolves.execHoldCeiling {k : Fin 8} (h : Evolves τ μ s₀ s) : Answers τ μ s₀ (execHoldCeiling k s) :=
  Evolves.ite h.clearHold.imposeGap h

theorem Evolves.execHoldReleaseNFall (h : Evolves τ μ s₀ s) : Answers τ μ s₀ (execHoldReleaseNFall s) := by
  unfold Machine.execHoldReleaseNFall
  extract_lets s1
  have h1 : Evolves τ μ s₀ s1 := h.forEach (fun _ _ h => h.clearHold.raiseIf)
  exact h1.onPins

theorem Evolves.execHoldReleaseNRise (h : Evolves τ μ s₀ s) : Answers τ μ s₀ (execHoldReleaseNRise s) :=
  .ite (h.onPins.forEach (fun _ _ h => h.imposeGap)) h

theorem Evolves.execHoldGapEnd {k : Fin 8} (h : Evolves τ μ s₀ s) : Answers τ μ s₀ (execHoldGapEnd k s) := h.onPins

end

end Sys2Proof.Machine
end

