-- ==== Sys2Proof/Proofs/EvolvesSkein.lean ====
section
/-! PROOFS. Stitches, segments and skeins keep the relation of Evolves. -/

namespace Sys2Proof.Machine

set_option Elab.async false

section
variable {τ μ : Bool} {s₀ s : State}

theorem Evolves.segFill {i x t : Nat} {fv : Bool} (h : Evolves τ μ s₀ s) : Evolves τ μ s₀ (s.segFill i x t fv) := by
  unfold State.segFill
  extract_lets s1 s2 s3 s4 s5
  have h1 : Evolves τ μ s₀ s1 := h.set.set.set
  have h2 : Evolves τ μ s₀ s2 := h1.set.set.set
  have h3 : Evolves τ μ s₀ s3 := h2.set.set.set
  have h4 : Evolves τ μ s₀ s4 := h3.set
  have h5 : Evolves τ μ s₀ s5 := h4.set.add
  exact h5.set.set.set

theorem Evolves.segmentsAge {i : Nat} (h : Evolves τ μ s₀ s) : Evolves τ μ s₀ (s.segmentsAge i) := by
  unfold State.segmentsAge
  split
  · exact h
  · split
    · exact h
    · exact h.forEach (fun _ _ h => by
      exact .ite h.set.raise (.ite h.set.raise h))

theorem Evolves.segClose {i t : Nat} {cut : Bool} (h : Evolves τ μ s₀ s) : Evolves τ μ s₀ (s.segClose i t cut) := by
  unfold State.segClose
  extract_lets x s1 s2
  have h1 : Evolves τ μ s₀ s1 := h.set.set
  have h2 : Evolves τ μ s₀ s2 := h1.set.set
  exact .ite h2.set.set.raise.segmentsAge h

theorem Evolves.segFree {x : Nat} (h : Evolves τ μ s₀ s) : Evolves τ μ s₀ (s.segFree x) := by
  unfold State.segFree
  extract_lets i s1
  have h1 : Evolves τ μ s₀ s1 := h.setEach
  exact h1.add.set

theorem Evolves.segRelease {x : Nat} (h : Evolves τ μ s₀ s) : With τ μ s₀ (s.segRelease x) :=
  .ite (.mk h.set.raise) (.mk h.segFree)

theorem Evolves.segFreeAll {i : Nat} (h : Evolves τ μ s₀ s) : Evolves τ μ s₀ (s.segFreeAll i) :=
  h.forEach (fun _ _ h => by
      exact .ite h h.segFree)

theorem Evolves.segCommand (h : Evolves τ μ s₀ s) : Evolves τ μ s₀ s.segCommand := h.segRelease.fst

theorem Evolves.execSegCmdRelease (h : Evolves τ μ s₀ s) : Answers τ μ s₀ (execSegCmdRelease s) :=
  h.gated (fun _ h => h.segCommand)

theorem Evolves.edgeTo {n c : Nat} {level : Bool} {time : Nat} (h : Evolves τ μ s₀ s) :
    Evolves τ μ s₀ (s.edgeTo n c level time) := by
  unfold State.edgeTo
  exact .ite h.onSkein.drew h.onSkein

theorem Evolves.acqWarn (h : Evolves τ μ s₀ s) : Evolves τ μ s₀ s.acqWarn := h.set

theorem Evolves.putAbove {n : Nat} {v : Bool} (h : Evolves τ μ s₀ s) : Evolves τ μ s₀ (s.putAbove n v) :=
  .ite h.set h.setBit

theorem Evolves.sqMark {n : Nat} (h : Evolves τ μ s₀ s) : Evolves τ μ s₀ (s.sqMark n) := by
  unfold State.sqMark
  exact .ite h.putAbove.raise.acqWarn (.ite h.putAbove.acqWarn h.acqWarn)

theorem Evolves.ledger {i w n : Nat} (h : Evolves τ μ s₀ s) : Evolves τ μ s₀ (s.ledger i w n) := h.add

theorem Evolves.enqueue {d : Nat} {q : QUnit} (h : Evolves τ μ s₀ s) : Evolves τ μ s₀ (s.enqueue d q) := by
  unfold State.enqueue
  extract_lets free s1 s2 s3 s1'
  have h1 : Evolves τ μ s₀ s1 := h.onSkein
  have h2 : Evolves τ μ s₀ s2 := h1.add.add
  have h3 : Evolves τ μ s₀ s3 := .ite h2.set h2
  have h1' : Evolves τ μ s₀ s1' := h.add.add
  exact .ite h3.sqMark ((Evolves.ite h1' h1'.ledger).raise)

theorem Evolves.comparatorReads (h : Evolves τ μ s₀ s) : Evolves τ μ s₀ s.comparatorReads := .ite h h.add.onSkein.sqMark

theorem Evolves.noteImage {n : Nat} {m : Made} (h : Evolves τ μ s₀ s) : Evolves τ μ s₀ (s.noteImage n m) := by
  unfold State.noteImage
  exact .ite h.onRcd h

theorem Evolves.produce {s0 : State} {n : Nat} {m : Made} {trailers : List Stitch} (h : Evolves τ μ s₀ s0) :
    Evolves τ μ s₀ (s0.produce n m trailers) := by
  unfold State.produce
  extract_lets s d words s1 i k s1' s2 s3 s4 s5
  have h : Evolves τ μ s₀ s := h.noteImage
  have h1 : Evolves τ μ s₀ s1 := h.add.add.add
  have h1' : Evolves τ μ s₀ s1' := h.add.add.add
  have h2 : Evolves τ μ s₀ s2 := h1'.add
  have h3 : Evolves τ μ s₀ s3 := h2.ledger.ledger.ledger
  have h4 : Evolves τ μ s₀ s4 := h3.ledger.ledger.ledger
  have h5 : Evolves τ μ s₀ s5 := h4.ledger
  exact .ite h1.add.enqueue h5.enqueue

theorem Evolves.newSpan {n : Nat} {g : Gear} {b : Nat} (h : Evolves τ μ s₀ s) : Evolves τ μ s₀ (s.newSpan n g b) :=
  h.onSkein

theorem Evolves.writeClose {n cause b : Nat} {extra : List Stitch} (h : Evolves τ μ s₀ s) :
    Evolves τ μ s₀ (s.writeClose n cause b extra) := by
  unfold State.writeClose
  extract_lets d i k g rest count left fits words s1 s2 s3
  have h1 : Evolves τ μ s₀ s1 := h.add.ledger.ledger
  have h2 : Evolves τ μ s₀ s2 := h1.add.ledger.ledger
  have h3 : Evolves τ μ s₀ s3 := h2.enqueue
  exact h3.onSkein.set

theorem Evolves.skeinBoundary {n b0 b1 : Nat} {commit : Bool} {closing : Option Nat} {good : List Nat}
    (h : Evolves τ μ s₀ s) :
    Evolves τ μ s₀ (s.skeinBoundary n b0 b1 commit closing good) := by
  unfold State.skeinBoundary
  extract_lets d g r obs s1 s2 s3 made s4 s5 s6
  have h1 : Evolves τ μ s₀ s1 := h.onSkein
  have h2 : Evolves τ μ s₀ s2 := .ite h1 h1.add
  have h3 : Evolves τ μ s₀ s3 := .ite h2.onSkein h2
  clear_value made
  have h4 : Evolves τ μ s₀ s4 := by
    unfold s4
    split
    · exact h3.produce.newSpan
    · exact .ite h3.onSkein h3
  have h5 : Evolves τ μ s₀ s5 := .ite h4.add.onSkein h4
  have h6 : Evolves τ μ s₀ s6 := by
    unfold s6
    split
    · exact h5.writeClose
    · exact h5
  exact .ite h.onSkein (.ite h6 h6.onSkein)

theorem Evolves.takeSample {n t inst : Nat} {fv : Bool} (h : Evolves τ μ s₀ s) :
    Evolves τ μ s₀ (s.takeSample n t inst fv) := by
  unfold State.takeSample
  exact h.onSkein

theorem Evolves.compareFrame {b : Nat} {differs : Bool} (h : Evolves τ μ s₀ s) :
    Evolves τ μ s₀ (s.compareFrame b differs) := by
  unfold State.compareFrame
  extract_lets s1 s2
  have h1 : Evolves τ μ s₀ s1 := h.add
  have h2 : Evolves τ μ s₀ s2 := .ite h1.set.set h1
  exact .ite h2.add.skeinCause.skeinCause h1

theorem Evolves.admRefresh (h : Evolves τ μ s₀ s) : Evolves τ μ s₀ s.admRefresh := by
  unfold State.admRefresh
  extract_lets s1 s2 s3
  have h1 : Evolves τ μ s₀ s1 := h.forEach (fun _ _ h => h.set)
  have h2 : Evolves τ μ s₀ s2 := h1.set
  have h3 : Evolves τ μ s₀ s3 := h2.forEach (fun _ _ h => h.set)
  exact h3.forEach (fun _ _ h => h.set)

/-- The widths of listed cells, checked by evaluation: the cells may name units that are not known. -/
theorem widths_le {l : List Fld} (h : l.all (fun f => f.width.ble 64) = true) : ∀ f ∈ l, f.width ≤ 64 :=
  fun f hf => Nat.le_of_ble_eq_true (List.all_eq_true.mp h f hf)

theorem shdCells_width (n : Nat) : ∀ f ∈ shdCells n, f.width ≤ 64 := by
  unfold shdCells
  rw [List.forall_mem_append, List.forall_mem_append]
  refine ⟨⟨fun f hf => ?_, widths_le rfl⟩, ?_⟩
  · obtain ⟨c, -, hf⟩ := List.mem_flatMap.mp hf
    exact widths_le rfl f hf
  · split
    · exact widths_le rfl
    · simp

theorem Evolves.stage {n : Nat} (h : Evolves τ μ s₀ s) : Evolves τ μ s₀ (s.stage n) :=
  h.forEach_mem (fun _ hf _ h => h.setStaged (shdCells_width _ _ hf))

theorem Evolves.enforce {n : Nat} (h : Evolves τ μ s₀ s) : Evolves τ μ s₀ (s.enforce n) :=
  h.forEach_mem (fun _ hf _ h => h.set (shdCells_width _ _ hf))

theorem Evolves.commitStatus {n b : Nat} {stateBoundary : Bool} (h : Evolves τ μ s₀ s) :
    Evolves τ μ s₀ (s.commitStatus n b stateBoundary) := by
  unfold State.commitStatus
  extract_lets s1 s2
  have h1 : Evolves τ μ s₀ s1 := h.set.set
  have h2 : Evolves τ μ s₀ s2 := h1.set.set
  exact h2.set.set

theorem Evolves.ovrMarks (h : Evolves τ μ s₀ s) : Evolves τ μ s₀ s.ovrMarks := by
  unfold State.ovrMarks
  extract_lets s1
  have h1 : Evolves τ μ s₀ s1 := h.forEach (fun _ _ h => h.set)
  exact h1.set

theorem Evolves.channelOver {n c : Nat} (h : Evolves τ μ s₀ s) : Evolves τ μ s₀ (s.channelOver n c) := by
  unfold State.channelOver
  extract_lets low s1 s2
  have h1 : Evolves τ μ s₀ s1 := h.setBit
  have h2 : Evolves τ μ s₀ s2 := h1.add.add.setBit
  exact .ite h2.feCause h1

theorem Evolves.channelBack {n c : Nat} (h : Evolves τ μ s₀ s) : Evolves τ μ s₀ (s.channelBack n c) := h.setBit.onSkein

theorem Evolves.ovrFollows {source : Nat} (h : Evolves τ μ s₀ s) : Evolves τ μ s₀ (s.ovrFollows source) := by
  unfold State.ovrFollows
  exact (h.forEach (fun _ _ h => .ite h (.ite h.channelOver h.channelBack))).ovrMarks

theorem Evolves.spareRole {oldMode oldTarget oldSource b : Nat} (h : Evolves τ μ s₀ s) :
    Evolves τ μ s₀ (s.spareRole oldMode oldTarget oldSource b) := by
  unfold State.spareRole
  extract_lets mode target source z z1 z2 z3 z4 from_ keep z5 spare s1 a
  have hz : Evolves τ μ s₀ z := h.set.set.set
  have hz1 : Evolves τ μ s₀ z1 := hz.setEach
  have hz2 : Evolves τ μ s₀ z2 := hz1.set
  have hz3 : Evolves τ μ s₀ z3 := hz2.set.set
  have hz4 : Evolves τ μ s₀ z4 := hz3.set
  have hz5 : Evolves τ μ s₀ z5 := hz4.onSkein.sqMark
  have h1 : Evolves τ μ s₀ s1 := .ite (.ite hz5.onSkein hz5) h
  have ha : Evolves τ μ s₀ a := h1.set.set
  exact .ite ha.ovrFollows.set.onSkein h1

theorem Evolves.followTarget {n : Nat} {delta : List Int} {b : Nat} (h : Evolves τ μ s₀ s) :
    Evolves τ μ s₀ (s.followTarget n delta b) := by
  unfold State.followTarget
  extract_lets s1
  have h1 : Evolves τ μ s₀ s1 := h.forEach (fun _ _ h => h.set.setShadow.set.setShadow.set.setShadow)
  exact h1.onSkein

theorem Evolves.takeEffect {n b : Nat} (h : Evolves τ μ s₀ s) : Evolves τ μ s₀ (s.takeEffect n b) := by
  unfold State.takeEffect
  extract_lets old oldMode oldTarget oldSource s1 delta s2 s2a s3
  have h1 : Evolves τ μ s₀ s1 := h.enforce
  have h2 : Evolves τ μ s₀ s2 := h1.onSkein
  have hs2a : Evolves τ μ s₀ s2a := .ite h2.followTarget h2
  have h3 : Evolves τ μ s₀ s3 := .ite hs2a.onSkein.admRefresh hs2a
  exact .ite h3.spareRole h3

theorem Evolves.settleCommit {n b c : Nat} {stateBoundary : Bool} (h : Evolves τ μ s₀ s) :
    Evolves τ μ s₀ (s.settleCommit n b c stateBoundary) := by
  unfold State.settleCommit
  extract_lets s1
  have h1 : Evolves τ μ s₀ s1 := h.set.set
  exact .ite h.takeEffect.commitStatus h1.set.set.skeinCause

theorem Evolves.commitStage {n b : Nat} (h : Evolves τ μ s₀ s) : Evolves τ μ s₀ (s.commitStage n b) :=
  h.stage.set.set.onSkein

theorem Evolves.abandonCheck {n : Nat} (h : Evolves τ μ s₀ s) : Evolves τ μ s₀ (s.abandonCheck n) :=
  .ite h.set.set.set h

theorem Evolves.commitRequest {n : Nat} (h : Evolves τ μ s₀ s) : Evolves τ μ s₀ (s.commitRequest n) := by
  unfold State.commitRequest
  extract_lets role s1
  have h1 : Evolves τ μ s₀ s1 := .ite h.abandonCheck.abandonCheck h
  exact .ite h.set h1.commitStage

theorem Evolves.sckJudge {n : Nat} (h : Evolves τ μ s₀ s) : Evolves τ μ s₀ (s.sckJudge n) := by
  unfold State.sckJudge
  extract_lets d mts k s1
  have h1 : Evolves τ μ s₀ s1 := .ite h.skeinCause h
  exact h1.onSkein

theorem Evolves.castSkein {i d b : Nat} (h : Evolves τ μ s₀ s) : Evolves τ μ s₀ (s.castSkein i d b) := by
  unfold State.castSkein
  extract_lets s1 s2 s3 start s4 s5
  have h1 : Evolves τ μ s₀ s1 := h.takeEffect.commitStatus
  have h2 : Evolves τ μ s₀ s2 := h1.setEach
  have h3 : Evolves τ μ s₀ s3 := h2.setEach
  have h4 : Evolves τ μ s₀ s4 := h3.onSkein
  have h5 : Evolves τ μ s₀ s5 := .ite h4.onSkein h4
  exact h5.set.set.set

end

end Sys2Proof.Machine
end

