-- ==== Sys2Proof/Proofs/EvolvesTrigger.lean ====
section
/-! PROOFS. Trigger sequencers and sessions keep the relation of Evolves. -/

namespace Sys2Proof.Machine

set_option Elab.async false

section
variable {τ μ : Bool} {s₀ s : State}

theorem Evolves.seqStitch {j : Nat} {w : Stitch} (h : Evolves τ μ s₀ s) : Evolves τ μ s₀ (s.seqStitch j w) := by
  unfold State.seqStitch
  extract_lets s1
  have h1 : Evolves τ μ s₀ s1 := h.add
  split
  · next hroom => exact h.onSeq_of (fun _ _ ⟨_, others⟩ => ⟨by simpa using hroom, others⟩)
  · exact (Evolves.ite h1 h1.ledger).raise

theorem Evolves.trigAction {j b a : Nat} {time : Nat × Bool} (h : Evolves τ μ s₀ s) :
    Evolves τ μ s₀ (s.trigAction j b a time) := by
  unfold State.trigAction
  extract_lets l s1 s2 wasOpen oldIndex s3
  have h1 : Evolves τ μ s₀ s1 := h.add.set.set
  have h2 : Evolves τ μ s₀ s2 := h1.set.set.raise
  have h3 : Evolves τ μ s₀ s3 := h2.segClose
  split
  · exact h2.seqStitch
  · split
    · exact h2.segClose.seqStitch
    · split
      · exact h3.segFill.seqStitch
      · exact h3.raise.raise.seqStitch

theorem Evolves.gateAction {j a t : Nat} {openBefore : Bool} (h : Evolves τ μ s₀ s) :
    Evolves τ μ s₀ (s.gateAction j a t openBefore) := by
  unfold State.gateAction
  split
  · exact h.set
  · extract_lets s1
    have h1 : Evolves τ μ s₀ s1 := h.set
    exact .ite h1.segClose h1
  · exact h

theorem Evolves.seqPin {j op pin t : Nat} (h : Evolves τ μ s₀ s) : Evolves τ μ s₀ (s.seqPin j op pin t) :=
  .ite h (.ite h.add h.pinOp)

theorem Evolves.branchActions {j t b a : Nat} {time : Nat × Bool} (h : Evolves τ μ s₀ s) :
    Evolves τ μ s₀ (s.branchActions j t b a time) := by
  unfold State.branchActions
  extract_lets openBefore s1 s2 s3 s4
  have h1 : Evolves τ μ s₀ s1 := .ite h h.trigAction
  have h2 : Evolves τ μ s₀ s2 := h1.gateAction
  have h3 : Evolves τ μ s₀ s3 := h2.raiseIf
  have h4 : Evolves τ μ s₀ s4 := h3.seqPin.seqPin
  exact h4.set

theorem Evolves.markAction {j t l b a : Nat} (h : Evolves τ μ s₀ s) : Evolves τ μ s₀ (s.markAction j t l b a) :=
  .ite h.add.seqStitch h

theorem Evolves.putCounter {i value : Nat} {running : Bool} (h : Evolves τ μ s₀ s) :
    Evolves τ μ s₀ (s.putCounter i value running) := by
  unfold State.putCounter
  extract_lets v s1 s2 full
  have h1 : Evolves τ μ s₀ s1 := h.set.set
  have h2 : Evolves τ μ s₀ s2 := h1.set
  exact h2.set.raiseIf

theorem Evolves.putTimer {i value : Nat} {running : Bool} (h : Evolves τ μ s₀ s) :
    Evolves τ μ s₀ (s.putTimer i value running) := by
  unfold State.putTimer
  extract_lets v s1 s2 full
  have h1 : Evolves τ μ s₀ s1 := h.set.set
  have h2 : Evolves τ μ s₀ s2 := h1.set
  exact h2.set.raiseIf

theorem Evolves.stepCounter {s0 : State} {t i : Nat} (h : Evolves τ μ s₀ s) :
    Evolves τ μ s₀ (State.stepCounter s0 t i s) := by
  unfold State.stepCounter
  extract_lets j op free inc reset running counts base s1
  have h1 : Evolves τ μ s₀ s1 := h.putCounter
  exact .ite h1.onPins h

theorem Evolves.stepTimer {s0 : State} {t i : Nat} (h : Evolves τ μ s₀ s) :
    Evolves τ μ s₀ (State.stepTimer s0 t i s) := by
  unfold State.stepTimer
  exact .ite h.putTimer h

theorem Evolves.markGate {j t0 t1 : Nat} (h : Evolves τ μ s₀ s) : Evolves τ μ s₀ (s.markGate j t0 t1) :=
  .ite (h.forEach (fun _ _ h => h.onSkein)) h

theorem Evolves.sampleStep {t : Nat} {seqs : List Nat} (h : Evolves τ μ s₀ s) : Evolves τ μ s₀ (s.sampleStep t seqs) := by
  unfold State.sampleStep
  extract_lets time s1 s2 mine s3 s4
  have h1 : Evolves τ μ s₀ s1 := h.forEach (fun _ _ h => by
      split
      · exact h.branchActions
      · exact h)
  have h2 : Evolves τ μ s₀ s2 := h1.forEach (fun _ _ h => by
      split
      · exact h.markAction
      · exact h)
  have h3 : Evolves τ μ s₀ s3 := h2.forEach (fun _ _ h => h.stepCounter)
  have h4 : Evolves τ μ s₀ s4 := h3.forEach (fun _ _ h => h.stepTimer)
  exact h4.forEach (fun _ _ h => h.onSeq)

theorem Evolves.takeForces {t : Nat} (h : Evolves τ μ s₀ s) : Evolves τ μ s₀ (s.takeForces t) :=
  h.forEach (fun _ _ h => .ite h.onSeq h)

theorem Evolves.forcePulse {j : Nat} (h : Evolves τ μ s₀ s) : Evolves τ μ s₀ (s.forcePulse j) :=
  h.onSeq_of (fun _ _ hq => by
    split
    · exact hq
    · exact hq)

theorem Evolves.liveSample (h : Evolves true μ s₀ s) : Evolves true μ s₀ s.liveSample := by
  unfold State.liveSample
  extract_lets t s1 s2
  have h1 : Evolves true μ s₀ s1 := h.takeInputs.takeForces.forEach (fun _ _ h => h.markGate)
  have h2 : Evolves true μ s₀ s2 := h1.sampleStep
  exact h2.atTime.onClk.pulsesEnd

theorem Evolves.liveSamples {fuel b : Nat} (h : Evolves true μ s₀ s) : Evolves true μ s₀ (State.liveSamples fuel b s) := by
  induction fuel generalizing s with
  | zero => exact h
  | succ fuel ih => exact .ite (ih h.liveSample) h

theorem Evolves.evaluateTo {b : Nat} (h : Evolves true μ s₀ s) : Evolves true μ s₀ (s.evaluateTo b) := by
  unfold State.evaluateTo
  extract_lets s1 s2
  have h1 : Evolves true μ s₀ s1 := h.takeInputs.takeForces.forEach (fun _ _ h => h.markGate)
  have h2 : Evolves true μ s₀ s2 := h1.forEach (fun _ _ h => h.onSeq)
  exact .ite h (.ite h.liveSamples h2.onClk.pulsesEnd)

theorem Evolves.armRefused {n cause : Nat} (h : Evolves τ μ s₀ s) : Evolves τ μ s₀ (s.armRefused n cause) :=
  h.set.set.raise

theorem Evolves.armRequest {n : Nat} (h : Evolves τ μ s₀ s) : With τ μ s₀ (s.armRequest n) := by
  unfold State.armRequest
  extract_lets c s1
  have h1 : Evolves τ μ s₀ s1 := h.set.set.set
  exact .ite (.mk h) (.ite (.mk h.armRefused) (.mk h1.onSeq))

theorem Evolves.armTake {n : Nat} (h : Evolves τ μ s₀ s) : Evolves τ μ s₀ (s.armTake n) := by
  unfold State.armTake
  extract_lets s1 s2 s3 s4
  have h1 : Evolves τ μ s₀ s1 := h.set.set
  have h2 : Evolves τ μ s₀ s2 := h1.set.set
  have h3 : Evolves τ μ s₀ s3 := h2.set.set.onSeq
  have h4 : Evolves τ μ s₀ s4 := h3.forEach (fun _ _ h => .ite h.set h)
  exact (h4.forEach (fun _ _ h => .ite h.set h)).powerFollow

theorem Evolves.armsAt {b : Nat} (h : Evolves τ μ s₀ s) : Evolves τ μ s₀ (s.armsAt b) :=
  h.forEach (fun _ _ h => .ite h.armTake h)

theorem Evolves.disarmed {n t : Nat} {cut : Bool} (h : Evolves τ μ s₀ s) : Evolves τ μ s₀ (s.disarmed n t cut) := by
  unfold State.disarmed
  extract_lets s1
  have h1 : Evolves τ μ s₀ s1 := h.set.set
  exact h1.releasePins.segClose.powerFollow

theorem Evolves.disarm {n t : Nat} {cut : Bool} (h : Evolves τ μ s₀ s) : Evolves τ μ s₀ (s.disarm n t cut) :=
  .ite h.disarmed h

theorem Evolves.disarmNow {n : Nat} (h : Evolves true μ s₀ s) : Evolves true μ s₀ (s.disarmNow n) := by
  unfold State.disarmNow
  exact .ite h.evaluateTo.disarmed h.disarm

theorem Evolves.freeze {n b : Nat} (h : Evolves τ μ s₀ s) : Evolves τ μ s₀ (s.freeze n b) :=
  .ite h.set.set (.ite h.set.releasePins.raise.powerFollow h)

theorem Evolves.settleTimer {i : Nat} (h : Evolves τ μ s₀ s) : Evolves τ μ s₀ (s.settleTimer i) := .ite h.set.set h

theorem Evolves.settleCounter {i : Nat} (h : Evolves τ μ s₀ s) : Evolves τ μ s₀ (s.settleCounter i) := .ite h.set h

theorem Evolves.execSampleEvaluation (h : Evolves true μ s₀ s) : Answers true μ s₀ (execSampleEvaluation s) :=
  .ite h.liveSample h

theorem Evolves.execTimerExpire {i : Fin 32} (h : Evolves τ μ s₀ s) : Answers τ μ s₀ (execTimerExpire i s) :=
  h.settleTimer

theorem Evolves.execCounterTarget {i : Fin 32} (h : Evolves τ μ s₀ s) : Answers τ μ s₀ (execCounterTarget i s) :=
  h.settleCounter

theorem Evolves.execCounterSaturation {c : PoolCount} (h : Evolves τ μ s₀ s) :
    Answers τ μ s₀ (execCounterSaturation c s) := by
  unfold Machine.execCounterSaturation
  split
  · exact .ite h.putCounter h
  · exact .ite h.putTimer h

theorem trgCtrlFields_width (n value : Nat) : ∀ p ∈ trgCtrlFields n value, p.1.width ≤ 64 :=
  fun p hp => Nat.le_of_ble_eq_true
    (List.all_eq_true.mp (show (trgCtrlFields n value).all (fun p => p.1.width.ble 64) = true from rfl) p hp)

theorem Evolves.trgCtrlWrite {n value : Nat} (h : Evolves true μ s₀ s) : Evolves true μ s₀ (s.trgCtrlWrite n value) := by
  unfold State.trgCtrlWrite
  extract_lets s1 s2
  have h1 : Evolves true μ s₀ s1 :=
    .ite (.ite h.accessErr h) (h.forEach_mem (fun p hp _ h => h.set (trgCtrlFields_width n value p hp)))
  have h2 : Evolves true μ s₀ s2 := .ite h1.disarmNow h1
  exact .ite h2.armRequest.fst h2

theorem Evolves.trgForceWrite {n value : Nat} (h : Evolves τ μ s₀ s) : Evolves τ μ s₀ (s.trgForceWrite n value) := by
  unfold State.trgForceWrite
  extract_lets s1
  have h1 : Evolves τ μ s₀ s1 := h.set
  exact .ite h1.forcePulse h1

theorem Evolves.execTrgArm {n : Fin 8} {value : DWord} (h : Evolves true μ s₀ s) :
    Answers true μ s₀ (execTrgArm n value s) := h.gated (fun _ h => h.trgCtrlWrite)

theorem Evolves.execTrgDisarm {n : Fin 8} {value : DWord} (h : Evolves true μ s₀ s) :
    Answers true μ s₀ (execTrgDisarm n value s) := h.gated (fun _ h => h.trgCtrlWrite)

theorem Evolves.execForcePulse {n : Fin 8} {value : DWord} (h : Evolves τ μ s₀ s) :
    Answers τ μ s₀ (execForcePulse n value s) := h.gated (fun _ h => h.trgForceWrite)

theorem Evolves.putSess {n v : Nat} (h : Evolves τ μ s₀ s) : Evolves τ μ s₀ (s.putSess n v) :=
  .ite h h.set.setBit.raise.powerFollow

theorem Evolves.closeOut {d : Nat} (h : Evolves τ μ s₀ s) : Evolves τ μ s₀ (s.closeOut d) := by
  unfold State.closeOut
  extract_lets i units part words s1 s2
  have h1 : Evolves τ μ s₀ s1 := h.set.ledger
  have h2 : Evolves τ μ s₀ s2 := h1.onRcd
  exact h2.onSkein.sqMark

theorem Evolves.closeOutAll {d : Nat} (h : Evolves τ μ s₀ s) : Evolves τ μ s₀ (s.closeOutAll d) := by
  unfold State.closeOutAll
  extract_lets s1 i left
  have h1 : Evolves τ μ s₀ s1 := h.closeOut
  exact h1.ledger.onSkein.sqMark

theorem Evolves.interrupt {n cause : Nat} (h : Evolves τ μ s₀ s) : Evolves τ μ s₀ (s.interrupt n cause) := by
  unfold State.interrupt
  extract_lets st
  split
  · exact h.putSess.onRcd.twinFault
  · split
    · split
      · exact .ite ((h.forEach (fun _ _ h => h.closeOut)).onRcd) h
      · exact h.onRcd
    · exact h

theorem Evolves.interruptAll {cause : Nat} (h : Evolves τ μ s₀ s) : Evolves τ μ s₀ (s.interruptAll cause) :=
  h.forEach (fun _ _ h => h.interrupt)

theorem Evolves.bindOffAt {n cause due : Nat} (h : Evolves τ μ s₀ s) : Evolves τ μ s₀ (s.bindOffAt n cause due) :=
  h.putSess.onRcd

theorem Evolves.bindOffAccept {n cause : Nat} (h : Evolves τ μ s₀ s) : Evolves τ μ s₀ (s.bindOffAccept n cause) :=
  h.bindOffAt

theorem Evolves.creditRefresh (h : Evolves τ μ s₀ s) : Evolves τ μ s₀ s.creditRefresh := by
  unfold State.creditRefresh
  extract_lets s1
  have h1 : Evolves τ μ s₀ s1 := h.forEach (fun _ _ h => h.set)
  exact h1.set.admRefresh

/-- A plan taken out leaves the others. -/
theorem Record.Kept.release {r : Record} (h : r.Kept) (n : Nat) : ({ r with plans := sput r.plans n none none } : Record).Kept := by
  intro i p hp
  dsimp only at hp
  rw [sget_sput] at hp
  split at hp
  · cases hp
  · exact h i p hp

theorem Evolves.releasePlan {n : Nat} (h : Evolves τ μ s₀ s) : Evolves τ μ s₀ (s.releasePlan n) := by
  unfold State.releasePlan
  extract_lets ds s1 s2 s3 s4 s5
  have h1 : Evolves τ μ s₀ s1 := by
    refine (h.forEach (fun d s h => ?_)).segFreeAll
    extract_lets a
    have ha : Evolves τ μ s₀ a := h.setEach
    exact ha.set.onSkein
  have h2 : Evolves τ μ s₀ s2 := h1.setEach
  have h3 : Evolves τ μ s₀ s3 := h2.set
  have h4 : Evolves τ μ s₀ s4 := h3.setEach
  have h5 : Evolves τ μ s₀ s5 := h4.onRcd_of (fun _ hr => hr.release n)
  exact h5.putSess.creditRefresh

theorem Evolves.logFault {event page outcome detail : Nat} (h : Evolves τ μ s₀ s) :
    Evolves τ μ s₀ (s.logFault event page outcome detail) := by
  unfold State.logFault
  exact h.onFlt.add.raise

theorem Evolves.logMasked {unit event page detail : Nat} (h : Evolves τ μ s₀ s) :
    Evolves τ μ s₀ (s.logMasked unit event page detail) := by
  unfold State.logMasked
  exact .ite h.logFault.onFlt h

theorem Evolves.fencePage {page : Nat} (h : Evolves τ μ s₀ s) : Evolves τ μ s₀ (s.fencePage page) := by
  unfold State.fencePage
  extract_lets live seen base
  have hbase : Evolves τ μ s₀ base := h.set
  exact hbase.rest

theorem Evolves.sectorErased {sector : Nat} (h : Evolves τ μ s₀ s) : Evolves τ μ s₀ (s.sectorErased sector) := h.add

theorem Evolves.erasesCount {op : FlashOp} (h : Evolves τ μ s₀ s) : Evolves τ μ s₀ (s.erasesCount op) :=
  h.forEach (fun _ _ h => h.sectorErased)

theorem Evolves.flashBegins (h : Evolves τ μ s₀ s) : Evolves τ μ s₀ s.flashBegins := by
  unfold State.flashBegins
  split
  · exact .ite h h.erasesCount.onSvc
  · exact h

theorem Evolves.flashMarks {s0 : State} (h : Evolves τ μ s₀ s0) : Evolves τ μ s₀ s0.flashMarks := by
  unfold State.flashMarks
  extract_lets s commits
  have h : Evolves τ μ s₀ s := h.flashBegins
  exact h.set.set

theorem Evolves.flashQueue {op : FlashOp} (h : Evolves τ μ s₀ s) : Evolves τ μ s₀ (s.flashQueue op) :=
  h.onSvc.flashMarks

theorem Evolves.entryQueue {op : FlashOp} (h : Evolves τ μ s₀ s) : Evolves τ μ s₀ (s.entryQueue op) :=
  (Evolves.ite h h.flashQueue).set

theorem Evolves.fenceEntry {event : Nat} {f : Fences → Fences} (h : Evolves τ μ s₀ s) :
    Evolves τ μ s₀ (s.fenceEntry event f) := h.onFlt.entryQueue

theorem Evolves.fenced {event page detail : Nat} (h : Evolves τ μ s₀ s) :
    Evolves τ μ s₀ (s.fenced event page detail) := .ite h.raise h.raise.logFault

theorem Evolves.fencedTwice {event page detail : Nat} (h : Evolves τ μ s₀ s) :
    Evolves τ μ s₀ (s.fencedTwice event page detail) := h.logFault

theorem Evolves.dropSkein {d : Nat} (h : Evolves τ μ s₀ s) : Evolves τ μ s₀ (s.dropSkein d) := h.onRcd

theorem Evolves.fenceSkein {d event detail : Nat} (h : Evolves τ μ s₀ s) :
    Evolves τ μ s₀ (s.fenceSkein d event detail) := by
  unfold State.fenceSkein
  extract_lets s1 s2 s3
  have h1 : Evolves τ μ s₀ s1 := .ite h.dropSkein h
  have h2 : Evolves τ μ s₀ s2 := h1.fenceEntry
  have h3 : Evolves τ μ s₀ s3 := h2.set
  exact h3.fencePage.fencePage.fenced

theorem Evolves.fenceSequencer {n event detail : Nat} (h : Evolves τ μ s₀ s) :
    Evolves τ μ s₀ (s.fenceSequencer n event detail) := by
  unfold State.fenceSequencer
  extract_lets s1 s2
  have h1 : Evolves τ μ s₀ s1 := .ite h (.ite h.interrupt.onRcd h.releasePlan.raise)
  have h2 : Evolves τ μ s₀ s2 := h1.fenceEntry
  exact h2.fencePage.fenced

end

end Sys2Proof.Machine
end

