-- ==== Sys2Proof/Proofs/EvolvesRecord.lean ====
section
/-! PROOFS. The HBM, the record path and the verdicts keep the relation of Evolves. -/

namespace Sys2Proof.Machine

set_option Elab.async false

section
variable {τ μ : Bool} {s₀ s : State}

theorem Evolves.putPcState {pc v : Nat} (h : Evolves τ μ s₀ s) : Evolves τ μ s₀ (s.putPcState pc v) := h.set

theorem Evolves.remap (h : Evolves τ μ s₀ s) : Evolves τ μ s₀ s.remap := by
  unfold State.remap
  extract_lets l s1 s2 total
  have h1 : Evolves τ μ s₀ s1 := h.set.set
  have h2 : Evolves τ μ s₀ s2 := h1.forEach (fun _ _ h => h.set)
  exact h2.set.set

theorem Evolves.wakePc {pc : Nat} (h : Evolves τ μ s₀ s) : Evolves τ μ s₀ (s.wakePc pc) := .ite h.putPcState h

theorem Evolves.orderMode {pc : Nat} (h : Evolves τ μ s₀ s) : Evolves τ μ s₀ (s.orderMode pc) := by
  unfold State.orderMode
  exact .ite (.ite h h.set.add) h.set

theorem Evolves.acceptRead {a : Nat} (h : Evolves τ μ s₀ s) : Evolves τ μ s₀ (s.acceptRead a) := by
  unfold State.acceptRead
  split
  · exact .ite h.onHbm (.ite h.wakePc.onHbm.orderMode h)
  · exact h

/-! ### What writes the HBM -/

theorem canonical_putBytes {m : List Host.Cell} (bytes : List Byte) (k : Nat) (h : canonical 0 m = true) :
    canonical 0 (putBytes m k bytes) = true := by
  induction bytes generalizing m k with
  | nil => exact h
  | cons b bytes ih => exact ih (k + 1) (canonical_sput k b h)

section
variable {m : Hbm} {pc x : Nat} {bytes : List Byte}

theorem Hbm.Kept.commit {w : HbmWrite} (h : m.Kept) : (m.commit pc w).Kept :=
  ⟨canonical_putBytes _ _ h.1, canonical_sput _ _ h.2⟩

theorem Hbm.Kept.spoilMem (h : m.Kept) : (m.spoilMem pc x bytes).Kept :=
  ⟨canonical_putBytes _ _ h.1, canonical_sput (markKey pc x) 1 h.2⟩

theorem Hbm.Kept.spoil (h : m.Kept) : (m.spoil pc x bytes).Kept := by
  unfold Hbm.spoil
  split
  · exact h
  · exact h.spoilMem

theorem Hbm.Kept.zeroFill (h : m.Kept) : (m.zeroFill pc).Kept := ⟨canonical_filter _ h.1, canonical_filter _ h.2⟩

theorem Hbm.Kept.issueWrite (h : m.Kept) : (m.issueWrite pc).Kept := by
  unfold Hbm.issueWrite
  split
  · exact h.commit
  · exact h

theorem Hbm.Kept.issueRead (h : m.Kept) : (m.issueRead pc).Kept := by
  unfold Hbm.issueRead
  split
  · exact h
  · exact h

theorem Hbm.Kept.issueOldest (h : m.Kept) : (m.issueOldest pc).Kept := by
  unfold Hbm.issueOldest
  split
  · split
    · exact h.issueWrite
    · exact h.issueRead
  · exact h.issueWrite
  · exact h.issueRead

theorem Hbm.Kept.issueWhile {more : Hbm → Bool} {fuel : Nat} (h : m.Kept) : (Hbm.issueWhile more pc fuel m).Kept := by
  induction fuel generalizing m with
  | zero => exact h
  | succ fuel ih =>
    unfold Hbm.issueWhile
    split
    · exact ih h.issueOldest
    · exact h

end

theorem Evolves.issuing {pc : Nat} {f : Hbm → Hbm} (h : Evolves τ true s₀ s) (hf : ∀ m : Hbm, m.Kept → (f m).Kept) :
    Evolves τ true s₀ (s.issuing pc f) := by
  unfold State.issuing
  extract_lets s1
  have h1 : Evolves τ true s₀ s1 := h.writeHbm (hf s.hbm)
  exact h1.add.orderMode

theorem Evolves.hbmIssueNext {pc : Nat} (h : Evolves τ true s₀ s) : Evolves τ true s₀ (s.hbmIssueNext pc) := by
  unfold State.hbmIssueNext
  split
  · exact h
  · exact h.issuing (fun _ k => k.issueWrite)
  · exact h.issuing (fun _ k => k.issueRead)

theorem Evolves.issueAll {pc : Nat} (h : Evolves τ true s₀ s) : Evolves τ true s₀ (s.issueAll pc) :=
  h.issuing (fun _ k => k.issueWhile)

theorem Evolves.makeRoom {pc fuel : Nat} (h : Evolves τ true s₀ s) : Evolves τ true s₀ (State.makeRoom pc fuel s) := by
  induction fuel generalizing s with
  | zero => exact h
  | succ fuel ih => exact .ite h (ih h.hbmIssueNext)

theorem Evolves.acceptWrite {s0 : State} {pc : Nat} {w : HbmWrite} (h : Evolves τ true s₀ s0) :
    Evolves τ true s₀ (s0.acceptWrite pc w) := by
  unfold State.acceptWrite
  extract_lets s k s1 level peak
  have h : Evolves τ true s₀ s := h.makeRoom
  have h1 : Evolves τ true s₀ s1 := h.wakePc.onHbm
  exact h1.set.raiseIf

theorem Evolves.writeBurst {a : Nat} {data : List Byte} {mark lane start : Nat} (h : Evolves τ true s₀ s) :
    IfAny τ true s₀ (s.writeBurst a data mark lane start) := by
  unfold State.writeBurst
  split
  · exact .some (.ite h h.acceptWrite)
  · exact .none

theorem Evolves.countCe {pc : Nat} (h : Evolves τ μ s₀ s) : Evolves τ μ s₀ (s.countCe pc) := by
  unfold State.countCe
  exact h.add.add.raise.logMasked

theorem Evolves.noteUe {pc x : Nat} {scrub : Bool} (h : Evolves τ μ s₀ s) : Evolves τ μ s₀ (s.noteUe pc x scrub) := by
  unfold State.noteUe
  extract_lets k ev s1
  have h1 : Evolves τ μ s₀ s1 := h.add.add.set
  exact h1.raise.logFault

theorem Evolves.countUe {pc x : Nat} {scrub : Bool} (h : Evolves τ true s₀ s) :
    Evolves τ true s₀ (s.countUe pc x scrub) := by
  unfold State.countUe
  split
  · exact h.noteUe
  · refine (h.noteUe.writeHbm (fun k => ?_)).drew
    exact k.spoil

theorem Evolves.countPoison {pc : Nat} (h : Evolves τ μ s₀ s) : Evolves τ μ s₀ (s.countPoison pc) := by
  unfold State.countPoison
  exact h.add.raise

theorem Evolves.orderEntry {pc x : Nat} (h : Evolves τ true s₀ s) : Evolves τ true s₀ (s.orderEntry pc x) := by
  unfold State.orderEntry
  extract_lets k f
  have hcount : Evolves τ true s₀ (if s.is f then s else (s.set f 1).add (HBM_PC_IN_ORDER.ofWin k (pc % 32)) 1) :=
    .ite h h.set.add
  exact .ite (hcount.issuing (fun _ m => m.issueWhile)) h

theorem Evolves.eccRead {s0 : State} {pc x : Nat} {finding : EccFinding} (h : Evolves τ true s₀ s0) :
    Evolves τ true s₀ (s0.eccRead pc x finding) := by
  unfold State.eccRead
  extract_lets s
  have h : Evolves τ true s₀ s := h.orderEntry
  split
  · exact h.countPoison
  · split
    · exact h.countUe
    · split
      · exact h
      · exact h.countCe
      · exact h.countUe

theorem Evolves.eccIssued {pc : Nat} {r : HbmIssued} {finding : EccFinding} (h : Evolves τ true s₀ s) :
    Evolves τ true s₀ (s.eccIssued pc r finding) := by
  refine .ite h.countPoison (.ite h.noteUe ?_)
  split
  · exact h
  · exact h.countCe
  · refine (h.noteUe.writeHbm (fun k => ?_)).drew
    split
    · exact k.spoilMem
    · exact k

theorem Evolves.dropBurst {w : HbmWrite} (h : Evolves τ μ s₀ s) : Evolves τ μ s₀ (s.dropBurst w) := by
  unfold State.dropBurst
  extract_lets d i hit moved s1
  have h1 : Evolves τ μ s₀ s1 := h.set.ledger
  exact .ite h h1.onRcd

theorem Evolves.dropQueue {s0 : State} {pc : Nat} (h : Evolves τ μ s₀ s0) : Evolves τ μ s₀ (s0.dropQueue pc) := by
  unfold State.dropQueue
  extract_lets s ws lanes s1 s2 s3
  have h : Evolves τ μ s₀ s := .ite h.onHbm h
  have h1 : Evolves τ μ s₀ s1 := h.add
  have h2 : Evolves τ μ s₀ s2 := h1.forEach (fun _ _ h => h.dropBurst)
  have h3 : Evolves τ μ s₀ s3 := h2.onHbm
  exact h3.raiseIf

theorem Evolves.keepMap (h : Evolves τ μ s₀ s) : Evolves τ μ s₀ s.keepMap := by
  unfold State.keepMap
  extract_lets s1
  have h1 : Evolves τ μ s₀ s1 := h.forEach (fun _ _ h => h.set)
  exact h1.set.set.add

theorem Evolves.removePcs {pcs : List Nat} {event : Nat} (h : Evolves τ μ s₀ s) :
    Evolves τ μ s₀ (s.removePcs pcs event) := by
  unfold State.removePcs
  extract_lets s1 s3
  have h1 : Evolves τ μ s₀ s1 := h.keepMap.forEach (fun _ _ h => h.dropQueue.putPcState.setBit)
  have h3 : Evolves τ μ s₀ s3 := h1.remap.interruptAll.onRcd
  exact h3.set.fenceEntry

theorem Evolves.fencePc {pc event : Nat} (h : Evolves τ μ s₀ s) : Evolves τ μ s₀ (s.fencePc pc event) :=
  .ite h.fencedTwice h.removePcs.raise.fenced

theorem Evolves.fenceStack {k event : Nat} (h : Evolves τ μ s₀ s) : Evolves τ μ s₀ (s.fenceStack k event) := by
  unfold State.fenceStack
  extract_lets pcs s1
  have h1 : Evolves τ μ s₀ s1 := h.removePcs.set
  exact h1.fencePage.raise.fenced

theorem Evolves.pcFails {pc event : Nat} (h : Evolves τ μ s₀ s) : Evolves τ μ s₀ (s.pcFails pc event) := by
  unfold State.pcFails
  extract_lets k recent s1
  have h1 : Evolves τ μ s₀ s1 := h.onHbm
  exact .ite h.fencedTwice (.ite h1.raise.fenced.fenceStack h1.fencePc)

theorem Evolves.stackStates {v : Nat} (h : Evolves τ μ s₀ s) : Evolves τ μ s₀ (s.stackStates v) :=
  h.forEach (fun _ _ h => .ite h h.set)

theorem Evolves.enterSelfRefresh (h : Evolves τ true s₀ s) : Evolves τ true s₀ s.enterSelfRefresh := by
  unfold State.enterSelfRefresh
  extract_lets s1 s2
  have h1 : Evolves τ true s₀ s1 := h.forEach (fun _ _ h => .ite h h.issueAll.putPcState)
  have h2 : Evolves τ true s₀ s2 := h1.set
  exact .ite h2 h2.stackStates

theorem Evolves.leaveSelfRefresh (h : Evolves τ μ s₀ s) : Evolves τ μ s₀ s.leaveSelfRefresh :=
  h.forEach (fun _ _ h => .ite h.putPcState h)

theorem Evolves.failTraining {pcs : List Nat} (h : Evolves τ μ s₀ s) : Evolves τ μ s₀ (s.failTraining pcs) :=
  h.forEach (fun _ _ h => h.raise.pcFails)

theorem Evolves.execHbmBurstAccept {addr : BitVec 37} {data : List Byte} {poisoned : Bool} (h : Evolves τ true s₀ s) :
    Answers τ true s₀ (execHbmBurstAccept addr data poisoned s) := .ite (.ite h (h.writeBurst.getD h)) trivial

theorem Evolves.execHbmReadAccept {addr : BitVec 37} (h : Evolves τ μ s₀ s) :
    Answers τ μ s₀ (execHbmReadAccept addr s) := Evolves.ite h h.acceptRead

theorem Evolves.execHbmIssue {pc : Fin 128} {parityError : Bool} (h : Evolves τ true s₀ s) :
    Answers τ true s₀ (execHbmIssue pc parityError s) := by
  unfold Machine.execHbmIssue
  extract_lets s1
  have h1 : Evolves τ true s₀ s1 := h.onHbm.raise
  exact .ite (.ite (.ite h1.pcFails h1) h.onHbm.hbmIssueNext) h

theorem Evolves.execHbmReadData {pc : Fin 128} {finding : EccFinding} (h : Evolves τ true s₀ s) :
    Answers τ true s₀ (execHbmReadData pc finding s) := by
  unfold Machine.execHbmReadData
  split
  · exact h
  · exact h.eccIssued.onHbm

theorem Evolves.execRefreshWindow {pc : Fin 128} (h : Evolves τ μ s₀ s) : Answers τ μ s₀ (execRefreshWindow pc s) := h

theorem Evolves.execRetrainingPause {pc : Fin 128} {margin : Byte} {lanes : LaneFinding} (h : Evolves τ μ s₀ s) :
    Answers τ μ s₀ (execRetrainingPause pc margin lanes s) := by
  unfold Machine.execRetrainingPause
  extract_lets k low s1 s2
  have h1 : Evolves τ μ s₀ s1 := h.set.raiseIf
  have h2 : Evolves τ μ s₀ s2 := h1.onHbm
  split
  · split
    · exact Evolves.ite h2 h2.add.raise
    · exact h2.pcFails
  · exact h

theorem Evolves.scrubEnd {pc : Nat} (h : Evolves τ μ s₀ s) : Evolves τ μ s₀ (s.scrubEnd pc) := by
  unfold State.scrubEnd
  extract_lets k s1 done mine s2
  have h1 : Evolves τ μ s₀ s1 := h.onHbm
  have h2 : Evolves τ μ s₀ s2 := h1.raiseIf
  exact .ite h2.onHbm.add h2

theorem Evolves.execScrubRead {pc : Fin 128} {burst : BitVec 24} {finding : EccFinding} (h : Evolves τ true s₀ s) :
    Answers τ true s₀ (execScrubRead pc burst finding s) := by
  unfold Machine.execScrubRead
  extract_lets s1
  have h1 : Evolves τ true s₀ s1 := by
    unfold s1
    split
    · exact h
    · exact h.countCe
    · exact h.countUe
  exact .ite trivial (.ite (Evolves.ite h1.scrubEnd h1) h)

theorem Evolves.execStatusPoll {pc : Fin 128} {answered : Bool} (h : Evolves τ μ s₀ s) :
    Answers τ μ s₀ (execStatusPoll pc answered s) := .ite h h.raise.pcFails

theorem Evolves.execReadTimeout {pc : Fin 128} (h : Evolves τ μ s₀ s) : Answers τ μ s₀ (execReadTimeout pc s) :=
  .ite h.raise.pcFails h

theorem Evolves.execStackCatastrophicTrip {k : Fin 4} (h : Evolves τ μ s₀ s) :
    Answers τ μ s₀ (execStackCatastrophicTrip k s) := .ite h.fencedTwice h.raise.fenceStack

theorem Evolves.execStackTempRead {k : Fin 4} {temp : Byte} (h : Evolves τ μ s₀ s) :
    Answers τ μ s₀ (execStackTempRead k temp s) := by
  unfold Machine.execStackTempRead
  extract_lets hot s1
  have h1 : Evolves τ μ s₀ s1 := h.set.set
  exact h1.raiseIf

theorem Evolves.hbmFenceWrite {value : Nat} (h : Evolves τ μ s₀ s) : Evolves τ μ s₀ (s.hbmFenceWrite value) := by
  unfold State.hbmFenceWrite
  extract_lets target s1
  have h1 : Evolves τ μ s₀ s1 := h.set.set
  exact .ite (.ite (.ite h1.fencedTwice h1.fenceStack) h1.fencePc) h1

theorem Evolves.execHbmFenceGo {value : DWord} (h : Evolves τ μ s₀ s) : Answers τ μ s₀ (execHbmFenceGo value s) :=
  h.gated (fun _ h => h.hbmFenceWrite)

theorem Evolves.execHbmTrainingDone {untrainable : List (Fin 128)} (h : Evolves τ true s₀ s) :
    Answers τ true s₀ (execHbmTrainingDone untrainable s) := by
  unfold Machine.execHbmTrainingDone
  extract_lets s1 s2
  have h1 : Evolves τ true s₀ s1 := h.forEach (fun _ _ h => .ite (h.putPcState.writeHbm (fun k => k.zeroFill)) h)
  have h2 : Evolves τ true s₀ s2 := h1.stackStates.remap
  exact .ite h2.failTraining.set h

theorem Evolves.execHbmIdleSelfRefresh {pc : Fin 128} (h : Evolves τ true s₀ s) :
    Answers τ true s₀ (execHbmIdleSelfRefresh pc s) := .ite h.issueAll.putPcState h

theorem Evolves.readsComplete {pc : Nat} (h : Evolves τ true s₀ s) : Evolves τ true s₀ (s.readsComplete pc) :=
  (h.forEach (fun _ _ h => h.eccIssued.onHbm)).onHbm

theorem Evolves.hbmPark (h : Evolves τ true s₀ s) : Evolves τ true s₀ s.hbmPark := by
  unfold State.hbmPark
  extract_lets s1 s2
  have h1 : Evolves τ true s₀ s1 := h.forEach (fun _ _ h => by
      extract_lets a
      have ha : Evolves τ true s₀ a := h.issueAll.readsComplete
      exact .ite ha.putPcState (ha.putPcState.writeHbm (fun k => k.zeroFill)))
  have h2 : Evolves τ true s₀ s2 := h1.stackStates.set.set
  exact h2.forEach (fun _ _ h => h.raise)

theorem Evolves.execHbmWakeReady {untrainable : List (Fin 128)} (h : Evolves τ true s₀ s) :
    Answers τ true s₀ (execHbmWakeReady untrainable s) := by
  unfold Machine.execHbmWakeReady
  extract_lets s1 s2 s3
  have h1 : Evolves τ true s₀ s1 := h.forEach (fun _ _ h => .ite (h.putPcState.writeHbm (fun k => k.zeroFill)) (.ite h.putPcState h))
  have h2 : Evolves τ true s₀ s2 := h1.stackStates.failTraining
  have h3 : Evolves τ true s₀ s3 := h2.set.set
  exact .ite (h3.forEach (fun _ _ h => h.raise)) h

theorem Evolves.execHbmRelockRetrainDone (h : Evolves τ μ s₀ s) : Answers τ μ s₀ (execHbmRelockRetrainDone s) :=
  .ite h.leaveSelfRefresh.stackStates.set h

theorem Evolves.quotaRefresh {i : Nat} (h : Evolves τ μ s₀ s) : Evolves τ μ s₀ (s.quotaRefresh i) := by
  unfold State.quotaRefresh
  extract_lets held s1
  have h1 : Evolves τ μ s₀ s1 := h.set
  exact .ite h1.set.raise h1

theorem Evolves.oldestRefresh {l : Nat} (h : Evolves τ μ s₀ s) : Evolves τ μ s₀ (s.oldestRefresh l) := h.set

theorem Evolves.overwrite {i l : Nat} (h : Evolves τ μ s₀ s) : Evolves τ μ s₀ (s.overwrite i l) := by
  unfold State.overwrite
  extract_lets size written x s1
  have h1 : Evolves τ μ s₀ s1 := h.raiseIf
  split
  · split
    · exact h1
    · extract_lets last s2 s3
      have h2 : Evolves τ μ s₀ s2 := h1.ledger
      have h3 : Evolves τ μ s₀ s3 := h2.onRcd
      exact h3.oldestRefresh.segmentsAge
  · exact h

theorem Evolves.laneBurst {i l : Nat} {words : List Stitch} {poisoned : Bool} (h : Evolves τ true s₀ s) :
    IfAny τ true s₀ (s.laneBurst i l words poisoned) := by
  unfold State.laneBurst
  extract_lets size written data
  split
  · exact .none
  · split
    · exact .none
    · next s1 eq =>
        have h1 : Evolves τ true s₀ s1 := h.writeBurst s1 eq
        exact .some h1.add.set.overwrite

theorem Evolves.popUnit {d : Nat} (h : Evolves τ μ s₀ s) : Evolves τ μ s₀ (s.popUnit d) := h.onSkein.add.sqMark

theorem Evolves.poisonFound {d n : Nat} (h : Evolves τ μ s₀ s) : Evolves τ μ s₀ (s.poisonFound d n) :=
  .ite h h.add.logFault

theorem Evolves.discardUnit {i d : Nat} {q : QUnit} {counter poison : Nat} (h : Evolves τ μ s₀ s) :
    Evolves τ μ s₀ (s.discardUnit i d q counter poison) := by
  unfold State.discardUnit
  extract_lets s1
  have h1 : Evolves τ μ s₀ s1 := h.poisonFound.ledger
  exact h1.ledger.raiseIf.popUnit

theorem Evolves.burstFails {i lane : Nat} (h : Evolves τ μ s₀ s) : Evolves τ μ s₀ (s.burstFails i lane) :=
  h.raise.logFault.interrupt

theorem Evolves.holdBurst {d : Nat} {q : QUnit} {first : Bool} {start n : Nat} (h : Evolves τ μ s₀ s) :
    Evolves τ μ s₀ (s.holdBurst d q first start n) := h.onRcd.oldestRefresh

theorem Evolves.storeBurst {i d : Nat} {q : QUnit} {places : List Nat} {failed : Bool} (h : Evolves τ true s₀ s) :
    Evolves τ true s₀ (s.storeBurst i d q places failed) := by
  unfold State.storeBurst
  extract_lets chunk left bad poison first quality adds ends start
  split
  · exact h.burstFails
  · split
    · exact h
    · next s1 hburst =>
      extract_lets s2 s3
      have h1 : Evolves τ true s₀ s1 := h.laneBurst s1 hburst
      have h2 : Evolves τ true s₀ s2 := h1.poisonFound.raiseIf.ledger.ledger
      have h3 : Evolves τ true s₀ s3 := h2.add.holdBurst
      exact .ite h3.popUnit h3.onSkein.sqMark

theorem Evolves.skeinSlot {d : Nat} {parity : List (BitVec 12)} {failed : Bool} (h : Evolves τ true s₀ s) :
    Evolves τ true s₀ (s.skeinSlot d parity failed) := by
  unfold State.skeinSlot
  split
  · exact h
  · next q _ _ =>
    extract_lets i bad fate full s1 s2
    have h1 : Evolves τ true s₀ s1 := h.storeBurst
    have h2 : Evolves τ true s₀ s2 := .ite h1.raiseIf.set h1
    clear_value fate
    split
    · exact h.discardUnit
    · exact h.discardUnit
    · exact h.discardUnit
    · exact h2.quotaRefresh

theorem Evolves.noteOpen {i at_ : Nat} {w : Stitch} (h : Evolves τ μ s₀ s) : Evolves τ μ s₀ (s.noteOpen i at_ w) := by
  unfold State.noteOpen
  exact .ite (.ite h.set h) h

theorem Evolves.recordFills {s0 : State} {i : Nat} (h : Evolves τ μ s₀ s) :
    Evolves τ μ s₀ (State.recordFills s0 i s) := h.raiseIf

theorem Evolves.recordSlot {i : Nat} {failed : Bool} (h : Evolves τ true s₀ s) :
    Evolves τ true s₀ (s.recordSlot i failed) := by
  unfold State.recordSlot
  extract_lets times seqs words start taken
  have htaken : Evolves τ true s₀ taken :=
    h.onRcd.onSeq_of (fun _ _ ⟨hlen, others⟩ => ⟨(List.length_drop ▸ Nat.sub_le _ _).trans hlen, others⟩)
  split
  · exact h
  · split
    · exact h.burstFails
    · split
      · exact htaken.ledger
      · split
        · exact h
        · next s1 hburst =>
          have h1 : Evolves τ true s₀ s1 := htaken.laneBurst s1 hburst
          exact (h1.ledger.add.foldl (fun _ _ h => With.mk h.fst.noteOpen)).recordFills

theorem Evolves.storeRecord {i : Nat} {record : List Stitch} (h : Evolves τ true s₀ s) :
    Evolves τ true s₀ (s.storeRecord i record) := by
  unfold State.storeRecord
  extract_lets burst
  have hburst : ∀ o ws, IfAny τ true s₀ o → IfAny τ true s₀ (burst o ws) := fun _ _ ho => ho.bind (fun _ h => h.laneBurst)
  split
  · exact h.raise
  · split
    · exact h.raise
    · next s1 eq =>
      have h1 : Evolves τ true s₀ s1 := hburst _ _ (hburst _ _ (hburst _ _ (.some h))) s1 eq
      exact h1.add.add.recordFills

theorem Evolves.drainRecord {fuel i : Nat} (h : Evolves τ true s₀ s) : Evolves τ true s₀ (State.drainRecord fuel i s) := by
  induction fuel generalizing s with
  | zero => exact h
  | succ fuel ih => exact .ite h (ih h.recordSlot)

theorem Evolves.ledgerDue {i : Nat} (h : Evolves τ true s₀ s) : Evolves τ true s₀ (s.ledgerDue i) := by
  unfold State.ledgerDue
  split
  · exact h
  · extract_lets s1
    have h1 : Evolves τ true s₀ s1 := .ite h h.drainRecord
    exact h1.storeRecord.onRcd

theorem Evolves.execWriterSlot {owner : Fin 72} {findings : SlotFindings} (h : Evolves τ true s₀ s) :
    Answers τ true s₀ (execWriterSlot owner findings s) := by
  unfold Machine.execWriterSlot
  extract_lets s1
  have h1 : Evolves τ true s₀ s1 := h.onRcd
  exact Evolves.ite h (.ite h1.skeinSlot h1.recordSlot)

theorem Evolves.execLedgerRecordWrite {n : Fin 8} (h : Evolves τ true s₀ s) :
    Answers τ true s₀ (execLedgerRecordWrite n s) := h.ledgerDue

theorem Evolves.releaseTo {i l v : Nat} (h : Evolves τ μ s₀ s) : Evolves τ μ s₀ (s.releaseTo i l v) :=
  h.set.onRcd.oldestRefresh.quotaRefresh

theorem Evolves.releasedLoad {l value : Nat} (h : Evolves τ μ s₀ s) : Evolves τ μ s₀ (s.releasedLoad l value) := by
  unfold State.releasedLoad
  split
  · exact h.accessErr
  · exact .ite h (.ite h.accessErr h.releaseTo)

theorem Evolves.releasedWrite {value : Nat} (h : Evolves τ μ s₀ s) : Evolves τ μ s₀ (s.releasedWrite value) :=
  h.releasedLoad

theorem Evolves.execReleasedWrite {value : BitVec 64} (h : Evolves τ μ s₀ s) :
    Answers τ μ s₀ (execReleasedWrite value s) := h.gated (fun _ h => h.releasedWrite)

theorem Evolves.drainSkein {fuel d : Nat} (h : Evolves τ true s₀ s) : Evolves τ true s₀ (State.drainSkein fuel d s) := by
  induction fuel generalizing s with
  | zero => exact h
  | succ fuel ih => exact .ite h (ih h.skeinSlot)

theorem Evolves.leaveSession {i : Nat} (h : Evolves τ μ s₀ s) : Evolves τ μ s₀ (s.leaveSession i) :=
  (h.forEach (fun _ _ h => h.set.set)).onRcd

theorem Evolves.finishClose {i : Nat} {e : CloseReq} (h : Evolves τ true s₀ s) :
    Evolves τ true s₀ (s.finishClose i e) := by
  unfold State.finishClose
  extract_lets s1 s2
  have h1 : Evolves τ true s₀ s1 := h.storeRecord.leaveSession
  have h2 : Evolves τ true s₀ s2 := h1.set.putSess
  exact .ite h2.releasePlan.raise.onRcd h2

theorem Evolves.drainSession {i : Nat} (h : Evolves τ true s₀ s) : Evolves τ true s₀ (s.drainSession i) := by
  unfold State.drainSession
  extract_lets s1 s2
  have h1 : Evolves τ true s₀ s1 := h.forEach (fun _ _ h => h.drainSkein)
  have h2 : Evolves τ true s₀ s2 := h1.drainRecord
  exact h2.forEach (fun _ _ h => h.ledgerDue)

theorem Evolves.execSessionCloseDone {n : Fin 8} (h : Evolves τ true s₀ s) :
    Answers τ true s₀ (execSessionCloseDone n s) := by
  unfold Machine.execSessionCloseDone
  split
  · exact h
  · extract_lets s1
    have h1 : Evolves τ true s₀ s1 := h.drainSession
    exact .ite h1.finishClose h1

theorem Evolves.reserveWrite {value : Nat} (h : Evolves τ μ s₀ s) : Evolves τ μ s₀ (s.reserveWrite value) := by
  unfold State.reserveWrite
  exact .ite h.set.raise h.set.set

theorem Evolves.execAdmReserveWrite {value : DWord} (h : Evolves τ μ s₀ s) :
    Answers τ μ s₀ (execAdmReserveWrite value s) := h.gated (fun _ h => h.reserveWrite)

theorem Evolves.creditWrite {value : Nat} (h : Evolves τ μ s₀ s) : Evolves τ μ s₀ (s.creditWrite value) := by
  unfold State.creditWrite
  exact .ite h.set.raise h.onRcd

theorem Evolves.execAdmCreditWrite {value : DWord} (h : Evolves τ μ s₀ s) :
    Answers τ μ s₀ (execAdmCreditWrite value s) := h.gated (fun _ h => h.creditWrite)

theorem Evolves.creditsAt {b : Nat} (h : Evolves τ μ s₀ s) : Evolves τ μ s₀ (s.creditsAt b) := by
  unfold State.creditsAt
  exact .ite h ((h.forEach (fun _ _ h => h.set.onRcd)).creditRefresh)

theorem Evolves.planRefused {i cause item : Nat} (h : Evolves τ μ s₀ s) :
    Evolves τ μ s₀ (s.planRefused i cause item) := h.set.set.set.raise

theorem Evolves.recheckPlans (h : Evolves τ μ s₀ s) : Evolves τ μ s₀ s.recheckPlans := by
  refine h.foldl (fun p i h => .ite h ?_)
  exact .ite (.mk h.fst) (.mk h.fst.planRefused.releasePlan.raise)

theorem Evolves.execBudgetRebuild (h : Evolves τ μ s₀ s) : Answers τ μ s₀ (execBudgetRebuild s) :=
  .ite h.remap.recheckPlans.set.onRcd.raise h

theorem Evolves.holdRotation (h : Evolves τ μ s₀ s) : Evolves τ μ s₀ s.holdRotation := .ite h h.set.raise

theorem Evolves.resumeRotation (h : Evolves τ μ s₀ s) : Evolves τ μ s₀ s.resumeRotation := .ite h.set.raise h

theorem Evolves.prepareSpare {mode n : Nat} (h : Evolves τ μ s₀ s) : Evolves τ μ s₀ (s.prepareSpare mode n) := by
  unfold State.prepareSpare
  extract_lets s1
  have hfields : ∀ f ∈ [FE_THRESH_HYST, FE_THRESH_THRESH, FE_DESKEW], f.width ≤ 64 := by decide
  have h1 : Evolves τ μ s₀ s1 :=
    h.forEach (fun _ _ h => h.forEach_mem (fun f hf _ h => h.setShadow (hfields f hf)))
  exact h1.setShadow.setShadow.setShadow

theorem Evolves.spareOff (h : Evolves τ μ s₀ s) : Evolves τ μ s₀ s.spareOff := by
  unfold State.spareOff
  extract_lets oldMode oldTarget s1
  have h1 : Evolves τ μ s₀ s1 := h.set.setShadow
  exact h1.spareRole

theorem Evolves.fenceSpare {event detail : Nat} (h : Evolves τ μ s₀ s) : Evolves τ μ s₀ (s.fenceSpare event detail) := by
  unfold State.fenceSpare
  extract_lets s1 s2 s3
  have h1 : Evolves τ μ s₀ s1 := .ite h.fenceSkein (.ite h.spareOff h)
  have h2 : Evolves τ μ s₀ s2 := h1.fenceEntry.set
  have h3 : Evolves τ μ s₀ s3 := h2.set.set.fencePage.fencePage
  exact .ite h.fencedTwice h3.holdRotation.fenced

theorem Evolves.confirmFault {n event detail : Nat} (h : Evolves τ μ s₀ s) :
    Evolves τ μ s₀ (s.confirmFault n event detail) :=
  .ite h.fenceSpare (.ite h.fencedTwice (.ite h.onFlt.logFault h.fenceSkein))

theorem Evolves.takeOverAt {b : Nat} (h : Evolves τ μ s₀ s) : Evolves τ μ s₀ (s.takeOverAt b) := by
  unfold State.takeOverAt
  split
  · exact h
  · extract_lets s1 s2 s3
    have h1 : Evolves τ μ s₀ s1 := h.abandonCheck.abandonCheck.prepareSpare.stage.takeEffect
    have h2 : Evolves τ μ s₀ s2 := h1.commitStatus.fenceEntry
    have h3 : Evolves τ μ s₀ s3 := h2.set.set
    exact .ite h3.onFlt.raise.holdRotation h

theorem Evolves.endVisit {result : Nat} (h : Evolves τ μ s₀ s) : Evolves τ μ s₀ (s.endVisit result) := by
  unfold State.endVisit
  exact .ite h.onFlt h

theorem Evolves.nextVisit (h : Evolves τ μ s₀ s) : Evolves τ μ s₀ s.nextVisit := by
  unfold State.nextVisit
  split
  · exact h.holdRotation
  · extract_lets s1 s2 s4 s5 s6
    have h1 : Evolves τ μ s₀ s1 := .ite h.add h
    have h2 : Evolves τ μ s₀ s2 := h1.abandonCheck.abandonCheck.prepareSpare
    have h4 : Evolves τ μ s₀ s4 := h2.commitStage
    have h5 : Evolves τ μ s₀ s5 := h4.set.set.set
    have h6 : Evolves τ μ s₀ s6 := h5.onFlt
    exact h6.resumeRotation

theorem Evolves.visitSettings (h : Evolves τ μ s₀ s) : Evolves τ μ s₀ s.visitSettings := by
  unfold State.visitSettings
  exact .ite h.set.set.set.set h

theorem Evolves.execRotationVisit (h : Evolves τ μ s₀ s) : Answers τ μ s₀ (execRotationVisit s) :=
  .ite h.holdRotation (.ite h (.ite h.resumeRotation h.endVisit.nextVisit))

theorem Evolves.mismatch (h : Evolves τ μ s₀ s) : Evolves τ μ s₀ s.mismatch := by
  unfold State.mismatch
  extract_lets t s1
  have h1 : Evolves τ μ s₀ s1 := h.onFlt.raise
  exact .ite h1.endVisit.raise.confirmFault h1.set

theorem Evolves.execRefereeDone {spareFaulty : Bool} (h : Evolves τ μ s₀ s) :
    Answers τ μ s₀ (execRefereeDone spareFaulty s) := by
  unfold Machine.execRefereeDone
  extract_lets s1
  have h1 : Evolves τ μ s₀ s1 := h.onFlt
  exact .ite (.ite h1.endVisit.raise.fenceSpare h1.set.set.onSkein) h

theorem Evolves.execConfirmationEnd (h : Evolves τ μ s₀ s) : Answers τ μ s₀ (execConfirmationEnd s) := by
  unfold Machine.execConfirmationEnd
  exact .ite h.endVisit.logFault.set.set h

end

end Sys2Proof.Machine
end

