-- ==== Sys2Proof/Proofs/EvolvesFrame.lean ====
section
/-! PROOFS. Frames, clocks, time, wear counters and front ends keep the relation of Evolves. -/

namespace Sys2Proof.Machine

set_option Elab.async false

section
variable {τ μ : Bool} {s₀ s : State}

theorem Evolves.reduceAll {s0 : State} {verdicts : List (Nat × Nat)} {b0 b1 : Nat} (h : Evolves τ μ s₀ s) :
    Evolves τ μ s₀ (State.reduceAll s0 verdicts b0 b1 s) :=
  h.forEach (fun _ _ h => by
      extract_lets d closing good s1
      have h1 : Evolves τ μ s₀ s1 := h.sckJudge.skeinBoundary
      exact .ite h1.onSkein h1)

theorem Evolves.closeOutFaults {s0 : State} {b : Nat} (h : Evolves τ μ s₀ s) :
    Evolves τ μ s₀ (State.closeOutFaults s0 b s) :=
  (h.forEach (fun _ _ h => by
      split
      · exact .ite h.closeOut h
      · exact h)).onRcd

theorem Evolves.closeSession {i b : Nat} (h : Evolves τ μ s₀ s) : Evolves τ μ s₀ (s.closeSession i b) := by
  unfold State.closeSession
  split
  · exact h
  · extract_lets s1 s2
    have h1 : Evolves τ μ s₀ s1 := .ite h (.ite (.ite h.disarm.raise h.disarm) h.freeze.segClose)
    have h2 : Evolves τ μ s₀ s2 := h1.set
    exact .ite h h2.onRcd

theorem Evolves.commitAt {n b c : Nat} {stateBoundary : Bool} (h : Evolves τ μ s₀ s) :
    Evolves τ μ s₀ (s.commitAt n b c stateBoundary) := by
  unfold State.commitAt
  extract_lets i live s1
  have h1 : Evolves τ μ s₀ s1 := h.settleCommit
  exact h1.raiseIf

theorem Evolves.castAt {i b : Nat} (h : Evolves τ μ s₀ s) : Evolves τ μ s₀ (s.castAt i b) := by
  unfold State.castAt
  extract_lets due ds s1 s2 s3 s4
  have h1 : Evolves τ μ s₀ s1 := .ite h.endVisit.spareOff.set.set.onFlt.nextVisit h
  have h2 : Evolves τ μ s₀ s2 := (h1.forEach (fun _ _ h => h.set)).onTwn
  have h3 : Evolves τ μ s₀ s3 := h2.forEach (fun _ _ h => h.castSkein)
  have h4 : Evolves τ μ s₀ s4 := h3.set.onRcd
  exact .ite h h4.putSess.admRefresh

theorem Evolves.storageAt {i : Nat} (h : Evolves τ μ s₀ s) : Evolves τ μ s₀ (s.storageAt i) := by
  unfold State.storageAt
  extract_lets ds held above full s1 s2 stop
  have h1 : Evolves τ μ s₀ s1 := h.set.raiseIf.set
  have h2 : Evolves τ μ s₀ s2 := h1.set
  exact .ite h (.ite h1 h2.set.onRcd)

theorem Evolves.compareAt {s0 : State} {b : Nat} {differs : Bool} (h : Evolves τ μ s₀ s) :
    Evolves τ μ s₀ (State.compareAt s0 b differs s) := by
  unfold State.compareAt
  exact .ite (.ite h.compareFrame.mismatch h.compareFrame) h

theorem Evolves.spareTick {b : Nat} (h : Evolves τ μ s₀ s) : Evolves τ μ s₀ (s.spareTick b) := by
  unfold State.spareTick
  extract_lets s2
  have h2 : Evolves τ μ s₀ s2 := h.set
  exact .ite h2.set.onSkein h2

theorem Evolves.parityFault {n : Nat} (h : Evolves τ μ s₀ s) : Evolves τ μ s₀ (s.parityFault n) :=
  h.skeinCause.confirmFault

theorem Evolves.notePrev {t : Nat} (h : Evolves τ μ s₀ s) : Evolves τ μ s₀ (s.notePrev t) :=
  h.forEach (fun _ _ h => by
      exact .ite h.onPins h)

theorem Evolves.reach {b : Nat} (h : Evolves true μ s₀ s) : Evolves true μ s₀ (s.reach b) := h.atTime.raiseIf

theorem Evolves.boundary {findings : FrameFindings} (h : Evolves true μ s₀ s) :
    Evolves true μ s₀ (s.boundary findings) := by
  unfold State.boundary
  extract_lets b0 b1 s0 verdicts s1 s2 s3 s4 s5 s6 s7 s8
  have h0 : Evolves true μ s₀ s0 := h.evaluateTo.notePrev.reach.comparatorReads.creditsAt
  have h1 : Evolves true μ s₀ s1 := h0.reduceAll.closeOutFaults
  have h2 : Evolves true μ s₀ s2 := h1.forEach (fun _ _ h => h.closeSession)
  have h3 : Evolves true μ s₀ s3 := h2.compareAt
  have h4 : Evolves true μ s₀ s4 := (h3.forEach (fun _ _ h => h.commitAt)).visitSettings
  have h5 : Evolves true μ s₀ s5 := h4.takeOverAt.forEach (fun _ _ h => h.castAt)
  have h6 : Evolves true μ s₀ s6 := h5.armsAt.forEach (fun _ _ h => h.storageAt)
  have h7 : Evolves true μ s₀ s7 := h6.forEach (fun _ _ h => .ite h.parityFault h)
  have h8 : Evolves true μ s₀ s8 := h7.forEach (fun _ _ h => h.setBit)
  exact h8.spareTick.onPwr.onClk

theorem Evolves.execFrameBoundary {findings : FrameFindings} (h : Evolves true μ s₀ s) :
    Answers true μ s₀ (execFrameBoundary findings s) := .ite h.boundary h

theorem Evolves.stateCommit {n t : Nat} (h : Evolves τ μ s₀ s) : Evolves τ μ s₀ (s.stateCommit n t) := by
  unfold State.stateCommit
  exact .ite h.commitAt.onSkein h

theorem Evolves.stateFrameEnd {s0 : State} {n : Nat} {differs : Bool} (h : Evolves true μ s₀ s0) :
    Evolves true μ s₀ (s0.stateFrameEnd n differs) := by
  unfold State.stateFrameEnd
  extract_lets last s d g k u s1 s2 s3
  have h : Evolves true μ s₀ s := h.evaluateTo.onSkein
  have h1 : Evolves true μ s₀ s1 := h.produce.add
  have h2 : Evolves true μ s₀ s2 := h1.newSpan.onSkein
  have h3 : Evolves true μ s₀ s3 := .ite (.ite h2.compareFrame.mismatch h2.compareFrame) h2
  exact h3.stateCommit

theorem Evolves.stateEdge {n t : Nat} {fv : Bool} (h : Evolves true μ s₀ s) : Evolves true μ s₀ (s.stateEdge n t fv) := by
  unfold State.stateEdge
  extract_lets d inst levels s0 s1 fresh s2 s3
  have h0 : Evolves true μ s₀ s0 := h.onSkein
  have h1 : Evolves true μ s₀ s1 := .ite h0.stateFrameEnd h0
  have h2 : Evolves true μ s₀ s2 := .ite h1.stateCommit h1
  have h3 : Evolves true μ s₀ s3 := .ite h2.set.set.onSkein h2
  exact .ite h3.takeSample h0

theorem Evolves.execStateFrameBoundary {skein : Fin 65} {differs : Bool} (h : Evolves true μ s₀ s) :
    Answers true μ s₀ (execStateFrameBoundary skein differs s) := by
  unfold Machine.execStateFrameBoundary
  exact .ite h.stateFrameEnd h

theorem Evolves.lockStart (h : Evolves true μ s₀ s) : Evolves true μ s₀ s.lockStart := by
  unfold State.lockStart
  extract_lets s1
  have h1 : Evolves true μ s₀ s1 := h.set.set.set
  exact h1.onClk

theorem Evolves.lockFail (h : Evolves τ μ s₀ s) : Evolves τ μ s₀ s.lockFail := h.set.set.raise

theorem Evolves.bypassSource {ref : Bool} (h : Evolves τ μ s₀ s) : Evolves τ μ s₀ (s.bypassSource ref) := by
  unfold State.bypassSource
  extract_lets s1
  have h1 : Evolves τ μ s₀ s1 := h.set
  exact .ite h1.set h1

theorem Evolves.calStart (h : Evolves τ μ s₀ s) : Evolves τ μ s₀ s.calStart := h.set.set

theorem Evolves.dividers (h : Evolves τ μ s₀ s) : Evolves τ μ s₀ s.dividers := by
  unfold State.dividers
  extract_lets s1
  have h1 : Evolves τ μ s₀ s1 := h.set.set
  exact .ite h1.set.raise h

theorem Evolves.alarmsCatchUp (h : Evolves true μ s₀ s) : Evolves true μ s₀ s.alarmsCatchUp :=
  h.forEach (fun _ _ h => h.onClk)

theorem Evolves.reframe (h : Evolves true μ s₀ s) : Evolves true μ s₀ s.reframe := h.onClk

theorem Evolves.hbmRestarts (h : Evolves τ μ s₀ s) : Evolves τ μ s₀ s.hbmRestarts := by
  unfold State.hbmRestarts
  extract_lets s0 s1
  have h0 : Evolves τ μ s₀ s0 := h.set
  have h1 : Evolves τ μ s₀ s1 := .ite h0 h0.leaveSelfRefresh
  exact .ite h1.stackStates h1

theorem Evolves.snapsAnew (h : Evolves true μ s₀ s) : Evolves true μ s₀ s.snapsAnew := h.onClk

theorem Evolves.lockDone {micros sinceEdge : Nat} (h : Evolves true μ s₀ s) :
    Evolves true μ s₀ (s.lockDone micros sinceEdge) := by
  unfold State.lockDone
  extract_lets s1 s2 s3 s4
  have h1 : Evolves true μ s₀ s1 := h.hbmRestarts.set.set.set.set
  have h2 : Evolves true μ s₀ s2 := h1.set.set.set.raise
  have h3 : Evolves true μ s₀ s3 := .ite h2 h2.set.timeLoaded.onClk
  have h4 : Evolves true μ s₀ s4 := h3.onClk.reframe
  exact h4.snapsAnew.alarmsCatchUp.dividers.calStart

theorem Evolves.execLockStepDone {info : LockInfo} (h : Evolves true μ s₀ s) :
    Answers true μ s₀ (execLockStepDone info s) := by
  unfold Machine.execLockStepDone
  extract_lets next
  split
  · exact .ite h.set.onClk.bypassSource.set h.set.bypassSource.lockFail
  · exact .ite h.set.set h.lockFail
  · exact h.set.set
  · exact h.set.set
  · exact h.set.set
  · exact h.lockDone
  · exact h

theorem Evolves.execLockStepTimeout (h : Evolves τ μ s₀ s) : Answers τ μ s₀ (execLockStepTimeout s) := .ite h.lockFail h

theorem Evolves.execLockRetry (h : Evolves true μ s₀ s) : Answers true μ s₀ (execLockRetry s) := .ite h.lockStart h

theorem Evolves.closeStart {why : CloseWhy} (h : Evolves true μ s₀ s) : Evolves true μ s₀ (s.closeStart why) := by
  unfold State.closeStart
  extract_lets s1
  have h1 : Evolves true μ s₀ s1 := h.set.set.set
  exact h1.onClk.interruptAll

theorem Evolves.holdover {why : CloseWhy} {age word : Nat} (h : Evolves true μ s₀ s) :
    Evolves true μ s₀ (s.holdover why age word) := by
  unfold State.holdover
  extract_lets s1
  have h1 : Evolves true μ s₀ s1 := h.set.set.onClk
  exact h1.closeStart

theorem Evolves.execLockLoss {age : DWord} {word : BitVec 24} (h : Evolves true μ s₀ s) :
    Answers true μ s₀ (execLockLoss age word s) := by
  unfold Machine.execLockLoss
  extract_lets s1
  have h1 : Evolves true μ s₀ s1 := h.addSat.set.raise
  exact .ite h1.logFault.holdover.twinFault h

theorem Evolves.refLost (h : Evolves true μ s₀ s) : Evolves true μ s₀ s.refLost := by
  unfold State.refLost
  extract_lets s1 s2
  have h1 : Evolves true μ s₀ s1 := h.addSat.set.raise
  have h2 : Evolves true μ s₀ s2 := h1.set.set.logFault
  exact h2.onClk

theorem Evolves.execRefLoss {age : DWord} {word : BitVec 24} (h : Evolves true μ s₀ s) :
    Answers true μ s₀ (execRefLoss age word s) := by
  unfold Machine.execRefLoss
  extract_lets s1 s2
  have h1 : Evolves true μ s₀ s1 := h.set.onClk
  have h2 : Evolves true μ s₀ s2 := .ite h1.refLost h1
  exact .ite h (.ite h2.holdover.twinFault (.ite h2.onClk (.ite h2.bypassSource.lockFail h2.bypassSource)))

theorem Evolves.execRefReturn (h : Evolves true μ s₀ s) : Answers true μ s₀ (execRefReturn s) := by
  unfold Machine.execRefReturn
  extract_lets s1 s2
  have h1 : Evolves true μ s₀ s1 := h.set.onClk
  have h2 : Evolves true μ s₀ s2 := h1.bypassSource
  exact .ite h (.ite (.ite h2.lockStart h2) h1)

theorem Evolves.frontStops (h : Evolves τ μ s₀ s) : Evolves τ μ s₀ s.frontStops := h.forEach (fun _ _ h => h.onSkein)

theorem Evolves.toBypass (h : Evolves true true s₀ s) : Evolves true true s₀ s.toBypass := by
  unfold State.toBypass
  extract_lets s1 s2 s3
  have h1 : Evolves true true s₀ s1 := h.set.set.set.raise
  have h2 : Evolves true true s₀ s2 := h1.bypassSource.frontStops.twinStops.set
  have h3 : Evolves true true s₀ s3 := h2.onClk.snapsAnew
  split
  · exact h3.lockStart
  · exact .ite h3.lockStart h3
  · exact h3

theorem Evolves.execSelfRefreshEntered (h : Evolves true true s₀ s) :
    Answers true true s₀ (execSelfRefreshEntered s) := .ite h.enterSelfRefresh.toBypass h

theorem Evolves.closeNow (h : Evolves true true s₀ s) : Evolves true true s₀ s.closeNow := by
  unfold State.closeNow
  extract_lets s1
  have h1 : Evolves true true s₀ s1 := .ite h.boundary h
  exact h1.forEach (fun _ _ h => by
      split
      · extract_lets a
        have ha : Evolves true true s₀ a := h.forEach (fun _ _ h => h.closeOutAll)
        exact ha.drainRecord.finishClose
      · exact h)

theorem Evolves.execHoldoverLimit (h : Evolves true true s₀ s) : Answers true true s₀ (execHoldoverLimit s) :=
  .ite h.raise.closeNow.enterSelfRefresh.toBypass h

theorem Evolves.relock (h : Evolves true μ s₀ s) : Evolves true μ s₀ s.relock :=
  .ite h.accessErr (.ite h.lockStart (.ite h.closeStart (.ite h.lockStart h)))

theorem Evolves.clkCtrlWrite {value : Nat} (h : Evolves true μ s₀ s) : Evolves true μ s₀ (s.clkCtrlWrite value) := by
  unfold State.clkCtrlWrite
  extract_lets s1
  have h1 : Evolves true μ s₀ s1 := h.set.set.set
  exact .ite h1.relock h1

theorem Evolves.execRelock {value : DWord} (h : Evolves true μ s₀ s) : Answers true μ s₀ (execRelock value s) :=
  h.gated (fun _ h => h.clkCtrlWrite)

theorem Evolves.execDivApply (h : Evolves τ μ s₀ s) : Answers τ μ s₀ (execDivApply s) := h.gated (fun _ h => h.set)

theorem Evolves.execDividersApplied (h : Evolves τ μ s₀ s) : Answers τ μ s₀ (execDividersApplied s) := .ite h h.dividers

theorem Evolves.execClkQualityAboveLimit {rms peak : Byte} (h : Evolves τ μ s₀ s) :
    Answers τ μ s₀ (execClkQualityAboveLimit rms s peak) := by
  unfold Machine.execClkQualityAboveLimit
  extract_lets s1
  have h1 : Evolves τ μ s₀ s1 := h.set.set
  exact .ite trivial h1.raiseIf

theorem Evolves.alarmBuild {n : Nat} (h : Evolves true μ s₀ s) : Evolves true μ s₀ (s.alarmBuild n) := by
  unfold State.alarmBuild
  exact h.onClk

theorem Evolves.alarmsRebuild (h : Evolves true μ s₀ s) : Evolves true μ s₀ s.alarmsRebuild :=
  h.forEach (fun _ _ h => .ite h.alarmBuild h)

theorem Evolves.execAlarmFire {n : Fin 4} (h : Evolves true μ s₀ s) : Answers true μ s₀ (execAlarmFire n s) := by
  unfold Machine.execAlarmFire
  split
  · exact h
  · extract_lets s1 a s2
    have h1 : Evolves true μ s₀ s1 := h.evaluateTo
    have h2 : Evolves true μ s₀ s2 := h1.atTime.onClk
    exact .ite h2.raise h

theorem Evolves.execEraAdvance (h : Evolves true μ s₀ s) : Answers true μ s₀ (execEraAdvance s) := by
  unfold Machine.execEraAdvance
  extract_lets wrap last s1
  have h1 : Evolves true μ s₀ s1 := h.onClk
  exact .ite h1.reach h

theorem Evolves.execCalSecond (h : Evolves τ μ s₀ s) : Answers τ μ s₀ (execCalSecond s) := by
  unfold Machine.execCalSecond
  extract_lets s1
  have h1 : Evolves τ μ s₀ s1 := h.add
  exact h1.set.set

theorem Evolves.syncCtrlWrite {value : Nat} (h : Evolves true μ s₀ s) : Evolves true μ s₀ (s.syncCtrlWrite value) := by
  unfold State.syncCtrlWrite
  extract_lets mode s1 s2 from_ s3
  have h1 : Evolves true μ s₀ s1 := h.set.set
  have h2 : Evolves true μ s₀ s2 := .ite h1 h1.onClk
  have h3 : Evolves true μ s₀ s3 := .ite h2.onClk h2
  exact .ite h3.set (.ite (.ite h3.set h3.set) h3)

theorem Evolves.execSyncArm {value : DWord} (h : Evolves true μ s₀ s) : Answers true μ s₀ (execSyncArm value s) :=
  h.gated (fun _ h => h.syncCtrlWrite)

theorem Evolves.execSyncDisarm {value : DWord} (h : Evolves true μ s₀ s) :
    Answers true μ s₀ (execSyncDisarm value s) := h.gated (fun _ h => h.syncCtrlWrite)

theorem Evolves.execSyncOutPulse {value : DWord} (h : Evolves true μ s₀ s) :
    Answers true μ s₀ (execSyncOutPulse value s) := h.gated (fun _ h => h.syncCtrlWrite)

theorem Evolves.retime {old new : Nat} (h : Evolves true μ s₀ s) : Evolves true μ s₀ (s.retime old new) := by
  unfold State.retime
  extract_lets mv move1 b s1 s2 s3 s4 s5
  have h1 : Evolves true μ s₀ s1 := h.frontStops.forEach (fun _ _ h => h.onSkein)
  have h2 : Evolves true μ s₀ s2 := h1.forEach (fun _ _ h => h.onSeq)
  have h3 : Evolves true μ s₀ s3 := h2.onPins
  have h4 : Evolves true μ s₀ s4 := h3.onRcd
  have h5 : Evolves true μ s₀ s5 := h4.onFlt
  exact h5.onClk

theorem Evolves.syncEdge (h : Evolves true μ s₀ s) : Evolves true μ s₀ s.syncEdge := by
  unfold State.syncEdge
  extract_lets t new s1 s2
  have h1 : Evolves true μ s₀ s1 := h.set.add.set
  have h2 : Evolves true μ s₀ s2 := h1.set.set.raise
  exact .ite h2.timeLoaded.reframe.retime.alarmsRebuild h.set

theorem Evolves.execSyncInPulse {level : Bool} (h : Evolves true μ s₀ s) :
    Answers true μ s₀ (execSyncInPulse s level) := by
  unfold Machine.execSyncInPulse
  extract_lets active s1
  have h1 : Evolves true μ s₀ s1 := h.onClk
  exact .ite h (Evolves.ite h1.syncEdge h1)

theorem Evolves.calendarLoad {value : Nat} (h : Evolves τ μ s₀ s) : Evolves τ μ s₀ (s.calendarLoad value) := h.set.set

theorem Evolves.lifeEdit (h : Evolves τ μ s₀ s) : Evolves τ μ s₀ s.lifeEdit := h.add

theorem Evolves.execCalendarWrite {value : DWord} (h : Evolves τ μ s₀ s) :
    Answers τ μ s₀ (execCalendarWrite value s) := h.gated (fun _ h => h.calendarLoad.lifeEdit)

theorem State.wearCell_width {s : State} {counter : WearCounter} {f : Fld} (hf : s.wearCell counter = some f) :
    f.width ≤ 64 := by
  have hall : ((s.wearCell counter).all (fun f => f.width.ble 64)) = true := by
    cases counter
    case ovrCount =>
      simp only [State.wearCell]
      split <;> rfl
    all_goals rfl
  rw [hf] at hall
  exact Nat.le_of_ble_eq_true hall

theorem Evolves.execWearCounterWrite {counter : WearCounter} {value : BitVec 64} (h : Evolves τ μ s₀ s) :
    Answers τ μ s₀ (execWearCounterWrite counter value s) := by
  refine h.gated (fun s h => ?_)
  split
  · next f hf => exact (h.set (State.wearCell_width hf)).lifeEdit
  · exact h

theorem Evolves.ageSecond (h : Evolves true μ s₀ s) : Evolves true μ s₀ s.ageSecond := .ite h.onClk h.addSat.onClk

theorem Evolves.execPowerOnSecond (h : Evolves true μ s₀ s) : Answers true μ s₀ (execPowerOnSecond s) := by
  unfold Machine.execPowerOnSecond
  extract_lets s1
  have h1 : Evolves true μ s₀ s1 := h.add.add
  exact h1.ageSecond.forEach (fun _ _ h => .ite h.addSat h)

theorem Evolves.execHbmWearReport (h : Evolves τ μ s₀ s) : Answers τ μ s₀ (execHbmWearReport s) :=
  h.forEach (fun _ _ h => by
      exact h.add.onHbm)

theorem Evolves.putThermal {ext : ℤ} {dir : Nat} (h : Evolves τ μ s₀ s) : Evolves τ μ s₀ (s.putThermal ext dir) :=
  h.set.set

theorem Evolves.execThermalSample (h : Evolves τ μ s₀ s) : Answers τ μ s₀ (execThermalSample s) := by
  unfold Machine.execThermalSample
  exact .ite h.putThermal.onPwr (.ite (.ite h.putThermal (.ite h.putThermal h)) (.ite h.putThermal (.ite h.putThermal.add.raise h)))

theorem Evolves.flashFailed (h : Evolves τ μ s₀ s) : Evolves τ μ s₀ s.flashFailed := h.add.raise

/-! ### The journal -/

/-- Cells whose values have only been lowered, in place. -/
theorem risingFrom_lowered {α β : Type} {k : Nat} {m : Sparse α} (g : Nat × α → β) (h : risingFrom k m = true) :
    risingFrom k (m.foldr (fun p t => (p.1, g p) :: t) []) = true := by
  induction m generalizing k with
  | nil => rfl
  | cons p m ih =>
    obtain ⟨k', v⟩ := p
    simp only [risingFrom, Bool.and_eq_true, decide_eq_true_eq, List.foldr_cons] at h ⊢
    exact ⟨h.1, ih h.2⟩

theorem wellKept_lowered {m : Sparse Nat} {g : Nat × Nat → Nat} (h : wellKept m = true) (hg : ∀ p ∈ m, g p ≤ p.2) :
    wellKept (m.foldr (fun p t => (p.1, g p) :: t) []) = true := by
  rw [wellKept_iff] at h ⊢
  obtain ⟨hrising, hcells⟩ := h
  constructor
  · cases m with
    | nil => rfl
    | cons p m => exact risingFrom_lowered g hrising
  · clear hrising
    induction m with
    | nil => simp
    | cons p m ih =>
      intro q hq
      rcases List.mem_cons.mp hq with rfl | hq
      · exact (hg p (by simp)).trans_lt (hcells p (by simp))
      · exact ih (fun p hp => hg p (by simp [hp])) (fun p hp => hcells p (by simp [hp])) q hq

theorem Evolves.commitStart (h : Evolves τ μ s₀ s) : Evolves τ μ s₀ s.commitStart := by
  unfold State.commitStart
  extract_lets cells r
  have hr : s₀.Good → wellKept r.cells = true := fun g₀ =>
    wellKept_lowered (wellKept_filter _ (h.good g₀).1.regs) (fun p _ => by
      split
      · exact min_le_left _ _
      · exact le_refl _)
  exact (h.set.onSvc_of rfl (fun g₀ ⟨flash, _⟩ => ⟨flash, by rintro _ ⟨⟩; exact hr g₀⟩)).flashMarks

theorem Evolves.commitRequested (h : Evolves τ μ s₀ s) : Evolves τ μ s₀ s.commitRequested := .ite h.onSvc h.commitStart

theorem Evolves.execJournalPeriod (h : Evolves τ μ s₀ s) : Answers τ μ s₀ (execJournalPeriod s) := h.commitRequested

theorem Evolves.execJournalCommit (h : Evolves τ μ s₀ s) : Answers τ μ s₀ (execJournalCommit s) :=
  h.gated (fun _ h => h.commitRequested)

/-- A well-kept record put into the journal. -/
theorem Flash.Kept.putJournal {f : Flash} {r : JournalRec} (h : f.Kept) (place : Nat) (hr : wellKept r.cells = true) :
    ({ f with journal := sput f.journal place none (some r) } : Flash).Kept := by
  refine ⟨h.1, fun p hp q hq => ?_⟩
  rcases mem_sput f.journal place none (some r) p hp with rfl | hp
  · obtain rfl := Option.some.inj hq
    exact hr
  · exact h.2 p hp q hq

theorem Evolves.commitStored {r : JournalRec} (h : Evolves τ μ s₀ s) (hr : s₀.Good → wellKept r.cells = true) :
    Evolves τ μ s₀ (s.commitStored r) := by
  unfold State.commitStored
  extract_lets place s1 s2
  have h1 : Evolves τ μ s₀ s1 := (h.onFlash_of rfl (fun g₀ k => k.putJournal place (hr g₀))).set
  have h2 : Evolves τ μ s₀ s2 := h1.set.raise
  exact .ite h2.flashQueue h2

theorem Evolves.execJournalCommitDone {ok : Bool} (h : Evolves τ μ s₀ s) :
    Answers τ μ s₀ (execJournalCommitDone ok s) := by
  unfold Machine.execJournalCommitDone
  split
  · exact h
  · next r hcommit =>
    extract_lets s1 s2
    have h1 : Evolves τ μ s₀ s1 := h.set.onSvc_of rfl (fun _ ⟨flash, _⟩ => ⟨flash, by rintro _ ⟨⟩⟩)
    have hr : s₀.Good → wellKept r.cells = true := fun g₀ => (h.good g₀).1.journal.2 r hcommit
    have h2 : Evolves τ μ s₀ s2 := (Evolves.ite (h1.commitStored hr) h1.flashFailed.raise).flashMarks
    exact Evolves.ite h2.commitStart h2

theorem Evolves.calendarInvalid (h : Evolves τ μ s₀ s) : Evolves τ μ s₀ s.calendarInvalid := h.set.raiseIf

theorem Evolves.execVbatLow (h : Evolves τ μ s₀ s) : Answers τ μ s₀ (execVbatLow s) := .ite h.set.raise h

theorem Evolves.execVbatRestored (h : Evolves τ μ s₀ s) : Answers τ μ s₀ (execVbatRestored s) := h.set

theorem Evolves.execXtalStop (h : Evolves τ μ s₀ s) : Answers τ μ s₀ (execXtalStop s) :=
  .ite h.set.raise.calendarInvalid h

theorem Evolves.execProbeEdge {skein : Fin 64} {ch : Fin 16} {level : Bool} {time : Nat} (h : Evolves τ μ s₀ s) :
    Answers τ μ s₀ (execProbeEdge skein ch level time s) := by
  unfold Machine.execProbeEdge
  extract_lets s1
  have h1 : Evolves τ μ s₀ s1 := h.edgeTo
  exact Evolves.ite h1.edgeTo h1

theorem Evolves.execStateClockEdge {m : Fin 32} {rising : Bool} {time : Nat} (h : Evolves true μ s₀ s) :
    Answers true μ s₀ (execStateClockEdge m rising time s) := by
  unfold Machine.execStateClockEdge
  extract_lets t meter fv at_ s1
  have h1 : Evolves true μ s₀ s1 := h.onClk
  exact .ite (h1.forEach (fun _ _ h => by
      exact .ite h.stateEdge h)) h

theorem Evolves.execOverRange {input : ProbeInput} (h : Evolves τ μ s₀ s) : Answers τ μ s₀ (execOverRange input s) := by
  unfold Machine.execOverRange
  split
  · exact (h.forEach (fun _ _ h => h.channelOver)).ovrMarks
  · exact (h.setBit.forEach (fun _ _ h => h.feCause)).ovrMarks

theorem Evolves.execOverRangeClear {input : ProbeInput} (h : Evolves τ μ s₀ s) :
    Answers τ μ s₀ (execOverRangeClear input s) := by
  unfold Machine.execOverRangeClear
  split
  · exact (h.forEach (fun _ _ h => h.channelBack)).ovrMarks
  · exact h.setBit.ovrMarks

theorem Evolves.fullCal (h : Evolves τ μ s₀ s) : Evolves τ μ s₀ s.fullCal := .ite h.calStart h.set

theorem Evolves.execFullCal (h : Evolves τ μ s₀ s) : Answers τ μ s₀ (execFullCal s) := h.gated (fun _ h => h.fullCal)

theorem Evolves.skeinsReady (h : Evolves τ μ s₀ s) : Evolves τ μ s₀ s.skeinsReady := by
  unfold State.skeinsReady
  exact h.set.set.raiseIf

theorem Evolves.calFound {n : Nat} {f : CalFinding} (h : Evolves τ μ s₀ s) : Evolves τ μ s₀ (s.calFound n f) := by
  unfold State.calFound
  extract_lets s1 s2
  have h1 : Evolves τ μ s₀ s1 := h.set.set.set
  have h2 : Evolves τ μ s₀ s2 := h1.set.onSkein
  exact .ite h2 h2.feCause

theorem Evolves.worstResidual (h : Evolves τ μ s₀ s) : Evolves τ μ s₀ s.worstResidual := by
  unfold State.worstResidual
  exact h.set.raiseIf

theorem Evolves.calResults {results : List CalResult} (h : Evolves true μ s₀ s) :
    Evolves true μ s₀ (s.calResults results) := by
  unfold State.calResults
  extract_lets s1
  have h1 : Evolves true μ s₀ s1 := (h.forEach (fun _ _ h => h.calFound)).worstResidual
  exact h1.set.onClk

theorem Evolves.execFullCalDone {results : List CalResult} (h : Evolves true μ s₀ s) :
    Answers true μ s₀ (execFullCalDone results s) := by
  unfold Machine.execFullCalDone
  extract_lets s1 s2 s3
  have h1 : Evolves true μ s₀ s1 := h.set.set.add
  have h2 : Evolves true μ s₀ s2 := h1.calResults
  have h3 : Evolves true μ s₀ s3 := .ite h2.skeinsReady h2
  exact .ite (Evolves.ite h3.calStart h3) h

theorem Evolves.execBgCalPassDone {results : List CalResult} (h : Evolves true μ s₀ s) :
    Answers true μ s₀ (execBgCalPassDone results s) := .ite h.add.calResults h

theorem Evolves.execSelfCheckStart {skein : Fin 65} (h : Evolves τ μ s₀ s) :
    Answers τ μ s₀ (execSelfCheckStart skein s) := by
  unfold Machine.execSelfCheckStart
  extract_lets n s1
  have h1 : Evolves τ μ s₀ s1 := h.set.set.set
  exact .ite h1.onSkein h

theorem Evolves.execSelfCheckDone {stuck opened : BitVec 16} (h : Evolves τ μ s₀ s) :
    Answers τ μ s₀ (execSelfCheckDone stuck opened s) := by
  unfold Machine.execSelfCheckDone
  extract_lets n open_ fresh newStuck newOpen s1 s2 s3
  have h1 : Evolves τ μ s₀ s1 := h.set.set.set
  have h2 : Evolves τ μ s₀ s2 := h1.set.set.add
  have h3 : Evolves τ μ s₀ s3 := .ite h2 h2.feCause.logFault
  exact .ite (Evolves.ite h3 h3.feCause.confirmFault) h

end

end Sys2Proof.Machine
end

