-- ==== Sys2Proof/Proofs/EvolvesGrotto.lean ====
section
/-! PROOFS. Images in the boot flash and the grottos keep the relation of Evolves. -/

namespace Sys2Proof.Machine

set_option Elab.async false

section
variable {τ μ : Bool} {s₀ s : State}

theorem fieldsOf_width (c : PageClass) : ∀ f ∈ fieldsOf c, f.width ≤ 64 := by
  cases c <;> decide

/-- What a location shows is a field of one of the register maps. -/
theorem State.partsAt_width {s : State} {p off : Nat} {q : Part} (hq : q ∈ s.partsAt p off) : q.fld.width ≤ 64 := by
  unfold State.partsAt at hq
  split at hq
  · simp at hq
  · next c _ _ =>
    obtain ⟨f, hf, hpart⟩ := List.mem_filterMap.mp hq
    have hwidth : q.fld.width = f.width := by
      unfold State.partOf at hpart
      grind
    exact hwidth.trans_le (fieldsOf_width c f hf)

theorem Evolves.regPoke {p off value : Nat} (h : Evolves τ μ s₀ s) : Evolves τ μ s₀ (s.regPoke p off value) :=
  h.forEach_mem (fun _ hq _ h => by
    split
    · exact h.set (State.partsAt_width hq)
    · exact h.set (State.partsAt_width hq)
    · exact h.set (State.partsAt_width hq)
    · exact h)

theorem slotState_width (slot : Nat) : (slotState slot).width ≤ 64 := by
  unfold slotState
  split <;> exact Nat.le_of_ble_eq_true rfl

theorem slotFormat_width (slot : Nat) : (slotFormat slot).width ≤ 64 := by
  unfold slotFormat
  split <;> exact Nat.le_of_ble_eq_true rfl

theorem slotSvn_width (slot : Nat) : (slotSvn slot).width ≤ 64 := by
  unfold slotSvn
  split <;> exact Nat.le_of_ble_eq_true rfl

theorem slotVersion_width (slot : Nat) : (slotVersion slot).width ≤ 64 := by
  unfold slotVersion
  split <;> exact Nat.le_of_ble_eq_true rfl

theorem Evolves.slotHeader {slot : Nat} (h : Evolves τ μ s₀ s) : Evolves τ μ s₀ (s.slotHeader slot) := by
  unfold State.slotHeader
  exact ((h.set (slotFormat_width slot)).set (slotSvn_width slot)).set (slotVersion_width slot)

theorem Evolves.eraseAsked {o : Option Nat} (h : Evolves τ μ s₀ s) : Evolves τ μ s₀ (s.eraseAsked o) := by
  unfold State.eraseAsked
  split
  · exact h.flashQueue
  · exact h

theorem Evolves.selectorMarks (h : Evolves τ μ s₀ s) : Evolves τ μ s₀ s.selectorMarks := by
  unfold State.selectorMarks
  split
  · exact h
  · extract_lets s1
    have h1 : Evolves τ μ s₀ s1 := h.set.set.set
    exact h1.set.set

theorem Evolves.slotMarks (h : Evolves τ μ s₀ s) : Evolves τ μ s₀ s.slotMarks :=
  h.forEach (fun k _ h => by
      extract_lets s1
      have h1 : Evolves τ μ s₀ s1 := h.slotHeader
      have hset : ∀ v, Evolves τ μ s₀ (s1.set (slotState k) v) := fun _ => h1.set (slotState_width k)
      split
      · exact .ite (hset _) (.ite (hset _) (.ite (hset _) h1))
      · exact .ite (hset _) h1)

theorem Evolves.selectorRoom (h : Evolves τ μ s₀ s) : Evolves τ μ s₀ s.selectorRoom := by
  unfold State.selectorRoom
  split
  · exact h
  · extract_lets op s1
    have h1 : Evolves τ μ s₀ s1 := .ite h h.erasesCount
    exact h1.onSvc.onFlash.flashMarks

theorem Evolves.selectorWrite {s0 : State} {active : Nat} {trial : Bool} {left prev : Nat} (h : Evolves τ μ s₀ s0) :
    Evolves τ μ s₀ (s0.selectorWrite active trial left prev) := by
  unfold State.selectorWrite
  extract_lets s seq e w s1
  have h : Evolves τ μ s₀ s := h.selectorRoom
  have h1 : Evolves τ μ s₀ s1 := h.onFlash
  exact h1.eraseAsked.selectorMarks.slotMarks

theorem Evolves.cfgMarks (h : Evolves τ μ s₀ s) : Evolves τ μ s₀ s.cfgMarks := by
  unfold State.cfgMarks
  exact h.set.set.set

theorem Evolves.cfgAppend (h : Evolves τ μ s₀ s) : Evolves τ μ s₀ s.cfgAppend := by
  unfold State.cfgAppend
  extract_lets l r fits put
  have hput : ∀ a, Evolves τ μ s₀ (put a) := fun _ => h.onFlash
  exact .ite (hput l).cfgMarks (.ite (hput _).flashQueue.cfgMarks h)

theorem Evolves.cfgRecord (h : Evolves τ μ s₀ s) : Evolves τ μ s₀ s.cfgRecord := .ite h (.ite h.set h.cfgAppend)

theorem Evolves.execConfigRecordAppend (h : Evolves τ μ s₀ s) : Answers τ μ s₀ (execConfigRecordAppend s) :=
  .ite h (.ite (Evolves.ite h h.flashQueue) h.cfgRecord)

theorem Evolves.putWord {b word value : Nat} {bad : Bool} (h : Evolves τ true s₀ s) :
    Evolves τ true s₀ (s.putWord b word value bad) :=
  h.writeGrt (fun ⟨mem, window⟩ => ⟨canonical_sput _ _ mem, window⟩)

theorem Evolves.grottoCause {b i : Nat} (h : Evolves τ μ s₀ s) : Evolves τ μ s₀ (s.grottoCause b i) := by
  unfold State.grottoCause
  extract_lets f s1
  have hf : f.width ≤ 64 := by
    unfold f
    split <;> exact Nat.le_of_ble_eq_true rfl
  have h1 : Evolves τ μ s₀ s1 := h.set hf
  exact .ite h1.raise h1

/-- A window added to the retry round. -/
theorem FaultMgr.Kept.snoc {l : List (Nat × Nat)} {p : Nat × Nat} (h : ∀ q ∈ l, q.1 < 64) (hp : p.1 < 64) :
    ∀ q ∈ l ++ [p], q.1 < 64 := by
  intro q hq
  rcases List.mem_append.mp hq with hq | hq
  · exact h q hq
  · obtain rfl := List.mem_singleton.mp hq
    exact hp

theorem Evolves.abandonWindow {b : Nat} (h : Evolves τ μ s₀ s) : Evolves τ μ s₀ (s.abandonWindow b) := by
  unfold State.abandonWindow
  split
  · split
    · next b' w t hwindow =>
      have hclosed : Evolves τ μ s₀ (s.onGrt (fun g => { g with window := none })) := h.onGrt_of rfl (fun _ _ => by rintro _ ⟨⟩)
      refine (hclosed.onFlt_of (fun g₀ _ => ?_)).add
      have hb : b' < 64 := (h.good g₀).2.window _ hwindow
      exact FaultMgr.Kept.snoc (p := (b', w)) (h.good g₀).2.retry hb
    · exact h
  · exact h

theorem Evolves.grottoError {a : GrottoAcc} {finding : EccFinding} (h : Evolves τ true s₀ s) :
    Evolves τ true s₀ (s.grottoError a finding) := by
  unfold State.grottoError
  extract_lets event detail
  split
  · exact h
  · exact h.add.grottoCause.logMasked
  · next s1 s2 _ =>
      have h1 : Evolves τ true s₀ s1 := .ite h h.putWord.drew
      have h2 : Evolves τ true s₀ s2 := h1.add.set.grottoCause.logFault
      split
      · exact .ite h2.add.onSeq h2
      · exact h2.set
      · exact h2

theorem Evolves.noteAccess {delivered : Nat} {marked denied : Bool} (h : Evolves τ μ s₀ s) :
    Evolves τ μ s₀ (s.noteAccess delivered marked denied) := h.onGrt

theorem Evolves.grottoCarry {a : GrottoAcc} (h : Evolves τ true s₀ s) : Evolves τ true s₀ (s.grottoCarry a) := by
  unfold State.grottoCarry
  extract_lets finding s1 bad
  have h1 : Evolves τ true s₀ s1 := h.grottoError
  exact .ite h.putWord.noteAccess (.ite h1.noteAccess (.ite h1.noteAccess h1.putWord.noteAccess))

theorem Evolves.grottoServe {a : GrottoAcc} (h : Evolves τ true s₀ s) : Evolves τ true s₀ (s.grottoServe a) := by
  unfold State.grottoServe
  extract_lets s1 s2
  have h1 : Evolves τ true s₀ s1 := h.abandonWindow.onGrt
  have h2 : Evolves τ true s₀ s2 := h1.add.grottoCause.noteAccess
  exact .ite h.noteAccess (.ite h1.grottoCarry (.ite h2.set h2))

theorem Evolves.windowReturns {at_ len : Nat} (h : Evolves τ μ s₀ s) : Evolves τ μ s₀ (s.windowReturns at_ len) := by
  unfold State.windowReturns
  extract_lets v base
  have hbase : Evolves τ μ s₀ base := h.set.onLink
  exact hbase.rest

theorem Evolves.grottoAnswer {a : GrottoAcc} (h : Evolves τ true s₀ s) : Evolves τ true s₀ (s.grottoAnswer a) := by
  unfold State.grottoAnswer
  split
  · exact h.grottoServe.windowReturns
  · exact h.grottoServe

theorem Evolves.grottoArrive {a : GrottoAcc} (h : Evolves τ true s₀ s) : Evolves τ true s₀ (s.grottoArrive a) :=
  .ite h.onGrt h.grottoAnswer

theorem Evolves.serveInTurn {n : Nat} {waiting : List GrottoAcc} (h : Evolves τ true s₀ s) :
    Evolves τ true s₀ (State.serveInTurn n waiting s) := by
  induction n generalizing waiting s with
  | zero => exact h
  | succ n ih =>
    unfold State.serveInTurn
    split
    · exact h
    · extract_lets rest cycles s1
      have h1 : Evolves τ true s₀ s1 := .ite h h.add
      exact ih h1.grottoAnswer

theorem Evolves.serveWaiting {b : Nat} (h : Evolves τ true s₀ s) : Evolves τ true s₀ (s.serveWaiting b) := by
  unfold State.serveWaiting
  exact h.onGrt.serveInTurn

theorem Evolves.zeroGrotto {b : Nat} (h : Evolves τ true s₀ s) : Evolves τ true s₀ (s.zeroGrotto b) :=
  h.writeGrt (fun ⟨mem, window⟩ => ⟨canonical_filter _ mem, window⟩)

theorem Evolves.grottosFilled (h : Evolves τ true s₀ s) : Evolves τ true s₀ s.grottosFilled := by
  unfold State.grottosFilled
  extract_lets s1
  have h1 : Evolves τ true s₀ s1 := h.forEach (fun _ _ h => .ite h h.zeroGrotto)
  exact h1.set.set.forEach (fun _ _ h => h.serveWaiting)

theorem Evolves.execGrottoAccess {port : GrottoPort} {b : Fin 64} {word : BitVec 17} {op : GrottoOp} {enables : Byte} {data : BitVec 64} {finding : EccFinding} {stalls : Byte}
    (h : Evolves τ true s₀ s) :
    Answers τ true s₀ (execGrottoAccess port b word op enables data finding s stalls) := by
  unfold Machine.execGrottoAccess
  extract_lets s1
  have h1 : Evolves τ true s₀ s1 := h.add
  exact h1.grottoArrive

theorem Evolves.handOver {b owner guest : Nat} {clear noBorrow : Bool} (h : Evolves τ μ s₀ s) :
    Evolves τ μ s₀ (s.handOver b owner guest clear noBorrow) := by
  unfold State.handOver
  extract_lets guest old s1 s2
  have h1 : Evolves τ μ s₀ s1 := h.set
  have h2 : Evolves τ μ s₀ s2 := h1.abandonWindow.set.set
  exact .ite h1 (.ite h h2.set.set.onGrt)

theorem Evolves.ownerWrite {b value : Nat} (h : Evolves τ μ s₀ s) : Evolves τ μ s₀ (s.ownerWrite b value) := by
  unfold State.ownerWrite
  exact .ite h.set.grottoCause.accessErr h.handOver

theorem Evolves.execGrottoHandover {b : Fin 64} {value : DWord} (h : Evolves τ μ s₀ s) :
    Answers τ μ s₀ (execGrottoHandover b value s) := h.gated (fun _ h => h.ownerWrite)

theorem Evolves.execHandoverComplete {b : Fin 64} (h : Evolves τ μ s₀ s) : Answers τ μ s₀ (execHandoverComplete b s) :=
  .ite h h.set.onGrt

theorem Evolves.execGrottoFillDone {b : Fin 64} (h : Evolves τ true s₀ s) :
    Answers τ true s₀ (execGrottoFillDone b s) := by
  unfold Machine.execGrottoFillDone
  extract_lets f s1
  have h1 : Evolves τ true s₀ s1 := h.zeroGrotto.onGrt
  exact .ite h h1.set.serveWaiting

theorem Evolves.windowAccess {op : GrottoOp} {data : BitVec 64} {finding : EccFinding} {reply : Option (Nat × Nat)}
    (h : Evolves τ true s₀ s) :
    Evolves τ true s₀ (s.windowAccess op data finding reply) := by
  unfold State.windowAccess
  extract_lets a s1
  have h1 : Evolves τ true s₀ s1 := h.grottoArrive
  exact .ite h1.set h1

theorem Evolves.windowRead {finding : EccFinding} {at_ len : Nat} (h : Evolves τ true s₀ s) :
    Evolves τ true s₀ (s.windowRead finding at_ len) := .ite h (.ite h.onLink h.onLink.windowAccess)

theorem Evolves.execHostWindowRead {finding : EccFinding} (h : Evolves τ true s₀ s) :
    Answers τ true s₀ (execHostWindowRead finding s) := h.windowRead

theorem Evolves.windowWrite {data : BitVec 64} (h : Evolves τ true s₀ s) : Evolves τ true s₀ (s.windowWrite data) := by
  unfold State.windowWrite
  exact h.set.windowAccess

theorem Evolves.execHostWindowWrite {data : BitVec 64} (h : Evolves τ true s₀ s) :
    Answers τ true s₀ (execHostWindowWrite data s) := h.gated (fun _ h => h.windowWrite)

end

end Sys2Proof.Machine
end

