-- ==== Sys2Proof/Proofs/EvolvesDma.lean ====
section
/-! PROOFS. The offload engine keeps the relation of Evolves. -/

namespace Sys2Proof.Machine

set_option Elab.async false

section
variable {τ μ : Bool} {s₀ s : State}

theorem Evolves.onChan {n : Nat} {f : DmaCh → DmaCh} (h : Evolves τ μ s₀ s) : Evolves τ μ s₀ (s.onChan n f) := h.rest

theorem Evolves.onFlow {u : Nat} {f : FlowStream → FlowStream} (h : Evolves τ μ s₀ s) :
    Evolves τ μ s₀ (s.onFlow u f) := h.rest

theorem Evolves.hostWrite {addr : Nat} {data : List Byte} {poisoned relaxed noSnoop : Bool} (h : Evolves τ μ s₀ s) :
    Evolves τ μ s₀ (s.hostWrite addr data poisoned relaxed noSnoop) := h.onLink

theorem Evolves.dmaCause {n i : Nat} (h : Evolves τ μ s₀ s) : Evolves τ μ s₀ (s.dmaCause n i) := by
  unfold State.dmaCause
  extract_lets f s1
  have hf : f.width ≤ 64 := by
    unfold f
    split <;> exact Nat.le_of_ble_eq_true rfl
  have h1 : Evolves τ μ s₀ s1 := h.set hf
  exact .ite h1.raise h1

theorem Evolves.holdMarks {u n : Nat} {held : Bool} (h : Evolves τ μ s₀ s) : Evolves τ μ s₀ (s.holdMarks u n held) :=
  .ite h.set.set.setBit h.set.set.setBit

theorem Evolves.takeUnit {n u : Nat} (h : Evolves τ μ s₀ s) : Evolves τ μ s₀ (s.takeUnit n u) :=
  .ite h.onChan.holdMarks.onFlow.set h.onChan.holdMarks.onFlow

theorem Evolves.freeUnit {n : Nat} {whole : Bool} (h : Evolves τ μ s₀ s) : Evolves τ μ s₀ (s.freeUnit n whole) := by
  unfold State.freeUnit
  split
  · exact h
  · extract_lets s1
    have h1 : Evolves τ μ s₀ s1 := h.onChan.holdMarks.onFlow
    exact .ite h1 (.ite h1.add h1.add.raise)

theorem Evolves.dmaPosition {n : Nat} (h : Evolves τ μ s₀ s) : Evolves τ μ s₀ (s.dmaPosition n) := by
  unfold State.dmaPosition
  exact h.set.set.set.set

theorem Evolves.consumed {n k : Nat} (h : Evolves τ μ s₀ s) : Evolves τ μ s₀ (s.consumed n k) :=
  h.onChan.add.add.dmaPosition

theorem Evolves.feedEnds {n why : Nat} (h : Evolves τ μ s₀ s) : Evolves τ μ s₀ (s.feedEnds n why) :=
  h.forEach (fun _ _ h => .ite h.onSeq h)

theorem Evolves.dmaStop {n state result errCause : Nat} (h : Evolves τ μ s₀ s) :
    Evolves τ μ s₀ (s.dmaStop n state result errCause) := by
  unfold State.dmaStop
  extract_lets s1 s2 s3
  have h1 : Evolves τ μ s₀ s1 := h.freeUnit.set.set.set
  have h2 : Evolves τ μ s₀ s2 := h1.onChan
  have h3 : Evolves τ μ s₀ s3 := h2.dmaCause
  exact h3.feedEnds

theorem Evolves.dmaError {n cause : Nat} (h : Evolves τ μ s₀ s) : Evolves τ μ s₀ (s.dmaError n cause) := h.dmaStop

theorem Evolves.dmaAbort {n : Nat} (h : Evolves τ μ s₀ s) : Evolves τ μ s₀ (s.dmaAbort n) :=
  .ite h (.ite h.dmaStop h.onChan)

theorem Evolves.scrambleHbm {a : Nat} (h : Evolves τ true s₀ s) : Evolves τ true s₀ (s.scrambleHbm a) := by
  unfold State.scrambleHbm
  split
  · exact (h.issueAll.writeHbm (fun ⟨mem, marks⟩ => ⟨canonical_putBytes _ _ mem, marks⟩)).drew
  · exact h

theorem Evolves.scramble64 {d : List Nat} {a : Nat} (h : Evolves τ true s₀ s) : Evolves τ true s₀ (s.scramble64 d a) := by
  unfold State.scramble64
  split
  · exact .ite h h.scrambleHbm
  · split
    · exact .ite h (h.forEach (fun _ _ h => h.putWord.drew))
    · exact h
  · exact h

theorem Evolves.scrambleDst {n : Nat} (h : Evolves τ true s₀ s) : Evolves τ true s₀ (s.scrambleDst n) := by
  unfold State.scrambleDst
  exact h.forEach (fun _ _ h => h.forEach (fun _ _ h => h.scramble64))

theorem Evolves.openReg {f : Fld} (h : Evolves τ μ s₀ s) (hf : f.width ≤ 64) : Evolves τ μ s₀ (s.openReg f) :=
  (h.set hf).drew

theorem Evolves.dmaKill {n : Nat} (h : Evolves τ true s₀ s) : Evolves τ true s₀ (s.dmaKill n) := by
  unfold State.dmaKill
  extract_lets s2
  have hfields : ∀ f ∈ [DMA_CUR, DMA_POS0, DMA_POS1, DMA_POS2, DMA_ELEM_OFF, DMA_IN_BYTES, DMA_OUT_BYTES, DMA_TOTAL_BYTES,
      DMA_DESCS, DMA_KICKS, DMA_UE, DMA_LAST_UE], f.width ≤ 64 := by decide
  have h2 : Evolves τ true s₀ s2 := h.scrambleDst.forEach_mem (fun f hf _ h => h.openReg (hfields f hf))
  exact .ite h h2.set.dmaStop.onChan

theorem Evolves.fetchFrom {n cur : Nat} (h : Evolves τ μ s₀ s) : Evolves τ μ s₀ (s.fetchFrom n cur) := h.set.onChan

theorem Evolves.dmaStart {n : Nat} (h : Evolves τ μ s₀ s) : Evolves τ μ s₀ (s.dmaStart n) := by
  unfold State.dmaStart
  split
  · exact h.accessErr
  · exact h
  · extract_lets s1
    have h1 : Evolves τ μ s₀ s1 := h.setEach
    exact h1.set.onChan.fetchFrom

theorem Evolves.dmaCtrlWrite {n value : Nat} (h : Evolves τ true s₀ s) : Evolves τ true s₀ (s.dmaCtrlWrite n value) := by
  unfold State.dmaCtrlWrite
  extract_lets s1 s2
  have h1 : Evolves τ true s₀ s1 := h.set.set
  have h2 : Evolves τ true s₀ s2 := .ite h1.dmaAbort h1
  exact .ite h1.dmaKill (.ite h1.set (.ite h2.dmaStart h2))

theorem Evolves.chainKick {n : Nat} (h : Evolves τ μ s₀ s) : Evolves τ μ s₀ (s.chainKick n) := by
  unfold State.chainKick
  extract_lets s1
  have h1 : Evolves τ μ s₀ s1 := h.add
  split
  · exact h1
  · split
    · exact h1.set
    · exact h1.set.set.onChan
    · exact h1

theorem Evolves.dmaHbmRead {a : Nat} {finding : EccFinding} (h : Evolves τ true s₀ s) :
    With τ true s₀ (s.dmaHbmRead a finding) := by
  unfold State.dmaHbmRead
  split
  · exact .mk h
  · extract_lets s1
    have h1 : Evolves τ true s₀ s1 := h.wakePc.eccRead
    exact .ite (.mk h) (.mk h1)

theorem Evolves.readReleases {a : Nat} (h : Evolves τ μ s₀ s) : Evolves τ μ s₀ (s.readReleases a) :=
  h.forEach (fun _ _ h => by
      split
      · exact h
      · exact .ite h.releaseTo h)

theorem Evolves.dmaGrottoRead {port : GrottoPort} {a : Nat} {findings : List EccFinding} (h : Evolves τ true s₀ s) :
    With τ true s₀ (s.dmaGrottoRead port a findings) := by
  unfold State.dmaGrottoRead
  split
  · exact .mk h
  · exact h.foldl (fun _ _ h => .mk h.fst.grottoServe)

theorem Evolves.dmaRead64 {d : List Nat} {a : Nat} {findings : List EccFinding} (h : Evolves τ true s₀ s) :
    With τ true s₀ (s.dmaRead64 d a findings) := by
  unfold State.dmaRead64
  split
  · extract_lets r
    have hr : With τ true s₀ r := h.dmaHbmRead
    exact .mk hr.fst
  · exact h.dmaGrottoRead

theorem Evolves.dmaReadRun {d : List Nat} {k a : Nat} {findings : List EccFinding} (h : Evolves τ true s₀ s) :
    With τ true s₀ (State.dmaReadRun d k a findings s) := by
  induction k generalizing a findings s with
  | zero => exact .mk h
  | succ k ih => exact .mk (ih h.dmaRead64.fst).fst

theorem Evolves.dmaGrottoWrite {port : GrottoPort} {a : Nat} {data : List Byte} {marked : Bool} (h : Evolves τ true s₀ s) :
    With τ true s₀ (s.dmaGrottoWrite port a data marked) := by
  refine h.foldl (fun _ _ h => ?_)
  split
  · exact h
  · exact .mk (.ite h.fst.grottoServe.putWord h.fst.grottoServe)

theorem Evolves.dmaHbmWrite {a : Nat} {data : List Byte} {mark : Nat} (h : Evolves τ true s₀ s) :
    Evolves τ true s₀ (s.dmaHbmWrite a data mark) := h.forEach (fun _ _ h => h.writeBurst.getD h)

theorem Evolves.replayInput {q : Nat} {data : List Byte} (h : Evolves τ μ s₀ s) :
    Evolves τ μ s₀ (s.replayInput q data) := h.onSeq

theorem Evolves.dmaWrite {d : List Nat} {a : Nat} {data : List Byte} {marked : Bool} (h : Evolves τ true s₀ s) :
    With τ true s₀ (s.dmaWrite d a data marked) := by
  unfold State.dmaWrite
  split
  · exact .mk h.dmaHbmWrite
  · exact h.dmaGrottoWrite
  · exact .mk h.hostWrite
  · exact .mk h.replayInput

theorem Evolves.chainWord {a : Nat} {finding : EccFinding} (h : Evolves τ true s₀ s) :
    With τ true s₀ (s.chainWord a finding) := by
  unfold State.chainWord
  split
  · exact .mk h
  · extract_lets s1
    have h1 : Evolves τ true s₀ s1 := h.grottoServe
    exact .mk h1

theorem Evolves.chainDesc {a : Nat} {findings : List EccFinding} (h : Evolves τ true s₀ s) :
    With τ true s₀ (s.chainDesc a findings) := h.foldl (fun _ _ h => .mk h.fst.chainWord.fst)

theorem Evolves.writeBack {n : Nat} (h : Evolves τ true s₀ s) : With τ true s₀ (s.writeBack n) := by
  unfold State.writeBack
  exact .ite (.mk h.hostWrite) h.dmaGrottoWrite

theorem Evolves.descDone {n : Nat} (h : Evolves τ true s₀ s) : Evolves τ true s₀ (s.descDone n) := by
  unfold State.descDone
  extract_lets d s0 r s1 s2
  have h0 : Evolves τ true s₀ s0 := h.freeUnit
  have hr : With τ true s₀ r := .ite h0.writeBack (.mk h0)
  have h1 : Evolves τ true s₀ s1 := hr.fst.add
  have h2 : Evolves τ true s₀ s2 := .ite h1.dmaCause h1
  exact .ite hr.fst.dmaError h2.onChan

theorem Evolves.dmaSettle {n : Nat} (h : Evolves τ true s₀ s) : Evolves τ true s₀ (s.dmaSettle n) :=
  .ite h (.ite h.dmaStop (.ite h.dmaError (.ite h.dmaError (.ite h.descDone h))))

theorem Evolves.linkRead {n word : Nat} (h : Evolves τ μ s₀ s) : Evolves τ μ s₀ (s.linkRead n word) :=
  .ite h.fetchFrom (.ite h.set h.dmaStop)

end

end Sys2Proof.Machine
end

