-- ==== Sys2Proof/Proofs/EvolvesReplay.lean ====
section
/-! PROOFS. Replay keeps the relation of Evolves. -/

namespace Sys2Proof.Machine

set_option Elab.async false

section
variable {τ μ : Bool} {s₀ s : State}

theorem Evolves.outFlush {n : Nat} {last : Bool} (h : Evolves τ true s₀ s) : Evolves τ true s₀ (s.outFlush n last) := by
  unfold State.outFlush
  extract_lets q data a s1
  have h1 : Evolves τ true s₀ s1 := by
    unfold s1
    split
    · exact h.dmaHbmWrite
    · exact h.dmaGrottoWrite.fst
    · exact h.hostWrite
  exact .ite h h1.onSeq

theorem Evolves.outPut {n : Nat} {words : List Stitch} (h : Evolves τ true s₀ s) :
    IfAny τ true s₀ (s.outPut n words) := by
  unfold State.outPut
  exact .ite .none (.some h.onSeq.outFlush)

theorem Evolves.outputStops {n : Nat} (h : Evolves τ μ s₀ s) : Evolves τ μ s₀ (s.outputStops n) := by
  unfold State.outputStops
  extract_lets s1
  have h1 : Evolves τ μ s₀ s1 := h.onSeq
  exact h1.dmaAbort

theorem Evolves.outOrStop {n : Nat} {words : List Stitch} (h : Evolves τ true s₀ s) :
    Evolves τ true s₀ (s.outOrStop n words) := by
  unfold State.outOrStop
  split
  · exact h
  · split
    · next s1 eq =>
        have h1 : Evolves τ true s₀ s1 := h.outPut s1 eq
        exact h1
    · exact h.outputStops

theorem Evolves.outStitches {n : Nat} (h : Evolves τ true s₀ s) : Evolves τ true s₀ (s.outStitches n) := by
  have hempty : Evolves τ true s₀ (s.onSeq n (fun q => { q with stitches := [] })) :=
    h.onSeq_of (fun _ _ ⟨_, others⟩ => ⟨Nat.zero_le _, others⟩)
  exact hempty.forEach (fun _ _ h => h.outOrStop)

theorem Evolves.preKeep {n frame : Nat} {words : List Stitch} (h : Evolves τ μ s₀ s) :
    Evolves τ μ s₀ (s.preKeep n frame words) := by
  unfold State.preKeep
  exact h.onSeq.add

theorem Evolves.settleUnit {n : Nat} {u : PlayUnit} (h : Evolves τ true s₀ s) : Evolves τ true s₀ (s.settleUnit n u) := by
  unfold State.settleUnit
  extract_lets frame pre before s1
  have h1 : Evolves τ true s₀ s1 := h.onSeq
  exact .ite h (.ite ((h1.forEach (fun _ _ h => h.outOrStop)).outOrStop) (.ite h.outOrStop h.preKeep))

theorem Evolves.settlePast {n : Nat} {all : Bool} (h : Evolves τ true s₀ s) : Evolves τ true s₀ (s.settlePast n all) := by
  unfold State.settlePast
  extract_lets q gone past s1
  have h1 : Evolves τ true s₀ s1 := h.onSeq
  exact h1.forEach (fun _ _ h => h.settleUnit)

theorem Evolves.replaySamples {n fuel b : Nat} (h : Evolves τ true s₀ s) :
    Evolves τ true s₀ (State.replaySamples n fuel b s) := by
  induction fuel generalizing s with
  | zero => exact h
  | succ fuel ih =>
    have hgate : Evolves τ true s₀ (if s.is (TRG_STATUS_GATE.of n) then s.onSeq n (·.noteGate (s.seq n).playAt) else s) :=
      .ite h.onSeq h
    exact .ite (ih hgate.sampleStep.onSeq.outStitches) h

theorem Evolves.replayTo {n b : Nat} (h : Evolves τ true s₀ s) : Evolves τ true s₀ (s.replayTo n b) := by
  unfold State.replayTo
  extract_lets s1 s2
  have h1 : Evolves τ true s₀ s1 := h.replaySamples
  have h2 : Evolves τ true s₀ s2 := h1.onSeq.settlePast
  exact h2.set

theorem Evolves.grottoBack {n : Nat} (h : Evolves τ μ s₀ s) : Evolves τ μ s₀ (s.grottoBack n) := by
  unfold State.grottoBack
  split
  · exact h.handOver.onSeq_of (fun _ _ ⟨hlen, _, hchannel⟩ => ⟨hlen, by rintro _ ⟨⟩, hchannel⟩)
  · exact h

theorem Evolves.replayEnd {n : Nat} (h : Evolves τ true s₀ s) : Evolves τ true s₀ (s.replayEnd n) := by
  unfold State.replayEnd
  extract_lets why last s1 s2 absent s2a s3
  have h1 : Evolves τ true s₀ s1 := h.replayTo.settlePast.outFlush
  have h2 : Evolves τ true s₀ s2 := h1.set.set
  have hs2a : Evolves τ true s₀ s2a := .ite h2.armRefused h2
  have h3 : Evolves τ true s₀ s3 := hs2a.set.grottoBack
  exact (h3.onSeq_of (fun _ _ ⟨hlen, hlender, _⟩ => ⟨hlen, hlender, Nat.zero_le _⟩)).raise.powerFollow

theorem Evolves.replayCheck {n : Nat} (h : Evolves τ true s₀ s) : Evolves τ true s₀ (s.replayCheck n) := by
  unfold State.replayCheck
  exact .ite h.replayEnd h

theorem Evolves.replayChecks (h : Evolves τ true s₀ s) : Evolves τ true s₀ s.replayChecks :=
  h.forEach (fun _ _ h => h.replayCheck)

theorem Evolves.replayRefuse {n : Nat} (h : Evolves τ true s₀ s) : Evolves τ true s₀ (s.replayRefuse n) := by
  unfold State.replayRefuse
  extract_lets s1
  have h1 : Evolves τ true s₀ s1 := h.armRefused.onSeq
  exact h1.dmaAbort.replayEnd

theorem Evolves.present {n : Nat} {words : List Stitch} {limit : Nat} (h : Evolves τ true s₀ s) :
    Evolves τ true s₀ (s.present n words limit) := by
  unfold State.present
  extract_lets o start s1 q levels u ended names wrong before gap fresh base u1 s2 s3
  have h1 : Evolves τ true s₀ s1 := .ite h.replayTo h.onSeq
  have h2 : Evolves τ true s₀ s2 := h1.onSeq
  have h3 : Evolves τ true s₀ s3 := .ite h2.set h2
  exact .ite h1.replayRefuse h3.add

theorem Seq.addTrailer_eq (q : Seq) (w : Stitch) : ∃ held, q.addTrailer w = { q with playHeld := held } := by
  unfold Seq.addTrailer
  split
  · exact ⟨_, rfl⟩
  · exact ⟨q.playHeld, rfl⟩

theorem Seq.InRange.addTrailer {q : Seq} {w : Stitch} {l : List Stitch} (h : q.InRange) :
    ({ q.addTrailer w with playIn := l } : Seq).InRange := by
  obtain ⟨held, hq⟩ := q.addTrailer_eq w
  rw [hq]
  exact h

theorem Evolves.nextUnit {n fuel : Nat} (h : Evolves τ true s₀ s) : Evolves τ true s₀ (State.nextUnit n fuel s) := by
  induction fuel generalizing s with
  | zero => exact h
  | succ fuel ih =>
    unfold State.nextUnit
    split
    · exact h
    · exact ih h.onSeq
    · exact ih (h.onSeq_of (fun _ _ hq => hq.addTrailer))
    · split
      · exact h.onSeq.present
      · exact h

theorem Evolves.execReplayUnit {n : Fin 8} (h : Evolves τ true s₀ s) : Answers τ true s₀ (execReplayUnit n s) :=
  .ite h.nextUnit.replayCheck h

end

end Sys2Proof.Machine
end

