-- ==== Sys2Proof/Proofs/EvolvesOffload.lean ====
section
/-! PROOFS. Bursts, descriptors and Flowstone units keep the relation of Evolves. -/

namespace Sys2Proof.Machine

set_option Elab.async false

section
variable {τ μ : Bool} {s₀ s : State}

theorem Evolves.dmaCtrlHost {n value : Nat} (h : Evolves τ true s₀ s) : Evolves τ true s₀ (s.dmaCtrlHost n value) :=
  h.gated (fun _ h => h.dmaCtrlWrite.replayChecks)

theorem Evolves.execDmaStart {n : Fin 64} {value : DWord} (h : Evolves τ true s₀ s) :
    Answers τ true s₀ (execDmaStart n value s) := h.dmaCtrlHost

theorem Evolves.execDmaAbort {n : Fin 64} {value : DWord} (h : Evolves τ true s₀ s) :
    Answers τ true s₀ (execDmaAbort n value s) := h.dmaCtrlHost

theorem Evolves.execDmaKill {n : Fin 64} {value : DWord} (h : Evolves τ true s₀ s) :
    Answers τ true s₀ (execDmaKill n value s) := h.dmaCtrlHost

theorem Evolves.execDmaEnable {n : Fin 64} {value : DWord} (h : Evolves τ true s₀ s) :
    Answers τ true s₀ (execDmaEnable n value s) := h.dmaCtrlHost

theorem Evolves.dmaGlobalWrite {value : Nat} (h : Evolves τ true s₀ s) : Evolves τ true s₀ (s.dmaGlobalWrite value) := by
  unfold State.dmaGlobalWrite
  extract_lets s1
  have h1 : Evolves τ true s₀ s1 := h.set.set
  exact .ite ((h1.forEach (fun _ _ h => h.dmaAbort)).replayChecks) h1

theorem Evolves.execDmaAbortAll {value : DWord} (h : Evolves τ true s₀ s) :
    Answers τ true s₀ (execDmaAbortAll value s) := h.gated (fun _ h => h.dmaGlobalWrite)

theorem Evolves.execChainKick {n : Fin 64} {value : DWord} (h : Evolves τ μ s₀ s) :
    Answers τ μ s₀ (execChainKick n value s) := h.gated (fun _ h => h.chainKick)

theorem Evolves.grantBurst {n l : Nat} {b : DmaBurst} (h : Evolves τ μ s₀ s) : Evolves τ μ s₀ (s.grantBurst n l b) := by
  unfold State.grantBurst
  extract_lets d s1 s2 s3
  have h1 : Evolves τ μ s₀ s1 := by
    unfold s1
    split
    · exact .ite h h.takeUnit
    · exact h
  have h2 : Evolves τ μ s₀ s2 := h1.onChan
  have h3 : Evolves τ μ s₀ s3 := by
    unfold s3
    split
    · exact .ite h2.onFlow h2
    · exact h2
  exact h3.rest.add.add

/-- The grant's effect, said of the state that it answers: `Answers` of it would have Lean run the arbiter. -/
theorem Evolves.execDmaGrant {t : State} (h : Evolves τ true s₀ s) (ht : execDmaGrant s = .next t) : Evolves τ true s₀ t := by
  unfold Machine.execDmaGrant at ht
  have h1 : Evolves τ true s₀ (Machine.forEach (upto 64) s (fun n s => s.dmaSettle n)).replayChecks :=
    (h.forEach (fun _ _ h => h.dmaSettle)).replayChecks
  generalize (Machine.forEach (upto 64) s (fun n s => s.dmaSettle n)).replayChecks = s1 at ht h1
  dsimp only at ht
  split at ht
  · obtain rfl := Host.Outcome.next.inj ht
    exact h1
  · split at ht
    · obtain rfl := Host.Outcome.next.inj ht
      exact h1
    · obtain rfl := Host.Outcome.next.inj ht
      exact Evolves.ite h1.grantBurst h1.dmaError.replayChecks

theorem Evolves.descArrives {n : Nat} {desc : Option (List Nat)} (h : Evolves τ μ s₀ s) :
    Evolves τ μ s₀ (s.descArrives n desc) := by
  unfold State.descArrives
  split
  · exact h.dmaError
  · exact .ite h.dmaError (.ite h.dmaError h.set.set.onChan.dmaPosition)

theorem Evolves.execDescriptorFetch {n : Fin 64} {words : List (BitVec 32)} {findings : List EccFinding}
    (h : Evolves τ true s₀ s) :
    Answers τ true s₀ (execDescriptorFetch n words s findings) := by
  unfold Machine.execDescriptorFetch
  extract_lets cur r
  have hr : With τ true s₀ r := h.chainDesc
  exact .ite (.ite h.descArrives.replayChecks hr.fst.descArrives.replayChecks) h

theorem Evolves.execLinkReadReturn {n : Fin 64} {word : BitVec 64} {error : Bool} {finding : EccFinding}
    (h : Evolves τ true s₀ s) :
    Answers τ true s₀ (execLinkReadReturn n word s error finding) := by
  unfold Machine.execLinkReadReturn
  extract_lets cur r
  have hr : With τ true s₀ r := h.chainWord
  split
  · split
    · exact (Evolves.ite h.dmaError h.linkRead).replayChecks
    · split
      · exact hr.fst.linkRead.replayChecks
      · exact hr.fst.dmaError.replayChecks
  · exact h

theorem Evolves.dmaMarked {n : Nat} {b : DmaBurst} (h : Evolves τ μ s₀ s) : Evolves τ μ s₀ (s.dmaMarked n b) :=
  h.add.set.dmaCause

theorem Evolves.moved {n : Nat} {b : DmaBurst} {data : List Byte} (h : Evolves τ μ s₀ s) :
    With τ μ s₀ (s.moved n b data) := h.foldl (fun _ _ h => .ite (.mk h.fst.drew) (.mk h.fst))

theorem Evolves.burstRead {n : Nat} {b : DmaBurst} {findings : List EccFinding} {data : List Byte}
    (h : Evolves τ true s₀ s) :
    With τ true s₀ (s.burstRead n b findings data) := by
  unfold State.burstRead
  extract_lets d r m
  have hr : With τ true s₀ r := h.dmaReadRun
  have hm : With τ true s₀ m := hr.fst.moved
  exact .ite (.mk h) (.mk hm.fst)

theorem Evolves.reportRead {d : List Nat} {b : DmaBurst} (h : Evolves τ μ s₀ s) : Evolves τ μ s₀ (s.reportRead d b) :=
  .ite (h.forEach (fun _ _ h => h.readReleases)) h

theorem Evolves.moveBurst {n : Nat} {b : DmaBurst} {findings : List EccFinding} {data : List Byte}
    (h : Evolves τ true s₀ s) :
    Evolves τ true s₀ (s.moveBurst n b findings data) := by
  unfold State.moveBurst
  extract_lets d r w s1 s2
  have hr : With τ true s₀ r := h.burstRead
  have hw : With τ true s₀ w := hr.fst.dmaWrite
  have h1 : Evolves τ true s₀ s1 := hw.fst.reportRead.consumed.add
  have h2 : Evolves τ true s₀ s2 := h1.dmaMarked
  exact .ite hr.fst.dmaError (.ite hw.fst.dmaError (.ite (.ite h2.dmaError h2) h1))

theorem Evolves.feedBurst {n u : Nat} {b : DmaBurst} {findings : List EccFinding} {data : List Byte}
    (h : Evolves τ true s₀ s) :
    Evolves τ true s₀ (s.feedBurst n u b findings data) := by
  unfold State.feedBurst
  extract_lets d r s1 spent s2 s3 s4
  have hr : With τ true s₀ r := h.burstRead
  have h1 : Evolves τ true s₀ s1 := hr.fst.reportRead.consumed
  have h2 : Evolves τ true s₀ s2 := h1.onFlow
  have h3 : Evolves τ true s₀ s3 := .ite h2.add h2
  have h4 : Evolves τ true s₀ s4 := h3.dmaMarked
  exact .ite hr.fst.dmaError (.ite hr.fst.consumed (.ite hr.fst.dmaMarked.dmaError (.ite (.ite h4.dmaError h4) h3)))

theorem Evolves.drainBurst {n u : Nat} {b : DmaBurst} (h : Evolves τ true s₀ s) :
    Evolves τ true s₀ (s.drainBurst n u b) := by
  unfold State.drainBurst
  extract_lets d w s1
  have hw : With τ true s₀ w := h.dmaWrite
  have h1 : Evolves τ true s₀ s1 := hw.fst.add
  exact .ite hw.fst.dmaError (.ite h1.add h1)

theorem Evolves.execDmaBurstComplete {n : Fin 64} {how : BurstEnd} {data : List Byte} {findings : List EccFinding}
    (h : Evolves τ true s₀ s) :
    Answers τ true s₀ (execDmaBurstComplete n how data s findings) := by
  unfold Machine.execDmaBurstComplete
  extract_lets c
  split
  · exact h
  · extract_lets s1 s2
    have h1 : Evolves τ true s₀ s1 := h.onChan
    have h2 : Evolves τ true s₀ s2 := by
      unfold s2
      split
      · exact h1.feedBurst
      · exact h1.drainBurst
      · exact h1.moveBurst
    exact .ite h (.ite h.dmaError.replayChecks h2.dmaSettle.replayChecks)

theorem Evolves.execCompressBlock {u : Fin 4} (h : Evolves τ true s₀ s) : Answers τ true s₀ (execCompressBlock u s) := by
  unfold Machine.execCompressBlock
  extract_lets f
  split
  · exact h
  · exact .ite h.onFlow.dmaSettle h

theorem Evolves.rejectStream {n d : Nat} {r : Reject} (h : Evolves τ true s₀ s) :
    Evolves τ true s₀ (s.rejectStream n d r) := by
  unfold State.rejectStream
  extract_lets f s1 s2
  have h1 : Evolves τ true s₀ s1 := h.set.set.set
  have h2 : Evolves τ true s₀ s2 := h1.set.add.raise
  exact h2.onFlow.dmaSettle.replayChecks

theorem Evolves.flowStep {n d : Nat} {x : FlowStep} (h : Evolves τ true s₀ s) : Evolves τ true s₀ (s.flowStep n d x) := by
  unfold State.flowStep
  extract_lets f
  split
  · exact h
  · exact h.rejectStream
  · extract_lets s1
    have h1 : Evolves τ true s₀ s1 := h.onFlow
    exact h1.add.add

theorem Evolves.execDecompressBlock {d : Fin 2} (h : Evolves τ true s₀ s) :
    Answers τ true s₀ (execDecompressBlock d s) := by
  unfold Machine.execDecompressBlock
  split
  · exact h
  · extract_lets f
    split
    · exact h.flowStep
    · exact h.flowStep
    · exact h

theorem Evolves.execDecompressTrailer {d : Fin 2} (h : Evolves τ true s₀ s) :
    Answers τ true s₀ (execDecompressTrailer d s) := by
  unfold Machine.execDecompressTrailer
  split
  · exact h
  · extract_lets f s1
    have h1 : Evolves τ true s₀ s1 := h.flowStep
    split
    · split
      · exact h1.add.dmaSettle.replayChecks
      · exact h1
    · exact h

theorem Evolves.fenceFlow {u event : Nat} (h : Evolves τ true s₀ s) : Evolves τ true s₀ (s.fenceFlow u event) := by
  unfold State.fenceFlow
  extract_lets named s0 s1 s2 detail
  have h0 : Evolves τ true s₀ s0 := h.forEach (fun _ _ h => h.freeUnit)
  have h1 : Evolves τ true s₀ s1 := .ite h0.setBit h0.setBit
  have h2 : Evolves τ true s₀ s2 := (h1.forEach (fun _ _ h => h.dmaSettle)).replayChecks
  exact h2.fenceEntry.fenced

theorem Evolves.execFlowstoneParity {unit : FlowUnit} (h : Evolves τ true s₀ s) :
    Answers τ true s₀ (execFlowstoneParity unit s) := by
  unfold Machine.execFlowstoneParity
  exact .ite h.fencedTwice h.add.raise.fenceFlow

theorem Evolves.fenceDma {n event detail : Nat} (h : Evolves τ true s₀ s) :
    Evolves τ true s₀ (s.fenceDma n event detail) := by
  unfold State.fenceDma
  extract_lets s1
  have h1 : Evolves τ true s₀ s1 := h.dmaKill.replayChecks.setBit.fenceEntry
  exact h1.fencePage.fenced

end

end Sys2Proof.Machine
end

