-- ==== Sys2Proof/Proofs/EvolvesPlan.lean ====
section
/-! PROOFS. Plan admission keeps the relation of Evolves. -/

namespace Sys2Proof.Machine

set_option Elab.async false

section
variable {τ μ : Bool} {s₀ s : State}

theorem Evolves.layLane {p : Plan} {owner c base : Nat} (h : Evolves τ μ s₀ s) :
    Evolves τ μ s₀ (s.layLane p owner c base) := by
  unfold State.layLane
  extract_lets s1 s2
  have h1 : Evolves τ μ s₀ s1 := h.set.set
  have h2 : Evolves τ μ s₀ s2 := h1.set.set
  exact h2.set.set.onRcd

theorem Evolves.layLanes {p : Plan} (h : Evolves τ μ s₀ s) : Evolves τ μ s₀ (s.layLanes p) := by
  unfold State.layLanes
  extract_lets ks a
  have ha : Evolves τ μ s₀ a.1 := h.foldl (fun _ _ h => .mk h.fst.layLane.onSkein)
  exact ha.layLane

/-- The skeins that a plan names exist. -/
def Plan.InRange (p : Plan) : Prop := ∀ k ∈ p.skeins, k.skein < 64

theorem badField_none {l : List (Nat × Bool)} (h : badField l = none) {r : Nat × Bool} (hr : r ∈ l) : r.2 = true := by
  unfold badField at h
  simpa using List.find?_eq_none.mp (Option.map_eq_none_iff.mp h) r hr

/-- The skeins of a well-formed plan exist (R398, R400). -/
theorem readPlan_inRange {p : List Byte} {len : Nat} (h : planBad p len = none) : (readPlan p).InRange := by
  intro k hk
  obtain ⟨i, hi, rfl⟩ := List.mem_map.mp hk
  unfold planBad at h
  split at h
  · cases h
  · have hrule := badField_none h
      (List.mem_append_left _ (List.mem_flatMap.mpr ⟨i, hi, List.mem_append_left _ List.mem_cons_self⟩))
    rw [Bool.and_eq_true] at hrule
    exact Nat.lt_succ_of_le (of_decide_eq_true hrule.1)

/-- A plan in range put beside the others. -/
theorem Record.Kept.withPlan {r : Record} (h : r.Kept) {p : Plan} (hp : p.InRange) (i : Nat) :
    ({ r with plans := sput r.plans i none (some p) } : Record).Kept := by
  intro n q hq
  dsimp only at hq
  rw [sget_sput] at hq
  split at hq
  · obtain rfl := Option.some.inj hq
    exact hp
  · exact h n q hq

theorem Evolves.planTaken {p : Plan} {bytes : List Byte} (h : Evolves τ μ s₀ s) (hp : p.InRange) :
    Evolves τ μ s₀ (s.planTaken p bytes) := by
  unfold State.planTaken
  extract_lets i s1 s2 s3 s4 s5
  have h1 : Evolves τ μ s₀ s1 := h.set.set
  have h2 : Evolves τ μ s₀ s2 := h1.set.set.set
  have h3 : Evolves τ μ s₀ s3 := h2.set.set.set
  have h4 : Evolves τ μ s₀ s4 := h3.setEach
  have h5 : Evolves τ μ s₀ s5 := (h4.layLanes.onRcd_of (fun _ hr => hr.withPlan hp i)).onMbx
  exact h5.putSess.creditRefresh.raise

theorem Evolves.servePlanAdmit {args : List Byte} (h : Evolves τ true s₀ s) :
    Evolves τ true s₀ (s.servePlanAdmit args) := by
  unfold State.servePlanAdmit
  split
  · exact h.mbxEnd
  · extract_lets off bytes
    split
    · exact h.mbxEnd
    · next hwell => exact .ite (h.planTaken (readPlan_inRange hwell)).mbxOk h.planRefused.mbxEnd

end

end Sys2Proof.Machine
end

