-- ==== Sys2Proof/Proofs/EvolvesPower.lean ====
section
/-! PROOFS. Supplies, resets, gating and start-up keep the relation of Evolves. -/

namespace Sys2Proof.Machine

set_option Elab.async false

section
variable {τ μ : Bool} {s₀ s : State}

theorem Evolves.railLow {rail : Rail} {mv : Nat} (h : Evolves τ μ s₀ s) : Evolves τ μ s₀ (s.railLow rail mv) := by
  unfold State.railLow
  extract_lets i s1
  have h1 : Evolves τ μ s₀ s1 := h.set.set
  exact h1.setBit.onPwr

theorem Evolves.execBrownoutStart {rail : Rail} {mv : BitVec 16} (h : Evolves τ μ s₀ s) :
    Answers τ μ s₀ (execBrownoutStart rail mv s) := by
  unfold Machine.execBrownoutStart
  extract_lets s1 s2 s3
  have h1 : Evolves τ μ s₀ s1 := h.onPwr.railLow
  have h2 : Evolves τ μ s₀ s2 := h1.set.raise.add.add
  have h3 : Evolves τ μ s₀ s3 := h2.set.set.set
  exact .ite h.railLow h3.set.commitRequested.flashMarks

theorem Evolves.episodeEnds {since : Nat} (h : Evolves τ μ s₀ s) : Evolves τ μ s₀ (s.episodeEnds since) := by
  unfold State.episodeEnds
  extract_lets s1
  have h1 : Evolves τ μ s₀ s1 := h.set.set.set
  exact h1.set.raise.flashMarks

theorem Evolves.execBrownoutBindOff (h : Evolves τ μ s₀ s) : Answers τ μ s₀ (execBrownoutBindOff s) :=
  .ite ((h.forEach (fun _ _ h => h.bindOffAccept)).set) h

theorem Evolves.execAonSupplySwitch (h : Evolves τ μ s₀ s) : Answers τ μ s₀ (execAonSupplySwitch s) := h.set

theorem Evolves.execAonSupplyReturn (h : Evolves τ μ s₀ s) : Answers τ μ s₀ (execAonSupplyReturn s) := h.set

theorem Evolves.execAonContentsLost (h : Evolves τ μ s₀ s) : Answers τ μ s₀ (execAonContentsLost s) := by
  have hlost : Evolves τ μ s₀ { s with regs := s.regs.filter (fun p => !aonCell p.1) } :=
    h.stores (fun ⟨regs, others⟩ => ⟨wellKept_filter _ regs, others⟩)
  exact hlost.onPwr.onSvc_of rfl (fun _ ⟨flash, _⟩ => ⟨flash, by rintro _ ⟨⟩⟩)

/-- A cell added to a store that does not list it. -/
theorem wellKept_sins {m : Sparse Nat} {k v : Nat} (h : wellKept m = true) (hk : ∀ p ∈ m, p.1 ≠ k) (hv : v < 2 ^ keyWidth k) :
    wellKept (sins k v m) = true := by
  rw [wellKept_iff] at h ⊢
  refine ⟨rising_sins h.1 hk, fun p hp => ?_⟩
  rcases mem_sins m k v p hp with rfl | hp
  · exact hv
  · exact h.2 p hp

theorem wellKept_resetOwners {m : Sparse Nat} (h : wellKept m = true)
    (h0 : ∀ p ∈ m, p.1 ≠ (GRT_OWNER_OWNER.elt 0).key) (h1 : ∀ p ∈ m, p.1 ≠ (GRT_OWNER_OWNER.elt 1).key) :
    wellKept (resetOwners m) = true := by
  refine wellKept_sins (wellKept_sins h h0 (by decide)) (fun p hp => ?_) (by decide)
  rcases mem_sins m _ _ p hp with rfl | hp
  · decide
  · exact h1 p hp

/-- The cells of the always-on domain are not those of GRT_OWNER. -/
theorem aonCell_ne_owner {p : Nat × Nat} {b : Nat} (hb : aonCell (GRT_OWNER_OWNER.elt b).key = false) (hp : aonCell p.1 = true) :
    p.1 ≠ (GRT_OWNER_OWNER.elt b).key := by
  intro heq
  rw [heq, hb] at hp
  cases hp

theorem State.Good.mainReset (g : s.Good) : s.mainReset.Good := by
  obtain ⟨⟨regs, -⟩, -, -, -, svc, -⟩ := (State.good_iff s).mp g
  have kept : ∀ p ∈ s.regs.filter (fun p => aonCell p.1), aonCell p.1 = true := fun p hp => (List.mem_filter.mp hp).2
  have hregs : wellKept (resetOwners (s.regs.filter (fun p => aonCell p.1))) = true :=
    wellKept_resetOwners (wellKept_filter _ regs) (fun p hp => aonCell_ne_owner (by decide) (kept p hp))
      (fun p hp => aonCell_ne_owner (by decide) (kept p hp))
  have hidle : Seq.idle.InRange := ⟨Nat.zero_le _, by rintro _ ⟨⟩, Nat.zero_le _⟩
  exact (State.good_iff _).mpr ⟨⟨hregs, rfl, rfl⟩, ⟨rfl, rfl⟩, ⟨rfl, by rintro _ ⟨⟩⟩, rfl, svc, fun _ => hidle, by rintro _ _ ⟨⟩,
    by rintro _ ⟨⟩⟩

/-- A main reset moves the time and clears the memories that are not kept. -/
theorem Evolves.mainReset (h : Evolves true true s₀ s) : Evolves true true s₀ s.mainReset :=
  h.trans ⟨State.Good.mainReset, rfl, fun hτ => (by cases hτ), fun hμ => (by cases hμ)⟩

theorem Evolves.putStraps {straps : Straps} (h : Evolves τ μ s₀ s) : Evolves τ μ s₀ (s.putStraps straps) := h.set.set

theorem Evolves.putCause {cause rail : Nat} (h : Evolves τ μ s₀ s) : Evolves τ μ s₀ (s.putCause cause rail) :=
  h.set.set.set

theorem Evolves.startUp (h : Evolves τ μ s₀ s) : Evolves τ μ s₀ s.startUp := h.set.onPwr

theorem Evolves.execPorstN {straps : Straps} (h : Evolves true true s₀ s) :
    Answers true true s₀ (execPorstN straps s) := by
  unfold Machine.execPorstN
  extract_lets s1
  have h1 : Evolves true true s₀ s1 := h.mainReset.putStraps
  exact (Evolves.ite h1.putCause h1.putCause).startUp

theorem Evolves.portReset {straps : Straps} (h : Evolves true true s₀ s) : Evolves true true s₀ (s.portReset straps) :=
  h.mainReset.putStraps.putCause.startUp.onSvc

theorem Evolves.execResetCrossing {rail : Rail} (h : Evolves true true s₀ s) :
    Answers true true s₀ (execResetCrossing rail s) := by
  unfold Machine.execResetCrossing
  exact h.mainReset.putStraps.putCause.onPwr

theorem Evolves.execResetCrossingRestart {straps : Straps} (h : Evolves τ μ s₀ s) :
    Answers τ μ s₀ (execResetCrossingRestart s straps) := .ite h.putStraps.startUp.onPwr h

theorem Evolves.gateRefused {unit cause : Nat} (h : Evolves τ μ s₀ s) : Evolves τ μ s₀ (s.gateRefused unit cause) :=
  h.set.set.set.raise

theorem Evolves.gateSkein {n : Nat} {v : Bool} (h : Evolves τ μ s₀ s) : Evolves τ μ s₀ (s.gateSkein n v) := by
  unfold State.gateSkein
  extract_lets put c
  have hput : ∀ t, Evolves τ μ s₀ t → Evolves τ μ s₀ (put t) := fun _ h => .ite h.set h.setBit
  exact .ite h (.ite (.ite (hput _ h.abandonCheck) h.gateRefused) (hput _ h).set)

theorem Evolves.skeinGateWrite {spare : Bool} {value : Nat} (h : Evolves τ μ s₀ s) :
    Evolves τ μ s₀ (s.skeinGateWrite spare value) := .ite h.gateSkein (h.forEach (fun _ _ h => h.gateSkein))

theorem Evolves.execSkeinGateWrite {spare : Bool} {value : BitVec 64} (h : Evolves τ μ s₀ s) :
    Answers τ μ s₀ (execSkeinGateWrite spare value s) := h.gated (fun _ h => h.skeinGateWrite)

theorem Evolves.seqGateWrite {value : Nat} (h : Evolves τ μ s₀ s) : Evolves τ μ s₀ (s.seqGateWrite value) :=
  h.forEach (fun _ _ h => by
      exact .ite h (.ite h.gateRefused h.setBit))

theorem Evolves.execSequencerGateWrite {value : DWord} (h : Evolves τ μ s₀ s) :
    Answers τ μ s₀ (execSequencerGateWrite value s) := h.gated (fun _ h => h.seqGateWrite)

theorem Evolves.putSkeinReady {n : Nat} {v : Bool} (h : Evolves τ μ s₀ s) : Evolves τ μ s₀ (s.putSkeinReady n v) := by
  unfold State.putSkeinReady
  extract_lets s1
  have h1 : Evolves τ μ s₀ s1 := .ite h.set h.setBit
  exact .ite h h1.onSkein.raise

theorem Evolves.putSeqReady {n : Nat} {v : Bool} (h : Evolves τ μ s₀ s) : Evolves τ μ s₀ (s.putSeqReady n v) :=
  .ite h h.setBit.raise

theorem Evolves.execUnitReadyChange {unit : GatedUnit} {cal : CalFinding} (h : Evolves τ μ s₀ s) :
    Answers τ μ s₀ (execUnitReadyChange unit cal s) := by
  unfold Machine.execUnitReadyChange
  split
  · exact .ite h ((Evolves.ite h.calFound.worstResidual h).putSkeinReady)
  · exact h.putSeqReady

theorem Evolves.allReady {on : Bool} (h : Evolves τ μ s₀ s) : Evolves τ μ s₀ (s.allReady on) := by
  unfold State.allReady
  extract_lets s1
  have h1 : Evolves τ μ s₀ s1 := h.forEach (fun _ _ h => h.putSkeinReady)
  exact h1.forEach (fun _ _ h => h.putSeqReady)

theorem Evolves.wakeStart (h : Evolves τ μ s₀ s) : Evolves τ μ s₀ s.wakeStart := by
  unfold State.wakeStart
  extract_lets s1
  have h1 : Evolves τ μ s₀ s1 := h.putPower.fullCal
  exact .ite h1 h1.leaveSelfRefresh

theorem Evolves.execParkComplete (h : Evolves τ true s₀ s) : Answers τ true s₀ (execParkComplete s) := by
  unfold Machine.execParkComplete
  extract_lets s1
  have h1 : Evolves τ true s₀ s1 := h.hbmPark.allReady.putPower
  exact .ite (Evolves.ite h1.mbxOk (.ite h1 (.ite h1.mbxEnd h1.wakeStart))) h

theorem Evolves.execWakeComplete (h : Evolves τ true s₀ s) : Answers τ true s₀ (execWakeComplete s) := by
  unfold Machine.execWakeComplete
  extract_lets s1
  have h1 : Evolves τ true s₀ s1 := h.putPower.allReady
  exact .ite (Evolves.ite h1.mbxOk h1) h

theorem Evolves.limitMarks {t : ℤ} (h : Evolves τ μ s₀ s) : Evolves τ μ s₀ (s.limitMarks t) := by
  unfold State.limitMarks
  extract_lets hot cold s1
  have h1 : Evolves τ μ s₀ s1 := h.raiseIf
  exact h1.onPwr

theorem Evolves.execDieTempRead {temps : List Byte} (h : Evolves τ μ s₀ s) :
    Answers τ μ s₀ (execDieTempRead temps s) := by
  unfold Machine.execDieTempRead
  extract_lets hot s1 s2 s3
  have h1 : Evolves τ μ s₀ s1 := h.forEach (fun _ _ h => h.set)
  have h3 : Evolves τ μ s₀ s3 := h1.set.set.set
  exact .ite (h3.limitMarks.forEach (fun _ _ h => h.set)) trivial

theorem Evolves.execDieTrip (h : Evolves τ μ s₀ s) : Answers τ μ s₀ (execDieTrip s) := by
  unfold Machine.execDieTrip
  extract_lets s1
  have h1 : Evolves τ μ s₀ s1 := h.releaseHolds.interruptAll.set.raise
  exact .ite (Evolves.ite h1 h1.putPower) h

theorem Evolves.execTripClear (h : Evolves τ μ s₀ s) : Answers τ μ s₀ (execTripClear s) := .ite h.set h

theorem Evolves.clearMin (h : Evolves τ μ s₀ s) : Evolves τ μ s₀ s.clearMin := (h.forEach (fun _ _ h => h.set)).set

theorem Evolves.execClearMin {value : DWord} (h : Evolves τ μ s₀ s) : Answers τ μ s₀ (execClearMin value s) :=
  h.gated (fun _ h => h.clearMin)

theorem Evolves.applyFences (h : Evolves τ μ s₀ s) : Evolves τ μ s₀ s.applyFences := by
  unfold State.applyFences
  extract_lets f page s1 s2 s3 s4 s5 s6 s7 whole s8 s9
  have hpage : ∀ c n t, Evolves τ μ s₀ t → Evolves τ μ s₀ (page c n t) := fun _ _ _ h => h.fencePage
  have h1 : Evolves τ μ s₀ s1 := h.forEach (fun _ _ h => hpage _ _ _ (hpage _ _ _ h))
  have h2 : Evolves τ μ s₀ s2 := .ite (hpage _ _ _ (hpage _ _ _ h1)).set h1
  have h3 : Evolves τ μ s₀ s3 := h2.forEach (fun _ _ h => hpage _ _ _ h)
  have h4 : Evolves τ μ s₀ s4 := h3.forEach (fun _ _ h => (hpage _ _ _ h).setBit)
  have h5 : Evolves τ μ s₀ s5 := h4.set.set
  have h6 : Evolves τ μ s₀ s6 := h5.forEach (fun _ _ h => h.setBit.set)
  have h7 : Evolves τ μ s₀ s7 := h6.forEach (fun _ _ h => h.putPcState.setBit)
  have h8 : Evolves τ μ s₀ s8 := Evolves.forEach (.ite h7 h7.remap) (fun _ _ h => hpage _ _ _ h.set)
  have h9 : Evolves τ μ s₀ s9 := by
    unfold s9
    split
    · exact h8.prepareSpare.stage.takeEffect.set.set
    · exact h8
  exact h9.onFlt

theorem Evolves.applyRepairs (h : Evolves τ μ s₀ s) : Evolves τ μ s₀ s.applyRepairs := by
  unfold State.applyRepairs
  extract_lets l s1
  have h1 : Evolves τ μ s₀ s1 := h.forEach (fun _ _ h => h.set.set)
  exact h1.set.onFlt

theorem Evolves.convertConfig (h : Evolves τ μ s₀ s) : Evolves τ μ s₀ s.convertConfig := by
  unfold State.convertConfig
  split
  · extract_lets old
    split
    · exact h
    · split
      · exact h
      · split
        · exact h.onFlash
        · exact h
  · exact h

theorem Evolves.applyConfig {s0 : State} (h : Evolves τ μ s₀ s0) : Evolves τ μ s₀ s0.applyConfig := by
  unfold State.applyConfig
  extract_lets s entries s1 s2 stale
  have h : Evolves τ μ s₀ s := h.convertConfig
  have h1 : Evolves τ μ s₀ s1 := h.forEach (fun _ _ h => h.regPoke)
  have h2 : Evolves τ μ s₀ s2 := h1.set
  exact (h2.forEach (fun _ _ h => h.flashQueue)).cfgMarks

/-- The cells of a well-kept store put over those of another. -/
theorem wellKept_restored {cells m : Sparse Nat} (hm : wellKept m = true) (hcells : wellKept cells = true) :
    wellKept (cells.foldl (fun m p => sins p.1 p.2 (sdel p.1 m)) m) = true := by
  refine List.foldlRecOn (motive := fun m => wellKept m = true) cells _ hm (fun m hm p hp =>
    wellKept_sins ?_ (sdel_keys m p.1) (((wellKept_iff _).mp hcells).2 p hp))
  rw [wellKept_iff] at hm ⊢
  exact ⟨rising_sdel p.1 hm.1, fun q hq => hm.2 q (sdel_subset m p.1 q hq)⟩

theorem Evolves.journalRestore (h : Evolves τ μ s₀ s) : Evolves τ μ s₀ s.journalRestore := by
  unfold State.journalRestore
  extract_lets records newest s1 s2
  have hrecords : s₀.Good → ∀ r ∈ records, wellKept r.cells = true := by
    intro g₀ r hr
    obtain ⟨p, hp, hpr⟩ := List.mem_filterMap.mp hr
    exact (h.good g₀).1.journal.1 p hp r hpr
  have hnewest : s₀.Good → ∀ r, newest = some r → wellKept r.cells = true := by
    intro g₀
    refine List.foldlRecOn (motive := fun (a : Option JournalRec) => ∀ r, a = some r → wellKept r.cells = true) records _
      (by rintro _ ⟨⟩) (fun a ha b hb => ?_)
    have hb' := hrecords g₀ b hb
    split
    · split
      · rintro _ ⟨⟩
        exact hb'
      · exact ha
    · rintro _ ⟨⟩
      exact hb'
  clear_value newest
  have h1 : Evolves τ μ s₀ s1 := by
    unfold s1
    split
    · exact h.set
    · exact h
  have h2 : Evolves τ μ s₀ s2 := by
    unfold s2
    split
    · next r =>
      extract_lets cells kept
      have hcells : s₀.Good → wellKept cells = true := fun g₀ => wellKept_filter _ (hnewest g₀ r rfl)
      have hkept : Evolves τ μ s₀ kept := h1.extend (fun g₀ g => by
        obtain ⟨⟨regs, stores⟩, others⟩ := (State.good_iff s1).mp g
        exact (State.good_iff _).mpr ⟨⟨wellKept_restored regs (hcells g₀), stores⟩, others⟩) rfl (fun _ => ⟨rfl, rfl⟩) (fun _ => rfl)
      exact hkept.set.set
    · exact h1
  exact .ite h2.set.raise.onPwr h1.set

theorem Evolves.flashChecks (h : Evolves τ μ s₀ s) : Evolves τ μ s₀ s.flashChecks := by
  unfold State.flashChecks
  extract_lets f s1 sector
  have h1 : Evolves τ μ s₀ s1 := h.eraseAsked.eraseAsked.eraseAsked
  exact .ite h1.flashQueue h1

theorem Evolves.trialStart (h : Evolves τ μ s₀ s) : Evolves τ μ s₀ s.trialStart := by
  unfold State.trialStart
  split
  · exact .ite h.onPwr (.ite h.selectorWrite.raise.onPwr h.selectorWrite.raise.onPwr.drew)
  · exact h

theorem Evolves.recoveryMode (h : Evolves τ μ s₀ s) : Evolves τ μ s₀ s.recoveryMode := by
  unfold State.recoveryMode
  extract_lets s1
  have h1 : Evolves τ μ s₀ s1 := h.set.set.set
  exact h1.set.set.set

theorem Evolves.enterRecovery (h : Evolves τ μ s₀ s) : Evolves τ μ s₀ s.enterRecovery := by
  unfold State.enterRecovery
  extract_lets s1 s2
  have h1 : Evolves τ μ s₀ s1 := h.recoveryMode
  have h2 : Evolves τ μ s₀ s2 := h1.raiseIf.raiseIf
  exact h2.onLink.onPwr.onSvc

theorem Evolves.cpStart {loaded : Nat} (h : Evolves τ μ s₀ s) : Evolves τ μ s₀ (s.cpStart loaded) := by
  unfold State.cpStart
  extract_lets v s1 s2 s3
  have h1 : Evolves τ μ s₀ s1 := h.set.set.set
  have h2 : Evolves τ μ s₀ s2 := h1.set.set.set
  have h3 : Evolves τ μ s₀ s3 := h2.set.set.set.set
  exact h3.onMbx.raiseIf

theorem Evolves.hostReady (h : Evolves τ μ s₀ s) : Evolves τ μ s₀ s.hostReady := by
  unfold State.hostReady
  extract_lets s1 s2 s3 s4
  have h1 : Evolves τ μ s₀ s1 := h.set.drew.putPower.set
  have h2 : Evolves τ μ s₀ s2 := .ite h1.skeinsReady h1
  have h3 : Evolves τ μ s₀ s3 := h2.forEach (fun _ _ h => h.putSeqReady)
  have h4 : Evolves τ μ s₀ s4 := h3.raiseIf.raiseIf
  exact h4.onLink.onPwr.onSvc

theorem Evolves.chooseImage (h : Evolves τ μ s₀ s) : Evolves τ μ s₀ s.chooseImage := by
  unfold State.chooseImage
  exact .ite h.onPwr (.ite h.selectorWrite.raise.onPwr h.enterRecovery)

theorem Evolves.execStartUpStepDone {ok : Bool} {failed : BitVec 3} (h : Evolves true true s₀ s) :
    Answers true true s₀ (execStartUpStepDone ok s failed) := by
  unfold Machine.execStartUpStepDone
  extract_lets next
  have hnext : ∀ k t, Evolves true true s₀ t → Evolves true true s₀ (next k t) := fun _ _ h => h.onPwr
  split
  · exact hnext _ _ h.set.set.raiseIf.lockStart
  · exact .ite h (hnext _ _ h.applyRepairs.grottosFilled)
  · exact .ite h.journalRestore.flashChecks.slotMarks.selectorMarks.enterRecovery
      (hnext _ _ h.journalRestore.flashChecks.slotMarks.selectorMarks.trialStart)
  · exact h.chooseImage
  · exact (hnext _ _ h.cpStart).onPwr
  · exact .ite h (hnext _ _ h)
  · exact h.applyFences.applyConfig.hostReady
  · exact h

end

end Sys2Proof.Machine
end

