-- ==== Sys2Proof/Proofs/EvolvesCommand.lean ====
section
/-! PROOFS. The commands that a pair mirrors keep the relation of Evolves. -/

namespace Sys2Proof.Machine

set_option Elab.async false

section
variable {τ μ : Bool} {s₀ s : State}

theorem Evolves.checkFailed {code : Nat} {args : List Byte} {result : Nat} (h : Evolves τ μ s₀ s) :
    Evolves τ μ s₀ (s.checkFailed code args result) := .ite h (.ite h.armRefused (.ite h.segRelease.fst h))

theorem Evolves.clocksLanded {d : Nat} (h : Evolves τ μ s₀ s) : Evolves τ μ s₀ (s.clocksLanded d) := by
  unfold State.clocksLanded
  exact h.rest.set.set

theorem Evolves.putPlanSkein {k : PlanSkein} (h : Evolves τ μ s₀ s) : Evolves τ μ s₀ (s.putPlanSkein k) := by
  unfold State.putPlanSkein
  extract_lets d g s1 s2 s3
  have h1 : Evolves τ μ s₀ s1 := h.setShadow.setShadow.setShadow.setShadow
  have h2 : Evolves τ μ s₀ s2 := h1.setShadow.setShadow
  have h3 : Evolves τ μ s₀ s3 := h2.set.set
  exact h3.set.set.set

theorem Evolves.putResource {src : Nat} {image : List Byte} (h : Evolves τ μ s₀ s) :
    Evolves τ μ s₀ (s.putResource src image) := by
  unfold State.putResource
  split
  · exact h
  · extract_lets at_ s1
    have h1 : Evolves τ μ s₀ s1 := h.forEach (fun _ _ h => h.regPoke)
    split
    · exact h1.putCounter
    · exact h1.putTimer
    · exact h1

theorem Evolves.putProgram {n : Nat} {p : Plan} (h : Evolves τ μ s₀ s) : Evolves τ μ s₀ (s.putProgram n p) := by
  unfold State.putProgram
  extract_lets s1 s2
  have h1 : Evolves τ μ s₀ s1 := h.forEach (fun _ _ h => by
      exact h.set.set)
  have h2 : Evolves τ μ s₀ s2 := h1.set.set.set
  exact .ite h h2.set

theorem Evolves.castArm {n b : Nat} {p : Plan} (h : Evolves τ μ s₀ s) : Evolves τ μ s₀ (s.castArm n b p) := by
  unfold State.castArm
  exact .ite h (.ite h.armRefused h.set.set.set.onSeq)

theorem Evolves.castOn {n b : Nat} (h : Evolves τ μ s₀ s) : Evolves τ μ s₀ (s.castOn n b) := by
  unfold State.castOn
  split
  · exact h
  · extract_lets s1 s2 s3
    have h1 : Evolves τ μ s₀ s1 := h.forEach (fun _ _ h => h.abandonCheck.clocksLanded.putPlanSkein)
    have h2 : Evolves τ μ s₀ s2 := h1.putProgram.forEach (fun _ _ h => h.putResource)
    have h3 : Evolves τ μ s₀ s3 := (h2.forEach (fun _ _ h => h.commitStage)).castArm
    exact h3.onRcd.putSess

theorem Evolves.actCommand {code : Nat} {args : List Byte} {at_ : Nat} (h : Evolves τ μ s₀ s) :
    With τ μ s₀ (s.actCommand code args at_) := by
  unfold State.actCommand
  extract_lets n b
  split
  · exact .mk h.releasePlan
  · exact .mk h.castOn
  · exact .mk h.bindOffAt
  · exact .mk h.armRequest.fst.onSeq
  · exact .mk (.ite h.forcePulse h.onSeq)
  · exact .mk h.segRelease.fst
  · exact .mk h.set.quotaRefresh

theorem Evolves.mbxHold (h : Evolves τ μ s₀ s) : Evolves τ μ s₀ s.mbxHold := .ite h h.set.raise

theorem Evolves.actAlone {code : Nat} {args : List Byte} (h : Evolves τ true s₀ s) :
    Evolves τ true s₀ (s.actAlone code args) := by
  unfold State.actAlone
  extract_lets r
  have hr : With τ true s₀ r := h.actCommand
  exact hr.fst.mbxOk

theorem Evolves.rejoin {code : Nat} (h : Evolves τ μ s₀ s) : Evolves τ μ s₀ (s.rejoin code) := .ite h.set.onTwn h

theorem Evolves.serveMirrored {code : Nat} {args : List Byte} (h : Evolves τ true s₀ s) :
    Evolves τ true s₀ (s.serveMirrored code args) := by
  unfold State.serveMirrored
  split
  · exact h.mbxEnd
  · split
    · exact h.checkFailed.mbxEnd
    · exact h.mbxHold
    · extract_lets s1
      have h1 : Evolves τ true s₀ s1 := .ite h.rejoin h
      exact .ite h1.twinSend.onTwn h.actAlone

theorem Evolves.servePark (h : Evolves τ true s₀ s) : Evolves τ true s₀ s.servePark := by
  unfold State.servePark
  exact .ite h.mbxEnd (.ite h.mbxOk (.ite h.mbxHold h.set.putPower))

theorem Evolves.serveWake (h : Evolves τ true s₀ s) : Evolves τ true s₀ s.serveWake := by
  unfold State.serveWake
  exact .ite h.mbxEnd (.ite h.wakeStart (.ite h h.mbxEnd))

theorem Evolves.replayPrepare {n ch : Nat} {args : List Byte} (h : Evolves τ μ s₀ s) (hch : ch ≤ 63) :
    Evolves τ μ s₀ (s.replayPrepare n ch args) := by
  unfold State.replayPrepare
  extract_lets all idle s1
  have h1 : Evolves τ μ s₀ s1 :=
    h.onSeq_of (fun _ _ ⟨hlen, _⟩ => ⟨hlen, by rintro _ ⟨⟩, Nat.succ_le_succ hch⟩)
  exact h1.setEach

theorem Evolves.grottoLent {n : Nat} (h : Evolves τ μ s₀ s) : Evolves τ μ s₀ (s.grottoLent n) := by
  have hwidth : 1 ≤ TRG_REPLAY_CTRL_GROTTO.width ∧ TRG_REPLAY_CTRL_GROTTO.width ≤ 64 ∧
      TRG_REPLAY_CTRL_GROTTO.reset < 2 ^ TRG_REPLAY_CTRL_GROTTO.width := by decide
  have hlent : s₀.Good → s.get (TRG_REPLAY_CTRL_GROTTO.of n) < 64 := fun g₀ =>
    (h.good g₀).get_lt (TRG_REPLAY_CTRL_GROTTO.of n) hwidth
  exact .ite h (h.handOver.onSeq_of (fun g₀ _ ⟨hlen, _, hchannel⟩ => ⟨hlen, by rintro _ ⟨⟩; exact hlent g₀, hchannel⟩))

/-- The channel that REPLAY_SETUP names exists. -/
theorem replayArgs_channel {args : List Byte} (h : badField (replayArgs args) = none) : leAt args 2 1 ≤ 63 := by
  have hrule := badField_none h (List.mem_cons_of_mem _ (List.mem_cons_of_mem _ List.mem_cons_self))
  rw [Bool.and_eq_true] at hrule
  exact of_decide_eq_true hrule.2

theorem Evolves.serveReplaySetup {args : List Byte} (h : Evolves τ true s₀ s) :
    Evolves τ true s₀ (s.serveReplaySetup args) := by
  unfold State.serveReplaySetup
  split
  · exact h.mbxEnd
  · next hargs =>
    extract_lets n ch
    split
    · exact h.mbxEnd
    · have hr : With τ true s₀ ((s.replayPrepare n ch args).armRequest n) :=
        (h.replayPrepare (replayArgs_channel hargs)).armRequest
      have hfree := hr.fst.onSeq_of (n := n) (f := fun q => { q with channel := 0 })
        (fun _ _ ⟨hlen, hlender, _⟩ => ⟨hlen, hlender, Nat.zero_le _⟩)
      exact .ite hfree.mbxEnd hr.fst.grottoLent.set.set.dmaStart.mbxOk

theorem Evolves.serveCalendarSet {args : List Byte} (h : Evolves τ true s₀ s) :
    Evolves τ true s₀ (s.serveCalendarSet args) := .ite h.mbxEnd h.calendarLoad.mbxOk

end

end Sys2Proof.Machine
end

