-- ==== Sys2Proof/Proofs/EvolvesAccess.lean ====
section
/-! PROOFS. Register reads keep the relation of Evolves. -/

namespace Sys2Proof.Machine

set_option Elab.async false

section
variable {τ μ : Bool} {s₀ s : State}

theorem State.shownAt_width {s : State} {p off : Nat} {q : Part} (hq : q ∈ s.shownAt p off) : q.fld.width ≤ 64 :=
  State.partsAt_width (List.mem_filter.mp hq).1

theorem Evolves.readClears {p off mask : Nat} (h : Evolves τ μ s₀ s) : Evolves τ μ s₀ (s.readClears p off mask) := by
  unfold State.readClears
  split
  · exact h
  · extract_lets bits s1 block s2
    have h1 : Evolves τ μ s₀ s1 := .ite h.set.set h
    have h2 : Evolves τ μ s₀ s2 := .ite (h1.forEach (fun _ _ h => .ite h.set h)) h1
    exact .ite h1 (.ite (h2.forEach_mem (fun _ hq _ h => .ite (h.set (State.shownAt_width hq)) h)) h2)

theorem Evolves.holdHigh {p off v : Nat} (h : Evolves τ μ s₀ s) : Evolves τ μ s₀ (s.holdHigh p off v) := h.rest

theorem Evolves.readSnaps {p off : Nat} (h : Evolves τ μ s₀ s) : Evolves τ μ s₀ (s.readSnaps p off) := by
  unfold State.readSnaps
  extract_lets s1
  have h1 : Evolves τ μ s₀ s1 := .ite h.holdHigh h
  exact .ite h (.ite h1.holdHigh h1)

theorem Evolves.readLoc {p off mask : Nat} (h : Evolves τ μ s₀ s) : With τ μ s₀ (s.readLoc p off mask) :=
  .ite (.mk h) (.mk h.readSnaps.readClears)

theorem Evolves.readDone {data : List Byte} (h : Evolves τ μ s₀ s) : Evolves τ μ s₀ (s.readDone data) := h.onLink

theorem Evolves.spanErr {addr : Nat} (h : Evolves τ μ s₀ s) : Evolves τ μ s₀ (s.spanErr addr) := .ite h.accessErr h

theorem Evolves.bar0Read {addr len : Nat} (h : Evolves τ true s₀ s) : Evolves τ true s₀ (s.bar0Read addr len) := by
  unfold State.bar0Read
  extract_lets p base at_ lo hi a b
  have ha : With τ true s₀ a := h.readLoc
  have hb : With τ true s₀ b := ha.fst.readLoc
  exact .ite h (.ite h.spanErr.readDone (.ite h.windowRead hb.fst.readDone))

theorem Evolves.bar4Read {x len : Nat} (h : Evolves τ μ s₀ s) : Evolves τ μ s₀ (s.bar4Read x len) := .ite h h.readDone

theorem Evolves.execEventLatchRead {addr : BitVec 24} {len : Fin 4097} {bar : Bar} (h : Evolves τ true s₀ s) :
    Answers τ true s₀ (execEventLatchRead addr len s bar) := by
  unfold Machine.execEventLatchRead
  split
  · exact h.bar0Read
  · exact .ite trivial h.bar4Read

theorem Evolves.execPairLowHalfRead {addr : BitVec 24} {len : Fin 9} (h : Evolves τ true s₀ s) :
    Answers τ true s₀ (execPairLowHalfRead addr len s) := h.bar0Read

theorem Evolves.execBar0ReadAccessErr {addr : BitVec 24} {len : Nat} (h : Evolves τ μ s₀ s) :
    Answers τ μ s₀ (execBar0ReadAccessErr addr len s) := .ite trivial (.ite h.spanErr.readDone h)

end

end Sys2Proof.Machine
end

