-- ==== Sys2Proof/Proofs/EvolvesSummary.lean ====
section
/-! PROOFS. Snapshots keep the relation of Evolves. -/

namespace Sys2Proof.Machine

set_option Elab.async false

section
variable {τ μ : Bool} {s₀ s : State}

theorem Evolves.snapAsked {who : SnapAsker} (h : Evolves true μ s₀ s) : Evolves true μ s₀ (s.snapAsked who) :=
  h.set.onClk

theorem Evolves.snapRequest (h : Evolves true μ s₀ s) : Evolves true μ s₀ s.snapRequest := .ite h h.set.snapAsked

theorem Evolves.execSnapRequest (h : Evolves true μ s₀ s) : Answers true μ s₀ (execSnapRequest s) :=
  h.gated (fun _ h => h.snapRequest)

theorem Evolves.takeSnapshot (h : Evolves true μ s₀ s) : Evolves true μ s₀ s.takeSnapshot := by
  unfold State.takeSnapshot
  extract_lets t rest s1 s2
  have h1 : Evolves true μ s₀ s1 := h.set.set.set
  have h2 : Evolves true μ s₀ s2 := h1.set.set.onClk
  exact h2.rest.raise

end

end Sys2Proof.Machine
end

