-- ==== Sys2Proof/Proofs/EvolvesFirmware.lean ====
section
/-! PROOFS. Activation, confirmation and the boot flash keep the relation of Evolves. -/

namespace Sys2Proof.Machine

set_option Elab.async false

section
variable {τ μ : Bool} {s₀ s : State}

theorem Evolves.cpStops (h : Evolves τ μ s₀ s) : Evolves τ μ s₀ s.cpStops := by
  unfold State.cpStops
  extract_lets s1
  have h1 : Evolves τ μ s₀ s1 := by
    unfold s1
    split
    · exact h.abandonWindow
    · exact h
  exact h1.set.set.set

theorem Evolves.activate {slot : Nat} (h : Evolves τ μ s₀ s) : Evolves τ μ s₀ (s.activate slot) := by
  unfold State.activate
  extract_lets s1 s2
  have h1 : Evolves τ μ s₀ s1 := h.forEach (fun _ _ h => h.releasePlan)
  have h2 : Evolves τ μ s₀ s2 := h1.cpStops.set.set.selectorWrite
  exact h2.add.onSvc

theorem Evolves.serveActivate {args : List Byte} (h : Evolves τ true s₀ s) :
    Evolves τ true s₀ (s.serveActivate args) := by
  unfold State.serveActivate
  exact .ite h.mbxEnd (.ite h.mbxEnd (.ite h.mbxHold h.activate))

theorem Evolves.pauseEnds (h : Evolves τ μ s₀ s) : Evolves τ μ s₀ s.pauseEnds := h.set.onSvc

theorem Evolves.activated {slot loaded : Nat} (h : Evolves τ true s₀ s) :
    Evolves τ true s₀ (s.activated slot loaded) := by
  unfold State.activated
  extract_lets s2
  have h2 : Evolves τ true s₀ s2 := h.onPwr.cpStart.applyConfig.pauseEnds
  exact h2.mbxOk.raise

theorem Evolves.activationFails {slot loaded : Nat} (h : Evolves τ true s₀ s) :
    Evolves τ true s₀ (s.activationFails slot loaded) :=
  (h.selectorWrite.set (slotState_width slot)).cpStart.pauseEnds.mbxEnd

theorem Evolves.execActivationDone {ok : Bool} {failed : BitVec 3} (h : Evolves τ true s₀ s) :
    Answers τ true s₀ (execActivationDone ok s failed) := by
  unfold Machine.execActivationDone
  split
  · exact h
  · exact Evolves.ite h.activated h.activationFails

theorem Evolves.retire (h : Evolves τ μ s₀ s) : Evolves τ μ s₀ s.retire := by
  unfold State.retire
  exact .ite h h.set.flashQueue

theorem Evolves.serveConfirm (h : Evolves τ true s₀ s) : Evolves τ true s₀ s.serveConfirm := by
  unfold State.serveConfirm
  extract_lets s1 s2 s3
  have h1 : Evolves τ true s₀ s1 := h.selectorWrite.set
  have h2 : Evolves τ true s₀ s2 := h1.mbxOk.raise
  have h3 : Evolves τ true s₀ s3 := .ite h2.set.cfgAppend h2
  exact .ite h.mbxEnd (.ite h.mbxHold h3.retire)

theorem Evolves.serveAttest {args : List Byte} (h : Evolves τ true s₀ s) : Evolves τ true s₀ (s.serveAttest args) :=
  .ite h.mbxEnd h.mbxApplied.mbxEndWith

theorem Evolves.entryWritten (h : Evolves τ μ s₀ s) : Evolves τ μ s₀ s.entryWritten := h.set

theorem Evolves.fencesWritten (h : Evolves τ μ s₀ s) : Evolves τ μ s₀ s.fencesWritten := by
  unfold State.fencesWritten
  extract_lets w s1
  have h1 : Evolves τ μ s₀ s1 := h.onFlash
  exact h1.eraseAsked.onFlt.entryWritten

theorem Evolves.repairsWritten (h : Evolves τ μ s₀ s) : Evolves τ μ s₀ s.repairsWritten := by
  unfold State.repairsWritten
  extract_lets w s1
  have h1 : Evolves τ μ s₀ s1 := h.onFlash
  exact h1.eraseAsked.onFlt.entryWritten

/-- A journal record erased. -/
theorem Flash.Kept.eraseJournal {f : Flash} (h : f.Kept) (place : Nat) :
    ({ f with journal := sput f.journal place none none } : Flash).Kept := by
  refine ⟨h.1, fun p hp r hr => ?_⟩
  rcases mem_sput f.journal place none none p hp with rfl | hp
  · cases hr
  · exact h.2 p hp r hr

theorem Evolves.flashDone {x : FlashOp} (h : Evolves τ μ s₀ s) : Evolves τ μ s₀ (s.flashDone x) := by
  unfold State.flashDone
  split
  · exact h.cfgRecord
  · exact h.fencesWritten
  · exact h.repairsWritten
  · exact h.onFlash (fun _ => by split <;> rfl) (fun _ => by split <;> rfl)
  · exact h.forEach (fun _ _ h => h.onFlash_of rfl (fun _ k => k.eraseJournal _))
  · extract_lets s1
    have h1 : Evolves τ μ s₀ s1 := h.onFlash.cfgMarks
    exact .ite h1.set.raise h1

theorem Evolves.flashGivesUp {op : FlashOp} (h : Evolves τ μ s₀ s) : Evolves τ μ s₀ (s.flashGivesUp op) := by
  unfold State.flashGivesUp
  extract_lets lost s1
  have hlost : ∀ t, Evolves τ μ s₀ t → Evolves τ μ s₀ (lost t) := fun _ h => h.set.raise.entryWritten
  have h1 : Evolves τ μ s₀ s1 := h.erasesCount.flashFailed
  split
  · exact hlost _ h1.onFlt
  · exact hlost _ h1.onFlt
  · exact h1.set
  · exact h1

theorem Evolves.execFlashOpComplete {ok : Bool} (h : Evolves τ μ s₀ s) : Answers τ μ s₀ (execFlashOpComplete ok s) := by
  unfold Machine.execFlashOpComplete
  split
  · exact h
  · extract_lets s1
    have h1 : Evolves τ μ s₀ s1 := h.onSvc
    exact (Evolves.ite h1.flashDone h1.flashGivesUp).flashMarks

end

end Sys2Proof.Machine
end

