-- ==== Sys2Proof/Proofs/EvolvesSwatch.lean ====
section
/-! PROOFS. The swatch test, fence commands and fuses keep the relation of Evolves. -/

namespace Sys2Proof.Machine

set_option Elab.async false

section
variable {τ μ : Bool} {s₀ s : State}

theorem Evolves.replayHalt {n : Nat} (h : Evolves τ true s₀ s) : Evolves τ true s₀ (s.replayHalt n) := by
  unfold State.replayHalt
  extract_lets s1
  have h1 : Evolves τ true s₀ s1 := h.onSeq
  exact h1.dmaAbort.replayEnd

theorem Evolves.fenceGrotto {b event detail : Nat} (h : Evolves τ true s₀ s) :
    Evolves τ true s₀ (s.fenceGrotto b event detail) := by
  unfold State.fenceGrotto
  extract_lets s0 s1 s2
  have h0 : Evolves τ true s₀ s0 := h.onGrt_of rfl (fun _ g p hp => g.2.window p (Option.filter_eq_some_iff.mp hp).1)
  have h1 : Evolves τ true s₀ s1 := h0.setBit.set
  have h2 : Evolves τ true s₀ s2 := h1.forEach (fun _ _ h => h.replayHalt)
  exact .ite h.fencedTwice h2.grottoCause.fenceEntry.fenced

theorem Evolves.execSwatchPassStart (h : Evolves τ μ s₀ s) : Answers τ μ s₀ (execSwatchPassStart s) :=
  .ite (h.set.set.set.set.onFlt_of (fun _ _ => by rintro _ ⟨⟩)) h

theorem Evolves.patterned {b w : Nat} (h : Evolves τ true s₀ s) : Evolves τ true s₀ (s.patterned b w) :=
  h.forEach (fun _ _ h => h.putWord.drew)

/-- The window next in turn lies in a grotto that exists. -/
theorem FaultMgr.Kept.nextWindow {f : FaultMgr} (h : f.Kept) {b w : Nat} {again : Bool}
    (hnext : f.nextWindow = some (b, w, again)) : b < 64 := by
  unfold FaultMgr.nextWindow at hnext
  split at hnext
  · next hwalk =>
    obtain ⟨rfl, -⟩ := Prod.mk.inj (Option.some.inj hnext)
    exact Nat.div_lt_of_lt_mul (Nat.mul_comm 64 _ ▸ hwalk)
  · obtain ⟨p, hp, hpair⟩ := Option.map_eq_some_iff.mp hnext
    obtain ⟨rfl, -⟩ := Prod.mk.inj hpair
    exact h p (List.mem_of_mem_head? hp)

theorem FaultMgr.Kept.pastWindow {f : FaultMgr} (h : f.Kept) : f.pastWindow.Kept := by
  unfold FaultMgr.pastWindow
  split
  · exact h
  · exact fun p hp => h p (List.mem_of_mem_drop hp)

theorem Evolves.windowTested {b w : Nat} (h : Evolves τ true s₀ s) (hb : s₀.Good → b < 64) :
    Evolves τ true s₀ (s.windowTested b w) := by
  unfold State.windowTested
  extract_lets s1
  have h1 : Evolves τ true s₀ s1 := h.onFlt
  exact .ite h1.patterned (h1.onGrt_of rfl (fun g₀ _ => by rintro _ ⟨⟩; exact hb g₀))

theorem Evolves.windowLater {b w : Nat} (h : Evolves τ μ s₀ s) (hb : s₀.Good → b < 64) : Evolves τ μ s₀ (s.windowLater b w) :=
  h.onFlt_of (fun g₀ g => FaultMgr.Kept.snoc (p := (b, w)) g.2.retry (hb g₀))

theorem Evolves.columnFails {b c detail : Nat} (h : Evolves τ true s₀ s) :
    Evolves τ true s₀ (s.columnFails b c detail) := by
  unfold State.columnFails
  extract_lets r s1 s2
  have h1 : Evolves τ true s₀ s1 := h.onFlt
  have h2 : Evolves τ true s₀ s2 := h1.add.set
  split
  · exact h.logFault
  · split
    · exact h2.raise.logFault.entryQueue
    · exact h.fenceGrotto

theorem Evolves.windowFault {b : Nat} {result : SwatchResult} (h : Evolves τ true s₀ s) :
    Evolves τ true s₀ (s.windowFault b result) := by
  have h1 : Evolves τ true s₀ (((s.grottoCause b 3).raise 473).onFlt (fun f => { f with found := withBit f.found b })) :=
    h.grottoCause.raise.onFlt
  cases result with
  | column c => exact h1.columnFails
  | doubleBit => exact h1.fenceGrotto
  | _ => exact h1.fenceGrotto

theorem Evolves.execSwatchWindow {result : SwatchResult} (h : Evolves τ true s₀ s) :
    Answers τ true s₀ (execSwatchWindow result s) := by
  unfold Machine.execSwatchWindow
  split
  · exact h
  · split
    · exact h
    · next b w again hnext =>
      extract_lets s1 s2
      have hb : s₀.Good → b < 64 := fun g₀ => FaultMgr.Kept.nextWindow (h.good g₀).2.retry hnext
      have h2 : Evolves τ true s₀ s2 := h.set.set.set.onFlt_of (fun _ g => FaultMgr.Kept.pastWindow g.2.retry)
      split
      · exact h2.windowLater hb
      · split
        · exact h2.windowTested hb
        · exact (h2.windowLater hb).add
        · exact (h2.windowTested hb).windowFault

theorem Evolves.execSwatchPassEnd (h : Evolves τ μ s₀ s) : Answers τ μ s₀ (execSwatchPassEnd s) := by
  unfold Machine.execSwatchPassEnd
  extract_lets u s1 s2
  have h1 : Evolves τ μ s₀ s1 := h.set.set.raiseIf.raise
  have h2 : Evolves τ μ s₀ s2 := h1.add.onFlt
  exact .ite (Evolves.ite h2.add h2) h

theorem Evolves.fenceSeq {n event detail : Nat} (h : Evolves τ true s₀ s) :
    Evolves τ true s₀ (s.fenceSeq n event detail) := by
  unfold State.fenceSeq
  extract_lets st s1
  have h1 : Evolves τ true s₀ s1 := .ite h.replayHalt (.ite h.disarm h)
  exact h1.fenceSequencer

theorem Evolves.fenceTested {x : TestUnit} (h : Evolves τ true s₀ s) : Evolves τ true s₀ (s.fenceTested x) := by
  unfold State.fenceTested
  split
  · exact h.fenceDma
  · exact h.fenceFlow
  · exact h.fenceFlow
  · exact h.fenceSeq

theorem Evolves.execDatapathTestDone {unit : TestUnit} {passed : Bool} (h : Evolves τ true s₀ s) :
    Answers τ true s₀ (execDatapathTestDone unit passed s) := by
  unfold Machine.execDatapathTestDone
  extract_lets k s1
  have h1 : Evolves τ true s₀ s1 := h.onFlt
  exact .ite (Evolves.ite h1 h1.raise.fenceTested) h

theorem Evolves.fenceNow {cls i : Nat} (h : Evolves τ true s₀ s) : Evolves τ true s₀ (s.fenceNow cls i) := by
  unfold State.fenceNow
  split
  · exact .ite h.fenceSpare h.fenceSkein
  · exact h.fenceSeq
  · exact h.fencePc
  · exact h.fenceStack
  · exact h.fenceGrotto
  · exact h.fenceDma
  · exact h.fenceFlow
  · exact h.fenceFlow

theorem Evolves.fenceCleared {cls i : Nat} (h : Evolves τ μ s₀ s) : Evolves τ μ s₀ (s.fenceCleared cls i) := by
  unfold State.fenceCleared
  extract_lets s1
  have h1 : Evolves τ μ s₀ s1 := h.onFlt
  exact h1.entryQueue.raise

theorem Evolves.fenceCtrlWrite {value : Nat} (h : Evolves τ true s₀ s) : Evolves τ true s₀ (s.fenceCtrlWrite value) := by
  unfold State.fenceCtrlWrite
  extract_lets clear cls i s1 c
  have h1 : Evolves τ true s₀ s1 := h.set.set.set
  exact .ite h1 (.ite h1.set.set (.ite h1.fenceCleared h1.fenceNow))

theorem Evolves.execFenceUnit {value : DWord} (h : Evolves τ true s₀ s) : Answers τ true s₀ (execFenceUnit value s) :=
  h.gated (fun _ h => h.fenceCtrlWrite)

theorem Evolves.execFenceClear {value : DWord} (h : Evolves τ true s₀ s) :
    Answers τ true s₀ (execFenceClear value s) := h.gated (fun _ h => h.fenceCtrlWrite)

theorem Evolves.raiseSvn (h : Evolves τ μ s₀ s) : Evolves τ μ s₀ s.raiseSvn := .ite h (.ite h.set.raise h.set)

theorem Evolves.execRaiseSvn {value : DWord} (h : Evolves τ μ s₀ s) : Answers τ μ s₀ (execRaiseSvn value s) :=
  h.gated (fun _ h => h.raiseSvn)

theorem Evolves.execFuseBurnDone (h : Evolves τ μ s₀ s) : Answers τ μ s₀ (execFuseBurnDone s) :=
  .ite h.set.onSvc.raise h

end

end Sys2Proof.Machine
end

