-- ==== Sys2Proof/Proofs/EvolvesTwin.lean ====
section
/-! PROOFS. The twin link keeps the relation of Evolves. -/

namespace Sys2Proof.Machine

set_option Elab.async false

section
variable {τ μ : Bool} {s₀ s : State}

theorem Evolves.receive {type : Nat} {m : List Byte} {act : TwinIn → State → State} (h : Evolves τ μ s₀ s)
    (hact : ∀ x s, Evolves τ μ s₀ s → Evolves τ μ s₀ (act x s)) : Answers τ μ s₀ (s.receive type m act) := by
  unfold State.receive
  split
  · exact trivial
  · split
    · exact h
    · exact Evolves.ite (hact _ _ h.twinSend.onTwn) h.twinSend

theorem Evolves.execAck {payload : List Byte} (h : Evolves τ μ s₀ s) : Answers τ μ s₀ (execAck payload s) := by
  unfold Machine.execAck
  split
  · exact trivial
  · exact .ite h.onTwn h

theorem Evolves.execTwinResend (h : Evolves τ true s₀ s) : Answers τ true s₀ (execTwinResend s) := by
  unfold Machine.execTwinResend
  split
  · exact h
  · exact .ite h.onTwn.add h.twinStops

theorem Evolves.execTwinLinkUp (h : Evolves τ μ s₀ s) : Answers τ μ s₀ (execTwinLinkUp s) :=
  .ite h.set.set.raise.onTwn h

theorem Evolves.execLaneDrop {lane : Fin 8} (h : Evolves τ true s₀ s) : Answers τ true s₀ (execLaneDrop lane s) := by
  unfold Machine.execLaneDrop
  extract_lets s1
  have h1 : Evolves τ true s₀ s1 := h.set.raise.onTwn
  exact .ite (Evolves.ite h1.twinStops h1) h

theorem Evolves.takeRole {r : Nat} (h : Evolves τ μ s₀ s) : Evolves τ μ s₀ (s.takeRole r) := h.putRole.pinEdges

theorem Evolves.unpaired (h : Evolves τ μ s₀ s) : Evolves τ μ s₀ s.unpaired := h.takeRole.onTwn.onRcd

theorem Evolves.serveTwinPair {args : List Byte} (h : Evolves τ true s₀ s) :
    Evolves τ true s₀ (s.serveTwinPair args) := by
  unfold State.serveTwinPair
  extract_lets role s1
  have h1 : Evolves τ true s₀ s1 := .ite h.unpaired.set h.unpaired.onTwn.set
  exact .ite h.mbxEnd (.ite h.mbxEnd h1.mbxOk)

theorem Evolves.execHelloSend (h : Evolves τ μ s₀ s) : Answers τ μ s₀ (execHelloSend s) := .ite h h.twinSend

theorem Evolves.pairForms {serial : Nat} (h : Evolves τ μ s₀ s) : Evolves τ μ s₀ (s.pairForms serial) :=
  h.set.set.takeRole

theorem Evolves.execHello {payload : List Byte} (h : Evolves τ μ s₀ s) : Answers τ μ s₀ (execHello payload s) := by
  unfold Machine.execHello
  split
  · exact trivial
  · exact .ite h (.ite (Evolves.ite h.pairForms h.raise) (.ite h.goSolo.takeRole h))

theorem Evolves.disagree {ledger : Option (Nat × Nat)} {digest : Option Nat} (h : Evolves τ μ s₀ s) :
    Evolves τ μ s₀ (s.disagree ledger digest) := by
  unfold State.disagree
  extract_lets s1 s2
  have h1 : Evolves τ μ s₀ s1 := h.raiseIf.raiseIf.add
  have h2 : Evolves τ μ s₀ s2 := h1.set.set
  exact .ite h h2.set.set

theorem Evolves.handoverRecords {epoch : Nat} (h : Evolves τ μ s₀ s) : Evolves τ μ s₀ (s.handoverRecords epoch) :=
  h.forEach (fun _ _ h => h.onRcd)

theorem Evolves.lastLedgers (h : Evolves τ μ s₀ s) : Evolves τ μ s₀ s.lastLedgers := h.onTwn

theorem Evolves.agree {e : Nat} (h : Evolves τ μ s₀ s) : Evolves τ μ s₀ (s.agree e) := by
  unfold State.agree
  extract_lets mine theirs before ledger s1 s2
  have h1 : Evolves τ μ s₀ s1 := h.set.disagree
  have h2 : Evolves τ μ s₀ s2 := h1.onTwn
  exact .ite h (.ite h2.lastLedgers.handoverRecords h2)

theorem Evolves.newLeadAt {epoch : Nat} (h : Evolves τ μ s₀ s) : Evolves τ μ s₀ (s.newLeadAt epoch) := h.takeRole.set.add.raise

theorem Evolves.takeLead {why : Nat} (h : Evolves τ μ s₀ s) : Evolves τ μ s₀ (s.takeLead why) := by
  unfold State.takeLead
  extract_lets epoch s1
  have h1 : Evolves τ μ s₀ s1 := h.newLeadAt.goSolo.lastLedgers.onTwn
  exact h1.handoverRecords.logFault

theorem Evolves.execFault {payload : List Byte} (h : Evolves τ μ s₀ s) : Answers τ μ s₀ (execFault payload s) :=
  h.receive (fun _ _ h => .ite h (.ite h.raise.takeLead h.raise))

theorem Evolves.execHandover {payload : List Byte} (h : Evolves τ μ s₀ s) : Answers τ μ s₀ (execHandover payload s) :=
  h.receive (fun _ _ h => .ite h.onTwn h)

theorem Evolves.serveTwinHandover (h : Evolves τ true s₀ s) : Evolves τ true s₀ s.serveTwinHandover := by
  unfold State.serveTwinHandover
  exact .ite h.twinSend.onTwn.mbxOk h.mbxEnd

theorem Evolves.handOverNow {e : Nat} (h : Evolves τ μ s₀ s) : Evolves τ μ s₀ (s.handOverNow e) := by
  unfold State.handOverNow
  extract_lets s1 s2
  have h1 : Evolves τ μ s₀ s1 := h.onTwn
  have h2 : Evolves τ μ s₀ s2 := h1.newLeadAt.onTwn
  exact .ite h (.ite h1 (.ite h1.takeRole (.ite h2.logFault h1)))

theorem Evolves.execEpoch {payload : List Byte} (h : Evolves τ μ s₀ s) : Answers τ μ s₀ (execEpoch payload s) :=
  h.receive (fun _ _ h => .ite h (.ite h.onTwn.takeLead h.onTwn.agree))

theorem Evolves.execEpochMessageTimeout (h : Evolves τ μ s₀ s) : Answers τ μ s₀ (execEpochMessageTimeout s) := by
  unfold Machine.execEpochMessageTimeout
  exact .ite h.takeLead h

theorem Evolves.execLinkSilence (h : Evolves τ true s₀ s) : Answers τ true s₀ (execLinkSilence s) :=
  .ite h.takeLead.twinStops h.twinStops

theorem Evolves.answerCommand {code tag : Nat} {args : List Byte} (h : Evolves τ μ s₀ s) :
    Evolves τ μ s₀ (s.answerCommand code tag args) := by
  unfold State.answerCommand
  exact h.twinSend

theorem Evolves.followCommand {body : List Byte} (h : Evolves τ μ s₀ s) : Evolves τ μ s₀ (s.followCommand body) := by
  unfold State.followCommand
  extract_lets code args s1
  have h1 : Evolves τ μ s₀ s1 := h.rejoin
  exact .ite h (.ite h1.answerCommand (.ite h1.actCommand.fst h1))

theorem Evolves.unmirror (h : Evolves τ μ s₀ s) : Evolves τ μ s₀ s.unmirror := h.onTwn

theorem Evolves.secondExchange {c : MbxCmd} (h : Evolves τ true s₀ s) : Evolves τ true s₀ (s.secondExchange c) := by
  unfold State.secondExchange
  extract_lets n at_ s1 r
  have h1 : Evolves τ true s₀ s1 := h.twinSend
  have hr : With τ true s₀ r := h1.actCommand
  exact hr.fst.mbxOk

theorem Evolves.leadAnswered {c : MbxCmd} {body : List Byte} (h : Evolves τ true s₀ s) :
    Evolves τ true s₀ (s.leadAnswered c body) := by
  unfold State.leadAnswered
  extract_lets result s1
  have h1 : Evolves τ true s₀ s1 := h.unmirror
  split
  · exact h1.mbxHold
  · split
    · exact .ite h1.mbxEnd.raise h1.actAlone.goSolo
    · split
      · exact h1.mbxEnd.raise
      · split
        · exact h1.checkFailed.mbxEnd
        · exact h1.mbxHold
        · exact h1.secondExchange

theorem Evolves.leadCommand {body : List Byte} (h : Evolves τ true s₀ s) : Evolves τ true s₀ (s.leadCommand body) := by
  unfold State.leadCommand
  split
  · exact h
  · exact .ite h.leadAnswered h

theorem Evolves.execCommand {payload : List Byte} (h : Evolves τ true s₀ s) : Answers τ true s₀ (execCommand payload s) :=
  h.receive (fun _ _ h => .ite h.followCommand (.ite h.leadCommand h))

theorem Evolves.checkFails {e : Nat} (h : Evolves τ μ s₀ s) : Evolves τ μ s₀ (s.checkFails e) := by
  unfold State.checkFails
  extract_lets s1
  have h1 : Evolves τ μ s₀ s1 := h.set.set.raise
  exact h1.logFault.interruptAll

theorem Evolves.recordsDue {e : Nat} (h : Evolves τ μ s₀ s) : Evolves τ μ s₀ (s.recordsDue e) :=
  h.forEach (fun _ _ h => h.onRcd)

theorem Evolves.epochSent {e : Nat} {passed : Bool} (h : Evolves τ μ s₀ s) : Evolves τ μ s₀ (s.epochSent e passed) := by
  unfold State.epochSent
  exact .ite h.twinSendAt.onTwn.agree (.ite h h.onTwn)

theorem Evolves.epochPulse {b : Nat} (h : Evolves true μ s₀ s) : Evolves true μ s₀ (s.epochPulse b) := .ite h.onClk h

theorem Evolves.dropImages {e : Nat} (h : Evolves τ μ s₀ s) : Evolves τ μ s₀ (s.dropImages e) := h.onRcd

theorem Evolves.epochEnds {b e : Nat} {counts : List (Fin 73 × DWord)} (h : Evolves true μ s₀ s) :
    Evolves true μ s₀ (s.epochEnds b e counts) := by
  unfold State.epochEnds
  extract_lets passed s1 s2 s3
  have h1 : Evolves true μ s₀ s1 := h.recordsDue.add
  have h2 : Evolves true μ s₀ s2 := h1.epochSent.dropImages
  have h3 : Evolves true μ s₀ s3 := .ite h2 h2.checkFails
  exact h3.handOverNow.epochPulse.onRcd.onClk

theorem Evolves.execEpochBoundary {counts : List (Fin 73 × DWord)} (h : Evolves true μ s₀ s) :
    Answers true μ s₀ (execEpochBoundary counts s) := by
  unfold Machine.execEpochBoundary
  exact .ite h.epochEnds h

end

end Sys2Proof.Machine
end

