-- ==== Sys2Proof/Proofs/EvolvesMailbox.lean ====
section
/-! PROOFS. The mailbox and the control processor keep the relation of Evolves. -/

namespace Sys2Proof.Machine

set_option Elab.async false

section
variable {τ μ : Bool} {s₀ s : State}

theorem Evolves.mbxBulk {reply : List Byte} (h : Evolves τ true s₀ s) : Evolves τ true s₀ (s.mbxBulk reply) :=
  h.mbxApplied.mbxEndWith

theorem Evolves.serve {c : MbxCmd} (h : Evolves true true s₀ s) : Evolves true true s₀ (s.serve c) := by
  unfold State.serve
  split
  · exact h.snapAsked
  · exact h.servePlanAdmit
  · exact h.servePark
  · exact h.serveWake
  · exact h.serveActivate
  · exact h.serveConfirm
  · exact h.serveAttest
  · exact h.snapAsked
  · exact h.serveCalendarSet
  · exact h.mbxBulk
  · exact h.mbxBulk
  · exact h.serveTwinPair
  · exact h.serveTwinHandover
  · exact h.serveReplaySetup
  · exact .ite h.serveMirrored h.mbxEnd

theorem Evolves.mbxTake {c : MbxCmd} (h : Evolves true true s₀ s) : Evolves true true s₀ (s.mbxTake c) :=
  h.set.onMbx.serve

theorem Evolves.doorbellBusy (h : Evolves τ μ s₀ s) : Evolves τ μ s₀ s.doorbellBusy := h.set.raise

theorem Evolves.doorbell (h : Evolves true true s₀ s) : Evolves true true s₀ s.doorbell := .ite h.doorbellBusy h.mbxTake

theorem Evolves.issued {code : Nat} {tag : BitVec 16} {args : List Byte} (h : Evolves true true s₀ s) :
    Evolves true true s₀ (s.issued code tag args) := .ite h.doorbellBusy h.putBar4.set.set.set.mbxTake

theorem Evolves.ring {code : Nat} {tag : BitVec 16} {args : List Byte} (h : Evolves true true s₀ s) :
    Answers true true s₀ (s.ring code tag args) := .ite trivial (h.gated (fun _ h => h.issued))

theorem Evolves.execEcho {tag : BitVec 16} (h : Evolves true true s₀ s) : Answers true true s₀ (execEcho tag s) :=
  h.ring

theorem Evolves.execPlanAdmit {tag : BitVec 16} {args : List Byte} (h : Evolves true true s₀ s) :
    Answers true true s₀ (execPlanAdmit tag args s) := h.ring

theorem Evolves.execPlanRelease {tag : BitVec 16} {args : List Byte} (h : Evolves true true s₀ s) :
    Answers true true s₀ (execPlanRelease tag args s) := h.ring

theorem Evolves.execCastOn {tag : BitVec 16} {args : List Byte} (h : Evolves true true s₀ s) :
    Answers true true s₀ (execCastOn tag args s) := h.ring

theorem Evolves.execBindOff {tag : BitVec 16} {args : List Byte} (h : Evolves true true s₀ s) :
    Answers true true s₀ (execBindOff tag args s) := h.ring

theorem Evolves.execArm {tag : BitVec 16} {args : List Byte} (h : Evolves true true s₀ s) :
    Answers true true s₀ (execArm tag args s) := h.ring

theorem Evolves.execForceTrigger {tag : BitVec 16} {args : List Byte} (h : Evolves true true s₀ s) :
    Answers true true s₀ (execForceTrigger tag args s) := h.ring

theorem Evolves.execSegmentRelease {tag : BitVec 16} {args : List Byte} (h : Evolves true true s₀ s) :
    Answers true true s₀ (execSegmentRelease tag args s) := h.ring

theorem Evolves.execQuotaSet {tag : BitVec 16} {args : List Byte} (h : Evolves true true s₀ s) :
    Answers true true s₀ (execQuotaSet tag args s) := h.ring

theorem Evolves.execPark {tag : BitVec 16} (h : Evolves true true s₀ s) : Answers true true s₀ (execPark tag s) :=
  h.ring

theorem Evolves.execWake {tag : BitVec 16} (h : Evolves true true s₀ s) : Answers true true s₀ (execWake tag s) :=
  h.ring

theorem Evolves.execActivate {tag : BitVec 16} {args : List Byte} (h : Evolves true true s₀ s) :
    Answers true true s₀ (execActivate tag args s) := h.ring

theorem Evolves.execConfirm {tag : BitVec 16} (h : Evolves true true s₀ s) :
    Answers true true s₀ (execConfirm tag s) := h.ring

theorem Evolves.execAttest {tag : BitVec 16} {args : List Byte} (h : Evolves true true s₀ s) :
    Answers true true s₀ (execAttest tag args s) := h.ring

theorem Evolves.execLifeRead {tag : BitVec 16} (h : Evolves true true s₀ s) :
    Answers true true s₀ (execLifeRead tag s) := h.ring

theorem Evolves.execCalendarSet {tag : BitVec 16} {args : List Byte} (h : Evolves true true s₀ s) :
    Answers true true s₀ (execCalendarSet tag args s) := h.ring

theorem Evolves.execSelftestReport {tag : BitVec 16} (h : Evolves true true s₀ s) :
    Answers true true s₀ (execSelftestReport tag s) := h.ring

theorem Evolves.execFenceRead {tag : BitVec 16} (h : Evolves true true s₀ s) :
    Answers true true s₀ (execFenceRead tag s) := h.ring

theorem Evolves.execTwinPair {tag : BitVec 16} {args : List Byte} (h : Evolves true true s₀ s) :
    Answers true true s₀ (execTwinPair tag args s) := h.ring

theorem Evolves.execTwinHandover {tag : BitVec 16} (h : Evolves true true s₀ s) :
    Answers true true s₀ (execTwinHandover tag s) := h.ring

theorem Evolves.execReplaySetup {tag : BitVec 16} {args : List Byte} (h : Evolves true true s₀ s) :
    Answers true true s₀ (execReplaySetup tag args s) := h.ring

theorem Evolves.execUnknownCommand {code : Byte} {tag : BitVec 16} (h : Evolves true true s₀ s) :
    Answers true true s₀ (execUnknownCommand code tag s) := .ite trivial h.ring

theorem Evolves.cancelWrite (h : Evolves τ true s₀ s) : Evolves τ true s₀ s.cancelWrite := .ite h.unmirror.mbxEnd h

theorem Evolves.execCancel (h : Evolves τ true s₀ s) : Answers τ true s₀ (execCancel s) :=
  h.gated (fun _ h => h.cancelWrite)

theorem Evolves.execHeldProceed (h : Evolves true true s₀ s) : Answers true true s₀ (execHeldProceed s) := by
  unfold Machine.execHeldProceed
  split
  · exact h
  · exact .ite h.serve h

theorem Evolves.execWatchdogRestart (h : Evolves τ μ s₀ s) : Answers τ μ s₀ (execWatchdogRestart s) :=
  Evolves.ite h.onMbx h

theorem Evolves.controlReset {cause : Nat} (h : Evolves τ μ s₀ s) : Evolves τ μ s₀ (s.controlReset cause) := by
  unfold State.controlReset
  extract_lets event s1 s2 s3
  have h1 : Evolves τ μ s₀ s1 := h.releaseHolds.interruptAll.twinFault.logFault
  have h2 : Evolves τ μ s₀ s2 := h1.cpStops.setEach.unmirror
  have h3 : Evolves τ μ s₀ s3 := h2.set.set.set
  have hcount : (if cause = 1 then MBX_CPU_RESETS_WATCHDOG.one else MBX_CPU_RESETS_LOCKSTEP.one).width ≤ 64 := by
    split <;> exact Nat.le_of_ble_eq_true rfl
  exact (h3.add hcount).onMbx

theorem Evolves.execWatchdogFire (h : Evolves τ μ s₀ s) : Answers τ μ s₀ (execWatchdogFire s) :=
  Evolves.ite h.controlReset.putCause h

theorem Evolves.execLockstepMismatch (h : Evolves τ μ s₀ s) : Answers τ μ s₀ (execLockstepMismatch s) :=
  Evolves.ite h.controlReset h

theorem Evolves.restartImage (h : Evolves τ μ s₀ s) : With τ μ s₀ s.restartImage := by
  unfold State.restartImage
  extract_lets s1 k
  have h1 : Evolves τ μ s₀ s1 := h.trialStart
  exact .ite (.mk h1) (.ite (.mk h1.selectorWrite.raise.onPwr) (.mk h1.recoveryMode.set))

theorem Evolves.abandonEnds (h : Evolves τ true s₀ s) : Evolves τ true s₀ s.abandonEnds := by
  unfold State.abandonEnds
  split
  · exact h
  · exact h.onMbx.mbxEnd

theorem Evolves.fellBack {slot : Nat} (h : Evolves τ μ s₀ s) : Evolves τ μ s₀ (s.fellBack slot) :=
  .ite h h.set.applyConfig

theorem Evolves.execCpRestartDone {loaded : BitVec 3} {millis : BitVec 16} (h : Evolves τ true s₀ s) :
    Answers τ true s₀ (execCpRestartDone loaded millis s) := by
  unfold Machine.execCpRestartDone
  extract_lets r s1
  have hr : With τ true s₀ r := h.restartImage
  have h1 : Evolves τ true s₀ s1 := hr.fst.cpStart.fellBack.set.set
  exact .ite h (.ite hr.fst h1.raise.raiseIf.onMbx.abandonEnds)

end

end Sys2Proof.Machine
end

