-- ==== Sys2Proof/Proofs/EvolvesService.lean ====
section
/-! PROOFS. The service port keeps the relation of Evolves. -/

namespace Sys2Proof.Machine

set_option Elab.async false

section
variable {τ μ : Bool} {s₀ s : State}

theorem Evolves.portOut {bytes : List Byte} (h : Evolves τ μ s₀ s) : Evolves τ μ s₀ (s.portOut bytes) := h.onSvc

theorem Evolves.execReadStatus (h : Evolves τ μ s₀ s) : Answers τ μ s₀ (execReadStatus s) := h.portOut.onSvc

theorem Evolves.portErr {code cause : Nat} (h : Evolves τ μ s₀ s) : Evolves τ μ s₀ (s.portErr code cause) := h.set.set

theorem Evolves.execUnknownOpcode {op : Byte} (h : Evolves τ μ s₀ s) : Answers τ μ s₀ (execUnknownOpcode op s) :=
  .ite trivial h.portErr

theorem Evolves.resetTaken (h : Evolves true true s₀ s) : Evolves true true s₀ s.resetTaken := by
  unfold State.resetTaken
  split
  · exact h.portReset
  · exact h

theorem Evolves.execReadFrame {count : BitVec 16} (h : Evolves true true s₀ s) :
    Answers true true s₀ (execReadFrame s count) := by
  unfold Machine.execReadFrame
  split
  · exact h.set.portOut
  · extract_lets s1
    have h1 : Evolves true true s₀ s1 := h.portOut.onSvc.add
    exact .ite h.portOut h1.resetTaken

theorem Evolves.frameRejected {code cause : Nat} (h : Evolves τ μ s₀ s) :
    Evolves τ μ s₀ (s.frameRejected code cause) := h.portErr.add.onSvc.raise

theorem Evolves.execKspFrameReject {flaw : FrameFlaw} {code : Option Byte} (h : Evolves τ μ s₀ s) :
    Answers τ μ s₀ (execKspFrameReject flaw s code) := by
  unfold Machine.execKspFrameReject
  extract_lets cause
  split
  · exact h.frameRejected
  · exact h.frameRejected.drew

theorem Evolves.request {code : Nat} {tag : BitVec 16} {payload : List Byte} {serve : State → State} (h : Evolves τ μ s₀ s)
    (hserve : ∀ s, Evolves τ μ s₀ s → Evolves τ μ s₀ (serve s)) : Answers τ μ s₀ (s.request code tag payload serve) :=
  .ite trivial (.ite h.frameRejected (hserve _ h.add.raise.onSvc))

theorem Evolves.portEnd {result : Nat} {reply : List Byte} (h : Evolves τ μ s₀ s) :
    Evolves τ μ s₀ (s.portEnd result reply) := by
  unfold State.portEnd
  split
  · exact h.portReply
  · exact h

theorem Evolves.portBad {off : Nat} (h : Evolves τ μ s₀ s) : Evolves τ μ s₀ (s.portBad off) := h.portEnd

theorem Evolves.execKspId {tag : BitVec 16} (h : Evolves τ μ s₀ s) : Answers τ μ s₀ (execKspId tag s) :=
  h.request (fun _ h => h.portEnd)

theorem Evolves.execKspStatus {tag : BitVec 16} (h : Evolves τ μ s₀ s) : Answers τ μ s₀ (execKspStatus tag s) :=
  h.request (fun _ h => h.portEnd)

theorem Evolves.execEchoLite {tag : BitVec 16} (h : Evolves true μ s₀ s) : Answers true μ s₀ (execEchoLite tag s) :=
  h.request (fun _ h => .ite h.portEnd h.snapAsked)

theorem Evolves.execKspReset {tag : BitVec 16} {payload : List Byte} {straps : Straps} (h : Evolves τ μ s₀ s) :
    Answers τ μ s₀ (execKspReset tag payload s straps) := h.request (fun _ h => .ite h.portEnd.onSvc h.portBad)

theorem Evolves.execResetReplyTimeout (h : Evolves true true s₀ s) : Answers true true s₀ (execResetReplyTimeout s) :=
  h.resetTaken

theorem Evolves.execHoldRelease {tag : BitVec 16} (h : Evolves τ μ s₀ s) : Answers τ μ s₀ (execHoldRelease tag s) :=
  h.request (fun _ h => by
      extract_lets s1
      have h1 : Evolves τ μ s₀ s1 := h.releaseHolds.forEach (fun _ _ h => h.raiseIf)
      exact h1.raise.portEnd)

theorem Evolves.execKspLifeRead {tag : BitVec 16} (h : Evolves τ μ s₀ s) : Answers τ μ s₀ (execKspLifeRead tag s) :=
  h.request (fun _ h => h.portEnd)

theorem Evolves.execKspUnknownCode {code : Byte} {tag : BitVec 16} (h : Evolves τ μ s₀ s) :
    Answers τ μ s₀ (execKspUnknownCode code tag s) := .ite trivial (h.request (fun _ h => h.portEnd))

theorem Evolves.eraseSlotSector {slot k : Nat} (h : Evolves τ true s₀ s) :
    Evolves τ true s₀ (s.eraseSlotSector slot k) :=
  (h.writeFlash (fun ⟨slots, journal⟩ => ⟨canonical_filter _ slots, journal⟩)).sectorErased

theorem Evolves.programByte {slot i : Nat} {b : Byte} (h : Evolves τ true s₀ s) :
    Evolves τ true s₀ (s.programByte slot i b) :=
  h.writeFlash (fun ⟨slots, journal⟩ => ⟨canonical_sput _ _ slots, journal⟩)

theorem Evolves.dropDownload (h : Evolves τ μ s₀ s) : Evolves τ μ s₀ s.dropDownload :=
  .ite (h.set (slotState_width _)).set h

theorem Evolves.serveDlBegin {p : List Byte} (h : Evolves τ true s₀ s) : Evolves τ true s₀ (s.serveDlBegin p) := by
  unfold State.serveDlBegin
  split
  · exact h.portBad
  · extract_lets slot s1 s2 s3
    have h1 : Evolves τ true s₀ s1 := h.dropDownload.eraseSlotSector.slotHeader.set (slotState_width slot)
    have h2 : Evolves τ true s₀ s2 := h1.set.set.set
    have h3 : Evolves τ true s₀ s3 := h2.onSvc
    exact .ite h.portEnd h3.raise.portEnd

theorem Evolves.takeByte {slot i : Nat} {b : Byte} (h : Evolves τ true s₀ s) :
    Evolves τ true s₀ (s.takeByte slot i b) := by
  unfold State.takeByte
  extract_lets s1
  have h1 : Evolves τ true s₀ s1 := .ite h.eraseSlotSector h
  exact .ite h1.onSvc h1.programByte

theorem Evolves.serveDlData {p : List Byte} (h : Evolves τ true s₀ s) : Evolves τ true s₀ (s.serveDlData p) := by
  unfold State.serveDlData
  split
  · exact h.portEnd
  · extract_lets slot received
    split
    · exact h.portBad
    · exact .ite h.portBad (h.forEach (fun _ _ h => h.takeByte)).set.portEnd

theorem Evolves.serveDlEnd (h : Evolves τ true s₀ s) : Evolves τ true s₀ s.serveDlEnd := by
  unfold State.serveDlEnd
  extract_lets slot s1 s2
  have h1 : Evolves τ true s₀ s1 := h.forEach (fun _ _ h => h.programByte)
  have h2 : Evolves τ true s₀ s2 := (h1.slotHeader.set (slotState_width slot)).set.onSvc
  exact .ite h.portEnd h2.raise.portEnd

theorem Evolves.serveSelect {p : List Byte} (h : Evolves τ μ s₀ s) : Evolves τ μ s₀ (s.serveSelect p) := by
  unfold State.serveSelect
  exact .ite h.portEnd (.ite h.portBad (.ite h.portEnd h.selectorWrite.portEnd))

theorem Evolves.serveWriter {code : Nat} {p : List Byte} (h : Evolves τ true s₀ s) :
    Evolves τ true s₀ (s.serveWriter code p) := by
  unfold State.serveWriter
  split
  · exact h.portEnd
  · split
    · exact h
    · split
      · exact h.serveDlBegin
      · exact h.serveDlData
      · exact h.serveDlEnd
      · exact h.serveSelect

theorem Evolves.execDlBegin {tag : BitVec 16} {payload : List Byte} (h : Evolves τ true s₀ s) :
    Answers τ true s₀ (execDlBegin tag payload s) := h.request (fun _ h => h.serveWriter)

theorem Evolves.execDlData {tag : BitVec 16} {payload : List Byte} (h : Evolves τ true s₀ s) :
    Answers τ true s₀ (execDlData tag payload s) := h.request (fun _ h => h.serveWriter)

theorem Evolves.execDlEnd {tag : BitVec 16} {payload : List Byte} (h : Evolves τ true s₀ s) :
    Answers τ true s₀ (execDlEnd tag payload s) := h.request (fun _ h => h.serveWriter)

theorem Evolves.execSelect {tag : BitVec 16} {payload : List Byte} (h : Evolves τ true s₀ s) :
    Answers τ true s₀ (execSelect tag payload s) := h.request (fun _ h => h.serveWriter)

theorem Evolves.portResumes (h : Evolves τ true s₀ s) : Evolves τ true s₀ s.portResumes := by
  unfold State.portResumes
  split
  · exact .ite h.serveWriter h
  · exact h

theorem Evolves.execBrownoutEnd {since : BitVec 48} (h : Evolves τ true s₀ s) :
    Answers τ true s₀ (execBrownoutEnd s since) := Evolves.ite h.episodeEnds.portResumes h

theorem Evolves.serveVerify {p : List Byte} (h : Evolves τ μ s₀ s) : Evolves τ μ s₀ (s.serveVerify p) := by
  unfold State.serveVerify
  extract_lets slot reason digest s1 s2
  have h1 : Evolves τ μ s₀ s1 := (h.set (slotState_width slot)).set.set.set
  have h2 : Evolves τ μ s₀ s2 := h1.set.drew.onSvc
  exact .ite h.portEnd (.ite h.portBad h2.raise.portEnd)

theorem Evolves.execVerify {tag : BitVec 16} {payload : List Byte} (h : Evolves τ μ s₀ s) :
    Answers τ μ s₀ (execVerify tag payload s) := h.request (fun _ h => h.serveVerify)

theorem Evolves.forward {code : Nat} {tag : BitVec 16} {args : List Byte} (h : Evolves true true s₀ s) :
    Evolves true true s₀ (s.forward code tag args) := .ite h.portEnd h.onSvc.mbxTake

theorem Evolves.execKspActivate {tag : BitVec 16} {payload : List Byte} (h : Evolves true true s₀ s) :
    Answers true true s₀ (execKspActivate tag payload s) := h.request (fun _ h => h.forward)

theorem Evolves.execKspConfirm {tag : BitVec 16} {payload : List Byte} (h : Evolves true true s₀ s) :
    Answers true true s₀ (execKspConfirm tag payload s) := h.request (fun _ h => h.forward)

theorem Evolves.execKspAttest {tag : BitVec 16} {payload : List Byte} (h : Evolves true true s₀ s) :
    Answers true true s₀ (execKspAttest tag payload s) := h.request (fun _ h => h.forward)

theorem Evolves.execForwardAbandonTimeout (h : Evolves τ μ s₀ s) : Answers τ μ s₀ (execForwardAbandonTimeout s) :=
  Evolves.ite h.portEnd h

theorem Evolves.snapServes (h : Evolves τ true s₀ s) : Evolves τ true s₀ s.snapServes :=
  .ite h.putBar4.set.mbxOk (.ite h.mbxBulk h)

theorem Evolves.liteServes (h : Evolves τ μ s₀ s) : Evolves τ μ s₀ s.liteServes := .ite h.portEnd h

theorem Evolves.execSnapshotTaken (h : Evolves true true s₀ s) : Answers true true s₀ (execSnapshotTaken s) := by
  unfold Machine.execSnapshotTaken
  extract_lets s1
  have h1 : Evolves true true s₀ s1 := .ite h.takeSnapshot.snapServes h.takeSnapshot
  exact .ite (Evolves.ite h1.liteServes h1) h

end

end Sys2Proof.Machine
end

