-- ==== Sys2Proof/Proofs/EvolvesEndpoint.lean ====
section
/-! PROOFS. The endpoint and the HBM aperture keep the relation of Evolves. -/

namespace Sys2Proof.Machine

set_option Elab.async false

section
variable {τ μ : Bool} {s₀ s : State}

theorem Evolves.execPerstN {low : Bool} (h : Evolves τ μ s₀ s) : Answers τ μ s₀ (execPerstN s low) :=
  h.onLink (fun _ => by split <;> rfl)

theorem Evolves.execFunctionLevelReset (h : Evolves τ μ s₀ s) : Answers τ μ s₀ (execFunctionLevelReset s) := h.onLink

@[simp] theorem Link.release_bar4 (l : Link) (v : Nat) : (l.release v).bar4 = l.bar4 := by
  unfold Link.release
  split
  · exact Link.request_bar4 _ v
  · rfl

@[simp] theorem Link.msixControl_bar4 (l : Link) (enable mask : Bool) : (l.msixControl enable mask).bar4 = l.bar4 :=
  List.foldlRecOn (motive := fun k : Link => k.bar4 = l.bar4) (upto 64) Link.release rfl
    (fun k hk v _ => (Link.release_bar4 k v).trans hk)

@[simp] theorem Link.configWrite_bar4 (l : Link) (reg value : Nat) : (l.configWrite reg value).bar4 = l.bar4 := by
  unfold Link.configWrite
  split
  · rfl
  · split
    · rfl
    · split
      · rfl
      · split
        · exact Link.msixControl_bar4 l _ _
        · split
          · split <;> rfl
          · rfl

theorem Evolves.execConfigurationRequest {write : Bool} {reg : BitVec 12} {value : DWord} (h : Evolves τ μ s₀ s) :
    Answers τ μ s₀ (execConfigurationRequest write reg value s) :=
  .ite h (.ite h.onLink (.ite (h.onLink (fun l => l.configWrite_bar4 _ _)) h.readDone.drew))

theorem Evolves.execUnsupportedRequest (h : Evolves τ μ s₀ s) : Answers τ μ s₀ (execUnsupportedRequest s) := h.onLink

theorem Evolves.execAerCorrectableError (h : Evolves τ μ s₀ s) : Answers τ μ s₀ (execAerCorrectableError s) :=
  h.onLink.raise

theorem Evolves.execPcieLinkChange {up : Bool} {lanes : Lanes} {speed : Fin 6} (h : Evolves τ μ s₀ s) :
    Answers τ μ s₀ (execPcieLinkChange up lanes speed s) := by
  have hall : (linkStatus up lanes speed.val).all (fun p => p.1.width.ble 64) = true := rfl
  have hwidth : ∀ p ∈ linkStatus up lanes speed.val, p.1.width ≤ 64 :=
    fun p hp => Nat.le_of_ble_eq_true (List.all_eq_true.mp hall p hp)
  exact .ite trivial (h.forEach_mem (fun p hp _ h => h.set (hwidth p hp))).raiseIf

@[simp] theorem Link.sendMessage_bar4 (l : Link) (v : Nat) (holdoff : Bool) : (l.sendMessage v holdoff).bar4 = l.bar4 := by
  unfold Link.sendMessage
  cases holdoff <;> rfl

theorem Evolves.execMsixMessageSend {v : Fin 64} (h : Evolves τ μ s₀ s) : Answers τ μ s₀ (execMsixMessageSend v s) :=
  .ite h (.ite h.onLink (h.onLink (fun l => l.sendMessage_bar4 _ _)).add)

/-- The endpoint replaced by one with the same BAR4. -/
theorem Evolves.sameBar4 {l : Link} (h : Evolves τ μ s₀ s) (hl : l.bar4 = s.link.bar4) : Evolves τ μ s₀ { s with link := l } :=
  h.extend (fun _ g => by
    obtain ⟨stores, hbm, grt, bar4, others⟩ := (State.good_iff s).mp g
    exact (State.good_iff _).mpr ⟨stores, hbm, grt, hl ▸ bar4, others⟩) rfl (fun _ => ⟨rfl, rfl⟩)
    (fun _ => by simp [State.memories, hl])

theorem Evolves.execHoldoffExpiry {v : Fin 64} (h : Evolves τ μ s₀ s) : Answers τ μ s₀ (execHoldoffExpiry v s) := by
  unfold Machine.execHoldoffExpiry
  extract_lets l l1
  split
  · exact h
  · refine h.sameBar4 ?_
    split
    · exact Link.deliver_bar4 l1 v
    · rfl

@[simp] theorem Link.maskVector_bar4 (l : Link) (v : Nat) (m : Bool) : (l.maskVector v m).bar4 = l.bar4 :=
  Link.release_bar4 _ v

theorem Evolves.execVectorUnmask {v : Fin 64} (h : Evolves τ μ s₀ s) : Answers τ μ s₀ (execVectorUnmask v s) :=
  Evolves.ite (h.onLink (fun l => l.maskVector_bar4 _ _)) h

theorem Evolves.apertureNote {f : RegField} (h : Evolves τ μ s₀ s)
    (hf : f.one.width ≤ 64 := by exact Nat.le_of_ble_eq_true rfl) : Evolves τ μ s₀ (s.apertureNote f) := (h.set hf).raise

theorem Evolves.apertureMiss {x : Reach} (h : Evolves τ μ s₀ s) : Evolves τ μ s₀ (s.apertureMiss x) := by
  unfold State.apertureMiss
  split
  · exact h.apertureNote
  · exact h.apertureNote
  · exact h.apertureNote
  · exact h

theorem Evolves.apertureBurst {a : Nat} {finding : EccFinding} (h : Evolves τ true s₀ s) :
    With τ true s₀ (s.apertureBurst a finding) := by
  unfold State.apertureBurst
  split
  · extract_lets s1
    have h1 : Evolves τ true s₀ s1 := h.wakePc.eccRead
    exact .mk h1
  · exact .mk h
  · exact .mk h.apertureMiss

theorem Evolves.apertureFetch {k a : Nat} {findings : List EccFinding} (h : Evolves τ true s₀ s) :
    With τ true s₀ (State.apertureFetch k a findings s) := by
  induction k generalizing a findings s with
  | zero => exact .mk h
  | succ k ih => exact .mk (ih h.apertureBurst.fst).fst

theorem Evolves.execApertureRead {off : DWord} {len : Fin 4097} {findings : List EccFinding} (h : Evolves τ true s₀ s) :
    Answers τ true s₀ (execApertureRead off len s findings) := by
  unfold Machine.execApertureRead
  extract_lets zeros a r s1
  have hr : With τ true s₀ r := h.apertureFetch
  have h1 : Evolves τ true s₀ s1 := hr.fst.readDone
  exact .ite h (.ite h.readDone (.ite h.set.readDone (Evolves.ite h1.onLink h1)))

theorem Evolves.aperturePut {a : Nat} {data : List Byte} {b : Nat} {finding : EccFinding} (h : Evolves τ true s₀ s) :
    Evolves τ true s₀ (s.aperturePut a data b finding) := by
  unfold State.aperturePut
  extract_lets lo hi
  split
  · split
    · exact h.apertureNote
    · exact Evolves.acceptWrite (.ite h h.wakePc.eccRead)
  · exact h.apertureMiss

theorem Evolves.execApertureWrite {off : DWord} {data : List Byte} {findings : List EccFinding}
    (h : Evolves τ true s₀ s) :
    Answers τ true s₀ (execApertureWrite off data s findings) := by
  unfold Machine.execApertureWrite
  exact .ite trivial (.ite h (.ite h.set (.ite h (h.forEach (fun _ _ h => h.aperturePut)))))

end

end Sys2Proof.Machine
end

