-- ==== Sys2Proof/Proofs/EvolvesHost.lean ====
section
/-! PROOFS. Register writes and idle time keep the relation of Evolves. -/

namespace Sys2Proof.Machine

set_option Elab.async false

section
variable {τ μ : Bool} {s₀ s : State}

theorem Evolves.assign {p off value : Nat} (h : Evolves τ μ s₀ s) : Evolves τ μ s₀ (s.assign p off value) :=
  h.forEach_mem (fun _ hq _ h => by
    extract_lets v
    split
    · exact h.set (State.shownAt_width hq)
    · exact h.set (State.shownAt_width hq)
    · exact h.setShadow (State.shownAt_width hq)
    · exact h)

theorem Evolves.assignPair {p off value : Nat} (h : Evolves τ μ s₀ s) : Evolves τ μ s₀ (s.assignPair p off value) :=
  h.assign.assign

theorem Evolves.enableBit {p off b : Nat} {v : Bool} (h : Evolves τ μ s₀ s) : Evolves τ μ s₀ (s.enableBit p off b v) := by
  unfold State.enableBit
  extract_lets f s1
  have h1 : Evolves τ μ s₀ s1 := h.set
  split
  · exact .ite h1.notify h1
  · exact h1

theorem Evolves.enableWrite {c : PageClass} {p off value mask : Nat} (h : Evolves τ μ s₀ s) :
    Evolves τ μ s₀ (s.enableWrite c p off value mask) := h.forEach (fun _ _ h => .ite h.enableBit h)

theorem Evolves.headerWrite {c : PageClass} {p off value mask : Nat} (h : Evolves τ μ s₀ s) :
    Evolves τ μ s₀ (s.headerWrite c p off value mask) := .ite h.enableWrite (.ite h.set h)

theorem Evolves.unlockWrite {p value : Nat} (h : Evolves τ μ s₀ s) : Evolves τ μ s₀ (s.unlockWrite p value) :=
  .ite h (.ite h.set h.set.addSat.headerErr)

theorem Evolves.unlockBytes {p value mask : Nat} (h : Evolves τ μ s₀ s) :
    Evolves τ μ s₀ (s.unlockBytes p value mask) := .ite h.unlockWrite h.set.accessErr

theorem Evolves.pinWrite {p off value : Nat} (h : Evolves τ μ s₀ s) : Evolves τ μ s₀ (s.pinWrite p off value) :=
  h.assign.pinEdges.forEach (fun _ _ h => .ite h.limitRelease h)

theorem Evolves.alarmWrite {n : Nat} {put : State → State} (h : Evolves true μ s₀ s)
    (hput : ∀ s, Evolves true μ s₀ s → Evolves true μ s₀ (put s)) : Evolves true μ s₀ (s.alarmWrite n put) :=
  .ite (hput s h).alarmBuild (hput s h)

theorem Evolves.hbmCtrlWrite {value mask : Nat} (h : Evolves τ μ s₀ s) : Evolves τ μ s₀ (s.hbmCtrlWrite value mask) := by
  unfold State.hbmCtrlWrite
  exact .ite h.assign.accessErr h.assign

theorem Evolves.mbxFieldWrite {off value : Nat} (h : Evolves τ μ s₀ s) : Evolves τ μ s₀ (s.mbxFieldWrite off value) :=
  .ite h.set.raise h.assign

theorem Evolves.watermarkWrite {off value : Nat} (h : Evolves τ μ s₀ s) :
    Evolves τ μ s₀ (s.watermarkWrite off value) := h.assign.forEach (fun _ _ h => h.sqMark)

theorem Evolves.evtForce {value : Nat} (h : Evolves τ μ s₀ s) : Evolves τ μ s₀ (s.evtForce value) :=
  h.forEach (fun _ _ h => h.raiseIf)

theorem Evolves.blockWrite {c : PageClass} {n p off value : Nat} (h : Evolves true true s₀ s) :
    Evolves true true s₀ (s.blockWrite c n p off value) := by
  unfold State.blockWrite
  extract_lets one plain
  have hplain : Evolves true true s₀ plain := h.assign
  split
  · exact .ite (.ite h.snapRequest h) hplain
  · exact .ite h.evtForce hplain
  · exact .ite h.clkCtrlWrite (.ite (.ite h.set h) hplain)
  · exact .ite h.syncCtrlWrite (.ite (h.alarmWrite (fun _ h => h.assign)) hplain)
  · exact .ite h.calendarLoad.lifeEdit (.ite (.ite h.commitRequested h) (.ite hplain.lifeEdit hplain))
  · exact .ite h.skeinGateWrite (.ite h.seqGateWrite (.ite (.ite h.clearMin h) hplain))
  · exact .ite h.mbxFieldWrite (.ite h.doorbell (.ite (.ite h.cancelWrite h) hplain))
  · exact .ite (.ite h.raiseSvn h) hplain
  · exact .ite h.fenceCtrlWrite hplain
  · exact .ite h.pinWrite hplain
  · exact .ite (.ite h.fullCal h) hplain
  · exact .ite (.ite h.commitRequest h) hplain
  · exact .ite h.trgCtrlWrite (.ite h.trgForceWrite hplain)
  · exact .ite h.pinWrite hplain
  · exact .ite h.reserveWrite (.ite h.creditWrite hplain)
  · exact .ite h.watermarkWrite hplain
  · exact .ite (.ite h.segCommand h) hplain
  · exact .ite h.hbmFenceWrite hplain
  · exact .ite h.ownerWrite hplain
  · exact .ite h.dmaGlobalWrite hplain
  · exact .ite h.dmaCtrlWrite.replayChecks (.ite h.chainKick hplain)
  · exact .ite h hplain
  · exact hplain
  · exact hplain
  · exact hplain
  · exact hplain

theorem Evolves.poolLoad {n off value : Nat} (h : Evolves τ μ s₀ s) : IfAny τ μ s₀ (s.poolLoad n off value) := by
  unfold State.poolLoad
  exact .ite (.ite (.some h.putCounter) (.some h.putTimer)) .none

theorem Evolves.pairWrite {c : PageClass} {n p off value : Nat} (h : Evolves true true s₀ s) :
    Evolves true true s₀ (s.pairWrite c n p off value) := by
  unfold State.pairWrite
  extract_lets plain
  have hplain : Evolves true true s₀ plain := h.assignPair
  split
  · exact .ite (h.alarmWrite (fun _ h => h.assignPair)) hplain
  · exact .ite hplain.lifeEdit hplain
  · exact .ite h.skeinGateWrite hplain
  · exact .ite h.releasedWrite hplain
  · exact .ite h.windowWrite hplain
  · exact h.poolLoad.getD hplain
  · exact hplain

theorem Evolves.holdLow {p off v : Nat} (h : Evolves τ μ s₀ s) : Evolves τ μ s₀ (s.holdLow p off v) := h.rest

theorem Evolves.regWrite {c : PageClass} {n p off value mask : Nat} (h : Evolves true true s₀ s) :
    Evolves true true s₀ (s.regWrite c n p off value mask) := by
  unfold State.regWrite
  exact .ite h.accessErr (.ite (.ite h (.ite h.holdLow h)) (.ite (.ite h h.holdLow.pairWrite) (.ite h (.ite h.hbmCtrlWrite h.blockWrite))))

theorem Evolves.landWrite {p off value mask : Nat} (h : Evolves true true s₀ s) :
    Evolves true true s₀ (s.landWrite p off value mask) := by
  unfold State.landWrite
  split
  · exact h
  · exact .ite h.headerWrite (.ite h (.ite (.ite h h.enableWrite) (.ite h h.regWrite)))

theorem Evolves.arriveWrite {p off value mask : Nat} (h : Evolves true true s₀ s) :
    Evolves true true s₀ (s.arriveWrite p off value mask) := by
  unfold State.arriveWrite
  split
  · exact h
  · extract_lets base
    have hbase : Evolves true true s₀ base := h.set
    exact .ite h (.ite h.headerWrite (.ite h (.ite h.accessErr (.ite hbase.rest h.landWrite))))

theorem Evolves.execPostedWriteLands {page : BitVec 12} (h : Evolves true true s₀ s) :
    Answers true true s₀ (execPostedWriteLands page s) := by
  unfold Machine.execPostedWriteLands
  extract_lets p mine s1
  have h1 : Evolves true true s₀ s1 := h.rest.forEach (fun _ _ h => h.landWrite)
  exact h1.set

theorem Evolves.wordsWrite {p base value lo hi : Nat} (h : Evolves true true s₀ s) :
    Evolves true true s₀ (s.wordsWrite p base value lo hi) := by
  unfold State.wordsWrite
  exact .ite h.accessErr (.ite h.lostWrite h.arriveWrite.arriveWrite)

theorem Evolves.pageWrite {p at_ value lo hi : Nat} {shape : Bool} (h : Evolves true true s₀ s) :
    Evolves true true s₀ (s.pageWrite p at_ value lo hi shape) := by
  unfold State.pageWrite
  extract_lets base key relocked s1
  have hrelocked : Evolves true true s₀ relocked := h.set
  have h1 : Evolves true true s₀ s1 := h.unlockBytes
  exact .ite h (.ite h.lockedWrite (.ite hrelocked.accessErr (.ite (.ite h1.lockedWrite h1) hrelocked.wordsWrite)))

theorem Evolves.bar0Write {addr : Nat} {data : List (Option Byte)} (h : Evolves true true s₀ s) :
    Evolves true true s₀ (s.bar0Write addr data) := by
  unfold State.bar0Write
  split
  · exact .ite h h.pageWrite
  · exact h.pageWrite

theorem Link.tableByte_bar4 (l : Link) (v k : Nat) (b : Byte) : (l.tableByte v k b).bar4 = l.bar4 := by
  unfold Link.tableByte
  split
  · rfl
  · split
    · rfl
    · split
      · exact l.maskVector_bar4 v _
      · rfl

/-- A byte written to BAR4 keeps it in canonical form. -/
theorem Link.bar4Byte_wf {l : Link} (x : Nat) (b : Byte) (h : Memory.wf 0 l.bar4 = true) :
    Memory.wf 0 (l.bar4Byte x b).bar4 = true := by
  unfold Link.bar4Byte
  split
  · exact canonical_sput _ _ h
  · split
    · rwa [Link.tableByte_bar4]
    · exact h

theorem Link.bar4Write_wf {l : Link} (x : Nat) (data : List (Option Byte)) (h : Memory.wf 0 l.bar4 = true) :
    Memory.wf 0 (l.bar4Write x data).bar4 = true := by
  induction data generalizing l x with
  | nil => exact h
  | cons b data ih =>
    cases b with
    | none => exact ih (x + 1) h
    | some b => exact ih (x + 1) (Link.bar4Byte_wf x b h)

theorem Evolves.execRegisterWrite {bar : Bar} {addr : BitVec 24} {data : List (Option Byte)}
    (h : Evolves true true s₀ s) :
    Answers true true s₀ (execRegisterWrite bar addr data s) := by
  unfold Machine.execRegisterWrite
  split
  · exact trivial
  · split
    · exact h
    · split
      · exact h.bar0Write
      · exact h.putLink (Link.bar4Write_wf _ _)

theorem Evolves.execPageUnlock {page : BitVec 12} {value : DWord} (h : Evolves τ μ s₀ s) :
    Answers τ μ s₀ (execPageUnlock page value s) := Evolves.ite h.unlockWrite h

theorem Evolves.execEvtForce {value : DWord} (h : Evolves τ μ s₀ s) : Answers τ μ s₀ (execEvtForce value s) :=
  h.gated (fun _ h => h.evtForce)

theorem Evolves.idle (h : Evolves true μ s₀ s) : Evolves true μ s₀ s.idle := by
  unfold State.idle
  extract_lets s1
  have h1 : Evolves true μ s₀ s1 := h.onClk
  exact .ite (.ite h1.reach h1) (.ite h h.atTime)

end

end Sys2Proof.Machine
end

