-- ==== Sys2Proof/Proofs/StepsKeepSound.lean ====
section
/-! PROOFS. Every command, and idle time, keep the relation; so every step keeps the machine sound. -/

namespace Sys2Proof.Machine

set_option Elab.async false

section
variable {s₀ s t : State}

theorem Evolves.exec {c : Instr} (h : Evolves true true s₀ s) (ht : Machine.exec c s = .next t) : Evolves true true s₀ t := by
  cases c with
  | perstN => exact h.execPerstN.next ht
  | functionLevelReset => exact h.execFunctionLevelReset.next ht
  | configurationRequest => exact h.execConfigurationRequest.next ht
  | pcieLinkChange => exact h.execPcieLinkChange.next ht
  | apertureRead => exact h.execApertureRead.next ht
  | apertureWrite => exact h.execApertureWrite.next ht
  | registerWrite => exact h.execRegisterWrite.next ht
  | pageUnlock => exact h.execPageUnlock.next ht
  | eventLatchRead => exact h.execEventLatchRead.next ht
  | pairLowHalfRead => exact h.execPairLowHalfRead.next ht
  | postedWriteLands => exact h.execPostedWriteLands.next ht
  | evtForce => exact h.execEvtForce.next ht
  | vectorUnmask => exact h.execVectorUnmask.next ht
  | msixMessageSend => exact h.execMsixMessageSend.next ht
  | holdoffExpiry => exact h.execHoldoffExpiry.next ht
  | snapRequest => exact h.execSnapRequest.next ht
  | snapshotTaken => exact h.execSnapshotTaken.next ht
  | divApply => exact h.execDivApply.next ht
  | dividersApplied => exact h.execDividersApplied.next ht
  | lockStepDone => exact h.execLockStepDone.next ht
  | lockStepTimeout => exact h.execLockStepTimeout.next ht
  | lockRetry => exact h.execLockRetry.next ht
  | relock => exact h.execRelock.next ht
  | refLoss => exact h.execRefLoss.next ht
  | lockLoss => exact h.execLockLoss.next ht
  | selfRefreshEntered => exact h.execSelfRefreshEntered.next ht
  | holdoverLimit => exact h.execHoldoverLimit.next ht
  | refReturn => exact h.execRefReturn.next ht
  | eraAdvance => exact h.execEraAdvance.next ht
  | alarmFire => exact h.execAlarmFire.next ht
  | calSecond => exact h.execCalSecond.next ht
  | syncArm => exact h.execSyncArm.next ht
  | syncDisarm => exact h.execSyncDisarm.next ht
  | syncInPulse => exact h.execSyncInPulse.next ht
  | syncOutPulse => exact h.execSyncOutPulse.next ht
  | calendarWrite => exact h.execCalendarWrite.next ht
  | wearCounterWrite => exact h.execWearCounterWrite.next ht
  | powerOnSecond => exact h.execPowerOnSecond.next ht
  | hbmWearReport => exact h.execHbmWearReport.next ht
  | thermalSample => exact h.execThermalSample.next ht
  | journalPeriod => exact h.execJournalPeriod.next ht
  | journalCommit => exact h.execJournalCommit.next ht
  | journalCommitDone => exact h.execJournalCommitDone.next ht
  | vbatLow => exact h.execVbatLow.next ht
  | xtalStop => exact h.execXtalStop.next ht
  | probeEdge => exact h.execProbeEdge.next ht
  | overRange => exact h.execOverRange.next ht
  | fullCal => exact h.execFullCal.next ht
  | fullCalDone => exact h.execFullCalDone.next ht
  | bgCalPassDone => exact h.execBgCalPassDone.next ht
  | selfCheckStart => exact h.execSelfCheckStart.next ht
  | selfCheckDone => exact h.execSelfCheckDone.next ht
  | frameBoundary => exact h.execFrameBoundary.next ht
  | stateFrameBoundary => exact h.execStateFrameBoundary.next ht
  | epochBoundary => exact h.execEpochBoundary.next ht
  | sampleEvaluation => exact h.execSampleEvaluation.next ht
  | timerExpire => exact h.execTimerExpire.next ht
  | counterTarget => exact h.execCounterTarget.next ht
  | counterSaturation => exact h.execCounterSaturation.next ht
  | trgArm => exact h.execTrgArm.next ht
  | trgDisarm => exact h.execTrgDisarm.next ht
  | forcePulse => exact h.execForcePulse.next ht
  | trigInEdge => exact h.execTrigInEdge.next ht
  | xtrigEdge => exact h.execXtrigEdge.next ht
  | pinPulseEnd => exact h.execPinPulseEnd.next ht
  | holdLimit => exact h.execHoldLimit.next ht
  | holdCeiling => exact h.execHoldCeiling.next ht
  | holdReleaseNFall => exact h.execHoldReleaseNFall.next ht
  | holdReleaseNRise => exact h.execHoldReleaseNRise.next ht
  | holdGapEnd => exact h.execHoldGapEnd.next ht
  | replayUnit => exact h.execReplayUnit.next ht
  | sessionCloseDone => exact h.execSessionCloseDone.next ht
  | admReserveWrite => exact h.execAdmReserveWrite.next ht
  | admCreditWrite => exact h.execAdmCreditWrite.next ht
  | budgetRebuild => exact h.execBudgetRebuild.next ht
  | writerSlot => exact h.execWriterSlot.next ht
  | releasedWrite => exact h.execReleasedWrite.next ht
  | ledgerRecordWrite => exact h.execLedgerRecordWrite.next ht
  | segCmdRelease => exact h.execSegCmdRelease.next ht
  | hbmBurstAccept => exact h.execHbmBurstAccept.next ht
  | hbmReadAccept => exact h.execHbmReadAccept.next ht
  | hbmIssue => exact h.execHbmIssue.next ht
  | hbmReadData => exact h.execHbmReadData.next ht
  | refreshWindow pc => exact (h.execRefreshWindow (pc := pc)).next ht
  | retrainingPause => exact h.execRetrainingPause.next ht
  | scrubRead => exact h.execScrubRead.next ht
  | statusPoll => exact h.execStatusPoll.next ht
  | readTimeout => exact h.execReadTimeout.next ht
  | stackCatastrophicTrip => exact h.execStackCatastrophicTrip.next ht
  | stackTempRead => exact h.execStackTempRead.next ht
  | hbmFenceGo => exact h.execHbmFenceGo.next ht
  | hbmTrainingDone => exact h.execHbmTrainingDone.next ht
  | hbmIdleSelfRefresh => exact h.execHbmIdleSelfRefresh.next ht
  | hbmWakeReady => exact h.execHbmWakeReady.next ht
  | grottoHandover => exact h.execGrottoHandover.next ht
  | handoverComplete => exact h.execHandoverComplete.next ht
  | grottoFillDone => exact h.execGrottoFillDone.next ht
  | grottoAccess => exact h.execGrottoAccess.next ht
  | hostWindowRead => exact h.execHostWindowRead.next ht
  | hostWindowWrite => exact h.execHostWindowWrite.next ht
  | swatchPassStart => exact h.execSwatchPassStart.next ht
  | swatchWindow => exact h.execSwatchWindow.next ht
  | swatchPassEnd => exact h.execSwatchPassEnd.next ht
  | dmaStart => exact h.execDmaStart.next ht
  | dmaAbort => exact h.execDmaAbort.next ht
  | dmaAbortAll => exact h.execDmaAbortAll.next ht
  | dmaKill => exact h.execDmaKill.next ht
  | dmaEnable => exact h.execDmaEnable.next ht
  | chainKick n value => exact (h.execChainKick (value := value)).next ht
  | dmaGrant => exact h.execDmaGrant ht
  | descriptorFetch => exact h.execDescriptorFetch.next ht
  | dmaBurstComplete => exact h.execDmaBurstComplete.next ht
  | linkReadReturn => exact h.execLinkReadReturn.next ht
  | compressBlock => exact h.execCompressBlock.next ht
  | decompressBlock => exact h.execDecompressBlock.next ht
  | decompressTrailer => exact h.execDecompressTrailer.next ht
  | flowstoneParity => exact h.execFlowstoneParity.next ht
  | brownoutStart => exact h.execBrownoutStart.next ht
  | brownoutEnd => exact h.execBrownoutEnd.next ht
  | brownoutBindOff => exact h.execBrownoutBindOff.next ht
  | resetCrossing => exact h.execResetCrossing.next ht
  | aonSupplySwitch => exact h.execAonSupplySwitch.next ht
  | aonSupplyReturn => exact h.execAonSupplyReturn.next ht
  | parkComplete => exact h.execParkComplete.next ht
  | wakeComplete => exact h.execWakeComplete.next ht
  | skeinGateWrite => exact h.execSkeinGateWrite.next ht
  | sequencerGateWrite => exact h.execSequencerGateWrite.next ht
  | unitReadyChange => exact h.execUnitReadyChange.next ht
  | dieTempRead => exact h.execDieTempRead.next ht
  | dieTrip => exact h.execDieTrip.next ht
  | tripClear => exact h.execTripClear.next ht
  | porstN => exact h.execPorstN.next ht
  | startUpStepDone => exact h.execStartUpStepDone.next ht
  | clearMin value => exact (h.execClearMin (value := value)).next ht
  | echo => exact h.execEcho.next ht
  | planAdmit => exact h.execPlanAdmit.next ht
  | planRelease => exact h.execPlanRelease.next ht
  | castOn => exact h.execCastOn.next ht
  | bindOff => exact h.execBindOff.next ht
  | arm => exact h.execArm.next ht
  | forceTrigger => exact h.execForceTrigger.next ht
  | segmentRelease => exact h.execSegmentRelease.next ht
  | quotaSet => exact h.execQuotaSet.next ht
  | park => exact h.execPark.next ht
  | wake => exact h.execWake.next ht
  | activate => exact h.execActivate.next ht
  | activationDone => exact h.execActivationDone.next ht
  | confirm => exact h.execConfirm.next ht
  | attest => exact h.execAttest.next ht
  | lifeRead => exact h.execLifeRead.next ht
  | calendarSet => exact h.execCalendarSet.next ht
  | selftestReport => exact h.execSelftestReport.next ht
  | fenceRead => exact h.execFenceRead.next ht
  | twinPair => exact h.execTwinPair.next ht
  | twinHandover => exact h.execTwinHandover.next ht
  | replaySetup => exact h.execReplaySetup.next ht
  | unknownCommand => exact h.execUnknownCommand.next ht
  | cancel => exact h.execCancel.next ht
  | heldProceed => exact h.execHeldProceed.next ht
  | watchdogRestart => exact h.execWatchdogRestart.next ht
  | watchdogFire => exact h.execWatchdogFire.next ht
  | lockstepMismatch => exact h.execLockstepMismatch.next ht
  | cpRestartDone => exact h.execCpRestartDone.next ht
  | readFrame => exact h.execReadFrame.next ht
  | readStatus => exact h.execReadStatus.next ht
  | unknownOpcode => exact h.execUnknownOpcode.next ht
  | kspFrameReject => exact h.execKspFrameReject.next ht
  | kspId => exact h.execKspId.next ht
  | kspStatus => exact h.execKspStatus.next ht
  | echoLite => exact h.execEchoLite.next ht
  | kspReset => exact h.execKspReset.next ht
  | resetReplyTimeout => exact h.execResetReplyTimeout.next ht
  | holdRelease => exact h.execHoldRelease.next ht
  | kspLifeRead => exact h.execKspLifeRead.next ht
  | dlBegin => exact h.execDlBegin.next ht
  | dlData => exact h.execDlData.next ht
  | dlEnd => exact h.execDlEnd.next ht
  | verify => exact h.execVerify.next ht
  | select => exact h.execSelect.next ht
  | kspActivate => exact h.execKspActivate.next ht
  | kspConfirm => exact h.execKspConfirm.next ht
  | kspAttest => exact h.execKspAttest.next ht
  | kspUnknownCode => exact h.execKspUnknownCode.next ht
  | forwardAbandonTimeout => exact h.execForwardAbandonTimeout.next ht
  | flashOpComplete => exact h.execFlashOpComplete.next ht
  | configRecordAppend => exact h.execConfigRecordAppend.next ht
  | rotationVisit => exact h.execRotationVisit.next ht
  | refereeDone => exact h.execRefereeDone.next ht
  | confirmationEnd => exact h.execConfirmationEnd.next ht
  | datapathTestDone => exact h.execDatapathTestDone.next ht
  | fenceUnit => exact h.execFenceUnit.next ht
  | fenceClear => exact h.execFenceClear.next ht
  | raiseSvn value => exact (h.execRaiseSvn (value := value)).next ht
  | fuseBurnDone => exact h.execFuseBurnDone.next ht
  | hello => exact h.execHello.next ht
  | helloSend => exact h.execHelloSend.next ht
  | epoch => exact h.execEpoch.next ht
  | fault => exact h.execFault.next ht
  | handover => exact h.execHandover.next ht
  | command => exact h.execCommand.next ht
  | ack => exact h.execAck.next ht
  | twinResend => exact h.execTwinResend.next ht
  | linkSilence => exact h.execLinkSilence.next ht
  | epochMessageTimeout => exact h.execEpochMessageTimeout.next ht
  | laneDrop => exact h.execLaneDrop.next ht
  | vbatRestored => exact h.execVbatRestored.next ht
  | aonContentsLost => exact h.execAonContentsLost.next ht
  | resetCrossingRestart => exact h.execResetCrossingRestart.next ht
  | twinLinkUp => exact h.execTwinLinkUp.next ht
  | hbmRelockRetrainDone => exact h.execHbmRelockRetrainDone.next ht
  | stateClockEdge => exact h.execStateClockEdge.next ht
  | overRangeClear => exact h.execOverRangeClear.next ht
  | aerCorrectableError => exact h.execAerCorrectableError.next ht
  | bar0ReadAccessErr => exact h.execBar0ReadAccessErr.next ht
  | unsupportedRequest => exact h.execUnsupportedRequest.next ht
  | clkQualityAboveLimit => exact h.execClkQualityAboveLimit.next ht

end

/-- The queue of commands is no part of what makes a state good. -/
theorem State.Good.withPending {s : State} (g : s.Good) (q : List Instr) : ({ s with pending := q } : State).Good :=
  (State.good_iff _).mpr ((State.good_iff s).mp g)

theorem State.Good.step {s t : State} (g : s.Good) (h : Machine.step s = .next t) : t.Good := by
  unfold Machine.step at h
  split at h
  · obtain rfl := Host.Outcome.next.inj h
    exact ((Evolves.refl true true s).idle).good g
  · next c rest _ =>
    exact ((Evolves.refl true true { s with pending := rest }).exec h).good (g.withPending rest)

/-- Settles O59: what evolves out of a good state is good, and every command's effect evolves out of the state that it
finds. -/
theorem everyStepKeepsSound : Obligations.EveryStepKeepsSound := by
  unfold Obligations.EveryStepKeepsSound
  exact fun s t sound numbered h => State.Good.step ⟨sound, numbered⟩ h

end Sys2Proof.Machine
end

