-- ==== Sys2Proof/Proofs/WatchedCells.lean ====
section
/-! PROOFS. What an operation keeps of the registers and of the skeins: given cells, and the samples of the skeins. -/

namespace Sys2Proof.Machine

set_option Elab.async false

/-! ### Cells that an operation does not write -/

/-- A cell of a later page has another number, wherever it lies there. -/
theorem Fld.key_ne_of_page_lt {f g : Fld} (hg : g.placed = true) (h : g.page < f.page) : g.key ≠ f.key := by
  obtain ⟨hoff, hlo, hidx, hwidth⟩ := (Fld.placed_iff g).mp hg
  unfold Fld.key
  omega

/-- No cell of the list is the cell `f`. -/
def Clear (gs : List Fld) (f : Fld) : Prop := ∀ g ∈ gs, g.key ≠ f.key

/-- No cell of the list is the latch of EV_k. -/
def Unlatched (gs : List Fld) (k : Nat) : Prop := ∀ g ∈ gs, g.key ∉ latches [k]

/-- The levels of the sequencers. -/
def levelCells : List Fld := (upto 8).map TRG_STATUS_LEVEL.of

/-- The latch of EV_261. -/
abbrev checkLatch : Fld := (evBit 0x160 3).latchFld

/-- What the check of the slot table leaves (R250): its count, its failure, and the latch of EV_261. -/
def checkCells : List Fld := [ADM_EPOCHS_CHECKED.one, ADM_STATUS_CHECK_FAIL.one, checkLatch]

/-- The cells that are followed through the operations below. -/
def watched : List Fld := checkCells ++ levelCells

section
variable {gs : List Fld}

theorem Clear.nil (f : Fld) : Clear [] f := fun _ h => by cases h

/-- A cell whose place is that of no watched one: a test that evaluates whatever its page is. -/
theorem Clear.apart {f : Fld} (hw : gs ⊆ watched) (hf : (watched.all (fun g => g.apart f)) = true := by rfl) : Clear gs f :=
  fun g hg => Fld.key_ne_of_apart (List.all_eq_true.mp hf g (hw hg))

/-- A cell with no unknown in it. -/
theorem Clear.closed {f : Fld} (hw : gs ⊆ watched) (hf : Clear watched f := by unfold Clear; decide) : Clear gs f :=
  fun g hg => hf g (hw hg)

theorem watched_placed : ∀ g ∈ watched, g.placed = true ∧ g.page < 0x161 := by decide

/-- A cell of a page past those of the watched ones, whatever its place there. -/
theorem Clear.beyond {f : Fld} (hw : gs ⊆ watched) (hf : 0x161 ≤ f.page := by exact Nat.le_of_ble_eq_true rfl) :
    Clear gs f := fun g hg =>
  Fld.key_ne_of_page_lt (watched_placed g (hw hg)).1 ((watched_placed g (hw hg)).2.trans_le hf)

/-- A cell of a page past those of the sequencers. -/
theorem Clear.pool {f : Fld} (hl : gs ⊆ levelCells) (hf : 0x148 ≤ f.page) : Clear gs f := by
  have hpage : ∀ g ∈ levelCells, g.placed = true ∧ g.page < 0x148 := by decide
  exact fun g hg => Fld.key_ne_of_page_lt (hpage g (hl hg)).1 ((hpage g (hl hg)).2.trans_le hf)

/-- A pool resource's cell. -/
theorem Clear.res {f : RegField} {i : Nat} (hl : gs ⊆ levelCells) (hf : f.cls = .pool := by rfl) : Clear gs (f.res i) :=
  .pool hl (by simp [hf, PageClass.page])

/-- The level of another sequencer. -/
theorem Clear.level {i : Nat} (hl : ∀ g ∈ gs, ∃ j, j ≠ i ∧ g = TRG_STATUS_LEVEL.of j) : Clear gs (TRG_STATUS_LEVEL.of i) := by
  intro g hg hkey
  obtain ⟨j, hj, rfl⟩ := hl g hg
  have hpage : PageClass.trg.page j = PageClass.trg.page i := (Fld.key_inj ((Fld.placed_iff _).mp rfl) ((Fld.placed_iff _).mp rfl) hkey).1
  simp only [PageClass.page] at hpage
  omega

theorem watched_of_level (hl : gs ⊆ levelCells) : gs ⊆ watched := List.Subset.trans hl (List.subset_append_right _ _)

/-! ### Latches -/

theorem latches_of_ge {k : Nat} (h : 512 ≤ k) : latches [k] = [] := by
  have hnone : evPlace k = none := by
    unfold evPlace
    simp only [show ∀ n < 513, ¬ k < n by omega, Nat.reduceLT, if_false]
  simp [latches, hnone]

/-- No watched cell but its own is the latch of an event. -/
theorem Unlatched.other {k : Nat} (hw : gs ⊆ watched) (hk : k ≠ 261) : Unlatched gs k := by
  have hcells : ∀ k < 512, k ≠ 261 → ∀ g ∈ watched, g.key ∉ latches [k] := by decide +kernel
  intro g hg
  rcases Nat.lt_or_ge k 512 with hlt | hge
  · exact hcells k hlt hk g (hw hg)
  · simp [latches_of_ge hge]

theorem Unlatched.level {k : Nat} (hl : gs ⊆ levelCells) : Unlatched gs k := by
  by_cases hk : k = 261
  · have hcells : ∀ g ∈ levelCells, g.key ∉ latches [261] := by decide
    exact fun g hg => hk ▸ hcells g (hl hg)
  · exact .other (watched_of_level hl) hk

end

end Sys2Proof.Machine
end

