-- ==== Sys2Proof/Proofs/KeepsCells.lean ====
section
/-! PROOFS. A sample's evaluation, a commit and an epoch's check keep the watched cells and the skeins' samples. -/

namespace Sys2Proof.Machine

set_option Elab.async false

/-- `t` reads the cells of `gs` as `s` does, and its skeins hold the same samples. -/
structure State.Keeps (gs : List Fld) (s t : State) : Prop where
  cells : ∀ g ∈ gs, t.get g = s.get g
  samples : ∀ n, (t.skein n).samples = (s.skein n).samples
  lastCount : ∀ n, (t.skein n).lastCount = (s.skein n).lastCount

namespace State.Keeps

section
variable {gs : List Fld} {s₀ s t : State}

theorem refl (gs : List Fld) (s : State) : Keeps gs s s := ⟨fun _ _ => rfl, fun _ => rfl, fun _ => rfl⟩

theorem trans (h : Keeps gs s₀ s) (k : Keeps gs s t) : Keeps gs s₀ t :=
  ⟨fun g hg => (k.cells g hg).trans (h.cells g hg), fun n => (k.samples n).trans (h.samples n),
    fun n => (k.lastCount n).trans (h.lastCount n)⟩

/-- What touches neither registers nor skeins. -/
theorem rest (h : Keeps gs s₀ s) (hr : t.regs = s.regs := by rfl) (hs : t.skeins = s.skeins := by rfl) : Keeps gs s₀ t :=
  h.trans ⟨fun _ _ => by unfold State.get; rw [hr], fun _ => by unfold State.skein; rw [hs],
    fun _ => by unfold State.skein; rw [hs]⟩

theorem ite {c : Prop} [Decidable c] (hs : Keeps gs s₀ s) (ht : Keeps gs s₀ t) : Keeps gs s₀ (if c then s else t) := by
  split
  · exact hs
  · exact ht

theorem forEach_mem {α : Type} {l : List α} {f : α → State → State} (h : Keeps gs s₀ s)
    (hf : ∀ a ∈ l, ∀ s, Keeps gs s₀ s → Keeps gs s₀ (f a s)) : Keeps gs s₀ (Machine.forEach l s f) := by
  unfold Machine.forEach
  induction l generalizing s with
  | nil => exact h
  | cons a l ih => exact ih (hf a (by simp) s h) (fun x hx => hf x (by simp [hx]))

theorem forEach {α : Type} {l : List α} {f : α → State → State} (h : Keeps gs s₀ s)
    (hf : ∀ a s, Keeps gs s₀ s → Keeps gs s₀ (f a s)) : Keeps gs s₀ (Machine.forEach l s f) :=
  h.forEach_mem (fun a _ => hf a)

/-! ### Registers and skeins -/

theorem set {f : Fld} {v : Nat} (h : Keeps gs s₀ s) (hf : Clear gs f) : Keeps gs s₀ (s.set f v) :=
  h.trans ⟨fun g hg => s.get_set_ne v (hf g hg), fun _ => rfl, fun _ => rfl⟩

theorem add {f : Fld} {v : Nat} (h : Keeps gs s₀ s) (hf : Clear gs f) : Keeps gs s₀ (s.add f v) := h.set hf

theorem setBit {f : Fld} {b : Nat} {v : Bool} (h : Keeps gs s₀ s) (hf : Clear gs f) : Keeps gs s₀ (s.setBit f b v) := h.set hf

theorem raise {k : Nat} (h : Keeps gs s₀ s) (hk : Unlatched gs k) : Keeps gs s₀ (s.raise k) :=
  h.trans ⟨fun g hg => s.raise_get_ne k (hk g hg), fun n => by rw [State.raise_eq]; rfl, fun n => by rw [State.raise_eq]; rfl⟩

theorem raiseIf {c : Bool} {k : Nat} (h : Keeps gs s₀ s) (hk : Unlatched gs k) : Keeps gs s₀ (s.raiseIf c k) := .ite (h.raise hk) h

/-- An update of a skein that leaves its samples as they are. -/
theorem onSkein {n : Nat} {f : Skein → Skein} (h : Keeps gs s₀ s)
    (hs : ∀ k, (f k).samples = k.samples := by exact fun _ => rfl)
    (hc : ∀ k, (f k).lastCount = k.lastCount := by exact fun _ => rfl) : Keeps gs s₀ (s.onSkein n f) := by
  refine h.trans ⟨fun _ _ => rfl, fun m => ?_, fun m => ?_⟩ <;> by_cases hm : m = n
  · rw [hm, State.skein_onSkein_same, hs]
  · rw [State.skein_onSkein_ne s f hm]
  · rw [hm, State.skein_onSkein_same, hc]
  · rw [State.skein_onSkein_ne s f hm]

theorem onSeq {n : Nat} {f : Seq → Seq} (h : Keeps gs s₀ s) : Keeps gs s₀ (s.onSeq n f) := h.rest
theorem onPins {f : Pins → Pins} (h : Keeps gs s₀ s) : Keeps gs s₀ (s.onPins f) := h.rest
theorem onRcd {f : Record → Record} (h : Keeps gs s₀ s) : Keeps gs s₀ (s.onRcd f) := h.rest
theorem onTwn {f : Twin → Twin} (h : Keeps gs s₀ s) : Keeps gs s₀ (s.onTwn f) := h.rest
theorem onFlt {f : FaultMgr → FaultMgr} (h : Keeps gs s₀ s) : Keeps gs s₀ (s.onFlt f) := h.rest
theorem onClk {f : Clocks → Clocks} (h : Keeps gs s₀ s) : Keeps gs s₀ (s.onClk f) := h.rest
theorem atTime {now : Nat} (h : Keeps gs s₀ s) : Keeps gs s₀ { s with now := now } := h.rest
theorem putContrib {pin n : Nat} {c : Contrib} (h : Keeps gs s₀ s) : Keeps gs s₀ (s.putContrib pin n c) := h.onPins

end

/-! ### Pins -/

section
variable {gs : List Fld} {s₀ s : State}

theorem holdEdges {u : State} {t : Nat} (hw : gs ⊆ watched) (h : Keeps gs s₀ s) : Keeps gs s₀ (State.holdEdges u s t) :=
  h.forEach (fun _ _ h => .ite (h.add (.apart hw)).onPins (.ite h.onPins h))

theorem xtrigFalls {u : State} {t : Nat} (h : Keeps gs s₀ s) : Keeps gs s₀ (State.xtrigFalls u s t) :=
  h.forEach (fun _ _ h => .ite h.onPins h)

theorem pinEdges {u : State} {t : Nat} (hw : gs ⊆ watched) (h : Keeps gs s₀ s) : Keeps gs s₀ (State.pinEdges u s t) :=
  (h.holdEdges hw).xtrigFalls

theorem pulsesEnd {t : Nat} (hw : gs ⊆ watched) (h : Keeps gs s₀ s) : Keeps gs s₀ (s.pulsesEnd t) := by
  refine h.forEach (fun _ _ h => ?_)
  split
  · exact .ite (h.putContrib.pinEdges hw) h
  · exact h

theorem powerFollow (hw : gs ⊆ watched) (h : Keeps gs s₀ s) : Keeps gs s₀ s.powerFollow :=
  .ite h (.ite h ((h.set (.apart hw)).raise (.other hw (by decide))))

/-! ### The sample's evaluation (R183 to R206) -/

theorem pinOp {n op pin t : Nat} (hl : gs ⊆ levelCells) (h : Keeps gs s₀ s) : Keeps gs s₀ (s.pinOp n op pin t) := by
  have hw := watched_of_level hl
  unfold State.pinOp
  extract_lets width c
  exact .ite h (.ite ((h.add (.apart hw)).raise (.level hl)) (h.putContrib.pinEdges hw))

theorem segmentsAge {i : Nat} (hl : gs ⊆ levelCells) (h : Keeps gs s₀ s) : Keeps gs s₀ (s.segmentsAge i) := by
  have hw := watched_of_level hl
  unfold State.segmentsAge
  split
  · exact h
  · split
    · exact h
    · exact h.forEach (fun _ _ h => .ite ((h.set (.beyond hw)).raise (.level hl))
        (.ite ((h.set (.beyond hw)).raise (.level hl)) h))

theorem segClose {i t : Nat} {cut : Bool} (hl : gs ⊆ levelCells) (h : Keeps gs s₀ s) : Keeps gs s₀ (s.segClose i t cut) := by
  have hw := watched_of_level hl
  unfold State.segClose
  extract_lets x s1 s2
  have h1 : Keeps gs s₀ s1 := (h.set (.beyond hw)).set (.beyond hw)
  have h2 : Keeps gs s₀ s2 := (h1.set (.beyond hw)).set (.beyond hw)
  exact .ite ((((h2.set (.apart hw)).set (.apart hw)).raise (.level hl)).segmentsAge hl) h

theorem segFill {i x t : Nat} {fv : Bool} (hl : gs ⊆ levelCells) (h : Keeps gs s₀ s) : Keeps gs s₀ (s.segFill i x t fv) := by
  have hw := watched_of_level hl
  unfold State.segFill
  extract_lets s1 s2 s3 s4 s5
  have h1 : Keeps gs s₀ s1 := ((h.set (.beyond hw)).set (.beyond hw)).set (.beyond hw)
  have h2 : Keeps gs s₀ s2 := ((h1.set (.beyond hw)).set (.beyond hw)).set (.beyond hw)
  have h3 : Keeps gs s₀ s3 := ((h2.set (.beyond hw)).set (.beyond hw)).set (.beyond hw)
  have h4 : Keeps gs s₀ s4 := h3.set (.beyond hw)
  have h5 : Keeps gs s₀ s5 := (h4.set (.beyond hw)).add (.beyond hw)
  exact ((h5.set (.apart hw)).set (.apart hw)).set (.apart hw)

theorem seqStitch {j : Nat} {w : Stitch} (hl : gs ⊆ levelCells) (h : Keeps gs s₀ s) : Keeps gs s₀ (s.seqStitch j w) := by
  have hw := watched_of_level hl
  unfold State.seqStitch
  extract_lets s1
  have h1 : Keeps gs s₀ s1 := h.add (.apart hw)
  exact .ite h.onSeq ((Keeps.ite h1 (h1.add (.beyond hw))).raise (.level hl))

theorem trigAction {j b a : Nat} {time : Nat × Bool} (hl : gs ⊆ levelCells) (h : Keeps gs s₀ s) :
    Keeps gs s₀ (s.trigAction j b a time) := by
  have hw := watched_of_level hl
  unfold State.trigAction
  extract_lets l s1 s2 wasOpen oldIndex s3
  have h1 : Keeps gs s₀ s1 := ((h.add (.apart hw)).set (.apart hw)).set (.apart hw)
  have h2 : Keeps gs s₀ s2 := ((h1.set (.apart hw)).set (.apart hw)).raise (.level hl)
  have h3 : Keeps gs s₀ s3 := h2.segClose hl
  refine .ite (h2.seqStitch hl) (.ite (h3.seqStitch hl) ?_)
  split
  · exact (h3.segFill hl).seqStitch hl
  · exact ((h3.raise (.level hl)).raise (.level hl)).seqStitch hl

theorem gateAction {j a t : Nat} {openBefore : Bool} (hl : gs ⊆ levelCells) (h : Keeps gs s₀ s) :
    Keeps gs s₀ (s.gateAction j a t openBefore) := by
  have hw := watched_of_level hl
  unfold State.gateAction
  split
  · exact h.set (.apart hw)
  · exact .ite ((h.set (.apart hw)).segClose hl) (h.set (.apart hw))
  · exact h

theorem seqPin {j op pin t : Nat} (hl : gs ⊆ levelCells) (h : Keeps gs s₀ s) : Keeps gs s₀ (s.seqPin j op pin t) :=
  .ite h (.ite (h.add (.apart (watched_of_level hl))) (h.pinOp hl))

/-- What a taken branch does before it sets its sequencer's level. -/
theorem beforeLevel {j t b a : Nat} {time : Nat × Bool} (hl : gs ⊆ levelCells) (h : Keeps gs s₀ s) :
    ∃ u, Keeps gs s₀ u ∧ s.branchActions j t b a time = u.set (TRG_STATUS_LEVEL.of j) (field a 60 4) := by
  unfold State.branchActions
  extract_lets openBefore s1 s2 s3 s4
  have h1 : Keeps gs s₀ s1 := .ite h (h.trigAction hl)
  have h3 : Keeps gs s₀ s3 := (h1.gateAction hl).raiseIf (.level hl)
  exact ⟨s4, (h3.seqPin hl).seqPin hl, rfl⟩

theorem branchActions {j t b a : Nat} {time : Nat × Bool} (hl : gs ⊆ levelCells)
    (hj : ∀ g ∈ gs, ∃ i, i ≠ j ∧ g = TRG_STATUS_LEVEL.of i) (h : Keeps gs s₀ s) : Keeps gs s₀ (s.branchActions j t b a time) := by
  obtain ⟨u, hu, e⟩ := h.beforeLevel (j := j) (t := t) (b := b) (a := a) (time := time) hl
  rw [e]
  exact hu.set (.level hj)

theorem markAction {j t l b a : Nat} (hl : gs ⊆ levelCells) (h : Keeps gs s₀ s) : Keeps gs s₀ (s.markAction j t l b a) :=
  .ite ((h.add (.apart (watched_of_level hl))).seqStitch hl) h

theorem putCounter {i value : Nat} {running : Bool} (hl : gs ⊆ levelCells) (h : Keeps gs s₀ s) :
    Keeps gs s₀ (s.putCounter i value running) :=
  ((((h.set (.res hl)).set (.res hl)).set (.res hl)).set (.res hl)).raiseIf (.level hl)

theorem putTimer {i value : Nat} {running : Bool} (hl : gs ⊆ levelCells) (h : Keeps gs s₀ s) :
    Keeps gs s₀ (s.putTimer i value running) :=
  ((((h.set (.res hl)).set (.res hl)).set (.res hl)).set (.res hl)).raiseIf (.level hl)

theorem stepCounter {u : State} {t i : Nat} (hl : gs ⊆ levelCells) (h : Keeps gs s₀ s) :
    Keeps gs s₀ (State.stepCounter u t i s) := .ite (h.putCounter hl).onPins h

theorem stepTimer {u : State} {t i : Nat} (hl : gs ⊆ levelCells) (h : Keeps gs s₀ s) :
    Keeps gs s₀ (State.stepTimer u t i s) := .ite (h.putTimer hl) h

theorem markGate {j t0 t1 : Nat} (h : Keeps gs s₀ s) : Keeps gs s₀ (s.markGate j t0 t1) := by
  refine .ite (h.forEach (fun _ _ h => h.onSkein (fun k => ?_) (fun k => ?_))) h <;>
  · unfold Skein.gateOver
    split
    · split
      · split <;> rfl
      · rfl
    · rfl

theorem takeForces {t : Nat} (h : Keeps gs s₀ s) : Keeps gs s₀ (s.takeForces t) := h.forEach (fun _ _ h => .ite h.onSeq h)

end

end State.Keeps

end Sys2Proof.Machine
end

