-- ==== Sys2Proof/Proofs/SampleLevels.lean ====
section
/-! PROOFS. The evaluation of a sample (R183): the levels it leaves, and the time it takes. -/

namespace Sys2Proof.Machine

set_option Elab.async false

/-- What sequencer `j` does in the sample at `t`, the branches being judged in `s`. -/
def State.takeBranch (s : State) (t : Nat) (time : Nat × Bool) (j : Nat) (u : State) : State :=
  match s.takenAct t j with
  | some (b, a) => u.branchActions j t b a time
  | none => u

/-- The branches of every sequencer of `seqs`. -/
def State.takeBranches (s : State) (t : Nat) (seqs : List Nat) : State :=
  forEach seqs s (s.takeBranch t (s.triggerTime t seqs))

section
variable {gs : List Fld} {s₀ s u : State}

theorem State.Keeps.takeBranch {t j : Nat} {time : Nat × Bool} (hl : gs ⊆ levelCells)
    (hj : ∀ g ∈ gs, ∃ i, i ≠ j ∧ g = TRG_STATUS_LEVEL.of i) (h : Keeps gs s₀ u) : Keeps gs s₀ (s.takeBranch t time j u) := by
  unfold State.takeBranch
  split
  · exact h.branchActions hl hj
  · exact h

/-- After the branches, a sample's evaluation keeps the levels. -/
theorem State.Keeps.afterBranches {t : Nat} {seqs : List Nat} (hl : gs ⊆ levelCells)
    (h : Keeps gs s₀ (s.takeBranches t seqs)) : Keeps gs s₀ (s.sampleStep t seqs) := by
  unfold State.sampleStep
  extract_lets time s1 s2 mine s3 s4
  have h1 : Keeps gs s₀ s1 := h
  have h2 : Keeps gs s₀ s2 := h1.forEach (fun _ _ h => by
      split
      · exact h.markAction hl
      · exact h)
  have h3 : Keeps gs s₀ s3 := h2.forEach (fun _ _ h => h.stepCounter hl)
  have h4 : Keeps gs s₀ s4 := h3.forEach (fun _ _ h => h.stepTimer hl)
  exact h4.forEach (fun _ _ h => h.onSeq)

/-- No cell is asked for: a sample's evaluation keeps the skeins' samples. -/
theorem State.Keeps.sampleStep {t : Nat} {seqs : List Nat} (h : Keeps [] s₀ s) : Keeps [] s₀ (s.sampleStep t seqs) :=
  .afterBranches (by simp) (h.forEach (fun _ _ h => h.takeBranch (by simp) (by simp)))

theorem levelCell_mem {j : Nat} (hj : j < 8) : [TRG_STATUS_LEVEL.of j] ⊆ levelCells := by
  simp only [List.cons_subset, List.nil_subset, and_true]
  exact List.mem_map_of_mem (List.mem_range.mpr hj)

/-- The branch of one sequencer keeps the level of another. -/
theorem State.Keeps.takeOther {t i j : Nat} {time : Nat × Bool} (hj : j < 8) (hi : j ≠ i)
    (h : Keeps [TRG_STATUS_LEVEL.of j] s₀ u) : Keeps [TRG_STATUS_LEVEL.of j] s₀ (s.takeBranch t time i u) :=
  h.takeBranch (levelCell_mem hj) (fun _ hg => ⟨j, hi, List.mem_singleton.mp hg⟩)

/-- The level that its branch gives a sequencer (R197): NEXT of the action word, or as before. -/
theorem takeBranch_level {t j v : Nat} {time : Nat × Bool} (hj : j < 8) (hv : u.get (TRG_STATUS_LEVEL.of j) = v) :
    (s.takeBranch t time j u).get (TRG_STATUS_LEVEL.of j) = match s.takenAct t j with
      | some (_, a) => field a 60 4
      | none => v := by
  unfold State.takeBranch
  split
  · next b a _ =>
    obtain ⟨w, -, hw⟩ := (State.Keeps.refl [TRG_STATUS_LEVEL.of j] u).beforeLevel (j := j) (t := t) (b := b) (a := a)
      (time := time) (levelCell_mem hj)
    rw [hw, State.get_set_same]
    exact Nat.mod_eq_of_lt (Nat.mod_lt _ (by decide))
  · exact hv

/-- The level of a sequencer of the sample after its evaluation. -/
theorem sampleStep_level {t j : Nat} {seqs : List Nat} (hseqs : seqs.Nodup) (hmem : j ∈ seqs) (hj : j < 8) :
    (s.sampleStep t seqs).get (TRG_STATUS_LEVEL.of j) = match s.takenAct t j with
      | some (_, a) => field a 60 4
      | none => s.get (TRG_STATUS_LEVEL.of j) := by
  obtain ⟨before, after, rfl⟩ := List.append_of_mem hmem
  obtain ⟨-, hnodup, hapart⟩ := List.nodup_append.mp hseqs
  have hbefore : ∀ i ∈ before, j ≠ i := fun i hi e => hapart i hi j (by simp) e.symm
  have hafter : ∀ i ∈ after, j ≠ i := fun i hi e => (List.nodup_cons.mp hnodup).1 (e ▸ hi)
  let time := s.triggerTime t (before ++ j :: after)
  have hfirst : State.Keeps [TRG_STATUS_LEVEL.of j] s (forEach before s (s.takeBranch t time)) :=
    (State.Keeps.refl _ s).forEach_mem (fun i hi _ h => h.takeOther hj (hbefore i hi))
  have hrest : State.Keeps [TRG_STATUS_LEVEL.of j] (s.takeBranch t time j (forEach before s (s.takeBranch t time)))
      (s.takeBranches t (before ++ j :: after)) := by
    have := (State.Keeps.refl [TRG_STATUS_LEVEL.of j] (s.takeBranch t time j (forEach before s (s.takeBranch t time)))).forEach_mem
      (l := after) (f := s.takeBranch t time) (fun i hi _ h => h.takeOther hj (hafter i hi))
    simpa only [State.takeBranches, forEach, List.foldl_append, List.foldl_cons] using this
  calc (s.sampleStep t (before ++ j :: after)).get (TRG_STATUS_LEVEL.of j)
      = (s.takeBranch t time j (forEach before s (s.takeBranch t time))).get (TRG_STATUS_LEVEL.of j) :=
        (hrest.afterBranches (levelCell_mem hj)).cells _ (by simp)
    _ = _ := takeBranch_level hj (hfirst.cells _ (by simp))

/-! ### Live samples -/

/-- The state in which the sequencers judge the sample at `t`: inputs, forces and gates have arrived. -/
def State.beforeSample (s : State) (t : Nat) : State :=
  forEach (upto 8) ((s.takeInputs t).takeForces t) (fun j s' => s'.markGate j t t)

theorem State.Keeps.beforeSample {t : Nat} (h : Keeps gs s₀ s) : Keeps gs s₀ (s.beforeSample t) :=
  (State.Keeps.takeForces h.onPins).forEach (fun _ _ h => h.markGate)

/-- The clocks after a live sample. -/
def Clocks.sampled (c : Clocks) : Clocks := { c with sampleAt := c.sampleAt + 64, alarms := clearPulses c.alarms }

theorem liveSample_eq (s : State) : s.liveSample =
    (({ (s.beforeSample s.clk.sampleAt).sampleStep s.clk.sampleAt (s.beforeSample s.clk.sampleAt).liveSeqs with
        now := max ((s.beforeSample s.clk.sampleAt).sampleStep s.clk.sampleAt (s.beforeSample s.clk.sampleAt).liveSeqs).now
          s.clk.sampleAt } : State).onClk
      (fun c => { c with sampleAt := s.clk.sampleAt + 64, alarms := clearPulses c.alarms })).pulsesEnd s.clk.sampleAt := rfl

/-- A live sample brings the time up to it, and the next one is 64 ticks on. -/
theorem liveSample_time (s : State) : s.liveSample.now = max s.now s.clk.sampleAt ∧ s.liveSample.clk = s.clk.sampled := by
  rw [liveSample_eq]
  generalize hstep : (s.beforeSample s.clk.sampleAt).sampleStep s.clk.sampleAt (s.beforeSample s.clk.sampleAt).liveSeqs = u
  have hbefore : Evolves false true s (s.beforeSample s.clk.sampleAt) :=
    (Evolves.refl false true s).takeInputs.takeForces.forEach (fun _ _ h => h.markGate)
  have hu : Evolves false true s u := hstep ▸ hbefore.sampleStep
  obtain ⟨hnow, hclk⟩ := hu.time rfl
  obtain ⟨hnow', hclk'⟩ := ((Evolves.refl false true _).pulsesEnd (t := s.clk.sampleAt)).time rfl
  exact ⟨hnow'.trans (by simp [hnow]), hclk'.trans (by simp [hclk, Clocks.sampled])⟩

theorem State.Keeps.liveSample (h : Keeps [] s₀ s) : Keeps [] s₀ s.liveSample := by
  rw [liveSample_eq]
  exact h.beforeSample.sampleStep.atTime.onClk.pulsesEnd (by simp)

/-- The level of a live sequencer after a live sample (R197). -/
theorem liveSample_level {j : Nat} (hj : j < 8) (hlive : s.detached j = false) :
    s.liveSample.get (TRG_STATUS_LEVEL.of j) = match (s.beforeSample s.clk.sampleAt).takenAct s.clk.sampleAt j with
      | some (_, a) => field a 60 4
      | none => s.get (TRG_STATUS_LEVEL.of j) := by
  rw [liveSample_eq]
  generalize hu : s.beforeSample s.clk.sampleAt = u
  have hbefore : State.Keeps [TRG_STATUS_LEVEL.of j, TRG_CTRL_DETACH.of j] s u := hu ▸ (State.Keeps.refl _ s).beforeSample
  have hmem : j ∈ u.liveSeqs := by
    refine List.mem_filter.mpr ⟨List.mem_range.mpr hj, ?_⟩
    have : u.detached j = false := by
      rw [← hlive]
      unfold State.detached State.is
      rw [hbefore.cells _ (by simp)]
    simp [this]
  have hstep := sampleStep_level (s := u) (t := s.clk.sampleAt) (List.nodup_range.filter _) hmem hj
  rw [hbefore.cells (TRG_STATUS_LEVEL.of j) (by simp)] at hstep
  rw [← hstep]
  exact ((State.Keeps.refl _ _).pulsesEnd (watched_of_level (levelCell_mem hj))).cells _ (by simp)

/-! ### Evaluation up to an instant -/

/-- Evaluation moves neither frames nor epochs. -/
theorem liveSamples_clk (fuel b : Nat) (s : State) :
    (State.liveSamples fuel b s).clk.frameAt = s.clk.frameAt ∧ (State.liveSamples fuel b s).clk.epochAt = s.clk.epochAt := by
  induction fuel generalizing s with
  | zero => exact ⟨rfl, rfl⟩
  | succ fuel ih =>
    unfold State.liveSamples
    split
    · simpa [(liveSample_time s).2, Clocks.sampled] using ih s.liveSample
    · exact ⟨rfl, rfl⟩

theorem evaluateTo_clk (s : State) (b : Nat) :
    (s.evaluateTo b).clk.frameAt = s.clk.frameAt ∧ (s.evaluateTo b).clk.epochAt = s.clk.epochAt := by
  unfold State.evaluateTo
  extract_lets s1 s2
  split
  · exact ⟨rfl, rfl⟩
  · split
    · exact liveSamples_clk _ _ s
    · have h1 : Evolves false true s s1 :=
        (Evolves.refl false true s).takeInputs.takeForces.forEach (fun _ _ h => h.markGate)
      have h2 : Evolves false true s s2 := h1.forEach (fun _ _ h => h.onSeq)
      rw [(((Evolves.refl false true _).pulsesEnd (t := b - 64)).time rfl).2]
      simp [(h2.time rfl).2]

theorem State.Keeps.evaluateTo {b : Nat} (h : Keeps [] s₀ s) : Keeps [] s₀ (s.evaluateTo b) := by
  unfold State.evaluateTo
  extract_lets s1 s2
  have hlive : ∀ fuel s, Keeps [] s₀ s → Keeps [] s₀ (State.liveSamples fuel b s) := by
    intro fuel
    induction fuel with
    | zero => exact fun _ h => h
    | succ fuel ih => exact fun s h => .ite (ih _ h.liveSample) h
  have h1 : Keeps [] s₀ s1 := (State.Keeps.takeForces h.onPins).forEach (fun _ _ h => h.markGate)
  have h2 : Keeps [] s₀ s2 := h1.forEach (fun _ _ h => h.onSeq)
  exact .ite h (.ite (hlive _ _ h) (h2.onClk.pulsesEnd (by simp)))

end

end Sys2Proof.Machine
end

