-- ==== Sys2Proof/Proofs/EpochBoundary.lean ====
section
/-! PROOFS. The timing-frame boundary, the epoch boundary and the check of the slot table (R8, R250). -/

namespace Sys2Proof.Machine

set_option Elab.async false

/-! ### The timing-frame boundary -/

/-- The state at the frame's end, before its effects: the samples have been evaluated and the time has come. -/
def State.frameOver (s : State) : State :=
  ((s.evaluateTo (s.clk.frameAt + frameTicks)).notePrev (s.clk.frameAt + frameTicks - 64)).reach (s.clk.frameAt + frameTicks)

theorem reach_time (s : State) (b : Nat) : b ≤ (s.reach b).now ∧ (s.reach b).clk = s.clk := by
  obtain ⟨hnow, hclk⟩ := ((Evolves.refl false true ({ s with now := max s.now b } : State)).raiseIf
    (c := decide (s.now / 2 ^ 64 < b / 2 ^ 64)) (k := 13)).time rfl
  exact ⟨(Nat.le_max_right s.now b).trans_eq hnow.symm, hclk⟩

theorem frameOver_time (s : State) : s.clk.frameAt + frameTicks ≤ s.frameOver.now ∧ s.frameOver.clk.epochAt = s.clk.epochAt := by
  obtain ⟨hnow, hclk⟩ := reach_time ((s.evaluateTo (s.clk.frameAt + frameTicks)).notePrev (s.clk.frameAt + frameTicks - 64))
    (s.clk.frameAt + frameTicks)
  have hprev := ((Evolves.refl false true (s.evaluateTo (s.clk.frameAt + frameTicks))).notePrev
    (t := s.clk.frameAt + frameTicks - 64)).time rfl
  refine ⟨hnow, ?_⟩
  unfold State.frameOver
  rw [hclk, hprev.2, (evaluateTo_clk _ _).2]

/-- The effects of the boundary take no time. -/
theorem boundary_eq (s : State) (findings : FrameFindings) : ∃ u p, Evolves false true s.frameOver u ∧
    s.boundary findings = (u.onPwr p).onClk (fun c => { c with frameAt := s.clk.frameAt + frameTicks }) := by
  unfold State.boundary
  extract_lets b0 b1 s0 verdicts s1 s2 s3 s4 s5 s6 s7 s8
  have h0 : Evolves false true s.frameOver s0 := (Evolves.refl false true s.frameOver).comparatorReads.creditsAt
  have h2 : Evolves false true s.frameOver s2 := h0.reduceAll.closeOutFaults.forEach (fun _ _ h => h.closeSession)
  have h4 : Evolves false true s.frameOver s4 := (h2.compareAt.forEach (fun _ _ h => h.commitAt)).visitSettings
  have h5 : Evolves false true s.frameOver s5 := h4.takeOverAt.forEach (fun _ _ h => h.castAt)
  have h6 : Evolves false true s.frameOver s6 := h5.armsAt.forEach (fun _ _ h => h.storageAt)
  have h7 : Evolves false true s.frameOver s7 := h6.forEach (fun _ _ h => .ite h.parityFault h)
  exact ⟨_, _, (h7.forEach (fun _ _ h => h.setBit)).spareTick, rfl⟩

/-- The boundary moves the last frame boundary on by a frame, and the time at least to it. -/
theorem boundary_time (s : State) (findings : FrameFindings) :
    (s.boundary findings).clk.frameAt = s.clk.frameAt + frameTicks ∧
      (s.boundary findings).clk.frameAt ≤ (s.boundary findings).now ∧
      (s.boundary findings).clk.epochAt = s.clk.epochAt := by
  obtain ⟨u, p, hu, e⟩ := boundary_eq s findings
  obtain ⟨hnow, hclk⟩ := hu.time rfl
  rw [e]
  refine ⟨rfl, ?_, ?_⟩
  · exact (frameOver_time s).1.trans_eq hnow.symm
  · exact (congrArg Clocks.epochAt hclk).trans (frameOver_time s).2

/-! ### The epoch boundary -/

/-- The epoch boundary notes the boundary as done, and moves nothing else of frames. -/
theorem epochEnds_clk (s : State) (b e : Nat) (counts : List (Fin 73 × DWord)) :
    (s.epochEnds b e counts).clk.epochAt = b ∧ (s.epochEnds b e counts).clk.frameAt = s.clk.frameAt := by
  unfold State.epochEnds
  extract_lets passed s1 s2 s3
  have h2 : Evolves false true s s2 := (Evolves.refl false true s).recordsDue.add.epochSent.dropImages
  have h3 : Evolves false true s (s3.handOverNow (epochOf b)) := (Evolves.ite h2 h2.checkFails).handOverNow
  refine ⟨rfl, ?_⟩
  have hpulse : ∀ u : State, (u.epochPulse b).clk.frameAt = u.clk.frameAt := by
    intro u
    unfold State.epochPulse
    split <;> rfl
  simp [hpulse, (h3.time rfl).2]

namespace State.Keeps

section
variable {gs : List Fld} {s₀ s : State}

theorem twinSendAt {type epoch : Nat} {payload : List Byte} (h : Keeps gs s₀ s) : Keeps gs s₀ (s.twinSendAt type epoch payload) := by
  unfold State.twinSendAt
  exact .ite h.onTwn h

theorem twinFault (h : Keeps gs s₀ s) : Keeps gs s₀ s.twinFault := .ite h.twinSendAt h

theorem putRole {r : Nat} (hw : gs ⊆ watched) (h : Keeps gs s₀ s) : Keeps gs s₀ (s.putRole r) :=
  .ite h ((h.set (.apart hw)).raise (.other hw (by decide)))

theorem takeRole {r : Nat} (hw : gs ⊆ watched) (h : Keeps gs s₀ s) : Keeps gs s₀ (s.takeRole r) := (h.putRole hw).pinEdges hw

theorem newLeadAt {e : Nat} (hw : gs ⊆ watched) (h : Keeps gs s₀ s) : Keeps gs s₀ (s.newLeadAt e) :=
  (((h.takeRole hw).set (.apart hw)).add (.apart hw)).raise (.other hw (by decide))

theorem logFault {event page outcome detail : Nat} (hw : gs ⊆ watched) (h : Keeps gs s₀ s) :
    Keeps gs s₀ (s.logFault event page outcome detail) := by
  unfold State.logFault
  exact (h.onFlt.add (.apart hw)).raise (.other hw (by decide))

theorem handOverNow {e : Nat} (hw : gs ⊆ watched) (h : Keeps gs s₀ s) : Keeps gs s₀ (s.handOverNow e) := by
  unfold State.handOverNow
  extract_lets s1 s2
  have h1 : Keeps gs s₀ s1 := h.onTwn
  have h2 : Keeps gs s₀ s2 := (h1.newLeadAt hw).onTwn
  exact .ite h (.ite h1 (.ite (h1.takeRole hw) (.ite (h2.logFault hw) h1)))

theorem disagree {ledger : Option (Nat × Nat)} {digest : Option Nat} (hw : gs ⊆ watched) (h : Keeps gs s₀ s) :
    Keeps gs s₀ (s.disagree ledger digest) := by
  unfold State.disagree
  extract_lets s1 s2
  have h1 : Keeps gs s₀ s1 :=
    ((h.raiseIf (.other hw (by decide))).raiseIf (.other hw (by decide))).add (.apart hw)
  have h2 : Keeps gs s₀ s2 := (h1.set (.apart hw)).set (.apart hw)
  exact .ite h ((h2.set (.apart hw)).set (.closed hw))

theorem handoverRecords {e : Nat} (h : Keeps gs s₀ s) : Keeps gs s₀ (s.handoverRecords e) := h.forEach (fun _ _ h => h.onRcd)

theorem agree {e : Nat} (hw : gs ⊆ watched) (h : Keeps gs s₀ s) : Keeps gs s₀ (s.agree e) := by
  unfold State.agree
  extract_lets mine theirs before ledger s1 s2
  have h2 : Keeps gs s₀ s2 := ((h.set (.apart hw)).disagree hw).onTwn
  exact .ite h (.ite h2.onTwn.handoverRecords h2)

theorem epochSent {e : Nat} {passed : Bool} (hw : gs ⊆ watched) (h : Keeps gs s₀ s) : Keeps gs s₀ (s.epochSent e passed) := by
  unfold State.epochSent
  exact .ite (h.twinSendAt.onTwn.agree hw) (.ite h h.onTwn)

theorem epochPulse {b : Nat} (h : Keeps gs s₀ s) : Keeps gs s₀ (s.epochPulse b) := .ite h.onClk h

/-! ### The interruption of the sessions (R224) -/

theorem putSess {n v : Nat} (hw : gs ⊆ watched) (h : Keeps gs s₀ s) : Keeps gs s₀ (s.putSess n v) :=
  .ite h ((((h.set (.beyond hw)).setBit (.beyond hw)).raise (.other hw (by omega))).powerFollow hw)

theorem acqWarn (hw : gs ⊆ watched) (h : Keeps gs s₀ s) : Keeps gs s₀ s.acqWarn := h.set (.beyond hw)

theorem putAbove {n : Nat} {v : Bool} (hw : gs ⊆ watched) (h : Keeps gs s₀ s) : Keeps gs s₀ (s.putAbove n v) :=
  .ite (h.set (.beyond hw)) (h.setBit (.beyond hw))

theorem sqMark {n : Nat} (hw : gs ⊆ watched) (h : Keeps gs s₀ s) : Keeps gs s₀ (s.sqMark n) :=
  .ite (((h.putAbove hw).raise (.other hw (by omega))).acqWarn hw) (.ite ((h.putAbove hw).acqWarn hw) (h.acqWarn hw))

theorem closeOut {d : Nat} (hw : gs ⊆ watched) (h : Keeps gs s₀ s) : Keeps gs s₀ (s.closeOut d) := by
  unfold State.closeOut
  extract_lets i units part words s1 s2
  have h1 : Keeps gs s₀ s1 := (h.set (.beyond hw)).add (.beyond hw)
  have h2 : Keeps gs s₀ s2 := h1.onRcd
  exact h2.onSkein.sqMark hw

theorem interrupt {n cause : Nat} (hw : gs ⊆ watched) (h : Keeps gs s₀ s) : Keeps gs s₀ (s.interrupt n cause) := by
  unfold State.interrupt
  extract_lets st
  refine .ite (h.putSess hw).onRcd.twinFault (.ite ?_ h)
  split
  · exact .ite (h.forEach (fun _ _ h => h.closeOut hw)).onRcd h
  · exact h.onRcd

theorem interruptAll {cause : Nat} (hw : gs ⊆ watched) (h : Keeps gs s₀ s) : Keeps gs s₀ (s.interruptAll cause) :=
  h.forEach (fun _ _ h => h.interrupt hw)

end

end State.Keeps

/-! ### The check of the slot table (R250) -/

theorem checkCells_watched : checkCells ⊆ watched := List.subset_append_left _ _

theorem State.Keeps.latched {s t : State} (h : Keeps checkCells s t) : t.latched 261 = s.latched 261 := by
  have hplace : evPlace 261 = some (evBit 0x160 3) := rfl
  simp only [State.latched, hplace, State.is]
  rw [h.cells checkLatch (by decide)]

/-- A failed check leaves the count of checks as it is. -/
theorem State.Keeps.checkFails {s₀ s : State} {e : Nat} (h : Keeps [ADM_EPOCHS_CHECKED.one] s₀ s) :
    Keeps [ADM_EPOCHS_CHECKED.one] s₀ (s.checkFails e) := by
  have hw : [ADM_EPOCHS_CHECKED.one] ⊆ watched := by decide
  unfold State.checkFails
  extract_lets s1
  have h1 : Keeps [ADM_EPOCHS_CHECKED.one] s₀ s1 :=
    ((h.set (by unfold Clear; decide)).set (by unfold Clear; decide)).raise (by unfold Unlatched; decide)
  exact (h1.logFault hw).interruptAll hw

/-- The count of checks after an epoch boundary. -/
theorem epochEnds_checked (s : State) (b e : Nat) (counts : List (Fin 73 × DWord)) :
    (s.epochEnds b e counts).get ADM_EPOCHS_CHECKED.one = (s.get ADM_EPOCHS_CHECKED.one + 1) % 2 ^ 32 := by
  have hw : [ADM_EPOCHS_CHECKED.one] ⊆ watched := by decide
  unfold State.epochEnds
  extract_lets passed s1 s2 s3
  have hdue : State.Keeps [ADM_EPOCHS_CHECKED.one] s (s.recordsDue e) := (State.Keeps.refl _ s).forEach (fun _ _ h => h.onRcd)
  have h1 : s1.get ADM_EPOCHS_CHECKED.one = (s.get ADM_EPOCHS_CHECKED.one + 1) % 2 ^ 32 := by
    rw [State.get_add_same, hdue.cells _ (by simp)]
    rfl
  have h2 : State.Keeps [ADM_EPOCHS_CHECKED.one] s1 s2 := ((State.Keeps.refl _ s1).epochSent hw).onRcd
  have h3 : State.Keeps [ADM_EPOCHS_CHECKED.one] s1 s3 := .ite h2 h2.checkFails
  rw [← h1]
  exact (h3.handOverNow hw).epochPulse.onRcd.onClk.cells _ (by simp)

/-- A failed check is shown and raises EV_261. -/
theorem checkFails_shows (s : State) (e : Nat) :
    (s.checkFails e).get ADM_STATUS_CHECK_FAIL.one = 1 ∧ (s.checkFails e).latched 261 = true := by
  unfold State.checkFails
  extract_lets s1
  have hkept : State.Keeps checkCells s1 ((s1.logFault 261 (PageClass.page .adm 0) 1 0).interruptAll 4) :=
    ((State.Keeps.refl _ s1).logFault checkCells_watched).interruptAll checkCells_watched
  constructor
  · rw [hkept.cells _ (by decide), State.raise_get_ne _ _ (by decide), State.get_set_ne _ _ (by decide), State.get_set_same]
    rfl
  · rw [hkept.latched]
    exact State.raise_latched _ _ rfl

/-- What an epoch boundary with a failed check shows. -/
theorem epochEnds_fails (s : State) (b e : Nat) (counts : List (Fin 73 × DWord)) (h : s.slotsMatch counts = false) :
    (s.epochEnds b e counts).is ADM_STATUS_CHECK_FAIL.one = true ∧ (s.epochEnds b e counts).latched 261 = true := by
  unfold State.epochEnds
  extract_lets passed s1 s2 s3
  have h3 : s3 = s2.checkFails e := if_neg (by simp [passed, h])
  have hkept : State.Keeps checkCells (s2.checkFails e)
      ((((s3.handOverNow (epochOf b)).epochPulse b).onRcd (fun r => { r with served := [] })).onClk
        (fun c => { c with epochAt := b })) := by
    rw [h3]
    exact ((State.Keeps.refl _ _).handOverNow checkCells_watched).epochPulse.onRcd.onClk
  obtain ⟨hfail, hlatch⟩ := checkFails_shows s2 e
  constructor
  · unfold State.is
    rw [hkept.cells _ (by decide), hfail]
    rfl
  · rw [hkept.latched, hlatch]

end Sys2Proof.Machine
end

