-- ==== Sys2Proof/Proofs/FramesInOrder.lean ====
section
/-! PROOFS. The state-frame boundary (R154), and the obligation on the order of frames, samples and epochs. -/

namespace Sys2Proof.Machine

set_option Elab.async false

/-! ### A commit of a skein keeps the samples -/

theorem Skein.reskew_kept (k : Skein) (c : Nat) (d : Int) (b : Nat) :
    (k.reskew c d b).samples = k.samples ∧ (k.reskew c d b).lastCount = k.lastCount := by
  unfold Skein.reskew
  extract_lets k1 moved old lost after kept
  split <;> exact ⟨rfl, rfl⟩

theorem Skein.reskews_kept (delta : Nat → Int) (b : Nat) (cs : List Nat) (k : Skein) :
    (cs.foldl (fun k c => if delta c = 0 then k else k.reskew c (delta c) b) k).samples = k.samples ∧
      (cs.foldl (fun k c => if delta c = 0 then k else k.reskew c (delta c) b) k).lastCount = k.lastCount := by
  induction cs generalizing k with
  | nil => exact ⟨rfl, rfl⟩
  | cons c cs ih =>
    rw [List.foldl_cons]
    split
    · exact ih k
    · obtain ⟨hs, hc⟩ := ih (k.reskew c (delta c) b)
      obtain ⟨hs', hc'⟩ := k.reskew_kept c (delta c) b
      exact ⟨hs.trans hs', hc.trans hc'⟩

theorem Unlatched.nil (k : Nat) : Unlatched [] k := fun _ h => by cases h

namespace State.Keeps

section
variable {s₀ s : State}

theorem admRefresh (h : Keeps [] s₀ s) : Keeps [] s₀ s.admRefresh := by
  unfold State.admRefresh
  extract_lets s1 s2 s3
  have h1 : Keeps [] s₀ s1 := h.forEach (fun _ _ h => h.set (.nil _))
  have h3 : Keeps [] s₀ s3 := (h1.set (.nil _)).forEach (fun _ _ h => h.set (.nil _))
  exact h3.forEach (fun _ _ h => h.set (.nil _))

theorem setShadow {f : Fld} {v : Nat} (h : Keeps [] s₀ s) : Keeps [] s₀ (s.setShadow f v) := h.rest

theorem followTarget {n b : Nat} {delta : List Int} (h : Keeps [] s₀ s) : Keeps [] s₀ (s.followTarget n delta b) := by
  unfold State.followTarget
  extract_lets s1
  have h1 : Keeps [] s₀ s1 := h.forEach (fun c s h => by
    extract_lets copy
    have hcopy : ∀ f s, Keeps [] s₀ s → Keeps [] s₀ (copy f s) := fun f s h => (h.set (.nil _)).setShadow
    exact hcopy _ _ (hcopy _ _ (hcopy _ _ h)))
  exact h1.onSkein (fun k => (Skein.reskews_kept (fun c => delta.getD c 0) b (upto 16) k).1)
    (fun k => (Skein.reskews_kept (fun c => delta.getD c 0) b (upto 16) k).2)

/-- The settings of a skein, not the spare's, come into force (R158). -/
theorem takeEffect {n b : Nat} (hn : n ≠ 64) (h : Keeps [] s₀ s) : Keeps [] s₀ (s.takeEffect n b) := by
  unfold State.takeEffect
  extract_lets old oldMode oldTarget oldSource s1 delta s2 s2a s3
  have h1 : Keeps [] s₀ s1 := h.forEach (fun _ _ h => h.set (.nil _))
  have h2 : Keeps [] s₀ s2 := h1.onSkein (fun k => (Skein.reskews_kept (fun c => delta.getD c 0) b (upto 16) k).1)
    (fun k => (Skein.reskews_kept (fun c => delta.getD c 0) b (upto 16) k).2)
  have hs2a : Keeps [] s₀ s2a := .ite h2.followTarget h2
  have h3 : Keeps [] s₀ s3 := .ite hs2a.onSkein.admRefresh hs2a
  rw [if_neg hn]
  exact h3

theorem skeinCause {n i : Nat} (h : Keeps [] s₀ s) : Keeps [] s₀ (s.skeinCause n i) :=
  .ite ((h.set (.nil _)).raise (.nil _)) (h.set (.nil _))

theorem settleCommit {n b c : Nat} {stateBoundary : Bool} (hn : n ≠ 64) (h : Keeps [] s₀ s) :
    Keeps [] s₀ (s.settleCommit n b c stateBoundary) := by
  unfold State.settleCommit
  extract_lets s1
  have h1 : Keeps [] s₀ s1 := (h.set (.nil _)).set (.nil _)
  refine .ite ?_ ((h1.set (.nil _)).set (.nil _)).skeinCause
  exact ((((((h.takeEffect hn).set (.nil _)).set (.nil _)).set (.nil _)).set (.nil _)).set (.nil _)).set (.nil _)

/-- The commit at a state-frame boundary is of a skein, not of the spare (R161). -/
theorem stateCommit {n t : Nat} (h : Keeps [] s₀ s) : Keeps [] s₀ (s.stateCommit n t) := by
  unfold State.stateCommit
  extract_lets d
  split
  · next hc =>
    have hd : d ≠ 64 := by simp only [Bool.and_eq_true, decide_eq_true_eq] at hc; omega
    exact ((h.settleCommit hd).raiseIf (.nil _)).onSkein
  · exact h

theorem enqueue {d : Nat} {q : QUnit} (h : Keeps [] s₀ s) : Keeps [] s₀ (s.enqueue d q) := by
  unfold State.enqueue
  extract_lets free s1 s2 s3 s4
  have h2 : Keeps [] s₀ s2 := (h.onSkein.add (.nil _)).add (.nil _)
  have h3 : Keeps [] s₀ s3 := .ite (h2.set (.nil _)) h2
  have h4 : Keeps [] s₀ s4 := (h.add (.nil _)).add (.nil _)
  exact .ite (h3.sqMark (by simp)) ((Keeps.ite h4 (h4.add (.nil _))).raise (.nil _))

theorem noteImage {n : Nat} {m : Made} (h : Keeps [] s₀ s) : Keeps [] s₀ (s.noteImage n m) := by
  unfold State.noteImage
  exact .ite h.onRcd h

theorem produce {n : Nat} {m : Made} {trailers : List Stitch} (h : Keeps [] s₀ s) : Keeps [] s₀ (s.produce n m trailers) := by
  unfold State.produce
  extract_lets u d words s1 i k t1 t2 t3 t4 t5
  have h1 : Keeps [] s₀ s1 := ((h.noteImage.add (.nil _)).add (.nil _)).add (.nil _)
  have k1 : Keeps [] s₀ t1 := ((h.noteImage.add (.nil _)).add (.nil _)).add (.nil _)
  have k3 : Keeps [] s₀ t3 := (((k1.add (.nil _)).add (.nil _)).add (.nil _)).add (.nil _)
  have k4 : Keeps [] s₀ t4 := ((k3.add (.nil _)).add (.nil _)).add (.nil _)
  exact .ite (h1.add (.nil _)).enqueue (k4.add (.nil _)).enqueue

/-- A frame that does not differ is only counted. -/
theorem compareEqual {b : Nat} (h : Keeps [] s₀ s) : Keeps [] s₀ (s.compareFrame b false) := h.add (.nil _)

end

end State.Keeps

/-! ### A unit of one skein -/

/-- `t` comes of `s` by the production of a unit of skein `n`: the registers, the messages, the record path and that
skein may have changed, a pending commit of it has not. -/
structure State.Produces (n : Nat) (s t : State) : Prop where
  only : t = { s with regs := t.regs, link := t.link, skeins := t.skeins, rcd := t.rcd }
  messages : s.link.sameButMessages t.link
  others : ∀ m, m ≠ n → t.skein m = s.skein m
  commit : t.get (SKN_COMMIT.of n) = s.get (SKN_COMMIT.of n)

theorem shadowing_skein (s : State) {n : Nat} (hn : n < 64) : s.shadowing n = false := by
  simp only [State.shadowing, Bool.and_eq_false_imp, beq_iff_eq]
  omega

theorem streamOf_skein (s : State) {n : Nat} (hn : n < 64) : s.streamOf n = n := by
  unfold State.streamOf
  rw [if_neg]
  simp only [Bool.and_eq_true, decide_eq_true_eq]
  omega

/-- A cell whose place is not that of SKN_COMMIT: a test that evaluates whatever its page is. -/
theorem commit_apart {n : Nat} {f : Fld} (hf : (SKN_COMMIT.of n).apart f = true := by rfl) : (SKN_COMMIT.of n).key ≠ f.key :=
  Fld.key_ne_of_apart hf

/-- A cell of a page past those of the skeins. -/
theorem commit_before {n : Nat} (hn : n < 64) {f : Fld} (hf : 0x140 ≤ f.page := by exact Nat.le_of_ble_eq_true rfl) :
    (SKN_COMMIT.of n).key ≠ f.key := by
  have hpage : (SKN_COMMIT.of n).page = 0x100 + n := if_neg (by omega)
  exact Fld.key_ne_of_page_lt rfl (by omega)

theorem commit_unlatched : ∀ n < 64, (SKN_COMMIT.of n).key ∉ latches [64 + 2 * n] ∧ (SKN_COMMIT.of n).key ∉ latches [277] := by
  decide +kernel

/-- Without a pending commit of the skein, nothing is committed. -/
theorem stateCommit_of_none {s : State} {n t : Nat} (hn : n < 64) (h : s.is (SKN_COMMIT.of n) = false) : s.stateCommit n t = s := by
  have hstream : s.streamOf n = n := streamOf_skein s hn
  unfold State.stateCommit
  simp [hstream, h]

namespace State.Produces

section
variable {n : Nat} {s₀ s t : State}

theorem refl (n : Nat) (s : State) : Produces n s s := ⟨rfl, rfl, fun _ _ => rfl, rfl⟩

theorem trans (h : Produces n s₀ s) (k : Produces n s t) : Produces n s₀ t := by
  obtain ⟨h1, h2, h3, h4⟩ := h
  obtain ⟨k1, k2, k3, k4⟩ := k
  refine ⟨?_, ?_, fun m hm => (k3 m hm).trans (h3 m hm), k4.trans h4⟩
  · rw [k1, h1]
  · unfold Link.sameButMessages at h2 k2 ⊢
    rw [k2, h2]

theorem ite {c : Prop} [Decidable c] (hs : Produces n s₀ s) (ht : Produces n s₀ t) : Produces n s₀ (if c then s else t) := by
  split
  · exact hs
  · exact ht

theorem set {f : Fld} {v : Nat} (h : Produces n s₀ s) (hf : (SKN_COMMIT.of n).key ≠ f.key) : Produces n s₀ (s.set f v) :=
  h.trans ⟨rfl, rfl, fun _ _ => rfl, s.get_set_ne v hf⟩

theorem add {f : Fld} {v : Nat} (h : Produces n s₀ s) (hf : (SKN_COMMIT.of n).key ≠ f.key) : Produces n s₀ (s.add f v) := h.set hf

theorem setBit {f : Fld} {b : Nat} {v : Bool} (h : Produces n s₀ s) (hf : (SKN_COMMIT.of n).key ≠ f.key) :
    Produces n s₀ (s.setBit f b v) := h.set hf

theorem raise {k : Nat} (h : Produces n s₀ s) (hk : (SKN_COMMIT.of n).key ∉ latches [k]) : Produces n s₀ (s.raise k) := by
  obtain ⟨honly, hmessages⟩ := State.sameButRegs_raise k (State.sameButRegs_refl s)
  refine h.trans ⟨?_, hmessages, fun m _ => by rw [State.raise_eq]; rfl, s.raise_get_ne k hk⟩
  rw [honly]

theorem onSkein {f : Skein → Skein} (h : Produces n s₀ s) : Produces n s₀ (s.onSkein n f) :=
  h.trans ⟨rfl, rfl, fun _ hm => s.skein_onSkein_ne f hm, rfl⟩

theorem onRcd {f : Record → Record} (h : Produces n s₀ s) : Produces n s₀ (s.onRcd f) :=
  h.trans ⟨rfl, rfl, fun _ _ => rfl, rfl⟩

theorem putAbove {v : Bool} (hn : n < 64) (h : Produces n s₀ s) : Produces n s₀ (s.putAbove n v) :=
  .ite (h.set (commit_before hn)) (h.setBit (commit_before hn))

theorem acqWarn (hn : n < 64) (h : Produces n s₀ s) : Produces n s₀ s.acqWarn := h.set (commit_before hn)

theorem sqMark (hn : n < 64) (h : Produces n s₀ s) : Produces n s₀ (s.sqMark n) :=
  .ite (((h.putAbove hn).raise (commit_unlatched n hn).1).acqWarn hn)
    (.ite ((h.putAbove hn).acqWarn hn) (h.acqWarn hn))

theorem enqueue {q : QUnit} (hn : n < 64) (h : Produces n s₀ s) : Produces n s₀ (s.enqueue n q) := by
  unfold State.enqueue
  extract_lets free s1 s2 s3 s4
  have h2 : Produces n s₀ s2 := (h.onSkein.add (commit_before hn)).add commit_apart
  have h3 : Produces n s₀ s3 := .ite (h2.set (commit_before hn)) h2
  have h4 : Produces n s₀ s4 := (h.add (commit_before hn)).add (commit_before hn)
  exact .ite (h3.sqMark hn) ((Produces.ite h4 (h4.add (commit_before hn))).raise (commit_unlatched n hn).2)

theorem noteImage {m : Made} (h : Produces n s₀ s) : Produces n s₀ (s.noteImage n m) := by
  unfold State.noteImage
  exact .ite h.onRcd h

/-- A skein that is not the spare produces its own stream. -/
theorem produce {m : Made} {trailers : List Stitch} (hn : n < 64) (h : Produces n s₀ s) :
    Produces n s₀ (s.produce n m trailers) := by
  unfold State.produce
  extract_lets u d words _ i k s1 s2 s3 s4 s5
  have hd : d = n := streamOf_skein u hn
  clear_value d
  subst hd
  rw [shadowing_skein u hn]
  have h1 : Produces d s₀ s1 := ((h.noteImage.add commit_apart).add commit_apart).add commit_apart
  have h3 : Produces d s₀ s3 := (((h1.add commit_apart).add (commit_before hn)).add (commit_before hn)).add (commit_before hn)
  have h4 : Produces d s₀ s4 := ((h3.add (commit_before hn)).add (commit_before hn)).add (commit_before hn)
  exact (h4.add (commit_before hn)).enqueue hn

end

end State.Produces

/-! ### The end of a state frame (R154) -/

section
variable {s0 : State} {n : Nat} {differs : Bool}

/-- No comparison that differs is made: the end of a state frame leaves an empty one, and counts the samples of the last. -/
theorem stateFrameEnd_empties (h : n < 64 ∨ differs = false) :
    ((s0.stateFrameEnd n differs).skein n).samples = [] ∧
      ((s0.stateFrameEnd n differs).skein n).lastCount = (s0.skein n).samples.length := by
  unfold State.stateFrameEnd
  extract_lets last s d g k u s1 s2 s3
  have hs : State.Keeps [] s0 s := (State.Keeps.refl [] s0).evaluateTo.onSkein
  have hcompare : State.Keeps [] s2 s3 := by
    rcases h with hn | hd
    · have hshadow : s.shadowing n = false := shadowing_skein s hn
      simp only [s3, hshadow, Bool.false_and, Bool.false_eq_true, if_false]
      exact .refl [] s2
    · simp only [s3, hd, Bool.false_eq_true, if_false]
      exact .ite (State.Keeps.refl [] s2).compareEqual (.refl [] s2)
  have hend : State.Keeps [] s2 (s3.stateCommit n s3.now) := hcompare.stateCommit
  have h2 : (s2.skein n).samples = [] ∧ (s2.skein n).lastCount = (s0.skein n).samples.length := by
    have hspan : State.Keeps [] s0 (s1.newSpan n g k.spanAt) := (hs.produce.add (.nil _)).onSkein
    simp only [s2, State.skein_onSkein_same, hspan.samples n, true_and]
  exact ⟨(hend.samples n).trans h2.1, (hend.lastCount n).trans h2.2⟩

theorem evaluateTo_of_le {s : State} {b : Nat} (h : b ≤ s.clk.sampleAt) : s.evaluateTo b = s := if_pos h

/-- Where its samples have been evaluated and no commit waits, a skein's state frame ends with its unit alone. -/
theorem stateFrameEnd_produces (hn : n < 64) (hcommit : s0.is (SKN_COMMIT.of n) = false)
    (hdone : ∀ x ∈ (s0.skein n).samples.getLast?, x.t / 64 * 64 + 64 ≤ s0.clk.sampleAt)
    (hsamples : (s0.skein n).samples ≠ []) : s0.Produces n (s0.stateFrameEnd n differs) := by
  unfold State.stateFrameEnd
  extract_lets last s d g k u s1 s2 s3
  have hlast : last / 64 * 64 + 64 ≤ s0.clk.sampleAt := by
    have := hdone _ (List.getLast?_eq_some_getLast hsamples)
    simpa [last, List.getLast?_eq_some_getLast hsamples] using this
  have hs : s0.Produces n s := by
    simp only [s, evaluateTo_of_le hlast]
    exact (State.Produces.refl n s0).onSkein
  have hshadow : s.shadowing n = false := shadowing_skein s hn
  have h1 : s0.Produces n s1 := (hs.produce hn).add commit_apart
  have h2 : s0.Produces n s2 := h1.onSkein.onSkein
  have h3 : s3 = s2 := by simp only [s3, hshadow, Bool.false_and, Bool.false_eq_true, if_false]
  rw [h3, stateCommit_of_none hn]
  · exact h2
  · unfold State.is at hcommit ⊢
    rw [h2.commit, hcommit]

end

/-! ### The obligation -/

/-- R8: FRAME_BOUNDARY of a running device. -/
theorem frameBoundary_moves (s : State) (f : FrameFindings) (hs : s.sampling = true) :
    ∃ t, exec (.frameBoundary f) s = .next t ∧ t.clk.frameAt = s.clk.frameAt + frameTicks ∧
      t.clk.frameAt ≤ t.now ∧ t.clk.epochAt = s.clk.epochAt ∧ s.sameMemory t := by
  obtain ⟨hframe, hnow, hepoch⟩ := boundary_time s f
  exact ⟨s.boundary f, if_pos hs, hframe, hnow, hepoch, (Evolves.refl true false s).boundary.sameMemory⟩

/-- R183, R197: SAMPLE_EVALUATION of a sample of the present frame. -/
theorem sampleEvaluation_moves (s : State) (hs : s.sampling = true) (hframe : s.clk.sampleAt < s.clk.frameAt + frameTicks) :
    ∃ t, exec .sampleEvaluation s = .next t ∧ t.clk.sampleAt = s.clk.sampleAt + 64 ∧ t.now = max s.now s.clk.sampleAt ∧
      t.clk.frameAt = s.clk.frameAt ∧ s.sameMemory t ∧
      ∀ u : State, u = forEach (upto 8) ((s.takeInputs s.clk.sampleAt).takeForces s.clk.sampleAt)
          (fun j s' => s'.markGate j s.clk.sampleAt s.clk.sampleAt) →
        ∀ j < 8, s.detached j = false →
          t.get (TRG_STATUS_LEVEL.of j) = match u.takenAct s.clk.sampleAt j with
            | some (_, a) => field a 60 4
            | none => s.get (TRG_STATUS_LEVEL.of j) := by
  obtain ⟨hnow, hclk⟩ := liveSample_time s
  have hat : s.liveSample.clk.sampleAt = s.clk.sampleAt + 64 := by rw [hclk]; rfl
  have hframe' : s.liveSample.clk.frameAt = s.clk.frameAt := by rw [hclk]; rfl
  have hexec : exec .sampleEvaluation s = .next s.liveSample := if_pos (by simp [hs, hframe])
  refine ⟨s.liveSample, hexec, hat, hnow, hframe', (Evolves.refl true false s).liveSample.sameMemory, ?_⟩
  intro u hu j hj hlive
  have hbefore : u = s.beforeSample s.clk.sampleAt := hu
  rw [hbefore]
  exact (liveSample_level hj hlive).trans (by cases (s.beforeSample s.clk.sampleAt).takenAct s.clk.sampleAt j <;> rfl)

/-- R8, R250: EPOCH_BOUNDARY at an epoch boundary not yet done. -/
theorem epochBoundary_moves (s : State) (counts : List (Fin 73 × DWord)) (hs : s.sampling = true)
    (hepoch : s.clk.frameAt % epochTicks = 0) (hnew : s.clk.epochAt < s.clk.frameAt) :
    ∃ t, exec (.epochBoundary counts) s = .next t ∧ t.clk.epochAt = s.clk.frameAt ∧ t.clk.frameAt = s.clk.frameAt ∧
      t.get ADM_EPOCHS_CHECKED.one = (s.get ADM_EPOCHS_CHECKED.one + 1) % 2 ^ 32 ∧
      (s.slotsMatch counts = false → t.is ADM_STATUS_CHECK_FAIL.one = true ∧ t.latched 261 = true) ∧ s.sameMemory t := by
  obtain ⟨hdone, hframe⟩ := epochEnds_clk s s.clk.frameAt (epochOf (s.clk.frameAt - 1)) counts
  exact ⟨s.epochEnds s.clk.frameAt (epochOf (s.clk.frameAt - 1)) counts, if_pos (by simp [hs, hepoch, hnew]), hdone, hframe,
    epochEnds_checked .., epochEnds_fails s _ _ counts, (Evolves.refl true false s).epochEnds.sameMemory⟩

/-- R154: STATE_FRAME_BOUNDARY of a full state frame. -/
theorem stateFrameBoundary_ends (s : State) (n : Fin 65) (differs : Bool) (h : n.val < 64 ∨ differs = false)
    (hreducing : (s.skein n.val).reducing = true) (hown : s.replaced n.val = false)
    (hmode : (s.gear (s.streamOf n.val)).stateMode = true) (hfull : (s.skein n.val).samples.length = 4096) :
    ∃ t, exec (.stateFrameBoundary n differs) s = .next t ∧ (t.skein n.val).samples = [] ∧
      (t.skein n.val).lastCount = 4096 ∧
      (n.val < 64 → s.is (SKN_COMMIT.of n.val) = false →
        (∀ x ∈ (s.skein n.val).samples.getLast?, x.t / 64 * 64 + 64 ≤ s.clk.sampleAt) →
        (∀ m, m ≠ n.val → t.skein m = s.skein m) ∧
        t = { s with regs := t.regs, link := t.link, skeins := t.skeins, rcd := t.rcd } ∧ s.link.sameButMessages t.link) := by
  obtain ⟨hempty, hcount⟩ := stateFrameEnd_empties (s0 := s) h
  refine ⟨s.stateFrameEnd n differs, if_pos (by simp [hreducing, hown, hmode, hfull]), hempty, hcount.trans hfull, ?_⟩
  intro hn hcommit hdone
  obtain ⟨honly, hmessages, hothers, -⟩ := stateFrameEnd_produces (differs := differs) hn hcommit hdone
    (fun e => by simp [e] at hfull)
  exact ⟨hothers, honly, hmessages⟩

/-- Settles O21: the boundaries and the samples in their order. The effects of a boundary take no time of their own, so that
the clocks stand where it puts them; a sample's evaluation writes each level once, in its sequencer's own branch; a state
frame's end clears the samples after the unit is made, and nothing after it, a pending commit included, touches them. -/
theorem framesAndSamplesComeInOrder : Obligations.FramesAndSamplesComeInOrder := by
  refine ⟨frameBoundary_moves, fun s f hs => if_neg (by simp [hs]), fun s _ => sampleEvaluation_moves s, fun s h => if_neg ?_,
    epochBoundary_moves, fun s counts h => if_neg ?_, stateFrameBoundary_ends, fun s n differs h => if_neg ?_⟩
  · rcases h with h | h
    · simp [h]
    · simp [Nat.not_lt.mpr h]
  · rcases h with h | h | h
    · simp [h]
    · simp [h]
    · simp [Nat.not_lt.mpr h]
  · rcases h with h | h | h | h <;> simp [h]

end Sys2Proof.Machine
end

