-- ==== Sys2Proof/Proofs/RegisterFields.lean ====
section
/-! PROOFS. Register writes (R9, R35, R43, R53 to R56): what a write of a plain register, of a locked page and of BAR4 does,
and the obligation on them. -/

namespace Sys2Proof.Machine

set_option Elab.async false

/-! ### Bytes and masks -/

theorem ofBytes_toBytes (k n : Nat) : ofBytes (toBytes k n) = n % 256 ^ k := by
  induction k generalizing n with
  | zero => simp [toBytes, ofBytes, Nat.mod_one]
  | succ k ih =>
    rw [toBytes, ofBytes, ih, Nat.pow_succ', Nat.mod_mul, BitVec.toNat_ofNat]

theorem toBytes_length (k n : Nat) : (toBytes k n).length = k := by
  induction k generalizing n with
  | zero => rfl
  | succ k ih => simp [toBytes, ih]

/-- A request whose enables are all set is one run. -/
theorem enabledRun_map_some {data : List Byte} (h : data ≠ []) : enabledRun (data.map some) = some (0, data) := by
  cases data with
  | nil => exact absurd rfl h
  | cons b bs =>
    have htake : (bs.map some).takeWhile (·.isSome) = bs.map some := List.takeWhile_eq_self_iff.mpr (by simp)
    have hdrop : (bs.map some).drop bs.length = [] := by simp
    simp [enabledRun, htake, hdrop]

/-- A number is the sum of its bits. -/
theorem maskOf_bits (w n : Nat) : maskOf w (bitOf n) = n % 2 ^ w := by
  unfold maskOf upto
  induction w with
  | zero => simp [Nat.mod_one]
  | succ w ih =>
    rw [List.range_succ, List.foldl_append, ih, List.foldl_cons, List.foldl_nil, Nat.pow_succ, Nat.mod_mul, Nat.mul_comm]
    congr 2
    unfold flag bitOf
    rcases Nat.mod_two_eq_zero_or_one (n / 2 ^ w) with h | h <;> simp [h]

/-- A write of all four bytes takes nothing of the old value. -/
theorem mergeBytes_full (old new : Nat) : mergeBytes old new 0xF = new % 2 ^ 32 := by
  have hmask : ∀ b < 32, bitOf 0xF (b / 8) = true := by decide
  rw [← maskOf_bits]
  unfold mergeBytes maskOf
  refine List.foldl_ext _ _ _ (fun a b hb => ?_)
  simp only [hmask b (List.mem_range.mp hb), if_true]

/-- A field at the lowest bit, put and held to its width, is the value put. -/
theorem setField_mod (n w v : Nat) : setField n 0 w v % 2 ^ w = v % 2 ^ w := by
  unfold setField field trunc
  simp only [Nat.pow_zero, Nat.div_one, Nat.mul_one]
  rw [← Nat.div_add_mod n (2 ^ w)]
  simp

/-! ### Writes of a list of cells -/

/-- The single cell of a field on page `p`. -/
def RegField.onPage (f : RegField) (p : Nat) : Fld := ⟨p, f.off, f.lo, f.width, f.reset, 0⟩

/-- The fields of `l` on page `p`, each with its bits of `v`. -/
def State.setFields (s : State) (p v : Nat) (l : List RegField) : State :=
  forEach l s (fun g s => s.set (g.onPage p) (field v g.lo g.width))

theorem State.setFields_eq (s : State) (p v : Nat) (l : List RegField) :
    s.setFields p v l = { s with regs := (s.setFields p v l).regs } := by
  unfold State.setFields forEach
  induction l generalizing s with
  | nil => rfl
  | cons g l ih =>
    rw [List.foldl_cons, ih]
    rfl

theorem State.setFields_get_ne (s : State) (p v : Nat) (l : List RegField) (f : Fld)
    (h : ∀ g ∈ l, f.key ≠ (g.onPage p).key) : (s.setFields p v l).get f = s.get f := by
  unfold State.setFields forEach
  induction l generalizing s with
  | nil => rfl
  | cons g l ih =>
    rw [List.foldl_cons, ih _ (fun x hx => h x (by simp [hx])), State.get_set_ne _ _ (h g (by simp))]

/-- Where the cells differ, each field reads its bits. -/
theorem State.setFields_get (s : State) (p v : Nat) {l : List RegField} {f : RegField} (hf : f ∈ l)
    (hkeys : (l.map (fun g => (g.onPage p).key)).Nodup) :
    (s.setFields p v l).get (f.onPage p) = field v f.lo f.width := by
  obtain ⟨before, after, rfl⟩ := List.append_of_mem hf
  rw [List.map_append, List.map_cons] at hkeys
  have hafter := (List.nodup_cons.mp (List.nodup_append.mp hkeys).2.1).1
  have hsplit : s.setFields p v (before ++ f :: after) = ((s.setFields p v before).set (f.onPage p)
      (field v f.lo f.width)).setFields p v after := by
    simp only [State.setFields, forEach, List.foldl_append, List.foldl_cons]
  rw [hsplit, State.setFields_get_ne _ _ _ _ _ (fun g hg e => hafter (List.mem_map.mpr ⟨g, hg, e.symm⟩)), State.get_set_same]
  exact Nat.mod_eq_of_lt (Nat.mod_lt _ (Nat.two_pow_pos _))

/-! ### Plain locations -/

/-- The fields of the register at `off` of a page of the class. -/
def fieldsAt (c : PageClass) (off : Nat) : List RegField := (fieldsOf c).filter (fun g => g.off == off)

/-- The location at `off` of a page of the class holds one register of CFG fields, neither repeated nor seen through a
window, and nothing else shows there. -/
def plainPlace (c : PageClass) (off : Nat) : Bool :=
  (fieldsOf c).all (fun g => if g.off == off then
      g.kind == .cfg && decide (g.lo < 32) && decide (g.lo + g.width ≤ 32) && g.count == 1 && g.index == 0
    else (g.place off).isNone)

/-- The part that such a location shows of a field. -/
def plainPart (p : Nat) (g : RegField) : Part := ⟨g, (g.onPage p), g.lo, g.width, 0⟩

theorem partOf_plain (s : State) {c : PageClass} {p off : Nat} {g : RegField} (hplain : plainPlace c off = true)
    (hg : g ∈ fieldsOf c) : s.partOf c p off g = if g.off == off then some (plainPart p g) else none := by
  have hg := List.all_eq_true.mp hplain g hg
  by_cases hoff : g.off = off
  · simp only [hoff, beq_self_eq_true, if_true, Bool.and_eq_true, decide_eq_true_eq, beq_iff_eq] at hg ⊢
    obtain ⟨⟨⟨⟨-, hlo⟩, hhi⟩, hcount⟩, hindex⟩ := hg
    have hplace : g.place off = some (0, false) := by simp [RegField.place, hoff, hcount]
    simp [State.partOf, hplace, hindex, hlo, plainPart, RegField.onPage, hoff, Nat.min_eq_left hhi]
  · simp only [beq_iff_eq, hoff, if_false] at hg ⊢
    simp [State.partOf, Option.isNone_iff_eq_none.mp hg]

theorem shownAt_plain (s : State) {c : PageClass} {n p off : Nat} (hpage : pageOf p = some (c, n))
    (hplain : plainPlace c off = true) (hhas : ∀ g ∈ fieldsAt c off, g.absent n = false) :
    s.shownAt p off = (fieldsAt c off).map (plainPart p) := by
  have hparts : s.partsAt p off = (fieldsAt c off).map (plainPart p) := by
    unfold State.partsAt
    simp only [hpage]
    rw [List.filterMap_congr (fun g hg => partOf_plain s (p := p) hplain hg), fieldsAt]
    induction fieldsOf c with
    | nil => rfl
    | cons g l ih =>
      rw [List.filterMap_cons, List.filter_cons, ih]
      split <;> simp_all
  unfold State.shownAt
  rw [hparts, List.filter_eq_self]
  simp only [hpage, Option.map_some, Option.getD_some, List.mem_map]
  rintro _ ⟨g, hg, rfl⟩
  simp [plainPart, RegField.onPage, hhas g hg, unseen]

theorem plainPlace_cfg {c : PageClass} {off : Nat} (hplain : plainPlace c off = true) :
    ∀ g ∈ fieldsAt c off, g.kind = .cfg := by
  intro g hg
  obtain ⟨hmem, hoff⟩ := List.mem_filter.mp hg
  have := List.all_eq_true.mp hplain g hmem
  simp only [hoff, if_true, Bool.and_eq_true, beq_iff_eq] at this
  exact this.1.1.1.1

/-- A value goes into each field of a plain location. -/
theorem assign_plain (s : State) {c : PageClass} {n p off : Nat} (v : Nat) (hpage : pageOf p = some (c, n))
    (hplain : plainPlace c off = true) (hhas : ∀ g ∈ fieldsAt c off, g.absent n = false) :
    s.assign p off v = s.setFields p v (fieldsAt c off) := by
  have hcfg := plainPlace_cfg hplain
  unfold State.assign State.setFields forEach
  rw [shownAt_plain s hpage hplain hhas, List.foldl_map]
  refine List.foldl_ext _ _ _ (fun u g hg => ?_)
  have hwidth : (g.onPage p).width = g.width := rfl
  simp only [plainPart, hcfg g hg, State.set, hwidth, setField_mod]

/-! ### What a write of a plain register does -/

/-- The write of the 32-bit register at `off` of a page of the class has a meaning of its own. -/
def ownWrite (c : PageClass) (off : Nat) : Bool :=
  match c with
  | .sys => off == 0x060
  | .evt => off == 0x048
  | .clk => off == 0x040 || off == 0x058
  | .time => off == 0x050 || (decide (0x080 ≤ off) && decide (off < 0x0C0))
  | .life => off == 0x040 || off == 0x04C
  | .pwr => off == 0x078 || off == 0x08C || off == 0x0BC
  | .swt => off == 0x064
  | .twn => off == 0x040
  | .feg => off == 0x044
  | .sq => off == 0x040 || off == 0x044
  | .seg => off == 0x048
  | .hbmg => off == 0x040 || off == 0x058
  | .grt => decide (0x100 ≤ off) && decide (off < 0x200)
  | .svc | .wr | .hbm => false
  | _ => true

/-- Elsewhere a register that holds no counter just takes its value. -/
theorem blockWrite_plain (s : State) {c : PageClass} {n p off : Nat} (v : Nat) (hown : ownWrite c off = false)
    (hcnt : s.holdsCnt p off = false) : s.blockWrite c n p off v = s.assign p off v := by
  cases c
  case svc | wr | hbm => rfl
  case mbx | fuse | fe | skn | trg | pool | adm | dmag | dma | flw => simp [ownWrite] at hown
  case life =>
    simp only [ownWrite, Bool.or_eq_false_iff, beq_eq_false_iff_ne] at hown
    simp [State.blockWrite, hown.1, hown.2, hcnt]
  all_goals
    simp only [ownWrite, Bool.or_eq_false_iff, Bool.and_eq_false_imp, beq_eq_false_iff_ne, decide_eq_true_eq,
      decide_eq_false_iff_not] at hown
    simp only [State.blockWrite]
    repeat rw [if_neg (by omega)]

/-- The location at `off` of page `n` of a class takes a full write into its fields, and no more. -/
structure PlainRegister (c : PageClass) (n off : Nat) : Prop where
  page : pageOf (c.page n) = some (c, n)
  block : 0x040 ≤ off ∧ off < 4096 ∧ off % 4 = 0
  place : plainPlace c off = true
  shown : ∀ g ∈ fieldsAt c off, g.absent n = false
  single : pairHalf (c.page n) off false = false ∧ pairHalf (c.page n) off true = false
  level : copyOff c off = false ∧ eventBits c off = 0
  own : ownWrite c off = false
  keys : ((fieldsAt c off).map (fun g => (g.onPage (c.page n)).key)).Nodup

section
variable {c : PageClass} {n off : Nat}

theorem PlainRegister.shownAt (r : PlainRegister c n off) (s : State) :
    s.shownAt (c.page n) off = (fieldsAt c off).map (plainPart (c.page n)) := shownAt_plain s r.page r.place r.shown

/-- No part of it is of a given other kind. -/
theorem PlainRegister.kinds (r : PlainRegister c n off) (s : State) {q : Part} (hq : q ∈ s.shownAt (c.page n) off) :
    q.field.kind = .cfg := by
  rw [r.shownAt] at hq
  obtain ⟨g, hg, rfl⟩ := List.mem_map.mp hq
  exact plainPlace_cfg r.place g hg

/-- Its cells are none of the page's header. -/
theorem PlainRegister.header_apart (r : PlainRegister c n off) {h : Fld} (hplaced : h.placed = true) (hoff : h.off < 0x040) :
    ∀ g ∈ fieldsAt c off, h.key ≠ (g.onPage (c.page n)).key := by
  intro g hg hkey
  obtain ⟨hmem, hat⟩ := List.mem_filter.mp hg
  have hplain := List.all_eq_true.mp r.place g hmem
  rw [beq_iff_eq] at hat
  simp only [hat, beq_self_eq_true, if_true, Bool.and_eq_true, decide_eq_true_eq] at hplain
  obtain ⟨⟨⟨⟨-, hlo⟩, hhi⟩, -⟩, -⟩ := hplain
  obtain ⟨hlow, hhigh, -⟩ := r.block
  have hplace := Fld.key_inj ((Fld.placed_iff h).mp hplaced) (g := g.onPage (c.page n))
    (by simp only [RegField.onPage]; omega) hkey
  have : h.off = g.off := hplace.2.1
  omega

/-- A full write reaches the register's fields. -/
theorem PlainRegister.landWrite (r : PlainRegister c n off) (s : State) {v : Nat} (hv : v < 2 ^ 32)
    (hfields : fieldsAt c off ≠ []) :
    s.landWrite (c.page n) off v 0xF = s.setFields (c.page n) v (fieldsAt c off) := by
  obtain ⟨hlow, hhigh⟩ := r.single
  obtain ⟨hcopy, hevents⟩ := r.level
  have hcnt : s.holdsCnt (c.page n) off = false := by
    unfold State.holdsCnt
    rw [List.any_eq_false]
    intro q hq
    simp [r.kinds s hq]
  have hempty : (s.shownAt (c.page n) off).isEmpty = false := by simpa [r.shownAt] using hfields
  have hgrain : (c == .hbmg && off == 0x040) = false := by
    have := r.own
    cases c <;> simp_all [ownWrite]
  have hreg : s.regWrite c n (c.page n) off v 0xF = s.assign (c.page n) off v := by
    unfold State.regWrite
    simp only [bne_self_eq_false, Bool.and_false, Bool.false_eq_true, if_false, hlow, hhigh, mergeBytes_full,
      Nat.mod_eq_of_lt hv, hgrain]
    exact blockWrite_plain s v r.own hcnt
  unfold State.landWrite
  simp only [r.page, hcopy, hevents, hempty, ne_eq, not_true_eq_false, Bool.false_eq_true, if_false,
    if_neg (Nat.not_lt.mpr r.block.1), hreg]
  exact assign_plain s v r.page r.place r.shown

end

end Sys2Proof.Machine
end

