-- ==== Sys2Proof/Proofs/RegisterWrites.lean ====
section
/-! PROOFS. The obligation on register writes: plain registers, locked pages, BAR4 and posted writes. -/

namespace Sys2Proof.Machine

set_option Elab.async false

/-! ### The plain registers of the obligation -/

/-- The plain registers with their pages' instances: those that take a write at once, and those that take a posted one. -/
def plainRegs : List (RegField × Nat) := plainFields.map (fun f => (f, 0)) ++ plainPosted

theorem plainRegs_plain : ∀ x ∈ plainRegs, PlainRegister x.1.cls x.2 x.1.off := by
  have hpage : ∀ x ∈ plainRegs, pageOf (x.1.cls.page x.2) = some (x.1.cls, x.2) := by decide
  have hblock : ∀ x ∈ plainRegs, 0x040 ≤ x.1.off ∧ x.1.off < 4096 ∧ x.1.off % 4 = 0 := by decide
  have hplace : ∀ x ∈ plainRegs, plainPlace x.1.cls x.1.off = true := by decide +kernel
  have hshown : ∀ x ∈ plainRegs, ∀ g ∈ fieldsAt x.1.cls x.1.off, g.absent x.2 = false := by decide +kernel
  have hsingle : ∀ x ∈ plainRegs, pairHalf (x.1.cls.page x.2) x.1.off false = false ∧
      pairHalf (x.1.cls.page x.2) x.1.off true = false := by decide +kernel
  have hlevel : ∀ x ∈ plainRegs, copyOff x.1.cls x.1.off = false ∧ eventBits x.1.cls x.1.off = 0 := by decide
  have hown : ∀ x ∈ plainRegs, ownWrite x.1.cls x.1.off = false := by decide
  have hkeys : ∀ x ∈ plainRegs, ((fieldsAt x.1.cls x.1.off).map (fun g => (g.onPage (x.1.cls.page x.2)).key)).Nodup := by
    decide +kernel
  exact fun x hx => ⟨hpage x hx, hblock x hx, hplace x hx, hshown x hx, hsingle x hx, hlevel x hx, hown x hx, hkeys x hx⟩

/-- The register of a plain field holds it, and every field of it is listed. -/
theorem plainFields_table : ∀ f ∈ plainFields, f ∈ fieldsAt f.cls f.off ∧
    ∀ g ∈ fieldsAt f.cls f.off, g ∈ plainFields ∧ (g.cls == f.cls && g.off == f.off) = true := by decide +kernel

theorem plainPosted_table : ∀ x ∈ plainPosted, x.1 ∈ fieldsAt x.1.cls x.1.off ∧
    ∀ g ∈ fieldsAt x.1.cls x.1.off, ∃ y ∈ plainPosted, y.1 = g ∧ (g.cls == x.1.cls && g.off == x.1.off) = true := by decide +kernel

theorem refuses_of_class (s : State) {c : PageClass} {n off : Nat} (v : Nat) (hc : c ∉ [.fe, .skn, .trg, .pool, .dma])
    (hoff : c = .feg → off < 0x080) : s.refuses c n off v = false := by
  cases c
  case fe | skn | trg | pool | dma => simp at hc
  case feg =>
    have := hoff rfl
    simp only [State.refuses]
    rw [if_neg (by omega), if_neg (by omega)]
  all_goals rfl

/-- No write of a plain register is refused or posted. -/
theorem plainFields_accepted (s : State) (v : Nat) : ∀ f ∈ plainFields, s.refuses f.cls 0 f.off v = false ∧
    postedAt f.cls f.off = false := by
  have hclass : ∀ f ∈ plainFields, f.cls ∉ [PageClass.fe, .skn, .trg, .pool, .dma] ∧ (f.cls = .feg → f.off < 0x080) ∧
      postedAt f.cls f.off = false := by decide
  exact fun f hf => ⟨refuses_of_class s v (hclass f hf).1 (hclass f hf).2.1, (hclass f hf).2.2⟩

/-! ### A full write of a plain register -/

theorem plainFields_write (s : State) {f : RegField} (v : Nat) (hf : f ∈ plainFields) (hv : v < 2 ^ 32) :
    s.arriveWrite (f.cls.page 0) f.off v 0xF = s.setFields (f.cls.page 0) v (fieldsAt f.cls f.off) := by
  have r : PlainRegister f.cls 0 f.off := plainRegs_plain (f, 0) (List.mem_append_left _ (List.mem_map_of_mem hf))
  have hmem : fieldsAt f.cls f.off ≠ [] := List.ne_nil_of_mem (plainFields_table f hf).1
  obtain ⟨hrefused, hposted⟩ := plainFields_accepted s (mergeBytes (s.mergeBase (f.cls.page 0) f.off) v 0xF) f hf
  have hat : s.registerAt f.cls (f.cls.page 0) f.off = true := by
    simp [State.registerAt, r.level.1, r.block.1, r.shownAt s, hmem]
  unfold State.arriveWrite
  simp [r.page, Nat.not_lt.mpr r.block.1, hat, hrefused, State.tooNarrow, hposted, r.landWrite s hv hmem]

/-- The bytes of one location, in the request for the pair that it lies in. -/
theorem location_masks {off : Nat} (h : off % 4 = 0) :
    (off / 8 * 8 = off ∧ spanMask (off / 8 * 8) off 4 = 0xF ∧ spanMask (off / 8 * 8 + 4) off 4 = 0 ∧ 8 * (off % 8) = 0) ∨
      (off / 8 * 8 + 4 = off ∧ spanMask (off / 8 * 8) off 4 = 0 ∧ spanMask (off / 8 * 8 + 4) off 4 = 0xF ∧ 8 * (off % 8) = 32) := by
  have hmask : ∀ b : Nat, spanMask b b 4 = 0xF ∧ spanMask (b + 4) b 4 = 0 ∧ spanMask b (b + 4) 4 = 0 := by
    intro b
    simp [spanMask, maskOf, upto, List.range_succ, flag]
  rcases (by omega : off / 8 * 8 = off ∨ off / 8 * 8 + 4 = off) with e | e
  · left
    rw [e]
    exact ⟨rfl, (hmask off).1, (hmask off).2.1, by omega⟩
  · right
    have e4 : off = off / 8 * 8 + 4 := e.symm
    refine ⟨e, ?_, ?_, by omega⟩
    · rw [congrArg (spanMask (off / 8 * 8) · 4) e4]
      exact (hmask _).2.2
    · rw [e]
      exact (hmask off).1

theorem State.admits_iff (s : State) (p : Nat) : s.admits p = true ↔ s.hostOpen = true ∧ s.paused = false ∧
    s.pageLocked p = false ∧ s.is (fencedOf p) = false ∧ s.is (busyOf p) = false := by
  simp [State.admits, and_assoc]

theorem arriveWrite_zero (s : State) (p off v : Nat) : s.arriveWrite p off v 0 = s := by
  unfold State.arriveWrite
  split <;> rfl

/-- On a page neither fenced nor busy a request reaches its locations. -/
theorem wordsWrite_open (s : State) {p : Nat} (base v lo hi : Nat) (hfenced : s.is (fencedOf p) = false)
    (hbusy : s.is (busyOf p) = false) :
    s.wordsWrite p base v lo hi = (s.arriveWrite p base (v % 2 ^ 32) lo).arriveWrite p (base + 4) (v / 2 ^ 32) hi := by
  simp [State.wordsWrite, hfenced, hbusy]

/-- An unlocked page takes a request for its block registers, and is locked again (R54). -/
theorem pageWrite_open (s : State) {p at_ : Nat} (v lo hi : Nat) (hp : (pageOf p).isSome) (hlocked : s.pageLocked p = false)
    (hkey : at_ / 8 * 8 ≠ 0x018) :
    s.pageWrite p at_ v lo hi false = (s.set (unlockedOf p) 0).wordsWrite p (at_ / 8 * 8) v lo hi := by
  have hnone : (pageOf p).isNone = false := by simp [hp]
  simp [State.pageWrite, hnone, hlocked, hkey]

/-- A request of four bytes for a block register, on a page that is neither locked nor fenced nor busy (R54). -/
theorem bar0Write_location (s : State) {p off : Nat} (v : DWord) (hp : (pageOf p).isSome)
    (hblock : 0x040 ≤ off ∧ off < 4096 ∧ off % 4 = 0)
    (hopen : s.pageLocked p = false ∧ s.is (fencedOf p) = false ∧ s.is (busyOf p) = false) :
    s.bar0Write (p * 4096 + off) ((toBytes 4 v.toNat).map some) = (s.set (unlockedOf p) 0).arriveWrite p off v.toNat 0xF := by
  obtain ⟨hlow, hhigh, halign⟩ := hblock
  obtain ⟨hlocked, hfenced, hbusy⟩ := hopen
  have hpage : (p * 4096 + off) / 4096 = p := by omega
  have hoff : (p * 4096 + off) % 4096 = off := by omega
  have hlength : (toBytes 4 v.toNat).length = 4 := toBytes_length 4 _
  have hspan : badSpan (p * 4096 + off) 4 = false := by
    simp only [badSpan, decide_eq_false_iff_not]
    omega
  have hbytes : ofBytes (toBytes 4 v.toNat) = v.toNat := by
    rw [ofBytes_toBytes]
    exact Nat.mod_eq_of_lt v.isLt
  have hfenced' : (s.set (unlockedOf p) 0).is (fencedOf p) = false := by
    rw [State.is, State.get_set_ne _ _ (Fld.key_ne_of_apart rfl)]
    exact hfenced
  have hbusy' : (s.set (unlockedOf p) 0).is (busyOf p) = false := by
    rw [State.is, State.get_set_ne _ _ (Fld.key_ne_of_apart rfl)]
    exact hbusy
  have hne : toBytes 4 v.toNat ≠ [] := List.ne_nil_of_length_pos (by omega)
  have hwords : s.bar0Write (p * 4096 + off) ((toBytes 4 v.toNat).map some) =
      (s.set (unlockedOf p) 0).wordsWrite p (off / 8 * 8) (v.toNat * 2 ^ (8 * (off % 8))) (spanMask (off / 8 * 8) off 4)
        (spanMask (off / 8 * 8 + 4) off 4) := by
    unfold State.bar0Write
    rw [enabledRun_map_some hne]
    simp only [Nat.add_zero, hpage, hoff, hlength, List.length_map, hspan, hbytes, List.isEmpty_eq_false_iff.mpr hne,
      Bool.false_eq_true, if_false]
    exact pageWrite_open s _ _ _ hp hlocked (by omega)
  rw [hwords, wordsWrite_open _ _ _ _ _ hfenced' hbusy']
  have hv : v.toNat < 2 ^ 32 := v.isLt
  rcases location_masks halign with ⟨hbase, hlo, hhi, hshift⟩ | ⟨hbase, hlo, hhi, hshift⟩
  · rw [hlo, hhi, hshift, hbase, arriveWrite_zero, Nat.pow_zero, Nat.mul_one, Nat.mod_eq_of_lt hv]
  · rw [hlo, hhi, hshift, hbase, arriveWrite_zero, Nat.mul_div_cancel _ (by decide)]

/-! ### The clauses of the obligation -/

/-- R35, R57: a write request of BAR0 that the function takes. -/
theorem exec_bar0 (s : State) (addr : BitVec 24) (data : List (Option Byte)) (hhost : s.hostOpen = true)
    (hpaused : s.paused = false) (hlength : data.length ≤ 4096) :
    exec (.registerWrite .bar0 addr data) s = .next (s.bar0Write addr.toNat data) := by
  have hformed : ¬ (4096 < data.length ∨ (Bar.bar0 = .bar4 ∧ 0x10000 < addr.toNat + data.length)) := by
    simp only [reduceCtorEq, false_and, or_false]
    omega
  show execRegisterWrite .bar0 addr data s = _
  unfold execRegisterWrite
  rw [if_neg hformed]
  simp [hhost, hpaused]

/-- R9, R54: a full write of a plain register. -/
theorem plainField_takes (s : State) (f : RegField) (v : DWord) (hf : f ∈ plainFields) (ha : s.admits (f.cls.page 0) = true) :
    ∃ t, exec (.registerWrite .bar0 (BitVec.ofNat 24 (f.cls.page 0 * 4096 + f.off)) ((toBytes 4 v.toNat).map some)) s = .next t ∧
      t.get f.one = field v.toNat f.lo f.width ∧ t.pageLocked (f.cls.page 0) = guardedPage (f.cls.page 0) ∧
      s.sameRegs ((unlockedOf (f.cls.page 0)).key :: (plainFields.filter (fun g => g.cls == f.cls && g.off == f.off)).map
        (fun g => g.one.key)) t ∧ t = { s with regs := t.regs } := by
  obtain ⟨hhost, hpaused, hopen⟩ := (s.admits_iff _).mp ha
  have r : PlainRegister f.cls 0 f.off := plainRegs_plain (f, 0) (List.mem_append_left _ (List.mem_map_of_mem hf))
  obtain ⟨hmem, htable⟩ := plainFields_table f hf
  let u := s.set (unlockedOf (f.cls.page 0)) 0
  let t := u.setFields (f.cls.page 0) v.toNat (fieldsAt f.cls f.off)
  have haddr : (BitVec.ofNat 24 (f.cls.page 0 * 4096 + f.off)).toNat = f.cls.page 0 * 4096 + f.off := by
    have hpages : ∀ f ∈ plainFields, f.cls.page 0 < 4096 := by decide
    have := hpages f hf
    have := r.block.2.1
    rw [BitVec.toNat_ofNat]
    exact Nat.mod_eq_of_lt (by omega)
  have hwrite : s.bar0Write (f.cls.page 0 * 4096 + f.off) ((toBytes 4 v.toNat).map some) = t :=
    (bar0Write_location s v (by rw [r.page]; rfl) r.block hopen).trans (plainFields_write u _ hf v.isLt)
  refine ⟨t, ?_, State.setFields_get u _ _ hmem r.keys, ?_, ?_, State.setFields_eq u _ v.toNat _⟩
  · rw [exec_bar0 s _ _ hhost hpaused (by simp [toBytes_length]), haddr, hwrite]
  · have hget : t.get (unlockedOf (f.cls.page 0)) = 0 :=
      (State.setFields_get_ne u _ _ _ _ (r.header_apart rfl (show 0x00C < 0x040 by decide))).trans (State.get_set_same ..)
    simp [State.pageLocked, State.is, hget]
  · intro g hg
    rw [List.mem_cons, not_or] at hg
    refine (State.setFields_get_ne u _ _ _ g (fun x hx e => hg.2 ?_)).trans (s.get_set_ne 0 hg.1)
    obtain ⟨hplain, hplace⟩ := htable x hx
    refine List.mem_map.mpr ⟨x, List.mem_filter.mpr ⟨hplain, hplace⟩, ?_⟩
    have hcls : x.cls = f.cls := eq_of_beq (Bool.and_eq_true_iff.mp hplace).1
    rw [e, ← hcls]
    rfl

/-- R53: a write to a locked page, past PAGE_UNLOCK, changes only what reports it. -/
theorem lockedPage_refuses (s : State) (addr : BitVec 24) (data : List Byte) (hhost : s.hostOpen = true)
    (hpaused : s.paused = false) (hlocked : s.pageLocked (addr.toNat / 4096) = true) (hdata : data ≠ [])
    (hspan : addr.toNat % 8 + data.length ≤ 8) (hkey : addr.toNat % 4096 / 8 ≠ 0x018 / 8) :
    exec (.registerWrite .bar0 addr (data.map some)) s =
      .next (s.lockedWrite (addr.toNat / 4096) (addr.toNat % 4096)) := by
  have hpage : (pageOf (addr.toNat / 4096)).isNone = false := by
    rw [State.pageLocked, Bool.and_eq_true] at hlocked
    unfold guardedPage at hlocked
    cases hp : pageOf (addr.toNat / 4096) <;> simp [hp] at hlocked ⊢
  have hbase : (addr.toNat % 4096 / 8 * 8 == 0x018) = false := by
    rw [beq_eq_false_iff_ne]
    omega
  rw [exec_bar0 s _ _ hhost hpaused (by rw [List.length_map]; omega)]
  unfold State.bar0Write State.pageWrite
  rw [enabledRun_map_some hdata]
  simp [hpage, hlocked, hbase, List.isEmpty_eq_false_iff.mpr hdata]

/-- What reports a write to a locked page (R66). -/
theorem lockedWrite_reports (s : State) {p off : Nat} (hp : p < 4096) (hoff : off < 4096) :
    (s.lockedWrite p off).get (accessErrOf p) = 1 ∧ (s.lockedWrite p off).get SYS_LAST_ERR_CAUSE.one = 3 ∧
      (s.lockedWrite p off).get SYS_LAST_ERR_PAGE.one = p ∧ (s.lockedWrite p off).get SYS_LAST_ERR_OFFSET.one = off ∧
      (s.lockedWrite p off).latched 1 = true ∧
      s.sameRegs ([accessErrOf p, SYS_LAST_ERR_CAUSE.one, SYS_LAST_ERR_PAGE.one, SYS_LAST_ERR_OFFSET.one].map Fld.key ++ latches [1])
        (s.lockedWrite p off) ∧ s.sameButRegs (s.lockedWrite p off) := by
  have hraise : ∀ (u : State) (g : Fld), g.key ∉ latches [1] → (u.raise 1).get g = u.get g := fun u g hg => u.raise_get_ne 1 hg
  have herr : (accessErrOf p).key ∉ latches [1] := latch_apart (e := evBit 0x000 1) rfl rfl
  unfold State.lockedWrite State.headerErr
  refine ⟨?_, ?_, ?_, ?_, State.raise_latched _ _ rfl, ?_, ?_⟩
  · rw [hraise _ _ herr, State.get_set_ne _ _ (Fld.key_ne_of_apart rfl), State.get_set_ne _ _ (Fld.key_ne_of_apart rfl),
      State.get_set_ne _ _ (Fld.key_ne_of_apart rfl), State.get_set_same]
    rfl
  · rw [hraise _ _ (by decide), State.get_set_ne _ _ (by decide), State.get_set_ne _ _ (by decide), State.get_set_same]
    rfl
  · rw [hraise _ _ (by decide), State.get_set_same]
    exact Nat.mod_eq_of_lt (hp.trans (by decide))
  · rw [hraise _ _ (by decide), State.get_set_ne _ _ (by decide), State.get_set_same]
    exact Nat.mod_eq_of_lt hoff
  · refine State.sameRegs_raise 1 ?_ (fun x hx => List.mem_append_right _ hx)
    exact State.sameRegs_set _ (State.sameRegs_set _ (State.sameRegs_set _ (State.sameRegs_set _ (State.sameRegs_refl s _)
      (by simp)) (by simp)) (by simp)) (by simp)
  · exact State.sameButRegs_raise 1 (State.sameButRegs_set _ _ (State.sameButRegs_set _ _ (State.sameButRegs_set _ _
      (State.sameButRegs_set _ _ (State.sameButRegs_refl s)))))

/-- Bytes written to the argument block or the bulk buffer are held there, and nothing else changes (R43). -/
theorem bar4Write_holds (l : Link) (x : Nat) (data : List Byte)
    (h : 0x4000 ≤ x ∧ x + data.length ≤ 0x5000 ∨ 0x6000 ≤ x ∧ x + data.length ≤ 0xE000) :
    l.bar4Write x (data.map some) = { l with bar4 := (l.bar4Write x (data.map some)).bar4 } ∧
      (∀ i (hi : i < data.length), sget (l.bar4Write x (data.map some)).bar4 (x + i) 0 = data[i].toNat) ∧
      ∀ y, y < x ∨ x + data.length ≤ y → sget (l.bar4Write x (data.map some)).bar4 y 0 = sget l.bar4 y 0 := by
  induction data generalizing l x with
  | nil => exact ⟨rfl, fun i hi => absurd hi (by simp), fun _ _ => rfl⟩
  | cons b bs ih =>
    rw [List.length_cons] at h
    have hbyte : l.bar4Byte x b = { l with bar4 := sput l.bar4 x 0 b.toNat } := if_pos (by omega)
    have hbar4 : (l.bar4Byte x b).bar4 = sput l.bar4 x 0 b.toNat := by rw [hbyte]
    obtain ⟨honly, hheld, hothers⟩ := ih (l.bar4Byte x b) (x + 1) (by omega)
    rw [List.map_cons, Link.bar4Write]
    refine ⟨?_, ?_, ?_⟩
    · rw [honly, hbyte]
    · intro i hi
      cases i with
      | zero =>
        show sget ((l.bar4Byte x b).bar4Write (x + 1) (bs.map some)).bar4 x 0 = b.toNat
        rw [hothers x (by omega), hbar4, sget_sput_same]
      | succ i =>
        have := hheld i (by simpa using hi)
        rwa [show x + (i + 1) = x + 1 + i by omega]
    · intro y hy
      rw [List.length_cons] at hy
      rw [hothers y (by omega), hbar4, sget_sput_ne _ _ _ _ (by omega)]

/-- R43: a write to the mailbox's areas of BAR4. -/
theorem bar4_takes (s : State) (x : BitVec 24) (data : List Byte) (hhost : s.hostOpen = true) (hpaused : s.paused = false)
    (harea : 0x4000 ≤ x.toNat ∧ x.toNat + data.length ≤ 0x5000 ∨ 0x6000 ≤ x.toNat ∧ x.toNat + data.length ≤ 0xE000)
    (hlength : data.length ≤ 4096) :
    ∃ t, exec (.registerWrite .bar4 x (data.map some)) s = .next t ∧
      t = { s with link := { s.link with bar4 := t.link.bar4 } } ∧ t.bar4Bytes x.toNat data.length = data ∧
      (∀ y, y < x.toNat ∨ x.toNat + data.length ≤ y → t.bar4 y = s.bar4 y) := by
  obtain ⟨honly, hheld, hothers⟩ := bar4Write_holds s.link x.toNat data harea
  refine ⟨s.onLink (·.bar4Write x.toNat (data.map some)), ?_, ?_, ?_, ?_⟩
  · have hformed : ¬ (4096 < (data.map some).length ∨ (Bar.bar4 = .bar4 ∧ 0x10000 < x.toNat + (data.map some).length)) := by
      rw [List.length_map]
      omega
    show execRegisterWrite .bar4 x (data.map some) s = _
    unfold execRegisterWrite
    rw [if_neg hformed]
    simp [hhost, hpaused]
  · exact congrArg (fun l => { s with link := l }) honly
  · refine List.ext_getElem (by simp [State.bar4Bytes, upto]) (fun i hi hi' => ?_)
    simp [State.bar4Bytes, State.bar4, upto, hheld i hi']
  · intro y hy
    simp only [State.bar4, State.onLink_link, hothers y hy]

/-- R56: a posted full write of a plain register takes effect when it lands. -/
theorem plainPosted_lands (s : State) (f : RegField) (k : Nat) (v : DWord) (hf : (f, k) ∈ plainPosted)
    (hposted : s.posted.filter (fun w => w.page == f.cls.page k) = [⟨f.cls.page k, f.off, 0xF, v.toNat⟩]) :
    ∃ t, exec (.postedWriteLands (BitVec.ofNat 12 (f.cls.page k))) s = .next t ∧
      t.get (f.of k) = field v.toNat f.lo f.width ∧ t.posted = s.posted.filter (fun w => w.page != f.cls.page k) ∧
      s.sameRegs ((busyOf (f.cls.page k)).key :: (plainPosted.filter (fun g => g.1.cls == f.cls && g.1.off == f.off)).map
        (fun g => (g.1.of k).key)) t ∧ t = { s with regs := t.regs, posted := t.posted } := by
  have r : PlainRegister f.cls k f.off := plainRegs_plain (f, k) (List.mem_append_right _ hf)
  obtain ⟨hmem, htable⟩ := plainPosted_table (f, k) hf
  have hpages : ∀ x ∈ plainPosted, (BitVec.ofNat 12 (x.1.cls.page x.2)).toNat = x.1.cls.page x.2 := by decide
  let u : State := { s with posted := s.posted.filter (fun w => w.page != f.cls.page k) }
  let t := u.setFields (f.cls.page k) v.toNat (fieldsAt f.cls f.off)
  have hbusy := r.header_apart (h := busyOf (f.cls.page k)) rfl (show 0x00C < 0x040 by decide)
  have heq : t = { u with regs := t.regs } := State.setFields_eq u _ _ _
  refine ⟨t.set (busyOf (f.cls.page k)) 0, ?_, ?_, ?_, ?_, ?_⟩
  · show execPostedWriteLands _ s = _
    unfold execPostedWriteLands
    have hland : u.landWrite (f.cls.page k) f.off v.toNat 0xF = t := r.landWrite u v.isLt (List.ne_nil_of_mem hmem)
    simp only [hpages (f, k) hf, hposted, forEach, List.foldl_cons, List.foldl_nil]
    exact congrArg (fun t : State => Host.Outcome.next (t.set (busyOf (f.cls.page k)) 0)) hland
  · show (t.set (busyOf (f.cls.page k)) 0).get (f.onPage (f.cls.page k)) = _
    rw [State.get_set_ne _ _ (hbusy f hmem).symm]
    exact State.setFields_get u _ _ hmem r.keys
  · rw [State.set_posted, heq]
  · intro g hg
    rw [List.mem_cons, not_or] at hg
    rw [State.get_set_ne _ _ hg.1]
    refine State.setFields_get_ne u _ _ _ g (fun x hx e => hg.2 ?_)
    obtain ⟨y, hy, rfl, hplace⟩ := htable x hx
    refine List.mem_map.mpr ⟨y, List.mem_filter.mpr ⟨hy, hplace⟩, ?_⟩
    have hcls : y.1.cls = f.cls := eq_of_beq (Bool.and_eq_true_iff.mp hplace).1
    rw [e, ← hcls]
    rfl
  · rw [heq]
    rfl

/-- Settles O6: a full write reaches the fields of its register because the location shows just them (a fact of the tables of
`fieldsOf`), a locked page answers before anything of the request is looked at, and BAR4's areas keep bytes one by one. -/
theorem registerWritesReachTheirFields : Obligations.RegisterWritesReachTheirFields := by
  refine ⟨exec_bar0, plainField_takes, ?_, bar4_takes, fun s page => ⟨_, rfl, State.get_set_same ..⟩, plainPosted_lands⟩
  intro s addr data hhost hpaused hlocked hdata hspan hkey
  exact ⟨_, lockedPage_refuses s addr data hhost hpaused hlocked hdata hspan hkey,
    lockedWrite_reports s (by omega) (Nat.mod_lt _ (by decide))⟩

end Sys2Proof.Machine
end

