-- ==== Sys2Proof/Proofs/Snapshots.lean ====
section
/-! PROOFS. Snapshots (R16 to R18, R64, R65): the request, the copy, what the commands that waited for it leave of it, and
the obligation on them. -/

namespace Sys2Proof.Machine

set_option Elab.async false

/-! ### The request (R16, R64) -/

theorem State.is_set_ne (s : State) {f g : Fld} (v : Nat) (h : g.key ≠ f.key) : (s.set f v).is g = s.is g := by
  unfold State.is
  rw [State.get_set_ne s v h]

/-- A write to an admitting page takes effect, and uses up the page's unlock. -/
theorem State.gated_of_admits (s : State) {p : Nat} (off : Nat) (f : State → State) (h : s.admits p = true) :
    s.gated p off f = f (s.set (unlockedOf p) 0) := by
  obtain ⟨hhost, hpaused, hlocked, hfenced, hbusy⟩ := (s.admits_iff p).mp h
  have hfenced' := s.is_set_ne 0 (Fld.key_ne_of_apart (show (fencedOf p).apart (unlockedOf p) = true from rfl))
  have hbusy' := s.is_set_ne 0 (Fld.key_ne_of_apart (show (busyOf p).apart (unlockedOf p) = true from rfl))
  simp [State.gated, State.gate, hhost, hpaused, hlocked, hfenced', hbusy', hfenced, hbusy]

theorem State.snapTime_set (s : State) {f : Fld} (v : Nat) (h : CLK_STATUS_BYPASS.one.key ≠ f.key) :
    (s.set f v).snapTime = s.snapTime := by
  unfold State.snapTime State.onBypass
  rw [State.is_set_ne s v h]
  rfl

theorem State.snapAsked_regs (s : State) (who : SnapAsker) :
    (s.snapAsked who).regs = (s.set SYS_SNAP_STATUS_PENDING.one 1).regs := rfl

/-- The new ask joins the earlier ones. -/
theorem State.snapAsked_snaps (s : State) (who : SnapAsker) :
    (⟨who, s.snapTime⟩ : SnapAsk) ∈ (s.snapAsked who).clk.snaps ∧
      (s.snapAsked who).clk.snaps.length = s.clk.snaps.length + 1 := by
  simp [State.snapAsked]

/-- While REQUEST reads 1 a request adds nothing. -/
theorem State.snapRequest_of_requested {s : State} (h : s.is SYS_SNAP.one = true) : s.snapRequest = s := if_pos h

theorem State.snapRequest_of_free {s : State} (h : s.is SYS_SNAP.one = false) :
    s.snapRequest = (s.set SYS_SNAP.one 1).snapAsked .host := if_neg (by simp [h])

/-- The use of the unlock on the way in leaves REQUEST as it was. -/
theorem exec_snapRequest {s : State} (ha : s.admits (PageClass.page .sys 0) = true) :
    exec .snapRequest s = .next (s.set (unlockedOf (PageClass.page .sys 0)) 0).snapRequest ∧
      (s.set (unlockedOf (PageClass.page .sys 0)) 0).is SYS_SNAP.one = s.is SYS_SNAP.one :=
  ⟨congrArg Host.Outcome.next (s.gated_of_admits 0x060 State.snapRequest ha), s.is_set_ne 0 (by decide)⟩

/-- R16, R64: a request is noted for the first instant at which it can be due. -/
theorem snapRequest_asks {s : State} (ha : s.admits (PageClass.page .sys 0) = true) (hfree : s.is SYS_SNAP.one = false) :
    ∃ t, exec .snapRequest s = .next t ∧ t.is SYS_SNAP.one = true ∧ t.is SYS_SNAP_STATUS_PENDING.one = true ∧
      (⟨.host, s.snapTime⟩ : SnapAsk) ∈ t.clk.snaps ∧ t.clk.snaps.length = s.clk.snaps.length + 1 ∧
      t.clk = { s.clk with snaps := t.clk.snaps } ∧
      s.sameRegs ([SYS_SNAP.one, SYS_SNAP_STATUS_PENDING.one, unlockedOf (PageClass.page .sys 0)].map Fld.key) t ∧
      t = { s with regs := t.regs, clk := t.clk } := by
  obtain ⟨hexec, hkept⟩ := exec_snapRequest ha
  rw [State.snapRequest_of_free (hkept.trans hfree)] at hexec
  let u := (s.set (unlockedOf (PageClass.page .sys 0)) 0).set SYS_SNAP.one 1
  have htime : u.snapTime = s.snapTime := by
    rw [State.snapTime_set _ _ (by decide), State.snapTime_set _ _ (by decide)]
  obtain ⟨hask, hmore⟩ := u.snapAsked_snaps .host
  refine ⟨u.snapAsked .host, hexec, ?_, ?_, htime ▸ hask, hmore, rfl, ?_, rfl⟩
  · show (u.set SYS_SNAP_STATUS_PENDING.one 1).is SYS_SNAP.one = true
    rw [State.is_set_ne _ _ (by decide), State.is, State.get_set_same]
    rfl
  · show (u.set SYS_SNAP_STATUS_PENDING.one 1).is SYS_SNAP_STATUS_PENDING.one = true
    rw [State.is, State.get_set_same]
    rfl
  · exact State.sameRegs_of_regs (State.sameRegs_set 1 (State.sameRegs_set 1 (State.sameRegs_set 0 (s.sameRegs_refl _)
      (by simp)) (by simp)) (by simp)) (u.snapAsked_regs .host)

theorem snapRequest_again {s : State} (ha : s.admits (PageClass.page .sys 0) = true) (hset : s.is SYS_SNAP.one = true) :
    exec .snapRequest s = .next (s.set (unlockedOf (PageClass.page .sys 0)) 0) := by
  obtain ⟨hexec, hkept⟩ := exec_snapRequest ha
  rw [hexec, State.snapRequest_of_requested (hkept.trans hset)]

/-! ### The copy (R16, R17, R64, R65) -/

/-- The tick whose frame and era a snapshot taken now carries. -/
def State.snapTick (s : State) : Nat := if s.onBypass then s.now else s.clk.frameAt

/-- The asks that a snapshot taken now leaves. -/
def State.snapsLeft (s : State) : List SnapAsk := s.clk.snaps.filter (fun a => some a.due != s.clk.firstSnap)

/-- The registers, and the latch of EV_000, that a snapshot writes. -/
def snapCells : List Nat :=
  [SYS_SNAP.one, SYS_SNAP_STATUS_PENDING.one, SYS_SNAP_FRAME_FRAME.one, SYS_SNAP_FRAME_ERA.one,
    SYS_SNAP_STATUS_BYPASS.one].map Fld.key ++ latches [0]

/-- The registers as a snapshot leaves them, EV_000 aside. -/
def State.snapRegs (s : State) : State :=
  let s1 := (s.set SYS_SNAP_FRAME_ERA.one (eraOf s.snapTick)).set SYS_SNAP_FRAME_FRAME.one (eraFrame s.snapTick % 2 ^ 46)
  let s2 := (s1.set SYS_SNAP_STATUS_BYPASS.one (flag s.onBypass)).set SYS_SNAP_STATUS_PENDING.one (flag !s.snapsLeft.isEmpty)
  s2.set SYS_SNAP.one (flag (s.snapsLeft.any (fun a => a.who == .host)))

/-- The state with the copies made, EV_000 aside. -/
def State.snapCopied (s : State) : State :=
  { s.snapRegs with clk := { s.clk with snaps := s.snapsLeft }, snap := s.captured, snapSeq := (s.snapSeq + 1) % 2 ^ 32 }

theorem State.takeSnapshot_eq (s : State) : s.takeSnapshot = s.snapCopied.raise 0 := rfl

/-- What a snapshot copies, and the event that tells of it. -/
theorem State.takeSnapshot_copies (s : State) : s.takeSnapshot.snap = s.captured ∧
    s.takeSnapshot.snapSeq = (s.snapSeq + 1) % 2 ^ 32 ∧ s.takeSnapshot.latched 0 = true ∧
    s.takeSnapshot.clk = { s.clk with snaps := s.snapsLeft } := by
  have heq := s.takeSnapshot_eq.trans (s.snapCopied.raise_eq 0)
  exact ⟨congrArg State.snap heq, congrArg State.snapSeq heq, s.snapCopied.raise_latched 0 rfl, congrArg State.clk heq⟩

theorem State.takeSnapshot_get (s : State) {f : Fld} (h : f.key ∉ latches [0]) :
    s.takeSnapshot.get f = s.snapRegs.get f := s.snapCopied.raise_get_ne 0 h

theorem flag_beq_one (b : Bool) : (flag b % 2 ^ 1 == 1) = b := by cases b <;> rfl

/-- What REQUEST, PENDING and SYS_SNAP_FRAME read after a snapshot. -/
theorem State.takeSnapshot_shows (s : State) :
    s.takeSnapshot.is SYS_SNAP.one = s.snapsLeft.any (fun a => a.who == .host) ∧
      s.takeSnapshot.is SYS_SNAP_STATUS_PENDING.one = !s.snapsLeft.isEmpty ∧
      s.takeSnapshot.get SYS_SNAP_FRAME_FRAME.one = eraFrame s.snapTick % 2 ^ 46 ∧
      s.takeSnapshot.get SYS_SNAP_FRAME_ERA.one = eraOf s.snapTick := by
  refine ⟨?_, ?_, ?_, ?_⟩
  · rw [State.is, s.takeSnapshot_get (by decide), State.snapRegs, State.get_set_same]
    exact flag_beq_one _
  · rw [State.is, s.takeSnapshot_get (by decide), State.snapRegs, State.get_set_ne _ _ (by decide), State.get_set_same]
    exact flag_beq_one _
  · rw [s.takeSnapshot_get (by decide), State.snapRegs, State.get_set_ne _ _ (by decide), State.get_set_ne _ _ (by decide),
      State.get_set_ne _ _ (by decide), State.get_set_same]
    exact Nat.mod_mod _ _
  · rw [s.takeSnapshot_get (by decide), State.snapRegs, State.get_set_ne _ _ (by decide), State.get_set_ne _ _ (by decide),
      State.get_set_ne _ _ (by decide), State.get_set_ne _ _ (by decide), State.get_set_same]
    exact Nat.mod_mod _ _

/-- A snapshot writes no other register. -/
theorem State.takeSnapshot_sameRegs (s : State) : s.sameRegs snapCells s.takeSnapshot := by
  have h2 : s.sameRegs snapCells ((s.set SYS_SNAP_FRAME_ERA.one (eraOf s.snapTick)).set SYS_SNAP_FRAME_FRAME.one
      (eraFrame s.snapTick % 2 ^ 46)) :=
    State.sameRegs_set _ (State.sameRegs_set _ (s.sameRegs_refl _) (by simp [snapCells])) (by simp [snapCells])
  have hregs : s.sameRegs snapCells s.snapRegs :=
    State.sameRegs_set _ (State.sameRegs_set _ (State.sameRegs_set _ h2 (by simp [snapCells])) (by simp [snapCells]))
      (by simp [snapCells])
  have hcopied : s.sameRegs snapCells s.snapCopied := State.sameRegs_of_regs hregs rfl
  exact State.sameRegs_raise 0 hcopied (fun _ hx => List.mem_append_right _ hx)

/-- Beside registers and messages a snapshot changes the copies, their number and the asks. -/
theorem State.takeSnapshot_rest (s : State) :
    ({ s with snap := s.captured, snapSeq := (s.snapSeq + 1) % 2 ^ 32
              clk := { s.clk with snaps := s.snapsLeft } } : State).sameButRegs s.takeSnapshot :=
  State.sameButRegs_raise 0 ⟨rfl, rfl⟩

/-! ### The commands that waited for it (R18, R399, R405) -/

/-- The latch of EV_000. -/
abbrev snapLatch : Fld := (evBit 0x000 0).latchFld

/-- `t` holds the snapshot that `s₀` holds, and shows EV_000 as `s₀` does. -/
structure State.KeepsSnapshot (s₀ t : State) : Prop where
  snap : t.snap = s₀.snap
  snapSeq : t.snapSeq = s₀.snapSeq
  latch : t.get snapLatch = s₀.get snapLatch

namespace State.KeepsSnapshot

section
variable {s₀ s t : State}

theorem refl (s : State) : KeepsSnapshot s s := ⟨rfl, rfl, rfl⟩

/-- What touches neither registers nor copies. -/
theorem rest (h : KeepsSnapshot s₀ s) (hregs : t.regs = s.regs := by rfl) (hsnap : t.snap = s.snap := by rfl)
    (hseq : t.snapSeq = s.snapSeq := by rfl) : KeepsSnapshot s₀ t :=
  ⟨hsnap.trans h.snap, hseq.trans h.snapSeq, (congrArg (fun m => sget m snapLatch.key snapLatch.reset) hregs).trans h.latch⟩

theorem ite {c : Prop} [Decidable c] (hs : KeepsSnapshot s₀ s) (ht : KeepsSnapshot s₀ t) :
    KeepsSnapshot s₀ (if c then s else t) := by
  split
  · exact hs
  · exact ht

theorem set {f : Fld} {v : Nat} (h : KeepsSnapshot s₀ s) (hf : snapLatch.key ≠ f.key := by decide) :
    KeepsSnapshot s₀ (s.set f v) :=
  ⟨h.snap, h.snapSeq, (s.get_set_ne v hf).trans h.latch⟩

theorem add {f : Fld} {v : Nat} (h : KeepsSnapshot s₀ s) (hf : snapLatch.key ≠ f.key := by decide) :
    KeepsSnapshot s₀ (s.add f v) := h.set hf

theorem raise {k : Nat} (h : KeepsSnapshot s₀ s) (hk : snapLatch.key ∉ latches [k] := by decide) :
    KeepsSnapshot s₀ (s.raise k) :=
  ⟨(congrArg State.snap (s.raise_eq k)).trans h.snap, (congrArg State.snapSeq (s.raise_eq k)).trans h.snapSeq,
    (s.raise_get_ne k hk).trans h.latch⟩

theorem onMbx {f : Mailbox → Mailbox} (h : KeepsSnapshot s₀ s) : KeepsSnapshot s₀ (s.onMbx f) := h.rest

theorem onSvc {f : Service → Service} (h : KeepsSnapshot s₀ s) : KeepsSnapshot s₀ (s.onSvc f) := h.rest

theorem putBar4 {x : Nat} {bytes : List Byte} (h : KeepsSnapshot s₀ s) : KeepsSnapshot s₀ (s.putBar4 x bytes) := h.rest

theorem portReply {code tag result : Nat} {payload : List Byte} (h : KeepsSnapshot s₀ s) :
    KeepsSnapshot s₀ (s.portReply code tag result payload) := h.rest

theorem portEnd {result : Nat} {reply : List Byte} (h : KeepsSnapshot s₀ s) : KeepsSnapshot s₀ (s.portEnd result reply) := by
  unfold State.portEnd
  split
  · exact h.portReply
  · exact h

theorem forwardEnd {c : MbxCmd} {result : Nat} {reply : List Byte} (h : KeepsSnapshot s₀ s) :
    KeepsSnapshot s₀ (s.forwardEnd c result reply) := by
  unfold State.forwardEnd
  extract_lets s1 s2
  have h1 : KeepsSnapshot s₀ s1 := h.set.set.set
  have h2 : KeepsSnapshot s₀ s2 := h1.add.onMbx.onSvc
  exact .ite h2.portReply h2

theorem mbxEndWith {result : Nat} {reply : List Byte} {bulk : Bool} (h : KeepsSnapshot s₀ s) :
    KeepsSnapshot s₀ (s.mbxEndWith result reply bulk) := by
  unfold State.mbxEndWith
  split
  · exact h
  · extract_lets long s1 s2 s3
    have h2 : KeepsSnapshot s₀ s2 := h.putBar4.set.set.set
    have h3 : KeepsSnapshot s₀ s3 := h2.set.set.set
    exact .ite h.forwardEnd h3.add.onMbx.raise

theorem mbxApplied (h : KeepsSnapshot s₀ s) : KeepsSnapshot s₀ s.mbxApplied := by
  unfold State.mbxApplied
  split
  · exact h
  · exact h.set.set

theorem snapServes (h : KeepsSnapshot s₀ s) : KeepsSnapshot s₀ s.snapServes :=
  .ite h.putBar4.set.mbxApplied.mbxEndWith (.ite h.mbxApplied.mbxEndWith h)

theorem liteServes (h : KeepsSnapshot s₀ s) : KeepsSnapshot s₀ s.liteServes := .ite h.portEnd h

theorem latched (h : KeepsSnapshot s₀ t) : t.latched 0 = s₀.latched 0 := congrArg (· == 1) h.latch

end

end State.KeepsSnapshot

/-! ### The obligation -/

/-- SNAPSHOT_TAKEN takes the snapshot due, and serves those who waited for it. -/
theorem exec_snapshotTaken {s : State} (h : s.snapReady = true) : exec .snapshotTaken s =
    .next (if s.snapFor .port then (if s.snapFor .mailbox then s.takeSnapshot.snapServes else s.takeSnapshot).liteServes
      else if s.snapFor .mailbox then s.takeSnapshot.snapServes else s.takeSnapshot) := if_pos h

/-- R16, R17, R64: whoever waits for it, a snapshot is copied, numbered and told of. -/
theorem snapshotTaken_copies {s : State} (hready : s.snapReady = true) : ∃ t, exec .snapshotTaken s = .next t ∧
    t.snap = s.captured ∧ t.snapSeq = (s.snapSeq + 1) % 2 ^ 32 ∧ t.latched 0 = true := by
  obtain ⟨hsnap, hseq, hlatch, -⟩ := s.takeSnapshot_copies
  have hserved : State.KeepsSnapshot s.takeSnapshot
      (if s.snapFor .mailbox then s.takeSnapshot.snapServes else s.takeSnapshot) :=
    .ite (State.KeepsSnapshot.refl _).snapServes (.refl _)
  have hkept := State.KeepsSnapshot.ite (c := s.snapFor .port = true) hserved.liteServes hserved
  exact ⟨_, exec_snapshotTaken hready, hkept.snap.trans hsnap, hkept.snapSeq.trans hseq, hkept.latched.trans hlatch⟩

/-- Settles O8: the request writes REQUEST and PENDING and adds one ask, a snapshot writes its own cells and the latch of
EV_000, and serving the commands that waited for it keeps the copies, their number and that latch. -/
theorem snapshotsAreRequestedAndTaken : Obligations.SnapshotsAreRequestedAndTaken := by
  refine ⟨fun _ => snapRequest_asks, fun _ => snapRequest_again, fun _ => snapshotTaken_copies, ?_⟩
  intro s hready hmailbox hport
  have hexec : exec .snapshotTaken s = .next s.takeSnapshot := by
    simp [exec_snapshotTaken hready, hmailbox, hport]
  obtain ⟨hsnap, hseq, -, hclk⟩ := s.takeSnapshot_copies
  have hleft : s.takeSnapshot.clk.snaps = s.snapsLeft := congrArg Clocks.snaps hclk
  obtain ⟨hrequest, hpending, hframe, hera⟩ := s.takeSnapshot_shows
  refine ⟨s.takeSnapshot, hexec, hleft, ?_, ?_, hframe, hera, s.takeSnapshot_sameRegs, ?_⟩
  · rw [hleft, hrequest]
  · rw [hleft, hpending]
  · rw [hsnap, hseq, hleft]
    exact s.takeSnapshot_rest

end Sys2Proof.Machine
end

