-- ==== Sys2Proof/Proofs/EndpointRequests.lean ====
section
/-! PROOFS. The endpoint's resets, its configuration space and its link reports (R29 to R34, R67), and the obligations on
them. -/

namespace Sys2Proof.Machine

/-! ### Resets (R32) -/

/-- What a reset leaves of the endpoint. -/
theorem Link.endpointReset_clears (l : Link) : (∀ v, l.endpointReset.isMasked v = true ∧ sget l.endpointReset.pba v 0 = 0 ∧
      sget l.endpointReset.waiting v 0 = 0) ∧ (∀ i, sget l.endpointReset.bars i 0 = 0) :=
  ⟨fun _ => ⟨rfl, rfl, rfl⟩, fun _ => rfl⟩

/-- Settles O2: both resets put the same cleared endpoint in place of the old one, and PERST_N also holds it. -/
theorem endpointResetsTouchOnlyTheEndpoint : Obligations.EndpointResetsTouchOnlyTheEndpoint := by
  refine ⟨fun s c hc => ?_, fun _ => rfl⟩
  obtain ⟨hvectors, hbars⟩ := s.link.endpointReset_clears
  rcases List.mem_pair.mp hc with rfl | rfl
  · exact ⟨_, rfl, rfl, hvectors, hbars, rfl, rfl, rfl, rfl, rfl, rfl, rfl, fun _ => rfl⟩
  · exact ⟨_, rfl, rfl, hvectors, hbars, rfl, rfl, rfl, rfl, rfl, rfl, rfl, nofun⟩

/-! ### Configuration requests (R31, R34) -/

/-- The endpoint holds the same MSI-X messages. -/
def Link.SameTable (l m : Link) : Prop := m.tableAddr = l.tableAddr ∧ m.tableData = l.tableData

theorem Link.release_sameTable (l : Link) (v : Nat) : l.SameTable (l.release v) := by
  unfold Link.release
  split
  · rw [Link.request_eq]
    exact ⟨rfl, rfl⟩
  · exact ⟨rfl, rfl⟩

theorem Link.msixControl_sameTable (l : Link) (enable mask : Bool) : l.SameTable (l.msixControl enable mask) :=
  List.foldlRecOn (motive := l.SameTable) (upto 64) Link.release ⟨rfl, rfl⟩ (fun m hm v _ =>
    ⟨(m.release_sameTable v).1.trans hm.1, (m.release_sameTable v).2.trans hm.2⟩)

theorem Link.configWrite_sameTable (l : Link) (reg value : Nat) : l.SameTable (l.configWrite reg value) := by
  unfold Link.configWrite
  split
  · exact ⟨rfl, rfl⟩
  split
  · exact ⟨rfl, rfl⟩
  split
  · exact ⟨rfl, rfl⟩
  split
  · exact l.msixControl_sameTable _ _
  split
  · split <;> exact ⟨rfl, rfl⟩
  · exact ⟨rfl, rfl⟩

section
variable {s : State} (reg : BitVec 12) (value : DWord)

theorem exec_configurationRequest_early (write : Bool) (hreset : s.link.inReset = false) (hready : s.link.ready = false) :
    exec (.configurationRequest write reg value) s =
      .next { s with link := { s.link with completion := .retryStatus, readData := [] } } := by
  simp [exec, execConfigurationRequest, hreset, hready, State.onLink]

theorem exec_configurationRead (hreset : s.link.inReset = false) (hready : s.link.ready = true) :
    exec (.configurationRequest false reg value) s =
      .next (s.readDone (toBytes 4 (s.link.configRead (reg.toNat / 4 * 4) (s.free % 2 ^ 32)))).drew := by
  simp [exec, execConfigurationRequest, hreset, hready]

theorem exec_configurationWrite (hreset : s.link.inReset = false) (hready : s.link.ready = true) :
    exec (.configurationRequest true reg value) s = .next (s.onLink (fun l =>
      { (l.configWrite (reg.toNat / 4 * 4) value.toNat) with completion := .success, readData := [] })) := by
  simp [exec, execConfigurationRequest, hreset, hready]

end

/-! ### Error and link reports (R29, R67) -/

/-- R67: a correctable error is counted and told of. -/
theorem aerCorrectableError_reports (s : State) : ∃ t, exec .aerCorrectableError s = .next t ∧
    t.link.aerCount = s.link.aerCount + 1 ∧ t.latched 3 = true ∧ s.sameRegs (latches [3]) t ∧
    ({ s with link := { s.link with aerCount := s.link.aerCount + 1 } } : State).sameButRegs t := by
  let u := s.onLink (fun l => { l with aerCount := l.aerCount + 1 })
  refine ⟨u.raise 3, rfl, ?_, u.raise_latched 3 rfl, ?_, State.sameButRegs_raise 3 u.sameButRegs_refl⟩
  · rw [u.raise_eq 3]
    rfl
  · exact State.sameRegs_raise 3 (State.sameRegs_of_regs (s.sameRegs_refl _) rfl) (fun _ hx => hx)

/-- SYS_LINK_STATUS with the link's report in it. -/
def State.linkReported (s : State) (up : Bool) (lanes : Lanes) (speed : Nat) : State :=
  forEach (linkStatus up lanes speed) s (fun p s => s.set p.1 p.2)

theorem exec_pcieLinkChange (s : State) {up : Bool} (lanes : Lanes) {speed : Fin 6} (h : up = true → speed.val ≠ 0) :
    exec (.pcieLinkChange up lanes speed) s = .next ((s.linkReported up lanes speed.val).raiseIf
      ((linkStatus up lanes speed.val).any (fun p => s.get p.1 != p.2)) 3) :=
  if_neg (fun hbad => h hbad.1 hbad.2)

theorem State.linkReported_eq (s : State) (up : Bool) (lanes : Lanes) (speed : Nat) : s.linkReported up lanes speed =
    (((s.set SYS_LINK_STATUS_DEGRADED.one (flag (up && (lanes != .x16 || speed != 5)))).set SYS_LINK_STATUS_UP.one
      (flag up)).set SYS_LINK_STATUS_WIDTH.one (if up then laneCount lanes else 0)).set SYS_LINK_STATUS_SPEED.one
        (if up then speed else 0) := rfl

theorem flag_lt (b : Bool) : flag b < 2 ^ 1 := by cases b <;> decide

/-- What SYS_LINK_STATUS reads once the report is in it. -/
theorem State.linkReported_shows (s : State) (up : Bool) (lanes : Lanes) (speed : Fin 6) :
    ∀ p ∈ linkStatus up lanes speed.val, (s.linkReported up lanes speed.val).get p.1 = p.2 := by
  have hwidth : (if up then laneCount lanes else 0) < 2 ^ 6 := by cases up <;> cases lanes <;> decide
  have hspeed : (if up then speed.val else 0) < 2 ^ 4 := by split <;> omega
  simp only [linkStatus, List.forall_mem_cons, List.not_mem_nil, false_implies, implies_true, and_true, linkReported_eq]
  refine ⟨?_, ?_, ?_, ?_⟩
  · rw [State.get_set_ne _ _ (by decide), State.get_set_ne _ _ (by decide), State.get_set_ne _ _ (by decide),
      State.get_set_same]
    exact Nat.mod_eq_of_lt (flag_lt _)
  · rw [State.get_set_ne _ _ (by decide), State.get_set_ne _ _ (by decide), State.get_set_same]
    exact Nat.mod_eq_of_lt (flag_lt _)
  · rw [State.get_set_ne _ _ (by decide), State.get_set_same]
    exact Nat.mod_eq_of_lt hwidth
  · rw [State.get_set_same]
    exact Nat.mod_eq_of_lt hspeed

/-- The report writes SYS_LINK_STATUS alone. -/
theorem State.linkReported_frame (s : State) (up : Bool) (lanes : Lanes) (speed : Nat) :
    s.sameRegs ([SYS_LINK_STATUS_UP.one, SYS_LINK_STATUS_WIDTH.one, SYS_LINK_STATUS_SPEED.one,
      SYS_LINK_STATUS_DEGRADED.one].map Fld.key ++ latches [3]) (s.linkReported up lanes speed) ∧
    s.sameButRegs (s.linkReported up lanes speed) := by
  rw [linkReported_eq]
  exact ⟨State.sameRegs_set _ (State.sameRegs_set _ (State.sameRegs_set _ (State.sameRegs_set _ (s.sameRegs_refl _)
    (by simp)) (by simp)) (by simp)) (by simp), ⟨rfl, rfl⟩⟩

/-- R29, R67: SYS_LINK_STATUS takes the report, and EV_003 tells of a change. -/
theorem pcieLinkChange_reports (s : State) {up : Bool} (lanes : Lanes) {speed : Fin 6} (h : up = true → speed.val ≠ 0) :
    ∃ t, exec (.pcieLinkChange up lanes speed) s = .next t ∧
      (∀ p ∈ linkStatus up lanes speed.val, t.get p.1 = p.2) ∧
      ((∃ p ∈ linkStatus up lanes speed.val, s.get p.1 ≠ p.2) → t.latched 3 = true) ∧
      s.sameRegs ([SYS_LINK_STATUS_UP.one, SYS_LINK_STATUS_WIDTH.one, SYS_LINK_STATUS_SPEED.one,
        SYS_LINK_STATUS_DEGRADED.one].map Fld.key ++ latches [3]) t ∧ s.sameButRegs t := by
  obtain ⟨hregs, hrest⟩ := s.linkReported_frame up lanes speed.val
  refine ⟨_, exec_pcieLinkChange s lanes h, fun p hp => ?_, fun ⟨p, hp, hne⟩ => ?_,
    State.sameRegs_raiseIf _ 3 hregs (fun _ hx => List.mem_append_right _ hx), State.sameButRegs_raiseIf _ 3 hrest⟩
  · have hclear : ∀ p ∈ linkStatus up lanes speed.val, p.1.key ∉ latches [3] := by
      simp only [linkStatus, List.forall_mem_cons, List.not_mem_nil, false_implies, implies_true, and_true]
      decide
    rw [State.raiseIf_get_ne _ _ 3 (hclear p hp), s.linkReported_shows up lanes speed p hp]
  · rw [show (linkStatus up lanes speed.val).any (fun p => s.get p.1 != p.2) = true from
      List.any_eq_true.mpr ⟨p, hp, bne_iff_ne.mpr hne⟩]
    exact State.raise_latched _ 3 rfl

/-- Settles O3: before start-up every configuration request is retried, after it a read changes the completion alone and a
write the configuration space; an error is counted, and the link's report goes into the four fields of SYS_LINK_STATUS. -/
theorem configurationRequestsAndLinkReports : Obligations.ConfigurationRequestsAndLinkReports := by
  refine ⟨fun s write reg value => exec_configurationRequest_early reg value write, ?_, ?_, fun _ => rfl,
    aerCorrectableError_reports, ?_⟩
  · intro s reg value hreset hready
    refine ⟨_, exec_configurationRead reg value hreset hready, rfl, toBytes_length 4 _, fun hreg => ?_⟩
    show toBytes 4 (s.link.configRead (reg.toNat / 4 * 4) _) = _
    rw [hreg]
    rfl
  · intro s reg value hreset hready
    obtain ⟨haddr, hdata⟩ := s.link.configWrite_sameTable (reg.toNat / 4 * 4) value.toNat
    refine ⟨_, exec_configurationWrite reg value hreset hready, rfl, rfl, rfl, s.link.configWrite_bar4 _ _, haddr, hdata,
      fun hreg => ?_⟩
    simp only [State.onLink_link, hreg]
    rfl
  · intro s up lanes speed h
    obtain ⟨t, hexec, hshows, htold, hregs, hrest⟩ := pcieLinkChange_reports s lanes h
    simp only [linkStatus, List.forall_mem_cons, List.not_mem_nil, false_implies, implies_true, and_true] at hshows
    obtain ⟨hdegraded, hup, hwidth, hspeed⟩ := hshows
    refine ⟨t, hexec, hup, hwidth, hspeed, hdegraded, fun hchange => htold ?_, hregs, hrest⟩
    simp only [linkStatus, List.exists_mem_cons_iff, List.not_mem_nil, false_and, exists_false, or_false]
    rw [hup, hwidth, hspeed, hdegraded] at hchange
    tauto

end Sys2Proof.Machine
end

