-- ==== Sys2Proof/Proofs/CommandsTakeEffect.lean ====
section
/-! PROOFS. Which commands answer a next state: those whose operands are well formed, and no others; and the obligation on
them. -/

namespace Sys2Proof.Machine

/-! ### Outcomes that fit the operands -/

/-- An outcome fits the form of its command's operands: a next state where they are well formed, else the fault. -/
inductive Fits : Bool → Host.Outcome State Fault Refusal → Prop where
  | next {t : State} : Fits true (.next t)
  | fault : Fits false (.fault .illFormed)

theorem Fits.answers {x : Host.Outcome State Fault Refusal} (h : Fits true x) : ∃ t, x = .next t := by
  cases h
  exact ⟨_, rfl⟩

theorem Fits.stops {x : Host.Outcome State Fault Refusal} (h : Fits false x) : x = .fault .illFormed := by
  cases h
  rfl

theorem Fits.ite {formed : Bool} {c : Prop} [Decidable c] {x y : Host.Outcome State Fault Refusal}
    (hx : Fits formed x) (hy : Fits formed y) : Fits formed (if c then x else y) := by
  split
  · exact hx
  · exact hy

theorem Fits.guard {formed : Bool} {c : Prop} [Decidable c] {x : Host.Outcome State Fault Refusal}
    (hc : formed = decide ¬ c) (hx : Fits true x) : Fits formed (if c then .fault .illFormed else x) := by
  subst hc
  split
  · next h => simpa [h] using Fits.fault
  · next h => simpa [h] using hx

theorem Fits.unless {formed : Bool} {c : Prop} [Decidable c] {x : Host.Outcome State Fault Refusal}
    (hc : formed = decide c) (hx : Fits true x) : Fits formed (if c then x else .fault .illFormed) := by
  subst hc
  split
  · next h => simpa [h] using hx
  · next h => simpa [h] using Fits.fault

theorem State.ring_fits (s : State) (code : Nat) (tag : BitVec 16) (args : List Byte) :
    Fits (decide (args.length ≤ 4096)) (s.ring code tag args) := .guard (decide_eq_decide.mpr Nat.not_lt.symm) .next

theorem State.request_fits (s : State) (code : Nat) (tag : BitVec 16) (payload : List Byte) (serve : State → State) :
    Fits (decide (payload.length ≤ 4096)) (s.request code tag payload serve) :=
  .guard (decide_eq_decide.mpr Nat.not_lt.symm) (.ite .next .next)

theorem State.receive_fits (s : State) (type : Nat) (m : List Byte) (act : TwinIn → State → State) :
    Fits (twinParse type m).isSome (s.receive type m act) := by
  unfold State.receive
  cases twinParse type m with
  | none => exact .fault
  | some x => exact .ite .next .next

/-! ### The commands that look at more than one flag before they act -/
section
variable (s : State)

theorem execLockStepDone_fits (info : LockInfo) : Fits true (execLockStepDone info s) := by
  unfold execLockStepDone
  extract_lets next
  split
  · exact .ite .next .next
  · exact .ite .next .next
  all_goals exact .next

theorem execRefLoss_fits (age : DWord) (word : BitVec 24) : Fits true (execRefLoss age word s) := by
  unfold execRefLoss
  extract_lets s1 s2
  exact .ite .next (.ite .next (.ite .next (.ite .next .next)))

theorem execRefReturn_fits : Fits true (execRefReturn s) := by
  unfold execRefReturn
  extract_lets s1 s2
  exact .ite .next (.ite (.ite .next .next) .next)

theorem execThermalSample_fits : Fits true (execThermalSample s) := by
  unfold execThermalSample
  extract_lets t ext
  exact .ite .next (.ite (.ite .next (.ite .next .next)) (.ite .next (.ite .next .next)))

theorem execAlarmFire_fits (n : Fin 4) : Fits true (execAlarmFire n s) := by
  unfold execAlarmFire
  split
  · exact .next
  · exact .ite .next .next

theorem execJournalCommitDone_fits (ok : Bool) : Fits true (execJournalCommitDone ok s) := by
  unfold execJournalCommitDone
  split <;> exact .next

theorem execOverRange_fits (input : ProbeInput) : Fits true (execOverRange input s) := by
  cases input <;> exact .next

theorem execOverRangeClear_fits (input : ProbeInput) : Fits true (execOverRangeClear input s) := by
  cases input <;> exact .next

theorem execCounterSaturation_fits (c : PoolCount) : Fits true (execCounterSaturation c s) := by
  cases c <;> exact .ite .next .next

theorem execPinPulseEnd_fits (pin : Fin 24) (n : Fin 8) : Fits true (execPinPulseEnd pin n s) := by
  unfold execPinPulseEnd
  split <;> exact .next

theorem execSessionCloseDone_fits (n : Fin 8) : Fits true (execSessionCloseDone n s) := by
  unfold execSessionCloseDone
  split
  · exact .next
  · exact .ite .next .next

theorem execHbmReadData_fits (pc : Fin 128) (finding : EccFinding) : Fits true (execHbmReadData pc finding s) := by
  unfold execHbmReadData
  split <;> exact .next

theorem execRetrainingPause_fits (pc : Fin 128) (margin : Byte) (lanes : LaneFinding) :
    Fits true (execRetrainingPause pc margin lanes s) := by
  cases lanes <;> exact .ite .next .next

theorem execSwatchWindow_fits (result : SwatchResult) : Fits true (execSwatchWindow result s) := by
  unfold execSwatchWindow
  refine .ite .next ?_
  split
  · exact .next
  · refine .ite .next ?_
    split <;> exact .next

theorem execDmaGrant_fits : Fits true (execDmaGrant s) := by
  unfold execDmaGrant
  extract_lets s1
  split
  · exact .next
  · split <;> exact .next

theorem execDmaBurstComplete_fits (n : Fin 64) (how : BurstEnd) (data : List Byte) (findings : List EccFinding) :
    Fits true (execDmaBurstComplete n how data s findings) := by
  unfold execDmaBurstComplete
  extract_lets c
  split
  · exact .next
  · exact .ite .next (.ite .next .next)

theorem execCompressBlock_fits (u : Fin 4) : Fits true (execCompressBlock u s) := by
  unfold execCompressBlock
  extract_lets f
  split
  · exact .next
  · exact .ite .next .next

theorem execDecompressBlock_fits (d : Fin 2) : Fits true (execDecompressBlock d s) := by
  unfold execDecompressBlock
  split
  · exact .next
  · extract_lets f
    split <;> exact .next

theorem execDecompressTrailer_fits (d : Fin 2) : Fits true (execDecompressTrailer d s) := by
  unfold execDecompressTrailer
  split
  · exact .next
  · exact .ite .next .next

theorem execUnitReadyChange_fits (unit : GatedUnit) (cal : CalFinding) : Fits true (execUnitReadyChange unit cal s) := by
  cases unit with
  | skein n => exact .ite .next .next
  | sequencer n => exact .next

theorem execStartUpStepDone_fits (ok : Bool) (failed : BitVec 3) : Fits true (execStartUpStepDone ok s failed) := by
  unfold execStartUpStepDone
  extract_lets next
  split
  · exact .next
  · exact .ite .next .next
  · exact .ite .next .next
  · exact .next
  · exact .next
  · exact .ite .next .next
  · exact .next
  · exact .next

theorem execActivationDone_fits (ok : Bool) (failed : BitVec 3) : Fits true (execActivationDone ok s failed) := by
  unfold execActivationDone
  split <;> exact .next

theorem execHeldProceed_fits : Fits true (execHeldProceed s) := by
  unfold execHeldProceed
  split
  · exact .next
  · exact .ite .next .next

theorem execReadFrame_fits (count : BitVec 16) : Fits true (execReadFrame s count) := by
  unfold execReadFrame
  split
  · exact .next
  · exact .ite .next .next

theorem execFlashOpComplete_fits (ok : Bool) : Fits true (execFlashOpComplete ok s) := by
  unfold execFlashOpComplete
  split <;> exact .next

theorem execTwinResend_fits : Fits true (execTwinResend s) := by
  unfold execTwinResend
  split
  · exact .next
  · exact .ite .next .next

theorem execHello_fits (m : List Byte) : Fits (twinParse 1 m).isSome (execHello m s) := by
  unfold execHello
  cases twinParse 1 m with
  | none => exact .fault
  | some x => exact .ite .next (.ite .next (.ite .next .next))

theorem execAck_fits (m : List Byte) : Fits (twinParse 6 m).isSome (execAck m s) := by
  unfold execAck
  cases twinParse 6 m with
  | none => exact .fault
  | some x => exact .ite .next .next

theorem execRegisterWrite_fits (bar : Bar) (addr : BitVec 24) (data : List (Option Byte)) :
    Fits (Instr.registerWrite bar addr data).wellFormed (execRegisterWrite bar addr data s) := by
  refine .guard ?_ (.ite .next ?_)
  · cases bar <;> simp [Instr.wellFormed]
  · cases bar <;> exact .next

theorem execEventLatchRead_fits (addr : BitVec 24) (len : Fin 4097) (bar : Bar) :
    Fits (Instr.eventLatchRead addr len bar).wellFormed (execEventLatchRead addr len s bar) := by
  cases bar with
  | bar0 => exact .next
  | bar4 => exact .guard (decide_eq_decide.mpr Nat.not_lt.symm) .next

theorem execPcieLinkChange_fits (up : Bool) (lanes : Lanes) (speed : Fin 6) :
    Fits (Instr.pcieLinkChange up lanes speed).wellFormed (execPcieLinkChange up lanes speed s) := by
  refine .guard ?_ .next
  rw [Bool.eq_iff_iff]
  cases up <;> simp [Instr.wellFormed]

theorem execHbmBurstAccept_fits (addr : BitVec 37) (data : List Byte) (poisoned : Bool) :
    Fits (Instr.hbmBurstAccept addr data poisoned).wellFormed (execHbmBurstAccept addr data poisoned s) := by
  refine .unless ?_ (.ite .next .next)
  simp [Instr.wellFormed, burstAligned, beq_eq_decide]

theorem execDieTempRead_fits (temps : List Byte) : Fits (Instr.dieTempRead temps).wellFormed (execDieTempRead temps s) :=
  .unless (by simp [Instr.wellFormed, beq_eq_decide]) .next
end

/-! ### Every command -/

/-- What a command answers fits its operands. Most commands answer a state at once or choose between two by one test; others
hand on to the mailbox, the service port or the twin link. -/
theorem exec_fits (c : Instr) (s : State) : Fits c.wellFormed (exec c s) := by
  cases c
  case perstN | functionLevelReset | pageUnlock | pairLowHalfRead | postedWriteLands | evtForce | vectorUnmask |
    snapRequest | divApply | relock | calSecond | syncArm | syncDisarm | syncOutPulse | calendarWrite |
    wearCounterWrite | powerOnSecond | hbmWearReport | journalPeriod | journalCommit | probeEdge | fullCal |
    timerExpire | counterTarget | trgArm | trgDisarm | forcePulse | trigInEdge | xtrigEdge | holdLimit |
    holdCeiling | holdReleaseNFall | holdGapEnd | admReserveWrite | admCreditWrite | writerSlot | releasedWrite |
    ledgerRecordWrite | segCmdRelease | hbmReadAccept | refreshWindow | stackTempRead | hbmFenceGo | grottoHandover |
    grottoAccess | hostWindowRead | hostWindowWrite | dmaStart | dmaAbort | dmaAbortAll | dmaKill | dmaEnable |
    chainKick | brownoutEnd | resetCrossing | aonSupplySwitch | aonSupplyReturn | skeinGateWrite |
    sequencerGateWrite | porstN | clearMin | echo | park | wake | confirm | lifeRead | selftestReport | fenceRead |
    twinHandover | cancel | watchdogRestart | watchdogFire | lockstepMismatch | readStatus | kspFrameReject |
    resetReplyTimeout | forwardAbandonTimeout | fenceUnit | fenceClear | raiseSvn | vbatRestored | aonContentsLost |
    aerCorrectableError | unsupportedRequest => exact .next
  case holdoffExpiry | snapshotTaken | dividersApplied | lockStepTimeout | lockRetry | lockLoss |
    selfRefreshEntered | holdoverLimit | eraAdvance | syncInPulse | vbatLow | xtalStop | fullCalDone |
    bgCalPassDone | selfCheckStart | selfCheckDone | frameBoundary | stateFrameBoundary | epochBoundary |
    sampleEvaluation | holdReleaseNRise | replayUnit | budgetRebuild | statusPoll | readTimeout |
    stackCatastrophicTrip | hbmTrainingDone | hbmIdleSelfRefresh | hbmWakeReady | handoverComplete | grottoFillDone |
    swatchPassStart | swatchPassEnd | flowstoneParity | brownoutStart | brownoutBindOff | parkComplete |
    wakeComplete | dieTrip | tripClear | kspId | kspStatus | echoLite | holdRelease | kspLifeRead | confirmationEnd |
    datapathTestDone | fuseBurnDone | helloSend | linkSilence | epochMessageTimeout | laneDrop |
    resetCrossingRestart | twinLinkUp | hbmRelockRetrainDone | stateClockEdge => exact .ite .next .next
  case msixMessageSend | cpRestartDone | configRecordAppend => exact .ite .next (.ite .next .next)
  case descriptorFetch | linkReadReturn | refereeDone => exact .ite (.ite .next .next) .next
  case configurationRequest | apertureRead | rotationVisit => exact .ite .next (.ite .next (.ite .next .next))
  case hbmIssue => exact .ite (.ite (.ite .next .next) .next) .next
  case planAdmit | planRelease | castOn | bindOff | arm | forceTrigger | segmentRelease | quotaSet | activate |
    attest | calendarSet | twinPair | replaySetup => exact State.ring_fits ..
  case unknownCommand => exact .guard (by simp [Instr.wellFormed]) .next
  case kspReset | dlBegin | dlData | dlEnd | verify | select | kspActivate | kspConfirm | kspAttest =>
    simp only [exec, execKspReset, execDlBegin, execDlData, execDlEnd, execVerify, execSelect, execKspActivate,
      execKspConfirm, execKspAttest]
    exact s.request_fits ..
  case kspUnknownCode code tag => exact .guard (by simp [Instr.wellFormed]) (s.request_fits code.toNat tag [] _)
  case unknownOpcode => exact .guard (by simp [Instr.wellFormed]) .next
  case epoch | fault | handover | command =>
    simp only [exec, execEpoch, execFault, execHandover, execCommand]
    exact s.receive_fits ..
  case apertureWrite => exact .guard (decide_eq_decide.mpr Nat.not_lt.symm) (.ite .next (.ite .next (.ite .next .next)))
  case bar0ReadAccessErr => exact .guard (decide_eq_decide.mpr Nat.not_lt.symm) (.ite .next .next)
  case clkQualityAboveLimit => exact .guard (decide_eq_decide.mpr Nat.not_lt.symm) .next
  case scrubRead => exact .guard (decide_eq_decide.mpr Nat.not_le.symm) (.ite .next .next)
  case lockStepDone => exact execLockStepDone_fits ..
  case refLoss => exact execRefLoss_fits ..
  case refReturn => exact execRefReturn_fits ..
  case alarmFire => exact execAlarmFire_fits ..
  case thermalSample => exact execThermalSample_fits ..
  case journalCommitDone => exact execJournalCommitDone_fits ..
  case overRange => exact execOverRange_fits ..
  case counterSaturation => exact execCounterSaturation_fits ..
  case pinPulseEnd => exact execPinPulseEnd_fits ..
  case sessionCloseDone => exact execSessionCloseDone_fits ..
  case hbmReadData => exact execHbmReadData_fits ..
  case retrainingPause => exact execRetrainingPause_fits ..
  case swatchWindow => exact execSwatchWindow_fits ..
  case dmaGrant => exact execDmaGrant_fits s
  case dmaBurstComplete => exact execDmaBurstComplete_fits ..
  case compressBlock => exact execCompressBlock_fits ..
  case decompressBlock => exact execDecompressBlock_fits ..
  case decompressTrailer => exact execDecompressTrailer_fits ..
  case unitReadyChange => exact execUnitReadyChange_fits ..
  case startUpStepDone => exact execStartUpStepDone_fits ..
  case activationDone => exact execActivationDone_fits ..
  case heldProceed => exact execHeldProceed_fits ..
  case readFrame => exact execReadFrame_fits ..
  case flashOpComplete => exact execFlashOpComplete_fits ..
  case twinResend => exact execTwinResend_fits ..
  case overRangeClear => exact execOverRangeClear_fits ..
  case hello => exact execHello_fits ..
  case ack => exact execAck_fits ..
  case registerWrite => exact execRegisterWrite_fits ..
  case eventLatchRead => exact execEventLatchRead_fits ..
  case pcieLinkChange => exact execPcieLinkChange_fits ..
  case hbmBurstAccept => exact execHbmBurstAccept_fits ..
  case dieTempRead => exact execDieTempRead_fits ..

/-- Settles O60: every outcome fits its command's operands, what a command answers evolves out of the state it finds
(`Evolves`), which keeps the queue, and so does idle time. -/
theorem wellFormedCommandsTakeEffect : Obligations.WellFormedCommandsTakeEffect := by
  refine ⟨fun c s hformed => ?_, fun c s hformed => ?_, fun c s t h => ((Evolves.refl true true s).exec h).pending, ?_⟩
  · exact Fits.answers (hformed ▸ exec_fits c s)
  · exact Fits.stops (hformed ▸ exec_fits c s)
  · intro s t hpending h
    rw [step, hpending] at h
    obtain rfl := Host.Outcome.next.inj h
    exact (Evolves.refl true true s).idle.pending.trans hpending

end Sys2Proof.Machine
end

