-- ==== Sys2Proof/Proofs/PageUnlock.lean ====
section
/-! PROOFS. The page guard's key and the test events (R54, R55, R66 to R69), and the obligation on them. -/

namespace Sys2Proof.Machine

/-! ### A header error (R66, R67) -/

/-- The cells that report a header error: SYS_LAST_ERR and the latch of EV_001. -/
def errCells : List Fld :=
  [SYS_LAST_ERR_CAUSE.one, SYS_LAST_ERR_OFFSET.one, SYS_LAST_ERR_PAGE.one, (evBit 0x000 1).latchFld]

/-- A header error leaves every cell at another place of its page as it was. -/
theorem State.headerErr_get (s : State) (p off cause : Nat) {f : Fld} (h : (errCells.all (f.apart ·)) = true) :
    (s.headerErr p off cause).get f = s.get f := by
  have hne : ∀ g ∈ errCells, f.key ≠ g.key := fun g hg => Fld.key_ne_of_apart (List.all_eq_true.mp h g hg)
  have hlatch : f.key ∉ latches [1] := latch_apart (e := evBit 0x000 1) rfl (List.all_eq_true.mp h _ (by simp [errCells]))
  rw [State.headerErr, State.raise_get_ne _ 1 hlatch, State.get_set_ne _ _ (hne SYS_LAST_ERR_PAGE.one (by simp [errCells])),
    State.get_set_ne _ _ (hne SYS_LAST_ERR_OFFSET.one (by simp [errCells])),
    State.get_set_ne _ _ (hne SYS_LAST_ERR_CAUSE.one (by simp [errCells]))]

theorem State.headerErr_latched (s : State) (p off cause : Nat) : (s.headerErr p off cause).latched 1 = true :=
  State.raise_latched _ 1 rfl

/-- A header error stays within a frame that lists what reports it. -/
theorem State.sameRegs_headerErr {s t : State} {ks : List Nat} (p off cause : Nat) (h : s.sameRegs ks t)
    (hks : ∀ f ∈ errCells, f.key ∈ ks) : s.sameRegs ks (t.headerErr p off cause) :=
  State.sameRegs_raise 1 (State.sameRegs_set _ (State.sameRegs_set _ (State.sameRegs_set _ h (hks _ (by simp [errCells])))
    (hks _ (by simp [errCells]))) (hks _ (by simp [errCells])))
    (fun x hx => (List.mem_singleton.mp hx) ▸ hks (evBit 0x000 1).latchFld (by simp [errCells]))

theorem State.sameButRegs_headerErr {s t : State} (p off cause : Nat) (h : s.sameButRegs t) :
    s.sameButRegs (t.headerErr p off cause) :=
  State.sameButRegs_raise 1 (State.sameButRegs_set _ _ (State.sameButRegs_set _ _ (State.sameButRegs_set _ _ h)))

/-! ### PAGE_UNLOCK (R54, R55) -/

theorem pageOf_isSome_of_guarded {p : Nat} (h : guardedPage p = true) : (pageOf p).isSome = true := by
  unfold guardedPage at h
  cases hp : pageOf p with
  | none => simp [hp] at h
  | some x => rfl

/-- A write to PAGE_UNLOCK of a guarded page that the function takes. -/
theorem exec_pageUnlock (s : State) {page : BitVec 12} (value : DWord) (hhost : s.hostOpen = true) (hpaused : s.paused = false)
    (hguarded : guardedPage page.toNat = true) :
    exec (.pageUnlock page value) s = .next (s.unlockWrite page.toNat value.toNat) := by
  simp [exec, execPageUnlock, hhost, hpaused, pageOf_isSome_of_guarded hguarded]

/-- The state after a wrong key: locked again, the key counted, EV_001 aside. -/
def State.wrongKeyed (s : State) (p : Nat) : State := (s.set (unlockedOf p) 0).addSat (wrongKeyOf p) 1

theorem unlockWrite_key (s : State) {p value : Nat} (hguarded : guardedPage p = true) (hkey : value = p * 2 ^ 16 + 0x4B1D) :
    s.unlockWrite p value = s.set (unlockedOf p) 1 := by
  simp [State.unlockWrite, hguarded, hkey]

theorem unlockWrite_wrong (s : State) {p value : Nat} (hguarded : guardedPage p = true)
    (hkey : value ≠ p * 2 ^ 16 + 0x4B1D) : s.unlockWrite p value = (s.wrongKeyed p).headerErr p 0x018 3 := by
  unfold State.unlockWrite
  rw [if_neg (by simp [hguarded]), if_neg hkey]
  rfl

/-- What a wrong key leaves (R55). -/
theorem wrongKey_reports (s : State) {p : Nat} (hguarded : guardedPage p = true) :
    ((s.wrongKeyed p).headerErr p 0x018 3).pageLocked p = true ∧
    ((s.wrongKeyed p).headerErr p 0x018 3).get (wrongKeyOf p) = min (s.get (wrongKeyOf p) + 1) 255 ∧
    s.sameRegs ([unlockedOf p, wrongKeyOf p, SYS_LAST_ERR_CAUSE.one, SYS_LAST_ERR_OFFSET.one,
      SYS_LAST_ERR_PAGE.one].map Fld.key ++ latches [1]) ((s.wrongKeyed p).headerErr p 0x018 3) := by
  have hapart : (wrongKeyOf p).key ≠ (unlockedOf p).key := Fld.key_ne_of_apart rfl
  refine ⟨?_, ?_, ?_⟩
  · rw [State.pageLocked, hguarded, State.is, State.headerErr_get _ _ _ _ rfl, State.wrongKeyed,
      State.get_addSat_ne _ _ hapart.symm, State.get_set_same]
    rfl
  · rw [State.headerErr_get _ _ _ _ rfl, State.wrongKeyed, State.get_addSat_same, State.get_set_ne _ _ hapart]
    rfl
  · refine State.sameRegs_headerErr _ _ _ (State.sameRegs_set _ (State.sameRegs_set _ (s.sameRegs_refl _) ?_) ?_) ?_
    · simp
    · simp
    · simp only [errCells, List.forall_mem_cons, List.not_mem_nil, false_implies, implies_true, and_true]
      simp [latches, evPlace]

/-! ### Test events (R68, R69) -/

theorem latches_subset {k : Nat} {ks : List Nat} (hk : k ∈ ks) : ∀ x ∈ latches [k], x ∈ latches ks := by
  intro x hx
  obtain ⟨j, hj, hplace⟩ := List.mem_filterMap.mp hx
  exact List.mem_filterMap.mpr ⟨j, List.mem_singleton.mp hj ▸ hk, hplace⟩

/-- A latch that is set stays set when another event is raised. -/
theorem State.latched_raise_of_latched {s : State} {j : Nat} (k : Nat) (h : s.latched j = true) :
    (s.raise k).latched j = true := by
  unfold State.latched at h ⊢
  cases hj : evPlace j with
  | none => simp [hj] at h
  | some e =>
    simp only [hj] at h ⊢
    by_cases hk : e.latchFld.key ∈ latches [k]
    · obtain ⟨e', he', hkey⟩ : ∃ e', evPlace k = some e' ∧ e'.latchFld.key = e.latchFld.key := by
        simpa [latches] using hk
      have hsome := s.raise_latched k (by rw [he']; rfl)
      simp only [State.latched, he'] at hsome
      simpa only [State.is, State.get, hkey] using hsome
    · rw [State.is, s.raise_get_ne k hk]
      exact h

theorem State.latched_raiseIf_of_latched {s : State} {j : Nat} (c : Bool) (k : Nat) (h : s.latched j = true) :
    (s.raiseIf c k).latched j = true := by
  cases c
  · exact h
  · exact State.latched_raise_of_latched k h

/-- Of several events raised in turn, each is latched at the end. -/
theorem forEach_raiseIf_latched (l : List Nat) (s : State) (c : Nat → Bool) (event : Nat → Nat) {b : Nat} (hb : b ∈ l)
    (hc : c b = true) (hplace : (evPlace (event b)).isSome) :
    (forEach l s (fun b s => s.raiseIf (c b) (event b))).latched (event b) = true := by
  obtain ⟨before, after, rfl⟩ := List.append_of_mem hb
  rw [forEach, List.foldl_append, List.foldl_cons, hc]
  exact List.foldlRecOn (motive := fun t : State => t.latched (event b) = true) after _ (State.raise_latched _ _ hplace)
    (fun t ht a _ => State.latched_raiseIf_of_latched (c a) (event a) ht)

/-- EVT_FORCE writes only latches of the test events. -/
theorem State.evtForce_frame {s t : State} {ks : List Nat} (value : Nat) (hregs : s.sameRegs ks t) (hrest : s.sameButRegs t)
    (hks : ∀ x ∈ latches ((upto 14).map (498 + ·)), x ∈ ks) :
    s.sameRegs ks (t.evtForce value) ∧ s.sameButRegs (t.evtForce value) :=
  List.foldlRecOn (motive := fun u : State => s.sameRegs ks u ∧ s.sameButRegs u) (upto 14) _ ⟨hregs, hrest⟩
    (fun _ hu _ hb => ⟨State.sameRegs_raiseIf _ _ hu.1 (fun x hx => hks x (latches_subset (List.mem_map_of_mem hb) x hx)),
      State.sameButRegs_raiseIf _ _ hu.2⟩)

/-- R69: EVT_FORCE on an admitting page. -/
theorem evtForce_latches (s : State) (value : DWord) (ha : s.admits (PageClass.page .evt 0) = true) :
    ∃ t, exec (.evtForce value) s = .next t ∧ (∀ b < 14, bitOf value.toNat b = true → t.latched (498 + b) = true) ∧
      s.sameRegs ((unlockedOf (PageClass.page .evt 0)).key :: latches ((upto 14).map (498 + ·))) t ∧ s.sameButRegs t := by
  have hplaces : ∀ b < 14, (evPlace (498 + b)).isSome := by decide
  refine ⟨_, congrArg Host.Outcome.next (s.gated_of_admits 0x048 (·.evtForce value.toNat) ha), fun b hb hbit =>
    forEach_raiseIf_latched _ _ _ (498 + ·) (List.mem_range.mpr hb) hbit (hplaces b hb), ?_⟩
  exact State.evtForce_frame value.toNat (State.sameRegs_set 0 (s.sameRegs_refl _) (by simp))
    (State.sameButRegs_set _ _ s.sameButRegs_refl) (fun x hx => List.mem_cons_of_mem _ hx)

/-- Settles O5: the key sets the one cell of the page's guard, another value clears it and reports a header error, and the
test events are raised one by one, which unsets none of them. -/
theorem unlockKeysAndForcedEvents : Obligations.UnlockKeysAndForcedEvents := by
  refine ⟨?_, ?_, ?_, evtForce_latches⟩
  · intro s page value hhost hpaused hguarded hkey
    refine ⟨s.set (unlockedOf page.toNat) 1, ?_, ?_, State.sameRegs_set 1 (s.sameRegs_refl _) (by simp), rfl⟩
    · rw [exec_pageUnlock s value hhost hpaused hguarded, unlockWrite_key s hguarded hkey]
    · rw [State.pageLocked, State.is, State.get_set_same]
      exact Bool.and_false _
  · intro s page value hhost hpaused hguarded hkey
    obtain ⟨hlocked, hcount, hregs⟩ := wrongKey_reports s hguarded
    refine ⟨_, ?_, hlocked, hcount, State.headerErr_latched .., hregs, State.sameButRegs_headerErr _ _ _
      (State.sameButRegs_set _ _ (State.sameButRegs_set _ _ s.sameButRegs_refl))⟩
    rw [exec_pageUnlock s value hhost hpaused hguarded, unlockWrite_wrong s hguarded hkey]
  · intro s page value hguarded
    simp [exec, execPageUnlock, State.unlockWrite, hguarded]

end Sys2Proof.Machine
end

