-- ==== Sys2Proof/Proofs/HostReads.lean ====
section
/-! PROOFS. Host reads (R9, R35, R36, R43, R48, R59): what a read of one pair changes and returns, and the obligation on
reads. -/

namespace Sys2Proof.Machine

/-! ### What a read of a location changes -/

/-- `t` is `s` but for its registers. -/
def State.OnlyRegs (s t : State) : Prop := ∃ regs, t = { s with regs := regs }

namespace State.OnlyRegs

section
variable {s t : State}

theorem refl (s : State) : OnlyRegs s s := ⟨s.regs, rfl⟩

theorem set (h : OnlyRegs s t) (f : Fld) (v : Nat) : OnlyRegs s (t.set f v) := by
  obtain ⟨regs, rfl⟩ := h
  exact ⟨_, rfl⟩

theorem ite {c : Prop} [Decidable c] {u : State} (ht : OnlyRegs s t) (hu : OnlyRegs s u) : OnlyRegs s (if c then t else u) := by
  split
  · exact ht
  · exact hu

theorem forEach {α : Type} {l : List α} {f : α → State → State} (h : OnlyRegs s t)
    (hf : ∀ a u, OnlyRegs s u → OnlyRegs s (f a u)) : OnlyRegs s (Machine.forEach l t f) :=
  List.foldlRecOn (motive := OnlyRegs s) l _ h (fun u hu a _ => hf a u hu)

theorem hiSnap (h : OnlyRegs s t) : t.hiSnap = s.hiSnap := by
  obtain ⟨regs, rfl⟩ := h
  rfl

end

end State.OnlyRegs

theorem State.readClears_onlyRegs (s : State) (p off mask : Nat) : s.OnlyRegs (s.readClears p off mask) := by
  unfold State.readClears
  split
  · exact .refl s
  · extract_lets bits s1 block s2
    have h1 : s.OnlyRegs s1 := .ite (((OnlyRegs.refl s).set _ _).set _ _) (.refl s)
    have h2 : s.OnlyRegs s2 := .ite (h1.forEach (fun _ _ h => .ite (h.set _ _) h)) h1
    exact .ite h1 (.ite (h2.forEach (fun _ _ h => .ite (h.set _ _) h)) h2)

/-- `t` is `s` but for its registers and the high halves it holds for reads. -/
def State.OnlyReads (s t : State) : Prop := ∃ regs hiSnap, t = { s with regs := regs, hiSnap := hiSnap }

theorem State.OnlyReads.trans {s t u : State} (h : s.OnlyReads t) (k : t.OnlyReads u) : s.OnlyReads u := by
  obtain ⟨_, _, rfl⟩ := h
  obtain ⟨_, _, rfl⟩ := k
  exact ⟨_, _, rfl⟩

theorem State.OnlyRegs.onlyReads {s t : State} (h : s.OnlyRegs t) : s.OnlyReads t := by
  obtain ⟨_, rfl⟩ := h
  exact ⟨_, _, rfl⟩

theorem State.readSnaps_onlyReads (s : State) (p off : Nat) : s.OnlyReads (s.readSnaps p off) := by
  refine ⟨s.regs, (s.readSnaps p off).hiSnap, ?_⟩
  unfold State.readSnaps
  repeat' split
  all_goals rfl

/-- A read of a location changes registers and held high halves alone. -/
theorem State.readLoc_onlyReads (s : State) (p off mask : Nat) : s.OnlyReads (s.readLoc p off mask).1 := by
  unfold State.readLoc
  split
  · exact ⟨_, _, rfl⟩
  · exact (s.readSnaps_onlyReads p off).trans (State.readClears_onlyRegs _ p off mask).onlyReads

theorem State.readLoc_zero (s : State) (p off : Nat) : s.readLoc p off 0 = (s, 0) := rfl

theorem State.readLoc_full (s : State) (p off : Nat) :
    s.readLoc p off 0xF = ((s.readSnaps p off).readClears p off 0xF, s.readValue p off) := rfl

/-! ### A read of one pair -/

theorem toBytes_take (k j n : Nat) : (toBytes (k + j) n).take k = toBytes k n := by
  induction k generalizing n with
  | zero => rfl
  | succ k ih => rw [Nat.succ_add, toBytes, List.take_succ_cons, ih, toBytes]

/-- Both halves of the pair at `base` of page `p`, read in the bytes `lo` and `hi`: the state, and the pair's value. -/
def State.readPair (s : State) (p base lo hi : Nat) : State × Nat :=
  let a := s.readLoc p base lo
  let b := a.1.readLoc p (base + 4) hi
  (b.1, a.2 + 2 ^ 32 * b.2)

theorem State.readPair_onlyReads (s : State) (p base lo hi : Nat) : s.OnlyReads (s.readPair p base lo hi).1 :=
  (s.readLoc_onlyReads p base lo).trans (State.readLoc_onlyReads _ p (base + 4) hi)

/-- A read that lies in one pair, the grotto window's aside (R35, R309). -/
theorem bar0Read_pair (s : State) {addr len : Nat} (hhost : s.hostOpen = true) (hspan : addr % 8 + len ≤ 8)
    (hgrt : addr / 8 ≠ (grtPage * 4096 + 0x050) / 8) :
    s.bar0Read addr len =
      (s.readPair (addr / 4096) (addr % 4096 / 8 * 8) (spanMask (addr % 4096 / 8 * 8) (addr % 4096) len)
        (spanMask (addr % 4096 / 8 * 8 + 4) (addr % 4096) len)).1.readDone
      (((toBytes 8 (s.readPair (addr / 4096) (addr % 4096 / 8 * 8) (spanMask (addr % 4096 / 8 * 8) (addr % 4096) len)
        (spanMask (addr % 4096 / 8 * 8 + 4) (addr % 4096) len)).2).drop (addr % 8)).take len) := by
  have hgood : badSpan addr len = false := by
    simp only [badSpan, decide_eq_false_iff_not]
    omega
  have hnot : ¬ (addr / 4096 = grtPage ∧ addr % 4096 / 8 * 8 = 0x050 ∧
      spanMask (addr % 4096 / 8 * 8) (addr % 4096) len ≠ 0) := by
    rintro ⟨hp, hbase, -⟩
    omega
  unfold State.bar0Read
  simp only [hhost, hgood, Bool.not_true, Bool.false_eq_true, if_false, if_neg hnot]
  rfl

/-- A read of the low half of a pair. -/
theorem bar0Read_low (s : State) {addr : Nat} (hhost : s.hostOpen = true) (halign : addr % 8 = 0)
    (hgrt : addr / 8 ≠ (grtPage * 4096 + 0x050) / 8) :
    s.bar0Read addr 4 = ((s.readSnaps (addr / 4096) (addr % 4096)).readClears (addr / 4096) (addr % 4096) 0xF).readDone
      (toBytes 4 (s.readValue (addr / 4096) (addr % 4096))) := by
  have hbase : addr % 4096 / 8 * 8 = addr % 4096 := by omega
  rcases location_masks (off := addr % 4096) (by omega) with ⟨-, hlo, hhi, -⟩ | ⟨hbad, -⟩
  · rw [bar0Read_pair s hhost (by omega) hgrt, State.readPair, hlo, hhi, hbase, halign]
    simp only [State.readLoc_full, State.readLoc_zero, Nat.mul_zero, Nat.add_zero, List.drop_zero]
    rw [toBytes_take 4 4]
  · omega

/-- Such a read changes registers, held high halves and the completion, and returns as much as it asked for. -/
theorem bar0Read_completes (s : State) {addr len : Nat} (hhost : s.hostOpen = true) (hspan : addr % 8 + len ≤ 8)
    (hgrt : addr / 8 ≠ (grtPage * 4096 + 0x050) / 8) :
    (s.bar0Read addr len).link.completion = .success ∧ (s.bar0Read addr len).link.readData.length = len ∧
      s.bar0Read addr len = { s with regs := (s.bar0Read addr len).regs, hiSnap := (s.bar0Read addr len).hiSnap
                                     link := (s.bar0Read addr len).link } ∧
      (s.bar0Read addr len).link = { s.link with completion := (s.bar0Read addr len).link.completion
                                                 readData := (s.bar0Read addr len).link.readData } := by
  obtain ⟨regs, hiSnap, hread⟩ := s.readPair_onlyReads (addr / 4096) (addr % 4096 / 8 * 8)
    (spanMask (addr % 4096 / 8 * 8) (addr % 4096) len) (spanMask (addr % 4096 / 8 * 8 + 4) (addr % 4096) len)
  rw [bar0Read_pair s hhost hspan hgrt, hread]
  refine ⟨rfl, ?_, rfl, rfl⟩
  simp only [State.readDone, State.onLink_link, List.length_take, List.length_drop, toBytes_length]
  omega

/-! ### Header locations -/

theorem fieldsOf_block : ∀ c : PageClass, ∀ f ∈ fieldsOf c, 0x040 ≤ f.off := by
  intro c
  cases c <;> decide +kernel

/-- No location of the header is half of a pair. -/
theorem pairHalf_header {p off : Nat} (hi : Bool) (h : off < 0x040) : pairHalf p off hi = false := by
  unfold pairHalf
  split
  · rfl
  · next c n _ =>
    have hcopy : copyOff c off = false := by simp [copyOff, show ¬ 0x440 ≤ off by omega]
    simp only [hcopy, Bool.false_eq_true, if_false, List.any_eq_false]
    intro f hf
    have hplace : f.place off = none := if_pos (by have := fieldsOf_block c f hf; omega)
    simp [hplace]

theorem readSnaps_header (s : State) {p off : Nat} (h : off < 0x040) : s.readSnaps p off = s := by
  have hoff : ¬ (p = PageClass.page .time 0 ∧ off = 0x070) := by omega
  simp [State.readSnaps, pairHalf_header false h, hoff]

theorem readValue_header (s : State) {p off : Nat} (h : off < 0x040) : s.readValue p off = s.locValue p off := by
  have hoff : ¬ (p = PageClass.page .time 0 ∧ off = calSecondsOff) := by unfold calSecondsOff; omega
  simp [State.readValue, pairHalf_header true h, hoff, Nat.not_le.mpr h]

/-! ### PAGE_EVENT (R59) -/

/-- The latches of PAGE_EVENT of a page, cleared. -/
def State.latchesCleared (s : State) (c : PageClass) (p : Nat) : State :=
  forEach (upto c.eventCount) s (fun b s => s.set (eventCell p 0x010 b) 0)

theorem readClears_pageEvent (s : State) {p : Nat} {c : PageClass} {n : Nat} (hp : pageOf p = some (c, n)) :
    s.readClears p 0x010 0xF = s.latchesCleared c p := by
  have hcount : c.eventCount ≤ 32 := by cases c <;> decide
  have hbits : ∀ b < 32, bitOf (byteBits 0xF) b = true := by decide
  unfold State.readClears State.latchesCleared
  simp only [hp]
  refine List.foldl_ext _ _ _ (fun u b hb => ?_)
  exact if_pos (hbits b ((List.mem_range.mp hb).trans_le hcount))

/-- A cell that reads 0 still does when 0 is put anywhere. -/
theorem State.get_set_zero {s : State} {f g : Fld} (hreset : f.reset = g.reset) (h : s.get f = 0) : (s.set g 0).get f = 0 := by
  by_cases hkey : f.key = g.key
  · rw [State.get, hkey, hreset]
    exact (s.get_set_same g 0).trans (Nat.zero_mod _)
  · rw [s.get_set_ne 0 hkey, h]

theorem State.latchesCleared_get (s : State) {c : PageClass} (p : Nat) {b : Nat} (hb : b < c.eventCount) :
    (s.latchesCleared c p).get (eventCell p 0x010 b) = 0 := by
  obtain ⟨before, after, hsplit⟩ := List.append_of_mem (List.mem_range.mpr hb)
  rw [State.latchesCleared, upto, hsplit, forEach, List.foldl_append, List.foldl_cons]
  exact List.foldlRecOn (motive := fun u : State => u.get (eventCell p 0x010 b) = 0) after _
    ((State.get_set_same ..).trans (Nat.zero_mod _)) (fun _ hu _ _ => State.get_set_zero rfl hu)

theorem State.latchesCleared_sameRegs (s : State) (c : PageClass) (p : Nat) :
    s.sameRegs ((upto c.eventCount).map (fun b => (eventCell p 0x010 b).key)) (s.latchesCleared c p) :=
  List.foldlRecOn (motive := s.sameRegs _) (upto c.eventCount) _ (s.sameRegs_refl _)
    (fun _ hu b hb => State.sameRegs_set 0 hu (List.mem_map.mpr ⟨b, hb, rfl⟩))

/-- R59: a read of PAGE_EVENT returns the latches and clears them. -/
theorem pageEvent_reads (s : State) (p : BitVec 12) (c : PageClass) (n : Nat) (hhost : s.hostOpen = true)
    (hp : pageOf p.toNat = some (c, n)) :
    ∃ t, exec (.eventLatchRead (BitVec.ofNat 24 (p.toNat * 4096 + 0x010)) 4) s = .next t ∧
      t.link.completion = .success ∧ t.link.readData = toBytes 4 (eventValue s.get c p.toNat 0x010) ∧
      (∀ b < c.eventCount, t.get (eventCell p.toNat 0x010 b) = 0) ∧
      s.sameRegs ((upto c.eventCount).map (fun b => (eventCell p.toNat 0x010 b).key)) t ∧
      t = { s with regs := t.regs, link := { s.link with completion := .success, readData := t.link.readData } } := by
  have haddr : (BitVec.ofNat 24 (p.toNat * 4096 + 0x010)).toNat = p.toNat * 4096 + 0x010 := by
    have := p.isLt
    rw [BitVec.toNat_ofNat]
    omega
  have hread : s.bar0Read (p.toNat * 4096 + 0x010) 4 =
      (s.latchesCleared c p.toNat).readDone (toBytes 4 (eventValue s.get c p.toNat 0x010)) := by
    have hgrt : (p.toNat * 4096 + 0x010) / 8 ≠ (grtPage * 4096 + 0x050) / 8 := by omega
    have hpage : (p.toNat * 4096 + 0x010) / 4096 = p.toNat := by omega
    have hoff : (p.toNat * 4096 + 0x010) % 4096 = 0x010 := by omega
    have hvalue : s.locValue p.toNat 0x010 = eventValue s.get c p.toNat 0x010 := by
      unfold State.locValue
      rw [hp]
      rfl
    rw [bar0Read_low s hhost (by omega) hgrt, hpage, hoff, readSnaps_header s (by decide), readClears_pageEvent s hp,
      readValue_header s (by decide), hvalue]
  obtain ⟨regs, honly⟩ : s.OnlyRegs (s.latchesCleared c p.toNat) :=
    (State.OnlyRegs.refl s).forEach (fun _ _ h => h.set _ _)
  refine ⟨_, (congrArg (fun a => Host.Outcome.next (s.bar0Read a 4)) haddr).trans (congrArg _ hread), rfl, rfl,
    fun b hb => s.latchesCleared_get p.toNat hb, State.sameRegs_of_regs (s.latchesCleared_sameRegs c p.toNat) rfl, ?_⟩
  rw [honly]
  rfl

/-! ### High halves (R48) -/

/-- A high half as last held (R48). -/
theorem readValue_held (u : State) {p off v : Nat} (hpaused : u.paused = false) (hkey : pairKey p off ≠ 0)
    (hhigh : pairHalf p (off + 4) true = true) (hheld : sget u.hiSnap (pairKey p off) 0 = v + 1) :
    u.readValue p (off + 4) = v := by
  simp [State.readValue, hpaused, hhigh, hkey, hheld]

/-- A read of a low half holds the high half. -/
theorem readSnaps_holds (s : State) {p off : Nat} (hpaused : s.paused = false) (hlow : pairHalf p off false = true) :
    sget (s.readSnaps p off).hiSnap (pairKey p off) 0 = s.locValue p (off + 4) + 1 := by
  unfold State.readSnaps
  simp only [hpaused, hlow, if_true, Bool.false_eq_true, if_false]
  split
  · next h =>
    have hkey : pairKey p off ≠ pairKey p calSecondsOff := by
      unfold pairKey calSecondsOff
      omega
    simp only [State.holdHigh, sget_sput_ne _ _ _ _ hkey, sget_sput_same]
  · simp only [State.holdHigh, sget_sput_same]

/-- R48: a read of a low half returns it, and later reads of the high half return that as it was then. -/
theorem lowHalf_reads (s : State) (addr : BitVec 24) (hhost : s.hostOpen = true) (hpaused : s.paused = false)
    (halign : addr.toNat % 8 = 0) (hgrt : addr.toNat / 8 ≠ (grtPage * 4096 + 0x050) / 8)
    (hlow : pairHalf (addr.toNat / 4096) (addr.toNat % 4096) false = true)
    (hhigh : pairHalf (addr.toNat / 4096) (addr.toNat % 4096 + 4) true = true) (hblock : 0x040 ≤ addr.toNat % 4096) :
    ∃ t, exec (.pairLowHalfRead addr 4) s = .next t ∧
      t.link.readData = toBytes 4 (s.readValue (addr.toNat / 4096) (addr.toNat % 4096)) ∧
      ∀ u : State, u.paused = false → u.hiSnap = t.hiSnap → u.readValue (addr.toNat / 4096) (addr.toNat % 4096 + 4) =
        s.locValue (addr.toNat / 4096) (addr.toNat % 4096 + 4) := by
  refine ⟨_, congrArg Host.Outcome.next (bar0Read_low s hhost halign hgrt), rfl, fun u hu hsnap => ?_⟩
  refine readValue_held u hu (by unfold pairKey; omega) hhigh ?_
  rw [hsnap]
  exact (congrArg (fun m => sget m _ 0) (State.readClears_onlyRegs _ _ _ _).hiSnap).trans (readSnaps_holds s hpaused hlow)

/-! ### TIME_NOW (R88) -/

/-- The parts of TIME_NOW that its two locations show. -/
def timeNowLow : Part := ⟨TIME_NOW, TIME_NOW.one, 0, 32, 0⟩
def timeNowHigh : Part := ⟨TIME_NOW, TIME_NOW.one, 0, 32, 32⟩

theorem shownAt_timeNow (s : State) : s.shownAt (PageClass.page .time 0) 0x040 = [timeNowLow] ∧
    s.shownAt (PageClass.page .time 0) 0x044 = [timeNowHigh] := ⟨rfl, rfl⟩

theorem pairHalf_timeNow : pairHalf (PageClass.page .time 0) 0x040 false = true ∧
    pairHalf (PageClass.page .time 0) 0x040 true = false ∧ pairHalf (PageClass.page .time 0) 0x044 true = true := by decide

theorem State.timeNow_lt (s : State) : s.timeNow < 2 ^ 64 :=
  (Nat.div_mul_le_self _ _).trans_lt (Nat.mod_lt _ (by decide))

/-- The two halves of TIME_NOW, as a page in service shows them. -/
theorem locValue_timeNow (s : State) (hpaused : s.paused = false) (hfenced : s.is (fencedOf (PageClass.page .time 0)) = false) :
    s.locValue (PageClass.page .time 0) 0x040 = s.timeNow % 2 ^ 32 ∧
      s.locValue (PageClass.page .time 0) 0x044 = s.timeNow / 2 ^ 32 := by
  have hblock : ∀ off, ¬ off < 0x040 → copyOff .time off = false → ¬ (0x400 ≤ off ∧ off < 0x800) → eventBits .time off = 0 →
      s.locValue (PageClass.page .time 0) off = composed (s.shownAt (PageClass.page .time 0) off) s.seen := by
    intro off hlow hcopy hsnap hevents
    have hpage : pageOf (PageClass.page .time 0) = some (.time, 0) := rfl
    simp [State.locValue, hpage, hlow, hpaused, hcopy, hsnap, hfenced, State.blockValue, eventValue, hevents, maskOf, upto]
  have hlow : s.seen timeNowLow = s.timeNow := rfl
  have hhigh : s.seen timeNowHigh = s.timeNow := rfl
  have hlt := s.timeNow_lt
  rw [hblock 0x040 (by decide) rfl (by decide) rfl, hblock 0x044 (by decide) rfl (by decide) rfl, (shownAt_timeNow s).1,
    (shownAt_timeNow s).2]
  simp only [composed, List.map_cons, List.map_nil, List.sum_cons, List.sum_nil, hlow, hhigh]
  simp only [timeNowLow, timeNowHigh]
  omega

/-- A read of TIME_NOW clears nothing. -/
theorem readClears_timeNow (s : State) (hpaused : s.paused = false)
    (hfenced : s.is (fencedOf (PageClass.page .time 0)) = false) : s.readClears (PageClass.page .time 0) 0x040 0xF = s := by
  have hpage : pageOf (PageClass.page .time 0) = some (.time, 0) := rfl
  have hlatch : latchOff 0x040 = false := rfl
  have hkind : TIME_NOW.kind ≠ .evt := by decide
  unfold State.readClears
  simp [hpage, hpaused, hfenced, hlatch, (shownAt_timeNow s).1, forEach, timeNowLow, hkind]

/-- R48, R88: a read of TIME_NOW's low half returns it, and the high half later is that of the same instant. -/
theorem timeNow_reads (s : State) (hhost : s.hostOpen = true) (hpaused : s.paused = false)
    (hfenced : s.is (fencedOf (PageClass.page .time 0)) = false) :
    ∃ t, exec (.pairLowHalfRead 0x002040 4) s = .next t ∧ t.link.completion = .success ∧
      t.link.readData = toBytes 4 (s.timeNow % 2 ^ 32) ∧
      (∀ n, ({ t with now := n } : State).readValue (PageClass.page .time 0) 0x044 = s.timeNow / 2 ^ 32) ∧
      t = { s with hiSnap := t.hiSnap, link := { s.link with completion := .success, readData := t.link.readData } } := by
  obtain ⟨hlow, hnot, hhigh⟩ := pairHalf_timeNow
  obtain ⟨hlowValue, hhighValue⟩ := locValue_timeNow s hpaused hfenced
  have hsnaps : s.readSnaps (PageClass.page .time 0) 0x040 =
      s.holdHigh (PageClass.page .time 0) 0x040 (s.locValue (PageClass.page .time 0) 0x044) := by
    simp [State.readSnaps, hpaused, hlow]
  have hvalue : s.readValue (PageClass.page .time 0) 0x040 = s.timeNow % 2 ^ 32 := by
    simp [State.readValue, hpaused, hnot, calSecondsOff, hlowValue]
  have hread : exec (.pairLowHalfRead 0x002040 4) s =
      .next ((s.readSnaps (PageClass.page .time 0) 0x040).readDone (toBytes 4 (s.timeNow % 2 ^ 32))) := by
    refine (congrArg Host.Outcome.next (bar0Read_low s (addr := 0x002040) hhost (by decide) (by decide))).trans ?_
    show Host.Outcome.next (((s.readSnaps (PageClass.page .time 0) 0x040).readClears (PageClass.page .time 0) 0x040
      0xF).readDone (toBytes 4 (s.readValue (PageClass.page .time 0) 0x040))) = _
    rw [hvalue, hsnaps]
    exact congrArg (fun u : State => Host.Outcome.next (u.readDone _)) (readClears_timeNow _ hpaused hfenced)
  refine ⟨_, hread, rfl, rfl, fun n => ?_, ?_⟩
  · refine readValue_held (off := 0x040) _ ?_ (by decide) hhigh ((readSnaps_holds s hpaused hlow).trans (by rw [hhighValue]))
    rw [hsnaps]
    exact hpaused
  · rw [hsnaps]
    rfl

/-! ### Reads that break R35 -/

/-- What a read that breaks R35 leaves. -/
theorem accessErrRead_reports (s : State) (addr : BitVec 24) (len : Nat) (hhost : s.hostOpen = true) (hlen : len ≤ 4096)
    (hpage : (pageOf (addr.toNat / 4096)).isSome = true) :
    ∃ t, exec (.bar0ReadAccessErr addr len) s = .next t ∧ t.link.completion = .success ∧
      t.link.readData = List.replicate len 0 ∧ t.get (accessErrOf (addr.toNat / 4096)) = 1 ∧ t.latched 1 = true ∧
      s.sameRegs ([accessErrOf (addr.toNat / 4096), SYS_LAST_ERR_CAUSE.one, SYS_LAST_ERR_PAGE.one,
        SYS_LAST_ERR_OFFSET.one].map Fld.key ++ latches [1]) t ∧ s.sameMemory t := by
  have hexec : exec (.bar0ReadAccessErr addr len) s =
      .next ((s.accessErr (addr.toNat / 4096) (addr.toNat % 4096)).readDone (List.replicate len 0)) := by
    simp [exec, execBar0ReadAccessErr, Nat.not_lt.mpr hlen, hhost, State.spanErr, hpage]
  refine ⟨_, hexec, rfl, rfl, ?_, State.headerErr_latched .., ?_, (Evolves.refl true false s).accessErr.readDone.sameMemory⟩
  · exact (State.headerErr_get _ _ _ _ rfl).trans (State.get_set_same ..)
  · refine State.sameRegs_of_regs (State.sameRegs_headerErr _ _ _ (State.sameRegs_set 1 (s.sameRegs_refl _) ?_) ?_) rfl
    · simp
    · simp only [errCells, List.forall_mem_cons, List.not_mem_nil, false_implies, implies_true, and_true]
      simp [latches, evPlace]

/-! ### The obligation -/

theorem exec_bar4Read (s : State) {x : BitVec 24} {len : Fin 4097} (hhost : s.hostOpen = true) (hpaused : s.paused = false)
    (hspan : x.toNat + len.val ≤ 0x10000) : exec (.eventLatchRead x len .bar4) s = .next { s with
      link := { s.link with completion := .success, readData := (upto len.val).map (fun i => s.link.bar4Shown (x.toNat + i)) } } := by
  simp [exec, execEventLatchRead, Nat.not_lt.mpr hspan, State.bar4Read, hhost, hpaused, State.readDone, State.onLink]

/-- Settles O7: a read of one pair is two reads of locations; one of a header location clears its latches, one of a low half
holds the high half, and one that breaks R35 is a header error. -/
theorem readsClearLatchesAndHoldHighHalves : Obligations.ReadsClearLatchesAndHoldHighHalves := by
  refine ⟨?_, ?_, ?_, ?_, lowHalf_reads, timeNow_reads, accessErrRead_reports⟩
  · exact fun s addr len hhost hspan hgrt => ⟨_, rfl, bar0Read_completes s hhost hspan hgrt⟩
  · exact fun s p c n hhost _ hp => pageEvent_reads s p c n hhost hp
  · exact fun s x len hhost hpaused hspan => exec_bar4Read s hhost hpaused hspan
  · exact fun s addr len hhost hspan hgrt => ⟨_, rfl, bar0Read_completes s hhost hspan hgrt⟩

end Sys2Proof.Machine
end

