-- ==== Sys2Proof/Proofs/Aperture.lean ====
section
/-! PROOFS. The HBM aperture, closed and open (R37 to R42), over what a pseudo-channel's queues and memory show a reader (R269 to
R271), and the obligations on it. -/

namespace Sys2Proof.Machine

/-! ### The closed aperture (R42) -/

theorem State.apertureShut_of_disabled {s : State} (h : s.is SYS_APERTURE_CTRL.one = false) : s.apertureShut = true := by
  simp [State.apertureShut, h]

/-- Settles O9: ENABLE at 0 shuts the aperture, and a shut aperture answers before anything is mapped. -/
theorem closedApertureReadsZero : Obligations.ClosedApertureReadsZero := by
  unfold Obligations.ClosedApertureReadsZero
  intro s findings hhost hdisabled
  have hshut := State.apertureShut_of_disabled hdisabled
  refine ⟨fun off len => ?_, fun off data hdata => ?_⟩
  · show execApertureRead off len s findings = _
    simp [execApertureRead, hhost, hshut, State.readDone, State.onLink]
  · show execApertureWrite off data s findings = _
    simp [execApertureWrite, hhost, hshut, Nat.not_lt.mpr hdata]

/-! ### Memory and the write queue (R271) -/

/-- A byte of memory after a list of bytes has been put there. -/
theorem sget_putBytes (m : List Host.Cell) (k : Nat) (bs : List Byte) (a : Nat) :
    sget (putBytes m k bs) a 0 = if k ≤ a ∧ a < k + bs.length then bs.getD (a - k) 0 else sget m a 0 := by
  induction bs generalizing m k with
  | nil => simp [putBytes, show ¬ (k ≤ a ∧ a < k) by omega]
  | cons b bs ih =>
    rw [putBytes, ih, sget_sput, List.length_cons]
    rcases Nat.lt_trichotomy a k with hlt | rfl | hgt
    · rw [if_neg (by omega), if_neg (by omega), if_neg (by omega)]
    · rw [if_neg (by omega), if_pos rfl, if_pos (by omega), Nat.sub_self, List.getD_cons_zero]
    · obtain ⟨j, rfl⟩ : ∃ j, a = k + 1 + j := ⟨a - (k + 1), by omega⟩
      rw [if_neg (show ¬ k + 1 + j = k by omega), show k + 1 + j - k = j + 1 by omega, List.getD_cons_succ,
        show k + 1 + j - (k + 1) = j by omega]
      exact if_congr (by omega) rfl rfl

/-- Every write that pseudo-channel `pc` holds has 64 bytes and lies within it. -/
def Hbm.Whole (h : Hbm) (pc : Nat) : Prop := ∀ w ∈ h.writes pc, w.data.length = 64 ∧ w.x + 64 ≤ pcBytes

/-- What a reader sees in `h'` is what it saw in `h`: the bytes and marks of pseudo-channel `pc`, whose queue holds no new
write, and the bytes of the others. -/
structure Hbm.Shows (pc : Nat) (h h' : Hbm) : Prop where
  byte : ∀ y, h'.byteAt pc y = h.byteAt pc y
  mark : ∀ y, h'.markAt pc y = h.markAt pc y
  others : ∀ q, q ≠ pc → ∀ y < pcBytes, h'.byteAt q y = h.byteAt q y
  writes : h'.writes pc ⊆ h.writes pc

namespace Hbm.Shows

variable {pc : Nat} {h h' h'' : Hbm}

theorem refl (pc : Nat) (h : Hbm) : Shows pc h h := ⟨fun _ => rfl, fun _ => rfl, fun _ _ _ _ => rfl, List.Subset.refl _⟩

theorem trans (a : Shows pc h h') (b : Shows pc h' h'') : Shows pc h h'' :=
  ⟨fun y => (b.byte y).trans (a.byte y), fun y => (b.mark y).trans (a.mark y),
    fun q hq y hy => (b.others q hq y hy).trans (a.others q hq y hy), fun _ hw => a.writes (b.writes hw)⟩

theorem whole (a : Shows pc h h') (hwhole : h.Whole pc) : h'.Whole pc := fun w hw => hwhole w (a.writes hw)

end Hbm.Shows

/-- The oldest write of a queue, put into memory, shows as it did in the queue. -/
theorem Hbm.issueWrite_shows {h : Hbm} {pc : Nat} (hwhole : h.Whole pc) : Shows pc h (h.issueWrite pc) := by
  unfold Hbm.issueWrite
  split
  case h_2 => exact .refl pc h
  case h_1 w ws hq =>
    obtain ⟨hlength, hin⟩ := hwhole w (by simp [hq])
    have hsame : ∀ y, sget (putBytes h.mem (memKey pc w.x) w.data) (memKey pc y) 0 =
        if w.x ≤ y ∧ y < w.x + 64 then w.data.getD (y - w.x) 0 else sget h.mem (memKey pc y) 0 := by
      intro y
      rw [sget_putBytes, hlength, show memKey pc y - memKey pc w.x = y - w.x by unfold memKey; omega]
      exact if_congr (by unfold memKey; omega) rfl rfl
    have hother : ∀ q, q ≠ pc → ∀ y < pcBytes,
        sget (putBytes h.mem (memKey pc w.x) w.data) (memKey q y) 0 = sget h.mem (memKey q y) 0 := by
      intro q hq y hy
      rw [sget_putBytes, hlength, if_neg]
      unfold memKey pcBytes at *
      omega
    have hmark : ∀ y, sget (sput h.marks (markKey pc w.x) 0 w.mark) (markKey pc y) 0 =
        if w.x / 64 = y / 64 then w.mark else sget h.marks (markKey pc y) 0 := by
      intro y
      rw [sget_sput]
      exact if_congr (by unfold markKey; omega) rfl rfl
    refine ⟨fun y => ?_, fun y => ?_, fun q hne y hy => ?_, ?_⟩
    · simp only [Hbm.byteAt, hq, List.foldl_cons, ← hsame]
      simp [Hbm.writes, Hbm.commit]
    · simp only [Hbm.markAt, hq, List.foldl_cons, ← hmark]
      simp [Hbm.writes, Hbm.commit]
    · simp only [Hbm.byteAt, ← hother q hne y hy]
      simp [Hbm.writes, Hbm.commit, sget_sput_ne _ _ _ _ hne]
    · rw [hq]
      simp [Hbm.writes]

/-- A read going to the stack changes nothing a reader sees. -/
theorem Hbm.issueRead_shows (h : Hbm) (pc : Nat) : Shows pc h (h.issueRead pc) := by
  unfold Hbm.issueRead
  split
  · exact ⟨fun _ => rfl, fun _ => rfl, fun _ _ _ _ => rfl, List.Subset.refl _⟩
  · exact .refl pc h

theorem Hbm.issueOldest_shows {h : Hbm} {pc : Nat} (hwhole : h.Whole pc) : Shows pc h (h.issueOldest pc) := by
  unfold Hbm.issueOldest
  split
  · split
    · exact issueWrite_shows hwhole
    · exact h.issueRead_shows pc
  · exact issueWrite_shows hwhole
  · exact h.issueRead_shows pc

theorem Hbm.issueWhile_shows (more : Hbm → Bool) {pc : Nat} (fuel : Nat) {h : Hbm} (hwhole : h.Whole pc) :
    Shows pc h (Hbm.issueWhile more pc fuel h) := by
  induction fuel generalizing h with
  | zero => exact .refl pc h
  | succ fuel ih =>
    unfold Hbm.issueWhile
    split
    · have hstep := issueOldest_shows hwhole
      exact hstep.trans (ih (hstep.whole hwhole))
    · exact .refl pc h

/-- A write accepted into a queue: the newest write of its bytes (R271). -/
def Hbm.accepting (h : Hbm) (pc : Nat) (w : HbmWrite) : Hbm :=
  { h with writeQ := smod h.writeQ pc [] (· ++ [{ w with seq := h.accepted }]), accepted := h.accepted + 1 }

theorem Hbm.byteAt_accepting (h : Hbm) (pc : Nat) (w : HbmWrite) (y : Nat) : (h.accepting pc w).byteAt pc y =
    if w.x ≤ y ∧ y < w.x + 64 then w.data.getD (y - w.x) 0 else h.byteAt pc y := by
  simp [Hbm.accepting, Hbm.byteAt, Hbm.writes, smod]

theorem Hbm.byteAt_accepting_ne (h : Hbm) {pc q : Nat} (w : HbmWrite) (y : Nat) (hq : q ≠ pc) :
    (h.accepting pc w).byteAt q y = h.byteAt q y := by
  simp [Hbm.accepting, Hbm.byteAt, Hbm.writes, smod, sget_sput_ne _ _ _ _ hq]

/-! ### The HBM under the controller's steps -/

@[simp] theorem State.raise_hbm (s : State) (k : Nat) : (s.raise k).hbm = s.hbm := by rw [State.raise_eq]

@[simp] theorem State.wakePc_hbm (s : State) (pc : Nat) : (s.wakePc pc).hbm = s.hbm := by
  unfold State.wakePc
  split <;> rfl

@[simp] theorem State.orderMode_hbm (s : State) (pc : Nat) : (s.orderMode pc).hbm = s.hbm := by
  unfold State.orderMode
  dsimp only
  split
  · split <;> rfl
  · rfl

@[simp] theorem State.issuing_hbm (s : State) (pc : Nat) (f : Hbm → Hbm) : (s.issuing pc f).hbm = f s.hbm := by
  simp [State.issuing]

theorem State.hbmIssueNext_shows {s : State} {pc : Nat} (hwhole : s.hbm.Whole pc) : s.hbm.Shows pc (s.hbmIssueNext pc).hbm := by
  unfold State.hbmIssueNext
  split
  · exact .refl pc _
  · rw [State.issuing_hbm]; exact Hbm.issueWrite_shows hwhole
  · rw [State.issuing_hbm]; exact Hbm.issueRead_shows _ pc

theorem State.makeRoom_shows {pc : Nat} (fuel : Nat) {s : State} (hwhole : s.hbm.Whole pc) :
    s.hbm.Shows pc (State.makeRoom pc fuel s).hbm := by
  induction fuel generalizing s with
  | zero => exact .refl pc _
  | succ fuel ih =>
    unfold State.makeRoom
    split
    · exact .refl pc _
    · have hstep := hbmIssueNext_shows hwhole
      exact hstep.trans (ih (hstep.whole hwhole))

theorem State.orderEntry_shows {s : State} {pc : Nat} (x : Nat) (hwhole : s.hbm.Whole pc) :
    s.hbm.Shows pc (s.orderEntry pc x).hbm := by
  unfold State.orderEntry
  dsimp only
  split
  · rw [State.issuing_hbm]
    split <;> exact Hbm.issueWhile_shows _ _ hwhole
  · exact .refl pc _

/-- A read of a burst without a mark that finds nothing only turns its pseudo-channel in-order where it must. -/
theorem State.eccRead_unmarked {s : State} {pc x : Nat} (h : (s.orderEntry pc x).hbm.markAt pc x = 0) :
    s.eccRead pc x .clean = s.orderEntry pc x := by
  simp [State.eccRead, h]

/-- A write is accepted after whatever the controller issues to make room for it. -/
theorem State.acceptWrite_hbm {s : State} {pc : Nat} (w : HbmWrite) (hwhole : s.hbm.Whole pc) :
    ∃ h, s.hbm.Shows pc h ∧ (s.acceptWrite pc w).hbm = h.accepting pc w := by
  refine ⟨_, State.makeRoom_shows ((s.hbm.reads pc).length + 1) hwhole, ?_⟩
  unfold State.acceptWrite State.raiseIf
  dsimp only
  split <;> simp [Hbm.accepting]

/-! ### What the controller's steps leave alone -/

/-- The cells that serving a request of pseudo-channel `pc` can change. -/
def serveCells (pc : Nat) : List Nat :=
  [HBM_WRITTEN.of (stackOf pc), HBM_PC_QUEUE_PEAK.ofWin (stackOf pc) (pc % 32), HBM_PC_STATE_STATE.ofWin (stackOf pc) (pc % 32),
    HBM_PC_STATE_IN_ORDER.ofWin (stackOf pc) (pc % 32), HBM_PC_IN_ORDER.ofWin (stackOf pc) (pc % 32)].map Fld.key ++
    latches [305 + 16 * stackOf pc]

/-- `t` comes of `s` by serving requests of pseudo-channel `pc`: beside the HBM, `serveCells` and messages to the host. -/
structure State.Serves (pc : Nat) (s t : State) : Prop where
  regs : s.sameRegs (serveCells pc) t
  rest : ({ s with hbm := t.hbm } : State).sameButRegs t

namespace State.Serves

variable {pc : Nat} {s₀ s t : State}

theorem refl (pc : Nat) (s : State) : Serves pc s s := ⟨s.sameRegs_refl _, s.sameButRegs_refl⟩

theorem ite {c : Prop} [Decidable c] (hs : Serves pc s₀ s) (ht : Serves pc s₀ t) : Serves pc s₀ (if c then s else t) := by
  split
  · exact hs
  · exact ht

theorem set {f : Fld} {v : Nat} (h : Serves pc s₀ s) (hf : f.key ∈ serveCells pc) : Serves pc s₀ (s.set f v) :=
  ⟨State.sameRegs_set v h.regs hf, State.sameButRegs_set f v h.rest⟩

theorem onHbm {f : Hbm → Hbm} (h : Serves pc s₀ s) : Serves pc s₀ (s.onHbm f) := by
  obtain ⟨hregs, hrest, hmessages⟩ := h
  refine ⟨State.sameRegs_of_regs hregs rfl, ?_, hmessages⟩
  unfold State.onHbm
  rw [hrest]

theorem full {c : Bool} (h : Serves pc s₀ s) : Serves pc s₀ (s.raiseIf c (305 + 16 * stackOf pc)) := by
  have hhbm : (s.raiseIf c (305 + 16 * stackOf pc)).hbm = s.hbm := by cases c <;> simp [State.raiseIf]
  refine ⟨State.sameRegs_raiseIf c _ h.regs (fun x hx => List.mem_append_right _ hx), ?_⟩
  rw [hhbm]
  exact State.sameButRegs_raiseIf c _ h.rest

theorem wakePc (h : Serves pc s₀ s) : Serves pc s₀ (s.wakePc pc) := .ite (h.set (by simp [serveCells])) h

theorem orderMode (h : Serves pc s₀ s) : Serves pc s₀ (s.orderMode pc) :=
  .ite (.ite h ((h.set (by simp [serveCells])).set (by simp [serveCells]))) (h.set (by simp [serveCells]))

theorem issuing {f : Hbm → Hbm} (h : Serves pc s₀ s) : Serves pc s₀ (s.issuing pc f) :=
  (h.onHbm.set (by simp [serveCells])).orderMode

theorem hbmIssueNext (h : Serves pc s₀ s) : Serves pc s₀ (s.hbmIssueNext pc) := by
  unfold State.hbmIssueNext
  split
  · exact h
  · exact h.issuing
  · exact h.issuing

theorem makeRoom {fuel : Nat} (h : Serves pc s₀ s) : Serves pc s₀ (State.makeRoom pc fuel s) := by
  induction fuel generalizing s with
  | zero => exact h
  | succ fuel ih => exact .ite h (ih h.hbmIssueNext)

theorem orderEntry {x : Nat} (h : Serves pc s₀ s) : Serves pc s₀ (s.orderEntry pc x) :=
  .ite (issuing (.ite h ((h.set (by simp [serveCells])).set (by simp [serveCells])))) h

theorem acceptWrite {w : HbmWrite} (h : Serves pc s₀ s) : Serves pc s₀ (s.acceptWrite pc w) :=
  (h.makeRoom.wakePc.onHbm.set (by simp [serveCells])).full

end State.Serves

/-! ### Reads of the open aperture -/

theorem State.apertureBurst_length (s : State) (a : Nat) (finding : EccFinding) : (s.apertureBurst a finding).2.1.length = 64 := by
  unfold State.apertureBurst
  split
  · simp [Hbm.burstAt, upto]
  · exact toBytes_length 64 0
  · exact toBytes_length 64 0

theorem State.apertureFetch_length (k a : Nat) (findings : List EccFinding) (s : State) :
    (State.apertureFetch k a findings s).2.1.length = 64 * k := by
  induction k generalizing a findings s with
  | zero => rfl
  | succ k ih => simp only [State.apertureFetch, List.length_append, State.apertureBurst_length, ih]; omega

theorem le_burstsOf (a len : Nat) (hlen : 0 < len) : a % 64 + len ≤ 64 * burstsOf a len := by
  rw [burstsOf, if_neg (by omega)]
  omega

theorem burstsOf_one {a len : Nat} (hlen : 0 < len) (hin : a % 64 + len ≤ 64) : burstsOf a len = 1 := by
  rw [burstsOf, if_neg (by omega)]
  omega

/-- An open aperture's read, as the bursts it fetches answer it. -/
theorem exec_apertureRead {s : State} {off : DWord} {len : Fin 4097} {findings : List EccFinding} {r : State × List Byte × Bool}
    (hhost : s.hostOpen = true) (hshut : s.apertureShut = false) (hstopped : s.is HBM_G_STATUS_STOPPED.one = false)
    (hr : State.apertureFetch (burstsOf (s.apertureAddr off.toNat) len.val) (s.apertureAddr off.toNat / 64 * 64) findings s = r) :
    exec (.apertureRead off len findings) s = .next { r.1 with link := { r.1.link with
      readData := (r.2.1.drop (s.apertureAddr off.toNat % 64)).take len.val,
      completion := if r.2.2 then .poisoned else .success } } := by
  show execApertureRead off len s findings = _
  subst hr
  simp only [execApertureRead, hhost, hshut, hstopped, Bool.not_true, Bool.false_eq_true, if_false]
  split <;> rfl

/-- A pseudo-channel in service or in self-refresh is reached. -/
theorem State.reached_of_inUse {s : State} {pc : Nat} (x : Nat) (h : s.pcState pc < 2) : s.reached (some (pc, x)) = .at_ pc x := by
  have hstate : s.pcState pc = 0 ∨ s.pcState pc = 1 := by omega
  rcases hstate with h0 | h1
  · simp [State.reached, h0]
  · simp [State.reached, h1]

/-- A burst that nothing holds back is read as it stands. -/
theorem State.apertureBurst_plain {s : State} {a pc x : Nat} (hmap : s.apertureReadMap a = some (pc, x)) (hstate : s.pcState pc = 0)
    (hmark : s.hbm.markAt pc x = 0) (hrow : s.hbm.rowPending pc x = false) :
    s.apertureBurst a .clean = (s, s.hbm.burstAt pc x, false) := by
  have hwake : s.wakePc pc = s := by simp [State.wakePc, hstate]
  have horder : s.orderEntry pc x = s := by simp [State.orderEntry, hrow]
  have hread : s.eccRead pc x .clean = s := (State.eccRead_unmarked (by rw [horder]; exact hmark)).trans horder
  simp [State.apertureBurst, hmap, State.reached_of_inUse x (show s.pcState pc < 2 by omega), hwake, hread, hmark]

/-! ### Writes of the open aperture -/

theorem burst_getD (f : Nat → Byte) {i : Nat} (h : i < 64) : ((upto 64).map f).getD i 0 = f i := by
  simp [upto, List.getD, h]

/-- A write within one burst is one put. -/
theorem exec_apertureWrite {s : State} {off : DWord} {data : List Byte} {findings : List EccFinding} (hhost : s.hostOpen = true)
    (hshut : s.apertureShut = false) (hstopped : s.is HBM_G_STATUS_STOPPED.one = false)
    (hold : s.is HBM_G_CTRL_OLD_MAP_READ.one = false) (hdata : data ≠ []) (hin : s.apertureAddr off.toNat % 64 + data.length ≤ 64)
    (hclean : findings.headD .clean = .clean) : exec (.apertureWrite off data findings) s =
      .next (s.aperturePut (s.apertureAddr off.toNat) data (s.apertureAddr off.toNat / 64 * 64) .clean) := by
  have hlen : 0 < data.length := List.length_pos_iff.mpr hdata
  have hfirst : findings[0]?.getD .clean = .clean := by cases findings <;> exact hclean
  show execApertureWrite off data s findings = _
  simp [execApertureWrite, hhost, hshut, hstopped, hold, show ¬ 4096 < data.length by omega, burstsOf_one hlen hin, upto, forEach,
    hfirst]

/-- The bytes of the burst at `b` as a write of `data` at `a` leaves them, over those of the burst at `x` in `h`. -/
def Hbm.mergedBurst (h : Hbm) (pc x a b : Nat) (data : List Byte) : List Byte :=
  (upto 64).map (fun i => if a ≤ b + i ∧ b + i < a + data.length then data.getD (b + i - a) 0 else h.byteAt pc (x + i))

/-- A put within one burst in use, outside every running region: what a part of a burst reads first, and the write that is
accepted. -/
theorem State.aperturePut_inUse {s : State} {a pc x : Nat} {data : List Byte} (hin : a % 64 + data.length ≤ 64)
    (hmap : s.apertureMap (a / 64 * 64) = some (pc, x)) (hstate : s.pcState pc < 2) (hmark : s.hbm.markAt pc x = 0)
    (hregion : s.inRunningRegion a data.length = false) (hwhole : s.hbm.Whole pc) :
    ∃ s1 : State, s.Serves pc s1 ∧ s.hbm.Shows pc s1.hbm ∧ s.aperturePut a data (a / 64 * 64) .clean =
      s1.acceptWrite pc ⟨x, s1.hbm.mergedBurst pc x a (a / 64 * 64) data, 0, 0, 0, 0⟩ := by
  have hlo : max a (a / 64 * 64) = a := by omega
  have hhi : min (a + data.length) (a / 64 * 64 + 64) = a + data.length := by omega
  have hshows : s.hbm.Shows pc ((s.wakePc pc).orderEntry pc x).hbm := by
    have := State.orderEntry_shows (s := s.wakePc pc) x (by rw [State.wakePc_hbm]; exact hwhole)
    rwa [State.wakePc_hbm] at this
  have hmark1 : ((s.wakePc pc).orderEntry pc x).hbm.markAt pc x = 0 := (hshows.mark x).trans hmark
  by_cases hall : data.length = 64
  · refine ⟨s, .refl pc s, .refl pc _, ?_⟩
    rw [hall] at hhi hregion
    simp [State.aperturePut, hmap, State.reached_of_inUse x hstate, hlo, hhi, hregion, hall, Hbm.mergedBurst]
  · refine ⟨(s.wakePc pc).orderEntry pc x, (State.Serves.refl pc s).wakePc.orderEntry, hshows, ?_⟩
    simp [State.aperturePut, hmap, State.reached_of_inUse x hstate, hlo, hhi, hregion, hall, Hbm.mergedBurst,
      State.eccRead_unmarked hmark1, hmark1]

/-- What every byte reads as after such a put. -/
theorem State.aperturePut_reads {s : State} {a pc x : Nat} {data : List Byte} (hin : a % 64 + data.length ≤ 64)
    (hmap : s.apertureMap (a / 64 * 64) = some (pc, x)) (hstate : s.pcState pc < 2) (hmark : s.hbm.markAt pc x = 0)
    (hregion : s.inRunningRegion a data.length = false) (hwhole : s.hbm.Whole pc) :
    ∃ t, s.aperturePut a data (a / 64 * 64) .clean = t ∧ s.Serves pc t ∧
      (∀ y, t.hbm.byteAt pc y = if x + a % 64 ≤ y ∧ y < x + a % 64 + data.length then data.getD (y - (x + a % 64)) 0
        else s.hbm.byteAt pc y) ∧
      ∀ q, q ≠ pc → ∀ y < pcBytes, t.hbm.byteAt q y = s.hbm.byteAt q y := by
  obtain ⟨s1, hserves, hshows1, hput⟩ := State.aperturePut_inUse hin hmap hstate hmark hregion hwhole
  obtain ⟨h, hshows2, hhbm⟩ := State.acceptWrite_hbm ⟨x, s1.hbm.mergedBurst pc x a (a / 64 * 64) data, 0, 0, 0, 0⟩
    (hshows1.whole hwhole)
  have hshows := hshows1.trans hshows2
  refine ⟨_, hput, hserves.acceptWrite, fun y => ?_, fun q hq y hy => ?_⟩
  · rw [hhbm, Hbm.byteAt_accepting]
    dsimp only
    by_cases hburst : x ≤ y ∧ y < x + 64
    · rw [if_pos hburst, Hbm.mergedBurst, burst_getD _ (by omega), show x + (y - x) = y by omega, hshows1.byte,
        show a / 64 * 64 + (y - x) - a = y - (x + a % 64) by omega]
      exact if_congr (by omega) rfl rfl
    · rw [if_neg hburst, if_neg (by omega), hshows.byte]
  · rw [hhbm, Hbm.byteAt_accepting_ne _ _ _ hq, hshows.others q hq y hy]

/-- Settles O10: each fetched burst has 64 bytes; a burst that nothing holds back is read as it stands; and whatever the
controller issues to make room shows a reader what it saw before, so that only the accepted write is new. -/
theorem apertureWritesAndReadsBursts : Obligations.ApertureWritesAndReadsBursts := by
  unfold Obligations.ApertureWritesAndReadsBursts
  refine ⟨?_, ?_, ?_⟩
  · intro s off len findings hhost hshut hstopped
    refine ⟨_, exec_apertureRead hhost hshut hstopped rfl, ?_, ?_⟩
    · simp only [List.length_take, List.length_drop, State.apertureFetch_length]
      rcases Nat.eq_zero_or_pos len.val with h0 | hpos
      · omega
      · have := le_burstsOf (s.apertureAddr off.toNat) len.val hpos
        omega
    · dsimp only
      split
      · exact .inr rfl
      · exact .inl rfl
  · intro s off len findings pc x hhost hshut hstopped hlen hin hclean hmap hstate hmark hrow
    have hburst := State.apertureBurst_plain hmap hstate hmark hrow
    have hfetch : State.apertureFetch (burstsOf (s.apertureAddr off.toNat) len.val) (s.apertureAddr off.toNat / 64 * 64) findings s =
        (s, s.hbm.burstAt pc x, false) := by
      rw [burstsOf_one hlen hin, State.apertureFetch, hclean, hburst]
      simp [State.apertureFetch]
    exact exec_apertureRead hhost hshut hstopped hfetch
  · intro s off data findings pc x hhost hshut hstopped hold hdata hin hclean hmap hstate hmark hregion hwhole
    obtain ⟨t, hput, hserves, hbytes, hothers⟩ := State.aperturePut_reads hin hmap hstate hmark hregion hwhole
    refine ⟨t, (exec_apertureWrite hhost hshut hstopped hold hdata hin hclean).trans (by rw [hput]), fun i hi => ?_,
      fun y _ hy => ?_, hothers, hserves.regs, hserves.rest⟩
    · rw [hbytes, if_pos (by omega), Nat.add_sub_cancel_left]
    · rw [hbytes, if_neg (by omega)]

end Sys2Proof.Machine
end

