-- ==== Sys2Proof/Proofs/Frames.lean ====
section
/-! PROOFS. Frames of registers, taken together: how they compose, what they say of flags and latches, and what a raised
event leaves. -/

namespace Sys2Proof.Machine

/-! ### Frames -/

section
variable {s t u : State} {ks js : List Nat}

theorem State.sameRegs_trans (h : s.sameRegs ks t) (k : t.sameRegs ks u) : s.sameRegs ks u :=
  fun g hg => (k g hg).trans (h g hg)

theorem State.sameRegs_mono (h : s.sameRegs ks t) (hks : ks ⊆ js) : s.sameRegs js t :=
  fun g hg => h g (fun hk => hg (hks hk))

/-- An operation with a frame of its own, within a wider one. -/
theorem State.sameRegs_step (h : s.sameRegs js t) (k : t.sameRegs ks u) (hks : ks ⊆ js) : s.sameRegs js u :=
  State.sameRegs_trans h (State.sameRegs_mono k hks)

theorem State.sameRegs_ite {c : Prop} [Decidable c] (ht : s.sameRegs ks t) (hu : s.sameRegs ks u) :
    s.sameRegs ks (if c then t else u) := by
  split
  · exact ht
  · exact hu

theorem State.sameRegs_forEach {α : Type} {l : List α} {f : α → State → State} (h : s.sameRegs ks t)
    (hf : ∀ a ∈ l, ∀ u, s.sameRegs ks u → s.sameRegs ks (f a u)) : s.sameRegs ks (forEach l t f) :=
  List.foldlRecOn (motive := s.sameRegs ks) l _ h (fun u hu a ha => hf a ha u hu)

/-- A loop each of whose steps keeps a cell. -/
theorem forEach_get {α : Type} {l : List α} {f : α → State → State} {g : Fld} (s : State)
    (hf : ∀ a ∈ l, ∀ u, (f a u).get g = u.get g) : (forEach l s f).get g = s.get g :=
  List.foldlRecOn (motive := fun u : State => u.get g = s.get g) l _ rfl (fun u hu a ha => (hf a ha u).trans hu)

theorem State.is_of_sameRegs {f : Fld} (h : s.sameRegs ks t) (hf : f.key ∉ ks) : t.is f = s.is f := by
  rw [State.is, h f hf, State.is]

/-- A latch outside the frame stands as it was. -/
theorem State.latched_of_sameRegs {k : Nat} (h : s.sameRegs ks t) (hk : ∀ x ∈ latches [k], x ∉ ks) :
    t.latched k = s.latched k := by
  unfold State.latched
  cases he : evPlace k with
  | none => rfl
  | some e => exact State.is_of_sameRegs h (hk _ (by simp [latches, he]))

end

/-! ### One write -/

@[simp] theorem State.is_set_same (s : State) (f : Fld) (v : Nat) : (s.set f v).is f = (v % 2 ^ f.width == 1) := by
  rw [State.is, State.get_set_same]

theorem State.is_raise_ne (s : State) (k : Nat) {g : Fld} (hg : g.key ∉ latches [k]) : (s.raise k).is g = s.is g := by
  rw [State.is, s.raise_get_ne k hg, State.is]

theorem State.latched_set_ne (s : State) {f : Fld} {k : Nat} (v : Nat) (hf : f.key ∉ latches [k]) :
    (s.set f v).latched k = s.latched k :=
  State.latched_of_sameRegs (State.sameRegs_set v (s.sameRegs_refl [f.key]) (by simp))
    (fun x hx hk => hf (List.mem_singleton.mp hk ▸ hx))

/-! ### A raised event -/

@[simp] theorem State.raise_now (s : State) (k : Nat) : (s.raise k).now = s.now := by rw [State.raise_eq]
@[simp] theorem State.raise_clk (s : State) (k : Nat) : (s.raise k).clk = s.clk := by rw [State.raise_eq]
@[simp] theorem State.raise_dma (s : State) (k : Nat) : (s.raise k).dma = s.dma := by rw [State.raise_eq]
@[simp] theorem State.raise_mbx (s : State) (k : Nat) : (s.raise k).mbx = s.mbx := by rw [State.raise_eq]
@[simp] theorem State.raise_twn (s : State) (k : Nat) : (s.raise k).twn = s.twn := by rw [State.raise_eq]
@[simp] theorem State.raise_svc (s : State) (k : Nat) : (s.raise k).svc = s.svc := by rw [State.raise_eq]

theorem State.raise_bar4 (s : State) (k : Nat) : (s.raise k).link.bar4 = s.link.bar4 := by
  rw [State.raise_eq]

end Sys2Proof.Machine
end

