-- ==== Sys2Proof/Proofs/LockProcedure.lean ====
section
/-! PROOFS. Lock attempts step by step (R73, R75, R76, R85, R122), and the obligation on them. -/

namespace Sys2Proof.Machine

/-! ### The steps before the last -/

/-- The reference has passed step 1 of a lock (R75). -/
def State.refQualified (s : State) : State :=
  ((s.set CLK_STATUS_REF_OK.one 1).onClk (fun c => { c with refPresent := true, refSeen := true })).bypassSource true

theorem exec_lockStepDone_reference {s : State} {info : LockInfo} (h : s.get CLK_STATUS_STEP.one = 1)
    (hok : info.inTolerance = true) : exec (.lockStepDone info) s = .next (s.refQualified.set CLK_STATUS_STEP.one 2) := by
  simp only [exec, execLockStepDone, h, hok, if_true]
  rfl

theorem exec_lockStepDone_band {s : State} {info : LockInfo} (h : s.get CLK_STATUS_STEP.one = 2) (hok : info.bandFound = true) :
    exec (.lockStepDone info) s = .next ((s.set CLK_STATUS_BAND.one info.band.val).set CLK_STATUS_STEP.one 3) := by
  simp only [exec, execLockStepDone, h, hok, if_true]

theorem exec_lockStepDone_tuned {s : State} (info : LockInfo) (hlo : 3 ≤ s.get CLK_STATUS_STEP.one)
    (hhi : s.get CLK_STATUS_STEP.one ≤ 5) : exec (.lockStepDone info) s =
      .next ((s.set CLK_TUNE.one info.word.toNat).set CLK_STATUS_STEP.one (s.get CLK_STATUS_STEP.one + 1)) := by
  obtain h | h | h : s.get CLK_STATUS_STEP.one = 3 ∨ s.get CLK_STATUS_STEP.one = 4 ∨ s.get CLK_STATUS_STEP.one = 5 := by omega
  all_goals simp only [exec, execLockStepDone, h]

theorem exec_lockStepDone_locks {s : State} (info : LockInfo) (h : s.get CLK_STATUS_STEP.one = 6) :
    exec (.lockStepDone info) s = .next (s.lockDone info.micros.toNat info.sinceEdge.toNat) := by
  simp only [exec, execLockStepDone, h]

/-- Outside the steps of a lock LOCK_STEP_DONE changes nothing. -/
theorem exec_lockStepDone_idle {s : State} (info : LockInfo)
    (h : s.get CLK_STATUS_STEP.one = 0 ∨ 7 ≤ s.get CLK_STATUS_STEP.one) : exec (.lockStepDone info) s = .next s := by
  simp only [exec, execLockStepDone]
  split
  case h_7 => rfl
  all_goals omega

theorem State.refQualified_is (s : State) {f : Fld} (h : f.key ≠ CLK_STATUS_FALLBACK.one.key) :
    s.refQualified.is f = (s.set CLK_STATUS_REF_OK.one 1).is f := State.is_set_ne _ _ h

/-- R75: the steps 1 to 5. -/
theorem lockStepDone_advances (s : State) (info : LockInfo) (hlo : 1 ≤ s.get CLK_STATUS_STEP.one)
    (hhi : s.get CLK_STATUS_STEP.one ≤ 5) (href : s.get CLK_STATUS_STEP.one = 1 → info.inTolerance = true)
    (hband : s.get CLK_STATUS_STEP.one = 2 → info.bandFound = true) :
    ∃ t, exec (.lockStepDone info) s = .next t ∧ t.get CLK_STATUS_STEP.one = s.get CLK_STATUS_STEP.one + 1 ∧
      t.is CLK_STATUS_LOCKED.one = s.is CLK_STATUS_LOCKED.one ∧
      (s.get CLK_STATUS_STEP.one = 1 → t.is CLK_STATUS_REF_OK.one = true ∧ t.clk.refPresent = true ∧ t.clk.refSeen = true) ∧
      (s.get CLK_STATUS_STEP.one = 2 → t.get CLK_STATUS_BAND.one = info.band.val) ∧
      (3 ≤ s.get CLK_STATUS_STEP.one → t.get CLK_TUNE.one = info.word.toNat) ∧
      t = { s with regs := t.regs, clk := t.clk } := by
  rcases (by omega : s.get CLK_STATUS_STEP.one = 1 ∨ s.get CLK_STATUS_STEP.one = 2 ∨ 3 ≤ s.get CLK_STATUS_STEP.one)
    with h | h | h
  · refine ⟨_, exec_lockStepDone_reference h (href h), by rw [State.get_set_same, h]; rfl, ?_, fun _ => ⟨?_, rfl, rfl⟩,
      by omega, by omega, rfl⟩
    · rw [State.is_set_ne _ _ (by decide), State.refQualified_is _ (by decide), State.is_set_ne _ _ (by decide)]
    · rw [State.is_set_ne _ _ (by decide), State.refQualified_is _ (by decide), State.is_set_same]
      rfl
  · refine ⟨_, exec_lockStepDone_band h (hband h), by rw [State.get_set_same, h]; rfl, ?_, by omega, fun _ => ?_, by omega, rfl⟩
    · rw [State.is_set_ne _ _ (by decide), State.is_set_ne _ _ (by decide)]
    · rw [State.get_set_ne _ _ (by decide), State.get_set_same]
      exact Nat.mod_eq_of_lt info.band.isLt
  · refine ⟨_, exec_lockStepDone_tuned info h hhi, ?_, ?_, by omega, by omega, fun _ => ?_, rfl⟩
    · rw [State.get_set_same]
      exact Nat.mod_eq_of_lt (show s.get CLK_STATUS_STEP.one + 1 < 16 by omega)
    · rw [State.is_set_ne _ _ (by decide), State.is_set_ne _ _ (by decide)]
    · rw [State.get_set_ne _ _ (by decide), State.get_set_same]
      exact Nat.mod_eq_of_lt info.word.isLt

/-! ### A lock that fails, and its retry (R76) -/

/-- The cells that a failed lock writes. -/
def failCells : List Nat := [CLK_STATUS_STEP.one, CLK_STATUS_SEARCHING.one].map Fld.key ++ latches [7]

theorem State.lockFail_shows (s : State) : s.lockFail.get CLK_STATUS_STEP.one = 7 ∧
    s.lockFail.is CLK_STATUS_SEARCHING.one = false ∧ s.lockFail.latched 7 = true := by
  refine ⟨?_, ?_, State.raise_latched _ 7 rfl⟩
  · rw [State.lockFail, State.raise_get_ne _ _ (by decide), State.get_set_same]
    rfl
  · rw [State.lockFail, State.is_raise_ne _ _ (by decide), State.is_set_ne _ _ (by decide), State.is_set_same]
    rfl

theorem State.lockFail_frame (s : State) : s.sameRegs failCells s.lockFail ∧ s.sameButRegs s.lockFail :=
  ⟨State.sameRegs_raise 7 (State.sameRegs_set _ (State.sameRegs_set _ (s.sameRegs_refl _) (by simp [failCells]))
      (by simp [failCells])) (fun _ hx => List.mem_append_right _ hx),
    State.sameButRegs_raise 7 (State.sameButRegs_set _ _ (State.sameButRegs_set _ _ s.sameButRegs_refl))⟩

/-- Which oscillator bypass runs from shows in registers alone. -/
theorem State.sameButRegs_bypassSource {s t : State} (ref : Bool) (h : s.sameButRegs t) :
    s.sameButRegs (t.bypassSource ref) := by
  unfold State.bypassSource
  dsimp only
  split
  · exact State.sameButRegs_set _ _ (State.sameButRegs_set _ _ h)
  · exact State.sameButRegs_set _ _ h

/-- A reference out of tolerance, or a search without a band, fails the lock. -/
theorem lockStepDone_fails (s : State) (info : LockInfo) (h : s.get CLK_STATUS_STEP.one = 1 ∧ info.inTolerance = false ∨
      s.get CLK_STATUS_STEP.one = 2 ∧ info.bandFound = false) :
    ∃ t, exec (.lockStepDone info) s = .next t ∧ t.get CLK_STATUS_STEP.one = 7 ∧ t.is CLK_STATUS_SEARCHING.one = false ∧
      t.latched 7 = true ∧ s.sameButRegs t := by
  obtain ⟨u, hu, hexec⟩ : ∃ u : State, s.sameButRegs u ∧ exec (.lockStepDone info) s = .next u.lockFail := by
    rcases h with ⟨hstep, hbad⟩ | ⟨hstep, hbad⟩
    · refine ⟨_, State.sameButRegs_bypassSource s.clk.refPresent
        (State.sameButRegs_set CLK_STATUS_REF_OK.one 0 s.sameButRegs_refl), ?_⟩
      simp [exec, execLockStepDone, hstep, hbad]
    · exact ⟨s, s.sameButRegs_refl, by simp [exec, execLockStepDone, hstep, hbad]⟩
  obtain ⟨hstep, hsearch, hlatch⟩ := u.lockFail_shows
  exact ⟨_, hexec, hstep, hsearch, hlatch, State.sameButRegs_raise 7 (State.sameButRegs_set _ _ (State.sameButRegs_set _ _ hu))⟩

/-- What the start of an attempt shows (R75, R122). -/
theorem State.lockStart_shows (s : State) : s.lockStart.get CLK_STATUS_STEP.one = 1 ∧
    s.lockStart.is CLK_STATUS_SEARCHING.one = true ∧ s.lockStart.is FEG_STATUS_CAL_DONE.one = false := by
  refine ⟨?_, ?_, ?_⟩ <;> simp (disch := decide) only [State.lockStart, State.onClk_get, State.onClk_is, State.get_set_ne,
    State.is_set_ne, State.get_set_same, State.is_set_same]
  all_goals rfl

/-- The cells that the start of an attempt writes. -/
def startCells : List Nat := [CLK_STATUS_STEP.one, CLK_STATUS_SEARCHING.one, FEG_STATUS_CAL_DONE.one].map Fld.key

theorem State.lockStart_frame (s : State) : s.sameRegs startCells s.lockStart := by
  have hregs : s.sameRegs startCells (((s.set CLK_STATUS_STEP.one 1).set CLK_STATUS_SEARCHING.one 1).set FEG_STATUS_CAL_DONE.one 0) :=
    State.sameRegs_set 0 (State.sameRegs_set 1 (State.sameRegs_set 1 (s.sameRegs_refl _) (by simp [startCells]))
      (by simp [startCells])) (by simp [startCells])
  exact State.sameRegs_of_regs hregs rfl

theorem lockRetry_starts {s : State} (hstep : s.get CLK_STATUS_STEP.one = 7) (hauto : s.is CLK_CTRL_AUTO_RELOCK.one = true)
    (hms : s.get CLK_CTRL_RETRY_MS.one ≠ 0) : exec .lockRetry s = .next s.lockStart := if_pos ⟨hstep, hauto, hms⟩

theorem lockRetry_waits {s : State} (h : s.get CLK_STATUS_STEP.one ≠ 7 ∨ s.is CLK_CTRL_AUTO_RELOCK.one = false ∨
    s.get CLK_CTRL_RETRY_MS.one = 0) : exec .lockRetry s = .next s := by
  refine if_neg ?_
  rintro ⟨hstep, hauto, hms⟩
  rcases h with h | h | h
  · exact h hstep
  · simp [h] at hauto
  · exact hms h

/-! ### The lock (R73, R75, R85, R286) -/

/-- What starting the HBM again shows lies on the HBM's own pages. -/
theorem State.hbmRestarts_get (s : State) {g : Fld} (hg : g.placed = true) (hp : g.page < 0x180) :
    s.hbmRestarts.get g = s.get g := by
  have hset : ∀ (u : State) (f : Fld) (v : Nat), 0x180 ≤ f.page → (u.set f v).get g = u.get g :=
    fun u f v hf => u.get_set_ne v (Fld.key_ne_of_page_lt hg (by omega))
  have hleave : ∀ u : State, u.leaveSelfRefresh.get g = u.get g := fun u => forEach_get u (fun pc _ u => by
    split
    · exact hset _ _ _ (Nat.le_add_right 0x180 _)
    · rfl)
  have hstacks : ∀ u : State, (u.stackStates 1).get g = u.get g := fun u => forEach_get u (fun k _ u => by
    split
    · rfl
    · exact hset _ _ _ (Nat.le_add_right 0x180 _))
  unfold State.hbmRestarts
  extract_lets s0 s1
  have h0 : s0.get g = s.get g := hset _ _ _ (by decide)
  have h1 : s1.get g = s.get g := by
    unfold s1
    split
    · exact h0
    · exact (hleave s0).trans h0
  split
  · exact (hstacks s1).trans h1
  · exact h1

theorem State.OnlyRegs.sameButRegs {s t : State} (h : s.OnlyRegs t) : s.sameButRegs t := by
  obtain ⟨regs, rfl⟩ := h
  exact ⟨rfl, rfl⟩

theorem State.hbmRestarts_onlyRegs (s : State) : s.OnlyRegs s.hbmRestarts := by
  have hleave : ∀ u : State, s.OnlyRegs u → s.OnlyRegs u.leaveSelfRefresh :=
    fun u hu => hu.forEach (fun _ _ h => .ite (h.set _ _) h)
  have h0 : s.OnlyRegs (s.set HBM_G_STATUS_STOPPED.one 0) := (OnlyRegs.refl s).set _ _
  unfold State.hbmRestarts
  extract_lets s0 s1
  have h1 : s.OnlyRegs s1 := .ite h0 (hleave s0 h0)
  exact .ite (h1.forEach (fun _ _ h => .ite h (h.set _ _))) h1

/-- The registers of a lock, before the timebase is set and the dividers follow. -/
def State.lockShown (s : State) (micros : Nat) : State :=
  let s1 := (((s.hbmRestarts.set CLK_STATUS_STEP.one 0).set CLK_STATUS_SEARCHING.one 0).set CLK_STATUS_LOCKED.one 1).set
    CLK_STATUS_BYPASS.one 0
  (((s1.set CLK_STATUS_FALLBACK.one 0).set CLK_STATUS_HOLDOVER.one 0).set CLK_LOCK_TIME.one micros).raise 6

/-- The timebase becomes valid at the first lock: its origin lies `sinceEdge` ticks back (R85). -/
def State.timebaseBegins (s : State) (sinceEdge : Nat) : State :=
  if s.is TIME_STATUS_VALID.one then s
  else ((s.set TIME_STATUS_VALID.one 1).timeLoaded sinceEdge).onClk (fun c => { c with origin := 0 })

/-- Frames, snapshots and alarms start again under the clocks of the lock. -/
def State.clocksFollow (s : State) : State :=
  ((s.onClk (fun c => { c with firstLock := true })).reframe).snapsAnew.alarmsCatchUp

theorem State.lockDone_eq (s : State) (micros sinceEdge : Nat) : s.lockDone micros sinceEdge =
    ((s.lockShown micros).timebaseBegins sinceEdge).clocksFollow.dividers.calStart := rfl

theorem State.lockShown_shows (s : State) {micros : Nat} (hm : micros < 2 ^ 32) :
    (s.lockShown micros).is CLK_STATUS_LOCKED.one = true ∧ (s.lockShown micros).is CLK_STATUS_BYPASS.one = false ∧
      (s.lockShown micros).get CLK_STATUS_STEP.one = 0 ∧ (s.lockShown micros).is CLK_STATUS_SEARCHING.one = false ∧
      (s.lockShown micros).latched 6 = true ∧ (s.lockShown micros).get CLK_LOCK_TIME.one = micros ∧
      (s.lockShown micros).is TIME_STATUS_VALID.one = s.is TIME_STATUS_VALID.one ∧ s.sameButRegs (s.lockShown micros) := by
  have hvalid : s.hbmRestarts.is TIME_STATUS_VALID.one = s.is TIME_STATUS_VALID.one := by
    rw [State.is, s.hbmRestarts_get rfl (by decide), State.is]
  refine ⟨?_, ?_, ?_, ?_, State.raise_latched _ 6 rfl, ?_, ?_, ?_⟩
  · simp (disch := decide) only [State.lockShown, State.is_raise_ne, State.is_set_ne, State.is_set_same]
    rfl
  · simp (disch := decide) only [State.lockShown, State.is_raise_ne, State.is_set_ne, State.is_set_same]
    rfl
  · simp (disch := decide) only [State.lockShown, State.raise_get_ne, State.get_set_ne, State.get_set_same]
    rfl
  · simp (disch := decide) only [State.lockShown, State.is_raise_ne, State.is_set_ne, State.is_set_same]
    rfl
  · simp (disch := decide) only [State.lockShown, State.raise_get_ne, State.get_set_same]
    exact Nat.mod_eq_of_lt hm
  · simp (disch := decide) only [State.lockShown, State.is_raise_ne, State.is_set_ne, hvalid]
  · exact State.sameButRegs_raise 6 (State.sameButRegs_set _ _ (State.sameButRegs_set _ _ (State.sameButRegs_set _ _
      (State.sameButRegs_set _ _ (State.sameButRegs_set _ _ (State.sameButRegs_set _ _ (State.sameButRegs_set _ _
        s.hbmRestarts_onlyRegs.sameButRegs)))))))

/-- A loop whose steps change the alarms alone. -/
theorem forEach_alarms {α : Type} (l : List α) (f : α → State → State) (s : State)
    (hf : ∀ a u, ∃ alarms, f a u = u.onClk (fun c => { c with alarms := alarms })) :
    ∃ alarms, forEach l s f = s.onClk (fun c => { c with alarms := alarms }) := by
  unfold forEach
  induction l generalizing s with
  | nil => exact ⟨s.clk.alarms, rfl⟩
  | cons a l ih =>
    obtain ⟨first, hfirst⟩ := hf a s
    obtain ⟨alarms, hrest⟩ := ih (f a s)
    refine ⟨alarms, ?_⟩
    rw [List.foldl_cons, hrest, hfirst]
    rfl

theorem State.alarmsCatchUp_eq (s : State) : ∃ alarms, s.alarmsCatchUp = s.onClk (fun c => { c with alarms := alarms }) :=
  forEach_alarms _ _ s (fun _ _ => ⟨_, rfl⟩)

theorem State.clocksFollow_eq (s : State) : ∃ clk, s.clocksFollow = { s with clk := clk } ∧ clk.origin = s.clk.origin := by
  obtain ⟨alarms, h⟩ := State.alarmsCatchUp_eq ((s.onClk (fun c => { c with firstLock := true })).reframe).snapsAnew
  exact ⟨_, h, rfl⟩

/-- The cells that the dividers and the calibration of a lock write. -/
def dividerCells : List Nat :=
  [CLK_DIV_ACTIVE_PCLK_DIV.one, CLK_DIV_ACTIVE_CCLK_DIV.one, CLK_DIV_APPLY.one].map Fld.key ++ latches [10]

theorem State.dividers_frame (s : State) : s.sameRegs dividerCells s.dividers ∧ s.sameButRegs s.dividers := by
  unfold State.dividers
  split
  · exact ⟨State.sameRegs_raise 10 (State.sameRegs_set _ (State.sameRegs_set _ (State.sameRegs_set _ (s.sameRegs_refl _)
        (by simp [dividerCells])) (by simp [dividerCells])) (by simp [dividerCells])) (fun _ hx => List.mem_append_right _ hx),
      State.sameButRegs_raise 10 (State.sameButRegs_set _ _ (State.sameButRegs_set _ _ (State.sameButRegs_set _ _
        s.sameButRegs_refl)))⟩
  · exact ⟨s.sameRegs_refl _, s.sameButRegs_refl⟩

/-- The cells that a calibration's start writes. -/
def calCells : List Nat := [FEG_STATUS_CAL_BUSY.one, FEG_CAL_CMD.one].map Fld.key

theorem State.calStart_frame (s : State) : s.sameRegs calCells s.calStart :=
  State.sameRegs_set _ (State.sameRegs_set _ (s.sameRegs_refl _) (by simp [calCells])) (by simp [calCells])

theorem State.calStart_shows (s : State) : s.calStart.is FEG_STATUS_CAL_BUSY.one = true ∧ s.calStart.is FEG_CAL_CMD.one = false := by
  constructor
  · rw [State.calStart, State.is_set_ne _ _ (by decide), State.is_set_same]
    rfl
  · rw [State.calStart, State.is_set_same]
    rfl

/-- What follows the timebase of a lock: dividers and calibration, in registers and messages alone. -/
theorem State.lockFinish_frame (s : State) : s.sameRegs (dividerCells ++ calCells) s.dividers.calStart ∧
    s.sameButRegs s.dividers.calStart :=
  ⟨State.sameRegs_step (State.sameRegs_mono s.dividers_frame.1 (List.subset_append_left _ _)) s.dividers.calStart_frame
      (List.subset_append_right _ _),
    State.sameButRegs_set _ _ (State.sameButRegs_set _ _ s.dividers_frame.2)⟩

/-- The timebase at the first lock, and at a later one. -/
theorem State.timebaseBegins_time (s : State) (sinceEdge : Nat) :
    (s.timebaseBegins sinceEdge).is TIME_STATUS_VALID.one = true ∧
    (s.is TIME_STATUS_VALID.one = false →
      (s.timebaseBegins sinceEdge).now = sinceEdge ∧ (s.timebaseBegins sinceEdge).clk.origin = 0) ∧
    (s.is TIME_STATUS_VALID.one = true → (s.timebaseBegins sinceEdge).now = s.now) ∧
    s.sameRegs [TIME_STATUS_VALID.one.key] (s.timebaseBegins sinceEdge) ∧
    ∃ regs now clk, s.timebaseBegins sinceEdge = { s with
      regs := regs, now := now, clk := clk, mbx := { s.mbx with kickAt := s.mbx.kickAt + (now : Int) - (s.now : Int) } } := by
  unfold State.timebaseBegins
  split
  · next h =>
    refine ⟨h, by simp [h], fun _ => rfl, s.sameRegs_refl _, s.regs, s.now, s.clk, ?_⟩
    rw [Int.add_sub_cancel]
  · next h =>
    have hset : s.sameRegs [TIME_STATUS_VALID.one.key] (s.set TIME_STATUS_VALID.one 1) :=
      State.sameRegs_set 1 (s.sameRegs_refl _) (by simp)
    refine ⟨?_, fun _ => ⟨rfl, rfl⟩, fun h' => absurd h' h, State.sameRegs_of_regs hset rfl, _, _, _, rfl⟩
    exact (s.is_set_same TIME_STATUS_VALID.one 1 : _)

/-- R73, R75, R85: the lock. -/
theorem lockStepDone_locks (s : State) (info : LockInfo) (h : s.get CLK_STATUS_STEP.one = 6) :
    ∃ t, exec (.lockStepDone info) s = .next t ∧ t.locked = true ∧ t.onBypass = false ∧ t.get CLK_STATUS_STEP.one = 0 ∧
      t.is CLK_STATUS_SEARCHING.one = false ∧ t.latched 6 = true ∧ t.is FEG_STATUS_CAL_BUSY.one = true ∧
      t.get CLK_LOCK_TIME.one = info.micros.toNat ∧ t.is TIME_STATUS_VALID.one = true ∧
      (s.is TIME_STATUS_VALID.one = false → t.now = info.sinceEdge.toNat ∧ t.clk.origin = 0) ∧
      (s.is TIME_STATUS_VALID.one = true → t.now = s.now) ∧
      ({ s with now := t.now, clk := t.clk
                mbx := { s.mbx with kickAt := s.mbx.kickAt + (t.now : Int) - (s.now : Int) } } : State).sameButRegs t := by
  obtain ⟨hlocked, hbypass, hstep, hsearch, hlatch, hmicros, hvalid, hrest, hlink⟩ := s.lockShown_shows info.micros.isLt
  refine ⟨_, exec_lockStepDone_locks info h, ?_⟩
  rw [State.lockDone_eq]
  generalize s.lockShown info.micros.toNat = a at *
  obtain ⟨bvalid, bfirst, bagain, bregs, regs, now, clk, hb⟩ := a.timebaseBegins_time info.sinceEdge.toNat
  generalize a.timebaseBegins info.sinceEdge.toNat = b at *
  obtain ⟨clk', hc, horigin⟩ := b.clocksFollow_eq
  generalize b.clocksFollow = c at *
  have cregs : a.sameRegs [TIME_STATUS_VALID.one.key] c := State.sameRegs_of_regs bregs (by rw [hc])
  obtain ⟨dregs, drest, dlink⟩ := c.lockFinish_frame
  have hbusy := (c.dividers.calStart_shows).1
  generalize c.dividers.calStart = d at *
  have hregs := State.sameRegs_step (State.sameRegs_mono cregs (List.subset_append_left _ _)) dregs (List.subset_append_right _ _)
  have hnow : d.now = b.now ∧ d.clk = clk' := by rw [drest, hc]; exact ⟨rfl, rfl⟩
  have hanow : a.now = s.now := by rw [hrest]
  refine ⟨(State.is_of_sameRegs hregs (by decide)).trans hlocked, (State.is_of_sameRegs hregs (by decide)).trans hbypass,
    (hregs _ (by decide)).trans hstep, (State.is_of_sameRegs hregs (by decide)).trans hsearch,
    (State.latched_of_sameRegs hregs (by decide)).trans hlatch, hbusy, (hregs _ (by decide)).trans hmicros, ?_, ?_, ?_, ?_, ?_⟩
  · have hkept : c.is TIME_STATUS_VALID.one = b.is TIME_STATUS_VALID.one := by rw [hc]; rfl
    exact (State.is_of_sameRegs dregs (by decide)).trans (hkept.trans bvalid)
  · intro hv
    obtain ⟨hsince, hzero⟩ := bfirst (hvalid.trans hv)
    exact ⟨hnow.1.trans hsince, by rw [hnow.2, horigin, hzero]⟩
  · intro hv
    exact hnow.1.trans ((bagain (hvalid.trans hv)).trans hanow)
  · rw [drest, hc, hb, hrest]
  · rw [hc, hb] at dlink
    unfold Link.sameButMessages at *
    rw [dlink, hlink]

/-- Settles O11: one lemma a step; a failed attempt, its retry and the lock each write the cells that their lemmas list. -/
theorem lockProcedureMovesStepByStep : Obligations.LockProcedureMovesStepByStep := by
  refine ⟨lockStepDone_advances, fun _ info => exec_lockStepDone_idle info, lockStepDone_locks, lockStepDone_fails, ?_,
    fun s h => if_neg (by simp [h]), fun _ => lockRetry_waits, ?_⟩
  · intro s hsearching
    obtain ⟨hstep, hsearch, hlatch⟩ := s.lockFail_shows
    obtain ⟨hregs, hrest⟩ := s.lockFail_frame
    exact ⟨_, if_pos hsearching, hstep, hsearch, hlatch, hregs, hrest⟩
  · intro s hstep hauto hms
    obtain ⟨hone, hsearch, hcal⟩ := s.lockStart_shows
    exact ⟨_, lockRetry_starts hstep hauto hms, hone, hsearch, hcal, s.lockStart_frame, rfl⟩

end Sys2Proof.Machine
end

