-- ==== Sys2Proof/Proofs/ClockLosses.lean ====
section
/-! PROOFS. Losses of lock and of the reference (R79 to R81, R84, R102, R104): holdover, the orderly close, the reference's
return, the quality report; and the obligation on them. -/

namespace Sys2Proof.Machine

/-! ### What a close writes (R78, R81, R224) -/

/-- The cells that the interruption of the sessions writes. -/
def interruptCells : List Nat :=
  (upto 8).map (fun n => (WR_SESSION_STATUS_STATE.elt n).key) ++ [WR_ACTIVE.one, PWR_STATUS_STATE.one].map Fld.key ++
    latches (20 :: (upto 8).map (266 + ·))

theorem State.twinFault_regs (s : State) : s.twinFault.regs = s.regs := by
  unfold State.twinFault State.twinSend State.twinSendAt
  repeat' split
  all_goals rfl

theorem latches_sub {k : Nat} {ks js : List Nat} (hk : k ∈ ks) (hjs : latches ks ⊆ js) : ∀ x ∈ latches [k], x ∈ js :=
  fun x hx => hjs (latches_subset hk x hx)

section
variable {s t : State}

/-- A change of PWR_STATUS.STATE within a frame that lists it and EV_020. -/
theorem State.sameRegs_putPower {ks : List Nat} (v : Nat) (h : s.sameRegs ks t) (hstate : PWR_STATUS_STATE.one.key ∈ ks)
    (hlatch : latches [20] ⊆ ks) : s.sameRegs ks (t.putPower v) :=
  State.sameRegs_ite h (State.sameRegs_raise 20 (State.sameRegs_set v h hstate) (fun _ hx => hlatch hx))

theorem State.sameRegs_putSess {n : Nat} (v : Nat) (h : s.sameRegs interruptCells t) (hn : n < 8) :
    s.sameRegs interruptCells (t.putSess n v) := by
  have hsess : (WR_SESSION_STATUS_STATE.elt n).key ∈ interruptCells :=
    List.mem_append_left _ (List.mem_append_left _ (List.mem_map_of_mem (List.mem_range.mpr hn)))
  have hlatches : latches (20 :: (upto 8).map (266 + ·)) ⊆ interruptCells := List.subset_append_right _ _
  have hevent : 266 + n ∈ 20 :: (upto 8).map (266 + ·) :=
    List.mem_cons_of_mem _ (List.mem_map_of_mem (List.mem_range.mpr hn))
  have hraised := State.sameRegs_raise (266 + n) (State.sameRegs_set (f := WR_ACTIVE.one)
    (setField ((t.set (WR_SESSION_STATUS_STATE.elt n) v).get WR_ACTIVE.one) n 1 (flag (v == 3 || v == 4)))
    (State.sameRegs_set v h hsess) (by simp [interruptCells])) (latches_sub hevent hlatches)
  exact State.sameRegs_ite h (State.sameRegs_ite hraised (State.sameRegs_putPower _ hraised (by simp [interruptCells])
    (fun x hx => latches_sub (List.mem_cons_self ..) hlatches x hx)))

/-- Interrupted by a loss of the clocks (cause 1), a session changes only what its state shows. -/
theorem State.sameRegs_interrupt {n : Nat} (h : s.sameRegs interruptCells t) (hn : n < 8) :
    s.sameRegs interruptCells (t.interrupt n 1) := by
  unfold State.interrupt
  extract_lets st
  refine State.sameRegs_ite ?_ (State.sameRegs_ite ?_ h)
  · exact State.sameRegs_of_regs (State.sameRegs_putSess 4 h hn) (State.twinFault_regs _)
  · split
    · exact h
    · exact h

end

theorem State.interruptAll_frame (s : State) : s.sameRegs interruptCells (s.interruptAll 1) :=
  State.sameRegs_forEach (s.sameRegs_refl _) (fun _ hn _ h => State.sameRegs_interrupt h (List.mem_range.mp hn))

theorem State.interruptAll_time (s : State) (cause : Nat) :
    (s.interruptAll cause).now = s.now ∧ (s.interruptAll cause).clk = s.clk :=
  (Evolves.refl false true s).interruptAll.time rfl

/-- The cells that the start of a close writes. -/
def closeCells : List Nat :=
  [CLK_STATUS_LOCKED.one, TIME_STATUS_ARMED.one, HBM_G_STATUS_STOPPED.one].map Fld.key ++ interruptCells

/-- What the start of a close shows (R81, R286). -/
theorem State.closeStart_shows (s : State) (why : CloseWhy) : (s.closeStart why).locked = false ∧
    (s.closeStart why).is TIME_STATUS_ARMED.one = false ∧ (s.closeStart why).is HBM_G_STATUS_STOPPED.one = true ∧
    (s.closeStart why).clk = { s.clk with closing := some why } ∧ (s.closeStart why).now = s.now ∧
    s.sameRegs closeCells (s.closeStart why) := by
  unfold State.closeStart
  extract_lets s1
  obtain ⟨hnow, hclk⟩ := (s1.onClk (fun c => { c with closing := some why })).interruptAll_time 1
  have hregs := (s1.onClk (fun c => { c with closing := some why })).interruptAll_frame
  have h1 : s.sameRegs closeCells (s1.onClk (fun c => { c with closing := some why })) :=
    State.sameRegs_of_regs (State.sameRegs_set 1 (State.sameRegs_set 0 (State.sameRegs_set 0 (s.sameRegs_refl _)
      (by simp [closeCells])) (by simp [closeCells])) (by simp [closeCells])) (rfl : _ = s1.regs)
  refine ⟨?_, ?_, ?_, hclk, hnow, State.sameRegs_step h1 hregs (List.subset_append_right _ _)⟩
  · rw [State.locked, State.is_of_sameRegs hregs (by decide), State.onClk_is]
    simp (disch := decide) only [s1, State.is_set_ne, State.is_set_same]
    rfl
  · rw [State.is_of_sameRegs hregs (by decide), State.onClk_is]
    simp (disch := decide) only [s1, State.is_set_ne, State.is_set_same]
    rfl
  · rw [State.is_of_sameRegs hregs (by decide), State.onClk_is, State.is_set_same]
    rfl

/-! ### Holdover (R80) -/

/-- The cells that the start of holdover writes. -/
def holdoverCells : List Nat := [CLK_STATUS_HOLDOVER.one, CLK_TUNE.one].map Fld.key ++ closeCells

theorem State.holdover_shows (s : State) (why : CloseWhy) (age : Nat) {word : Nat} (hw : word < 2 ^ 24) :
    (s.holdover why age word).inHoldover = true ∧ (s.holdover why age word).locked = false ∧
    (s.holdover why age word).get CLK_TUNE.one = word ∧ (s.holdover why age word).is TIME_STATUS_ARMED.one = false ∧
    (s.holdover why age word).is HBM_G_STATUS_STOPPED.one = true ∧ (s.holdover why age word).clk.closing = some why ∧
    (s.holdover why age word).clk.refPresent = s.clk.refPresent ∧ (s.holdover why age word).now = s.now ∧
    s.sameRegs holdoverCells (s.holdover why age word) := by
  unfold State.holdover
  extract_lets s1
  obtain ⟨hlocked, harmed, hstopped, hclk, hnow, hregs⟩ := s1.closeStart_shows why
  have hholdover : s1.is CLK_STATUS_HOLDOVER.one = true := by
    simp (disch := decide) only [s1, State.onClk_is, State.is_set_ne, State.is_set_same]
    rfl
  have htune : s1.get CLK_TUNE.one = word := (s.set CLK_STATUS_HOLDOVER.one 1).get_set_same CLK_TUNE.one word |>.trans
    (Nat.mod_eq_of_lt hw)
  have h1 : s.sameRegs holdoverCells s1 := State.sameRegs_of_regs (State.sameRegs_set word (State.sameRegs_set 1 (s.sameRegs_refl _)
    (by simp [holdoverCells])) (by simp [holdoverCells]))
    (rfl : s1.regs = ((s.set CLK_STATUS_HOLDOVER.one 1).set CLK_TUNE.one word).regs)
  refine ⟨(State.is_of_sameRegs hregs (by decide)).trans hholdover, hlocked, (hregs _ (by decide)).trans htune, harmed, hstopped,
    ?_, ?_, hnow, State.sameRegs_step h1 hregs (List.subset_append_right _ _)⟩
  · rw [hclk]
  · rw [hclk]
    rfl

theorem State.logFault_frame (s : State) (event page outcome detail : Nat) :
    s.sameRegs (SWT_FAULTS.one.key :: latches [479]) (s.logFault event page outcome detail) ∧
      (s.logFault event page outcome detail).now = s.now ∧ (s.logFault event page outcome detail).clk = s.clk := by
  refine ⟨?_, by simp [State.logFault], by simp [State.logFault]⟩
  exact State.sameRegs_raise 479 (State.sameRegs_set (f := SWT_FAULTS.one) _ (State.sameRegs_of_regs (s.sameRegs_refl _) rfl) (by simp))
    (fun _ hx => List.mem_cons_of_mem _ hx)

theorem State.twinFault_time (s : State) : s.twinFault.now = s.now ∧ s.twinFault.clk = s.clk :=
  (Evolves.refl false true s).twinFault.time rfl

/-- Where a loss ends: holdover, told to the pair. -/
theorem State.holdoverTold_shows (s : State) (why : CloseWhy) (age : Nat) {word : Nat} (hw : word < 2 ^ 24) :
    (s.holdover why age word).twinFault.inHoldover = true ∧ (s.holdover why age word).twinFault.locked = false ∧
    (s.holdover why age word).twinFault.get CLK_TUNE.one = word ∧
    (s.holdover why age word).twinFault.is TIME_STATUS_ARMED.one = false ∧
    (s.holdover why age word).twinFault.is HBM_G_STATUS_STOPPED.one = true ∧
    (s.holdover why age word).twinFault.clk.closing = some why ∧
    (s.holdover why age word).twinFault.clk.refPresent = s.clk.refPresent ∧ (s.holdover why age word).twinFault.now = s.now ∧
    s.sameRegs holdoverCells (s.holdover why age word).twinFault := by
  obtain ⟨hhold, hlocked, htune, harmed, hstopped, hclosing, hpresent, hnow, hregs⟩ := s.holdover_shows why age hw
  obtain ⟨know, kclk⟩ := (s.holdover why age word).twinFault_time
  have hread : (s.holdover why age word).sameRegs [] (s.holdover why age word).twinFault :=
    State.sameRegs_of_regs (State.sameRegs_refl _ _) (State.twinFault_regs _)
  refine ⟨(State.is_of_sameRegs hread (by simp)).trans hhold, (State.is_of_sameRegs hread (by simp)).trans hlocked,
    (hread _ (by simp)).trans htune, (State.is_of_sameRegs hread (by simp)).trans harmed,
    (State.is_of_sameRegs hread (by simp)).trans hstopped, by rw [kclk, hclosing], by rw [kclk, hpresent], know.trans hnow,
    State.sameRegs_of_regs hregs (State.twinFault_regs _)⟩

/-! ### Loss of lock (R79) -/

/-- A loss of lock has been counted, stamped and logged. -/
def State.lockLossNoted (s : State) : State :=
  (((s.addSat CLK_LOSS_COUNT_LOCK_LOSSES.one 1).set CLK_LAST_LOSS.one s.stamp).raise 4).logFault 4 (PageClass.page .clk 0) 1 0

theorem State.lockLossNoted_shows (s : State) : s.lockLossNoted.get CLK_LAST_LOSS.one = s.stamp ∧
    s.lockLossNoted.get CLK_LOSS_COUNT_LOCK_LOSSES.one = min (s.get CLK_LOSS_COUNT_LOCK_LOSSES.one + 1) 65535 ∧
    s.lockLossNoted.now = s.now := by
  unfold State.lockLossNoted
  obtain ⟨hregs, hnow, -⟩ := State.logFault_frame
    (((s.addSat CLK_LOSS_COUNT_LOCK_LOSSES.one 1).set CLK_LAST_LOSS.one s.stamp).raise 4) 4 (PageClass.page .clk 0) 1 0
  refine ⟨?_, ?_, by rw [hnow, State.raise_now]; rfl⟩
  · rw [hregs _ (by decide), State.raise_get_ne _ _ (by decide), State.get_set_same]
    exact Nat.mod_eq_of_lt (Nat.mod_lt _ (by decide))
  · rw [hregs _ (by decide), State.raise_get_ne _ _ (by decide), State.get_set_ne _ _ (by decide), State.get_addSat_same]
    rfl

theorem exec_lockLoss {s : State} (age : DWord) (word : BitVec 24) (h : s.locked = true) : exec (.lockLoss age word) s =
    .next (s.lockLossNoted.holdover .lockLoss age.toNat word.toNat).twinFault := if_pos h

theorem lockLoss_holdsOver (s : State) (age : DWord) (word : BitVec 24) (h : s.locked = true) :
    ∃ t, exec (.lockLoss age word) s = .next t ∧ t.inHoldover = true ∧ t.locked = false ∧
      t.get CLK_TUNE.one = word.toNat ∧ t.get CLK_LAST_LOSS.one = s.stamp ∧
      t.get CLK_LOSS_COUNT_LOCK_LOSSES.one = min (s.get CLK_LOSS_COUNT_LOCK_LOSSES.one + 1) 65535 ∧
      t.is TIME_STATUS_ARMED.one = false ∧ t.is HBM_G_STATUS_STOPPED.one = true ∧ t.clk.closing = some .lockLoss ∧
      t.now = s.now ∧ s.sameMemory t := by
  obtain ⟨hlast, hcount, hnow⟩ := s.lockLossNoted_shows
  obtain ⟨hhold, hlocked, htune, harmed, hstopped, hclosing, -, know, hregs⟩ :=
    s.lockLossNoted.holdoverTold_shows .lockLoss age.toNat word.isLt
  have hexec := exec_lockLoss age word h
  exact ⟨_, hexec, hhold, hlocked, htune, (hregs _ (by decide)).trans hlast, (hregs _ (by decide)).trans hcount, harmed, hstopped,
    hclosing, know.trans hnow, ((Evolves.refl true false s).execLockLoss.next hexec).sameMemory⟩

/-! ### Loss of the reference (R79) -/

/-- The reference is gone: REF_OK reads 0 (R79). -/
def State.refAbsent (s : State) : State :=
  (s.set CLK_STATUS_REF_OK.one 0).onClk (fun c => { c with refPresent := false })

/-- The cells that a counted loss of the reference writes. -/
def refLostCells : List Nat :=
  [CLK_LOSS_COUNT_REF_LOSSES.one, CLK_LAST_LOSS.one, TIME_STATUS_SYNCED.one, TIME_STATUS_ARMED.one, SWT_FAULTS.one].map Fld.key ++
    latches [5, 479]

/-- A loss of the reference has been counted and stamped. -/
def State.refLossCounted (s : State) : State :=
  ((((s.addSat CLK_LOSS_COUNT_REF_LOSSES.one 1).set CLK_LAST_LOSS.one s.stamp).raise 5).set TIME_STATUS_SYNCED.one 0).set
    TIME_STATUS_ARMED.one 0

theorem State.refLossCounted_shows (s : State) : s.refLossCounted.get CLK_LAST_LOSS.one = s.stamp ∧
    s.refLossCounted.get CLK_LOSS_COUNT_REF_LOSSES.one = min (s.get CLK_LOSS_COUNT_REF_LOSSES.one + 1) 65535 ∧
    s.refLossCounted.is TIME_STATUS_SYNCED.one = false ∧ s.refLossCounted.now = s.now ∧ s.refLossCounted.clk = s.clk ∧
    s.sameRegs refLostCells s.refLossCounted := by
  unfold State.refLossCounted
  refine ⟨?_, ?_, ?_, ?_, ?_, ?_⟩
  · rw [State.get_set_ne _ _ (by decide), State.get_set_ne _ _ (by decide), State.raise_get_ne _ _ (by decide), State.get_set_same]
    exact Nat.mod_eq_of_lt (Nat.mod_lt _ (by decide))
  · rw [State.get_set_ne _ _ (by decide), State.get_set_ne _ _ (by decide), State.raise_get_ne _ _ (by decide),
      State.get_set_ne _ _ (by decide), State.get_addSat_same]
    rfl
  · rw [State.is_set_ne _ _ (by decide), State.is_set_same]
    rfl
  · rw [State.set_now, State.set_now, State.raise_now, State.set_now, State.addSat_now]
  · rw [State.set_clk, State.set_clk, State.raise_clk, State.set_clk, State.addSat_clk]
  · have hcounted : s.sameRegs refLostCells ((s.addSat CLK_LOSS_COUNT_REF_LOSSES.one 1).set CLK_LAST_LOSS.one s.stamp) :=
      State.sameRegs_set _ (State.sameRegs_set _ (s.sameRegs_refl _) (by simp [refLostCells])) (by simp [refLostCells])
    exact State.sameRegs_set _ (State.sameRegs_set _ (State.sameRegs_raise 5 hcounted
      (fun _ hx => List.mem_append_right _ (latches_subset (by simp) _ hx))) (by simp [refLostCells])) (by simp [refLostCells])

theorem State.refLost_eq (s : State) : s.refLost =
    (s.refLossCounted.logFault 5 (PageClass.page .clk 0) 1 1).onClk (fun c => { c with
      syncPulse := if s.get TIME_SYNC_CTRL_OUT_MODE.one = 1 then none else c.syncPulse }) := by
  unfold State.refLost State.refLossCounted
  rfl

theorem State.refLost_shows (s : State) : s.refLost.get CLK_LAST_LOSS.one = s.stamp ∧
    s.refLost.get CLK_LOSS_COUNT_REF_LOSSES.one = min (s.get CLK_LOSS_COUNT_REF_LOSSES.one + 1) 65535 ∧
    s.refLost.is TIME_STATUS_SYNCED.one = false ∧ s.refLost.now = s.now ∧ s.refLost.clk.refPresent = s.clk.refPresent ∧
    s.sameRegs refLostCells s.refLost := by
  obtain ⟨hlast, hcount, hsynced, hnow, hclk, hcounted⟩ := s.refLossCounted_shows
  obtain ⟨kregs, know, kclk⟩ := s.refLossCounted.logFault_frame 5 (PageClass.page .clk 0) 1 1
  rw [State.refLost_eq]
  generalize s.refLossCounted.logFault 5 (PageClass.page .clk 0) 1 1 = u at *
  refine ⟨(kregs _ (by decide)).trans hlast, (kregs _ (by decide)).trans hcount, (State.is_of_sameRegs kregs (by decide)).trans hsynced,
    know.trans hnow, ?_, State.sameRegs_of_regs (State.sameRegs_step hcounted kregs (by decide)) rfl⟩
  rw [State.onClk_clk, kclk, hclk]

theorem exec_refLoss_locked {s : State} (age : DWord) (word : BitVec 24) (hlocked : s.locked = true)
    (hpresent : s.clk.refPresent = true) (hseen : s.clk.refSeen = true) : exec (.refLoss age word) s =
    .next (s.refAbsent.refLost.holdover .refLoss age.toNat word.toNat).twinFault := by
  simp only [exec, execRefLoss, hlocked, hpresent, hseen, Bool.not_true, Bool.false_eq_true, if_false, if_true]
  rfl

theorem refLoss_holdsOver (s : State) (age : DWord) (word : BitVec 24) (hlocked : s.locked = true)
    (hpresent : s.clk.refPresent = true) (hseen : s.clk.refSeen = true) :
    ∃ t, exec (.refLoss age word) s = .next t ∧ t.inHoldover = true ∧ t.locked = false ∧ t.is CLK_STATUS_REF_OK.one = false ∧
      t.get CLK_TUNE.one = word.toNat ∧ t.get CLK_LAST_LOSS.one = s.stamp ∧
      t.get CLK_LOSS_COUNT_REF_LOSSES.one = min (s.get CLK_LOSS_COUNT_REF_LOSSES.one + 1) 65535 ∧
      t.is TIME_STATUS_SYNCED.one = false ∧ t.is TIME_STATUS_ARMED.one = false ∧ t.is HBM_G_STATUS_STOPPED.one = true ∧
      t.clk.closing = some .refLoss ∧ t.clk.refPresent = false ∧ t.now = s.now ∧ s.sameMemory t := by
  have hexec := exec_refLoss_locked age word hlocked hpresent hseen
  have habsent : s.refAbsent.is CLK_STATUS_REF_OK.one = false := s.is_set_same CLK_STATUS_REF_OK.one 0
  have hcount : s.refAbsent.get CLK_LOSS_COUNT_REF_LOSSES.one = s.get CLK_LOSS_COUNT_REF_LOSSES.one :=
    s.get_set_ne (f := CLK_STATUS_REF_OK.one) 0 (by decide)
  obtain ⟨rlast, rcount, rsynced, rnow, rpresent, rregs⟩ := s.refAbsent.refLost_shows
  obtain ⟨hhold, hunlocked, htune, harmed, hstopped, hclosing, kpresent, know, hregs⟩ :=
    s.refAbsent.refLost.holdoverTold_shows .refLoss age.toNat word.isLt
  refine ⟨_, hexec, hhold, hunlocked, ?_, htune, (hregs _ (by decide)).trans rlast, ?_,
    (State.is_of_sameRegs hregs (by decide)).trans rsynced, harmed, hstopped, hclosing, kpresent.trans rpresent, know.trans rnow,
    ((Evolves.refl true false s).execRefLoss.next hexec).sameMemory⟩
  · exact (State.is_of_sameRegs hregs (by decide)).trans ((State.is_of_sameRegs rregs (by decide)).trans habsent)
  · rw [hregs _ (by decide), rcount, hcount]

/-- The cells that show which oscillator bypass runs from. -/
def sourceCells : List Nat := [CLK_STATUS_FALLBACK.one, TIME_STATUS_ESTIMATED.one].map Fld.key

theorem State.bypassSource_frame (s : State) (ref : Bool) : s.sameRegs sourceCells (s.bypassSource ref) ∧
    (s.bypassSource ref).clk = s.clk ∧ (s.bypassSource ref).now = s.now := by
  have h1 : s.sameRegs sourceCells (s.set CLK_STATUS_FALLBACK.one (flag !ref)) :=
    State.sameRegs_set _ (s.sameRegs_refl _) (by simp [sourceCells])
  refine ⟨State.sameRegs_ite (State.sameRegs_set _ h1 (by simp [sourceCells])) h1, ?_, ?_⟩
  all_goals
    unfold State.bypassSource
    dsimp only
    split <;> rfl

/-- What a loss of the reference leaves while the clocks are not locked. -/
def State.RefGone (s t : State) : Prop := t.clk.refPresent = false ∧ t.now = s.now ∧
  s.refAbsent.sameRegs (refLostCells ++ sourceCells ++ failCells) t

theorem State.RefGone.onClk {s t : State} (h : s.RefGone t) (f : Clocks → Clocks)
    (hf : (f t.clk).refPresent = t.clk.refPresent) : s.RefGone (t.onClk f) :=
  ⟨hf.trans h.1, h.2.1, State.sameRegs_of_regs h.2.2 rfl⟩

theorem State.RefGone.bypassSource {s t : State} (h : s.RefGone t) (ref : Bool) : s.RefGone (t.bypassSource ref) := by
  obtain ⟨hpresent, hnow, hregs⟩ := h
  obtain ⟨kregs, kclk, know⟩ := t.bypassSource_frame ref
  exact ⟨by rw [kclk, hpresent], know.trans hnow, State.sameRegs_step hregs kregs
    (fun _ hx => List.mem_append_left _ (List.mem_append_right _ hx))⟩

theorem State.RefGone.lockFail {s t : State} (h : s.RefGone t) : s.RefGone t.lockFail := by
  obtain ⟨hpresent, hnow, hregs⟩ := h
  exact ⟨by simp [State.lockFail, hpresent], by simp [State.lockFail, hnow],
    State.sameRegs_step hregs t.lockFail_frame.1 (List.subset_append_right _ _)⟩

theorem refLoss_unlocked (s : State) (age : DWord) (word : BitVec 24) (hlocked : s.locked = false)
    (hpresent : s.clk.refPresent = true) :
    ∃ t, exec (.refLoss age word) s = .next t ∧ t.clk.refPresent = false ∧ t.is CLK_STATUS_REF_OK.one = false ∧
      t.locked = false ∧ t.now = s.now ∧ s.sameMemory t := by
  have hnoted : s.RefGone (if s.clk.refSeen then s.refAbsent.refLost else s.refAbsent) := by
    split
    · obtain ⟨-, -, -, rnow, rpresent, rregs⟩ := s.refAbsent.refLost_shows
      exact ⟨rpresent, rnow, State.sameRegs_mono rregs (fun _ hx => List.mem_append_left _ (List.mem_append_left _ hx))⟩
    · exact ⟨rfl, rfl, State.sameRegs_refl _ _⟩
  obtain ⟨t, hexec, hpresent', hnow, hregs⟩ : ∃ t, exec (.refLoss age word) s = .next t ∧ s.RefGone t := by
    simp only [exec, execRefLoss, hlocked, hpresent, Bool.not_true, Bool.false_eq_true, if_false]
    split
    · refine ⟨_, rfl, hnoted.onClk _ rfl⟩
    · split
      · exact ⟨_, rfl, (hnoted.bypassSource false).lockFail⟩
      · exact ⟨_, rfl, hnoted.bypassSource false⟩
  refine ⟨t, hexec, hpresent', ?_, ?_, hnow, ((Evolves.refl true false s).execRefLoss.next hexec).sameMemory⟩
  · exact (State.is_of_sameRegs hregs (by decide)).trans (s.is_set_same CLK_STATUS_REF_OK.one 0)
  · exact (State.is_of_sameRegs hregs (by decide)).trans ((s.is_set_ne (f := CLK_STATUS_REF_OK.one) 0 (by decide)).trans hlocked)

/-! ### The reference returns (R84) -/

/-- The reference is back: REF_OK reads 1, and a close for its loss will lock again. -/
def State.refBack (s : State) : State :=
  (s.set CLK_STATUS_REF_OK.one 1).onClk (fun c => { c with
    refPresent := true
    closing := c.closing.map (fun w => if w = .refLoss then .lockLoss else w) })

theorem refReturn_back (s : State) (h : s.clk.refPresent = false) :
    ∃ t, exec .refReturn s = .next t ∧ t.clk.refPresent = true ∧ t.is CLK_STATUS_REF_OK.one = true ∧
      (s.clk.refSeen = true → s.onBypass = true → s.is CLK_CTRL_AUTO_RELOCK.one = true → s.is CLK_STATUS_SEARCHING.one = false →
        t.get CLK_STATUS_STEP.one = 1 ∧ t.is CLK_STATUS_SEARCHING.one = true) ∧
      (s.clk.refSeen = false → t.get CLK_STATUS_STEP.one = s.get CLK_STATUS_STEP.one) ∧
      t = { s with regs := t.regs, clk := t.clk } := by
  have hok : s.refBack.is CLK_STATUS_REF_OK.one = true := s.is_set_same CLK_STATUS_REF_OK.one 1
  have hstep : s.refBack.get CLK_STATUS_STEP.one = s.get CLK_STATUS_STEP.one :=
    s.get_set_ne (f := CLK_STATUS_REF_OK.one) 1 (by decide)
  obtain ⟨bregs, bclk, -⟩ := s.refBack.bypassSource_frame true
  have hexec : exec .refReturn s = if s.onBypass = true then
      (if (s.clk.refSeen && s.is CLK_CTRL_AUTO_RELOCK.one && !s.is CLK_STATUS_SEARCHING.one) = true then
        .next (s.refBack.bypassSource true).lockStart else .next (s.refBack.bypassSource true)) else .next s.refBack := by
    simp only [exec, execRefReturn, h, Bool.false_eq_true, if_false]
    rfl
  rw [hexec]
  by_cases hbypass : s.onBypass = true
  · rw [if_pos hbypass]
    by_cases hauto : (s.clk.refSeen && s.is CLK_CTRL_AUTO_RELOCK.one && !s.is CLK_STATUS_SEARCHING.one) = true
    · rw [if_pos hauto]
      obtain ⟨lstep, lsearch, -⟩ := (s.refBack.bypassSource true).lockStart_shows
      refine ⟨_, rfl, rfl, ?_, fun _ _ _ _ => ⟨lstep, lsearch⟩, fun hseen => by simp [hseen] at hauto, rfl⟩
      exact (State.is_of_sameRegs (State.lockStart_frame _) (by decide)).trans
        ((State.is_of_sameRegs bregs (by decide)).trans hok)
    · rw [if_neg hauto]
      refine ⟨_, rfl, rfl, (State.is_of_sameRegs bregs (by decide)).trans hok, fun hseen _ hctrl hsearch => ?_,
        fun _ => (bregs _ (by decide)).trans hstep, rfl⟩
      simp [hseen, hctrl, hsearch] at hauto
  · rw [if_neg hbypass]
    exact ⟨_, rfl, rfl, hok, fun _ hb => absurd hb hbypass, fun _ => hstep, rfl⟩

/-! ### The quality report (R102, R104) -/

theorem clkQuality_reports (s : State) (rms peak : Byte) (h : rms.toNat ≤ peak.toNat) :
    ∃ t, exec (.clkQualityAboveLimit rms peak) s = .next t ∧
    t.get CLK_QUALITY_PHASE_RMS.one = rms.toNat ∧ t.get CLK_QUALITY_PHASE_PEAK.one = peak.toNat ∧
    (s.get CLK_QUALITY_LIMIT_PHASE_RMS_LIMIT.one < rms.toNat → t.latched 11 = true) ∧
    s.sameRegs ([CLK_QUALITY_PHASE_RMS.one, CLK_QUALITY_PHASE_PEAK.one].map Fld.key ++ latches [11]) t ∧
    s.sameButRegs t := by
  refine ⟨_, if_neg (by omega), ?_, ?_, fun hlimit => ?_, ?_, ?_⟩
  · rw [State.raiseIf_get_ne _ _ _ (by decide), State.get_set_ne _ _ (by decide), State.get_set_same]
    exact Nat.mod_eq_of_lt rms.isLt
  · rw [State.raiseIf_get_ne _ _ _ (by decide), State.get_set_same]
    exact Nat.mod_eq_of_lt peak.isLt
  · rw [decide_eq_true hlimit, State.raiseIf_true]
    exact State.raise_latched _ 11 rfl
  · exact State.sameRegs_raiseIf _ 11 (State.sameRegs_set _ (State.sameRegs_set _ (s.sameRegs_refl _) (by simp)) (by simp))
      (fun _ hx => List.mem_append_right _ hx)
  · exact State.sameButRegs_raiseIf _ 11 (State.sameButRegs_set _ _ (State.sameButRegs_set _ _ s.sameButRegs_refl))

/-- Settles O12: a loss is noted in its own cells, holdover and the close write cells apart from those, and what the
interruption of the sessions does moves neither time nor clocks. -/
theorem clockLossesStartHoldover : Obligations.ClockLossesStartHoldover :=
  ⟨lockLoss_holdsOver, refLoss_holdsOver, fun _ _ _ h => if_neg (by simp [h]), fun _ _ _ h => if_pos (by simp [h]),
    refLoss_unlocked, fun _ h => if_pos h, refReturn_back, clkQuality_reports⟩

end Sys2Proof.Machine
end

