-- ==== Sys2Proof/Proofs/ClockSwitches.lean ====
section
/-! PROOFS. The switch to bypass, RELOCK and the dividers (R73, R78, R81 to R83), and the obligation on them. -/

namespace Sys2Proof.Machine

/-! ### Loops that leave a part of the state alone -/

theorem forEach_keeps {α β : Type} {l : List α} {f : α → State → State} (φ : State → β) (s : State)
    (hf : ∀ a u, φ (f a u) = φ u) : φ (forEach l s f) = φ s :=
  List.foldlRecOn (motive := fun u : State => φ u = φ s) l _ rfl (fun u hu a _ => (hf a u).trans hu)

theorem State.frontStops_regs (s : State) : s.frontStops.regs = s.regs := forEach_keeps State.regs s (fun _ _ => rfl)

/-! ### The end of a mailbox command, and the end of the twin link (R83, R395, R398, R464) -/

/-- The cells that the end of a mailbox command writes. -/
def endCells : List Nat :=
  [MBX_REPLY_CODE.one, MBX_REPLY_BULK.one, MBX_REPLY_LEN.one, MBX_STATUS_TAG.one, MBX_STATUS_RESULT.one, MBX_STATUS_STATE.one,
    MBX_COMPLETED.one].map Fld.key ++ latches [32]

theorem State.forwardEnd_frame (s : State) (c : MbxCmd) (result : Nat) (reply : List Byte) :
    s.sameRegs endCells (s.forwardEnd c result reply) := by
  unfold State.forwardEnd
  extract_lets s1 s2
  have h1 : s.sameRegs endCells s1 := State.sameRegs_set _ (State.sameRegs_set _ (State.sameRegs_set _ (s.sameRegs_refl _)
    (by simp [endCells])) (by simp [endCells])) (by simp [endCells])
  have h2 : s.sameRegs endCells s2 :=
    State.sameRegs_of_regs (State.sameRegs_set (f := MBX_COMPLETED.one) _ h1 (by simp [endCells])) rfl
  exact State.sameRegs_ite (State.sameRegs_of_regs h2 rfl) h2

theorem State.mbxEndWith_frame (s : State) (result : Nat) (reply : List Byte) (bulk : Bool) :
    s.sameRegs endCells (s.mbxEndWith result reply bulk) := by
  unfold State.mbxEndWith
  split
  · exact s.sameRegs_refl _
  · next c _ =>
    extract_lets long s1 s2 s3
    have h1 : s.sameRegs endCells s1 := State.sameRegs_of_regs (s.sameRegs_refl _) rfl
    have h2 : s.sameRegs endCells s2 := State.sameRegs_set _ (State.sameRegs_set _ (State.sameRegs_set _ h1
      (by simp [endCells])) (by simp [endCells])) (by simp [endCells])
    have h3 : s.sameRegs endCells s3 := State.sameRegs_set _ (State.sameRegs_set _ (State.sameRegs_set _ h2
      (by simp [endCells])) (by simp [endCells])) (by simp [endCells])
    have h4 : s.sameRegs endCells ((s3.add MBX_COMPLETED.one 1).onMbx (fun m => { m with cur := none })) :=
      State.sameRegs_of_regs (State.sameRegs_set (f := MBX_COMPLETED.one) _ h3 (by simp [endCells])) rfl
    exact State.sameRegs_ite (s.forwardEnd_frame c result reply) (State.sameRegs_raise 32 h4 (fun _ hx => List.mem_append_right _ hx))

/-- The cells that the end of the twin link writes. -/
def linkEndCells : List Nat :=
  [TWN_STATUS_LINK_UP.one, TWN_STATUS_LANES.one, TWN_STATUS_ROLE.one, TWN_STATUS_STATE.one].map Fld.key ++
    latches [483, 484, 488] ++ endCells

theorem State.twinStops_frame (s : State) : s.sameRegs linkEndCells s.twinStops := by
  have hlatches : latches [483, 484, 488] ⊆ linkEndCells := by decide
  unfold State.twinStops
  refine State.sameRegs_ite ?_ (s.sameRegs_refl _)
  extract_lets s1 s2 s3
  have h1 : s.sameRegs linkEndCells s1 := State.sameRegs_raise 483 (State.sameRegs_set _ (State.sameRegs_set _ (s.sameRegs_refl _)
    (by simp [linkEndCells])) (by simp [linkEndCells])) (latches_sub (by simp) hlatches)
  have h2 : s.sameRegs linkEndCells s2 := by
    have hlost : s.sameRegs linkEndCells (s1.onTwn (fun t => { t with unacked := [] })) := State.sameRegs_of_regs h1 rfl
    refine State.sameRegs_ite (State.sameRegs_of_regs ?_ rfl) hlost
    exact State.sameRegs_step hlost (State.mbxEndWith_frame _ _ _ _) (List.subset_append_right _ _)
  have h3 : s.sameRegs linkEndCells s3 := State.sameRegs_ite (State.sameRegs_ite h2 (State.sameRegs_raise 484
    (State.sameRegs_set _ h2 (by simp [linkEndCells])) (latches_sub (by simp) hlatches))) h2
  exact State.sameRegs_ite (State.sameRegs_raise 488 (State.sameRegs_set _ h3 (by simp [linkEndCells]))
    (latches_sub (by simp) hlatches)) h3

/-! ### The switch to bypass (R83) -/

/-- The registers as the switch leaves them, and everything that stops with it. -/
def State.switched (s : State) : State :=
  let s1 := (((s.set CLK_STATUS_BYPASS.one 1).set CLK_STATUS_HOLDOVER.one 0).set CLK_STATUS_LOCKED.one 0).raise 8
  ((s1.bypassSource s.clk.refPresent).frontStops.twinStops).set FEG_STATUS_CAL_BUSY.one 0

theorem State.switched_shows (s : State) : s.switched.onBypass = true ∧ s.switched.locked = false ∧
    s.switched.inHoldover = false ∧ s.switched.latched 8 = true ∧ s.switched.is FEG_STATUS_CAL_BUSY.one = false ∧
    s.switched.now = s.now := by
  unfold State.switched
  extract_lets s1
  have hbypass : s1.is CLK_STATUS_BYPASS.one = true := by
    rw [State.is_raise_ne _ _ (by decide), State.is_set_ne _ _ (by decide), State.is_set_ne _ _ (by decide), State.is_set_same]
    rfl
  have hholdover : s1.is CLK_STATUS_HOLDOVER.one = false := by
    rw [State.is_raise_ne _ _ (by decide), State.is_set_ne _ _ (by decide), State.is_set_same]
    rfl
  have hlocked : s1.is CLK_STATUS_LOCKED.one = false := by
    rw [State.is_raise_ne _ _ (by decide), State.is_set_same]
    rfl
  have hlatch : s1.latched 8 = true := State.raise_latched _ 8 rfl
  have hnow : s1.now = s.now := by rw [State.raise_now]; rfl
  generalize s1 = u at *
  obtain ⟨bregs, -, bnow⟩ := u.bypassSource_frame s.clk.refPresent
  generalize u.bypassSource s.clk.refPresent = b at *
  have fnow := ((Evolves.refl false true b).frontStops.twinStops.time rfl).1
  have hregs : u.sameRegs (sourceCells ++ linkEndCells ++ [FEG_STATUS_CAL_BUSY.one.key])
      (b.frontStops.twinStops.set FEG_STATUS_CAL_BUSY.one 0) :=
    State.sameRegs_set 0 (State.sameRegs_step (State.sameRegs_of_regs (State.sameRegs_mono bregs (by simp)) b.frontStops_regs)
      b.frontStops.twinStops_frame (by simp)) (by simp)
  refine ⟨(State.is_of_sameRegs hregs (by decide)).trans hbypass, (State.is_of_sameRegs hregs (by decide)).trans hlocked,
    (State.is_of_sameRegs hregs (by decide)).trans hholdover, (State.latched_of_sameRegs hregs (by decide)).trans hlatch, ?_,
    fnow.trans (bnow.trans hnow)⟩
  rw [State.is_set_same]
  rfl

theorem State.lockStart_rest (s : State) : s.lockStart.clk.closing = s.clk.closing ∧ s.lockStart.now = s.now := ⟨rfl, rfl⟩

/-- The switch is complete: no close is left, and snapshots are due under the bypass clocks. -/
def State.bypassed (s : State) : State :=
  (s.switched.onClk (fun c => { c with closing := none, bypassCycles := 0 })).snapsAnew

theorem State.toBypass_cases (s : State) : s.toBypass = s.bypassed.lockStart ∨ s.toBypass = s.bypassed := by
  unfold State.toBypass State.bypassed State.switched
  dsimp only
  split
  · exact .inl rfl
  · split
    · exact .inl rfl
    · exact .inr rfl
  · exact .inr rfl

/-- What the switch to bypass shows, whether or not an attempt to lock starts at once. -/
theorem State.toBypass_shows (s : State) : s.toBypass.onBypass = true ∧ s.toBypass.locked = false ∧ s.toBypass.inHoldover = false ∧
    s.toBypass.latched 8 = true ∧ s.toBypass.is FEG_STATUS_CAL_BUSY.one = false ∧ s.toBypass.clk.closing = none ∧
    s.toBypass.now = s.now := by
  obtain ⟨hbypass, hlocked, hholdover, hlatch, hbusy, hnow⟩ := s.switched_shows
  have hkept : s.switched.sameRegs startCells s.bypassed := State.sameRegs_of_regs (State.sameRegs_refl _ _)
    (by simp only [State.bypassed, State.snapsAnew, State.onClk_regs])
  have hclosing : s.bypassed.clk.closing = none := by simp only [State.bypassed, State.snapsAnew, State.onClk_clk]
  have hstill : s.bypassed.now = s.now := by simp only [State.bypassed, State.snapsAnew, State.onClk_now, hnow]
  obtain ⟨hregs, hclosed, hleft⟩ : s.switched.sameRegs startCells s.toBypass ∧ s.toBypass.clk.closing = none ∧
      s.toBypass.now = s.now := by
    rcases s.toBypass_cases with h | h
    · rw [h]
      exact ⟨State.sameRegs_trans hkept s.bypassed.lockStart_frame, s.bypassed.lockStart_rest.1.trans hclosing,
        s.bypassed.lockStart_rest.2.trans hstill⟩
    · rw [h]
      exact ⟨hkept, hclosing, hstill⟩
  exact ⟨(State.is_of_sameRegs hregs (by decide)).trans hbypass, (State.is_of_sameRegs hregs (by decide)).trans hlocked,
    (State.is_of_sameRegs hregs (by decide)).trans hholdover, (State.latched_of_sameRegs hregs (by decide)).trans hlatch,
    (State.is_of_sameRegs hregs (by decide)).trans hbusy, hclosed, hleft⟩

theorem exec_selfRefreshEntered {s : State} (hclosing : s.clk.closing.isSome = true) (hruns : s.anyRuns = false) :
    exec .selfRefreshEntered s = .next s.enterSelfRefresh.toBypass := if_pos (by simp [hclosing, hruns])

theorem exec_holdoverLimit {s : State} (h : s.inHoldover = true) :
    exec .holdoverLimit s = .next ((s.raise 9).closeNow.enterSelfRefresh.toBypass) := if_pos h

/-! ### RELOCK (R78, R102) -/

theorem State.anyRuns_of_sameRegs {s t : State} {ks : List Nat} (h : s.sameRegs ks t)
    (hks : ∀ n < 8, (WR_SESSION_STATUS_STATE.elt n).key ∉ ks) : t.anyRuns = s.anyRuns := by
  have hsess : ∀ n ∈ upto 8, t.sessRuns n = s.sessRuns n := by
    intro n hn
    simp only [State.sessRuns, State.sessState, h _ (hks n (List.mem_range.mp hn))]
  rw [Bool.eq_iff_iff, State.anyRuns, State.anyRuns, List.any_eq_true, List.any_eq_true]
  exact exists_congr (fun n => and_congr_right (fun hn => by rw [hsess n hn]))

/-- A write of 1 to a command bit leaves the fields above it. -/
theorem setField_one (n : Nat) : bitOf (setField n 0 1 1) 0 = true ∧ field (setField n 0 1 1) 8 8 = field n 8 8 ∧
    field (setField n 0 1 1) 4 1 = field n 4 1 ∧ field (setField n 0 1 1) 2 2 = field n 2 2 := by
  simp only [bitOf, setField, field, trunc, beq_iff_eq]
  omega

/-- The CLK page after a write of CLK_CTRL, before its RELOCK acts. -/
def State.ctrlWritten (s : State) (v : DWord) : State :=
  (((s.set (unlockedOf (PageClass.page .clk 0)) 0).set CLK_CTRL_RETRY_MS.one (field v.toNat 8 8)).set CLK_CTRL_AUTO_RELOCK.one
    (field v.toNat 4 1)).set CLK_CTRL_BANDWIDTH.one (field v.toNat 2 2)

/-- The cells of CLK_CTRL and of the page's guard. -/
def ctrlCells : List Nat :=
  [unlockedOf (PageClass.page .clk 0), CLK_CTRL_RETRY_MS.one, CLK_CTRL_AUTO_RELOCK.one, CLK_CTRL_BANDWIDTH.one].map Fld.key

theorem exec_relock {s : State} (v : DWord) (h : s.admits (PageClass.page .clk 0) = true) :
    exec (.relock v) s = .next (s.ctrlWritten v).relock := by
  obtain ⟨hbit, hretry, hauto, hband⟩ := setField_one v.toNat
  refine congrArg Host.Outcome.next ((s.gated_of_admits 0x040 (·.clkCtrlWrite (setField v.toNat 0 1 1)) h).trans ?_)
  simp only [State.clkCtrlWrite, hretry, hauto, hband, hbit, if_true]
  rfl

theorem State.ctrlWritten_frame (s : State) (v : DWord) : s.sameRegs ctrlCells (s.ctrlWritten v) :=
  State.sameRegs_set _ (State.sameRegs_set _ (State.sameRegs_set _ (State.sameRegs_set _ (s.sameRegs_refl _)
    (by simp [ctrlCells])) (by simp [ctrlCells])) (by simp [ctrlCells])) (by simp [ctrlCells])

theorem State.ctrlWritten_shows (s : State) (v : DWord) :
    (s.ctrlWritten v).get CLK_CTRL_RETRY_MS.one = field v.toNat 8 8 ∧
    (s.ctrlWritten v).get CLK_CTRL_AUTO_RELOCK.one = field v.toNat 4 1 ∧
    (s.ctrlWritten v).get CLK_CTRL_BANDWIDTH.one = field v.toNat 2 2 ∧
    (s.ctrlWritten v).is (unlockedOf (PageClass.page .clk 0)) = false := by
  refine ⟨?_, ?_, ?_, ?_⟩
  all_goals simp (disch := decide) only [State.ctrlWritten, State.get_set_ne, State.is_set_ne, State.get_set_same, State.is_set_same]
  · exact Nat.mod_eq_of_lt (Nat.mod_lt _ (by decide))
  · exact Nat.mod_eq_of_lt (Nat.mod_lt _ (by decide))
  · exact Nat.mod_eq_of_lt (Nat.mod_lt _ (by decide))
  · rfl

/-- The cells that an access error on the CLK page writes. -/
def clkErrCells : List Nat := (accessErrOf (PageClass.page .clk 0)).key :: errCells.map Fld.key

theorem State.accessErr_clk (s : State) (off : Nat) :
    s.sameRegs clkErrCells (s.accessErr (PageClass.page .clk 0) off) ∧
    (s.accessErr (PageClass.page .clk 0) off).get (accessErrOf (PageClass.page .clk 0)) = 1 ∧
    (s.accessErr (PageClass.page .clk 0) off).clk = s.clk := by
  refine ⟨State.sameRegs_headerErr _ _ _ (State.sameRegs_set 1 (s.sameRegs_refl _) (by simp [clkErrCells]))
    (fun f hf => List.mem_cons_of_mem _ (List.mem_map_of_mem hf)), ?_, ?_⟩
  · rw [State.accessErr, State.headerErr_get _ _ _ _ rfl, State.get_set_same]
    rfl
  · rw [State.accessErr, State.headerErr, State.raise_clk]
    rfl

/-- RELOCK writes no cell of CLK_CTRL nor of the page's guard, whatever it leads to. -/
theorem State.relock_frame (s : State) : s.sameRegs (clkErrCells ++ startCells ++ closeCells) s.relock :=
  have hstart : s.sameRegs (clkErrCells ++ startCells ++ closeCells) s.lockStart := State.sameRegs_mono s.lockStart_frame (by simp)
  State.sameRegs_ite (State.sameRegs_mono (s.accessErr_clk 0x040).1 (by simp)) (State.sameRegs_ite hstart
    (State.sameRegs_ite (State.sameRegs_mono (s.closeStart_shows .relock).2.2.2.2.2 (by simp))
      (State.sameRegs_ite hstart (s.sameRegs_refl _))))

theorem State.relock_refused {s : State} (h : s.anyRuns = true ∨ s.inHoldover = true) :
    s.relock = s.accessErr (PageClass.page .clk 0) 0x040 := if_pos (by simpa using h)

theorem State.relock_searching {s : State} (hruns : s.anyRuns = false) (hhold : s.inHoldover = false)
    (hsearch : s.is CLK_STATUS_SEARCHING.one = true) : s.relock = s.lockStart := by
  simp [State.relock, hruns, hhold, hsearch]

theorem State.relock_closes {s : State} (hruns : s.anyRuns = false) (hhold : s.inHoldover = false)
    (hsearch : s.is CLK_STATUS_SEARCHING.one = false) (hlocked : s.locked = true) : s.relock = s.closeStart .relock := by
  simp [State.relock, hruns, hhold, hsearch, hlocked]

section
variable (s : State) (v : DWord)

theorem State.ctrlWritten_runs : (s.ctrlWritten v).anyRuns = s.anyRuns :=
  State.anyRuns_of_sameRegs (s.ctrlWritten_frame v) (by decide)

theorem State.ctrlWritten_is {f : Fld} (hf : f.key ∉ ctrlCells) : (s.ctrlWritten v).is f = s.is f :=
  State.is_of_sameRegs (s.ctrlWritten_frame v) hf

/-- What RELOCK leaves of a write to CLK_CTRL. -/
theorem State.relockWritten_shows :
    (s.ctrlWritten v).relock.get CLK_CTRL_RETRY_MS.one = field v.toNat 8 8 ∧
    (s.ctrlWritten v).relock.get CLK_CTRL_AUTO_RELOCK.one = field v.toNat 4 1 ∧
    (s.ctrlWritten v).relock.get CLK_CTRL_BANDWIDTH.one = field v.toNat 2 2 ∧
    (s.ctrlWritten v).relock.pageLocked (PageClass.page .clk 0) = true := by
  obtain ⟨hretry, hauto, hband, hguard⟩ := s.ctrlWritten_shows v
  have hregs := (s.ctrlWritten v).relock_frame
  refine ⟨(hregs _ (by decide)).trans hretry, (hregs _ (by decide)).trans hauto, (hregs _ (by decide)).trans hband, ?_⟩
  rw [State.pageLocked, State.is_of_sameRegs hregs (by decide), hguard]
  rfl

theorem relock_closes (h : s.admits (PageClass.page .clk 0) = true) (hruns : s.anyRuns = false) (hhold : s.inHoldover = false)
    (hsearch : s.is CLK_STATUS_SEARCHING.one = false) (hlocked : s.locked = true) :
    ∃ t, exec (.relock v) s = .next t ∧ t.locked = false ∧ t.is HBM_G_STATUS_STOPPED.one = true ∧
      t.clk.closing = some .relock ∧ t.is TIME_STATUS_ARMED.one = false ∧
      t.get CLK_CTRL_RETRY_MS.one = field v.toNat 8 8 ∧ t.get CLK_CTRL_AUTO_RELOCK.one = field v.toNat 4 1 ∧
      t.get CLK_CTRL_BANDWIDTH.one = field v.toNat 2 2 ∧ t.pageLocked (PageClass.page .clk 0) = true ∧ s.sameMemory t := by
  have hexec := exec_relock v h
  obtain ⟨hretry, hauto, hband, hguard⟩ := s.relockWritten_shows v
  have hcloses : (s.ctrlWritten v).relock = (s.ctrlWritten v).closeStart .relock :=
    State.relock_closes ((s.ctrlWritten_runs v).trans hruns) ((s.ctrlWritten_is v (by decide)).trans hhold)
      ((s.ctrlWritten_is v (by decide)).trans hsearch) ((s.ctrlWritten_is v (by decide)).trans hlocked)
  obtain ⟨cunlocked, carmed, cstopped, cclk, -, -⟩ := (s.ctrlWritten v).closeStart_shows .relock
  rw [← hcloses] at cunlocked carmed cstopped cclk
  exact ⟨_, hexec, cunlocked, cstopped, by rw [cclk], carmed, hretry, hauto, hband, hguard,
    ((Evolves.refl true false s).execRelock.next hexec).sameMemory⟩

theorem relock_writes (h : s.admits (PageClass.page .clk 0) = true) :
    ∃ t, exec (.relock v) s = .next t ∧ t.get CLK_CTRL_RETRY_MS.one = field v.toNat 8 8 ∧
      t.get CLK_CTRL_AUTO_RELOCK.one = field v.toNat 4 1 ∧ t.get CLK_CTRL_BANDWIDTH.one = field v.toNat 2 2 ∧
      ((s.anyRuns = true ∨ s.inHoldover = true) → t.get (accessErrOf (PageClass.page .clk 0)) = 1 ∧
        t.locked = s.locked ∧ t.clk = s.clk) ∧
      (s.anyRuns = false → s.inHoldover = false → s.is CLK_STATUS_SEARCHING.one = true →
        t.get CLK_STATUS_STEP.one = 1 ∧ t.is CLK_STATUS_SEARCHING.one = true) := by
  obtain ⟨hretry, hauto, hband, -⟩ := s.relockWritten_shows v
  refine ⟨_, exec_relock v h, hretry, hauto, hband, fun hbusy => ?_, fun hruns hhold hsearch => ?_⟩
  · have hrefused : (s.ctrlWritten v).anyRuns = true ∨ (s.ctrlWritten v).inHoldover = true :=
      hbusy.imp (s.ctrlWritten_runs v).trans (s.ctrlWritten_is v (by decide)).trans
    obtain ⟨eregs, eflag, eclk⟩ := (s.ctrlWritten v).accessErr_clk 0x040
    rw [State.relock_refused hrefused]
    exact ⟨eflag, (State.is_of_sameRegs eregs (by decide)).trans (s.ctrlWritten_is v (by decide)), eclk⟩
  · rw [State.relock_searching ((s.ctrlWritten_runs v).trans hruns) ((s.ctrlWritten_is v (by decide)).trans hhold)
      ((s.ctrlWritten_is v (by decide)).trans hsearch)]
    exact ⟨(State.lockStart_shows _).1, (State.lockStart_shows _).2.1⟩

end

/-! ### Dividers (R73) -/

theorem divApply_asks (s : State) (h : s.admits (PageClass.page .clk 0) = true) :
    ∃ t, exec .divApply s = .next t ∧ t.is CLK_DIV_APPLY.one = true ∧
      s.sameRegs ([CLK_DIV_APPLY.one, unlockedOf (PageClass.page .clk 0)].map Fld.key) t ∧ t = { s with regs := t.regs } := by
  refine ⟨_, congrArg Host.Outcome.next (s.gated_of_admits 0x058 (·.set CLK_DIV_APPLY.one 1) h), ?_,
    State.sameRegs_set _ (State.sameRegs_set _ (s.sameRegs_refl _) (by simp)) (by simp), rfl⟩
  rw [State.is_set_same]
  rfl

theorem dividersApplied_takes (s : State) (hbypass : s.onBypass = false) (happly : s.is CLK_DIV_APPLY.one = true) :
    ∃ t, exec .dividersApplied s = .next t ∧
      t.get CLK_DIV_ACTIVE_PCLK_DIV.one = s.get CLK_DIV_NEXT_PCLK_DIV.one % 2 ∧
      t.get CLK_DIV_ACTIVE_CCLK_DIV.one = s.get CLK_DIV_NEXT_CCLK_DIV.one % 3 ∧ t.is CLK_DIV_APPLY.one = false ∧
      t.latched 10 = true ∧ s.sameRegs ([CLK_DIV_ACTIVE_PCLK_DIV.one, CLK_DIV_ACTIVE_CCLK_DIV.one, CLK_DIV_APPLY.one].map
        Fld.key ++ latches [10]) t ∧ s.sameButRegs t := by
  obtain ⟨hregs, hrest⟩ := s.dividers_frame
  have heq : s.dividers = (((s.set CLK_DIV_ACTIVE_PCLK_DIV.one (s.get CLK_DIV_NEXT_PCLK_DIV.one)).set CLK_DIV_ACTIVE_CCLK_DIV.one
      (s.get CLK_DIV_NEXT_CCLK_DIV.one % 3)).set CLK_DIV_APPLY.one 0).raise 10 := if_pos happly
  refine ⟨s.dividers, if_neg (by simp [hbypass]), ?_, ?_, ?_, ?_, hregs, hrest⟩
  all_goals rw [heq]
  · simp (disch := decide) only [State.raise_get_ne, State.get_set_ne, State.get_set_same]
    rfl
  · simp (disch := decide) only [State.raise_get_ne, State.get_set_ne, State.get_set_same]
    exact Nat.mod_eq_of_lt (show s.get CLK_DIV_NEXT_CCLK_DIV.one % 3 < 4 by omega)
  · rw [State.is_raise_ne _ _ (by decide), State.is_set_same]
    rfl
  · exact State.raise_latched _ 10 rfl

/-- Settles O13: whatever came before, the switch to bypass ends in the same registers; a write of CLK_CTRL puts its fields
before its RELOCK acts, which writes none of them. -/
theorem clocksSwitchAndRelock : Obligations.ClocksSwitchAndRelock := by
  refine ⟨?_, ?_, fun _ h => if_neg (by simp [h]), ?_, relock_closes, relock_writes, ?_, divApply_asks, dividersApplied_takes⟩
  · intro s hclosing hruns
    obtain ⟨hbypass, hlocked, hholdover, hlatch, hbusy, hclosed, hnow⟩ := s.enterSelfRefresh.toBypass_shows
    exact ⟨_, exec_selfRefreshEntered hclosing hruns, hbypass, hlocked, hholdover, hlatch, hbusy, hclosed,
      hnow.trans ((Evolves.refl false true s).enterSelfRefresh.time rfl).1⟩
  · intro s h
    exact if_neg (by rcases h with h | h <;> simp [h])
  · intro s h
    obtain ⟨hbypass, hlocked, hholdover, hlatch, hbusy, hclosed, -⟩ := (s.raise 9).closeNow.enterSelfRefresh.toBypass_shows
    exact ⟨_, exec_holdoverLimit h, hbypass, hlocked, hholdover, hlatch, hbusy, hclosed⟩
  · rintro s (hbypass | happly)
    · exact if_pos hbypass
    · simp [exec, execDividersApplied, State.dividers, happly]

end Sys2Proof.Machine
end

