-- ==== Sys2Proof/Proofs/Timebase.lean ====
section
/-! PROOFS. Era, alarms, the calendar pair and SYNC (R87, R89 to R94), and the obligations on them. -/

namespace Sys2Proof.Machine

/-! ### Updates of registers and clocks -/

/-- `t` is `s` but for its registers and clocks. -/
def State.OnlyClocks (s t : State) : Prop := ∃ regs clk, t = { s with regs := regs, clk := clk }

namespace State.OnlyClocks

section
variable {s t u : State}

theorem refl (s : State) : OnlyClocks s s := ⟨s.regs, s.clk, rfl⟩

theorem set (h : OnlyClocks s t) (f : Fld) (v : Nat) : OnlyClocks s (t.set f v) := by
  obtain ⟨regs, clk, rfl⟩ := h
  exact ⟨_, clk, rfl⟩

theorem onClk (h : OnlyClocks s t) (f : Clocks → Clocks) : OnlyClocks s (t.onClk f) := by
  obtain ⟨regs, clk, rfl⟩ := h
  exact ⟨regs, _, rfl⟩

theorem ite {c : Prop} [Decidable c] (ht : OnlyClocks s t) (hu : OnlyClocks s u) : OnlyClocks s (if c then t else u) := by
  split
  · exact ht
  · exact hu

theorem forEach {α : Type} {l : List α} {f : α → State → State} (h : OnlyClocks s t)
    (hf : ∀ a u, OnlyClocks s u → OnlyClocks s (f a u)) : OnlyClocks s (Machine.forEach l t f) :=
  List.foldlRecOn (motive := OnlyClocks s) l _ h (fun u hu a _ => hf a u hu)

theorem eq (h : OnlyClocks s t) : t = { s with regs := t.regs, clk := t.clk } := by
  obtain ⟨regs, clk, rfl⟩ := h
  rfl

end

end State.OnlyClocks

/-! ### Era (R87) -/

/-- The instant at which the next era begins. -/
def State.nextEra (s : State) : Nat := (s.now / 2 ^ 64 + 1) * 2 ^ 64

theorem State.nextEra_def (s : State) : s.nextEra = (s.now / 2 ^ 64 + 1) * 2 ^ 64 := by unfold State.nextEra; rfl

theorem State.nextEra_gt (s : State) : s.now < s.nextEra ∧ s.nextEra / 2 ^ 64 = s.now / 2 ^ 64 + 1 :=
  ⟨(Nat.lt_mul_div_succ _ (Nat.two_pow_pos 64)).trans_eq (Nat.mul_comm _ _), Nat.mul_div_cancel _ (Nat.two_pow_pos 64)⟩

theorem eraOf_nextEra (s : State) : eraOf s.nextEra = (eraOf s.now + 1) % 2 ^ 16 := by
  rw [eraOf, s.nextEra_gt.2, eraOf, Nat.mod_add_mod]

/-- The state at the start of the next era. -/
def State.eraAdvanced (s : State) : State := State.raise { s.onClk (fun c => { c with
  frameAt := s.nextEra - frameTicks
  sampleAt := max c.sampleAt (s.nextEra - frameTicks) }) with now := s.nextEra } 13

theorem State.onClk_reached_regs (s : State) (f : Clocks → Clocks) (instant : Nat) :
    ({ s.onClk f with now := instant } : State).regs = s.regs := rfl

theorem State.onClk_reached_rest (s : State) (f : Clocks → Clocks) (instant : Nat) :
    ({ s with now := instant, clk := f s.clk } : State).sameButRegs { s.onClk f with now := instant } := State.sameButRegs_refl _

theorem State.eraAdvanced_shows (s : State) : s.eraAdvanced.now = s.nextEra ∧ s.eraAdvanced.latched 13 = true ∧
    s.sameRegs (latches [13]) s.eraAdvanced ∧
    ({ s with now := s.eraAdvanced.now, clk := s.eraAdvanced.clk } : State).sameButRegs s.eraAdvanced := by
  unfold State.eraAdvanced
  generalize s.nextEra = instant
  refine ⟨State.raise_now _ _, State.raise_latched _ 13 rfl, ?_, ?_⟩
  · exact State.sameRegs_raise 13 (State.sameRegs_of_regs (s.sameRegs_refl _) (s.onClk_reached_regs _ _)) (fun _ hx => hx)
  · rw [State.raise_now, State.raise_clk]
    exact State.sameButRegs_raise 13 (s.onClk_reached_rest _ _)

/-- Where nothing is left to end before it, the era advances. -/
theorem exec_eraAdvance {s : State} (hvalid : s.is TIME_STATUS_VALID.one = true)
    (hready : s.clk.frameAt + frameTicks = s.nextEra ∨ ∀ n < 65, (s.skein n).reducing = false) :
    exec .eraAdvance s = .next s.eraAdvanced := by
  obtain ⟨hlt, hdiv⟩ := s.nextEra_gt
  have hgo : (s.clk.frameAt + frameTicks == s.nextEra || !(upto 65).any (fun n => (s.skein n).reducing)) = true := by
    rcases hready with h | h
    · simp [h]
    · simp only [Bool.or_eq_true, Bool.not_eq_true', List.any_eq_false]
      exact .inr (fun n hn => by simp [h n (List.mem_range.mp hn)])
  have hpass : decide (s.now / 2 ^ 64 < s.nextEra / 2 ^ 64) = true := by rw [hdiv]; simp
  simp only [exec, execEraAdvance, ← State.nextEra_def, hvalid, hgo, Bool.and_self, if_true]
  rw [State.reach, State.onClk_now, Nat.max_eq_right hlt.le, hpass, State.raiseIf_true, State.eraAdvanced]

theorem eraAdvance_advances (s : State) (hvalid : s.is TIME_STATUS_VALID.one = true)
    (hready : s.clk.frameAt + frameTicks = s.nextEra ∨ ∀ n < 65, (s.skein n).reducing = false) :
    ∃ t, exec .eraAdvance s = .next t ∧ t.now = s.nextEra ∧ eraOf t.now = (eraOf s.now + 1) % 2 ^ 16 ∧
      t.latched 13 = true ∧ s.sameRegs (latches [13]) t ∧ ({ s with now := t.now, clk := t.clk } : State).sameButRegs t := by
  obtain ⟨hnow, hlatch, hregs, hrest⟩ := s.eraAdvanced_shows
  exact ⟨_, exec_eraAdvance hvalid hready, hnow, hnow ▸ eraOf_nextEra s, hlatch, hregs, hrest⟩

/-! ### Alarms (R89) -/

theorem alarmFire_waits (s : State) (n : Fin 4) (at_ : Nat) (hnext : (sget s.clk.alarms n.val Alarm.idle).next = some at_)
    (h : s.sampling = false ∨ s.is (TIME_ALARM_CTRL.elt n.val) = false ∨ s.clk.frameAt + frameTicks ≤ at_) :
    exec (.alarmFire n) s = .next s := by
  simp only [exec, execAlarmFire, hnext]
  refine if_neg ?_
  rcases h with h | h | h
  · simp [h]
  · simp [h]
  · simp [Nat.not_lt.mpr h]

theorem alarmFire_fires (s : State) (n : Fin 4) (at_ : Nat) (hnext : (sget s.clk.alarms n.val Alarm.idle).next = some at_)
    (hsampling : s.sampling = true) (henabled : s.is (TIME_ALARM_CTRL.elt n.val) = true) (hdue : at_ < s.clk.frameAt + frameTicks) :
    ∃ t, exec (.alarmFire n) s = .next t ∧ t.latched (14 + n.val) = true ∧ at_ ≤ t.now ∧
      sget t.clk.alarms n.val Alarm.idle = ⟨if s.get (TIME_ALARM_PERIOD.elt n.val) * frameTicks = 0 then none
        else some (at_ + s.get (TIME_ALARM_PERIOD.elt n.val) * frameTicks), true, true⟩ := by
  have hplaces : ∀ n : Fin 4, (evPlace (14 + n.val)).isSome := by decide
  simp only [exec, execAlarmFire, hnext, hsampling, henabled, hdue, decide_true, Bool.and_self, if_true]
  refine ⟨_, rfl, State.raise_latched _ _ (hplaces n), ?_, ?_⟩
  · rw [State.raise_now]
    exact Nat.le_max_right _ _
  · rw [State.raise_clk, State.onClk_clk]
    exact sget_sput_same _ _ _ _

/-! ### The calendar pair (R90) -/

theorem calSecond_counts (s : State) : ∃ t, exec .calSecond s = .next t ∧
    t.get LIFE_CAL_SECONDS.one = (s.get LIFE_CAL_SECONDS.one + 1) % 2 ^ 32 ∧
    t.get TIME_CAL_SECONDS.one = (s.get LIFE_CAL_SECONDS.one + 1) % 2 ^ 32 ∧
    t.get TIME_CAL_STAMP.one = (s.now + s.fclk / 2) / s.fclk * s.fclk % 2 ^ 64 ∧
    s.sameRegs ([LIFE_CAL_SECONDS.one, TIME_CAL_SECONDS.one, TIME_CAL_STAMP.one].map Fld.key) t ∧
    t = { s with regs := t.regs } := by
  refine ⟨_, rfl, ?_, ?_, ?_, ?_, rfl⟩
  · rw [State.get_set_ne _ _ (by decide), State.get_set_ne _ _ (by decide), State.get_add_same]
    rfl
  · rw [State.get_set_ne _ _ (by decide), State.get_set_same, State.get_add_same]
    exact Nat.mod_mod _ _
  · rw [State.get_set_same]
    rfl
  · exact State.sameRegs_set _ (State.sameRegs_set _ (State.sameRegs_set (f := LIFE_CAL_SECONDS.one) _ (s.sameRegs_refl _) (by simp))
      (by simp)) (by simp)

/-- Settles O14: the next era's instant lies ahead, so that it is reached and passed; a fired alarm is put after the
evaluation up to its instant. -/
theorem eraAlarmsAndCalendarAdvance : Obligations.EraAlarmsAndCalendarAdvance := by
  refine ⟨eraAdvance_advances, fun s n h => ?_, alarmFire_waits, alarmFire_fires, calSecond_counts⟩
  simp only [exec, execAlarmFire, h]

/-! ### TIME_SYNC_CTRL (R91, R94) -/

/-- The fields of TIME_SYNC_CTRL and a pulse asked for, before ARM and DISARM act. -/
def State.syncFields (s : State) (value : Nat) : State :=
  let mode := field value 2 2
  let s1 := (s.set TIME_SYNC_CTRL_IN_EDGE.one (field value 4 1)).set TIME_SYNC_CTRL_OUT_MODE.one mode
  let s2 := if mode = s.get TIME_SYNC_CTRL_OUT_MODE.one then s1 else s1.onClk (fun c => { c with syncPulse := none })
  let from_ := s.refEdge (s.now + ticks100ns)
  if bitOf value 1 && mode == 1 && s.is CLK_STATUS_REF_OK.one then
    s2.onClk (fun c => { c with syncPulse := some (from_, from_ + 4 * s.refPeriod) })
  else s2

/-- The cells that the fields of TIME_SYNC_CTRL fill. -/
def syncFieldCells : List Nat := [TIME_SYNC_CTRL_IN_EDGE.one, TIME_SYNC_CTRL_OUT_MODE.one].map Fld.key

theorem State.syncFields_frame (s : State) (value : Nat) :
    s.sameRegs syncFieldCells (s.syncFields value) ∧ s.OnlyClocks (s.syncFields value) := by
  unfold State.syncFields
  extract_lets mode s1 s2 from_
  have h1 : s.sameRegs syncFieldCells s1 :=
    State.sameRegs_set _ (State.sameRegs_set _ (s.sameRegs_refl _) (by simp [syncFieldCells])) (by simp [syncFieldCells])
  have h2 : s.sameRegs syncFieldCells s2 := State.sameRegs_ite h1 (State.sameRegs_of_regs h1 rfl)
  have k1 : s.OnlyClocks s1 := ((State.OnlyClocks.refl s).set _ _).set _ _
  have k2 : s.OnlyClocks s2 := .ite k1 (k1.onClk _)
  exact ⟨State.sameRegs_ite (State.sameRegs_of_regs h2 rfl) h2, .ite (k2.onClk _) k2⟩

theorem State.syncCtrlWrite_disarms {s : State} {value : Nat} (h : bitOf value 5 = true) :
    s.syncCtrlWrite value = (s.syncFields value).set TIME_STATUS_ARMED.one 0 := if_pos h

theorem State.syncCtrlWrite_arms {s : State} {value : Nat} (h : bitOf value 5 = false) (harm : bitOf value 0 = true) :
    s.syncCtrlWrite value = if s.anyRuns || !s.locked then (s.syncFields value).set TIME_STATUS_ARM_REFUSED.one 1
      else (s.syncFields value).set TIME_STATUS_ARMED.one 1 := (if_neg (by simp [h])).trans (if_pos harm)

theorem State.syncCtrlWrite_onlyClocks (s : State) (value : Nat) : s.OnlyClocks (s.syncCtrlWrite value) :=
  have h := (s.syncFields_frame value).2
  .ite (h.set _ _) (.ite (.ite (h.set _ _) (h.set _ _)) h)

/-- ARM, DISARM and OUT_PULSE each set their bit of the value written and leave the others. -/
theorem sync_bits (n : Nat) : bitOf (setField n 0 1 1) 0 = true ∧ bitOf (setField n 0 1 1) 5 = bitOf n 5 ∧
    bitOf (setField n 5 1 1) 5 = true ∧ bitOf (setField n 1 1 1) 1 = true ∧ field (setField n 1 1 1) 2 2 = field n 2 2 := by
  simp only [bitOf, setField, field, trunc, beq_iff_eq]
  refine ⟨by omega, ?_, by omega, by omega, by omega⟩
  rw [show (n - n / 2 ^ 0 % 2 ^ 1 * 2 ^ 0 + 1 % 2 ^ 1 * 2 ^ 0) / 2 ^ 5 % 2 = n / 2 ^ 5 % 2 by omega]

/-- The TIME page without its unlock, which a write consumes. -/
abbrev State.timeOpened (s : State) : State := s.set (unlockedOf (PageClass.page .time 0)) 0

theorem State.timeOpened_onlyClocks (s : State) {t : State} (h : s.timeOpened.OnlyClocks t) : s.OnlyClocks t := by
  obtain ⟨regs, clk, rfl⟩ := h
  exact ⟨regs, clk, rfl⟩

theorem State.timeOpened_frame (s : State) : s.sameRegs [(unlockedOf (PageClass.page .time 0)).key] s.timeOpened :=
  State.sameRegs_set 0 (s.sameRegs_refl _) (by simp)

theorem syncArm_arms (s : State) (v : DWord) (h : s.admits (PageClass.page .time 0) = true) (hdisarm : bitOf v.toNat 5 = false) :
    ∃ t, exec (.syncArm v) s = .next t ∧
      (s.locked = true → s.anyRuns = false → t.is TIME_STATUS_ARMED.one = true) ∧
      ((s.locked = false ∨ s.anyRuns = true) → t.is TIME_STATUS_ARM_REFUSED.one = true ∧
        t.is TIME_STATUS_ARMED.one = s.is TIME_STATUS_ARMED.one) ∧
      s.sameRegs ([TIME_STATUS_ARMED.one, TIME_STATUS_ARM_REFUSED.one, TIME_SYNC_CTRL_IN_EDGE.one, TIME_SYNC_CTRL_OUT_MODE.one,
        unlockedOf (PageClass.page .time 0)].map Fld.key) t ∧ t = { s with regs := t.regs, clk := t.clk } := by
  obtain ⟨harm, hfive, -, -, -⟩ := sync_bits v.toNat
  have hopened := s.timeOpened_frame
  obtain ⟨hregs, -⟩ := s.timeOpened.syncFields_frame (setField v.toNat 0 1 1)
  have hframe : s.sameRegs (syncFieldCells ++ [(unlockedOf (PageClass.page .time 0)).key])
      (s.timeOpened.syncFields (setField v.toNat 0 1 1)) :=
    State.sameRegs_step (State.sameRegs_mono hopened (by simp)) hregs (by simp)
  have heq := State.syncCtrlWrite_arms (s := s.timeOpened) (hfive.trans hdisarm) harm
  rw [State.anyRuns_of_sameRegs hopened (by decide), State.locked, State.is_of_sameRegs hopened (by decide)] at heq
  have hmore : syncFieldCells ++ [(unlockedOf (PageClass.page .time 0)).key] ⊆ [TIME_STATUS_ARMED.one, TIME_STATUS_ARM_REFUSED.one,
      TIME_SYNC_CTRL_IN_EDGE.one, TIME_SYNC_CTRL_OUT_MODE.one, unlockedOf (PageClass.page .time 0)].map Fld.key := by decide
  refine ⟨_, congrArg Host.Outcome.next (s.gated_of_admits 0x050 (·.syncCtrlWrite (setField v.toNat 0 1 1)) h), ?_, ?_, ?_,
    (s.timeOpened_onlyClocks (s.timeOpened.syncCtrlWrite_onlyClocks _)).eq⟩
  all_goals rw [heq]
  · intro hlocked hruns
    rw [if_neg (by simpa [hruns] using show s.is CLK_STATUS_LOCKED.one = true from hlocked), State.is_set_same]
    rfl
  · intro hrefused
    have hor : (s.anyRuns || !s.is CLK_STATUS_LOCKED.one) = true := by
      rcases hrefused with hlocked | hruns
      · simp [show s.is CLK_STATUS_LOCKED.one = false from hlocked]
      · simp [hruns]
    rw [if_pos hor, State.is_set_same,
      State.is_set_ne _ _ (by decide), State.is_of_sameRegs hframe (by decide)]
    exact ⟨rfl, rfl⟩
  · exact State.sameRegs_ite (State.sameRegs_set 1 (State.sameRegs_mono hframe hmore) (by simp))
      (State.sameRegs_set 1 (State.sameRegs_mono hframe hmore) (by simp))

theorem syncDisarm_disarms (s : State) (v : DWord) (h : s.admits (PageClass.page .time 0) = true) :
    ∃ t, exec (.syncDisarm v) s = .next t ∧ t.is TIME_STATUS_ARMED.one = false ∧
      s.sameRegs ([TIME_STATUS_ARMED.one, TIME_SYNC_CTRL_IN_EDGE.one, TIME_SYNC_CTRL_OUT_MODE.one,
        unlockedOf (PageClass.page .time 0)].map Fld.key) t ∧ t = { s with regs := t.regs, clk := t.clk } := by
  obtain ⟨-, -, hdisarm, -, -⟩ := sync_bits v.toNat
  obtain ⟨hregs, -⟩ := s.timeOpened.syncFields_frame (setField v.toNat 5 1 1)
  refine ⟨_, congrArg Host.Outcome.next (s.gated_of_admits 0x050 (·.syncCtrlWrite (setField v.toNat 5 1 1)) h), ?_, ?_,
    (s.timeOpened_onlyClocks (s.timeOpened.syncCtrlWrite_onlyClocks _)).eq⟩
  all_goals rw [State.syncCtrlWrite_disarms hdisarm]
  · rw [State.is_set_same]
    rfl
  · exact State.sameRegs_set 0 (State.sameRegs_step (State.sameRegs_mono s.timeOpened_frame (by simp)) hregs (by decide)) (by simp)

/-- With mode 1 and a good reference OUT_PULSE starts a pulse (R94). -/
theorem State.syncFields_pulse {s : State} {value : Nat} (hbit : bitOf value 1 = true) (hmode : field value 2 2 = 1)
    (href : s.is CLK_STATUS_REF_OK.one = true) : (s.syncFields value).clk.syncPulse =
    some (s.refEdge (s.now + ticks100ns), s.refEdge (s.now + ticks100ns) + 4 * s.refPeriod) := by
  simp only [State.syncFields, hbit, hmode, href, beq_self_eq_true, Bool.and_self, if_true]
  rfl

theorem State.syncCtrlWrite_pulse (s : State) (value : Nat) :
    (s.syncCtrlWrite value).clk.syncPulse = (s.syncFields value).clk.syncPulse := by
  by_cases h : bitOf value 5 = true
  · rw [State.syncCtrlWrite_disarms h, State.set_clk]
  · by_cases harm : bitOf value 0 = true
    · rw [State.syncCtrlWrite_arms (Bool.eq_false_iff.mpr h) harm]
      split <;> rw [State.set_clk]
    · rw [show s.syncCtrlWrite value = s.syncFields value from (if_neg h).trans (if_neg harm)]

theorem syncOutPulse_pulses (s : State) (v : DWord) (h : s.admits (PageClass.page .time 0) = true) (hmode : field v.toNat 2 2 = 1)
    (href : s.is CLK_STATUS_REF_OK.one = true) :
    ∃ t, exec (.syncOutPulse v) s = .next t ∧
      t.clk.syncPulse = some (s.refEdge (s.now + ticks100ns), s.refEdge (s.now + ticks100ns) + 4 * s.refPeriod) ∧
      t = { s with regs := t.regs, clk := t.clk } := by
  obtain ⟨-, -, -, hbit, hkept⟩ := sync_bits v.toNat
  have hopened := s.timeOpened_frame
  have hperiod : s.timeOpened.refPeriod = s.refPeriod := by
    rw [State.refPeriod, State.ref100, State.is_of_sameRegs hopened (by decide)]
    rfl
  have hedge : ∀ x, s.timeOpened.refEdge x = s.refEdge x := fun x => by
    rw [State.refEdge, hperiod, State.refEdge]
    rfl
  refine ⟨_, congrArg Host.Outcome.next (s.gated_of_admits 0x050 (·.syncCtrlWrite (setField v.toNat 1 1 1)) h), ?_,
    (s.timeOpened_onlyClocks (s.timeOpened.syncCtrlWrite_onlyClocks _)).eq⟩
  rw [State.syncCtrlWrite_pulse, State.syncFields_pulse hbit (hkept.trans hmode)
    ((State.is_of_sameRegs hopened (by decide)).trans href), hperiod, hedge]
  rfl

/-! ### SYNC_IN (R91 to R93) -/

/-- The level of SYNC_IN as it is kept. -/
def State.syncTaken (s : State) (level : Bool) : State := { s with clk := { s.clk with syncIn := level } }

/-- What an accepted sync edge shows, before the timebase is set. -/
def State.syncNoted (s : State) : State :=
  ((((s.set TIME_SYNC_STAMP.one (s.refEdge s.now)).add TIME_SYNC_COUNT.one 1).set TIME_STATUS_ARMED.one 0).set
    TIME_STATUS_SYNCED.one 1).set TIME_STATUS_ESTIMATED.one 0 |>.raise 12

/-- The time that a sync edge sets. -/
def State.syncTime (s : State) : Nat := s.get TIME_SYNC_ERA.one * 2 ^ 64 + s.get TIME_SYNC_VALUE.one * 1024

theorem State.syncEdge_armed {s : State} (h : s.is TIME_STATUS_ARMED.one = true) : s.syncEdge =
    ((s.syncNoted.timeLoaded s.syncTime).reframe.retime (s.refEdge s.now) s.syncTime).alarmsRebuild := if_pos h

/-- The cells that an accepted sync edge writes. -/
def syncCells : List Nat :=
  [TIME_SYNC_COUNT.one, TIME_SYNC_STAMP.one, TIME_STATUS_SYNCED.one, TIME_STATUS_ARMED.one, TIME_STATUS_ESTIMATED.one].map Fld.key ++
    latches [12]

theorem State.syncNoted_shows (s : State) :
    s.syncNoted.get TIME_SYNC_COUNT.one = (s.get TIME_SYNC_COUNT.one + 1) % 2 ^ 32 ∧
    s.syncNoted.get TIME_SYNC_STAMP.one = s.refEdge s.now % 2 ^ 64 ∧ s.syncNoted.is TIME_STATUS_SYNCED.one = true ∧
    s.syncNoted.is TIME_STATUS_ARMED.one = false ∧ s.syncNoted.is TIME_STATUS_ESTIMATED.one = false ∧
    s.syncNoted.latched 12 = true ∧ s.sameRegs syncCells s.syncNoted := by
  unfold State.syncNoted
  refine ⟨?_, ?_, ?_, ?_, ?_, State.raise_latched _ 12 rfl, ?_⟩
  · simp (disch := decide) only [State.raise_get_ne, State.get_set_ne, State.get_add_same]
    rfl
  · simp (disch := decide) only [State.raise_get_ne, State.get_set_ne, State.get_add_ne, State.get_set_same]
    rfl
  · simp (disch := decide) only [State.is_raise_ne, State.is_set_ne, State.is_set_same]
    rfl
  · simp (disch := decide) only [State.is_raise_ne, State.is_set_ne, State.is_set_same]
    rfl
  · simp (disch := decide) only [State.is_raise_ne, State.is_set_same]
    rfl
  · have hcounted : s.sameRegs syncCells ((s.set TIME_SYNC_STAMP.one (s.refEdge s.now)).add TIME_SYNC_COUNT.one 1) :=
      State.sameRegs_set (f := TIME_SYNC_COUNT.one) _ (State.sameRegs_set _ (s.sameRegs_refl _) (by simp [syncCells]))
        (by simp [syncCells])
    exact State.sameRegs_raise 12 (State.sameRegs_set _ (State.sameRegs_set _ (State.sameRegs_set _ hcounted (by simp [syncCells]))
      (by simp [syncCells])) (by simp [syncCells])) (fun _ hx => List.mem_append_right _ hx)

/-- The registers, the time and the level of SYNC_IN. -/
def State.timeParts (s : State) : Sparse Nat × Nat × Bool := (s.regs, s.now, s.clk.syncIn)

theorem State.onSkein_timeParts (s : State) (n : Nat) (f : Skein → Skein) : (s.onSkein n f).timeParts = s.timeParts := rfl

theorem State.onSeq_timeParts (s : State) (n : Nat) (f : Seq → Seq) : (s.onSeq n f).timeParts = s.timeParts := rfl

theorem State.onClk_timeParts (s : State) {f : Clocks → Clocks} (hf : (f s.clk).syncIn = s.clk.syncIn) :
    (s.onClk f).timeParts = s.timeParts := congrArg (fun level => (s.regs, s.now, level)) hf

theorem State.alarms_timeParts (s : State) (alarms : Sparse Alarm) :
    (s.onClk (fun c => { c with alarms := alarms })).timeParts = s.timeParts := rfl

theorem State.onPins_timeParts (s : State) (f : Pins → Pins) : (s.onPins f).timeParts = s.timeParts := rfl

theorem State.onRcd_timeParts (s : State) (f : Record → Record) : (s.onRcd f).timeParts = s.timeParts := rfl

theorem State.onFlt_timeParts (s : State) (f : FaultMgr → FaultMgr) : (s.onFlt f).timeParts = s.timeParts := rfl

theorem State.frontStops_timeParts (s : State) : s.frontStops.timeParts = s.timeParts :=
  forEach_keeps State.timeParts s (fun _ u => u.onSkein_timeParts _ _)

/-- A load of the time, with evaluation and frames restarted, leaves registers and the level of SYNC_IN. -/
theorem State.reframe_timeParts (s : State) (new : Nat) : (s.timeLoaded new).reframe.timeParts = (s.regs, new, s.clk.syncIn) := rfl

/-- What follows a load of the time leaves registers, the time and the level of SYNC_IN. -/
theorem State.retime_keeps (s : State) (old new : Nat) :
    (s.retime old new).timeParts = s.timeParts := by
  unfold State.retime
  extract_lets mv move1 b s1 s2 s3 s4 s5
  have h1 : s1.timeParts = s.timeParts :=
    (forEach_keeps State.timeParts s.frontStops (fun _ u => u.onSkein_timeParts _ _)).trans s.frontStops_timeParts
  have h2 : s2.timeParts = s.timeParts := (forEach_keeps State.timeParts s1 (fun _ u => u.onSeq_timeParts _ _)).trans h1
  rw [State.onClk_timeParts, State.onFlt_timeParts, State.onRcd_timeParts, State.onPins_timeParts, h2]
  rfl

theorem State.alarmsRebuild_eq (s : State) : ∃ alarms, s.alarmsRebuild = s.onClk (fun c => { c with alarms := alarms }) :=
  forEach_alarms _ _ s (fun n u => by
    split
    · exact ⟨_, rfl⟩
    · exact ⟨u.clk.alarms, rfl⟩)

/-- A sync edge while armed (R93). -/
theorem State.syncEdge_shows {s : State} (h : s.is TIME_STATUS_ARMED.one = true) :
    s.syncEdge.regs = s.syncNoted.regs ∧ s.syncEdge.now = s.syncTime ∧ s.syncEdge.clk.syncIn = s.clk.syncIn := by
  obtain ⟨alarms, halarms⟩ := ((s.syncNoted.timeLoaded s.syncTime).reframe.retime (s.refEdge s.now) s.syncTime).alarmsRebuild_eq
  have hnoted : s.syncNoted.clk = s.clk := by rw [State.syncNoted, State.raise_clk]; rfl
  have hparts : s.syncEdge.timeParts = (s.syncNoted.regs, s.syncTime, s.clk.syncIn) := by
    rw [State.syncEdge_armed h, halarms, State.alarms_timeParts, State.retime_keeps, State.reframe_timeParts, hnoted]
  exact ⟨congrArg (·.1) hparts, congrArg (·.2.1) hparts, congrArg (·.2.2) hparts⟩

/-- A sync edge: SYNC_IN becomes active (R92). -/
theorem exec_syncInPulse_edge {s : State} {level : Bool} (hpresent : s.clk.refPresent = true)
    (hbefore : s.clk.syncIn = s.is TIME_SYNC_CTRL_IN_EDGE.one) (hlevel : level = !s.is TIME_SYNC_CTRL_IN_EDGE.one) :
    exec (.syncInPulse level) s = .next (s.syncTaken level).syncEdge := by
  simp only [exec, execSyncInPulse, hpresent, hbefore, hlevel]
  simp [State.syncTaken, State.onClk]

theorem syncInPulse_sets (s : State) (level : Bool) (hpresent : s.clk.refPresent = true) (harmed : s.is TIME_STATUS_ARMED.one = true)
    (hbefore : s.clk.syncIn = s.is TIME_SYNC_CTRL_IN_EDGE.one) (hlevel : level = !s.is TIME_SYNC_CTRL_IN_EDGE.one) :
    ∃ t, exec (.syncInPulse level) s = .next t ∧ t.now = s.get TIME_SYNC_ERA.one * 2 ^ 64 + s.get TIME_SYNC_VALUE.one * 1024 ∧
      t.clk.syncIn = level ∧ t.get TIME_SYNC_COUNT.one = (s.get TIME_SYNC_COUNT.one + 1) % 2 ^ 32 ∧
      t.get TIME_SYNC_STAMP.one = s.refEdge s.now % 2 ^ 64 ∧ t.is TIME_STATUS_SYNCED.one = true ∧
      t.is TIME_STATUS_ARMED.one = false ∧ t.is TIME_STATUS_ESTIMATED.one = false ∧ t.latched 12 = true ∧
      s.sameRegs ([TIME_SYNC_COUNT.one, TIME_SYNC_STAMP.one, TIME_STATUS_SYNCED.one, TIME_STATUS_ARMED.one,
        TIME_STATUS_ESTIMATED.one].map Fld.key ++ latches [12]) t ∧ s.sameMemory t := by
  have hexec := exec_syncInPulse_edge hpresent hbefore hlevel
  obtain ⟨hcount, hstamp, hsynced, hunarmed, hestimated, hlatch, hregs⟩ := (s.syncTaken level).syncNoted_shows
  obtain ⟨eregs, enow, elevel⟩ := State.syncEdge_shows (s := s.syncTaken level) harmed
  have hsame : (s.syncTaken level).syncNoted.sameRegs [] (s.syncTaken level).syncEdge :=
    State.sameRegs_of_regs (State.sameRegs_refl _ _) eregs
  exact ⟨_, hexec, enow, elevel, (hsame _ (by simp)).trans hcount, (hsame _ (by simp)).trans hstamp,
    (State.is_of_sameRegs hsame (by simp)).trans hsynced, (State.is_of_sameRegs hsame (by simp)).trans hunarmed,
    (State.is_of_sameRegs hsame (by simp)).trans hestimated, (State.latched_of_sameRegs hsame (by simp)).trans hlatch,
    State.sameRegs_of_regs hregs eregs, ((Evolves.refl true false s).execSyncInPulse.next hexec).sameMemory⟩

theorem syncInPulse_unarmed (s : State) (level : Bool) (hpresent : s.clk.refPresent = true)
    (harmed : s.is TIME_STATUS_ARMED.one = false) (hbefore : s.clk.syncIn = s.is TIME_SYNC_CTRL_IN_EDGE.one)
    (hlevel : level = !s.is TIME_SYNC_CTRL_IN_EDGE.one) :
    ∃ t, exec (.syncInPulse level) s = .next t ∧ t.is TIME_STATUS_UNARMED_SYNC.one = true ∧
      s.sameRegs [TIME_STATUS_UNARMED_SYNC.one.key] t ∧
      t = { s with regs := t.regs, clk := { s.clk with syncIn := level } } := by
  have hunarmed : (s.syncTaken level).syncEdge = (s.syncTaken level).set TIME_STATUS_UNARMED_SYNC.one 1 :=
    if_neg (show ¬ s.is TIME_STATUS_ARMED.one = true by simp [harmed])
  refine ⟨_, exec_syncInPulse_edge hpresent hbefore hlevel, ?_, ?_, ?_⟩
  all_goals rw [hunarmed]
  · rw [State.is_set_same]
    rfl
  · exact State.sameRegs_set 1 (State.sameRegs_of_regs (s.sameRegs_refl _) rfl) (by simp)
  · rfl

theorem syncInPulse_noEdge (s : State) (level : Bool) (hpresent : s.clk.refPresent = true)
    (h : s.clk.syncIn ≠ s.is TIME_SYNC_CTRL_IN_EDGE.one ∨ level = s.is TIME_SYNC_CTRL_IN_EDGE.one) :
    exec (.syncInPulse level) s = .next { s with clk := { s.clk with syncIn := level } } := by
  simp only [exec, execSyncInPulse, hpresent]
  rcases h with h | h
  · simp [hpresent, State.onClk, h]
  · simp [hpresent, State.onClk, h]

/-- Settles O15: ARM and DISARM act after the fields are put, which arm nothing; an accepted edge is noted in its own cells, and
what follows the load of the time leaves registers alone. -/
theorem syncArmsAndSetsTheTimebase : Obligations.SyncArmsAndSetsTheTimebase :=
  ⟨syncArm_arms, syncDisarm_disarms, syncOutPulse_pulses, syncInPulse_sets, syncInPulse_unarmed, syncInPulse_noEdge,
    fun _ _ h => if_pos (by simp [h])⟩

end Sys2Proof.Machine
end

