-- ==== Sys2Proof/Proofs/Lifetime.lean ====
section
/-! PROOFS. The lifetime counters (R96 to R98), and the obligation on them. -/

namespace Sys2Proof.Machine

/-! ### A cell held to its width -/

/-- What a key reads is the default or a listed value. -/
theorem sget_default_or_mem {α : Type} (m : Sparse α) (k : Nat) (d : α) : sget m k d = d ∨ (k, sget m k d) ∈ m := by
  induction m with
  | nil => exact .inl rfl
  | cons p m ih =>
    obtain ⟨j, v⟩ := p
    unfold sget
    split
    · next h => simp [h]
    · exact ih.imp id (List.mem_cons_of_mem _)

/-- A field of a sound state is held to its width. -/
theorem State.Sound.get_lt {s : State} (h : s.Sound) (f : Fld) (hpos : 1 ≤ f.width) (hle : f.width ≤ 64)
    (hreset : f.reset < 2 ^ f.width) : s.get f < 2 ^ f.width := by
  have hkey : keyWidth f.key = f.width := by unfold keyWidth Fld.key; omega
  rcases sget_default_or_mem s.regs f.key f.reset with hd | hm
  · exact hd.trans_lt hreset
  · have hv := ((wellKept_iff _).mp h.regs).2 _ hm
    rwa [hkey] at hv

/-! ### Writes of the host (R96, R97) -/

/-- The LIFE page without its unlock, which a write consumes. -/
abbrev State.lifeOpened (s : State) : State := s.set (unlockedOf (PageClass.page .life 0)) 0

theorem State.lifeOpened_frame (s : State) : s.sameRegs [(unlockedOf (PageClass.page .life 0)).key] s.lifeOpened :=
  State.sameRegs_set 0 (s.sameRegs_refl _) (by simp)

theorem calendarWrite_loads (s : State) (v : DWord) (h : s.admits (PageClass.page .life 0) = true) :
    ∃ t, exec (.calendarWrite v) s = .next t ∧ t.get LIFE_CAL_SECONDS.one = v.toNat ∧ t.is LIFE_STATUS_CAL_VALID.one = true ∧
      t.get LIFE_EDITS.one = (s.get LIFE_EDITS.one + 1) % 2 ^ 32 ∧ t.pageLocked (PageClass.page .life 0) = true ∧
      s.sameRegs ([LIFE_CAL_SECONDS.one, LIFE_STATUS_CAL_VALID.one, LIFE_EDITS.one, unlockedOf (PageClass.page .life 0)].map
        Fld.key) t ∧ t = { s with regs := t.regs } := by
  refine ⟨_, congrArg Host.Outcome.next (s.gated_of_admits 0x040 (fun s => (s.calendarLoad v.toNat).lifeEdit) h),
    ?_, ?_, ?_, ?_, ?_, rfl⟩
  · rw [State.lifeEdit, State.calendarLoad]
    simp (disch := decide) only [State.get_add_ne, State.get_set_ne, State.get_set_same]
    exact Nat.mod_eq_of_lt v.isLt
  · rw [State.is, State.lifeEdit, State.calendarLoad]
    simp (disch := decide) only [State.get_add_ne, State.get_set_same]
    rfl
  · rw [State.lifeEdit, State.calendarLoad]
    simp (disch := decide) only [State.get_add_same, State.get_set_ne]
    rfl
  · rw [State.pageLocked, State.is, State.lifeEdit, State.calendarLoad]
    simp (disch := decide) only [State.get_add_ne, State.get_set_ne, State.get_set_same]
    rfl
  · exact State.sameRegs_set (f := LIFE_EDITS.one) _ (State.sameRegs_set (f := LIFE_STATUS_CAL_VALID.one) _
      (State.sameRegs_set (f := LIFE_CAL_SECONDS.one) _ (State.sameRegs_mono s.lifeOpened_frame (by simp)) (by simp))
      (by simp)) (by simp)

/-- The cells of a window lie apart from a cell at another offset. -/
theorem RegField.win_key_ne {f : RegField} {i : Nat} {g : Fld} (hf : (f.win 0).placed = true) (hg : g.placed = true)
    (hi : i < 16384) (h : f.off ≠ g.off) : (f.win i).key ≠ g.key := by
  obtain ⟨hoff, hlo, -, hwidth⟩ := (Fld.placed_iff _).mp hf
  intro e
  obtain ⟨-, hsame, -, -⟩ := Fld.key_inj (f := f.win i) ⟨hoff, hlo, hi, hwidth⟩ ((Fld.placed_iff g).mp hg) e
  exact h hsame

/-- A wear counter's cell lies apart from LIFE_EDITS and from the page's unlock, where the index cells are held to their
widths. -/
theorem State.wearCell_apart {s : State} {c : WearCounter} {f : Fld} (h : s.Sound) (hf : s.wearCell c = some f) :
    f.key ≠ LIFE_EDITS.one.key ∧ f.key ≠ (unlockedOf (PageClass.page .life 0)).key := by
  have hbands : ∀ b < 8, (LIFE_BAND_SECONDS.elt b).key ≠ LIFE_EDITS.one.key ∧
      (LIFE_BAND_SECONDS.elt b).key ≠ (unlockedOf (PageClass.page .life 0)).key := by decide
  have hstacks : ∀ k < 4, (LIFE_HBM_MIB.elt k).key ≠ LIFE_EDITS.one.key ∧
      (LIFE_HBM_MIB.elt k).key ≠ (unlockedOf (PageClass.page .life 0)).key := by decide
  cases c
  case hbmMib k => cases hf; exact hstacks k k.isLt
  case bandSeconds b => cases hf; exact hbands b b.isLt
  case sectorErases =>
    cases hf
    have hindex : s.get LIFE_SECTOR_INDEX.one < 2 ^ 10 := h.get_lt _ (by decide) (by decide) (by decide)
    exact ⟨RegField.win_key_ne rfl rfl (by omega) (by decide), RegField.win_key_ne rfl rfl (by omega) (by decide)⟩
  case ovrCount =>
    simp only [State.wearCell] at hf
    split at hf
    · cases hf
    · next hindex =>
      cases hf
      exact ⟨RegField.win_key_ne rfl rfl (by omega) (by decide), RegField.win_key_ne rfl rfl (by omega) (by decide)⟩
  all_goals
    cases hf
    decide

theorem State.wearCell_lifeOpened (s : State) (c : WearCounter) : s.lifeOpened.wearCell c = s.wearCell c := by
  cases c
  case sectorErases => simp (disch := decide) only [State.wearCell, State.get_set_ne]
  case ovrCount => simp (disch := decide) only [State.wearCell, State.get_set_ne]
  all_goals rfl

theorem wearCounterWrite_loads (s : State) (c : WearCounter) (v : BitVec 64) (f : Fld) (hsound : s.Sound)
    (h : s.admits (PageClass.page .life 0) = true) (hf : s.wearCell c = some f) :
    ∃ t, exec (.wearCounterWrite c v) s = .next t ∧ t.get f = v.toNat % 2 ^ f.width ∧
      t.get LIFE_EDITS.one = (s.get LIFE_EDITS.one + 1) % 2 ^ 32 ∧ t.pageLocked (PageClass.page .life 0) = true ∧
      s.sameRegs ([f, LIFE_EDITS.one, unlockedOf (PageClass.page .life 0)].map Fld.key) t ∧ t = { s with regs := t.regs } := by
  obtain ⟨hedits, hunlock⟩ := State.wearCell_apart hsound hf
  have hloads : exec (.wearCounterWrite c v) s = .next ((s.lifeOpened.set f v.toNat).lifeEdit) := by
    simp only [exec, execWearCounterWrite, s.gated_of_admits _ _ h, s.wearCell_lifeOpened, hf]
  refine ⟨_, hloads, ?_, ?_, ?_, ?_, rfl⟩
  · rw [State.lifeEdit, State.get_add_ne _ _ hedits, State.get_set_same]
  · rw [State.lifeEdit, State.get_add_same, State.get_set_ne _ _ hedits.symm, State.get_set_ne _ _ (by decide)]
    rfl
  · rw [State.pageLocked, State.is, State.lifeEdit, State.get_add_ne _ _ (by decide), State.get_set_ne _ _ hunlock.symm,
      State.get_set_same]
    rfl
  · exact State.sameRegs_set (f := LIFE_EDITS.one) _ (State.sameRegs_set _ (State.sameRegs_mono s.lifeOpened_frame (by simp))
      (by simp)) (by simp)

/-! ### Power-on seconds (R97) -/

theorem bandOf_lt (t : Int) : bandOf t < 8 := Nat.lt_succ_of_le List.countP_le_length

/-- A cell of the LIFE page is neither CAL_AGE nor a skein's idle time. -/
theorem State.powerOnRest_get (s : State) {g : Fld} (hpage : g.page = PageClass.page .life 0) (hg : g.placed = true) :
    (forEach (upto 65) s.ageSecond (fun n s => if s.skeinIdle n then s.addSat (FE_IDLE_SECONDS.of n) 1 else s)).get g =
      s.get g := by
  have hage : s.ageSecond.get g = s.get g := by
    unfold State.ageSecond
    split
    · rfl
    · exact State.get_addSat_ne _ _ (Fld.key_ne_of_page_lt rfl (by rw [hpage]; decide)).symm
  refine (forEach_get _ (fun n _ u => ?_)).trans hage
  split
  · exact State.get_addSat_ne _ _ (Fld.key_ne_of_page_lt hg (by
      rw [hpage]
      exact Nat.lt_of_lt_of_le (by decide) (Nat.le_add_right _ n)))
  · rfl

theorem powerOnSecond_counts (s : State) : ∃ t, exec .powerOnSecond s = .next t ∧
    t.get LIFE_POWER_ON_SECONDS.one = (s.get LIFE_POWER_ON_SECONDS.one + 1) % 2 ^ 32 ∧
    t.get (LIFE_BAND_SECONDS.elt (bandOf s.hottest)) = (s.get (LIFE_BAND_SECONDS.elt (bandOf s.hottest)) + 1) % 2 ^ 32 ∧
    t = { s with regs := t.regs, clk := t.clk } := by
  have hbands : ∀ b < 8, (LIFE_BAND_SECONDS.elt b).placed = true ∧
      (LIFE_BAND_SECONDS.elt b).key ≠ LIFE_POWER_ON_SECONDS.one.key := by decide
  obtain ⟨hplaced, hband⟩ := hbands _ (bandOf_lt s.hottest)
  refine ⟨_, rfl, ?_, ?_, State.OnlyClocks.eq ?_⟩
  · rw [State.powerOnRest_get _ rfl rfl, State.get_add_ne _ _ hband.symm, State.get_add_same]
    rfl
  · rw [State.powerOnRest_get _ rfl hplaced, State.get_add_same, State.get_add_ne _ _ hband]
    rfl
  · have hage : State.OnlyClocks s (State.ageSecond ((s.add LIFE_POWER_ON_SECONDS.one 1).add
        (LIFE_BAND_SECONDS.elt (bandOf s.hottest)) 1)) :=
      have h := ((State.OnlyClocks.refl s).set LIFE_POWER_ON_SECONDS.one _).set (LIFE_BAND_SECONDS.elt (bandOf s.hottest)) _
      .ite (h.onClk _) ((h.set CLK_QUALITY_CAL_AGE.one _).onClk _)
    exact hage.forEach (fun n u hu => .ite (hu.set (FE_IDLE_SECONDS.of n) _) hu)

/-! ### HBM wear (R97) -/

/-- The whole MiB of stack `k` written and not yet reported. -/
def State.freshMib (s : State) (k : Nat) : Nat :=
  (s.get (HBM_WRITTEN.of k) + 2 ^ 64 - sget s.hbm.reported k 0) % 2 ^ 64 / 2 ^ 20

/-- The report of one stack. -/
def State.mibReported (k : Nat) (s : State) : State :=
  (s.add (LIFE_HBM_MIB.elt k) (s.freshMib k)).onHbm (fun h => { h with
    reported := smod h.reported k 0 (fun v => (v + s.freshMib k * 2 ^ 20) % 2 ^ 64) })

theorem exec_hbmWearReport (s : State) : exec .hbmWearReport s = .next (forEach (upto 4) s State.mibReported) :=
  congrArg (fun f => Host.Outcome.next (forEach (upto 4) s f))
    (funext fun k => funext fun u => by rw [State.mibReported, State.freshMib])

/-- A stack's report leaves the counter and the figures of another. -/
theorem State.mibReported_ne (s : State) {j k : Nat} (hj : j < 4) (hk : k < 4) (h : k ≠ j) :
    (s.mibReported j).get (LIFE_HBM_MIB.elt k) = s.get (LIFE_HBM_MIB.elt k) ∧ (s.mibReported j).freshMib k = s.freshMib k := by
  have hcells : ∀ j < 4, ∀ k < 4, k ≠ j → (LIFE_HBM_MIB.elt k).key ≠ (LIFE_HBM_MIB.elt j).key ∧
      (HBM_WRITTEN.of k).key ≠ (LIFE_HBM_MIB.elt j).key := by decide
  obtain ⟨hmib, hwritten⟩ := hcells j hj k hk h
  unfold State.freshMib State.mibReported
  rw [State.onHbm_get, State.get_add_ne _ _ hmib, State.onHbm_get, State.get_add_ne _ _ hwritten, State.onHbm_hbm, State.add_hbm,
    smod, sget_sput_ne _ _ _ _ h]
  exact ⟨rfl, rfl⟩

theorem State.mibReported_same (s : State) (k : Nat) :
    (s.mibReported k).get (LIFE_HBM_MIB.elt k) = (s.get (LIFE_HBM_MIB.elt k) + s.freshMib k) % 2 ^ 64 := by
  rw [State.mibReported, State.onHbm_get, State.get_add_same]
  rfl

/-- Reports of other stacks alone leave a stack's counter and figures. -/
theorem State.mibReports_ne {l : List Nat} {k : Nat} (s : State) (hk : k < 4) (hl : ∀ j ∈ l, j < 4 ∧ k ≠ j) :
    (forEach l s State.mibReported).get (LIFE_HBM_MIB.elt k) = s.get (LIFE_HBM_MIB.elt k) ∧
      (forEach l s State.mibReported).freshMib k = s.freshMib k :=
  List.foldlRecOn (motive := fun u : State => u.get (LIFE_HBM_MIB.elt k) = s.get (LIFE_HBM_MIB.elt k) ∧
    u.freshMib k = s.freshMib k) l _ ⟨rfl, rfl⟩ (fun u hu j hj => by
      obtain ⟨hget, hfresh⟩ := u.mibReported_ne (hl j hj).1 hk (hl j hj).2
      exact ⟨hget.trans hu.1, hfresh.trans hu.2⟩)

/-- Each of the stacks listed once has its MiB counted. -/
theorem State.mibReports_get {l : List Nat} {k : Nat} (s : State) (hl : ∀ j ∈ l, j < 4) (hnodup : l.Nodup) (hk : k ∈ l) :
    (forEach l s State.mibReported).get (LIFE_HBM_MIB.elt k) = (s.get (LIFE_HBM_MIB.elt k) + s.freshMib k) % 2 ^ 64 := by
  obtain ⟨before, after, rfl⟩ := List.append_of_mem hk
  have hsplit : forEach (before ++ k :: after) s State.mibReported =
      forEach after ((forEach before s State.mibReported).mibReported k) State.mibReported := by
    simp only [forEach, List.foldl_append, List.foldl_cons]
  obtain ⟨-, hafter, hbefore⟩ := List.nodup_append.mp hnodup
  obtain ⟨hget, hfresh⟩ := s.mibReports_ne (l := before) (hl k hk)
    (fun j hj => ⟨hl j (by simp [hj]), (hbefore j hj k (by simp)).symm⟩)
  rw [hsplit, (State.mibReports_ne _ (hl k hk) (fun j hj => ⟨hl j (by simp [hj]), fun e =>
    (List.nodup_cons.mp hafter).1 (e ▸ hj)⟩)).1, State.mibReported_same, hget, hfresh]

/-- `t` is `s` but for its registers and the MiB reported. -/
def State.OnlyReported (s t : State) : Prop := t = { s with regs := t.regs, hbm := { s.hbm with reported := t.hbm.reported } }

theorem State.OnlyReported.put {s t : State} (h : s.OnlyReported t) (f : Fld) (v : Nat) (g : Sparse Nat → Sparse Nat) :
    s.OnlyReported ((t.set f v).onHbm (fun h => { h with reported := g h.reported })) := by
  unfold State.OnlyReported at h
  rw [h]
  rfl

theorem State.OnlyReported.mibReported {s t : State} (h : s.OnlyReported t) (k : Nat) : s.OnlyReported (t.mibReported k) := by
  unfold State.mibReported State.add
  exact h.put _ _ (fun m => smod m k 0 (fun v => (v + t.freshMib k * 2 ^ 20) % 2 ^ 64))

theorem hbmWearReport_counts (s : State) : ∃ t, exec .hbmWearReport s = .next t ∧
    (∀ k < 4, t.get (LIFE_HBM_MIB.elt k) = (s.get (LIFE_HBM_MIB.elt k) +
      (s.get (HBM_WRITTEN.of k) + 2 ^ 64 - sget s.hbm.reported k 0) % 2 ^ 64 / 2 ^ 20) % 2 ^ 64) ∧
    s.sameRegs ((upto 4).map (fun k => (LIFE_HBM_MIB.elt k).key)) t ∧
    t = { s with regs := t.regs, hbm := { s.hbm with reported := t.hbm.reported } } := by
  refine ⟨_, exec_hbmWearReport s, fun k hk => ?_, ?_, ?_⟩
  · have hmem : k ∈ upto 4 := List.mem_range.mpr hk
    rw [s.mibReports_get (by decide) (by decide) hmem, State.freshMib]
  · exact List.foldlRecOn (motive := s.sameRegs ((upto 4).map (fun k => (LIFE_HBM_MIB.elt k).key))) (upto 4) _ (s.sameRegs_refl _)
      (fun u hu k hk => State.sameRegs_of_regs (State.sameRegs_set (f := LIFE_HBM_MIB.elt k)
        ((u.get (LIFE_HBM_MIB.elt k)) + u.freshMib k) hu (List.mem_map_of_mem hk)) rfl)
  · exact List.foldlRecOn (motive := s.OnlyReported) (upto 4) _ rfl (fun u hu k _ => hu.mibReported k)

/-! ### Thermal cycles (R98) -/

theorem unsigned_lt (w : Nat) (i : Int) : unsigned w i < 2 ^ w := by
  have hpos : (0 : Int) < ((2 ^ w : Nat) : Int) := by exact_mod_cast Nat.two_pow_pos w
  exact (Int.toNat_lt (Int.emod_nonneg _ hpos.ne')).mpr (Int.emod_lt_of_pos _ hpos)

theorem State.putThermal_shows (s : State) (t : Int) (dir : Nat) :
    (s.putThermal t dir).get LIFE_THERMAL_STATE_EXTREME.one = unsigned 8 t ∧
      (s.putThermal t dir).get LIFE_THERMAL_STATE_DIRECTION.one = dir % 2 ∧
      s.sameRegs ([LIFE_THERMAL_STATE_EXTREME.one, LIFE_THERMAL_STATE_DIRECTION.one].map Fld.key) (s.putThermal t dir) := by
  unfold State.putThermal
  refine ⟨?_, ?_, State.sameRegs_set _ (State.sameRegs_set _ (s.sameRegs_refl _) (by simp)) (by simp)⟩
  · rw [State.get_set_ne _ _ (by decide), State.get_set_same]
    exact Nat.mod_eq_of_lt (unsigned_lt 8 t)
  · rw [State.get_set_same]
    rfl

theorem thermalSample_fresh (s : State) (h : s.pwr.aonFresh = true) :
    ∃ t, exec .thermalSample s = .next t ∧ t.get LIFE_THERMAL_STATE_EXTREME.one = unsigned 8 s.hottest ∧
      t.get LIFE_THERMAL_STATE_DIRECTION.one = 0 ∧ t = { s with regs := t.regs, pwr := { s.pwr with aonFresh := false } } ∧
      s.sameRegs ([LIFE_THERMAL_STATE_EXTREME.one, LIFE_THERMAL_STATE_DIRECTION.one].map Fld.key) t := by
  obtain ⟨hext, hdir, hregs⟩ := s.putThermal_shows s.hottest 0
  exact ⟨_, if_pos h, hext, hdir, rfl, hregs⟩

/-- A sample while the phase rises. -/
theorem exec_thermalSample_rising {s : State} (h : s.pwr.aonFresh = false) (hdir : s.get LIFE_THERMAL_STATE_DIRECTION.one = 0) :
    exec .thermalSample s = if signed 8 (s.get LIFE_THERMAL_STATE_EXTREME.one) < s.hottest then .next (s.putThermal s.hottest 0)
      else if 40 < signed 8 (s.get LIFE_THERMAL_STATE_EXTREME.one) - s.hottest then .next (s.putThermal s.hottest 1)
      else .next s := (if_neg (by simp [h])).trans (if_pos hdir)

/-- A sample while the phase falls. -/
theorem exec_thermalSample_falling {s : State} (h : s.pwr.aonFresh = false) (hdir : s.get LIFE_THERMAL_STATE_DIRECTION.one = 1) :
    exec .thermalSample s = if s.hottest < signed 8 (s.get LIFE_THERMAL_STATE_EXTREME.one) then .next (s.putThermal s.hottest 1)
      else if 40 < s.hottest - signed 8 (s.get LIFE_THERMAL_STATE_EXTREME.one) then
        .next (((s.putThermal s.hottest 0).add LIFE_THERMAL_CYCLES.one 1).raise 31)
      else .next s := (if_neg (by simp [h])).trans (if_neg (by rw [hdir]; decide))

theorem thermalSample_follows (s : State) (h : s.pwr.aonFresh = false) :
    (s.get LIFE_THERMAL_STATE_DIRECTION.one = 0 → (signed 8 (s.get LIFE_THERMAL_STATE_EXTREME.one) < s.hottest →
        exec .thermalSample s = .next (s.putThermal s.hottest 0)) ∧
      (40 < signed 8 (s.get LIFE_THERMAL_STATE_EXTREME.one) - s.hottest →
        exec .thermalSample s = .next (s.putThermal s.hottest 1))) ∧
    (s.get LIFE_THERMAL_STATE_DIRECTION.one = 1 → s.hottest < signed 8 (s.get LIFE_THERMAL_STATE_EXTREME.one) →
      exec .thermalSample s = .next (s.putThermal s.hottest 1)) ∧
    (s.get LIFE_THERMAL_STATE_DIRECTION.one = 0 → s.hottest ≤ signed 8 (s.get LIFE_THERMAL_STATE_EXTREME.one) →
      signed 8 (s.get LIFE_THERMAL_STATE_EXTREME.one) - s.hottest ≤ 40 → exec .thermalSample s = .next s) ∧
    (s.get LIFE_THERMAL_STATE_DIRECTION.one = 1 → signed 8 (s.get LIFE_THERMAL_STATE_EXTREME.one) ≤ s.hottest →
      s.hottest - signed 8 (s.get LIFE_THERMAL_STATE_EXTREME.one) ≤ 40 → exec .thermalSample s = .next s) := by
  refine ⟨fun hdir => ⟨fun hup => ?_, fun hturn => ?_⟩, fun hdir hdown => ?_, fun hdir hle hnear => ?_, fun hdir hle hnear => ?_⟩
  · rw [exec_thermalSample_rising h hdir, if_pos hup]
  · rw [exec_thermalSample_rising h hdir, if_neg (by omega), if_pos hturn]
  · rw [exec_thermalSample_falling h hdir, if_pos hdown]
  · rw [exec_thermalSample_rising h hdir, if_neg (by omega), if_neg (by omega)]
  · rw [exec_thermalSample_falling h hdir, if_neg (by omega), if_neg (by omega)]

theorem thermalSample_cycle (s : State) (h : s.pwr.aonFresh = false) (hdir : s.get LIFE_THERMAL_STATE_DIRECTION.one = 1)
    (hturn : 40 < s.hottest - signed 8 (s.get LIFE_THERMAL_STATE_EXTREME.one)) :
    ∃ t, exec .thermalSample s = .next t ∧
      t.get LIFE_THERMAL_CYCLES.one = (s.get LIFE_THERMAL_CYCLES.one + 1) % 2 ^ 32 ∧ t.latched 31 = true ∧
      t.get LIFE_THERMAL_STATE_DIRECTION.one = 0 ∧ s.sameRegs ([LIFE_THERMAL_STATE_EXTREME.one,
        LIFE_THERMAL_STATE_DIRECTION.one, LIFE_THERMAL_CYCLES.one].map Fld.key ++ latches [31]) t ∧ s.sameButRegs t := by
  obtain ⟨-, hzero, hregs⟩ := s.putThermal_shows s.hottest 0
  refine ⟨_, (exec_thermalSample_falling h hdir).trans ((if_neg (by omega)).trans (if_pos hturn)), ?_,
    State.raise_latched _ 31 rfl, ?_, ?_, ?_⟩
  · rw [State.raise_get_ne _ _ (by decide), State.get_add_same, hregs _ (by decide)]
    rfl
  · rw [State.raise_get_ne _ _ (by decide), State.get_add_ne _ _ (by decide)]
    exact hzero
  · exact State.sameRegs_raise 31 (State.sameRegs_set (f := LIFE_THERMAL_CYCLES.one) _ (State.sameRegs_mono hregs (by simp)) (by simp))
      (fun _ hx => List.mem_append_right _ hx)
  · exact State.sameButRegs_raise 31 (State.sameButRegs_refl _)

/-- Settles O16: a wear counter's cell lies apart from the cells that its write touches besides, and the stacks' reports do
not meet. -/
theorem lifetimeCountersCount : Obligations.LifetimeCountersCount :=
  ⟨calendarWrite_loads, wearCounterWrite_loads, powerOnSecond_counts, hbmWearReport_counts, thermalSample_fresh,
    thermalSample_follows, thermalSample_cycle⟩

end Sys2Proof.Machine
end

