-- ==== Sys2Proof/Proofs/Journal.lean ====
section
/-! PROOFS. The journal and the always-on watch (R99, R101, R441), and the obligation on them. -/

namespace Sys2Proof.Machine

/-! ### What the boot flash begins leaves alone (R97, R445) -/

/-- A cell that neither an erase count nor the flash's marks in SVC_STATUS are: by its width or its place. -/
def Fld.flashKept (f : Fld) : Bool :=
  (decide (f.key % 64 ≠ 31) || decide (f.key < (LIFE_SECTOR_ERASES.win 0).key)) &&
    !([SVC_STATUS_FLASH_BUSY.one, SVC_STATUS_SUSPENDED.one].map Fld.key).contains f.key

theorem Fld.flashKept_erases {f : Fld} (h : f.flashKept = true) (k : Nat) : f.key ≠ (LIFE_SECTOR_ERASES.win k).key := by
  have hwin : ∀ k, (LIFE_SECTOR_ERASES.win k).key = (LIFE_SECTOR_ERASES.win 0).key + k * 64 := fun k => by
    simp only [Fld.key]
    omega
  have hlast : (LIFE_SECTOR_ERASES.win 0).key % 64 = 31 := by decide
  obtain ⟨hclear, -⟩ := Bool.and_eq_true_iff.mp h
  simp only [Bool.or_eq_true, decide_eq_true_eq] at hclear
  rw [hwin]
  omega

theorem State.erasesCount_get (s : State) (op : FlashOp) {g : Fld} (hg : g.flashKept = true) :
    (s.erasesCount op).get g = s.get g := by
  unfold State.erasesCount
  exact forEach_get s (fun _ _ u => u.get_add_ne 1 (Fld.flashKept_erases hg _))

theorem State.erasesCount_svc (s : State) (op : FlashOp) : (s.erasesCount op).svc = s.svc := by
  unfold State.erasesCount
  exact forEach_keeps State.svc s (fun _ _ => rfl)

theorem State.flashBegins_get (s : State) {g : Fld} (hg : g.flashKept = true) : s.flashBegins.get g = s.get g := by
  unfold State.flashBegins
  split
  · split
    · rfl
    · exact s.erasesCount_get _ hg
  · rfl

theorem State.flashMarks_get (s : State) {g : Fld} (hg : g.flashKept = true) : s.flashMarks.get g = s.get g := by
  obtain ⟨-, hmarks⟩ := Bool.and_eq_true_iff.mp hg
  simp only [List.map_cons, List.map_nil, List.contains_cons, List.contains_nil, Bool.or_false, Bool.not_eq_true',
    Bool.or_eq_false_iff, beq_eq_false_iff_ne] at hmarks
  obtain ⟨hbusy, hsuspended⟩ := hmarks
  unfold State.flashMarks
  rw [State.get_set_ne _ _ hsuspended, State.get_set_ne _ _ hbusy, s.flashBegins_get hg]

theorem State.flashMarks_svc (s : State) : ∃ begun, s.flashMarks.svc = { s.svc with begun := begun } := by
  unfold State.flashMarks
  rw [State.set_svc, State.set_svc]
  unfold State.flashBegins
  split
  · next op hop =>
    split
    · exact ⟨_, rfl⟩
    · exact ⟨s.svc.begun ++ [op], by rw [State.onSvc_svc, s.erasesCount_svc]⟩
  · exact ⟨_, rfl⟩

/-- While a commit is in progress no operation begins. -/
theorem State.flashMarks_suspended {s : State} (h : s.svc.commit.isSome = true) :
    s.flashMarks = { s with regs := s.flashMarks.regs } := by
  have hbegins : s.flashBegins = s := by rw [State.flashBegins, show s.flashNow = none from if_pos h]
  unfold State.flashMarks
  rw [hbegins]
  rfl

theorem State.flashMarks_is (s : State) {g : Fld} (hg : g.flashKept = true) : s.flashMarks.is g = s.is g := by
  rw [State.is, s.flashMarks_get hg, State.is]

theorem State.flashMarks_latched (s : State) (k : Nat) (hk : (evPlace k).all (fun e => e.latchFld.flashKept) = true) :
    s.flashMarks.latched k = s.latched k := by
  unfold State.latched
  cases h : evPlace k with
  | none => rfl
  | some e => exact s.flashMarks_is (by simpa [h] using hk)

/-! ### A commit begins (R99, R441) -/

/-- The record that a commit writes. -/
def State.commitRecord (s : State) : JournalRec :=
  ⟨(s.get LIFE_JOURNAL_SEQ.one + 1) % 2 ^ 32, (s.regs.filter (fun p => decide (keyPage p.1 = PageClass.page .life 0))).map
    (fun p => (p.1, if sectorCell p.1 then min p.2 16777215 else p.2))⟩

theorem State.commitStart_eq (s : State) : s.commitStart =
    ((s.set LIFE_STATUS_JOURNAL_BUSY.one 1).onSvc (fun v => { v with commit := some s.commitRecord })).flashMarks := by
  rw [State.commitRecord, List.map_eq_foldr]
  rfl

theorem State.commitStart_shows (s : State) : s.commitStart.is LIFE_STATUS_JOURNAL_BUSY.one = true ∧
    s.commitStart.svc.commit = some s.commitRecord ∧ s.commitStart.svc.commitNext = s.svc.commitNext ∧
    s.commitStart = { s with regs := s.commitStart.regs, svc := { s.svc with commit := s.commitStart.svc.commit } } := by
  have hrest := State.flashMarks_suspended
    (s := (s.set LIFE_STATUS_JOURNAL_BUSY.one 1).onSvc (fun v => { v with commit := some s.commitRecord })) rfl
  rw [← State.commitStart_eq] at hrest
  have hsvc : s.commitStart.svc = { s.svc with commit := some s.commitRecord } := by rw [hrest]; rfl
  refine ⟨?_, by rw [hsvc], by rw [hsvc], ?_⟩
  · rw [State.commitStart_eq, State.flashMarks_is _ (by decide), State.onSvc_is, State.is_set_same]
    rfl
  · rw [hsvc]
    exact hrest

/-- A latch that is neither a mark of the flash nor BUSY stands as a commit begins. -/
theorem State.commitStart_latched (s : State) (k : Nat) (hk : (evPlace k).all (fun e => e.latchFld.flashKept) = true)
    (hbusy : LIFE_STATUS_JOURNAL_BUSY.one.key ∉ latches [k]) : s.commitStart.latched k = s.latched k := by
  rw [State.commitStart_eq, State.flashMarks_latched _ k hk]
  exact s.latched_set_ne 1 hbusy

theorem State.mem_commitRecord (s : State) (k v : Nat) : (k, v) ∈ s.commitRecord.cells ↔
    ∃ w, (k, w) ∈ s.regs ∧ keyPage k = PageClass.page .life 0 ∧ v = if sectorCell k then min w 16777215 else w := by
  simp only [State.commitRecord, List.mem_map, List.mem_filter, decide_eq_true_eq, Prod.mk.injEq, Prod.exists]
  constructor
  · rintro ⟨j, w, ⟨hmem, hpage⟩, hk, hv⟩
    subst hk
    exact ⟨w, hmem, hpage, hv.symm⟩
  · rintro ⟨w, hmem, hpage, hv⟩
    exact ⟨k, w, ⟨hmem, hpage⟩, rfl, hv.symm⟩

theorem State.commitRequested_begins {s : State} (h : s.svc.commit = none) : s.commitRequested = s.commitStart :=
  if_neg (by simp [h])

theorem State.commitRequested_follows {s : State} (h : s.svc.commit.isSome = true) :
    s.commitRequested = s.onSvc (fun v => { v with commitNext := true }) := if_pos h

theorem journalPeriod_begins (s : State) (h : s.svc.commit = none) :
    ∃ t r, exec .journalPeriod s = .next t ∧ t.is LIFE_STATUS_JOURNAL_BUSY.one = true ∧
    t.svc.commit = some r ∧ r.seq = (s.get LIFE_JOURNAL_SEQ.one + 1) % 2 ^ 32 ∧
    (∀ k v, (k, v) ∈ r.cells ↔ ∃ w, (k, w) ∈ s.regs ∧ keyPage k = PageClass.page .life 0 ∧
      v = if sectorCell k then min w 16777215 else w) ∧
    t = { s with regs := t.regs, svc := { s.svc with commit := t.svc.commit } } := by
  obtain ⟨hbusy, hcommit, -, hrest⟩ := s.commitStart_shows
  exact ⟨_, _, congrArg Host.Outcome.next (State.commitRequested_begins h), hbusy, hcommit, rfl, s.mem_commitRecord, hrest⟩

theorem exec_journalCommit {s : State} (h : s.admits (PageClass.page .life 0) = true) :
    exec .journalCommit s = .next s.lifeOpened.commitRequested :=
  congrArg Host.Outcome.next (s.gated_of_admits 0x04C State.commitRequested h)

theorem journalCommit_begins (s : State) (hadmits : s.admits (PageClass.page .life 0) = true) (h : s.svc.commit = none) :
    ∃ t r, exec .journalCommit s = .next t ∧ t.is LIFE_STATUS_JOURNAL_BUSY.one = true ∧ t.svc.commit = some r ∧
      r.seq = (s.get LIFE_JOURNAL_SEQ.one + 1) % 2 ^ 32 ∧
      t = { s with regs := t.regs, svc := { s.svc with commit := t.svc.commit } } := by
  obtain ⟨hbusy, hcommit, -, hrest⟩ := s.lifeOpened.commitStart_shows
  refine ⟨_, _, (exec_journalCommit hadmits).trans (congrArg Host.Outcome.next (State.commitRequested_begins h)), hbusy, hcommit,
    ?_, hrest⟩
  rw [State.commitRecord, State.get_set_ne _ _ (by decide)]

theorem journalCommit_follows (s : State) (hadmits : s.admits (PageClass.page .life 0) = true) (h : s.svc.commit.isSome = true) :
    ∃ t, exec .journalCommit s = .next t ∧ t.svc = { s.svc with commitNext := true } ∧
      s.sameRegs [(unlockedOf (PageClass.page .life 0)).key] t ∧ t = { s with regs := t.regs, svc := t.svc } :=
  ⟨_, (exec_journalCommit hadmits).trans (congrArg Host.Outcome.next (State.commitRequested_follows h)), rfl,
    State.sameRegs_of_regs s.lifeOpened_frame rfl, rfl⟩

/-! ### A commit ends (R99) -/

/-- The state without the commit that ends. -/
def State.commitEnded (s : State) : State :=
  (s.set LIFE_STATUS_JOURNAL_BUSY.one 0).onSvc (fun v => { v with commit := none, commitNext := false })

theorem exec_journalCommitDone {s : State} {r : JournalRec} (ok : Bool) (h : s.svc.commit = some r) :
    exec (.journalCommitDone ok) s = .next (if s.svc.commitNext then
      (if ok then s.commitEnded.commitStored r else s.commitEnded.flashFailed.raise 27).flashMarks.commitStart
      else (if ok then s.commitEnded.commitStored r else s.commitEnded.flashFailed.raise 27).flashMarks) := by
  simp only [exec, execJournalCommitDone, h, State.commitEnded]

/-- The record stands and the ring moves on, before the sector ahead is erased. -/
def State.recordPut (s : State) (r : JournalRec) : State :=
  (((s.onFlash (fun f => { f with journal := sput f.journal (s.get SVC_JOURNAL.one) none (some r) })).set SVC_JOURNAL.one
    (s.get SVC_JOURNAL.one + 1)).set LIFE_JOURNAL_SEQ.one r.seq).raise 26

/-- What a stored record shows, a further operation of the flash queued or not. -/
theorem State.commitStored_rest (s : State) (r : JournalRec) :
    (∀ g : Fld, g.flashKept = true → (s.commitStored r).get g = (s.recordPut r).get g) ∧
    ∃ ops begun, (s.commitStored r).svc = { (s.recordPut r).svc with ops := ops, begun := begun } := by
  have hstored : s.commitStored r = if s.get SVC_JOURNAL.one % 16 = 0 then
      (s.recordPut r).flashQueue (.eraseJournal (432 + (s.get SVC_JOURNAL.one / 16 + 1) % 64)) else s.recordPut r := rfl
  rw [hstored]
  split
  · refine ⟨fun g hg => State.flashMarks_get _ hg, ?_⟩
    obtain ⟨begun, hbegun⟩ := State.flashMarks_svc ((s.recordPut r).onSvc
      (fun v => { v with ops := v.ops ++ [.eraseJournal (432 + (s.get SVC_JOURNAL.one / 16 + 1) % 64)] }))
    exact ⟨_, begun, hbegun⟩
  · exact ⟨fun _ _ => rfl, _, _, rfl⟩

theorem State.recordPut_svc (s : State) (r : JournalRec) : (s.recordPut r).svc = { s.svc with
    flash := { s.svc.flash with journal := sput s.svc.flash.journal (s.get SVC_JOURNAL.one) none (some r) } } := by
  rw [State.recordPut, State.raise_svc]
  rfl

theorem State.commitStored_svc (s : State) (r : JournalRec) : ∃ ops begun, (s.commitStored r).svc = { s.svc with
    flash := { s.svc.flash with journal := sput s.svc.flash.journal (s.get SVC_JOURNAL.one) none (some r) }
    ops := ops, begun := begun } := by
  obtain ⟨-, ops, begun, hsvc⟩ := s.commitStored_rest r
  exact ⟨ops, begun, by rw [hsvc, s.recordPut_svc]⟩

/-- A latch of one cell of the flash's rest. -/
theorem State.latched_of_get {s t : State} (k : Nat) (hk : (evPlace k).all (fun e => e.latchFld.flashKept) = true)
    (h : ∀ g : Fld, g.flashKept = true → t.get g = s.get g) : t.latched k = s.latched k := by
  unfold State.latched
  cases he : evPlace k with
  | none => rfl
  | some e => exact congrArg (· == 1) (h _ (by simpa [he] using hk))

theorem State.commitStored_shows (s : State) (r : JournalRec) :
    (s.commitStored r).get SVC_JOURNAL.one = (s.get SVC_JOURNAL.one + 1) % 1024 ∧
    (s.commitStored r).get LIFE_JOURNAL_SEQ.one = r.seq % 2 ^ 32 ∧
    (s.commitStored r).is LIFE_STATUS_JOURNAL_BUSY.one = s.is LIFE_STATUS_JOURNAL_BUSY.one ∧
    (s.commitStored r).latched 26 = true := by
  obtain ⟨hget, -⟩ := s.commitStored_rest r
  refine ⟨?_, ?_, ?_, ?_⟩
  · rw [hget _ (by decide), State.recordPut, State.raise_get_ne _ _ (by decide), State.get_set_ne _ _ (by decide),
      State.get_set_same]
    rfl
  · rw [hget _ (by decide), State.recordPut, State.raise_get_ne _ _ (by decide), State.get_set_same]
    rfl
  · rw [State.is, hget _ (by decide), State.recordPut, State.raise_get_ne _ _ (by decide), State.get_set_ne _ _ (by decide),
      State.get_set_ne _ _ (by decide)]
    rfl
  · rw [State.latched_of_get 26 (by decide) hget]
    exact State.raise_latched _ 26 rfl

theorem State.flashFailed_shows (s : State) : (s.flashFailed.raise 27).latched 27 = true ∧
    (s.flashFailed.raise 27).latched 48 = true ∧
    (s.flashFailed.raise 27).is LIFE_STATUS_JOURNAL_BUSY.one = s.is LIFE_STATUS_JOURNAL_BUSY.one ∧
    (s.flashFailed.raise 27).svc = s.svc := by
  refine ⟨State.raise_latched _ 27 rfl, State.latched_raise_of_latched 27 (State.raise_latched _ 48 rfl), ?_, ?_⟩
  · rw [State.is_raise_ne _ _ (by decide), State.flashFailed, State.is_raise_ne _ _ (by decide), State.is,
      State.get_add_ne _ _ (by decide), State.is]
  · rw [State.raise_svc, State.flashFailed, State.raise_svc]
    rfl

theorem State.commitEnded_busy (s : State) : s.commitEnded.is LIFE_STATUS_JOURNAL_BUSY.one = false := by
  rw [State.commitEnded, State.onSvc_is, State.is_set_same]
  rfl

theorem journalCommitDone_memory {s t : State} {ok : Bool} (h : exec (.journalCommitDone ok) s = .next t) : s.sameMemory t :=
  ((Evolves.refl true false s).execJournalCommitDone.next h).sameMemory

theorem journalCommitDone_stores (s : State) (r : JournalRec) (hcommit : s.svc.commit = some r) (hnext : s.svc.commitNext = false) :
    ∃ t, exec (.journalCommitDone true) s = .next t ∧ t.svc.commit = none ∧
      sget t.svc.flash.journal (s.get SVC_JOURNAL.one) none = some r ∧
      (∀ p, p ≠ s.get SVC_JOURNAL.one → sget t.svc.flash.journal p none = sget s.svc.flash.journal p none) ∧
      t.get SVC_JOURNAL.one = (s.get SVC_JOURNAL.one + 1) % 1024 ∧ t.get LIFE_JOURNAL_SEQ.one = r.seq % 2 ^ 32 ∧
      t.is LIFE_STATUS_JOURNAL_BUSY.one = false ∧ t.latched 26 = true ∧ s.sameMemory t := by
  have hexec : exec (.journalCommitDone true) s = .next (s.commitEnded.commitStored r).flashMarks := by
    rw [exec_journalCommitDone true hcommit, hnext]
    rfl
  obtain ⟨hplace, hseq, hbusy, hlatch⟩ := s.commitEnded.commitStored_shows r
  obtain ⟨ops, begun, hstored⟩ := s.commitEnded.commitStored_svc r
  obtain ⟨begun', hsvc⟩ := (s.commitEnded.commitStored r).flashMarks_svc
  have hat : s.commitEnded.get SVC_JOURNAL.one = s.get SVC_JOURNAL.one := by
    rw [State.commitEnded, State.onSvc_get, State.get_set_ne _ _ (by decide)]
  rw [hstored, hat] at hsvc
  rw [hat] at hplace
  have hjournal : (s.commitEnded.commitStored r).flashMarks.svc.flash.journal =
      sput s.svc.flash.journal (s.get SVC_JOURNAL.one) none (some r) := by
    rw [hsvc]
    rfl
  refine ⟨_, hexec, by rw [hsvc]; rfl, ?_, fun p hp => ?_, ?_, ?_, ?_, ?_, journalCommitDone_memory hexec⟩
  · rw [hjournal, sget_sput_same]
  · rw [hjournal, sget_sput_ne _ _ _ _ hp]
  · rw [State.flashMarks_get _ (by decide), hplace]
  · rw [State.flashMarks_get _ (by decide), hseq]
  · rw [State.flashMarks_is _ (by decide), hbusy, s.commitEnded_busy]
  · rw [State.flashMarks_latched _ _ (by decide), hlatch]

theorem journalCommitDone_fails (s : State) (r : JournalRec) (hcommit : s.svc.commit = some r) (hnext : s.svc.commitNext = false) :
    ∃ t, exec (.journalCommitDone false) s = .next t ∧ t.svc.commit = none ∧ t.svc.flash = s.svc.flash ∧
      t.is LIFE_STATUS_JOURNAL_BUSY.one = false ∧ t.latched 27 = true ∧ t.latched 48 = true ∧ s.sameMemory t := by
  have hexec : exec (.journalCommitDone false) s = .next (s.commitEnded.flashFailed.raise 27).flashMarks := by
    rw [exec_journalCommitDone false hcommit, hnext]
    rfl
  obtain ⟨hfailed, hflash, hbusy, hsame⟩ := s.commitEnded.flashFailed_shows
  obtain ⟨begun, hsvc⟩ := (s.commitEnded.flashFailed.raise 27).flashMarks_svc
  rw [hsame] at hsvc
  refine ⟨_, hexec, by rw [hsvc]; rfl, by rw [hsvc]; rfl, ?_, ?_, ?_, journalCommitDone_memory hexec⟩
  · rw [State.flashMarks_is _ (by decide), hbusy, s.commitEnded_busy]
  · rw [State.flashMarks_latched _ _ (by decide), hfailed]
  · rw [State.flashMarks_latched _ _ (by decide), hflash]

/-- With a commit to follow, that one begins at once. -/
theorem journalCommitDone_follows (s : State) (ok : Bool) (hcommit : s.svc.commit.isSome = true) (hnext : s.svc.commitNext = true) :
    ∃ t, exec (.journalCommitDone ok) s = .next t ∧ t.svc.commit.isSome = true ∧ t.svc.commitNext = false ∧
      t.is LIFE_STATUS_JOURNAL_BUSY.one = true ∧ t.latched (if ok then 26 else 27) = true ∧ s.sameMemory t := by
  obtain ⟨r, hr⟩ := Option.isSome_iff_exists.mp hcommit
  have hexec := exec_journalCommitDone ok hr
  rw [hnext, if_pos rfl] at hexec
  obtain ⟨hbusy, hbegun, hfollow, -⟩ := ((if ok then s.commitEnded.commitStored r else
    s.commitEnded.flashFailed.raise 27).flashMarks).commitStart_shows
  obtain ⟨begun, hsvc⟩ := (if ok then s.commitEnded.commitStored r else s.commitEnded.flashFailed.raise 27).flashMarks_svc
  refine ⟨_, hexec, by rw [hbegun]; rfl, ?_, hbusy, ?_, journalCommitDone_memory hexec⟩
  · rw [hfollow, hsvc]
    cases ok with
    | true =>
      obtain ⟨ops, begun', hstored⟩ := s.commitEnded.commitStored_svc r
      exact congrArg Service.commitNext hstored
    | false =>
      obtain ⟨-, -, -, hsame⟩ := s.commitEnded.flashFailed_shows
      exact congrArg Service.commitNext hsame
  · cases ok with
    | true =>
      obtain ⟨-, -, -, hlatch⟩ := s.commitEnded.commitStored_shows r
      exact (State.commitStart_latched _ 26 (by decide) (by decide)).trans
        ((State.flashMarks_latched _ 26 (by decide)).trans hlatch)
    | false =>
      obtain ⟨hlatch, -, -, -⟩ := s.commitEnded.flashFailed_shows
      exact (State.commitStart_latched _ 27 (by decide) (by decide)).trans
        ((State.flashMarks_latched _ 27 (by decide)).trans hlatch)

/-! ### Battery and crystal (R101) -/

theorem vbatLow_shows (s : State) (h : s.is LIFE_STATUS_VBAT_OK.one = true) : ∃ t, exec .vbatLow s = .next t ∧
    t.is LIFE_STATUS_VBAT_OK.one = false ∧ t.latched 29 = true ∧
    s.sameRegs (LIFE_STATUS_VBAT_OK.one.key :: latches [29]) t ∧ s.sameButRegs t := by
  refine ⟨_, if_pos h, ?_, State.raise_latched _ 29 rfl, ?_, ?_⟩
  · rw [State.is_raise_ne _ _ (by decide), State.is_set_same]
    rfl
  · exact State.sameRegs_raise 29 (State.sameRegs_set _ (s.sameRegs_refl _) (by simp)) (fun _ hx => List.mem_cons_of_mem _ hx)
  · exact State.sameButRegs_raise 29 (State.sameButRegs_refl _)

theorem vbatRestored_shows (s : State) : ∃ t, exec .vbatRestored s = .next t ∧ t.is LIFE_STATUS_VBAT_OK.one = true ∧
    s.sameRegs [LIFE_STATUS_VBAT_OK.one.key] t ∧ t = { s with regs := t.regs } := by
  refine ⟨_, rfl, ?_, State.sameRegs_set _ (s.sameRegs_refl _) (by simp), rfl⟩
  rw [State.is_set_same]
  rfl

theorem xtalStop_shows (s : State) (h : s.is LIFE_STATUS_XTAL_OK.one = true) : ∃ t, exec .xtalStop s = .next t ∧
    t.is LIFE_STATUS_XTAL_OK.one = false ∧ t.is LIFE_STATUS_CAL_VALID.one = false ∧ t.latched 30 = true ∧
    (s.is LIFE_STATUS_CAL_VALID.one = true → t.latched 28 = true) ∧
    s.sameRegs ([LIFE_STATUS_XTAL_OK.one, LIFE_STATUS_CAL_VALID.one].map Fld.key ++ latches [28, 30]) t ∧ s.sameButRegs t := by
  have hvalid : ((s.set LIFE_STATUS_XTAL_OK.one 0).raise 30).is LIFE_STATUS_CAL_VALID.one = s.is LIFE_STATUS_CAL_VALID.one := by
    rw [State.is_raise_ne _ _ (by decide), State.is_set_ne _ _ (by decide)]
  refine ⟨_, if_pos h, ?_, ?_, ?_, fun hcal => ?_, ?_, ?_⟩
  · rw [State.calendarInvalid, State.is, State.raiseIf_get_ne _ _ _ (by decide), State.get_set_ne _ _ (by decide),
      State.raise_get_ne _ _ (by decide), State.get_set_same]
    rfl
  · rw [State.calendarInvalid, State.is, State.raiseIf_get_ne _ _ _ (by decide), State.get_set_same]
    rfl
  · refine State.latched_raiseIf_of_latched _ 28 ?_
    rw [State.latched_set_ne _ _ (by decide)]
    exact State.raise_latched _ 30 rfl
  · rw [State.calendarInvalid, hvalid, hcal]
    exact State.raise_latched _ 28 rfl
  · exact State.sameRegs_raiseIf _ 28 (State.sameRegs_set _ (State.sameRegs_raise 30 (State.sameRegs_set _ (s.sameRegs_refl _)
      (by simp)) (by decide)) (by simp)) (by decide)
  · exact State.sameButRegs_raiseIf _ 28 (State.sameButRegs_set _ _ (State.sameButRegs_raise 30 (State.sameButRegs_set _ _
      (State.sameButRegs_refl _))))

/-- Settles O17: while a commit is in progress no operation of the flash begins; one that begins after it counts erases and marks
SVC_STATUS alone. -/
theorem journalCommitsAndAlwaysOnWatch : Obligations.JournalCommitsAndAlwaysOnWatch :=
  ⟨journalPeriod_begins, fun _ h => congrArg Host.Outcome.next (State.commitRequested_follows h), journalCommit_begins,
    journalCommit_follows, fun s ok h => by simp only [exec, execJournalCommitDone, h], journalCommitDone_follows,
    journalCommitDone_stores, journalCommitDone_fails, vbatLow_shows, fun _ h => if_neg (by simp [h]),
    fun _ h => if_neg (by simp [h]), vbatRestored_shows, xtalStop_shows⟩

end Sys2Proof.Machine
end

