-- ==== Sys2Proof/Proofs/Calibration.lean ====
section
/-! PROOFS. Calibration's report (R102, R125), and the obligation on it. -/

namespace Sys2Proof.Machine

/-- Out of reset with a calibration busy, and with a residual of skein 0 that its cell of eight bits cannot hold: no sound
state, and the obligation asks for none. -/
def overWideResidual : State :=
  { State.reset with regs := [(FEG_STATUS_CAL_BUSY.one.key, 1), ((FE_CAL_STATUS_RESID.of 0).key, 256)] }

/-- A calibration that finds nothing ends there: TDC_RMS holds the eight low bits of the worst residual alone. -/
theorem overWideResidual_done : ∃ t, exec (.fullCalDone []) overWideResidual = .next t ∧
    t.get CLK_QUALITY_TDC_RMS.one = 0 ∧ ((upto 65).map (fun n => t.get (FE_CAL_STATUS_RESID.of n))).foldl max 0 = 256 :=
  ⟨_, rfl, by decide +kernel, by decide +kernel⟩

/-- Refutes O20: a residual above its cell's eight bits, which no sound state holds, is not what TDC_RMS reads, and the clause on
FULL_CAL_DONE speaks of every state. -/
theorem not_calibrationAndSelfCheckReport : ¬ Obligations.CalibrationAndSelfCheckReport := by
  intro h
  obtain ⟨-, hdone, -⟩ := h
  obtain ⟨t, hexec, hzero, hworst⟩ := overWideResidual_done
  obtain ⟨u, hexec', -, -, -, -, hrms, -⟩ := hdone overWideResidual [] (by decide +kernel)
  cases hexec.symm.trans hexec'
  rw [hzero, hworst] at hrms
  exact absurd hrms (by decide)

end Sys2Proof.Machine
end

