-- ==== Sys2Proof/Proofs/Mailbox.lean ====
section
/-! PROOFS. The life of a mailbox command (R395, R397, R398): it is taken, and it ends with its reply. -/

namespace Sys2Proof.Machine

/-! ### Bytes put into BAR4 read back (R43) -/

/-- A run of bytes put from `x` on: what a key reads. -/
theorem sget_putRun (bytes : List Byte) (m : Sparse Nat) (x k : Nat) :
    sget (bytes.foldl (fun (a : Sparse Nat × Nat) b => (sput a.1 a.2 0 b.toNat, a.2 + 1)) (m, x)).1 k 0 =
      if x ≤ k ∧ k < x + bytes.length then (bytes.getD (k - x) 0).toNat else sget m k 0 := by
  induction bytes generalizing m x with
  | nil => simp [show ¬ (x ≤ k ∧ k < x) by omega]
  | cons b bytes ih =>
    rw [List.foldl_cons, ih]
    rcases Nat.lt_trichotomy k x with hlt | rfl | hgt
    · rw [if_neg (by omega), if_neg (by omega), sget_sput_ne _ _ _ _ (by omega)]
    · rw [if_neg (by omega), if_pos (by simp), sget_sput_same]
      simp
    · rw [sget_sput_ne _ _ _ _ (by omega)]
      have hoff : k - x = (k - (x + 1)) + 1 := by omega
      simp only [List.length_cons, hoff, List.getD_cons_succ]
      exact if_congr (by omega) rfl rfl

theorem State.bar4Bytes_putBar4 (s : State) (x : Nat) (bytes : List Byte) :
    (s.putBar4 x bytes).bar4Bytes x bytes.length = bytes := by
  refine List.ext_getElem (by simp [State.bar4Bytes, upto]) (fun i hi hb => ?_)
  have hget := sget_putRun bytes s.link.bar4 x (x + i)
  rw [if_pos (by omega), Nat.add_sub_cancel_left, List.getD_eq_getElem _ _ hb] at hget
  simp only [State.bar4Bytes, upto, List.getElem_map, List.getElem_range]
  exact (congrArg (BitVec.ofNat 8) hget).trans (BitVec.eq_of_toNat_eq (by simp))

theorem State.bar4Bytes_of_bar4 {s t : State} (h : t.link.bar4 = s.link.bar4) (x n : Nat) : t.bar4Bytes x n = s.bar4Bytes x n := by
  simp only [State.bar4Bytes, State.bar4, h]

/-! ### Updates of the mailbox's parts -/

/-- `t` is `s` but for its registers, BAR4 and messages, the mailbox and the service controller. -/
def State.MailOnly (s t : State) : Prop := ∃ regs link mbx svc, t = { s with regs := regs, link := link, mbx := mbx, svc := svc }

namespace State.MailOnly

section
variable {s t u : State}

theorem refl (s : State) : MailOnly s s := ⟨s.regs, s.link, s.mbx, s.svc, rfl⟩

theorem set (h : MailOnly s t) (f : Fld) (v : Nat) : MailOnly s (t.set f v) := by
  obtain ⟨regs, link, mbx, svc, rfl⟩ := h
  exact ⟨_, link, mbx, svc, rfl⟩

theorem onLink (h : MailOnly s t) (f : Link → Link) : MailOnly s (t.onLink f) := by
  obtain ⟨regs, link, mbx, svc, rfl⟩ := h
  exact ⟨regs, _, mbx, svc, rfl⟩

theorem onMbx (h : MailOnly s t) (f : Mailbox → Mailbox) : MailOnly s (t.onMbx f) := by
  obtain ⟨regs, link, mbx, svc, rfl⟩ := h
  exact ⟨regs, link, _, svc, rfl⟩

theorem onSvc (h : MailOnly s t) (f : Service → Service) : MailOnly s (t.onSvc f) := by
  obtain ⟨regs, link, mbx, svc, rfl⟩ := h
  exact ⟨regs, link, mbx, _, rfl⟩

theorem raise (h : MailOnly s t) (k : Nat) : MailOnly s (t.raise k) := by
  obtain ⟨regs, link, mbx, svc, rfl⟩ := h
  rw [State.raise_eq]
  exact ⟨_, _, mbx, svc, rfl⟩

theorem ite {c : Prop} [Decidable c] (ht : MailOnly s t) (hu : MailOnly s u) : MailOnly s (if c then t else u) := by
  split
  · exact ht
  · exact hu

theorem eq (h : MailOnly s t) : t = { s with regs := t.regs, link := t.link, mbx := t.mbx, svc := t.svc } := by
  obtain ⟨regs, link, mbx, svc, rfl⟩ := h
  rfl

theorem trans (h : MailOnly s t) (k : MailOnly t u) : MailOnly s u := by
  obtain ⟨_, _, _, _, rfl⟩ := h
  obtain ⟨_, _, _, _, rfl⟩ := k
  exact ⟨_, _, _, _, rfl⟩

/-- Another part of the state stands. -/
theorem keeps {α : Type} (h : MailOnly s t) (φ : State → α)
    (hφ : ∀ regs link mbx svc, φ { s with regs := regs, link := link, mbx := mbx, svc := svc } = φ s := by
      exact fun _ _ _ _ => rfl) : φ t = φ s := by
  obtain ⟨regs, link, mbx, svc, rfl⟩ := h
  exact hφ _ _ _ _

end

end State.MailOnly

/-! ### A command in service -/

/-- In `u` the command `c`, taken in `s`, is in progress; none has ended since. -/
structure State.InService (s u : State) (c : MbxCmd) : Prop where
  cur : u.mbx.cur = some c
  completed : u.get MBX_COMPLETED.one = s.get MBX_COMPLETED.one
  fromPort : u.svc.fromPort = s.svc.fromPort

theorem State.InService.step {s u t : State} {c : MbxCmd} (h : s.InService u c) (hmbx : t.mbx = u.mbx)
    (hsvc : t.svc.fromPort = u.svc.fromPort) (hcell : t.get MBX_COMPLETED.one = u.get MBX_COMPLETED.one) : s.InService t c :=
  ⟨by rw [hmbx, h.cur], hcell.trans h.completed, hsvc.trans h.fromPort⟩

/-! ### Its end (R395, R398, R419) -/

/-- A reply stands in BAR4, and the command in progress has ended. -/
def State.replied (s : State) (c : MbxCmd) (result : Nat) (reply : List Byte) (long : Bool) : State :=
  let s1 := s.putBar4 (if long then 0x6000 else 0x5000) reply
  let s2 := ((s1.set MBX_REPLY_CODE.one c.code).set MBX_REPLY_BULK.one (flag long)).set MBX_REPLY_LEN.one reply.length
  let s3 := ((s2.set MBX_STATUS_TAG.one c.tag).set MBX_STATUS_RESULT.one result).set MBX_STATUS_STATE.one 1
  ((s3.add MBX_COMPLETED.one 1).onMbx (fun m => { m with cur := none })).raise 32

theorem State.mbxEndWith_eq {s : State} {c : MbxCmd} (h : s.mbx.cur = some c) (result : Nat) (reply : List Byte) (bulk : Bool) :
    s.mbxEndWith result reply bulk = if s.svc.fromPort then s.forwardEnd c result reply
      else s.replied c result reply (bulk || decide (4096 < reply.length)) := by
  unfold State.mbxEndWith
  rw [h]
  rfl

/-- What an end shows, forwarded or not. -/
structure State.Concluded (s t : State) (c : MbxCmd) (result : Nat) : Prop where
  tag : t.get MBX_STATUS_TAG.one = c.tag % 2 ^ 16
  result : t.get MBX_STATUS_RESULT.one = result % 2 ^ 8
  state : t.get MBX_STATUS_STATE.one = 1
  completed : t.get MBX_COMPLETED.one = (s.get MBX_COMPLETED.one + 1) % 2 ^ 32
  cur : t.mbx.cur = none

theorem State.forwardEnd_concluded (s : State) (c : MbxCmd) (result : Nat) (reply : List Byte) :
    s.Concluded (s.forwardEnd c result reply) c result := by
  unfold State.forwardEnd
  extract_lets s1 s2
  have h2 : s.Concluded s2 c result := by
    refine ⟨?_, ?_, ?_, ?_, rfl⟩
    all_goals simp (disch := decide) only [s2, s1, State.onSvc_get, State.onMbx_get, State.get_add_same, State.get_add_ne,
      State.get_set_ne, State.get_set_same]
    all_goals rfl
  split
  · exact ⟨h2.tag, h2.result, h2.state, h2.completed, h2.cur⟩
  · exact h2

theorem State.replied_concluded (s : State) (c : MbxCmd) (result : Nat) (reply : List Byte) (long : Bool) :
    s.Concluded (s.replied c result reply long) c result := by
  unfold State.replied
  extract_lets s1 s2 s3
  have hcounted : (s3.add MBX_COMPLETED.one 1).get MBX_COMPLETED.one = (s.get MBX_COMPLETED.one + 1) % 2 ^ 32 := by
    simp (disch := decide) only [s3, s2, s1, State.putBar4, State.get_add_same, State.get_set_ne, State.onLink_get]
    rfl
  refine ⟨?_, ?_, ?_, ?_, by rw [State.raise_mbx]; rfl⟩
  all_goals rw [State.raise_get_ne _ _ (by decide), State.onMbx_get]
  · simp (disch := decide) only [s3, State.get_add_ne, State.get_set_ne, State.get_set_same]
    rfl
  · simp (disch := decide) only [s3, State.get_add_ne, State.get_set_ne, State.get_set_same]
    rfl
  · simp (disch := decide) only [s3, State.get_add_ne, State.get_set_same]
    rfl
  · exact hcounted

/-- The reply of a command that the host's mailbox took. -/
theorem State.replied_shows (s : State) (c : MbxCmd) (result : Nat) (reply : List Byte) (long : Bool) :
    (s.replied c result reply long).latched 32 = true ∧ (s.replied c result reply long).get MBX_REPLY_CODE.one = c.code % 2 ^ 8 ∧
    (s.replied c result reply long).is MBX_REPLY_BULK.one = long ∧
    (s.replied c result reply long).get MBX_REPLY_LEN.one = reply.length % 2 ^ 15 ∧
    (s.replied c result reply long).bar4Bytes (if long then 0x6000 else 0x5000) reply.length = reply := by
  unfold State.replied
  extract_lets s1 s2 s3
  refine ⟨State.raise_latched _ 32 rfl, ?_, ?_, ?_, ?_⟩
  · rw [State.raise_get_ne _ _ (by decide), State.onMbx_get]
    simp (disch := decide) only [s3, s2, State.get_add_ne, State.get_set_ne, State.get_set_same]
    rfl
  · rw [State.is_raise_ne _ _ (by decide), State.is, State.onMbx_get]
    simp (disch := decide) only [s3, s2, State.get_add_ne, State.get_set_ne, State.get_set_same]
    cases long <;> rfl
  · rw [State.raise_get_ne _ _ (by decide), State.onMbx_get]
    simp (disch := decide) only [s3, s2, State.get_add_ne, State.get_set_ne, State.get_set_same]
    rfl
  · rw [State.bar4Bytes_of_bar4 (State.raise_bar4 _ 32)]
    exact s.bar4Bytes_putBar4 _ reply

/-- What an end leaves: the mailbox, BAR4 and the service port apart, only registers move. -/
theorem State.mbxEndWith_mailOnly (s : State) (result : Nat) (reply : List Byte) (bulk : Bool) :
    s.MailOnly (s.mbxEndWith result reply bulk) := by
  unfold State.mbxEndWith
  split
  · exact .refl s
  · next c _ =>
    extract_lets long s1 s2 s3
    have h2 : s.MailOnly s2 := (((State.MailOnly.refl s).onLink _).set _ _).set _ _ |>.set _ _
    have h3 : s.MailOnly s3 := ((h2.set _ _).set _ _).set _ _
    refine .ite ?_ (((h3.set MBX_COMPLETED.one _).onMbx _).raise 32)
    unfold State.forwardEnd
    extract_lets t1 t2
    have k1 : s.MailOnly t1 := (((State.MailOnly.refl s).set _ _).set _ _).set _ _
    have k2 : s.MailOnly t2 := ((k1.set MBX_COMPLETED.one _).onMbx _).onSvc _
    exact .ite (k2.onSvc _) k2

theorem State.mbxEndWith_rest (s : State) (result : Nat) (reply : List Byte) (bulk : Bool) :
    s.mbxEndWith result reply bulk = { s with
      regs := (s.mbxEndWith result reply bulk).regs, link := (s.mbxEndWith result reply bulk).link
      mbx := (s.mbxEndWith result reply bulk).mbx, svc := (s.mbxEndWith result reply bulk).svc } :=
  (s.mbxEndWith_mailOnly result reply bulk).eq

theorem State.mbxEndWith_ended {s u : State} {code : Nat} {tag : BitVec 16} {args : List Byte} {result : Nat} {reply : List Byte}
    {bulk : Bool} (h : s.InService u ⟨code, tag.toNat, args⟩) (hcode : code < 256) (hresult : result < 256)
    (hlen : reply.length < 2 ^ 15) (hblock : bulk = false → reply.length ≤ 4096)
    (happlied : result = 0 → u.get MBX_LAST_APPLIED_CODE.one = code ∧ u.get MBX_LAST_APPLIED_TAG.one = tag.toNat) :
    s.ended (u.mbxEndWith result reply bulk) code tag result bulk reply := by
  have hregs := u.mbxEndWith_frame result reply bulk
  have heq := State.mbxEndWith_eq h.cur result reply bulk
  have hlong : (bulk || decide (4096 < reply.length)) = bulk := by
    cases bulk with
    | true => rfl
    | false => simpa using hblock rfl
  rw [hlong] at heq
  have hdone : u.Concluded (u.mbxEndWith result reply bulk) ⟨code, tag.toNat, args⟩ result := by
    rw [heq]
    split
    · exact u.forwardEnd_concluded _ _ _
    · exact u.replied_concluded _ _ _ _
  refine ⟨hdone.tag.trans (Nat.mod_eq_of_lt tag.isLt), hdone.result.trans (Nat.mod_eq_of_lt hresult), hdone.state,
    hdone.completed.trans (by rw [h.completed]), hdone.cur, fun hzero => ?_, fun hport => ?_⟩
  · rw [hregs _ (by decide), hregs _ (by decide)]
    exact happlied hzero
  · rw [h.fromPort, hport] at heq
    obtain ⟨hlatch, hreply, hbulk, hcount, hbytes⟩ := u.replied_shows ⟨code, tag.toNat, args⟩ result reply bulk
    rw [heq]
    exact ⟨hlatch, hreply.trans (Nat.mod_eq_of_lt hcode), hbulk, hcount.trans (Nat.mod_eq_of_lt hlen), hbytes⟩

/-- A command ends with a result that is not OK. -/
theorem State.mbxEnd_ended {s u : State} {code : Nat} {tag : BitVec 16} {args : List Byte} {result : Nat} {reply : List Byte}
    (h : s.InService u ⟨code, tag.toNat, args⟩) (hcode : code < 256) (hresult : 0 < result ∧ result < 256)
    (hlen : reply.length ≤ 4096) : s.ended (u.mbxEnd result reply) code tag result false reply :=
  State.mbxEndWith_ended h hcode hresult.2 (by omega) (fun _ => hlen) (fun e => absurd e (by omega))

theorem State.mbxApplied_shows {u : State} {c : MbxCmd} (h : u.mbx.cur = some c) :
    u.mbxApplied = (u.set MBX_LAST_APPLIED_CODE.one c.code).set MBX_LAST_APPLIED_TAG.one c.tag := by
  unfold State.mbxApplied
  rw [h]

theorem State.mbxApplied_ended {s u : State} {code : Nat} {tag : BitVec 16} {args : List Byte} {reply : List Byte} {bulk : Bool}
    (h : s.InService u ⟨code, tag.toNat, args⟩) (hcode : code < 256) (hlen : reply.length < 2 ^ 15)
    (hblock : bulk = false → reply.length ≤ 4096) : s.ended (u.mbxApplied.mbxEndWith 0 reply bulk) code tag 0 bulk reply := by
  rw [State.mbxApplied_shows h.cur]
  refine State.mbxEndWith_ended (args := args) (h.step rfl rfl ?_) hcode (by decide) hlen hblock (fun _ => ⟨?_, ?_⟩)
  · simp (disch := decide) only [State.get_set_ne]
  · simp (disch := decide) only [State.get_set_ne, State.get_set_same]
    exact Nat.mod_eq_of_lt hcode
  · simp (disch := decide) only [State.get_set_same]
    exact Nat.mod_eq_of_lt tag.isLt

/-- A command takes effect and ends with OK. -/
theorem State.mbxOk_ended {s u : State} {code : Nat} {tag : BitVec 16} {args : List Byte} {reply : List Byte}
    (h : s.InService u ⟨code, tag.toNat, args⟩) (hcode : code < 256) (hlen : reply.length ≤ 4096) :
    s.ended (u.mbxOk reply) code tag 0 false reply := State.mbxApplied_ended h hcode (by omega) (fun _ => hlen)

/-- A command takes effect and ends with OK and a reply in the bulk buffer. -/
theorem State.mbxBulk_ended {s u : State} {code : Nat} {tag : BitVec 16} {args : List Byte} {reply : List Byte}
    (h : s.InService u ⟨code, tag.toNat, args⟩) (hcode : code < 256) (hlen : reply.length < 2 ^ 15) :
    s.ended (u.mbxBulk reply) code tag 0 true reply := State.mbxApplied_ended h hcode hlen (fun e => by cases e)

/-- The cells that an end with OK writes. -/
def okCells : List Nat := [MBX_LAST_APPLIED_CODE.one, MBX_LAST_APPLIED_TAG.one].map Fld.key ++ endCells

theorem State.mbxOk_frame (s : State) (reply : List Byte) : s.sameRegs okCells (s.mbxOk reply) := by
  have happlied : s.sameRegs okCells s.mbxApplied := by
    unfold State.mbxApplied
    split
    · exact s.sameRegs_refl _
    · exact State.sameRegs_set _ (State.sameRegs_set _ (s.sameRegs_refl _) (by simp [okCells])) (by simp [okCells])
  exact State.sameRegs_step happlied (State.mbxEndWith_frame _ _ _ _) (List.subset_append_right _ _)

theorem State.mbxEnd_frame (s : State) (result : Nat) (reply : List Byte) : s.sameRegs endCells (s.mbxEnd result reply) :=
  s.mbxEndWith_frame _ _ _

theorem State.mbxOk_rest (s : State) (reply : List Byte) : s.mbxOk reply = { s with
    regs := (s.mbxOk reply).regs, link := (s.mbxOk reply).link, mbx := (s.mbxOk reply).mbx, svc := (s.mbxOk reply).svc } := by
  have h := s.mbxApplied.mbxEndWith_rest 0 reply false
  unfold State.mbxOk State.mbxEnd
  rw [h]
  unfold State.mbxApplied
  split <;> rfl

/-! ### A command is taken (R395) -/

/-- The mailbox with the command issued and BUSY, before it is served. -/
def State.commandTaken (s : State) (code : Nat) (tag : BitVec 16) (args : List Byte) : State :=
  (((((((s.set (unlockedOf (PageClass.page .mbx 0)) 0).putBar4 0x4000 args).set MBX_ARG_LEN.one args.length).set MBX_CMD_TAG.one
    tag.toNat).set MBX_CMD_CODE.one code).set MBX_STATUS_STATE.one 2).onMbx (fun m => { m with cur := some ⟨code, tag.toNat, args⟩ }))

/-- The cells that the issue of a command writes. -/
def takenCells : List Nat :=
  [unlockedOf (PageClass.page .mbx 0), MBX_ARG_LEN.one, MBX_CMD_TAG.one, MBX_CMD_CODE.one, MBX_STATUS_STATE.one].map Fld.key

theorem State.ring_takes {s : State} (code : Nat) (tag : BitVec 16) {args : List Byte} (h : s.takes = true)
    (hlen : args.length ≤ 4096) : s.ring code tag args = .next ((s.commandTaken code tag args).serve ⟨code, tag.toNat, args⟩) := by
  obtain ⟨hadmits, hidle⟩ := Bool.and_eq_true_iff.mp h
  have hstate : (s.set (unlockedOf (PageClass.page .mbx 0)) 0).get MBX_STATUS_STATE.one = 1 := by
    rw [State.get_set_ne _ _ (by decide)]
    exact beq_iff_eq.mp hidle
  unfold State.ring
  rw [if_neg (by omega), s.gated_of_admits _ _ hadmits, State.issued, if_neg (by simp [hstate])]
  rfl

theorem State.commandTaken_frame (s : State) (code : Nat) (tag : BitVec 16) (args : List Byte) :
    s.sameRegs takenCells (s.commandTaken code tag args) := by
  have hopened : s.sameRegs takenCells (s.set (unlockedOf (PageClass.page .mbx 0)) 0) :=
    State.sameRegs_set 0 (s.sameRegs_refl _) (by simp [takenCells])
  unfold State.commandTaken
  refine State.sameRegs_of_regs (State.sameRegs_set _ (State.sameRegs_set _ (State.sameRegs_set _ (State.sameRegs_set _
    (State.sameRegs_of_regs hopened (State.onLink_regs _ _)) ?_) ?_) ?_) ?_) (State.onMbx_regs _ _)
  all_goals simp [takenCells]

theorem State.commandTaken_rest (s : State) (code : Nat) (tag : BitVec 16) (args : List Byte) : s.commandTaken code tag args = { s with
    regs := (s.commandTaken code tag args).regs, link := (s.commandTaken code tag args).link
    mbx := (s.commandTaken code tag args).mbx } := rfl

theorem State.commandTaken_busy (s : State) (code : Nat) (tag : BitVec 16) (args : List Byte) :
    (s.commandTaken code tag args).get MBX_STATUS_STATE.one = 2 := by
  rw [State.commandTaken, State.onMbx_get, State.get_set_same]
  rfl

theorem State.commandTaken_inService (s : State) (code : Nat) (tag : BitVec 16) (args : List Byte) :
    s.InService (s.commandTaken code tag args) ⟨code, tag.toNat, args⟩ := ⟨rfl, s.commandTaken_frame code tag args _ (by decide), rfl⟩

end Sys2Proof.Machine
end

