-- ==== Sys2Proof/Proofs/DeviceCommands.lean ====
section
/-! PROOFS. The device commands of the mailbox: power, calendar, reports and pairing (R371, R372, R96, R462, R465, R474). -/

namespace Sys2Proof.Machine

/-! ### The commands at an idle mailbox -/

section
variable {s : State} (tag : BitVec 16) {args : List Byte} (h : s.takes = true)
include h

theorem exec_park : exec (.park tag) s = .next (s.commandTaken 0x20 tag []).servePark :=
  State.ring_takes (args := []) 0x20 tag h (Nat.zero_le _)

theorem exec_wake : exec (.wake tag) s = .next (s.commandTaken 0x21 tag []).serveWake :=
  State.ring_takes (args := []) 0x21 tag h (Nat.zero_le _)

theorem exec_calendarSet (hlen : args.length ≤ 4096) :
    exec (.calendarSet tag args) s = .next ((s.commandTaken 0x41 tag args).serveCalendarSet args) := State.ring_takes 0x41 tag h hlen

theorem exec_selftestReport : exec (.selftestReport tag) s =
    .next ((s.commandTaken 0x50 tag []).mbxBulk (s.commandTaken 0x50 tag []).selftestReport) :=
  State.ring_takes (args := []) 0x50 tag h (Nat.zero_le _)

theorem exec_fenceRead : exec (.fenceRead tag) s =
    .next ((s.commandTaken 0x51 tag []).mbxBulk (s.commandTaken 0x51 tag []).fenceReport) :=
  State.ring_takes (args := []) 0x51 tag h (Nat.zero_le _)

theorem exec_twinPair (hlen : args.length ≤ 4096) :
    exec (.twinPair tag args) s = .next ((s.commandTaken 0x60 tag args).serveTwinPair args) := State.ring_takes 0x60 tag h hlen

theorem exec_twinHandover : exec (.twinHandover tag) s = .next (s.commandTaken 0x61 tag []).serveTwinHandover :=
  State.ring_takes (args := []) 0x61 tag h (Nat.zero_le _)

end

theorem State.commandTaken_mailOnly (s : State) (code : Nat) (tag : BitVec 16) (args : List Byte) :
    s.MailOnly (s.commandTaken code tag args) := ⟨_, _, _, s.svc, s.commandTaken_rest code tag args⟩

theorem State.mbxEnd_mailOnly (s : State) (result : Nat) (reply : List Byte) : s.MailOnly (s.mbxEnd result reply) :=
  s.mbxEndWith_mailOnly _ _ _

theorem State.mbxOk_mailOnly (s : State) (reply : List Byte) : s.MailOnly (s.mbxOk reply) := ⟨_, _, _, _, s.mbxOk_rest reply⟩

theorem State.anyReplay_of_sameRegs {s t : State} {ks : List Nat} (h : s.sameRegs ks t)
    (hks : ∀ n < 8, (TRG_STATUS_STATE.of n).key ∉ ks) : t.anyReplay = s.anyReplay := by
  have hstates : ∀ n ∈ upto 8, t.get (TRG_STATUS_STATE.of n) = s.get (TRG_STATUS_STATE.of n) :=
    fun n hn => h _ (hks n (List.mem_range.mp hn))
  rw [Bool.eq_iff_iff, State.anyReplay, State.anyReplay, List.any_eq_true, List.any_eq_true]
  exact exists_congr (fun n => and_congr_right (fun hn => by rw [hstates n hn]))

/-! ### PARK and WAKE (R371, R372) -/

/-- A change of the power state shows and raises EV_020 (R369). -/
theorem State.putPower_shows {s : State} {v : Nat} (hv : v < 8) (hne : s.get PWR_STATUS_STATE.one ≠ v) :
    (s.putPower v).get PWR_STATUS_STATE.one = v ∧ (s.putPower v).latched 20 = true ∧ (s.putPower v).mbx = s.mbx ∧
      s.sameRegs (PWR_STATUS_STATE.one.key :: latches [20]) (s.putPower v) ∧ s.MailOnly (s.putPower v) := by
  rw [State.putPower, if_neg hne]
  refine ⟨?_, State.raise_latched _ 20 rfl, State.raise_mbx _ _, ?_, ((State.MailOnly.refl s).set _ _).raise 20⟩
  · rw [State.raise_get_ne _ _ (by decide), State.get_set_same]
    exact Nat.mod_eq_of_lt hv
  · exact State.sameRegs_raise 20 (State.sameRegs_set v (s.sameRegs_refl _) (by simp)) (fun _ hx => List.mem_cons_of_mem _ hx)

/-- A device at rest that stands still or has parked. -/
theorem State.servePark_rest {u : State} (hruns : u.anyRuns = false) (hreplay : u.anyReplay = false) :
    (u.get PWR_STATUS_STATE.one ≤ 1 → u.servePark = (u.set MBX_STATUS_STATE.one 2).putPower 2) ∧
    (u.get PWR_STATUS_STATE.one = 2 → u.servePark = u.mbxHold) ∧ (u.get PWR_STATUS_STATE.one = 3 → u.servePark = u.mbxOk []) := by
  unfold State.servePark
  refine ⟨fun hle => ?_, fun htwo => ?_, fun hthree => ?_⟩
  · have hfour : (u.get PWR_STATUS_STATE.one == 4) = false := beq_false_of_ne (by omega)
    simp only [hruns, hreplay, hfour, Bool.or_self, Bool.false_eq_true, if_false]
    rw [if_neg (by omega), if_neg (by omega)]
  · simp [hruns, hreplay, htwo]
  · simp [hruns, hreplay, hthree]

theorem State.servePark_refuses {u : State} (h : u.anyRuns = true ∨ u.anyReplay = true ∨ u.get PWR_STATUS_STATE.one = 4) :
    u.servePark = u.mbxEnd 3 [] := by
  unfold State.servePark
  refine if_pos ?_
  rcases h with h | h | h
  · simp [h]
  · simp [h]
  · simp [h]

theorem park_atRest (s : State) (tag : BitVec 16) (h : s.takes = true) (hruns : s.anyRuns = false) (hreplay : s.anyReplay = false) :
    (s.get PWR_STATUS_STATE.one ≤ 1 →
      ∃ t, exec (.park tag) s = .next t ∧ t.get PWR_STATUS_STATE.one = 2 ∧ t.latched 20 = true ∧ t.serves 0x20 tag [] 2 ∧
        t.skeins = s.skeins ∧ t.hbm = s.hbm ∧ t.grt = s.grt) ∧
    (s.get PWR_STATUS_STATE.one = 2 →
      ∃ t, exec (.park tag) s = .next t ∧ t.serves 0x20 tag [] 3 ∧ t.latched 34 = true ∧ t.get PWR_STATUS_STATE.one = 2) ∧
    (s.get PWR_STATUS_STATE.one = 3 → ∃ t, exec (.park tag) s = .next t ∧ s.ended t 0x20 tag 0 false [] ∧
      t.get PWR_STATUS_STATE.one = 3) := by
  have hexec := exec_park tag h
  have hframe := s.commandTaken_frame 0x20 tag []
  have hserves := s.commandTaken_inService 0x20 tag []
  have hbusy := s.commandTaken_busy 0x20 tag []
  have hmail := s.commandTaken_mailOnly 0x20 tag []
  generalize s.commandTaken 0x20 tag [] = u at *
  have hpower := hframe PWR_STATUS_STATE.one (by decide)
  obtain ⟨hstand, hwait, hdone⟩ := State.servePark_rest ((State.anyRuns_of_sameRegs hframe (by decide)).trans hruns)
    ((State.anyReplay_of_sameRegs hframe (by decide)).trans hreplay)
  rw [hpower] at hstand hwait hdone
  refine ⟨fun hle => ?_, fun htwo => ?_, fun hthree => ?_⟩
  · rw [hstand hle] at hexec
    have hkept : (u.set MBX_STATUS_STATE.one 2).get PWR_STATUS_STATE.one = s.get PWR_STATUS_STATE.one := by
      rw [State.get_set_ne _ _ (by decide), hpower]
    obtain ⟨hstate, hlatch, hmbx, hregs, honly⟩ := State.putPower_shows (s := u.set MBX_STATUS_STATE.one 2) (v := 2) (by decide)
      (by omega)
    have hall := (hmail.trans ((State.MailOnly.refl u).set MBX_STATUS_STATE.one 2)).trans honly
    refine ⟨_, hexec, hstate, hlatch, ⟨hmbx ▸ hserves.cur, ?_⟩, hall.keeps State.skeins, hall.keeps State.hbm,
      hall.keeps State.grt⟩
    rw [hregs _ (by decide), State.get_set_same]
    rfl
  · rw [hwait htwo, State.mbxHold, if_neg (by omega)] at hexec
    refine ⟨_, hexec, ⟨?_, ?_⟩, State.raise_latched _ 34 rfl, ?_⟩
    · rw [State.raise_mbx]
      exact hserves.cur
    · rw [State.raise_get_ne _ _ (by decide), State.get_set_same]
      rfl
    · rw [State.raise_get_ne _ _ (by decide), State.get_set_ne _ _ (by decide), hpower, htwo]
  · rw [hdone hthree] at hexec
    exact ⟨_, hexec, State.mbxOk_ended hserves (by decide) (by simp), (u.mbxOk_frame [] _ (by decide)).trans (hpower.trans hthree)⟩

theorem park_refused (s : State) (tag : BitVec 16) (h : s.takes = true)
    (hbusy : s.anyRuns = true ∨ s.anyReplay = true ∨ s.get PWR_STATUS_STATE.one = 4) :
    ∃ t, exec (.park tag) s = .next t ∧ s.ended t 0x20 tag 3 false [] ∧ t.get PWR_STATUS_STATE.one = s.get PWR_STATUS_STATE.one := by
  have hexec := exec_park tag h
  have hframe := s.commandTaken_frame 0x20 tag []
  have hserves := s.commandTaken_inService 0x20 tag []
  generalize s.commandTaken 0x20 tag [] = u at *
  rw [State.servePark_refuses (by rwa [State.anyRuns_of_sameRegs hframe (by decide), State.anyReplay_of_sameRegs hframe (by decide),
    hframe _ (by decide)])] at hexec
  exact ⟨_, hexec, State.mbxEnd_ended hserves (by decide) (by decide) (by simp),
    (u.mbxEnd_frame 3 [] _ (by decide)).trans (hframe _ (by decide))⟩

/-- A latch stands where its cell does. -/
theorem State.latched_congr {s t : State} {k : Nat} (h : ∀ e ∈ evPlace k, t.get e.latchFld = s.get e.latchFld) :
    t.latched k = s.latched k := by
  unfold State.latched
  cases he : evPlace k with
  | none => rfl
  | some e => exact congrArg (· == 1) (h e he)

/-- Leaving self-refresh writes cells of the HBM's pages alone. -/
theorem State.leaveSelfRefresh_get (s : State) {g : Fld} (hg : g.placed = true) (hpage : g.page < 0x180) :
    s.leaveSelfRefresh.get g = s.get g := by
  unfold State.leaveSelfRefresh
  refine forEach_get s (fun pc _ u => ?_)
  split
  · exact State.get_set_ne _ _ (Fld.key_ne_of_page_lt hg (Nat.lt_of_lt_of_le hpage (Nat.le_add_right _ _)))
  · rfl

theorem State.leaveSelfRefresh_mbx (s : State) : s.leaveSelfRefresh.mbx = s.mbx := by
  unfold State.leaveSelfRefresh
  refine forEach_keeps State.mbx s (fun pc u => ?_)
  split
  · rfl
  · rfl

theorem State.fullCal_frame (s : State) : s.sameRegs calCells s.fullCal ∧ s.fullCal.mbx = s.mbx := by
  unfold State.fullCal
  split
  · exact ⟨s.calStart_frame, rfl⟩
  · exact ⟨State.sameRegs_set _ (s.sameRegs_refl _) (by simp [calCells]), rfl⟩

/-- A WAKE out of PARK starts (R372). -/
theorem State.wakeStart_shows {s : State} (h : s.get PWR_STATUS_STATE.one = 3) :
    s.wakeStart.get PWR_STATUS_STATE.one = 4 ∧ s.wakeStart.latched 20 = true ∧ s.wakeStart.mbx = s.mbx ∧
      s.wakeStart.get MBX_STATUS_STATE.one = s.get MBX_STATUS_STATE.one := by
  obtain ⟨hstate, hlatch, hmbx, hregs, -⟩ := State.putPower_shows (s := s) (v := 4) (by decide) (by omega)
  obtain ⟨hcal, hcalMbx⟩ := (s.putPower 4).fullCal_frame
  have hlatched : (s.putPower 4).fullCal.latched 20 = true := (State.latched_of_sameRegs hcal (by decide)).trans hlatch
  have hpower : (s.putPower 4).fullCal.get PWR_STATUS_STATE.one = 4 := (hcal _ (by decide)).trans hstate
  have hbusy : (s.putPower 4).fullCal.get MBX_STATUS_STATE.one = s.get MBX_STATUS_STATE.one :=
    (hcal _ (by decide)).trans (hregs _ (by decide))
  unfold State.wakeStart
  extract_lets s1
  split
  · exact ⟨hpower, hlatched, hcalMbx.trans hmbx, hbusy⟩
  · refine ⟨(State.leaveSelfRefresh_get _ (by decide) (by decide)).trans hpower, ?_,
      (State.leaveSelfRefresh_mbx _).trans (hcalMbx.trans hmbx), (State.leaveSelfRefresh_get _ (by decide) (by decide)).trans hbusy⟩
    have hplace : ∀ e ∈ evPlace 20, e.latchFld.placed = true ∧ e.latchFld.page < 0x180 := by decide
    exact (State.latched_congr (fun e he => State.leaveSelfRefresh_get _ (hplace e he).1 (hplace e he).2)).trans hlatched

theorem wake_acts (s : State) (tag : BitVec 16) (h : s.takes = true) (htripped : s.is PWR_STATUS_TRIPPED.one = false) :
    (s.get PWR_STATUS_STATE.one = 3 →
      ∃ t, exec (.wake tag) s = .next t ∧ t.get PWR_STATUS_STATE.one = 4 ∧ t.latched 20 = true ∧ t.serves 0x21 tag [] 2) ∧
    (s.get PWR_STATUS_STATE.one = 2 →
      ∃ t, exec (.wake tag) s = .next t ∧ t.get PWR_STATUS_STATE.one = 2 ∧ t.serves 0x21 tag [] 2) ∧
    (s.get PWR_STATUS_STATE.one ≤ 1 ∨ s.get PWR_STATUS_STATE.one = 4 →
      ∃ t, exec (.wake tag) s = .next t ∧ s.ended t 0x21 tag 3 false []) := by
  have hexec := exec_wake tag h
  have hframe := s.commandTaken_frame 0x21 tag []
  have hserves := s.commandTaken_inService 0x21 tag []
  have hbusy := s.commandTaken_busy 0x21 tag []
  generalize s.commandTaken 0x21 tag [] = u at *
  have hpower := hframe PWR_STATUS_STATE.one (by decide)
  have hnot : u.is PWR_STATUS_TRIPPED.one = false := (State.is_of_sameRegs hframe (by decide)).trans htripped
  unfold State.serveWake at hexec
  simp only [hnot, Bool.false_eq_true, if_false, hpower] at hexec
  refine ⟨fun hthree => ?_, fun htwo => ?_, fun hother => ?_⟩
  · rw [if_pos hthree] at hexec
    obtain ⟨hstate, hlatch, hmbx, hkept⟩ := State.wakeStart_shows (hpower.trans hthree)
    exact ⟨_, hexec, hstate, hlatch, hmbx ▸ hserves.cur, hkept.trans hbusy⟩
  · rw [if_neg (by omega), if_pos htwo] at hexec
    exact ⟨_, hexec, hpower.trans htwo, hserves.cur, hbusy⟩
  · rw [if_neg (by omega), if_neg (by omega)] at hexec
    exact ⟨_, hexec, State.mbxEnd_ended hserves (by decide) (by decide) (by simp)⟩

theorem wake_tripped (s : State) (tag : BitVec 16) (h : s.takes = true) (htripped : s.is PWR_STATUS_TRIPPED.one = true) :
    ∃ t, exec (.wake tag) s = .next t ∧ s.ended t 0x21 tag 3 false [] ∧ t.get PWR_STATUS_STATE.one = s.get PWR_STATUS_STATE.one := by
  have hexec := exec_wake tag h
  have hframe := s.commandTaken_frame 0x21 tag []
  have hserves := s.commandTaken_inService 0x21 tag []
  generalize s.commandTaken 0x21 tag [] = u at *
  rw [State.serveWake, if_pos ((State.is_of_sameRegs hframe (by decide)).trans htripped)] at hexec
  exact ⟨_, hexec, State.mbxEnd_ended hserves (by decide) (by decide) (by simp),
    (u.mbxEnd_frame 3 [] _ (by decide)).trans (hframe _ (by decide))⟩

/-! ### CALENDAR_SET (R96) -/

theorem ofBytes_lt (bytes : List Byte) : ofBytes bytes < 256 ^ bytes.length := by
  induction bytes with
  | nil => simp [ofBytes]
  | cons b bytes ih =>
    have hb := b.isLt
    rw [ofBytes, List.length_cons, Nat.pow_succ]
    omega

theorem leAt_lt (bytes : List Byte) (off n : Nat) : leAt bytes off n < 256 ^ n :=
  (ofBytes_lt _).trans_le (Nat.pow_le_pow_right (by decide) (List.length_take_le _ _))

theorem calendarSet_loads (s : State) (tag : BitVec 16) (args : List Byte) (h : s.takes = true) (hfour : 4 ≤ args.length)
    (hlen : args.length ≤ 4096) :
    ∃ t, exec (.calendarSet tag args) s = .next t ∧ s.ended t 0x41 tag 0 false [] ∧ t.get LIFE_CAL_SECONDS.one = leAt args 0 4 ∧
      t.is LIFE_STATUS_CAL_VALID.one = true ∧ t.get LIFE_EDITS.one = s.get LIFE_EDITS.one := by
  have hexec := exec_calendarSet tag h hlen
  have hframe := s.commandTaken_frame 0x41 tag args
  have hserves := s.commandTaken_inService 0x41 tag args
  generalize s.commandTaken 0x41 tag args = u at *
  rw [State.serveCalendarSet, if_neg (by omega)] at hexec
  have hok := (u.calendarLoad (leAt args 0 4)).mbxOk_frame []
  refine ⟨_, hexec, State.mbxOk_ended (hserves.step rfl rfl ?_) (by decide) (by simp), ?_, ?_, ?_⟩
  · rw [State.calendarLoad, State.get_set_ne _ _ (by decide), State.get_set_ne _ _ (by decide)]
  · rw [hok _ (by decide), State.calendarLoad, State.get_set_ne _ _ (by decide), State.get_set_same]
    exact Nat.mod_eq_of_lt (leAt_lt args 0 4)
  · rw [State.is_of_sameRegs hok (by decide), State.calendarLoad, State.is_set_same]
    rfl
  · rw [hok _ (by decide), State.calendarLoad, State.get_set_ne _ _ (by decide), State.get_set_ne _ _ (by decide),
      hframe _ (by decide)]

theorem shortArguments_refused (s : State) (tag : BitVec 16) (args : List Byte) (h : s.takes = true) (hlen : args.length ≤ 4096) :
    (args.length < 4 → ∃ t, exec (.calendarSet tag args) s = .next t ∧ s.ended t 0x41 tag 2 false (toBytes 4 0) ∧
      t.get LIFE_CAL_SECONDS.one = s.get LIFE_CAL_SECONDS.one) ∧
    (args.length < 1 ∨ 2 < leAt args 0 1 →
      ∃ t, exec (.twinPair tag args) s = .next t ∧ s.ended t 0x60 tag 2 false (toBytes 4 0) ∧ t.twn = s.twn) := by
  refine ⟨fun hshort => ?_, fun hbad => ?_⟩
  · have hexec := exec_calendarSet tag h hlen
    rw [State.serveCalendarSet, if_pos hshort] at hexec
    exact ⟨_, hexec, State.mbxEnd_ended (s.commandTaken_inService _ _ _) (by decide) (by decide) (by simp [toBytes_length]),
      (State.mbxEnd_frame _ _ _ _ (by decide)).trans (s.commandTaken_frame 0x41 tag args _ (by decide))⟩
  · have hexec := exec_twinPair tag h hlen
    rw [State.serveTwinPair, if_pos hbad] at hexec
    exact ⟨_, hexec, State.mbxEnd_ended (s.commandTaken_inService _ _ _) (by decide) (by decide) (by simp [toBytes_length]),
      (State.mbxEnd_mailOnly (s.commandTaken 0x60 tag args) 2 (toBytes 4 0)).keeps State.twn⟩

/-! ### Reports (R462) -/

theorem State.selftestReport_length (s : State) : s.selftestReport.length = 576 := by
  unfold State.selftestReport
  extract_lets v passed high
  have hv : ∀ m, (v m).length = 8 := fun m => by simp [v, toBytes_length]
  have hvisits : ((upto 65).flatMap v).length = 520 := by
    rw [List.length_flatMap, List.map_congr_left (fun m _ => hv m)]
    decide
  simp only [List.length_append, toBytes_length, hvisits]

theorem fitTo_length (n : Nat) (bytes : List Byte) : (fitTo n bytes).length = n := by
  simp only [fitTo, List.length_take, List.length_append, List.length_replicate]
  omega

theorem State.fenceReport_length (s : State) : s.fenceReport.length = 136 := by
  have hfence : s.fenceBytes.length = 64 := by
    unfold State.fenceBytes
    split
    · simp [fenceEntryBytes, toBytes_length]
    · simp
  have hrepair : s.repairBytes.length = 64 := by
    unfold State.repairBytes
    split
    · simp
    · simp only [repairEntryBytes, List.length_append, toBytes_length, fitTo_length]
  unfold State.fenceReport
  simp only [List.length_append, toBytes_length, hfence, hrepair]

theorem reports_given (s : State) (tag : BitVec 16) (h : s.takes = true) :
    ∃ t u, exec (.selftestReport tag) s = .next t ∧ s.ended t 0x50 tag 0 true s.selftestReport ∧
      exec (.fenceRead tag) s = .next u ∧ s.ended u 0x51 tag 0 true s.fenceReport := by
  have hself : (s.commandTaken 0x50 tag []).selftestReport = s.selftestReport := by
    have hframe := s.commandTaken_frame 0x50 tag []
    unfold State.selftestReport
    rw [hframe _ (by decide), hframe _ (by decide), hframe _ (by decide), hframe _ (by decide)]
    rfl
  have hfence : (s.commandTaken 0x51 tag []).fenceReport = s.fenceReport := rfl
  refine ⟨_, _, exec_selftestReport tag h, ?_, exec_fenceRead tag h, ?_⟩
  · rw [hself]
    exact State.mbxBulk_ended (s.commandTaken_inService _ _ _) (by decide) (by rw [s.selftestReport_length]; decide)
  · rw [hfence]
    exact State.mbxBulk_ended (s.commandTaken_inService _ _ _) (by decide) (by rw [s.fenceReport_length]; decide)

/-! ### Pairing (R465, R478) -/

/-- The pins' edges count activations of DUT_HOLD and move no other cell. -/
theorem State.pinEdges_get (s0 s : State) (t : Nat) {g : Fld} (hg : ∀ k, g.key ≠ (DUT_HOLD_ASSERTS.of k).key) :
    (State.pinEdges s0 s t).get g = s.get g := by
  unfold State.pinEdges State.xtrigFalls State.holdEdges
  refine (forEach_get _ (fun k _ u => ?_)).trans (forEach_get _ (fun k _ u => ?_))
  · split
    · rfl
    · rfl
  · split
    · exact u.get_add_ne 1 (hg k)
    · split
      · rfl
      · rfl

/-- The mailbox, the service controller and the twin. -/
def State.commandParts (s : State) : Mailbox × Service × Twin := (s.mbx, s.svc, s.twn)

theorem State.pinEdges_parts (s0 s : State) (t : Nat) : (State.pinEdges s0 s t).commandParts = s.commandParts := by
  unfold State.pinEdges State.xtrigFalls State.holdEdges
  refine (forEach_keeps State.commandParts _ (fun k u => ?_)).trans (forEach_keeps State.commandParts s (fun k u => ?_))
  · split
    · rfl
    · rfl
  · split
    · rfl
    · split
      · rfl
      · rfl

/-- The cells that giving up a role writes, the counts of DUT_HOLD apart. -/
def roleCells : List Nat := TWN_STATUS_ROLE.one.key :: latches [484]

theorem State.putRole_shows (s : State) (r : Nat) (hr : r < 4) : (s.putRole r).get TWN_STATUS_ROLE.one = r ∧
    s.sameRegs roleCells (s.putRole r) ∧ (s.putRole r).commandParts = s.commandParts := by
  unfold State.putRole
  split
  · next h => exact ⟨h, s.sameRegs_refl _, rfl⟩
  · refine ⟨?_, State.sameRegs_raise 484 (State.sameRegs_set r (s.sameRegs_refl _) (by simp [roleCells]))
      (fun _ hx => List.mem_cons_of_mem _ hx), ?_⟩
    · rw [State.raise_get_ne _ _ (by decide), State.get_set_same]
      exact Nat.mod_eq_of_lt hr
    · rw [State.commandParts, State.raise_mbx, State.raise_svc, State.raise_twn]
      rfl

theorem State.unpaired_get (s : State) {g : Fld} (hg : ∀ k, g.key ≠ (DUT_HOLD_ASSERTS.of k).key) (hrole : g.key ∉ roleCells) :
    s.unpaired.get g = s.get g :=
  (State.pinEdges_get s (s.putRole 0) s.now hg).trans ((s.putRole_shows 0 (by decide)).2.1 g hrole)

theorem State.unpaired_role (s : State) : s.unpaired.get TWN_STATUS_ROLE.one = 0 :=
  (State.pinEdges_get s (s.putRole 0) s.now (fun _ => Fld.key_ne_of_apart rfl)).trans (s.putRole_shows 0 (by decide)).1

theorem State.unpaired_parts (s : State) : s.unpaired.mbx = s.mbx ∧ s.unpaired.svc = s.svc ∧ s.unpaired.twn.asked = 0 := by
  have hparts := (State.pinEdges_parts s (s.putRole 0) s.now).trans (s.putRole_shows 0 (by decide)).2.2
  exact ⟨congrArg (·.1) hparts, congrArg (·.2.1) hparts, rfl⟩

/-- The device as a TWIN_PAIR with `role` leaves it: pairing, or unpaired. -/
def State.pairing (s : State) (role : Nat) : State :=
  if role = 2 then s.unpaired.set TWN_STATUS_STATE.one 0
  else (s.unpaired.onTwn (fun t => { t with asked := role + 1 })).set TWN_STATUS_STATE.one 1

theorem State.pairing_shows (s : State) (role : Nat) :
    (s.pairing role).get TWN_STATUS_STATE.one = (if role = 2 then 0 else 1) ∧ (s.pairing role).get TWN_STATUS_ROLE.one = 0 ∧
    (s.pairing role).twn.asked = (if role = 2 then 0 else role + 1) ∧ (s.pairing role).mbx = s.mbx ∧ (s.pairing role).svc = s.svc ∧
    (s.pairing role).get MBX_COMPLETED.one = s.get MBX_COMPLETED.one := by
  obtain ⟨hmbx, hsvc, hasked⟩ := s.unpaired_parts
  have hcount := s.unpaired_get (g := MBX_COMPLETED.one) (fun _ => Fld.key_ne_of_apart rfl) (by decide)
  unfold State.pairing
  by_cases h : role = 2
  · simp only [if_pos h]
    refine ⟨?_, ?_, hasked, hmbx, hsvc, ?_⟩
    · rw [State.get_set_same]
      rfl
    · rw [State.get_set_ne _ _ (by decide), s.unpaired_role]
    · rw [State.get_set_ne _ _ (by decide), hcount]
  · simp only [if_neg h]
    refine ⟨?_, ?_, rfl, hmbx, hsvc, ?_⟩
    · rw [State.get_set_same]
      rfl
    · rw [State.get_set_ne _ _ (by decide), State.onTwn_get, s.unpaired_role]
    · rw [State.get_set_ne _ _ (by decide), State.onTwn_get, hcount]

theorem twinPair_acts (s : State) (tag : BitVec 16) (args : List Byte) (h : s.takes = true) (hone : 1 ≤ args.length)
    (hlen : args.length ≤ 4096) (hrole : leAt args 0 1 ≤ 2) :
    ((∀ i < 8, s.sessState i ≠ 3) → ∃ t, exec (.twinPair tag args) s = .next t ∧
      s.ended t 0x60 tag 0 false (toBytes 4 (if leAt args 0 1 = 2 then 0 else 1)) ∧
      t.get TWN_STATUS_STATE.one = (if leAt args 0 1 = 2 then 0 else 1) ∧ t.get TWN_STATUS_ROLE.one = 0 ∧
      t.twn.asked = (if leAt args 0 1 = 2 then 0 else leAt args 0 1 + 1)) ∧
    ((∃ i < 8, s.sessState i = 3) → ∃ t, exec (.twinPair tag args) s = .next t ∧ s.ended t 0x60 tag 3 false [] ∧ t.twn = s.twn) := by
  have hexec := exec_twinPair tag h hlen
  have hframe := s.commandTaken_frame 0x60 tag args
  have hserves := s.commandTaken_inService 0x60 tag args
  have hmail := s.commandTaken_mailOnly 0x60 tag args
  generalize s.commandTaken 0x60 tag args = u at *
  have hkeys : ∀ i < 8, (WR_SESSION_STATUS_STATE.elt i).key ∉ takenCells := by decide
  have hsess : ∀ i < 8, u.sessState i = s.sessState i := fun i hi => hframe _ (hkeys i hi)
  have hserve : u.serveTwinPair args = if (upto 8).any (fun i => u.sessState i == 3) then u.mbxEnd 3 []
      else (u.pairing (leAt args 0 1)).mbxOk (toBytes 4 ((u.pairing (leAt args 0 1)).get TWN_STATUS_STATE.one)) := by
    unfold State.serveTwinPair
    exact if_neg (by omega)
  rw [hserve] at hexec
  refine ⟨fun hnone => ?_, fun hsome => ?_⟩
  · rw [if_neg (by simpa [upto] using fun i hi => (hsess i hi).trans_ne (hnone i hi))] at hexec
    obtain ⟨hstate, hunled, hasked, hmbx, hsvc, hcount⟩ := u.pairing_shows (leAt args 0 1)
    have hok := (u.pairing (leAt args 0 1)).mbxOk_frame (toBytes 4 ((u.pairing (leAt args 0 1)).get TWN_STATUS_STATE.one))
    refine ⟨_, hexec, ?_, (hok _ (by decide)).trans hstate, (hok _ (by decide)).trans hunled, ?_⟩
    · rw [← hstate]
      exact State.mbxOk_ended (hserves.step hmbx (by rw [hsvc]) hcount) (by decide) (by simp [toBytes_length])
    · exact ((State.mbxOk_mailOnly (u.pairing (leAt args 0 1)) _).keeps (fun v => v.twn.asked)).trans hasked
  · obtain ⟨i, hi, hthree⟩ := hsome
    have hany : (upto 8).any (fun i => u.sessState i == 3) = true :=
      List.any_eq_true.mpr ⟨i, List.mem_range.mpr hi, beq_iff_eq.mpr ((hsess i hi).trans hthree)⟩
    rw [if_pos hany] at hexec
    exact ⟨_, hexec, State.mbxEnd_ended hserves (by decide) (by decide) (by simp),
      (hmail.trans (u.mbxEnd_mailOnly 3 [])).keeps State.twn⟩

/-! ### TWIN_HANDOVER (R474) -/

theorem State.twinMessage_of_sameRegs {s u : State} {ks : List Nat} (hframe : s.sameRegs ks u) (hks : TWN_STATUS_ROLE.one.key ∉ ks)
    (htwn : u.twn = s.twn) (type seq epoch : Nat) (payload : List Byte) :
    u.twinMessage type seq epoch payload = s.twinMessage type seq epoch payload := by
  have hrole : u.roleByte = s.roleByte := by rw [State.roleByte, State.roleByte, hframe _ hks, htwn]
  unfold State.twinMessage
  rw [hrole]

theorem twinHandover_acts (s : State) (tag : BitVec 16) (htakes : s.takes = true) (hpaired : s.paired = true)
    (hlead : s.isLead = true) :
    let h := epochOf (ceilTo (s.now + 128 * frameTicks) epochTicks)
    ∃ t, exec (.twinHandover tag) s = .next t ∧ s.ended t 0x61 tag 0 false (toBytes 8 h) ∧ t.twn.handAt = some h ∧
      (s.is TWN_STATUS_LINK_UP.one = true →
        t.twn.lastSent = s.twinMessage 4 s.twn.seq (epochOf s.now) (toBytes 8 h) ∧ t.twn.seq = (s.twn.seq + 1) % 2 ^ 32) := by
  intro h
  have hexec := exec_twinHandover tag htakes
  have hframe := s.commandTaken_frame 0x61 tag []
  have hserves := s.commandTaken_inService 0x61 tag []
  have hmail := s.commandTaken_mailOnly 0x61 tag []
  generalize s.commandTaken 0x61 tag [] = u at *
  have hnow : u.now = s.now := hmail.keeps State.now
  have htwn : u.twn = s.twn := hmail.keeps State.twn
  have hserve : u.serveTwinHandover = ((u.twinSend 4 (toBytes 8 h)).onTwn
      (fun t => { t with handAt := some h })).mbxOk (toBytes 8 h) := by
    unfold State.serveTwinHandover
    rw [hnow]
    refine if_pos ?_
    rw [State.paired, State.isLead, hframe _ (by decide), hframe _ (by decide)]
    exact Bool.and_eq_true_iff.mpr ⟨hpaired, hlead⟩
  rw [hserve] at hexec
  have hsent : (u.twinSend 4 (toBytes 8 h)).mbx = u.mbx ∧ (u.twinSend 4 (toBytes 8 h)).svc = u.svc ∧
      (u.twinSend 4 (toBytes 8 h)).regs = u.regs := by
    unfold State.twinSend State.twinSendAt
    split
    · exact ⟨rfl, rfl, rfl⟩
    · exact ⟨rfl, rfl, rfl⟩
  obtain ⟨hmbx, hsvc, hregs⟩ := hsent
  have htwin := (State.mbxOk_mailOnly ((u.twinSend 4 (toBytes 8 h)).onTwn (fun t => { t with handAt := some h }))
    (toBytes 8 h)).keeps State.twn
  refine ⟨_, hexec, State.mbxOk_ended (hserves.step hmbx (by rw [State.onTwn_svc, hsvc]) ?_) (by decide) (by simp [toBytes_length]),
    (congrArg Twin.handAt htwin).trans rfl, fun hup => ?_⟩
  · rw [State.onTwn_get, State.get, hregs, State.get]
  · have hlink : u.is TWN_STATUS_LINK_UP.one = true := (State.is_of_sameRegs hframe (by decide)).trans hup
    have hput : u.twinSend 4 (toBytes 8 h) = u.onTwn (fun t => { t with
        seq := (t.seq + 1) % 2 ^ 32
        lastSent := u.twinMessage 4 u.twn.seq (epochOf u.now) (toBytes 8 h)
        unacked := t.unacked ++ [⟨t.seq, u.twinMessage 4 u.twn.seq (epochOf u.now) (toBytes 8 h), 0⟩] }) := if_pos hlink
    rw [htwin, hput, State.onTwn_twn, State.onTwn_twn, State.twinMessage_of_sameRegs hframe (by decide) htwn, hnow, htwn]
    exact ⟨rfl, rfl⟩

theorem twinHandover_refused (s : State) (tag : BitVec 16) (h : s.takes = true) (hnot : s.paired = false ∨ s.isLead = false) :
    ∃ t, exec (.twinHandover tag) s = .next t ∧ s.ended t 0x61 tag 3 false [] ∧ t.twn = s.twn := by
  have hexec := exec_twinHandover tag h
  have hframe := s.commandTaken_frame 0x61 tag []
  have hserves := s.commandTaken_inService 0x61 tag []
  have hmail := s.commandTaken_mailOnly 0x61 tag []
  generalize s.commandTaken 0x61 tag [] = u at *
  have hfalse : (u.paired && u.isLead) = false := by
    rw [State.paired, State.isLead, hframe _ (by decide), hframe _ (by decide)]
    exact Bool.and_eq_false_iff.mpr hnot
  rw [State.serveTwinHandover, if_neg (by simp [hfalse])] at hexec
  exact ⟨_, hexec, State.mbxEnd_ended hserves (by decide) (by decide) (by simp),
    (hmail.trans (u.mbxEnd_mailOnly 3 [])).keeps State.twn⟩

end Sys2Proof.Machine
end

