-- ==== Sys2Proof/Proofs/ReplaySetup.lean ====
section
/-! PROOFS. REPLAY_SETUP (R200, R214, R402), and the obligation on the device commands of the mailbox. -/

namespace Sys2Proof.Machine

/-! ### What an arm's checks read (R200) -/

/-- A write reads back alike in two states that read a cell alike. -/
theorem State.set_get_congr {s t : State} {f : Fld} (h : t.get f = s.get f) (g : Fld) (v : Nat) :
    (t.set g v).get f = (s.set g v).get f := by
  by_cases hk : f.key = g.key
  · have hput : ∀ (m : Sparse Nat) (w : Nat), sget (sput m g.key g.reset w) f.key f.reset = if w = g.reset then f.reset else w := by
      intro m w
      rw [hk]
      unfold sput
      split
      · exact sget_sdel_same _ _ _
      · exact sget_sins_same _ _ _ _ (sdel_keys m _)
    exact (hput _ _).trans (hput _ _).symm
  · rw [State.get_set_ne _ _ hk, State.get_set_ne _ _ hk, h]

theorem trg_page (j : Nat) : 6 < PageClass.trg.page j := Nat.lt_of_lt_of_le (by decide : 6 < 0x140) (Nat.le_add_right _ _)

theorem pool_page (j : Nat) : 6 < PageClass.pool.page j := Nat.lt_of_lt_of_le (by decide : 6 < 0x148) (Nat.le_add_right _ _)

theorem dma_page (j : Nat) : 6 < PageClass.dma.page j := Nat.lt_of_lt_of_le (by decide : 6 < 0x1C1) (Nat.le_add_right _ _)

/-- `t` reads as `s` what the checks of sequencer `n`'s arm read. -/
structure State.SameArms (n : Nat) (s t : State) : Prop where
  cells : ∀ f : Fld, 6 < f.page → t.get f = s.get f
  ready : t.get PWR_TRG_GATE_READY.one = s.get PWR_TRG_GATE_READY.one
  seq : t.seq n = s.seq n

namespace State.SameArms

section
variable {n : Nat} {s t : State} (h : State.SameArms n s t)
include h

theorem set (g : Fld) (v : Nat) : State.SameArms n (s.set g v) (t.set g v) :=
  ⟨fun f hf => State.set_get_congr (h.cells f hf) g v, State.set_get_congr h.ready g v, h.seq⟩

theorem detached (j : Nat) : t.detached j = s.detached j := by
  rw [State.detached, State.is, h.cells _ (trg_page j), State.detached, State.is]

theorem seqFenced (j : Nat) : t.seqFenced j = s.seqFenced j := by
  rw [State.seqFenced, State.is, h.cells _ (trg_page j), State.seqFenced, State.is]

theorem res (f : RegField) (hf : f.cls = .pool) (i : Nat) : t.get (f.res i) = s.get (f.res i) := by
  refine h.cells _ ?_
  show 6 < f.cls.page _
  rw [hf]
  exact pool_page _

theorem ownerOf : t.ownerOf = s.ownerOf := funext fun r => by
  cases r with
  | wc i => exact h.res _ rfl i
  | rc i => exact h.res _ rfl i
  | ed i => exact h.res _ rfl i
  | ct i => exact h.res _ rfl i
  | tm i => exact h.res _ rfl i

theorem mayRead : t.mayRead = s.mayRead := funext fun j => funext fun k => by
  rw [State.mayRead, h.detached j, h.detached k, State.mayRead]

theorem termFault : t.termFault = s.termFault := by
  unfold State.termFault
  rw [h.ownerOf, h.mayRead]

theorem branchFault : t.branchFault = s.branchFault := by
  unfold State.branchFault State.opFault
  rw [h.termFault, h.ownerOf]

theorem program (j : Nat) : t.program j = s.program j :=
  List.map_congr_left (fun e _ => by rw [h.cells _ (trg_page j), h.cells _ (trg_page j)])

variable (hd : s.detached n = true)
include hd

/-- The skeins of a detached sequencer are judged by its replay alone. -/
theorem skeinsFault : t.skeinsFault n = s.skeinsFault n := by
  have hunfit : t.skeinUnfit n = s.skeinUnfit n := funext fun d => by
    rw [State.skeinUnfit, State.skeinUnfit, h.detached n, if_pos hd, if_pos hd, h.seq]
  have hblank : t.replayBlank n = s.replayBlank n := funext fun ds => by
    rw [State.replayBlank, h.detached n, h.seq, State.replayBlank]
  have hunmet : t.qualUnmet n = s.qualUnmet n := funext fun sck => funext fun ds => by
    unfold State.qualUnmet
    rw [h.detached n, if_pos hd, if_pos hd, h.seq]
  unfold State.skeinsFault
  rw [hunfit, hblank, hunmet]

theorem resourceFault : t.resourceFault n = s.resourceFault n := funext fun r => by
  cases r with
  | wc i =>
    rw [State.resourceFault, State.resourceFault, State.wcSkeins, State.wcSkeins, State.is, State.is, h.skeinsFault hd,
      h.res TRG_WC_SEL_SKEIN0 rfl i, h.res TRG_WC_SEL_SKEIN1 rfl i, h.res TRG_WC_SEL_SKEIN2 rfl i, h.res TRG_WC_SEL_SKEIN3 rfl i,
      h.res TRG_WC_CTRL_STATE_QUAL rfl i, h.res TRG_WC_CTRL_SCK rfl i]
  | rc i =>
    rw [State.resourceFault, State.resourceFault, State.rcSkeins, State.rcSkeins, State.is, State.is, h.skeinsFault hd,
      h.res TRG_RC_SEL_SKEINA rfl i, h.res TRG_RC_SEL_SKEINB rfl i, h.res TRG_RC_CTRL_STATE_QUAL rfl i, h.res TRG_RC_CTRL_SCK rfl i,
      h.res TRG_RC_SEL_WIDTH rfl i, h.res TRG_RC_SEL_LSB rfl i]
  | ed i => rw [State.resourceFault, State.resourceFault, h.skeinsFault hd, h.res TRG_ED_CTRL_SKEIN rfl i]
  | ct i =>
    rw [State.resourceFault, State.resourceFault, h.termFault, h.res TRG_CT_CTRL_INC_SRC rfl i, h.res TRG_CT_CTRL_CLR_SRC rfl i]
  | tm i => rw [State.resourceFault, State.resourceFault, h.termFault, h.res TRG_TM_CTRL_START_SRC rfl i]

/-- An arm of a detached sequencer is judged without its session. -/
theorem armRefusal (live : Bool) : t.armRefusal n live = s.armRefusal n false := by
  unfold State.armRefusal
  rw [h.program, h.seqFenced, h.ready, h.detached n, if_pos hd, if_pos hd, h.seq, h.branchFault, h.resourceFault hd]

end

end State.SameArms

/-! ### The command's own checks -/

theorem exec_replaySetup {s : State} (tag : BitVec 16) {args : List Byte} (h : s.takes = true) (hlen : args.length ≤ 4096) :
    exec (.replaySetup tag args) s = .next ((s.commandTaken 0x70 tag args).serveReplaySetup args) := State.ring_takes 0x70 tag h hlen

/-- A cell's number says its page. -/
theorem key_notMem_of_page_lt {ks : List Nat} {n : Nat} {f : Fld} (hks : ∀ k ∈ ks, k < n) (hf : n ≤ f.page * 274877906944) :
    f.key ∉ ks := by
  intro hmem
  have hlt := hks _ hmem
  unfold Fld.key at hlt
  omega

/-- A cell beyond the mailbox's page is none that the issue of a command writes. -/
theorem takenCells_beyond {f : Fld} (hf : 6 < f.page) : f.key ∉ takenCells :=
  key_notMem_of_page_lt (by decide) (Nat.mul_le_mul_right 274877906944 hf)

/-- Nor is it one that a command's end writes. -/
theorem okCells_beyond {f : Fld} (hf : 6 < f.page) : f.key ∉ okCells :=
  key_notMem_of_page_lt (by decide) (Nat.mul_le_mul_right 274877906944 hf)

theorem endCells_beyond {f : Fld} (hf : 6 < f.page) : f.key ∉ endCells := fun h => okCells_beyond hf (List.mem_append_right _ h)

theorem State.commandTaken_arms (s : State) (code : Nat) (tag : BitVec 16) (args : List Byte) (n : Nat) :
    State.SameArms n s (s.commandTaken code tag args) :=
  ⟨fun f hf => s.commandTaken_frame code tag args f (takenCells_beyond hf), s.commandTaken_frame code tag args _ (by decide), rfl⟩

theorem replayArgs_bounds {args : List Byte} (h : badField (replayArgs args) = none) : leAt args 0 1 < 8 ∧ leAt args 2 1 < 64 := by
  have hall := List.find?_eq_none.mp (Option.map_eq_none_iff.mp h)
  have hn := hall (0, decide (1 ≤ args.length) && decide (leAt args 0 1 ≤ 7)) (by simp [replayArgs])
  have hch := hall (2, decide (3 ≤ args.length) && decide (leAt args 2 1 ≤ 63)) (by simp [replayArgs])
  simp only [Bool.not_eq_true', Bool.not_eq_false, Bool.and_eq_true, decide_eq_true_eq] at hn hch
  omega

theorem State.checkReplay_congr {s u : State} {n d ch : Nat} (h : State.SameArms n s u) (hdma : u.dma = s.dma) :
    u.checkReplay n d ch = s.checkReplay n d ch := by
  have hsess : u.sessState n = s.sessState n := h.cells _ (Nat.le_of_ble_eq_true rfl)
  have hstate : u.get (TRG_STATUS_STATE.of n) = s.get (TRG_STATUS_STATE.of n) := h.cells _ (trg_page n)
  have hchan : u.dmaState ch = s.dmaState ch := h.cells _ (dma_page ch)
  have hheld : ∀ v, u.heldByOther ch v = s.heldByOther ch v := fun v => by simp only [State.heldByOther, State.chan, hdma]
  have hflow : ∀ v, u.flowFenced v = s.flowFenced v := fun v => by
    simp only [State.flowFenced, h.cells _ (show 6 < FLW_STATUS_COMP_FENCED.one.page by decide),
      h.cells _ (show 6 < FLW_STATUS_DEC_FENCED.one.page by decide)]
  have hfenced : u.is (fencedOf (PageClass.page .dma ch)) = s.is (fencedOf (PageClass.page .dma ch)) := by
    rw [State.is, h.cells _ (dma_page ch), State.is]
  have harmed : u.seqArmed n = s.seqArmed n := by rw [State.seqArmed, hstate, State.seqArmed]
  unfold State.checkReplay
  rw [hsess, h.detached, harmed, hstate, hchan, hheld, hflow, hfenced, h.seqFenced]

/-- What the checks answer where they fail. -/
theorem State.checkReplay_fail {s : State} {n d ch result : Nat} {reply : List Byte} (h : s.checkReplay n d ch = .fail result reply) :
    (0 < result ∧ result < 256) ∧ reply.length ≤ 4096 := by
  unfold State.checkReplay wrongState fencedUnit at h
  split at h
  · cases h
    decide
  · split at h
    · cases h
      exact ⟨by decide, by simp [toBytes_length]⟩
    · split at h
      · cases h
        exact ⟨by decide, by simp [toBytes_length]⟩
      · split at h
        · cases h
          exact ⟨by decide, by simp [toBytes_length]⟩
        · cases h

/-- A sequencer and a channel that pass: detached, neither armed nor about to be, the channel idle. -/
theorem State.checkReplay_pass {s : State} {n d ch : Nat} (h : s.checkReplay n d ch = .pass) : s.detached n = true ∧
    s.seqArmed n = false ∧ s.get (TRG_STATUS_STATE.of n) ≠ 1 ∧ s.dmaState ch ≠ 1 ∧ s.dmaState ch ≠ 4 := by
  unfold State.checkReplay wrongState at h
  split at h
  · cases h
  · next hnot =>
    simp only [not_or] at hnot
    obtain ⟨-, hdetached, harmed, hstate, hone, hfour, -⟩ := hnot
    exact ⟨by simpa using hdetached, by simpa using harmed, hstate, hone, hfour⟩

theorem replaySetup_badArguments (s : State) (tag : BitVec 16) (args : List Byte) (o : Nat) (h : s.takes = true)
    (hlen : args.length ≤ 4096) (hbad : badField (replayArgs args) = some o) :
    ∃ t, exec (.replaySetup tag args) s = .next t ∧ s.ended t 0x70 tag 2 false (toBytes 4 o) ∧ t.seqs = s.seqs := by
  have hexec := exec_replaySetup tag h hlen
  rw [State.serveReplaySetup, hbad] at hexec
  exact ⟨_, hexec, State.mbxEnd_ended (s.commandTaken_inService _ _ _) (by decide) (by decide) (by simp [toBytes_length]),
    (State.mbxEnd_mailOnly (s.commandTaken 0x70 tag args) 2 (toBytes 4 o)).keeps State.seqs⟩

/-- With arguments that keep their rules the checks decide. -/
theorem State.serveReplaySetup_fails {u : State} {args : List Byte} {result : Nat} {reply : List Byte}
    (hargs : badField (replayArgs args) = none)
    (h : u.checkReplay (leAt args 0 1) (leAt args 1 1) (leAt args 2 1) = .fail result reply) :
    u.serveReplaySetup args = u.mbxEnd result reply := by
  simp only [State.serveReplaySetup, hargs, h]

theorem replaySetup_fails (s : State) (tag : BitVec 16) (args : List Byte) (h : s.takes = true) (hlen : args.length ≤ 4096)
    (hargs : badField (replayArgs args) = none) (result : Nat) (reply : List Byte)
    (hfail : s.checkReplay (leAt args 0 1) (leAt args 1 1) (leAt args 2 1) = .fail result reply) :
    ∃ t, exec (.replaySetup tag args) s = .next t ∧ s.ended t 0x70 tag result false reply ∧ t.seqs = s.seqs := by
  obtain ⟨hresult, hreply⟩ := State.checkReplay_fail hfail
  have hexec := exec_replaySetup tag h hlen
  rw [State.serveReplaySetup_fails hargs ((State.checkReplay_congr (s.commandTaken_arms _ _ _ _) rfl).trans hfail)] at hexec
  exact ⟨_, hexec, State.mbxEnd_ended (s.commandTaken_inService _ _ _) (by decide) hresult hreply,
    (State.mbxEnd_mailOnly (s.commandTaken 0x70 tag args) result reply).keeps State.seqs⟩

/-! ### The sequencer prepared (R214, R217) -/

/-- The cells that a replay's preparation clears. -/
def prepareCells (n : Nat) : List Nat :=
  [TRG_REPLAY_STATUS_CRC_ERR, TRG_REPLAY_STATUS_GAP_SEEN, TRG_REPLAY_STATUS_DONE, TRG_REPLAY_MERGED, TRG_REPLAY_PRE_DROPS,
    TRG_REPLAY_POS].map (fun f => (f.of n).key)

/-- The sequencer as a replay finds it. -/
def Seq.forReplay (q : Seq) (ch : Nat) (args : List Byte) : Seq :=
  { Seq.idle with
    stitches := q.stitches
    outAddr := leAt args 0x10 8, outSize := leAt args 0x18 8, outSpace := leAt args 0x20 1
    channel := ch + 1, playSkeins := 2 ^ 64 - 1, playTraced := 2 ^ 64 - 1 }

theorem State.replayPrepare_eq (s : State) (n ch : Nat) (args : List Byte) : s.replayPrepare n ch args =
    forEach [TRG_REPLAY_STATUS_CRC_ERR, TRG_REPLAY_STATUS_GAP_SEEN, TRG_REPLAY_STATUS_DONE, TRG_REPLAY_MERGED,
      TRG_REPLAY_PRE_DROPS, TRG_REPLAY_POS] (s.onSeq n (·.forReplay ch args)) (fun f s => s.set (f.of n) 0) := by
  unfold State.replayPrepare Seq.forReplay
  rfl

theorem State.replayPrepare_frame (s : State) (n ch : Nat) (args : List Byte) :
    s.sameRegs (prepareCells n) (s.replayPrepare n ch args) := by
  rw [State.replayPrepare_eq]
  exact List.foldlRecOn (motive := s.sameRegs (prepareCells n)) _ _ (State.sameRegs_of_regs (s.sameRegs_refl _) rfl)
    (fun u hu f hf => State.sameRegs_set 0 hu (List.mem_map_of_mem hf))

/-- What a write of cells in turn leaves. -/
theorem forEach_set_keeps {α : Type} (φ : State → α) (l : List RegField) (n : Nat) (s : State)
    (hφ : ∀ (u : State) (f : Fld) (v : Nat), φ (u.set f v) = φ u) : φ (forEach l s (fun f s => s.set (f.of n) 0)) = φ s :=
  forEach_keeps φ s (fun f u => hφ u (f.of n) 0)

theorem State.replayPrepare_keeps {α : Type} (s : State) (n ch : Nat) (args : List Byte) (φ : State → α)
    (hφ : ∀ (u : State) (f : Fld) (v : Nat), φ (u.set f v) = φ u) (hseq : ∀ f, φ (s.onSeq n f) = φ s) :
    φ (s.replayPrepare n ch args) = φ s := by
  rw [State.replayPrepare_eq, forEach_set_keeps φ _ _ _ hφ, hseq]

theorem State.replayPrepare_seq (s : State) (n ch : Nat) (args : List Byte) :
    (s.replayPrepare n ch args).seq n = (s.seq n).forReplay ch args := by
  rw [State.replayPrepare_eq, forEach_set_keeps (State.seq · n) _ _ _ (fun _ _ _ => rfl), State.seq_onSeq_same]

/-- Prepared alike, two states are armed alike. -/
theorem State.SameArms.replayPrepare {n : Nat} {s u : State} (h : State.SameArms n s u) (ch : Nat) (args : List Byte) :
    State.SameArms n (s.replayPrepare n ch args) (u.replayPrepare n ch args) := by
  rw [State.replayPrepare_eq, State.replayPrepare_eq]
  have hset : State.SameArms n (s.onSeq n (·.forReplay ch args)) (u.onSeq n (·.forReplay ch args)) :=
    ⟨h.cells, h.ready, by rw [State.seq_onSeq_same, State.seq_onSeq_same, h.seq]⟩
  simp only [forEach, List.foldl_cons, List.foldl_nil]
  exact (((((hset.set _ _).set _ _).set _ _).set _ _).set _ _).set _ _

/-! ### The arm (R199, R200) -/

section
variable {p : State} {n : Nat} (harmed : p.seqArmed n = false) (hstate : p.get (TRG_STATUS_STATE.of n) ≠ 1)
include harmed hstate

theorem State.armRequest_refused (h : p.armRefusal n (p.sessionLive n) ≠ 0) :
    p.armRequest n = (p.armRefused n (p.armRefusal n (p.sessionLive n)), p.armRefusal n (p.sessionLive n)) := by
  unfold State.armRequest
  rw [if_neg (by simp [harmed, hstate])]
  exact if_pos h

/-- The arm staged for the next boundary. -/
theorem State.armRequest_staged (h : p.armRefusal n (p.sessionLive n) = 0) : p.armRequest n =
    ((((p.set (TRG_STATUS_STATE.of n) 1).set (TRG_CTRL_ARM.of n) 1).set (TRG_ARM_ERR_CAUSE.of n) 0).onSeq n
      (fun q => { q with armDue := p.nextBoundary }), 0) := by
  unfold State.armRequest
  rw [if_neg (by simp [harmed, hstate])]
  exact if_neg (by simp [h])

end

/-- A refused arm notes its cause, and the sequencer lets its channel go. -/
def State.replayRefused (p : State) (n cause : Nat) : State := (p.armRefused n cause).onSeq n (fun q => { q with channel := 0 })

theorem State.replayRefused_shows (p : State) {n : Nat} (hn : n < 8) (cause : Nat) :
    (p.replayRefused n cause).is (TRG_ARM_ERR_REFUSED.of n) = true ∧
    (p.replayRefused n cause).get (TRG_STATUS_STATE.of n) = p.get (TRG_STATUS_STATE.of n) ∧
    (p.replayRefused n cause).get MBX_COMPLETED.one = p.get MBX_COMPLETED.one ∧ (p.replayRefused n cause).mbx = p.mbx ∧
    (p.replayRefused n cause).svc = p.svc ∧ (p.replayRefused n cause).dma = p.dma := by
  have hkeys : ∀ n < 8, (TRG_ARM_ERR_REFUSED.of n).key ∉ latches [197 + 8 * n] ∧
      (TRG_STATUS_STATE.of n).key ∉ latches [197 + 8 * n] ∧ MBX_COMPLETED.one.key ∉ latches [197 + 8 * n] := by decide
  obtain ⟨hrefused, hstate, hcount⟩ := hkeys n hn
  have hmail : ∀ g : Fld, 6 < g.page → MBX_COMPLETED.one.key ≠ g.key := fun g hg => Fld.key_ne_of_page_lt (by decide) hg
  unfold State.replayRefused State.armRefused
  refine ⟨?_, ?_, ?_, by rw [State.onSeq_mbx, State.raise_mbx]; rfl, by rw [State.onSeq_svc, State.raise_svc]; rfl,
    by rw [State.onSeq_dma, State.raise_dma]; rfl⟩
  · rw [State.onSeq_is, State.is_raise_ne _ _ hrefused, State.is_set_ne _ _ (Fld.key_ne_of_apart rfl), State.is_set_same]
    rfl
  · rw [State.onSeq_get, State.raise_get_ne _ _ hstate, State.get_set_ne _ _ (Fld.key_ne_of_apart rfl),
      State.get_set_ne _ _ (Fld.key_ne_of_apart rfl)]
  · rw [State.onSeq_get, State.raise_get_ne _ _ hcount, State.get_set_ne _ _ (hmail _ (trg_page n)),
      State.get_set_ne _ _ (hmail _ (trg_page n))]

/-- The state with the sequencer prepared, and what it keeps of the state that took the command. -/
theorem State.replayPrepare_shows (u : State) {n : Nat} (hn : n < 8) (ch : Nat) (args : List Byte) :
    (u.replayPrepare n ch args).get (TRG_STATUS_STATE.of n) = u.get (TRG_STATUS_STATE.of n) ∧
    (u.replayPrepare n ch args).get MBX_COMPLETED.one = u.get MBX_COMPLETED.one ∧
    (u.replayPrepare n ch args).mbx = u.mbx ∧ (u.replayPrepare n ch args).svc = u.svc ∧ (u.replayPrepare n ch args).dma = u.dma := by
  have hkeys : ∀ n < 8, (TRG_STATUS_STATE.of n).key ∉ prepareCells n ∧ MBX_COMPLETED.one.key ∉ prepareCells n := by decide
  have hframe := u.replayPrepare_frame n ch args
  exact ⟨hframe _ (hkeys n hn).1, hframe _ (hkeys n hn).2, u.replayPrepare_keeps n ch args State.mbx (fun _ _ _ => rfl) (fun _ => rfl),
    u.replayPrepare_keeps n ch args State.svc (fun _ _ _ => rfl) (fun _ => rfl),
    u.replayPrepare_keeps n ch args State.dma (fun _ _ _ => rfl) (fun _ => rfl)⟩

theorem State.replayPrepare_detached (s : State) {n : Nat} (hn : n < 8) {ch : Nat} {args : List Byte} (h : s.detached n = true) :
    (s.replayPrepare n ch args).detached n = true := by
  have hkeys : ∀ n < 8, (TRG_CTRL_DETACH.of n).key ∉ prepareCells n := by decide
  exact (State.is_of_sameRegs (s.replayPrepare_frame n ch args) (hkeys n hn)).trans h

theorem State.serveReplaySetup_prepares {u : State} {args : List Byte} (hargs : badField (replayArgs args) = none)
    (h : u.checkReplay (leAt args 0 1) (leAt args 1 1) (leAt args 2 1) = .pass) : u.serveReplaySetup args =
    let r := (u.replayPrepare (leAt args 0 1) (leAt args 2 1) args).armRequest (leAt args 0 1)
    if r.2 ≠ 0 then (r.1.onSeq (leAt args 0 1) (fun q => { q with channel := 0 })).mbxEnd 4 (toBytes 1 r.2)
    else
      ((((r.1.grottoLent (leAt args 0 1)).set (DMA_HEAD_ADDR.of (leAt args 2 1)) (leAt args 8 8 / 2 ^ 7)).set
        (DMA_HEAD_HOST.of (leAt args 2 1)) (field (leAt args 8 8) 1 1)).dmaStart (leAt args 2 1)).mbxOk [] := by
  simp only [State.serveReplaySetup, hargs, h]

theorem replaySetup_refused (s : State) (tag : BitVec 16) (args : List Byte) (h : s.takes = true) (hlen : args.length ≤ 4096)
    (hargs : badField (replayArgs args) = none)
    (hpass : s.checkReplay (leAt args 0 1) (leAt args 1 1) (leAt args 2 1) = .pass)
    (hcause : (s.replayPrepare (leAt args 0 1) (leAt args 2 1) args).armRefusal (leAt args 0 1) false ≠ 0) :
    ∃ t, exec (.replaySetup tag args) s = .next t ∧
      s.ended t 0x70 tag 4 false
        (toBytes 1 ((s.replayPrepare (leAt args 0 1) (leAt args 2 1) args).armRefusal (leAt args 0 1) false)) ∧
      t.is (TRG_ARM_ERR_REFUSED.of (leAt args 0 1)) = true ∧
      t.get (TRG_STATUS_STATE.of (leAt args 0 1)) = s.get (TRG_STATUS_STATE.of (leAt args 0 1)) ∧ t.dma = s.dma := by
  obtain ⟨hn, -⟩ := replayArgs_bounds hargs
  have hexec := exec_replaySetup tag h hlen
  have hframe := s.commandTaken_frame 0x70 tag args
  have hserves := s.commandTaken_inService 0x70 tag args
  have harms := s.commandTaken_arms 0x70 tag args (leAt args 0 1)
  have hdma : (s.commandTaken 0x70 tag args).dma = s.dma := rfl
  generalize s.commandTaken 0x70 tag args = u at *
  rw [State.serveReplaySetup_prepares hargs ((State.checkReplay_congr harms hdma).trans hpass)] at hexec
  obtain ⟨hdetached, harmed, hone, -, -⟩ := State.checkReplay_pass hpass
  have hprepared := harms.replayPrepare (leAt args 2 1) args
  obtain ⟨hstate, hcount, hmbx, hsvc, hpdma⟩ := u.replayPrepare_shows hn (leAt args 2 1) args
  have htrg : u.get (TRG_STATUS_STATE.of (leAt args 0 1)) = s.get (TRG_STATUS_STATE.of (leAt args 0 1)) := harms.cells _ (trg_page _)
  have hidle : (u.replayPrepare (leAt args 0 1) (leAt args 2 1) args).seqArmed (leAt args 0 1) = false := by
    rw [State.seqArmed, hstate, htrg]
    exact harmed
  have hsame := hprepared.armRefusal (s.replayPrepare_detached hn hdetached)
    ((u.replayPrepare (leAt args 0 1) (leAt args 2 1) args).sessionLive (leAt args 0 1))
  rw [State.armRequest_refused hidle (by rwa [hstate, htrg]) (by rwa [hsame]), if_pos (by rwa [hsame]), hsame] at hexec
  generalize (s.replayPrepare (leAt args 0 1) (leAt args 2 1) args).armRefusal (leAt args 0 1) false = cause at *
  obtain ⟨rrefused, rstate, rcount, rmbx, rsvc, rdma⟩ :=
    (u.replayPrepare (leAt args 0 1) (leAt args 2 1) args).replayRefused_shows hn cause
  rw [← State.replayRefused] at hexec
  generalize (u.replayPrepare (leAt args 0 1) (leAt args 2 1) args).replayRefused (leAt args 0 1) cause = v at *
  have hend := v.mbxEnd_frame 4 (toBytes 1 cause)
  refine ⟨_, hexec, State.mbxEnd_ended (hserves.step (rmbx.trans hmbx) (by rw [rsvc, hsvc]) (rcount.trans hcount))
    (by decide) (by decide) (by simp [toBytes_length]), ?_, ?_, ?_⟩
  · exact (State.is_of_sameRegs hend (endCells_beyond (trg_page _))).trans rrefused
  · exact ((hend _ (endCells_beyond (trg_page _))).trans rstate).trans (hstate.trans htrg)
  · exact (((v.mbxEnd_mailOnly 4 _).keeps State.dma).trans rdma).trans (hpdma.trans hdma)

/-! ### The grotto lent and the channel started (R217, R298, R332) -/

/-- A cell of the grottos' page is none of another page. -/
theorem State.get_set_grt (s : State) {f g : Fld} (v : Nat) (hg : g.placed = true ∧ g.page ≠ 0x1A0)
    (hf : f.placed = true ∧ f.page = 0x1A0) : (s.set f v).get g = s.get g := by
  refine State.get_set_ne _ _ ?_
  rcases Nat.lt_or_gt_of_ne hg.2 with hlt | hgt
  · exact Fld.key_ne_of_page_lt hg.1 (hf.2 ▸ hlt)
  · exact (Fld.key_ne_of_page_lt hf.1 (hf.2 ▸ hgt)).symm

theorem grottoOwner_placed {b : Nat} (hb : b < 64) : ∀ f ∈ [GRT_OWNER_NO_BORROW, GRT_OWNER_OWNER, GRT_OWNER_GUEST,
    GRT_OWNER_PENDING, GRT_OWNER_CLEAR], (f.elt b).placed = true ∧ (f.elt b).page = 0x1A0 := by
  have hall : ∀ b < 64, ∀ f ∈ [GRT_OWNER_NO_BORROW, GRT_OWNER_OWNER, GRT_OWNER_GUEST, GRT_OWNER_PENDING, GRT_OWNER_CLEAR],
      (f.elt b).placed = true ∧ (f.elt b).page = 0x1A0 := by decide
  exact hall b hb

/-- What writes of the grottos' cells, their rights and the test's windows leave, a hand-over leaves. -/
theorem State.handOver_keeps {α : Type} (φ : State → α) (s : State) {b : Nat} (hb : b < 64) (owner guest : Nat) (clear noBorrow : Bool)
    (hset : ∀ (u : State) (f : Fld) (v : Nat), f.placed = true ∧ f.page = 0x1A0 → φ (u.set f v) = φ u)
    (hgrt : ∀ u f, φ (State.onGrt u f) = φ u) (hflt : ∀ u f, φ (State.onFlt u f) = φ u) :
    φ (s.handOver b owner guest clear noBorrow) = φ s := by
  have hcells := grottoOwner_placed hb
  simp only [List.forall_mem_cons, List.not_mem_nil, false_implies, implies_true, and_true] at hcells
  obtain ⟨hnoBorrow, howner, hguest, hpending, hclear⟩ := hcells
  have habandon : ∀ u : State, φ (u.abandonWindow b) = φ u := fun u => by
    have hcount : (GRT_B_ABANDONS.win b).placed = true ∧ (GRT_B_ABANDONS.win b).page = 0x1A0 :=
      ⟨(Fld.placed_iff _).mpr ⟨Nat.le_of_ble_eq_true rfl, Nat.le_of_ble_eq_true rfl, hb.trans (by decide),
        Nat.le_of_ble_eq_true rfl⟩, rfl⟩
    unfold State.abandonWindow
    split
    · split
      · exact (hset _ _ _ hcount).trans ((hflt _ _).trans (hgrt _ _))
      · rfl
    · rfl
  unfold State.handOver
  extract_lets guest old s1 s2
  split
  · exact hset _ _ _ hnoBorrow
  · split
    · rfl
    · rw [hgrt, hset _ _ _ hclear, hset _ _ _ hpending, hset _ _ _ hguest, hset _ _ _ howner, habandon]
      exact hset _ _ _ hnoBorrow

theorem State.grottoLent_keeps {α : Type} (φ : State → α) (s : State) {n : Nat} (hb : s.get (TRG_REPLAY_CTRL_GROTTO.of n) < 64)
    (hset : ∀ (u : State) (f : Fld) (v : Nat), f.placed = true ∧ f.page = 0x1A0 → φ (u.set f v) = φ u)
    (hgrt : ∀ u f, φ (State.onGrt u f) = φ u) (hflt : ∀ u f, φ (State.onFlt u f) = φ u) (hseq : ∀ u m f, φ (State.onSeq u m f) = φ u) :
    φ (s.grottoLent n) = φ s := by
  unfold State.grottoLent
  split
  · rfl
  · exact (hseq _ _ _).trans (State.handOver_keeps φ s hb _ _ _ _ hset hgrt hflt)

theorem State.grottoLent_seq (s : State) {n : Nat} (hb : s.get (TRG_REPLAY_CTRL_GROTTO.of n) < 64) :
    ∃ lender, (s.grottoLent n).seq n = { s.seq n with lender := lender } := by
  unfold State.grottoLent
  split
  · exact ⟨_, rfl⟩
  · rw [State.seq_onSeq_same, State.handOver_keeps (State.seq · n) s hb _ _ _ _ (fun _ _ _ _ => rfl) (fun _ _ => rfl) (fun _ _ => rfl)]
    exact ⟨_, rfl⟩

/-- The fields that a START clears. -/
def startFields : List RegField :=
  [DMA_POS0, DMA_POS1, DMA_POS2, DMA_ELEM_OFF, DMA_IN_BYTES, DMA_OUT_BYTES, DMA_TOTAL_BYTES, DMA_DESCS, DMA_KICKS, DMA_UE,
    DMA_LAST_UE, DMA_STATUS_KICK_PENDING, DMA_STATUS_RESULT, DMA_STATUS_ERR_CAUSE]

/-- What a channel's own registers and state are not, a START of an idle channel leaves. -/
theorem State.dmaStart_keeps {α : Type} (φ : State → α) (s : State) {ch : Nat} (hone : s.dmaState ch ≠ 1) (hfour : s.dmaState ch ≠ 4)
    (hset : ∀ (u : State) (f : RegField) (v : Nat), f ∈ startFields ++ [DMA_STATUS_STATE, DMA_CUR] → φ (u.set (f.of ch) v) = φ u)
    (hchan : ∀ u f, φ (State.onChan u ch f) = φ u) : φ (s.dmaStart ch) = φ s := by
  unfold State.dmaStart
  split
  · next h => exact absurd h hone
  · next h => exact absurd h hfour
  · unfold State.fetchFrom
    rw [hchan, hset _ DMA_CUR _ (by simp), hchan, hset _ DMA_STATUS_STATE _ (by simp)]
    exact List.foldlRecOn (motive := fun u => φ u = φ s) startFields _ rfl
      (fun u hu f hf => (hset u f 0 (List.mem_append_left _ hf)).trans hu)

/-- A cell of an earlier page, or of another place of the channel's page, stands. -/
theorem State.dmaStart_get (s : State) {ch : Nat} (hone : s.dmaState ch ≠ 1) (hfour : s.dmaState ch ≠ 4) {g : Fld}
    (hg : ∀ f ∈ startFields ++ [DMA_STATUS_STATE, DMA_CUR], g.key ≠ (f.of ch).key) : (s.dmaStart ch).get g = s.get g :=
  s.dmaStart_keeps (State.get · g) hone hfour (fun u f v hf => u.get_set_ne v (hg f hf)) (fun _ _ => rfl)

theorem startFields_dma : ∀ f ∈ startFields ++ [DMA_STATUS_STATE, DMA_CUR], f.cls = .dma := by decide

theorem State.dmaStart_get_earlier (s : State) {ch : Nat} (hone : s.dmaState ch ≠ 1) (hfour : s.dmaState ch ≠ 4) {g : Fld}
    (hg : g.placed = true) (hpage : g.page < 0x1C1) : (s.dmaStart ch).get g = s.get g := by
  refine s.dmaStart_get hone hfour (fun f hf => Fld.key_ne_of_page_lt hg ?_)
  show g.page < f.cls.page ch
  rw [startFields_dma f hf]
  exact Nat.lt_of_lt_of_le hpage (Nat.le_add_right _ _)

/-! ### A replay set up (R402) -/

/-- An arm staged for the next boundary (R199). -/
def State.armStaged (p : State) (n : Nat) : State :=
  (((p.set (TRG_STATUS_STATE.of n) 1).set (TRG_CTRL_ARM.of n) 1).set (TRG_ARM_ERR_CAUSE.of n) 0).onSeq n
    (fun q => { q with armDue := p.nextBoundary })

theorem State.armStaged_get (p : State) (n : Nat) {g : Fld} (hstate : g.key ≠ (TRG_STATUS_STATE.of n).key)
    (harm : g.key ≠ (TRG_CTRL_ARM.of n).key) (hcause : g.key ≠ (TRG_ARM_ERR_CAUSE.of n).key) :
    (p.armStaged n).get g = p.get g := by
  rw [State.armStaged, State.onSeq_get, State.get_set_ne _ _ hcause, State.get_set_ne _ _ harm, State.get_set_ne _ _ hstate]

theorem State.armStaged_state (p : State) (n : Nat) : (p.armStaged n).get (TRG_STATUS_STATE.of n) = 1 := by
  rw [State.armStaged, State.onSeq_get, State.get_set_ne _ _ (Fld.key_ne_of_apart rfl), State.get_set_ne _ _ (Fld.key_ne_of_apart rfl),
    State.get_set_same]
  rfl

/-- A cell of a page before the sequencers', or after them, stands as an arm is staged. -/
theorem State.armStaged_get_off (p : State) {n : Nat} (hn : n < 8) {g : Fld} (hg : g.placed = true)
    (hpage : g.page < 0x140 ∨ 0x148 ≤ g.page) : (p.armStaged n).get g = p.get g := by
  have hne : ∀ f : Fld, f.placed = true → f.page = 0x140 + n → g.key ≠ f.key := fun f hf hfpage => by
    rcases hpage with hlt | hge
    · exact Fld.key_ne_of_page_lt hg (by omega)
    · exact (Fld.key_ne_of_page_lt hf (by omega)).symm
  exact p.armStaged_get n (hne _ rfl rfl) (hne _ rfl rfl) (hne _ rfl rfl)

/-- The registers of channel `ch` that name the first descriptor. -/
def State.headPut (s : State) (ch head : Nat) : State :=
  (s.set (DMA_HEAD_ADDR.of ch) (head / 2 ^ 7)).set (DMA_HEAD_HOST.of ch) (field head 1 1)

theorem State.headPut_shows (s : State) (ch : Nat) {head : Nat} (h : head < 2 ^ 64) :
    (s.headPut ch head).get (DMA_HEAD_ADDR.of ch) = head / 2 ^ 7 ∧ (s.headPut ch head).is (DMA_HEAD_HOST.of ch) = bitOf head 1 := by
  unfold State.headPut
  refine ⟨?_, ?_⟩
  · rw [State.get_set_ne _ _ (Fld.key_ne_of_apart rfl), State.get_set_same]
    have hsplit : 2 ^ 64 = 2 ^ 7 * 2 ^ 57 := by norm_num
    exact Nat.mod_eq_of_lt (Nat.div_lt_of_lt_mul (h.trans_eq hsplit))
  · rw [State.is_set_same]
    exact congrArg (· == 1) (Nat.mod_mod _ _)

theorem State.headPut_get (s : State) (ch head : Nat) {g : Fld} (haddr : g.key ≠ (DMA_HEAD_ADDR.of ch).key)
    (hhost : g.key ≠ (DMA_HEAD_HOST.of ch).key) : (s.headPut ch head).get g = s.get g := by
  rw [State.headPut, State.get_set_ne _ _ hhost, State.get_set_ne _ _ haddr]

/-- The replay as REPLAY_SETUP starts it: the sequencer `n`, prepared in `p`, armed, and channel `ch` started at `head`. -/
def State.replayStarted (p : State) (n ch head : Nat) : State := (((p.armStaged n).grottoLent n).headPut ch head).dmaStart ch

section
variable {p : State} {n ch head : Nat} (hn : n < 8) (hch : ch < 64) (hgrotto : p.get (TRG_REPLAY_CTRL_GROTTO.of n) < 64)
  (hone : p.dmaState ch ≠ 1) (hfour : p.dmaState ch ≠ 4)

include hgrotto in
theorem State.armStaged_grotto : (p.armStaged n).get (TRG_REPLAY_CTRL_GROTTO.of n) < 64 := by
  rwa [p.armStaged_get n (Fld.key_ne_of_apart rfl) (Fld.key_ne_of_apart rfl) (Fld.key_ne_of_apart rfl)]

include hgrotto in
theorem State.replayLent_get {g : Fld} (hg : g.placed = true ∧ g.page ≠ 0x1A0) :
    ((p.armStaged n).grottoLent n).get g = (p.armStaged n).get g :=
  State.grottoLent_keeps (State.get · g) _ (State.armStaged_grotto hgrotto) (fun u _ v hf => u.get_set_grt v hg hf)
    (fun _ _ => rfl) (fun _ _ => rfl) (fun _ _ _ => rfl)

include hn hgrotto in
/-- The channel's state is none of the cells that the arm and the hand-over write. -/
theorem State.replayHead_dmaState : (((p.armStaged n).grottoLent n).headPut ch head).dmaState ch = p.dmaState ch := by
  have hpage : (DMA_STATUS_STATE.of ch).page ≠ 0x1A0 ∧ 0x148 ≤ (DMA_STATUS_STATE.of ch).page := by
    show 0x1C1 + ch ≠ 0x1A0 ∧ 0x148 ≤ 0x1C1 + ch
    omega
  unfold State.dmaState
  rw [State.headPut_get _ _ _ (Fld.key_ne_of_apart rfl) (Fld.key_ne_of_apart rfl), State.replayLent_get hgrotto ⟨rfl, hpage.1⟩,
    p.armStaged_get_off hn rfl (.inr hpage.2)]

include hn hgrotto hone hfour

theorem State.replayStarted_get {g : Fld} (hg : g.placed = true) (hpage : g.page < 0x1A0) :
    (p.replayStarted n ch head).get g = (p.armStaged n).get g := by
  have hdma : g.page < (DMA_HEAD_ADDR.of ch).page ∧ g.page < (DMA_HEAD_HOST.of ch).page := by
    show g.page < 0x1C1 + ch ∧ g.page < 0x1C1 + ch
    omega
  have hstate := State.replayHead_dmaState (ch := ch) (head := head) hn hgrotto
  unfold State.replayStarted
  rw [State.dmaStart_get_earlier _ (by rwa [hstate]) (by rwa [hstate]) hg (by omega),
    State.headPut_get _ _ _ (Fld.key_ne_of_page_lt hg hdma.1) (Fld.key_ne_of_page_lt hg hdma.2),
    State.replayLent_get hgrotto ⟨hg, by omega⟩]

theorem State.replayStarted_head (hhead : head < 2 ^ 64) :
    (p.replayStarted n ch head).get (DMA_HEAD_ADDR.of ch) = head / 2 ^ 7 ∧
      (p.replayStarted n ch head).is (DMA_HEAD_HOST.of ch) = bitOf head 1 := by
  have hstate := State.replayHead_dmaState (ch := ch) (head := head) hn hgrotto
  obtain ⟨haddr, hhost⟩ := ((p.armStaged n).grottoLent n).headPut_shows ch hhead
  have hapart : ∀ g ∈ [DMA_HEAD_ADDR.of ch, DMA_HEAD_HOST.of ch], ∀ f ∈ startFields ++ [DMA_STATUS_STATE, DMA_CUR],
      g.key ≠ (f.of ch).key := by
    have hplaces : ([DMA_HEAD_ADDR.of ch, DMA_HEAD_HOST.of ch].all (fun g => (startFields ++ [DMA_STATUS_STATE, DMA_CUR]).all
      (fun f => g.apart (f.of ch)))) = true := rfl
    exact fun g hg f hf => Fld.key_ne_of_apart (List.all_eq_true.mp (List.all_eq_true.mp hplaces g hg) f hf)
  unfold State.replayStarted State.is
  rw [State.dmaStart_get _ (by rwa [hstate]) (by rwa [hstate]) (hapart _ (by simp)),
    State.dmaStart_get _ (by rwa [hstate]) (by rwa [hstate]) (hapart _ (by simp))]
  exact ⟨haddr, hhost⟩

theorem State.replayStarted_keeps {α : Type} (φ : State → α) (hset : ∀ (u : State) (f : Fld) (v : Nat), φ (u.set f v) = φ u)
    (hgrt : ∀ u f, φ (State.onGrt u f) = φ u) (hflt : ∀ u f, φ (State.onFlt u f) = φ u) (hseq : ∀ u m f, φ (State.onSeq u m f) = φ u)
    (hchan : ∀ u f, φ (State.onChan u ch f) = φ u) : φ (p.replayStarted n ch head) = φ p := by
  have hstate := State.replayHead_dmaState (ch := ch) (head := head) hn hgrotto
  unfold State.replayStarted
  rw [State.dmaStart_keeps φ _ (by rwa [hstate]) (by rwa [hstate]) (fun u f v _ => hset u _ v) hchan, State.headPut, hset, hset,
    State.grottoLent_keeps φ _ (State.armStaged_grotto hgrotto) (fun u f v _ => hset u f v) hgrt hflt hseq, State.armStaged, hseq,
    hset, hset, hset]

theorem State.replayStarted_seq : ∃ lender, (p.replayStarted n ch head).seq n =
    { p.seq n with armDue := p.nextBoundary, lender := lender } := by
  have hstate := State.replayHead_dmaState (ch := ch) (head := head) hn hgrotto
  obtain ⟨lender, hlent⟩ := (p.armStaged n).grottoLent_seq (State.armStaged_grotto hgrotto)
  refine ⟨lender, ?_⟩
  unfold State.replayStarted
  rw [State.dmaStart_keeps (State.seq · n) _ (by rwa [hstate]) (by rwa [hstate]) (fun _ _ _ _ => rfl) (fun _ _ => rfl)]
  refine hlent.trans ?_
  rw [State.armStaged, State.seq_onSeq_same]
  rfl

end

/-- The preparation leaves where the pre-history's grotto stands, and every channel's state. -/
theorem State.replayPrepare_kept (u : State) {n : Nat} (hn : n < 8) (ch : Nat) (args : List Byte) :
    (u.replayPrepare n ch args).get (TRG_REPLAY_CTRL_GROTTO.of n) = u.get (TRG_REPLAY_CTRL_GROTTO.of n) ∧
      (u.replayPrepare n ch args).dmaState ch = u.dmaState ch := by
  have hgrotto : ∀ n < 8, (TRG_REPLAY_CTRL_GROTTO.of n).key ∉ prepareCells n := by decide
  have hbelow : ∀ n < 8, ∀ k ∈ prepareCells n, k < 0x1C1 * 274877906944 := by decide
  have hpage : 0x1C1 ≤ (DMA_STATUS_STATE.of ch).page := Nat.le_add_right _ _
  have hframe := u.replayPrepare_frame n ch args
  exact ⟨hframe _ (hgrotto n hn), hframe _ (key_notMem_of_page_lt (hbelow n hn) (Nat.mul_le_mul_right _ hpage))⟩

theorem replaySetup_arms (s : State) (tag : BitVec 16) (args : List Byte) (hsound : s.Sound) (h : s.takes = true)
    (hlen : args.length ≤ 4096) (hargs : badField (replayArgs args) = none)
    (hpass : s.checkReplay (leAt args 0 1) (leAt args 1 1) (leAt args 2 1) = .pass)
    (hcause : (s.replayPrepare (leAt args 0 1) (leAt args 2 1) args).armRefusal (leAt args 0 1) false = 0) :
    ∃ t, exec (.replaySetup tag args) s = .next t ∧ s.ended t 0x70 tag 0 false [] ∧
      t.get (TRG_STATUS_STATE.of (leAt args 0 1)) = 1 ∧ (t.seq (leAt args 0 1)).channel = leAt args 2 1 + 1 ∧
      (t.seq (leAt args 0 1)).outAddr = leAt args 0x10 8 ∧ (t.seq (leAt args 0 1)).outSize = leAt args 0x18 8 ∧
      (t.seq (leAt args 0 1)).outSpace = leAt args 0x20 1 ∧ (t.seq (leAt args 0 1)).armDue = s.nextBoundary ∧
      t.get (DMA_HEAD_ADDR.of (leAt args 2 1)) = leAt args 8 8 / 2 ^ 7 ∧
      t.is (DMA_HEAD_HOST.of (leAt args 2 1)) = bitOf (leAt args 8 8) 1 := by
  obtain ⟨hn, -⟩ := replayArgs_bounds hargs
  have hexec := exec_replaySetup tag h hlen
  have hserves := s.commandTaken_inService 0x70 tag args
  have harms := s.commandTaken_arms 0x70 tag args (leAt args 0 1)
  have hdma : (s.commandTaken 0x70 tag args).dma = s.dma := rfl
  have hnow : (s.commandTaken 0x70 tag args).now = s.now := rfl
  generalize s.commandTaken 0x70 tag args = u at *
  rw [State.serveReplaySetup_prepares hargs ((State.checkReplay_congr harms hdma).trans hpass)] at hexec
  obtain ⟨hdetached, harmed, hone, hrun, hwait⟩ := State.checkReplay_pass hpass
  have hprepared := harms.replayPrepare (leAt args 2 1) args
  have hseq := u.replayPrepare_seq (leAt args 0 1) (leAt args 2 1) args
  obtain ⟨hgrotto, hchan⟩ := u.replayPrepare_kept hn (leAt args 2 1) args
  have hbound : (u.replayPrepare (leAt args 0 1) (leAt args 2 1) args).nextBoundary = s.nextBoundary := by
    rw [State.nextBoundary, u.replayPrepare_keeps _ _ _ State.now (fun _ _ _ => rfl) (fun _ => rfl), hnow, State.nextBoundary]
  obtain ⟨hstate, hcount, hmbx, hsvc, -⟩ := u.replayPrepare_shows hn (leAt args 2 1) args
  rw [harms.cells _ (trg_page _)] at hstate hgrotto
  have hidle : (u.replayPrepare (leAt args 0 1) (leAt args 2 1) args).seqArmed (leAt args 0 1) = false := by
    rw [State.seqArmed, hstate]
    exact harmed
  have hsame := hprepared.armRefusal (s.replayPrepare_detached hn hdetached)
    ((u.replayPrepare (leAt args 0 1) (leAt args 2 1) args).sessionLive (leAt args 0 1))
  rw [State.armRequest_staged hidle (hstate.trans_ne hone) (hsame.trans hcause), if_neg (by simp), ← State.armStaged,
    ← State.headPut, ← State.replayStarted] at hexec
  generalize u.replayPrepare (leAt args 0 1) (leAt args 2 1) args = p at *
  have hdmaState : u.dmaState (leAt args 2 1) = s.dmaState (leAt args 2 1) := harms.cells _ (dma_page _)
  rw [hdmaState] at hchan
  have hlent : p.get (TRG_REPLAY_CTRL_GROTTO.of (leAt args 0 1)) < 64 := by
    rw [hgrotto]
    exact hsound.get_lt _ (Nat.le_of_ble_eq_true rfl) (Nat.le_of_ble_eq_true rfl) (Nat.le_of_ble_eq_true rfl)
  rw [← hchan] at hrun hwait
  obtain ⟨lender, hstarted⟩ := State.replayStarted_seq (head := leAt args 8 8) hn hlent hrun hwait
  obtain ⟨haddr, hhost⟩ := State.replayStarted_head (head := leAt args 8 8) hn hlent hrun hwait
    ((leAt_lt args 8 8).trans_eq (by norm_num))
  have hkeeps := State.replayStarted_keeps (head := leAt args 8 8) hn hlent hrun hwait (fun v => (v.mbx, v.svc)) (fun _ _ _ => rfl)
    (fun _ _ => rfl) (fun _ _ => rfl) (fun _ _ _ => rfl) (fun _ _ => rfl)
  have hdone := State.replayStarted_get (head := leAt args 8 8) (g := MBX_COMPLETED.one) hn hlent hrun hwait rfl (by decide)
  have htrg := State.replayStarted_get (head := leAt args 8 8) (g := TRG_STATUS_STATE.of (leAt args 0 1)) hn hlent hrun hwait rfl
    (by show 0x140 + leAt args 0 1 < 0x1A0; omega)
  rw [p.armStaged_state] at htrg
  rw [p.armStaged_get_off hn rfl (.inl (by decide))] at hdone
  generalize p.replayStarted (leAt args 0 1) (leAt args 2 1) (leAt args 8 8) = v at *
  have hok := v.mbxOk_frame []
  have hseqs : (v.mbxOk []).seq (leAt args 0 1) = { (u.seq (leAt args 0 1)).forReplay (leAt args 2 1) args with
      armDue := s.nextBoundary, lender := lender } := by
    rw [(v.mbxOk_mailOnly []).keeps (State.seq · (leAt args 0 1)), hstarted, hseq, hbound]
  refine ⟨_, hexec, State.mbxOk_ended (hserves.step ((congrArg (·.1) hkeeps).trans hmbx) ?_ (hdone.trans hcount))
    (by decide) (by simp), (hok _ (okCells_beyond (trg_page _))).trans htrg, ?_, ?_, ?_, ?_, ?_,
    (hok _ (okCells_beyond (dma_page _))).trans haddr, (State.is_of_sameRegs hok (okCells_beyond (dma_page _))).trans hhost⟩
  · exact congrArg Service.fromPort ((congrArg (·.2) hkeeps).trans hsvc)
  all_goals simp only [hseqs, Seq.forReplay]

/-- Settles O49: every command is taken alike, and ends alike; what it does between leaves the mailbox's own cells, and what an arm's
checks read lies beyond the cells that its issue writes. -/
theorem deviceCommandsAct : Obligations.DeviceCommandsAct :=
  ⟨park_atRest, park_refused, wake_acts, wake_tripped, calendarSet_loads, shortArguments_refused, reports_given, twinPair_acts,
    twinHandover_acts, twinHandover_refused, replaySetup_badArguments,
    fun s tag args h hlen hargs => ⟨replaySetup_fails s tag args h hlen hargs, replaySetup_refused s tag args h hlen hargs⟩,
    replaySetup_arms⟩

end Sys2Proof.Machine
end

