-- ==== Sys2Proof/Proofs/ProbeEdges.lean ====
section
/-! PROOFS. Edges of the probe channels and of the state clocks (R113, R118, R132, R135, R136), and the obligation on them. -/

namespace Sys2Proof.Machine

/-! ### A level change at a skein (R113, R118) -/

section
variable (k : Skein) (c : Nat) (level : Bool) (t earliest : Nat) (miss : Bool)

theorem Skein.receive_base : (k.receive c level t earliest miss).base = k.base := by
  unfold Skein.receive
  split
  · rfl
  · extract_lets before timed place k1 add
    split
    · rfl
    · split
      · split
        · rfl
        · rfl
      · rfl

variable {k c level t earliest}

theorem Skein.receive_present (h : bitOf k.present c = level) : k.receive c level t earliest miss = k := if_pos h

/-- An edge that comes 148 ticks after the one before, or as the first, is timed. -/
theorem Skein.receive_timed (h : bitOf k.present c ≠ level) (hearly : earliest ≤ t)
    (hapart : sget k.arrived c 0 = 0 ∨ sget k.arrived c 0 + 147 ≤ t) :
    (k.receive c level t earliest miss).edges = insertEdge ⟨c, level, true, t, t⟩ k.edges := by
  have htimed : (decide (earliest ≤ t) && (sget k.arrived c 0 == 0 || decide (sget k.arrived c 0 - 1 + 148 ≤ t))) = true := by
    simp only [hearly, decide_true, Bool.true_and, Bool.or_eq_true, beq_iff_eq, decide_eq_true_eq]
    omega
  unfold Skein.receive
  rw [if_neg h]
  simp only [htimed, if_true, Nat.max_eq_left hearly]

/-- A sooner edge stands at the first sample that shows it; where no edge of its channel is listed, none is lost with it. -/
theorem Skein.receive_untimed (h : bitOf k.present c ≠ level) (hearly : earliest ≤ t) (hbefore : sget k.arrived c 0 ≠ 0)
    (hsoon : t < sget k.arrived c 0 + 147) (hnone : ∀ e ∈ k.edges, e.ch ≠ c) :
    (k.receive c level t earliest miss).edges = insertEdge ⟨c, level, false, ceilTo t 64, t⟩ k.edges := by
  have htimed : (decide (earliest ≤ t) && (sget k.arrived c 0 == 0 || decide (sget k.arrived c 0 - 1 + 148 ≤ t))) = false := by
    simp only [hearly, decide_true, Bool.true_and, Bool.or_eq_false_iff, beq_eq_false_iff_ne, decide_eq_false_iff_not]
    omega
  have hlast : lastOf c k.edges = none := by
    rw [lastOf, List.filter_eq_nil_iff.mpr (by simpa using hnone), List.getLast?_nil]
  unfold Skein.receive
  rw [if_neg h]
  simp only [htimed, hlast, Bool.false_eq_true, if_false, Nat.max_eq_left hearly]

end

/-! ### PROBE_EDGE (R113, R118, R132) -/

section
variable (s : State) (n c : Nat) (level : Bool) (time : Nat)

/-- A level change writes the skein that it is taken to, and draws a free value at most. -/
theorem State.edgeTo_only : s.edgeTo n c level time =
    { s with skeins := (s.edgeTo n c level time).skeins, drawn := (s.edgeTo n c level time).drawn } := by
  unfold State.edgeTo
  split
  · rfl
  · rfl

theorem State.edgeTo_others {m : Nat} (h : m ≠ n) : (s.edgeTo n c level time).skein m = s.skein m := by
  unfold State.edgeTo
  split
  · exact (State.drew_skein _ m).trans (State.skein_onSkein_ne s _ h)
  · exact State.skein_onSkein_ne s _ h

variable {s n}

/-- With the samplers running, a powered skein receives the edge at its deskewed time. -/
theorem State.edgeTo_sampled (hs : s.sampling = true) (hready : s.skeinReady n = true) (hn : n ≠ 64) {T : Nat}
    (hT : T = ((time : Int) + signed 14 (s.get (FE_DESKEW.ofElt n c))).toNat) :
    ∃ miss, (s.edgeTo n c level time).skein n = (s.skein n).receive c level T
      (max s.clk.frameAt (max (s.clk.sampleAt - 63) (sget (s.skein n).holdTo c 0))) miss := by
  refine ⟨s.free % 2 == 0, ?_⟩
  unfold State.edgeTo
  rw [if_pos (by simp [hs, hready])]
  simp only [hn, decide_false, Bool.false_and, Bool.false_eq_true, if_false, ← hT]
  exact (State.drew_skein _ n).trans (State.skein_onSkein_same s n _)

theorem State.edgeTo_stopped (h : s.sampling = false ∨ s.skeinReady n = false) :
    s.edgeTo n c level time = s.onSkein n (fun k => { k with base := setLevel k.base c level }) :=
  if_neg (by rcases h with h | h <;> simp [h])

end

section
variable (s : State) (n : Fin 64) (c : Fin 16) (level : Bool) (time : Nat)

theorem exec_probeEdge : exec (.probeEdge n c level time) s =
    .next (if s.get (FE_SOURCE.of 64) = n.val then (s.edgeTo n.val c.val level time).edgeTo 64 c.val level time
      else s.edgeTo n.val c.val level time) := by
  have hsource : (s.edgeTo n.val c.val level time).get (FE_SOURCE.of 64) = s.get (FE_SOURCE.of 64) := by
    rw [State.edgeTo_only]
    rfl
  show execProbeEdge n c level time s = _
  unfold execProbeEdge
  simp only [hsource]

theorem probeEdge_frame : ∃ t, exec (.probeEdge n c level time) s = .next t ∧
    (∀ m, m ≠ n.val → (m = 64 → s.get (FE_SOURCE.of 64) ≠ n.val) → t.skein m = s.skein m) ∧
    t = { s with skeins := t.skeins, drawn := t.drawn } := by
  refine ⟨_, exec_probeEdge s n c level time, ?_⟩
  split
  case isTrue hsource =>
    refine ⟨fun m hm htap => ?_, ?_⟩
    · rw [State.edgeTo_others _ _ _ _ _ (fun h64 => htap h64 hsource), State.edgeTo_others _ _ _ _ _ hm]
    · rw [State.edgeTo_only (s.edgeTo n.val c.val level time), State.edgeTo_only s]
  case isFalse =>
    exact ⟨fun m hm _ => State.edgeTo_others _ _ _ _ _ hm, State.edgeTo_only s _ _ _ _⟩

variable {s n c level time}

theorem probeEdge_received {T : Nat} (hs : s.sampling = true) (hready : s.skeinReady n.val = true)
    (hsource : s.get (FE_SOURCE.of 64) ≠ n.val)
    (hT : T = ((time : Int) + signed 14 (s.get (FE_DESKEW.ofElt n.val c.val))).toNat)
    (hframe : s.clk.frameAt ≤ T) (hsample : s.clk.sampleAt - 63 ≤ T) (hhold : sget (s.skein n.val).holdTo c.val 0 ≤ T) :
    ∃ t, exec (.probeEdge n c level time) s = .next t ∧ (t.skein n.val).base = (s.skein n.val).base ∧
      (bitOf (s.skein n.val).present c.val = level → t.skein n.val = s.skein n.val) ∧
      (bitOf (s.skein n.val).present c.val ≠ level →
        (sget (s.skein n.val).arrived c.val 0 = 0 ∨ sget (s.skein n.val).arrived c.val 0 + 147 ≤ T) →
        (t.skein n.val).edges = insertEdge ⟨c.val, level, true, T, T⟩ (s.skein n.val).edges) ∧
      (bitOf (s.skein n.val).present c.val ≠ level → sget (s.skein n.val).arrived c.val 0 ≠ 0 →
        T < sget (s.skein n.val).arrived c.val 0 + 147 → (∀ e ∈ (s.skein n.val).edges, e.ch ≠ c.val) →
        (t.skein n.val).edges = insertEdge ⟨c.val, level, false, ceilTo T 64, T⟩ (s.skein n.val).edges) := by
  have hearly := Nat.max_le.mpr ⟨hframe, Nat.max_le.mpr ⟨hsample, hhold⟩⟩
  obtain ⟨miss, hskein⟩ := State.edgeTo_sampled c.val level time hs hready (Nat.ne_of_lt n.isLt) hT
  refine ⟨_, (exec_probeEdge s n c level time).trans (by rw [if_neg hsource]), ?_⟩
  rw [hskein]
  exact ⟨Skein.receive_base .., fun h => Skein.receive_present miss h, fun h hapart => Skein.receive_timed miss h hearly hapart,
    fun h hbefore hsoon hnone => Skein.receive_untimed miss h hearly hbefore hsoon hnone⟩

theorem probeEdge_level (h : s.sampling = false ∨ s.skeinReady n.val = false) (hsource : s.get (FE_SOURCE.of 64) ≠ n.val) :
    ∃ t, exec (.probeEdge n c level time) s = .next t ∧
      t.skein n.val = { s.skein n.val with base := setLevel (s.skein n.val).base c.val level } ∧
      (∀ m, m ≠ n.val → t.skein m = s.skein m) ∧ t = { s with skeins := t.skeins } :=
  ⟨_, (exec_probeEdge s n c level time).trans (by rw [if_neg hsource, State.edgeTo_stopped _ _ _ h]),
    State.skein_onSkein_same s _ _, fun _ hm => State.skein_onSkein_ne s _ hm, rfl⟩

end

/-! ### Operations on the skeins alone -/

/-- `t` is `s` but for its skeins. -/
def State.OnlySkeins (s t : State) : Prop := ∃ skeins, t = { s with skeins := skeins }

namespace State.OnlySkeins

theorem refl (s : State) : OnlySkeins s s := ⟨s.skeins, rfl⟩

theorem trans {s t u : State} (h : OnlySkeins s t) (k : OnlySkeins t u) : OnlySkeins s u := by
  obtain ⟨_, rfl⟩ := h
  obtain ⟨_, rfl⟩ := k
  exact ⟨_, rfl⟩

/-- Another part of the state stands. -/
theorem keeps {s t : State} {α : Type} (h : OnlySkeins s t) (φ : State → α)
    (hφ : ∀ skeins, φ { s with skeins := skeins } = φ s := by exact fun _ => rfl) : φ t = φ s := by
  obtain ⟨skeins, rfl⟩ := h
  exact hφ skeins

theorem onSkein {s t : State} (h : OnlySkeins s t) (n : Nat) (f : Skein → Skein) : OnlySkeins s (t.onSkein n f) :=
  h.trans ⟨_, rfl⟩

end State.OnlySkeins

/-- `t` is `s` but for skein `n`. -/
def State.OnlySkein (n : Nat) (s t : State) : Prop := s.OnlySkeins t ∧ ∀ m, m ≠ n → t.skein m = s.skein m

theorem State.OnlySkein.refl (n : Nat) (s : State) : OnlySkein n s s := ⟨.refl s, fun _ _ => rfl⟩

theorem State.OnlySkein.onSkein {n : Nat} {s t : State} (h : OnlySkein n s t) (f : Skein → Skein) :
    OnlySkein n s (t.onSkein n f) :=
  ⟨h.1.onSkein n f, fun m hm => (State.skein_onSkein_ne t f hm).trans (h.2 m hm)⟩

/-- A loop whose step for `n` writes skein `n` alone: each step meets its own skein as it was before the loop. -/
theorem forEach_onlySkeins {l : List Nat} (hl : l.Nodup) {f : Nat → State → State} {s : State}
    (hf : ∀ n ∈ l, ∀ u, s.OnlySkeins u → u.skein n = s.skein n → u.OnlySkein n (f n u)) :
    s.OnlySkeins (forEach l s f) ∧ (∀ n, n ∉ l → (forEach l s f).skein n = s.skein n) ∧
      ∀ n ∈ l, ∃ u, s.OnlySkeins u ∧ u.skein n = s.skein n ∧ (forEach l s f).skein n = (f n u).skein n := by
  induction l generalizing s with
  | nil => exact ⟨.refl s, fun _ _ => rfl, fun _ h => by cases h⟩
  | cons a l ih =>
    obtain ⟨hal, hl⟩ := List.nodup_cons.mp hl
    obtain ⟨hfirst, hothers⟩ := hf a (List.mem_cons_self ..) s (.refl s) rfl
    have hne : ∀ n ∈ l, n ≠ a := fun n hn e => hal (e ▸ hn)
    obtain ⟨hrest, hout, heach⟩ := ih hl (s := f a s) (fun n hn u hu hskein =>
      hf n (List.mem_cons_of_mem _ hn) u (hfirst.trans hu) (hskein.trans (hothers n (hne n hn))))
    refine ⟨hfirst.trans hrest, fun n hn => ?_, fun n hn => ?_⟩
    · exact (hout n (fun h => hn (List.mem_cons_of_mem _ h))).trans (hothers n (fun e => hn (e ▸ List.mem_cons_self ..)))
    · rcases List.mem_cons.mp hn with rfl | hn
      · exact ⟨s, .refl s, rfl, hout n hal⟩
      · obtain ⟨u, hu, hskein, hstep⟩ := heach n hn
        exact ⟨u, hfirst.trans hu, hskein.trans (hothers n (hne n hn)), hstep⟩

/-! ### A state clock's edge at a reducer (R136, R154) -/

/-- The sampling instant of stream `d` for a clock edge at `t`. -/
def State.sampleInstant (s : State) (d t : Nat) : Nat := ((t : Int) + signed 14 (s.get (FE_STATE_DELAY.of d))).toNat

/-- The state sample that skein `n` gives for a clock edge at `t`. -/
def State.sampleFor (s : State) (n t : Nat) (fv : Bool) : StateSample :=
  ⟨levelsAt (s.skein n).base (s.skein n).edges (s.sampleInstant (s.streamOf n) t), t, s.sampleInstant (s.streamOf n) t, fv⟩

/-- Evaluation receives the state sample of skein `n`. -/
def State.sampleShown (s : State) (n t : Nat) (fv : Bool) : State :=
  s.onSkein n (fun k => { k with
    lastState := k.lastState.filter (fun x => decide (s.clk.sampleAt < x.inst + 64)) ++ [s.sampleFor n t fv] })

/-- Reducer `n` takes a sample at `t` into its state frame. -/
def State.samplesAt (s : State) (n t : Nat) : Bool :=
  (s.skein n).reducing && !s.replaced n && decide ((s.skein n).spanAt ≤ t)

theorem State.sampleShown_skein (s : State) (n t : Nat) (fv : Bool) : (s.sampleShown n t fv).skein n = { s.skein n with
    lastState := (s.skein n).lastState.filter (fun x => decide (s.clk.sampleAt < x.inst + 64)) ++ [s.sampleFor n t fv] } :=
  State.skein_onSkein_same s n _

theorem State.sampleShown_samplesAt (s : State) (n t : Nat) (fv : Bool) :
    (s.sampleShown n t fv).samplesAt n t = s.samplesAt n t := by
  rw [State.samplesAt, State.sampleShown_skein]
  rfl

theorem State.stateCommit_idle {s : State} (h : ∀ d < 64, s.is (SKN_COMMIT.of d) = false) (n t : Nat) : s.stateCommit n t = s := by
  unfold State.stateCommit
  refine if_neg (fun hc => ?_)
  simp only [Bool.and_eq_true, decide_eq_true_eq] at hc
  obtain ⟨⟨⟨-, hd⟩, hcommit⟩, -⟩ := hc
  simp [h _ hd] at hcommit

section
variable {s : State} {n t : Nat} {fv : Bool}

theorem State.stateEdge_apart (h : s.samplesAt n t = false) : s.stateEdge n t fv = s.sampleShown n t fv := by
  have hnot : ¬ (s.sampleShown n t fv).samplesAt n t = true := by simp [State.sampleShown_samplesAt, h]
  exact if_neg hnot

/-- A state frame that is not full, with no commit at hand, takes the sample. -/
theorem State.stateEdge_taken (h : s.samplesAt n t = true) (hroom : (s.skein n).samples.length < 4096)
    (hdue : (s.skein n).edgeDue = false) (hcommit : ∀ d < 64, s.is (SKN_COMMIT.of d) = false) :
    s.stateEdge n t fv = (s.sampleShown n t fv).takeSample n t (s.sampleInstant (s.streamOf n) t) fv := by
  have hshown := s.sampleShown_skein n t fv
  have hcommits : ∀ u, (s.sampleShown n t fv).stateCommit n u = s.sampleShown n t fv :=
    fun u => State.stateCommit_idle (s := s.sampleShown n t fv) hcommit n u
  unfold State.stateEdge
  extract_lets d inst levels s0 s1 fresh s2 s3
  have h0 : s0 = s.sampleShown n t fv := rfl
  have h1 : s1 = s.sampleShown n t fv := by
    refine (if_neg ?_).trans h0
    rw [h0, hshown]
    exact Nat.not_le.mpr hroom
  have h2 : s2 = s.sampleShown n t fv := by
    unfold s2
    rw [h1, hcommits, ite_self]
  have h3 : s3 = s.sampleShown n t fv := by
    refine (if_neg ?_).trans h2
    rw [h2, hshown]
    simp [hdue]
  rw [h3, h0]
  exact if_pos ((s.sampleShown_samplesAt n t fv).trans h)

theorem State.sampleShown_onlySkein : s.OnlySkein n (s.sampleShown n t fv) := (State.OnlySkein.refl n s).onSkein _

theorem State.stateEdge_onlySkein (h : s.samplesAt n t = true → (s.skein n).samples.length < 4096 ∧ (s.skein n).edgeDue = false ∧
    ∀ d < 64, s.is (SKN_COMMIT.of d) = false) : s.OnlySkein n (s.stateEdge n t fv) := by
  cases hat : s.samplesAt n t with
  | false =>
    rw [State.stateEdge_apart hat]
    exact State.sampleShown_onlySkein
  | true =>
    obtain ⟨hroom, hdue, hcommit⟩ := h hat
    rw [State.stateEdge_taken hat hroom hdue hcommit, State.takeSample]
    exact State.sampleShown_onlySkein.onSkein _

/-- The sample taken joins those of the state frame. -/
theorem State.stateEdge_samples (h : s.samplesAt n t = true) (hroom : (s.skein n).samples.length < 4096)
    (hdue : (s.skein n).edgeDue = false) (hcommit : ∀ d < 64, s.is (SKN_COMMIT.of d) = false) :
    ((s.stateEdge n t fv).skein n).samples = (s.skein n).samples ++ [s.sampleFor n t fv] := by
  rw [State.stateEdge_taken h hroom hdue hcommit]
  unfold State.takeSample
  rw [State.skein_onSkein_same, State.sampleShown_skein]
  rfl

end

/-! ### STATE_CLOCK_EDGE (R135, R136) -/

theorem SckMeter.take_last (k : SckMeter) (t : Nat) (rising : Bool) : (k.take t rising).last = t + 1 := by
  unfold SckMeter.take
  extract_lets w
  split
  · rfl
  · rfl

/-- The measurement of state clock `m` takes an edge at `t`. -/
def State.sckNoted (s : State) (m t : Nat) (rising : Bool) : State :=
  s.onClk (fun c => { c with sck := sput c.sck m SckMeter.idle ((sget s.clk.sck m SckMeter.idle).take t rising) })

/-- Reducer `n` works on the edges of state clock `m` of the given kind. -/
def State.sckServes (s : State) (m : Nat) (rising : Bool) (n : Nat) : Bool :=
  s.streamOf n < 64 && (s.gear (s.streamOf n)).stateMode && s.get (FE_STATE_SCK_SEL.of (s.streamOf n)) == m
    && s.edgeSelected (s.streamOf n) rising && s.skeinReady n

/-- An edge of state clock `m` at `t`, timed, at reducer `n`. -/
def State.sckReach (m t : Nat) (rising : Bool) (n : Nat) (s : State) : State :=
  if s.sckServes m rising n then s.stateEdge n t true else s

theorem State.sckServes_skein {s : State} {m : Nat} {rising : Bool} {n : Nat} (hn : n < 64) (hmode : (s.gear n).stateMode = true)
    (hsel : s.get (FE_STATE_SCK_SEL.of n) = m) (hedge : s.edgeSelected n rising = true) (hready : s.skeinReady n = true) :
    s.sckServes m rising n = true := by
  simp [State.sckServes, streamOf_skein s hn, hn, hmode, hsel, hedge, hready]

section
variable {s : State} {m : Fin 32} {rising : Bool} {time T : Nat} (hs : s.sampling = true)
  (hT : T = ((time : Int) + signed 14 (s.get (FEG_SCK_DESKEW.elt m.val))).toNat)
  (hlast : (sget s.clk.sck m.val SckMeter.idle).last = 0)

include hs hT hlast in
/-- The first edge of a clock is timed. -/
theorem exec_stateClockEdge_first : exec (.stateClockEdge m rising time) s =
    .next (forEach (upto 65) (s.sckNoted m.val T rising) (State.sckReach m.val T rising)) := by
  show execStateClockEdge m rising time s = _
  unfold execStateClockEdge
  rw [if_pos hs]
  simp only [← hT, hlast, beq_self_eq_true, Bool.true_or, if_true]
  rfl

include hs hT hlast in
/-- The clock is measured; each reducer that works on the edge meets its own skein as it was. -/
theorem stateClockEdge_reaches (hstep : ∀ n < 65, ∀ u, (s.sckNoted m.val T rising).OnlySkeins u → u.skein n = s.skein n →
      u.OnlySkein n (State.sckReach m.val T rising n u)) :
    ∃ t, exec (.stateClockEdge m rising time) s = .next t ∧ (sget t.clk.sck m.val SckMeter.idle).last = T + 1 ∧
      (∀ n < 64, (s.gear n).stateMode = true → s.get (FE_STATE_SCK_SEL.of n) = m.val → s.edgeSelected n rising = true →
        s.skeinReady n = true → ∃ u, (s.sckNoted m.val T rising).OnlySkeins u ∧ u.skein n = s.skein n ∧
          t.skein n = (u.stateEdge n T true).skein n) ∧
      t = { s with skeins := t.skeins, clk := { s.clk with sck := t.clk.sck } } := by
  obtain ⟨honly, -, heach⟩ := forEach_onlySkeins (l := upto 65) (s := s.sckNoted m.val T rising) List.nodup_range
    (fun n hn u hu hskein => hstep n (List.mem_range.mp hn) u hu hskein)
  refine ⟨_, exec_stateClockEdge_first hs hT hlast, ?_, fun n hn hmode hsel hedge hready => ?_, ?_⟩
  · obtain ⟨skeins, heq⟩ := honly
    rw [heq]
    show (sget (sput s.clk.sck m.val SckMeter.idle _) m.val SckMeter.idle).last = T + 1
    rw [sget_sput_same, SckMeter.take_last]
  · obtain ⟨u, hu, hskein, hstepped⟩ := heach n (List.mem_range.mpr (by omega))
    have hserves : u.sckServes m.val rising n = true :=
      (hu.keeps (·.sckServes m.val rising n)).trans (State.sckServes_skein (s := s) hn hmode hsel hedge hready)
    refine ⟨u, hu, hskein, hstepped.trans ?_⟩
    rw [State.sckReach, if_pos hserves]
  · obtain ⟨skeins, heq⟩ := honly
    rw [heq]
    rfl

include hs hT hlast in
theorem stateClockEdge_samples
    (hidle : ∀ n < 65, (s.skein n).samples.length < 4096 ∧ (s.skein n).edgeDue = false ∧ s.is (SKN_COMMIT.of n) = false) :
    ∃ t, exec (.stateClockEdge m rising time) s = .next t ∧ (sget t.clk.sck m.val SckMeter.idle).last = T + 1 ∧
      (∀ n < 64, (s.gear n).stateMode = true → s.get (FE_STATE_SCK_SEL.of n) = m.val → s.edgeSelected n rising = true →
        s.skeinReady n = true → (s.skein n).reducing = true → s.replaced n = false → (s.skein n).spanAt ≤ T →
        (t.skein n).samples = (s.skein n).samples ++
          [⟨levelsAt (s.skein n).base (s.skein n).edges ((T : Int) + signed 14 (s.get (FE_STATE_DELAY.of n))).toNat, T,
            ((T : Int) + signed 14 (s.get (FE_STATE_DELAY.of n))).toNat, true⟩]) := by
  have hcommit : ∀ u, (s.sckNoted m.val T rising).OnlySkeins u → ∀ d < 64, u.is (SKN_COMMIT.of d) = false :=
    fun u hu d hd => (hu.keeps (·.is (SKN_COMMIT.of d))).trans (hidle d (by omega)).2.2
  obtain ⟨t, hexec, hmeter, hreached, -⟩ := stateClockEdge_reaches (rising := rising) hs hT hlast (fun n hn u hu hskein => by
    obtain ⟨hroom, hdue, -⟩ := hidle n hn
    unfold State.sckReach
    split
    · exact State.stateEdge_onlySkein (fun _ => ⟨hskein ▸ hroom, hskein ▸ hdue, hcommit u hu⟩)
    · exact .refl n u)
  refine ⟨t, hexec, hmeter, fun n hn hmode hsel hedge hready hreducing hown hspan => ?_⟩
  obtain ⟨hroom, hdue, -⟩ := hidle n (by omega)
  obtain ⟨u, hu, hskein, hstepped⟩ := hreached n hn hmode hsel hedge hready
  have hinstant : u.sampleInstant n T = s.sampleInstant n T := hu.keeps (·.sampleInstant n T)
  have hat : u.samplesAt n T = true := by
    simp [State.samplesAt, hskein, hreducing, hspan, (hu.keeps (·.replaced n)).trans hown]
  rw [hstepped, State.stateEdge_samples hat (hskein ▸ hroom) (hskein ▸ hdue) (hcommit u hu), State.sampleFor, hskein,
    streamOf_skein _ hn, hinstant, State.sampleInstant]

include hs hT hlast in
theorem stateClockEdge_unreduced (hnone : ∀ n < 65, (s.skein n).reducing = false) :
    ∃ t, exec (.stateClockEdge m rising time) s = .next t ∧ (sget t.clk.sck m.val SckMeter.idle).last = T + 1 ∧
      (∀ n < 64, (s.gear n).stateMode = true → s.get (FE_STATE_SCK_SEL.of n) = m.val → s.edgeSelected n rising = true →
        s.skeinReady n = true →
        (⟨levelsAt (s.skein n).base (s.skein n).edges ((T : Int) + signed 14 (s.get (FE_STATE_DELAY.of n))).toNat, T,
          ((T : Int) + signed 14 (s.get (FE_STATE_DELAY.of n))).toNat, true⟩ : StateSample) ∈ (t.skein n).lastState) ∧
      t = { s with skeins := t.skeins, clk := { s.clk with sck := t.clk.sck } } := by
  have hapart : ∀ n < 65, ∀ u : State, u.skein n = s.skein n → u.samplesAt n T = false := fun n hn u hskein => by
    simp [State.samplesAt, hskein, hnone n hn]
  obtain ⟨t, hexec, hmeter, hreached, honly⟩ := stateClockEdge_reaches (rising := rising) hs hT hlast (fun n hn u _ hskein => by
    unfold State.sckReach
    split
    · exact State.stateEdge_onlySkein (fun hat => by simp [hapart n hn u hskein] at hat)
    · exact .refl n u)
  refine ⟨t, hexec, hmeter, fun n hn hmode hsel hedge hready => ?_, honly⟩
  obtain ⟨u, hu, hskein, hstepped⟩ := hreached n hn hmode hsel hedge hready
  have hinstant : u.sampleInstant n T = s.sampleInstant n T := hu.keeps (·.sampleInstant n T)
  rw [hstepped, State.stateEdge_apart (hapart n (by omega) u hskein), State.sampleShown_skein, State.sampleFor, hskein,
    streamOf_skein _ hn, hinstant]
  exact List.mem_append_right _ (List.mem_singleton.mpr rfl)

end

/-- Settles O18: an edge is received by the one skein that it is taken to, and a state clock's edge reaches each reducer on its
own skein, as it was before the edge. -/
theorem edgesAndStateSamplesReachReducers : Obligations.EdgesAndStateSamplesReachReducers :=
  ⟨probeEdge_frame, fun _ _ _ _ _ _ hs hready hsource hT hframe hsample hhold =>
      probeEdge_received hs hready hsource hT hframe hsample hhold,
    fun _ _ _ _ _ h hsource => probeEdge_level h hsource,
    fun _ _ _ _ _ hs hidle hT hlast => stateClockEdge_samples hs hT hlast hidle,
    fun _ _ _ _ hs => if_neg (by simp [hs]),
    fun _ _ _ _ _ hs hnone hT hlast => stateClockEdge_unreduced hs hT hlast hnone⟩

end Sys2Proof.Machine
end

