-- ==== Sys2Proof/Proofs/FieldBits.lean ====
section
/-! PROOFS. One bit of a number or of a register field put: what each bit reads after it. -/

namespace Sys2Proof.Machine

theorem bitOf_eq_testBit (n b : Nat) : bitOf n b = n.testBit b := by
  rw [Nat.testBit_eq_decide_div_mod_eq]
  rfl

/-- A number with bit `b` put to `v`: what stands above the bit, the bit, what stands below it. -/
theorem setField_bit (n b : Nat) (v : Bool) :
    setField n b 1 (flag v) = 2 ^ b * (2 * (n / 2 ^ (b + 1)) + flag v) + n % 2 ^ b := by
  have hflag : flag v % 2 = flag v := by cases v <;> rfl
  have hhigh : n / 2 ^ b = 2 * (n / 2 ^ (b + 1)) + n / 2 ^ b % 2 := by
    rw [Nat.pow_succ, ← Nat.div_div_eq_div_mul]
    omega
  have hsplit : n = 2 ^ b * (2 * (n / 2 ^ (b + 1))) + n / 2 ^ b % 2 * 2 ^ b + n % 2 ^ b := calc
    n = 2 ^ b * (n / 2 ^ b) + n % 2 ^ b := (Nat.div_add_mod n _).symm
    _ = 2 ^ b * (2 * (n / 2 ^ (b + 1)) + n / 2 ^ b % 2) + n % 2 ^ b := by rw [← hhigh]
    _ = _ := by rw [Nat.mul_add, Nat.mul_comm (n / 2 ^ b % 2)]
  unfold setField field trunc
  rw [Nat.pow_one, hflag, Nat.mul_add, Nat.mul_comm (flag v)]
  omega

/-- A bit of a number with bit `b` put to `v`. -/
theorem bitOf_setField (n b : Nat) (v : Bool) (d : Nat) : bitOf (setField n b 1 (flag v)) d = if d = b then v else bitOf n d := by
  rw [bitOf_eq_testBit, bitOf_eq_testBit, setField_bit, Nat.testBit_two_pow_mul_add _ (Nat.mod_lt _ (Nat.two_pow_pos b))]
  rcases Nat.lt_trichotomy d b with hlt | rfl | hgt
  · rw [if_pos hlt, if_neg (Nat.ne_of_lt hlt), Nat.testBit_mod_two_pow, decide_eq_true hlt, Bool.true_and]
  · rw [if_neg (Nat.lt_irrefl d), if_pos rfl, Nat.sub_self, Nat.testBit_zero]
    cases v <;> simp [flag]
  · obtain ⟨j, rfl⟩ : ∃ j, d = b + 1 + j := ⟨d - (b + 1), by omega⟩
    have hhalf : (2 * (n / 2 ^ (b + 1)) + flag v) / 2 = n / 2 ^ (b + 1) := by
      have hflag : flag v < 2 := by cases v <;> decide
      omega
    rw [if_neg (by omega), if_neg (by omega), show b + 1 + j - b = j + 1 by omega, Nat.testBit_add_one, hhalf,
      Nat.testBit_div_two_pow, Nat.add_comm]

/-- A bit within a field's width, once bit `b` of the field is put. -/
theorem State.bitOf_setBit (s : State) {f : Fld} (b : Nat) (v : Bool) {d : Nat} (hd : d < f.width) :
    bitOf ((s.setBit f b v).get f) d = if d = b then v else bitOf (s.get f) d := by
  rw [State.setBit, State.get_set_same, ← bitOf_setField, bitOf_eq_testBit, bitOf_eq_testBit, Nat.testBit_mod_two_pow,
    decide_eq_true hd, Bool.true_and]

theorem ne_zero_of_bitOf {n b : Nat} (h : bitOf n b = true) : n ≠ 0 := by
  rintro rfl
  simp [bitOf] at h

end Sys2Proof.Machine
end

