-- ==== Sys2Proof/Proofs/OverRange.lean ====
section
/-! PROOFS. Inputs over range and back (R126, R132, R137, R138), and the obligation on them. -/

namespace Sys2Proof.Machine

/-! ### A cause of a front end (R138, R182) -/

/-- The cells that a cause of front end `n` writes. -/
def causeCells (n : Nat) : List Nat :=
  [FE_CAUSE_STUCK, FE_CAUSE_OPEN, FE_CAUSE_OVR, FE_CAUSE_CAL_FAIL, FE_CAUSE_SCK_OVR, SKN_CAUSE_FE].map (fun f => (f.of n).key) ++
    latches [65 + 2 * n]

/-- The front end's bit among a skein's causes is always enabled. -/
theorem State.skeinCause_fe (s : State) (n : Nat) : s.skeinCause n 0 = (s.set (SKN_CAUSE_FE.of n) 1).raise (65 + 2 * n) := by
  unfold State.skeinCause
  exact if_pos rfl

theorem State.feCause_sameRegs (s : State) (n i : Nat) : s.sameRegs (causeCells n) (s.feCause n i) := by
  unfold State.feCause
  extract_lets f s1
  have hf : f.key ∈ causeCells n := by
    unfold f
    split
    all_goals simp [causeCells]
  have h1 : s.sameRegs (causeCells n) s1 := State.sameRegs_set _ (s.sameRegs_refl _) hf
  split
  · rw [State.skeinCause_fe]
    exact State.sameRegs_raise _ (State.sameRegs_set _ h1 (by simp [causeCells])) (List.subset_append_right _ _)
  · exact h1

theorem State.sameButRegs_feCause {s t : State} (n i : Nat) (h : s.sameButRegs t) : s.sameButRegs (t.feCause n i) := by
  unfold State.feCause
  extract_lets f s1
  have h1 : s.sameButRegs s1 := State.sameButRegs_set _ _ h
  split
  · rw [State.skeinCause_fe]
    exact State.sameButRegs_raise _ (State.sameButRegs_set _ _ h1)
  · exact h1

/-- Over-range shows among the causes. -/
theorem State.feCause_over (s : State) {n : Nat} (hn : n < 65) : (s.feCause n 2).is (FE_CAUSE_OVR.of n) = true := by
  have hlatch : ∀ n < 65, (FE_CAUSE_OVR.of n).key ∉ latches [65 + 2 * n] := by decide +kernel
  have hset : (s.set (FE_CAUSE_OVR.of n) 1).is (FE_CAUSE_OVR.of n) = true := State.is_set_same s _ 1
  have hpage : (SKN_CAUSE_FE.of n).apart (FE_CAUSE_OVR.of n) = true := rfl
  unfold State.feCause
  extract_lets f s1
  split
  · rw [State.skeinCause_fe, State.is_raise_ne _ _ (hlatch n hn), State.is_set_ne _ _ (Fld.key_ne_of_apart hpage).symm]
    exact hset
  · exact hset

/-! ### A channel over range (R126, R137) -/

/-- The cells that an over-range channel of front end `n` writes. -/
def overCells (n : Nat) : List Nat :=
  [FE_OVR_NOW.of n, FE_OVR_COUNT.of n, LIFE_OVR_COUNT.win n, FE_OVR_SEEN.of n].map Fld.key ++ causeCells n

/-- The cells of FE_STATUS.OVR_ANY. -/
def anyCells : List Nat := FEG_STATUS_OVR_ANY.one.key :: (upto 65).map (fun n => (FE_STATUS_OVR_ANY.of n).key)

/-- A front end's over-range cells differ from one another. -/
theorem overCells_distinct : ∀ n < 65, (FE_OVR_NOW.of n).key ≠ (FE_OVR_COUNT.of n).key ∧
    (FE_OVR_NOW.of n).key ≠ (LIFE_OVR_COUNT.win n).key ∧ (FE_OVR_NOW.of n).key ≠ (FE_OVR_SEEN.of n).key ∧
    (FE_OVR_COUNT.of n).key ≠ (LIFE_OVR_COUNT.win n).key ∧ (FE_OVR_COUNT.of n).key ≠ (FE_OVR_SEEN.of n).key ∧
    (LIFE_OVR_COUNT.win n).key ≠ (FE_OVR_SEEN.of n).key := by decide +kernel

/-- A front end's over-range cells are not those of its causes. -/
theorem overCells_causes : ∀ n < 65, ∀ f ∈ [FE_OVR_NOW.of n, FE_OVR_COUNT.of n, LIFE_OVR_COUNT.win n, FE_OVR_SEEN.of n],
    f.key ∉ causeCells n := by decide +kernel

/-- What over-range shows of skein `n` is no cell of the spare's, nor a summary. -/
theorem overCells_own : ∀ n < 64,
    ∀ f ∈ [FE_OVR_NOW.of n, FE_OVR_COUNT.of n, LIFE_OVR_COUNT.win n, FE_OVR_SEEN.of n, FE_CAUSE_OVR.of n],
      f.key ∉ overCells 64 ++ anyCells := by decide +kernel

/-- The event of an over-range channel counts: it is the first, or the channel has been in range for 1 µs (R126). -/
def State.overCounts (s : State) (n c : Nat) : Prop :=
  sget (s.skein n).overLow c 0 = 0 ∨ sget (s.skein n).overLow c 0 - 1 + ticksUs ≤ s.now

section
variable {s : State} {n c : Nat}

theorem State.channelOver_counting (h : s.overCounts n c) : s.channelOver n c =
    ((((s.setBit (FE_OVR_NOW.of n) c true).add (FE_OVR_COUNT.of n) 1).add (LIFE_OVR_COUNT.win n) 1).setBit
      (FE_OVR_SEEN.of n) c true).feCause n 2 := if_pos h

theorem State.channelOver_again (h : ¬ s.overCounts n c) : s.channelOver n c = s.setBit (FE_OVR_NOW.of n) c true := if_neg h

theorem State.channelOver_sameRegs (s : State) (n c : Nat) : s.sameRegs (overCells n) (s.channelOver n c) := by
  have hnow : s.sameRegs (overCells n) (s.setBit (FE_OVR_NOW.of n) c true) :=
    State.sameRegs_set _ (s.sameRegs_refl _) (by simp [overCells])
  by_cases h : s.overCounts n c
  · rw [State.channelOver_counting h]
    refine State.sameRegs_step ?_ (State.feCause_sameRegs _ n 2) (List.subset_append_right _ _)
    exact State.sameRegs_set _ (State.sameRegs_set _ (State.sameRegs_set _ hnow (by simp [overCells])) (by simp [overCells]))
      (by simp [overCells])
  · rw [State.channelOver_again h]
    exact hnow

theorem State.sameButRegs_channelOver {t : State} (n c : Nat) (h : s.sameButRegs t) : s.sameButRegs (t.channelOver n c) := by
  have hnow : s.sameButRegs (t.setBit (FE_OVR_NOW.of n) c true) := State.sameButRegs_set _ _ h
  by_cases hcounts : t.overCounts n c
  · rw [State.channelOver_counting hcounts]
    exact State.sameButRegs_feCause n 2 (State.sameButRegs_set _ _ (State.sameButRegs_set _ _ (State.sameButRegs_set _ _ hnow)))
  · rw [State.channelOver_again hcounts]
    exact hnow

/-- What channel `c` of front end `n` shows once it is over range and its event counts. -/
structure State.CountsOver (s : State) (n c : Nat) (t : State) : Prop where
  count : t.get (FE_OVR_COUNT.of n) = (s.get (FE_OVR_COUNT.of n) + 1) % 2 ^ 32
  life : t.get (LIFE_OVR_COUNT.win n) = (s.get (LIFE_OVR_COUNT.win n) + 1) % 2 ^ 32
  seen : bitOf (t.get (FE_OVR_SEEN.of n)) c = true
  cause : t.is (FE_CAUSE_OVR.of n) = true

theorem State.channelOver_counts (h : s.overCounts n c) (hn : n < 65) (hc : c < 16) : s.CountsOver n c (s.channelOver n c) := by
  obtain ⟨hnc, hnl, hns, hcl, hcs, hls⟩ := overCells_distinct n hn
  have hcause := overCells_causes n hn
  rw [State.channelOver_counting h]
  refine ⟨?_, ?_, ?_, State.feCause_over _ hn⟩
  · rw [State.feCause_sameRegs _ n 2 _ (hcause _ (by simp)), State.get_setBit_ne _ _ _ hcs, State.add,
      State.get_set_ne _ _ hcl, State.add, State.get_set_same, State.get_setBit_ne _ _ _ (Ne.symm hnc)]
    rfl
  · rw [State.feCause_sameRegs _ n 2 _ (hcause _ (by simp)), State.get_setBit_ne _ _ _ hls, State.add,
      State.get_set_same, State.add, State.get_set_ne _ _ (Ne.symm hcl), State.get_setBit_ne _ _ _ (Ne.symm hnl)]
    rfl
  · rw [State.feCause_sameRegs _ n 2 _ (hcause _ (by simp)), State.bitOf_setBit _ _ _ hc, if_pos rfl]

/-- A channel over range shows so. -/
theorem State.channelOver_now (s : State) (hn : n < 65) (hc : c < 16) :
    bitOf ((s.channelOver n c).get (FE_OVR_NOW.of n)) c = true := by
  obtain ⟨hnc, hnl, hns, -⟩ := overCells_distinct n hn
  have hbit : bitOf ((s.setBit (FE_OVR_NOW.of n) c true).get (FE_OVR_NOW.of n)) c = true := by
    rw [State.bitOf_setBit _ _ _ hc, if_pos rfl]
  by_cases h : s.overCounts n c
  · rw [State.channelOver_counting h, State.feCause_sameRegs _ n 2 _ (overCells_causes n hn _ (by simp)),
      State.get_setBit_ne _ _ _ hns, State.add, State.get_set_ne _ _ hnl, State.add, State.get_set_ne _ _ hnc]
    exact hbit
  · rw [State.channelOver_again h]
    exact hbit

end

/-! ### The summary bits (R137, R138) -/

theorem State.ovrMarks_onlyRegs (s : State) : s.OnlyRegs s.ovrMarks := by
  unfold State.ovrMarks
  exact (State.OnlyRegs.forEach (.refl s) (fun _ _ h => h.set _ _)).set _ _

theorem State.sameButRegs_trans {s t u : State} (h : s.sameButRegs t) (k : t.sameButRegs u) : s.sameButRegs u := by
  obtain ⟨ht, hmsg⟩ := h
  obtain ⟨hu, hmsg'⟩ := k
  refine ⟨by rw [hu, ht], ?_⟩
  unfold Link.sameButMessages at *
  rw [hmsg', hmsg]

theorem State.sameButRegs_ovrMarks {s t : State} (h : s.sameButRegs t) : s.sameButRegs t.ovrMarks :=
  State.sameButRegs_trans h t.ovrMarks_onlyRegs.sameButRegs

theorem State.ovrMarks_sameRegs (s : State) : s.sameRegs anyCells s.ovrMarks := by
  unfold State.ovrMarks
  refine State.sameRegs_set _ (State.sameRegs_forEach (s.sameRegs_refl _) fun n hn u hu => ?_) List.mem_cons_self
  exact State.sameRegs_set _ hu (List.mem_cons_of_mem _ (List.mem_map_of_mem hn))

theorem anyCells_apart : FEG_SCK_OVR.one.key ∉ anyCells ∧ ∀ n < 65, (FE_OVR_NOW.of n).key ∉ anyCells := by decide +kernel

/-- The global summary reads 1 where an input of any front end, or a state clock, is over range (R137). -/
theorem State.ovrMarks_any (s : State) (h : (∃ n < 65, s.get (FE_OVR_NOW.of n) ≠ 0) ∨ s.get FEG_SCK_OVR.one ≠ 0) :
    s.ovrMarks.is FEG_STATUS_OVR_ANY.one = true := by
  unfold State.ovrMarks
  extract_lets s1
  have hs1 : s.sameRegs anyCells s1 := State.sameRegs_forEach (s.sameRegs_refl _) fun n hn u hu =>
    State.sameRegs_set _ hu (List.mem_cons_of_mem _ (List.mem_map_of_mem hn))
  obtain ⟨hclock, hchannel⟩ := anyCells_apart
  rw [State.is_set_same]
  refine (flag_beq_one _).trans (Bool.or_eq_true_iff.mpr ?_)
  rcases h with ⟨n, hn, hne⟩ | hne
  · exact .inl (List.any_eq_true.mpr ⟨n, List.mem_range.mpr hn, by simpa [hs1 _ (hchannel n hn)] using hne⟩)
  · exact .inr (by simpa [hs1 _ hclock] using hne)

/-! ### The skein of a probe and the spare that taps it (R132) -/

/-- A step of skein `n`'s receivers is the step of its own, then at most that of the spare. -/
theorem State.forEach_receivers (s : State) (n : Nat) (p : Nat → Bool) (f : Nat → State → State) :
    ∃ tail ⊆ [64], forEach ((s.receiversOf n).filter p) s f = forEach tail (if p n then f n s else s) f := by
  have hshape : ∃ tail ⊆ [64], s.receiversOf n = n :: tail := by
    unfold State.receiversOf
    split
    · exact ⟨[64], List.Subset.refl _, rfl⟩
    · exact ⟨[], List.nil_subset _, rfl⟩
  obtain ⟨tail, htail, hlist⟩ := hshape
  refine ⟨tail.filter p, fun a ha => htail (List.mem_of_mem_filter ha), ?_⟩
  rw [hlist, List.filter_cons]
  split <;> rfl

/-- The spare's step leaves the cells of a skein of its own. -/
theorem State.spareOver_sameRegs (s : State) (c : Nat) {tail : List Nat} (h : tail ⊆ [64]) :
    s.sameRegs (overCells 64) (forEach tail s (fun r s => s.channelOver r c)) := by
  refine State.sameRegs_forEach (s.sameRegs_refl _) fun r hr u hu => ?_
  rw [List.mem_singleton.mp (h hr)]
  exact State.sameRegs_trans hu (u.channelOver_sameRegs 64 c)

/-! ### OVER_RANGE (R126, R137, R138) -/

/-- The step of a channel's own skein on OVER_RANGE: a channel over range stays as it is. -/
def State.ownOver (s : State) (n c : Nat) : State :=
  if !bitOf (s.get (FE_OVR_NOW.of n)) c then s.channelOver n c else s

theorem State.ownOver_now (s : State) {n c : Nat} (hn : n < 65) (hc : c < 16) :
    bitOf ((s.ownOver n c).get (FE_OVR_NOW.of n)) c = true := by
  unfold State.ownOver
  split
  · exact s.channelOver_now hn hc
  · next h => simpa using h

theorem State.sameButRegs_ownOver (s : State) (n c : Nat) : s.sameButRegs (s.ownOver n c) := by
  unfold State.ownOver
  split
  · exact State.sameButRegs_channelOver n c s.sameButRegs_refl
  · exact s.sameButRegs_refl

/-- OVER_RANGE of a channel: its own skein's step, then at most the spare's, then the summary bits. -/
theorem exec_overRange_channel (s : State) (n : Fin 64) (c : Fin 16) : ∃ tail ⊆ [64], exec (.overRange (.channel n c)) s =
    .next (forEach tail (s.ownOver n.val c.val) (fun r s => s.channelOver r c.val)).ovrMarks := by
  obtain ⟨tail, htail, hloop⟩ :=
    s.forEach_receivers n.val (fun r => !bitOf (s.get (FE_OVR_NOW.of r)) c.val) (fun r s => s.channelOver r c.val)
  exact ⟨tail, htail, congrArg (fun t : State => Host.Outcome.next t.ovrMarks) hloop⟩

theorem overRange_channel (s : State) (n : Fin 64) (c : Fin 16) : ∃ t, exec (.overRange (.channel n c)) s = .next t ∧
    bitOf (t.get (FE_OVR_NOW.of n.val)) c.val = true ∧ t.is FEG_STATUS_OVR_ANY.one = true ∧ s.sameButRegs t ∧
    (bitOf (s.get (FE_OVR_NOW.of n.val)) c.val = true → t.get (FE_OVR_COUNT.of n.val) = s.get (FE_OVR_COUNT.of n.val)) ∧
    (bitOf (s.get (FE_OVR_NOW.of n.val)) c.val = false → s.overCounts n.val c.val → s.CountsOver n.val c.val t) := by
  obtain ⟨tail, htail, hexec⟩ := exec_overRange_channel s n c
  obtain ⟨own, hown⟩ : ∃ own, own = s.ownOver n.val c.val := ⟨_, rfl⟩
  rw [← hown] at hexec
  have hn : n.val < 65 := Nat.lt_succ_of_lt n.isLt
  have hloop := own.spareOver_sameRegs c.val htail
  have hstands : ∀ f ∈ [FE_OVR_NOW.of n.val, FE_OVR_COUNT.of n.val, LIFE_OVR_COUNT.win n.val, FE_OVR_SEEN.of n.val,
      FE_CAUSE_OVR.of n.val], (forEach tail own (fun r s => s.channelOver r c.val)).ovrMarks.get f = own.get f := fun f hf =>
    State.sameRegs_trans (State.sameRegs_mono hloop (List.subset_append_left _ _))
      (State.sameRegs_mono (State.ovrMarks_sameRegs _) (List.subset_append_right _ _)) f (overCells_own n.val n.isLt f hf)
  have hloopNow :
      (forEach tail own (fun r s => s.channelOver r c.val)).get (FE_OVR_NOW.of n.val) = own.get (FE_OVR_NOW.of n.val) :=
    hloop _ fun hmem => overCells_own n.val n.isLt _ List.mem_cons_self (List.mem_append_left _ hmem)
  have hbit : bitOf (own.get (FE_OVR_NOW.of n.val)) c.val = true := hown ▸ s.ownOver_now hn c.isLt
  have hrest : s.sameButRegs (forEach tail own (fun r s => s.channelOver r c.val)) :=
    List.foldlRecOn (motive := s.sameButRegs) tail _ (hown ▸ s.sameButRegs_ownOver n.val c.val)
      (fun u hu r _ => State.sameButRegs_channelOver r c.val hu)
  refine ⟨_, hexec, ?_, ?_, State.sameButRegs_ovrMarks hrest, fun hover => ?_, fun hin hcounts => ?_⟩
  · rw [hstands _ (by simp), hbit]
  · exact State.ovrMarks_any _ (.inl ⟨n.val, hn, by rw [hloopNow]; exact ne_zero_of_bitOf hbit⟩)
  · rw [hstands _ (by simp), hown, State.ownOver, hover]
    rfl
  · have hcounted : s.CountsOver n.val c.val own := by
      rw [hown, State.ownOver, hin]
      exact State.channelOver_counts hcounts hn c.isLt
    constructor
    · rw [hstands _ (by simp), hcounted.count]
    · rw [hstands _ (by simp), hcounted.life]
    · rw [hstands _ (by simp), hcounted.seen]
    · rw [State.is, hstands _ (by simp), ← State.is, hcounted.cause]

/-- The skeins' causes leave the register of state clocks over range. -/
theorem stateClocks_apart : ∀ n < 64, FEG_SCK_OVR.one.key ∉ causeCells n := by decide +kernel

theorem overRange_clock (s : State) (m : Fin 32) : ∃ t, exec (.overRange (.clock m)) s = .next t ∧
    bitOf (t.get FEG_SCK_OVR.one) m.val = true ∧ t.is FEG_STATUS_OVR_ANY.one = true ∧ s.sameButRegs t := by
  have hset : bitOf ((s.setBit FEG_SCK_OVR.one m.val true).get FEG_SCK_OVR.one) m.val = true := by
    rw [State.bitOf_setBit _ _ _ m.isLt, if_pos rfl]
  have hloop : bitOf ((forEach (s.sckUsers m.val) (s.setBit FEG_SCK_OVR.one m.val true) (fun n s => s.feCause n 4)).get
      FEG_SCK_OVR.one) m.val = true := by
    have husers : ∀ n ∈ s.sckUsers m.val, n < 64 := fun n hn => List.mem_range.mp (List.mem_of_mem_filter hn)
    rw [forEach_get _ fun n hn u => u.feCause_sameRegs n 4 _ (stateClocks_apart n (husers n hn)), hset]
  refine ⟨_, rfl, ?_, ?_, State.sameButRegs_ovrMarks ?_⟩
  · rw [State.ovrMarks_sameRegs _ _ anyCells_apart.1, hloop]
  · exact State.ovrMarks_any _ (.inr (ne_zero_of_bitOf hloop))
  · exact List.foldlRecOn (motive := s.sameButRegs) _ _ (State.sameButRegs_set _ _ s.sameButRegs_refl)
      (fun u hu n _ => State.sameButRegs_feCause n 4 hu)

/-! ### OVER_RANGE_CLEAR (R126) -/

/-- The state is as it was but for registers and skeins. -/
def State.OnlyFront (s t : State) : Prop := t = { s with regs := t.regs, skeins := t.skeins }

theorem State.onlyFront_refl (s : State) : s.OnlyFront s := rfl

theorem State.OnlyFront.channelBack {s t : State} (h : s.OnlyFront t) (n c : Nat) : s.OnlyFront (t.channelBack n c) := by
  rw [State.OnlyFront] at h ⊢
  rw [h]
  rfl

theorem State.OnlyFront.onlyRegs {s t u : State} (h : s.OnlyFront t) (k : t.OnlyRegs u) : s.OnlyFront u := by
  obtain ⟨regs, rfl⟩ := k
  rw [State.OnlyFront] at h ⊢
  rw [h]

theorem State.channelBack_get_ne (s : State) (n c : Nat) {f : Fld} (h : f.key ≠ (FE_OVR_NOW.of n).key) :
    (s.channelBack n c).get f = s.get f :=
  State.get_setBit_ne s c false h

theorem State.channelBack_now (s : State) (n : Nat) {c : Nat} (hc : c < 16) :
    bitOf ((s.channelBack n c).get (FE_OVR_NOW.of n)) c = false :=
  (State.bitOf_setBit s c false hc).trans (if_pos rfl)

theorem State.channelBack_overLow (s : State) (n c : Nat) :
    sget ((s.channelBack n c).skein n).overLow c 0 = s.now + 1 := by
  rw [State.channelBack, State.skein_onSkein_same]
  exact sget_sput_same (s.skein n).overLow c 0 (s.now + 1)

theorem State.channelBack_skein_ne (s : State) {n m : Nat} (c : Nat) (h : m ≠ n) : (s.channelBack n c).skein m = s.skein m :=
  State.skein_onSkein_ne _ _ h

/-- The step of a channel's own skein on OVER_RANGE_CLEAR: a channel in range stays as it is. -/
def State.ownBack (s : State) (n c : Nat) : State :=
  if bitOf (s.get (FE_OVR_NOW.of n)) c then s.channelBack n c else s

/-- OVER_RANGE_CLEAR of a channel: its own skein's step, then at most the spare's, then the summary bits. -/
theorem exec_overRangeClear_channel (s : State) (n : Fin 64) (c : Fin 16) : ∃ tail ⊆ [64],
    exec (.overRangeClear (.channel n c)) s =
      .next (forEach tail (s.ownBack n.val c.val) (fun r s => s.channelBack r c.val)).ovrMarks := by
  obtain ⟨tail, htail, hloop⟩ :=
    s.forEach_receivers n.val (fun r => bitOf (s.get (FE_OVR_NOW.of r)) c.val) (fun r s => s.channelBack r c.val)
  exact ⟨tail, htail, congrArg (fun t : State => Host.Outcome.next t.ovrMarks) hloop⟩

theorem State.ovrMarks_skein (s : State) (n : Nat) : s.ovrMarks.skein n = s.skein n := by
  obtain ⟨regs, hregs⟩ := s.ovrMarks_onlyRegs
  rw [hregs]
  rfl

theorem overNow_ne_spare : ∀ n < 64, (FE_OVR_NOW.of n).key ≠ (FE_OVR_NOW.of 64).key := by decide +kernel

theorem overRangeClear_channel (s : State) (n : Fin 64) (c : Fin 16) : ∃ t, exec (.overRangeClear (.channel n c)) s = .next t ∧
    bitOf (t.get (FE_OVR_NOW.of n.val)) c.val = false ∧ t = { s with regs := t.regs, skeins := t.skeins } ∧
    (bitOf (s.get (FE_OVR_NOW.of n.val)) c.val = true → sget (t.skein n.val).overLow c.val 0 = s.now + 1) := by
  obtain ⟨tail, htail, hexec⟩ := exec_overRangeClear_channel s n c
  obtain ⟨own, hown⟩ : ∃ own, own = s.ownBack n.val c.val := ⟨_, rfl⟩
  rw [← hown] at hexec
  have hspare : ∀ r ∈ tail, n.val ≠ r ∧ (FE_OVR_NOW.of n.val).key ≠ (FE_OVR_NOW.of r).key := fun r hr => by
    rw [List.mem_singleton.mp (htail hr)]
    exact ⟨Nat.ne_of_lt n.isLt, overNow_ne_spare n.val n.isLt⟩
  have hnow : (forEach tail own (fun r s => s.channelBack r c.val)).get (FE_OVR_NOW.of n.val) = own.get (FE_OVR_NOW.of n.val) :=
    forEach_get own fun r hr u => u.channelBack_get_ne r c.val (hspare r hr).2
  have hskein : (forEach tail own (fun r s => s.channelBack r c.val)).skein n.val = own.skein n.val :=
    List.foldlRecOn (motive := fun u : State => u.skein n.val = own.skein n.val) tail _ rfl
      (fun u hu r hr => (u.channelBack_skein_ne c.val (hspare r hr).1).trans hu)
  have hownFront : s.OnlyFront own := by
    rw [hown, State.ownBack]
    split
    · exact s.onlyFront_refl.channelBack n.val c.val
    · exact s.onlyFront_refl
  have hfront : s.OnlyFront (forEach tail own (fun r s => s.channelBack r c.val)) :=
    List.foldlRecOn (motive := s.OnlyFront) tail _ hownFront (fun u hu r _ => hu.channelBack r c.val)
  refine ⟨_, hexec, ?_, hfront.onlyRegs (State.ovrMarks_onlyRegs _), fun hover => ?_⟩
  · rw [State.ovrMarks_sameRegs _ _ (anyCells_apart.2 n.val (Nat.lt_succ_of_lt n.isLt)), hnow, hown, State.ownBack]
    split
    · exact s.channelBack_now n.val c.isLt
    · next h => simpa using h
  · rw [State.ovrMarks_skein, hskein, hown, State.ownBack, if_pos hover, State.channelBack_overLow]

theorem overRangeClear_clock (s : State) (m : Fin 32) : ∃ t, exec (.overRangeClear (.clock m)) s = .next t ∧
    bitOf (t.get FEG_SCK_OVR.one) m.val = false ∧ t = { s with regs := t.regs } := by
  refine ⟨_, rfl, ?_, ?_⟩
  · rw [State.ovrMarks_sameRegs _ _ anyCells_apart.1, State.bitOf_setBit _ _ _ m.isLt, if_pos rfl]
  · obtain ⟨regs, hregs⟩ := (s.setBit FEG_SCK_OVR.one m.val false).ovrMarks_onlyRegs
    rw [hregs]
    rfl

/-- Settles O19: the step of the channel's own skein shows what R126 asks; the spare's step and the summary bits write no cell
of that skein. -/
theorem overRangeIsMarkedAndCounted : Obligations.OverRangeIsMarkedAndCounted := by
  unfold Obligations.OverRangeIsMarkedAndCounted
  refine ⟨fun s n c => ?_, overRange_clock, overRangeClear_channel, overRangeClear_clock⟩
  obtain ⟨t, hexec, hnow, hany, hrest, hagain, hcounts⟩ := overRange_channel s n c
  refine ⟨t, hexec, hnow, hany, hrest, hagain, fun hin hfirst => ?_⟩
  obtain ⟨hcount, hlife, hseen, hcause⟩ := hcounts hin hfirst
  exact ⟨hcount, hlife, hseen, hcause⟩

end Sys2Proof.Machine
end

