-- ==== Sys2Proof/Proofs/Gates.lean ====
section
/-! PROOFS. Power gates and READY bits (R375 to R377): what a gating write and a READY bit's change show and leave. -/

namespace Sys2Proof.Machine

/-! ### Loops whose steps have a unit each -/

section
variable {l : List Nat} {b : Nat} {f : Nat → State → State} {s : State}

/-- A loop each of whose steps keeps `P`, and of which only the step of `b` changes `φ`: `φ` reads after the loop as after
that step, taken where `φ` reads as before the loop. -/
theorem forEach_at {α : Type} (hl : l.Nodup) (hb : b ∈ l) (P : State → Prop) (φ : State → α) (hs : P s)
    (hP : ∀ a ∈ l, ∀ u, P u → P (f a u)) (hφ : ∀ a ∈ l, a ≠ b → ∀ u, P u → φ (f a u) = φ u) :
    ∃ u, P u ∧ φ u = φ s ∧ φ (forEach l s f) = φ (f b u) := by
  obtain ⟨before, after, rfl⟩ := List.append_of_mem hb
  obtain ⟨-, hafter, hapart⟩ := List.nodup_append.mp hl
  have hkept : ∀ l', (∀ a ∈ l', a ∈ before ++ b :: after ∧ a ≠ b) → ∀ u, P u → P (forEach l' u f) ∧ φ (forEach l' u f) = φ u :=
    fun l' hl' u hu => List.foldlRecOn (motive := fun v => P v ∧ φ v = φ u) l' _ ⟨hu, rfl⟩ fun v hv a ha =>
      ⟨hP a (hl' a ha).1 v hv.1, (hφ a (hl' a ha).1 (hl' a ha).2 v hv.1).trans hv.2⟩
  obtain ⟨hPu, hφu⟩ := hkept before (fun a ha => ⟨by simp [ha], hapart a ha b (by simp)⟩) s hs
  refine ⟨forEach before s f, hPu, hφu, ?_⟩
  rw [show forEach (before ++ b :: after) s f = forEach after (f b (forEach before s f)) f from List.foldl_append]
  exact (hkept after (fun a ha => ⟨by simp [ha], fun e => (List.nodup_cons.mp hafter).1 (e ▸ ha)⟩) _ (hP b hb _ hPu)).2

/-- A loop each of whose steps keeps `P` and `Q`, and whose step of `b` leads from `P` to `Q`, ends in `Q`. -/
theorem forEach_reaches (hb : b ∈ l) (P Q : State → Prop) (hs : P s) (hP : ∀ a ∈ l, ∀ u, P u → P (f a u))
    (hPQ : ∀ u, P u → Q (f b u)) (hQ : ∀ a ∈ l, ∀ u, Q u → Q (f a u)) : Q (forEach l s f) := by
  obtain ⟨before, after, rfl⟩ := List.append_of_mem hb
  have hbefore : P (forEach before s f) := List.foldlRecOn (motive := P) before _ hs fun v hv a ha => hP a (by simp [ha]) v hv
  rw [show forEach (before ++ b :: after) s f = forEach after (f b (forEach before s f)) f from List.foldl_append]
  exact List.foldlRecOn (motive := Q) after _ (hPQ _ hbefore) fun v hv a ha => hQ a (by simp [ha]) v hv

end

/-! ### A refused gating (R376) -/

/-- The cells in which a gating write is refused. -/
def refuseCells : List Nat :=
  [PWR_GATE_ERR_REFUSED.one, PWR_GATE_ERR_CAUSE.one, PWR_GATE_ERR_UNIT.one].map Fld.key ++ latches [22]

section
variable {s t : State}

theorem State.gateRefused_sameRegs (s : State) (unit cause : Nat) : s.sameRegs refuseCells (s.gateRefused unit cause) :=
  State.sameRegs_raise _ (State.sameRegs_set _ (State.sameRegs_set _ (State.sameRegs_set _ (s.sameRegs_refl _)
    (by simp [refuseCells])) (by simp [refuseCells])) (by simp [refuseCells])) (List.subset_append_right _ _)

theorem State.sameButRegs_gateRefused (unit cause : Nat) (h : s.sameButRegs t) : s.sameButRegs (t.gateRefused unit cause) :=
  State.sameButRegs_raise _ (State.sameButRegs_set _ _ (State.sameButRegs_set _ _ (State.sameButRegs_set _ _ h)))

theorem State.gateRefused_shows (s : State) (unit : Nat) {cause : Nat} (hcause : cause < 16) :
    (s.gateRefused unit cause).is PWR_GATE_ERR_REFUSED.one = true ∧
      (s.gateRefused unit cause).get PWR_GATE_ERR_CAUSE.one = cause ∧ (s.gateRefused unit cause).latched 22 = true := by
  refine ⟨?_, ?_, State.raise_latched _ 22 rfl⟩
  · rw [State.gateRefused, State.is_raise_ne _ _ (by decide), State.is_set_ne _ _ (by decide), State.is_set_ne _ _ (by decide),
      State.is_set_same]
    rfl
  · rw [State.gateRefused, State.raise_get_ne _ _ (by decide), State.get_set_ne _ _ (by decide), State.get_set_same]
    exact Nat.mod_eq_of_lt hcause

end

/-! ### The gates of the skeins (R375, R376) -/

/-- The cells that one bit of a skein gating write can change, beside the gates themselves. -/
def gateCells (n : Nat) : List Nat :=
  [FEG_STATUS_CHECK_BUSY.one, FE_STATUS_CHECKING.of n, FE_IDLE_SECONDS.of n, FE_STATUS_CAL_OK.of n].map Fld.key ++ refuseCells

/-- The gate of skein `n` is put to `v`. -/
def State.putGate (s : State) (n : Nat) (v : Bool) : State :=
  if n = 64 then s.set PWR_SKN_GATE_64.one (flag v) else s.setBit PWR_SKN_GATE.one n v

theorem State.abandonCheck_sameRegs (s : State) (n : Nat) : s.sameRegs (gateCells n) (s.abandonCheck n) := by
  unfold State.abandonCheck
  refine State.sameRegs_ite ?_ (s.sameRegs_refl _)
  exact State.sameRegs_set _ (State.sameRegs_set _ (State.sameRegs_set _ (s.sameRegs_refl _) (by simp [gateCells]))
    (by simp [gateCells])) (by simp [gateCells])

/-- A skein that is powered again is not calibrated yet. -/
theorem State.uncalibrated_sameRegs (s : State) (n : Nat) : s.sameRegs (gateCells n) (s.set (FE_STATUS_CAL_OK.of n) 0) :=
  State.sameRegs_set _ (s.sameRegs_refl _) (by simp [gateCells])

theorem State.gateSkein_refused {s : State} {n : Nat} (hoff : s.skeinGate n = false) (hcause : s.skeinGateCause n ≠ 0) :
    s.gateSkein n true = s.gateRefused n (s.skeinGateCause n) := by simp [State.gateSkein, hoff, hcause]

/-- The four things that one bit of a skein gating write can do. -/
theorem State.gateSkein_cases (s : State) (n : Nat) (v : Bool) :
    (s.skeinGate n = v ∧ s.gateSkein n v = s) ∨
    (s.skeinGate n = false ∧ v = true ∧ s.skeinGateCause n = 0 ∧ s.gateSkein n v = (s.abandonCheck n).putGate n true) ∨
    (s.skeinGate n = false ∧ v = true ∧ s.skeinGateCause n ≠ 0 ∧ s.gateSkein n v = s.gateRefused n (s.skeinGateCause n)) ∨
    (v = false ∧ s.gateSkein n v = (s.putGate n false).set (FE_STATUS_CAL_OK.of n) 0) := by
  by_cases hsame : s.skeinGate n = v
  · exact .inl ⟨hsame, if_pos hsame⟩
  · cases v with
    | false => exact .inr (.inr (.inr ⟨rfl, if_neg hsame⟩))
    | true =>
      have hgate : s.skeinGate n = false := Bool.eq_false_iff.mpr hsame
      by_cases hcause : s.skeinGateCause n = 0
      · refine .inr (.inl ⟨hgate, rfl, hcause, ?_⟩)
        simp only [State.gateSkein, if_neg hsame, if_true, if_pos hcause]
        rfl
      · exact .inr (.inr (.inl ⟨hgate, rfl, hcause, State.gateSkein_refused hgate hcause⟩))

theorem State.putGate_get_ne (s : State) (n : Nat) (v : Bool) {f : Fld} (h : f.key ≠ PWR_SKN_GATE.one.key)
    (h64 : f.key ≠ PWR_SKN_GATE_64.one.key) : (s.putGate n v).get f = s.get f := by
  unfold State.putGate
  split
  · exact State.get_set_ne _ _ h64
  · exact State.get_setBit_ne _ _ _ h

theorem State.skeinGate_of_get {s t : State} (n : Nat) (h : t.get PWR_SKN_GATE.one = s.get PWR_SKN_GATE.one)
    (h64 : t.get PWR_SKN_GATE_64.one = s.get PWR_SKN_GATE_64.one) : t.skeinGate n = s.skeinGate n := by
  rw [State.skeinGate, State.skeinGate, State.is, State.is, h, h64]

theorem State.skeinGate_putGate (s : State) {n m : Nat} (v : Bool) (hn : n < 65) (hm : m < 65) :
    (s.putGate n v).skeinGate m = if m = n then v else s.skeinGate m := by
  unfold State.putGate State.skeinGate
  by_cases hn64 : n = 64
  · subst hn64
    rw [if_pos rfl]
    by_cases hm64 : m = 64
    · rw [if_pos hm64, if_pos hm64, State.is_set_same]
      exact flag_beq_one v
    · rw [if_neg hm64, if_neg hm64, if_neg hm64, State.get_set_ne _ _ (by decide)]
  · rw [if_neg hn64]
    by_cases hm64 : m = 64
    · rw [if_pos hm64, if_pos hm64, if_neg (by omega), State.is, State.get_setBit_ne _ _ _ (by decide), State.is]
    · rw [if_neg hm64, if_neg hm64, State.bitOf_setBit _ _ _ (show m < 64 by omega)]

/-- The gates are none of the further cells of a gating write. -/
theorem gateCells_apart : ∀ n < 65, PWR_SKN_GATE.one.key ∉ gateCells n ∧ PWR_SKN_GATE_64.one.key ∉ gateCells n := by
  decide +kernel

/-- A skein's gate under one bit of a gating write: it follows the bit, but stays where the skein may not be gated. -/
theorem State.skeinGate_gateSkein (s : State) {n m : Nat} (v : Bool) (hn : n < 65) (hm : m < 65) :
    (s.gateSkein n v).skeinGate m =
      if m = n ∧ (v = false ∨ s.skeinGateCause n = 0) then v else s.skeinGate m := by
  obtain ⟨hgate, hgate64⟩ := gateCells_apart n hn
  rcases s.gateSkein_cases n v with ⟨hsame, h⟩ | ⟨-, rfl, hcause, h⟩ | ⟨-, rfl, hcause, h⟩ | ⟨rfl, h⟩ <;> rw [h]
  · split
    · next hc => rw [hc.1, hsame]
    · rfl
  · rw [State.skeinGate_putGate _ _ hn hm,
      State.skeinGate_of_get m (s.abandonCheck_sameRegs n _ hgate) (s.abandonCheck_sameRegs n _ hgate64)]
    simp [hcause]
  · rw [State.skeinGate_of_get m (s.gateRefused_sameRegs _ _ _ (by decide)) (s.gateRefused_sameRegs _ _ _ (by decide))]
    simp [hcause]
  · rw [State.skeinGate_of_get m ((s.putGate n false).uncalibrated_sameRegs n _ hgate)
      ((s.putGate n false).uncalibrated_sameRegs n _ hgate64), State.skeinGate_putGate _ _ hn hm]
    simp

theorem State.gateSkein_get_ne (s : State) (n : Nat) (v : Bool) {f : Fld} (h : f.key ≠ PWR_SKN_GATE.one.key)
    (h64 : f.key ≠ PWR_SKN_GATE_64.one.key) (hcells : f.key ∉ gateCells n) : (s.gateSkein n v).get f = s.get f := by
  rcases s.gateSkein_cases n v with ⟨-, e⟩ | ⟨-, -, -, e⟩ | ⟨-, -, -, e⟩ | ⟨-, e⟩ <;> rw [e]
  · rw [State.putGate_get_ne _ _ _ h h64, s.abandonCheck_sameRegs n _ hcells]
  · exact s.gateRefused_sameRegs _ _ _ fun hmem => hcells (List.mem_append_right _ hmem)
  · rw [(s.putGate n false).uncalibrated_sameRegs n _ hcells, State.putGate_get_ne _ _ _ h h64]

/-- What forbids a skein's gating reads these cells alone. -/
def causeFields : List Fld :=
  [SKN_SPARE_MODE.of 64, SKN_SPARE_TARGET.of 64] ++ (upto 8).map WR_SESSION_STATUS_STATE.elt ++ (upto 8).map WR_SESSION_SKEINS.elt

theorem planFields_mem : ∀ i ∈ upto 8, WR_SESSION_STATUS_STATE.elt i ∈ causeFields ∧ WR_SESSION_SKEINS.elt i ∈ causeFields := by
  decide

theorem State.spareMode_of_get {s t : State} (h : t.get (SKN_SPARE_MODE.of 64) = s.get (SKN_SPARE_MODE.of 64)) :
    t.spareMode = s.spareMode := by rw [State.spareMode, State.spareMode, h]

theorem State.skeinGateCause_of_get {s t : State} (n : Nat) (h : ∀ f ∈ causeFields, t.get f = s.get f) :
    t.skeinGateCause n = s.skeinGateCause n := by
  have hmode : t.spareMode = s.spareMode := State.spareMode_of_get (h _ (by simp [causeFields]))
  have htarget : t.spareTarget = s.spareTarget := h _ (by simp [causeFields])
  have hplan : t.planOf n = s.planOf n := List.find?_congr fun i hi => by
    obtain ⟨hstate, hskeins⟩ := planFields_mem i hi
    rw [State.sessState, State.inPlan, h _ hstate, h _ hskeins, ← State.sessState, ← State.inPlan]
  rw [State.skeinGateCause, State.skeinGateCause, hmode, htarget, hplan]

/-- A gating write leaves what forbids a gating. -/
theorem causeFields_apart : ∀ f ∈ causeFields, f.key ≠ PWR_SKN_GATE.one.key ∧ f.key ≠ PWR_SKN_GATE_64.one.key ∧
    ∀ n < 65, f.key ∉ gateCells n := by decide +kernel

/-- The gates of the skeins after a write to PWR_SKN_GATE. -/
theorem State.skeinGateWrite_gate (s : State) (value : Nat) {n : Nat} (hn : n < 64) :
    bitOf ((s.skeinGateWrite false value).get PWR_SKN_GATE.one) n =
      if bitOf value n = false ∨ s.skeinGateCause n = 0 then bitOf value n else bitOf (s.get PWR_SKN_GATE.one) n := by
  have hgate : ∀ u : State, u.skeinGate n = bitOf (u.get PWR_SKN_GATE.one) n := fun u => if_neg (Nat.ne_of_lt hn)
  obtain ⟨u, hcause, hbefore, hafter⟩ := forEach_at (List.nodup_range (n := 64)) (List.mem_range.mpr hn)
    (f := fun n s => s.gateSkein n (bitOf value n)) (fun u => ∀ f ∈ causeFields, u.get f = s.get f) (·.skeinGate n)
    (fun _ _ => rfl)
    (fun a ha u hu f hf => by
      obtain ⟨h, h64, hcells⟩ := causeFields_apart f hf
      have ha : a < 64 := List.mem_range.mp ha
      rw [State.gateSkein_get_ne _ _ _ h h64 (hcells a (by omega)), hu f hf])
    (fun a ha hne u _ => by
      have ha : a < 64 := List.mem_range.mp ha
      rw [State.skeinGate_gateSkein _ _ (by omega) (by omega), if_neg (fun h => hne h.1.symm)])
  rw [← hgate, ← hgate, ← hbefore, ← s.skeinGateCause_of_get n hcause]
  exact hafter.trans ((u.skeinGate_gateSkein _ (by omega) (by omega)).trans (by simp))

/-! ### SKEIN_GATE_WRITE (R375, R376) -/

/-- The page guard's flag of the power page is none of the cells of gating. -/
theorem pwrUnlocked_apart : (unlockedOf (PageClass.page .pwr 0)).key ≠ PWR_SKN_GATE.one.key ∧
    (unlockedOf (PageClass.page .pwr 0)).key ≠ PWR_SKN_GATE_64.one.key ∧
    (unlockedOf (PageClass.page .pwr 0)).key ∉ gateCells 64 := by decide +kernel

theorem exec_skeinGateWrite {s : State} (spare : Bool) (v : BitVec 64) (h : s.admits (PageClass.page .pwr 0) = true) :
    exec (.skeinGateWrite spare v) s =
      .next ((s.set (unlockedOf (PageClass.page .pwr 0)) 0).skeinGateWrite spare v.toNat) :=
  congrArg Host.Outcome.next (s.gated_of_admits _ _ h)

theorem skeinGateWrite_spare (s : State) (v : BitVec 64) (h : s.admits (PageClass.page .pwr 0) = true) :
    ∃ t, exec (.skeinGateWrite true v) s = .next t ∧
      (bitOf v.toNat 0 = false ∨ s.spareMode = 0 → t.is PWR_SKN_GATE_64.one = bitOf v.toNat 0) ∧
      (bitOf v.toNat 0 = true → s.is PWR_SKN_GATE_64.one = false → s.spareMode ≠ 0 →
        t.is PWR_SKN_GATE_64.one = false ∧ t.is PWR_GATE_ERR_REFUSED.one = true ∧ t.get PWR_GATE_ERR_CAUSE.one = 2 ∧
        t.latched 22 = true) ∧ t.pageLocked (PageClass.page .pwr 0) = true := by
  obtain ⟨hne, hne64, hcells⟩ := pwrUnlocked_apart
  refine ⟨_, exec_skeinGateWrite true v h, ?_⟩
  have hlocked : (s.set (unlockedOf (PageClass.page .pwr 0)) 0).is (unlockedOf (PageClass.page .pwr 0)) = false :=
    State.is_set_same s _ 0
  have hmode : (s.set (unlockedOf (PageClass.page .pwr 0)) 0).spareMode = s.spareMode :=
    State.spareMode_of_get (State.get_set_ne _ _ (by decide))
  have hgate : (s.set (unlockedOf (PageClass.page .pwr 0)) 0).is PWR_SKN_GATE_64.one = s.is PWR_SKN_GATE_64.one :=
    State.is_set_ne _ _ (by decide)
  generalize s.set (unlockedOf (PageClass.page .pwr 0)) 0 = u at *
  change (_ → (u.gateSkein 64 _).skeinGate 64 = _) ∧ (_ → _ → _ → (u.gateSkein 64 _).skeinGate 64 = _ ∧ _) ∧ _
  have hcause : u.skeinGateCause 64 = if u.spareMode = 0 then 0 else 2 := if_pos rfl
  refine ⟨fun hfree => ?_, fun hbit hoff hused => ?_, ?_⟩
  · have hfree' : bitOf v.toNat 0 = false ∨ u.skeinGateCause 64 = 0 :=
      hfree.imp_right fun h0 => by rw [hcause, hmode, if_pos h0]
    rw [State.skeinGate_gateSkein _ _ (by decide) (by decide), if_pos ⟨rfl, hfree'⟩]
  · have htwo : u.skeinGateCause 64 = 2 := by rw [hcause, hmode, if_neg hused]
    have hungated : u.skeinGate 64 = false := hgate.trans hoff
    have hrefused : u.gateSkein 64 (bitOf v.toNat 0) = u.gateRefused 64 2 := by
      rw [hbit, State.gateSkein_refused hungated (by simp [htwo]), htwo]
    refine ⟨?_, ?_⟩
    · rw [State.skeinGate_gateSkein _ _ (by decide) (by decide), if_neg (by simp [htwo, hbit]), hungated]
    · have hshows := u.gateRefused_shows 64 (cause := 2) (by decide)
      rw [← hrefused] at hshows
      exact hshows
  · have hflag : (u.gateSkein 64 (bitOf v.toNat 0)).is (unlockedOf (PageClass.page .pwr 0)) = false := by
      rw [State.is, State.gateSkein_get_ne _ _ _ hne hne64 hcells]
      exact hlocked
    exact Bool.and_eq_true_iff.mpr ⟨rfl, by rw [Bool.not_eq_true']; exact hflag⟩

theorem skeinGateWrite_skeins (s : State) (v : BitVec 64) (h : s.admits (PageClass.page .pwr 0) = true) :
    ∃ t, exec (.skeinGateWrite false v) s = .next t ∧
      (∀ n < 64, bitOf v.toNat n = false ∨ s.skeinGateCause n = 0 → bitOf (t.get PWR_SKN_GATE.one) n = bitOf v.toNat n) ∧
      (∀ n < 64, bitOf v.toNat n = true → s.skeinGateCause n ≠ 0 →
        bitOf (t.get PWR_SKN_GATE.one) n = bitOf (s.get PWR_SKN_GATE.one) n) := by
  have hunlocked : ∀ f ∈ PWR_SKN_GATE.one :: causeFields, f.key ≠ (unlockedOf (PageClass.page .pwr 0)).key := by decide +kernel
  have hcause : ∀ n, (s.set (unlockedOf (PageClass.page .pwr 0)) 0).skeinGateCause n = s.skeinGateCause n := fun n =>
    State.skeinGateCause_of_get n fun f hf => State.get_set_ne _ _ (hunlocked f (List.mem_cons_of_mem _ hf))
  refine ⟨_, exec_skeinGateWrite false v h, fun n hn hfree => ?_, fun n hn hbit hused => ?_⟩
  · rw [State.skeinGateWrite_gate _ _ hn, hcause, if_pos hfree]
  · rw [State.skeinGateWrite_gate _ _ hn, hcause, if_neg (by simp [hbit, hused]),
      State.get_set_ne _ _ (hunlocked _ List.mem_cons_self)]

/-! ### SEQUENCER_GATE_WRITE (R375, R376) -/

/-- A sequencer that a session, an arm or a replay uses. -/
def State.seqUsed (s : State) (n : Nat) : Bool := s.sessState n != 0 || s.seqArmed n || s.get (TRG_STATUS_STATE.of n) == 1

theorem State.seqUsed_iff (s : State) (n : Nat) :
    s.seqUsed n = true ↔ s.sessState n ≠ 0 ∨ s.seqArmed n = true ∨ s.get (TRG_STATUS_STATE.of n) = 1 := by
  simp [State.seqUsed, or_assoc]

/-- One bit of a sequencer gating write. -/
def State.gateSeq (s : State) (n : Nat) (v : Bool) : State :=
  if bitOf (s.get PWR_TRG_GATE_GATE.one) n = v then s
  else if v && s.seqUsed n then s.gateRefused (0x40 + n) 3
  else s.setBit PWR_TRG_GATE_GATE.one n v

theorem State.seqGateWrite_eq (s : State) (value : Nat) :
    s.seqGateWrite value = forEach (upto 8) s (fun n s => s.gateSeq n (bitOf value n)) := rfl

/-- The cells that a sequencer gating write can change. -/
def seqGateCells : List Nat := PWR_TRG_GATE_GATE.one.key :: refuseCells

section
variable {s t : State} {n : Nat} {v : Bool}

theorem State.gateSeq_sameRegs (s : State) (n : Nat) (v : Bool) : s.sameRegs seqGateCells (s.gateSeq n v) :=
  State.sameRegs_ite (s.sameRegs_refl _) (State.sameRegs_ite
    (State.sameRegs_mono (s.gateRefused_sameRegs _ _) (List.subset_cons_self _ _))
    (State.sameRegs_set _ (s.sameRegs_refl _) List.mem_cons_self))

theorem State.sameButRegs_gateSeq (n : Nat) (v : Bool) (h : s.sameButRegs t) : s.sameButRegs (t.gateSeq n v) := by
  unfold State.gateSeq
  split
  · exact h
  · split
    · exact State.sameButRegs_gateRefused _ _ h
    · exact State.sameButRegs_set _ _ h

theorem State.gateSeq_refused (hoff : bitOf (s.get PWR_TRG_GATE_GATE.one) n = false) (hused : s.seqUsed n = true) :
    s.gateSeq n true = s.gateRefused (0x40 + n) 3 := by simp [State.gateSeq, hoff, hused]

/-- A sequencer's gate under one bit of a gating write: it follows the bit, but stays where the sequencer is used. -/
theorem State.bitOf_gateSeq (s : State) (n : Nat) (v : Bool) {m : Nat} (hm : m < 8) :
    bitOf ((s.gateSeq n v).get PWR_TRG_GATE_GATE.one) m =
      if m = n ∧ (v = false ∨ s.seqUsed n = false) then v else bitOf (s.get PWR_TRG_GATE_GATE.one) m := by
  by_cases hsame : bitOf (s.get PWR_TRG_GATE_GATE.one) n = v
  · rw [State.gateSeq, if_pos hsame]
    split
    · next hc => rw [hc.1, hsame]
    · rfl
  · by_cases hused : (v && s.seqUsed n) = true
    · rw [State.gateSeq, if_neg hsame, if_pos hused, s.gateRefused_sameRegs _ _ _ (by decide),
        if_neg (by simp [(Bool.and_eq_true_iff.mp hused).1, (Bool.and_eq_true_iff.mp hused).2])]
    · rw [State.gateSeq, if_neg hsame, if_neg hused, State.bitOf_setBit _ _ _ hm]
      have hfree : v = false ∨ s.seqUsed n = false := by simpa only [Bool.and_eq_true, not_and_or, Bool.not_eq_true] using hused
      simp [hfree]

theorem State.seqUsed_of_sameRegs (h : s.sameRegs seqGateCells t) (hn : n < 8) : t.seqUsed n = s.seqUsed n := by
  have hcells : ∀ n < 8, (WR_SESSION_STATUS_STATE.elt n).key ∉ seqGateCells ∧ (TRG_STATUS_STATE.of n).key ∉ seqGateCells := by
    decide +kernel
  obtain ⟨hsess, hseq⟩ := hcells n hn
  rw [State.seqUsed, State.seqUsed, State.sessState, State.sessState, State.seqArmed, State.seqArmed, h _ hsess, h _ hseq]

end

theorem State.seqGateWrite_gate (s : State) (value : Nat) {n : Nat} (hn : n < 8) :
    bitOf ((s.seqGateWrite value).get PWR_TRG_GATE_GATE.one) n =
      if bitOf value n = false ∨ s.seqUsed n = false then bitOf value n else bitOf (s.get PWR_TRG_GATE_GATE.one) n := by
  obtain ⟨u, hu, hbefore, hafter⟩ := forEach_at (List.nodup_range (n := 8)) (List.mem_range.mpr hn)
    (f := fun n s => s.gateSeq n (bitOf value n)) (s.sameRegs seqGateCells) (fun u => bitOf (u.get PWR_TRG_GATE_GATE.one) n)
    (s.sameRegs_refl _) (fun a _ u hu => State.sameRegs_trans hu (u.gateSeq_sameRegs a _))
    (fun a _ hne u _ => by rw [State.bitOf_gateSeq _ _ _ hn, if_neg (fun h => hne h.1.symm)])
  rw [← hbefore, ← State.seqUsed_of_sameRegs hu hn]
  exact hafter.trans ((u.bitOf_gateSeq n _ hn).trans (by simp))

theorem State.seqGateWrite_refuses (s : State) {value n : Nat} (hn : n < 8) (hbit : bitOf value n = true)
    (hoff : bitOf (s.get PWR_TRG_GATE_GATE.one) n = false) (hused : s.seqUsed n = true) :
    (s.seqGateWrite value).is PWR_GATE_ERR_REFUSED.one = true ∧ (s.seqGateWrite value).latched 22 = true := by
  refine forEach_reaches (l := upto 8) (f := fun n s => s.gateSeq n (bitOf value n)) (List.mem_range.mpr hn)
    (fun u => s.sameRegs seqGateCells u ∧ bitOf (u.get PWR_TRG_GATE_GATE.one) n = false)
    (fun u => u.is PWR_GATE_ERR_REFUSED.one = true ∧ u.latched 22 = true)
    ⟨s.sameRegs_refl _, hoff⟩ (fun a _ u hu => ⟨State.sameRegs_trans hu.1 (u.gateSeq_sameRegs a _), ?_⟩) (fun u hu => ?_)
    (fun a _ u hu => ?_)
  · rw [State.bitOf_gateSeq _ _ _ hn, hu.2]
    by_cases ha : n = a
    · subst ha
      rw [State.seqUsed_of_sameRegs hu.1 hn, hused, hbit, if_neg (by simp)]
    · rw [if_neg (fun h => ha h.1)]
  · have hstep : u.gateSeq n (bitOf value n) = u.gateRefused (0x40 + n) 3 := by
      rw [hbit, State.gateSeq_refused hu.2 ((State.seqUsed_of_sameRegs hu.1 hn).trans hused)]
    obtain ⟨hrefused, -, hlatched⟩ := u.gateRefused_shows (0x40 + n) (cause := 3) (by decide)
    rw [hstep]
    exact ⟨hrefused, hlatched⟩
  · unfold State.gateSeq
    split
    · exact hu
    · split
      · obtain ⟨hrefused, -, hlatched⟩ := u.gateRefused_shows (0x40 + a) (cause := 3) (by decide)
        exact ⟨hrefused, hlatched⟩
      · exact ⟨(State.is_set_ne _ _ (by decide)).trans hu.1, (State.latched_set_ne _ _ (by decide)).trans hu.2⟩

theorem sequencerGateWrite_gates (s : State) (v : DWord) (h : s.admits (PageClass.page .pwr 0) = true) :
    ∃ t, exec (.sequencerGateWrite v) s = .next t ∧
      (∀ n < 8, bitOf v.toNat n = false ∨ (s.sessState n = 0 ∧ s.seqArmed n = false ∧ s.get (TRG_STATUS_STATE.of n) ≠ 1) →
        bitOf (t.get PWR_TRG_GATE_GATE.one) n = bitOf v.toNat n) ∧
      (∀ n < 8, bitOf v.toNat n = true → bitOf (s.get PWR_TRG_GATE_GATE.one) n = false →
        (s.sessState n ≠ 0 ∨ s.seqArmed n = true ∨ s.get (TRG_STATUS_STATE.of n) = 1) →
        bitOf (t.get PWR_TRG_GATE_GATE.one) n = false ∧ t.is PWR_GATE_ERR_REFUSED.one = true ∧ t.latched 22 = true) ∧
      s.sameRegs ([PWR_TRG_GATE_GATE.one, PWR_GATE_ERR_REFUSED.one, PWR_GATE_ERR_CAUSE.one, PWR_GATE_ERR_UNIT.one,
        unlockedOf (PageClass.page .pwr 0)].map Fld.key ++ latches [22]) t ∧ s.sameButRegs t := by
  have hexec : exec (.sequencerGateWrite v) s = .next ((s.set (unlockedOf (PageClass.page .pwr 0)) 0).seqGateWrite v.toNat) :=
    congrArg Host.Outcome.next (s.gated_of_admits _ _ h)
  have hunlocked : ∀ n < 8, (WR_SESSION_STATUS_STATE.elt n).key ≠ (unlockedOf (PageClass.page .pwr 0)).key ∧
      (TRG_STATUS_STATE.of n).key ≠ (unlockedOf (PageClass.page .pwr 0)).key := by decide +kernel
  have hused : ∀ n < 8, (s.set (unlockedOf (PageClass.page .pwr 0)) 0).seqUsed n = s.seqUsed n := fun n hn => by
    obtain ⟨hsess, hseq⟩ := hunlocked n hn
    rw [State.seqUsed, State.seqUsed, State.sessState, State.sessState, State.seqArmed, State.seqArmed,
      State.get_set_ne _ _ hsess, State.get_set_ne _ _ hseq]
  have hgate : (s.set (unlockedOf (PageClass.page .pwr 0)) 0).get PWR_TRG_GATE_GATE.one = s.get PWR_TRG_GATE_GATE.one :=
    State.get_set_ne _ _ (by decide)
  refine ⟨_, hexec, fun n hn hfree => ?_, fun n hn hbit hoff huse => ?_, ?_, ?_⟩
  · have hfree' : bitOf v.toNat n = false ∨ s.seqUsed n = false := hfree.imp_right fun ⟨h1, h2, h3⟩ => by
      simp [State.seqUsed, h1, h2, h3]
    rw [State.seqGateWrite_gate _ _ hn, hused n hn, if_pos hfree']
  · have huse' : s.seqUsed n = true := (s.seqUsed_iff n).mpr huse
    refine ⟨?_, State.seqGateWrite_refuses _ hn hbit (hgate ▸ hoff) ((hused n hn).trans huse')⟩
    rw [State.seqGateWrite_gate _ _ hn, hused n hn, hgate, if_neg (by simp [hbit, huse']), hoff]
  · have hcells : seqGateCells ⊆ [PWR_TRG_GATE_GATE.one, PWR_GATE_ERR_REFUSED.one, PWR_GATE_ERR_CAUSE.one, PWR_GATE_ERR_UNIT.one,
        unlockedOf (PageClass.page .pwr 0)].map Fld.key ++ latches [22] := by decide
    rw [State.seqGateWrite_eq]
    exact State.sameRegs_forEach (State.sameRegs_set _ (s.sameRegs_refl _) (by simp)) fun a _ u hu =>
      State.sameRegs_step hu (u.gateSeq_sameRegs a _) hcells
  · exact List.foldlRecOn (motive := s.sameButRegs) _ _ (State.sameButRegs_set _ _ s.sameButRegs_refl)
      fun u hu a _ => State.sameButRegs_gateSeq a _ hu

end Sys2Proof.Machine
end

