-- ==== Sys2Proof/Proofs/Ready.lean ====
section
/-! PROOFS. The READY bits of skeins and sequencers (R371, R372, R377), and what a skein's calibration finds (R125). -/

namespace Sys2Proof.Machine

/-! ### A READY bit takes a value -/

/-- The cells in which READY bits stand and their changes show. -/
def readyCells : List Nat :=
  [PWR_SKN_READY.one, PWR_SKN_READY_64.one, PWR_TRG_GATE_READY.one].map Fld.key ++ latches [21]

/-- Beside registers, messages to the host and the skeins, the state is as it was. -/
def State.ButFront (s t : State) : Prop := ({ s with skeins := t.skeins } : State).sameButRegs t

theorem State.sameButRegs.butFront {s t : State} (h : s.sameButRegs t) : s.ButFront t := by
  obtain ⟨ht, hmessages⟩ := h
  refine ⟨?_, hmessages⟩
  rw [ht]

namespace State.ButFront

variable {s t u : State}

theorem refl (s : State) : s.ButFront s := s.sameButRegs_refl.butFront

theorem trans (h : s.ButFront t) (k : t.ButFront u) : s.ButFront u := by
  obtain ⟨ht, hmessages⟩ := h
  obtain ⟨hu, hmessages'⟩ := k
  refine ⟨by rw [hu, ht], ?_⟩
  unfold Link.sameButMessages at *
  rw [hmessages', hmessages]

theorem onSkein (s : State) (n : Nat) (f : Skein → Skein) : s.ButFront (s.onSkein n f) := ⟨rfl, rfl⟩

theorem mbx (h : s.ButFront t) : t.mbx = s.mbx := by rw [h.1]

theorem hbm (h : s.ButFront t) : t.hbm = s.hbm := by rw [h.1]

end State.ButFront

section
variable {s : State} {n : Nat} {v : Bool}

/-- The register bit that shows skein `n` ready. -/
def State.putReadyBit (s : State) (n : Nat) (v : Bool) : State :=
  if n = 64 then s.set PWR_SKN_READY_64.one (flag v) else s.setBit PWR_SKN_READY.one n v

theorem State.putReadyBit_frame (s : State) (n : Nat) (v : Bool) :
    s.sameRegs readyCells (s.putReadyBit n v) ∧ s.ButFront (s.putReadyBit n v) := by
  unfold State.putReadyBit
  split
  · exact ⟨State.sameRegs_set _ (s.sameRegs_refl _) (by simp [readyCells]),
      (State.sameButRegs_set _ _ s.sameButRegs_refl).butFront⟩
  · exact ⟨State.sameRegs_set _ (s.sameRegs_refl _) (by simp [readyCells]),
      (State.sameButRegs_set _ _ s.sameButRegs_refl).butFront⟩

theorem State.skeinReady_putReadyBit (s : State) {n m : Nat} (v : Bool) (hn : n < 65) (hm : m < 65) :
    (s.putReadyBit n v).skeinReady m = if m = n then v else s.skeinReady m := by
  unfold State.putReadyBit State.skeinReady
  by_cases hn64 : n = 64
  · subst hn64
    rw [if_pos rfl]
    by_cases hm64 : m = 64
    · rw [if_pos hm64, if_pos hm64, State.is_set_same]
      exact flag_beq_one v
    · rw [if_neg hm64, if_neg hm64, if_neg hm64, State.get_set_ne _ _ (by decide)]
  · rw [if_neg hn64]
    by_cases hm64 : m = 64
    · rw [if_pos hm64, if_pos hm64, if_neg (by omega), State.is, State.get_setBit_ne _ _ _ (by decide), State.is]
    · rw [if_neg hm64, if_neg hm64, State.bitOf_setBit _ _ _ (show m < 64 by omega)]

/-- A skein's READY bit that changes: the bit, the front end as it stands, EV_021. -/
theorem State.putSkeinReady_changing (h : s.skeinReady n ≠ v) : s.putSkeinReady n v =
    ((s.putReadyBit n v).onSkein n (fun k => { k with base := k.present, edges := [], prev := [] })).raise 21 := if_neg h

theorem State.putSkeinReady_latched (h : s.skeinReady n ≠ v) : (s.putSkeinReady n v).latched 21 = true := by
  rw [State.putSkeinReady_changing h]
  exact State.raise_latched _ 21 rfl

theorem State.putSkeinReady_frame (s : State) (n : Nat) (v : Bool) :
    s.sameRegs readyCells (s.putSkeinReady n v) ∧ s.ButFront (s.putSkeinReady n v) := by
  by_cases h : s.skeinReady n = v
  · rw [State.putSkeinReady, if_pos h]
    exact ⟨s.sameRegs_refl _, .refl s⟩
  · rw [State.putSkeinReady_changing h]
    obtain ⟨hbit, hbitRest⟩ := s.putReadyBit_frame n v
    refine ⟨State.sameRegs_raise 21 (State.sameRegs_of_regs hbit rfl) (List.subset_append_right _ _), ?_⟩
    exact (hbitRest.trans (.onSkein _ n _)).trans (State.sameButRegs_raise 21 (State.sameButRegs_refl _)).butFront

theorem State.skeinReady_of_get {s t : State} (n : Nat) (h : t.get PWR_SKN_READY.one = s.get PWR_SKN_READY.one)
    (h64 : t.get PWR_SKN_READY_64.one = s.get PWR_SKN_READY_64.one) : t.skeinReady n = s.skeinReady n := by
  rw [State.skeinReady, State.skeinReady, State.is, State.is, h, h64]

theorem State.skeinReady_putSkeinReady (s : State) {n m : Nat} (v : Bool) (hn : n < 65) (hm : m < 65) :
    (s.putSkeinReady n v).skeinReady m = if m = n then v else s.skeinReady m := by
  by_cases h : s.skeinReady n = v
  · rw [State.putSkeinReady, if_pos h]
    split
    · next hmn => rw [hmn, h]
    · rfl
  · rw [State.putSkeinReady_changing h, ← s.skeinReady_putReadyBit v hn hm]
    exact State.skeinReady_of_get m (State.raise_get_ne _ _ (by decide)) (State.raise_get_ne _ _ (by decide))

theorem State.putSeqReady_frame (s : State) (n : Nat) (v : Bool) :
    s.sameRegs (PWR_TRG_GATE_READY.one.key :: latches [21]) (s.putSeqReady n v) ∧ s.sameButRegs (s.putSeqReady n v) := by
  unfold State.putSeqReady
  split
  · exact ⟨s.sameRegs_refl _, s.sameButRegs_refl⟩
  · exact ⟨State.sameRegs_raise 21 (State.sameRegs_set _ (s.sameRegs_refl _) List.mem_cons_self) (List.subset_cons_self _ _),
      State.sameButRegs_raise 21 (State.sameButRegs_set _ _ s.sameButRegs_refl)⟩

theorem State.bitOf_putSeqReady (s : State) (n : Nat) (v : Bool) {m : Nat} (hm : m < 8) :
    bitOf ((s.putSeqReady n v).get PWR_TRG_GATE_READY.one) m = if m = n then v else bitOf (s.get PWR_TRG_GATE_READY.one) m := by
  unfold State.putSeqReady
  split
  · next h =>
    split
    · next hmn => rw [hmn, h]
    · rfl
  · rw [State.raise_get_ne _ _ (by decide), State.bitOf_setBit _ _ _ hm]

theorem State.putSeqReady_latched (h : bitOf (s.get PWR_TRG_GATE_READY.one) n ≠ v) : (s.putSeqReady n v).latched 21 = true := by
  rw [State.putSeqReady, if_neg h]
  exact State.raise_latched _ 21 rfl

end

/-! ### Every READY bit (R371, R372) -/

/-- Every skein takes the READY bit that its gate gives, or none does. -/
def State.skeinsFollow (s : State) (on : Bool) : State :=
  forEach (upto 65) s (fun n s => s.putSkeinReady n (on && !s.skeinGate n))

/-- Every sequencer takes the READY bit that its gate gives, or none does. -/
def State.seqsFollow (s : State) (on : Bool) : State :=
  forEach (upto 8) s (fun n s => s.putSeqReady n (on && !bitOf (s.get PWR_TRG_GATE_GATE.one) n))

theorem State.allReady_eq (s : State) (on : Bool) : s.allReady on = (s.skeinsFollow on).seqsFollow on := rfl

section
variable (s : State) (on : Bool)

theorem State.skeinsFollow_frame : s.sameRegs readyCells (s.skeinsFollow on) ∧ s.ButFront (s.skeinsFollow on) :=
  List.foldlRecOn (motive := fun u => s.sameRegs readyCells u ∧ s.ButFront u) _ _ ⟨s.sameRegs_refl _, .refl s⟩ fun u hu n _ => by
    obtain ⟨hregs, hrest⟩ := u.putSkeinReady_frame n (on && !u.skeinGate n)
    exact ⟨State.sameRegs_trans hu.1 hregs, hu.2.trans hrest⟩

theorem State.seqsFollow_frame :
    s.sameRegs (PWR_TRG_GATE_READY.one.key :: latches [21]) (s.seqsFollow on) ∧ s.sameButRegs (s.seqsFollow on) :=
  List.foldlRecOn (motive := fun u => s.sameRegs (PWR_TRG_GATE_READY.one.key :: latches [21]) u ∧ s.sameButRegs u) _ _
    ⟨s.sameRegs_refl _, s.sameButRegs_refl⟩ fun u hu n _ => by
    obtain ⟨hregs, hrest⟩ := u.putSeqReady_frame n (on && !bitOf (u.get PWR_TRG_GATE_GATE.one) n)
    exact ⟨State.sameRegs_trans hu.1 hregs, State.sameButRegs_trans hu.2 hrest⟩

theorem State.allReady_frame : s.sameRegs readyCells (s.allReady on) ∧ s.ButFront (s.allReady on) := by
  obtain ⟨hskeins, hskeinsRest⟩ := s.skeinsFollow_frame on
  obtain ⟨hseqs, hseqsRest⟩ := (s.skeinsFollow on).seqsFollow_frame on
  exact ⟨State.sameRegs_step hskeins hseqs (by decide), hskeinsRest.trans hseqsRest.butFront⟩

theorem State.skeinReady_allReady {n : Nat} (hn : n < 65) : (s.allReady on).skeinReady n = (on && !s.skeinGate n) := by
  obtain ⟨u, hu, -, hafter⟩ := forEach_at (List.nodup_range (n := 65)) (List.mem_range.mpr hn)
    (f := fun n s => s.putSkeinReady n (on && !s.skeinGate n)) (s.sameRegs readyCells) (·.skeinReady n) (s.sameRegs_refl _)
    (fun a _ u hu => State.sameRegs_trans hu (u.putSkeinReady_frame a _).1)
    (fun a ha hne u _ => by rw [State.skeinReady_putSkeinReady _ _ (List.mem_range.mp ha) hn, if_neg hne.symm])
  have hskeins : (s.skeinsFollow on).skeinReady n = (on && !u.skeinGate n) :=
    hafter.trans ((u.skeinReady_putSkeinReady _ hn hn).trans (if_pos rfl))
  obtain ⟨hseqs, -⟩ := (s.skeinsFollow on).seqsFollow_frame on
  rw [State.allReady_eq, State.skeinReady_of_get n (hseqs _ (by decide)) (hseqs _ (by decide)), hskeins,
    State.skeinGate_of_get n (hu _ (by decide)) (hu _ (by decide))]

theorem State.seqReady_allReady {n : Nat} (hn : n < 8) :
    bitOf ((s.allReady on).get PWR_TRG_GATE_READY.one) n = (on && !bitOf (s.get PWR_TRG_GATE_GATE.one) n) := by
  obtain ⟨hskeins, -⟩ := s.skeinsFollow_frame on
  obtain ⟨u, hu, -, hafter⟩ := forEach_at (s := s.skeinsFollow on) (List.nodup_range (n := 8)) (List.mem_range.mpr hn)
    (f := fun n s => s.putSeqReady n (on && !bitOf (s.get PWR_TRG_GATE_GATE.one) n))
    (fun u => u.get PWR_TRG_GATE_GATE.one = s.get PWR_TRG_GATE_GATE.one) (fun u => bitOf (u.get PWR_TRG_GATE_READY.one) n)
    (hskeins _ (by decide)) (fun a _ u hu => ((u.putSeqReady_frame a _).1 _ (by decide)).trans hu)
    (fun a _ hne u _ => by rw [State.bitOf_putSeqReady _ _ _ hn, if_neg hne.symm])
  rw [← hu]
  exact hafter.trans ((u.bitOf_putSeqReady n _ hn).trans (if_pos rfl))

end

/-! ### What a calibration finds (R102, R125) -/

/-- The cells that a calibration's finding in skein `n` writes. -/
def foundCells (n : Nat) : List Nat :=
  [FE_STATUS_CAL_OK.of n, FE_CAL_STATUS_RESID.of n, FE_CAL_STATUS_WORST_CH.of n, FE_CAL_STATUS_TEMP_DELTA.of n].map Fld.key ++
    causeCells n

/-- The cells of the device's worst residual. -/
def worstCells : List Nat := CLK_QUALITY_TDC_RMS.one.key :: latches [11]

theorem foundCells_apart : ∀ n < 65,
    (FE_STATUS_CAL_OK.of n).key ∉ worstCells ++ readyCells ++ causeCells n ∧
    (FE_CAL_STATUS_RESID.of n).key ∉ worstCells ++ readyCells ++ causeCells n ∧
    (FE_CAL_STATUS_TEMP_DELTA.of n).key ∉ worstCells ++ readyCells ++ causeCells n ∧
    PWR_SKN_READY.one.key ∉ foundCells n ++ worstCells ∧ PWR_SKN_READY_64.one.key ∉ foundCells n ++ worstCells := by
  decide +kernel

section
variable {s : State} {n : Nat} {f : CalFinding}

/-- A finding's registers. -/
def State.findingSet (s : State) (n : Nat) (f : CalFinding) : State :=
  (((s.set (FE_STATUS_CAL_OK.of n) (flag f.ok)).set (FE_CAL_STATUS_RESID.of n) f.resid.toNat).set
    (FE_CAL_STATUS_WORST_CH.of n) f.worstCh.val).set (FE_CAL_STATUS_TEMP_DELTA.of n) 0

/-- The finding as it is noted, before a failure counts among the causes. -/
def State.findingNoted (s : State) (n : Nat) (f : CalFinding) : State :=
  (s.findingSet n f).onSkein n (fun k => { k with calTemp := s.skeinTemp n })

theorem State.calFound_eq (s : State) (n : Nat) (f : CalFinding) :
    s.calFound n f = if f.ok then s.findingNoted n f else (s.findingNoted n f).feCause n 3 := rfl

theorem State.findingNoted_frame (s : State) (n : Nat) (f : CalFinding) :
    s.sameRegs (foundCells n) (s.findingNoted n f) ∧ s.ButFront (s.findingNoted n f) := by
  have hset : s.sameRegs (foundCells n) (s.findingSet n f) :=
    State.sameRegs_set _ (State.sameRegs_set _ (State.sameRegs_set _ (State.sameRegs_set _ (s.sameRegs_refl _)
      (by simp [foundCells])) (by simp [foundCells])) (by simp [foundCells])) (by simp [foundCells])
  have hrest : s.sameButRegs (s.findingSet n f) :=
    State.sameButRegs_set _ _ (State.sameButRegs_set _ _ (State.sameButRegs_set _ _
      (State.sameButRegs_set _ _ s.sameButRegs_refl)))
  exact ⟨State.sameRegs_of_regs hset rfl, hrest.butFront.trans (.onSkein _ n _)⟩

/-- A calibration's finding shows. -/
structure State.ShowsFinding (n : Nat) (f : CalFinding) (t : State) : Prop where
  ok : t.is (FE_STATUS_CAL_OK.of n) = f.ok
  resid : t.get (FE_CAL_STATUS_RESID.of n) = f.resid.toNat
  delta : t.get (FE_CAL_STATUS_TEMP_DELTA.of n) = 0

theorem State.ShowsFinding.step {t u : State} {ks : List Nat} (h : t.ShowsFinding n f) (k : t.sameRegs ks u) (hn : n < 65)
    (hks : ks ⊆ worstCells ++ readyCells ++ causeCells n) : u.ShowsFinding n f := by
  obtain ⟨hok, hresid, hdelta, -⟩ := foundCells_apart n hn
  have hwide := State.sameRegs_mono k hks
  exact ⟨(State.is_of_sameRegs hwide hok).trans h.ok, (hwide _ hresid).trans h.resid, (hwide _ hdelta).trans h.delta⟩

theorem State.findingSet_shows (s : State) (n : Nat) (f : CalFinding) : (s.findingSet n f).ShowsFinding n f := by
  have hapart : ∀ g h : Fld, g.apart h = true → g.key ≠ h.key := fun _ _ => Fld.key_ne_of_apart
  refine ⟨?_, ?_, State.get_set_same _ _ _⟩
  · rw [State.findingSet, State.is_set_ne _ _ (hapart _ _ rfl), State.is_set_ne _ _ (hapart _ _ rfl),
      State.is_set_ne _ _ (hapart _ _ rfl), State.is_set_same]
    exact flag_beq_one f.ok
  · rw [State.findingSet, State.get_set_ne _ _ (hapart _ _ rfl), State.get_set_ne _ _ (hapart _ _ rfl), State.get_set_same]
    exact Nat.mod_eq_of_lt f.resid.isLt

theorem State.findingNoted_shows (s : State) (n : Nat) (f : CalFinding) : (s.findingNoted n f).ShowsFinding n f := by
  obtain ⟨hok, hresid, hdelta⟩ := s.findingSet_shows n f
  exact ⟨hok, hresid, hdelta⟩

theorem State.calFound_frame (s : State) (n : Nat) (f : CalFinding) :
    s.sameRegs (foundCells n) (s.calFound n f) ∧ s.ButFront (s.calFound n f) := by
  obtain ⟨hregs, hrest⟩ := s.findingNoted_frame n f
  rw [State.calFound_eq]
  split
  · exact ⟨hregs, hrest⟩
  · exact ⟨State.sameRegs_step hregs ((s.findingNoted n f).feCause_sameRegs n 3) (List.subset_append_right _ _),
      hrest.trans (State.sameButRegs_feCause n 3 (State.sameButRegs_refl _)).butFront⟩

theorem State.calFound_shows (s : State) (hn : n < 65) (f : CalFinding) : (s.calFound n f).ShowsFinding n f := by
  rw [State.calFound_eq]
  split
  · exact s.findingNoted_shows n f
  · exact (s.findingNoted_shows n f).step ((s.findingNoted n f).feCause_sameRegs n 3) hn (List.subset_append_right _ _)

theorem State.worstResidual_frame (s : State) : s.sameRegs worstCells s.worstResidual ∧ s.sameButRegs s.worstResidual :=
  ⟨State.sameRegs_raiseIf _ 11 (State.sameRegs_set _ (s.sameRegs_refl _) List.mem_cons_self) (List.subset_cons_self _ _),
    State.sameButRegs_raiseIf _ 11 (State.sameButRegs_set _ _ s.sameButRegs_refl)⟩

/-- A skein that is powered again, as its calibration left it. -/
theorem State.calibrated_shows (s : State) (hn : n < 65) (f : CalFinding) :
    (s.calFound n f).worstResidual.ShowsFinding n f ∧ (s.calFound n f).worstResidual.skeinReady n = s.skeinReady n ∧
      s.ButFront (s.calFound n f).worstResidual := by
  obtain ⟨-, -, -, hready, hready64⟩ := foundCells_apart n hn
  obtain ⟨hfound, hfoundRest⟩ := s.calFound_frame n f
  obtain ⟨hworst, hworstRest⟩ := (s.calFound n f).worstResidual_frame
  have hregs : s.sameRegs (foundCells n ++ worstCells) (s.calFound n f).worstResidual :=
    State.sameRegs_trans (State.sameRegs_mono hfound (List.subset_append_left _ _))
      (State.sameRegs_mono hworst (List.subset_append_right _ _))
  refine ⟨(s.calFound_shows hn f).step hworst hn ?_, State.skeinReady_of_get n (hregs _ hready) (hregs _ hready64),
    hfoundRest.trans hworstRest.butFront⟩
  rw [List.append_assoc]
  exact List.subset_append_left _ _

end

/-! ### UNIT_READY_CHANGE (R125, R377) -/

/-- The READY bit that a skein's gate asks for. -/
def State.readyAsked (s : State) (n : Nat) : Bool := !s.skeinGate n && s.powersUp

theorem exec_unitReadyChange_skein (s : State) (n : Fin 65) (f : CalFinding) :
    exec (.unitReadyChange (.skein n) f) s = if s.skeinReady n.val = s.readyAsked n.val then .next s else
      .next ((if s.readyAsked n.val then (s.calFound n.val f).worstResidual else s).putSkeinReady n.val
        (s.readyAsked n.val)) := rfl

theorem unitReadyChange_skein (s : State) (n : Fin 65) (f : CalFinding)
    (h : s.skeinReady n.val = (s.skeinGate n.val || !s.powersUp)) :
    ∃ t, exec (.unitReadyChange (.skein n) f) s = .next t ∧ t.skeinReady n.val = !s.skeinReady n.val ∧
      t.latched 21 = true ∧ (s.skeinReady n.val = false → t.is (FE_STATUS_CAL_OK.of n.val) = f.ok ∧
        t.get (FE_CAL_STATUS_RESID.of n.val) = f.resid.toNat ∧ t.get (FE_CAL_STATUS_TEMP_DELTA.of n.val) = 0) ∧
      ({ s with skeins := t.skeins } : State).sameButRegs t := by
  have hasked : s.readyAsked n.val = !s.skeinReady n.val := by rw [h, State.readyAsked, Bool.not_or, Bool.not_not]
  obtain ⟨hfinding, hready, hrest⟩ := s.calibrated_shows n.isLt f
  have hstart : ∃ u, (if s.readyAsked n.val then (s.calFound n.val f).worstResidual else s) = u ∧
      u.skeinReady n.val = s.skeinReady n.val ∧ (s.skeinReady n.val = false → u.ShowsFinding n.val f) ∧ s.ButFront u := by
    refine ⟨_, rfl, ?_⟩
    split
    · exact ⟨hready, fun _ => hfinding, hrest⟩
    · next hno => exact ⟨rfl, fun hoff => absurd (by rw [hasked, hoff]; rfl) hno, .refl s⟩
  obtain ⟨u, hu, huReady, huFinding, huRest⟩ := hstart
  rw [exec_unitReadyChange_skein, if_neg (by rw [hasked]; cases s.skeinReady n.val <;> decide), hu, hasked]
  obtain ⟨hregs, hputRest⟩ := u.putSkeinReady_frame n.val (!s.skeinReady n.val)
  refine ⟨_, rfl, ?_, ?_, fun hoff => ?_, huRest.trans hputRest⟩
  · rw [State.skeinReady_putSkeinReady _ _ n.isLt n.isLt, if_pos rfl]
  · exact State.putSkeinReady_latched (by rw [huReady]; cases s.skeinReady n.val <;> decide)
  · obtain ⟨hok, hresid, hdelta⟩ := (huFinding hoff).step hregs n.isLt (fun _ hx => by simp [hx])
    exact ⟨hok, hresid, hdelta⟩

theorem unitReadyChange_skein_idle (s : State) (n : Fin 65) (f : CalFinding)
    (h : s.skeinReady n.val = (!s.skeinGate n.val && s.powersUp)) : exec (.unitReadyChange (.skein n) f) s = .next s := by
  rw [exec_unitReadyChange_skein, State.readyAsked, if_pos h]

theorem unitReadyChange_sequencer_idle (s : State) (n : Fin 8) (f : CalFinding)
    (h : bitOf (s.get PWR_TRG_GATE_READY.one) n.val = (!bitOf (s.get PWR_TRG_GATE_GATE.one) n.val && s.powersUp)) :
    exec (.unitReadyChange (.sequencer n) f) s = .next s := congrArg Host.Outcome.next (if_pos h)

theorem unitReadyChange_sequencer (s : State) (n : Fin 8) (f : CalFinding)
    (h : bitOf (s.get PWR_TRG_GATE_READY.one) n.val = (bitOf (s.get PWR_TRG_GATE_GATE.one) n.val || !s.powersUp)) :
    ∃ t, exec (.unitReadyChange (.sequencer n) f) s = .next t ∧
      bitOf (t.get PWR_TRG_GATE_READY.one) n.val = !bitOf (s.get PWR_TRG_GATE_READY.one) n.val ∧ t.latched 21 = true ∧
      s.sameRegs (PWR_TRG_GATE_READY.one.key :: latches [21]) t ∧ s.sameButRegs t := by
  have hasked : (!bitOf (s.get PWR_TRG_GATE_GATE.one) n.val && s.powersUp) = !bitOf (s.get PWR_TRG_GATE_READY.one) n.val := by
    rw [h, Bool.not_or, Bool.not_not]
  refine ⟨_, congrArg (fun v => Host.Outcome.next (s.putSeqReady n.val v)) hasked, ?_, ?_, s.putSeqReady_frame _ _⟩
  · rw [State.bitOf_putSeqReady _ _ _ n.isLt, if_pos rfl]
  · exact State.putSeqReady_latched (by cases bitOf (s.get PWR_TRG_GATE_READY.one) n.val <;> decide)

end Sys2Proof.Machine
end

