-- ==== Sys2Proof/Proofs/HbmParks.lean ====
section
/-! PROOFS. The HBM in PARK (R287): what its four steps leave of each pseudo-channel's bytes and state. -/

namespace Sys2Proof.Machine

/-! ### The queues as their requests are issued (R271, R272) -/

section
variable (h : Hbm) (pc q : Nat)

theorem Hbm.issueWrite_writes : (h.issueWrite pc).writes q = if q = pc then (h.writes pc).tail else h.writes q := by
  unfold Hbm.issueWrite
  split
  · next w ws hw =>
    rw [hw, List.tail_cons]
    exact sget_sput h.writeQ pc q [] ws
  · next hw =>
    split
    · next hq => rw [hq, hw, List.tail_nil]
    · rfl

theorem Hbm.issueWrite_reads : (h.issueWrite pc).reads q = h.reads q := by
  unfold Hbm.issueWrite
  split <;> rfl

theorem Hbm.issueRead_writes : (h.issueRead pc).writes q = h.writes q := by
  unfold Hbm.issueRead
  split <;> rfl

theorem Hbm.issueRead_reads : (h.issueRead pc).reads q = if q = pc then (h.reads pc).tail else h.reads q := by
  unfold Hbm.issueRead
  split
  · next r rs hr =>
    rw [hr, List.tail_cons]
    exact sget_sput h.readQ pc q [] rs
  · next hr =>
    split
    · next hq => rw [hq, hr, List.tail_nil]
    · rfl

/-- The oldest request leaves its queue. -/
theorem Hbm.issueOldest_queued : (h.issueOldest pc).queued pc = h.queued pc - 1 := by
  have hwrite : (h.issueWrite pc).queued pc = (h.writes pc).length - 1 + (h.reads pc).length := by
    rw [Hbm.queued, Hbm.issueWrite_writes, Hbm.issueWrite_reads, if_pos rfl, List.length_tail]
  have hread : (h.issueRead pc).queued pc = (h.writes pc).length + ((h.reads pc).length - 1) := by
    rw [Hbm.queued, Hbm.issueRead_writes, Hbm.issueRead_reads, if_pos rfl, List.length_tail]
  unfold Hbm.issueOldest
  split
  · next w ws r rs hw hr =>
    rw [hw, hr, List.length_cons, List.length_cons] at hwrite hread
    rw [show h.queued pc = ws.length + 1 + (rs.length + 1) by rw [Hbm.queued, hw, hr]; rfl]
    split
    · omega
    · omega
  · next hr =>
    rw [hwrite, Hbm.queued, hr, List.length_nil]
    omega
  · next hw _ =>
    rw [hread, Hbm.queued, hw, List.length_nil]
    omega

theorem Hbm.issueOldest_writes_ne (hq : q ≠ pc) : (h.issueOldest pc).writes q = h.writes q := by
  have hwrite : (h.issueWrite pc).writes q = h.writes q := by rw [Hbm.issueWrite_writes, if_neg hq]
  unfold Hbm.issueOldest
  split
  · split
    · exact hwrite
    · exact h.issueRead_writes pc q
  · exact hwrite
  · exact h.issueRead_writes pc q

end

theorem Hbm.issueWhile_writes_ne (more : Hbm → Bool) {pc q : Nat} (hq : q ≠ pc) (fuel : Nat) (h : Hbm) :
    (Hbm.issueWhile more pc fuel h).writes q = h.writes q := by
  induction fuel generalizing h with
  | zero => rfl
  | succ fuel ih =>
    unfold Hbm.issueWhile
    split
    · rw [ih, h.issueOldest_writes_ne pc q hq]
    · rfl

/-- As many requests issued as the queues hold leave them empty. -/
theorem Hbm.issueWhile_queued (pc fuel : Nat) (h : Hbm) (hfuel : h.queued pc ≤ fuel) :
    (Hbm.issueWhile (fun _ => true) pc fuel h).queued pc = 0 := by
  induction fuel generalizing h with
  | zero => exact Nat.le_zero.mp hfuel
  | succ fuel ih =>
    refine ih (h.issueOldest pc) ?_
    rw [h.issueOldest_queued pc]
    omega

/-- Every request of a pseudo-channel issued: its bytes show as before, its write queue is empty, the others stand. -/
structure Hbm.Drained (pc : Nat) (h h' : Hbm) : Prop where
  empty : h'.writes pc = []
  queues : ∀ q, q ≠ pc → h'.writes q = h.writes q
  byte : h.Whole pc → ∀ x, h'.byteAt pc x = h.byteAt pc x
  others : h.Whole pc → ∀ q, q ≠ pc → ∀ x < pcBytes, h'.byteAt q x = h.byteAt q x

theorem State.issueAll_drained (s : State) (pc : Nat) : s.hbm.Drained pc (s.issueAll pc).hbm := by
  rw [State.issueAll, State.issuing_hbm]
  have hqueued := Hbm.issueWhile_queued pc (s.hbm.queued pc) s.hbm (Nat.le_refl _)
  constructor
  case empty =>
    rw [Hbm.queued] at hqueued
    exact List.eq_nil_of_length_eq_zero (Nat.eq_zero_of_add_eq_zero_right hqueued)
  case queues => exact fun q hq => Hbm.issueWhile_writes_ne _ hq _ _
  case byte => exact fun hwhole => (Hbm.issueWhile_shows _ _ hwhole).byte
  case others => exact fun hwhole => (Hbm.issueWhile_shows _ _ hwhole).others

/-! ### A pseudo-channel powered down (R287) -/

theorem sget_filter {α : Type} (m : Sparse α) (p : Nat → Bool) (k : Nat) (d : α) :
    sget (m.filter (fun c => p c.1)) k d = if p k then sget m k d else d := by
  induction m with
  | nil => simp [sget]
  | cons c m ih =>
    obtain ⟨j, v⟩ := c
    rw [List.filter_cons]
    by_cases hjk : j = k
    · subst hjk
      by_cases hp : p j = true
      · simp [sget, hp]
      · simp only [if_neg hp, ih]
    · split
      · simp only [sget, if_neg hjk, ih]
      · simp only [sget, if_neg hjk, ih]

theorem memKey_div {pc x : Nat} (hx : x < pcBytes) : memKey pc x / pcBytes = pc := by
  rw [memKey, Nat.mul_comm, Nat.mul_add_div (by decide), Nat.div_eq_of_lt hx, Nat.add_zero]

theorem Hbm.zeroFill_mem (h : Hbm) (pc q : Nat) {x : Nat} (hx : x < pcBytes) :
    sget (h.zeroFill pc).mem (memKey q x) 0 = if q = pc then 0 else sget h.mem (memKey q x) 0 := by
  refine (sget_filter h.mem (fun k => decide (k / pcBytes ≠ pc)) (memKey q x) 0).trans ?_
  rw [memKey_div hx]
  by_cases hq : q = pc
  · simp [hq]
  · simp [hq]

theorem Hbm.byteAt_zeroFill (h : Hbm) {pc x : Nat} (hq : h.writes pc = []) (hx : x < pcBytes) :
    (h.zeroFill pc).byteAt pc x = 0 := by
  have hempty : (h.zeroFill pc).writes pc = [] := hq
  rw [Hbm.byteAt, hempty, Hbm.zeroFill_mem _ _ _ hx, if_pos rfl, List.foldl_nil]

theorem Hbm.byteAt_zeroFill_ne (h : Hbm) {pc q x : Nat} (hq : q ≠ pc) (hx : x < pcBytes) :
    (h.zeroFill pc).byteAt q x = h.byteAt q x := by
  have hwrites : (h.zeroFill pc).writes q = h.writes q := rfl
  rw [Hbm.byteAt, hwrites, Hbm.zeroFill_mem _ _ _ hx, if_neg hq, Hbm.byteAt]

/-! ### The reads at the stack complete (R275, R276) -/

/-- The cells of pseudo-channel `pc` that PARK can change: those of serving it, and those of what its reads met. -/
def parkCells (pc : Nat) : List Nat :=
  serveCells pc ++ [HBM_PC_UE.ofWin (stackOf pc) (pc % 32), HBM_PC_POISON.ofWin (stackOf pc) (pc % 32),
    HBM_UE_TOTAL.of (stackOf pc), HBM_LAST_UE.of (stackOf pc), SWT_FAULTS.one].map Fld.key ++ latches [291 + 16 * stackOf pc, 300 + 16 * stackOf pc, 479]

/-- `t` comes of `s` by a step of PARK on pseudo-channel `pc`: the cells it can change, and the mailbox as it stands. -/
structure State.Parks (pc : Nat) (s t : State) : Prop where
  regs : s.sameRegs (parkCells pc) t
  mbx : t.mbx = s.mbx

namespace State.Parks

variable {pc : Nat} {s t u : State}

theorem refl (pc : Nat) (s : State) : Parks pc s s := ⟨s.sameRegs_refl _, rfl⟩

theorem trans (h : Parks pc s t) (k : Parks pc t u) : Parks pc s u := ⟨State.sameRegs_trans h.regs k.regs, k.mbx.trans h.mbx⟩

theorem ite {c : Prop} [Decidable c] (ht : Parks pc s t) (hu : Parks pc s u) : Parks pc s (if c then t else u) := by
  split
  · exact ht
  · exact hu

theorem set {f : Fld} (h : Parks pc s t) (v : Nat) (hf : f.key ∈ parkCells pc) : Parks pc s (t.set f v) :=
  ⟨State.sameRegs_set v h.regs hf, h.mbx⟩

theorem raise {k : Nat} (h : Parks pc s t) (hk : latches [k] ⊆ parkCells pc) : Parks pc s (t.raise k) :=
  ⟨State.sameRegs_raise k h.regs hk, (State.raise_mbx t k).trans h.mbx⟩

theorem onHbm (h : Parks pc s t) (f : Hbm → Hbm) : Parks pc s (t.onHbm f) := ⟨State.sameRegs_of_regs h.regs rfl, h.mbx⟩

theorem onFlt (h : Parks pc s t) (f : FaultMgr → FaultMgr) : Parks pc s (t.onFlt f) := ⟨State.sameRegs_of_regs h.regs rfl, h.mbx⟩

theorem issueAll (h : Parks pc s t) : Parks pc s (t.issueAll pc) := by
  have hserves : t.Serves pc (t.issueAll pc) := (State.Serves.refl pc t).issuing
  refine ⟨State.sameRegs_step h.regs hserves.regs ?_, (congrArg State.mbx hserves.rest.1).trans h.mbx⟩
  exact fun x hx => List.mem_append_left _ (List.mem_append_left _ hx)

theorem latches_parkCells (pc : Nat) : latches [291 + 16 * stackOf pc, 300 + 16 * stackOf pc, 479] ⊆ parkCells pc :=
  List.subset_append_right _ _

theorem logFault (h : Parks pc s t) (event page outcome detail : Nat) : Parks pc s (t.logFault event page outcome detail) :=
  ((h.onFlt _).set (f := SWT_FAULTS.one) _ (by simp [parkCells])).raise
    (latches_sub (k := 479) (by simp) (latches_parkCells pc))

theorem noteUe (h : Parks pc s t) (x : Nat) : Parks pc s (t.noteUe pc x false) := by
  have hcount : Parks pc s (((t.add (HBM_PC_UE.ofWin (stackOf pc) (pc % 32)) 1).add (HBM_UE_TOTAL.of (stackOf pc)) 1).set
      (HBM_LAST_UE.of (stackOf pc)) (unmapAddr t.serviceList t.grain pc x)) :=
    ((h.set _ (by simp [parkCells])).set _ (by simp [parkCells])).set _ (by simp [parkCells])
  have hraise := hcount.raise (latches_sub (k := 291 + 16 * stackOf pc) (by simp) (latches_parkCells pc))
  exact hraise.logFault _ _ _ _

theorem countPoison (h : Parks pc s t) : Parks pc s (t.countPoison pc) :=
  (h.set _ (by simp [parkCells])).raise (latches_sub (by simp) (latches_parkCells pc))

theorem eccIssued (h : Parks pc s t) (r : HbmIssued) : Parks pc s (t.eccIssued pc r .clean) :=
  .ite h.countPoison (.ite (h.noteUe r.x) h)

theorem readsComplete (h : Parks pc s t) : Parks pc s (t.readsComplete pc) :=
  onHbm (List.foldlRecOn (motive := Parks pc s) _ _ h fun _ hu r _ => (hu.eccIssued r).onHbm _) _

end State.Parks

/-! ### One pseudo-channel parks (R287) -/

/-- The memory and the write queues are as they were. -/
def Hbm.SameBytes (h h' : Hbm) : Prop := h'.mem = h.mem ∧ h'.writeQ = h.writeQ

theorem Hbm.SameBytes.writes {h h' : Hbm} (k : h.SameBytes h') (pc : Nat) : h'.writes pc = h.writes pc := by
  rw [Hbm.writes, k.2, Hbm.writes]

theorem Hbm.SameBytes.byteAt {h h' : Hbm} (k : h.SameBytes h') (pc x : Nat) : h'.byteAt pc x = h.byteAt pc x := by
  rw [Hbm.byteAt, k.writes, k.1, Hbm.byteAt]

theorem State.eccIssued_hbm (s : State) (pc : Nat) (r : HbmIssued) : (s.eccIssued pc r .clean).hbm = s.hbm := by
  unfold State.eccIssued
  split
  · simp [State.countPoison]
  · split
    · simp [State.noteUe, State.logFault]
    · rfl

theorem State.readsComplete_bytes (s : State) (pc : Nat) : s.hbm.SameBytes (s.readsComplete pc).hbm :=
  List.foldlRecOn (motive := fun u : State => s.hbm.SameBytes u.hbm) _ _ ⟨rfl, rfl⟩ fun u hu r _ => by
    have hstep := u.eccIssued_hbm pc r
    exact ⟨(congrArg Hbm.mem hstep).trans hu.1, (congrArg Hbm.writeQ hstep).trans hu.2⟩

/-- Software keeps pseudo-channel `pc` in PARK (R287). -/
def State.retained (s : State) (pc : Nat) : Bool := bitOf (s.get (HBM_RETAIN.of (stackOf pc))) (pc % 32)

/-- PARK's steps on one pseudo-channel. -/
def State.parkPc (s : State) (pc : Nat) : State :=
  if s.retained pc then ((s.issueAll pc).readsComplete pc).putPcState pc 1
  else (((s.issueAll pc).readsComplete pc).putPcState pc 2).onHbm (·.zeroFill pc)

theorem State.parkPc_parks (s : State) (pc : Nat) : s.Parks pc (s.parkPc pc) := by
  have hdone : s.Parks pc ((s.issueAll pc).readsComplete pc) := (State.Parks.refl pc s).issueAll.readsComplete
  have hstate : (HBM_PC_STATE_STATE.ofWin (stackOf pc) (pc % 32)).key ∈ parkCells pc := by simp [parkCells, serveCells]
  unfold State.parkPc
  exact .ite (hdone.set 1 hstate) ((hdone.set 2 hstate).onHbm _)

theorem State.pcState_putPcState (s : State) (pc : Nat) {v : Nat} (hv : v < 8) : (s.putPcState pc v).pcState pc = v :=
  (State.get_set_same _ _ _).trans (Nat.mod_eq_of_lt hv)

theorem State.pcState_onHbm (s : State) (f : Hbm → Hbm) (pc : Nat) : (s.onHbm f).pcState pc = s.pcState pc := rfl

theorem State.parkPc_state (s : State) (pc : Nat) : (s.parkPc pc).pcState pc = if s.retained pc then 1 else 2 := by
  unfold State.parkPc
  split
  · exact State.pcState_putPcState _ pc (by decide)
  · rw [State.pcState_onHbm, State.pcState_putPcState _ pc (by decide)]

theorem State.parkPc_hbm (s : State) (pc : Nat) : (s.parkPc pc).hbm =
    if s.retained pc then ((s.issueAll pc).readsComplete pc).hbm else ((s.issueAll pc).readsComplete pc).hbm.zeroFill pc := by
  unfold State.parkPc
  split <;> rfl

/-- What PARK's steps on pseudo-channel `pc` leave of the bytes. -/
structure Hbm.ParkedAs (keep : Bool) (pc : Nat) (h h' : Hbm) : Prop where
  queues : ∀ q, q ≠ pc → h'.writes q = h.writes q
  empty : h'.writes pc = []
  byte : h.Whole pc → ∀ x < pcBytes, h'.byteAt pc x = if keep then h.byteAt pc x else 0
  others : h.Whole pc → ∀ q, q ≠ pc → ∀ x < pcBytes, h'.byteAt q x = h.byteAt q x

theorem State.parkPc_bytes (s : State) (pc : Nat) : s.hbm.ParkedAs (s.retained pc) pc (s.parkPc pc).hbm := by
  obtain ⟨hempty, hqueues, hbyte, hothers⟩ := s.issueAll_drained pc
  have hdone := (s.issueAll pc).readsComplete_bytes pc
  rw [State.parkPc_hbm]
  generalize ((s.issueAll pc).readsComplete pc).hbm = done at hdone
  split
  · next hkeep =>
    exact ⟨fun q hq => (hdone.writes q).trans (hqueues q hq), (hdone.writes pc).trans hempty,
      fun hwhole x _ => by rw [hkeep, if_pos rfl]; exact (hdone.byteAt pc x).trans (hbyte hwhole x),
      fun hwhole q hq x hx => (hdone.byteAt q x).trans (hothers hwhole q hq x hx)⟩
  · next hlost =>
    exact ⟨fun q hq => (hdone.writes q).trans (hqueues q hq), (hdone.writes pc).trans hempty,
      fun _ x hx => by rw [if_neg hlost]; exact Hbm.byteAt_zeroFill _ ((hdone.writes pc).trans hempty) hx,
      fun hwhole q hq x hx => (Hbm.byteAt_zeroFill_ne _ hq hx).trans ((hdone.byteAt q x).trans (hothers hwhole q hq x hx))⟩

/-! ### The HBM parks -/

/-- The pseudo-channel whose PC_STATE.STATE a register's number names. -/
def statePc (k : Nat) : Nat := 32 * (k / (64 * 16384 * 64 * 4096) - 0x180) + k / 64 % 16384

/-- The place within its page that a register's number names. -/
def keySpot (k : Nat) : Nat := k / (64 * 16384) % (64 * 4096)

/-- A pseudo-channel's PC_STATE.STATE is no cell that PARK's steps on another one change. -/
theorem pcState_apart {q pc : Nat} (hq : q < 128) (hpc : pc < 128) (hne : q ≠ pc) :
    (HBM_PC_STATE_STATE.ofWin (stackOf q) (q % 32)).key ∉ parkCells pc := by
  have hown : ∀ q < 128, statePc (HBM_PC_STATE_STATE.ofWin (stackOf q) (q % 32)).key = q ∧
      keySpot (HBM_PC_STATE_STATE.ofWin (stackOf q) (q % 32)).key = 64 * 0x48 := by decide +kernel
  have hcells : ∀ pc < 128, ∀ k ∈ parkCells pc,
      k = (HBM_PC_STATE_STATE.ofWin (stackOf pc) (pc % 32)).key ∨ keySpot k ≠ 64 * 0x48 := by decide +kernel
  intro hmem
  rcases hcells pc hpc _ hmem with heq | hspot
  · exact hne ((hown q hq).1.symm.trans ((congrArg statePc heq).trans (hown pc hpc).1))
  · exact hspot (hown q hq).2

/-- The power state and what software keeps are no cells of the pseudo-channels' parking. -/
theorem parkCells_apart : ∀ pc < 128, PWR_STATUS_STATE.one.key ∉ parkCells pc ∧
    ∀ k < 4, (HBM_RETAIN.of k).key ∉ parkCells pc := by decide +kernel

/-- `t` stands between the steps of PARK that began in `s`. -/
structure State.Parking (s t : State) : Prop where
  mbx : t.mbx = s.mbx
  power : t.get PWR_STATUS_STATE.one = s.get PWR_STATUS_STATE.one
  retained : ∀ pc < 128, t.retained pc = s.retained pc

theorem State.Parking.parkPc {s t : State} (h : s.Parking t) {pc : Nat} (hpc : pc < 128) : s.Parking (t.parkPc pc) := by
  obtain ⟨hregs, hmbx⟩ := t.parkPc_parks pc
  obtain ⟨hpower, hretain⟩ := parkCells_apart pc hpc
  refine ⟨hmbx.trans h.mbx, (hregs _ hpower).trans h.power, fun q hq => Eq.trans ?_ (h.retained q hq)⟩
  have hstack : stackOf q < 4 := Nat.div_lt_of_lt_mul hq
  rw [State.retained, hregs _ (hretain _ hstack), State.retained]

theorem serviceList_lt {s : State} {pc : Nat} (h : pc ∈ s.serviceList) : pc < 128 := by
  have horder : ∀ pc ∈ pcOrder, pc < 128 := by decide +kernel
  exact horder pc (List.mem_of_mem_filter h)

theorem State.serviceList_nodup (s : State) : s.serviceList.Nodup := by
  have horder : pcOrder.Nodup := by decide +kernel
  exact horder.filter _

/-- PARK's steps on every pseudo-channel in service. -/
def State.parkPcs (s : State) : State := forEach s.serviceList s (fun pc s => s.parkPc pc)

theorem State.parkPcs_parking (s : State) : s.Parking s.parkPcs :=
  List.foldlRecOn (motive := s.Parking) _ _ ⟨rfl, rfl, fun _ _ => rfl⟩ fun _ hu _ hpc => hu.parkPc (serviceList_lt hpc)

/-- Pseudo-channel `pc` of `t` is parked as `s` had it. -/
def State.ShowsParked (s : State) (pc : Nat) (t : State) : Prop :=
  (s.retained pc = true → t.pcState pc = 1 ∧ ∀ x < pcBytes, t.hbm.byteAt pc x = s.hbm.byteAt pc x) ∧
  (s.retained pc = false → t.pcState pc = 2 ∧ ∀ x < pcBytes, t.hbm.byteAt pc x = 0)

/-- What a pseudo-channel shows: its state and its bytes. -/
def State.pcShown (s : State) (pc : Nat) : Nat × (Fin pcBytes → Byte) := (s.pcState pc, fun x => s.hbm.byteAt pc x.val)

theorem State.pcShown_parkPc_ne (s : State) {q pc : Nat} (hq : q < 128) (hpc : pc < 128) (hne : q ≠ pc)
    (hwhole : s.hbm.Whole pc) : (s.parkPc pc).pcShown q = s.pcShown q := by
  have hstate : (s.parkPc pc).pcState q = s.pcState q := (s.parkPc_parks pc).regs _ (pcState_apart hq hpc hne)
  rw [State.pcShown, hstate, State.pcShown]
  exact congrArg (Prod.mk _) (funext fun x => (s.parkPc_bytes pc).others hwhole q hne x.val x.isLt)

theorem State.pcShown_parkPc (s : State) {pc : Nat} (hwhole : s.hbm.Whole pc) :
    (s.parkPc pc).pcShown pc = (if s.retained pc then 1 else 2, fun x => if s.retained pc then s.hbm.byteAt pc x.val else 0) := by
  rw [State.pcShown, State.parkPc_state]
  exact congrArg (Prod.mk _) (funext fun x => (s.parkPc_bytes pc).byte hwhole x.val x.isLt)

theorem State.parkPc_whole (s : State) (pc : Nat) (h : ∀ q, s.hbm.Whole q) : ∀ q, (s.parkPc pc).hbm.Whole q := by
  intro q
  by_cases hq : q = pc
  · subst hq
    rw [Hbm.Whole, (s.parkPc_bytes q).empty]
    simp
  · rw [Hbm.Whole, (s.parkPc_bytes pc).queues q hq]
    exact h q

theorem State.parkPcs_shows (s : State) (hwhole : ∀ q, s.hbm.Whole q) {pc : Nat} (hpc : pc ∈ s.serviceList) :
    s.ShowsParked pc s.parkPcs := by
  obtain ⟨u, ⟨hpark, huWhole⟩, hbefore, hafter⟩ := forEach_at s.serviceList_nodup hpc (f := fun pc s => s.parkPc pc)
    (fun u => s.Parking u ∧ ∀ q, u.hbm.Whole q) (·.pcShown pc) ⟨⟨rfl, rfl, fun _ _ => rfl⟩, hwhole⟩
    (fun a ha u hu => ⟨hu.1.parkPc (serviceList_lt ha), u.parkPc_whole a hu.2⟩)
    (fun a ha hne u hu => u.pcShown_parkPc_ne (serviceList_lt hpc) (serviceList_lt ha) hne.symm (hu.2 a))
  have hshown : s.parkPcs.pcShown pc =
      (if s.retained pc then 1 else 2, fun x => if s.retained pc then s.hbm.byteAt pc x.val else 0) := by
    have hbytes : ∀ x : Fin pcBytes, u.hbm.byteAt pc x.val = s.hbm.byteAt pc x.val := fun x =>
      congrFun (congrArg Prod.snd hbefore) x
    rw [State.parkPcs, hafter, u.pcShown_parkPc (huWhole pc), hpark.retained pc (serviceList_lt hpc)]
    exact congrArg (Prod.mk _) (funext fun x => by rw [hbytes x])
  have hstate := congrArg Prod.fst hshown
  have hbyte : ∀ x < pcBytes, s.parkPcs.hbm.byteAt pc x = if s.retained pc then s.hbm.byteAt pc x else 0 :=
    fun x hx => congrFun (congrArg Prod.snd hshown) ⟨x, hx⟩
  refine ⟨fun hkeep => ⟨hstate.trans (if_pos hkeep), fun x hx => (hbyte x hx).trans (if_pos hkeep)⟩, fun hlost => ?_⟩
  have hno : ¬ s.retained pc = true := by simp [hlost]
  exact ⟨hstate.trans (if_neg hno), fun x hx => (hbyte x hx).trans (if_neg hno)⟩

/-- The cells of PARK's end on the HBM: the stacks' states, the HBM's own and the stacks' park events. -/
def parkedCells : List Nat :=
  (upto 4).map (fun k => (HBM_STATUS_STATE.of k).key) ++ [HBM_G_STATUS_PARKED.one, HBM_G_STATUS_READY.one].map Fld.key ++
    latches [304, 320, 336, 352]

theorem State.stackStates_frame (s : State) (v : Nat) :
    s.sameRegs ((upto 4).map (fun k => (HBM_STATUS_STATE.of k).key)) (s.stackStates v) ∧ s.OnlyRegs (s.stackStates v) :=
  ⟨State.sameRegs_forEach (s.sameRegs_refl _) fun _ hk _ hu =>
      State.sameRegs_ite hu (State.sameRegs_set _ hu (List.mem_map_of_mem hk)),
    .forEach (.refl s) fun _ _ h => .ite h (h.set _ _)⟩

theorem State.hbmPark_eq (s : State) : s.hbmPark = forEach (upto 4)
    (((s.parkPcs.stackStates 4).set HBM_G_STATUS_PARKED.one 1).set HBM_G_STATUS_READY.one 0)
    (fun k s => s.raise (304 + 16 * k)) := rfl

/-- The HBM parks: after the pseudo-channels, registers alone. -/
theorem State.hbmPark_frame (s : State) : s.parkPcs.sameRegs parkedCells s.hbmPark ∧ s.parkPcs.sameButRegs s.hbmPark := by
  obtain ⟨hstacks, hstacksRest⟩ := s.parkPcs.stackStates_frame 4
  have hcells : ∀ k < 4, latches [304 + 16 * k] ⊆ parkedCells := by decide
  rw [State.hbmPark_eq]
  refine List.foldlRecOn (motive := fun u => s.parkPcs.sameRegs parkedCells u ∧ s.parkPcs.sameButRegs u) _ _ ⟨?_, ?_⟩
    fun u hu k hk => ⟨State.sameRegs_raise _ hu.1 (hcells k (List.mem_range.mp hk)), State.sameButRegs_raise _ hu.2⟩
  · have hsub : (upto 4).map (fun k => (HBM_STATUS_STATE.of k).key) ⊆ parkedCells :=
      fun _ hx => List.mem_append_left _ (List.mem_append_left _ hx)
    exact State.sameRegs_set _ (State.sameRegs_set _ (State.sameRegs_mono hstacks hsub) (by simp [parkedCells]))
      (by simp [parkedCells])
  · exact State.sameButRegs_set _ _ (State.sameButRegs_set _ _ hstacksRest.sameButRegs)

theorem State.hbmPark_marks (s : State) :
    s.hbmPark.is HBM_G_STATUS_PARKED.one = true ∧ s.hbmPark.is HBM_G_STATUS_READY.one = false := by
  have hcells : ∀ k ∈ upto 4,
      HBM_G_STATUS_PARKED.one.key ∉ latches [304 + 16 * k] ∧ HBM_G_STATUS_READY.one.key ∉ latches [304 + 16 * k] := by decide
  rw [State.hbmPark_eq, State.is, State.is, forEach_get _ fun k hk u => u.raise_get_ne _ (hcells k hk).1,
    forEach_get _ fun k hk u => u.raise_get_ne _ (hcells k hk).2, State.get_set_same, State.get_set_ne _ _ (by decide),
    State.get_set_same]
  exact ⟨rfl, rfl⟩

end Sys2Proof.Machine
end

