-- ==== Sys2Proof/Proofs/ParkAndWake.lean ====
section
/-! PROOFS. PARK and WAKE complete (R371, R372, R380), and the obligation on gates, READY bits, park and wake. -/

namespace Sys2Proof.Machine

/-! ### The mailbox command that ends (R395) -/

theorem State.mbxEndWith_cur (s : State) (result : Nat) (reply : List Byte) (bulk : Bool) :
    (s.mbxEndWith result reply bulk).mbx.cur = none := by
  cases hcur : s.mbx.cur with
  | none => rw [State.mbxEndWith, hcur]; exact hcur
  | some c =>
    rw [State.mbxEndWith_eq hcur]
    split
    · exact (s.forwardEnd_concluded c result reply).cur
    · exact (s.replied_concluded c result reply _).cur

theorem State.mbxOk_cur (s : State) (reply : List Byte) : (s.mbxOk reply).mbx.cur = none := s.mbxApplied.mbxEndWith_cur _ _ _

theorem State.mbxEnd_cur (s : State) (result : Nat) (reply : List Byte) : (s.mbxEnd result reply).mbx.cur = none :=
  s.mbxEndWith_cur _ _ _

theorem State.mbxEnd_result {s : State} {c : MbxCmd} (h : s.mbx.cur = some c) {result : Nat} (hresult : result < 256)
    (reply : List Byte) : (s.mbxEnd result reply).get MBX_STATUS_RESULT.one = result := by
  refine Eq.trans ?_ (Nat.mod_eq_of_lt hresult)
  rw [State.mbxEnd, State.mbxEndWith_eq h]
  split
  · exact (s.forwardEnd_concluded c result reply).result
  · exact (s.replied_concluded c result reply _).result

/-- A command that ends without a reply writes nothing to BAR4. -/
theorem Evolves.mbxEndWith_nil {τ μ : Bool} {s₀ s : State} {result : Nat} {bulk : Bool} (h : Evolves τ μ s₀ s) :
    Evolves τ μ s₀ (s.mbxEndWith result [] bulk) := by
  unfold State.mbxEndWith
  split
  · exact h
  · extract_lets long s1 s2 s3
    have h1 : Evolves τ μ s₀ s1 := h
    have h2 : Evolves τ μ s₀ s2 := h1.set.set.set
    have h3 : Evolves τ μ s₀ s3 := h2.set.set.set
    exact .ite h.forwardEnd h3.add.onMbx.raise

theorem State.mbxServes_iff (s : State) (code : Nat) : s.mbxServes code = true ↔ ∃ c, s.mbx.cur = some c ∧ c.code = code := by
  unfold State.mbxServes
  cases s.mbx.cur with
  | none => simp
  | some c => simp

/-- One command is in service at most. -/
theorem State.mbxServes_unique {s : State} {code other : Nat} (h : s.mbxServes code = true) (hne : code ≠ other) :
    s.mbxServes other = false := by
  obtain ⟨c, hcur, hcode⟩ := (s.mbxServes_iff code).mp h
  refine Bool.eq_false_iff.mpr fun hother => ?_
  obtain ⟨d, hcur', hcode'⟩ := (s.mbxServes_iff other).mp hother
  cases hcur.symm.trans hcur'
  exact hne (hcode.symm.trans hcode')

/-! ### What a parked device shows (R371) -/

/-- The cells in which a parked device shows. -/
def parkMarks : List Fld :=
  [HBM_G_STATUS_PARKED.one, HBM_G_STATUS_READY.one, PWR_SKN_READY.one, PWR_SKN_READY_64.one, PWR_TRG_GATE_READY.one]

/-- The HBM is parked and no unit is ready. -/
structure State.AtPark (t : State) : Prop where
  parked : t.is HBM_G_STATUS_PARKED.one = true
  notReady : t.is HBM_G_STATUS_READY.one = false
  skeins : ∀ n < 65, t.skeinReady n = false
  seqs : ∀ n < 8, bitOf (t.get PWR_TRG_GATE_READY.one) n = false

theorem State.AtPark.step {t u : State} (h : t.AtPark) (k : ∀ f ∈ parkMarks, u.get f = t.get f) : u.AtPark := by
  simp only [parkMarks, List.forall_mem_cons, List.not_mem_nil, false_implies, implies_true, and_true] at k
  obtain ⟨hparked, hready, hskeins, hspare, hseqs⟩ := k
  refine ⟨?_, ?_, fun n hn => (State.skeinReady_of_get n hskeins hspare).trans (h.skeins n hn),
    fun n hn => by rw [hseqs, h.seqs n hn]⟩
  · rw [State.is, hparked]
    exact h.parked
  · rw [State.is, hready]
    exact h.notReady

theorem State.ShowsParked.step {s t u : State} {pc : Nat} (h : s.ShowsParked pc t) (hstate : u.pcState pc = t.pcState pc)
    (hhbm : u.hbm = t.hbm) : s.ShowsParked pc u := by
  unfold State.ShowsParked
  rw [hstate, hhbm]
  exact h

/-- The device with its HBM parked and its units gated: STATE reads 3. -/
def State.parkedState (s : State) : State := (s.hbmPark.allReady false).putPower 3

/-- Neither the end of PARK's steps nor that of a command writes a pseudo-channel's state. -/
theorem parkEnd_apart : ∀ pc < 128, (HBM_PC_STATE_STATE.ofWin (stackOf pc) (pc % 32)).key ∉
    parkedCells ++ readyCells ++ (PWR_STATUS_STATE.one.key :: latches [20]) ++ okCells := by decide +kernel

/-- What the device shows once STATE reads 3. -/
structure State.ParkDone (s t : State) : Prop where
  marks : t.AtPark
  power : t.get PWR_STATUS_STATE.one = 3
  latched : t.latched 20 = true
  mbx : t.mbx = s.mbx
  pcs : (∀ q, s.hbm.Whole q) → ∀ pc ∈ s.serviceList, s.ShowsParked pc t

theorem State.parkedState_done {s : State} (h : s.get PWR_STATUS_STATE.one = 2) : s.ParkDone s.parkedState := by
  obtain ⟨hpark, hparkRest⟩ := s.hbmPark_frame
  obtain ⟨hready, hreadyRest⟩ := s.hbmPark.allReady_frame false
  obtain ⟨hparked, hnotReady⟩ := s.hbmPark_marks
  have hbefore : (s.hbmPark.allReady false).get PWR_STATUS_STATE.one = 2 := by
    rw [hready _ (by decide), hpark _ (by decide), s.parkPcs_parking.power, h]
  obtain ⟨hpower, hlatched, hmbx, hregs, hrest⟩ :=
    State.putPower_shows (s := s.hbmPark.allReady false) (v := 3) (by decide) (by omega)
  have hmarks : (s.hbmPark.allReady false).AtPark :=
    ⟨(State.is_of_sameRegs hready (by decide)).trans hparked, (State.is_of_sameRegs hready (by decide)).trans hnotReady,
      fun n hn => s.hbmPark.skeinReady_allReady false hn, fun n hn => s.hbmPark.seqReady_allReady false hn⟩
  have hcells : ∀ f ∈ parkMarks, f.key ∉ PWR_STATUS_STATE.one.key :: latches [20] := by decide
  refine ⟨hmarks.step fun f hf => hregs f (hcells f hf), hpower, hlatched, ?_, fun hwhole pc hpc => ?_⟩
  · rw [State.parkedState, hmbx, hreadyRest.mbx, hparkRest.butFront.mbx]
    exact s.parkPcs_parking.mbx
  · have hapart := parkEnd_apart pc (serviceList_lt hpc)
    simp only [List.mem_append, not_or] at hapart
    obtain ⟨⟨⟨hparkKey, hreadyKey⟩, hpowerKey⟩, -⟩ := hapart
    refine (s.parkPcs_shows hwhole hpc).step ?_ ?_
    · exact (hregs _ hpowerKey).trans ((hready _ hreadyKey).trans (hpark _ hparkKey))
    · rw [State.parkedState, hrest.keeps State.hbm, hreadyRest.hbm, hparkRest.butFront.hbm]

/-- A device at rest ends its command: it stays as parked as it was. -/
theorem State.ParkDone.ended {s t u : State} (h : s.ParkDone t) (k : t.sameRegs okCells u) (hmail : t.MailOnly u) :
    u.AtPark ∧ u.get PWR_STATUS_STATE.one = 3 ∧ u.latched 20 = true ∧
      ((∀ q, s.hbm.Whole q) → ∀ pc ∈ s.serviceList, s.ShowsParked pc u) := by
  have hcells : ∀ f ∈ parkMarks, f.key ∉ okCells := by decide
  refine ⟨h.marks.step fun f hf => k f (hcells f hf), (k _ (by decide)).trans h.power,
    (State.latched_of_sameRegs k (by decide)).trans h.latched, fun hwhole pc hpc => ?_⟩
  have hapart := parkEnd_apart pc (serviceList_lt hpc)
  exact (h.pcs hwhole pc hpc).step (k _ fun hmem => hapart (List.mem_append_right _ hmem)) (hmail.keeps State.hbm)

/-! ### PARK_COMPLETE (R371, R372, R380) -/

theorem exec_parkComplete {s : State} (h : s.get PWR_STATUS_STATE.one = 2) (hruns : s.anyRuns = false) :
    exec .parkComplete s = .next (if s.mbxServes 0x20 then s.parkedState.mbxOk []
      else if !s.mbxServes 0x21 then s.parkedState
      else if s.is PWR_STATUS_TRIPPED.one then s.parkedState.mbxEnd 3 [] else s.parkedState.wakeStart) :=
  if_pos ⟨h, by rw [hruns]; rfl⟩

theorem parkComplete_idle {s : State} (h : s.get PWR_STATUS_STATE.one ≠ 2 ∨ s.anyRuns = true) : exec .parkComplete s = .next s :=
  if_neg fun ⟨hstate, hruns⟩ => h.elim (fun hne => hne hstate) fun htrue => by simp [htrue] at hruns

theorem leaveSelfRefresh_keeps (s : State) {f : Fld}
    (h : ∀ pc < 128, f.key ≠ (HBM_PC_STATE_STATE.ofWin (stackOf pc) (pc % 32)).key) :
    s.leaveSelfRefresh.get f = s.get f :=
  forEach_get s fun pc hpc u => by
    split
    · exact State.get_set_ne _ _ (h pc (serviceList_lt hpc))
    · rfl

/-- A WAKE that starts leaves the device as parked as it was. -/
theorem State.AtPark.wakeStart {s : State} (h : s.AtPark) (hstate : s.get PWR_STATUS_STATE.one = 3) : s.wakeStart.AtPark := by
  obtain ⟨-, -, -, hregs, -⟩ := State.putPower_shows (s := s) (v := 4) (by decide) (by omega)
  obtain ⟨hcal, -⟩ := (s.putPower 4).fullCal_frame
  have hcells : ∀ f ∈ parkMarks, f.key ∉ PWR_STATUS_STATE.one.key :: latches [20] ∧ f.key ∉ calCells ∧
      ∀ pc < 128, f.key ≠ (HBM_PC_STATE_STATE.ofWin (stackOf pc) (pc % 32)).key := by decide +kernel
  have hstart : ∀ f ∈ parkMarks, (s.putPower 4).fullCal.get f = s.get f := fun f hf =>
    (hcal f (hcells f hf).2.1).trans (hregs f (hcells f hf).1)
  refine h.step fun f hf => ?_
  unfold State.wakeStart
  extract_lets s1
  split
  · exact hstart f hf
  · exact (leaveSelfRefresh_keeps _ (hcells f hf).2.2).trans (hstart f hf)

theorem parkComplete_parks (s : State) (h : s.get PWR_STATUS_STATE.one = 2) (hruns : s.anyRuns = false) :
    ∃ t, exec .parkComplete s = .next t ∧ t.AtPark ∧ t.latched 20 = true ∧
      t.get PWR_STATUS_STATE.one = (if s.mbxServes 0x21 && !s.is PWR_STATUS_TRIPPED.one then 4 else 3) ∧
      (s.mbxServes 0x20 = true → t.mbx.cur = none) ∧
      (s.mbxServes 0x21 = true → s.is PWR_STATUS_TRIPPED.one = true → t.mbx.cur = none ∧ t.get MBX_STATUS_RESULT.one = 3) ∧
      ((s.mbxServes 0x21 = false ∨ s.is PWR_STATUS_TRIPPED.one = true) → (∀ q, s.hbm.Whole q) →
        ∀ pc ∈ s.serviceList, s.ShowsParked pc t) := by
  have hdone := State.parkedState_done h
  refine ⟨_, exec_parkComplete h hruns, ?_⟩
  generalize s.parkedState = u at hdone
  by_cases hpark : s.mbxServes 0x20 = true
  · have hwake : s.mbxServes 0x21 = false := State.mbxServes_unique hpark (by decide)
    obtain ⟨hmarks, hpower, hlatched, hpcs⟩ := hdone.ended (u.mbxOk_frame []) (u.mbxOk_mailOnly [])
    rw [if_pos hpark, hwake]
    exact ⟨hmarks, hlatched, hpower, fun _ => u.mbxOk_cur [], fun hno => absurd hno Bool.false_ne_true, fun _ => hpcs⟩
  rw [if_neg hpark]
  by_cases hwake : s.mbxServes 0x21 = true
  case neg =>
    have hwake' : s.mbxServes 0x21 = false := Bool.eq_false_iff.mpr hwake
    rw [hwake']
    exact ⟨hdone.marks, hdone.latched, hdone.power, fun hno => absurd hno hpark,
      fun hno => absurd hno Bool.false_ne_true, fun _ => hdone.pcs⟩
  rw [hwake]
  by_cases htripped : s.is PWR_STATUS_TRIPPED.one = true
  · obtain ⟨c, hcur, -⟩ := (s.mbxServes_iff 0x21).mp hwake
    have hframe : u.sameRegs okCells (u.mbxEnd 3 []) := State.sameRegs_mono (u.mbxEnd_frame 3 []) (List.subset_append_right _ _)
    obtain ⟨hmarks, hpower, hlatched, hpcs⟩ := hdone.ended hframe (u.mbxEnd_mailOnly 3 [])
    rw [htripped]
    exact ⟨hmarks, hlatched, hpower, fun hno => absurd hno hpark,
      fun _ _ => ⟨u.mbxEnd_cur 3 [], State.mbxEnd_result (by rw [hdone.mbx, hcur]) (by decide) []⟩, fun _ => hpcs⟩
  · have htripped' : s.is PWR_STATUS_TRIPPED.one = false := Bool.eq_false_iff.mpr htripped
    obtain ⟨hpower, hlatched, -⟩ := State.wakeStart_shows hdone.power
    rw [htripped']
    exact ⟨hdone.marks.wakeStart hdone.power, hlatched, hpower, fun hno => absurd hno hpark,
      fun _ hno => absurd hno Bool.false_ne_true, fun hno => by simp at hno⟩

/-! ### WAKE_COMPLETE (R372) -/

/-- The device back in IDLE, every unit ready as its gate says. -/
def State.wokenState (s : State) : State := (s.putPower 1).allReady true

theorem exec_wakeComplete {s : State} (h : s.get PWR_STATUS_STATE.one = 4) (hparked : s.is HBM_G_STATUS_PARKED.one = false)
    (hbusy : s.is FEG_STATUS_CAL_BUSY.one = false) :
    exec .wakeComplete s = .next (if s.mbxServes 0x21 then s.wokenState.mbxOk [] else s.wokenState) :=
  if_pos ⟨h, by rw [hparked]; rfl, by rw [hbusy]; rfl⟩

theorem wakeComplete_idle {s : State} (h : s.get PWR_STATUS_STATE.one ≠ 4 ∨ s.is HBM_G_STATUS_PARKED.one = true ∨
    s.is FEG_STATUS_CAL_BUSY.one = true) : exec .wakeComplete s = .next s := by
  refine if_neg fun ⟨hstate, hparked, hbusy⟩ => ?_
  rcases h with hne | htrue | htrue
  · exact hne hstate
  · simp [htrue] at hparked
  · simp [htrue] at hbusy

/-- What the device shows once it is awake. -/
structure State.Awake (s t : State) : Prop where
  power : t.get PWR_STATUS_STATE.one = 1
  latched : t.latched 20 = true
  skeins : ∀ n < 65, t.skeinReady n = !s.skeinGate n
  seqs : ∀ n < 8, bitOf (t.get PWR_TRG_GATE_READY.one) n = !bitOf (s.get PWR_TRG_GATE_GATE.one) n

theorem State.wokenState_awake {s : State} (h : s.get PWR_STATUS_STATE.one = 4) : s.Awake s.wokenState := by
  obtain ⟨hpower, hlatched, -, hregs, -⟩ := State.putPower_shows (s := s) (v := 1) (by decide) (by omega)
  obtain ⟨hready, -⟩ := (s.putPower 1).allReady_frame true
  refine ⟨(hready _ (by decide)).trans hpower, (State.latched_of_sameRegs hready (by decide)).trans hlatched,
    fun n hn => ?_, fun n hn => ?_⟩
  · rw [State.wokenState, State.skeinReady_allReady _ _ hn,
      State.skeinGate_of_get n (hregs _ (by decide)) (hregs _ (by decide)),
      Bool.true_and]
  · rw [State.wokenState, State.seqReady_allReady _ _ hn, hregs _ (by decide), Bool.true_and]

theorem State.Awake.ended {s t u : State} (h : s.Awake t) (k : t.sameRegs okCells u) : s.Awake u :=
  ⟨(k _ (by decide)).trans h.power, (State.latched_of_sameRegs k (by decide)).trans h.latched,
    fun n hn => (State.skeinReady_of_get n (k _ (by decide)) (k _ (by decide))).trans (h.skeins n hn),
    fun n hn => by rw [k _ (by decide), h.seqs n hn]⟩

theorem wakeComplete_wakes (s : State) (h : s.get PWR_STATUS_STATE.one = 4) (hparked : s.is HBM_G_STATUS_PARKED.one = false)
    (hbusy : s.is FEG_STATUS_CAL_BUSY.one = false) :
    ∃ t, exec .wakeComplete s = .next t ∧ s.Awake t ∧ (s.mbxServes 0x21 = true → t.mbx.cur = none) ∧ s.sameMemory t := by
  have hawake := State.wokenState_awake h
  have hmemory : Evolves true false s s.wokenState := ((Evolves.refl true false s).putPower).allReady
  rw [exec_wakeComplete h hparked hbusy]
  by_cases hwake : s.mbxServes 0x21 = true
  · rw [if_pos hwake]
    exact ⟨_, rfl, hawake.ended (s.wokenState.mbxOk_frame []), fun _ => s.wokenState.mbxOk_cur [],
      (hmemory.mbxApplied.mbxEndWith_nil (result := 0) (bulk := false)).sameMemory⟩
  · rw [if_neg hwake]
    exact ⟨_, rfl, hawake, fun hno => absurd hno hwake, hmemory.sameMemory⟩

/-- Settles O43: each unit's step changes its own bit alone, so that a gate, a READY bit or a pseudo-channel's parking reads
after the loop as after the unit's own step. -/
theorem gatesParkAndWake : Obligations.GatesParkAndWake := by
  unfold Obligations.GatesParkAndWake
  refine ⟨skeinGateWrite_spare, skeinGateWrite_skeins, sequencerGateWrite_gates, unitReadyChange_skein, unitReadyChange_skein_idle,
    unitReadyChange_sequencer_idle, unitReadyChange_sequencer, fun s h hruns => ?_, fun s => parkComplete_idle,
    fun s => wakeComplete_idle, fun s h hparked hbusy => ?_⟩
  · obtain ⟨t, hexec, ⟨hparked, hready, hskeins, hseqs⟩, hlatched, hpower, hpark, hwake, hpcs⟩ := parkComplete_parks s h hruns
    exact ⟨t, hexec, hparked, hready, hskeins, hseqs, hlatched, hpower, hpark, hwake, hpcs⟩
  · obtain ⟨t, hexec, ⟨hpower, hlatched, hskeins, hseqs⟩, hcur, hmemory⟩ := wakeComplete_wakes s h hparked hbusy
    exact ⟨t, hexec, hpower, hlatched, hskeins, hcur, hseqs, hmemory⟩

end Sys2Proof.Machine
end
